-- ==== Sys2Proof/Word.lean ====
section
/-! DEFINITION. The word types of the device and the plainest readings of them. -/

namespace Sys2Proof

/-- A 32-bit register of one lane. -/
abbrev Word := BitVec 32

/-- A 64-bit value: a register pair, an address, a counter. -/
abbrev DWord := BitVec 64

/-- One byte of memory. -/
abbrev Byte := BitVec 8

/-- A mask with one bit for each lane of a group. -/
abbrev Mask := BitVec 32

/-- An operand field of 8 bits (R139). -/
abbrev Reg := BitVec 8

end Sys2Proof
end

