-- ==== Sys2Proof/Config.lean ====
section
/-! DEFINITION. What the manual leaves to the part: free values (constants with no body, so that no proof can
see one) and the capability list a shipped part reports (R3, R351). -/

namespace Sys2Proof

/-- A free choice. `site` names the point of the manual that leaves the value open, `fresh` is the counter
`State.fresh`, and `idx` tells several free values of one step apart (log 2). -/
opaque Config.free : (site fresh idx : Nat) → Nat

/-- The member of the bounded set of R202 that this part returns: a fixed function of the operation and its
operand, the same in every lane (log 8). -/
opaque Config.sfuPick : (minor : Nat) → Word → Nat

/-- Bytes read under a key other than the one a line was written under (R348; log 12). -/
opaque Config.noise : (physAddr keyTag : Nat) → Byte

/-- Bytes of an image that the device writes for itself (a spill or save image, queued commands, staged data), which the
manual does not lay out (R337, R339; log 35): `id` tells the images apart. -/
opaque Config.imageByte : (id physAddr : Nat) → Byte

/-- Where a partition's private region begins in its address space: the upper half of the global window (R57; log 37). -/
def Config.privRegion : Nat := 2 ^ 54

/-- The combination of two DS8 or E8M0 elements by a reduce-store or a collective, to which the manual gives no arithmetic
(R267, R268; log 17). -/
opaque Config.combineScale : (type rop old new : Nat) → Nat

/-- Verification of an ML-DSA-65 signature (FIPS 204; R349) under a public key: the algorithm is a published
standard, of which the model uses only the answer (log 15). -/
opaque Config.mldsaVerify : (publicKey message signature : List Byte) → Bool

/-- The signature the security processor makes under the device key (R350; log 15). -/
opaque Config.mldsaSign : (m0 message : List Byte) → List Byte

/-- The SHAKE256 digest of the public key that is fused into the part (R349; log 3). -/
opaque Config.fusedKeyDigest : List Byte

/-- The certificate chain of the device key (R350; log 15). -/
opaque Config.certChain : List Byte

/-- One entry of the capability list (R351): identifier, version and body words. -/
structure Cap where
  id : Nat
  version : Nat
  body : List Word
  deriving DecidableEq, Repr

/-- The capability list of a shipped TV-4200 (Table 18-4). -/
def Config.caps : List Cap :=
  [⟨1, 1, []⟩, ⟨2, 1, [3#32]⟩, ⟨3, 1, []⟩, ⟨4, 1, [7#32]⟩, ⟨5, 1, [8192#32]⟩]

/-- The body of a capability, if the list reports it. -/
def Config.cap (id : Nat) : Option (List Word) :=
  (Config.caps.find? fun c => c.id == id).map (·.body)

/-- DS8 is reported (R3). -/
def Config.hasDs8 : Bool := (Config.cap 1).isSome

/-- Hashed-grid interpolation kind `k` is reported (R3, R79). -/
def Config.hasInterp (k : Nat) : Bool :=
  match Config.cap 2 with
  | some (w :: _) => w.getLsbD k
  | _ => false

/-- Deterministic scatter is reported (R3, R217). -/
def Config.hasDetscat : Bool := (Config.cap 3).isSome

/-- A value of %nbv is reported (R3, R125). -/
def Config.hasNbv (n : Nat) : Bool :=
  match Config.cap 4 with
  | some (w :: _) => w.getLsbD n
  | _ => false

end Sys2Proof
end

