-- ==== Sys2Proof/Syntax.lean ====
section
/-! DEFINITION. The instructions and device events of spec/opcode_table.json, one constructor a row. Register numbers
stay the 8-bit fields of R139; type codes, modes and operations are names. -/

namespace Sys2Proof

/-- What every instruction carries (R143, R145): the guard predicate, its negation, and whether an F64
instruction stands in its widened form. -/
structure Hdr where
  gp : BitVec 7
  gn : Bool
  wide : Bool
  deriving DecidableEq, Repr

/-- Type codes of Table 6-2 (R136). -/
inductive Ty where
  | s8 | s16 | s32 | s64 | z8 | z16 | z32 | z64 | b8 | b16 | b32 | b64 | b128
  | f16 | bf16 | f32 | e4m3 | e5m2 | ds8 | e8m0
  deriving DecidableEq, Repr

/-- Operand B: a register, or with IB the 8-bit immediate (R158). -/
inductive SrcB where
  | reg (r : Reg)
  | imm (i : BitVec 8)
  deriving DecidableEq, Repr

/-- Rounding modes of Table 5-3 but the stochastic one, which has a row of its own (R118). -/
inductive RMode where
  | rne | rtz | rpi | rni
  deriving DecidableEq, Repr

/-- Condition codes of `icmp` (R167). -/
inductive ICc where
  | eq | ne | lt | le | gt | ge
  deriving DecidableEq, Repr

/-- Condition codes of `fcmp` (R188). -/
inductive FCc where
  | eq | ne | lt | le | gt | ge | num | nan
  deriving DecidableEq, Repr

/-- Modes of `qswap` (Table 7-8). -/
inductive QMode where
  | h | v | d
  deriving DecidableEq, Repr

/-- Modes of `gshfl` (Table 7-8). -/
inductive ShflMode where
  | idx | up | down | xor
  deriving DecidableEq, Repr

/-- Modes of `gvote` (Table 7-9). -/
inductive VoteMode where
  | any | all | ballot
  deriving DecidableEq, Repr

/-- Operations of `gredux` and `gscan` (Table 7-10). -/
inductive RedOp where
  | add | min | max | and | or | xor
  deriving DecidableEq, Repr

/-- Modes of `fsign` (R190). -/
inductive SignMode where
  | copy | neg | xor
  deriving DecidableEq, Repr

/-- Operations of `red` (R215). -/
inductive MemOp where
  | add | min | max | and | or | xor | fadd | inc
  deriving DecidableEq, Repr

/-- Scopes (R97, R216). -/
inductive Scope where
  | core | cluster | die | pkg | domain
  deriving DecidableEq, Repr

/-- Levels of `pref` (Table 9-3). -/
inductive PrefLvl where
  | l1 | l2 | tlb
  deriving DecidableEq, Repr

/-- Spaces as `spc` names them (R211). -/
inductive SpcSp where
  | g | p | s | c
  deriving DecidableEq, Repr

/-- Forms of `bar.die` and `bar.pkg` (Table 11-1). -/
inductive BarMode where
  | sync | arrive | wait
  deriving DecidableEq, Repr

/-- Operations of `ev.mask` (R261). -/
inductive MaskOp where
  | wr | set | clr
  deriving DecidableEq, Repr

/-- Classes of current leave (R273). -/
inductive LeaveCls where
  | mx | mc | gs | vw
  deriving DecidableEq, Repr

/-- The dependency-slot fields of an F128 instruction of group 11 (R152). -/
structure DSlots where
  wmask : BitVec 8
  sslot : BitVec 3
  sset : Bool
  deriving DecidableEq, Repr

/-- The fields of an `mma` (Table 10-2). `u` is UA, or in `mma.ds8` BF5; `ub` is UB. -/
structure MmaArgs where
  d : Reg
  a : Reg
  b : Reg
  c : Reg
  ds : DSlots
  bdisp : BitVec 23
  bsel : BitVec 2
  tb : Bool
  ru : Bool
  sc : Bool
  ftz : Bool
  zc : Bool
  u : Bool
  ub : Bool
  deriving DecidableEq, Repr

/-- The fields of a load (Table 9-1). -/
structure LdArgs where
  ty : Ty
  d : Reg
  a : Reg
  disp : BitVec 12
  inv : Bool
  last : Bool
  la : BitVec 4
  deriving DecidableEq, Repr

/-- The fields of a store with a space suffix (Table 9-1). -/
structure StArgs where
  ty : Ty
  d : Reg
  a : Reg
  disp : BitVec 12
  deriving DecidableEq, Repr

/-- What a host hart does to memory or to device register space (R94, R310, R385). -/
inductive HostOp where
  | load (addr size : Nat)
  | store (addr size value : Nat)
  | amo (op : MemOp) (uns : Bool) (addr size value : Nat)
  | fetch (addr size : Nat)
  | swap (addr size value : Nat)
  | reserve (addr size : Nat)
  | conditional (addr size value : Nat)
  deriving DecidableEq, Repr

/-- The kinds of access that translation distinguishes (R344). -/
inductive Acc where
  | read | write | fetch
  deriving DecidableEq, Repr

/-- A transport frame of Table 19-4. -/
structure Frame where
  port : Nat
  spkg : Nat
  dpkg : Nat
  daddr : Nat
  tag : Nat
  lseq : Nat
  classH : Bool
  payload : List Byte
  deriving DecidableEq, Repr

/-- A read as it reaches its L2 home (R283, R354-R356): physical line number, duelling class (0 G, 1 H, 2 E), whether its
way class is H, whether it is a multicast read, and the requesting core. -/
structure HomeRead where
  line : Nat
  duel : Nat
  classH : Bool
  multicast : Bool
  core : Nat
  pastRouter : Bool
  deriving DecidableEq, Repr

/-- A firmware image (R349): its bytes, public key, signature and security version. -/
structure Image where
  bytes : List Byte
  key : List Byte
  sig : List Byte
  version : Nat
  deriving DecidableEq, Repr

/-- A queue's settings in a partition profile (R379, R311). -/
structure QueueSetting where
  queue : Nat
  base : DWord
  ctl : Word
  tstart : DWord
  tperiod : Word
  deriving DecidableEq, Repr

/-- A partition profile (Table 21-1). -/
structure Profile where
  part : Nat
  clusters : List Nat
  bankRoles : List (Nat × DWord)
  warm : List (Nat × Nat)
  gshare : Word
  netshare : Word
  hbm : List (Nat × DWord)
  port : List (Nat × DWord)
  tslice : Word
  tsact : Nat
  mig : Bool
  migg : Bool
  queues : List QueueSetting
  deriving DecidableEq, Repr

/-- A session or attestation request of SPDM (R350). -/
inductive SpdmSession where
  | keyExchange | pskExchange | finish | other
  deriving DecidableEq, Repr

/-- The instructions and device events of the TV-4200. -/
inductive Instr where
  /-- IADD (R160). -/
  | iadd (h : Hdr) (ty : Ty) (sat : Bool) (d a : Reg) (b : SrcB)
  /-- ISUB (R160). -/
  | isub (h : Hdr) (ty : Ty) (sat : Bool) (d a : Reg) (b : SrcB)
  /-- IMUL (R160). -/
  | imul (h : Hdr) (ty : Ty) (sat : Bool) (d a : Reg) (b : SrcB)
  /-- IMULHI (R160). -/
  | imulhi (h : Hdr) (ty : Ty) (d a : Reg) (b : SrcB)
  /-- IMAD (R160). -/
  | imad (h : Hdr) (ty : Ty) (sat : Bool) (d a b c : Reg)
  /-- IADD64 (R161). -/
  | iadd64 (h : Hdr) (ty : Ty) (sat : Bool) (d a b : Reg)
  /-- ISUB64 (R161). -/
  | isub64 (h : Hdr) (ty : Ty) (sat : Bool) (d a b : Reg)
  /-- IMAD64 (R161). -/
  | imad64 (h : Hdr) (ty : Ty) (sat : Bool) (d a b c : Reg)
  /-- IADDC (R162). -/
  | iaddc (h : Hdr) (first : Bool) (d a b c : Reg)
  /-- INEG (R160). -/
  | ineg (h : Hdr) (sat : Bool) (d a : Reg)
  /-- IABS (R160). -/
  | iabs (h : Hdr) (sat : Bool) (d a : Reg)
  /-- IMIN (R160). -/
  | imin (h : Hdr) (ty : Ty) (d a : Reg) (b : SrcB)
  /-- IMAX (R160). -/
  | imax (h : Hdr) (ty : Ty) (d a : Reg) (b : SrcB)
  /-- AND (R160). -/
  | and (h : Hdr) (d a : Reg) (b : SrcB)
  /-- OR (R160). -/
  | or (h : Hdr) (d a : Reg) (b : SrcB)
  /-- XOR (R160). -/
  | xor (h : Hdr) (d a : Reg) (b : SrcB)
  /-- ANDN (R160). -/
  | andn (h : Hdr) (d a : Reg) (b : SrcB)
  /-- NOT (R160). -/
  | not (h : Hdr) (d a : Reg)
  /-- LOP3 (R163). -/
  | lop3 (h : Hdr) (lut : BitVec 8) (d a b c : Reg)
  /-- SHL (R164). -/
  | shl (h : Hdr) (d a : Reg) (b : SrcB)
  /-- SHR (R164). -/
  | shr (h : Hdr) (d a : Reg) (b : SrcB)
  /-- SRA (R164). -/
  | sra (h : Hdr) (d a : Reg) (b : SrcB)
  /-- SHL64 (R164). -/
  | shl64 (h : Hdr) (d a : Reg) (b : SrcB)
  /-- SHR64 (R164). -/
  | shr64 (h : Hdr) (ty : Ty) (d a : Reg) (b : SrcB)
  /-- ROTL (R164). -/
  | rotl (h : Hdr) (d a : Reg) (b : SrcB)
  /-- CLZ (R165). -/
  | clz (h : Hdr) (d a : Reg)
  /-- POPC (R165). -/
  | popc (h : Hdr) (d a : Reg)
  /-- BREV (R165). -/
  | brev (h : Hdr) (d a : Reg)
  /-- BFX (R165); with `bi`, B and C hold immediates. -/
  | bfx (h : Hdr) (ty : Ty) (bi : Bool) (d a b c : Reg)
  /-- BFI (R165). -/
  | bfi (h : Hdr) (d a b c : Reg)
  /-- SEL (R166); C names a predicate. -/
  | sel (h : Hdr) (d a b c : Reg)
  /-- MOV (R166); the register stands in A. -/
  | mov (h : Hdr) (d : Reg) (a : SrcB)
  /-- LEA (R166). -/
  | lea (h : Hdr) (ty : Ty) (d a b s : Reg)
  /-- IADD_IMM (R159). -/
  | iaddImm (h : Hdr) (ty : Ty) (sat : Bool) (d a : Reg) (imm : Word)
  /-- ISUB_IMM (R159). -/
  | isubImm (h : Hdr) (ty : Ty) (sat : Bool) (d a : Reg) (imm : Word)
  /-- IMUL_IMM (R159). -/
  | imulImm (h : Hdr) (ty : Ty) (sat : Bool) (d a : Reg) (imm : Word)
  /-- IMAD_IMM (R159). -/
  | imadImm (h : Hdr) (ty : Ty) (sat : Bool) (d a : Reg) (imm : Word) (c : Reg)
  /-- IMIN_IMM (R159). -/
  | iminImm (h : Hdr) (ty : Ty) (d a : Reg) (imm : Word)
  /-- IMAX_IMM (R159). -/
  | imaxImm (h : Hdr) (ty : Ty) (d a : Reg) (imm : Word)
  /-- AND_IMM (R159). -/
  | andImm (h : Hdr) (d a : Reg) (imm : Word)
  /-- OR_IMM (R159). -/
  | orImm (h : Hdr) (d a : Reg) (imm : Word)
  /-- XOR_IMM (R159). -/
  | xorImm (h : Hdr) (d a : Reg) (imm : Word)
  /-- ANDN_IMM (R159). -/
  | andnImm (h : Hdr) (d a : Reg) (imm : Word)
  /-- MOVK (R166). -/
  | movk (h : Hdr) (d : Reg) (imm : Word)
  /-- MOVK64 (R166). -/
  | movk64 (h : Hdr) (d : Reg) (imm : DWord)
  /-- ICMP (R167). -/
  | icmp (h : Hdr) (cc : ICc) (ty : Ty) (d a : Reg) (b : SrcB)
  /-- PSET (R169). -/
  | pset (h : Hdr) (d a n : Reg)
  /-- PGET (R169). -/
  | pget (h : Hdr) (d a n : Reg)
  /-- PAND (R168). -/
  | pand (h : Hdr) (na nb : Bool) (d a b : Reg)
  /-- POR (R168). -/
  | por (h : Hdr) (na nb : Bool) (d a b : Reg)
  /-- PXOR (R168). -/
  | pxor (h : Hdr) (na nb : Bool) (d a b : Reg)
  /-- PNOT (R168). -/
  | pnot (h : Hdr) (na : Bool) (d a : Reg)
  /-- PMOV (R168). -/
  | pmov (h : Hdr) (na : Bool) (d a : Reg)
  /-- BRA (R170). -/
  | bra (h : Hdr) (off : Word)
  /-- BRX (R170, R171). -/
  | brx (h : Hdr) (a : Reg)
  /-- CALL (R172). -/
  | call (h : Hdr) (off : Word)
  /-- CALLX (R172). -/
  | callx (h : Hdr) (a : Reg)
  /-- RET (R172). -/
  | ret (h : Hdr)
  /-- EXIT (R35, R173). -/
  | exit (h : Hdr)
  /-- REJOIN_ARM (R174). -/
  | rejoinArm (h : Hdr) (all : Bool) (a k : Reg)
  /-- REJOIN (R34, R174). -/
  | rejoin (h : Hdr) (k : Reg)
  /-- YIELD (R175). -/
  | yield (h : Hdr)
  /-- NOP (R175). -/
  | nop (h : Hdr)
  /-- NOP_WIDENED (R148, R175). -/
  | nopWidened (h : Hdr)
  /-- QSWAP (R178). -/
  | qswap (h : Hdr) (mode : QMode) (d a : Reg)
  /-- QBCAST (R178). -/
  | qbcast (h : Hdr) (d a k : Reg)
  /-- GSHFL (R178). -/
  | gshfl (h : Hdr) (mode : ShflMode) (d a : Reg) (b : SrcB)
  /-- GVOTE (R179). -/
  | gvote (h : Hdr) (mode : VoteMode) (d a : Reg)
  /-- GSYNC (R181). -/
  | gsync (h : Hdr) (all : Bool) (a : Reg)
  /-- GMATCH (R179). -/
  | gmatch (h : Hdr) (ty : Ty) (d a : Reg)
  /-- GREDUX (R180). -/
  | gredux (h : Hdr) (op : RedOp) (ty : Ty) (d a : Reg)
  /-- GSCAN (R180). -/
  | gscan (h : Hdr) (op : RedOp) (excl : Bool) (ty : Ty) (d a : Reg)
  /-- GELECT (R179). -/
  | gelect (h : Hdr) (d : Reg)
  /-- FADD (R185). -/
  | fadd (h : Hdr) (rm : RMode) (ftz : Bool) (d a b : Reg)
  /-- FSUB (R185). -/
  | fsub (h : Hdr) (rm : RMode) (ftz : Bool) (d a b : Reg)
  /-- FMUL (R185). -/
  | fmul (h : Hdr) (rm : RMode) (ftz : Bool) (d a b : Reg)
  /-- FFMA (R185). -/
  | ffma (h : Hdr) (rm : RMode) (ftz : Bool) (d a b c : Reg)
  /-- FMIN (R186). -/
  | fmin (h : Hdr) (ftz : Bool) (d a b : Reg)
  /-- FMAX (R186). -/
  | fmax (h : Hdr) (ftz : Bool) (d a b : Reg)
  /-- FRND (R187). -/
  | frnd (h : Hdr) (rm : RMode) (ftz : Bool) (d a : Reg)
  /-- FCMP (R188). -/
  | fcmp (h : Hdr) (cc : FCc) (ftz : Bool) (d a b : Reg)
  /-- FCLASS (R189). -/
  | fclass (h : Hdr) (ty : Ty) (d a : Reg)
  /-- FSIGN (R190). -/
  | fsign (h : Hdr) (mode : SignMode) (d a b : Reg)
  /-- FSCALE (R191). -/
  | fscale (h : Hdr) (rm : RMode) (ftz : Bool) (d a b : Reg)
  /-- HADD2 (R192). -/
  | hadd2 (h : Hdr) (rm : RMode) (ftz : Bool) (d a b : Reg)
  /-- HMUL2 (R192). -/
  | hmul2 (h : Hdr) (rm : RMode) (ftz : Bool) (d a b : Reg)
  /-- HFMA2 (R192). -/
  | hfma2 (h : Hdr) (rm : RMode) (ftz : Bool) (d a b c : Reg)
  /-- BADD2 (R192). -/
  | badd2 (h : Hdr) (rm : RMode) (ftz : Bool) (d a b : Reg)
  /-- BMUL2 (R192). -/
  | bmul2 (h : Hdr) (rm : RMode) (ftz : Bool) (d a b : Reg)
  /-- BFMA2 (R192). -/
  | bfma2 (h : Hdr) (rm : RMode) (ftz : Bool) (d a b c : Reg)
  /-- FDOT2 (R193). -/
  | fdot2 (h : Hdr) (rm : RMode) (ftz : Bool) (d a b c : Reg)
  /-- BDOT2 (R193). -/
  | bdot2 (h : Hdr) (rm : RMode) (ftz : Bool) (d a b c : Reg)
  /-- QDOT4 (R193). -/
  | qdot4 (h : Hdr) (ty : Ty) (rm : RMode) (ftz : Bool) (sat : Bool) (d a b c : Reg)
  /-- FCVT (R195). -/
  | fcvt (h : Hdr) (dt st : Ty) (rm : RMode) (ftz : Bool) (sat inf : Bool) (d a : Reg)
  /-- FCVT_SR (R195, R128). -/
  | fcvtSr (h : Hdr) (dt st : Ty) (ftz sat inf : Bool) (d a b : Reg)
  /-- FCVTI (R196). -/
  | fcvti (h : Hdr) (it st : Ty) (rm : RMode) (ftz : Bool) (d a : Reg)
  /-- ICVTF (R196). -/
  | icvtf (h : Hdr) (dt it : Ty) (rm : RMode) (ftz : Bool) (d a : Reg)
  /-- FPACK (R197). -/
  | fpack (h : Hdr) (dt : Ty) (rm : RMode) (ftz : Bool) (sat inf : Bool) (d a b : Reg)
  /-- FUNPACK (R197). -/
  | funpack (h : Hdr) (st : Ty) (ftz : Bool) (d a k : Reg)
  /-- FBMAX (R198). -/
  | fbmax (h : Hdr) (dt : Ty) (ftz : Bool) (d a b : Reg)
  /-- DS8ENC (R199). -/
  | ds8enc (h : Hdr) (ftz : Bool) (d a b : Reg)
  /-- DS8DEC (R199). -/
  | ds8dec (h : Hdr) (rm : RMode) (ftz : Bool) (d a b k : Reg)
  /-- FRCP (R201, R202). -/
  | frcp (h : Hdr) (ftz : Bool) (la : BitVec 4) (d a : Reg)
  /-- FRSQ (R201, R202). -/
  | frsq (h : Hdr) (ftz : Bool) (la : BitVec 4) (d a : Reg)
  /-- FSQRT (R201, R202). -/
  | fsqrt (h : Hdr) (ftz : Bool) (la : BitVec 4) (d a : Reg)
  /-- FEXP2 (R201, R202). -/
  | fexp2 (h : Hdr) (ftz : Bool) (la : BitVec 4) (d a : Reg)
  /-- FLOG2 (R201, R202). -/
  | flog2 (h : Hdr) (ftz : Bool) (la : BitVec 4) (d a : Reg)
  /-- FSIN (R201, R202). -/
  | fsin (h : Hdr) (ftz : Bool) (la : BitVec 4) (d a : Reg)
  /-- FCOS (R201, R202). -/
  | fcos (h : Hdr) (ftz : Bool) (la : BitVec 4) (d a : Reg)
  /-- FTANH (R201, R202). -/
  | ftanh (h : Hdr) (ftz : Bool) (la : BitVec 4) (d a : Reg)
  /-- FSIGM (R201, R202). -/
  | fsigm (h : Hdr) (ftz : Bool) (la : BitVec 4) (d a : Reg)
  /-- LD (R203, R207). -/
  | ld (h : Hdr) (x : LdArgs)
  /-- LD_G (R203, R207). -/
  | ldG (h : Hdr) (x : LdArgs)
  /-- LD_S (R203, R207). -/
  | ldS (h : Hdr) (x : LdArgs)
  /-- LD_C (R203, R207). -/
  | ldC (h : Hdr) (x : LdArgs)
  /-- LD_P (R203, R207). -/
  | ldP (h : Hdr) (x : LdArgs)
  /-- ST (R203, R208), with the guard-slot field (R153). -/
  | st (h : Hdr) (x : StArgs) (gsl : BitVec 4)
  /-- ST_G (R203, R208). -/
  | stG (h : Hdr) (x : StArgs)
  /-- ST_S (R203, R208). -/
  | stS (h : Hdr) (x : StArgs)
  /-- ST_C (R203, R208). -/
  | stC (h : Hdr) (x : StArgs)
  /-- ST_P (R203, R208). -/
  | stP (h : Hdr) (x : StArgs)
  /-- PREF (R209). -/
  | pref (h : Hdr) (lvl : PrefLvl) (a : Reg) (disp : BitVec 12)
  /-- SPT (R210). -/
  | spt (h : Hdr) (d a : Reg)
  /-- SPC (R211). -/
  | spc (h : Hdr) (sp : SpcSp) (off : Bool) (d c a : Reg)
  /-- XLATE_PF (R212). -/
  | xlatePf (h : Hdr) (a : Reg) (disp : BitVec 12)
  /-- ATOM_ADD (R213, R214). -/
  | atomAdd (h : Hdr) (ty : Ty) (la : BitVec 4) (d a b : Reg)
  /-- ATOM_MIN (R213, R214). -/
  | atomMin (h : Hdr) (ty : Ty) (la : BitVec 4) (d a b : Reg)
  /-- ATOM_MAX (R213, R214). -/
  | atomMax (h : Hdr) (ty : Ty) (la : BitVec 4) (d a b : Reg)
  /-- ATOM_AND (R213, R214). -/
  | atomAnd (h : Hdr) (ty : Ty) (la : BitVec 4) (d a b : Reg)
  /-- ATOM_OR (R213, R214). -/
  | atomOr (h : Hdr) (ty : Ty) (la : BitVec 4) (d a b : Reg)
  /-- ATOM_XOR (R213, R214). -/
  | atomXor (h : Hdr) (ty : Ty) (la : BitVec 4) (d a b : Reg)
  /-- ATOM_EXCH (R213, R214). -/
  | atomExch (h : Hdr) (ty : Ty) (la : BitVec 4) (d a b : Reg)
  /-- ATOM_CAS (R213, R214). -/
  | atomCas (h : Hdr) (ty : Ty) (la : BitVec 4) (d a b c : Reg)
  /-- ATOM_FADD (R213, R214). -/
  | atomFadd (h : Hdr) (ty : Ty) (la : BitVec 4) (d a b : Reg)
  /-- ATOM_INC (R213, R214). -/
  | atomInc (h : Hdr) (ty : Ty) (la : BitVec 4) (d a b : Reg)
  /-- RED (R215). -/
  | red (h : Hdr) (op : MemOp) (ty : Ty) (a b : Reg)
  /-- FENCE (R98, R216). -/
  | fence (h : Hdr) (scope : Scope)
  /-- HG_LOAD (R217, R218); `n` is the field n - 1. -/
  | hgLoad (h : Hdr) (la : BitVec 4) (d a b : Reg) (l0 n : BitVec 4)
  /-- HG_GRAD (R217, R219); `n` is the field n - 1. -/
  | hgGrad (h : Hdr) (d a b : Reg) (l0 n : BitVec 4)
  /-- HG_CORNER (R217, R221). -/
  | hgCorner (h : Hdr) (d a b c : Reg) (l : BitVec 4)
  /-- CHAN_SEND (R223, R224). -/
  | chanSend (h : Hdr) (k : BitVec 4) (a b c : Reg)
  /-- CHAN_RECV (R223, R225). -/
  | chanRecv (h : Hdr) (k : BitVec 4) (d : Reg)
  /-- CHAN_PROBE (R223, R226). -/
  | chanProbe (h : Hdr) (k : BitVec 4) (d : Reg)
  /-- FIFO_PUSH (R228). -/
  | fifoPush (h : Hdr) (d a b c : Reg)
  /-- FIFO_POP (R228). -/
  | fifoPop (h : Hdr) (d a c : Reg)
  /-- BANK_MODE (R229). -/
  | bankMode (h : Hdr) (la : BitVec 4) (mode d a c : Reg)
  /-- SCTX_GET (R230). -/
  | sctxGet (h : Hdr) (d : Reg)
  /-- MMA_F16 (R235, R237). -/
  | mmaF16 (h : Hdr) (x : MmaArgs)
  /-- MMA_BF16 (R235, R237). -/
  | mmaBf16 (h : Hdr) (x : MmaArgs)
  /-- MMA_E4M3 (R235, R237). -/
  | mmaE4m3 (h : Hdr) (x : MmaArgs)
  /-- MMA_E5M2 (R235, R237). -/
  | mmaE5m2 (h : Hdr) (x : MmaArgs)
  /-- MMA_S8 (R235, R237). -/
  | mmaS8 (h : Hdr) (x : MmaArgs)
  /-- MMA_DS8 (R235, R237). -/
  | mmaDs8 (h : Hdr) (x : MmaArgs)
  /-- ACC_ZERO (R242, R243). -/
  | accZero (h : Hdr) (ds : DSlots) (d n : Reg)
  /-- ACC_LD (R244). -/
  | accLd (h : Hdr) (ds : DSlots) (ty : Ty) (d a : Reg)
  /-- ACC_DRAIN (R245). -/
  | accDrain (h : Hdr) (ds : DSlots) (la : BitVec 4) (ty : Ty) (tpb : Bool) (d a b : Reg)
  /-- ACC_SPILL (R247). -/
  | accSpill (h : Hdr) (ds : DSlots) (a b : Reg)
  /-- ACC_FILL (R247). -/
  | accFill (h : Hdr) (ds : DSlots) (d a : Reg)
  /-- ACC_MOV (R243). -/
  | accMov (h : Hdr) (ds : DSlots) (d a : Reg)
  /-- ACC_ADD (R243). -/
  | accAdd (h : Hdr) (ds : DSlots) (d a b : Reg)
  /-- ACC_SCALE (R243). -/
  | accScale (h : Hdr) (ds : DSlots) (d a b : Reg)
  /-- GANG_FORM (R249). -/
  | gangForm (h : Hdr) (a : Reg)
  /-- GANG_BRK (R250). -/
  | gangBrk (h : Hdr)
  /-- DSLOT_WAIT (R251). -/
  | dslotWait (h : Hdr) (wmask : BitVec 8)
  /-- BAR_ARRIVE (R253, R255). -/
  | barArrive (h : Hdr) (d b : Reg)
  /-- BAR_WAIT (R255). -/
  | barWait (h : Hdr) (a b : Reg)
  /-- BAR_SYNC (R255). -/
  | barSync (h : Hdr) (b : Reg)
  /-- BAR_DIE (R255). -/
  | barDie (h : Hdr) (mode : BarMode) (d a b : Reg)
  /-- BAR_PKG (R255). -/
  | barPkg (h : Hdr) (mode : BarMode) (d a b : Reg)
  /-- EV_ARM (R260). -/
  | evArm (h : Hdr) (a m : Reg)
  /-- EV_MASK (R261). -/
  | evMask (h : Hdr) (op : MaskOp) (m : Reg)
  /-- EV_CLEAR (R261). -/
  | evClear (h : Hdr) (m : Reg)
  /-- WANY (R262). -/
  | wany (h : Hdr) (a : Reg)
  /-- MBOX_POST (R263). -/
  | mboxPost (h : Hdr) (slot : BitVec 2) (d a b : Reg)
  /-- MBOX_READ (R263). -/
  | mboxRead (h : Hdr) (slot : BitVec 2) (d c : Reg)
  /-- TL_WAIT (R264). -/
  | tlWait (h : Hdr) (a b : Reg)
  /-- TL_READ (R264). -/
  | tlRead (h : Hdr) (err : Bool) (d b : Reg)
  /-- TL_TRY (R264). -/
  | tlTry (h : Hdr) (d a b c : Reg)
  /-- GSLOT_SET (R265). -/
  | gslotSet (h : Hdr) (a b : Reg)
  /-- GSLOT_CLR (R265). -/
  | gslotClr (h : Hdr) (b : Reg)
  /-- LAUNCH (R271). -/
  | launch (h : Hdr) (d a b c : Reg)
  /-- TAPE_PUSH (R272). -/
  | tapePush (h : Hdr) (d b c : Reg)
  /-- LEAVE_REQ (R273). -/
  | leaveReq (h : Hdr) (cls : LeaveCls)
  /-- LEAVE_REL (R273). -/
  | leaveRel (h : Hdr) (cls : LeaveCls)
  /-- REGION_BEGIN (R274). -/
  | regionBegin (h : Hdr)
  /-- REGION_END (R274, R275). -/
  | regionEnd (h : Hdr)
  /-- REGS_GROW (R42, R276). -/
  | regsGrow (h : Hdr) (d n : Reg)
  /-- REGS_SHRINK (R42, R276). -/
  | regsShrink (h : Hdr) (n : Reg)
  /-- SREG_GET (R277). -/
  | sregGet (h : Hdr) (d c : Reg)
  /-- SREG_SET (R277). -/
  | sregSet (h : Hdr) (a c : Reg)
  /-- RDTIME (R277). -/
  | rdtime (h : Hdr) (cyc : Bool) (d : Reg)
  /-- TRAP (R278). -/
  | trap (h : Hdr) (code : BitVec 8)
  /-- BRK (R278). -/
  | brk (h : Hdr) (code : BitVec 8)
  /-- XRET (R279). -/
  | xret (h : Hdr)
  /-- LONG_LATENCY_RESULT (R150). -/
  | longLatencyResult (gk id lane : Nat)
  /-- BARRIER_WAVE_RELEASE (R256). -/
  | barrierWaveRelease (cl : Nat)
  /-- CHAN_SEND_DELIVERY (R224). -/
  | chanSendDelivery (gk : Nat)
  /-- CHAN_RECV_DELIVERY (R225). -/
  | chanRecvDelivery (gk : Nat)
  /-- JOINT_OPERATION_START (R239). -/
  | jointOperationStart (gk : Nat)
  /-- ANVIL_COMPLETION (R239). -/
  | anvilCompletion (tuid op : Nat)
  /-- DEPL_CLEAR (R371). -/
  | deplClear (cl : Nat)
  /-- LEAVE_GRANT (R372). -/
  | leaveGrant (gk : Nat)
  /-- TEAM_PLACEMENT (R386). -/
  | teamPlacement (part : Nat)
  /-- EVICTED_TEAM_RESUME (R51). -/
  | evictedTeamResume (tuid : Nat)
  /-- HOT_SPOT_MIGRATION (R342). -/
  | hotSpotMigration (tuid core : Nat)
  /-- COPY (R268). -/
  | copy (ch : Nat)
  /-- GATHER (R268). -/
  | gather (ch : Nat)
  /-- REDUCE_STORE (R268). -/
  | reduceStore (ch : Nat)
  /-- MERGE_ROUND (R270). -/
  | mergeRound (ch : Nat)
  /-- MULTICAST_READ (R268). -/
  | multicastRead (ch : Nat)
  /-- COLLECTIVE (R364). -/
  | collective (ch : Nat)
  /-- COMMAND_DISCARD (R265). -/
  | commandDiscard (ch : Nat)
  /-- COMMAND_COMPLETE (R104). -/
  | commandComplete (ch : Nat)
  /-- TAKE_RECORD (R314). -/
  | takeRecord (part : Nat)
  /-- TAPE_POP (R319). -/
  | tapePop (part : Nat)
  /-- TIMER_FIRE (R322). -/
  | timerFire (part q : Nat)
  /-- STREAM_FIRE (R325). -/
  | streamFire (e : Nat)
  /-- STREAM_EVICTION_COMPLETE (R324). -/
  | streamEvictionComplete (e : Nat)
  /-- STREAM_RELOAD_COMPLETE (R326). -/
  | streamReloadComplete (e : Nat)
  /-- PREEMPT_SAVE (R334). -/
  | preemptSave (part : Nat)
  /-- SWAP_EXCHANGE (R341). -/
  | swapExchange (part : Nat)
  /-- TIME_SLICE_EXPIRY (R334). -/
  | timeSliceExpiry (part : Nat)
  /-- TLB_INVALIDATE_DONE (R345). -/
  | tlbInvalidateDone (part : Nat)
  /-- KEY_COMMAND_COMPLETE (R348). -/
  | keyCommandComplete
  /-- BIAS_SETTLED (R369). -/
  | biasSettled (cl : Nat)
  /-- THERMAL_STEP (R370). -/
  | thermalStep (cl : Nat)
  /-- BANK_NAP (R74). -/
  | bankNap (bank : Nat)
  /-- BANK_RETAIN (R74). -/
  | bankRetain (bank : Nat)
  /-- BANK_WAKE_COMPLETE (R73). -/
  | bankWakeComplete (bank : Nat) (parityOk : Bool)
  /-- WARM_RESERVE_REFILL (R75). -/
  | warmReserveRefill (bank : Nat)
  /-- BANK_MODE_COMPLETE (R64). -/
  | bankModeComplete (bank : Nat)
  /-- FABRIC_WINDOW_START (R362). -/
  | fabricWindowStart
  /-- COLLECTIVE_TIMEOUT (R365). -/
  | collectiveTimeout (ch : Nat)
  /-- STORE_PERFORMED (R95). -/
  | storePerformed (id : Nat)
  /-- STEP_REACHED_EVERY_CORE (R366). -/
  | stepReachedEveryCore
  /-- HARVEST_EVICTION (R47). -/
  | harvestEviction (tuid : Nat)
  /-- COMMAND_CHUNK_END (R337). -/
  | commandChunkEnd (ch elems : Nat)
  /-- BIND (R324). -/
  | bind (e : Nat)
  /-- UNBIND (R324). -/
  | unbind (e : Nat)
  /-- CHUNK (R324). -/
  | chunk (e : Nat)
  /-- QCTL_WRITE (R312). -/
  | qctlWrite (part q : Nat) (v : Word)
  /-- QTAIL_WRITE (R312). -/
  | qtailWrite (part q : Nat) (v : DWord)
  /-- FQCTL_WRITE (R329). -/
  | fqctlWrite (part : Nat) (v : Word)
  /-- FQHEAD_WRITE (R332). -/
  | fqheadWrite (part : Nat) (v : DWord)
  /-- REPLAY (R331). -/
  | replay (part : Nat) (seq : Word)
  /-- REPLAY_PAGE (R331). -/
  | replayPage (part : Nat) (seq : Word)
  /-- SKIP (R331). -/
  | skip (part : Nat) (seq : Word)
  /-- KILL (R331). -/
  | kill (part : Nat) (seq : Word)
  /-- PREEMPT (R334). -/
  | preempt (part : Nat)
  /-- RESUME (R335). -/
  | resume (part : Nat)
  /-- SWAP (R340). -/
  | swap (part inp : Nat)
  /-- CLPART_WRITE (R328). -/
  | clpartWrite (cl : Nat) (v : Word)
  /-- TLB_INVALIDATE (R345). -/
  | tlbInvalidate (part : Nat) (v : DWord)
  /-- FABRIC_TLB_INVALIDATE (R347). -/
  | fabricTlbInvalidate (v : DWord)
  /-- PAGE_WALK_COMPLETE (R344). -/
  | pageWalkComplete (part die va : Nat) (acc : Acc)
  /-- GENERATE (R348). -/
  | generate
  /-- ASSIGN (R348). -/
  | assign (id part : Nat)
  /-- DESTROY (R348). -/
  | destroy (id : Nat)
  /-- SVC_NORMAL (R376). -/
  | svcNormal
  /-- SVC_TEST (R376). -/
  | svcTest
  /-- SVC_REDUCED (R376). -/
  | svcReduced
  /-- SVC_RECOVERY (R376). -/
  | svcRecovery
  /-- HBM_ERROR_LIMIT (R376). -/
  | hbmErrorLimit (stack : Nat)
  /-- HBM_TRAINING_PASS (R376). -/
  | hbmTrainingPass (stack : Nat)
  /-- PACKAGE_RESET (R376). -/
  | packageReset
  /-- FIRMWARE_STAGE_LOAD (R349). -/
  | firmwareStageLoad (image : Image) (last : Bool)
  /-- CLBIAS_WRITE (R369). -/
  | clbiasWrite (cl : Nat) (v : Word)
  /-- THERMAL_SAMPLE (R370). -/
  | thermalSample (cl temp : Nat)
  /-- L2WAYG_WRITE (R357). -/
  | l2waygWrite (v : Word)
  /-- QOS_SHARE_WRITE (R358; port 32 names NETSHARE). -/
  | qosShareWrite (part port : Nat) (v : DWord)
  /-- HBMREG_WRITE (R360). -/
  | hbmregWrite (part stack : Nat) (v : DWord)
  /-- PTSTEP_WRITE (R366). -/
  | ptstepWrite (v : DWord)
  /-- REGISTER_WRITE (R310). -/
  | registerWrite (off size : Nat) (v : DWord)
  /-- HOST_ACCESS (R385). -/
  | hostAccess (hart : Nat) (op : HostOp)
  /-- HOST_FENCE (R94). -/
  | hostFence (hart : Nat)
  /-- L2_HOME_READ (R283). -/
  | l2HomeRead (r : HomeRead)
  /-- READ_REQUEST (R361). -/
  | readRequest (f : Frame)
  /-- READ_RESPONSE (R361). -/
  | readResponse (f : Frame)
  /-- WRITE (R361). -/
  | write (f : Frame)
  /-- WRITE_ACKNOWLEDGEMENT (R361). -/
  | writeAcknowledgement (f : Frame)
  /-- ATOMIC (R361). -/
  | atomic (f : Frame)
  /-- ATOMIC_RESPONSE (R361). -/
  | atomicResponse (f : Frame)
  /-- COLLECTIVE_DATA (R364). -/
  | collectiveData (f : Frame)
  /-- TRANSLATION_WARM (R212). -/
  | translationWarm (f : Frame)
  /-- REFUSAL (R347). -/
  | refusal (f : Frame)
  /-- LINK_RESEND (R361). -/
  | linkResend (port lseq : Nat)
  /-- LINK_STATE_CHANGE (R380). -/
  | linkStateChange (port lanes : Nat) (up : Bool)
  /-- PTP_EVENT_MESSAGE (R366). -/
  | ptpEventMessage (port : Nat) (egress : Bool)
  /-- DEBUG_HALT (R333). -/
  | debugHalt (gk : Nat)
  /-- DEBUG_RELEASE (R333). -/
  | debugRelease (gk : Nat)
  /-- GET_VERSION (R350). -/
  | getVersion
  /-- GET_CAPABILITIES (R350). -/
  | getCapabilities
  /-- NEGOTIATE_ALGORITHMS (R350). -/
  | negotiateAlgorithms
  /-- GET_DIGESTS (R350). -/
  | getDigests
  /-- GET_CERTIFICATE (R350). -/
  | getCertificate (off len : Nat)
  /-- CHALLENGE (R350). -/
  | challenge (nonce : List Byte)
  /-- GET_MEASUREMENTS (R350). -/
  | getMeasurements (nonce : List Byte)
  /-- SPDM_SESSION_REQUEST (R350). -/
  | spdmSessionRequest (r : SpdmSession)
  /-- PROFILE_APPLY (R379). -/
  | profileApply (p : Profile)
  /-- SIMPLE_UPDATE (R382). -/
  | simpleUpdate (image : Image)
  /-- FIRMWARE_COMMIT (R382). -/
  | firmwareCommit
  /-- METRIC_SAMPLE (R381). -/
  | metricSample
  /-- FRAME_DROP (R361). -/
  | frameDrop (port : Nat)
  /-- DEBUGGER_ATTACH (R278). -/
  | debuggerAttach (part : Nat) (on : Bool)
  deriving DecidableEq, Repr

end Sys2Proof
end

