-- ==== Sys2Proof/WellFormed.lean ====
section
/-! DEFINITION. What makes an instruction well formed: the checks of Table 6-10 that depend on the word alone. Rows 6
and 7 (a type, mode or modifier the instruction does not accept) are `encodingOk`; row 9 (an operand value outside
Table 6-4 and its like) is `operandsOk`. Rows 1 to 5 concern words and stand in Decode; rows 8 and 10 depend on
the machine. A device event is well formed when its indices name units that exist. -/

namespace Sys2Proof

/-- An operand of an instruction, as the checks of R139 see it. -/
inductive Opnd where
  /-- `n` vector registers from `r`, whose index must be a multiple of `n` (R134, R234). -/
  | v (r : Reg) (n : Nat)
  /-- `n` vector registers from `r` on, whose base must be a multiple of 4 (R235). -/
  | frag (r : Reg) (n : Nat)
  /-- A run of `n` vector registers from any base (R271, R272). -/
  | run (r : Reg) (n : Nat)
  /-- A predicate. -/
  | p (r : Reg)
  /-- A run of predicates (R169). -/
  | prun (r n : Reg)
  /-- `n` accumulator tiles from `r` on. -/
  | tile (r : Reg) (n : Nat)
  /-- A field that must lie from `lo` to `hi`. -/
  | rng (x : Reg) (lo hi : Nat)
  deriving DecidableEq, Repr

/-- Row 9 of Table 6-10 for one operand (R139, R169, R242). -/
def Opnd.ok : Opnd → Bool
  | .v r n => r.toNat % n == 0 && r.toNat + n ≤ 256
  | .frag r n => r.toNat % 4 == 0 && r.toNat + n ≤ 256
  | .run r n => r.toNat + n ≤ 256
  | .p r => r.toNat ≤ 95
  | .prun r n => 1 ≤ n.toNat && n.toNat ≤ 32 && r.toNat + n.toNat ≤ 96
  | .tile r _ => r.toNat ≤ 63
  | .rng x lo hi => lo ≤ x.toNat && x.toNat ≤ hi

/-- Width in bytes of a type. -/
def Ty.bytes : Ty → Nat
  | .s8 | .z8 | .b8 | .e4m3 | .e5m2 | .ds8 | .e8m0 => 1
  | .s16 | .z16 | .b16 | .f16 | .bf16 => 2
  | .s32 | .z32 | .b32 | .f32 => 4
  | .s64 | .z64 | .b64 => 8
  | .b128 => 16

/-- Vector registers that hold one value of a type (R139, R183). -/
def Ty.regs (t : Ty) : Nat :=
  if t.bytes ≤ 4 then 1 else t.bytes / 4

/-- Registers that hold an accumulator tile (R234). -/
def Ty.tileRegs (t : Ty) : Nat := 2 * t.bytes

def SrcB.opnds : SrcB → List Opnd
  | .reg r => [.v r 1]
  | .imm _ => []

def LdArgs.opnds (x : LdArgs) (baseRegs : Nat) : List Opnd := [.v x.d x.ty.regs, .v x.a baseRegs]
def StArgs.opnds (x : StArgs) (baseRegs : Nat) : List Opnd := [.v x.d x.ty.regs, .v x.a baseRegs]

/-- Operands of an `mma` whose A fragment takes `n` registers (R235). -/
def MmaArgs.opnds (x : MmaArgs) (n : Nat) : List Opnd :=
  [.tile x.d 1, .frag x.a n, .v x.c 1] ++ if x.sc then [.v x.b 1] else []

/-- Special registers (Table 6-5): readable index. -/
def sregReadable (c : Reg) : Bool := c.toNat ≤ 0x15

/-- Width in registers of special register `c` (Table 6-5). -/
def sregRegs (c : Reg) : Nat :=
  if c.toNat == 0x0A || c.toNat == 0x10 || c.toNat == 0x11 || c.toNat == 0x12 then 2 else 1

/-- Special registers that `sreg.set` may name (R140): %csp, %nbv, %bphase, %pev, %evm, %gstat. -/
def sregWritable (c : Reg) : Bool :=
  c.toNat == 0x0A || c.toNat == 0x0B || c.toNat == 0x0C || c.toNat == 0x0D || c.toNat == 0x0E || c.toNat == 0x15

/-- The greatest k of `funpack` (R197). -/
def funpackMaxK (st : Ty) : Nat := if st.bytes == 1 then 1 else 0

/-- The register operands and bounded fields of an instruction (R139 and the instruction chapters). -/
def Instr.opnds : Instr → List Opnd
  | .iadd _ _ _ d a b => [.v d 1, .v a 1] ++ b.opnds
  | .isub _ _ _ d a b => [.v d 1, .v a 1] ++ b.opnds
  | .imul _ _ _ d a b => [.v d 1, .v a 1] ++ b.opnds
  | .imulhi _ _ d a b => [.v d 1, .v a 1] ++ b.opnds
  | .imad _ _ _ d a b c => [.v d 1, .v a 1, .v b 1, .v c 1]
  | .iadd64 _ _ _ d a b => [.v d 2, .v a 2, .v b 2]
  | .isub64 _ _ _ d a b => [.v d 2, .v a 2, .v b 2]
  | .imad64 _ _ _ d a b c => [.v d 2, .v a 2, .v b 1, .v c 2]
  | .iaddc _ _ d a b c => [.v d 1, .v a 1, .v b 1, .p c]
  | .ineg _ _ d a => [.v d 1, .v a 1]
  | .iabs _ _ d a => [.v d 1, .v a 1]
  | .imin _ _ d a b => [.v d 1, .v a 1] ++ b.opnds
  | .imax _ _ d a b => [.v d 1, .v a 1] ++ b.opnds
  | .and _ d a b => [.v d 1, .v a 1] ++ b.opnds
  | .or _ d a b => [.v d 1, .v a 1] ++ b.opnds
  | .xor _ d a b => [.v d 1, .v a 1] ++ b.opnds
  | .andn _ d a b => [.v d 1, .v a 1] ++ b.opnds
  | .not _ d a => [.v d 1, .v a 1]
  | .lop3 _ _ d a b c => [.v d 1, .v a 1, .v b 1, .v c 1]
  | .shl _ d a b => [.v d 1, .v a 1] ++ b.opnds
  | .shr _ d a b => [.v d 1, .v a 1] ++ b.opnds
  | .sra _ d a b => [.v d 1, .v a 1] ++ b.opnds
  | .rotl _ d a b => [.v d 1, .v a 1] ++ b.opnds
  | .shl64 _ d a b => [.v d 2, .v a 2] ++ b.opnds
  | .shr64 _ _ d a b => [.v d 2, .v a 2] ++ b.opnds
  | .clz _ d a => [.v d 1, .v a 1]
  | .popc _ d a => [.v d 1, .v a 1]
  | .brev _ d a => [.v d 1, .v a 1]
  | .bfx _ _ bi d a b c => [.v d 1, .v a 1] ++ if bi then [] else [.v b 1, .v c 1]
  | .bfi _ d a b c => [.v d 1, .v a 1, .v b 1, .v c 1]
  | .sel _ d a b c => [.v d 1, .v a 1, .v b 1, .p c]
  | .mov _ d a => [.v d 1] ++ a.opnds
  | .lea _ _ d a b s => [.v d 2, .v a 2, .v b 1, .rng s 0 7]
  | .iaddImm _ _ _ d a _ => [.v d 1, .v a 1]
  | .isubImm _ _ _ d a _ => [.v d 1, .v a 1]
  | .imulImm _ _ _ d a _ => [.v d 1, .v a 1]
  | .imadImm _ _ _ d a _ c => [.v d 1, .v a 1, .v c 1]
  | .iminImm _ _ d a _ => [.v d 1, .v a 1]
  | .imaxImm _ _ d a _ => [.v d 1, .v a 1]
  | .andImm _ d a _ => [.v d 1, .v a 1]
  | .orImm _ d a _ => [.v d 1, .v a 1]
  | .xorImm _ d a _ => [.v d 1, .v a 1]
  | .andnImm _ d a _ => [.v d 1, .v a 1]
  | .movk _ d _ => [.v d 1]
  | .movk64 _ d _ => [.v d 2]
  | .icmp _ _ ty d a b => [.p d, .v a ty.regs] ++ (match b with | .reg r => [.v r ty.regs] | .imm _ => [])
  | .pset _ d a n => [.prun d n, .v a 1]
  | .pget _ d a n => [.v d 1, .prun a n]
  | .pand _ _ _ d a b => [.p d, .p a, .p b]
  | .por _ _ _ d a b => [.p d, .p a, .p b]
  | .pxor _ _ _ d a b => [.p d, .p a, .p b]
  | .pnot _ _ d a => [.p d, .p a]
  | .pmov _ _ d a => [.p d, .p a]
  | .bra _ _ => []
  | .brx _ a => [.v a 2]
  | .call _ _ => []
  | .callx _ a => [.v a 2]
  | .ret _ => []
  | .exit _ => []
  | .yield _ => []
  | .nop _ => []
  | .nopWidened _ => []
  | .rejoinArm _ all a k => (if all then [] else [.v a 1]) ++ [.rng k 0 7]
  | .rejoin _ k => [.rng k 0 7]
  | .qswap _ _ d a => [.v d 1, .v a 1]
  | .qbcast _ d a k => [.v d 1, .v a 1, .rng k 0 3]
  | .gshfl _ _ d a b => [.v d 1, .v a 1] ++ b.opnds
  | .gvote _ mode d a => [match mode with | .ballot => .v d 1 | _ => .p d, .p a]
  | .gsync _ all a => if all then [] else [.v a 1]
  | .gmatch _ ty d a => [.v d 1, .v a ty.regs]
  | .gredux _ _ _ d a => [.v d 1, .v a 1]
  | .gscan _ _ _ _ d a => [.v d 1, .v a 1]
  | .gelect _ d => [.p d]
  | .fadd _ _ _ d a b => [.v d 1, .v a 1, .v b 1]
  | .fsub _ _ _ d a b => [.v d 1, .v a 1, .v b 1]
  | .fmul _ _ _ d a b => [.v d 1, .v a 1, .v b 1]
  | .fscale _ _ _ d a b => [.v d 1, .v a 1, .v b 1]
  | .hadd2 _ _ _ d a b => [.v d 1, .v a 1, .v b 1]
  | .hmul2 _ _ _ d a b => [.v d 1, .v a 1, .v b 1]
  | .badd2 _ _ _ d a b => [.v d 1, .v a 1, .v b 1]
  | .bmul2 _ _ _ d a b => [.v d 1, .v a 1, .v b 1]
  | .ffma _ _ _ d a b c => [.v d 1, .v a 1, .v b 1, .v c 1]
  | .hfma2 _ _ _ d a b c => [.v d 1, .v a 1, .v b 1, .v c 1]
  | .bfma2 _ _ _ d a b c => [.v d 1, .v a 1, .v b 1, .v c 1]
  | .fdot2 _ _ _ d a b c => [.v d 1, .v a 1, .v b 1, .v c 1]
  | .bdot2 _ _ _ d a b c => [.v d 1, .v a 1, .v b 1, .v c 1]
  | .fmin _ _ d a b => [.v d 1, .v a 1, .v b 1]
  | .fmax _ _ d a b => [.v d 1, .v a 1, .v b 1]
  | .frnd _ _ _ d a => [.v d 1, .v a 1]
  | .fcmp _ _ _ d a b => [.p d, .v a 1, .v b 1]
  | .fclass _ _ d a => [.v d 1, .v a 1]
  | .fsign _ _ d a b => [.v d 1, .v a 1, .v b 1]
  | .qdot4 _ _ _ _ _ d a b c => [.v d 1, .v a 1, .v b 1, .v c 1]
  | .fcvt _ _ _ _ _ _ _ d a => [.v d 1, .v a 1]
  | .fcvtSr _ _ _ _ _ _ d a b => [.v d 1, .v a 1, .v b 1]
  | .fcvti _ it _ _ _ d a => [.v d it.regs, .v a 1]
  | .icvtf _ _ it _ _ d a => [.v d 1, .v a it.regs]
  | .fpack _ _ _ _ _ _ d a b => [.v d 1, .v a 1, .v b 1]
  | .funpack _ sty _ d a k => [.v d 2, .v a 1, .rng k 0 (funpackMaxK sty)]
  | .fbmax _ _ _ d a b => [.v d 1, .v a 1, .v b 1]
  | .ds8enc _ _ d a b => [.v d 1, .v a 1, .v b 1]
  | .ds8dec _ _ _ d a b k => [.v d 1, .v a 1, .v b 1, .rng k 0 3]
  | .frcp _ _ _ d a => [.v d 1, .v a 1]
  | .frsq _ _ _ d a => [.v d 1, .v a 1]
  | .fsqrt _ _ _ d a => [.v d 1, .v a 1]
  | .fexp2 _ _ _ d a => [.v d 1, .v a 1]
  | .flog2 _ _ _ d a => [.v d 1, .v a 1]
  | .fsin _ _ _ d a => [.v d 1, .v a 1]
  | .fcos _ _ _ d a => [.v d 1, .v a 1]
  | .ftanh _ _ _ d a => [.v d 1, .v a 1]
  | .fsigm _ _ _ d a => [.v d 1, .v a 1]
  | .ld _ x => x.opnds 2
  | .ldG _ x => x.opnds 2
  | .ldS _ x => x.opnds 1
  | .ldC _ x => x.opnds 1
  | .ldP _ x => x.opnds 1
  | .st _ x _ => x.opnds 2
  | .stG _ x => x.opnds 2
  | .stS _ x => x.opnds 1
  | .stC _ x => x.opnds 1
  | .stP _ x => x.opnds 1
  | .pref _ _ a _ => [.v a 2]
  | .spt _ d a => [.v d 1, .v a 2]
  | .spc _ sp off d c a => [.v d (if !off || sp = .g then 2 else 1), .p c, .v a (if off || sp = .g then 2 else 1)]
  | .xlatePf _ a _ => [.v a 2]
  | .atomAdd _ ty _ d a b => [.v d ty.regs, .v a 2, .v b ty.regs]
  | .atomMin _ ty _ d a b => [.v d ty.regs, .v a 2, .v b ty.regs]
  | .atomMax _ ty _ d a b => [.v d ty.regs, .v a 2, .v b ty.regs]
  | .atomAnd _ ty _ d a b => [.v d ty.regs, .v a 2, .v b ty.regs]
  | .atomOr _ ty _ d a b => [.v d ty.regs, .v a 2, .v b ty.regs]
  | .atomXor _ ty _ d a b => [.v d ty.regs, .v a 2, .v b ty.regs]
  | .atomExch _ ty _ d a b => [.v d ty.regs, .v a 2, .v b ty.regs]
  | .atomFadd _ ty _ d a b => [.v d ty.regs, .v a 2, .v b ty.regs]
  | .atomInc _ ty _ d a b => [.v d ty.regs, .v a 2, .v b ty.regs]
  | .atomCas _ ty _ d a b c => [.v d ty.regs, .v a 2, .v b ty.regs, .v c ty.regs]
  | .red _ _ ty a b => [.v a 2, .v b ty.regs]
  | .fence _ _ => []
  | .hgLoad _ _ d a b _ _ => [.v d 1, .v a 1, .v b 2]
  | .hgGrad _ d a b _ _ => [.v d 1, .v a 1, .v b 2]
  | .hgCorner _ d a b c _ => [.v d 2, .v a 1, .v b 2, .v c 1]
  | .chanSend _ _ a b c => [.v a 1, .v b 1, .p c]
  | .chanRecv _ _ d => [.v d 1]
  | .chanProbe _ _ d => [.v d 1]
  | .fifoPush _ d a b c => [.v d 1, .v a 1, .v b 1, .p c]
  | .fifoPop _ d a c => [.v d 1, .v a 1, .p c]
  | .bankMode _ _ mode d a c => [.rng mode 0 3, .v d 1, .v a 1, .p c]
  | .sctxGet _ d => [.v d 4]
  | .mmaF16 _ x => x.opnds 4
  | .mmaBf16 _ x => x.opnds 4
  | .mmaE4m3 _ x => x.opnds 4
  | .mmaE5m2 _ x => x.opnds 4
  | .mmaS8 _ x => x.opnds 4
  | .mmaDs8 _ x => x.opnds 8 ++ if x.sc then [.rng (x.bsel.setWidth 8 &&& 1#8) 0 0] else []
  | .accZero _ _ d n => [.tile d n.toNat, .rng n 1 64]
  | .accLd _ _ ty d a => [.tile d 1, if ty.tileRegs = 2 then .v a 2 else .frag a ty.tileRegs]
  | .accDrain _ _ _ ty tpb d a b => [if ty.tileRegs = 2 then .v d 2 else .frag d ty.tileRegs, .tile a 1] ++ if tpb then [.v b 2] else []
  | .accSpill _ _ a b => [.v a 2, .tile b 1]
  | .accFill _ _ d a => [.tile d 1, .v a 2]
  | .accMov _ _ d a => [.tile d 1, .tile a 1]
  | .accAdd _ _ d a b => [.tile d 1, .tile a 1, .tile b 1]
  | .accScale _ _ d a b => [.tile d 1, .tile a 1, .v b 1]
  | .gangForm _ a => [.v a 1]
  | .gangBrk _ => []
  | .dslotWait _ _ => []
  | .barArrive _ d b => [.v d 1, .rng b 0 15]
  | .barWait _ a b => [.v a 1, .rng b 0 15]
  | .barSync _ b => [.rng b 0 15]
  | .barDie _ mode d a b => (match mode with | .sync => [] | .arrive => [.v d 1] | .wait => [.v a 1]) ++ [.rng b 0 3]
  | .barPkg _ mode d a b => (match mode with | .sync => [] | .arrive => [.v d 1] | .wait => [.v a 1]) ++ [.rng b 0 3]
  | .evArm _ a _ => [.v a 2]
  | .evMask _ _ _ => []
  | .evClear _ _ => []
  | .wany _ a => [.v a 2]
  | .mboxPost _ _ d a b => [.p d, .v a 1, .v b 1]
  | .mboxRead _ _ d c => [.v d 1, .p c]
  | .tlWait _ a b => [.v a 2, .rng b 0 15]
  | .tlRead _ _ d b => [.v d 2, .rng b 0 15]
  | .tlTry _ d a b c => [.v d 2, .v a 2, .rng b 0 15, .p c]
  | .gslotSet _ a b => [.p a, .rng b 0 7]
  | .gslotClr _ b => [.rng b 0 7]
  | .launch _ d a b c => [.v d 1, .v a 1, .run b 16, .p c]
  | .tapePush _ d b c => [.v d 1, .run b 16, .p c]
  | .leaveReq _ _ => []
  | .leaveRel _ _ => []
  | .regionBegin _ => []
  | .regionEnd _ => []
  | .xret _ => []
  | .regsGrow _ d n => [.p d, .rng n 1 7]
  | .regsShrink _ n => [.rng n 1 7]
  | .sregGet _ d c => [.v d (sregRegs c), .rng c 0 0x15]
  | .sregSet _ a c => [.v a (sregRegs c), .rng c 0 0x15]
  | .rdtime _ _ d => [.v d 2]
  | .trap _ _ => []
  | .brk _ _ => []
  | _ => []

/-- The header of an instruction; none for a device event. -/
def Instr.hdr? : Instr → Option Hdr
  | .iadd h _ _ _ _ _ => some h
  | .isub h _ _ _ _ _ => some h
  | .imul h _ _ _ _ _ => some h
  | .imulhi h _ _ _ _ => some h
  | .imad h _ _ _ _ _ _ => some h
  | .iadd64 h _ _ _ _ _ => some h
  | .isub64 h _ _ _ _ _ => some h
  | .imad64 h _ _ _ _ _ _ => some h
  | .iaddc h _ _ _ _ _ => some h
  | .ineg h _ _ _ => some h
  | .iabs h _ _ _ => some h
  | .imin h _ _ _ _ => some h
  | .imax h _ _ _ _ => some h
  | .and h _ _ _ => some h
  | .or h _ _ _ => some h
  | .xor h _ _ _ => some h
  | .andn h _ _ _ => some h
  | .not h _ _ => some h
  | .lop3 h _ _ _ _ _ => some h
  | .shl h _ _ _ => some h
  | .shr h _ _ _ => some h
  | .sra h _ _ _ => some h
  | .shl64 h _ _ _ => some h
  | .shr64 h _ _ _ _ => some h
  | .rotl h _ _ _ => some h
  | .clz h _ _ => some h
  | .popc h _ _ => some h
  | .brev h _ _ => some h
  | .bfx h _ _ _ _ _ _ => some h
  | .bfi h _ _ _ _ => some h
  | .sel h _ _ _ _ => some h
  | .mov h _ _ => some h
  | .lea h _ _ _ _ _ => some h
  | .iaddImm h _ _ _ _ _ => some h
  | .isubImm h _ _ _ _ _ => some h
  | .imulImm h _ _ _ _ _ => some h
  | .imadImm h _ _ _ _ _ _ => some h
  | .iminImm h _ _ _ _ => some h
  | .imaxImm h _ _ _ _ => some h
  | .andImm h _ _ _ => some h
  | .orImm h _ _ _ => some h
  | .xorImm h _ _ _ => some h
  | .andnImm h _ _ _ => some h
  | .movk h _ _ => some h
  | .movk64 h _ _ => some h
  | .icmp h _ _ _ _ _ => some h
  | .pset h _ _ _ => some h
  | .pget h _ _ _ => some h
  | .pand h _ _ _ _ _ => some h
  | .por h _ _ _ _ _ => some h
  | .pxor h _ _ _ _ _ => some h
  | .pnot h _ _ _ => some h
  | .pmov h _ _ _ => some h
  | .bra h _ => some h
  | .brx h _ => some h
  | .call h _ => some h
  | .callx h _ => some h
  | .ret h => some h
  | .exit h => some h
  | .rejoinArm h _ _ _ => some h
  | .rejoin h _ => some h
  | .yield h => some h
  | .nop h => some h
  | .nopWidened h => some h
  | .qswap h _ _ _ => some h
  | .qbcast h _ _ _ => some h
  | .gshfl h _ _ _ _ => some h
  | .gvote h _ _ _ => some h
  | .gsync h _ _ => some h
  | .gmatch h _ _ _ => some h
  | .gredux h _ _ _ _ => some h
  | .gscan h _ _ _ _ _ => some h
  | .gelect h _ => some h
  | .fadd h _ _ _ _ _ => some h
  | .fsub h _ _ _ _ _ => some h
  | .fmul h _ _ _ _ _ => some h
  | .ffma h _ _ _ _ _ _ => some h
  | .fmin h _ _ _ _ => some h
  | .fmax h _ _ _ _ => some h
  | .frnd h _ _ _ _ => some h
  | .fcmp h _ _ _ _ _ => some h
  | .fclass h _ _ _ => some h
  | .fsign h _ _ _ _ => some h
  | .fscale h _ _ _ _ _ => some h
  | .hadd2 h _ _ _ _ _ => some h
  | .hmul2 h _ _ _ _ _ => some h
  | .hfma2 h _ _ _ _ _ _ => some h
  | .badd2 h _ _ _ _ _ => some h
  | .bmul2 h _ _ _ _ _ => some h
  | .bfma2 h _ _ _ _ _ _ => some h
  | .fdot2 h _ _ _ _ _ _ => some h
  | .bdot2 h _ _ _ _ _ _ => some h
  | .qdot4 h _ _ _ _ _ _ _ _ => some h
  | .fcvt h _ _ _ _ _ _ _ _ => some h
  | .fcvtSr h _ _ _ _ _ _ _ _ => some h
  | .fcvti h _ _ _ _ _ _ => some h
  | .icvtf h _ _ _ _ _ _ => some h
  | .fpack h _ _ _ _ _ _ _ _ => some h
  | .funpack h _ _ _ _ _ => some h
  | .fbmax h _ _ _ _ _ => some h
  | .ds8enc h _ _ _ _ => some h
  | .ds8dec h _ _ _ _ _ _ => some h
  | .frcp h _ _ _ _ => some h
  | .frsq h _ _ _ _ => some h
  | .fsqrt h _ _ _ _ => some h
  | .fexp2 h _ _ _ _ => some h
  | .flog2 h _ _ _ _ => some h
  | .fsin h _ _ _ _ => some h
  | .fcos h _ _ _ _ => some h
  | .ftanh h _ _ _ _ => some h
  | .fsigm h _ _ _ _ => some h
  | .ld h _ => some h
  | .ldG h _ => some h
  | .ldS h _ => some h
  | .ldC h _ => some h
  | .ldP h _ => some h
  | .st h _ _ => some h
  | .stG h _ => some h
  | .stS h _ => some h
  | .stC h _ => some h
  | .stP h _ => some h
  | .pref h _ _ _ => some h
  | .spt h _ _ => some h
  | .spc h _ _ _ _ _ => some h
  | .xlatePf h _ _ => some h
  | .atomAdd h _ _ _ _ _ => some h
  | .atomMin h _ _ _ _ _ => some h
  | .atomMax h _ _ _ _ _ => some h
  | .atomAnd h _ _ _ _ _ => some h
  | .atomOr h _ _ _ _ _ => some h
  | .atomXor h _ _ _ _ _ => some h
  | .atomExch h _ _ _ _ _ => some h
  | .atomCas h _ _ _ _ _ _ => some h
  | .atomFadd h _ _ _ _ _ => some h
  | .atomInc h _ _ _ _ _ => some h
  | .red h _ _ _ _ => some h
  | .fence h _ => some h
  | .hgLoad h _ _ _ _ _ _ => some h
  | .hgGrad h _ _ _ _ _ => some h
  | .hgCorner h _ _ _ _ _ => some h
  | .chanSend h _ _ _ _ => some h
  | .chanRecv h _ _ => some h
  | .chanProbe h _ _ => some h
  | .fifoPush h _ _ _ _ => some h
  | .fifoPop h _ _ _ => some h
  | .bankMode h _ _ _ _ _ => some h
  | .sctxGet h _ => some h
  | .mmaF16 h _ => some h
  | .mmaBf16 h _ => some h
  | .mmaE4m3 h _ => some h
  | .mmaE5m2 h _ => some h
  | .mmaS8 h _ => some h
  | .mmaDs8 h _ => some h
  | .accZero h _ _ _ => some h
  | .accLd h _ _ _ _ => some h
  | .accDrain h _ _ _ _ _ _ _ => some h
  | .accSpill h _ _ _ => some h
  | .accFill h _ _ _ => some h
  | .accMov h _ _ _ => some h
  | .accAdd h _ _ _ _ => some h
  | .accScale h _ _ _ _ => some h
  | .gangForm h _ => some h
  | .gangBrk h => some h
  | .dslotWait h _ => some h
  | .barArrive h _ _ => some h
  | .barWait h _ _ => some h
  | .barSync h _ => some h
  | .barDie h _ _ _ _ => some h
  | .barPkg h _ _ _ _ => some h
  | .evArm h _ _ => some h
  | .evMask h _ _ => some h
  | .evClear h _ => some h
  | .wany h _ => some h
  | .mboxPost h _ _ _ _ => some h
  | .mboxRead h _ _ _ => some h
  | .tlWait h _ _ => some h
  | .tlRead h _ _ _ => some h
  | .tlTry h _ _ _ _ => some h
  | .gslotSet h _ _ => some h
  | .gslotClr h _ => some h
  | .launch h _ _ _ _ => some h
  | .tapePush h _ _ _ => some h
  | .leaveReq h _ => some h
  | .leaveRel h _ => some h
  | .regionBegin h => some h
  | .regionEnd h => some h
  | .regsGrow h _ _ => some h
  | .regsShrink h _ => some h
  | .sregGet h _ _ => some h
  | .sregSet h _ _ => some h
  | .rdtime h _ _ => some h
  | .trap h _ => some h
  | .brk h _ => some h
  | .xret h => some h
  | _ => none

/-- Base formats (R142, R154). -/
inductive Fmt where
  | f64 | f96 | f128
  deriving DecidableEq, Repr

/-- The base format of an instruction (Table 6-9). -/
def Instr.fmt : Instr → Fmt
  | .iaddImm .. => .f96
  | .isubImm .. => .f96
  | .imulImm .. => .f96
  | .imadImm .. => .f96
  | .iminImm .. => .f96
  | .imaxImm .. => .f96
  | .andImm .. => .f96
  | .orImm .. => .f96
  | .xorImm .. => .f96
  | .andnImm .. => .f96
  | .movk .. => .f96
  | .bra .. => .f96
  | .call .. => .f96
  | .movk64 .. => .f128
  | .mmaF16 .. => .f128
  | .mmaBf16 .. => .f128
  | .mmaE4m3 .. => .f128
  | .mmaE5m2 .. => .f128
  | .mmaS8 .. => .f128
  | .mmaDs8 .. => .f128
  | .accZero .. => .f128
  | .accLd .. => .f128
  | .accDrain .. => .f128
  | .accSpill .. => .f128
  | .accFill .. => .f128
  | .accMov .. => .f128
  | .accAdd .. => .f128
  | .accScale .. => .f128
  | .dslotWait .. => .f128
  | _ => .f64

/-- Length of an instruction in bytes (R142, R145). -/
def Instr.len (i : Instr) : Nat :=
  match i.fmt with
  | .f64 => if (i.hdr?.map (·.wide)).getD false then 12 else 8
  | .f96 => 12
  | .f128 => 16

def Ty.isInt32 (t : Ty) : Bool := t = .s32 || t = .z32
def Ty.isInt64 (t : Ty) : Bool := t = .s64 || t = .z64

/-- Float types of Table 5-1 that scalar conversions name (R194). -/
def Ty.isFloat (t : Ty) : Bool := t = .f32 || t = .f16 || t = .bf16 || t = .e4m3 || t = .e5m2
def Ty.isNarrowFloat (t : Ty) : Bool := t = .f16 || t = .bf16 || t = .e4m3 || t = .e5m2

/-- Types of a load and of a store (Table 9-1). -/
def Ty.isLd (t : Ty) : Bool :=
  t = .s8 || t = .s16 || t = .z8 || t = .z16 || t = .b8 || t = .b16 || t = .b32 || t = .b64 || t = .b128
def Ty.isSt (t : Ty) : Bool := t = .b8 || t = .b16 || t = .b32 || t = .b64 || t = .b128

/-- Types of an atomic operation (Table 9-4, R215). -/
def MemOp.tyOk : MemOp → Ty → Bool
  | .add, t | .min, t | .max, t => t.isInt32 || t.isInt64
  | .and, t | .or, t | .xor, t => t = .b32 || t = .b64
  | .fadd, t => t = .f32
  | .inc, t => t = .z32

/-- Types of a reduction (Table 7-10). -/
def RedOp.tyOk : RedOp → Ty → Bool
  | .add, t | .min, t | .max, t => t.isInt32
  | .and, t | .or, t | .xor, t => t = .b32

/-- SAT is accepted by destinations FP16 and E5M2 (Table 8-2). -/
def satOk (dt : Ty) (sat : Bool) : Bool := !sat || dt = .f16 || dt = .e5m2

/-- INF is accepted by destination E4M3 (Table 8-2). -/
def infOk (dt : Ty) (inf : Bool) : Bool := !inf || dt = .e4m3

def LdArgs.ok (x : LdArgs) : Bool := x.ty.isLd && !(x.inv && x.last)

/-- Modifier rules shared by the `mma` forms (Table 10-2): scales only where the form takes them, and zero fields
where they are not used. -/
def MmaArgs.ok (x : MmaArgs) (scOk uOk ubOk : Bool) : Bool :=
  (x.sc → scOk) && (x.u → uOk) && (x.ub → ubOk) && (x.sc || (x.b == 0#8 && x.bsel == 0#2)) &&
  (x.ds.sset || x.ds.sslot == 0#3)

/-- SSET = 0 with SSLOT nonzero is refused (R152). -/
def DSlots.ok (x : DSlots) : Bool := x.sset || x.sslot == 0#3

/-- Rows 6 and 7 of Table 6-10: the types, modifiers and modes that an instruction accepts. -/
def Instr.encodingOk : Instr → Bool
  | .iadd _ ty _ _ _ _ => ty.isInt32
  | .isub _ ty _ _ _ _ => ty.isInt32
  | .imul _ ty _ _ _ _ => ty.isInt32
  | .imulhi _ ty _ _ _ => ty.isInt32
  | .imad _ ty _ _ _ _ _ => ty.isInt32
  | .iadd64 _ ty _ _ _ _ => ty.isInt64
  | .isub64 _ ty _ _ _ _ => ty.isInt64
  | .imad64 _ ty _ _ _ _ _ => ty.isInt64
  | .imin _ ty _ _ _ => ty.isInt32
  | .imax _ ty _ _ _ => ty.isInt32
  | .shr64 _ ty _ _ _ => ty.isInt64
  | .bfx _ ty _ _ _ _ _ => ty.isInt32
  | .lea _ ty _ _ _ _ => ty.isInt32
  | .iaddImm _ ty _ _ _ _ => ty.isInt32
  | .isubImm _ ty _ _ _ _ => ty.isInt32
  | .imulImm _ ty _ _ _ _ => ty.isInt32
  | .imadImm _ ty _ _ _ _ _ => ty.isInt32
  | .iminImm _ ty _ _ _ => ty.isInt32
  | .imaxImm _ ty _ _ _ => ty.isInt32
  | .icmp _ _ ty _ _ b => ty.isInt32 || (ty.isInt64 && (match b with | .reg _ => true | .imm _ => false))
  | .nop h => !h.wide
  | .nopWidened h => h.wide
  | .gmatch _ ty _ _ => ty = .b32 || ty = .b64
  | .gredux _ op ty _ _ => op.tyOk ty
  | .gscan _ op _ ty _ _ => op.tyOk ty
  | .rejoinArm _ all a _ => !all || a == 0#8
  | .gsync _ all a => !all || a == 0#8
  | .fclass _ ty _ _ => ty.isFloat
  | .qdot4 _ ty rm ftz sat _ _ _ _ => ((ty = .e4m3 || ty = .e5m2) && !sat) || ((ty = .s8 || ty = .z8) && rm = .rne && !ftz)
  | .fcvt _ dt sty _ _ sat inf _ _ => dt.isFloat && sty.isFloat && satOk dt sat && infOk dt inf
  | .fcvtSr _ dt sty _ sat inf _ _ _ => dt.isFloat && sty.isFloat && satOk dt sat && infOk dt inf
  | .fcvti _ it sty _ _ _ _ => (it.isInt32 || it.isInt64) && (sty = .f32 || sty = .f16 || sty = .bf16)
  | .icvtf _ dt it _ _ _ _ => (it.isInt32 || it.isInt64) && (dt = .f32 || dt = .f16 || dt = .bf16)
  | .fpack _ dt _ _ sat inf _ _ _ => dt.isNarrowFloat && satOk dt sat && infOk dt inf
  | .funpack _ sty _ _ _ _ => sty.isNarrowFloat
  | .fbmax _ dt _ _ _ _ => dt.isNarrowFloat || dt = .ds8
  | .ld _ x => x.ok
  | .ldG _ x => x.ok
  | .ldS _ x => x.ok
  | .ldC _ x => x.ok
  | .ldP _ x => x.ok
  | .st _ x gsl => x.ty.isSt && (gsl == 0#4 || x.ty = .b128)
  | .stG _ x => x.ty.isSt
  | .stS _ x => x.ty.isSt
  | .stC _ x => x.ty.isSt
  | .stP _ x => x.ty.isSt
  | .atomAdd _ ty _ _ _ _ => MemOp.tyOk .add ty
  | .atomMin _ ty _ _ _ _ => MemOp.tyOk .min ty
  | .atomMax _ ty _ _ _ _ => MemOp.tyOk .max ty
  | .atomAnd _ ty _ _ _ _ => MemOp.tyOk .and ty
  | .atomOr _ ty _ _ _ _ => MemOp.tyOk .or ty
  | .atomXor _ ty _ _ _ _ => MemOp.tyOk .xor ty
  | .atomFadd _ ty _ _ _ _ => MemOp.tyOk .fadd ty
  | .atomInc _ ty _ _ _ _ => MemOp.tyOk .inc ty
  | .atomExch _ ty _ _ _ _ => ty = .b32 || ty = .b64
  | .atomCas _ ty _ _ _ _ _ => ty = .b32 || ty = .b64
  | .red _ op ty _ _ => op.tyOk ty
  | .mmaF16 _ x => x.ok false false false
  | .mmaBf16 _ x => x.ok false false false
  | .mmaE4m3 _ x => x.ok true false false
  | .mmaE5m2 _ x => x.ok true false false
  | .mmaS8 _ x => x.ok false true true
  | .mmaDs8 _ x => x.ok true true false
  | .accZero _ ds _ _ => ds.ok
  | .accLd _ ds ty _ _ => ds.ok && (ty = .f32 || ty = .f16 || ty = .bf16 || ty = .s32)
  | .accDrain _ ds _ ty tpb _ _ b => ds.ok && (ty.isFloat || ty = .s32) && (tpb || b == 0#8)
  | .accSpill _ ds _ _ => ds.ok
  | .accFill _ ds _ _ => ds.ok
  | .accMov _ ds _ _ => ds.ok
  | .accAdd _ ds _ _ _ => ds.ok
  | .accScale _ ds _ _ _ => ds.ok
  | .barDie _ mode d a _ => (mode = .arrive || d == 0#8) && (mode = .wait || a == 0#8)
  | .barPkg _ mode d a _ => (mode = .arrive || d == 0#8) && (mode = .wait || a == 0#8)
  | _ => true

/-- The header's part of row 9: a guard predicate of 96-127 is refused (R143). An F96 or F128 instruction has no
widened form (R145). -/
def Hdr.gpOk (h : Hdr) : Bool := h.gp.toNat ≤ 95

/-- Row 9 of Table 6-10. -/
def Instr.operandsOk (i : Instr) : Bool :=
  (match i.hdr? with | some h => h.gpOk | none => true) && i.opnds.all Opnd.ok

/-- Only an F64 instruction can be widened (R145). -/
def Instr.widthOk (i : Instr) : Bool :=
  i.fmt = .f64 || !((i.hdr?.map (·.wide)).getD false)

/-- The accesses of a host hart (R94): the sizes of RISC-V accesses, and the AMOs of RVA23. -/
def HostOp.ok : HostOp → Bool
  | .load _ n | .store _ n _ => n == 1 || n == 2 || n == 4 || n == 8
  | .fetch _ n => n == 2 || n == 4
  | .amo o u _ n _ => (n == 4 || n == 8) && o ≠ .fadd && o ≠ .inc && (!u || o == .min || o == .max)
  | .swap _ n _ | .reserve _ n | .conditional _ n _ => n == 4 || n == 8

/-- The indices of a device event name units that the package has (Table 0-2): 8 partitions, 48 clusters, 64 banks a
cluster and 128 L2 slices after them, 384 cores, 64 queues, 8 stacks, 32 ports, 8,192 stream-context entries, 2,048 key IDs, 32 harts. -/
def Instr.eventOk : Instr → Bool
  | .teamPlacement p => p < 8
  | .takeRecord p => p < 8
  | .tapePop p => p < 8
  | .preempt p => p < 8
  | .preemptSave p => p < 8
  | .resume p => p < 8
  | .swapExchange p => p < 8
  | .timeSliceExpiry p => p < 8
  | .tlbInvalidateDone p => p < 8
  | .qctlWrite p q _ => p < 8 && q < 64
  | .qtailWrite p q _ => p < 8 && q < 64
  | .timerFire p q => p < 8 && q < 64
  | .swap p i => p < 8 && i < 16
  | .fqctlWrite p _ => p < 8
  | .fqheadWrite p _ => p < 8
  | .replay p _ => p < 8
  | .replayPage p _ => p < 8
  | .skip p _ => p < 8
  | .kill p _ => p < 8
  | .tlbInvalidate p _ => p < 8
  | .pageWalkComplete p d va _ => p < 8 && d < 2 && va < 2 ^ 55
  | .barrierWaveRelease c => c < 48
  | .deplClear c => c < 48
  | .biasSettled c => c < 48
  | .thermalStep c => c < 48
  | .clpartWrite c _ => c < 48
  | .clbiasWrite c _ => c < 48
  | .thermalSample c t => c < 48 && t < 4096
  | .hotSpotMigration _ c => c < 384
  | .bankNap b => b < 48 * 64 + 128
  | .bankRetain b => b < 48 * 64 + 128
  | .warmReserveRefill b => b < 48 * 64
  | .bankModeComplete b => b < 48 * 64
  | .bankWakeComplete b _ => b < 48 * 64 + 128
  | .streamFire e => e < 8192
  | .streamEvictionComplete e => e < 8192
  | .streamReloadComplete e => e < 8192
  | .bind e => e < 8192
  | .unbind e => e < 8192
  | .chunk e => e < 8192
  | .assign i p => i < 2048 && p < 8
  | .destroy i => i < 2048
  | .hbmErrorLimit s => s < 8
  | .hbmTrainingPass s => s < 8
  | .qosShareWrite p q _ => p < 8 && q < 33
  | .hbmregWrite p s _ => p < 8 && s < 8
  | .registerWrite o sz _ => o < 2 ^ 24 && (sz == 4 || sz == 8)
  | .hostAccess h op => h < 32 && op.ok
  | .hostFence h => h < 32
  | .l2HomeRead r => r.duel < 3 && r.core < 386
  | .longLatencyResult _ _ l => l < 32
  | .debuggerAttach p _ => p < 8
  | .linkStateChange p l _ => p < 32 && l < 16
  | .linkResend p _ => p < 32
  | .frameDrop p => p < 32
  | .ptpEventMessage p _ => p < 33
  | .profileApply p => p.part < 8
  | _ => true

/-- A well-formed instruction or device event. -/
def Instr.WellFormed (i : Instr) : Bool :=
  i.encodingOk && i.operandsOk && i.widthOk && i.eventOk

end Sys2Proof
end

