-- ==== Sys2Proof/Decode.lean ====
section
/-! DEFINITION. The decoder and the encoder (R142-R148, R154, R155 rows 1 to 7, and the field tables of chapters 07 to
11). Words pass through `Raw`, which has one field for each field of Table 6-8; each instruction is placed into those
fields once, by `toRaw`, and read back by `parse`. A word decodes only when placing the instruction read from it gives
the word again, so that no reserved bit can be nonzero (row 5 of Table 6-10). Named failures: row 1 `fetchAlign`, row 2
`badFill`, row 3 `unassigned`, rows 4 and 5 `reservedField`, rows 6 and 7 `badCode`. -/

namespace Sys2Proof

/-- Why a word is not an instruction (Table 6-10). -/
inductive DecErr where
  | fetchAlign | badFill | truncated | unassigned | reservedField | badCode
  deriving DecidableEq, Repr

/-- The fields of Tables 6-7 and 6-8; words 2 and 3 are zero where the format has none. -/
structure Raw where
  len : BitVec 2
  opc : BitVec 10
  gp : BitVec 7
  gn : Bool
  d : BitVec 8
  a : BitVec 8
  b : BitVec 8
  c : BitVec 8
  x : BitVec 4
  m : BitVec 8
  w2 : BitVec 32
  w3 : BitVec 32
  deriving DecidableEq, Repr

/-- The bits of an instruction, bit 0 the lowest of word 0 (R142, Table 6-8). -/
def Raw.pack (r : Raw) : BitVec 128 :=
  r.w3 ++ r.w2 ++ r.m ++ r.x ++ r.c ++ r.b ++ r.a ++ r.d ++ BitVec.ofBool r.gn ++ r.gp ++ r.opc ++ r.len

/-- The fields of a word (Table 6-8). -/
def Raw.unpack (w : BitVec 128) : Raw where
  len := w.extractLsb' 0 2
  opc := w.extractLsb' 2 10
  gp := w.extractLsb' 12 7
  gn := w.getLsbD 19
  d := w.extractLsb' 20 8
  a := w.extractLsb' 28 8
  b := w.extractLsb' 36 8
  c := w.extractLsb' 44 8
  x := w.extractLsb' 52 4
  m := w.extractLsb' 56 8
  w2 := w.extractLsb' 64 32
  w3 := w.extractLsb' 96 32

/-- A little-endian byte string as a number (R5). -/
def leNat : List Byte → Nat
  | [] => 0
  | b :: bs => b.toNat + 256 * leNat bs

/-- The `n` low bytes of a number, lowest first (R5). -/
def natBytes : Nat → Nat → List Byte
  | 0, _ => []
  | n + 1, w => BitVec.ofNat 8 w :: natBytes n (w / 256)

/-- Type codes (Table 6-2). -/
def Ty.code : Ty → BitVec 5
  | .s8 => 0x00#5 | .s16 => 0x01#5 | .s32 => 0x02#5 | .s64 => 0x03#5
  | .z8 => 0x04#5 | .z16 => 0x05#5 | .z32 => 0x06#5 | .z64 => 0x07#5
  | .b8 => 0x08#5 | .b16 => 0x09#5 | .b32 => 0x0A#5 | .b64 => 0x0B#5 | .b128 => 0x0C#5
  | .f16 => 0x10#5 | .bf16 => 0x11#5 | .f32 => 0x12#5 | .e4m3 => 0x13#5 | .e5m2 => 0x14#5
  | .ds8 => 0x18#5 | .e8m0 => 0x19#5

/-- The type of a code; none for a reserved code (Table 6-2). -/
def Ty.ofCode (c : BitVec 5) : Option Ty :=
  match c.toNat with
  | 0x00 => some .s8 | 0x01 => some .s16 | 0x02 => some .s32 | 0x03 => some .s64
  | 0x04 => some .z8 | 0x05 => some .z16 | 0x06 => some .z32 | 0x07 => some .z64
  | 0x08 => some .b8 | 0x09 => some .b16 | 0x0A => some .b32 | 0x0B => some .b64 | 0x0C => some .b128
  | 0x10 => some .f16 | 0x11 => some .bf16 | 0x12 => some .f32 | 0x13 => some .e4m3 | 0x14 => some .e5m2
  | 0x18 => some .ds8 | 0x19 => some .e8m0
  | _ => none

/-- Rounding modes in RM (Table 5-3, R118). -/
def RMode.code : RMode → BitVec 3
  | .rne => 0#3 | .rtz => 1#3 | .rpi => 2#3 | .rni => 3#3

def RMode.ofCode (c : BitVec 3) : Option RMode :=
  match c.toNat with
  | 0 => some .rne | 1 => some .rtz | 2 => some .rpi | 3 => some .rni | _ => none

/-- Condition codes of `icmp` (R167). -/
def ICc.code : ICc → BitVec 3
  | .eq => 0#3 | .ne => 1#3 | .lt => 2#3 | .le => 3#3 | .gt => 4#3 | .ge => 5#3

def ICc.ofCode (c : BitVec 3) : Option ICc :=
  match c.toNat with
  | 0 => some .eq | 1 => some .ne | 2 => some .lt | 3 => some .le | 4 => some .gt | 5 => some .ge | _ => none

/-- Condition codes of `fcmp` (R188). -/
def FCc.code : FCc → BitVec 3
  | .eq => 0#3 | .ne => 1#3 | .lt => 2#3 | .le => 3#3 | .gt => 4#3 | .ge => 5#3 | .num => 6#3 | .nan => 7#3

def FCc.ofCode (c : BitVec 3) : Option FCc :=
  match c.toNat with
  | 0 => some .eq | 1 => some .ne | 2 => some .lt | 3 => some .le | 4 => some .gt | 5 => some .ge
  | 6 => some .num | 7 => some .nan | _ => none

/-- Modes of `qswap` (Table 7-8). -/
def QMode.code : QMode → BitVec 2
  | .h => 1#2 | .v => 2#2 | .d => 3#2

def QMode.ofCode (c : BitVec 2) : Option QMode :=
  match c.toNat with
  | 1 => some .h | 2 => some .v | 3 => some .d | _ => none

/-- Modes of `gshfl` (Table 7-8). -/
def ShflMode.code : ShflMode → BitVec 2
  | .idx => 0#2 | .up => 1#2 | .down => 2#2 | .xor => 3#2

def ShflMode.ofCode (c : BitVec 2) : Option ShflMode :=
  match c.toNat with
  | 0 => some .idx | 1 => some .up | 2 => some .down | 3 => some .xor | _ => none

/-- Modes of `gvote` (Table 7-9). -/
def VoteMode.code : VoteMode → BitVec 2
  | .any => 0#2 | .all => 1#2 | .ballot => 2#2

def VoteMode.ofCode (c : BitVec 2) : Option VoteMode :=
  match c.toNat with
  | 0 => some .any | 1 => some .all | 2 => some .ballot | _ => none

/-- Operations of `gredux` and `gscan` (Table 7-10). -/
def RedOp.code : RedOp → BitVec 3
  | .add => 0#3 | .min => 1#3 | .max => 2#3 | .and => 3#3 | .or => 4#3 | .xor => 5#3

def RedOp.ofCode (c : BitVec 3) : Option RedOp :=
  match c.toNat with
  | 0 => some .add | 1 => some .min | 2 => some .max | 3 => some .and | 4 => some .or | 5 => some .xor | _ => none

/-- Modes of `fsign` (R190). -/
def SignMode.code : SignMode → BitVec 2
  | .copy => 0#2 | .neg => 1#2 | .xor => 2#2

def SignMode.ofCode (c : BitVec 2) : Option SignMode :=
  match c.toNat with
  | 0 => some .copy | 1 => some .neg | 2 => some .xor | _ => none

/-- Operations of `red` (R215). -/
def MemOp.code : MemOp → BitVec 3
  | .add => 0#3 | .min => 1#3 | .max => 2#3 | .and => 3#3 | .or => 4#3 | .xor => 5#3 | .fadd => 6#3 | .inc => 7#3

def MemOp.ofCode (c : BitVec 3) : Option MemOp :=
  match c.toNat with
  | 0 => some .add | 1 => some .min | 2 => some .max | 3 => some .and | 4 => some .or | 5 => some .xor
  | 6 => some .fadd | 7 => some .inc | _ => none

/-- Scopes of `fence` (R216). -/
def Scope.code : Scope → BitVec 3
  | .core => 0#3 | .cluster => 1#3 | .die => 2#3 | .pkg => 3#3 | .domain => 4#3

def Scope.ofCode (c : BitVec 3) : Option Scope :=
  match c.toNat with
  | 0 => some .core | 1 => some .cluster | 2 => some .die | 3 => some .pkg | 4 => some .domain | _ => none

/-- Levels of `pref` (Table 9-3). -/
def PrefLvl.code : PrefLvl → BitVec 2
  | .l1 => 0#2 | .l2 => 1#2 | .tlb => 2#2

def PrefLvl.ofCode (c : BitVec 2) : Option PrefLvl :=
  match c.toNat with
  | 0 => some .l1 | 1 => some .l2 | 2 => some .tlb | _ => none

/-- Spaces of `spc` (R211). -/
def SpcSp.code : SpcSp → BitVec 3
  | .g => 0#3 | .p => 1#3 | .s => 2#3 | .c => 3#3

def SpcSp.ofCode (c : BitVec 3) : Option SpcSp :=
  match c.toNat with
  | 0 => some .g | 1 => some .p | 2 => some .s | 3 => some .c | _ => none

/-- Forms of `bar.die` and `bar.pkg` (Table 11-1). -/
def BarMode.code : BarMode → BitVec 2
  | .sync => 0#2 | .arrive => 1#2 | .wait => 2#2

def BarMode.ofCode (c : BitVec 2) : Option BarMode :=
  match c.toNat with
  | 0 => some .sync | 1 => some .arrive | 2 => some .wait | _ => none

/-- Operations of `ev.mask` (Table 11-1). -/
def MaskOp.code : MaskOp → BitVec 2
  | .wr => 0#2 | .set => 1#2 | .clr => 2#2

def MaskOp.ofCode (c : BitVec 2) : Option MaskOp :=
  match c.toNat with
  | 0 => some .wr | 1 => some .set | 2 => some .clr | _ => none

/-- Classes of leave (R273). -/
def LeaveCls.code : LeaveCls → BitVec 2
  | .mx => 0#2 | .mc => 1#2 | .gs => 2#2 | .vw => 3#2

def LeaveCls.ofCode (c : BitVec 2) : Option LeaveCls :=
  match c.toNat with
  | 0 => some .mx | 1 => some .mc | 2 => some .gs | _ => some .vw

/-- Operand B's three fields: B, C and IB (R158). -/
def SrcB.bField : SrcB → BitVec 8
  | .reg r => r
  | .imm _ => 0#8

def SrcB.cField : SrcB → BitVec 8
  | .reg _ => 0#8
  | .imm i => i

def SrcB.ib : SrcB → Bool
  | .reg _ => false
  | .imm _ => true

/-- Bits [79:64] of an F128 instruction of group 11 (Table 6-8). -/
def DSlots.field (x : DSlots) : BitVec 16 :=
  0#4 ++ BitVec.ofBool x.sset ++ x.sslot ++ x.wmask

/-- IMM48[47:16] of an `mma` (Table 10-2). -/
def MmaArgs.hiField (x : MmaArgs) : BitVec 32 :=
  0#16 ++ BitVec.ofBool x.ub ++ BitVec.ofBool x.u ++ BitVec.ofBool x.zc ++ BitVec.ofBool x.ftz ++
    BitVec.ofBool x.sc ++ BitVec.ofBool x.ru ++ BitVec.ofBool x.tb ++ x.bsel ++ x.bdisp.extractLsb' 16 7

/-- An F64 instruction, in its 64-bit or its widened form (R145). -/
def raw64 (h : Hdr) (opc : BitVec 10) (d a b c : BitVec 8) (x : BitVec 4) (m : BitVec 8) : Raw :=
  ⟨if h.wide then 1#2 else 0#2, opc, h.gp, h.gn, d, a, b, c, x, m, 0#32, 0#32⟩

/-- An F96 instruction (Table 6-8). -/
def raw96 (h : Hdr) (opc : BitVec 10) (d a b c : BitVec 8) (x : BitVec 4) (m : BitVec 8) (w2 : BitVec 32) : Raw :=
  ⟨1#2, opc, h.gp, h.gn, d, a, b, c, x, m, w2, 0#32⟩

/-- An F128 instruction (Table 6-8). -/
def raw128 (h : Hdr) (opc : BitVec 10) (d a b c : BitVec 8) (x : BitVec 4) (m : BitVec 8) (w2 w3 : BitVec 32) : Raw :=
  ⟨2#2, opc, h.gp, h.gn, d, a, b, c, x, m, w2, w3⟩

/-- The fields of each instruction, from the encoding tables of chapters 06 to 11; none for a device event. -/
def toRaw : Instr → Option Raw
  | .iadd h ty sat d a b => some (raw64 h 0x000#10 d a b.bField b.cField (BitVec.ofBool b.ib ++ 0#1 ++ BitVec.ofBool sat ++ 0#1) (0#3 ++ ty.code))
  | .isub h ty sat d a b => some (raw64 h 0x001#10 d a b.bField b.cField (BitVec.ofBool b.ib ++ 0#1 ++ BitVec.ofBool sat ++ 0#1) (0#3 ++ ty.code))
  | .imul h ty sat d a b => some (raw64 h 0x002#10 d a b.bField b.cField (BitVec.ofBool b.ib ++ 0#1 ++ BitVec.ofBool sat ++ 0#1) (0#3 ++ ty.code))
  | .imulhi h ty d a b => some (raw64 h 0x003#10 d a b.bField b.cField (BitVec.ofBool b.ib ++ 0#3) (0#3 ++ ty.code))
  | .imad h ty sat d a b c => some (raw64 h 0x004#10 d a b c (0#2 ++ BitVec.ofBool sat ++ 0#1) (0#3 ++ ty.code))
  | .iadd64 h ty sat d a b => some (raw64 h 0x005#10 d a b 0#8 (0#2 ++ BitVec.ofBool sat ++ 0#1) (0#3 ++ ty.code))
  | .isub64 h ty sat d a b => some (raw64 h 0x006#10 d a b 0#8 (0#2 ++ BitVec.ofBool sat ++ 0#1) (0#3 ++ ty.code))
  | .imad64 h ty sat d a b c => some (raw64 h 0x007#10 d a b c (0#2 ++ BitVec.ofBool sat ++ 0#1) (0#3 ++ ty.code))
  | .iaddc h first d a b c => some (raw64 h 0x008#10 d a b c (0#3 ++ BitVec.ofBool first) (0#3 ++ 0x06#5))
  | .ineg h sat d a => some (raw64 h 0x009#10 d a 0#8 0#8 (0#2 ++ BitVec.ofBool sat ++ 0#1) (0#3 ++ 0x02#5))
  | .iabs h sat d a => some (raw64 h 0x00A#10 d a 0#8 0#8 (0#2 ++ BitVec.ofBool sat ++ 0#1) (0#3 ++ 0x02#5))
  | .imin h ty d a b => some (raw64 h 0x00B#10 d a b.bField b.cField (BitVec.ofBool b.ib ++ 0#3) (0#3 ++ ty.code))
  | .imax h ty d a b => some (raw64 h 0x00C#10 d a b.bField b.cField (BitVec.ofBool b.ib ++ 0#3) (0#3 ++ ty.code))
  | .and h d a b => some (raw64 h 0x010#10 d a b.bField b.cField (BitVec.ofBool b.ib ++ 0#3) (0#3 ++ 0x0A#5))
  | .or h d a b => some (raw64 h 0x011#10 d a b.bField b.cField (BitVec.ofBool b.ib ++ 0#3) (0#3 ++ 0x0A#5))
  | .xor h d a b => some (raw64 h 0x012#10 d a b.bField b.cField (BitVec.ofBool b.ib ++ 0#3) (0#3 ++ 0x0A#5))
  | .andn h d a b => some (raw64 h 0x013#10 d a b.bField b.cField (BitVec.ofBool b.ib ++ 0#3) (0#3 ++ 0x0A#5))
  | .not h d a => some (raw64 h 0x014#10 d a 0#8 0#8 0#4 (0#3 ++ 0x0A#5))
  | .lop3 h lut d a b c => some (raw64 h 0x015#10 d a b c 0#4 lut)
  | .shl h d a b => some (raw64 h 0x018#10 d a b.bField b.cField (BitVec.ofBool b.ib ++ 0#3) (0#3 ++ 0x0A#5))
  | .shr h d a b => some (raw64 h 0x019#10 d a b.bField b.cField (BitVec.ofBool b.ib ++ 0#3) (0#3 ++ 0x0A#5))
  | .sra h d a b => some (raw64 h 0x01A#10 d a b.bField b.cField (BitVec.ofBool b.ib ++ 0#3) (0#3 ++ 0x0A#5))
  | .shl64 h d a b => some (raw64 h 0x01B#10 d a b.bField b.cField (BitVec.ofBool b.ib ++ 0#3) (0#3 ++ 0x0B#5))
  | .shr64 h ty d a b => some (raw64 h 0x01C#10 d a b.bField b.cField (BitVec.ofBool b.ib ++ 0#3) (0#3 ++ ty.code))
  | .rotl h d a b => some (raw64 h 0x01D#10 d a b.bField b.cField (BitVec.ofBool b.ib ++ 0#3) (0#3 ++ 0x0A#5))
  | .clz h d a => some (raw64 h 0x020#10 d a 0#8 0#8 0#4 (0#3 ++ 0x0A#5))
  | .popc h d a => some (raw64 h 0x021#10 d a 0#8 0#8 0#4 (0#3 ++ 0x0A#5))
  | .brev h d a => some (raw64 h 0x022#10 d a 0#8 0#8 0#4 (0#3 ++ 0x0A#5))
  | .bfx h ty bi d a b c => some (raw64 h 0x023#10 d a b c (0#3 ++ BitVec.ofBool bi) (0#3 ++ ty.code))
  | .bfi h d a b c => some (raw64 h 0x024#10 d a b c 0#4 (0#3 ++ 0x0A#5))
  | .sel h d a b c => some (raw64 h 0x028#10 d a b c 0#4 (0#3 ++ 0x0A#5))
  | .mov h d a => some (raw64 h 0x029#10 d a.bField 0#8 a.cField (BitVec.ofBool a.ib ++ 0#3) (0#3 ++ 0x0A#5))
  | .lea h ty d a b s => some (raw64 h 0x02A#10 d a b s 0#4 (0#3 ++ ty.code))
  | .iaddImm h ty sat d a imm => some (raw96 h 0x040#10 d a 0#8 0#8 (0#2 ++ BitVec.ofBool sat ++ 0#1) (0#3 ++ ty.code) imm)
  | .isubImm h ty sat d a imm => some (raw96 h 0x041#10 d a 0#8 0#8 (0#2 ++ BitVec.ofBool sat ++ 0#1) (0#3 ++ ty.code) imm)
  | .imulImm h ty sat d a imm => some (raw96 h 0x042#10 d a 0#8 0#8 (0#2 ++ BitVec.ofBool sat ++ 0#1) (0#3 ++ ty.code) imm)
  | .imadImm h ty sat d a imm c => some (raw96 h 0x044#10 d a 0#8 c (0#2 ++ BitVec.ofBool sat ++ 0#1) (0#3 ++ ty.code) imm)
  | .iminImm h ty d a imm => some (raw96 h 0x04B#10 d a 0#8 0#8 0#4 (0#3 ++ ty.code) imm)
  | .imaxImm h ty d a imm => some (raw96 h 0x04C#10 d a 0#8 0#8 0#4 (0#3 ++ ty.code) imm)
  | .andImm h d a imm => some (raw96 h 0x050#10 d a 0#8 0#8 0#4 (0#3 ++ 0x0A#5) imm)
  | .orImm h d a imm => some (raw96 h 0x051#10 d a 0#8 0#8 0#4 (0#3 ++ 0x0A#5) imm)
  | .xorImm h d a imm => some (raw96 h 0x052#10 d a 0#8 0#8 0#4 (0#3 ++ 0x0A#5) imm)
  | .andnImm h d a imm => some (raw96 h 0x053#10 d a 0#8 0#8 0#4 (0#3 ++ 0x0A#5) imm)
  | .movk h d imm => some (raw96 h 0x070#10 d 0#8 0#8 0#8 0#4 (0#3 ++ 0x0A#5) imm)
  | .movk64 h d imm => some (raw128 h 0x071#10 d 0#8 (imm.extractLsb' 48 8) (imm.extractLsb' 56 8) 0#4 (0#3 ++ 0x0B#5) (imm.extractLsb' 0 16 ++ 0#16) (imm.extractLsb' 16 32))
  | .icmp h cc ty d a b => some (raw64 h 0x080#10 d a b.bField b.cField (BitVec.ofBool b.ib ++ cc.code) (0#3 ++ ty.code))
  | .pset h d a n => some (raw64 h 0x081#10 d a 0#8 n 0#4 0#8)
  | .pget h d a n => some (raw64 h 0x082#10 d a 0#8 n 0#4 0#8)
  | .pand h na nb d a b => some (raw64 h 0x083#10 d a b 0#8 (0#2 ++ BitVec.ofBool nb ++ BitVec.ofBool na) 0#8)
  | .por h na nb d a b => some (raw64 h 0x084#10 d a b 0#8 (0#2 ++ BitVec.ofBool nb ++ BitVec.ofBool na) 0#8)
  | .pxor h na nb d a b => some (raw64 h 0x085#10 d a b 0#8 (0#2 ++ BitVec.ofBool nb ++ BitVec.ofBool na) 0#8)
  | .pnot h na d a => some (raw64 h 0x086#10 d a 0#8 0#8 (0#3 ++ BitVec.ofBool na) 0#8)
  | .pmov h na d a => some (raw64 h 0x087#10 d a 0#8 0#8 (0#3 ++ BitVec.ofBool na) 0#8)
  | .bra h off => some (raw96 h 0x0C0#10 0#8 0#8 0#8 0#8 0#4 0#8 off)
  | .brx h a => some (raw64 h 0x0C1#10 0#8 a 0#8 0#8 0#4 0#8)
  | .call h off => some (raw96 h 0x0C2#10 0#8 0#8 0#8 0#8 0#4 0#8 off)
  | .callx h a => some (raw64 h 0x0C3#10 0#8 a 0#8 0#8 0#4 0#8)
  | .ret h => some (raw64 h 0x0C4#10 0#8 0#8 0#8 0#8 0#4 0#8)
  | .exit h => some (raw64 h 0x0C5#10 0#8 0#8 0#8 0#8 0#4 0#8)
  | .rejoinArm h all a k => some (raw64 h 0x0C6#10 0#8 a 0#8 k (0#3 ++ BitVec.ofBool all) 0#8)
  | .rejoin h k => some (raw64 h 0x0C7#10 0#8 0#8 0#8 k 0#4 0#8)
  | .yield h => some (raw64 h 0x0C8#10 0#8 0#8 0#8 0#8 0#4 0#8)
  | .nop h => some (raw64 h 0x0C9#10 0#8 0#8 0#8 0#8 0#4 0#8)
  | .nopWidened h => some (raw64 h 0x0C9#10 0#8 0#8 0#8 0#8 0#4 0#8)
  | .qswap h mode d a => some (raw64 h 0x100#10 d a 0#8 0#8 (0#2 ++ mode.code) (0#3 ++ 0x0A#5))
  | .qbcast h d a k => some (raw64 h 0x101#10 d a 0#8 k 0#4 (0#3 ++ 0x0A#5))
  | .gshfl h mode d a b => some (raw64 h 0x102#10 d a b.bField b.cField (BitVec.ofBool b.ib ++ 0#1 ++ mode.code) (0#3 ++ 0x0A#5))
  | .gvote h mode d a => some (raw64 h 0x103#10 d a 0#8 0#8 (0#2 ++ mode.code) 0#8)
  | .gsync h all a => some (raw64 h 0x104#10 0#8 a 0#8 0#8 (0#3 ++ BitVec.ofBool all) 0#8)
  | .gmatch h ty d a => some (raw64 h 0x105#10 d a 0#8 0#8 0#4 (0#3 ++ ty.code))
  | .gredux h op ty d a => some (raw64 h 0x106#10 d a 0#8 0#8 (0#1 ++ op.code) (0#3 ++ ty.code))
  | .gscan h op excl ty d a => some (raw64 h 0x107#10 d a 0#8 0#8 (BitVec.ofBool excl ++ op.code) (0#3 ++ ty.code))
  | .gelect h d => some (raw64 h 0x108#10 d 0#8 0#8 0#8 0#4 0#8)
  | .fadd h rm ftz d a b => some (raw64 h 0x140#10 d a b 0#8 (0#3 ++ BitVec.ofBool ftz) (rm.code ++ 0x12#5))
  | .fsub h rm ftz d a b => some (raw64 h 0x141#10 d a b 0#8 (0#3 ++ BitVec.ofBool ftz) (rm.code ++ 0x12#5))
  | .fmul h rm ftz d a b => some (raw64 h 0x142#10 d a b 0#8 (0#3 ++ BitVec.ofBool ftz) (rm.code ++ 0x12#5))
  | .ffma h rm ftz d a b c => some (raw64 h 0x143#10 d a b c (0#3 ++ BitVec.ofBool ftz) (rm.code ++ 0x12#5))
  | .fmin h ftz d a b => some (raw64 h 0x144#10 d a b 0#8 (0#3 ++ BitVec.ofBool ftz) (0#3 ++ 0x12#5))
  | .fmax h ftz d a b => some (raw64 h 0x145#10 d a b 0#8 (0#3 ++ BitVec.ofBool ftz) (0#3 ++ 0x12#5))
  | .frnd h rm ftz d a => some (raw64 h 0x146#10 d a 0#8 0#8 (0#3 ++ BitVec.ofBool ftz) (rm.code ++ 0x12#5))
  | .fcmp h cc ftz d a b => some (raw64 h 0x147#10 d a b 0#8 (cc.code ++ BitVec.ofBool ftz) (0#3 ++ 0x12#5))
  | .fclass h ty d a => some (raw64 h 0x148#10 d a 0#8 0#8 0#4 (0#3 ++ ty.code))
  | .fsign h mode d a b => some (raw64 h 0x149#10 d a b 0#8 (0#2 ++ mode.code) (0#3 ++ 0x12#5))
  | .fscale h rm ftz d a b => some (raw64 h 0x14A#10 d a b 0#8 (0#3 ++ BitVec.ofBool ftz) (rm.code ++ 0x12#5))
  | .hadd2 h rm ftz d a b => some (raw64 h 0x150#10 d a b 0#8 (0#3 ++ BitVec.ofBool ftz) (rm.code ++ 0x10#5))
  | .hmul2 h rm ftz d a b => some (raw64 h 0x151#10 d a b 0#8 (0#3 ++ BitVec.ofBool ftz) (rm.code ++ 0x10#5))
  | .hfma2 h rm ftz d a b c => some (raw64 h 0x152#10 d a b c (0#3 ++ BitVec.ofBool ftz) (rm.code ++ 0x10#5))
  | .badd2 h rm ftz d a b => some (raw64 h 0x153#10 d a b 0#8 (0#3 ++ BitVec.ofBool ftz) (rm.code ++ 0x11#5))
  | .bmul2 h rm ftz d a b => some (raw64 h 0x154#10 d a b 0#8 (0#3 ++ BitVec.ofBool ftz) (rm.code ++ 0x11#5))
  | .bfma2 h rm ftz d a b c => some (raw64 h 0x155#10 d a b c (0#3 ++ BitVec.ofBool ftz) (rm.code ++ 0x11#5))
  | .fdot2 h rm ftz d a b c => some (raw64 h 0x156#10 d a b c (0#3 ++ BitVec.ofBool ftz) (rm.code ++ 0x10#5))
  | .bdot2 h rm ftz d a b c => some (raw64 h 0x157#10 d a b c (0#3 ++ BitVec.ofBool ftz) (rm.code ++ 0x11#5))
  | .qdot4 h ty rm ftz sat d a b c => some (raw64 h 0x158#10 d a b c (0#2 ++ BitVec.ofBool sat ++ BitVec.ofBool ftz) (rm.code ++ ty.code))
  | .fcvt h dt sty rm ftz sat inf d a => some (raw64 h 0x180#10 d a 0#8 (0#3 ++ sty.code) (0#1 ++ BitVec.ofBool inf ++ BitVec.ofBool sat ++ BitVec.ofBool ftz) (rm.code ++ dt.code))
  | .fcvtSr h dt sty ftz sat inf d a b => some (raw64 h 0x180#10 d a b (0#3 ++ sty.code) (0#1 ++ BitVec.ofBool inf ++ BitVec.ofBool sat ++ BitVec.ofBool ftz) (4#3 ++ dt.code))
  | .fcvti h it sty rm ftz d a => some (raw64 h 0x181#10 d a 0#8 (0#3 ++ sty.code) (0#3 ++ BitVec.ofBool ftz) (rm.code ++ it.code))
  | .icvtf h dt it rm ftz d a => some (raw64 h 0x182#10 d a 0#8 (0#3 ++ it.code) (0#3 ++ BitVec.ofBool ftz) (rm.code ++ dt.code))
  | .fpack h dt rm ftz sat inf d a b => some (raw64 h 0x183#10 d a b 0#8 (0#1 ++ BitVec.ofBool inf ++ BitVec.ofBool sat ++ BitVec.ofBool ftz) (rm.code ++ dt.code))
  | .funpack h sty ftz d a k => some (raw64 h 0x184#10 d a 0#8 k (0#3 ++ BitVec.ofBool ftz) (0#3 ++ sty.code))
  | .fbmax h dt ftz d a b => some (raw64 h 0x185#10 d a b 0#8 (0#3 ++ BitVec.ofBool ftz) (0#3 ++ dt.code))
  | .ds8enc h ftz d a b => some (raw64 h 0x186#10 d a b 0#8 (0#3 ++ BitVec.ofBool ftz) (0#3 ++ 0x18#5))
  | .ds8dec h rm ftz d a b k => some (raw64 h 0x187#10 d a b k (0#3 ++ BitVec.ofBool ftz) (rm.code ++ 0x18#5))
  | .frcp h ftz la d a => some (raw64 h 0x1C0#10 d a 0#8 (0#7 ++ BitVec.ofBool ftz) la (0#3 ++ 0x12#5))
  | .frsq h ftz la d a => some (raw64 h 0x1C1#10 d a 0#8 (0#7 ++ BitVec.ofBool ftz) la (0#3 ++ 0x12#5))
  | .fsqrt h ftz la d a => some (raw64 h 0x1C2#10 d a 0#8 (0#7 ++ BitVec.ofBool ftz) la (0#3 ++ 0x12#5))
  | .fexp2 h ftz la d a => some (raw64 h 0x1C3#10 d a 0#8 (0#7 ++ BitVec.ofBool ftz) la (0#3 ++ 0x12#5))
  | .flog2 h ftz la d a => some (raw64 h 0x1C4#10 d a 0#8 (0#7 ++ BitVec.ofBool ftz) la (0#3 ++ 0x12#5))
  | .fsin h ftz la d a => some (raw64 h 0x1C5#10 d a 0#8 (0#7 ++ BitVec.ofBool ftz) la (0#3 ++ 0x12#5))
  | .fcos h ftz la d a => some (raw64 h 0x1C6#10 d a 0#8 (0#7 ++ BitVec.ofBool ftz) la (0#3 ++ 0x12#5))
  | .ftanh h ftz la d a => some (raw64 h 0x1C7#10 d a 0#8 (0#7 ++ BitVec.ofBool ftz) la (0#3 ++ 0x12#5))
  | .fsigm h ftz la d a => some (raw64 h 0x1C8#10 d a 0#8 (0#7 ++ BitVec.ofBool ftz) la (0#3 ++ 0x12#5))
  | .ld h x => some (raw64 h 0x200#10 x.d x.a (x.disp.extractLsb' 0 8) (0#2 ++ BitVec.ofBool x.last ++ BitVec.ofBool x.inv ++ x.disp.extractLsb' 8 4) x.la (0#3 ++ x.ty.code))
  | .ldG h x => some (raw64 h 0x201#10 x.d x.a (x.disp.extractLsb' 0 8) (0#2 ++ BitVec.ofBool x.last ++ BitVec.ofBool x.inv ++ x.disp.extractLsb' 8 4) x.la (0#3 ++ x.ty.code))
  | .ldS h x => some (raw64 h 0x202#10 x.d x.a (x.disp.extractLsb' 0 8) (0#2 ++ BitVec.ofBool x.last ++ BitVec.ofBool x.inv ++ x.disp.extractLsb' 8 4) x.la (0#3 ++ x.ty.code))
  | .ldC h x => some (raw64 h 0x203#10 x.d x.a (x.disp.extractLsb' 0 8) (0#2 ++ BitVec.ofBool x.last ++ BitVec.ofBool x.inv ++ x.disp.extractLsb' 8 4) x.la (0#3 ++ x.ty.code))
  | .ldP h x => some (raw64 h 0x204#10 x.d x.a (x.disp.extractLsb' 0 8) (0#2 ++ BitVec.ofBool x.last ++ BitVec.ofBool x.inv ++ x.disp.extractLsb' 8 4) x.la (0#3 ++ x.ty.code))
  | .st h x gsl => some (raw64 h 0x208#10 x.d x.a (x.disp.extractLsb' 0 8) (0#4 ++ x.disp.extractLsb' 8 4) gsl (0#3 ++ x.ty.code))
  | .stG h x => some (raw64 h 0x209#10 x.d x.a (x.disp.extractLsb' 0 8) (0#4 ++ x.disp.extractLsb' 8 4) 0#4 (0#3 ++ x.ty.code))
  | .stS h x => some (raw64 h 0x20A#10 x.d x.a (x.disp.extractLsb' 0 8) (0#4 ++ x.disp.extractLsb' 8 4) 0#4 (0#3 ++ x.ty.code))
  | .stC h x => some (raw64 h 0x20B#10 x.d x.a (x.disp.extractLsb' 0 8) (0#4 ++ x.disp.extractLsb' 8 4) 0#4 (0#3 ++ x.ty.code))
  | .stP h x => some (raw64 h 0x20C#10 x.d x.a (x.disp.extractLsb' 0 8) (0#4 ++ x.disp.extractLsb' 8 4) 0#4 (0#3 ++ x.ty.code))
  | .pref h lvl a disp => some (raw64 h 0x210#10 0#8 a (disp.extractLsb' 0 8) (0#4 ++ disp.extractLsb' 8 4) (0#2 ++ lvl.code) 0#8)
  | .spt h d a => some (raw64 h 0x211#10 d a 0#8 0#8 0#4 0#8)
  | .spc h sp off d c a => some (raw64 h 0x212#10 d a 0#8 c (BitVec.ofBool off ++ sp.code) 0#8)
  | .xlatePf h a disp => some (raw64 h 0x213#10 0#8 a (disp.extractLsb' 0 8) (0#4 ++ disp.extractLsb' 8 4) 0#4 0#8)
  | .atomAdd h ty la d a b => some (raw64 h 0x240#10 d a b 0#8 la (0#3 ++ ty.code))
  | .atomMin h ty la d a b => some (raw64 h 0x241#10 d a b 0#8 la (0#3 ++ ty.code))
  | .atomMax h ty la d a b => some (raw64 h 0x242#10 d a b 0#8 la (0#3 ++ ty.code))
  | .atomAnd h ty la d a b => some (raw64 h 0x243#10 d a b 0#8 la (0#3 ++ ty.code))
  | .atomOr h ty la d a b => some (raw64 h 0x244#10 d a b 0#8 la (0#3 ++ ty.code))
  | .atomXor h ty la d a b => some (raw64 h 0x245#10 d a b 0#8 la (0#3 ++ ty.code))
  | .atomExch h ty la d a b => some (raw64 h 0x246#10 d a b 0#8 la (0#3 ++ ty.code))
  | .atomCas h ty la d a b c => some (raw64 h 0x247#10 d a b c la (0#3 ++ ty.code))
  | .atomFadd h ty la d a b => some (raw64 h 0x248#10 d a b 0#8 la (0#3 ++ ty.code))
  | .atomInc h ty la d a b => some (raw64 h 0x249#10 d a b 0#8 la (0#3 ++ ty.code))
  | .red h op ty a b => some (raw64 h 0x250#10 0#8 a b 0#8 (0#1 ++ op.code) (0#3 ++ ty.code))
  | .fence h scope => some (raw64 h 0x258#10 0#8 0#8 0#8 0#8 (0#1 ++ scope.code) 0#8)
  | .hgLoad h la d a b l0 n => some (raw64 h 0x280#10 d a b (n ++ l0) la (0#3 ++ 0x12#5))
  | .hgGrad h d a b l0 n => some (raw64 h 0x281#10 d a b (n ++ l0) 0#4 (0#3 ++ 0x12#5))
  | .hgCorner h d a b c l => some (raw64 h 0x282#10 d a b c l (0#3 ++ 0x12#5))
  | .chanSend h k a b c => some (raw64 h 0x288#10 0#8 a b c k 0#8)
  | .chanRecv h k d => some (raw64 h 0x289#10 d 0#8 0#8 0#8 k 0#8)
  | .chanProbe h k d => some (raw64 h 0x28A#10 d 0#8 0#8 0#8 k 0#8)
  | .fifoPush h d a b c => some (raw64 h 0x28B#10 d a b c 0#4 (0#3 ++ 0x0A#5))
  | .fifoPop h d a c => some (raw64 h 0x28C#10 d a 0#8 c 0#4 (0#3 ++ 0x0A#5))
  | .bankMode h la mode d a c => some (raw64 h 0x290#10 d a mode c la 0#8)
  | .sctxGet h d => some (raw64 h 0x291#10 d 0#8 0#8 0#8 0#4 0#8)
  | .mmaF16 h x => some (raw128 h 0x2C0#10 x.d x.a x.b x.c 0#4 0#8 (x.bdisp.extractLsb' 0 16 ++ x.ds.field) x.hiField)
  | .mmaBf16 h x => some (raw128 h 0x2C1#10 x.d x.a x.b x.c 0#4 0#8 (x.bdisp.extractLsb' 0 16 ++ x.ds.field) x.hiField)
  | .mmaE4m3 h x => some (raw128 h 0x2C2#10 x.d x.a x.b x.c 0#4 0#8 (x.bdisp.extractLsb' 0 16 ++ x.ds.field) x.hiField)
  | .mmaE5m2 h x => some (raw128 h 0x2C3#10 x.d x.a x.b x.c 0#4 0#8 (x.bdisp.extractLsb' 0 16 ++ x.ds.field) x.hiField)
  | .mmaS8 h x => some (raw128 h 0x2C4#10 x.d x.a x.b x.c 0#4 0#8 (x.bdisp.extractLsb' 0 16 ++ x.ds.field) x.hiField)
  | .mmaDs8 h x => some (raw128 h 0x2C5#10 x.d x.a x.b x.c 0#4 0#8 (x.bdisp.extractLsb' 0 16 ++ x.ds.field) x.hiField)
  | .accZero h ds d n => some (raw128 h 0x2D0#10 d 0#8 0#8 n 0#4 0#8 (0#16 ++ ds.field) 0#32)
  | .accLd h ds ty d a => some (raw128 h 0x2D1#10 d a 0#8 0#8 0#4 (0#3 ++ ty.code) (0#16 ++ ds.field) 0#32)
  | .accDrain h ds la ty tpb d a b => some (raw128 h 0x2D2#10 d a b 0#8 la (0#3 ++ ty.code) (0#15 ++ BitVec.ofBool tpb ++ ds.field) 0#32)
  | .accSpill h ds a b => some (raw128 h 0x2D3#10 0#8 a b 0#8 0#4 0#8 (0#16 ++ ds.field) 0#32)
  | .accFill h ds d a => some (raw128 h 0x2D4#10 d a 0#8 0#8 0#4 0#8 (0#16 ++ ds.field) 0#32)
  | .accMov h ds d a => some (raw128 h 0x2D5#10 d a 0#8 0#8 0#4 0#8 (0#16 ++ ds.field) 0#32)
  | .accAdd h ds d a b => some (raw128 h 0x2D6#10 d a b 0#8 0#4 0#8 (0#16 ++ ds.field) 0#32)
  | .accScale h ds d a b => some (raw128 h 0x2D7#10 d a b 0#8 0#4 0#8 (0#16 ++ ds.field) 0#32)
  | .gangForm h a => some (raw64 h 0x2E0#10 0#8 a 0#8 0#8 0#4 0#8)
  | .gangBrk h => some (raw64 h 0x2E1#10 0#8 0#8 0#8 0#8 0#4 0#8)
  | .dslotWait h wmask => some (raw128 h 0x2E2#10 0#8 0#8 0#8 0#8 0#4 0#8 (0#24 ++ wmask) 0#32)
  | .barArrive h d b => some (raw64 h 0x300#10 d 0#8 b 0#8 0#4 0#8)
  | .barWait h a b => some (raw64 h 0x301#10 0#8 a b 0#8 0#4 0#8)
  | .barSync h b => some (raw64 h 0x302#10 0#8 0#8 b 0#8 0#4 0#8)
  | .barDie h mode d a b => some (raw64 h 0x303#10 d a b 0#8 (0#2 ++ mode.code) 0#8)
  | .barPkg h mode d a b => some (raw64 h 0x304#10 d a b 0#8 (0#2 ++ mode.code) 0#8)
  | .evArm h a m => some (raw64 h 0x308#10 0#8 a 0#8 m 0#4 0#8)
  | .evMask h op m => some (raw64 h 0x309#10 0#8 0#8 0#8 m (0#2 ++ op.code) 0#8)
  | .evClear h m => some (raw64 h 0x30A#10 0#8 0#8 0#8 m 0#4 0#8)
  | .wany h a => some (raw64 h 0x30B#10 0#8 a 0#8 0#8 0#4 0#8)
  | .mboxPost h slot d a b => some (raw64 h 0x30C#10 d a b 0#8 (0#2 ++ slot) 0#8)
  | .mboxRead h slot d c => some (raw64 h 0x30D#10 d 0#8 0#8 c (0#2 ++ slot) 0#8)
  | .tlWait h a b => some (raw64 h 0x310#10 0#8 a b 0#8 0#4 0#8)
  | .tlRead h err d b => some (raw64 h 0x311#10 d 0#8 b 0#8 (0#3 ++ BitVec.ofBool err) 0#8)
  | .tlTry h d a b c => some (raw64 h 0x312#10 d a b c 0#4 0#8)
  | .gslotSet h a b => some (raw64 h 0x318#10 0#8 a b 0#8 0#4 0#8)
  | .gslotClr h b => some (raw64 h 0x319#10 0#8 0#8 b 0#8 0#4 0#8)
  | .launch h d a b c => some (raw64 h 0x340#10 d a b c 0#4 0#8)
  | .tapePush h d b c => some (raw64 h 0x341#10 d 0#8 b c 0#4 0#8)
  | .leaveReq h cls => some (raw64 h 0x348#10 0#8 0#8 0#8 0#8 (0#2 ++ cls.code) 0#8)
  | .leaveRel h cls => some (raw64 h 0x349#10 0#8 0#8 0#8 0#8 (0#2 ++ cls.code) 0#8)
  | .regionBegin h => some (raw64 h 0x350#10 0#8 0#8 0#8 0#8 0#4 0#8)
  | .regionEnd h => some (raw64 h 0x351#10 0#8 0#8 0#8 0#8 0#4 0#8)
  | .regsGrow h d n => some (raw64 h 0x358#10 d 0#8 0#8 n 0#4 0#8)
  | .regsShrink h n => some (raw64 h 0x359#10 0#8 0#8 0#8 n 0#4 0#8)
  | .sregGet h d c => some (raw64 h 0x380#10 d 0#8 0#8 c 0#4 0#8)
  | .sregSet h a c => some (raw64 h 0x381#10 0#8 a 0#8 c 0#4 0#8)
  | .rdtime h cyc d => some (raw64 h 0x382#10 d 0#8 0#8 0#8 (0#3 ++ BitVec.ofBool cyc) 0#8)
  | .trap h code => some (raw64 h 0x388#10 0#8 0#8 0#8 code 0#4 0#8)
  | .brk h code => some (raw64 h 0x389#10 0#8 0#8 0#8 code 0#4 0#8)
  | .xret h => some (raw64 h 0x38A#10 0#8 0#8 0#8 0#8 0#4 0#8)
  | _ => none

/-- The header of an F64 word. -/
def Raw.hdr (r : Raw) : Hdr := ⟨r.gp, r.gn, r.len == 1#2⟩

/-- The header of an F96 or F128 word. -/
def Raw.hdrN (r : Raw) : Hdr := ⟨r.gp, r.gn, false⟩

/-- Operand B (R158). -/
def Raw.srcB (r : Raw) : SrcB := if r.x.getLsbD 3 then .imm r.c else .reg r.b

/-- TY and RM (Table 6-3). -/
def Raw.ty (r : Raw) : Option Ty := Ty.ofCode (r.m.extractLsb' 0 5)
def Raw.rm (r : Raw) : Option RMode := RMode.ofCode (r.m.extractLsb' 5 3)

/-- DISP (Table 9-1). -/
def Raw.disp (r : Raw) : BitVec 12 := r.c.extractLsb' 0 4 ++ r.b

/-- The dependency-slot fields (Table 6-8). -/
def Raw.ds (r : Raw) : DSlots := ⟨r.w2.extractLsb' 0 8, r.w2.extractLsb' 8 3, r.w2.getLsbD 11⟩

/-- The fields of an `mma` (Table 10-2). -/
def Raw.mma (r : Raw) : MmaArgs where
  d := r.d
  a := r.a
  b := r.b
  c := r.c
  ds := r.ds
  bdisp := r.w3.extractLsb' 0 7 ++ r.w2.extractLsb' 16 16
  bsel := r.w3.extractLsb' 7 2
  tb := r.w3.getLsbD 9
  ru := r.w3.getLsbD 10
  sc := r.w3.getLsbD 11
  ftz := r.w3.getLsbD 12
  zc := r.w3.getLsbD 13
  u := r.w3.getLsbD 14
  ub := r.w3.getLsbD 15

/-- A code that has no meaning is refused by name (row 6 of Table 6-10). -/
def code {α : Type} : Option α → Except DecErr α
  | some v => .ok v
  | none => .error .badCode

/-- Group 0, integer ALU (Table 6-9). -/
def parseG0 (r : Raw) (minor : Nat) : Except DecErr Instr :=
  match minor with
  | 0x00 => code r.ty >>= fun ty => .ok (.iadd r.hdr ty (r.x.getLsbD 1) r.d r.a r.srcB)
  | 0x01 => code r.ty >>= fun ty => .ok (.isub r.hdr ty (r.x.getLsbD 1) r.d r.a r.srcB)
  | 0x02 => code r.ty >>= fun ty => .ok (.imul r.hdr ty (r.x.getLsbD 1) r.d r.a r.srcB)
  | 0x03 => code r.ty >>= fun ty => .ok (.imulhi r.hdr ty r.d r.a r.srcB)
  | 0x04 => code r.ty >>= fun ty => .ok (.imad r.hdr ty (r.x.getLsbD 1) r.d r.a r.b r.c)
  | 0x05 => code r.ty >>= fun ty => .ok (.iadd64 r.hdr ty (r.x.getLsbD 1) r.d r.a r.b)
  | 0x06 => code r.ty >>= fun ty => .ok (.isub64 r.hdr ty (r.x.getLsbD 1) r.d r.a r.b)
  | 0x07 => code r.ty >>= fun ty => .ok (.imad64 r.hdr ty (r.x.getLsbD 1) r.d r.a r.b r.c)
  | 0x08 => .ok (.iaddc r.hdr (r.x.getLsbD 0) r.d r.a r.b r.c)
  | 0x09 => .ok (.ineg r.hdr (r.x.getLsbD 1) r.d r.a)
  | 0x0A => .ok (.iabs r.hdr (r.x.getLsbD 1) r.d r.a)
  | 0x0B => code r.ty >>= fun ty => .ok (.imin r.hdr ty r.d r.a r.srcB)
  | 0x0C => code r.ty >>= fun ty => .ok (.imax r.hdr ty r.d r.a r.srcB)
  | 0x10 => .ok (.and r.hdr r.d r.a r.srcB)
  | 0x11 => .ok (.or r.hdr r.d r.a r.srcB)
  | 0x12 => .ok (.xor r.hdr r.d r.a r.srcB)
  | 0x13 => .ok (.andn r.hdr r.d r.a r.srcB)
  | 0x14 => .ok (.not r.hdr r.d r.a)
  | 0x15 => .ok (.lop3 r.hdr r.m r.d r.a r.b r.c)
  | 0x18 => .ok (.shl r.hdr r.d r.a r.srcB)
  | 0x19 => .ok (.shr r.hdr r.d r.a r.srcB)
  | 0x1A => .ok (.sra r.hdr r.d r.a r.srcB)
  | 0x1B => .ok (.shl64 r.hdr r.d r.a r.srcB)
  | 0x1C => code r.ty >>= fun ty => .ok (.shr64 r.hdr ty r.d r.a r.srcB)
  | 0x1D => .ok (.rotl r.hdr r.d r.a r.srcB)
  | 0x20 => .ok (.clz r.hdr r.d r.a)
  | 0x21 => .ok (.popc r.hdr r.d r.a)
  | 0x22 => .ok (.brev r.hdr r.d r.a)
  | 0x23 => code r.ty >>= fun ty => .ok (.bfx r.hdr ty (r.x.getLsbD 0) r.d r.a r.b r.c)
  | 0x24 => .ok (.bfi r.hdr r.d r.a r.b r.c)
  | 0x28 => .ok (.sel r.hdr r.d r.a r.b r.c)
  | 0x29 => .ok (.mov r.hdr r.d (if r.x.getLsbD 3 then .imm r.c else .reg r.a))
  | 0x2A => code r.ty >>= fun ty => .ok (.lea r.hdr ty r.d r.a r.b r.c)
  | _ => .error .unassigned

/-- Group 1, wide integer and immediate (Table 6-9). -/
def parseG1 (r : Raw) (minor : Nat) : Except DecErr Instr :=
  match minor with
  | 0x00 => code r.ty >>= fun ty => .ok (.iaddImm r.hdrN ty (r.x.getLsbD 1) r.d r.a r.w2)
  | 0x01 => code r.ty >>= fun ty => .ok (.isubImm r.hdrN ty (r.x.getLsbD 1) r.d r.a r.w2)
  | 0x02 => code r.ty >>= fun ty => .ok (.imulImm r.hdrN ty (r.x.getLsbD 1) r.d r.a r.w2)
  | 0x04 => code r.ty >>= fun ty => .ok (.imadImm r.hdrN ty (r.x.getLsbD 1) r.d r.a r.w2 r.c)
  | 0x0B => code r.ty >>= fun ty => .ok (.iminImm r.hdrN ty r.d r.a r.w2)
  | 0x0C => code r.ty >>= fun ty => .ok (.imaxImm r.hdrN ty r.d r.a r.w2)
  | 0x10 => .ok (.andImm r.hdrN r.d r.a r.w2)
  | 0x11 => .ok (.orImm r.hdrN r.d r.a r.w2)
  | 0x12 => .ok (.xorImm r.hdrN r.d r.a r.w2)
  | 0x13 => .ok (.andnImm r.hdrN r.d r.a r.w2)
  | 0x30 => .ok (.movk r.hdrN r.d r.w2)
  | 0x31 => .ok (.movk64 r.hdrN r.d (r.c ++ r.b ++ r.w3 ++ r.w2.extractLsb' 16 16))
  | _ => .error .unassigned

/-- Group 2, compare and predicate (Table 6-9). -/
def parseG2 (r : Raw) (minor : Nat) : Except DecErr Instr :=
  match minor with
  | 0x00 => code (ICc.ofCode (r.x.extractLsb' 0 3)) >>= fun cc => code r.ty >>= fun ty => .ok (.icmp r.hdr cc ty r.d r.a r.srcB)
  | 0x01 => .ok (.pset r.hdr r.d r.a r.c)
  | 0x02 => .ok (.pget r.hdr r.d r.a r.c)
  | 0x03 => .ok (.pand r.hdr (r.x.getLsbD 0) (r.x.getLsbD 1) r.d r.a r.b)
  | 0x04 => .ok (.por r.hdr (r.x.getLsbD 0) (r.x.getLsbD 1) r.d r.a r.b)
  | 0x05 => .ok (.pxor r.hdr (r.x.getLsbD 0) (r.x.getLsbD 1) r.d r.a r.b)
  | 0x06 => .ok (.pnot r.hdr (r.x.getLsbD 0) r.d r.a)
  | 0x07 => .ok (.pmov r.hdr (r.x.getLsbD 0) r.d r.a)
  | _ => .error .unassigned

/-- Group 3, control flow (Table 6-9). -/
def parseG3 (r : Raw) (minor : Nat) : Except DecErr Instr :=
  match minor with
  | 0x00 => .ok (.bra r.hdrN r.w2)
  | 0x01 => .ok (.brx r.hdr r.a)
  | 0x02 => .ok (.call r.hdrN r.w2)
  | 0x03 => .ok (.callx r.hdr r.a)
  | 0x04 => .ok (.ret r.hdr)
  | 0x05 => .ok (.exit r.hdr)
  | 0x06 => .ok (.rejoinArm r.hdr (r.x.getLsbD 0) r.a r.c)
  | 0x07 => .ok (.rejoin r.hdr r.c)
  | 0x08 => .ok (.yield r.hdr)
  | 0x09 => if r.hdr.wide then .ok (.nopWidened r.hdr) else .ok (.nop r.hdr)
  | _ => .error .unassigned

/-- Group 4, quad and group exchange (Table 6-9). -/
def parseG4 (r : Raw) (minor : Nat) : Except DecErr Instr :=
  match minor with
  | 0x00 => code (QMode.ofCode (r.x.extractLsb' 0 2)) >>= fun mode => .ok (.qswap r.hdr mode r.d r.a)
  | 0x01 => .ok (.qbcast r.hdr r.d r.a r.c)
  | 0x02 => code (ShflMode.ofCode (r.x.extractLsb' 0 2)) >>= fun mode => .ok (.gshfl r.hdr mode r.d r.a r.srcB)
  | 0x03 => code (VoteMode.ofCode (r.x.extractLsb' 0 2)) >>= fun mode => .ok (.gvote r.hdr mode r.d r.a)
  | 0x04 => .ok (.gsync r.hdr (r.x.getLsbD 0) r.a)
  | 0x05 => code r.ty >>= fun ty => .ok (.gmatch r.hdr ty r.d r.a)
  | 0x06 => code (RedOp.ofCode (r.x.extractLsb' 0 3)) >>= fun op => code r.ty >>= fun ty => .ok (.gredux r.hdr op ty r.d r.a)
  | 0x07 => code (RedOp.ofCode (r.x.extractLsb' 0 3)) >>= fun op => code r.ty >>= fun ty => .ok (.gscan r.hdr op (r.x.getLsbD 3) ty r.d r.a)
  | 0x08 => .ok (.gelect r.hdr r.d)
  | _ => .error .unassigned

/-- Group 5, float vector (Table 6-9). -/
def parseG5 (r : Raw) (minor : Nat) : Except DecErr Instr :=
  match minor with
  | 0x00 => code r.rm >>= fun rm => .ok (.fadd r.hdr rm (r.x.getLsbD 0) r.d r.a r.b)
  | 0x01 => code r.rm >>= fun rm => .ok (.fsub r.hdr rm (r.x.getLsbD 0) r.d r.a r.b)
  | 0x02 => code r.rm >>= fun rm => .ok (.fmul r.hdr rm (r.x.getLsbD 0) r.d r.a r.b)
  | 0x03 => code r.rm >>= fun rm => .ok (.ffma r.hdr rm (r.x.getLsbD 0) r.d r.a r.b r.c)
  | 0x04 => .ok (.fmin r.hdr (r.x.getLsbD 0) r.d r.a r.b)
  | 0x05 => .ok (.fmax r.hdr (r.x.getLsbD 0) r.d r.a r.b)
  | 0x06 => code r.rm >>= fun rm => .ok (.frnd r.hdr rm (r.x.getLsbD 0) r.d r.a)
  | 0x07 => code (FCc.ofCode (r.x.extractLsb' 1 3)) >>= fun cc => .ok (.fcmp r.hdr cc (r.x.getLsbD 0) r.d r.a r.b)
  | 0x08 => code r.ty >>= fun ty => .ok (.fclass r.hdr ty r.d r.a)
  | 0x09 => code (SignMode.ofCode (r.x.extractLsb' 0 2)) >>= fun mode => .ok (.fsign r.hdr mode r.d r.a r.b)
  | 0x0A => code r.rm >>= fun rm => .ok (.fscale r.hdr rm (r.x.getLsbD 0) r.d r.a r.b)
  | 0x10 => code r.rm >>= fun rm => .ok (.hadd2 r.hdr rm (r.x.getLsbD 0) r.d r.a r.b)
  | 0x11 => code r.rm >>= fun rm => .ok (.hmul2 r.hdr rm (r.x.getLsbD 0) r.d r.a r.b)
  | 0x12 => code r.rm >>= fun rm => .ok (.hfma2 r.hdr rm (r.x.getLsbD 0) r.d r.a r.b r.c)
  | 0x13 => code r.rm >>= fun rm => .ok (.badd2 r.hdr rm (r.x.getLsbD 0) r.d r.a r.b)
  | 0x14 => code r.rm >>= fun rm => .ok (.bmul2 r.hdr rm (r.x.getLsbD 0) r.d r.a r.b)
  | 0x15 => code r.rm >>= fun rm => .ok (.bfma2 r.hdr rm (r.x.getLsbD 0) r.d r.a r.b r.c)
  | 0x16 => code r.rm >>= fun rm => .ok (.fdot2 r.hdr rm (r.x.getLsbD 0) r.d r.a r.b r.c)
  | 0x17 => code r.rm >>= fun rm => .ok (.bdot2 r.hdr rm (r.x.getLsbD 0) r.d r.a r.b r.c)
  | 0x18 => code r.ty >>= fun ty => code r.rm >>= fun rm => .ok (.qdot4 r.hdr ty rm (r.x.getLsbD 0) (r.x.getLsbD 1) r.d r.a r.b r.c)
  | _ => .error .unassigned

/-- Group 6, conversion, packed and scaled (Table 6-9). -/
def parseG6 (r : Raw) (minor : Nat) : Except DecErr Instr :=
  match minor with
  | 0x00 => if r.m.extractLsb' 5 3 = 4#3 then
      code r.ty >>= fun dt => code (Ty.ofCode (r.c.extractLsb' 0 5)) >>= fun sty => .ok (.fcvtSr r.hdr dt sty (r.x.getLsbD 0) (r.x.getLsbD 1) (r.x.getLsbD 2) r.d r.a r.b)
    else
      code r.ty >>= fun dt => code (Ty.ofCode (r.c.extractLsb' 0 5)) >>= fun sty => code r.rm >>= fun rm => .ok (.fcvt r.hdr dt sty rm (r.x.getLsbD 0) (r.x.getLsbD 1) (r.x.getLsbD 2) r.d r.a)
  | 0x01 => code r.ty >>= fun it => code (Ty.ofCode (r.c.extractLsb' 0 5)) >>= fun sty => code r.rm >>= fun rm => .ok (.fcvti r.hdr it sty rm (r.x.getLsbD 0) r.d r.a)
  | 0x02 => code r.ty >>= fun dt => code (Ty.ofCode (r.c.extractLsb' 0 5)) >>= fun it => code r.rm >>= fun rm => .ok (.icvtf r.hdr dt it rm (r.x.getLsbD 0) r.d r.a)
  | 0x03 => code r.ty >>= fun dt => code r.rm >>= fun rm => .ok (.fpack r.hdr dt rm (r.x.getLsbD 0) (r.x.getLsbD 1) (r.x.getLsbD 2) r.d r.a r.b)
  | 0x04 => code r.ty >>= fun sty => .ok (.funpack r.hdr sty (r.x.getLsbD 0) r.d r.a r.c)
  | 0x05 => code r.ty >>= fun dt => .ok (.fbmax r.hdr dt (r.x.getLsbD 0) r.d r.a r.b)
  | 0x06 => .ok (.ds8enc r.hdr (r.x.getLsbD 0) r.d r.a r.b)
  | 0x07 => code r.rm >>= fun rm => .ok (.ds8dec r.hdr rm (r.x.getLsbD 0) r.d r.a r.b r.c)
  | _ => .error .unassigned

/-- Group 7, special function (Table 6-9). -/
def parseG7 (r : Raw) (minor : Nat) : Except DecErr Instr :=
  match minor with
  | 0x00 => .ok (.frcp r.hdr (r.c.getLsbD 0) r.x r.d r.a)
  | 0x01 => .ok (.frsq r.hdr (r.c.getLsbD 0) r.x r.d r.a)
  | 0x02 => .ok (.fsqrt r.hdr (r.c.getLsbD 0) r.x r.d r.a)
  | 0x03 => .ok (.fexp2 r.hdr (r.c.getLsbD 0) r.x r.d r.a)
  | 0x04 => .ok (.flog2 r.hdr (r.c.getLsbD 0) r.x r.d r.a)
  | 0x05 => .ok (.fsin r.hdr (r.c.getLsbD 0) r.x r.d r.a)
  | 0x06 => .ok (.fcos r.hdr (r.c.getLsbD 0) r.x r.d r.a)
  | 0x07 => .ok (.ftanh r.hdr (r.c.getLsbD 0) r.x r.d r.a)
  | 0x08 => .ok (.fsigm r.hdr (r.c.getLsbD 0) r.x r.d r.a)
  | _ => .error .unassigned

/-- Group 8, load/store and spaces (Table 6-9). -/
def parseG8 (r : Raw) (minor : Nat) : Except DecErr Instr :=
  match minor with
  | 0x00 => code r.ty >>= fun ty => .ok (.ld r.hdr ⟨ty, r.d, r.a, r.disp, r.c.getLsbD 4, r.c.getLsbD 5, r.x⟩)
  | 0x01 => code r.ty >>= fun ty => .ok (.ldG r.hdr ⟨ty, r.d, r.a, r.disp, r.c.getLsbD 4, r.c.getLsbD 5, r.x⟩)
  | 0x02 => code r.ty >>= fun ty => .ok (.ldS r.hdr ⟨ty, r.d, r.a, r.disp, r.c.getLsbD 4, r.c.getLsbD 5, r.x⟩)
  | 0x03 => code r.ty >>= fun ty => .ok (.ldC r.hdr ⟨ty, r.d, r.a, r.disp, r.c.getLsbD 4, r.c.getLsbD 5, r.x⟩)
  | 0x04 => code r.ty >>= fun ty => .ok (.ldP r.hdr ⟨ty, r.d, r.a, r.disp, r.c.getLsbD 4, r.c.getLsbD 5, r.x⟩)
  | 0x08 => code r.ty >>= fun ty => .ok (.st r.hdr ⟨ty, r.d, r.a, r.disp⟩ r.x)
  | 0x09 => code r.ty >>= fun ty => .ok (.stG r.hdr ⟨ty, r.d, r.a, r.disp⟩)
  | 0x0A => code r.ty >>= fun ty => .ok (.stS r.hdr ⟨ty, r.d, r.a, r.disp⟩)
  | 0x0B => code r.ty >>= fun ty => .ok (.stC r.hdr ⟨ty, r.d, r.a, r.disp⟩)
  | 0x0C => code r.ty >>= fun ty => .ok (.stP r.hdr ⟨ty, r.d, r.a, r.disp⟩)
  | 0x10 => code (PrefLvl.ofCode (r.x.extractLsb' 0 2)) >>= fun lvl => .ok (.pref r.hdr lvl r.a r.disp)
  | 0x11 => .ok (.spt r.hdr r.d r.a)
  | 0x12 => code (SpcSp.ofCode (r.x.extractLsb' 0 3)) >>= fun sp => .ok (.spc r.hdr sp (r.x.getLsbD 3) r.d r.c r.a)
  | 0x13 => .ok (.xlatePf r.hdr r.a r.disp)
  | _ => .error .unassigned

/-- Group 9, atomics and fences (Table 6-9). -/
def parseG9 (r : Raw) (minor : Nat) : Except DecErr Instr :=
  match minor with
  | 0x00 => code r.ty >>= fun ty => .ok (.atomAdd r.hdr ty r.x r.d r.a r.b)
  | 0x01 => code r.ty >>= fun ty => .ok (.atomMin r.hdr ty r.x r.d r.a r.b)
  | 0x02 => code r.ty >>= fun ty => .ok (.atomMax r.hdr ty r.x r.d r.a r.b)
  | 0x03 => code r.ty >>= fun ty => .ok (.atomAnd r.hdr ty r.x r.d r.a r.b)
  | 0x04 => code r.ty >>= fun ty => .ok (.atomOr r.hdr ty r.x r.d r.a r.b)
  | 0x05 => code r.ty >>= fun ty => .ok (.atomXor r.hdr ty r.x r.d r.a r.b)
  | 0x06 => code r.ty >>= fun ty => .ok (.atomExch r.hdr ty r.x r.d r.a r.b)
  | 0x07 => code r.ty >>= fun ty => .ok (.atomCas r.hdr ty r.x r.d r.a r.b r.c)
  | 0x08 => code r.ty >>= fun ty => .ok (.atomFadd r.hdr ty r.x r.d r.a r.b)
  | 0x09 => code r.ty >>= fun ty => .ok (.atomInc r.hdr ty r.x r.d r.a r.b)
  | 0x10 => code (MemOp.ofCode (r.x.extractLsb' 0 3)) >>= fun op => code r.ty >>= fun ty => .ok (.red r.hdr op ty r.a r.b)
  | 0x18 => code (Scope.ofCode (r.x.extractLsb' 0 3)) >>= fun scope => .ok (.fence r.hdr scope)
  | _ => .error .unassigned

/-- Group 10, grid, channels, FIFOs, banks, contexts (Table 6-9). -/
def parseG10 (r : Raw) (minor : Nat) : Except DecErr Instr :=
  match minor with
  | 0x00 => .ok (.hgLoad r.hdr r.x r.d r.a r.b (r.c.extractLsb' 0 4) (r.c.extractLsb' 4 4))
  | 0x01 => .ok (.hgGrad r.hdr r.d r.a r.b (r.c.extractLsb' 0 4) (r.c.extractLsb' 4 4))
  | 0x02 => .ok (.hgCorner r.hdr r.d r.a r.b r.c r.x)
  | 0x08 => .ok (.chanSend r.hdr r.x r.a r.b r.c)
  | 0x09 => .ok (.chanRecv r.hdr r.x r.d)
  | 0x0A => .ok (.chanProbe r.hdr r.x r.d)
  | 0x0B => .ok (.fifoPush r.hdr r.d r.a r.b r.c)
  | 0x0C => .ok (.fifoPop r.hdr r.d r.a r.c)
  | 0x10 => .ok (.bankMode r.hdr r.x r.b r.d r.a r.c)
  | 0x11 => .ok (.sctxGet r.hdr r.d)
  | _ => .error .unassigned

/-- Group 11, matrix and accumulators (Table 6-9). -/
def parseG11 (r : Raw) (minor : Nat) : Except DecErr Instr :=
  match minor with
  | 0x00 => .ok (.mmaF16 r.hdrN r.mma)
  | 0x01 => .ok (.mmaBf16 r.hdrN r.mma)
  | 0x02 => .ok (.mmaE4m3 r.hdrN r.mma)
  | 0x03 => .ok (.mmaE5m2 r.hdrN r.mma)
  | 0x04 => .ok (.mmaS8 r.hdrN r.mma)
  | 0x05 => .ok (.mmaDs8 r.hdrN r.mma)
  | 0x10 => .ok (.accZero r.hdrN r.ds r.d r.c)
  | 0x11 => code r.ty >>= fun ty => .ok (.accLd r.hdrN r.ds ty r.d r.a)
  | 0x12 => code r.ty >>= fun ty => .ok (.accDrain r.hdrN r.ds r.x ty (r.w2.getLsbD 16) r.d r.a r.b)
  | 0x13 => .ok (.accSpill r.hdrN r.ds r.a r.b)
  | 0x14 => .ok (.accFill r.hdrN r.ds r.d r.a)
  | 0x15 => .ok (.accMov r.hdrN r.ds r.d r.a)
  | 0x16 => .ok (.accAdd r.hdrN r.ds r.d r.a r.b)
  | 0x17 => .ok (.accScale r.hdrN r.ds r.d r.a r.b)
  | 0x20 => .ok (.gangForm r.hdr r.a)
  | 0x21 => .ok (.gangBrk r.hdr)
  | 0x22 => .ok (.dslotWait r.hdrN (r.w2.extractLsb' 0 8))
  | _ => .error .unassigned

/-- Group 12, barriers, events, timelines, guard slots (Table 6-9). -/
def parseG12 (r : Raw) (minor : Nat) : Except DecErr Instr :=
  match minor with
  | 0x00 => .ok (.barArrive r.hdr r.d r.b)
  | 0x01 => .ok (.barWait r.hdr r.a r.b)
  | 0x02 => .ok (.barSync r.hdr r.b)
  | 0x03 => code (BarMode.ofCode (r.x.extractLsb' 0 2)) >>= fun mode => .ok (.barDie r.hdr mode r.d r.a r.b)
  | 0x04 => code (BarMode.ofCode (r.x.extractLsb' 0 2)) >>= fun mode => .ok (.barPkg r.hdr mode r.d r.a r.b)
  | 0x08 => .ok (.evArm r.hdr r.a r.c)
  | 0x09 => code (MaskOp.ofCode (r.x.extractLsb' 0 2)) >>= fun op => .ok (.evMask r.hdr op r.c)
  | 0x0A => .ok (.evClear r.hdr r.c)
  | 0x0B => .ok (.wany r.hdr r.a)
  | 0x0C => .ok (.mboxPost r.hdr (r.x.extractLsb' 0 2) r.d r.a r.b)
  | 0x0D => .ok (.mboxRead r.hdr (r.x.extractLsb' 0 2) r.d r.c)
  | 0x10 => .ok (.tlWait r.hdr r.a r.b)
  | 0x11 => .ok (.tlRead r.hdr (r.x.getLsbD 0) r.d r.b)
  | 0x12 => .ok (.tlTry r.hdr r.d r.a r.b r.c)
  | 0x18 => .ok (.gslotSet r.hdr r.a r.b)
  | 0x19 => .ok (.gslotClr r.hdr r.b)
  | _ => .error .unassigned

/-- Group 13, launch, tape, leave, regions, budget (Table 6-9). -/
def parseG13 (r : Raw) (minor : Nat) : Except DecErr Instr :=
  match minor with
  | 0x00 => .ok (.launch r.hdr r.d r.a r.b r.c)
  | 0x01 => .ok (.tapePush r.hdr r.d r.b r.c)
  | 0x08 => code (LeaveCls.ofCode (r.x.extractLsb' 0 2)) >>= fun cls => .ok (.leaveReq r.hdr cls)
  | 0x09 => code (LeaveCls.ofCode (r.x.extractLsb' 0 2)) >>= fun cls => .ok (.leaveRel r.hdr cls)
  | 0x10 => .ok (.regionBegin r.hdr)
  | 0x11 => .ok (.regionEnd r.hdr)
  | 0x18 => .ok (.regsGrow r.hdr r.d r.c)
  | 0x19 => .ok (.regsShrink r.hdr r.c)
  | _ => .error .unassigned

/-- Group 14, system and trap (Table 6-9). -/
def parseG14 (r : Raw) (minor : Nat) : Except DecErr Instr :=
  match minor with
  | 0x00 => .ok (.sregGet r.hdr r.d r.c)
  | 0x01 => .ok (.sregSet r.hdr r.a r.c)
  | 0x02 => .ok (.rdtime r.hdr (r.x.getLsbD 0) r.d)
  | 0x08 => .ok (.trap r.hdr r.c)
  | 0x09 => .ok (.brk r.hdr r.c)
  | 0x0A => .ok (.xret r.hdr)
  | _ => .error .unassigned

/-- The instruction a word names (Table 6-9). -/
def parse (r : Raw) : Except DecErr Instr :=
  match r.opc.toNat / 64 with
  | 0 => parseG0 r (r.opc.toNat % 64)
  | 1 => parseG1 r (r.opc.toNat % 64)
  | 2 => parseG2 r (r.opc.toNat % 64)
  | 3 => parseG3 r (r.opc.toNat % 64)
  | 4 => parseG4 r (r.opc.toNat % 64)
  | 5 => parseG5 r (r.opc.toNat % 64)
  | 6 => parseG6 r (r.opc.toNat % 64)
  | 7 => parseG7 r (r.opc.toNat % 64)
  | 8 => parseG8 r (r.opc.toNat % 64)
  | 9 => parseG9 r (r.opc.toNat % 64)
  | 10 => parseG10 r (r.opc.toNat % 64)
  | 11 => parseG11 r (r.opc.toNat % 64)
  | 12 => parseG12 r (r.opc.toNat % 64)
  | 13 => parseG13 r (r.opc.toNat % 64)
  | 14 => parseG14 r (r.opc.toNat % 64)
  | _ => .error .unassigned

/-- Rows 3 to 7 of Table 6-10. -/
def decodeRaw (r : Raw) : Except DecErr Instr :=
  match parse r with
  | .error e => .error e
  | .ok i =>
    if toRaw i ≠ some r then .error .reservedField
    else if i.encodingOk && i.widthOk then .ok i
    else .error .badCode

/-- What stands at a code address: an instruction, or a fill word, at which the lane goes on to the next block (R146). -/
inductive Fetched where
  | instr (i : Instr)
  | fill
  deriving DecidableEq, Repr

/-- Bytes that a LEN code names (R142). -/
def lenBytes (l : Nat) : Nat :=
  match l with
  | 0 => 8 | 1 => 12 | 2 => 16 | _ => 4

/-- Decoding at offset `off` of a 32-byte fetch block, of the bytes from there on (R142, R146, R147, R155). -/
def decode (off : Nat) (bs : List Byte) : Except DecErr Fetched :=
  let l := leNat (bs.take 1) % 4
  if off % 4 ≠ 0 ∨ off + lenBytes l > 32 then .error .fetchAlign
  else if bs.length < lenBytes l then .error .truncated
  else if l = 3 then
    if off = 28 ∧ leNat (bs.take 4) = 3 then .ok .fill else .error .badFill
  else
    match decodeRaw (Raw.unpack (BitVec.ofNat 128 (leNat (bs.take (lenBytes l))))) with
    | .ok i => .ok (.instr i)
    | .error e => .error e

/-- The bytes of an instruction as they stand in memory (R5, R142); none for a device event. -/
def encode (i : Instr) : List Byte :=
  match toRaw i with
  | some r => natBytes i.len r.pack.toNat
  | none => []

/-- The instruction the decoder reads from a word of `nbits` bits, the bits above being zero. -/
def decodeTableWord (nbits w : Nat) : Option Instr :=
  match decode 0 (natBytes 16 (w % 2 ^ nbits)) with
  | .ok (.instr i) => some i
  | _ => none

end Sys2Proof
end

