-- ==== Sys2Proof/Machine/State.lean ====
section
/-! DEFINITION. The state of the package as plain data: everything the manual gives the machine, the model's own
bookkeeping (log 2), and the state after reset. -/

namespace Sys2Proof.Machine

/-- A sparse map by number, keys strictly rising. -/
abbrev SMap (α : Type) := List (Nat × α)

/-- Why the machine stops. -/
inductive Fault where
  /-- An instruction was executed with no path issuing it; raised by every instruction's meaning, and never by `step`,
  which issues first. Safe. -/
  | noIssuer
  /-- An access to a physical address at which the package holds no memory (R385 names 384 GiB; the manual gives no other
  fate). Raised by lane, engine and walk accesses. Safe. -/
  | noMemory (pa : Nat)
  deriving DecidableEq, Repr

/-- Why an instruction has no meaning. -/
inductive Refusal where
  /-- The model gives the instruction no meaning yet. Safe. -/
  | notModelled (mnemonic : String)
  deriving DecidableEq, Repr

/-- A lane's state (Table 2-3). -/
inductive LaneSt where
  | absent | onPath | held | waitRejoin (k : Nat) | waitSync | exited
  deriving DecidableEq, Repr

/-- The three levels of barrier (R253). -/
inductive BarLevel where
  | team | die | pkg
  deriving DecidableEq, Repr

/-- What a path waits for (R255, R264, R98, R253, R266). -/
inductive LaneWait where
  | none
  /-- Released by a wave once phase `tok` of the barrier has completed (R256). -/
  | bar (lvl : BarLevel) (k : Nat) (tok : Word)
  /-- Recorded in p + 1 already: retries once phase `p` completes (R253). -/
  | retry (lvl : BarLevel) (k p : Nat)
  /-- The timeline must reach `v` (R264). -/
  | tl (k : Nat) (v : DWord)
  /-- The lane's earlier accesses must be performed; `domain` waits for other packages too (R98). -/
  | fence (domain : Bool)
  /-- An aperture store waits for `n` free queue entries of a channel (R266). -/
  | queue (ch n : Nat)
  deriving DecidableEq, Repr

/-- One lane (R20, R26, R36). -/
structure Lane where
  lst : LaneSt
  helper : Bool
  pc : DWord
  csp : DWord
  v : SMap Word
  p : BitVec 96
  age : Nat
  heldAt : Nat
  wait : LaneWait
  /-- Bytes of the instruction at which the lane waits. -/
  ilen : Nat
  /-- The first die network cycle in which the target of the lane's last transfer can issue (R293). -/
  readyAt : Nat
  /-- The lane's logical time: the moment of the memory order that its last event does not precede (R91). -/
  seen : Nat
  deriving DecidableEq, Repr

/-- Fault causes (Table 17-3), by code. -/
inductive Cause where
  | pageFault | protection | illegalOpcode | illegalOperand | regRange | fetchAlign | badWindow | apertureAccess
  | misaligned | spaceForeign | privateRange | groupDiverged | gangMismatch | gangExit | gangMask | matrixAddr
  | tpbDesc | hgDesc | hgStageFull | chanTarget | chanOversize | mboxTarget | engineCmd | evDesc | wanyEmpty | barScope
  | regionState | xretState | queueReg | queueClass | trap | memError | engineFault | engineError | scratchRange
  | noRegion | retentionLost | launchReject | imageBad
  deriving DecidableEq, Repr

/-- Classes of cause (R330). -/
inductive FClass where
  | replay | stop | done | note
  deriving DecidableEq, Repr

/-- What a fault reports (Table 17-2), before it is placed. -/
structure FInfo where
  cause : Cause
  lane : Nat
  lmask : Mask
  pc : DWord
  addr : DWord
  aux : DWord
  write : Bool
  deriving DecidableEq, Repr

/-- What an entry of class REPLAY or STOP holds (R330). -/
inductive FTarget where
  | none
  | group (gk : Nat)
  | command (ch : Nat)
  deriving DecidableEq, Repr

/-- A fault entry (Table 17-2). -/
structure FEntry where
  info : FInfo
  eng : Bool
  place : Word
  launch : Word
  team : Nat
  ext : List DWord
  target : FTarget
  deriving DecidableEq, Repr

/-- One corner of a level of a lane's `hg.load` (R84): its weight, the format and number of its features, their patterns,
and the request that has not been answered where they lie in another package (R106). -/
structure HgPart where
  level : Nat
  weight : Nat
  ffmt : Nat
  f : Nat
  feats : List Nat
  tag : Option Nat
  deriving DecidableEq, Repr

/-- One lane's share of a pending long-latency result (R150). -/
structure PLane where
  lane : Nat
  left : Nat
  ws : List (Nat × Word)
  ps : List (Nat × Bool)
  landed : Bool
  fault : Option FInfo
  clobV : List Nat
  clobP : List Nat
  tag : Option Nat
  /-- Where its bytes begin in the answer. -/
  off : Nat
  /-- The corners of an `hg.load`, while a request of its is unanswered. -/
  parts : List HgPart
  deriving DecidableEq, Repr

/-- A long-latency instruction with results not yet written (R150, R151). -/
structure Pend where
  id : Nat
  pc : DWord
  instr : Instr
  lanes : List PLane
  /-- Its fault has been taken: it issues again, alone (R151). -/
  replay : Bool
  /-- The result is tagged uniform when it is written (Table 14-3). -/
  utag : Bool
  deriving DecidableEq, Repr

/-- The tag of a register (R294); an affine register is base + stride x %lane. -/
inductive RTag where
  | uniform
  | affine (base stride : Word)
  deriving DecidableEq, Repr

/-- State of an event entry (Table 11-3). -/
inductive EvSt where
  | disarmed | armed | latched | spent
  deriving DecidableEq, Repr

/-- What an event entry watches (R258), with the value captured at its arming (R260). -/
inductive EvWatch where
  | none
  | bar (lvl : BarLevel) (k : Nat) (tok : Word)
  | tl (k : Nat) (v : DWord)
  | mbox (slot : Nat)
  deriving DecidableEq, Repr

/-- An event entry of a group (R259). -/
structure EvEntry where
  est : EvSt
  watch : EvWatch
  handler : DWord
  deriving DecidableEq, Repr

/-- State of a guard slot (R265). -/
inductive GSlot where
  | unresolved | isTrue | isFalse
  deriving DecidableEq, Repr

/-- An open gsync instance (R181). -/
structure GSync where
  r : Mask
  u : Mask
  first : Mask
  deriving DecidableEq, Repr

/-- An instruction waiting in the rendezvous latch (R39). -/
structure Latched where
  instr : Instr
  pc : DWord
  /-- The guard, where it agrees in every lane of the path. -/
  guard : Option Bool
  path : Mask
  since : Nat
  deriving DecidableEq, Repr

/-- One member's fragment in the A reuse latch (R238): the opcode and A field that filled it, and per lane its registers. -/
structure AReuse where
  opc : Nat
  a : Reg
  frag : List (List Word)
  deriving DecidableEq, Repr

/-- Why a group is PARKED or STALLED as a whole (Table 2-4). -/
inductive Park where
  | none
  /-- Scratchpad lines whose presence bits are clear, by line key (R67). -/
  | presence (lines : List Nat)
  /-- Banks that must wake, by bank key (R73). -/
  | wake (banks : List Nat)
  | chanSend (i : Instr) (path : Mask)
  | chanRecv (i : Instr) (path : Mask)
  /-- `regs.grow` of `n` banks into predicate `d` (R42). -/
  | grow (d : Reg) (n : Nat) (i : Instr)
  | latch
  | gangForm (m : Mask) (i : Instr)
  | wany (i : Instr)
  /-- A dependency-slot wait (R251, R242). -/
  | dslots (mask : BitVec 8)
  /-- A REPLAY entry is outstanding or waits to be posted (R330). -/
  | fault
  /-- A record that the instruction reads lies in another package: its bytes have been asked for (R99, R106). -/
  | record
  /-- A G `bank.mode` waits for banks of a cluster (R50). -/
  | pool (cl : Nat)
  deriving DecidableEq, Repr

/-- One group (R20, R37). -/
structure Group where
  lanes : List Lane
  nb : Nat
  gst : Nat
  syncmm : Bool
  evictedBit : Bool
  restartedBit : Bool
  srbign : Bool
  fmask : DWord
  nbv : Nat
  bphase : Nat
  phaseSince : Nat
  evs : List EvEntry
  evm : BitVec 8
  evhit : Nat
  armed : Option DWord
  retAddr : Option DWord
  records : List (Option Mask)
  gsync : Option GSync
  guards : List GSlot
  areuse : Option AReuse
  gang : Mask
  regions : List DWord
  mbox : List (Option Word)
  park : Park
  latch : Option Latched
  pend : List Pend
  nextPend : Nat
  leaveHeld : BitVec 4
  /-- Classes of leave asked for and not granted yet (R273). -/
  leaveWant : BitVec 4
  leaveSince : Nat
  yielded : Bool
  lastIssue : Nat
  /-- Held for the driver by an entry of class STOP (R330). -/
  stopped : Bool
  /-- Held by the debugger (R333). -/
  halted : Bool
  /-- The `trap` or `brk` at which the group is held, and the instruction after it (R278, R331). -/
  trapNext : Option (DWord × DWord)
  /-- The code that the last `brk` reported to the debugger (R278). -/
  brkCode : Option Nat
  /-- The tags of the registers (R294). -/
  rtags : SMap RTag
  /-- A closing atomic has issued, and its `region.end` has not: that instruction, and the one after it (R298). -/
  closing : Option (Instr × DWord)
  /-- The resident slot that the group held when its team last stopped (R51, Table 17-2). -/
  stopSlot : Nat
  ended : Bool
  deriving DecidableEq, Repr

/-- A barrier (R253): its open phase, the lanes recorded in it and in the next, by group key, and the engine arrivals
still expected in it. -/
structure Barrier where
  phase : Nat
  cur : SMap Mask
  nxt : SMap Mask
  eng : Nat
  deriving DecidableEq, Repr

/-- The receive instance of a declared channel (R222). -/
structure ChanInst where
  slots : Nat
  width : Nat
  q : List (List Word)
  /-- Slots taken so far, which numbers the slots (R93). -/
  taken : Nat
  deriving DecidableEq, Repr

/-- A gang of a team (R38), with a number of its own. -/
structure Gang where
  id : Nat
  members : Mask
  deriving DecidableEq, Repr

/-- What a team is doing, as a whole (R21, R37). -/
inductive TeamSt where
  | placing | resident | saved | shadow | evicted | done
  deriving DecidableEq, Repr

/-- Where an access goes once its checks have passed. -/
inductive Target where
  | mem (pa tag : Nat)
  | remote (pkg daddr va : Nat)
  /-- Private space: the place of its first byte, in the layout of R57. -/
  | priv (pa tag : Nat)
  | sram (t off : Nat)
  | tail (part q : Nat)
  | command (k : Nat)
  deriving DecidableEq, Repr

/-- Where a tile image lies (R247): a global address, line by line, or an offset of the team's scratchpad. -/
inductive Image5 where
  | lines (ts : List Target)
  | scratch (off : Nat)
  deriving DecidableEq, Repr

/-- A tile parameter block (Table 10-6). -/
structure Tpb where
  srmask : Nat
  sat : Bool
  inf : Bool
  seed : Word
  stream : DWord
  deriving DecidableEq, Repr

/-- One member's share of a joint operation (R237): its tile, its A fragment, and its scale register by lane. -/
structure MmaPart where
  tile : Nat
  frag : List (List Word)
  scaleA : List Word
  deriving DecidableEq, Repr

/-- What an operation of Anvil captured when it started, from which its results follow (R237, R239, R243, R245, R247).
`acc`, `wa` and `wb` are tile elements as read. -/
inductive AnvilCap where
  /-- Elements that follow from registers alone. -/
  | known (new : SMap (BitVec 40))
  /-- A joint operation: the instruction, %nbv, the team's offset of B, the bytes of B, the column scales, the members. -/
  | mma (i : Instr) (nbv o : Nat) (b : List Byte) (scaleB : List Word) (parts : List MmaPart) (acc : SMap (BitVec 40))
  | mov (d a : Nat) (wa : SMap (BitVec 40))
  | add (d a b : Nat) (wa wb : SMap (BitVec 40))
  | scale (d a : Nat) (wa : SMap (BitVec 40)) (es : List Int)
  /-- A drain into the pending result `pend` of a group. -/
  | drain (gk pend : Nat) (ty : Ty) (x : Tpb) (sr : Bool) (d tile : Nat)
  /-- A spill of a tile by a lane's instruction; `sent` once its image has been written. -/
  | spill (gk lane : Nat) (pc : DWord) (tile : Nat) (wa : SMap (BitVec 40)) (img : Image5) (sent : Bool)
  /-- A fill of a tile from the bytes of an image, which lies at `src`. -/
  | fill (d : Nat) (img : List Byte) (src : Image5)
  deriving DecidableEq, Repr

/-- An Anvil operation that has started (R239, R240). `ns` is the gang, or the group outside a gang, whose slot it set and
whose accumulate chain it is in; `new` are the tile elements that it writes, by tile x 256 + row x 16 + column; `after` are
the operations that it takes effect after; `seen` are the groups ordered after it by a `dslot.wait`, and `carry` the
synchronisation events that follow such a wait. -/
structure AnvilOp where
  id : Nat
  ns : Nat
  slot : Option Nat
  mma : Bool
  new : SMap (BitVec 40)
  after : List Nat
  done : Bool
  seen : Mask
  carry : List Nat
  cap : AnvilCap
  /-- Requests to other packages that have not been answered, with the line of the image that each is for (R106). -/
  tags : List (Nat × Nat)
  deriving DecidableEq, Repr

/-- One team (R20, R58, R59). -/
structure Team where
  launch : Nat
  num : Nat
  tst : TeamSt
  core : Nat
  firstCore : Nat
  tagCore : Nat
  tagSlot : Nat
  groups : Nat
  banks : List Nat
  ctxBanks : List Nat
  /-- Own banks that come before the context banks in the team's list (R58, R87). -/
  ctxAt : Nat
  chanBanks : List Nat
  tiles : SMap (BitVec 40)
  bars : SMap Barrier
  chans : SMap ChanInst
  gangs : List Gang
  anvil : List AnvilOp
  screed : Option Nat
  reclaimed : Bool
  /-- The image of the team that was written last, as `Blob.id` (R336). -/
  imageId : Nat
  movedAt : Nat
  stopCause : Option DWord
  mergeCount : Nat
  deriving DecidableEq, Repr

/-- Kernel information (Table 15-4) as a launch holds it. -/
structure KInfo where
  entry : DWord
  priv : Nat
  scratch : Nat
  nb : Nat
  acc : Nat
  gang : Nat
  region : Nat
  allowG : Bool
  allowH : Bool
  nbv : Nat
  cshared : Bool
  spanbar : Bool
  lockstep : Bool
  ttBase : DWord
  ttCount : Nat
  chans : SMap (Nat × Nat)
  deriving DecidableEq, Repr

/-- One launch (R308, R313-R315, R320). -/
structure Launch where
  part : Nat
  queue : Nat
  num : Nat
  seq : Nat
  classH : Bool
  k : KInfo
  args : DWord
  teams : Nat
  tsize : Nat
  persist : Bool
  iters : Nat
  tile : Nat
  rangeOff : Nat
  stream : Option Nat
  steal : Bool
  placed : Nat
  finished : Nat
  killed : Bool
  ended : Bool
  start : Nat
  bars : SMap Barrier
  prior : Option Nat
  deriving DecidableEq, Repr

/-- A launch queue's registers (Tables 16-2, 16-3) and its counts (R313, R322). -/
structure Queue where
  base : DWord
  en : Bool
  classH : Bool
  prio : Nat
  log2s : Nat
  steal : Bool
  timer : Bool
  streamq : Bool
  tail : Nat
  head : Nat
  doneV : Nat
  stat : BitVec 3
  rej : Word
  tstart : DWord
  tperiod : Word
  miss : Nat
  nextNum : Nat
  endedNums : List Nat
  fires : Nat
  fireDue : Option Nat
  /-- For each record published and not taken, the moment of the memory order of its publication (R281). -/
  pubs : List Nat
  deriving DecidableEq, Repr

/-- A record of the pending-launch store, or a stream fire (R313, R317, R325). -/
structure StoreRec where
  queue : Nat
  bytes : List Byte
  tapeH : Bool
  prior : Option Nat
  popOrder : Option Nat
  stream : Option Nat
  fireAt : Nat
  addr : DWord
  deriving DecidableEq, Repr

/-- A record of the backward tape (R318): its bytes, none of a cut record that could not be read back, and its RQUEUE. -/
structure TapeRec where
  bytes : List Byte
  tapeH : Bool
  rq : Nat
  deriving DecidableEq, Repr

/-- A cached translation (R344-R346): the partition, the page by its number, its size and its leaf. -/
structure Tlb where
  part : Nat
  page : Nat
  big : Bool
  entry : DWord
  deriving DecidableEq, Repr

/-- An entry of a page-walk cache (R346): an L3 or L2 entry of a partition, by the part of the address that indexes it. -/
structure WalkEnt where
  part : Nat
  level : Nat
  pre : Nat
  entry : DWord
  deriving DecidableEq, Repr

/-- A miss of a page, waiting or walked, with the cores that it serves (R346). -/
structure Walk where
  die : Nat
  part : Nat
  page : Nat
  classH : Bool
  cores : List Nat
  running : Bool
  deriving DecidableEq, Repr

/-- An entry of the fabric translation unit (R347), with the class of the request that filled it. -/
structure FabTlb where
  page : Nat
  big : Bool
  entry : DWord
  classH : Bool
  deriving DecidableEq, Repr

/-- Bias states (R369). -/
inductive Bias where
  | fbb | zbb | rbb1 | rbb2 | off
  deriving DecidableEq, Repr

/-- Groups of one phase released together (R256). -/
structure Wave where
  at_ : Nat
  gks : List Nat
  lvl : BarLevel
  k : Nat
  deriving DecidableEq, Repr

/-- One cluster's registers (Table 20-1) and units. -/
structure Cluster where
  part : Nat
  req : Bias
  curBias : Bias
  settleOld : Option Bias
  settleAt : Nat
  wave : Nat
  space : Nat
  level : Nat
  depl : Bool
  rcLow : Nat
  rcHigh : Nat
  rcRate : Nat
  cost : Word
  temp : Nat
  thr : Word
  warm : Nat
  role : DWord
  rlcnt : Nat
  /-- Moments of the last retention losses, newest first (R383). -/
  rlTimes : List Nat
  degraded : Bool
  trips : Nat
  stepAt : Nat
  clk : Nat
  clkAt : Nat
  charge : Nat
  /-- Groups whose covered operations were held when DEPL cleared and are not yet released (R371). -/
  heldOps : List Nat
  waves : List Wave
  deriving DecidableEq, Repr

/-- Bank modes (Table 3-2). -/
inductive BMode where
  | pool | cache | scratch | fifo
  deriving DecidableEq, Repr

/-- Who owns a bank. -/
inductive Owner where
  | none
  | team (t : Nat)
  | stream (e : Nat)
  | chan (t k : Nat)
  deriving DecidableEq, Repr

/-- Power states (Table 3-5). -/
inductive Pwr where
  | on | nap | retain | deep
  deriving DecidableEq, Repr

/-- A mode switch under way (R62-R64): the target, and the request whose status it answers. -/
structure Transit where
  target : BMode
  team : Nat
  gk : Nat
  pend : Nat
  lane : Nat
  deriving DecidableEq, Repr

/-- A line that a way of the cluster cache holds (R62): the line, its key, the moment of the memory order at which the copy
was taken, which its lease starts from, and whether it has unwritten data. -/
structure CLine where
  line : Nat
  tag : Nat
  at_ : Nat
  dirty : Bool
  deriving DecidableEq, Repr

/-- One bank of cluster SRAM (R62, R73). `lines` are the lines of a CACHE bank, by set. -/
structure Bank where
  mode : BMode
  owner : Owner
  pwr : Pwr
  transit : Option Transit
  waking : Bool
  refill : Bool
  warm : Bool
  fifo : List Word
  /-- Elements popped so far, which numbers the elements (R93). -/
  popped : Nat
  lines : SMap CLine
  lastUse : Nat
  deriving DecidableEq, Repr

/-- Kinds of Tongs command (Table 11-4). -/
inductive CmdKind where
  | copy | gather | reduceStore | multicast | collective
  deriving DecidableEq, Repr

/-- A Tongs command as its aperture store captured it (R266, R267). -/
structure Cmd where
  num : Nat
  /-- The order in which commands of the package were issued. -/
  seq : Nat
  gk : Nat
  tuid : Nat
  tidx : Nat
  kind : CmdKind
  sfmt : Ty
  dfmt : Ty
  sat : Bool
  inf : Bool
  gmerge : Bool
  bar : Option (BarLevel × Nat)
  barPhase : Nat
  sspc : Nat
  dspc : Nat
  sbase : DWord
  dbase : DWord
  rows : Nat
  rlen : Nat
  sstride : Nat
  dstride : Nat
  ibase : DWord
  idx64 : Bool
  rop : Nat
  hgd : DWord
  mcl : List Nat
  cmask : List Nat
  cop : Nat
  srh : Bool
  cgrp : Nat
  cid : DWord
  seed : Word
  guard : Option Nat
  recv : List (Nat × Nat)
  lines : List Nat
  region : Nat
  round : Nat
  cursor : Nat
  attempt : Nat
  ran : Bool
  errored : Bool
  discard : Bool
  waiting : Bool
  stagedV : List (Nat × BitVec 128)
  rcache : List (Nat × Nat)
  /-- Scratchpad granules written: the team, the offset and the bytes before (R69). -/
  undo : List (Nat × Nat × List Byte)
  /-- The address at which an error was met, and whether the access wrote (Table 17-2). -/
  errVa : Nat
  errW : Bool
  /-- Device time at its issue (R365). -/
  issued : Nat
  deriving DecidableEq, Repr

/-- A channel of Tongs (R104, R266) or an H team's virtual channel (R337). -/
structure Chan where
  queue : List Cmd
  staged : List Cmd
  value : Nat
  nextNum : Nat
  errNum : Nat
  doneNums : List Nat
  deriving DecidableEq, Repr

/-- PSTAT.STATE (Table 17-1). -/
inductive PState where
  | running | stopping | saved | resuming | shadow
  deriving DecidableEq, Repr

/-- One partition's registers and units. -/
structure Part where
  queues : SMap Queue
  lastTaken : Nat
  nextTake : Nat
  store : List StoreRec
  fires : List StoreRec
  plsRes : Nat
  tapeBase : DWord
  tape : List TapeRec
  cut : List TapeRec
  /-- Queue and number of the tape boundary whose records are being popped. -/
  cutLaunch : Option (Nat × Nat)
  /-- The place of that boundary among popped records, where it was one (R319). -/
  cutOrder : Option Nat
  cutPrior : Option Nat
  fqBase : DWord
  fqEn : Bool
  fqIe : Bool
  fqLog2n : Nat
  fqStat : BitVec 4
  fqTail : Nat
  fqHead : Nat
  fqResp : DWord
  nextSeq : Nat
  wantPost : List FEntry
  hold : List FEntry
  outstanding : List (Nat × FEntry)
  posted : Nat
  /-- The cause of each entry posted since EN was last set, by SEQ. -/
  posts : SMap Cause
  causes : SMap Nat
  tsact : Nat
  mig : Bool
  migg : Bool
  pcmdCmd : Nat
  pcmdIn : Nat
  pst : PState
  res : Nat
  /-- A saved image: banks, their bytes, clear presence bits, the channels of class G, and the clusters it was taken from. -/
  image : Bool
  /-- What was last written at SAVEBASE, as `Blob.id` (R334, R336). -/
  saveId : Nat
  bankImage : SMap Bank
  sramImage : SMap Byte
  absentImage : SMap Nat
  chanImage : SMap Chan
  shape : List Nat
  held : Option Nat
  tslice : Word
  sliceStart : Nat
  swapIn : Option Nat
  saveBase : DWord
  gshare : List Nat
  hspillBase : DWord
  hspillCnt : Nat
  ptBase : DWord
  ptKey : Nat
  tlbInv : DWord
  tlbBusy : Bool
  /-- Invalidations that have not completed. -/
  tlbWant : List DWord
  netShare : Nat
  hbmReg : List DWord
  buckets : List (Nat × Nat)
  portReg : List DWord
  cgBase : DWord
  cTimeout : Nat
  debugger : Bool
  deriving DecidableEq, Repr

/-- State of a key ID (R348). -/
inductive KeySt where
  | empty | loaded | assigned (p : Nat)
  deriving DecidableEq, Repr

/-- A key ID and the serial number of the random key it holds. -/
structure Key where
  kst : KeySt
  serial : Nat
  deriving DecidableEq, Repr

/-- States of a stream-context entry (Table 16-6). -/
inductive StreamSt where
  | free | active | idle | evicting | evicted
  deriving DecidableEq, Repr

/-- A stream-context entry as the device caches it (Table 16-5). -/
structure Stream where
  sst : StreamSt
  part : Nat
  banks : List Nat
  nbanks : Nat
  place : Nat
  silence : Nat
  rld : Bool
  late : Bool
  backing : DWord
  lastChunk : Nat
  tlrec : DWord
  tstart : DWord
  tperiod : Nat
  queue : Nat
  silcnt : Nat
  fires : Nat
  chunkWaits : Bool
  /-- Presence bits that are clear in the copy at BACKING, by line of the context. -/
  absent : SMap Nat
  deriving DecidableEq, Repr

/-- A fabric port (Table 21-2). -/
structure Port where
  en : Bool
  link : Bool
  lanesUp : Nat
  drop : Nat
  resend : Nat
  fec : Nat
  nextSeq : Nat
  deriving DecidableEq, Repr

/-- Class tags of an L2 way (R355). -/
inductive L2Tag where
  | g | h | e
  deriving DecidableEq, Repr

/-- One way of an L2 set (R355). -/
structure Way where
  line : Nat
  rrpv : Nat
  tag : L2Tag
  dirty : Bool
  /-- The key under which the line is cached (R348). -/
  key : Nat
  deriving DecidableEq, Repr

/-- One L2 slice: the selectors of R356, the counter of R355, and for its power state (R73) whether it wakes, and its last use. -/
structure Slice where
  pselG : Nat
  pselH : Nat
  pselE : Nat
  brrip : Nat
  waking : Bool
  lastUse : Nat
  deriving DecidableEq, Repr

/-- A multicast read in progress at a home slice (R283). -/
structure Mcast where
  line : Nat
  accepted : Nat
  /-- MCWIN at its acceptance. -/
  win : Nat
  /-- The channel and number of its command. -/
  cmd : Nat × Nat
  cores : List Nat
  /-- The moment of the memory order at which it read the line. -/
  at_ : Nat
  deriving DecidableEq, Repr

/-- Lines that a request asks of their L2 homes, in order (R11-R13, R283, R355): `n` lines from `line` on, by the duelling
class, the class, the core, and for a multicast read its command; `write` marks them dirty, under the key `tag`. -/
structure HomeReq where
  line : Nat
  n : Nat
  duel : Nat
  classH : Bool
  core : Nat
  write : Bool
  tag : Nat
  multicast : Option (Nat × Nat)
  /-- The moment of the memory order at which it was asked. -/
  at_ : Nat
  deriving DecidableEq, Repr

/-- Physical lines that the device has written with an image whose bytes the manual does not lay out: byte a of it is
`Config.imageByte id a`, under the key `tag` (R334, R339; log 35). -/
structure Blob where
  line : Nat
  n : Nat
  tag : Nat
  id : Nat
  deriving DecidableEq, Repr

/-- A byte write in the history that invariant loads, last-use loads and fetches choose from (R99, R100, R157). -/
structure Hist where
  pa : Nat
  stamp : Nat
  old : Byte
  /-- The cycle of the write (R95). -/
  cyc : Nat
  deriving DecidableEq, Repr

/-- Who reads a record as if by invariant loads: a group, a command by its channel, or the take unit of a partition. -/
inductive Reader where
  | group (gk : Nat)
  | command (ch : Nat)
  | take (p : Nat)
  deriving DecidableEq, Repr

/-- Bytes of a record in another package that a reader has asked for (R99, R106): none while unanswered, and an empty list
where the request was refused. -/
structure RecAns where
  who : Reader
  va : Nat
  n : Nat
  tag : Nat
  bytes : Option (List Byte)
  deriving DecidableEq, Repr

/-- What the answer of a request is for: a register or a command's element, a tile image of a team (R247), a corner of an
`hg.load` (R218), or a record. -/
inductive RDest where
  | value
  | fill (tuid : Nat)
  | feat
  | record
  deriving DecidableEq, Repr

/-- Where a store that is not yet performed came from (R95, R98). -/
inductive Src where
  | lane (gk l : Nat)
  /-- A host hart, and the partition that HPART named at the access (R345, R385). -/
  | hart (h part : Nat)
  | engine (ch num : Nat)
  /-- The take unit of a partition, for a record of a class. -/
  | take (p : Nat) (classH : Bool)
  deriving DecidableEq, Repr

/-- A store accepted and not yet performed (R95). -/
structure Store where
  id : Nat
  src : Src
  deriving DecidableEq, Repr

/-- A request to another package that has not been answered (R106, R361). -/
structure Remote where
  tag : Nat
  src : Src
  isLoad : Bool
  pend : Nat
  regs : List Nat
  ty : Ty
  sext : Bool
  frame : Frame
  op : Nat
  /-- The instruction that made it, and the address that it named. -/
  pc : DWord
  va : Nat
  dest : RDest
  deriving DecidableEq, Repr

/-- A frame sent, kept until it is acknowledged (R361): its OP and its contents. -/
structure Sent where
  op : Nat
  frame : Frame
  deriving DecidableEq, Repr

/-- A collective in progress (R363, R364), and its buffer. -/
structure Coll where
  ch : Nat
  num : Nat
  part : Nat
  cid : DWord
  members : List Nat
  rank : Nat
  tree : Bool
  radix : Nat
  hop0 : Nat
  buf : List (BitVec 128)
  /-- Actions of its schedule that are done. -/
  step : Nat
  /-- Elements of the result that have been written. -/
  written : Nat
  deriving DecidableEq, Repr

/-- Service states (R376). -/
inductive Svc where
  | boot | reduced | test | normal | recovery
  deriving DecidableEq, Repr

/-- An answer of the management port (R350, R382): a code and bytes. -/
structure Reply where
  name : String
  status : Nat
  bytes : List Byte
  deriving DecidableEq, Repr

/-- A telemetry report (R381): clusters (temperature, bias, trips, retention losses), ports, stacks (corrected,
uncorrected), fault counts and DROP of each partition, SVC, EMPTY keys. -/
structure Report where
  clusters : List (Nat × Nat × Nat × Nat)
  ports : List (Nat × Nat × Nat)
  stackErrs : List (Nat × Nat)
  faults : List (List (Nat × Nat) × Bool)
  svc : Nat
  emptyKeys : Nat
  deriving DecidableEq, Repr

/-- The path that issues (R28-R31): its group, its lanes, whether it replays an instruction alone (R151), and, for the
second path of a pair, the lanes as they stood before the cycle (R176, R177); an empty list stands for the present ones. -/
structure Cur where
  gk : Nat
  path : Mask
  alone : Bool
  /-- The address of an instruction that replays alone. -/
  apc : DWord
  view : List Lane
  deriving DecidableEq, Repr

/-- What a host hart's last access gave (R385): the value read, or none for an access fault. -/
structure HartRes where
  hart : Nat
  value : Option Nat
  deriving DecidableEq, Repr

/-- The package. -/
structure State where
  /-- Service state and bring-up (R349, R376). -/
  svc : Svc
  hbmOk : BitVec 8
  hbmFail : BitVec 8
  svcCmd : Word
  svcRes : Nat
  stages : Nat
  bootFailed : Bool
  bootDone : Bool
  meas : List (List Byte)
  fuseCount : Nat
  flash : List (Option Image)
  activeBank : Nat
  uncommitted : Bool
  flashBusy : Bool
  /-- An image waits in the other bank for the next reset (R382). -/
  pendingUpdate : Bool
  hbmErrs : List (Nat × Nat)
  /-- Device time (R366). -/
  ptBase : Nat
  ptAt : Nat
  ptStep : DWord
  ptRate : Int
  stepping : Bool
  txts : DWord
  ptsel : Nat
  /-- L2 and network (R355-R358, R283). -/
  l2wayg : BitVec 16
  mcwin : Nat
  l2sel : Nat
  qosErr : BitVec 4
  slices : SMap Slice
  l2 : SMap (SMap Way)
  mcasts : List Mcast
  merged : SMap Nat
  /-- Requests on their way to their L2 homes, oldest first. -/
  homeReqs : List HomeReq
  /-- Power states of L2 slices that are not ON (R73). -/
  slicePwr : SMap Pwr
  /-- Translations (R346): the L1 TLB of each core, the last-level TLB and the walk caches of each die, and the misses. -/
  tlb1 : SMap (List Tlb)
  tlb2 : SMap (List Tlb)
  walkCache : SMap (List WalkEnt)
  walks : List Walk
  /-- Stream contexts (R323, R324). -/
  stBase : DWord
  scCmd : Word
  scStat : Nat
  streams : SMap Stream
  /-- Fabric and keys (R347, R348, R361-R365). -/
  ftBase : DWord
  ftInv : DWord
  ftBusy : Bool
  ftFault : DWord
  ftlb : List FabTlb
  keyCmd : Word
  keyBusy : Bool
  keyRes : Nat
  keyGiven : Nat
  keyNext : Option (Nat × Key)
  keys : SMap Key
  nextSerial : Nat
  rtBase : DWord
  pkgNum : Nat
  ports : SMap Port
  sent : List Sent
  out : List Sent
  remotes : List Remote
  /-- Records of other packages that instructions and units are reading. -/
  recs : List RecAns
  nextTag : Nat
  windows : SMap (Nat × Nat)
  colls : List Coll
  collIn : List (Nat × Frame)
  rxTimes : List Nat
  /-- Host harts (R385). -/
  hpart : SMap Nat
  hostLast : List HartRes
  /-- The reservation of each hart's last load-reserve: address, size, and the moment of the memory order (R94). -/
  hostResv : SMap (Nat × Nat × Nat)
  /-- Harts whose `fence` waits for their cross-package accesses (R94). -/
  hostHeld : List Nat
  /-- Accesses, and further fences, of held harts, in program order. -/
  hostWait : List (Nat × Option HostOp)
  /-- Memory (R343, R99, R100, R348): bytes by physical address, the write history, the last write-back of each line, and
  the key each written line is under. -/
  mem : List Host.Cell
  hist : List Hist
  wseq : Nat
  wb : SMap Nat
  ktag : SMap Nat
  blobs : List Blob
  nextBlob : Nat
  stores : List Store
  nextStore : Nat
  /-- Cluster SRAM bytes by bank and offset, and the lines whose presence bit is clear, each with the command that cleared it
  last (R58, R67, R68). -/
  sram : SMap Byte
  absentLines : SMap Nat
  clusters : SMap Cluster
  banks : SMap Bank
  /-- Queues, launches, teams, groups and channels. -/
  parts : SMap Part
  launches : SMap Launch
  teams : SMap Team
  groups : SMap Group
  chans : SMap Chan
  nextUid : Nat
  rotation : SMap Nat
  /-- The scalar-issue performance counter of each core (R31, R294). -/
  scalarIssues : SMap Nat
  /-- The management service (R350, R379-R383). -/
  replies : List Reply
  negotiated : Bool
  reports : List Report
  profiles : List Profile
  /-- The model's own (log 2). -/
  agenda : List Instr
  cur : Option Cur
  second : Option Cur
  waiting : SMap Cur
  served : List Nat
  now : Nat
  fresh : Nat
  /-- A physical address at which an access found no memory (the fault `noMemory`). -/
  stuck : Option Nat
  deriving DecidableEq, Repr

/-! The default members of the sparse maps: the reset values of the units they hold. -/

/-- A queue after reset (Table 16-2). -/
def Queue.reset : Queue :=
  ⟨0, false, false, 0, 0, false, false, false, 0, 0, 0, 0, 0, 0, 0, 0, 1, [], 0, none, []⟩

/-- A partition after reset (Tables 16-2, 17-1, 18-2, 19-3); with no cluster it reads SAVED with no image (R328). -/
def Part.reset : Part where
  queues := []
  lastTaken := 63
  nextTake := 1
  store := []
  fires := []
  plsRes := 0
  tapeBase := 0
  tape := []
  cut := []
  cutLaunch := none
  cutOrder := none
  cutPrior := none
  fqBase := 0
  fqEn := false
  fqIe := false
  fqLog2n := 0
  fqStat := 0
  fqTail := 0
  fqHead := 0
  fqResp := 0
  nextSeq := 1
  wantPost := []
  hold := []
  outstanding := []
  posted := 0
  posts := []
  causes := []
  tsact := 0
  mig := false
  migg := false
  pcmdCmd := 0
  pcmdIn := 0
  pst := .saved
  res := 0
  image := false
  saveId := 0
  bankImage := []
  sramImage := []
  absentImage := []
  chanImage := []
  shape := []
  held := none
  tslice := 0
  sliceStart := 0
  swapIn := none
  saveBase := 0
  gshare := [0, 0, 0, 0]
  hspillBase := 0
  hspillCnt := 0
  ptBase := 0
  ptKey := 0
  tlbInv := 0
  tlbBusy := false
  tlbWant := []
  netShare := 0
  hbmReg := [0, 0, 0, 0, 0, 0, 0, 0]
  buckets := [(0, 0), (0, 0), (0, 0), (0, 0), (0, 0), (0, 0), (0, 0), (0, 0)]
  portReg := List.replicate 32 0
  cgBase := 0
  cTimeout := 0x2710
  debugger := false

/-- A cluster after reset (Table 20-1, R328). -/
def Cluster.reset : Cluster where
  part := 15
  req := .rbb1
  curBias := .rbb1
  settleOld := none
  settleAt := 0
  wave := 32
  space := 1
  level := 255
  depl := false
  rcLow := 0x20
  rcHigh := 0x80
  rcRate := 4
  cost := 0x020C1008
  temp := 0
  thr := 0x069005F0
  warm := 0
  role := 0
  rlcnt := 0
  rlTimes := []
  degraded := false
  trips := 0
  stepAt := 0
  clk := 0
  clkAt := 0
  charge := 0
  heldOps := []
  waves := []

/-- A bank after reset: POOL, DEEP (Table 20-1). -/
def Bank.reset : Bank := ⟨.pool, .none, .deep, none, false, false, false, [], 0, [], 0⟩

/-- A channel after reset (R104). -/
def Chan.reset : Chan := ⟨[], [], 0, 1, 0, []⟩

/-- A key ID that holds no key (R348; log 12). -/
def Key.reset : Key := ⟨.empty, 0⟩

/-- A stream-context entry that is FREE (R323; log 11). -/
def Stream.reset : Stream :=
  ⟨.free, 0, [], 0, 0, 0, false, false, 0, 0, 0, 0, 0, 0, 0, 0, false, []⟩

/-- A fabric port after reset (Table 21-2). -/
def Port.reset : Port := ⟨false, false, 0, 0, 0, 0, 0⟩

/-- A slice after reset (R355, R356; the counter is log 10). -/
def Slice.reset : Slice := ⟨512, 512, 512, 0, false, 0⟩

/-- A barrier at the start (R253). -/
def Barrier.reset : Barrier := ⟨0, [], [], 0⟩

/-- A lane before its team starts. -/
def Lane.reset : Lane := ⟨.absent, false, 0, 0, [], 1, 0, 0, .none, 0, 0, 0⟩

/-- An event entry before any arming (R259). -/
def EvEntry.reset : EvEntry := ⟨.disarmed, .none, 0⟩

/-- The package right after reset. -/
def State.reset : State where
  svc := .boot
  hbmOk := 0
  hbmFail := 0
  svcCmd := 0
  svcRes := 0
  stages := 0
  bootFailed := false
  bootDone := false
  meas := List.replicate 8 (List.replicate 64 0)
  fuseCount := 0
  flash := [none, none]
  activeBank := 0
  uncommitted := false
  flashBusy := false
  pendingUpdate := false
  hbmErrs := List.replicate 8 (0, 0)
  ptBase := 0
  ptAt := 0
  ptStep := 0
  ptRate := 0
  stepping := false
  txts := 0
  ptsel := 0
  l2wayg := 0x00FF
  mcwin := 0x20
  l2sel := 0
  qosErr := 0
  slices := []
  l2 := []
  mcasts := []
  merged := []
  homeReqs := []
  slicePwr := []
  tlb1 := []
  tlb2 := []
  walkCache := []
  walks := []
  stBase := 0
  scCmd := 0
  scStat := 0
  streams := []
  ftBase := 0
  ftInv := 0
  ftBusy := false
  ftFault := 0
  ftlb := []
  keyCmd := 0
  keyBusy := false
  keyRes := 0
  keyGiven := 0
  keyNext := none
  keys := []
  nextSerial := 1
  rtBase := 0
  pkgNum := 0
  ports := []
  sent := []
  out := []
  remotes := []
  recs := []
  nextTag := 1
  windows := []
  colls := []
  collIn := []
  rxTimes := []
  hpart := []
  hostLast := []
  hostResv := []
  hostHeld := []
  hostWait := []
  mem := []
  hist := []
  wseq := 0
  wb := []
  ktag := []
  blobs := []
  nextBlob := 0
  stores := []
  nextStore := 0
  sram := []
  absentLines := []
  clusters := []
  banks := []
  parts := []
  launches := []
  teams := []
  groups := []
  chans := []
  nextUid := 0
  rotation := []
  scalarIssues := []
  replies := []
  negotiated := false
  reports := []
  profiles := []
  agenda := []
  cur := none
  second := none
  waiting := []
  served := []
  now := 0
  fresh := 0
  stuck := none

end Sys2Proof.Machine
end

