-- ==== Sys2Proof/Machine/Bits.lean ====
section
/-! DEFINITION. Sparse maps, lane masks, and bit helpers that the meanings share. -/

namespace Sys2Proof.Machine

/-- The member at a key. -/
def SMap.find {α : Type} : SMap α → Nat → Option α
  | [], _ => none
  | (k, v) :: m, a => if k = a then some v else SMap.find m a

/-- The member at a key, or the default. -/
def SMap.getD {α : Type} (m : SMap α) (a : Nat) (d : α) : α := (SMap.find m a).getD d

/-- Put a member at a key, keeping the keys in order. -/
def SMap.put {α : Type} : SMap α → Nat → α → SMap α
  | [], a, x => [(a, x)]
  | (k, v) :: m, a, x =>
    if a < k then (a, x) :: (k, v) :: m else if a = k then (a, x) :: m else (k, v) :: SMap.put m a x

/-- Remove a key. -/
def SMap.erase {α : Type} : SMap α → Nat → SMap α
  | [], _ => []
  | (k, v) :: m, a => if k = a then SMap.erase m a else (k, v) :: SMap.erase m a

/-- Write a member, listing nothing that equals the default. -/
def SMap.set {α : Type} [DecidableEq α] (d : α) (m : SMap α) (a : Nat) (x : α) : SMap α :=
  if x = d then SMap.erase m a else SMap.put m a x

/-- Change the member at a key, if there is one. -/
def SMap.upd {α : Type} (m : SMap α) (a : Nat) (f : α → α) : SMap α :=
  match SMap.find m a with
  | some x => SMap.put m a (f x)
  | none => m

/-- Change the member at a key, starting from the default. -/
def SMap.updD {α : Type} (m : SMap α) (a : Nat) (d : α) (f : α → α) : SMap α :=
  SMap.put m a (f (SMap.getD m a d))

/-- The keys. -/
def SMap.keys {α : Type} (m : SMap α) : List Nat := m.map (·.1)

/-- The members. -/
def SMap.vals {α : Type} (m : SMap α) : List α := m.map (·.2)

/-- The numbers 0 to n - 1, in ascending order. -/
def upTo : Nat → List Nat
  | 0 => []
  | n + 1 => upTo n ++ [n]

/-- The numbers a to a + n - 1, in ascending order. -/
def span : Nat → Nat → List Nat
  | _, 0 => []
  | a, n + 1 => a :: span (a + 1) n

/-- The lane numbers 0 to 31. -/
def lanes32 : List Nat := span 0 32

/-- The lanes of a mask, ascending. -/
def Mask.lanes (m : Mask) : List Nat := lanes32.filter fun l => m.getLsbD l

/-- The mask of the lanes that meet a test. -/
def Mask.ofPred (f : Nat → Bool) : Mask :=
  lanes32.foldl (fun m l => if f l then m ||| (1#32 <<< l) else m) 0#32

/-- The lowest lane of a mask. -/
def Mask.lowest (m : Mask) : Option Nat := lanes32.find? fun l => m.getLsbD l

/-- The number of lanes of a mask. -/
def Mask.count (m : Mask) : Nat := (Mask.lanes m).length

/-- Write element `i` of a list. -/
def setAt {α : Type} : List α → Nat → α → List α
  | [], _, _ => []
  | _ :: xs, 0, y => y :: xs
  | x :: xs, i + 1, y => x :: setAt xs i y

/-- Element `i` of a list, or the default. -/
def atD {α : Type} : List α → Nat → α → α
  | [], _, d => d
  | x :: _, 0, _ => x
  | _ :: xs, i + 1, d => atD xs i d

/-- The sum of some numbers. -/
def sumN : List Nat → Nat
  | [] => 0
  | x :: xs => x + sumN xs

/-- Change each lane by its number. -/
def mapLanes (f : Nat → Lane → Lane) : Nat → List Lane → List Lane
  | _, [] => []
  | i, x :: xs => f i x :: mapLanes f (i + 1) xs

/-- The predicate with one member written. -/
def setBit (p : BitVec 96) (i : Nat) (b : Bool) : BitVec 96 :=
  if i = 0 then p else if b then p ||| (1#96 <<< i) else p &&& ~~~(1#96 <<< i)

/-- 32 bits extended to 64, with sign or zeros. -/
def ext64 (signed : Bool) (w : Word) : DWord := if signed then w.signExtend 64 else w.setWidth 64

/-- A pair as a 64-bit value, the low half in the even register (R134). -/
def pairOf (lo hi : Word) : DWord := hi ++ lo

/-- The halves of a 64-bit value. -/
def loW (d : DWord) : Word := d.extractLsb' 0 32
def hiW (d : DWord) : Word := d.extractLsb' 32 32

/-- A count as a register value. -/
def wordOf (n : Nat) : Word := BitVec.ofNat 32 n
def dwordOf (n : Nat) : DWord := BitVec.ofNat 64 n

/-- Insert into a list sorted by a number, ascending. -/
def insertBy {α : Type} (f : α → Nat) (x : α) : List α → List α
  | [] => [x]
  | y :: ys => if f x < f y then x :: y :: ys else y :: insertBy f x ys

/-- Sort by a number, ascending; equal numbers keep their order. -/
def sortBy {α : Type} (f : α → Nat) : List α → List α
  | [] => []
  | x :: xs => insertByLeft x (sortBy f xs)
where
  insertByLeft (x : α) : List α → List α
    | [] => [x]
    | y :: ys => if f x ≤ f y then x :: y :: ys else y :: insertByLeft x ys

/-- The first member with the least number. -/
def minBy {α : Type} (f : α → Nat) : List α → Option α
  | [] => none
  | x :: xs =>
    match minBy f xs with
    | none => some x
    | some y => if f x ≤ f y then some x else some y

/-- Members without repeats, in order of their last place. -/
def dedup {α : Type} [DecidableEq α] : List α → List α
  | [] => []
  | x :: xs => if x ∈ xs then dedup xs else x :: dedup xs

/-- Least and greatest whole numbers of an integer type (R112). -/
def Ty.intMin : Ty → Int
  | .s8 => -(2 : Int) ^ 7
  | .s16 => -(2 : Int) ^ 15
  | .s32 => -(2 : Int) ^ 31
  | .s64 => -(2 : Int) ^ 63
  | _ => 0

def Ty.intMax : Ty → Int
  | .s8 => (2 : Int) ^ 7 - 1
  | .s16 => (2 : Int) ^ 15 - 1
  | .s32 => (2 : Int) ^ 31 - 1
  | .s64 => (2 : Int) ^ 63 - 1
  | .z8 => (2 : Int) ^ 8 - 1
  | .z16 => (2 : Int) ^ 16 - 1
  | .z32 => (2 : Int) ^ 32 - 1
  | .z64 => (2 : Int) ^ 64 - 1
  | _ => 0

/-- A type whose integers carry a sign (R112). -/
def Ty.signed : Ty → Bool
  | .s8 | .s16 | .s32 | .s64 => true
  | _ => false

/-- The nearest number of a type's range (R112). -/
def clampTy (t : Sys2Proof.Ty) (x : Int) : Int :=
  if x < Ty.intMin t then Ty.intMin t else if x > Ty.intMax t then Ty.intMax t else x

/-- A 32-bit or 64-bit pattern read as an integer of a type. -/
def intOf {n : Nat} (t : Sys2Proof.Ty) (w : BitVec n) : Int := if Ty.signed t then w.toInt else (w.toNat : Int)

/-- The code of a class, a service state, a mode and so on, where a register reports it. -/
def Svc.code : Svc → Nat
  | .boot => 0 | .reduced => 1 | .test => 2 | .normal => 3 | .recovery => 4

def Bias.code : Bias → Nat
  | .fbb => 0 | .zbb => 1 | .rbb1 => 2 | .rbb2 => 3 | .off => 4

def Bias.ofCode : Nat → Option Bias
  | 0 => some .fbb | 1 => some .zbb | 2 => some .rbb1 | 3 => some .rbb2 | 4 => some .off | _ => none

/-- Clock of a bias state in MHz (R369). -/
def Bias.mhz : Bias → Nat
  | .fbb => 2300 | .zbb => 2050 | .rbb1 => 1600 | .rbb2 => 1000 | .off => 0

def Pwr.code : Pwr → Nat
  | .on => 0 | .nap => 1 | .retain => 2 | .deep => 3

def PState.code : PState → Nat
  | .running => 0 | .stopping => 1 | .saved => 2 | .resuming => 3 | .shadow => 4

/-- Cause codes (Table 17-3). -/
def Cause.code : Cause → Nat
  | .pageFault => 1 | .protection => 2 | .illegalOpcode => 3 | .illegalOperand => 4 | .regRange => 5 | .fetchAlign => 6
  | .badWindow => 7 | .apertureAccess => 8 | .misaligned => 9 | .spaceForeign => 10 | .privateRange => 11
  | .groupDiverged => 12 | .gangMismatch => 13 | .gangExit => 14 | .gangMask => 15 | .matrixAddr => 16 | .tpbDesc => 17
  | .hgDesc => 18 | .hgStageFull => 19 | .chanTarget => 20 | .chanOversize => 21 | .mboxTarget => 22 | .engineCmd => 23
  | .evDesc => 24 | .wanyEmpty => 25 | .barScope => 26 | .regionState => 27 | .xretState => 28 | .queueReg => 29
  | .queueClass => 30 | .trap => 31 | .memError => 32 | .engineFault => 33 | .engineError => 34 | .scratchRange => 35
  | .noRegion => 36 | .retentionLost => 37 | .launchReject => 38 | .imageBad => 39

/-- Classes of cause (Table 17-3). -/
def Cause.cls : Cause → FClass
  | .pageFault | .engineFault => .replay
  | .noRegion | .retentionLost | .imageBad => .done
  | .engineError | .scratchRange | .launchReject => .note
  | _ => .stop

end Sys2Proof.Machine
end

