-- ==== Sys2Proof/Machine/Fp.lean ====
section
/-! DEFINITION. Number formats and their arithmetic (chapter 05): values as exact dyadic numbers, one rounding, the
accumulator, DS8, E8M0 and Philox. -/

namespace Sys2Proof.Machine

/-- A floating-point format (Table 5-1): widths of exponent and fraction, bias, and whether it is E4M3, which has no
infinity. -/
structure FFmt where
  eb : Nat
  fb : Nat
  bias : Int
  e4m3 : Bool
  deriving DecidableEq, Repr

def fmtF32 : FFmt := ⟨8, 23, 127, false⟩
def fmtF16 : FFmt := ⟨5, 10, 15, false⟩
def fmtBf16 : FFmt := ⟨8, 7, 127, false⟩
def fmtE4m3 : FFmt := ⟨4, 3, 7, true⟩
def fmtE5m2 : FFmt := ⟨5, 2, 15, false⟩
/-- The 40-bit accumulator (R121). -/
def fmtAcc : FFmt := ⟨8, 31, 127, false⟩

/-- The format of a float type; FP32 for any other. -/
def fmtOf : Sys2Proof.Ty → FFmt
  | .f16 => fmtF16
  | .bf16 => fmtBf16
  | .e4m3 => fmtE4m3
  | .e5m2 => fmtE5m2
  | _ => fmtF32

/-- A value: NaN, an infinity, or (-1)^neg × m × 2^e. -/
inductive FVal where
  | nan
  | inf (neg : Bool)
  | fin (neg : Bool) (m : Nat) (e : Int)
  deriving DecidableEq, Repr

/-- The magnitude code above the largest finite value (R109). -/
def FFmt.overCode (f : FFmt) : Nat := if f.e4m3 then 0x7F else (2 ^ f.eb - 1) * 2 ^ f.fb

/-- The sign bit's weight. -/
def FFmt.signBit (f : FFmt) : Nat := 2 ^ (f.eb + f.fb)

/-- The canonical NaN (R110, Table 5-1). -/
def FFmt.nanCode (f : FFmt) : Nat := if f.e4m3 then 0x7F else (2 ^ f.eb - 1) * 2 ^ f.fb + 2 ^ (f.fb - 1)

/-- Exponent of the last place of a subnormal. -/
def FFmt.qmin (f : FFmt) : Int := 1 - f.bias - f.fb

/-- The value of a pattern (R109). -/
def decodeF (f : FFmt) (w : Nat) : FVal :=
  let neg := w / f.signBit % 2 == 1
  let mag := w % f.signBit
  let ex := mag / 2 ^ f.fb
  let fr := mag % 2 ^ f.fb
  if f.e4m3 && mag == 0x7F then .nan
  else if !f.e4m3 && ex == 2 ^ f.eb - 1 then (if fr == 0 then .inf neg else .nan)
  else if ex == 0 then .fin neg fr f.qmin
  else .fin neg (2 ^ f.fb + fr) (f.qmin + (ex - 1 : Nat))

/-- A subnormal pattern (R111). -/
def isSubnormal (f : FFmt) (w : Nat) : Bool :=
  let mag := w % f.signBit
  mag != 0 && mag / 2 ^ f.fb == 0

/-- Flush to zero, keeping the sign, when asked (R111). -/
def flush (f : FFmt) (ftz : Bool) (w : Nat) : Nat :=
  if ftz && isSubnormal f w then w / f.signBit % 2 * f.signBit else w

/-- Rounding direction for a magnitude (R118): rounding away happens never, always, or to nearest even. -/
def roundsAway (rm : RMode) (neg odd : Bool) (rem half : Nat) : Bool :=
  match rm with
  | .rne => rem > half || (rem == half && odd)
  | .rtz => false
  | .rpi => !neg && rem > 0
  | .rni => neg && rem > 0

/-- Exponent of the last place of a format at a magnitude m × 2^e, m not zero. -/
def FFmt.quantum (f : FFmt) (m : Nat) (e : Int) : Int :=
  let q := (Nat.log2 m : Int) + e - f.fb
  if q < f.qmin then f.qmin else q

/-- The magnitude code of `mant` units of 2^q. -/
def FFmt.magCode (f : FFmt) (mant : Nat) (q : Int) : Nat :=
  if mant < 2 ^ f.fb then mant else (q - f.qmin + 1).toNat * 2 ^ f.fb + (mant - 2 ^ f.fb)

/-- The magnitude code of m × 2^e rounded as if the exponent were unbounded (R118, R119). -/
def roundMag (f : FFmt) (rm : RMode) (neg : Bool) (m : Nat) (e : Int) : Nat :=
  if m = 0 then 0
  else
    let q := f.quantum m e
    if q ≤ e then f.magCode (m * 2 ^ (e - q).toNat) q
    else
      let s := (q - e).toNat
      let t := m / 2 ^ s
      let r := m % 2 ^ s
      let t' := if roundsAway rm neg (t % 2 == 1) (2 * r) (2 ^ s) then t + 1 else t
      f.magCode t' q

/-- Sign and magnitude together. -/
def signed (f : FFmt) (neg : Bool) (mag : Nat) : Nat := if neg then f.signBit + mag else mag

/-- The result for an infinite value (Table 5-4). -/
def infCode (f : FFmt) (sat inf neg : Bool) : Nat :=
  if f.e4m3 then (if inf then 0x7F else signed f neg 0x7E)
  else if sat then signed f neg (f.overCode - 1)
  else signed f neg f.overCode

/-- The result for a rounded magnitude above the largest finite value (R118, R119). -/
def overflowCode (f : FFmt) (rm : RMode) (sat inf neg : Bool) : Nat :=
  if f.e4m3 || sat then infCode f sat inf neg
  else
    match rm with
    | .rne => signed f neg f.overCode
    | .rtz => signed f neg (f.overCode - 1)
    | .rpi => signed f neg (if neg then f.overCode - 1 else f.overCode)
    | .rni => signed f neg (if neg then f.overCode else f.overCode - 1)

/-- An exact value rounded once into a format, with .sat and .inf (R118, R119). -/
def roundF (f : FFmt) (rm : RMode) (sat inf : Bool) : FVal → Nat
  | .nan => f.nanCode
  | .inf neg => infCode f sat inf neg
  | .fin neg m e =>
    let mag := roundMag f rm neg m e
    if mag < f.overCode then signed f neg mag else overflowCode f rm sat inf neg

/-- Stochastic rounding of an exact value with the random word `w` (R128). -/
def roundSr (f : FFmt) (sat inf : Bool) (w : Nat) : FVal → Nat
  | .nan => f.nanCode
  | .inf neg => infCode f false inf neg
  | .fin neg m e =>
    let mag :=
      if m = 0 then 0
      else
        let q := f.quantum m e
        if q ≤ e then f.magCode (m * 2 ^ (e - q).toNat) q
        else
          let s := (q - e).toNat
          let d := m % 2 ^ s * 2 ^ 32 / 2 ^ s
          f.magCode (if w < d then m / 2 ^ s + 1 else m / 2 ^ s) q
    if mag < f.overCode then signed f neg mag else overflowCode f .rne sat inf neg

/-- An exact number n × 2^e. -/
structure Dy where
  n : Int
  e : Int
  deriving DecidableEq, Repr

/-- Exact sum. -/
def Dy.add (a b : Dy) : Dy :=
  if a.e ≤ b.e then ⟨a.n + b.n * 2 ^ (b.e - a.e).toNat, a.e⟩ else ⟨a.n * 2 ^ (a.e - b.e).toNat + b.n, b.e⟩

/-- A finite value as an exact number. -/
def FVal.dy : FVal → Dy
  | .fin neg m e => ⟨if neg then -(m : Int) else m, e⟩
  | _ => ⟨0, 0⟩

def FVal.isNan : FVal → Bool
  | .nan => true
  | _ => false

def FVal.isInf (x : FVal) (neg : Bool) : Bool := x == .inf neg

def FVal.isNegZero : FVal → Bool
  | .fin neg m _ => neg && m == 0
  | _ => false

def FVal.neg : FVal → FVal
  | .nan => .nan
  | .inf s => .inf (!s)
  | .fin s m e => .fin (!s) m e

/-- Exact product; ∞ × 0 is NaN (R185). -/
def FVal.mul : FVal → FVal → FVal
  | .nan, _ => .nan
  | _, .nan => .nan
  | .inf a, .inf b => .inf (a != b)
  | .inf a, .fin b m _ => if m = 0 then .nan else .inf (a != b)
  | .fin a m _, .inf b => if m = 0 then .nan else .inf (a != b)
  | .fin a m e, .fin b n g => .fin (a != b) (m * n) (e + g)

/-- Exact sum of several values: NaN and infinities by R124, a zero sum's sign by R123. -/
def sumF (xs : List FVal) : FVal :=
  if xs.any FVal.isNan || (xs.any (FVal.isInf · true) && xs.any (FVal.isInf · false)) then .nan
  else if xs.any (FVal.isInf · true) then .inf true
  else if xs.any (FVal.isInf · false) then .inf false
  else
    let t := (xs.map FVal.dy).foldl Dy.add ⟨0, 0⟩
    if t.n = 0 then .fin (xs.all FVal.isNegZero) 0 0 else .fin (t.n < 0) t.n.natAbs t.e

/-- A whole number as a value. -/
def FVal.ofInt (x : Int) : FVal := .fin (x < 0) x.natAbs 0

/-- A value rounded to a whole number; none for NaN and infinities (R120, R187). -/
def roundInt (rm : RMode) (neg : Bool) (m : Nat) (e : Int) : Int :=
  let mag :=
    if 0 ≤ e then m * 2 ^ e.toNat
    else
      let s := (-e).toNat
      let t := m / 2 ^ s
      if roundsAway rm neg (t % 2 == 1) (2 * (m % 2 ^ s)) (2 ^ s) then t + 1 else t
  if neg then -(mag : Int) else mag

/-- Float to integer, saturating; NaN gives 0 (R120). -/
def floatToInt (t : Sys2Proof.Ty) (rm : RMode) : FVal → Int
  | .nan => 0
  | .inf neg => if neg then Ty.intMin t else Ty.intMax t
  | .fin neg m e => clampTy t (roundInt rm neg m e)

/-- a < b, with −0 equal to +0; false where either is NaN. -/
def FVal.lt : FVal → FVal → Bool
  | .nan, _ => false
  | _, .nan => false
  | .inf a, .inf b => a && !b
  | .inf a, .fin .. => a
  | .fin .., .inf b => !b
  | a, b => (a.dy.add ⟨-b.dy.n, b.dy.e⟩).n < 0

/-- a = b, with −0 equal to +0; false where either is NaN. -/
def FVal.eqv : FVal → FVal → Bool
  | .nan, _ => false
  | _, .nan => false
  | .inf a, .inf b => a == b
  | .inf _, .fin .. => false
  | .fin .., .inf _ => false
  | a, b => (a.dy.add ⟨-b.dy.n, b.dy.e⟩).n == 0

/-- The sign of a value that is not NaN. -/
def FVal.sign : FVal → Bool
  | .nan => false
  | .inf s => s
  | .fin s _ _ => s

/-- −0 below +0, otherwise by value (R186). -/
def FVal.below (a b : FVal) : Bool := a.lt b || (a.eqv b && a.sign && !b.sign)

/-- `fmin` and `fmax` on patterns of one format (R186). -/
def minMaxF (f : FFmt) (isMax : Bool) (a b : Nat) : Nat :=
  let x := decodeF f a
  let y := decodeF f b
  if x.isNan && y.isNan then f.nanCode
  else if x.isNan then b
  else if y.isNan then a
  else if isMax then (if x.below y then b else a) else (if y.below x then b else a)

/-- Conversion between formats, with rounding, .ftz, .sat and .inf (R119, R195). -/
def cvtF (dst src : FFmt) (rm : RMode) (ftz sat inf : Bool) (w : Nat) : Nat :=
  let a := flush src ftz w
  if dst = src then (if (decodeF src a).isNan then dst.nanCode else a)
  else flush dst ftz (roundF dst rm sat inf (decodeF src a))

/-- Philox4x32-10, the first word of its output (R127). -/
def philoxRound (c0 c1 c2 c3 k0 k1 : Word) : Nat → Word
  | 0 => c0
  | n + 1 =>
    let p0 := 0xD2511F53 * c0.toNat
    let p1 := 0xCD9E8D57 * c2.toNat
    philoxRound (wordOf (p1 / 2 ^ 32) ^^^ c1 ^^^ k0) (wordOf p1) (wordOf (p0 / 2 ^ 32) ^^^ c3 ^^^ k1) (wordOf p0)
      (k0 + 0x9E3779B9#32) (k1 + 0xBB67AE85#32) n

def philox (c0 c1 c2 c3 k0 k1 : Word) : Word := philoxRound c0 c1 c2 c3 k0 k1 10

/-- One term of a DS8 weight, in units of 2^-6 (R114). -/
def ds8Term (s : Bool) (e : Nat) : Int :=
  if e ≥ 7 then 0 else if s then -(2 : Int) ^ (6 - e) else (2 : Int) ^ (6 - e)

/-- A DS8 weight in units of 2^-6 (R114). -/
def ds8Units (w : Nat) : Int :=
  ds8Term (w / 128 % 2 == 1) (w / 16 % 8) + ds8Term (w / 8 % 2 == 1) (w % 8)

/-- A DS8 weight as a value; a zero weight is +0 (R114). -/
def ds8Val (w : Nat) : FVal := .fin (ds8Units w < 0) (ds8Units w).natAbs (-6)

/-- A DS8 weight times an activation (R114): a zero weight gives +0 whatever a finite activation's sign. -/
def ds8Mul (w : Nat) (b : FVal) : FVal :=
  match ds8Val w, b with
  | .fin _ 0 _, .fin .. => .fin false 0 0
  | a, b => a.mul b

/-- Nonzero terms of an encoding (R115). -/
def ds8Terms (w : Nat) : Nat := (if w / 16 % 8 = 7 then 0 else 1) + (if w % 8 = 7 then 0 else 1)

/-- An encoding whose zero terms carry sign 0 (R115). -/
def ds8Tidy (w : Nat) : Bool := !(w / 16 % 8 == 7 && w / 128 % 2 == 1) && !(w % 8 == 7 && w / 8 % 2 == 1)

/-- The canonical encoding of a sum, in units of 2^-6: fewest nonzero terms, then smallest e1 (R115). -/
def ds8Canon (u : Int) : Nat :=
  ((minBy (fun w => ds8Terms w * 8 + w / 16 % 8) ((upTo 256).filter fun w => ds8Tidy w && ds8Units w == u))).getD 0x77

/-- The canonical encodings, one for each value (R115). -/
def ds8Canons : List Nat := (upTo 256).filter fun w => ds8Canon (ds8Units w) == w

/-- Conversion into DS8 (R115): x is the FP32 value, E the scale byte. -/
def ds8Enc (x : FVal) (scale : Nat) : Nat :=
  match x with
  | .nan => 0x77
  | .inf neg => if scale = 0xFF then 0x77 else if neg then 0x88 else 0x00
  | .fin neg m e =>
    if scale = 0xFF then 0x77
    else
      let v : Dy := ⟨if neg then -(m : Int) else m, e - ((scale : Int) - 127)⟩
      let two : Dy := ⟨2, 0⟩
      if (two.add ⟨-v.n.natAbs, v.e⟩).n < 0 then (if neg then 0x88 else 0x00)
      else
        -- distance to each value, scaled to one exponent; ties by fewer terms, then smaller magnitude
        let g : Int := if v.e < -6 then v.e else -6
        let vn := v.n * 2 ^ (v.e - g).toNat
        let dist := fun w => ((ds8Units w * 2 ^ (-6 - g).toNat) - vn).natAbs
        (minBy (fun w => (dist w * 4 + ds8Terms w) * 512 + (ds8Units w).natAbs) ds8Canons).getD 0x77

/-- The E8M0 scale 2^(E − 127) times a value; E = 0xFF gives NaN (R113, R117). -/
def scaleE8 (x : FVal) (ex : Nat) : FVal :=
  if ex = 0xFF then .nan
  else
    match x with
    | .fin neg m e => .fin neg m (e + ((ex : Int) - 127))
    | y => y

/-- round_acc_rne (R242). -/
def roundAcc (x : FVal) : Nat := roundF fmtAcc .rne false false x

/-- An accumulator element as a value (R121). -/
def accVal (w : BitVec 40) : FVal := decodeF fmtAcc w.toNat

/-- An FP32 pattern as an accumulator element, guard bits zero (R121). -/
def accOfF32 (w : Nat) : BitVec 40 := BitVec.ofNat 40 (w * 256)

/-- One element of an `mma` under the order that %nbv selects (R126, R123, R124); `ftz` flushes at each step. -/
def mmaElem (nbv : Nat) (ftz : Bool) (c : FVal) (ps : List FVal) : BitVec 40 :=
  let r32 := fun x => flush fmtF32 ftz (roundF fmtF32 .rne false false x)
  let step := fun (t : Nat) (q : Nat) => r32 (sumF [decodeF fmtF32 t, decodeF fmtF32 q])
  if nbv = 2 then BitVec.ofNat 40 (flush fmtAcc ftz (roundAcc (sumF (c :: ps))))
  else if nbv = 1 then
    let qs := (upTo (ps.length / 8)).map fun g => r32 (sumF ((ps.drop (8 * g)).take 8))
    accOfF32 (qs.foldl step (r32 c))
  else accOfF32 ((ps.map r32).foldl step (r32 c))

/-- Special-value classes of a pattern (Table of R189). -/
def classBit (f : FFmt) (w : Nat) : Nat :=
  let neg := w / f.signBit % 2 == 1
  match decodeF f w with
  | .nan => 8
  | .inf _ => if neg then 0 else 7
  | .fin _ 0 _ => if neg then 3 else 4
  | .fin .. => if isSubnormal f w then (if neg then 2 else 5) else (if neg then 1 else 6)

end Sys2Proof.Machine
end

