-- ==== Sys2Proof/Machine/Mem.lean ====
section
/-! DEFINITION. Global memory (bytes, keys, history), translation (chapter 18) and cluster SRAM (chapter 03). -/

namespace Sys2Proof.Machine

/-- The canonical form of memory: addresses strictly rising, and no byte equal to what an unlisted address reads as. -/
def Memory.wf : List Host.Cell → Bool
  | [] => true
  | [(_, b)] => b != 0
  | (a, b) :: (a', b') :: m => a < a' && b != 0 && Memory.wf ((a', b') :: m)

/-- A blob holds a line. -/
def Blob.holds (b : Blob) (line : Nat) : Bool := decide (b.line ≤ line) && decide (line < b.line + b.n)

/-- The image that holds a line, where the device wrote one and nothing has written the line since (log 35). -/
def State.blobOf (s : State) (line : Nat) : Option Blob := s.blobs.find? fun b => b.holds line

/-- One byte of memory as last written, whatever its key; an unlisted byte reads 0 (log 1). -/
def State.memByte (s : State) (pa : Nat) : Byte :=
  match s.blobOf (pa / 128) with
  | some b => Config.imageByte b.id pa
  | none => SMap.getD s.mem pa 0

/-- The key under which a line was last written. -/
def State.lineTag (s : State) (line : Nat) : Option Nat :=
  match s.blobOf line with
  | some b => some b.tag
  | none => SMap.find s.ktag line

/-- Bytes of HBM (R385): 384 GiB. -/
def hbmBytes : Nat := 384 * 2 ^ 30

/-- The tag of a key ID: the ID with the serial number of the key it holds (R348). -/
def State.keyTag (s : State) (id : Nat) : Nat := (SMap.getD s.keys id Key.reset).serial * 2048 + id

/-- One byte as read under a key: the byte itself where the line was written under that key, noise otherwise (R348). -/
def State.readByte (s : State) (tag pa : Nat) : Byte :=
  match s.lineTag (pa / 128) with
  | some t => if t = tag then s.memByte pa else Config.noise pa (tag * 2 ^ 64 + t)
  | none => s.memByte pa

/-- Bytes read under a key. -/
def State.readBytes (s : State) (tag pa n : Nat) : List Byte := (span pa n).map fun a => s.readByte tag a

/-- What a blob keeps outside [line, line + n). -/
def Blob.cut (line n : Nat) (b : Blob) : List Blob :=
  [{ b with n := Nat.min b.n (line - b.line) },
    { b with line := Nat.max b.line (line + n), n := b.line + b.n - Nat.max b.line (line + n) }].filter fun x => x.n ≠ 0

/-- A line of an image becomes bytes of its own, so that a write can change some of them. -/
def State.solid (s : State) (line : Nat) : State :=
  match s.blobOf line with
  | none => s
  | some b =>
    { s with
      mem := (span (line * 128) 128).foldl (fun m a => SMap.set 0 m a (Config.imageByte b.id a)) s.mem
      ktag := SMap.put s.ktag line b.tag
      blobs := s.blobs.flatMap (Blob.cut line 1) }

/-- The device writes an image of `n` lines under a key: one write of the memory order. Answers the image's number. -/
def State.putBlob (s : State) (tag line n : Nat) : State × Nat :=
  let inside := fun (k : Nat) => decide (line ≤ k) && decide (k < line + n)
  ({ s with
    mem := s.mem.filter fun x => !inside (x.1 / 128)
    ktag := s.ktag.filter fun x => !inside x.1
    blobs := ⟨line, n, tag, s.nextBlob⟩ :: s.blobs.flatMap (Blob.cut line n)
    nextBlob := s.nextBlob + 1, wseq := s.wseq + 1 }, s.nextBlob)

/-- A line still holds an image as it was written: as the blob, or as bytes of its own that equal it. -/
def State.holdsLine (s : State) (id tag k : Nat) : Bool :=
  match s.blobOf k with
  | some b => b.id == id
  | none => decide (SMap.find s.ktag k = some tag) && (span (k * 128) 128).all fun a => SMap.getD s.mem a 0 == Config.imageByte id a

/-- Lines that all still hold an image. -/
def State.holdsImage (s : State) (id tag line n : Nat) : Bool :=
  (s.blobs.any fun b => b.id == id && decide (b.line ≤ line) && decide (line + n ≤ b.line + b.n)) ||
  (span line n).all (s.holdsLine id tag)

/-- A line that was written under another key reads as noise under the new one, and that is what is written back (R348). -/
def State.retag (s : State) (tag line : Nat) : State :=
  match SMap.find s.ktag line with
  | some t =>
    if t = tag then s
    else { s with
      mem := (span (line * 128) 128).foldl (fun m a => SMap.set 0 m a (Config.noise a (tag * 2 ^ 64 + t))) s.mem
      ktag := SMap.put s.ktag line tag }
  | none => { s with ktag := SMap.put s.ktag line tag }

/-- Write one byte under a key, keeping the history. -/
def State.writeByte (s : State) (tag pa : Nat) (b : Byte) : State :=
  let s := (s.solid (pa / 128)).retag tag (pa / 128)
  { s with mem := SMap.set 0 s.mem pa b, hist := ⟨pa, s.wseq, s.memByte pa, s.now⟩ :: s.hist }

/-- Write bytes from an address on, each as `writeByte`. -/
def State.writeEach (s : State) (tag : Nat) : Nat → List Byte → State
  | _, [] => s
  | pa, b :: bs => (s.writeByte tag pa b).writeEach tag (pa + 1) bs

/-- One write event of the memory order (R90, R91). -/
def State.writeBytes (s : State) (tag pa : Nat) (bs : List Byte) : State :=
  let t := s.writeEach tag pa bs
  { t with wseq := t.wseq + 1 }

/-- Write a byte at each of a list of addresses: one write event. -/
def State.writeAt (s : State) (tag : Nat) (xs : List (Nat × Byte)) : State :=
  let t := xs.foldl (fun s x => s.writeByte tag x.1 x.2) s
  { t with wseq := t.wseq + 1 }

/-- The byte an address held at a moment of the memory order: the old value of the first later write, else the present
byte. -/
def State.byteAt (s : State) (stamp pa : Nat) : Byte :=
  s.hist.foldl (fun b h => if h.pa = pa ∧ stamp ≤ h.stamp then h.old else b) (s.memByte pa)

/-- The moments since `start` at which some byte of [pa, pa + n) changed, and the first one. -/
def State.moments (s : State) (start pa n : Nat) : List Nat :=
  start :: (dedup ((s.hist.filter fun h => pa ≤ h.pa ∧ h.pa < pa + n ∧ start ≤ h.stamp).map fun h => h.stamp + 1))

/-- Bytes as one value that [pa, pa + n) held at some moment since `start`: a free choice where there is more than one
(R99, R157). -/
def State.anyValueOf (s : State) (site idx tag start pa n : Nat) : List Byte :=
  match s.moments start pa n with
  | [_] => s.readBytes tag pa n
  | ms => (span pa n).map fun a => s.byteAt (atD ms (Config.free site s.fresh idx % ms.length) start) a

/-! Partitions, clusters, banks, launches, teams and groups by number. -/

def State.part (s : State) (p : Nat) : Part := SMap.getD s.parts p Part.reset
def State.setPart (s : State) (p : Nat) (x : Part) : State := { s with parts := SMap.put s.parts p x }
def State.cluster (s : State) (c : Nat) : Cluster := SMap.getD s.clusters c Cluster.reset
def State.setCluster (s : State) (c : Nat) (x : Cluster) : State := { s with clusters := SMap.put s.clusters c x }
def State.bank (s : State) (b : Nat) : Bank := SMap.getD s.banks b Bank.reset
def State.setBank (s : State) (b : Nat) (x : Bank) : State := { s with banks := SMap.put s.banks b x }
def State.chan (s : State) (ch : Nat) : Chan := SMap.getD s.chans ch Chan.reset
def State.setChan (s : State) (ch : Nat) (x : Chan) : State := { s with chans := SMap.put s.chans ch x }
def State.key (s : State) (k : Nat) : Key := SMap.getD s.keys k Key.reset
def State.stream (s : State) (e : Nat) : Stream := SMap.getD s.streams e Stream.reset
def State.setStream (s : State) (e : Nat) (x : Stream) : State := { s with streams := SMap.put s.streams e x }
def State.port (s : State) (p : Nat) : Port := SMap.getD s.ports p Port.reset
def State.setPort (s : State) (p : Nat) (x : Port) : State := { s with ports := SMap.put s.ports p x }
def State.slice (s : State) (p : Nat) : Slice := SMap.getD s.slices p Slice.reset
def State.group? (s : State) (gk : Nat) : Option Group := SMap.find s.groups gk
def State.team? (s : State) (t : Nat) : Option Team := SMap.find s.teams t
def State.launch? (s : State) (l : Nat) : Option Launch := SMap.find s.launches l
def State.updGroup (s : State) (gk : Nat) (f : Group → Group) : State := { s with groups := SMap.upd s.groups gk f }
def State.updTeam (s : State) (t : Nat) (f : Team → Team) : State := { s with teams := SMap.upd s.teams t f }
def State.updLaunch (s : State) (l : Nat) (f : Launch → Launch) : State := { s with launches := SMap.upd s.launches l f }

/-- The partition that owns a cluster exists (R328). -/
def State.partExists (s : State) (p : Nat) : Bool := (span 0 48).any fun c => (s.cluster c).part == p

/-- The clusters of a partition, ascending. -/
def State.clustersOf (s : State) (p : Nat) : List Nat := (span 0 48).filter fun c => (s.cluster c).part == p

/-! Translation (R343-R345, R377). -/

/-- The outcome of a translation. -/
inductive Xlate where
  | mem (pa tag : Nat)
  | remote (pkg daddr : Nat)
  | device (pa : Nat)
  | fault (c : Cause) (aux : Nat)
  deriving DecidableEq, Repr

/-- A bit field of a number. -/
def field (n lo w : Nat) : Nat := n / 2 ^ lo % 2 ^ w

/-- A malformed entry of a level (R343, R344 row 2). -/
def entryBad (level e : Nat) : Bool :=
  let leaf := field e 1 1 == 1
  (leaf && level == 3) || (!leaf && level == 1) || field e 4 2 == 3 || field e 6 10 != 0 || field e 59 5 != 0 ||
  (!leaf && (field e 2 4 != 0 || field e 48 11 != 0)) ||
  (leaf && field e 4 2 == 1 && field e 58 1 != 0) || (leaf && field e 4 2 == 2 && field e 48 11 != 0) ||
  (leaf && level == 2 && field e 16 13 != 0)

/-- The physical address a leaf gives (R343). -/
def leafAddr (big : Bool) (e va : Nat) : Nat :=
  if big then field e 29 19 * 2 ^ 29 + va % 2 ^ 29 else field e 16 32 * 2 ^ 16 + va % 2 ^ 16

/-- What a leaf grants (R344 rows 3 to 5, R377). -/
def State.leafResult (s : State) (p : Nat) (acc : Acc) (level e va : Nat) : Xlate :=
  let kind := field e 4 2
  let pa := leafAddr (level == 2) e va
  let keyId := field e 48 11
  let prot := fun r => Xlate.fault .protection (level * 256 + r)
  let keyOk :=
    match (s.key keyId).kst with
    | .assigned q => q == p
    | _ => false
  if s.svc = .reduced && kind == 1 then prot 4
  else if s.svc = .reduced && kind == 0 && (keyId != 0 || pa ≥ 2 ^ 24) then prot 5
  else if kind == 0 && s.svc ≠ .reduced && !keyOk then prot 2
  else if (acc = .write && field e 2 1 == 0) || (acc = .fetch && (field e 3 1 == 0 || kind != 0)) then prot 3
  else if kind == 0 then .mem pa (s.keyTag keyId)
  else if kind == 1 then .remote (field e 48 10) pa
  else .device pa

/-- An 8-byte table entry read at a physical address (R344). -/
def State.readEntry (s : State) (tag pa : Nat) : Nat := leNat (s.readBytes tag pa 8)

/-- What a walk finds: the leaf's level and entry, or the outcome that ends it. -/
def State.walkLeaf (s : State) (root tag va : Nat) : Sum Xlate (Nat × Nat) :=
  let fault := fun (level r : Nat) => Xlate.fault (if r = 0 then .pageFault else .protection) (level * 256 + r)
  let e3 := s.readEntry tag (root + 8 * field va 42 13)
  if e3 % 2 = 0 then .inl (fault 3 0)
  else if entryBad 3 e3 then .inl (fault 3 1)
  else
    let e2 := s.readEntry tag (field e3 16 32 * 2 ^ 16 + 8 * field va 29 13)
    if e2 % 2 = 0 then .inl (fault 2 0)
    else if entryBad 2 e2 then .inl (fault 2 1)
    else if field e2 1 1 = 1 then .inr (2, e2)
    else
      let e1 := s.readEntry tag (field e2 16 32 * 2 ^ 16 + 8 * field va 16 13)
      if e1 % 2 = 0 then .inl (fault 1 0)
      else if entryBad 1 e1 then .inl (fault 1 1)
      else .inr (1, e1)

/-- A page walk of a partition (R344). -/
def State.walk (s : State) (p : Nat) (acc : Acc) (va : Nat) : Xlate :=
  let pt := s.part p
  match s.walkLeaf (pt.ptBase.toNat) (s.keyTag pt.ptKey) va with
  | .inl x => x
  | .inr (level, e) => s.leafResult p acc level e va

/-- The page number of an address. -/
def pageOf (big : Bool) (va : Nat) : Nat := if big then va / 2 ^ 29 else va / 2 ^ 16

/-- Who translates: core `a` for `a` below 384, else an agent of die `a` - 384 without a core. -/
def agentDie (a : Nat) : Nat := if a < 384 then a / 192 else a - 384

/-- An entry of a TLB translates an address of a partition. -/
def Tlb.covers (t : Tlb) (p va : Nat) : Bool := t.part == p && t.page == pageOf t.big va

/-- Cached leaves of an address: in the core's L1 TLB and in the die's last-level TLB (R346). -/
def State.tlbHits (s : State) (p agent va : Nat) : List Tlb :=
  (SMap.getD s.tlb1 agent [] ++ SMap.getD s.tlb2 (agentDie agent) []).filter fun t => t.covers p va

/-- A cached L3 or L2 entry of an address, where the die's walk cache holds one. -/
def State.walkHit (s : State) (p die level va : Nat) : Option Nat :=
  ((SMap.getD s.walkCache die []).find? fun x =>
    x.part == p && x.level == level && x.pre == va / 2 ^ (if level = 3 then 42 else 29)).map fun x => x.entry.toNat

/-- The leaf that a walk reaches from a non-leaf entry of L2. -/
def State.leafUnder (s : State) (tag e2 va : Nat) : Option (Nat × Nat) :=
  let e1 := s.readEntry tag (field e2 16 32 * 2 ^ 16 + 8 * field va 16 13)
  if e1 % 2 = 0 ∨ entryBad 1 e1 = true then none else some (1, e1)

/-- The leaves that walks through the walk cache of a die reach, in place of what the tables now hold (R345, R346). -/
def State.cachedWalks (s : State) (p die va : Nat) : List (Nat × Nat) :=
  let tag := s.keyTag (s.part p).ptKey
  let from2 := fun (e2 : Nat) =>
    if e2 % 2 = 0 ∨ entryBad 2 e2 = true then none
    else if field e2 1 1 = 1 then some (2, e2) else s.leafUnder tag e2 va
  ((s.walkHit p die 2 va).bind (s.leafUnder tag · va)).toList ++
  ((s.walkHit p die 3 va).bind fun e3 => from2 (s.readEntry tag (field e3 16 32 * 2 ^ 16 + 8 * field va 29 13))).toList

/-- A translation of a partition's address (R344, R345): what the tables now give, or what a cached entry still gives, a free
choice where they differ. -/
def State.translate (s : State) (p agent : Nat) (acc : Acc) (va : Nat) : Xlate :=
  let w := s.walk p acc va
  let old := ((s.tlbHits p agent va).map fun t => s.leafResult p acc (if t.big then 2 else 1) t.entry.toNat va) ++
    ((s.cachedWalks p (agentDie agent) va).map fun x => s.leafResult p acc x.1 x.2 va)
  match old.filter fun o => decide (o ≠ w) with
  | [] => w
  | os => atD (w :: os) (Config.free 1 s.fresh va % (os.length + 1)) w

/-- A TLB of `n` entries takes one more: in place of the entry of the same page, or of one chosen freely where it is full (R346). -/
def tlbPut (fresh n : Nat) (t : Tlb) (ts : List Tlb) : List Tlb :=
  let os := ts.filter fun x => !(x.part == t.part && x.big == t.big && x.page == t.page)
  if os.length < n then os ++ [t] else setAt os (Config.free 27 fresh n % Nat.max 1 os.length) t

/-- The L1 TLB of a core takes an entry: 64 of them (R346). -/
def State.fillL1 (s : State) (core : Nat) (t : Tlb) : State :=
  { s with tlb1 := SMap.updD s.tlb1 core [] (tlbPut s.fresh 64 t) }

/-- The last-level TLB of a die takes an entry: 4,096 of them (R346). -/
def State.fillL2 (s : State) (die : Nat) (t : Tlb) : State :=
  { s with tlb2 := SMap.updD s.tlb2 die [] (tlbPut s.fresh 4096 t) }

/-- Walks that run on a die. -/
def State.walksOn (s : State) (die : Nat) : Nat := (s.walks.filter fun w => w.die == die && w.running).length

/-- A miss joins a walk of its page on its die, or begins one, which runs where fewer than 256 do (R346). -/
def State.miss (s : State) (die p va agent : Nat) (classH : Bool) : State :=
  let mine := fun (w : Walk) => w.die == die && w.part == p && w.page == va / 2 ^ 16
  if s.walks.any mine then
    { s with walks := s.walks.map fun w =>
        if mine w then
          { w with cores := if w.cores.contains agent then w.cores else w.cores ++ [agent], classH := w.classH && classH }
        else w }
  else { s with walks := s.walks ++ [⟨die, p, va / 2 ^ 16, classH, [agent], decide (s.walksOn die < 256)⟩] }

/-- An access of a page by an agent: a miss in the L1 TLB of a core takes the entry of the die's last-level TLB, and one that misses
there too waits for a walk (R346). -/
def State.noteXlate (s : State) (p agent : Nat) (classH : Bool) (va : Nat) : State :=
  let die := agentDie agent
  if agent < 384 ∧ ((SMap.getD s.tlb1 agent []).any fun t => t.covers p va) = true then s
  else
    match (SMap.getD s.tlb2 die []).find? fun t => t.covers p va with
    | some t => if agent < 384 then s.fillL1 agent t else s
    | none => s.miss die p va agent classH

/-! Requests to the L2 homes (R11-R13, R283, R354). -/

/-- Ask for lines of memory, or write them. -/
def State.askHome (s : State) (r : HomeReq) : State :=
  if r.n = 0 then s else { s with homeReqs := s.homeReqs ++ [{ r with at_ := s.wseq }] }

/-- The home slice of a line and the stack behind it (R354). -/
def homeSlice (pa : Nat) : Nat :=
  Nat.xor (Nat.xor (Nat.xor (field pa 7 7) (field pa 14 7)) (Nat.xor (field pa 21 7) (field pa 28 7)))
    (Nat.xor (field pa 35 7) (field pa 42 6))

def homeSet (pa : Nat) : Nat := field pa 14 10

/-- The distinct lines of bytes [pa, pa + n). -/
def linesIn (pa n : Nat) : List Nat := span (pa / 128) ((pa + Nat.max 1 n - 1) / 128 + 1 - pa / 128)

def homeStack (pa : Nat) : Nat := 4 * (homeSlice pa / 64) + Nat.xor (field pa 8 2) (field pa 15 2)

/-- An access to a line behind a stack that is mapped out (R378). -/
def State.stackFails (s : State) (pa : Nat) : Bool := s.svc = .recovery && s.hbmFail.getLsbD (homeStack pa)

/-- Note an access to a physical address that holds no memory. -/
def State.needMem (s : State) (pa : Nat) : State :=
  if pa < hbmBytes || s.stuck.isSome then s else { s with stuck := some pa }

/-! Cluster SRAM (R58, R66, R67). A byte's key is its bank's number × 131,072 + its offset; a line's key is its first
byte's ÷ 128. Bank b of cluster c is number 64 × c + b. -/

def bankBytes : Nat := 131072

/-- The bytes of a team's scratchpad list (R58). -/
def Team.scratchBytes (t : Team) : Nat := (t.banks.length + t.ctxBanks.length) * bankBytes

/-- The banks of a team's list, in order: those appended later come after the context's (R58, R63, R87). -/
def Team.bankList (t : Team) : List Nat := t.banks.take t.ctxAt ++ (t.ctxBanks ++ t.banks.drop t.ctxAt)

/-- The SRAM byte that a scratchpad offset names (R58). -/
def Team.sramKey (t : Team) (off : Nat) : Nat :=
  atD t.bankList (off / bankBytes) 0 * bankBytes + off % bankBytes

def State.sramByte (s : State) (k : Nat) : Byte := SMap.getD s.sram k 0

def State.setSram (s : State) (k : Nat) (b : Byte) : State := { s with sram := SMap.set 0 s.sram k b }

/-- Read bytes of a team's scratchpad. -/
def State.readScratch (s : State) (t : Team) (off n : Nat) : List Byte :=
  (span off n).map fun o => s.sramByte (t.sramKey o)

/-- Write bytes of a team's scratchpad. -/
def State.writeScratch (s : State) (t : Team) : Nat → List Byte → State
  | _, [] => s
  | off, b :: bs => (s.setSram (t.sramKey off) b).writeScratch t (off + 1) bs

/-- The lines of a team's scratchpad that an access touches. -/
def Team.linesOf (t : Team) (off n : Nat) : List Nat := dedup ((span off n).map fun o => t.sramKey o / 128)

/-- The banks that an access touches. -/
def Team.banksOf (t : Team) (off n : Nat) : List Nat := dedup ((span off n).map fun o => t.sramKey o / bankBytes)

/-- Clear a bank to zeros, with every line present (R63, R65, R67). -/
def State.clearBank (s : State) (b : Nat) : State :=
  { s with
    sram := s.sram.filter fun x => x.1 / bankBytes ≠ b
    absentLines := s.absentLines.filter fun x => x.1 / 1024 ≠ b }

end Sys2Proof.Machine
end

