-- ==== Sys2Proof/Machine/Ops.lean ====
section
/-! DEFINITION. The operations that the meanings share: who issues, lane registers with their lookahead windows, moving on,
paths and the instruction-buffer pool, and the taking of a fault or trap with the responses that end it. -/

namespace Sys2Proof.Machine

/-! Lanes and groups. -/

def Group.lane (g : Group) (l : Nat) : Lane := atD g.lanes l Lane.reset

/-- A live lane: ON_PATH, HELD, WAIT_REJOIN or WAIT_SYNC (R36). -/
def Lane.live (ln : Lane) : Bool :=
  match ln.lst with
  | .absent | .exited => false
  | _ => true

/-- A live lane that is not HELD, and so belongs to the path of its program counter (R27). -/
def Lane.onSome (ln : Lane) : Bool := ln.live && ln.lst ≠ .held

/-- A lane that can issue with its path (R36, R255). -/
def Lane.ready (ln : Lane) : Bool := ln.lst = .onPath && ln.wait = .none

def Group.live (g : Group) : Mask := Mask.ofPred fun l => (g.lane l).live

/-- Real lanes: neither helper nor absent (R24). -/
def Group.real (g : Group) : Mask := Mask.ofPred fun l => !(g.lane l).helper && (g.lane l).lst ≠ .absent

def Group.updLanes (g : Group) (f : Nat → Lane → Lane) : Group := { g with lanes := mapLanes f 0 g.lanes }

/-! Who issues. -/

/-- What an instruction's meaning sees of the path that issues it. -/
structure Ctx where
  gk : Nat
  path : Mask
  alone : Bool
  view : List Lane
  /-- The address of the instruction. -/
  ipc : DWord
  g : Group
  tuid : Nat
  t : Team
  l : Launch
  /-- The results pending before this instruction have numbers below this one. -/
  n0 : Nat
  deriving DecidableEq, Repr

/-- The issuing path, with its group, team and launch. -/
def State.ctx? (s : State) : Option Ctx :=
  match s.cur with
  | none => none
  | some cu =>
    match s.group? cu.gk with
    | none => none
    | some g =>
      match s.team? (cu.gk / 32) with
      | none => none
      | some t =>
        match s.launch? t.launch with
        | none => none
        | some l => some ⟨cu.gk, cu.path, cu.alone, cu.view,
              if cu.alone then cu.apc else (g.lane ((Mask.lowest cu.path).getD 0)).pc, g, cu.gk / 32, t, l, g.nextPend⟩

/-- Group number within the team. -/
def Ctx.gnum (c : Ctx) : Nat := c.gk % 32
/-- Cluster 0 to 47 of the issuing core, and its die. -/
def Ctx.cl (c : Ctx) : Nat := c.t.core / 8
def Ctx.die (c : Ctx) : Nat := c.t.core / 192
def Ctx.part (c : Ctx) : Nat := c.l.part

/-- The channel that a team's ch K or tl K names: the core's for a G launch, the team's virtual one for H (R337). -/
def chanKeyOf (classH : Bool) (core tuid k : Nat) : Nat := if classH then 2 ^ 20 + tuid * 16 + k else core * 16 + k

def Ctx.chanKey (c : Ctx) (k : Nat) : Nat := chanKeyOf c.l.classH c.t.core c.tuid k

/-! Registers and predicates with the lookahead windows of R150. -/

/-- The share of a pending result that belongs to a lane. -/
def Pend.plane (q : Pend) (l : Nat) : Option PLane := q.lanes.find? fun p => p.lane == l

/-- A result is known here: no other package and no bank has still to give it. -/
def PLane.known (p : PLane) : Bool := p.landed || (p.tag.isNone && p.parts.isEmpty)

/-- A lane's register (R139). Inside the window of a result that will write it, the read gives the value before or the
value that the result writes, a free choice for each register and lane (R150, R177); a result that is not known yet leaves the
value before (log 7). -/
def Group.rv (g : Group) (fresh l r : Nat) : Word :=
  g.pend.foldl (fun w q =>
    match q.plane l with
    | none => w
    | some p =>
      match SMap.find p.ws r with
      | none => w
      | some x => if !p.known then w else if x = w then w else if Config.free 2 fresh (q.id * 65536 + l * 256 + r) % 2 = 0 then w else x)
    (SMap.getD (g.lane l).v r 0)

/-- A lane's predicate, with the same choice; p0 reads 1 (R139). -/
def Group.rp (g : Group) (fresh l r : Nat) : Bool :=
  if r = 0 then true
  else
    g.pend.foldl (fun w q =>
      match q.plane l with
      | none => w
      | some p =>
        match SMap.find p.ps r with
        | none => w
        | some x => if !p.known then w else if x = w then w else if Config.free 3 fresh (q.id * 65536 + l * 256 + r) % 2 = 0 then w else x)
      ((g.lane l).p.getLsbD r)

/-- Register writes and predicate writes of one lane. -/
structure Wr where
  vs : List (Nat × Word)
  ps : List (Nat × Bool)
  deriving DecidableEq, Repr

/-- One register. -/
def Wr.v (r : Reg) (x : Word) : Wr := ⟨[(r.toNat, x)], []⟩
/-- A pair, its low half in the even register (R134). -/
def Wr.pair (r : Reg) (x : DWord) : Wr := ⟨[(r.toNat, loW x), (r.toNat + 1, hiW x)], []⟩
/-- One predicate; a write to p0 is discarded (R139). -/
def Wr.p (r : Reg) (b : Bool) : Wr := ⟨[], [(r.toNat, b)]⟩
def Wr.none : Wr := ⟨[], []⟩
def Wr.and (a b : Wr) : Wr := ⟨a.vs ++ b.vs, a.ps ++ b.ps⟩

/-- Write one register of a lane. -/
def Lane.setV (ln : Lane) (r : Nat) (x : Word) : Lane := { ln with v := SMap.set 0 ln.v r x }
/-- Write one predicate of a lane; p0 keeps reading 1 (R139). -/
def Lane.setP (ln : Lane) (r : Nat) (b : Bool) : Lane := { ln with p := setBit ln.p r b }

def Lane.apply (ln : Lane) (w : Wr) : Lane :=
  w.ps.foldl (fun x q => x.setP q.1 q.2) (w.vs.foldl (fun x q => x.setV q.1 q.2) ln)

/-- A write inside a window, noted in each pending result that will write the same register (R150). -/
def PLane.clobber (p : PLane) (w : Wr) : PLane :=
  { p with
    clobV := p.clobV ++ (w.vs.map (·.1)).filter fun r => (SMap.find p.ws r).isSome
    clobP := p.clobP ++ (w.ps.map (·.1)).filter fun r => (SMap.find p.ps r).isSome }

def Pend.clobber (q : Pend) (act : Mask) (f : Nat → Wr) : Pend :=
  { q with lanes := q.lanes.map fun p => if act.getLsbD p.lane then p.clobber (f p.lane) else p }

/-- Each active lane writes its registers and predicates. -/
def Group.write (g : Group) (act : Mask) (f : Nat → Wr) : Group :=
  { g with
    lanes := mapLanes (fun l ln => if act.getLsbD l then ln.apply (f l) else ln) 0 g.lanes
    pend := g.pend.map fun q => q.clobber act f }

/-- The registers that lanes of a mask write lose their tags (R294). -/
def Group.untag (g : Group) (rs : List Nat) : Group :=
  if g.rtags.isEmpty then g else { g with rtags := g.rtags.filter fun x => !rs.contains x.1 }

def State.writeLanes (s : State) (gk : Nat) (act : Mask) (f : Nat → Wr) : State :=
  s.updGroup gk fun g => (g.write act f).untag ((Mask.lanes act).flatMap fun l => (f l).vs.map (·.1))

/-- A lane takes a landed result; where the program wrote the register inside the window, either value stands (R150). -/
def Lane.take (fresh : Nat) (ln : Lane) (id : Nat) (p : PLane) : Lane :=
  let ln := p.ws.foldl (fun x q =>
    if q.1 ∈ p.clobV ∧ Config.free 4 fresh (id * 65536 + p.lane * 256 + q.1) % 2 = 0 then x else x.setV q.1 q.2) ln
  p.ps.foldl (fun x q =>
    if q.1 ∈ p.clobP ∧ Config.free 5 fresh (id * 65536 + p.lane * 256 + q.1) % 2 = 0 then x else x.setP q.1 q.2) ln

/-- A result of a lane that can be written now: landed, without a fault, its window over. -/
def PLane.due (p : PLane) : Bool := p.landed && p.left == 0 && p.fault.isNone

/-- The registers of a result that are due. -/
def Pend.dueRegs (q : Pend) : List Nat := q.lanes.flatMap fun p => if p.due then p.ws.map (·.1) else []

/-- Tags after the results that are due are written: the last write of a load by `ld.inv` from a uniform address tags its
registers uniform (Table 14-3). -/
def Group.dueTags (g : Group) : SMap RTag :=
  g.pend.foldl (fun m q =>
    if q.utag && q.lanes.all PLane.due then q.dueRegs.foldl (fun m r => SMap.put m r .uniform) m else m)
    ((g.untag (g.pend.flatMap Pend.dueRegs)).rtags)

/-- Write the results that are due and forget them. -/
def Group.takeDue (fresh : Nat) (g : Group) : Group :=
  { g with
    rtags := g.dueTags
    lanes := g.pend.foldl (fun ls q =>
      mapLanes (fun l ln =>
        match q.plane l with
        | some p => if p.due then ln.take fresh q.id p else ln
        | none => ln) 0 ls) g.lanes
    pend := (g.pend.map fun q => { q with lanes := q.lanes.filter fun p => !p.due }).filter fun q => !q.lanes.isEmpty }

/-- Every landed result is written at once. -/
def Group.takeAll (fresh : Nat) (g : Group) : Group :=
  let g := Group.takeDue fresh { g with
    pend := g.pend.map fun q => { q with lanes := q.lanes.map fun p => { p with left := 0 } } }
  { g with pend := [] }

/-- The path has issued one more instruction: the windows of the results numbered below `n0` shrink by one (R150). -/
def Group.closeWindows (fresh : Nat) (g : Group) (path : Mask) (n0 : Nat) : Group :=
  if g.pend.isEmpty then g
  else
    Group.takeDue fresh { g with
      pend := g.pend.map fun q =>
        if q.id < n0 then
          { q with lanes := q.lanes.map fun p => if path.getLsbD p.lane then { p with left := p.left - 1 } else p }
        else q }

/-! Ages and the instruction-buffer pool (R27, R28, R32, R33). -/

/-- The core on which a group's team is placed. -/
def State.coreOf (s : State) (gk : Nat) : Nat := match s.team? (gk / 32) with | some t => t.core | none => 0

/-- The groups of a resident team on a core. -/
def State.teamsOn (s : State) (core : Nat) : List (Nat × Team) :=
  s.teams.filter fun x => x.2.tst = .resident && x.2.core == core

/-- The groups resident on a core that have not ended, by key. -/
def State.groupsOn (s : State) (core : Nat) : List (Nat × Group) :=
  (s.teamsOn core).flatMap fun x => s.groups.filter fun y => y.1 / 32 == x.1 && !y.2.ended

/-- A group's age as one number: take sequence number, then %team, then %group (R28). -/
def State.ageKey (s : State) (gk : Nat) : Nat :=
  match s.team? (gk / 32) with
  | none => 0
  | some t =>
    match s.launch? t.launch with
    | none => 0
    | some l => (l.seq * 2 ^ 25 + t.num) * 32 + gk % 32

/-- The class of a group's launch: true for H. -/
def State.isH (s : State) (gk : Nat) : Bool :=
  match s.team? (gk / 32) with
  | none => false
  | some t =>
    match s.launch? t.launch with
    | none => false
    | some l => l.classH

/-- The program counters of a group's paths (R27). -/
def Group.pathPcs (g : Group) : List DWord :=
  dedup (((g.lanes.filter fun ln => ln.onSome)).map (·.pc))

/-- Instruction-buffer entries in use on a core (R32). -/
def State.poolUsed (s : State) (core : Nat) : Nat :=
  sumN ((s.groupsOn core).map fun x => x.2.pathPcs.length)

/-- The program counters of the lanes of a mask, in ascending order of their lowest lane. -/
def Group.pcsOf (g : Group) (m : Mask) : List DWord :=
  (Mask.lanes m).foldl (fun ps l => if (g.lane l).pc ∈ ps then ps else ps ++ [(g.lane l).pc]) []

/-- The oldest age among a group's lanes on the path at `pc`, outside a mask. -/
def Group.ageAt (g : Group) (m : Mask) (pc : DWord) : Option Nat :=
  let ages := (lanes32.filter fun l => !m.getLsbD l && (g.lane l).onSome && (g.lane l).pc == pc).map fun l => (g.lane l).age
  minBy id ages

/-- Lanes of the second instruction of a pair that has not taken effect: their path still stands apart (R27, R29). -/
def State.apart (s : State) (gk : Nat) (g : Group) : Mask :=
  match s.second with
  | some cu => if cu.gk = gk then cu.path &&& Mask.ofPred (fun l => (g.lane l).pc == cu.apc) else 0
  | none => 0

/-- Paths after lanes of the path `moved` changed their program counters (R27, R32, R33): the set with the lowest lane keeps
the path's age and entry, a set that meets another path joins it, and each other set takes a free entry or is HELD. A set that
waits cannot be HELD: where no entry is left for it, it keeps the path's, and the set with the lowest lane is HELD (log 77). -/
def State.repath (s : State) (gk : Nat) (moved : Mask) : State :=
  match s.group? gk with
  | none => s
  | some g =>
    let mv := Mask.ofPred fun l => moved.getLsbD l && (g.lane l).onSome
    let out := mv ||| s.apart gk g
    match Mask.lowest mv with
    | none => s
    | some l0 =>
      let keep := (g.lane l0).pc
      let core := match s.team? (gk / 32) with | some t => t.core | none => 0
      let pcs := (g.pcsOf mv).filter fun pc => pc ≠ keep && (g.ageAt out pc).isNone
      -- entries in use with every moved set counted, less the new sets
      let twice := if (g.pcsOf (s.apart gk g)).any fun pc => (g.pcsOf mv).contains pc then 1 else 0
      let free := 64 - (s.poolUsed core + twice - pcs.length)
      let late := pcs.drop free
      let waits := fun pc => (Mask.lanes mv).any fun l => (g.lane l).pc == pc && !(g.lane l).ready
      let heldPcs := if late.any waits then late.filter (fun pc => !waits pc) ++ [keep] else late
      let age0 := (g.lane l0).age
      let ageOf := fun pc =>
        let own := if pc = keep then age0 else s.now
        match g.ageAt out pc with
        | some a => Nat.min a own
        | none => own
      s.updGroup gk fun g => g.updLanes fun l ln =>
        if !ln.live || (out &&& ~~~mv).getLsbD l then ln
        else if ln.pc ∈ heldPcs then
          (if ln.lst = .onPath then { ln with lst := .held, heldAt := s.now } else ln)
        else if ln.pc ∈ g.pcsOf mv then
          { ln with age := ageOf ln.pc, lst := if ln.lst = .held then .onPath else ln.lst }
        else ln

/-- As a cycle ends, lanes at one program counter are one path, with the oldest age among them (R27). -/
def State.meet (s : State) (gk : Nat) : State :=
  s.updGroup gk fun g => g.updLanes fun _ ln =>
    match if ln.live then g.ageAt 0 ln.pc else none with
    | some a => { ln with age := a, lst := if ln.lst = .held then .onPath else ln.lst }
    | none => ln

/-- The oldest set of HELD lanes on a core: its group and program counter (R33). -/
def State.oldestHeld (s : State) (core : Nat) : Option (Nat × DWord) :=
  let sets := (s.groupsOn core).flatMap fun x =>
    (x.2.lanes.filter fun ln => ln.lst = .held).map fun ln => (x.1, ln.pc, ln.heldAt)
  (minBy (fun y => s.ageKey y.1 * 2 ^ 64 + y.2.2) sets).map fun y => (y.1, y.2.1)

/-- Free entries go to HELD sets, oldest first (R33); at most `n` of them. -/
def State.grantHeld : Nat → State → Nat → State
  | 0, s, _ => s
  | n + 1, s, core =>
    match s.oldestHeld core with
    | none => s
    | some (gk, pc) =>
      if s.poolUsed core < 64 then
        State.grantHeld n (s.updGroup gk fun g => g.updLanes fun _ ln =>
          if ln.lst = .held ∧ ln.pc = pc then { ln with lst := .onPath, age := s.now } else ln) core
      else s

/-- A reader is done with the records that it had asked for. -/
def State.dropRecs (s : State) (who : Reader) : State :=
  if s.recs.isEmpty then s else { s with recs := s.recs.filter fun r => decide (r.who ≠ who) }

/-- Lanes of a path take new program counters; the windows of earlier results shrink, and paths form anew. An instruction
that replays alone leaves them as they are (R151). -/
def Ctx.moveTo (c : Ctx) (next : Nat → DWord → DWord) (s : State) : State :=
  let s := s.dropRecs (.group c.gk)
  if c.alone then s
  else
    let s := s.updGroup c.gk fun g =>
      Group.closeWindows s.fresh
        (g.updLanes fun l ln => if c.path.getLsbD l ∧ ln.onSome then { ln with pc := next l ln.pc } else ln) c.path c.n0
    let s := s.repath c.gk c.path
    s.grantHeld 64 c.t.core

/-- The path goes on to the next instruction in memory. -/
def Ctx.advance (c : Ctx) (i : Instr) (s : State) : State := c.moveTo (fun _ pc => pc + dwordOf i.len) s

/-! Taking a fault or trap (R155, R205, R329, R330, R332), and the responses that end it (R331). -/

/-- The issue partition and the resident slot of a group: its place among the groups resident there, ascending by key. -/
def State.slotOf (s : State) (core gk : Nat) : Nat :=
  ((s.groupsOn core).filter fun x => x.1 % 32 % 4 == gk % 32 % 4 && x.1 < gk).length

/-- WHERE of a fault entry (Table 17-2). -/
def State.whereWord (s : State) (gk : Nat) (ch : Nat) : Word :=
  let core := s.coreOf gk
  wordOf (core / 192 + core / 8 % 24 * 2 + core % 8 * 2 ^ 6 + gk % 32 % 4 * 2 ^ 9 + s.slotOf core gk % 8 * 2 ^ 11 + ch * 2 ^ 14)

/-- WHERE of an entry about a group whose team has stopped: the resident slot is the one held at the stop (R51). -/
def State.stoppedWhere (s : State) (gk : Nat) : Word :=
  let core := s.coreOf gk
  let slot := match s.group? gk with | some g => g.stopSlot | none => 0
  wordOf (core / 192 + core / 8 % 24 * 2 + core % 8 * 2 ^ 6 + gk % 32 % 4 * 2 ^ 9 + slot % 8 * 2 ^ 11)

/-- LAUNCH of a fault entry (Table 17-2). -/
def Launch.faultWord (l : Launch) : Word := wordOf (l.num % 2 ^ 24 + l.queue * 2 ^ 24)

/-- The 64 bytes of an entry (Table 17-2). -/
def FEntry.bytes (e : FEntry) (seq : Nat) : List Byte :=
  natBytes 4 seq ++ natBytes 1 e.info.cause.code ++
  natBytes 1 ((if e.eng then 1 else 0) + (if e.info.write then 2 else 0)) ++ natBytes 1 ((e.ext.length + 7) / 8) ++
  natBytes 1 e.info.lane ++ natBytes 4 e.place.toNat ++ natBytes 4 e.launch.toNat ++ natBytes 4 e.team ++
  natBytes 4 e.info.lmask.toNat ++ natBytes 8 e.info.pc.toNat ++ natBytes 8 e.info.addr.toNat ++
  natBytes 8 e.info.aux.toNat ++ natBytes 16 0

/-- The extension entries of a report: eight values each, zero beyond the last (R329). -/
def FEntry.extBytes (e : FEntry) : List Byte :=
  let n := (e.ext.length + 7) / 8 * 8
  (span 0 n).flatMap fun i => natBytes 8 (atD e.ext i 0).toNat

/-- Entries that the ring takes for a report. -/
def FEntry.size (e : FEntry) : Nat := 1 + (e.ext.length + 7) / 8

/-- Write the entries of a report into the ring, one by one. -/
def State.ringWrite (s : State) (p : Nat) : Nat → List Byte → State
  | 0, _ => s
  | n + 1, bs =>
    let pt := s.part p
    let a := pt.fqBase.toNat % 2 ^ 48 + 64 * (pt.fqTail % 2 ^ pt.fqLog2n)
    let s := s.writeBytes (s.keyTag 0) a (bs.take 64)
    let pt := { pt with fqTail := pt.fqTail + 1 }
    let pt := if pt.fqTail - pt.fqHead ≥ 2 ^ pt.fqLog2n then { pt with fqStat := pt.fqStat ||| 1#4 } else pt
    (s.setPart p pt).ringWrite p n (bs.drop 64)

/-- Post one entry whose room has been checked (R329). -/
def State.postNow (s : State) (p : Nat) (e : FEntry) : State :=
  let seq := (s.part p).nextSeq
  let s := s.ringWrite p e.size (e.bytes seq ++ e.extBytes)
  let pt := s.part p
  let out :=
    match e.info.cause.cls with
    | .replay | .stop => if e.target = .none then pt.outstanding else pt.outstanding ++ [(seq, e)]
    | _ => pt.outstanding
  s.setPart p { pt with nextSeq := seq + 1, posted := pt.posted + 1, posts := SMap.put pt.posts seq e.info.cause, outstanding := out }

/-- Room for an entry in an enabled ring. -/
def Part.roomFor (pt : Part) (e : FEntry) : Bool := pt.fqEn && pt.fqTail - pt.fqHead + e.size ≤ 2 ^ pt.fqLog2n

/-- Post what waits: REPLAY and STOP entries first, then NOTE and END (R332). -/
def State.postWaiting : Nat → State → Nat → State
  | 0, s, _ => s
  | n + 1, s, p =>
    let pt := s.part p
    match pt.wantPost with
    | e :: es =>
      if pt.roomFor e then State.postWaiting n ((s.setPart p { pt with wantPost := es }).postNow p e) p else s
    | [] =>
      match pt.hold with
      | e :: es =>
        if pt.roomFor e then State.postWaiting n ((s.setPart p { pt with hold := es }).postNow p e) p else s
      | [] => s

/-- An entry is raised (R329, R332): it is posted, or waits, or, being NOTE or END with the hold buffer full, is dropped. -/
def State.raiseEntry (s : State) (p : Nat) (e : FEntry) : State :=
  let pt := s.part p
  let pt := { pt with causes := SMap.updD pt.causes e.info.cause.code 0 (· + 1) }
  let pt :=
    match e.info.cause.cls with
    | .replay | .stop => { pt with wantPost := pt.wantPost ++ [e] }
    | _ =>
      if pt.hold.length < 256 then { pt with hold := pt.hold ++ [e] }
      else { pt with fqStat := pt.fqStat ||| 2#4 }
  State.postWaiting (pt.wantPost.length + pt.hold.length) (s.setPart p pt) p

/-- A group's fault or trap as an entry. -/
def State.groupEntry (s : State) (gk : Nat) (i : FInfo) : FEntry :=
  match s.team? (gk / 32) with
  | none => ⟨i, false, 0, 0, 0, [], .group gk⟩
  | some t =>
    match s.launch? t.launch with
    | none => ⟨i, false, s.whereWord gk 0, 0, t.num, [], .group gk⟩
    | some l => ⟨i, false, s.whereWord gk 0, l.faultWord, t.num, [], .group gk⟩

/-- Taking a fault or trap, the one operation for all of them: nothing of the instruction is retired and the program counters
stay at it; a cause of class REPLAY parks the group and one of class STOP holds it for the driver; an entry is raised
(R155, R329, R330). -/
def State.takeFault (s : State) (gk : Nat) (i : FInfo) : State :=
  match s.team? (gk / 32) with
  | none => s
  | some t =>
    match s.launch? t.launch with
    | none => s
    | some l =>
      let s := s.updGroup gk fun g =>
        match i.cause.cls with
        | .replay => { g with park := .fault }
        | _ => { g with stopped := true }
      (s.dropRecs (.group gk)).raiseEntry l.part (s.groupEntry gk i)

/-- A trap that names no address: the path's lanes at the instruction. -/
def Ctx.info (c : Ctx) (cause : Cause) (lm : Mask) : FInfo :=
  let l0 := (Mask.lowest lm).getD 0
  ⟨cause, l0, lm, c.ipc, 0, 0, false⟩

/-- Raise a precise trap of the issuing path, naming the lanes of `lm`. -/
def Ctx.trap (c : Ctx) (cause : Cause) (lm : Mask) (s : State) : State := s.takeFault c.gk (c.info cause lm)

/-- A group that an answered entry held goes on: it re-issues the instruction at its program counter (R331). -/
def State.resumeGroup (s : State) (gk : Nat) : State :=
  s.updGroup gk fun g => { g with stopped := false, park := if g.park = .fault then .none else g.park }

/-- An outstanding entry stops being outstanding (R331); one that waits to be posted is still posted (R332), and holds nothing
then. -/
def State.dropOutstanding (s : State) (p : Nat) (f : FEntry → Bool) : State :=
  let pt := s.part p
  s.setPart p { pt with
    outstanding := pt.outstanding.filter fun x => !f x.2
    wantPost := pt.wantPost.map fun x => if f x then { x with target := .none } else x }

end Sys2Proof.Machine
end

