-- ==== Sys2Proof/Machine/Elem.lean ====
section
/-! DEFINITION. Elements as engine commands and atomics read, convert, combine and write them (R102, R214, R268), and the
frames by which accesses reach other packages (R106, R361, R362). -/

namespace Sys2Proof.Machine

/-! Arithmetic on elements. -/

/-- A pattern of a type's width. -/
def trunc (t : Sys2Proof.Ty) (x : Int) : Nat := (x % (2 : Int) ^ (8 * t.bytes)).toNat

/-- A pattern read as an integer of its type. -/
def intVal (t : Sys2Proof.Ty) (w : Nat) : Int :=
  let n := w % 2 ^ (8 * t.bytes)
  if Ty.signed t ∧ n ≥ 2 ^ (8 * t.bytes - 1) then (n : Int) - (2 : Int) ^ (8 * t.bytes) else n

/-- Floating-point sum of two patterns of one format: exact, rounded once to nearest even, subnormals kept (R123). -/
def addF (f : FFmt) (a b : Nat) : Nat := roundF f .rne false false (sumF [decodeF f a, decodeF f b])

/-- ⊕ of R268: add, min or max by the element type; a free value on DS8 and E8M0 (log 17). -/
def combine (t : Sys2Proof.Ty) (rop old x : Nat) : Nat :=
  if t = .ds8 ∨ t = .e8m0 then Config.combineScale t.code.toNat rop old x % 256
  else if t.isFloat then
    (if rop = 0 then addF (fmtOf t) old x else minMaxF (fmtOf t) (rop == 2) old x)
  else
    let a := intVal t old
    let b := intVal t x
    if rop = 0 then trunc t (a + b)
    else if rop = 1 then (if b < a then trunc t b else trunc t a)
    else (if a < b then trunc t b else trunc t a)

/-- The new value of an atomic (Table 9-4). -/
def atomicNew (op : MemOp) (t : Sys2Proof.Ty) (old b : Nat) : Nat :=
  match op with
  | .add => trunc t (intVal t old + intVal t b)
  | .min => if intVal t b < intVal t old then b else old
  | .max => if intVal t old < intVal t b then b else old
  | .and => Nat.land old b
  | .or => Nat.lor old b
  | .xor => Nat.xor old b
  | .fadd => addF fmtF32 old b
  | .inc => if old ≥ b then 0 else old + 1

/-- cv of R268: conversion to nearest even, or identity where the types are equal. -/
def cvElem (src dst : Sys2Proof.Ty) (sat inf : Bool) (w : Nat) : Nat :=
  if src = dst then w
  else cvtF (fmtOf dst) (fmtOf src) .rne false (sat && (dst = .f16 || dst = .e5m2)) (inf && dst = .e4m3) w

/-! Teams by scratch tag (R60). -/

/-- The team of a launch in a cluster that holds a scratch tag. -/
def State.tagged (s : State) (launch cl core slot : Nat) : Option (Nat × Team) :=
  s.teams.find? fun x =>
    x.2.launch == launch && x.2.core / 8 == cl && x.2.tagCore == core && x.2.tagSlot == slot &&
    (x.2.tst = .resident || (x.2.tst = .evicted && !x.2.reclaimed))

/-! Requests to other packages. -/

/-- The class bit that a frame carries. -/
def Src.isH (s : State) : Src → Bool
  | .lane gk _ => s.isH gk
  | .hart .. => true
  | .engine ch _ => ch ≥ 2 ^ 20
  | .take _ h => h

/-- Set bits of a 32-bit mask, ascending. -/
def maskPorts (m : Nat) : List Nat := (span 0 32).filter fun p => m / 2 ^ p % 2 == 1

/-- The port by which a request to a package leaves (R362); none where it is refused at the source (R362, R380). -/
def State.routePort (s : State) (pkg daddr : Nat) : Option Nat :=
  let m := leNat (s.readBytes (s.keyTag 0) (s.rtBase.toNat + 4 * pkg) 4)
  let ps := maskPorts m
  if ps.isEmpty then none
  else
    let p := atD ps (field daddr 7 16 % ps.length) 0
    if (s.port p).en && (s.port p).link then some p else none

/-- Send a frame: it takes the port's next link sequence number, is kept until acknowledged, and
counts against its port's window (R361, R362). -/
def State.send (s : State) (op : Nat) (f : Frame) : State :=
  let po := s.port f.port
  let f := { f with lseq := po.nextSeq, spkg := s.pkgNum }
  { (s.setPort f.port { po with nextSeq := (po.nextSeq + 1) % 2 ^ 32 }) with
    sent := s.sent ++ [⟨op, f⟩], out := s.out ++ [⟨op, f⟩]
    windows := SMap.updD s.windows f.port (0, 0) fun w =>
      if f.classH then (w.1, w.2 + 32 + f.payload.length) else (w.1 + 32 + f.payload.length, w.2) }

/-- A request to another package (R347): it takes a tag, and what waits for its answer is recorded. -/
def State.request (s : State) (op : Nat) (src : Src) (pkg daddr port : Nat) (payload : List Byte) (rem : Remote) : State :=
  let tag := s.nextTag
  let f : Frame := ⟨port, 0, pkg, daddr, tag, 0, src.isH s, payload⟩
  let s := { s with nextTag := tag + 1, remotes := s.remotes ++ [{ rem with tag := tag, src := src, frame := f, op := op }] }
  s.send op f

/-- A remote record with nothing filled in. -/
def Remote.blank : Remote := ⟨0, .hart 0 15, false, 0, [], .b32, false, ⟨0, 0, 0, 0, 0, 0, false, []⟩, 0, 0, 0, .value⟩

/-! Stores that are not yet performed (R95). -/

/-- A store by a lane or a hart has been issued; it is performed later. -/
def State.noteStore (s : State) (src : Src) : State :=
  { s with stores := s.stores ++ [⟨s.nextStore, src⟩], nextStore := s.nextStore + 1 }

/-! Where an element of a command lies. -/

/-- A place that an element names. -/
inductive EPlace where
  | glob (va : Nat)
  | sram (t : Nat) (off : Nat)
  | bad (opnd : Nat)
  deriving DecidableEq, Repr

/-- A scratchpad or cluster-shared operand of a command (R55, R268). -/
def State.operandPlace (s : State) (tuid : Nat) (spc : Nat) (opnd size : Nat) : EPlace :=
  match s.team? tuid with
  | none => .bad opnd
  | some t =>
    let off := opnd % 2 ^ 23
    if spc = 1 then
      if opnd / 2 ^ 23 ≠ 0 ∨ off + size > t.scratchBytes then .bad opnd else .sram tuid off
    else
      match s.tagged t.launch (t.core / 8) (field opnd 23 3) (field opnd 26 5) with
      | none => .bad opnd
      | some (u, x) => if opnd / 2 ^ 31 ≠ 0 ∨ off + size > x.scratchBytes then .bad opnd else .sram u off

/-- The place of element (r, j) on one side: base + r × stride + j × size (R268). -/
def State.elemPlace (s : State) (tuid spc : Nat) (base : DWord) (r stride j size : Nat) : EPlace :=
  if spc = 0 then .glob ((base.toNat + r * stride + j * size) % 2 ^ 64)
  else s.operandPlace tuid spc ((base.toNat + r * stride + j * size) % 2 ^ 32) size

/-- Ask for lines, once for a run of accesses to one. -/
def State.askOnce (s : State) (r : HomeReq) : State :=
  if s.homeReqs.getLast? = some { r with at_ := s.wseq } then s else s.askHome r

/-- Note the use of a team's banks by an access (R74). -/
def State.touch (s : State) (t : Team) (off n : Nat) : State :=
  (t.banksOf off n).foldl (fun s b => s.setBank b { s.bank b with lastUse := s.now }) s

/-- Duelling class of a lane's request (R356). -/
def duelOf (classH : Bool) : Nat := if classH then 1 else 0

/-- The L2 home of a line takes a write. -/
def State.askWrite (s : State) (core : Nat) (classH : Bool) (tag line : Nat) : State :=
  s.askHome ⟨line, 1, duelOf classH, classH, core, true, tag, none, 0⟩

/-- Start the wake of banks (R73). -/
def State.startWake (s : State) (bs : List Nat) : State :=
  bs.foldl (fun s b => s.setBank b { s.bank b with waking := true }) s

/-- Banks of some places that are not in service. -/
def State.asleep (s : State) (pls : List EPlace) : List Nat :=
  dedup (pls.filterMap fun x =>
    match x with
    | .sram t off =>
      match s.team? t with
      | some y => let b := y.sramKey off / bankBytes; if (s.bank b).pwr = .on then none else some b
      | none => none
    | _ => none)

/-- How an element access ended. -/
inductive EAcc (α : Type) where
  | ok (x : α)
  | fault (c : Cause) (aux va : Nat)
  | remote (pkg daddr : Nat)
  deriving DecidableEq, Repr

/-- A global address of a command of a core, translated (R269): an address outside the window is a permanent fault. -/
def State.engineXlate (s : State) (p core : Nat) (acc : Acc) (va : Nat) : Xlate :=
  if va ≥ 2 ^ 55 then .fault .badWindow 0 else s.translate p core acc va

/-- Read an element. -/
def State.readElem (s : State) (p core : Nat) (pl : EPlace) (size : Nat) : EAcc Nat :=
  match pl with
  | .bad x => .fault .scratchRange 0 x
  | .sram t off =>
    match s.team? t with
    | none => .fault .scratchRange 0 off
    | some x => .ok (leNat (s.readScratch x off size))
  | .glob va =>
    match s.engineXlate p core .read va with
    | .mem pa tag => if s.stackFails pa then .fault .memError 0 va else .ok (leNat (s.readBytes tag pa size))
    | .remote pkg a => .remote pkg a
    | .device _ => .fault .protection 0 va
    | .fault c aux => .fault c aux va

/-- Write an element. -/
def State.writeElem (s : State) (p core : Nat) (pl : EPlace) (size x : Nat) : EAcc State :=
  match pl with
  | .bad x => .fault .scratchRange 0 x
  | .sram t off =>
    match s.team? t with
    | none => .fault .scratchRange 0 off
    | some y => .ok (s.writeScratch y off (natBytes size x))
  | .glob va =>
    match s.engineXlate p core .write va with
    | .mem pa tag =>
      if s.stackFails pa then .fault .memError 0 va else .ok ((s.needMem pa).writeBytes tag pa (natBytes size x))
    | .remote pkg a => .remote pkg a
    | .device _ => .fault .protection 0 va
    | .fault c aux => .fault c aux va

/-- Apply one staged update: old ⊕ x at a global address, one atomic event (R102, R275). -/
def State.applyStaged1 (s : State) (p core : Nat) (t : Sys2Proof.Ty) (rop va x : Nat) : EAcc State :=
  match s.readElem p core (.glob va) t.bytes with
  | .ok old => s.writeElem p core (.glob va) t.bytes (combine t rop old x)
  | .fault c aux a => .fault c aux a
  | .remote pkg a => .remote pkg a

/-- The operation byte of an atomic frame: the codes of `red` (R215), and 16 + ROP for an engine's ⊕ (log 16: the manual
gives no payload layouts). -/
def atomPayload (op : Nat) (t : Sys2Proof.Ty) (b : List Byte) : List Byte :=
  BitVec.ofNat 8 op :: (t.code.setWidth 8) :: b

/-- Send a request, or report that no route takes it (R362, R380). -/
def State.tryRequest (s : State) (op : Nat) (src : Src) (pkg daddr : Nat) (payload : List Byte) (rem : Remote) :
    Option State :=
  match s.routePort pkg daddr with
  | none => none
  | some port => some (s.request op src pkg daddr port payload rem)

/-! Records of other packages (R99, R106). -/

/-- What a reader has of the bytes [va, va + n): none where they have not been asked for or answered, an empty list where the
request was refused. -/
def State.recAt (s : State) (who : Reader) (va n : Nat) : Option (List Byte) :=
  (s.recs.find? fun r => decide (r.who = who) && decide (r.va ≤ va) && decide (va + n ≤ r.va + r.n)).bind fun r =>
    r.bytes.map fun bs => (bs.drop (va - r.va)).take n

/-- Ask another package for the bytes of a record from an address to the end of its line, as invariant loads. -/
def State.askRecord (s : State) (who : Reader) (src : Src) (pkg d va : Nat) : State :=
  if s.recs.any fun r => decide (r.who = who) && decide (r.va ≤ va) && decide (va < r.va + r.n) then s
  else
    let n := 128 - va % 128
    let tag := s.nextTag
    match s.tryRequest 0 src pkg d (natBytes 2 n ++ [1]) { Remote.blank with isLoad := true, va := va, dest := .record } with
    | some s => { s with recs := s.recs ++ [⟨who, va, n, tag, none⟩] }
    | none => { s with recs := s.recs ++ [⟨who, va, n, tag, some []⟩] }

/-- Updates that meet no fault are applied; the first that meets one, and those after it, are left (R269: reductions are
applied once). Answers the state, what is left, and the fault. -/
def State.applyStaged (s : State) (p core : Nat) (src : Src) (t : Sys2Proof.Ty) (rop : Nat) :
    List (Nat × BitVec 128) → State × List (Nat × BitVec 128) × Option (Cause × Nat × Nat)
  | [] => (s, [], none)
  | (va, x) :: rest =>
    match s.applyStaged1 p core t rop va x.toNat with
    | .ok s' => s'.applyStaged p core src t rop rest
    | .fault c aux a => (s, (va, x) :: rest, some (c, aux, a))
    | .remote pkg a =>
      match s.tryRequest 4 src pkg a (atomPayload (16 + rop) t (natBytes t.bytes x.toNat)) { Remote.blank with va := va } with
      | some s' => s'.applyStaged p core src t rop rest
      | none => (s, (va, x) :: rest, some (.protection, 4, va))

end Sys2Proof.Machine
end

