-- ==== Sys2Proof/Machine/Sync.lean ====
section
/-! DEFINITION. Waiting and being released: barriers and their waves (R253-R256), timelines (R104, R264), event entries and
handler entry (R258-R262). -/

namespace Sys2Proof.Machine

/-- Lanes of one group that stood at `pc` pass the instruction at which they waited. -/
def State.passSet (s : State) (gk : Nat) (m : Mask) : State :=
  let s := s.updGroup gk fun g => g.updLanes fun l ln =>
    if m.getLsbD l then { ln with lst := .onPath, wait := .none, pc := ln.pc + dwordOf ln.ilen } else ln
  s.repath gk m

/-- Lanes of one group pass the instructions at which they waited, path by path (R27). -/
def State.passLanes (s : State) (gk : Nat) (m : Mask) : State :=
  match s.group? gk with
  | none => s
  | some g =>
    let s := (g.pcsOf m).foldl (fun s pc => s.passSet gk (Mask.ofPred fun l => m.getLsbD l && (g.lane l).pc == pc)) s
    s.grantHeld 64 (s.coreOf gk)

/-! Tile elements (R240). -/

/-- A tile element as an operation sees it that takes effect after the operations `before`: what one of them or a later
unordered operation has written, and the value before them where none of them writes it; a free choice among several. -/
def Team.element (t : Team) (fresh : Nat) (before : List Nat) (key : Nat) : BitVec 40 :=
  let ws := t.anvil.filterMap fun y => (SMap.find y.new key).map fun v => (y, v)
  let top := ws.filter fun y => before.contains y.1.id
  let kept := (ws.filter fun y => !(top.any fun z => z.1.after.contains y.1.id)).map (·.2)
  let cs := dedup (if top.isEmpty then SMap.getD t.tiles key 0 :: kept else kept)
  match cs with
  | [x] => x
  | _ => atD cs (Config.free 11 fresh key % Nat.max 1 cs.length) 0

/-- The tiles after the operations of `done_`, all complete. -/
def Team.tilesAfter (t : Team) (fresh : Nat) (done_ : List AnvilOp) : SMap (BitVec 40) :=
  let keys := dedup (done_.flatMap fun y => SMap.keys y.new)
  let u := { t with anvil := done_ }
  keys.foldl (fun m k => SMap.set 0 m k (u.element fresh (done_.map (·.id)) k)) t.tiles

/-- The tiles once every operation has completed (R248). -/
def Team.settledTiles (t : Team) (fresh : Nat) : SMap (BitVec 40) := t.tilesAfter fresh t.anvil

/-- A synchronisation event that follows a group's `dslot.wait` carries the operations that this waited for (R240). -/
def State.carryOps (s : State) (gk key : Nat) : State :=
  s.updTeam (gk / 32) fun t => { t with
    anvil := t.anvil.map fun y => if y.seen.getLsbD (gk % 32) then { y with carry := key :: y.carry } else y }

/-- A group that acquires such an event is ordered after them. -/
def State.observeOps (s : State) (gk key : Nat) : State :=
  s.updTeam (gk / 32) fun t => { t with
    anvil := t.anvil.map fun y => if y.carry.contains key then { y with seen := y.seen ||| (1#32 <<< (gk % 32)) } else y }

/-- The synchronisation event of a barrier phase. -/
def barEvent (lvl : BarLevel) (k : Nat) (tok : Word) : Nat :=
  ((match lvl with | .team => 0 | .die => 1 | .pkg => 2) * 16 + k) * 2 ^ 32 + tok.toNat

/-- The synchronisation event of a message of a mailbox slot. -/
def mboxEvent (gk slot : Nat) : Nat := 2 ^ 50 + gk % 32 * 4 + slot

/-- The synchronisation event of the slot numbered `n` of a channel of a team. -/
def slotEvent (k n : Nat) : Nat := 2 ^ 51 + 2 * (n * 16 + k)

/-- The synchronisation event of the element numbered `n` of a FIFO bank. -/
def elemEvent (bank n : Nat) : Nat := 2 ^ 51 + 2 * (n * 4096 + bank) + 1

/-- Lanes of a group acquire: they are ordered after every event so far (R91, R93; log 29). -/
def State.acquire (s : State) (gk : Nat) (m : Mask) : State :=
  s.updGroup gk fun g => g.updLanes fun l ln => if m.getLsbD l then { ln with seen := s.wseq } else ln

/-! Barriers. -/

/-- The die span of a team: the die of its first placement. -/
def Team.span (t : Team) : Nat := t.firstCore / 192

/-- A barrier's key within its launch: die barriers 4 × die + K, package barriers 8 + K. -/
def spanKey (lvl : BarLevel) (die k : Nat) : Nat :=
  match lvl with
  | .pkg => 8 + k
  | _ => die * 4 + k

/-- The barrier that a team names (R253). -/
def State.bar (s : State) (lvl : BarLevel) (tuid k : Nat) : Barrier :=
  match s.team? tuid with
  | none => Barrier.reset
  | some t =>
    match lvl with
    | .team => SMap.getD t.bars k Barrier.reset
    | _ =>
      match s.launch? t.launch with
      | none => Barrier.reset
      | some l => SMap.getD l.bars (spanKey lvl t.span k) Barrier.reset

def State.setBar (s : State) (lvl : BarLevel) (tuid k : Nat) (b : Barrier) : State :=
  match s.team? tuid with
  | none => s
  | some t =>
    match lvl with
    | .team => s.updTeam tuid fun t => { t with bars := SMap.put t.bars k b }
    | _ => s.updLaunch t.launch fun l => { l with bars := SMap.put l.bars (spanKey lvl t.span k) b }

/-- Phase `tok` has completed: (c − tok) mod 2^32 lies in 1 … 2^31 (R255). -/
def phaseDone (c : Nat) (tok : Word) : Bool :=
  let d := (wordOf c - tok).toNat
  1 ≤ d && d ≤ 2 ^ 31

/-- The teams that a barrier counts: the team, the launch's teams of the die, or all of them (R253). -/
def State.barTeams (s : State) (lvl : BarLevel) (tuid : Nat) : List Nat :=
  match s.team? tuid with
  | none => []
  | some t =>
    match lvl with
    | .team => [tuid]
    | .die => (s.teams.filter fun x => x.2.launch == t.launch && x.2.tst ≠ .done && x.2.span == t.span).map (·.1)
    | .pkg => (s.teams.filter fun x => x.2.launch == t.launch && x.2.tst ≠ .done).map (·.1)

/-- The groups, not DONE, of some teams, by key. -/
def State.groupsOf (s : State) (ts : List Nat) : List (Nat × Group) :=
  s.groups.filter fun x => (x.1 / 32) ∈ ts && !x.2.ended

/-- Every group that the barrier counts has arrived in the open phase, and every counted command (R253). -/
def State.barFull (s : State) (lvl : BarLevel) (tuid k : Nat) : Bool :=
  let b := s.bar lvl tuid k
  let gs := s.groupsOf (s.barTeams lvl tuid)
  b.eng == 0 && !gs.isEmpty &&
    gs.all fun x => (x.2.live &&& ~~~(SMap.getD b.cur x.1 0#32)) == 0#32

/-- Cut a list into runs of `n`. -/
def chunks (n : Nat) : Nat → List Nat → List (List Nat)
  | 0, _ => []
  | fuel + 1, xs => if xs.isEmpty then [] else xs.take n :: chunks n fuel (xs.drop n)

/-- Cycles of a cluster's clock as cycles of the die network clock, rounded up. -/
def Cluster.dieCycles (c : Cluster) (n : Nat) : Nat := (n * 2050 + c.curBias.mhz - 1) / Nat.max 1 c.curBias.mhz

/-- When the target of a transfer made now by a group can issue: 2 cycles of its cluster later (R293). -/
def State.targetAt (s : State) (gk : Nat) : Nat := s.now + (s.cluster (s.coreOf gk / 8)).dieCycles 2

/-- The groups with a lane that waits at a barrier for a phase that has completed. -/
def State.waiters (s : State) (lvl : BarLevel) (tuid k : Nat) : List Nat :=
  let c := (s.bar lvl tuid k).phase
  ((s.groupsOf (s.barTeams lvl tuid)).filter fun x => x.2.lanes.any fun ln =>
    match ln.wait with
    | .bar lv j tok => decide (lv = lvl) && j == k && phaseDone c tok
    | _ => false).map (·.1)

/-- Schedule the release of a completed phase: per cluster, waves of W groups S cycles apart, G before H and older first
(R256, R373). -/
def State.scheduleWaves (s : State) (lvl : BarLevel) (tuid k : Nat) : State :=
  let gs := sortBy (fun gk => (if s.isH gk then 2 ^ 128 else 0) + s.ageKey gk) (s.waiters lvl tuid k)
  let cls := dedup (gs.map fun gk => s.coreOf gk / 8)
  cls.foldl (fun s cl =>
    let c := s.cluster cl
    let mine := gs.filter fun gk => s.coreOf gk / 8 == cl
    let ws := (chunks c.wave mine.length mine)
    let ws := (span 0 ws.length).map fun i => Wave.mk (s.now + c.dieCycles (i * c.space)) (atD ws i []) lvl k
    s.setCluster cl { c with waves := c.waves ++ ws }) s

/-- Lanes that were recorded in the next phase already retry now (R253). -/
def State.wakeRetries (s : State) (lvl : BarLevel) (tuid k done : Nat) : State :=
  (s.groupsOf (s.barTeams lvl tuid)).foldl (fun s x =>
    s.updGroup x.1 fun g => g.updLanes fun _ ln =>
      if ln.wait = .retry lvl k done then { ln with wait := .none } else ln) s

/-! Events. -/

/-- The condition of an event entry (R258). -/
def State.watchTrue (s : State) (gk : Nat) (g : Group) : EvWatch → Bool
  | .none => false
  | .bar lvl k tok => phaseDone (s.bar lvl (gk / 32) k).phase tok
  | .tl k v => (s.chan (chanKeyOf (s.isH gk) (s.coreOf gk) (gk / 32) k)).value ≥ v.toNat
  | .mbox i => (atD g.mbox i none).isSome

/-- Latch every armed entry whose condition holds (R259). -/
def State.latched (s : State) (gk : Nat) (g : Group) : List EvEntry :=
  g.evs.map fun e => if e.est = .armed ∧ s.watchTrue gk g e.watch then { e with est := .latched } else e

/-- The lowest entry that is latched and whose bit of %evm does not mask it (R261, R262). -/
def Group.firstEvent (g : Group) : Option Nat :=
  (span 0 8).find? fun i => (atD g.evs i EvEntry.reset).est == .latched && !g.evm.getLsbD i

/-- Serve entry `i`: it is spent, and every live lane enters its handler (R262). -/
def Group.serve (g : Group) (i : Nat) (len : Nat) (now ready : Nat) : Group :=
  let e := atD g.evs i EvEntry.reset
  let pc := (g.lane ((Mask.lowest g.live).getD 0)).pc
  { (g.updLanes fun _ ln => if ln.live then { ln with pc := e.handler, age := Nat.min ln.age now, readyAt := ready } else ln) with
    evs := setAt g.evs i { e with est := .spent }
    evhit := i
    retAddr := some (pc + dwordOf len)
    park := .none }

/-- The group's team is resident on its core. -/
def State.atHome (s : State) (gk : Nat) : Bool :=
  match s.team? (gk / 32) with
  | some t => t.tst == .resident
  | none => false

/-- The synchronisation event that the firing of an event entry follows: a barrier's phase or a message (R93). -/
def firing (gk : Nat) : EvWatch → Option Nat
  | .bar lvl k tok => some (barEvent lvl k tok)
  | .mbox i => some (mboxEvent gk i)
  | _ => none

/-- A group enters the handler of entry `i`, from a `wany` of `len` bytes: the entry acquires what its event follows, and the `wany`
counts as issued in the windows of earlier results (R93, R150, R262). -/
def State.enter (s : State) (gk i len : Nat) : State :=
  match s.group? gk with
  | none => s
  | some g =>
    let s := match firing gk (atD g.evs i EvEntry.reset).watch with
      | some key => s.observeOps gk key
      | none => s
    let s := s.acquire gk g.live
    s.updGroup gk fun g =>
      let g := Group.closeWindows s.fresh g g.live g.nextPend
      g.serve i len s.now (s.targetAt gk)

/-- Test a group's events; a resident group parked in `wany` enters the handler of the first that fired (R262). -/
def State.testEvents (s : State) (gk : Nat) : State :=
  match s.group? gk with
  | none => s
  | some g =>
    let g := { g with evs := s.latched gk g }
    let s := { s with groups := SMap.put s.groups gk g }
    match g.park, g.firstEvent with
    | .wany i, some k => if s.atHome gk then s.enter gk k i.len else s
    | _, _ => s

/-- Test the events of every group that has an armed entry. -/
def State.testAllEvents (s : State) : State :=
  ((s.groups.filter fun x => x.2.evs.any fun e => e.est == .armed).map (·.1)).foldl State.testEvents s

/-- Complete a barrier's open phase when everything has arrived (R253), and once more where the next is full too. -/
def State.completeBar : Nat → State → BarLevel → Nat → Nat → State
  | 0, s, _, _, _ => s
  | n + 1, s, lvl, tuid, k =>
    if s.barFull lvl tuid k then
      let b := s.bar lvl tuid k
      let s := s.setBar lvl tuid k ⟨b.phase + 1, b.nxt, [], 0⟩
      let s := s.wakeRetries lvl tuid k b.phase
      let s := s.scheduleWaves lvl tuid k
      State.completeBar n s.testAllEvents lvl tuid k
    else s

/-- Check every barrier that a team takes part in, as a cycle ends. -/
def State.checkBars (s : State) (tuid : Nat) : State :=
  match s.team? tuid with
  | none => s
  | some t =>
    let s := (SMap.keys t.bars).foldl (fun s k => State.completeBar 2 s .team tuid k) s
    match s.launch? t.launch with
    | none => s
    | some l =>
      (SMap.keys l.bars).foldl (fun s key =>
        -- a team that has ended still stands for its span, so the check runs for a team that has not
        let lvl : BarLevel := if key ≥ 8 then .pkg else .die
        let us := (s.teams.filter fun x => x.2.launch == t.launch && x.2.tst ≠ .done && (key ≥ 8 || x.2.span == key / 4)).map (·.1)
        match us with
        | [] => s
        | u :: _ => State.completeBar 2 s lvl u (if key ≥ 8 then key - 8 else key % 4)) s

/-- Release the wave at the head of a cluster's list (R256). -/
def State.releaseWave (s : State) (cl : Nat) : State :=
  let c := s.cluster cl
  match minBy (fun w => w.at_) c.waves with
  | none => s
  | some w =>
    let s := s.setCluster cl { c with waves := c.waves.erase w }
    w.gks.foldl (fun s gk =>
      match s.group? gk with
      | none => s
      | some g =>
        let done := (s.bar w.lvl (gk / 32) w.k).phase
        let waits := fun (ok : Bool) (ln : Lane) =>
          match ln.wait with
          | .bar lv j tok => ln.live && decide (lv = w.lvl) && j == w.k && phaseDone done tok == ok
          | _ => false
        -- a path goes on once every lane that waits with it is satisfied (R255)
        let out := Mask.ofPred fun l =>
          waits true (g.lane l) && !(g.lanes.any fun ln => waits false ln && ln.pc == (g.lane l).pc)
        let toks := (Mask.lanes out).filterMap fun l =>
          match (g.lane l).wait with
          | .bar _ _ tok => some tok
          | _ => none
        ((toks.foldl (fun s tok => s.observeOps gk (barEvent w.lvl w.k tok)) s).acquire gk out).passLanes gk out) s

/-- A command's arrival at its barrier, as its last event (R254, R105). -/
def State.engineArrive (s : State) (c : Cmd) : State :=
  match c.bar with
  | none => s
  | some (lvl, k) =>
    let b := s.bar lvl c.tuid k
    if b.phase = c.barPhase then s.setBar lvl c.tuid k { b with eng := b.eng - 1 } else s

/-! Timelines. -/

/-- The groups whose tl K may be a channel. -/
def State.groupsOfChan (s : State) (ch : Nat) : List (Nat × Group) :=
  s.groups.filter fun x => chanKeyOf (s.isH x.1) (s.coreOf x.1) (x.1 / 32) (ch % 16) == ch && !x.2.ended

/-- Paths of a group whose lanes are all satisfied complete their `tl.wait` on a channel (R264). -/
def State.wakeTlOf (s : State) (ch gk : Nat) : State :=
  let v := (s.chan ch).value
  match s.group? gk with
  | none => s
  | some g =>
    let waits := fun (ln : Lane) =>
      match ln.wait with
      | .tl k _ => ln.live && k == ch % 16
      | _ => false
    let unmet := fun (ln : Lane) =>
      match ln.wait with
      | .tl k u => ln.live && k == ch % 16 && decide (v < u.toNat)
      | _ => false
    let pcs := dedup ((g.lanes.filter fun ln => waits ln).map (·.pc))
    let ready := pcs.filter fun pc => !(g.lanes.any fun ln => ln.pc == pc && unmet ln)
    if ready.isEmpty then s
    else
      let m := Mask.ofPred fun l => let ln := g.lane l; waits ln && ln.pc ∈ ready
      (s.acquire gk m).passLanes gk m

/-- Paths that a channel's timeline lets go on (R264). -/
def State.wakeTl (s : State) (ch : Nat) : State := (s.groupsOfChan ch).foldl (fun s x => s.wakeTlOf ch x.1) s

/-- Raise a timeline's value over completed numbers (R104). -/
def Chan.raise : Nat → Chan → Chan
  | 0, c => c
  | n + 1, c =>
    if (c.value + 1) ∈ c.doneNums then
      Chan.raise n { c with value := c.value + 1, doneNums := c.doneNums.filter fun x => x ≠ c.value + 1 }
    else c

/-- A command is complete, in success or in error: its timeline and its barrier learn of it (R104, R254). -/
def State.finishCmd (s : State) (ch : Nat) (c : Cmd) : State :=
  let x := s.chan ch
  let x := { x with doneNums := x.doneNums ++ [c.num], errNum := if c.errored then Nat.max x.errNum c.num else x.errNum }
  let s := s.setChan ch (Chan.raise (x.doneNums.length) x)
  let s := s.wakeTl ch
  (s.testAllEvents).engineArrive c

/-- A command withdraws its expected arrival (R275). -/
def State.withdraw (s : State) (c : Cmd) : State :=
  match c.bar with
  | none => s
  | some (lvl, k) =>
    let b := s.bar lvl c.tuid k
    if b.phase = c.barPhase then s.setBar lvl c.tuid k { b with eng := b.eng - 1 } else s

end Sys2Proof.Machine
end

