-- ==== Sys2Proof/Machine/Tiles.lean ====
section
/-! DEFINITION. Operations on accumulator tiles: dependency slots (R152), what orders operations (R240), what they compute
(R126, R232, R233, R237, R243-R245), how they start, are overtaken and complete (R239, R241, R247, R248). -/

namespace Sys2Proof.Machine

/-! Slots and order. -/

/-- Whose dependency slots a group names: its gang's, or its own (R152). -/
def State.slotNs (s : State) (gk : Nat) : Nat :=
  match s.group? gk, s.team? (gk / 32) with
  | some g, some t =>
    if g.gang = 0 then gk
    else match t.gangs.find? fun x => x.members == g.gang with | some x => 2 ^ 40 + x.id | none => gk
  | _, _ => gk

/-- The operation set a slot that the mask names. -/
def AnvilOp.named (y : AnvilOp) (ns : Nat) (m : BitVec 8) : Bool :=
  y.ns == ns && match y.slot with | some k => m.getLsbD k | none => false

/-- A slot of the mask is busy. -/
def State.slotsBusy (s : State) (gk : Nat) (m : BitVec 8) : Bool :=
  match s.team? (gk / 32) with
  | none => false
  | some t => t.anvil.any fun y => !y.done && y.named (s.slotNs gk) m

/-- The started operations after which a new one takes effect: its accumulate chain, where it is an `mma` that reads its tiles
(`chain`), those whose slot it names, and those that a `dslot.wait` of a member has waited for (R240). -/
def State.opsBefore (s : State) (gk : Nat) (m : BitVec 8) (chain : Bool) (members : Mask) : List Nat :=
  match s.team? (gk / 32) with
  | none => []
  | some t =>
    let ns := s.slotNs gk
    (t.anvil.filter fun y => (chain && y.mma && y.ns == ns) || y.named ns m || y.seen &&& members != 0).map (·.id)

def DSlots.slot (ds : Sys2Proof.DSlots) : Option Nat := if ds.sset then some ds.sslot.toNat else none

/-! Forms of `mma` (Tables 10-1 and 10-3). -/

inductive MForm where
  | f16 | bf16 | e4m3 | e5m2 | s8 | ds8
  deriving DecidableEq, Repr

def mmaOf : Instr → Option (MForm × MmaArgs)
  | .mmaF16 _ x => some (.f16, x)
  | .mmaBf16 _ x => some (.bf16, x)
  | .mmaE4m3 _ x => some (.e4m3, x)
  | .mmaE5m2 _ x => some (.e5m2, x)
  | .mmaS8 _ x => some (.s8, x)
  | .mmaDs8 _ x => some (.ds8, x)
  | _ => none

def MForm.k : MForm → Nat
  | .f16 | .bf16 => 16
  | .ds8 => 64
  | _ => 32

/-- Bytes of an element. -/
def MForm.bytes : MForm → Nat
  | .f16 | .bf16 => 2
  | _ => 1

def MForm.regs : MForm → Nat
  | .ds8 => 8
  | _ => 4

/-- Slots of B (R233). -/
def MForm.slots (f : MForm) : Nat := f.k * f.bytes / 32

/-- The form's opcode (Table 10-3). -/
def MForm.opc : MForm → Nat
  | .f16 => 0x2C0 | .bf16 => 0x2C1 | .e4m3 => 0x2C2 | .e5m2 => 0x2C3 | .s8 => 0x2C4 | .ds8 => 0x2C5

/-- Element (m, k) of a fragment, given the registers of each lane (R232). -/
def MForm.aElem (f : MForm) (frag : List (List Word)) (m k : Nat) : Nat :=
  let per := 4 / f.bytes
  let kk := k % (f.k / 2)
  let w := atD (atD frag (m + 16 * (k / (f.k / 2))) []) (kk / per) 0
  field w.toNat (8 * f.bytes * (kk % per)) (8 * f.bytes)

/-- The byte offset of element (k, n) of B (R233). -/
def MForm.bOff (f : MForm) (tb : Bool) (k n : Nat) : Nat :=
  let kb := k * f.bytes % 32
  let sl := k * f.bytes / 32
  if tb then 512 * sl + 32 * (kb / 2) + 2 * n + kb % 2 else 512 * sl + 32 * n + kb

/-- A product, exact (R237). -/
def MForm.prod (f : MForm) (x : MmaArgs) (a b : Nat) : FVal :=
  let dec := fun (t : FFmt) (w : Nat) => decodeF t (flush t x.ftz w)
  match f with
  | .f16 => (dec fmtF16 a).mul (dec fmtF16 b)
  | .bf16 => (dec fmtBf16 a).mul (dec fmtBf16 b)
  | .e4m3 => (dec fmtE4m3 a).mul (dec fmtE4m3 b)
  | .e5m2 => (dec fmtE5m2 a).mul (dec fmtE5m2 b)
  | .s8 => FVal.ofInt ((if x.u then (a : Int) else intVal .s8 a) * (if x.ub then (b : Int) else intVal .s8 b))
  | .ds8 => ds8Mul a (if x.u then dec fmtE5m2 b else dec fmtE4m3 b)

/-! What operations compute (R237, R243-R245, R247). -/

/-- Elements of one tile by row and column. -/
def tileOf (tile : Nat) (f : Nat → Nat → BitVec 40) : SMap (BitVec 40) :=
  (span 0 256).map fun i => (tile * 256 + i, f (i / 16) (i % 16))

/-- x times 2^e, rounded into the accumulator; beyond 1000 either way every exponent gives one result. -/
def accScaled (x : FVal) (e : Int) : BitVec 40 :=
  let e := if e > 1000 then 1000 else if e < -1000 then -1000 else e
  BitVec.ofNat 40 (roundAcc (match x with | .fin neg m q => .fin neg m (q + e) | y => y))

/-- Byte (SEL + ⌊k ÷ 32⌋) mod 4 of a lane's scale register, the E8M0 scale of a K-block (R116). -/
def scaleByte (x : MmaArgs) (regs : List Word) (lane k : Nat) : Nat :=
  field (atD regs lane 0).toNat (8 * ((x.bsel.toNat + k / 32) % 4)) 8

/-- One member's tile (R237): its elements by row and column. -/
def MForm.tile (f : MForm) (x : MmaArgs) (nbv : Nat) (bs : List Byte) (scaleB : List Word) (acc : SMap (BitVec 40))
    (p : MmaPart) : SMap (BitVec 40) :=
  let ks := span 0 f.k
  let cols := (span 0 16).map fun n => ks.map fun k => leNat ((bs.drop (f.bOff x.tb k n)).take f.bytes)
  (span 0 16).flatMap fun m =>
    let row := ks.map fun k => f.aElem p.frag m k
    (span 0 16).map fun n =>
      let key := p.tile * 256 + m * 16 + n
      let c := if x.zc then FVal.fin false 0 0 else accVal (SMap.getD acc key 0)
      let ps := (ks.zip (row.zip (atD cols n []))).map fun y =>
        let q := f.prod x y.2.1 y.2.2
        if x.sc then scaleE8 (scaleE8 q (scaleByte x p.scaleA m y.1)) (scaleByte x scaleB (16 + n) y.1) else q
      (key, mmaElem (if f = .s8 then 2 else nbv) x.ftz c ps)

/-- The tile elements that an operation writes. -/
def AnvilCap.result : AnvilCap → SMap (BitVec 40)
  | .mma i nbv _ b scaleB parts acc =>
    match mmaOf i with
    | some (f, x) => parts.flatMap (f.tile x nbv b scaleB acc)
    | none => []
  | .mov d a wa => tileOf d fun m n => SMap.getD wa (a * 256 + m * 16 + n) 0
  | .add d a b wa wb => tileOf d fun m n =>
      BitVec.ofNat 40 (roundAcc (sumF [accVal (SMap.getD wa (a * 256 + m * 16 + n) 0), accVal (SMap.getD wb (b * 256 + m * 16 + n) 0)]))
  | .scale d a wa es => tileOf d fun m n => accScaled (accVal (SMap.getD wa (a * 256 + m * 16 + n) 0)) (atD es m 0 + atD es (16 + n) 0)
  | .fill d img _ => tileOf d fun m n => BitVec.ofNat 40 (leNat ((img.drop (5 * (16 * m + n))).take 5))
  | .known new => new
  | .drain .. => []
  | .spill .. => []

/-- The SR bit of a destination type. -/
def Tpb.srFor (x : Tpb) (ty : Sys2Proof.Ty) : Bool :=
  match ty with
  | .f32 => field x.srmask 0 1 == 1
  | .f16 => field x.srmask 1 1 == 1
  | .bf16 => field x.srmask 2 1 == 1
  | .e4m3 => field x.srmask 3 1 == 1
  | .e5m2 => field x.srmask 4 1 == 1
  | _ => false

/-- One element as it drains (R122, R130, R245). -/
def drainElem (ty : Sys2Proof.Ty) (x : Tpb) (sr : Bool) (tile m n : Nat) (w : BitVec 40) : Nat :=
  let sat := x.sat && (ty = .f16 || ty = .e5m2)
  let inf := x.inf && ty = .e4m3
  if !ty.isFloat then trunc ty (floatToInt ty .rne (accVal w))
  else if sr then
    roundSr (fmtOf ty) sat inf
      (philox (wordOf (16 * m + n)) (loW x.stream) (hiW x.stream) (wordOf tile) x.seed 0xFFFFFFFF#32).toNat (accVal w)
  else roundF (fmtOf ty) .rne sat inf (accVal w)

/-! Starting, and being overtaken (R239, R240). -/

/-- An element that an operation has read, once a later one that is not ordered after it writes the element: either value, a
free choice (R240). -/
def overtaken (fresh : Nat) (w : SMap (BitVec 40)) (x : Nat × BitVec 40) : Nat × BitVec 40 :=
  match SMap.find w x.1 with
  | some y => if Config.free 12 fresh x.1 % 2 = 0 then x else (x.1, y)
  | none => x

/-- What an operation read, once a later one that is not ordered after it writes `w` (R240). -/
def AnvilCap.overtake (fresh : Nat) (w : SMap (BitVec 40)) : AnvilCap → AnvilCap
  | .mma i nbv o b sb parts acc => .mma i nbv o b sb parts (acc.map (overtaken fresh w))
  | .mov d a wa => .mov d a (wa.map (overtaken fresh w))
  | .add d a b wa wb => .add d a b (wa.map (overtaken fresh w)) (wb.map (overtaken fresh w))
  | .scale d a wa es => .scale d a (wa.map (overtaken fresh w)) es
  | .spill gk l pc t wa img sent => .spill gk l pc t (if sent then wa else wa.map (overtaken fresh w)) img sent
  | c => c

/-- One register of a drain that is overtaken: each of its elements keeps its value or takes the later operation's (R240). -/
def drainWord (fresh : Nat) (w : SMap (BitVec 40)) (ty : Sys2Proof.Ty) (x : Tpb) (sr : Bool) (d tile lane : Nat) (q : Nat × Word) :
    Nat × Word :=
  let per := 4 / ty.bytes
  (q.1, wordOf (sumN ((span 0 per).map fun j =>
    let m := lane % 16
    let n := 8 * (lane / 16) + per * (q.1 - d) + j
    let old := field q.2.toNat (8 * ty.bytes * j) (8 * ty.bytes)
    let e := match SMap.find w (tile * 256 + m * 16 + n) with
      | some v => if Config.free 13 fresh (tile * 256 + m * 16 + n) % 2 = 0 then old else drainElem ty x sr tile m n v
      | none => old
    e * 2 ^ (8 * ty.bytes * j))))

/-- A drain's pending results, once a later operation that is not ordered after it writes `w`. -/
def State.overtakeDrain (s : State) (w : SMap (BitVec 40)) (y : AnvilOp) : State :=
  match y.cap with
  | .drain gk pend ty x sr d tile =>
    s.updGroup gk fun g => { g with pend := g.pend.map fun q =>
      if q.id = pend then
        { q with lanes := q.lanes.map fun p => { p with ws := p.ws.map (drainWord s.fresh w ty x sr d tile p.lane) } }
      else q }
  | _ => s

/-- An operation that is still running, once a later one that is not ordered after it writes `w`. -/
def AnvilOp.overtake (fresh : Nat) (after : List Nat) (w : SMap (BitVec 40)) (y : AnvilOp) : AnvilOp :=
  if y.done || after.contains y.id then y
  else
    let c := y.cap.overtake fresh w
    if c = y.cap then y else { y with cap := c, new := c.result }

/-- An operation starts: it is recorded with what it captured and what it writes (R239), and running operations that it is not
ordered after may read what it writes (R240). -/
def State.startOp (s : State) (gk : Nat) (m : BitVec 8) (slot : Option Nat) (chain : Bool) (members : Mask)
    (mma : Bool) (cap : AnvilCap) (tags : List (Nat × Nat)) : State :=
  let new := cap.result
  let y : AnvilOp := ⟨s.fresh, s.slotNs gk, slot, mma, new, s.opsBefore gk m chain members, false, 0, [], cap, tags⟩
  let late := match s.team? (gk / 32) with
    | some t => t.anvil.filter fun (z : AnvilOp) => !z.done && !y.after.contains z.id
    | none => []
  let s := late.foldl (fun s z => s.overtakeDrain new z) s
  s.updTeam (gk / 32) fun t => { t with anvil := t.anvil.map (AnvilOp.overtake s.fresh y.after new) ++ [y] }

/-! Completion (R239, R241, R248). -/

/-- Bytes of B, each granule of four as it was at the start of the operation or as it is at its completion (R241). -/
def mixGranules (fresh site : Nat) : Nat → List Byte → List Byte → List Byte
  | _, [], _ => []
  | i, a :: as, bs =>
    (if Config.free site fresh (i / 4) % 2 = 0 then a else bs.headD a) :: mixGranules fresh site (i + 1) as bs.tail

/-- An operation of an accumulate chain whose input an earlier one has changed; answers what it writes anew. -/
def AnvilOp.reread (ns : Nat) (cur : SMap (BitVec 40)) (y : AnvilOp) : AnvilOp × SMap (BitVec 40) :=
  match y.cap with
  | .mma i nbv o b sb parts acc =>
    if y.ns = ns ∧ (acc.any fun x => (SMap.find cur x.1).isSome) then
      let cap := AnvilCap.mma i nbv o b sb parts (acc.map fun x => (x.1, (SMap.find cur x.1).getD x.2))
      ({ y with cap := cap, new := cap.result }, cap.result)
    else (y, cur)
  | _ => (y, cur)

/-- The operations after one of them has changed what it writes: the later ones of its accumulate chain follow (R240). -/
def rereadAll (ns : Nat) : SMap (BitVec 40) → List AnvilOp → List AnvilOp
  | _, [] => []
  | cur, y :: ys =>
    let r := y.reread ns cur
    r.1 :: rereadAll ns r.2 ys

/-- The list with one operation replaced, and its accumulate chain after it. -/
def replaceOp (z : AnvilOp) : List AnvilOp → List AnvilOp
  | [] => []
  | y :: ys => if y.id = z.id then z :: (if z.mma then rereadAll z.ns z.new ys else ys) else y :: replaceOp z ys

/-- The bytes of an image as they stand now; `img` keeps those that come from another package. -/
def State.imageNow (s : State) (t : Team) (img : List Byte) : Image5 → List Byte
  | .scratch off => s.readScratch t off img.length
  | .lines ts => ((span 0 ts.length).zip ts).flatMap fun x =>
      match x.2 with
      | .mem pa tag => s.readBytes tag pa 128
      | _ => (img.drop (128 * x.1)).take 128

/-- The bytes of B, or of the image of a fill, that a running operation reads, with the stores that it may have met (R241). -/
def State.rereadB (s : State) (t : Team) (y : AnvilOp) : AnvilOp :=
  match y.cap with
  | .fill d img src =>
    let img' := mixGranules s.fresh 26 0 img (s.imageNow t img src)
    if img' = img then y else { y with cap := .fill d img' src, new := (AnvilCap.fill d img' src).result }
  | .mma i nbv o b sb parts acc =>
    let b' := mixGranules s.fresh 26 0 b (s.readScratch t o b.length)
    if b' = b then y
    else
      let cap := AnvilCap.mma i nbv o b' sb parts acc
      { y with cap := cap, new := cap.result }
  | _ => y

/-- The 1,280 bytes of a tile. -/
def tileBytes (f : Nat → Nat → BitVec 40) : List Byte := (span 0 256).flatMap fun i => natBytes 5 (f (i / 16) (i % 16)).toNat

/-- Write one line of an image, and note the request that a line of another package needs. -/
def State.spillLine (s : State) (gk l : Nat) (pc : DWord) (bs : List Byte) (acc : List (Nat × Nat)) (x : Nat × Target) :
    State × List (Nat × Nat) :=
  let line := (bs.drop (128 * x.1)).take 128
  match x.2 with
  | .mem pa tag => (((s.needMem pa).writeBytes tag pa line).askWrite (s.coreOf gk) (s.isH gk) tag (pa / 128), acc)
  | .remote pkg d va =>
    let tag := s.nextTag
    match s.tryRequest 2 (.lane gk l) pkg d line { Remote.blank with pc := pc, va := va } with
    | some s' => (s', acc ++ [(tag, x.1)])
    | none => (s, acc)
  | _ => (s, acc)

/-- The granules of a spill are written (R241, R247); answers the requests to other packages. -/
def State.spillImage (s : State) (t : Team) (y : AnvilOp) : State × AnvilOp :=
  match y.cap with
  | .spill gk l pc tile wa img false =>
    let bs := tileBytes fun m n => SMap.getD wa (tile * 256 + m * 16 + n) 0
    let (s, tags) : State × List (Nat × Nat) := match img with
      | .scratch off => ((s.touch t off 1280).writeScratch t off bs, [])
      | .lines ts => ((span 0 10).zip ts).foldl (fun acc x => acc.1.spillLine gk l pc bs acc.2 x) (s, [])
    (s, { y with cap := .spill gk l pc tile wa img true, tags := tags })
  | _ => (s, y)

/-- An operation whose requests have been answered, and those before it in its order complete, completes (R239). -/
def AnvilOp.canEnd (t : Team) (y : AnvilOp) : Bool :=
  !y.done && y.tags.isEmpty && t.anvil.all fun z => z.done || !y.after.contains z.id

/-- An operation reads and writes what is left to it, and completes unless requests to other packages stand (R239, R241). -/
def State.endOp (s : State) (tuid op : Nat) : State :=
  match s.team? tuid with
  | none => s
  | some t =>
    match t.anvil.find? fun y => y.id == op with
    | none => s
    | some y =>
      if !y.canEnd t then s
      else
        let r := s.spillImage t (s.rereadB t y)
        r.1.updTeam tuid fun t => { t with anvil := replaceOp { r.2 with done := r.2.tags.isEmpty } t.anvil }

/-- Every operation of a team completes, in the order of their starts (R248). -/
def State.endOps (s : State) (tuid : Nat) : State :=
  match s.team? tuid with
  | none => s
  | some t => (t.anvil.map (·.id)).foldl (fun s op => s.endOp tuid op) s

end Sys2Proof.Machine
end

