-- ==== Sys2Proof/Machine/Hg.lean ====
section
/-! DEFINITION. The hashed-grid region class: descriptor, cells, indices, weights (R78-R83) and the staging area (R220). -/

namespace Sys2Proof.Machine

/-- One level of a descriptor (Table 3-9). -/
structure HgLevel where
  n : Nat
  log2t : Nat
  toff : Nat
  goff : Nat
  deriving DecidableEq, Repr

/-- A hashed-grid descriptor (Table 3-9). -/
structure HgDesc where
  l : Nat
  d : Nat
  f : Nat
  ffmt : Nat
  interp : Nat
  detscat : Bool
  base : Nat
  gbase : Nat
  stoff : Nat
  stlen : Nat
  levels : List HgLevel
  deriving DecidableEq, Repr

/-- A little-endian field of a record. -/
def recField (bs : List Byte) (off size : Nat) : Nat := leNat ((bs.drop off).take size)

/-- Bytes of a record that must be zero. -/
def recZero (bs : List Byte) (off size : Nat) : Bool := ((bs.drop off).take size).all fun b => b == 0

/-- A descriptor read from its 320 bytes, where R79 accepts it. -/
def hgParse (bs : List Byte) : Option HgDesc :=
  let l := recField bs 2 1
  let d := recField bs 3 1
  let f := recField bs 4 1
  let ffmt := recField bs 5 1
  let interp := recField bs 6 1
  let base := recField bs 8 8
  let gbase := recField bs 0x10 8
  let level := fun i =>
    HgLevel.mk (recField bs (0x40 + 16 * i) 4) (recField bs (0x44 + 16 * i) 1) (recField bs (0x48 + 16 * i) 4)
      (recField bs (0x4C + 16 * i) 4)
  let levels := (span 0 l).map level
  let ok :=
    recField bs 0 2 == 4 && 1 ≤ l && l ≤ 16 && 1 ≤ d && d ≤ 32 && (f == 1 || f == 2 || f == 4 || f == 8) && ffmt ≤ 2 &&
    interp ≤ 1 && !(interp == 0 && decide (d > 4)) && (levels.all fun x => 1 ≤ x.n && x.n ≤ 2 ^ 24 && x.log2t ≤ 24) &&
    base % 128 == 0 && gbase % 128 == 0 && recField bs 7 1 ≤ 1 && recZero bs 0x20 32 &&
    ((span 0 l).all fun i => recZero bs (0x45 + 16 * i) 3) && Config.hasInterp interp
  if ok then
    some ⟨l, d, f, ffmt, interp, recField bs 7 1 == 1, base, gbase, recField bs 0x18 4, recField bs 0x1C 4, levels⟩
  else none

/-- Bytes of one feature. -/
def HgDesc.fbytes (h : HgDesc) : Nat := if h.ffmt = 2 then 4 else 2

/-- A feature of a format, converted exactly (R84). -/
def featVal (ffmt w : Nat) : FVal := decodeF (if ffmt = 0 then fmtF16 else if ffmt = 1 then fmtBf16 else fmtF32) w

/-- The patterns of `f` features in the bytes of an entry. -/
def featsOf (ffmt f : Nat) (bs : List Byte) : List Nat :=
  let w := if ffmt = 2 then 4 else 2
  (span 0 f).map fun e => recField bs (e * w) w

/-- The sums of R84 on one level, over corners by weight with their features. -/
def hgSums (f : Nat) (es : List (Nat × List FVal)) : List Word :=
  (span 0 f).map fun e =>
    wordOf (es.foldl (fun acc x =>
      roundF fmtF32 .rne false false (sumF [(decodeF fmtF32 x.1).mul (atD x.2 e .nan), decodeF fmtF32 acc])) 0)

/-- A lane's results from its corners, level by level (R84). -/
def partSums (ps : List HgPart) : List Word :=
  (dedup (ps.map (·.level))).flatMap fun k =>
    let mine := ps.filter fun p => p.level == k
    hgSums (match mine with | p :: _ => p.f | [] => 0) (mine.map fun p => (p.weight, p.feats.map (featVal p.ffmt)))

/-- FP32 rounding to nearest even of an exact value. -/
def r32 (x : FVal) : Nat := roundF fmtF32 .rne false false x

/-- The floor of a value that is not negative. -/
def floorNat : FVal → Nat
  | .fin _ m e => if 0 ≤ e then m * 2 ^ e.toNat else m / 2 ^ (-e).toNat
  | _ => 0

/-- A coordinate clamped to [0, 1] (R80). -/
def hgClamp (w : Nat) : FVal :=
  match decodeF fmtF32 w with
  | .nan => .fin false 0 0
  | .inf neg => if neg then .fin false 0 0 else .fin false 1 0
  | .fin neg m e =>
    if neg then .fin false 0 0 else if FVal.lt (.fin false 1 0) (.fin false m e) then .fin false 1 0 else .fin false m e

/-- The cell and the fraction, as an FP32 pattern, of a coordinate on a level (R80). -/
def hgCell (n : Nat) (w : Nat) : Nat × Nat :=
  let p := (hgClamp w).mul (.ofInt n)
  let c := Nat.min (floorNat p) (n - 1)
  (c, r32 (sumF [p, FVal.ofInt (-(c : Int))]))

/-- Multipliers of the hash (R81). -/
def hgPi (i : Nat) : Nat := if i = 0 then 1 else (2 * i + 1) * 0x9E3779B1 % 2 ^ 32

/-- The hash of a corner (R81). -/
def hgHash : Nat → List Nat → Nat
  | _, [] => 0
  | i, k :: ks => Nat.xor (k * hgPi i % 2 ^ 32) (hgHash (i + 1) ks)

/-- The dense index of a corner, dimension 0 fastest (R81). -/
def hgDense (n : Nat) : List Nat → Nat
  | [] => 0
  | k :: ks => k + (n + 1) * hgDense n ks

/-- The entry index of a corner (R81). -/
def HgLevel.index (x : HgLevel) (ks : List Nat) : Nat :=
  if (x.n + 1) ^ ks.length ≤ 2 ^ x.log2t then hgDense x.n ks else hgHash 0 ks % 2 ^ x.log2t

/-- Weight of a multilinear corner (R82). -/
def hgLinWeight (b : Nat) : Nat → Nat → List Nat → Nat
  | _, w, [] => w
  | i, w, f :: fs =>
    let g := if b / 2 ^ i % 2 = 1 then f else r32 (sumF [.fin false 1 0, (decodeF fmtF32 f).neg])
    hgLinWeight b (i + 1) (r32 ((decodeF fmtF32 w).mul (decodeF fmtF32 g))) fs

/-- The dimensions by fraction, descending, equal fractions by index (R83). -/
def hgOrder (fs : List Nat) : List Nat :=
  -- the patterns of numbers in [0, 1] are ordered as the numbers
  (sortBy (fun i => 2 ^ 40 - atD fs i 0) (span 0 fs.length))

/-- Weights of the vertices of the Kuhn simplex (R83). -/
def hgSimplexWeights (fs : List Nat) : List Nat :=
  let o := (hgOrder fs).map fun i => decodeF fmtF32 (atD fs i 0)
  let first := r32 (sumF [.fin false 1 0, (atD o 0 (.fin false 0 0)).neg])
  let mid := (span 1 (fs.length - 1)).map fun j => r32 (sumF [atD o (j - 1) .nan, (atD o j .nan).neg])
  first :: mid ++ [r32 (atD o (fs.length - 1) (.fin false 0 0))]

/-- Vertices of the Kuhn simplex, as corner offsets (R83). -/
def hgSimplexVerts (d : Nat) : List Nat → List Nat → List (List Nat)
  | [], ks => [ks]
  | i :: is, ks => ks :: hgSimplexVerts d is (setAt ks i (atD ks i 0 + 1))

/-- Corners of a level for one lane's coordinates, in ascending binary index: entry index and FP32 weight (R81-R83). -/
def HgDesc.corners (h : HgDesc) (x : HgLevel) (coords : List Nat) : List (Nat × Nat) :=
  let cells := coords.map (hgCell x.n)
  let cs := cells.map (·.1)
  let fs := cells.map (·.2)
  if h.interp = 0 then
    (span 0 (2 ^ h.d)).map fun b =>
      let ks := (span 0 h.d).map fun i => atD cs i 0 + b / 2 ^ i % 2
      (x.index ks, hgLinWeight b 0 0x3F800000 fs)
  else
    ((hgSimplexVerts h.d (hgOrder fs) cs).map x.index).zip (hgSimplexWeights fs)

/-- The address of an entry's features, and of its gradients, on a level. -/
def HgDesc.featAddr (h : HgDesc) (x : HgLevel) (idx : Nat) : Nat :=
  (h.base + 128 * x.toff + idx * h.f * h.fbytes) % 2 ^ 64

def HgDesc.gradAddr (h : HgDesc) (elem : Nat) : Nat := (h.gbase + 4 * elem) % 2 ^ 64

/-- Segment size of the staging area for a team of `groups` groups (R220). -/
def HgDesc.segment (h : HgDesc) (groups : Nat) : Nat := h.stlen / (8 * Nat.max 1 groups) * 8

/-- One segment's entries as they stand in the scratchpad: gradient address and value (R220). -/
def State.segEntries (s : State) (t : Team) (h : HgDesc) (g : Nat) : List (Nat × BitVec 128) :=
  let base := h.stoff + g * h.segment t.groups
  let n := Nat.min (leNat (s.readScratch t base 4)) ((h.segment t.groups - 8) / 8)
  (span 0 n).map fun i =>
    (h.gradAddr (leNat (s.readScratch t (base + 8 + 8 * i) 4)), BitVec.ofNat 128 (leNat (s.readScratch t (base + 12 + 8 * i) 4)))

/-- Every entry of a team's staging area, groups ascending, and the state with each header reset (R220, R270). -/
def State.takeSegments (s : State) (t : Team) (h : HgDesc) : State × List (Nat × BitVec 128) :=
  let xs := (span 0 t.groups).flatMap fun g => s.segEntries t h g
  ((span 0 t.groups).foldl (fun s g => s.writeScratch t (h.stoff + g * h.segment t.groups) (natBytes 4 0)) s, xs)

/-- The staging area lies within the team's scratchpad, 8-byte aligned (R217). -/
def HgDesc.stageOk (h : HgDesc) (t : Team) : Bool := h.stoff % 8 == 0 && h.stoff + h.stlen ≤ t.scratchBytes

end Sys2Proof.Machine
end

