-- ==== Sys2Proof/Machine/Engine.lean ====
section
/-! DEFINITION. Tongs: running, staging, discarding and completing engine commands (R265-R270, R275, R337). -/

namespace Sys2Proof.Machine

/-- The launch of a command. -/
def State.cmdLaunch (s : State) (c : Cmd) : Option Launch :=
  match s.team? c.tuid with
  | none => none
  | some t => s.launch? t.launch

def State.cmdPart (s : State) (c : Cmd) : Nat := match s.cmdLaunch c with | some l => l.part | none => 0

/-- The core whose engine runs a command. -/
def State.cmdCore (s : State) (c : Cmd) : Nat := match s.team? c.tuid with | some t => t.core | none => 0

/-- The class of a command. -/
def State.cmdH (s : State) (c : Cmd) : Bool := match s.cmdLaunch c with | some l => l.classH | none => false

/-- The slot under which a command was released has this value (R265); none for a command without a slot. -/
def State.guardOf (s : State) (c : Cmd) : Option GSlot :=
  match c.guard, s.group? c.gk with
  | some k, some g => some (atD g.guards k .unresolved)
  | _, _ => none

/-- An entry that a command raises (Table 17-2). -/
def State.cmdEntry (s : State) (ch : Nat) (c : Cmd) (cause : Cause) (addr : Nat) (w : Bool) : FEntry :=
  let i : FInfo := ⟨cause, 0, 0, dwordOf c.num, dwordOf addr, dwordOf c.tidx, w⟩
  let target : FTarget := if cause.cls = .replay then .command ch else .none
  match s.team? c.tuid with
  | none => ⟨i, true, 0, 0, 0, [], target⟩
  | some t =>
    match s.launch? t.launch with
    | none => ⟨i, true, s.whereWord c.gk (ch % 16), 0, t.num, [], target⟩
    | some l => ⟨i, true, s.whereWord c.gk (ch % 16), l.faultWord, t.num, [], target⟩

/-! Presence bits (R67-R69). -/

/-- Set the bits that this command cleared last. -/
def State.setPresence (s : State) (c : Cmd) : State :=
  { s with absentLines := s.absentLines.filter fun x => x.2 ≠ c.seq }

/-- Clear the bits of a command's destination lines. -/
def State.clearPresence (s : State) (c : Cmd) : State :=
  { s with absentLines := c.lines.foldl (fun m l => SMap.put m l c.seq) s.absentLines }

/-- Lines of a team's scratchpad from one operand on, `n` elements of `size` bytes (R67). -/
def rowLines (t : Team) (off n size : Nat) : List Nat :=
  if off ≥ t.scratchBytes then []
  else
    let m := Nat.min n ((t.scratchBytes - off) / size)
    if m = 0 then []
    else (span (off / 128) ((off + m * size - 1) / 128 + 1 - off / 128)).map fun x => t.sramKey (128 * x) / 128

/-- The team and offset of a destination operand. -/
def State.destOf (s : State) (tuid spc opnd : Nat) : Option (Team × Nat) :=
  match s.operandPlace tuid spc opnd 1 with
  | .sram u o => (s.team? u).map fun t => (t, o)
  | _ => none

/-- The scratchpad lines that a command writes from its cursor on (R67). -/
def State.destLines (s : State) (c : Cmd) : List Nat :=
  let r0 := c.cursor / Nat.max 1 c.rlen
  let rows := fun (u : Nat) =>
    (span r0 (c.rows - r0)).flatMap fun r =>
      let j := if r = r0 then c.cursor % Nat.max 1 c.rlen else 0
      match s.destOf u c.dspc ((c.dbase.toNat + r * c.dstride + j * c.dfmt.bytes) % 2 ^ 32) with
      | some (t, o) => rowLines t o (c.rlen - j) c.dfmt.bytes
      | none => []
  if c.dspc = 0 then []
  else if c.kind = .multicast then c.recv.flatMap fun q => rows q.1
  else rows c.tuid

/-- The last write of a command to a line has landed: the bits of the lines that it cleared last and writes no more are set (R67). -/
def State.landLines (s : State) (c : Cmd) : State :=
  if c.dspc = 0 ∨ s.absentLines = [] then s
  else
    let left := s.destLines c
    { s with absentLines := s.absentLines.filter fun x => x.2 ≠ c.seq || left.contains x.1 }

/-! Elements. -/

/-- Elements that a command moves; a merge counts as one. -/
def Cmd.total (c : Cmd) : Nat := if c.gmerge then 1 else c.rows * c.rlen

/-- How a step of a command went. -/
inductive CRes where
  | done | more | wait
  | error (va : Nat) (w : Bool)
  | fault (va : Nat) (w : Bool)
  deriving DecidableEq, Repr

/-- A permanent fault ends a command in error; a translation that is not present, or a memory error, abandons it (R269). -/
def faultRes (cause : Cause) (va : Nat) (w : Bool) : CRes :=
  if cause = .pageFault ∨ cause = .memError then .fault va w else .error va w

/-- The translation that an access of a command uses, and the request that it makes of the line's home (R12, R346, R356). -/
def State.engineNote (s : State) (ch : Nat) (c : Cmd) (w : Bool) (pl : EPlace) (size : Nat) : State :=
  match pl with
  | .glob va =>
    match s.engineXlate (s.cmdPart c) (s.cmdCore c) (if w then .write else .read) va with
    | .mem pa tag =>
      (s.noteXlate (s.cmdPart c) (s.cmdCore c) (s.cmdH c) va).askOnce
        ⟨pa / 128, 1, 2, s.cmdH c, s.cmdCore c, w, tag, if c.kind = .multicast ∧ w = false then some (ch, c.num) else none, 0⟩
    | _ => s
  | .sram t off => match s.team? t with | some y => s.touch y off size | none => s
  | .bad _ => s

/-- A value read for a command, the state with a request sent where it lies in another package, or how the run stops. -/
def State.readVia (s : State) (ch : Nat) (c : Cmd) (pl : EPlace) (size : Nat) : Sum Nat (State × CRes) :=
  -- an element below a granule is read with its granule, as one event (R102)
  let va := match pl with | .glob va => va | _ => 0
  let from_ := if size < 4 then va / 4 * 4 else va
  let n := Nat.max 4 size
  let key := 2 ^ 60 + from_
  match s.readElem (s.cmdPart c) (s.cmdCore c) pl size with
  | .ok x => .inl x
  | .fault cause _ a => .inr (s, faultRes cause a false)
  | .remote pkg a =>
    match c.rcache.find? fun x => x.1 == key with
    | some x => .inl (x.2 / 2 ^ (8 * (va - from_)) % 2 ^ (8 * size))
    | none =>
      if s.remotes.any fun r => r.src == .engine ch c.num && r.isLoad && r.pend == key then .inr (s, .wait)
      else
        match s.tryRequest 0 (.engine ch c.num) pkg (a - (va - from_)) (natBytes 2 n ++ [0])
            { Remote.blank with isLoad := true, pend := key, va := va } with
        | some s' => .inr (s', .wait)
        | none => .inr (s, .error va false)

/-- Write an element, or the elements of one granule, by a frame where they lie in another package. -/
def State.writeVia (s : State) (ch : Nat) (c : Cmd) (pl : EPlace) (size x : Nat) : Sum State CRes :=
  match s.writeElem (s.cmdPart c) (s.cmdCore c) pl size x with
  | .ok s' => .inl s'
  | .fault cause _ va => .inr (faultRes cause va true)
  | .remote pkg a =>
    let va := match pl with | .glob va => va | _ => 0
    match s.tryRequest 2 (.engine ch c.num) pkg a (natBytes size x) { Remote.blank with va := va } with
    | some s' => .inl s'
    | none => .inr (.error va true)

/-- The row of the source that row r reads: r itself, or in a gather the index (R268). -/
def State.rowOf (s : State) (ch : Nat) (c : Cmd) (r : Nat) : Sum Nat (State × CRes) :=
  if c.kind = .gather then
    let size := if c.idx64 then 8 else 4
    s.readVia ch c (s.elemPlace c.tuid c.sspc c.ibase r size 0 size) size
  else .inl r

/-- Deliver a granule of a multicast read to each receiving team that still takes it (R268). -/
def State.deliver (s : State) (c : Cmd) (off size x : Nat) : Option State :=
  c.recv.foldl (fun acc q =>
    match acc, s.team? q.1 with
    | some s', some t =>
      if t.tst = .done || t.reclaimed then some s'
      else
        match s'.operandPlace q.1 1 off c.dfmt.bytes with
        | .sram u o =>
          match s'.team? u with
          | some y => some ((s'.writeScratch y o (natBytes size x)).touch y o size)
          | none => some s'
        | _ => none
    | a, _ => a) (some s)

/-- What the scratchpad granules at some places hold before `size` bytes of each are written (R69). -/
def State.oldAt (s : State) (ps : List EPlace) (size : Nat) : List (Nat × Nat × List Byte) :=
  ps.flatMap fun p =>
    match p with
    | .sram t o =>
      match s.team? t with
      | some y => (span 0 ((size + 3) / 4)).map fun i => (t, o + 4 * i, s.readScratch y (o + 4 * i) (Nat.min 4 (size - 4 * i)))
      | none => []
    | _ => []

/-- Elements from the cursor on that lie in one granule of the destination, or one element where it fills granules (R68, R102). -/
def Cmd.inGranule (c : Cmd) : Nat :=
  let j := c.cursor % Nat.max 1 c.rlen
  let a := c.dbase.toNat + c.cursor / Nat.max 1 c.rlen * c.dstride + j * c.dfmt.bytes
  if c.dfmt.bytes ≥ 4 then 1 else Nat.max 1 (Nat.min (c.rlen - j) ((4 - a % 4) / c.dfmt.bytes))

/-- The values of `n` elements of a source row, converted, as one number. -/
def readRun (ch : Nat) (c : Cmd) (row : Nat) : Nat → Nat → State → Sum (State × Nat) (State × CRes)
  | _, 0, s => .inl (s, 0)
  | j, n + 1, s =>
    let src := s.elemPlace c.tuid c.sspc c.sbase row c.sstride j c.sfmt.bytes
    match s.readVia ch c src c.sfmt.bytes with
    | .inr e => .inr e
    | .inl w =>
      match readRun ch c row (j + 1) n (s.engineNote ch c false src c.sfmt.bytes) with
      | .inr e => .inr e
      | .inl (s', x) => .inl (s', cvElem c.sfmt c.dfmt c.sat c.inf w % 2 ^ (8 * c.dfmt.bytes) + 2 ^ (8 * c.dfmt.bytes) * x)

/-- One granule of a command's destination, or one element (R102, R268): a reduce-store's goes to the staging buffer. -/
def State.elemStep (s : State) (ch : Nat) (c : Cmd) : State × Cmd × CRes :=
  let r := c.cursor / c.rlen
  let j := c.cursor % c.rlen
  let staged := c.kind = .reduceStore ∨ c.kind = .collective
  let n := if staged then 1 else c.inGranule
  let size := n * c.dfmt.bytes
  match s.rowOf ch c r with
  | .inr (s', e) => (s', c, e)
  | .inl row =>
    let src := s.elemPlace c.tuid c.sspc c.sbase row c.sstride j c.sfmt.bytes
    let off := c.dbase.toNat + r * c.dstride + j * c.dfmt.bytes
    let dst :=
      match c.kind with
      | .multicast => c.recv.map fun q => s.operandPlace q.1 1 (off % 2 ^ 32) c.dfmt.bytes
      | .reduceStore | .collective => []
      | _ => [s.elemPlace c.tuid c.dspc c.dbase r c.dstride j c.dfmt.bytes]
    -- a bank that is not in service stalls the command for its wake (R73)
    if !(s.asleep (src :: dst)).isEmpty then (s.startWake (s.asleep (src :: dst)), c, .wait)
    else
    match readRun ch c row j n s with
    | .inr (s', e) => (s', c, e)
    | .inl (s, x) =>
      let next := { c with cursor := c.cursor + n, undo := s.oldAt dst size ++ c.undo }
      match c.kind with
      | .reduceStore | .collective =>
        -- updates go to the staging buffer, and the elements of a collective to its engine's buffer
        (s, { next with stagedV := c.stagedV ++ [(off % 2 ^ 64, BitVec.ofNat 128 x)] }, .more)
      | .multicast =>
        match s.deliver c (off % 2 ^ 32) size x with
        | some s' => (s', next, .more)
        | none => (s, c, .error (off % 2 ^ 32) true)
      | _ =>
        let d := s.elemPlace c.tuid c.dspc c.dbase r c.dstride j c.dfmt.bytes
        match s.writeVia ch c d size x with
        | .inl s' => (s'.engineNote ch c true d size, next, .more)
        | .inr e => (s, c, e)

/-- At most `n` granules of a command, from its cursor on. -/
def State.runElems : Nat → State → Nat → Cmd → State × Cmd × CRes
  | 0, s, _, c => (s, c, if c.cursor ≥ c.total then .done else .more)
  | n + 1, s, ch, c =>
    if c.cursor ≥ c.total then (s, c, .done)
    else
      match s.elemStep ch c with
      | (s', c', .more) => State.runElems n s' ch c'
      | r => r

/-- The granules that a command in error has not reached, as it would have written them; one that it cannot write is left. -/
def State.restOfFailed : Nat → State → Nat → Cmd → State × Cmd
  | 0, s, _, c => (s, c)
  | n + 1, s, ch, c =>
    if c.cursor ≥ c.total then (s, c)
    else
      match s.elemStep ch c with
      | (s', c', .more) => State.restOfFailed n s' ch c'
      | _ => State.restOfFailed n s ch { c with cursor := c.cursor + c.inGranule }

/-- A copy, gather or multicast read ends in error: each scratchpad granule that it writes holds its value before the command or the
one that the command would have written, a free choice (R69, R269). A command that writes elsewhere stops where it is. -/
def State.failElems (s : State) (ch : Nat) (c : Cmd) : State :=
  if c.dspc = 0 then s
  else
    let (s, c) := State.restOfFailed (c.total - c.cursor) s ch c
    c.undo.foldl (fun s x =>
      match s.team? x.1 with
      | some y => if Config.free 24 s.fresh (x.1 * 2 ^ 23 + x.2.1) % 2 = 0 then s else s.writeScratch y x.2.1 x.2.2
      | none => s) s

/-! Merges (R220, R270). -/

/-- A command's record read granule by granule, with what it waits for or fails on (R99, R106). -/
def State.cmdRecord (s : State) (ch : Nat) (c : Cmd) (va n : Nat) : Sum (List Byte) (State × CRes) :=
  let parts : List (Sum (List Byte) (State × CRes)) := (span 0 (n / 4)).map fun i =>
    let a := va + 4 * i
    match s.readElem (s.cmdPart c) (s.cmdCore c) (.glob a) 4 with
    | .ok x => Sum.inl (natBytes 4 x)
    | .fault cause _ a => Sum.inr (s, faultRes cause a false)
    | .remote pkg d =>
      match s.recAt (.command ch) a 4 with
      | some [] => Sum.inr (s, .error a false)
      | some bs => Sum.inl bs
      | none => Sum.inr (s.askRecord (.command ch) (.engine ch c.num) pkg d a, .wait)
  match parts.find? fun x => x.isRight with
  | some (.inr e) => .inr e
  | _ => .inl (parts.flatMap fun x => match x with | .inl bs => bs | .inr _ => [])

/-- Read the descriptor of a merge and take the team's staged entries, resetting each header; a bank of the staging area that is not
in service stalls it (R73). -/
def State.takeMerge (s : State) (ch : Nat) (c : Cmd) : State × Cmd × CRes :=
  match s.team? c.tuid with
  | none => (s, c, .error c.hgd.toNat false)
  | some t =>
    match s.cmdRecord ch c c.hgd.toNat 320 with
    | .inr (s, e) => (s, c, e)
    | .inl bs =>
      match hgParse bs with
      | none => (s, c, .error c.hgd.toNat false)
      | some h =>
        if c.hgd.toNat % 64 ≠ 0 ∨ !h.stageOk t then (s, c, .error c.hgd.toNat false)
        else
          let bs := (t.banksOf h.stoff h.stlen).filter fun b => decide ((s.bank b).pwr ≠ .on)
          if !bs.isEmpty then (s.startWake bs, c, .wait)
          else
            let (s', xs) := s.takeSegments t h
            (s'.dropRecs (.command ch), { c with cursor := 1, stagedV := xs }, .done)

/-- Every team before a merge's team, in R220's order, has completed its command of the round, or has ended; and every
team of the launch has been placed (R270). -/
def State.mergeTurn (s : State) (c : Cmd) : Bool :=
  match s.team? c.tuid with
  | none => true
  | some t =>
    match s.launch? t.launch with
    | none => true
    | some l =>
      let before := s.teams.filter fun x =>
        x.2.launch == t.launch && decide (x.2.firstCore * 2 ^ 32 + x.2.num < t.firstCore * 2 ^ 32 + t.num)
      let pending := fun (u : Nat) => s.chans.any fun x =>
        (x.2.queue ++ x.2.staged).any fun d => d.gmerge && d.tuid == u && decide (d.round ≤ c.round)
      l.placed == l.teams &&
        before.all fun x => (x.2.tst == .done || decide (x.2.mergeCount ≥ c.round)) && !pending x.1

/-- A merge whose team ends takes the staged entries while they last (R270). -/
def State.captureMerges (s : State) (tuid : Nat) : State :=
  (SMap.keys s.chans).foldl (fun s ch =>
    let x := s.chan ch
    let (s, q) := x.queue.foldl (fun (acc : State × List Cmd) c =>
      if c.gmerge && c.tuid == tuid && c.cursor == 0 then
        let (s', c', e) := acc.1.takeMerge ch c
        (s', acc.2 ++ [if e = .done then c' else { c with errored := true, ran := true, errVa := c.hgd.toNat }])
      else (acc.1, acc.2 ++ [c])) (s, [])
    if q = x.queue then s else s.setChan ch { x with queue := q }) s

/-! Running the command at a queue head. -/

/-- Staging-buffer bytes that a command counts (R275). -/
def Cmd.stageBytes (c : Cmd) : Nat :=
  if c.gmerge then 8 * c.stagedV.length else c.rows * c.rlen * c.dfmt.bytes

/-- Bytes in use in a channel's staging buffer. -/
def Chan.stagedBytes (x : Chan) : Nat := sumN (x.staged.map Cmd.stageBytes)

/-- A reduce-store whose group's region is still open is staged (R275). -/
def Cmd.isStaged (c : Cmd) : Bool := c.kind == .reduceStore && c.region != 0

/-- The partition of a command is SAVED or SHADOW, and its queue pauses (R337). -/
def State.cmdPaused (s : State) (c : Cmd) : Bool := (s.part (s.cmdPart c)).pst == .saved || (s.part (s.cmdPart c)).pst == .shadow

/-- A command at the head of its queue takes the value that its slot has there, or the first that it is set to (R265). -/
def State.latchCmd (s : State) (c : Cmd) : Cmd :=
  match s.guardOf c with
  | some .isTrue => { c with guard := none }
  | some .isFalse => { c with guard := none, discard := true }
  | _ => c

/-- Every command at the head of a queue takes the value of its slot (R265). -/
def State.latchHeads (s : State) : State :=
  { s with chans := s.chans.map fun x =>
      (x.1, match x.2.queue with
        | c :: cs => if c.guard.isNone then x.2 else { x.2 with queue := s.latchCmd c :: cs }
        | [] => x.2) }

/-- The head of a queue may run: neither discarded nor finished, not waiting, its guard absent or TRUE, a merge in its
turn, and a staged one within the channel's space (R265, R270, R275). -/
def State.headRuns (s : State) (ch : Nat) : Bool :=
  let x := s.chan ch
  match x.queue with
  | [] => false
  | c :: _ =>
    let c := s.latchCmd c
    !c.ran && !c.discard && !c.waiting && !s.cmdPaused c && c.guard.isNone &&
    (!c.gmerge || s.mergeTurn c) &&
    (!c.isStaged || (c.gmerge && c.cursor == 0) || x.stagedBytes + c.stageBytes ≤ 65536)

/-- Put back the head of a queue. -/
def State.setHead (s : State) (ch : Nat) (c : Cmd) : State :=
  let x := s.chan ch
  s.setChan ch { x with queue := c :: x.queue.drop 1 }

/-- A command that met a translation fault is abandoned, to be replayed whole after a response (R269). -/
def State.abandon (s : State) (ch : Nat) (c : Cmd) (va : Nat) (w : Bool) : State :=
  s.raiseEntry (s.cmdPart c) (s.cmdEntry ch c .engineFault va w)

/-- Updates read into the staging buffer are applied, or stay there until the region ends (R269, R275). -/
def State.applyHead (s : State) (ch : Nat) (c : Cmd) : State :=
  let x := s.chan ch
  if c.isStaged then
    if x.stagedBytes + c.stageBytes ≤ 65536 then
      s.setChan ch { x with queue := x.queue.drop 1, staged := x.staged ++ [c] }
    else s.setHead ch c
  else
    let ty := if c.gmerge then Ty.f32 else c.dfmt
    let (s, rest, f) := s.applyStaged (s.cmdPart c) (s.cmdCore c) (.engine ch c.num) ty (if c.gmerge then 0 else c.rop) c.stagedV
    match f with
    | none => s.setHead ch { c with stagedV := [], ran := true }
    | some (cause, _, va) =>
      if cause = .pageFault ∨ cause = .memError then
        (s.setHead ch { c with stagedV := rest, waiting := true }).abandon ch c va true
      else s.setHead ch { c with stagedV := [], ran := true, errored := true, errVa := va, errW := true }

/-- Run the head of a queue for at most `n` elements, of a command of kind `k`. -/
def State.runHead (s : State) (ch n : Nat) (k : CmdKind) : State :=
  match (s.chan ch).queue with
  | [] => s
  | c :: _ =>
    if c.kind ≠ k ∨ !s.headRuns ch then s
    else
      -- the slot's value is taken here, once (R265)
      let c := { c with guard := none }
      let (s, c, e) :=
        if c.cursor ≥ c.total then (s, c, CRes.done)
        else if c.gmerge then s.takeMerge ch c
        else s.runElems n ch c
      match e with
      | .more => (s.landLines c).setHead ch c
      | .wait => (s.landLines c).setHead ch { c with waiting := true }
      | .error va w =>
        (if c.gmerge || c.kind == .reduceStore then s else s.failElems ch c).setHead ch
          { c with ran := true, errored := true, stagedV := [], errVa := va, errW := w }
      | .fault va w =>
        (s.setHead ch { c with cursor := 0, attempt := (c.attempt + 1) % 16, stagedV := [], rcache := [], waiting := true }).abandon
          ch c va w
      | .done =>
        match c.kind with
        | .reduceStore => s.applyHead ch c
        | _ => (s.setPresence c).setHead ch { c with ran := true }

/-- No multicast read of a command is in progress once it completes (R283). -/
def State.endMcasts (s : State) (ch : Nat) (c : Cmd) : State :=
  { s with mcasts := s.mcasts.filter fun m => m.cmd ≠ (ch, c.num) }

/-- Requests of a command to other packages that have not been answered. -/
def State.cmdRemotes (s : State) (ch num : Nat) : Bool := s.remotes.any fun r => r.src == .engine ch num

/-- Complete the head of a queue: its presence bits are set, an error is reported, and its timeline and barrier learn of it
(R104, R105, R269). -/
def State.completeHead (s : State) (ch : Nat) : State :=
  let x := s.chan ch
  match x.queue with
  | [] => s
  | c :: rest =>
    let s := (s.setChan ch { x with queue := rest }).setPresence c
    let s := if c.errored then s.raiseEntry (s.cmdPart c) (s.cmdEntry ch c .engineError c.errVa c.errW) else s
    (s.endMcasts ch c).finishCmd ch c

/-- The head is to be discarded: its slot is FALSE, or its launch was killed (R265, R331). -/
def State.headDiscards (s : State) (ch : Nat) : Bool :=
  match (s.chan ch).queue with
  | [] => false
  | c :: _ => !c.ran && !s.cmdPaused c && (s.latchCmd c).discard && !s.cmdRemotes ch c.num

/-- Discard the head: it completes without effect (R265). -/
def State.discardHead (s : State) (ch : Nat) : State :=
  if s.headDiscards ch then
    let x := s.chan ch
    match x.queue with
    | [] => s
    | c :: rest => (((s.setChan ch { x with queue := rest }).setPresence c).endMcasts ch c).finishCmd ch c
  else s

/-! Staged commands at the end of a region, a group or a team (R275). -/

/-- Every queued or staged command of a group, with its channel, in issue order. -/
def State.stagedOf (s : State) (gk : Nat) : List (Nat × Cmd) :=
  sortBy (fun x => x.2.seq) (s.chans.flatMap fun x => (x.2.staged.filter fun c => c.gk == gk).map fun c => (x.1, c))

/-- Take a staged command out of its channel. -/
def State.unstage (s : State) (ch : Nat) (c : Cmd) : State :=
  let x := s.chan ch
  s.setChan ch { x with staged := x.staged.filter fun d => d.seq ≠ c.seq }

/-- Put a staged command back. -/
def State.putStaged (s : State) (ch : Nat) (c : Cmd) : State :=
  let x := s.chan ch
  s.setChan ch { x with staged := x.staged.map fun d => if d.seq = c.seq then c else d }

/-- A staged command whose updates have all been made completes, once those in other packages have been answered (R102, R104). -/
def State.endStaged (s : State) (ch : Nat) (c : Cmd) : State :=
  if s.cmdRemotes ch c.num then s.putStaged ch c
  else
    let s := s.unstage ch c
    let s := if c.errored then s.raiseEntry (s.cmdPart c) (s.cmdEntry ch c .engineError c.errVa c.errW) else s
    s.finishCmd ch c

/-- Apply one staged command and complete it; one that meets a translation fault waits for a response. -/
def State.applyStagedCmd (s : State) (ch : Nat) (c : Cmd) : State :=
  let ty := if c.gmerge then Ty.f32 else c.dfmt
  let (s, rest, f) := s.applyStaged (s.cmdPart c) (s.cmdCore c) (.engine ch c.num) ty (if c.gmerge then 0 else c.rop) c.stagedV
  match f with
  | none => s.endStaged ch { c with stagedV := [], ran := true }
  | some (cause, _, va) =>
    if cause = .pageFault ∨ cause = .memError then (s.putStaged ch { c with stagedV := rest, waiting := true }).abandon ch c va true
    else s.endStaged ch { c with stagedV := [], ran := true, errored := true, errVa := va, errW := true }

/-- The staged commands of a group are applied in issue order, each once the one before it has completed (R275). -/
def State.applyInOrder : List (Nat × Cmd) → State → State
  | [], s => s
  | x :: xs, s =>
    let s := s.applyStagedCmd x.1 x.2
    if (s.chan x.1).staged.any fun c => c.seq == x.2.seq then s else State.applyInOrder xs s

/-- Staged commands of a group are applied in issue order, and complete; one that has to wait holds those after it. -/
def State.applyGroupStaged (s : State) (gk : Nat) : State :=
  let free := fun (c : Cmd) => if c.gk = gk then { c with region := 0 } else c
  let s := { s with chans := s.chans.map fun x => (x.1, { x.2 with staged := x.2.staged.map free }) }
  if (s.stagedOf gk).any fun x => x.2.waiting then s else State.applyInOrder (s.stagedOf gk) s

/-- A command that a restart withdraws: it completes without effect and without arriving (R275). -/
def State.withdrawCmd (s : State) (ch : Nat) (c : Cmd) : State := ((s.setPresence c).withdraw c).finishCmd ch { c with bar := none }

/-- A region restart discards the reduce-stores of the restarted region and of its inner ones (R275). -/
def State.discardRegion (s : State) (gk depth : Nat) : State :=
  let hit := fun (c : Cmd) => c.gk == gk && c.isStaged && decide (c.region ≥ depth)
  (SMap.keys s.chans).foldl (fun s ch =>
    let x := s.chan ch
    let out := (x.queue ++ x.staged).filter hit
    if out.isEmpty then s
    else
      let s := s.setChan ch { x with queue := x.queue.filter fun c => !hit c, staged := x.staged.filter fun c => !hit c }
      out.foldl (fun s c => s.withdrawCmd ch c) s) s

/-- The staged commands of a team that ends by KILL, RETENTION_LOST, IMAGE_BAD or NO_REGION are discarded: they complete
without effect and arrive (R275). -/
def State.discardTeamStaged (s : State) (tuid : Nat) : State :=
  (SMap.keys s.chans).foldl (fun s ch =>
    let x := s.chan ch
    let out := x.staged.filter fun c => c.tuid == tuid
    if out.isEmpty then s
    else
      let s := s.setChan ch { x with staged := x.staged.filter fun c => c.tuid ≠ tuid }
      out.foldl (fun s c => s.finishCmd ch c) s) s

/-- The region depth of a group's commands follows an inner `region.end`, or its end (R275). -/
def State.lowerRegions (s : State) (gk depth : Nat) : State :=
  let f := fun (c : Cmd) => if c.gk = gk ∧ c.region > depth then { c with region := depth } else c
  { s with chans := s.chans.map fun x => (x.1, { x.2 with queue := x.2.queue.map f, staged := x.2.staged.map f }) }

/-- Commands that wait for an unresolved slot of a group that has ended are discarded (R265). -/
def State.discardUnresolved (s : State) (gk : Nat) : State :=
  let f := fun (c : Cmd) => if c.gk = gk ∧ s.guardOf c = some .unresolved then { c with discard := true } else c
  { s with chans := s.chans.map fun x => (x.1, { x.2 with queue := x.2.queue.map f }) }

/-- A command goes on after a response: it is replayed whole, or its updates are applied further (R331). -/
def State.replayCmd (s : State) (ch num : Nat) : State :=
  let x := s.chan ch
  let f := fun (c : Cmd) => if c.num = num then { c with waiting := false } else c
  s.setChan ch { x with queue := x.queue.map f, staged := x.staged.map f }

/-- A staged command whose region has ended and that can go on: it does not wait, nor does one of its group before it. -/
def State.lateStaged (s : State) (ch : Nat) : Option Cmd :=
  (s.chan ch).staged.find? fun c =>
    c.region == 0 && !c.waiting && !(c.ran && s.cmdRemotes ch c.num) &&
      (s.stagedOf c.gk).all fun x => x.2.region ≠ 0 || decide (c.seq ≤ x.2.seq)

/-- A late staged command of a channel goes on. -/
def State.runLate (s : State) (ch : Nat) : State :=
  match s.lateStaged ch with
  | some c => s.applyStagedCmd ch c
  | none => s

end Sys2Proof.Machine
end

