-- ==== Sys2Proof/Machine/Place.lean ====
section
/-! DEFINITION. Placing teams, evicting and resuming harvest teams, and the banks behind them (R21, R22, R41, R46-R51, R58-R60,
R75, R87, R309, R320, R386). -/

namespace Sys2Proof.Machine

/-! What a team needs. -/

/-- Groups of a team (R21). -/
def Launch.groupsPer (l : Launch) : Nat := (l.tsize + 31) / 32

/-- The issue partition and the register banks of each of a list of groups. -/
def Launch.needs (l : Launch) : List (Nat × Nat) := (span 0 l.groupsPer).map fun g => (g % 4, l.k.nb)

/-- Scratchpad banks of a team (R58). -/
def KInfo.ownBanks (k : KInfo) : Nat := (k.scratch + bankBytes - 1) / bankBytes

/-- FIFO banks of the declared channels (R222). -/
def KInfo.fifoBanks (k : KInfo) : Nat :=
  sumN (k.chans.map fun x => (x.2.1 * x.2.2 + bankBytes - 1) / bankBytes)

/-- Harvest state of a team (R46). -/
def harvestBytes (nbs : List Nat) (acc : Nat) : Nat := sumN (nbs.map fun n => 4096 * n + 2048) + 1280 * acc

/-- The accumulator tiles and group banks that a resident team holds. -/
def State.accOf (s : State) (t : Team) : Nat := match s.launch? t.launch with | some l => l.k.acc | none => 0

/-- A team's groups that have not ended, by key. -/
def State.teamGroups (s : State) (tuid : Nat) : List (Nat × Group) := s.groups.filter fun x => x.1 / 32 == tuid && !x.2.ended

def State.teamIsH (s : State) (t : Team) : Bool := match s.launch? t.launch with | some l => l.classH | none => false

def State.teamPart (s : State) (t : Team) : Nat := match s.launch? t.launch with | some l => l.part | none => 0

/-- What a team is doing. -/
def State.teamSt? (s : State) (tuid : Nat) : Option TeamSt := (s.team? tuid).map (·.tst)

/-- A team's age (R28, R46): greater is younger. -/
def State.teamAge (s : State) (tuid : Nat) : Nat := s.ageKey (tuid * 32)

/-! Room on a core (R22, R41, R46). -/

/-- Register banks and resident-group places suffice on a core once the teams of `out` have left it. -/
def State.regsFit (s : State) (core : Nat) (needs : List (Nat × Nat)) (out : List Nat) : Bool :=
  let gs := (s.groupsOn core).filter fun x => !out.contains (x.1 / 32)
  (span 0 4).all fun ip =>
    let mine := gs.filter fun x => x.1 % 32 % 4 == ip
    let new := needs.filter fun x => x.1 == ip
    decide (mine.length + new.length ≤ 8) &&
      decide (sumN (mine.map fun x => x.2.nb) + sumN (new.map fun x => x.2) ≤ 32)

/-- The register banks of class G on an issue partition of a core. -/
def State.gBanks (s : State) (core ip : Nat) : Nat :=
  sumN (((s.groupsOn core).filter fun x => x.1 % 32 % 4 == ip && !s.isH x.1).map fun x => x.2.nb)

/-- The G banks stay within the share (R46). -/
def State.withinShare (s : State) (p core : Nat) (needs : List (Nat × Nat)) : Bool :=
  (span 0 4).all fun ip =>
    let new := sumN ((needs.filter fun x => x.1 == ip).map fun x => x.2)
    new == 0 || decide (s.gBanks core ip + new ≤ atD (s.part p).gshare ip 0)

/-- Harvest state that a core holds once the teams of `out` have left it (R46). -/
def State.harvestOn (s : State) (core : Nat) (out : List Nat) : Nat :=
  sumN (((s.teamsOn core).filter fun x => !out.contains x.1 && s.teamIsH x.2).map fun x =>
    harvestBytes ((s.teamGroups x.1).map fun y => y.2.nb) (s.accOf x.2))

/-- Instruction-buffer entries that a returning team needs: one for each path (R32). -/
def State.entriesOf (s : State) (tuid : Nat) : Nat := sumN ((s.teamGroups tuid).map fun x => x.2.pathPcs.length)

/-- Tiles, instruction-buffer entries and, for H, harvest state suffice on a core (R32, R46, R231). -/
def State.coreRoom (s : State) (core : Nat) (classH : Bool) (nbs : List Nat) (entries acc : Nat) (out : List Nat) : Bool :=
  let ts := (s.teamsOn core).filter fun x => !out.contains x.1
  let tiles := sumN (ts.map fun x => s.accOf x.2)
  let pool := sumN (((s.groupsOn core).filter fun x => !out.contains (x.1 / 32)).map fun x => x.2.pathPcs.length)
  decide (tiles + acc ≤ 64) && decide (pool + entries ≤ 64) &&
    (!classH || decide (s.harvestOn core out + harvestBytes nbs acc ≤ 262144))

/-- Teams of a launch, not DONE, in a cluster. -/
def State.launchIn (s : State) (launch cl : Nat) : List (Nat × Team) :=
  s.teams.filter fun x => x.2.launch == launch && x.2.tst ≠ .done && x.2.core / 8 == cl

/-- The scratch tag's slot on a core for a new team, or for one that restarts, whose own old tag does not count (R59). -/
def State.freeTag (s : State) (launch core : Nat) (own : Option Nat) : Option Nat :=
  let held := (s.launchIn launch (core / 8)).filter fun x => x.2.tagCore == core % 8 && own ≠ some x.1
  (span 0 32).find? fun n => !(held.any fun x => x.2.tagSlot == n)

/-- The lowest free Screed slot of a partition (R339). -/
def State.freeScreed (s : State) (p : Nat) : Option Nat :=
  let held := (s.teams.filter fun x => x.2.tst ≠ .done && s.teamPart x.2 == p).filterMap fun x => x.2.screed
  (span 0 (s.part p).hspillCnt).find? fun n => !held.contains n

/-! Banks. -/

/-- The bring-up store holds banks 48 to 63 of clusters 0 to 7 while the service is reduced (R377). -/
def State.bringUp (s : State) (b : Nat) : Bool := s.svc == .reduced && decide (b / 64 < 8) && decide (48 ≤ b % 64)

/-- POOL banks of a cluster in the order in which a placement takes them: the warm reserve, banks being refilled, the others
(R50, R75). -/
def State.poolBanks (s : State) (cl : Nat) : List Nat :=
  let free := (span (64 * cl) 64).filter fun b =>
    (s.bank b).mode = .pool && (s.bank b).transit.isNone && !s.bringUp b
  sortBy (fun b => if (s.bank b).warm then 0 else if (s.bank b).refill then 1 else 2) free

/-- A bank goes to POOL through DEEP (R65). -/
def State.freeBank (s : State) (b : Nat) : State := (s.clearBank b).setBank b { Bank.reset with lastUse := s.now }

/-- A bank is cleared and given to an owner, in ON (R58, R63). -/
def State.takeBank (s : State) (b : Nat) (m : BMode) (o : Owner) : State :=
  (s.clearBank b).setBank b { Bank.reset with mode := m, owner := o, pwr := .on, lastUse := s.now }

/-- Scratchpad and unbound FIFO banks of a team. -/
def State.ownedBanks (s : State) (tuid : Nat) : List Nat := (s.banks.filter fun x => x.2.owner == .team tuid).map (·.1)

/-- FIFO banks bound to a team's channels. -/
def State.boundBanks (s : State) (tuid : Nat) : List Nat :=
  (s.banks.filter fun x => match x.2.owner with | .chan t _ => t == tuid | _ => false).map (·.1)

/-! Eviction (R47-R50). -/

/-- Write the virtual queue record of one channel of an H team into its Screed slot (Table 17-5). -/
def State.writeVirtual (s : State) (tag base tuid k : Nat) : State :=
  let x := s.chan (2 ^ 20 + tuid * 16 + k)
  let cur := match x.queue with
    | [] => 0
    | c :: _ => c.num % 2 ^ 64 + (c.cursor / Nat.max 1 c.rlen) % 2 ^ 24 * 2 ^ 64 + (c.cursor % Nat.max 1 c.rlen) % 2 ^ 20 * 2 ^ 88 + c.attempt * 2 ^ 108
  -- queued commands lie in a ring of 32 entries, the command numbered n in entry n - 1 (log 35)
  let head := (match x.queue with | [] => x.nextNum | c :: _ => c.num) - 1
  let bs := natBytes 8 x.value ++ natBytes 8 x.nextNum ++ natBytes 4 (head % 32) ++ natBytes 4 x.queue.length ++ natBytes 8 x.errNum ++
    natBytes 16 cur ++ natBytes 8 x.stagedBytes ++ natBytes 8 (match x.staged with | [] => 0 | c :: _ => c.num) ++
    natBytes 8 (base + 0x40800 + 512 * k) ++ natBytes 8 (base + 0x50000 + 0x10000 * k) ++ natBytes 48 0
  s.writeBytes tag (base + 0x40000 + 128 * k) bs

/-- Where a team's Screed slot lies (R339). -/
def State.screedBase (s : State) (t : Team) : Option Nat :=
  t.screed.map fun i => (s.part (s.teamPart t)).hspillBase.toNat % 2 ^ 48 + 1376256 * i

/-- The key under which a partition's images are written (log 35). -/
def State.imageTag (s : State) (p : Nat) : Nat := s.keyTag (s.part p).ptKey

/-- An image of `n` bytes is written: bytes that the manual does not lay out, in the device's traffic of a class (R47, R339; log 35). -/
def State.writeImage (s : State) (core : Nat) (classH : Bool) (tag base n : Nat) : State × Nat :=
  let lines := (n + 127) / 128
  let r := s.putBlob tag (base / 128) lines
  (r.1.askHome ⟨base / 128, lines, duelOf classH, classH, core, true, tag, none, 0⟩, r.2)

/-- The virtual queue of one channel of an H team is written back: its record, its queued commands, and the staging area (R337). -/
def State.writeQueue (s : State) (tuid k : Nat) : State :=
  match s.team? tuid with
  | none => s
  | some t =>
    match s.screedBase t with
    | none => s
    | some base =>
      let tag := s.imageTag (s.teamPart t)
      let x := s.chan (2 ^ 20 + tuid * 16 + k)
      let s := s.writeVirtual tag base tuid k
      let s := if x.queue.isEmpty then s else (s.writeImage t.core true tag (base + 0x40800 + 512 * k) 512).1
      if x.staged.isEmpty then s else (s.writeImage t.core true tag (base + 0x50000 + 0x10000 * k) x.stagedBytes).1

/-- The virtual queues of an H team are written back (R337). -/
def State.writeQueues (s : State) (tuid : Nat) : State := (span 0 16).foldl (fun s k => s.writeQueue tuid k) s

/-- The bytes of a team's spill image (R46, R47). -/
def State.spillBytes (s : State) (tuid : Nat) (t : Team) : Nat :=
  harvestBytes ((s.teamGroups tuid).map fun x => x.2.nb) (s.accOf t)

/-- Screed writes a team's spill image to its slot, as G traffic (R12, R47). -/
def State.writeSpill (s : State) (tuid : Nat) : State :=
  match s.team? tuid with
  | none => s
  | some t =>
    match s.screedBase t with
    | none => s
    | some base =>
      let r := s.writeImage t.core false (s.imageTag (s.teamPart t)) base (s.spillBytes tuid t)
      r.1.updTeam tuid fun t => { t with imageId := r.2 }

/-- What a stop does to a group: an outstanding entry stops being outstanding, and leave is returned, to be asked for again
(R273, R331, R333). -/
def Group.stop (g : Group) : Group :=
  { g with
    stopped := false
    trapNext := if g.stopped then none else g.trapNext
    park := if g.park = .fault then .none else g.park
    leaveWant := g.leaveWant ||| g.leaveHeld
    leaveHeld := 0 }

/-- The guard of an instruction in every live lane, where it agrees. -/
def Group.guardAll (g : Group) (fresh : Nat) (i : Instr) : Option Bool :=
  match i.hdr? with
  | none => some true
  | some h =>
    let ok := fun (l : Nat) => g.rp fresh l h.gp.toNat != h.gn
    if (Mask.lanes g.live).all ok then some true else if (Mask.lanes g.live).any ok then none else some false

/-- A group between a closing atomic and its `region.end` issues that in the stop step, whatever the atomic's result (R298). -/
def State.closeRegion (s : State) (gk : Nat) : State :=
  match s.group? gk with
  | none => s
  | some g =>
    match g.closing, g.regions with
    | some (i, next), _ :: rest =>
      match g.guardAll s.fresh i with
      | none => s
      | some on =>
        let s := s.updGroup gk fun g =>
          { (g.updLanes fun _ ln => if ln.live then { ln with pc := next } else ln) with
            closing := none, regions := if on then rest else g.regions }
        if on then (if rest.isEmpty then s.applyGroupStaged gk else s).lowerRegions gk rest.length else s
    | _, _ => s

/-- The team of the command that an entry names. -/
def State.entryTeam (s : State) (e : FEntry) : Option Nat :=
  match e.target with
  | .group gk => some (gk / 32)
  | .command ch =>
    let x := s.chan ch
    ((x.queue ++ x.staged).find? fun c => c.num == e.info.pc.toNat).map fun c => c.tuid
  | .none => none

/-- Commands of a team that wait for a response go on without one, and are tried again (R331; log 85). -/
def State.retryCmds (s : State) (tuid : Nat) : State :=
  let f := fun (c : Cmd) => if c.tuid = tuid ∧ !c.ran then { c with waiting := false } else c
  { s with chans := s.chans.map fun x => (x.1, { x.2 with queue := x.2.queue.map f, staged := x.2.staged.map f }) }

/-- The entries of a team stop being outstanding (R331, R333). A command of class H that one of them held is tried again; one of class G
waits as it is, until its channel is restored (R334 step 3). -/
def State.dropEntries (s : State) (tuid : Nat) : State :=
  match s.team? tuid with
  | none => s
  | some t =>
    let s' := s.dropOutstanding (s.teamPart t) fun e => decide (s.entryTeam e = some tuid)
    if s.teamIsH t then s'.retryCmds tuid else s'

/-- Every group of a team stops at its next issue slot (R47, R334); its resident slot is noted for an entry that names it
(R51). -/
def State.stopTeam (s : State) (tuid : Nat) : State :=
  let s := ((s.teamGroups tuid).map (·.1)).foldl State.closeRegion s
  let s := (s.teamGroups tuid).foldl (fun s x => s.updGroup x.1 fun g =>
    { g.stop with stopSlot := if s.atHome x.1 then s.slotOf (s.coreOf x.1) x.1 else g.stopSlot }) s
  s.dropEntries tuid

/-- Evict an H team: its groups stop, its operations of Anvil complete, its state goes to its Screed slot, and its groups give
up banks, places and instruction-buffer entries (R33, R46, R47, R248). -/
def State.evictTeam (s : State) (tuid : Nat) : State :=
  let core := match s.team? tuid with | some t => t.core | none => 0
  let s := (((s.stopTeam tuid).endOps tuid).writeQueues tuid).writeSpill tuid
  let s := (s.teamGroups tuid).foldl (fun s x => s.updGroup x.1 fun g => { g with evictedBit := true }) s
  (s.updTeam tuid fun t => { t with tst := .evicted }).grantHeld 64 core

/-- Reclaim a team's scratchpad and unbound FIFO banks (R50). -/
def State.reclaimTeam (s : State) (tuid : Nat) : State :=
  let s := (s.ownedBanks tuid).foldl State.freeBank s
  -- a multicast read in progress writes to it no more (R268)
  let f := fun (c : Cmd) => { c with recv := c.recv.filter fun x => x.1 ≠ tuid }
  let s : State := { s with chans := s.chans.map fun x => (x.1, { x.2 with queue := x.2.queue.map f }) }
  s.updTeam tuid fun t => { t with banks := [], reclaimed := true }

/-- H teams of a core, youngest first (R46). -/
def State.hTeamsOn (s : State) (core : Nat) : List Nat :=
  sortBy (fun t => 2 ^ 200 - s.teamAge t) (((s.teamsOn core).filter fun x => s.teamIsH x.2).map (·.1))

/-- The fewest teams, youngest first, whose eviction gives the register banks and places asked for (R46). -/
def State.evictFor (s : State) (core : Nat) (needs : List (Nat × Nat)) : List Nat → List Nat → Option (List Nat)
  | [], out => if s.regsFit core needs out then some out else none
  | t :: ts, out => if s.regsFit core needs out then some out else s.evictFor core needs ts (out ++ [t])

/-- Teams whose banks may be reclaimed in a cluster, in order: those evicted, then those resident, youngest first (R50). -/
def State.reclaimable (s : State) (p cl : Nat) (out : List Nat) : List Nat :=
  let ts := s.teams.filter fun x =>
    x.2.core / 8 == cl && s.teamPart x.2 == p && s.teamIsH x.2 && x.2.chans.isEmpty && !x.2.reclaimed &&
    !(s.ownedBanks x.1).isEmpty
  let young := fun (t : Nat) => 2 ^ 200 - s.teamAge t
  let gone := ts.filter fun x => x.2.tst == .evicted || out.contains x.1
  let here := ts.filter fun x => x.2.tst == .resident && !out.contains x.1
  sortBy young (gone.map (·.1)) ++ sortBy young (here.map (·.1))

/-- The fewest of them that give `need` banks to a pool of `have_`. -/
def State.reclaimFor (s : State) (need : Nat) : List Nat → Nat → List Nat → Option (List Nat)
  | [], n, acc => if need ≤ n then some acc else none
  | t :: ts, n, acc => if need ≤ n then some acc else s.reclaimFor need ts (n + (s.ownedBanks t).length) (acc ++ [t])

/-- What a placement on a core takes: the teams to evict and the teams whose banks are reclaimed; none where the team does not
fit there (R386). -/
def State.placePlan (s : State) (l : Launch) (lid core : Nat) : Option (List Nat × List Nat) :=
  let nbs := (span 0 l.groupsPer).map fun _ => l.k.nb
  let cl := core / 8
  let tagOk := (s.freeTag lid core none).isSome && (!l.k.cshared || !((s.launchIn lid cl).any fun x => x.2.core == core || x.2.tagCore == core % 8))
  let streamOk :=
    match l.stream with
    | none => true
    | some e => decide ((s.stream e).place = cl) && (s.stream e).sst == .active
  let hOk := !l.classH || (s.freeScreed l.part).isSome
  if !tagOk || !streamOk || !hOk then none
  else
    let regs :=
      if s.regsFit core l.needs [] then some []
      else if l.classH || !s.withinShare l.part core l.needs then none
      else s.evictFor core l.needs (s.hTeamsOn core) []
    match regs with
    | none => none
    | some out =>
      if !s.coreRoom core l.classH nbs nbs.length l.k.acc out then none
      else
        let need := l.k.ownBanks + l.k.fifoBanks
        let free := (s.poolBanks cl).length
        if need ≤ free then some (out, [])
        else if l.classH then none
        else
          match s.reclaimFor need (s.reclaimable l.part cl out) free [] with
          | none => none
          | some rec => some (dedup (out ++ rec.filter fun t => match s.team? t with | some x => x.tst == .resident | none => false), rec)

/-- The cores of a partition, ascending. -/
def State.coresOf (s : State) (p : Nat) : List Nat := (s.clustersOf p).flatMap fun c => span (8 * c) 8

/-- The core on which a team is placed: the fewest evictions, then the lowest core (R386). -/
def State.chooseCore (s : State) (l : Launch) (lid : Nat) : Option (Nat × List Nat × List Nat) :=
  minBy (fun x => x.2.1.length) ((s.coresOf l.part).filterMap fun c => (s.placePlan l lid c).map fun q => (c, q.1, q.2))

/-! Building a team. -/

/-- A lane of a new group (R24, R309, Table 6-5). -/
def newLane (l : Launch) (now g i : Nat) : Lane :=
  let t := 32 * g + i
  let real := decide (t < l.tsize)
  let quad := decide (32 * g + i / 4 * 4 < l.tsize)
  { Lane.reset with
    lst := if quad then .onPath else .absent
    helper := quad && !real
    pc := l.k.entry
    csp := 0xF000000000000000#64 + dwordOf l.k.priv
    v := SMap.set 0 (SMap.set 0 [] 2 (loW l.args)) 3 (hiW l.args)
    age := now
    seen := l.start }

/-- A new group (R44, R45, R72, Table 6-5). -/
def newGroup (l : Launch) (now g : Nat) : Group where
  lanes := (span 0 32).map (newLane l now g)
  nb := l.k.nb
  gst := 0
  syncmm := false
  evictedBit := false
  restartedBit := false
  srbign := false
  fmask := 0
  nbv := l.k.nbv
  bphase := 0
  phaseSince := now
  evs := List.replicate 8 EvEntry.reset
  evm := 0
  evhit := 0
  armed := none
  retAddr := none
  records := List.replicate 8 none
  gsync := none
  guards := List.replicate 8 .unresolved
  areuse := none
  gang := 0
  regions := []
  mbox := [none, none, none, none]
  park := .none
  latch := none
  pend := []
  nextPend := 0
  leaveHeld := 0
  leaveWant := 0
  leaveSince := 0
  yielded := false
  lastIssue := 0
  stopped := false
  halted := false
  trapNext := none
  brkCode := none
  rtags := []
  closing := none
  stopSlot := 0
  ended := false

/-- Give banks to a team: its own list and the banks of its channels (R58, R222). -/
def State.giveBanks (s : State) (l : Launch) (tuid cl : Nat) : State × List Nat × List Nat :=
  let pool := s.poolBanks cl
  let own := pool.take l.k.ownBanks
  let s := own.foldl (fun s b => s.takeBank b .scratch (.team tuid)) s
  let (s, _, bound) := l.k.chans.foldl (fun (acc : State × List Nat × List Nat) x =>
    let n := (x.2.1 * x.2.2 + bankBytes - 1) / bankBytes
    let mine := acc.2.1.take n
    (mine.foldl (fun s b => s.takeBank b .fifo (.chan tuid x.1)) acc.1, acc.2.1.drop n, acc.2.2 ++ mine))
    (s, pool.drop l.k.ownBanks, [])
  (s, own, bound)

/-- A bank is put into service. -/
def State.serveBank (s : State) (b : Nat) : State :=
  if (s.bank b).pwr = .on then s else s.setBank b { s.bank b with pwr := .on, waking := false, lastUse := s.now }

/-- Place the next team of a launch on a core that fits it (R21, R58, R59, R309, R386). -/
def State.placeOn (s : State) (lid core : Nat) (out rec : List Nat) : State :=
  match s.launch? lid with
  | none => s
  | some l =>
    let s := out.foldl State.evictTeam s
    let s := rec.foldl State.reclaimTeam s
    let tuid := s.nextUid
    let slot := (s.freeTag lid core none).getD 0
    let screed := if l.classH then s.freeScreed l.part else none
    let (s, own, bound) := s.giveBanks l tuid (core / 8)
    -- the banks of the context are in service before the team's first instruction (R88)
    let s := (match l.stream with | some e => (s.stream e).banks | none => []).foldl State.serveBank s
    let team : Team := {
      launch := lid
      num := l.placed
      tst := .resident
      core := core
      firstCore := core
      tagCore := core % 8
      tagSlot := slot
      groups := l.groupsPer
      banks := own
      ctxBanks := match l.stream with | some e => (s.stream e).banks | none => []
      ctxAt := own.length
      chanBanks := bound
      tiles := []
      bars := []
      chans := l.k.chans.map fun x => (x.1, ⟨x.2.1, x.2.2, [], 0⟩)
      gangs := []
      anvil := []
      screed := screed
      reclaimed := false
      imageId := 0
      movedAt := 0
      stopCause := none
      mergeCount := 0 }
    let s := { s with
      nextUid := tuid + 1
      teams := SMap.put s.teams tuid team
      groups := (span 0 l.groupsPer).foldl (fun m g => SMap.put m (tuid * 32 + g) (newGroup l s.now g)) s.groups }
    s.updLaunch lid fun l => { l with placed := l.placed + 1 }

/-- Place one more team of a launch, if it fits anywhere. -/
def State.placeNext (s : State) (lid : Nat) : Option State :=
  match s.launch? lid with
  | none => none
  | some l =>
    match s.chooseCore l lid with
    | none => none
    | some (core, out, rec) => some (s.placeOn lid core out rec)

/-- Place up to `n` more teams of a launch. -/
def State.placeMany : Nat → State → Nat → State
  | 0, s, _ => s
  | n + 1, s, lid =>
    match s.placeNext lid with
    | none => s
    | some s' => State.placeMany n s' lid

/-- Write a persistent team's range block (R320). -/
def State.writeRange (s : State) (l : Launch) (t : Team) (a b : Nat) (first last : Bool) : State :=
  let f := (if first then 1 else 0) + (if last then 2 else 0)
  s.writeScratch t (16 * l.rangeOff) (natBytes 4 a ++ natBytes 4 b ++ natBytes 8 f)

/-- Give each team of a persistent launch its range (R320). -/
def State.giveRanges (s : State) (lid : Nat) : State :=
  match s.launch? lid with
  | none => s
  | some l =>
    (s.teams.filter fun x => x.2.launch == lid).foldl (fun s x =>
      let a := x.2.num * l.iters / l.placed
      let b := (x.2.num + 1) * l.iters / l.placed
      s.writeRange l x.2 a b (a % l.tile ≠ 0 && a ≠ l.iters) (b % l.tile ≠ 0 && b ≠ l.iters)) s

/-- Launches of a partition with a team in PLACING, G before H, then by take sequence number (R386). -/
def State.placing (s : State) (p : Nat) : List (Nat × Launch) :=
  sortBy (fun x => (if x.2.classH then 2 ^ 64 else 0) + x.2.seq)
    (s.launches.filter fun x => x.2.part == p && !x.2.ended && !x.2.killed && decide (x.2.placed < x.2.teams))

/-- Place for one launch: a persistent one in one pass, a span-barrier one all at once, any other one team (R255, R320, R386). -/
def State.placeLaunch (s : State) (lid : Nat) : Option State :=
  match s.launch? lid with
  | none => none
  | some l =>
    if l.persist then
      let s' := State.placeMany l.teams s lid
      match s'.launch? lid with
      | none => none
      | some l' =>
        if l'.placed = 0 || (l.k.spanbar && decide (l'.placed < l.teams)) then none
        else some ((s'.updLaunch lid fun x => { x with teams := x.placed }).giveRanges lid)
    else if l.k.spanbar then
      let s' := State.placeMany (l.teams - l.placed) s lid
      match s'.launch? lid with
      | none => none
      | some l' => if l'.placed < l.teams then none else some s'
    else s.placeNext lid

/-- The placement unit of a partition: the first launch, oldest first, that fits (R386). -/
def State.placeFirst (s : State) : List (Nat × Launch) → Option State
  | [] => none
  | (lid, _) :: xs =>
    match s.placeLaunch lid with
    | some s' => some s'
    | none => s.placeFirst xs

/-! Resuming an evicted team (R51). -/

/-- Every value in flight for a team has landed, and Anvil has finished with it (R48). -/
def State.teamLanded (s : State) (tuid : Nat) : Bool :=
  ((s.teamGroups tuid).all fun x => x.2.pend.all fun q => q.lanes.all fun p => p.landed) &&
  match s.team? tuid with
  | some t => t.anvil.all fun y => y.done
  | none => true

/-- A core fits a team that returns, without any eviction. -/
def State.resumeFits (s : State) (tuid : Nat) (t : Team) (l : Launch) (core : Nat) : Bool :=
  let gs := s.teamGroups tuid
  s.regsFit core (gs.map fun x => (x.1 % 32 % 4, x.2.nb)) [] && s.coreRoom core l.classH (gs.map fun x => x.2.nb) (if t.reclaimed then gs.length else s.entriesOf tuid) l.k.acc [] &&
    (if t.reclaimed then
      (s.freeTag t.launch core (some tuid)).isSome && decide (l.k.ownBanks ≤ (s.poolBanks (core / 8)).length) &&
      (!l.k.cshared ||
        (core / 8 == t.core / 8 && !((s.launchIn t.launch (core / 8)).any fun x => x.1 ≠ tuid && (x.2.core == core || x.2.tagCore == core % 8))))
    else core / 8 == t.core / 8 && (!l.k.cshared || core % 8 == t.tagCore))

/-- The core on which an evicted team resumes. -/
def State.resumeCore (s : State) (tuid : Nat) : Option Nat :=
  match s.team? tuid with
  | none => none
  | some t =>
    match s.launch? t.launch with
    | none => none
    | some l => (s.coresOf l.part).find? fun c => s.resumeFits tuid t l c

/-- The tag of an evicted team's image fails: its Screed slot, where it now lies, does not hold the image (R336; log 35). -/
def State.screedBad (s : State) (tuid : Nat) (t : Team) : Bool :=
  match s.screedBase t with
  | none => false
  | some base => !s.holdsImage t.imageId (s.imageTag (s.teamPart t)) (base / 128) ((s.spillBytes tuid t + 127) / 128)

/-! Bank phases (R76, R77). -/

/-- A team's phase: the greatest %bphase among its groups that have not exited (R76). -/
def State.teamPhase (s : State) (tuid : Nat) : Nat := ((s.teamGroups tuid).map fun x => x.2.bphase).foldl Nat.max 0

/-- The banks that a phase holds ON (Table 3-8). -/
def State.phaseBanks (s : State) (tuid : Nat) : List Nat :=
  match s.team? tuid with
  | none => []
  | some t =>
    let own := t.banks ++ t.ctxBanks ++ t.chanBanks ++ s.ownedBanks tuid
    if s.teamPhase tuid ≥ 3 then own ++ ((s.banks.filter fun x => x.1 / 64 == t.core / 8 && x.2.mode == .cache).map (·.1)) else own

/-- An L2 slice that is not ON wakes (R73). -/
def State.wakeSlice (s : State) (sl : Nat) : State :=
  if (SMap.find s.slicePwr sl).isNone then s else { s with slices := SMap.put s.slices sl { s.slice sl with waking := true } }

/-- The L2 slices of both dies are held ON by phase 3 (Table 3-8). -/
def State.phaseSlices (s : State) (tuid : Nat) : State :=
  if s.teamPhase tuid ≥ 3 then (SMap.keys s.slicePwr).foldl State.wakeSlice s else s

/-- A team resumes: its banks in RETAIN wake (Table 3-6), and with a phase of 2 or 3 those that the phase holds ON (R77). -/
def State.wakeTeam (s : State) (tuid : Nat) : State :=
  let own := match s.team? tuid with | some t => t.banks ++ t.ctxBanks ++ t.chanBanks ++ s.ownedBanks tuid | none => []
  let rest := own.filter fun b => decide ((s.bank b).pwr = .retain)
  let held := if s.teamPhase tuid ≥ 2 then (s.phaseBanks tuid).filter fun b => decide ((s.bank b).pwr ≠ .on) else []
  (s.startWake (dedup (rest ++ held))).phaseSlices tuid

/-- A group starts again at its innermost open region (R51, R279). -/
def Group.restart (g : Group) (now : Nat) : Group :=
  match g.regions with
  | [] => g
  | pc :: _ =>
    { (g.updLanes fun _ ln => if ln.live then { ln with pc := pc, lst := .onPath, wait := .none, age := now } else ln) with
      restartedBit := true
      areuse := none
      retAddr := none
      park := .none
      latch := none
      gsync := none
      closing := none }

/-- A team's arrivals at its own barriers are cleared, and those at incomplete die and package phases withdrawn (R257). -/
def State.withdrawArrivals (s : State) (tuid : Nat) : State :=
  let keep := fun (m : SMap Mask) => m.filter fun x => x.1 / 32 ≠ tuid
  match s.team? tuid with
  | none => s
  | some t =>
    let s := s.updTeam tuid fun t =>
      { t with bars := t.bars.map fun x => (x.1, { x.2 with cur := keep x.2.cur, nxt := keep x.2.nxt }) }
    s.updLaunch t.launch fun l =>
      { l with bars := l.bars.map fun x => (x.1, { x.2 with cur := keep x.2.cur, nxt := keep x.2.nxt }) }

/-- The event proxy is tested for each group that has come back (R49, R262). -/
def State.proxyTest (s : State) (tuid : Nat) : State := ((s.teamGroups tuid).map (·.1)).foldl State.testEvents s

/-- Lanes of a team are ordered after everything so far: a release and an acquire (R108). -/
def State.acquireTeam (s : State) (tuid : Nat) : State :=
  (s.teamGroups tuid).foldl (fun s x => s.updGroup x.1 fun g => g.updLanes fun _ ln => { ln with seen := s.wseq }) s

/-- Screed reads a team's image back (R12, R46). -/
def State.readSpill (s : State) (tuid : Nat) : State :=
  match s.team? tuid with
  | none => s
  | some t =>
    match s.screedBase t with
    | none => s
    | some base =>
      s.askHome ⟨base / 128, (s.spillBytes tuid t + 127) / 128, 0, false, t.core, false, s.imageTag (s.teamPart t), none, 0⟩

/-- A reclaimed team starts again at its groups' innermost open regions, with new scratchpad and a new tag (R51, R59). -/
def State.restartTeam (s : State) (tuid core : Nat) (l : Launch) : State :=
  let slot := match s.team? tuid with | some t => (s.freeTag t.launch core (some tuid)).getD 0 | none => 0
  let (s, own, _) := s.giveBanks { l with k := { l.k with chans := [] } } tuid (core / 8)
  let s := (s.teamGroups tuid).foldl (fun s x => s.discardRegion x.1 x.2.regions.length) s
  let s := s.withdrawArrivals tuid
  let s := (s.teamGroups tuid).foldl (fun s x => s.updGroup x.1 fun g => (g.takeAll s.fresh).restart s.now) s
  let s := s.updTeam tuid fun t =>
    { t with tst := .resident, core := core, banks := own, reclaimed := false, tagCore := core % 8, tagSlot := slot, tiles := t.settledTiles s.fresh, anvil := [] }
  ((s.acquireTeam tuid).wakeTeam tuid).grantHeld 64 core

/-- Put a team back on a core, each group at its evicted instruction (R51). -/
def State.returnTeam (s : State) (tuid core : Nat) : State :=
  (((s.updTeam tuid fun t => { t with tst := .resident, core := core }).acquireTeam tuid).wakeTeam tuid).grantHeld 64 core

end Sys2Proof.Machine
end

