-- ==== Sys2Proof/Machine/Ends.lean ====
section
/-! DEFINITION. Lanes, groups, teams and launches that end, and what follows from it: `exit` (R35), switch-off (R71), helper
release (R25), rejoin and `gsync` release (R34, R181), group, team and launch end (R65, R71, R275, R315), KILL (R331),
steal requests (R321) and grants of register banks (R42). -/

namespace Sys2Proof.Machine

/-! Waits that are satisfied at the end of a cycle (R176). -/

/-- A rejoin record is satisfied: every lane of its mask has arrived (R34). -/
def Group.recordDone (g : Group) (k : Nat) : Bool :=
  match atD g.records k none with
  | none => false
  | some m => (Mask.lanes m).all fun l => (g.lane l).lst = .waitRejoin k

/-- Release the lanes of one satisfied record and disarm it (R34). -/
def State.releaseRecord (s : State) (gk k : Nat) : State :=
  match s.group? gk with
  | none => s
  | some g =>
    if g.recordDone k then
      let m := Mask.ofPred fun l => (g.lane l).lst = .waitRejoin k
      (s.updGroup gk fun g => { g with records := setAt g.records k none }).passLanes gk m
    else s

/-- Release the `gsync` instance where its union is covered by lanes that have arrived, exited or are absent (R181). -/
def State.releaseSync (s : State) (gk : Nat) : State :=
  match s.group? gk with
  | none => s
  | some g =>
    match g.gsync with
    | none => s
    | some x =>
      if x.u &&& ~~~(x.r ||| ~~~g.live) = 0 then
        ((s.updGroup gk fun g => { g with gsync := none }).acquire gk (x.r &&& g.live)).passLanes gk (x.r &&& g.live)
      else s

/-- Complete the waits of a group at rejoin records and `gsync` that are satisfied (R34, R181). -/
def State.settle (s : State) (gk : Nat) : State :=
  (((span 0 8).foldl (fun s k => s.releaseRecord gk k) s).releaseSync gk)

/-- Paths of a group that wait at a barrier whose waves have gone out, and whose lanes are all satisfied since another lane has
left, go on (R35, R255). -/
def State.settleBars (s : State) (gk : Nat) : State :=
  match s.group? gk with
  | none => s
  | some g =>
    let waves := (s.cluster (s.coreOf gk / 8)).waves
    let met := fun (ln : Lane) =>
      match ln.wait with
      | .bar lvl k tok =>
        phaseDone (s.bar lvl (gk / 32) k).phase tok && !(waves.any fun w => decide (w.lvl = lvl) && w.k == k && w.gks.contains gk)
      | _ => false
    let out := Mask.ofPred fun l =>
      (g.lane l).live && met (g.lane l) && g.lanes.all fun ln => !(ln.onSome && ln.pc == (g.lane l).pc) || met ln
    if out = 0 then s else s.passLanes gk out

/-- Every wait of a group that the leaving of lanes satisfies completes (R35). -/
def State.settleExit (s : State) (gk : Nat) : State :=
  ((span 0 16).foldl (fun s k => s.wakeTlOf (chanKeyOf (s.isH gk) (s.coreOf gk) (gk / 32) k) gk) (s.settle gk)).settleBars gk

/-- As `settle`, but not before the second instruction of a pair has taken effect (R176). -/
def State.settleLate (s : State) (gk : Nat) : State :=
  match s.second with
  | some c => if c.gk = gk then s else s.settleExit gk
  | none => s.settleExit gk

/-! Traps of a group as a whole. -/

/-- A trap of a group at the instruction where its live lanes stand. -/
def State.trapGroup (s : State) (gk : Nat) (cause : Cause) : State :=
  match s.group? gk with
  | none => s
  | some g =>
    let lm := g.live &&& g.real
    let l0 := (Mask.lowest lm).getD 0
    s.takeFault gk ⟨cause, l0, lm, (g.lane l0).pc, 0, 0, false⟩

/-! Gangs that lose a member (R39, R249, R250). -/

/-- Members of a gang that wait in the rendezvous latch receive GANG_EXIT at their latched instruction (R39). -/
def State.gangExit (s : State) (tuid : Nat) (m : Mask) : State :=
  (Mask.lanes m).foldl (fun s g =>
    let gk := tuid * 32 + g
    match s.group? gk with
    | none => s
    | some x =>
      match x.latch with
      | none => s
      | some y =>
        let lm := y.path &&& x.real
        (s.updGroup gk fun z => { z with latch := none, park := .none }).takeFault gk
          ⟨.gangExit, (Mask.lowest lm).getD 0, lm, y.pc, 0, 0, false⟩) s

/-- Groups parked in `gang.form` with a mask that lists an ended group receive GANG_EXIT (R249). -/
def State.formExit (s : State) (tuid g : Nat) : State :=
  (s.teamGroups tuid).foldl (fun s x =>
    match x.2.park with
    | .gangForm m _ =>
      if m.getLsbD g then (s.updGroup x.1 fun y => { y with park := .none }).trapGroup x.1 .gangExit else s
    | _ => s) s

/-- Remove a member from its gang; a gang left with one member dissolves, and the reuse latches are released (R238, R250). -/
def State.leaveGang (s : State) (gk : Nat) : State :=
  match s.group? gk with
  | none => s
  | some g =>
    if g.gang = 0 then s
    else
      let tuid := gk / 32
      let s := s.gangExit tuid (g.gang &&& ~~~(1#32 <<< (gk % 32)))
      let rest := g.gang &&& ~~~(1#32 <<< (gk % 32))
      let rest := if Mask.count rest ≤ 1 then 0#32 else rest
      let s := (Mask.lanes g.gang).foldl (fun s i =>
        s.updGroup (tuid * 32 + i) fun y => { y with gang := if tuid * 32 + i = gk then 0 else rest, areuse := none }) s
      s.updTeam tuid fun t =>
        { t with gangs := (t.gangs.map fun x => if x.members = g.gang then { x with members := rest } else x).filter fun x => x.members ≠ 0 }

/-! Register banks (R42, R43). -/

/-- Groups of an issue partition of a core parked in a `regs.grow`, oldest first. -/
def State.growers (s : State) (core ip : Nat) : List (Nat × Group) :=
  sortBy (fun x => s.ageKey x.1)
    ((s.groupsOn core).filter fun x => x.1 % 32 % 4 == ip && match x.2.park with | .grow .. => true | _ => false)

/-- Free register banks of an issue partition of a core. -/
def State.freeRegs (s : State) (core ip : Nat) : Nat :=
  32 - sumN (((s.groupsOn core).filter fun x => x.1 % 32 % 4 == ip).map fun x => x.2.nb)

/-- Banks that the H teams of a core hold on an issue partition. -/
def State.teamRegs (s : State) (ip tuid : Nat) : Nat :=
  sumN (((s.teamGroups tuid).filter fun x => x.1 % 32 % 4 == ip).map fun x => x.2.nb)

/-- The fewest teams of a list whose banks make up `n`. -/
def State.regsFrom (s : State) (ip n : Nat) : List Nat → Nat → List Nat → Option (List Nat)
  | [], free, acc => if n ≤ free then some acc else none
  | t :: ts, free, acc => if n ≤ free then some acc else s.regsFrom ip n ts (free + s.teamRegs ip t) (acc ++ [t])

/-- The teams whose eviction meets a grow: none for free banks, and for a G grow within the share the H teams of the core,
youngest first (R42, R46); no answer where the grow cannot be granted in the sense of R43. -/
def State.growBanks (s : State) (core ip gk n : Nat) : Option (List Nat) :=
  let free := s.freeRegs core ip
  if n ≤ free then some []
  else if s.isH gk then none
  else if s.gBanks core ip + n > atD (s.part (match s.team? (gk / 32) with | some t => s.teamPart t | none => 0)).gshare ip 0 then none
  else s.regsFrom ip n (s.hTeamsOn core) free []

/-- As `growBanks`; an H grow also keeps the harvest state of the core within 256 KiB (R46). -/
def State.growPlan (s : State) (core ip gk n : Nat) : Option (List Nat) :=
  if s.isH gk && decide (s.harvestOn core [] + 4096 * n > 262144) then none else s.growBanks core ip gk n

/-- Registers from `n` on are gone: banks granted later read as zero (R42). -/
def Lane.dropRegs (n : Nat) (ln : Lane) : Lane := { ln with v := ln.v.filter fun x => x.1 < n }

/-- Results that are pending for registers from `n` on are lost with them (R42). -/
def Pend.dropRegs (n : Nat) (q : Pend) : Pend :=
  { q with lanes := q.lanes.map fun p => { p with ws := p.ws.filter fun x => x.1 < n } }

/-- Complete a parked `regs.grow`: the predicate is written in every live lane, GST set, and the group goes on (R42, R276). -/
def State.finishGrow (s : State) (gk : Nat) (ok : Bool) (gst : Nat) : State :=
  match s.group? gk with
  | none => s
  | some g =>
    match g.park with
    | .grow d n i =>
      let s := s.updGroup gk fun g =>
        let g := if ok then { g with lanes := g.lanes.map (Lane.dropRegs (32 * g.nb)), nb := g.nb + n } else g
        { (g.write g.live fun _ => Wr.p d ok) with park := .none, gst := gst }
      let s := s.updGroup gk fun g =>
        Group.closeWindows s.fresh (g.updLanes fun _ ln => if ln.onSome then { ln with pc := ln.pc + dwordOf i.len } else ln) g.live g.nextPend
      s.repath gk g.live
    | _ => s

/-- Grant parked grows of an issue partition, oldest first, until one is blocked (R42); at most `fuel` of them. -/
def State.grantGrows : Nat → State → Nat → Nat → State
  | 0, s, _, _ => s
  | fuel + 1, s, core, ip =>
    match s.growers core ip with
    | [] => s
    | (gk, g) :: _ =>
      match g.park with
      | .grow _ n _ =>
        match s.growPlan core ip gk n with
        | none => s
        | some out => State.grantGrows fuel ((out.foldl State.evictTeam s).finishGrow gk true 0) core ip
      | _ => s

/-- Where every resident group of an issue partition is parked in a grow that cannot be granted, the youngest one's fails
(R43). -/
def State.growDeadlock (s : State) (core ip : Nat) : State :=
  let all := (s.groupsOn core).filter fun x => x.1 % 32 % 4 == ip
  let stuck := all.all fun x =>
    match x.2.park with
    | .grow _ n _ => (s.growBanks core ip x.1 n).isNone
    | _ => false
  if all.isEmpty || !stuck then s
  else
    match (s.growers core ip).getLast? with
    | some (gk, _) => s.finishGrow gk false 1
    | none => s

/-- What follows at once where banks were freed or a grow was asked for, and once more as each cycle ends (R42, R43). -/
def State.growStep (s : State) (core ip : Nat) : State := (State.grantGrows 8 s core ip).growDeadlock core ip

/-- Grows and HELD sets of a core are looked at as a cycle ends (R33, R42, R43). -/
def State.coreTick (s : State) (core : Nat) : State :=
  ((span 0 4).foldl (fun s ip => if (s.growers core ip).isEmpty then s else s.growStep core ip) s).grantHeld 64 core

/-! Timelines of queues (R315). -/

/-- QDONE over launches that have ended. -/
def Queue.raise : Nat → Queue → Queue
  | 0, q => q
  | n + 1, q =>
    if (q.doneV + 1) ∈ q.endedNums then
      Queue.raise n { q with doneV := q.doneV + 1, endedNums := q.endedNums.filter fun x => x ≠ q.doneV + 1 }
    else q

def State.queue (s : State) (p q : Nat) : Queue := SMap.getD (s.part p).queues q Queue.reset

def State.setQueue (s : State) (p q : Nat) (x : Queue) : State :=
  let pt := s.part p
  s.setPart p { pt with queues := SMap.put pt.queues q x }

/-- Launch `num` of a queue has ended (R315). -/
def State.endNum (s : State) (p q num : Nat) : State :=
  let x := s.queue p q
  let x := { x with endedNums := x.endedNums ++ [num] }
  s.setQueue p q (Queue.raise x.endedNums.length x)

/-! Streams (R323, R324). -/

def StreamSt.code : StreamSt → Nat
  | .free => 0 | .active => 1 | .idle => 2 | .evicting => 3 | .evicted => 4

/-- The device writes an entry's own fields into the table (R323). -/
def State.writeStream (s : State) (e : Nat) : State :=
  let x := s.stream e
  let a := s.stBase.toNat % 2 ^ 48 + 64 * e
  let tag := s.keyTag 0
  let s := s.writeBytes tag (a + 8) (natBytes 1 x.sst.code)
  let s := s.writeBytes tag (a + 0x0B) (natBytes 1 (x.place % 24 + 32 * (x.place / 24)))
  let s := s.writeBytes tag (a + 0x0E) (natBytes 2 ((if x.rld then 1 else 0) + (if x.late then 2 else 0)))
  let s := s.writeBytes tag (a + 0x18) (natBytes 8 x.lastChunk)
  s.writeBytes tag (a + 0x36) (natBytes 2 x.silcnt)

/-- Change an entry, and its device-written fields in the table. -/
def State.updStream (s : State) (e : Nat) (f : Stream → Stream) : State := (s.setStream e (f (s.stream e))).writeStream e

/-! Ends. -/

/-- A launch has ended: its number counts on its queue's timeline, and its stream is IDLE again (R315, R324). -/
def State.endLaunch (s : State) (lid : Nat) : State :=
  match s.launch? lid with
  | none => s
  | some l =>
    if l.ended then s
    else
      let s := s.updLaunch lid fun l => { l with ended := true }
      let s := s.endNum l.part l.queue l.num
      match l.stream with
      | some e => if (s.stream e).sst = .active then s.updStream e fun x => { x with sst := .idle } else s
      | none => s

/-- A launch ends with its last team (R315). -/
def State.checkLaunch (s : State) (lid : Nat) : State :=
  match s.launch? lid with
  | none => s
  | some l => if l.placed = l.teams ∧ l.finished = l.teams then s.endLaunch lid else s

/-- A team's range block: NEXT, END, FIRSTP and LASTP (R320). -/
def State.readRange (s : State) (l : Launch) (t : Team) : Nat × Nat × Bool × Bool :=
  let o := 16 * l.rangeOff
  let f := leNat (s.readScratch t (o + 8) 1)
  (leNat (s.readScratch t o 4), leNat (s.readScratch t (o + 4) 4), f % 2 == 1, f / 2 % 2 == 1)

/-- The victims of a steal request in order: near first, then the longest range, then the lowest core (R321). -/
def State.victims (s : State) (l : Launch) (lid core : Nat) : List (Nat × Team) :=
  let ts := s.teams.filter fun x =>
    let r := s.readRange l x.2
    x.2.launch == lid && x.2.tst == .resident && decide (r.1 + 2 ≤ r.2.1)
  sortBy (fun x =>
    let r := s.readRange l x.2
    let far := if x.2.core / 8 = core / 8 then 0 else if x.2.core / 192 = core / 192 then 1 else 2
    (far * 2 ^ 40 + (2 ^ 33 - (r.2.1 - r.1))) * 2 ^ 10 + x.2.core) ts

/-- The least tile boundary that is at least `n` (R320). -/
def tileBoundary (l : Launch) (n : Nat) : Nat :=
  let m := (n + l.tile - 1) / l.tile * l.tile
  if n ≤ l.iters then Nat.min m l.iters else m

/-- A freed core asks for half of a victim's range (R321). -/
def State.steal (s : State) (lid core : Nat) : State :=
  match s.launch? lid with
  | none => s
  | some l =>
    if !l.steal || !l.persist || l.killed || l.tile = 0 then s
    else
      let pick := (s.victims l lid core).find? fun x =>
        let r := s.readRange l x.2
        decide (tileBoundary l (r.1 + (r.2.1 - r.1 + 1) / 2) < r.2.1)
      match pick, s.placePlan l lid core with
      | some (_, t), some (out, rec) =>
        let r := s.readRange l t
        let m := tileBoundary l (r.1 + (r.2.1 - r.1 + 1) / 2)
        let s := s.writeRange l t r.1 m r.2.2.1 false
        let s := s.updLaunch lid fun l => { l with teams := l.teams + 1 }
        let tuid := s.nextUid
        let s := s.placeOn lid core out rec
        match s.team? tuid with
        | some u => s.writeRange l u m r.2.1 false r.2.2.2
        | none => s
      | _, _ => s

/-- The report of switched-off lanes at a team's end (R71, Table 17-2). -/
def State.scratchReport (s : State) (tuid : Nat) : State :=
  match s.team? tuid with
  | none => s
  | some t =>
    match s.launch? t.launch with
    | none => s
    | some l =>
      let ms := (span 0 t.groups).map fun g => match s.group? (tuid * 32 + g) with | some x => x.fmask | none => 0
      if ms.all fun m => m == 0 then s
      else
        s.raiseEntry l.part
          ⟨⟨.scratchRange, 0, 0, 0, 0, dwordOf t.groups, false⟩, false, wordOf (t.core / 192 + t.core / 8 % 24 * 2 + t.core % 8 * 2 ^ 6),
            l.faultWord, t.num, ms, .none⟩

/-- A team's banks return to POOL (R65, R227). -/
def State.returnBanks (s : State) (tuid : Nat) : State :=
  let s := (s.ownedBanks tuid ++ s.boundBanks tuid).foldl State.freeBank s
  s.updTeam tuid fun t => { t with banks := [], chanBanks := [], chans := [] }

/-- A team ends (R65, R71, R257, R315, R321). -/
def State.endTeam (s : State) (tuid : Nat) : State :=
  match s.team? tuid with
  | none => s
  | some t =>
    if t.tst = .done then s
    else
      let s := s.captureMerges tuid
      let s := s.scratchReport tuid
      let s := s.returnBanks tuid
      let s := s.updTeam tuid fun t => { t with tst := .done, anvil := [], gangs := [], screed := none }
      let s := s.updLaunch t.launch fun l => { l with finished := l.finished + 1 }
      let s := s.steal t.launch t.core
      s.checkLaunch t.launch

/-- A group ends: its places and banks return, leave is returned, its staged commands are applied, those held under
unresolved slots discarded, and its gang loses it (R35, R250, R265, R273, R275). -/
def State.endGroup (s : State) (gk : Nat) : State :=
  match s.group? gk with
  | none => s
  | some g =>
    if g.ended then s
    else
      let tuid := gk / 32
      let s := s.leaveGang gk
      let s := s.applyGroupStaged gk
      let s := s.lowerRegions gk 0
      let s := s.discardUnresolved gk
      let core := s.coreOf gk
      let s := s.updGroup gk fun g =>
        { g with ended := true, leaveHeld := 0, leaveWant := 0, park := .none, latch := none, closing := none, pend := [], areuse := none }
      let s := s.formExit tuid (gk % 32)
      let s := s.growStep core (gk % 32 % 4)
      let s := if (s.teamGroups tuid).isEmpty then s.endTeam tuid else s
      s.grantHeld 64 core

/-- Helper lanes whose quad has no real lane left leave with it (R25). -/
def Group.helpersOut (g : Group) : Mask :=
  Mask.ofPred fun l =>
    let ln := g.lane l
    ln.helper && ln.live && !((span (l / 4 * 4) 4).any fun i => !(g.lane i).helper && (g.lane i).live)

/-- The lanes of a mask take the effects of `exit` (R35). -/
def Group.exitLanes (g : Group) (m : Mask) : Group :=
  { (g.updLanes fun l ln => if m.getLsbD l && ln.live then { ln with lst := .exited, wait := .none } else ln) with
    records := g.records.map fun r => r.map fun x => x &&& ~~~m
    pend := (g.pend.map fun q => { q with lanes := q.lanes.filter fun p => !m.getLsbD p.lane }).filter fun q => !q.lanes.isEmpty }

/-- Lanes leave: with them the helpers of quads that end; the waits this satisfies complete, and a group without a live lane
ends (R25, R35, R173). -/
def State.exitLanes (s : State) (gk : Nat) (m : Mask) : State :=
  if m = 0 then s
  else
    let s := s.updGroup gk fun g =>
      let g := g.exitLanes m
      g.exitLanes g.helpersOut
    match s.group? gk with
    | none => s
    | some g =>
      if g.live = 0 then s.endGroup gk
      else (s.settleLate gk).grantHeld 64 (s.coreOf gk)

/-- Lanes are switched off (R71, R72): `why` gives each lane's cause. -/
def State.switchOff (s : State) (gk : Nat) (m : Mask) (why : Nat → Nat) : State :=
  match Mask.lowest m with
  | none => s
  | some l0 =>
    let s := s.updGroup gk fun g =>
      { g with
        fmask :=
          if g.fmask.extractLsb' 32 3 = 0#3 then
            g.fmask ||| m.setWidth 64 ||| (dwordOf (why l0 % 8) <<< 32) ||| (dwordOf l0 <<< 35)
          else g.fmask ||| m.setWidth 64 }
    s.exitLanes gk m

/-! Teams that are ended by the device. -/

/-- End a team at once: nothing of it runs on (R331, R275). -/
def State.killTeam (s : State) (tuid : Nat) : State :=
  match s.team? tuid with
  | none => s
  | some t =>
    if t.tst = .done then s
    else
      let s := s.stopTeam tuid
      let s := s.discardTeamStaged tuid
      let mark := fun (c : Cmd) => if c.tuid = tuid ∧ (c.isStaged ∨ c.gmerge) then { c with discard := true } else c
      let s : State := { s with chans := s.chans.map fun x => (x.1, { x.2 with queue := x.2.queue.map mark }) }
      let cores := t.core
      let s := (s.teamGroups tuid).foldl (fun s x =>
        (s.discardUnresolved x.1).updGroup x.1 fun g =>
          { (g.updLanes fun _ ln => if ln.live then { ln with lst := .exited, wait := .none } else ln) with
            ended := true, park := .none, latch := none, gsync := none, pend := [], leaveWant := 0, closing := none }) s
      let s := s.endTeam tuid
      let s := (span 0 4).foldl (fun s ip => s.growStep cores ip) s
      s.grantHeld 64 cores

/-- Every command of a team is discarded at its next chunk boundary (R331). -/
def State.discardTeamCmds (s : State) (tuid : Nat) : State :=
  let f := fun (c : Cmd) => if c.tuid = tuid ∧ !c.ran then { c with discard := true } else c
  { s with chans := s.chans.map fun x => (x.1, { x.2 with queue := x.2.queue.map f }) }

/-- KILL: the launch ends, with all its teams and commands (R331). -/
def State.killLaunch (s : State) (lid : Nat) : State :=
  let s := s.updLaunch lid fun l => { l with killed := true, teams := l.placed }
  let ts := (s.teams.filter fun x => x.2.launch == lid).map (·.1)
  let s := ts.foldl State.discardTeamCmds s
  let s := (ts.filter fun t => match s.team? t with | some x => x.tst ≠ .done | none => false).foldl State.killTeam s
  s.checkLaunch lid

/-- An entry that reports a team's end (Table 17-3). -/
def State.teamEntry (s : State) (tuid : Nat) (i : FInfo) : State :=
  match s.team? tuid with
  | none => s
  | some t =>
    match s.launch? t.launch with
    | none => s
    | some l =>
      s.raiseEntry l.part ⟨i, false, wordOf (t.core / 192 + t.core / 8 % 24 * 2 + t.core % 8 * 2 ^ 6), l.faultWord, t.num, [], .none⟩

end Sys2Proof.Machine
end

