-- ==== Sys2Proof/Machine/Operands.lean ====
section
/-! DEFINITION. Every operand form: registers and immediates, addresses in the five spaces with the checks of Table 9-2
(R54-R61, R204-R206), and records read as if by invariant loads. -/

namespace Sys2Proof.Machine

/-! Registers and immediates. -/

/-- A lane's register as the instruction reads it. -/
def Ctx.v (c : Ctx) (s : State) (l : Nat) (r : Reg) : Word := c.g.rv s.fresh l r.toNat

/-- A lane's register pair (R134). -/
def Ctx.pair (c : Ctx) (s : State) (l : Nat) (r : Reg) : DWord :=
  pairOf (c.g.rv s.fresh l r.toNat) (c.g.rv s.fresh l (r.toNat + 1))

/-- A lane's predicate. -/
def Ctx.p (c : Ctx) (s : State) (l : Nat) (r : Reg) : Bool := c.g.rp s.fresh l r.toNat

/-- Operand B: a register, or the 8-bit immediate, sign-extended (R158). -/
def Ctx.src (c : Ctx) (s : State) (l : Nat) : SrcB → Word
  | .reg r => c.v s l r
  | .imm i => i.signExtend 32

/-- Another lane's register, as it stood before the issue cycle; an absent lane supplies 0 (R177). -/
def Ctx.exch (c : Ctx) (s : State) (l : Nat) (r : Nat) : Word :=
  let g := if c.view.isEmpty then c.g else { c.g with lanes := c.view }
  if (g.lane l).lst = .absent then 0 else g.rv s.fresh l r

/-- Real lanes among a mask (R24). -/
def Ctx.realOf (c : Ctx) (m : Mask) : Mask := m &&& c.g.real

/-- The lowest real lane that has not exited. -/
def Ctx.lead (c : Ctx) : Option Nat := Mask.lowest (c.g.live &&& c.g.real)

/-- A value of a type's width from the registers that hold it. -/
def Ctx.data (c : Ctx) (s : State) (l : Nat) (r : Reg) (ty : Sys2Proof.Ty) : Nat :=
  let regs := (span r.toNat ty.regs).map fun i => (c.g.rv s.fresh l i).toNat
  (regs.foldr (fun x acc => x + 2 ^ 32 * acc) 0) % 2 ^ (8 * ty.bytes)

/-- Writes of a loaded value: a type narrower than 32 bits is extended (R207). -/
def wrOf (r : Reg) (ty : Sys2Proof.Ty) (x : Nat) : Wr :=
  if ty.bytes < 4 then ⟨[(r.toNat, BitVec.ofInt 32 (intVal ty x))], []⟩
  else ⟨(span 0 ty.regs).map fun i => (r.toNat + i, wordOf (x / 2 ^ (32 * i))), []⟩

/-! Addresses. -/

/-- The space form of an access: a generic address or a suffix (R55). -/
inductive Sp where
  | gen | g | s | c | p
  deriving DecidableEq, Repr

/-- Registers of a base operand. -/
def Sp.baseRegs : Sp → Nat
  | .gen | .g => 2
  | _ => 1

/-- Base plus displacement, in the register width (R55, R203). -/
def Ctx.addr (c : Ctx) (s : State) (l : Nat) (sp : Sp) (a : Reg) (disp : BitVec 12) : DWord :=
  if sp.baseRegs = 2 then c.pair s l a + disp.signExtend 64
  else (c.v s l a + disp.signExtend 32).setWidth 64

/-- Space code of a generic address (Table 3-1). -/
def spaceCode (a : DWord) : Nat :=
  match a.toNat / 2 ^ 56 with
  | 0x00 => if a.getLsbD 55 then 7 else 0
  | 0xF0 => 1
  | 0xF1 => 2
  | 0xF2 => 3
  | 0xF3 => 4
  | _ => 7

/-- The fields that Table 3-1 marks zero are zero. -/
def windowClean (a : DWord) : Bool :=
  let n := a.toNat
  match spaceCode a with
  | 0 => true
  | 1 => field n 32 24 == 0
  | 2 => field n 31 25 == 0
  | 3 => field n 31 25 == 0
  | 4 => field n 10 46 == 0 && n % 64 == 0
  | _ => false

/-- One lane's outcome by Table 9-2. -/
inductive Chk where
  | ok (t : Target)
  /-- A row of the table, with its cause, AUX and ADDR. -/
  | bad (row : Nat) (c : Cause) (aux addr : Nat)
  /-- Row 6: switched off, with the cause of Table 3-4. -/
  | off (why : Nat)
  /-- A record that the access needs lies in another package and has not been read (R106): where to ask for it. -/
  | ask (pkg daddr va : Nat)
  deriving DecidableEq, Repr

/-- Nothing stands in the way of an access that is not made at a place. -/
def Chk.fine : Chk := .ok (.priv 0 0)

/-- Beyond the allocation, or misaligned (R70, R72). -/
def scratchWhy (bytes off w : Nat) : Option Nat :=
  if off + w > bytes then some 1 else if off % w ≠ 0 then some 4 else none

/-- The tail register that a physical address of device register space names (R280, R310): its partition and queue. -/
def tailAt (pa : Nat) : Option (Nat × Nat) :=
  let off := pa - 0xF000000000
  if pa < 0xF000000000 ∨ off ≥ 2 ^ 24 ∨ off < 0x400000 ∨ off ≥ 0x480000 then none
  else
    let w := (off - 0x400000) % 0x10000
    if w < 0x1000 ∧ w % 0x40 = 0x10 then some ((off - 0x400000) / 0x10000, w / 0x40) else none

/-- A device page, where R280 lets the access through. -/
def Ctx.deviceChk (c : Ctx) (s : State) (pa addr : Nat) (acc : Acc) (tailOk : Bool) : Chk :=
  match tailAt pa with
  | none => .bad 8 .queueReg 0 addr
  | some (p, q) =>
    if p ≠ c.part ∨ !tailOk then .bad 8 .queueReg 0 addr
    else if acc = .write ∧ c.l.classH ∧ !(s.queue p q).classH then .bad 8 .queueClass 0 addr
    else .ok (.tail p q)

/-- A global address (rows 3, 7 and 8). -/
def Ctx.globalChk (c : Ctx) (s : State) (a w : Nat) (acc : Acc) (tailOk : Bool) : Chk :=
  if a % w ≠ 0 then .bad 3 .misaligned 0 a
  else
    match s.translate c.part c.t.core acc a with
    | .mem pa tag => if s.stackFails pa then .bad 9 .memError 0 a else .ok (.mem pa tag)
    | .remote pkg d => if (s.routePort pkg d).isSome then .ok (.remote pkg d a) else .bad 7 .protection 4 a
    | .device pa => c.deviceChk s pa a acc tailOk
    | .fault cause aux => .bad 7 cause aux a

/-- The virtual address of byte `off` of a lane's private space (R57). -/
def privAddr (gk l off : Nat) : Nat := Config.privRegion + 2 ^ 29 * (gk % 2 ^ 25) + 128 * (off / 4) + 4 * l + off % 4

/-- Where bytes of private space lie, from the place of the first on (R57). -/
def privPlaces (pa n : Nat) : List Nat := (span 0 n).map fun i => pa + 128 * (i / 4) + i % 4

/-- A private offset of a lane (rows 3, 5 and 7), placed in the partition's private region and then translated (R56, R57). -/
def Ctx.privChk (c : Ctx) (s : State) (l off w addr : Nat) (acc : Acc) : Chk :=
  if off % w ≠ 0 then .bad 3 .misaligned 0 addr
  else if off + w > c.l.k.priv then .bad 5 .privateRange 0 addr
  else
    match s.translate c.part c.t.core acc (privAddr c.gk l off) with
    | .mem pa tag => if s.stackFails pa then .bad 9 .memError 0 addr else .ok (.priv pa tag)
    | .remote _ _ => .bad 7 .protection 4 addr
    | .device _ => .bad 8 .queueReg 0 addr
    | .fault cause aux => .bad 7 cause aux addr

/-- An offset in the team's own scratchpad (row 6). -/
def Ctx.ownChk (c : Ctx) (off w : Nat) : Chk :=
  match scratchWhy c.t.scratchBytes off w with
  | some n => .off n
  | none => .ok (.sram c.tuid off)

/-- A cluster-shared operand (R60, row 6). -/
def Ctx.sharedChk (c : Ctx) (s : State) (n w : Nat) : Chk :=
  match s.tagged c.t.launch c.cl (field n 23 3) (field n 26 5) with
  | none => .off 3
  | some (u, t) =>
    match scratchWhy t.scratchBytes (n % 2 ^ 23) w with
    | some y => .off y
    | none => .ok (.sram u (n % 2 ^ 23))

/-- The checks of Table 9-2 for one address. `cmdOk` says that the access is an `st.b128` of minor 08, `guarded` that GSL is
enabled on it, and `tailOk` that R280 serves it. -/
def Ctx.check (c : Ctx) (s : State) (l : Nat) (sp : Sp) (ea : DWord) (w : Nat) (acc : Acc) (cmdOk guarded tailOk : Bool) : Chk :=
  let n := ea.toNat
  match sp with
  | .g => if n ≥ 2 ^ 55 then .bad 1 .badWindow 0 n else c.globalChk s n w acc tailOk
  | .p => c.privChk s l n w n acc
  | .s => if n ≥ 2 ^ 23 then .off 2 else c.ownChk n w
  | .c => if n ≥ 2 ^ 31 then .off 2 else c.sharedChk s n w
  | .gen =>
    if !windowClean ea then .bad 1 .badWindow 0 n
    else
      match spaceCode ea with
      | 0 => if guarded then .bad 2 .apertureAccess 0 n else c.globalChk s n w acc tailOk
      | 1 => if guarded then .bad 2 .apertureAccess 0 n else c.privChk s l (n % 2 ^ 32) w n acc
      | 2 =>
        if guarded then .bad 2 .apertureAccess 0 n
        else if field n 23 3 ≠ c.t.tagCore ∨ field n 26 5 ≠ c.t.tagSlot then .bad 4 .spaceForeign 0 n
        else c.ownChk (n % 2 ^ 23) w
      | 3 => if guarded then .bad 2 .apertureAccess 0 n else c.sharedChk s (n % 2 ^ 31) w
      | 4 => if cmdOk then .ok (.command (field n 6 4)) else .bad 2 .apertureAccess 0 n
      | _ => .bad 1 .badWindow 0 n

/-- The lane met a row other than 6. -/
def Chk.isBad : Chk → Bool
  | .bad .. => true
  | _ => false

/-- The fault that one instruction raises for its lanes (R205): the earliest row, the cause its lowest lane meets, that lane,
and the lanes that meet that cause. Helper lanes raise none (R25). -/
def Ctx.pickFault (c : Ctx) (act : Mask) (write : Bool) (f : Nat → Chk) : Option FInfo :=
  let bads := (Mask.lanes (c.realOf act)).filterMap fun l =>
    match f l with
    | .bad row cause aux addr => some (l, row, cause, aux, addr)
    | _ => none
  match minBy (fun x => x.2.1) bads with
  | none => none
  | some (l, row, cause, aux, addr) =>
    let lm := Mask.ofPred fun i => bads.any fun x => x.1 == i && x.2.1 == row && decide (x.2.2.1 = cause)
    some ⟨cause, l, lm, c.ipc, dwordOf addr, dwordOf aux, write⟩

/-- Lanes that are switched off: real active lanes that meet row 6 only (R71). -/
def Ctx.offLanes (c : Ctx) (act : Mask) (f : Nat → Chk) : Mask :=
  Mask.ofPred fun l => (c.realOf act).getLsbD l && match f l with | .off _ => true | _ => false

def Chk.why : Chk → Nat
  | .off n => n
  | _ => 0

/-- Lanes whose access is made. -/
def okLanes (act : Mask) (f : Nat → Chk) : Mask :=
  Mask.ofPred fun l => act.getLsbD l && match f l with | .ok _ => true | _ => false

/-- The scratchpad team and offset of a target. -/
def Target.scratch : Target → Option (Nat × Nat)
  | .sram t off => some (t, off)
  | _ => none

/-- What keeps an access to scratchpad waiting (R67, R73, R206): absent lines first, then banks that must wake. -/
def State.scratchPark (s : State) (xs : List (Nat × Nat × Nat)) : Park :=
  let lines := dedup (xs.flatMap fun x =>
    match s.team? x.1 with
    | some t => (t.linesOf x.2.1 x.2.2).filter fun k => (SMap.find s.absentLines k).isSome
    | none => [])
  if !lines.isEmpty then .presence lines
  else
    let banks := dedup (xs.flatMap fun x =>
      match s.team? x.1 with
      | some t => (t.banksOf x.2.1 x.2.2).filter fun b => (s.bank b).pwr ≠ .on
      | none => [])
    if banks.isEmpty then .none else .wake banks

/-- Park a group until a scratchpad access can be made. -/
def State.parkFor (s : State) (gk : Nat) (p : Park) : State :=
  let s := match p with | .wake bs => s.startWake bs | _ => s
  s.updGroup gk fun g => { g with park := p }

/-! Records read by an instruction as if by invariant loads (R99). -/

/-- A granule of memory as an invariant load of the launch may see it. -/
def Ctx.invBytes (c : Ctx) (s : State) (pa tag n idx : Nat) : List Byte := s.anyValueOf 6 (pa * 64 + idx) tag c.l.start pa n

/-- A record's bytes at a global address, or the fault of reading it, or where to ask for those that lie in another package. -/
def Ctx.readRecord (c : Ctx) (s : State) (a n : Nat) : Sum Chk (List Byte) :=
  let parts : List (Sum Chk (List Byte)) := (span 0 (n / 4)).map fun i =>
    match c.globalChk s (a + 4 * i) 4 .read false with
    | .ok (.mem pa tag) => Sum.inr (c.invBytes s pa tag 4 0)
    | .ok (.remote pkg d va) =>
      match s.recAt (.group c.gk) va 4 with
      | some [] => Sum.inl (Chk.bad 7 .protection 4 va)
      | some bs => Sum.inr bs
      | none => Sum.inl (Chk.ask pkg d va)
    | .ok _ => Sum.inl (Chk.bad 8 .protection 4 (a + 4 * i))
    | x => Sum.inl x
  match parts.find? fun x => x.isLeft with
  | some (.inl e) => .inl e
  | _ => .inr (parts.flatMap fun x => match x with | .inr bs => bs | .inl _ => [])

/-- The lanes whose records must be asked for. -/
def Ctx.asks (c : Ctx) (m : Mask) (f : Nat → Chk) : List (Nat × Nat × Nat × Nat) :=
  (Mask.lanes (m &&& c.path)).filterMap fun l => match f l with | .ask pkg d va => some (l, pkg, d, va) | _ => none

/-- Ask for records; the instruction issues again once they have been read (R106; log 80). -/
def Ctx.askRecords (c : Ctx) (xs : List (Nat × Nat × Nat × Nat)) (s : State) : State :=
  (xs.foldl (fun s x => s.askRecord (.group c.gk) (.lane c.gk x.1) x.2.1 x.2.2.1 x.2.2.2) s).updGroup c.gk
    fun g => { g with park := .record }

/-! The cluster cache (R62, R91). -/

/-- The ways of a cluster's cache. -/
def State.cacheBanks (s : State) (cl : Nat) : List Nat :=
  (s.banks.filter fun x => x.1 / 64 == cl && x.2.mode == .cache && x.2.transit.isNone).map (·.1)

/-- The copy of a line that a cluster's cache holds, with its way. -/
def State.copyOf (s : State) (cl line tag : Nat) : Option (Nat × CLine) :=
  (s.cacheBanks cl).findSome? fun b =>
    match SMap.find (s.bank b).lines (line % 1024) with
    | some x => if x.line = line ∧ x.tag = tag then some (b, x) else none
    | none => none

/-- Cycles of the die network clock in 1 us. -/
def usCycles : Nat := 2050

/-- A copy still serves a lane that has seen `seen`, though bytes of [pa, pa + n) were written since it was taken: the lane is not
ordered after the first of those writes, nor is that 1 us old (R91, R95). -/
def State.staleFor (s : State) (x : CLine) (seen pa n : Nat) : Bool :=
  match minBy (fun h => h.stamp) (s.hist.filter fun h => pa ≤ h.pa && h.pa < pa + n && x.at_ ≤ h.stamp) with
  | some h => decide (seen ≤ h.stamp) && decide (s.now < h.cyc + usCycles)
  | none => false

/-- The moment of the memory order of the last write to bytes of [pa, pa + n) (the write timestamp of R91). -/
def State.wroteAt (s : State) (pa n : Nat) : Nat :=
  ((s.hist.filter fun h => decide (pa ≤ h.pa) && decide (h.pa < pa + n)).map fun h => h.stamp + 1).foldl Nat.max 0

/-- Bytes that a lane of a cluster loads, and the moment of the memory order that it has then seen: those of the home, or of a
copy that still serves it, a free choice (R91; log 29). -/
def Ctx.loadBytes (c : Ctx) (s : State) (l tag pa n : Nat) : List Byte × Nat :=
  let seen := (c.g.lane l).seen
  let home := (s.readBytes tag pa n, s.wroteAt pa n)
  match s.copyOf c.cl (pa / 128) tag with
  | none => home
  | some (_, x) =>
    if s.staleFor x seen pa n && Config.free 28 s.fresh (c.gk * 32 + l) % 2 == 0 then
      ((span pa n).map fun a => s.byteAt x.at_ a, Nat.max seen x.at_)
    else home

/-- A lane of a cluster with a cache is ordered after a moment of the memory order. -/
def Ctx.sees (c : Ctx) (l moment : Nat) (s : State) : State :=
  if (s.cacheBanks c.cl).isEmpty then s
  else s.updGroup c.gk fun g => g.updLanes fun i ln => if i = l then { ln with seen := Nat.max ln.seen moment } else ln

/-- A way of a cluster's cache takes a line; which one, where all are full, is a free choice. The line that it replaces is written
back where it is dirty (R62). -/
def State.fillCache (s : State) (core : Nat) (classH : Bool) (tag line : Nat) : State :=
  match s.cacheBanks (core / 8) with
  | [] => s
  | b0 :: bs =>
    let set := line % 1024
    let b := ((b0 :: bs).find? fun b => (SMap.find (s.bank b).lines set).isNone).getD
      (atD (b0 :: bs) (Config.free 29 s.fresh line % (bs.length + 1)) b0)
    let s := match SMap.find (s.bank b).lines set with
      | some x => if x.dirty then s.askWrite core classH x.tag x.line else s
      | none => s
    s.setBank b { s.bank b with lines := SMap.put (s.bank b).lines set ⟨line, tag, s.wseq, false⟩, lastUse := s.now }

/-- A lane's read looks a line up in its cluster's cache; a miss asks its home and fills a way (R62). -/
def Ctx.lookUp (c : Ctx) (s : State) (x : Nat × Nat) : State :=
  match s.copyOf c.cl x.1 x.2 with
  | some (b, _) => s.setBank b { s.bank b with lastUse := s.now }
  | none =>
    (s.askHome ⟨x.1, 1, duelOf c.l.classH, c.l.classH, c.t.core, false, x.2, none, 0⟩).fillCache c.t.core c.l.classH x.2 x.1

/-- A line leaves a cluster's cache. -/
def State.dropCopies (s : State) (cl line : Nat) : State :=
  (s.cacheBanks cl).foldl (fun s b =>
    match SMap.find (s.bank b).lines (line % 1024) with
    | some x => if x.line = line then s.setBank b { s.bank b with lines := SMap.erase (s.bank b).lines (line % 1024) } else s
    | none => s) s

end Sys2Proof.Machine
end

