-- ==== Sys2Proof/Machine/Flags.lean ====
section
/-! DEFINITION. What conditions and status words compute: comparisons (R167, R188), carries (R162), and the special registers
that report a group's state (Tables 2-5, 2-6, 3-4, 11-3). -/

namespace Sys2Proof.Machine

/-- `icmp` on two whole numbers (R167). -/
def iccHolds : ICc → Int → Int → Bool
  | .eq, a, b => a == b
  | .ne, a, b => a != b
  | .lt, a, b => a < b
  | .le, a, b => a ≤ b
  | .gt, a, b => a > b
  | .ge, a, b => a ≥ b

/-- `fcmp` on two values (R188): a NaN makes every order but `ne` and `nan` false. -/
def fccHolds (cc : FCc) (a b : FVal) : Bool :=
  let nan := a.isNan || b.isNan
  match cc with
  | .eq => !nan && a.eqv b
  | .ne => nan || !a.eqv b
  | .lt => a.lt b
  | .le => !nan && (a.lt b || a.eqv b)
  | .gt => b.lt a
  | .ge => !nan && (b.lt a || a.eqv b)
  | .num => !nan
  | .nan => nan

/-- The 33-bit sum of `iaddc` (R162). -/
def carrySum (a b : Word) (cin : Bool) : Nat := a.toNat + b.toNat + cin.toNat

/-- %pev (Table 11-3): bit i is 1 while entry i is LATCHED. -/
def Group.pev (g : Group) : Word :=
  wordOf (sumN ((span 0 8).map fun i => if (atD g.evs i EvEntry.reset).est = .latched then 2 ^ i else 0))

/-- %regalloc (Table 2-5). -/
def Group.regalloc (g : Group) : Word := wordOf (g.nb % 16 + g.gst % 8 * 2 ^ 8)

/-- Some lane of the group is HELD (R33). -/
def Group.serial (g : Group) : Bool := g.lanes.any fun ln => ln.lst = .held

/-- %gstat (Table 2-6). -/
def Group.gstat (g : Group) : Word :=
  wordOf (g.syncmm.toNat + g.serial.toNat * 2 + g.evictedBit.toNat * 4 + g.restartedBit.toNat * 8 + g.srbign.toNat * 16)

/-- Clear the W1C bits of %gstat that a write names (R45). -/
def Group.clearGstat (g : Group) (w : Word) : Group :=
  { g with
    syncmm := g.syncmm && !w.getLsbD 0
    evictedBit := g.evictedBit && !w.getLsbD 2
    restartedBit := g.restartedBit && !w.getLsbD 3
    srbign := g.srbign && !w.getLsbD 4 }

/-- Entries of a mask that are LATCHED become SPENT; with `disarm`, those ARMED become DISARMED (R261). -/
def Group.clearEvents (g : Group) (m : Nat) (disarm : Bool) : Group :=
  { g with
    evs := (span 0 8).map fun i =>
      let e := atD g.evs i EvEntry.reset
      if m / 2 ^ i % 2 = 0 then e
      else
        match e.est with
        | .latched => { e with est := .spent }
        | .armed => if disarm then { e with est := .disarmed } else e
        | _ => e }

/-- %ptime (R366): device time advances with the die network clock at PTRATE's correction. -/
def State.ptime (s : State) : Nat :=
  let cycles := s.now - s.ptAt
  let rate := if s.ptRate > 500 * 2 ^ 16 then 500 * 2 ^ 16 else if s.ptRate < -(500 * 2 ^ 16) then -(500 * 2 ^ 16) else s.ptRate
  let num : Int := (cycles : Int) * 1000 * (10 ^ 6 * 2 ^ 16 + rate)
  (s.ptBase + (num / (2050 * 10 ^ 6 * 2 ^ 16)).toNat) % 2 ^ 64

/-- The clock of a cluster in MHz: while its bias settles, the lower of the old and new clocks (R369). -/
def Cluster.mhz (c : Cluster) : Nat :=
  match c.settleOld with
  | none => c.curBias.mhz
  | some o => Nat.min o.mhz c.curBias.mhz

/-- Cycles that a cluster has run since package reset (R277). -/
def State.cycles (s : State) (cl : Nat) : Nat :=
  let c := s.cluster cl
  c.clk + (s.now - c.clkAt) * c.mhz / 2050

/-- Bring a cluster's cycle count up to date, before its clock changes. -/
def State.syncClock (s : State) (cl : Nat) : State := s.setCluster cl { s.cluster cl with clk := s.cycles cl, clkAt := s.now }

/-- The scratchpad-window address of an offset, with a team's tag (R54, R59). -/
def Team.window (t : Team) (off : Nat) : DWord := dwordOf (0xF1 * 2 ^ 56 + t.tagSlot * 2 ^ 26 + t.tagCore * 2 ^ 23 + off)

/-- %sctx (R87). -/
def Ctx.sctx (c : Ctx) : DWord :=
  match c.l.stream with
  | none => 0
  | some _ => c.t.window (c.t.ctxAt * bankBytes)

/-- A special register as one lane reads it (Table 6-5). -/
def Ctx.sreg (c : Ctx) (s : State) (l : Nat) (idx : Nat) : DWord :=
  match idx with
  | 0x00 => dwordOf l
  | 0x01 => dwordOf (l / 4)
  | 0x02 => dwordOf c.gnum
  | 0x03 => dwordOf c.t.num
  | 0x04 => dwordOf (c.t.core % 8)
  | 0x05 => dwordOf (c.t.core / 8 % 24)
  | 0x06 => dwordOf c.die
  | 0x07 => dwordOf c.part
  | 0x08 => if c.l.classH then 1 else 0
  | 0x09 => c.g.gang.setWidth 64
  | 0x0A => (c.g.lane l).csp
  | 0x0B => dwordOf c.g.nbv
  | 0x0C => dwordOf c.g.bphase
  | 0x0D => c.g.pev.setWidth 64
  | 0x0E => c.g.evm.setWidth 64
  | 0x0F => dwordOf c.g.evhit
  | 0x10 => c.g.fmask
  | 0x11 => c.sctx
  | 0x12 => dwordOf s.ptime
  | 0x13 => dwordOf s.svc.code
  | 0x14 => c.g.regalloc.setWidth 64
  | 0x15 => c.g.gstat.setWidth 64
  | _ => 0

end Sys2Proof.Machine
end

