-- ==== Sys2Proof/Machine/Exec.lean ====
section
/-! DEFINITION. How an instruction issues: the checks that come before its guard (R139, R155, R200), the guard and the active
lanes (R149), instructions of a whole group (R40), long-latency results (R150), and waits that hold a lane at its instruction. -/

namespace Sys2Proof.Machine

/-- What an instruction's meaning answers. -/
abbrev Out := Host.Outcome State Fault Refusal

/-! Row 8 of Table 6-10: features and formats that the part does not offer now. -/

/-- Formats that reduced service excludes (R131). -/
def Ty.fullOnly (t : Sys2Proof.Ty) : Bool := t = .f16 || t = .e4m3 || t = .e5m2 || t = .ds8 || t = .e8m0

/-- An instruction that reduced service excludes (R131, R200). -/
def reducedOut : Instr → Bool
  | .hadd2 .. => true
  | .hmul2 .. => true
  | .hfma2 .. => true
  | .fdot2 .. => true
  | .qdot4 _ ty _ _ _ _ _ _ _ => ty.isFloat
  | .fbmax .. => true
  | .ds8enc .. => true
  | .ds8dec .. => true
  | .fclass _ ty _ _ => Ty.fullOnly ty
  | .fcvt _ dt sty _ _ _ _ _ _ => Ty.fullOnly dt || Ty.fullOnly sty
  | .fcvtSr _ dt sty _ _ _ _ _ _ => Ty.fullOnly dt || Ty.fullOnly sty
  | .fcvti _ _ sty _ _ _ _ => Ty.fullOnly sty
  | .icvtf _ dt _ _ _ _ _ => Ty.fullOnly dt
  | .fpack _ dt _ _ _ _ _ _ _ => Ty.fullOnly dt
  | .funpack _ sty _ _ _ _ => Ty.fullOnly sty
  | .mmaF16 .. => true
  | .mmaBf16 _ x => x.sc
  | .mmaE4m3 .. => true
  | .mmaE5m2 .. => true
  | .mmaS8 .. => true
  | .mmaDs8 .. => true
  | .accLd _ _ ty _ _ => Ty.fullOnly ty
  | .accDrain _ _ _ ty _ _ _ _ => Ty.fullOnly ty
  | _ => false

/-- An instruction whose encoding names DS8 (R3, R200). -/
def namesDs8 : Instr → Bool
  | .fbmax _ ty _ _ _ _ => ty = .ds8
  | .ds8enc .. => true
  | .ds8dec .. => true
  | .mmaDs8 .. => true
  | _ => false

/-- Row 8 of Table 6-10. -/
def State.excluded (s : State) (i : Instr) : Bool :=
  (s.svc == .reduced && reducedOut i) || (namesDs8 i && !Config.hasDs8)

/-- Row 10 of Table 6-10: a register or a tile beyond the allocation (R139). -/
def Opnd.beyond (regs tiles : Nat) : Opnd → Bool
  | .v r n => decide (r.toNat + n > regs)
  | .frag r n => decide (r.toNat + n > regs)
  | .run r n => decide (r.toNat + n > regs)
  | .tile r n => decide (r.toNat + n > tiles)
  | _ => false

/-- The trap of Table 6-10 that an instruction raises before its guard. -/
def Ctx.reject? (c : Ctx) (i : Instr) (s : State) : Option Cause :=
  if !(i.encodingOk && i.widthOk) || s.excluded i then some .illegalOpcode
  else if !i.operandsOk then some .illegalOperand
  else if i.opnds.any (Opnd.beyond (32 * c.g.nb) c.l.k.acc) then some .regRange
  else none

/-- A word that is no instruction for this path: its precise trap, or, on a path of helper lanes only, the effects of `exit`
(R25, R155). -/
def Ctx.refuse (c : Ctx) (cause : Cause) (s : State) : State :=
  if c.realOf c.path = 0 then s.exitLanes c.gk c.path else c.trap cause (c.realOf c.path) s

/-- A lane's guard (R149). -/
def Ctx.guard (c : Ctx) (s : State) (i : Instr) (l : Nat) : Bool :=
  match i.hdr? with
  | some h => c.p s l (h.gp.setWidth 8) != h.gn
  | none => true

/-- The active lanes (R149). An instruction that replays alone acts for the lanes for which it acted before (R151). -/
def Ctx.active (c : Ctx) (i : Instr) (s : State) : Mask :=
  if c.alone then c.path else Mask.ofPred fun l => c.path.getLsbD l && c.guard s i l

/-- Issue an instruction for the path that the state names: row 8, 9 or 10 of Table 6-10, or its effect. -/
def issue (i : Instr) (s : State) (k : Ctx → Mask → State → State) : Out :=
  match s.ctx? with
  | none => .fault .noIssuer
  | some c =>
    .next (match c.reject? i s with
      | some cause => c.refuse cause s
      | none => k c (c.active i s) s)

/-- As `issue`, for an instruction that reaches memory: an access to an address without memory stops the model. -/
def issueMem (i : Instr) (s : State) (k : Ctx → Mask → State → State) : Out :=
  match issue i s k with
  | .next t =>
    match t.stuck with
    | some pa => .fault (.noMemory pa)
    | none => .next t
  | o => o

/-! Register tags and scalar issue (R31, R294). -/

/-- The destination registers and the sources of a group 0 operation, in its immediate form too, that reads no predicate. -/
def groupZero : Instr → Option (List Reg × List SrcB)
  | .iadd _ _ _ d a b | .isub _ _ _ d a b | .imul _ _ _ d a b | .imulhi _ _ d a b => some ([d], [.reg a, b])
  | .imad _ _ _ d a b c => some ([d], [.reg a, .reg b, .reg c])
  | .iadd64 _ _ _ d a b | .isub64 _ _ _ d a b => some ([d, d + 1], [.reg a, .reg (a + 1), .reg b, .reg (b + 1)])
  | .imad64 _ _ _ d a b c => some ([d, d + 1], [.reg a, .reg b, .reg c, .reg (c + 1)])
  | .ineg _ _ d a | .iabs _ _ d a | .not _ d a | .clz _ d a | .popc _ d a | .brev _ d a => some ([d], [.reg a])
  | .imin _ _ d a b | .imax _ _ d a b | .and _ d a b | .or _ d a b | .xor _ d a b | .andn _ d a b => some ([d], [.reg a, b])
  | .lop3 _ _ d a b c | .bfi _ d a b c => some ([d], [.reg a, .reg b, .reg c])
  | .shl _ d a b | .shr _ d a b | .sra _ d a b | .rotl _ d a b => some ([d], [.reg a, b])
  | .shl64 _ d a b | .shr64 _ _ d a b => some ([d, d + 1], [.reg a, .reg (a + 1), b])
  | .bfx _ _ bi d a b c => some ([d], if bi then [.reg a] else [.reg a, .reg b, .reg c])
  | .mov _ d a => some ([d], [a])
  | .lea _ _ d a b _ => some ([d, d + 1], [.reg a, .reg (a + 1), .reg b])
  | .iaddImm _ _ _ d a _ | .isubImm _ _ _ d a _ | .imulImm _ _ _ d a _ => some ([d], [.reg a])
  | .imadImm _ _ _ d a _ c => some ([d], [.reg a, .reg c])
  | .iminImm _ _ d a _ | .imaxImm _ _ d a _ | .andImm _ d a _ | .orImm _ d a _ | .xorImm _ d a _ | .andnImm _ d a _ =>
    some ([d], [.reg a])
  | .movk _ d _ => some ([d], [])
  | .movk64 _ d _ => some ([d, d + 1], [])
  | _ => none

/-- The tag of a source: an immediate is uniform. -/
def Ctx.tagOf (c : Ctx) : SrcB → Option RTag
  | .reg r => SMap.find c.g.rtags r.toNat
  | .imm _ => some .uniform

/-- A tagged source as base + stride x %lane; a uniform one has the value of the path's lowest lane. -/
def Ctx.affineOf (c : Ctx) (s : State) (x : SrcB) : Option (Word × Word) :=
  (c.tagOf x).map fun t =>
    match t with
    | .affine b k => (b, k)
    | .uniform =>
      let l := (Mask.lowest c.path).getD 0
      (match x with | .reg r => c.g.rv s.fresh l r.toNat | .imm i => i.signExtend 32, 0)

/-- A sum of two tagged sources is affine; the strides add (Table 14-3). -/
def affineSum (neg : Bool) (x y : Option (Word × Word)) : Option RTag :=
  match x, y with
  | some (a, i), some (b, j) => some (if neg then .affine (a - b) (i - j) else .affine (a + b) (i + j))
  | _, _ => none

/-- A tagged source scaled by a uniform one (Table 14-3). -/
def affineScale (x : Option (Word × Word)) (k : Word) : Option RTag := x.map fun p => .affine (p.1 * k) (p.2 * k)

/-- The tag of the destination of an instruction that some sources make affine (Table 14-3). -/
def Ctx.affineTag (c : Ctx) (s : State) (i : Instr) : Option RTag :=
  let af := fun (r : Reg) => c.affineOf s (.reg r)
  let uni := fun (x : SrcB) => if c.tagOf x = some .uniform then (c.affineOf s x).map (·.1) else none
  match i with
  | .iadd _ _ _ _ a b => affineSum false (af a) (c.affineOf s b)
  | .isub _ _ _ _ a b => affineSum true (af a) (c.affineOf s b)
  | .iaddImm _ _ _ _ a k => affineSum false (af a) (some (k, 0))
  | .isubImm _ _ _ _ a k => affineSum true (af a) (some (k, 0))
  | .lea _ _ _ a b k => affineSum false (af a) ((af b).map fun p => (p.1 * (1#32 <<< k.toNat), p.2 * (1#32 <<< k.toNat)))
  | .imul _ _ _ _ a b => (uni b).bind (affineScale (af a)) |>.or ((uni (.reg a)).bind (affineScale (c.affineOf s b)))
  | .imulImm _ _ _ _ a k => affineScale (af a) k
  | .shl _ _ a b => (uni b).bind fun k => affineScale (af a) (if k.toNat < 32 then 1#32 <<< k.toNat else 0)
  | _ => none

/-- The tags that an instruction gives, on a path of every live lane under a guard of 1 in each (Table 14-3). -/
def Ctx.newTags (c : Ctx) (s : State) (i : Instr) : List (Nat × RTag) :=
  match i with
  | .sregGet _ d x =>
    if x = 0 then [(d.toNat, .affine 0 1)]
    else if x = 1 ∨ x = 0x0A then []
    else if sregRegs x = 2 then [(d.toNat, .uniform), (d.toNat + 1, .uniform)] else [(d.toNat, .uniform)]
  | _ =>
    match groupZero i with
    | none => []
    | some (ds, srcs) =>
      if srcs.all fun x => c.tagOf x = some .uniform then ds.map fun d => (d.toNat, .uniform)
      else
        match ds, c.affineTag s i with
        | d :: _, some t => [(d.toNat, t)]
        | _, _ => []

/-- The path holds every live lane, and the instruction is active in each. -/
def Ctx.whole (c : Ctx) (act : Mask) : Bool := c.path == c.g.live && act == c.path

/-- Tag the registers that an instruction has written. Where every source is tagged, the scalar unit may have executed it, a
free choice that its core's counter shows (R31, R294; log 79). -/
def Ctx.tagWrites (c : Ctx) (i : Instr) (act : Mask) (s : State) : State :=
  let scalar :=
    match groupZero i with
    | some (_, srcs) => !srcs.isEmpty && srcs.all fun x => (c.tagOf x).isSome
    | none => false
  let s := if scalar && Config.free 35 s.fresh c.gk % 2 == 1 then
    { s with scalarIssues := SMap.updD s.scalarIssues c.t.core 0 (· + 1) } else s
  match if c.whole act then c.newTags s i else [] with
  | [] => s
  | ts => s.updGroup c.gk fun g => { g with rtags := ts.foldl (fun m x => SMap.put m x.1 x.2) g.rtags }

/-- Each active lane computes its own results. -/
def laneOp (i : Instr) (s : State) (f : Ctx → Nat → Wr) : Out :=
  issue i s fun c act s => c.advance i (c.tagWrites i act (s.writeLanes c.gk act (f c)))

/-- A trap in execution: where only helper lanes would raise it, nothing is raised and the path goes on (R25). -/
def Ctx.trapOr (c : Ctx) (i : Instr) (cause : Cause) (lm : Mask) (s : State) : State :=
  if c.realOf lm = 0 then c.advance i s else c.trap cause (c.realOf lm) s

/-! Instructions of a whole group (R40). -/

/-- An instruction that acts for the whole group: GROUP_DIVERGED from a path without every live lane, or where the guard
differs; nothing where it is 0 in every lane (R40, R149). `k` is told the guard. -/
def groupOpG (i : Instr) (s : State) (k : Ctx → Bool → State → State) : Out :=
  issueMem i s fun c act s =>
    if c.path ≠ c.g.live then c.trapOr i .groupDiverged c.path s
    else if act = c.path then k c true s
    else if act = 0 then k c false s
    else c.trapOr i .groupDiverged c.path s

/-- As `groupOpG`, for an instruction without effect where its guard is 0. -/
def groupOp (i : Instr) (s : State) (k : Ctx → State → State) : Out :=
  groupOpG i s fun c on s => if on then k c s else c.advance i s

/-! Long-latency instructions (R150, R151). -/

/-- One lane's result, to be landed by LONG_LATENCY_RESULT. -/
def PLane.of (l : Nat) (la : Nat) (w : Wr) : PLane := ⟨l, la, w.vs, w.ps, false, none, [], [], none, 0, []⟩

/-- A lane whose instruction met a fault, taken at its stall point (R151). -/
def PLane.bad (l : Nat) (la : Nat) (f : FInfo) : PLane := ⟨l, la, [], [], true, some f, [], [], none, 0, []⟩

/-- A load by `ld.inv` from a uniform global address, whose result is tagged uniform (Table 14-3). -/
def Ctx.uniformLoad (c : Ctx) (i : Instr) (s : State) : Bool :=
  let uni := fun (r : Reg) => c.tagOf (.reg r) = some .uniform && c.tagOf (.reg (r + 1)) = some .uniform
  match i with
  | .ldG _ x => x.inv && uni x.a && c.whole (c.active i s)
  | .ld _ x => x.inv && uni x.a && c.whole (c.active i s) &&
      decide ((c.g.rv s.fresh ((Mask.lowest c.path).getD 0) (x.a.toNat + 1)).toNat / 2 ^ 24 = 0)
  | _ => false

/-- Note a pending instruction; one without a lane leaves nothing pending (R149). -/
def Ctx.startPend (c : Ctx) (i : Instr) (ls : List PLane) (s : State) : State :=
  if ls.isEmpty then s
  else s.updGroup c.gk fun g => { g with pend := g.pend ++ [⟨g.nextPend, c.ipc, i, ls, false, c.uniformLoad i s⟩], nextPend := g.nextPend + 1 }

/-- The window of an instruction: none where it replays alone (R151). -/
def Ctx.window (c : Ctx) (la : BitVec 4) : Nat := if c.alone then 0 else la.toNat

/-- A long-latency instruction whose results depend on registers alone. -/
def longOp (i : Instr) (la : BitVec 4) (s : State) (f : Ctx → Nat → Wr) : Out :=
  issue i s fun c act s =>
    c.advance i (c.startPend i ((Mask.lanes act).map fun l => PLane.of l (c.window la) (f c l)) s)

/-! Waits (R36, R255, R264). -/

/-- Lanes wait at the instruction, which counts as issued in the windows of earlier results (R150). -/
def Ctx.waitLanes (c : Ctx) (i : Instr) (m : Mask) (f : Lane → Lane) (s : State) : State :=
  s.updGroup c.gk fun g =>
    Group.closeWindows s.fresh (g.updLanes fun l ln => if m.getLsbD l then { f ln with ilen := i.len } else ln) m c.n0

/-- Lanes wait at an instruction that issues again, as if for the first time. -/
def Ctx.holdLanes (c : Ctx) (m : Mask) (w : LaneWait) (s : State) : State :=
  s.updGroup c.gk fun g => g.updLanes fun l ln => if m.getLsbD l then { ln with wait := w } else ln

/-- The lanes of a mask go on, and the other lanes of the path stay where they are: the path splits (R27, R32). -/
def Ctx.moveSome (c : Ctx) (i : Instr) (m : Mask) (s : State) : State :=
  if m = 0 ∨ c.alone then s
  else
    let s := s.updGroup c.gk fun g =>
      Group.closeWindows s.fresh
        (g.updLanes fun l ln => if m.getLsbD l ∧ ln.onSome then { ln with pc := ln.pc + dwordOf i.len } else ln) m c.n0
    (s.repath c.gk c.path).grantHeld 64 c.t.core

/-- Each active lane takes a state of waiting, and the lanes of the path that are not active go on. -/
def Ctx.waitAll (c : Ctx) (i : Instr) (act : Mask) (f : Lane → Lane) (s : State) : State :=
  c.moveSome i (c.path &&& ~~~act) (c.waitLanes i act f s)

end Sys2Proof.Machine
end

