-- ==== Sys2Proof/Machine/Int.lean ====
section
/-! DEFINITION. Groups 0 to 2: integer arithmetic and logic, their immediate forms, comparison and predicates (R158-R169). -/

namespace Sys2Proof.Machine

/-! Shared computations. -/

/-- An exact result, clamped with .sat and wrapped otherwise (R160). -/
def aluRes (ty : Sys2Proof.Ty) (sat : Bool) (x : Int) : Word := BitVec.ofInt 32 (if sat then clampTy ty x else x)

/-- The same over 64 bits (R161). -/
def aluRes64 (ty : Sys2Proof.Ty) (sat : Bool) (x : Int) : DWord := BitVec.ofInt 64 (if sat then clampTy ty x else x)

/-- The lesser and the greater of two 32-bit operands (R160). -/
def minW (ty : Sys2Proof.Ty) (a b : Word) : Word := if intOf ty a ≤ intOf ty b then a else b
def maxW (ty : Sys2Proof.Ty) (a b : Word) : Word := if intOf ty a ≤ intOf ty b then b else a

/-- Shifts by an unsigned amount that may reach or pass the width (R164). -/
def shlW {n : Nat} (a : BitVec n) (k : Word) : BitVec n := if k.toNat < n then a <<< k.toNat else 0
def shrW {n : Nat} (a : BitVec n) (k : Word) : BitVec n := if k.toNat < n then a >>> k.toNat else 0
def sraW {n : Nat} (a : BitVec n) (k : Word) : BitVec n := a.sshiftRight (Nat.min k.toNat (n - 1))

/-- The three-input table of `lop3` (R163). -/
def lop3W (lut : BitVec 8) (a b c : Word) : Word :=
  Mask.ofPred fun i => lut.getLsbD (4 * (a.getLsbD i).toNat + 2 * (b.getLsbD i).toNat + (c.getLsbD i).toNat)

/-- Leading zero bits (R165). -/
def clzW (a : Word) : Nat := if a = 0 then 32 else 31 - Nat.log2 a.toNat

/-- The extracted field of `bfx` (R165). -/
def bfxW (signed : Bool) (a : Word) (pos len : Nat) : Word :=
  let p := Nat.min pos 32
  let n := Nat.min len (32 - p)
  let f := a.toNat / 2 ^ p % 2 ^ n
  if n = 0 then 0 else if signed && f / 2 ^ (n - 1) == 1 then wordOf (f + (2 ^ 32 - 2 ^ n)) else wordOf f

/-- The inserted field of `bfi` (R165). -/
def bfiW (a b c : Word) : Word :=
  let p := Nat.min (c.toNat % 256) 32
  let n := Nat.min (c.toNat / 256 % 256) (32 - p)
  let m : Word := wordOf ((2 ^ n - 1) * 2 ^ p)
  (a &&& ~~~m) ||| ((b <<< p) &&& m)

/-! Group 0. -/

/-- IADD (R160): adds two 32-bit integers per active lane, with wrap or saturation, using the group 0 F64 form. -/
def execIadd (h : Hdr) (ty : Ty) (sat : Bool) (d a : Reg) (b : SrcB) (s : State) : Out :=
  laneOp (.iadd h ty sat d a b) s fun c l => .v d (aluRes ty sat (intOf ty (c.v s l a) + intOf ty (c.src s l b)))

/-- ISUB (R160): subtracts two 32-bit integers per active lane, with wrap or saturation, using the group 0 F64 form. -/
def execIsub (h : Hdr) (ty : Ty) (sat : Bool) (d a : Reg) (b : SrcB) (s : State) : Out :=
  laneOp (.isub h ty sat d a b) s fun c l => .v d (aluRes ty sat (intOf ty (c.v s l a) - intOf ty (c.src s l b)))

/-- IMUL (R160): multiplies two 32-bit integers per active lane, keeping the low 32 bits or saturating, using the group 0 form. -/
def execImul (h : Hdr) (ty : Ty) (sat : Bool) (d a : Reg) (b : SrcB) (s : State) : Out :=
  laneOp (.imul h ty sat d a b) s fun c l => .v d (aluRes ty sat (intOf ty (c.v s l a) * intOf ty (c.src s l b)))

/-- IMULHI (R160): writes bits 63:32 of the exact 64-bit product of two 32-bit integers per active lane. -/
def execImulhi (h : Hdr) (ty : Ty) (d a : Reg) (b : SrcB) (s : State) : Out :=
  laneOp (.imulhi h ty d a b) s fun c l =>
    .v d (hiW (BitVec.ofInt 64 (intOf ty (c.v s l a) * intOf ty (c.src s l b))))

/-- IMAD (R160): computes a times b plus c per active lane, with wrap or saturation, using the group 0 form. -/
def execImad (h : Hdr) (ty : Ty) (sat : Bool) (d a b x : Reg) (s : State) : Out :=
  laneOp (.imad h ty sat d a b x) s fun c l =>
    .v d (aluRes ty sat (intOf ty (c.v s l a) * intOf ty (c.v s l b) + intOf ty (c.v s l x)))

/-- IADD64 (R161): adds two 64-bit register pairs per active lane, with wrap or saturation. -/
def execIadd64 (h : Hdr) (ty : Ty) (sat : Bool) (d a b : Reg) (s : State) : Out :=
  laneOp (.iadd64 h ty sat d a b) s fun c l => .pair d (aluRes64 ty sat (intOf ty (c.pair s l a) + intOf ty (c.pair s l b)))

/-- ISUB64 (R161): subtracts two 64-bit register pairs per active lane, with wrap or saturation. -/
def execIsub64 (h : Hdr) (ty : Ty) (sat : Bool) (d a b : Reg) (s : State) : Out :=
  laneOp (.isub64 h ty sat d a b) s fun c l => .pair d (aluRes64 ty sat (intOf ty (c.pair s l a) - intOf ty (c.pair s l b)))

/-- IMAD64 (R161): multiplies two extended 32-bit values and adds a 64-bit pair per active lane. -/
def execImad64 (h : Hdr) (ty : Ty) (sat : Bool) (d a b x : Reg) (s : State) : Out :=
  laneOp (.imad64 h ty sat d a b x) s fun c l =>
    .pair d (aluRes64 ty sat (intOf ty (c.v s l a) * intOf ty (c.v s l b) + intOf ty (c.pair s l x)))

/-- IADDC (R162): adds with a carry held in a predicate and writes the carry-out back to that predicate. -/
def execIaddc (h : Hdr) (first : Bool) (d a b x : Reg) (s : State) : Out :=
  laneOp (.iaddc h first d a b x) s fun c l =>
    let n := carrySum (c.v s l a) (c.v s l b) (!first && c.p s l x)
    (Wr.v d (wordOf n)).and (Wr.p x (n / 2 ^ 32 % 2 == 1))

/-- INEG (R160): negates a signed 32-bit integer per active lane, with wrap or saturation. -/
def execIneg (h : Hdr) (sat : Bool) (d a : Reg) (s : State) : Out :=
  laneOp (.ineg h sat d a) s fun c l => .v d (aluRes .s32 sat (-(c.v s l a).toInt))

/-- IABS (R160): writes the absolute value of a signed 32-bit integer per active lane, with wrap or saturation. -/
def execIabs (h : Hdr) (sat : Bool) (d a : Reg) (s : State) : Out :=
  laneOp (.iabs h sat d a) s fun c l => .v d (aluRes .s32 sat (c.v s l a).toInt.natAbs)

/-- IMIN (R160): writes the lesser of two 32-bit integers per active lane, using the group 0 form. -/
def execImin (h : Hdr) (ty : Ty) (d a : Reg) (b : SrcB) (s : State) : Out :=
  laneOp (.imin h ty d a b) s fun c l => .v d (minW ty (c.v s l a) (c.src s l b))

/-- IMAX (R160): writes the greater of two 32-bit integers per active lane, using the group 0 form. -/
def execImax (h : Hdr) (ty : Ty) (d a : Reg) (b : SrcB) (s : State) : Out :=
  laneOp (.imax h ty d a b) s fun c l => .v d (maxW ty (c.v s l a) (c.src s l b))

/-- AND (R160): writes the bitwise AND of two operands per active lane, using the group 0 form. -/
def execAnd (h : Hdr) (d a : Reg) (b : SrcB) (s : State) : Out :=
  laneOp (.and h d a b) s fun c l => .v d (c.v s l a &&& c.src s l b)

/-- OR (R160): writes the bitwise OR of two operands per active lane, using the group 0 form. -/
def execOr (h : Hdr) (d a : Reg) (b : SrcB) (s : State) : Out :=
  laneOp (.or h d a b) s fun c l => .v d (c.v s l a ||| c.src s l b)

/-- XOR (R160): writes the bitwise XOR of two operands per active lane, using the group 0 form. -/
def execXor (h : Hdr) (d a : Reg) (b : SrcB) (s : State) : Out :=
  laneOp (.xor h d a b) s fun c l => .v d (c.v s l a ^^^ c.src s l b)

/-- ANDN (R160): writes a AND NOT b per active lane, using the group 0 form. -/
def execAndn (h : Hdr) (d a : Reg) (b : SrcB) (s : State) : Out :=
  laneOp (.andn h d a b) s fun c l => .v d (c.v s l a &&& ~~~c.src s l b)

/-- NOT (R160): writes the bitwise complement of a per active lane. -/
def execNot (h : Hdr) (d a : Reg) (s : State) : Out :=
  laneOp (.not h d a) s fun c l => .v d (~~~c.v s l a)

/-- LOP3 (R163): applies an 8-bit lookup table to three operands, bit by bit, per active lane. -/
def execLop3 (h : Hdr) (lut : BitVec 8) (d a b x : Reg) (s : State) : Out :=
  laneOp (.lop3 h lut d a b x) s fun c l => .v d (lop3W lut (c.v s l a) (c.v s l b) (c.v s l x))

/-- SHL (R164): shifts a 32-bit value left by k per active lane, giving 0 for k of 32 or more. -/
def execShl (h : Hdr) (d a : Reg) (b : SrcB) (s : State) : Out :=
  laneOp (.shl h d a b) s fun c l => .v d (shlW (c.v s l a) (c.src s l b))

/-- SHR (R164): shifts a 32-bit value right by k with zero fill per active lane. -/
def execShr (h : Hdr) (d a : Reg) (b : SrcB) (s : State) : Out :=
  laneOp (.shr h d a b) s fun c l => .v d (shrW (c.v s l a) (c.src s l b))

/-- SRA (R164): shifts a 32-bit value right by k with copies of bit 31 per active lane. -/
def execSra (h : Hdr) (d a : Reg) (b : SrcB) (s : State) : Out :=
  laneOp (.sra h d a b) s fun c l => .v d (sraW (c.v s l a) (c.src s l b))

/-- SHL64 (R164): shifts a 64-bit pair left by k per active lane. -/
def execShl64 (h : Hdr) (d a : Reg) (b : SrcB) (s : State) : Out :=
  laneOp (.shl64 h d a b) s fun c l => .pair d (shlW (c.pair s l a) (c.src s l b))

/-- SHR64 (R164): shifts a 64-bit pair right by k, arithmetically or logically by type, per active lane. -/
def execShr64 (h : Hdr) (ty : Ty) (d a : Reg) (b : SrcB) (s : State) : Out :=
  laneOp (.shr64 h ty d a b) s fun c l =>
    .pair d (if Ty.signed ty then sraW (c.pair s l a) (c.src s l b) else shrW (c.pair s l a) (c.src s l b))

/-- ROTL (R164): rotates a 32-bit value left by k mod 32 per active lane. -/
def execRotl (h : Hdr) (d a : Reg) (b : SrcB) (s : State) : Out :=
  laneOp (.rotl h d a b) s fun c l => .v d ((c.v s l a).rotateLeft ((c.src s l b).toNat % 32))

/-- CLZ (R165): writes the count of leading zero bits of a per active lane. -/
def execClz (h : Hdr) (d a : Reg) (s : State) : Out :=
  laneOp (.clz h d a) s fun c l => .v d (wordOf (clzW (c.v s l a)))

/-- POPC (R165): writes the count of set bits of a per active lane. -/
def execPopc (h : Hdr) (d a : Reg) (s : State) : Out :=
  laneOp (.popc h d a) s fun c l => .v d (wordOf (Mask.count (c.v s l a)))

/-- BREV (R165): writes the bit-reversed value of a per active lane. -/
def execBrev (h : Hdr) (d a : Reg) (s : State) : Out :=
  laneOp (.brev h d a) s fun c l => .v d (c.v s l a).reverse

/-- BFX (R165): extracts a bit field with sign or zero extension per active lane. -/
def execBfx (h : Hdr) (ty : Ty) (bi : Bool) (d a b x : Reg) (s : State) : Out :=
  laneOp (.bfx h ty bi d a b x) s fun c l =>
    let pos := if bi then b.toNat else (c.v s l b).toNat
    let len := if bi then x.toNat else (c.v s l x).toNat
    .v d (bfxW (Ty.signed ty) (c.v s l a) pos len)

/-- BFI (R165): inserts a bit field of b into a at a position and length from c per active lane. -/
def execBfi (h : Hdr) (d a b x : Reg) (s : State) : Out :=
  laneOp (.bfi h d a b x) s fun c l => .v d (bfiW (c.v s l a) (c.v s l b) (c.v s l x))

/-- SEL (R166): selects vA or vB per active lane by a predicate. -/
def execSel (h : Hdr) (d a b x : Reg) (s : State) : Out :=
  laneOp (.sel h d a b x) s fun c l => .v d (if c.p s l x then c.v s l a else c.v s l b)

/-- MOV (R166): copies a register or a sign-extended 8-bit immediate to the destination per active lane. -/
def execMov (h : Hdr) (d : Reg) (a : SrcB) (s : State) : Out :=
  laneOp (.mov h d a) s fun c l => .v d (c.src s l a)

/-- LEA (R166): adds an extended, shifted 32-bit index to a 64-bit base per active lane. -/
def execLea (h : Hdr) (ty : Ty) (d a b k : Reg) (s : State) : Out :=
  laneOp (.lea h ty d a b k) s fun c l => .pair d (c.pair s l a + (ext64 (Ty.signed ty) (c.v s l b) <<< k.toNat))

/-! Group 1: the same operations with operand B an immediate of 32 bits (R159). -/

/-- IADD_IMM (R159): the F96 group 1 form of iadd, taking operand B from IMM32. -/
def execIaddImm (h : Hdr) (ty : Ty) (sat : Bool) (d a : Reg) (imm : Word) (s : State) : Out :=
  laneOp (.iaddImm h ty sat d a imm) s fun c l => .v d (aluRes ty sat (intOf ty (c.v s l a) + intOf ty imm))

/-- ISUB_IMM (R159): the F96 group 1 form of isub, taking operand B from IMM32. -/
def execIsubImm (h : Hdr) (ty : Ty) (sat : Bool) (d a : Reg) (imm : Word) (s : State) : Out :=
  laneOp (.isubImm h ty sat d a imm) s fun c l => .v d (aluRes ty sat (intOf ty (c.v s l a) - intOf ty imm))

/-- IMUL_IMM (R159): the F96 group 1 form of imul, taking operand B from IMM32. -/
def execImulImm (h : Hdr) (ty : Ty) (sat : Bool) (d a : Reg) (imm : Word) (s : State) : Out :=
  laneOp (.imulImm h ty sat d a imm) s fun c l => .v d (aluRes ty sat (intOf ty (c.v s l a) * intOf ty imm))

/-- IMAD_IMM (R159): the F96 group 1 form of imad, taking operand B from IMM32. -/
def execImadImm (h : Hdr) (ty : Ty) (sat : Bool) (d a : Reg) (imm : Word) (x : Reg) (s : State) : Out :=
  laneOp (.imadImm h ty sat d a imm x) s fun c l =>
    .v d (aluRes ty sat (intOf ty (c.v s l a) * intOf ty imm + intOf ty (c.v s l x)))

/-- IMIN_IMM (R159): the F96 group 1 form of imin, taking operand B from IMM32. -/
def execIminImm (h : Hdr) (ty : Ty) (d a : Reg) (imm : Word) (s : State) : Out :=
  laneOp (.iminImm h ty d a imm) s fun c l => .v d (minW ty (c.v s l a) imm)

/-- IMAX_IMM (R159): the F96 group 1 form of imax, taking operand B from IMM32. -/
def execImaxImm (h : Hdr) (ty : Ty) (d a : Reg) (imm : Word) (s : State) : Out :=
  laneOp (.imaxImm h ty d a imm) s fun c l => .v d (maxW ty (c.v s l a) imm)

/-- AND_IMM (R159): the F96 group 1 form of and, taking operand B from IMM32. -/
def execAndImm (h : Hdr) (d a : Reg) (imm : Word) (s : State) : Out :=
  laneOp (.andImm h d a imm) s fun c l => .v d (c.v s l a &&& imm)

/-- OR_IMM (R159): the F96 group 1 form of or, taking operand B from IMM32. -/
def execOrImm (h : Hdr) (d a : Reg) (imm : Word) (s : State) : Out :=
  laneOp (.orImm h d a imm) s fun c l => .v d (c.v s l a ||| imm)

/-- XOR_IMM (R159): the F96 group 1 form of xor, taking operand B from IMM32. -/
def execXorImm (h : Hdr) (d a : Reg) (imm : Word) (s : State) : Out :=
  laneOp (.xorImm h d a imm) s fun c l => .v d (c.v s l a ^^^ imm)

/-- ANDN_IMM (R159): the F96 group 1 form of andn, taking operand B from IMM32. -/
def execAndnImm (h : Hdr) (d a : Reg) (imm : Word) (s : State) : Out :=
  laneOp (.andnImm h d a imm) s fun c l => .v d (c.v s l a &&& ~~~imm)

/-- MOVK (R166): writes a 32-bit immediate to the destination per active lane. -/
def execMovk (h : Hdr) (d : Reg) (imm : Word) (s : State) : Out :=
  laneOp (.movk h d imm) s fun _ _ => .v d imm

/-- MOVK64 (R166): writes a 64-bit immediate assembled from IMM48, B and C to a pair per active lane. -/
def execMovk64 (h : Hdr) (d : Reg) (imm : DWord) (s : State) : Out :=
  laneOp (.movk64 h d imm) s fun _ _ => .pair d imm

/-! Group 2. -/

/-- Operands of `icmp`, by the width of its type (R167). -/
def Ctx.cmpB (c : Ctx) (s : State) (l : Nat) (ty : Sys2Proof.Ty) (b : SrcB) : Int :=
  match b with
  | .reg r => if Ty.regs ty = 2 then intOf ty (c.pair s l r) else intOf ty (c.v s l r)
  | .imm _ => intOf ty (c.src s l b)

/-- ICMP (R167): compares two integers by a condition code and writes a predicate per active lane. -/
def execIcmp (h : Hdr) (cc : ICc) (ty : Ty) (d a : Reg) (b : SrcB) (s : State) : Out :=
  laneOp (.icmp h cc ty d a b) s fun c l => .p d (iccHolds cc (c.cmpB s l ty (.reg a)) (c.cmpB s l ty b))

/-- PSET (R169): writes a run of n predicates from the bits of a register per active lane. -/
def execPset (h : Hdr) (d a n : Reg) (s : State) : Out :=
  laneOp (.pset h d a n) s fun c l => ⟨[], (span 0 n.toNat).map fun i => (d.toNat + i, (c.v s l a).getLsbD i)⟩

/-- PGET (R169): gathers a run of n predicates into the bits of a register per active lane. -/
def execPget (h : Hdr) (d a n : Reg) (s : State) : Out :=
  laneOp (.pget h d a n) s fun c l =>
    .v d (Mask.ofPred fun i => decide (i < n.toNat) && c.g.rp s.fresh l (a.toNat + i))

/-- PAND (R168): writes the AND of two optionally negated predicates per active lane. -/
def execPand (h : Hdr) (na nb : Bool) (d a b : Reg) (s : State) : Out :=
  laneOp (.pand h na nb d a b) s fun c l => .p d ((c.p s l a != na) && (c.p s l b != nb))

/-- POR (R168): writes the OR of two optionally negated predicates per active lane. -/
def execPor (h : Hdr) (na nb : Bool) (d a b : Reg) (s : State) : Out :=
  laneOp (.por h na nb d a b) s fun c l => .p d ((c.p s l a != na) || (c.p s l b != nb))

/-- PXOR (R168): writes the XOR of two optionally negated predicates per active lane. -/
def execPxor (h : Hdr) (na nb : Bool) (d a b : Reg) (s : State) : Out :=
  laneOp (.pxor h na nb d a b) s fun c l => .p d ((c.p s l a != na) != (c.p s l b != nb))

/-- PNOT (R168): writes the complement of an optionally negated predicate per active lane. -/
def execPnot (h : Hdr) (na : Bool) (d a : Reg) (s : State) : Out :=
  laneOp (.pnot h na d a) s fun c l => .p d (!(c.p s l a != na))

/-- PMOV (R168): copies an optionally negated predicate per active lane. -/
def execPmov (h : Hdr) (na : Bool) (d a : Reg) (s : State) : Out :=
  laneOp (.pmov h na d a) s fun c l => .p d (c.p s l a != na)

end Sys2Proof.Machine
end

