-- ==== Sys2Proof/Machine/Places.lean ====
section
/-! DEFINITION. Fetching an instruction (R146, R157), and reading and writing the places that addresses name: memory, private space,
scratchpad, mapped tail registers (R57, R91, R95, R99, R280). -/

namespace Sys2Proof.Machine

/-! Fetching an instruction. -/

/-- What stands at a program counter. -/
inductive FetchRes where
  | instr (i : Instr)
  | fill
  | bad (c : Cause) (aux addr : Nat)
  deriving DecidableEq, Repr

/-- The cause that a decoding failure raises (Table 6-10). -/
def decCause : DecErr → Cause
  | .fetchAlign => .fetchAlign
  | _ => .illegalOpcode

/-- Fetch and decode at a program counter: the fetch block as a whole is one value that it held since the launch started
(R157), translated as a fetch (R171, R344). -/
def State.fetch (s : State) (p core start : Nat) (pc : DWord) : FetchRes :=
  let a := pc.toNat
  if a % 4 ≠ 0 then .bad .fetchAlign 0 a
  else if a ≥ 2 ^ 55 then .bad .badWindow 0 a
  else
    match s.translate p core .fetch (a / 32 * 32) with
    | .mem pa tag =>
      if s.stackFails pa then .bad .memError 0 a
      else
        match decode (a % 32) ((s.anyValueOf 7 a tag start pa 32).drop (a % 32)) with
        | .ok (.instr i) => .instr i
        | .ok .fill => .fill
        | .error e => .bad (decCause e) 0 a
    | .remote _ _ => .bad .protection 3 a
    | .device _ => .bad .protection 3 a
    | .fault c aux => .bad c aux a

/-- The instruction that follows in memory, past a fill word (R146), with its address. -/
def State.nextInstr (s : State) (p core start : Nat) (pc : DWord) : Option (Instr × DWord) :=
  match s.fetch p core start pc with
  | .instr i => some (i, pc)
  | .fill =>
    match s.fetch p core start (pc + 4) with
    | .instr i => some (i, pc + 4)
    | _ => none
  | .bad .. => none

/-- The address of the instruction that follows in memory, past a fill word (R146, R172). -/
def Ctx.nextPc (c : Ctx) (i : Instr) (s : State) : DWord :=
  let pc := c.ipc + dwordOf i.len
  if pc.toNat % 32 ≠ 28 then pc
  else
    match s.fetch c.part c.t.core c.l.start pc with
    | .fill => pc + 4
    | _ => pc

/-! Reading and writing a place. -/

/-- The tail register's rule (R280, R312). -/
def State.writeTail (s : State) (p q v : Nat) : State :=
  let x := s.queue p q
  let top := x.head + 2 ^ x.log2s
  let x := if v > top then { x with stat := x.stat ||| 1#3 } else x
  s.setQueue p q (if x.tail < v ∧ v ≤ top then { x with tail := v, pubs := x.pubs ++ List.replicate (v - x.tail) s.wseq } else x)

/-- The value of `w` bytes at a place now. -/
def State.readHome (s : State) (w : Nat) : Target → Nat
  | .mem pa tag => leNat (s.readBytes tag pa w)
  | .priv pa tag => leNat ((privPlaces pa w).map fun a => s.readByte tag a)
  | .sram t off =>
    match s.team? t with
    | some x => leNat (s.readScratch x off w)
    | none => 0
  | .tail p q => (s.queue p q).tail
  | _ => 0

/-- The value that a lane's load gives, and the moment of the memory order that the lane has then seen. An invariant load reads each
granule of four bytes on its own (R99); a last-use load reads at the home (R100). -/
def Ctx.readTarget (c : Ctx) (s : State) (l : Nat) (inv last : Bool) (w : Nat) (t : Target) : Nat × Nat :=
  match t with
  | .mem pa tag =>
    if inv then (leNat ((span 0 ((w + 3) / 4)).flatMap fun i => c.invBytes s (pa + 4 * i) tag (Nat.min w 4) l), 0)
    else if last then (s.readHome w t, s.wseq)
    else
      let r := c.loadBytes s l tag pa w
      (leNat r.1, r.2)
  | .priv .. => (s.readHome w t, s.wseq)
  | t => (s.readHome w t, 0)

/-- What an access leaves behind besides its value: a note of the bank used, or of an address without memory. -/
def State.noteAccess (s : State) (t : Target) (w : Nat) : State :=
  match t with
  | .mem pa _ => s.needMem pa
  | .priv pa _ => s.needMem pa
  | .sram u off =>
    match s.team? u with
    | some x => s.touch x off w
    | none => s
  | _ => s

/-- A store to private lines: a copy in the cluster's cache takes it and is dirty, and else the home does (R62; log 29). -/
def State.privLines (s : State) (core : Nat) (classH : Bool) (tag : Nat) (lines : List Nat) : State :=
  lines.foldl (fun s k =>
    match s.copyOf (core / 8) k tag with
    | some (b, x) =>
      s.setBank b { s.bank b with lines := SMap.put (s.bank b).lines (k % 1024) { x with at_ := s.wseq, dirty := true }, lastUse := s.now }
    | none => s.askWrite core classH tag k) s

/-- Write bytes at a place; a write in this package is performed later (R95), and one of another package is a frame. -/
def Ctx.writeTarget (c : Ctx) (s : State) (l : Nat) (bs : List Byte) (t : Target) : State :=
  let s := s.noteAccess t bs.length
  match t with
  | .mem pa tag =>
    let s := ((s.writeBytes tag pa bs).noteStore (.lane c.gk l)).askWrite c.t.core c.l.classH tag (pa / 128)
    c.sees l s.wseq s
  | .remote pkg d va =>
    (s.tryRequest 2 (.lane c.gk l) pkg d bs { Remote.blank with pc := c.ipc, va := va }).getD s
  | .priv pa tag =>
    let s := ((s.writeAt tag ((privPlaces pa bs.length).zip bs)).noteStore (.lane c.gk l)).privLines c.t.core c.l.classH tag
      (dedup ((privPlaces pa bs.length).map (· / 128)))
    c.sees l s.wseq s
  | .sram u off =>
    match s.team? u with
    | some x => s.writeScratch x off bs
    | none => s
  | .tail p q => s.writeTail p q (leNat bs)
  | .command _ => s

end Sys2Proof.Machine
end

