-- ==== Sys2Proof/Machine/Control.lean ====
section
/-! DEFINITION. Groups 3 and 4: control flow (R170-R176), lane exchange (R177-R180) and `gsync` (R181, R182). -/

namespace Sys2Proof.Machine

/-! Targets and the return-address stack. -/

/-- The check of a code address (R171). -/
def codeBad (t : DWord) : Option Cause :=
  if t.toNat ≥ 2 ^ 55 then some .badWindow else if t.toNat % 4 ≠ 0 then some .fetchAlign else none

/-- An address of the private window. -/
def privWindow (a : DWord) : Bool := a.toNat / 2 ^ 32 == 0xF0000000

/-- The checks of a return-address access at `sp`; `csp` is the register it comes from (R172). -/
def Ctx.stackBad (c : Ctx) (csp : DWord) (push : Bool) : Option Cause :=
  let off := csp.toNat % 2 ^ 32
  let sp := if push then off - 8 else off
  if !privWindow csp then some .badWindow
  else if (push && decide (off < 8)) || decide (sp + 8 > c.l.k.priv) then some .privateRange
  else if sp % 8 ≠ 0 then some .misaligned
  else none

/-- A lane's fault at a branch: its cause, the address it names, its AUX, and whether the access wrote. -/
structure LaneBad where
  cause : Cause
  addr : DWord
  aux : DWord
  write : Bool
  deriving DecidableEq, Repr

/-- The trap that an instruction raises for its lanes: the cause that its lowest failing real lane meets, and the lanes that
meet it. -/
def Ctx.laneTrap (c : Ctx) (act : Mask) (f : Nat → Option LaneBad) : Option FInfo :=
  match (Mask.lanes (c.realOf act)).find? fun l => (f l).isSome with
  | none => none
  | some l =>
    match f l with
    | none => none
    | some x =>
      let lm := Mask.ofPred fun i => (c.realOf act).getLsbD i && (match f i with | some y => decide (y.cause = x.cause) | none => false)
      some ⟨x.cause, l, lm, c.ipc, x.addr, x.aux, x.write⟩

/-- Lanes of a mask that fail. -/
def failing (act : Mask) (f : Nat → Option LaneBad) : Mask := Mask.ofPred fun l => act.getLsbD l && (f l).isSome

/-- The check of a lane's target (R171). -/
def targetBad (t : DWord) : Option LaneBad := (codeBad t).map fun x => ⟨x, t, 0, false⟩

/-- The place of a lane's return address at a private-window address, translated (R57, R172). -/
def Ctx.stackAt (c : Ctx) (s : State) (l : Nat) (a : DWord) (acc : Acc) : Chk := c.privChk s l (a.toNat % 2 ^ 32) 8 a.toNat acc

/-- The fault of reaching a place. -/
def Chk.laneBad (write : Bool) : Chk → Option LaneBad
  | .bad _ cause aux addr => some ⟨cause, dwordOf addr, dwordOf aux, write⟩
  | _ => none

/-- Active lanes take their targets, and the other lanes of the path go on (R27). -/
def Ctx.branch (c : Ctx) (i : Instr) (act : Mask) (target : Nat → DWord) (s : State) : State :=
  c.moveTo (fun l pc => if act.getLsbD l then target l else pc + dwordOf i.len) s

/-- The target of a direct branch (R170). -/
def Ctx.direct (c : Ctx) (off : Word) : DWord := c.ipc + off.signExtend 64

/-- BRA (R170): branches active lanes to a PC-relative target, splitting the path where lanes differ. A target that is no code address
traps here (R147, R171); a path of helper lanes, which raise nothing, goes on to the next instruction (log 38). -/
def execBra (h : Hdr) (off : Word) (s : State) : Out :=
  issue (.bra h off) s fun c act s =>
    match c.laneTrap act fun _ => targetBad (c.direct off) with
    | some f => s.takeFault c.gk f
    | none => c.branch (.bra h off) (if (codeBad (c.direct off)).isSome then 0 else act) (fun _ => c.direct off) s

/-- BRX (R171): branches each active lane to the code address in a register pair, after a per-lane target check. A helper lane whose
target fails the check goes on to the next instruction (log 38: R25 gives its fate at `call`, `callx` and `ret` only). -/
def execBrx (h : Hdr) (a : Reg) (s : State) : Out :=
  issue (.brx h a) s fun c act s =>
    let bad := fun l => targetBad (c.pair s l a)
    match c.laneTrap act bad with
    | some f => s.takeFault c.gk f
    | none => c.branch (.brx h a) (act &&& ~~~failing act bad) (fun l => c.pair s l a) s

/-- Why a lane's `call` fails: its target, its stack, or the translation of the stack slot (R171, R172). -/
def Ctx.callBad (c : Ctx) (s : State) (target : Nat → DWord) (l : Nat) : Option LaneBad :=
  let csp := (c.g.lane l).csp
  match targetBad (target l) with
  | some x => some x
  | none =>
    match c.stackBad csp true with
    | some x => some ⟨x, csp - 8, 0, false⟩
    | none => (c.stackAt s l (csp - 8) .write).laneBad true

/-- One lane's push of the return address. -/
def Ctx.push (c : Ctx) (s0 : State) (ra : DWord) (s : State) (l : Nat) : State :=
  let sp := (c.g.lane l).csp - 8
  let s := s.noteXlate c.part c.t.core c.l.classH (privAddr c.gk l (sp.toNat % 2 ^ 32))
  let s :=
    match c.stackAt s0 l sp .write with
    | .ok t => c.writeTarget s l (natBytes 8 ra.toNat) t
    | _ => s
  s.updGroup c.gk fun g => g.updLanes fun i ln => if i = l then { ln with csp := sp } else ln

/-- `call` and `callx`: the return address goes to the lane's private stack, and %csp and the program counter change; a helper
lane whose check fails exits (R25, R172). -/
def Ctx.callTo (c : Ctx) (i : Instr) (act : Mask) (target : Nat → DWord) (s : State) : State :=
  let bad := c.callBad s target
  match c.laneTrap act bad with
  | some f => s.takeFault c.gk f
  | none =>
    let out := failing act bad
    let go := act &&& ~~~out
    let s' := (Mask.lanes go).foldl (c.push s (c.nextPc i s)) s
    c.branch i go target (s'.exitLanes c.gk out)

/-- CALL (R172): pushes the return address on the lane's private stack and branches to a PC-relative target. -/
def execCall (h : Hdr) (off : Word) (s : State) : Out :=
  issueMem (.call h off) s fun c act s => c.callTo (.call h off) act (fun _ => c.direct off) s

/-- CALLX (R172): pushes the return address on the lane's private stack and branches to the address in a register pair. -/
def execCallx (h : Hdr) (a : Reg) (s : State) : Out :=
  issueMem (.callx h a) s fun c act s => c.callTo (.callx h a) act (fun l => c.pair s l a) s

/-- The return address that a lane loads, or the fault of loading it (R172). -/
def Ctx.retAt (c : Ctx) (s : State) (l : Nat) : Sum LaneBad DWord :=
  let csp := (c.g.lane l).csp
  match c.stackBad csp false with
  | some x => .inl ⟨x, csp, 0, false⟩
  | none =>
    match c.stackAt s l csp .read with
    | .ok t => .inr (dwordOf (s.readHome 8 t))
    | y => match y.laneBad false with | some x => .inl x | none => .inr 0

/-- Why a lane's `ret` fails. -/
def Ctx.retBad (c : Ctx) (s : State) (l : Nat) : Option LaneBad :=
  match c.retAt s l with
  | .inl x => some x
  | .inr a => targetBad a

/-- The return address that a lane takes. -/
def Ctx.retAddr (c : Ctx) (s : State) (l : Nat) : DWord := match c.retAt s l with | .inr a => a | .inl _ => 0

/-- The notes that a lane's pop leaves: of an address without memory, and of the moment that it has seen. -/
def Ctx.pop (c : Ctx) (s0 s : State) (l : Nat) : State :=
  let s :=
    match c.stackAt s0 l (c.g.lane l).csp .read with
    | .ok t =>
      c.sees l s0.wseq ((s.noteAccess t 8).noteXlate c.part c.t.core c.l.classH (privAddr c.gk l ((c.g.lane l).csp.toNat % 2 ^ 32)))
    | _ => s
  s.updGroup c.gk fun g => g.updLanes fun i ln => if i = l then { ln with csp := ln.csp + 8 } else ln

/-- RET (R172): pops the return address from the lane's private stack, checks it and branches to it. -/
def execRet (h : Hdr) (s : State) : Out :=
  issueMem (.ret h) s fun c act s =>
    match c.laneTrap act (c.retBad s) with
    | some f => s.takeFault c.gk f
    | none =>
      let out := failing act (c.retBad s)
      let go := act &&& ~~~out
      c.branch (.ret h) go (c.retAddr s) (((Mask.lanes go).foldl (c.pop s) s).exitLanes c.gk out)

/-- EXIT (R35): removes each active lane from its path, from every rejoin record and from every pending mask, completing the waits this satisfies. -/
def execExit (h : Hdr) (s : State) : Out :=
  issue (.exit h) s fun c act s => c.moveSome (.exit h) (c.path &&& ~~~act) (s.exitLanes c.gk act)

/-! Rejoin records (R34, R174). -/

/-- REJOIN_ARM (R174): arms a rejoin record with the OR of the active lanes' masks ANDed with the live lanes. -/
def execRejoinArm (h : Hdr) (all : Bool) (a k : Reg) (s : State) : Out :=
  issue (.rejoinArm h all a k) s fun c act s =>
    let m : Mask := if all then ~~~0#32 else (Mask.lanes act).foldl (fun m l => m ||| c.v s l a) 0#32
    let s :=
      if act = 0 then s
      else s.updGroup c.gk fun g => { g with records := setAt g.records k.toNat (some (m &&& c.g.live)) }
    (c.advance (.rejoinArm h all a k) s).settleLate c.gk

/-- REJOIN (R34): makes each active lane in the record's mask wait until every lane of the mask has arrived. -/
def execRejoin (h : Hdr) (k : Reg) (s : State) : Out :=
  issue (.rejoin h k) s fun c act s =>
    let m := match atD c.g.records k.toNat none with | some m => act &&& m | none => 0#32
    (c.waitAll (.rejoin h k) m (fun ln => { ln with lst := .waitRejoin k.toNat }) s).settleLate c.gk

/-- YIELD (R175): makes the issue partition pass over the group in its next selection where another ready group of the class exists. -/
def execYield (h : Hdr) (s : State) : Out :=
  issue (.yield h) s fun c act s =>
    c.advance (.yield h) (if act = 0 then s else s.updGroup c.gk fun g => { g with yielded := true })

/-- NOP (R175): takes an issue slot and has no effect. -/
def execNop (h : Hdr) (s : State) : Out := laneOp (.nop h) s fun _ _ => Wr.none

/-- NOP_WIDENED (R148): the 12-byte widened form of nop used to fill a fetch block; it behaves as nop. -/
def execNopWidened (h : Hdr) (s : State) : Out := laneOp (.nopWidened h) s fun _ _ => Wr.none

/-! Exchange (R177, R178). -/

/-- The source lane of `qswap` (Table 7-8). -/
def qswapLane (mode : QMode) (l : Nat) : Nat :=
  Nat.xor l (match mode with | .h => 1 | .v => 2 | .d => 3)

/-- QSWAP (R178): reads a register from the horizontal, vertical or diagonal partner lane within the quad. -/
def execQswap (h : Hdr) (mode : QMode) (d a : Reg) (s : State) : Out :=
  laneOp (.qswap h mode d a) s fun c l => .v d (c.exch s (qswapLane mode l) a.toNat)

/-- QBCAST (R178): broadcasts a register from lane k of each quad to the quad's active lanes. -/
def execQbcast (h : Hdr) (d a k : Reg) (s : State) : Out :=
  laneOp (.qbcast h d a k) s fun c l => .v d (c.exch s (l / 4 * 4 + k.toNat) a.toNat)

/-- The source lane of `gshfl` (Table 7-8). -/
def shflLane (mode : ShflMode) (l b : Nat) : Nat :=
  match mode with
  | .idx => b % 32
  | .up => if b ≤ l then l - b else l
  | .down => if l + b ≤ 31 then l + b else l
  | .xor => Nat.xor l (b % 32)

/-- GSHFL (R178): reads a register from another lane of the group by index, up, down or xor mode. -/
def execGshfl (h : Hdr) (mode : ShflMode) (d a : Reg) (b : SrcB) (s : State) : Out :=
  laneOp (.gshfl h mode d a b) s fun c l => .v d (c.exch s (shflLane mode l (c.src s l b).toNat) a.toNat)

/-! Votes, matches, reductions: over the contributors, the active real lanes of the path (R177, R179, R180). -/

/-- As `laneOp`, where a lane's result also depends on the contributors. -/
def voteOp (i : Instr) (s : State) (f : Ctx → Mask → Nat → Wr) : Out :=
  issue i s fun c act s => c.advance i (s.writeLanes c.gk act (f c (c.realOf act)))

/-- GVOTE (R179): computes any, all or ballot of a predicate over the contributors. -/
def execGvote (h : Hdr) (mode : VoteMode) (d a : Reg) (s : State) : Out :=
  voteOp (.gvote h mode d a) s fun c con _ =>
    match mode with
    | .any => .p d ((Mask.lanes con).any fun l => c.p s l a)
    | .all => .p d ((Mask.lanes con).all fun l => c.p s l a)
    | .ballot => .v d (Mask.ofPred fun l => con.getLsbD l && c.p s l a)

/-- GMATCH (R179): writes the mask of contributors whose value equals the lane's own. -/
def execGmatch (h : Hdr) (ty : Ty) (d a : Reg) (s : State) : Out :=
  voteOp (.gmatch h ty d a) s fun c con l =>
    .v d (Mask.ofPred fun i => con.getLsbD i && (c.data s i a ty == c.data s l a ty))

/-- One step of a reduction (Table 7-10). -/
def redOp (op : RedOp) (ty : Sys2Proof.Ty) (a b : Word) : Word :=
  match op with
  | .add => a + b
  | .min => minW ty a b
  | .max => maxW ty a b
  | .and => a &&& b
  | .or => a ||| b
  | .xor => a ^^^ b

/-- Its identity (Table 7-10). -/
def redId (op : RedOp) (ty : Sys2Proof.Ty) : Word :=
  match op with
  | .min => BitVec.ofInt 32 (Ty.intMax ty)
  | .max => BitVec.ofInt 32 (Ty.intMin ty)
  | .and => ~~~0#32
  | _ => 0

/-- The reduction of some lanes' registers. -/
def Ctx.reduce (c : Ctx) (s : State) (op : RedOp) (ty : Sys2Proof.Ty) (a : Reg) (ls : List Nat) : Word :=
  ls.foldl (fun x l => redOp op ty x (c.v s l a)) (redId op ty)

/-- GREDUX (R180): writes the reduction of the contributors' values to every active lane. -/
def execGredux (h : Hdr) (op : RedOp) (ty : Ty) (d a : Reg) (s : State) : Out :=
  voteOp (.gredux h op ty d a) s fun c con _ => .v d (c.reduce s op ty a (Mask.lanes con))

/-- GSCAN (R180): writes the inclusive or exclusive prefix reduction over contributors to each active lane. -/
def execGscan (h : Hdr) (op : RedOp) (excl : Bool) (ty : Ty) (d a : Reg) (s : State) : Out :=
  voteOp (.gscan h op excl ty d a) s fun c con l =>
    .v d (c.reduce s op ty a ((Mask.lanes con).filter fun i => decide (i < l) || (!excl && i == l)))

/-- GELECT (R179): sets a predicate in the lowest-numbered contributor and clears it in every other active lane. -/
def execGelect (h : Hdr) (d : Reg) (s : State) : Out :=
  voteOp (.gelect h d) s fun _ con l => .p d (Mask.lowest con == some l)

/-! Masked synchronisation (R181). -/

/-- One lane arrives with its mask. -/
def Group.syncArrive (g : Group) (l : Nat) (m : Mask) : Group :=
  let x : GSync := g.gsync.getD ⟨0, 0, m⟩
  { g with
    gsync := some ⟨x.r ||| (1#32 <<< l), x.u ||| m ||| (1#32 <<< l), x.first⟩
    syncmm := g.syncmm || decide (m ≠ x.first) }

/-- GSYNC (R181): makes active lanes join the group's gsync instance and wait until the union mask is satisfied. -/
def execGsync (h : Hdr) (all : Bool) (a : Reg) (s : State) : Out :=
  issue (.gsync h all a) s fun c act s =>
    let s' := s.updGroup c.gk fun g =>
      (Mask.lanes act).foldl (fun g l => g.syncArrive l (if all then ~~~0#32 else c.v s l a)) g
    (c.waitAll (.gsync h all a) act (fun ln => { ln with lst := .waitSync }) s').settleLate c.gk

end Sys2Proof.Machine
end

