-- ==== Sys2Proof/Machine/Sfu.lean ====
section
/-! DEFINITION. Group 7, the special functions (R201, R202): each result is a free member, fixed for each operand, of the set
that the accuracy of Table 8-4 allows; the exact cases of the table are exact (log 8). -/

namespace Sys2Proof.Machine

/-! Fixed-point numbers: a whole number stands for itself ÷ 2^256. -/

def fxOne : Nat := 2 ^ 256
/-- π. -/
def fxPi : Nat := 0x3243f6a8885a308d313198a2e03707344a4093822299f31d0082efa98ec4e6c89
/-- ln 2. -/
def fxLn2 : Nat := 0xb17217f7d1cf79abc9e3b39803f2f6af40f343267298b62d8a0d175b8baafa2b

def fxMul (a b : Nat) : Nat := a * b / fxOne

/-- e^t for t in [0, 1): the series from its k-th term on. -/
def fxExpFrom (t : Nat) : Nat → Nat → Nat → Nat
  | 0, _, term => term
  | fuel + 1, k, term => term + fxExpFrom t fuel (k + 1) (fxMul term t / k)

def fxExp (t : Nat) : Nat := fxExpFrom t 80 1 fxOne

/-- sin t for t in [0, 2): the terms of odd degree, in pairs. -/
def fxSinFrom (t2 : Nat) : Nat → Nat → Nat → Nat
  | 0, _, _ => 0
  | fuel + 1, k, term =>
    let next := fxMul term t2 / ((k + 1) * (k + 2))
    term - next + fxSinFrom t2 fuel (k + 4) (fxMul next t2 / ((k + 3) * (k + 4)))

def fxSin (t : Nat) : Nat := fxSinFrom (fxMul t t) 24 1 t

/-- atanh w for w in [0, 1/3]. -/
def fxAtanhFrom (w2 : Nat) : Nat → Nat → Nat → Nat
  | 0, _, _ => 0
  | fuel + 1, k, p => p / k + fxAtanhFrom w2 fuel (k + 2) (fxMul p w2)

def fxAtanh (w : Nat) : Nat := fxAtanhFrom (fxMul w w) 85 1 w

/-- The integer square root, bit by bit from 2^k down. -/
def isqrtFrom (n : Nat) : Nat → Nat → Nat
  | 0, r => r
  | k + 1, r => if (r + 2 ^ k) * (r + 2 ^ k) ≤ n then isqrtFrom n k (r + 2 ^ k) else isqrtFrom n k r

def isqrt (n : Nat) : Nat := isqrtFrom n (Nat.log2 n / 2 + 1) 0

/-- A value as a fixed-point magnitude, rounded down. -/
def fxOf (m : Nat) (e : Int) : Nat := if 0 ≤ e + 256 then m * 2 ^ (e + 256).toNat else m / 2 ^ (-(e + 256)).toNat

/-! The bounded set. -/

/-- A member of the FP32 values of one sign that differ by at most 2^b from y × 2^k, for a y from `lo` to `hi` (log 8). -/
def sfuBetween (minor : Nat) (w : Word) (neg : Bool) (lo hi : Nat) (k b : Int) : Nat :=
  let g := if k ≤ b then k else b
  let r := 2 ^ (b - g).toNat
  let least := roundMag fmtF32 .rpi false (hi * 2 ^ (k - g).toNat - r) g
  let most := Nat.min (roundMag fmtF32 .rtz false (lo * 2 ^ (k - g).toNat + r) g) (fmtF32.overCode - 1)
  signed fmtF32 neg (least + Config.sfuPick minor w % (most - least + 1))

/-- ulp as an exponent (R202). -/
def ulpExp (y : Nat) (k : Int) : Int :=
  let f := (Nat.log2 y : Int) + k
  (if f < -126 then -126 else f) - 23

/-- A member within 2^n ulp of a y between two bounds. -/
def sfuUlp (minor : Nat) (w : Word) (n : Nat) (neg : Bool) (lo hi : Nat) (k : Int) : Nat :=
  sfuBetween minor w neg lo hi k (ulpExp lo k + n)

/-- How far the fixed-point functions can be from the true value, in units of 2^-256 (log 8). -/
def fxErr : Nat := 1024

/-- A member within 2^n ulp of a computed y, whose true value is also at most `top`. -/
def sfuNear (minor : Nat) (w : Word) (n : Nat) (neg : Bool) (y top : Nat) : Nat :=
  sfuUlp minor w n neg (y - fxErr) (Nat.min (y + fxErr) top) (-256)

/-! The functions, on an operand after .ftz. -/

/-- A quotient n ÷ d × 2^e rounded to nearest even, by 30 further bits and a sticky bit. -/
def roundQuot (neg : Bool) (n d : Nat) (e : Int) : Nat :=
  let s := Nat.log2 d + 32
  let q := n * 2 ^ s / d
  let sticky := if n * 2 ^ s % d = 0 then 0 else 1
  roundF fmtF32 .rne false false (.fin neg (2 * q + sticky) (e - s - 1))

def frcpOf (w : Nat) : Nat :=
  match decodeF fmtF32 w with
  | .nan => fmtF32.nanCode
  | .inf neg => signed fmtF32 neg 0
  | .fin neg m e => if m = 0 then infCode fmtF32 false false neg else roundQuot neg 1 m (-e)

def fsqrtOf (w : Nat) : Nat :=
  match decodeF fmtF32 w with
  | .nan => fmtF32.nanCode
  | .inf neg => if neg then fmtF32.nanCode else fmtF32.overCode
  | .fin neg m e =>
    if m = 0 then signed fmtF32 neg 0
    else if neg then fmtF32.nanCode
    else
      let t : Int := if e % 2 = 0 then 60 else 61
      let n := m * 2 ^ t.toNat
      let r := isqrt n
      roundF fmtF32 .rne false false (.fin false (2 * r + if r * r = n then 0 else 1) ((e - t) / 2 - 1))

def frsqOf (w : Word) : Nat :=
  match decodeF fmtF32 w.toNat with
  | .nan => fmtF32.nanCode
  | .inf neg => if neg then fmtF32.nanCode else 0
  | .fin neg m e =>
    if m = 0 then infCode fmtF32 false false neg
    else if neg then fmtF32.nanCode
    else
      let f := (Nat.log2 m : Int) + e
      if m = 2 ^ Nat.log2 m ∧ f % 2 = 0 then roundF fmtF32 .rne false false (.fin false 1 (-(f / 2)))
      else
        -- 1/√(m × 2^e) = √(2^(2t) ÷ m') × 2^(-t - e'/2) with e' even
        let m' := if e % 2 = 0 then m else 2 * m
        let e' := if e % 2 = 0 then e else e - 1
        let y := isqrt (2 ^ 512 / m')
        sfuUlp 1 w 0 false y (y + 2) (-256 - e' / 2)

/-- 2^x for x = ±a ÷ 2^256 that is not whole: the mantissa and exponent. -/
def exp2Of (neg : Bool) (a : Nat) : Nat × Int :=
  let n := a / fxOne
  let f := a % fxOne
  if !neg then (fxExp (fxMul f fxLn2), (n : Int) - 256)
  else if f = 0 then (fxOne, -(n : Int) - 256)
  else (fxExp (fxMul (fxOne - f) fxLn2), -(n : Int) - 1 - 256)

/-- Whether m × 2^e is whole. -/
def isWhole (m : Nat) (e : Int) : Bool := 0 ≤ e || m % 2 ^ (-e).toNat == 0

/-- The whole number m × 2^e, at most 2^40. -/
def wholeOf (m : Nat) (e : Int) : Nat := if 0 ≤ e then m * 2 ^ (Nat.min e.toNat 60) else m / 2 ^ (-e).toNat

def fexp2Of (w : Word) : Nat :=
  match decodeF fmtF32 w.toNat with
  | .nan => fmtF32.nanCode
  | .inf neg => if neg then 0 else fmtF32.overCode
  | .fin neg m e =>
    let n := Nat.min (wholeOf m e) 1000
    if isWhole m e ∧ (neg = false ∨ n ≤ 149) then
      roundF fmtF32 .rne false false (.fin false 1 (if neg then -(n : Int) else n))
    else if !neg && n ≥ 128 then fmtF32.overCode
    else
      if n ≥ 300 then sfuUlp 3 w 1 false 0 1 (-300)
      else
        let (y, k) := exp2Of neg (fxOf m e)
        sfuUlp 3 w 1 false (y - fxErr) (y + fxErr) k

def flog2Of (w : Word) : Nat :=
  match decodeF fmtF32 w.toNat with
  | .nan => fmtF32.nanCode
  | .inf neg => if neg then fmtF32.nanCode else fmtF32.overCode
  | .fin neg m e =>
    if m = 0 then infCode fmtF32 false false true
    else if neg then fmtF32.nanCode
    else
      let p := (Nat.log2 m : Int) + e
      if m = 2 ^ Nat.log2 m then roundF fmtF32 .rne false false (FVal.ofInt p)
      else
        let z := fxOf m (-(Nat.log2 m : Int))
        let frac := 2 * fxAtanh ((z - fxOne) * fxOne / (z + fxOne)) * fxOne / fxLn2
        let y : Int := p * fxOne + frac
        let near : Bool := p == -1 || p == 0
        if near then sfuBetween 4 w (y < 0) (y.natAbs - fxErr) (y.natAbs + fxErr) (-256) (-22)
        else sfuUlp 4 w 1 (y < 0) (y.natAbs - fxErr) (y.natAbs + fxErr) (-256)

/-- sin(π x) for the magnitude x = a ÷ 2^256, not a multiple of 1/2: its sign and its magnitude. -/
def sinPi (a : Nat) : Bool × Nat :=
  let r := a % (2 * fxOne)
  let neg := decide (r ≥ fxOne)
  let q := r % fxOne
  let q := if 2 * q > fxOne then fxOne - q else q
  (neg, fxSin (fxMul q fxPi))

def fsinOf (w : Word) : Nat :=
  match decodeF fmtF32 w.toNat with
  | .nan => fmtF32.nanCode
  | .inf _ => fmtF32.nanCode
  | .fin neg m e =>
    if m = 0 ∨ isWhole m e then signed fmtF32 neg 0
    else if isWhole m (e + 1) then
      signed fmtF32 (neg != (wholeOf m e % 2 == 1)) 0x3F800000
    else
      let (sg, y) := sinPi (fxOf m e)
      sfuNear 5 w 1 (neg != sg) y fxOne

def fcosOf (w : Word) : Nat :=
  match decodeF fmtF32 w.toNat with
  | .nan => fmtF32.nanCode
  | .inf _ => fmtF32.nanCode
  | .fin _ m e =>
    if m = 0 then 0x3F800000
    else if isWhole m e then signed fmtF32 (wholeOf m e % 2 == 1) 0x3F800000
    else if isWhole m (e + 1) then 0
    else
      let (sg, y) := sinPi (fxOf m e + fxOne / 2)
      sfuNear 6 w 1 sg y fxOne

def ftanhOf (w : Word) : Nat :=
  match decodeF fmtF32 w.toNat with
  | .nan => fmtF32.nanCode
  | .inf neg => signed fmtF32 neg 0x3F800000
  | .fin neg m e =>
    if m = 0 then signed fmtF32 neg 0
    else
      let a := fxOf m e
      -- from 64 on, 1 - tanh x is below 2^-183; everywhere tanh x is below x and below 1
      if (Nat.log2 m : Int) + e ≥ 6 then sfuUlp 7 w 1 neg (fxOne - 2 ^ 73) fxOne (-256)
      else
        -- e^(2x) = 2^n × e^t
        let n := 2 * a / fxLn2
        let x := fxExp (2 * a - n * fxLn2) * 2 ^ n
        sfuNear 7 w 1 neg ((x - fxOne) * fxOne / (x + fxOne)) (Nat.min a fxOne)

def fsigmOf (w : Word) : Nat :=
  match decodeF fmtF32 w.toNat with
  | .nan => fmtF32.nanCode
  | .inf neg => if neg then 0 else 0x3F800000
  | .fin neg m e =>
    if m = 0 then 0x3F000000
    else if (Nat.log2 m : Int) + e ≥ 7 then
      -- e^-x is below 2^-184
      if neg then sfuUlp 8 w 1 false 0 1 (-184) else sfuUlp 8 w 1 false (fxOne - 2 ^ 72) fxOne (-256)
    else
      let a := fxOf m e
      let n := a / fxLn2
      let x := fxExp (a - n * fxLn2) * 2 ^ n
      -- 1/(1 + e^-a) = e^a/(1 + e^a), and 1/(1 + e^a) on the other side
      if neg then
        let y := 2 ^ 600 / (x + fxOne)
        sfuUlp 8 w 1 false (y - y / 2 ^ 200 - 2) (y + y / 2 ^ 200 + 2) (-344)
      else sfuNear 8 w 1 false (x * fxOne / (x + fxOne)) fxOne

/-! The instructions. -/

/-- A special function of a register, with .ftz on operand and result (R201, R202). -/
def sfuOp (i : Instr) (ftz : Bool) (la : BitVec 4) (d a : Reg) (s : State) (f : Word → Nat) : Out :=
  longOp i la s fun c l =>
    .v d (wordOf (flush fmtF32 ftz (f (wordOf (flush fmtF32 ftz (c.v s l a).toNat)))))

/-- FRCP (R202): starts a long-latency correctly rounded reciprocal. -/
def execFrcp (h : Hdr) (ftz : Bool) (la : BitVec 4) (d a : Reg) (s : State) : Out :=
  sfuOp (.frcp h ftz la d a) ftz la d a s fun w => frcpOf w.toNat

/-- FRSQ (R202): starts a long-latency reciprocal square root within 1 ulp. -/
def execFrsq (h : Hdr) (ftz : Bool) (la : BitVec 4) (d a : Reg) (s : State) : Out :=
  sfuOp (.frsq h ftz la d a) ftz la d a s frsqOf

/-- FSQRT (R202): starts a long-latency correctly rounded square root. -/
def execFsqrt (h : Hdr) (ftz : Bool) (la : BitVec 4) (d a : Reg) (s : State) : Out :=
  sfuOp (.fsqrt h ftz la d a) ftz la d a s fun w => fsqrtOf w.toNat

/-- FEXP2 (R202): starts a long-latency base-2 exponential within 2 ulp. -/
def execFexp2 (h : Hdr) (ftz : Bool) (la : BitVec 4) (d a : Reg) (s : State) : Out :=
  sfuOp (.fexp2 h ftz la d a) ftz la d a s fexp2Of

/-- FLOG2 (R202): starts a long-latency base-2 logarithm within 2 ulp. -/
def execFlog2 (h : Hdr) (ftz : Bool) (la : BitVec 4) (d a : Reg) (s : State) : Out :=
  sfuOp (.flog2 h ftz la d a) ftz la d a s flog2Of

/-- FSIN (R202): starts a long-latency sine of pi times x. -/
def execFsin (h : Hdr) (ftz : Bool) (la : BitVec 4) (d a : Reg) (s : State) : Out :=
  sfuOp (.fsin h ftz la d a) ftz la d a s fsinOf

/-- FCOS (R202): starts a long-latency cosine of pi times x. -/
def execFcos (h : Hdr) (ftz : Bool) (la : BitVec 4) (d a : Reg) (s : State) : Out :=
  sfuOp (.fcos h ftz la d a) ftz la d a s fcosOf

/-- FTANH (R202): starts a long-latency hyperbolic tangent. -/
def execFtanh (h : Hdr) (ftz : Bool) (la : BitVec 4) (d a : Reg) (s : State) : Out :=
  sfuOp (.ftanh h ftz la d a) ftz la d a s ftanhOf

/-- FSIGM (R202): starts a long-latency logistic sigmoid. -/
def execFsigm (h : Hdr) (ftz : Bool) (la : BitVec 4) (d a : Reg) (s : State) : Out :=
  sfuOp (.fsigm h ftz la d a) ftz la d a s fsigmOf

end Sys2Proof.Machine
end

