-- ==== Sys2Proof/Machine/Float.lean ====
section
/-! DEFINITION. Groups 5 and 6: scalar, packed and dot-product floating point, conversion, block scales and DS8 (R183-R200). -/

namespace Sys2Proof.Machine

/-! Shared computations on patterns of one format. -/

/-- An operand as a value, flushed where .ftz asks (R111). -/
def FFmt.val (f : FFmt) (ftz : Bool) (w : Nat) : FVal := decodeF f (flush f ftz w)

/-- An exact result rounded once into a format (R185). -/
def FFmt.result (f : FFmt) (rm : RMode) (ftz : Bool) (x : FVal) : Nat := flush f ftz (roundF f rm false false x)

def faddOf (f : FFmt) (rm : RMode) (ftz : Bool) (a b : Nat) : Nat := f.result rm ftz (sumF [f.val ftz a, f.val ftz b])
def fsubOf (f : FFmt) (rm : RMode) (ftz : Bool) (a b : Nat) : Nat := f.result rm ftz (sumF [f.val ftz a, (f.val ftz b).neg])
def fmulOf (f : FFmt) (rm : RMode) (ftz : Bool) (a b : Nat) : Nat := f.result rm ftz ((f.val ftz a).mul (f.val ftz b))
def ffmaOf (f : FFmt) (rm : RMode) (ftz : Bool) (a b c : Nat) : Nat :=
  f.result rm ftz (sumF [(f.val ftz a).mul (f.val ftz b), f.val ftz c])

/-- One element of a packed register (R183). -/
def half (w : Word) (i : Nat) : Nat := w.toNat / 2 ^ (16 * i) % 2 ^ 16
def quarter (w : Word) (i : Nat) : Nat := w.toNat / 2 ^ (8 * i) % 2 ^ 8

/-- Both elements of a packed pair, each on its own (R192). -/
def packed (f : Nat → Nat) : Word := wordOf (f 0 + 2 ^ 16 * f 1)

/-- A sum of exact products and an addend, rounded once (R193). -/
def dotOf (src : FFmt) (rm : RMode) (ftz : Bool) (as bs : List Nat) (c : Nat) : Nat :=
  fmtF32.result rm ftz (sumF (((as.zip bs).map fun x => (src.val ftz x.1).mul (src.val ftz x.2)) ++ [fmtF32.val ftz c]))

/-- round_to_integral (R187). -/
def frndOf (rm : RMode) (ftz : Bool) (w : Nat) : Nat :=
  let a := flush fmtF32 ftz w
  match decodeF fmtF32 a with
  | .nan => fmtF32.nanCode
  | .inf _ => a
  | .fin neg m e => if e ≥ 0 then a else roundF fmtF32 .rne false false (.fin neg (roundInt rm neg m e).natAbs 0)

/-- Times a power of two (R191); beyond ±1000 every exponent gives the same result. -/
def fscaleOf (rm : RMode) (ftz : Bool) (w : Nat) (b : Int) : Nat :=
  let b := if b > 1000 then 1000 else if b < -1000 then -1000 else b
  match fmtF32.val ftz w with
  | .fin neg m e => fmtF32.result rm ftz (.fin neg m (e + b))
  | x => fmtF32.result rm ftz x

/-- The operand of a conversion: bits of its type's width (R183). -/
def lowBits (t : Sys2Proof.Ty) (w : Word) : Nat := w.toNat % 2 ^ (8 * t.bytes)

/-- The exponent of the largest finite value of a block's element type (R198). -/
def emaxOf : Sys2Proof.Ty → Int
  | .f16 => 15 | .bf16 => 127 | .e4m3 => 8 | .e5m2 => 15 | _ => 1

/-- The scale byte that a value contributes (R198). -/
def blockScale (t : Sys2Proof.Ty) : FVal → Nat
  | .nan => 0xFF
  | .inf _ => 0xFF
  | .fin _ m e =>
    if m = 0 then 0
    else
      let x := (Nat.log2 m : Int) + e - emaxOf t + 127
      if x < 0 then 0 else if x > 254 then 254 else x.toNat

/-! Group 5. -/

/-- FADD (R185): adds two FP32 values exactly and rounds once per active lane. -/
def execFadd (h : Hdr) (rm : RMode) (ftz : Bool) (d a b : Reg) (s : State) : Out :=
  laneOp (.fadd h rm ftz d a b) s fun c l => .v d (wordOf (faddOf fmtF32 rm ftz (c.v s l a).toNat (c.v s l b).toNat))

/-- FSUB (R185): subtracts two FP32 values exactly and rounds once per active lane. -/
def execFsub (h : Hdr) (rm : RMode) (ftz : Bool) (d a b : Reg) (s : State) : Out :=
  laneOp (.fsub h rm ftz d a b) s fun c l => .v d (wordOf (fsubOf fmtF32 rm ftz (c.v s l a).toNat (c.v s l b).toNat))

/-- FMUL (R185): multiplies two FP32 values exactly and rounds once per active lane. -/
def execFmul (h : Hdr) (rm : RMode) (ftz : Bool) (d a b : Reg) (s : State) : Out :=
  laneOp (.fmul h rm ftz d a b) s fun c l => .v d (wordOf (fmulOf fmtF32 rm ftz (c.v s l a).toNat (c.v s l b).toNat))

/-- FFMA (R185): computes a fused FP32 multiply-add with a single rounding per active lane. -/
def execFfma (h : Hdr) (rm : RMode) (ftz : Bool) (d a b x : Reg) (s : State) : Out :=
  laneOp (.ffma h rm ftz d a b x) s fun c l =>
    .v d (wordOf (ffmaOf fmtF32 rm ftz (c.v s l a).toNat (c.v s l b).toNat (c.v s l x).toNat))

/-- FMIN (R186): writes the lesser of two FP32 values, with NaN and signed-zero rules. -/
def execFmin (h : Hdr) (ftz : Bool) (d a b : Reg) (s : State) : Out :=
  laneOp (.fmin h ftz d a b) s fun c l =>
    .v d (wordOf (minMaxF fmtF32 false (flush fmtF32 ftz (c.v s l a).toNat) (flush fmtF32 ftz (c.v s l b).toNat)))

/-- FMAX (R186): writes the greater of two FP32 values, with NaN and signed-zero rules. -/
def execFmax (h : Hdr) (ftz : Bool) (d a b : Reg) (s : State) : Out :=
  laneOp (.fmax h ftz d a b) s fun c l =>
    .v d (wordOf (minMaxF fmtF32 true (flush fmtF32 ftz (c.v s l a).toNat) (flush fmtF32 ftz (c.v s l b).toNat)))

/-- FRND (R187): rounds an FP32 value to an integral FP32 value under the rounding mode. -/
def execFrnd (h : Hdr) (rm : RMode) (ftz : Bool) (d a : Reg) (s : State) : Out :=
  laneOp (.frnd h rm ftz d a) s fun c l => .v d (wordOf (frndOf rm ftz (c.v s l a).toNat))

/-- FCMP (R188): compares two FP32 values by a condition code and writes a predicate. -/
def execFcmp (h : Hdr) (cc : FCc) (ftz : Bool) (d a b : Reg) (s : State) : Out :=
  laneOp (.fcmp h cc ftz d a b) s fun c l =>
    .p d (fccHolds cc (fmtF32.val ftz (c.v s l a).toNat) (fmtF32.val ftz (c.v s l b).toNat))

/-- FCLASS (R189): writes a one-hot class word for a floating-point operand of the named format. -/
def execFclass (h : Hdr) (ty : Ty) (d a : Reg) (s : State) : Out :=
  laneOp (.fclass h ty d a) s fun c l => .v d (wordOf (2 ^ classBit (fmtOf ty) (lowBits ty (c.v s l a))))

/-- The sign bit of `fsign` (R190). -/
def signOf (mode : SignMode) (a b : Word) : Bool :=
  match mode with
  | .copy => b.getLsbD 31
  | .neg => !b.getLsbD 31
  | .xor => a.getLsbD 31 != b.getLsbD 31

/-- FSIGN (R190): sets the sign bit of a from b by copy, negate or xor, keeping the other bits. -/
def execFsign (h : Hdr) (mode : SignMode) (d a b : Reg) (s : State) : Out :=
  laneOp (.fsign h mode d a b) s fun c l =>
    .v d (wordOf ((c.v s l a).toNat % 2 ^ 31 + if signOf mode (c.v s l a) (c.v s l b) then 2 ^ 31 else 0))

/-- FSCALE (R191): multiplies an FP32 value by 2 to a signed integer power and rounds once. -/
def execFscale (h : Hdr) (rm : RMode) (ftz : Bool) (d a b : Reg) (s : State) : Out :=
  laneOp (.fscale h rm ftz d a b) s fun c l => .v d (wordOf (fscaleOf rm ftz (c.v s l a).toNat (c.v s l b).toInt))

/-- HADD2 (R192): adds packed FP16 pairs element by element. -/
def execHadd2 (h : Hdr) (rm : RMode) (ftz : Bool) (d a b : Reg) (s : State) : Out :=
  laneOp (.hadd2 h rm ftz d a b) s fun c l =>
    .v d (packed fun i => faddOf fmtF16 rm ftz (half (c.v s l a) i) (half (c.v s l b) i))

/-- HMUL2 (R192): multiplies packed FP16 pairs element by element. -/
def execHmul2 (h : Hdr) (rm : RMode) (ftz : Bool) (d a b : Reg) (s : State) : Out :=
  laneOp (.hmul2 h rm ftz d a b) s fun c l =>
    .v d (packed fun i => fmulOf fmtF16 rm ftz (half (c.v s l a) i) (half (c.v s l b) i))

/-- HFMA2 (R192): computes fused multiply-add on packed FP16 pairs element by element. -/
def execHfma2 (h : Hdr) (rm : RMode) (ftz : Bool) (d a b x : Reg) (s : State) : Out :=
  laneOp (.hfma2 h rm ftz d a b x) s fun c l =>
    .v d (packed fun i => ffmaOf fmtF16 rm ftz (half (c.v s l a) i) (half (c.v s l b) i) (half (c.v s l x) i))

/-- BADD2 (R192): adds packed BF16 pairs element by element. -/
def execBadd2 (h : Hdr) (rm : RMode) (ftz : Bool) (d a b : Reg) (s : State) : Out :=
  laneOp (.badd2 h rm ftz d a b) s fun c l =>
    .v d (packed fun i => faddOf fmtBf16 rm ftz (half (c.v s l a) i) (half (c.v s l b) i))

/-- BMUL2 (R192): multiplies packed BF16 pairs element by element. -/
def execBmul2 (h : Hdr) (rm : RMode) (ftz : Bool) (d a b : Reg) (s : State) : Out :=
  laneOp (.bmul2 h rm ftz d a b) s fun c l =>
    .v d (packed fun i => fmulOf fmtBf16 rm ftz (half (c.v s l a) i) (half (c.v s l b) i))

/-- BFMA2 (R192): computes fused multiply-add on packed BF16 pairs element by element. -/
def execBfma2 (h : Hdr) (rm : RMode) (ftz : Bool) (d a b x : Reg) (s : State) : Out :=
  laneOp (.bfma2 h rm ftz d a b x) s fun c l =>
    .v d (packed fun i => ffmaOf fmtBf16 rm ftz (half (c.v s l a) i) (half (c.v s l b) i) (half (c.v s l x) i))

/-- FDOT2 (R193): sums exact products of two FP16 pairs with an FP32 addend and rounds once. -/
def execFdot2 (h : Hdr) (rm : RMode) (ftz : Bool) (d a b x : Reg) (s : State) : Out :=
  laneOp (.fdot2 h rm ftz d a b x) s fun c l =>
    .v d (wordOf (dotOf fmtF16 rm ftz ((span 0 2).map (half (c.v s l a))) ((span 0 2).map (half (c.v s l b))) (c.v s l x).toNat))

/-- BDOT2 (R193): sums exact products of two BF16 pairs with an FP32 addend and rounds once. -/
def execBdot2 (h : Hdr) (rm : RMode) (ftz : Bool) (d a b x : Reg) (s : State) : Out :=
  laneOp (.bdot2 h rm ftz d a b x) s fun c l =>
    .v d (wordOf (dotOf fmtBf16 rm ftz ((span 0 2).map (half (c.v s l a))) ((span 0 2).map (half (c.v s l b))) (c.v s l x).toNat))

/-- The exact integer sum of `qdot4` (R193). -/
def qdotInt (ty : Sys2Proof.Ty) (a b x : Word) : Int :=
  ((span 0 4).map fun i => intVal ty (quarter a i) * intVal ty (quarter b i)).foldl (fun x y => x + y)
    (if Ty.signed ty then x.toInt else (x.toNat : Int))

/-- QDOT4 (R193): sums exact products of four FP8 or 8-bit integer elements with a 32-bit addend. -/
def execQdot4 (h : Hdr) (ty : Ty) (rm : RMode) (ftz : Bool) (sat : Bool) (d a b x : Reg) (s : State) : Out :=
  laneOp (.qdot4 h ty rm ftz sat d a b x) s fun c l =>
    if ty.isFloat then
      .v d (wordOf (dotOf (fmtOf ty) rm ftz ((span 0 4).map (quarter (c.v s l a))) ((span 0 4).map (quarter (c.v s l b)))
        (c.v s l x).toNat))
    else .v d (aluRes (if Ty.signed ty then .s32 else .z32) sat (qdotInt ty (c.v s l a) (c.v s l b) (c.v s l x)))

/-! Group 6. -/

/-- FCVT (R195): converts between floating-point formats under a directed or nearest rounding mode. -/
def execFcvt (h : Hdr) (dt sty : Ty) (rm : RMode) (ftz : Bool) (sat inf : Bool) (d a : Reg) (s : State) : Out :=
  laneOp (.fcvt h dt sty rm ftz sat inf d a) s fun c l =>
    .v d (wordOf (cvtF (fmtOf dt) (fmtOf sty) rm ftz sat inf (lowBits sty (c.v s l a))))

/-- Stochastic conversion (R128, R195). -/
def cvtSr (dt sty : Sys2Proof.Ty) (ftz sat inf : Bool) (w : Nat) (key : Word) : Nat :=
  let a := flush (fmtOf sty) ftz w
  if dt = sty then (if (decodeF (fmtOf sty) a).isNan then (fmtOf dt).nanCode else a)
  else flush (fmtOf dt) ftz (roundSr (fmtOf dt) sat inf key.toNat (decodeF (fmtOf sty) a))

/-- FCVT_SR (R195): converts between floating-point formats with stochastic rounding from a per-lane key register. -/
def execFcvtSr (h : Hdr) (dt sty : Ty) (ftz sat inf : Bool) (d a b : Reg) (s : State) : Out :=
  laneOp (.fcvtSr h dt sty ftz sat inf d a b) s fun c l =>
    .v d (wordOf (cvtSr dt sty ftz sat inf (lowBits sty (c.v s l a)) (c.v s l b)))

/-- FCVTI (R196): converts a float to an integer with rounding and saturation. -/
def execFcvti (h : Hdr) (it sty : Ty) (rm : RMode) (ftz : Bool) (d a : Reg) (s : State) : Out :=
  laneOp (.fcvti h it sty rm ftz d a) s fun c l =>
    let x := floatToInt it rm ((fmtOf sty).val ftz (lowBits sty (c.v s l a)))
    if it.isInt64 then .pair d (BitVec.ofInt 64 x) else .v d (BitVec.ofInt 32 x)

/-- ICVTF (R196): converts an integer to a float with rounding. -/
def execIcvtf (h : Hdr) (dt it : Ty) (rm : RMode) (ftz : Bool) (d a : Reg) (s : State) : Out :=
  laneOp (.icvtf h dt it rm ftz d a) s fun c l =>
    let x : Int := if it.isInt64 then intOf it (c.pair s l a) else intOf it (c.v s l a)
    .v d (wordOf ((fmtOf dt).result rm ftz (FVal.ofInt x)))

/-- FPACK (R197): converts two FP32 values to a narrow format and packs them into one register. -/
def execFpack (h : Hdr) (dt : Ty) (rm : RMode) (ftz : Bool) (sat inf : Bool) (d a b : Reg) (s : State) : Out :=
  laneOp (.fpack h dt rm ftz sat inf d a b) s fun c l =>
    let x := cvtF (fmtOf dt) fmtF32 rm ftz sat inf (c.v s l a).toNat
    let y := cvtF (fmtOf dt) fmtF32 rm ftz sat inf (c.v s l b).toNat
    .v d (wordOf (x + 2 ^ (8 * dt.bytes) * y))

/-- FUNPACK (R197): converts two packed narrow elements to FP32 into a register pair. -/
def execFunpack (h : Hdr) (sty : Ty) (ftz : Bool) (d a k : Reg) (s : State) : Out :=
  laneOp (.funpack h sty ftz d a k) s fun c l =>
    let bits := 8 * sty.bytes
    let elem := fun (i : Nat) => cvtF fmtF32 (fmtOf sty) .rne ftz false false ((c.v s l a).toNat / 2 ^ (bits * i) % 2 ^ bits)
    .pair d (pairOf (wordOf (elem (2 * k.toNat))) (wordOf (elem (2 * k.toNat + 1))))

/-- FBMAX (R198): computes a value's E8M0 block-scale byte for a format and combines it with a running maximum. -/
def execFbmax (h : Hdr) (dt : Ty) (ftz : Bool) (d a b : Reg) (s : State) : Out :=
  laneOp (.fbmax h dt ftz d a b) s fun c l =>
    .v d (wordOf (Nat.max (quarter (c.v s l b) 0) (blockScale dt (fmtF32.val ftz (c.v s l a).toNat))))

/-- DS8ENC (R199): converts a value divided by an E8M0 scale into its canonical DS8 byte. -/
def execDs8enc (h : Hdr) (ftz : Bool) (d a b : Reg) (s : State) : Out :=
  laneOp (.ds8enc h ftz d a b) s fun c l =>
    .v d (wordOf (ds8Enc (fmtF32.val ftz (c.v s l a).toNat) (quarter (c.v s l b) 0)))

/-- DS8DEC (R199): decodes a DS8 byte and multiplies it by an E8M0 scale into FP32. -/
def execDs8dec (h : Hdr) (rm : RMode) (ftz : Bool) (d a b k : Reg) (s : State) : Out :=
  laneOp (.ds8dec h rm ftz d a b k) s fun c l =>
    .v d (wordOf (fmtF32.result rm ftz (scaleE8 (ds8Val (quarter (c.v s l a) k.toNat)) (quarter (c.v s l b) 0))))

end Sys2Proof.Machine
end

