-- ==== Sys2Proof/Machine/Access.lean ====
section
/-! DEFINITION. Accesses of lanes: loads of every space (R89-R101, R203-R207) and atomics (R213-R215), with their faults, parks and switched-off lanes (R204-R206). -/

namespace Sys2Proof.Machine

/-! Closing atomics. -/

/-- A closing atomic (R298): the next instruction is `region.end`, a region is open, and the path holds every live lane. -/
def Ctx.closes (c : Ctx) (i : Instr) (s : State) : Option (Instr × DWord) :=
  let pc := c.ipc + dwordOf i.len
  match s.nextInstr c.part c.t.core c.l.start pc with
  | some (.regionEnd h, at_) =>
    if c.path = c.g.live ∧ !c.g.regions.isEmpty then some (.regionEnd h, at_ + dwordOf (Instr.regionEnd h).len) else none
  | _ => none

/-- A closing atomic has issued. -/
def Ctx.markClosing (c : Ctx) (i : Instr) (s : State) : State :=
  match c.closes i s with
  | some x => s.updGroup c.gk fun g => { g with closing := some x }
  | none => s

/-- The lines of memory that an access of `w` bytes touches, with their keys. -/
def linesOfTarget (w : Nat) : Target → List (Nat × Nat)
  | .mem pa tag => [(pa / 128, tag)]
  | .priv pa tag => dedup ((privPlaces pa w).map fun a => (a / 128, tag))
  | _ => []

/-- A line leaves its L2 home (R100, R348). -/
def State.dropHome (s : State) (line : Nat) : State :=
  let key := homeSlice (line * 128) * 1024 + homeSet (line * 128)
  { s with l2 := SMap.upd s.l2 key fun ways => ways.filter fun w => w.2.line ≠ line }

/-- A last-use discard of a line: it takes, as a whole, a value that it held since the last discard, and later discards choose
no earlier one (R100). -/
def State.discardLine (s : State) (line : Nat) : State :=
  let ms := s.moments (SMap.getD s.wb line 0) (line * 128) 128
  let at_ := atD ms (Config.free 8 s.fresh line % ms.length) 0
  let bs := (span (line * 128) 128).map fun a => s.byteAt at_ a
  let tag := (s.lineTag line).getD 0
  let s := if ms.length ≤ 1 then s else s.writeBytes tag (line * 128) bs
  ({ s with wb := SMap.put s.wb line s.wseq }).dropHome line

/-! Loads (R207). -/

/-- What an access meets before it is made: a fault, a park, or nothing. -/
inductive Meet where
  | fault (f : FInfo)
  | park (p : Park)
  /-- Records in other packages must be read first. -/
  | ask (xs : List (Nat × Nat × Nat × Nat))
  | go
  deriving DecidableEq, Repr

/-- The places of the lanes whose access is made, with their lanes. -/
def placesOf (m : Mask) (f : Nat → Chk) : List (Nat × Target) :=
  (Mask.lanes m).filterMap fun l => match f l with | .ok t => some (l, t) | _ => none

/-- Ways of a cluster's cache that a look-up must wake (R73). -/
def State.cacheAsleep (s : State) (cl : Nat) (used : Bool) : List Nat :=
  if used then (s.cacheBanks cl).filter fun b => decide ((s.bank b).pwr ≠ .on) else []

/-- The fault of an instruction, or what keeps its accesses waiting (R205, R206): records of other packages, presence bits, banks. -/
def Ctx.meet (c : Ctx) (s : State) (act : Mask) (write : Bool) (w : Nat) (f : Nat → Chk) : Meet :=
  match c.asks act f with
  | x :: xs => .ask (x :: xs)
  | [] =>
    match c.pickFault act write f with
    | some x => .fault x
    | none =>
      let pls := placesOf act f
      let xs := pls.filterMap fun x => x.2.scratch.map fun q => (q.1, q.2, w)
      match s.scratchPark xs with
      | .none =>
        match if write then [] else s.cacheAsleep c.cl (pls.any fun x => !(linesOfTarget w x.2).isEmpty) with
        | [] => .go
        | bs => .park (.wake bs)
      | p => .park p

/-- A long-latency instruction that meets a fault: it is taken at the stall point, and no lane has an effect (R151, R205). -/
def Ctx.pendFault (c : Ctx) (i : Instr) (la : BitVec 4) (act : Mask) (f : FInfo) (s : State) : State :=
  c.advance i (c.startPend i ((Mask.lanes act).map fun l => PLane.bad l (c.window la) f) s)

/-- The request that a lane of the same last-use load has made for a line of another package (R100). -/
def State.lineAsked (s : State) (gk pend pkg line : Nat) : Option Nat :=
  (s.remotes.find? fun r =>
    (match r.src with | .lane k _ => k == gk | _ => false) && r.pend == pend && r.frame.dpkg == pkg && r.frame.daddr == line * 128).map
    fun r => r.tag

/-- One lane's load: its pending result, and the state with a request sent where the bytes lie in another package: one for each
lane, or for each line of a last-use load (R100, R106). -/
def Ctx.loadLane (c : Ctx) (x : LdArgs) (f : Nat → Chk) (acc : State × List PLane) (l : Nat) : State × List PLane :=
  let (s, ps) := acc
  match f l with
  | .ok (.remote pkg d va) =>
    let p := PLane.of l (c.window x.la) (wrOf x.d x.ty 0)
    let rem := { Remote.blank with
      isLoad := true, pend := c.n0, regs := span x.d.toNat x.ty.regs, ty := x.ty, sext := Ty.signed x.ty, pc := c.ipc, va := va }
    match if x.last then s.lineAsked c.gk c.n0 pkg (d / 128) else none with
    | some tag => (s, ps ++ [{ p with tag := some tag, off := d % 128 }])
    | none =>
      let tag := s.nextTag
      let sent :=
        if x.last then s.tryRequest 0 (.lane c.gk l) pkg (d / 128 * 128) (natBytes 2 128 ++ [2]) rem
        else s.tryRequest 0 (.lane c.gk l) pkg d (natBytes 2 x.ty.bytes ++ [if x.inv then 1 else 0]) rem
      match sent with
      | some s' => (s', ps ++ [{ p with tag := some tag, off := if x.last then d % 128 else 0 }])
      | none => (s, ps ++ [p])
  | .ok t =>
    let r := c.readTarget s l x.inv x.last x.ty.bytes t
    (c.sees l r.2 (s.noteAccess t x.ty.bytes), ps ++ [PLane.of l (c.window x.la) (wrOf x.d x.ty r.1)])
  | _ =>
    -- a helper lane whose load would fault receives zero (R25)
    if (c.realOf 0xFFFFFFFF#32).getLsbD l then (s, ps) else (s, ps ++ [PLane.of l (c.window x.la) (wrOf x.d x.ty 0)])

/-- The address that a lane's access translates, where it translates one (R56). -/
def Ctx.xlated (c : Ctx) (l : Nat) (sp : Sp) (ea : DWord) : Option Nat :=
  let n := ea.toNat
  match sp with
  | .g => some n
  | .p => some (privAddr c.gk l n)
  | .s => none
  | .c => none
  | .gen => if spaceCode ea = 0 then some n else if spaceCode ea = 1 then some (privAddr c.gk l (n % 2 ^ 32)) else none

/-- The translations that the lanes of an instruction use (R346). -/
def Ctx.noteXlates (c : Ctx) (m : Mask) (sp : Sp) (ea : Nat → DWord) (s : State) : State :=
  (dedup ((Mask.lanes m).filterMap fun l => (c.xlated l sp (ea l)).map (· / 2 ^ 16))).foldl
    (fun s page => s.noteXlate c.part c.t.core c.l.classH (page * 2 ^ 16)) s

/-- `ld` in every space (R207). -/
def Ctx.load (c : Ctx) (i : Instr) (sp : Sp) (x : LdArgs) (act : Mask) (s : State) : State :=
  let w := x.ty.bytes
  let tailOk := decide (x.ty = .b64) && !x.inv && !x.last
  let ea := fun l => c.addr s l sp x.a x.disp
  let f := fun l => c.check s l sp (ea l) w .read false false tailOk
  match c.meet s act false w f with
  | .fault e => c.pendFault i x.la act e s
  | .park p => s.parkFor c.gk p
  | .ask xs => c.askRecords xs s
  | .go =>
    let (s, ps) := (Mask.lanes act).foldl (c.loadLane x f) (s, [])
    let lines := dedup ((placesOf act f).flatMap fun q => linesOfTarget w q.2)
    let s := if x.last then lines.foldl (fun s k => (s.discardLine k.1).dropCopies c.cl k.1) s else lines.foldl c.lookUp s
    let s := c.noteXlates (okLanes act f) sp ea s
    let s := s.switchOff c.gk (c.offLanes act f) fun l => (f l).why
    c.advance i (c.startPend i ps s)

/-! Atomics (R213, R214). -/

/-- The operation of an atomic: of Table 9-4, an exchange, or a compare and exchange. -/
inductive AOp where
  | op (o : MemOp)
  | exch
  | cas
  deriving DecidableEq, Repr

/-- Its code in a frame: the codes of `red`, then exchange and compare (log 16). -/
def AOp.code : AOp → Nat
  | .op o => o.code.toNat
  | .exch => 8
  | .cas => 9

/-- The new value at the location; `x` is the third operand of a compare (Table 9-4). -/
def AOp.new (a : AOp) (ty : Sys2Proof.Ty) (old b x : Nat) : Nat :=
  match a with
  | .op o => atomicNew o ty old b
  | .exch => b
  | .cas => if old = b then x else old

/-- One lane's update at a place, and its old value. -/
def Ctx.atomAt (c : Ctx) (a : AOp) (ty : Sys2Proof.Ty) (l b x : Nat) (t : Target) (s : State) : State × Nat :=
  let old := s.readHome ty.bytes t
  let new := a.new ty old b x
  if a = .cas ∧ old ≠ b then (s.noteAccess t ty.bytes, old)
  else (c.writeTarget s l (natBytes ty.bytes new) t, old)

/-- The checks of an atomic's addresses. -/
def Ctx.atomChk (c : Ctx) (s : State) (ty : Sys2Proof.Ty) (a : Reg) (l : Nat) : Chk :=
  c.check s l .gen (c.pair s l a) ty.bytes .write false false false

/-- One lane's atomic with a result. -/
def Ctx.atomLane (c : Ctx) (o : AOp) (ty : Sys2Proof.Ty) (la : BitVec 4) (d b x : Reg) (f : Nat → Chk) (s0 : State)
    (acc : State × List PLane) (l : Nat) : State × List PLane :=
  let (s, ps) := acc
  let vb := c.data s0 l b ty
  let vx := if o = .cas then c.data s0 l x ty else 0
  if (c.g.lane l).helper then (s, ps ++ [PLane.of l (c.window la) (wrOf d ty 0)])
  else
    match f l with
    | .ok (.remote pkg da va) =>
      let tag := s.nextTag
      let rem := { Remote.blank with isLoad := true, pend := c.n0, regs := span d.toNat ty.regs, ty := ty, pc := c.ipc, va := va }
      let pay := atomPayload o.code ty (natBytes ty.bytes vb ++ if o = .cas then natBytes ty.bytes vx else [])
      match s.tryRequest 4 (.lane c.gk l) pkg da pay rem with
      | some s' => (s', ps ++ [{ PLane.of l (c.window la) (wrOf d ty 0) with tag := some tag }])
      | none => (s, ps)
    | .ok t =>
      let (s', old) := c.atomAt o ty l vb vx t s
      (s', ps ++ [PLane.of l (c.window la) (wrOf d ty old)])
    | _ => (s, ps)

/-- `atom` (R213, R214). -/
def Ctx.atom (c : Ctx) (i : Instr) (o : AOp) (ty : Sys2Proof.Ty) (la : BitVec 4) (d a b x : Reg) (act : Mask) (s : State) :
    State :=
  let f := fun l => c.atomChk s ty a l
  match c.meet s (c.realOf act) true ty.bytes f with
  -- a closing atomic that faults parks its group before the `region.end` (R298)
  | .fault e => c.pendFault i (if (c.closes i s).isSome then 0 else la) act e s
  | .park p => s.parkFor c.gk p
  | .ask xs => c.askRecords xs s
  | .go =>
    let s0 := s
    let far := (placesOf (c.realOf act) f).any fun x => match x.2 with | .remote .. => true | _ => false
    let la := if far && (c.closes i s).isSome then 0 else la
    let s := c.noteXlates (c.realOf (okLanes act f)) .gen (fun l => c.pair s0 l a) s
    let (s', ps) := (Mask.lanes act).foldl (c.atomLane o ty la d b x f s0) (s, [])
    let s' := s'.switchOff c.gk (c.offLanes act f) fun l => (f l).why
    c.advance i (c.startPend i ps (c.markClosing i s'))

/-- One lane's `red` (R215). -/
def Ctx.redLane (c : Ctx) (o : MemOp) (ty : Sys2Proof.Ty) (b : Reg) (f : Nat → Chk) (s0 s : State) (l : Nat) : State :=
  match f l with
  | .ok (.remote pkg da va) =>
    (s.tryRequest 4 (.lane c.gk l) pkg da (atomPayload o.code.toNat ty (natBytes ty.bytes (c.data s0 l b ty)))
      { Remote.blank with pc := c.ipc, va := va }).getD s
  | .ok t => (c.atomAt (.op o) ty l (c.data s0 l b ty) 0 t s).1
  | _ => s

/-- `red` (R215). -/
def Ctx.red (c : Ctx) (i : Instr) (o : MemOp) (ty : Sys2Proof.Ty) (a b : Reg) (act : Mask) (s : State) : State :=
  let f := fun l => c.atomChk s ty a l
  match c.meet s (c.realOf act) true ty.bytes f with
  | .fault e => s.takeFault c.gk e
  | .park p => s.parkFor c.gk p
  | .ask xs => c.askRecords xs s
  | .go =>
    let s0 := s
    let s := c.noteXlates (c.realOf (okLanes act f)) .gen (fun l => c.pair s0 l a) s
    let s' := (Mask.lanes (c.realOf act)).foldl (c.redLane o ty b f s0) s
    let s' := s'.switchOff c.gk (c.offLanes act f) fun l => (f l).why
    c.advance i (c.markClosing i s')

end Sys2Proof.Machine
end

