-- ==== Sys2Proof/Machine/Command.lean ====
section
/-! DEFINITION. Stores, and the engine commands that a store to the aperture issues: copy templates, their checks, and the
capture of a command (R61, R67, R104, R153, R208, R254, R266-R268, R270). -/

namespace Sys2Proof.Machine

/-! Copy templates (Tables 11-4 and 11-5). -/

/-- A copy template. -/
structure Tmpl where
  kind : CmdKind
  sfmt : Ty
  dfmt : Ty
  sat : Bool
  inf : Bool
  gmerge : Bool
  bar : Option (BarLevel × Nat)
  sspc : Nat
  dspc : Nat
  sbase : Nat
  dbase : Nat
  rows : Nat
  rlen : Nat
  sstride : Nat
  dstride : Nat
  ibase : Nat
  idx64 : Bool
  rop : Nat
  hgd : Nat
  mcl : List Nat
  cmask : List Nat
  cop : Nat
  srh : Bool
  cgrp : Nat
  cid : Nat
  seed : Nat
  deriving DecidableEq, Repr

def kindOf : Nat → Option CmdKind
  | 0 => some .copy | 1 => some .gather | 2 => some .reduceStore | 3 => some .multicast | 4 => some .collective | _ => none

def tyOf (n : Nat) : Option Sys2Proof.Ty := if n < 32 then Ty.ofCode (BitVec.ofNat 5 n) else none

/-- Raw-bit types (Table 6-2). -/
def Ty.isBits (t : Sys2Proof.Ty) : Bool := t = .b8 || t = .b16 || t = .b32 || t = .b64 || t = .b128

/-- The barrier of the BAR byte, or none where it is not enabled; the outer option fails on a reserved or absent one. -/
def barOf (n : Nat) : Option (Option (BarLevel × Nat)) :=
  if field n 6 1 ≠ 0 ∨ field n 4 2 = 3 then none
  else if field n 7 1 = 0 then some none
  else
    match field n 4 2 with
    | 0 => some (some (.team, n % 16))
    | 1 => if n % 16 ≤ 3 then some (some (.die, n % 16)) else none
    | _ => if n % 16 ≤ 3 then some (some (.pkg, n % 16)) else none

/-- The spaces that a kind accepts (Table 11-6). -/
def spacesOk (k : CmdKind) (s d : Nat) : Bool :=
  s ≤ 2 && d ≤ 2 &&
    match k with
    | .copy | .gather => true
    | .reduceStore => d == 0
    | .multicast => s == 0 && d == 1
    | .collective => s == 0 && d == 0

/-- The kind part of a template accepts its values (R267). -/
def kindOk (k : CmdKind) (bs : List Byte) : Bool :=
  match k with
  | .copy => recZero bs 0x40 64
  | .gather => (recField bs 0x48 1 == 6 || recField bs 0x48 1 == 7) && recZero bs 0x49 55
  | .reduceStore => recField bs 0x40 1 ≤ 2 && recZero bs 0x41 7 && recZero bs 0x50 48
  | .multicast => ((span 0 4).all fun i => recField bs (0x40 + i) 1 ≤ 23 || recField bs (0x40 + i) 1 == 255) && recZero bs 0x48 56
  | .collective => recField bs 0x40 1 ≤ 3 && recField bs 0x41 1 ≤ 2 && recField bs 0x42 1 ≤ 1 && recZero bs 0x43 1 && recZero bs 0x54 44

/-- The element types of a template (R267). -/
def typesOk (k : CmdKind) (cop : Nat) (s d : Sys2Proof.Ty) : Bool :=
  (s == d || (s.isFloat && d.isFloat)) &&
    !((k = .reduceStore || (k = .collective && cop ≤ 1)) && (Ty.isBits s || Ty.isBits d))

/-- A template read from its 128 bytes, where R267 accepts it whatever the launch. -/
def tmplParse (bs : List Byte) : Option Tmpl :=
  match kindOf (recField bs 2 1), tyOf (recField bs 3 1), tyOf (recField bs 4 1), barOf (recField bs 6 1) with
  | some k, some sf, some df, some bar =>
    let fl := recField bs 5 1
    let spc := recField bs 7 1
    let rows := recField bs 0x18 4
    let rlen := recField bs 0x1C 4
    let sbase := recField bs 8 8
    let dbase := recField bs 0x10 8
    let gm := field fl 2 1 == 1
    let cop := if k = .collective then recField bs 0x40 1 else 0
    let ok :=
      recField bs 0 2 == 1 && field fl 3 5 == 0 && (!gm || k = .reduceStore) && (!gm || Config.hasDetscat) &&
      spacesOk k (spc % 16) (spc / 16) && (spc % 16 == 0 || decide (sbase < 2 ^ 32)) && (spc / 16 == 0 || decide (dbase < 2 ^ 32)) &&
      1 ≤ rows && rows ≤ 2 ^ 24 && 1 ≤ rlen && rlen ≤ 2 ^ 20 && recZero bs 0x28 24 && kindOk k bs && typesOk k cop sf df &&
      !((sf = .ds8 || df = .ds8) && !Config.hasDs8)
    if ok then
      some { kind := k, sfmt := sf, dfmt := df, sat := field fl 0 1 == 1, inf := field fl 1 1 == 1, gmerge := gm, bar := bar
             sspc := spc % 16, dspc := spc / 16, sbase := sbase, dbase := dbase, rows := rows, rlen := rlen
             sstride := recField bs 0x20 4, dstride := recField bs 0x24 4, ibase := recField bs 0x40 8
             idx64 := recField bs 0x48 1 == 7
             rop := if k = .collective then recField bs 0x41 1 else recField bs 0x40 1
             hgd := recField bs 0x48 8, mcl := (span 0x40 4).map fun o => recField bs o 1
             cmask := (span 0x44 4).map fun o => recField bs o 1, cop := cop
             srh := recField bs 0x42 1 == 1, cgrp := recField bs 0x44 4, cid := recField bs 0x48 8, seed := recField bs 0x50 4 }
    else none
  | _, _, _, _ => none

/-- What R267 asks of a template besides: the span-barrier flag, and the formats of reduced service. -/
def Ctx.tmplOk (c : Ctx) (s : State) (t : Tmpl) : Bool :=
  (match t.bar with
    | some (.die, _) => c.l.k.spanbar
    | some (.pkg, _) => c.l.k.spanbar
    | _ => true) &&
  !(s.svc = .reduced && (Ty.fullOnly t.sfmt || Ty.fullOnly t.dfmt))

/-! The data of an aperture store (R266). -/

/-- A command word with its template: what one lane's store asks for. -/
structure CmdReq where
  tidx : Nat
  nobar : Bool
  rows : Nat
  arg : Nat
  sbase : Nat
  dbase : Nat
  t : Tmpl
  deriving DecidableEq, Repr

/-- A base with the offset argument (R268): modulo 2^64 for a global side, in 32 bits for another. -/
def addArg (spc base arg : Nat) (on : Bool) : Nat :=
  if !on then base else if spc = 0 then (base + arg) % 2 ^ 64 else (base + arg) % 2 ^ 32

/-- Every element lies at a multiple of its size (R266); a merge has no elements of its own (R270). -/
def CmdReq.aligned (r : CmdReq) : Bool :=
  let ss := r.t.sfmt.bytes
  let ds := r.t.dfmt.bytes
  r.t.gmerge ||
    (r.sbase % ss == 0 && r.dbase % ds == 0 && r.t.sstride % ss == 0 && r.t.dstride % ds == 0 &&
      (r.t.kind ≠ .gather || r.t.ibase % (if r.t.idx64 then 8 else 4) == 0))

/-- The checks of one lane's command, and the command (R266). -/
def Ctx.cmdReq (c : Ctx) (s : State) (ea data : Nat) : Sum Chk CmdReq :=
  let bad : Sum Chk CmdReq := .inl (.bad 10 .engineCmd 0 ea)
  let tidx := field data 0 12
  let offsel := field data 13 2
  let count := field data 32 32
  let arg := field data 64 64
  if field data 15 17 ≠ 0 ∨ offsel = 3 ∨ tidx ≥ c.l.k.ttCount then bad
  else
    match c.readRecord s (c.l.k.ttBase.toNat + 8 * tidx) 8 with
    | .inl e => .inl e
    | .inr eb =>
      let a := leNat eb
      if a % 64 ≠ 0 ∨ a ≥ 2 ^ 55 then bad
      else
        match c.readRecord s a 128 with
        | .inl e => .inl e
        | .inr bs =>
          match tmplParse bs with
          | none => bad
          | some t =>
            let r : CmdReq := ⟨tidx, field data 12 1 == 1, if count = 0 then t.rows else count, arg,
              addArg t.sspc t.sbase arg (offsel ≠ 1), addArg t.dspc t.dbase arg (offsel ≠ 0), t⟩
            if c.tmplOk s t && r.aligned then .inr r else bad

/-! Capturing a command. -/

/-- The teams of the launch on the cores that a multicast read names (R268). -/
def Ctx.receivers (c : Ctx) (s : State) (t : Tmpl) : List (Nat × Nat) :=
  (s.teams.filter fun x =>
    x.2.launch == c.t.launch && x.2.tst == .resident && x.2.core / 192 == c.die &&
    ((span 0 4).any fun i => atD t.mcl i 255 == x.2.core / 8 % 24 && (atD t.cmask i 0) / 2 ^ (x.2.core % 8) % 2 == 1)).map
    fun x => (x.1, x.2.core)

/-- One lane's command enters its channel's queue: it is numbered, counts at its barrier, joins its merge round, and clears the
presence bits of its destination (R67, R104, R254, R268, R270). -/
def Ctx.issueCmd (c : Ctx) (l k : Nat) (gsl : BitVec 4) (r : CmdReq) (s : State) : State :=
  let ch := c.chanKey k
  let x := s.chan ch
  let bar := if r.nobar then none else r.t.bar
  let phase := match bar with | some (lvl, b) => (s.bar lvl c.tuid b).phase | none => 0
  let round := if r.t.gmerge then (match s.team? c.tuid with | some t => t.mergeCount + 1 | none => 1) else 0
  let depth := match s.group? c.gk with | some g => g.regions.length | none => 0
  let cmd : Cmd := {
    num := x.nextNum, seq := s.fresh * 32 + l, gk := c.gk, tuid := c.tuid, tidx := r.tidx, kind := r.t.kind, sfmt := r.t.sfmt
    dfmt := r.t.dfmt, sat := r.t.sat, inf := r.t.inf, gmerge := r.t.gmerge, bar := bar, barPhase := phase, sspc := r.t.sspc
    dspc := r.t.dspc, sbase := dwordOf r.sbase, dbase := dwordOf r.dbase, rows := r.rows, rlen := r.t.rlen
    sstride := r.t.sstride, dstride := r.t.dstride, ibase := dwordOf r.t.ibase, idx64 := r.t.idx64, rop := r.t.rop
    hgd := dwordOf r.t.hgd, mcl := r.t.mcl, cmask := r.t.cmask, cop := r.t.cop, srh := r.t.srh, cgrp := r.t.cgrp
    cid := dwordOf (r.t.cid + r.arg), seed := wordOf r.t.seed, guard := if gsl.getLsbD 3 then some (gsl.toNat % 8) else none
    recv := if r.t.kind = .multicast then c.receivers s r.t else []
    lines := [], region := depth, round := round, cursor := 0, attempt := 0, ran := false, errored := false, discard := false
    waiting := false, stagedV := [], rcache := [], undo := [], errVa := 0, errW := false, issued := s.ptime }
  let cmd := { cmd with lines := s.destLines cmd }
  let cmd := if x.queue.isEmpty then s.latchCmd cmd else cmd
  let s := (s.setChan ch { x with queue := x.queue ++ [cmd], nextNum := x.nextNum + 1 }).clearPresence cmd
  let s := if r.t.gmerge then s.updTeam c.tuid fun t => { t with mergeCount := round } else s
  match bar with
  | some (lvl, b) =>
    let y := s.bar lvl c.tuid b
    s.setBar lvl c.tuid b { y with eng := y.eng + 1 }
  | none => s

/-- Free entries of a channel's queue: 32 in all (R266). -/
def State.chanRoom (s : State) (ch : Nat) : Nat := 32 - (s.chan ch).queue.length

/-! Stores (R208). -/

/-- Bytes of a lane's store data. -/
def Ctx.storeData (c : Ctx) (s : State) (x : StArgs) (l : Nat) : Nat := c.data s l x.d x.ty

/-- One lane's outcome, the checks of a command included. -/
def Ctx.storeChk (c : Ctx) (s : State) (sp : Sp) (x : StArgs) (gsl : BitVec 4) (l : Nat) : Chk :=
  let ea := c.addr s l sp x.a x.disp
  match c.check s l sp ea x.ty.bytes .write (sp = .gen && x.ty = .b128) (gsl.getLsbD 3) (x.ty = .b64) with
  | .ok (.command k) =>
    match c.cmdReq s ea.toNat (c.storeData s x l) with
    | .inl e => e
    | .inr _ => .ok (.command k)
  | y => y

/-- Channels that a store asks for more entries of than are free (R266). -/
def Ctx.fullChan (c : Ctx) (s : State) (xs : List (Nat × Target)) : Option (Nat × Nat) :=
  (span 0 16).findSome? fun k =>
    let n := (xs.filter fun x => x.2 == .command k).length
    if n > s.chanRoom (c.chanKey k) then some (c.chanKey k, n) else none

/-- One lane's store. -/
def Ctx.storeLane (c : Ctx) (sp : Sp) (x : StArgs) (gsl : BitVec 4) (s0 : State) (s : State) (q : Nat × Target) : State :=
  match q.2 with
  | .command k =>
    match c.cmdReq s0 (c.addr s0 q.1 sp x.a x.disp).toNat (c.storeData s0 x q.1) with
    | .inr r => c.issueCmd q.1 k gsl r s
    | .inl _ => s
  | t => c.writeTarget s q.1 (natBytes x.ty.bytes (c.storeData s0 x q.1)) t

/-- `st` in every space (R208). -/
def Ctx.store (c : Ctx) (i : Instr) (sp : Sp) (x : StArgs) (gsl : BitVec 4) (act : Mask) (s : State) : State :=
  let f := fun l => c.storeChk s sp x gsl l
  let real := c.realOf act
  match c.meet s real true x.ty.bytes f with
  | .fault e => s.takeFault c.gk e
  | .park p => s.parkFor c.gk p
  | .ask xs => c.askRecords xs s
  | .go =>
    let xs := placesOf real f
    match c.fullChan s xs with
    | some (ch, n) => c.holdLanes c.path (.queue ch n) s
    | none =>
      let s' := xs.foldl (c.storeLane sp x gsl s) (c.noteXlates (okLanes real f) sp (fun l => c.addr s l sp x.a x.disp) s)
      let s' := s'.switchOff c.gk (c.offLanes act f) fun l => (f l).why
      c.advance i s'

end Sys2Proof.Machine
end

