-- ==== Sys2Proof/Machine/Memory.lean ====
section
/-! DEFINITION. Groups 8 and 9: loads (R207), stores (R208), prefetch and address helpers (R209-R212), atomics (R213-R215) and
fences (R98, R216). -/

namespace Sys2Proof.Machine

/-- LD (R207): checks every lane's generic address and starts a long-latency load of each active lane's bytes. -/
def execLd (h : Hdr) (x : LdArgs) (s : State) : Out := issueMem (.ld h x) s fun c act s => c.load (.ld h x) .gen x act s
/-- LD_G (R207): starts a long-latency load from an explicit global address, with optional invariant or last-use semantics. -/
def execLdG (h : Hdr) (x : LdArgs) (s : State) : Out := issueMem (.ldG h x) s fun c act s => c.load (.ldG h x) .g x act s
/-- LD_S (R207): starts a long-latency load from the team's scratchpad at an explicit offset. -/
def execLdS (h : Hdr) (x : LdArgs) (s : State) : Out := issueMem (.ldS h x) s fun c act s => c.load (.ldS h x) .s x act s
/-- LD_C (R207): starts a long-latency load from another team's scratchpad through a cluster-shared operand. -/
def execLdC (h : Hdr) (x : LdArgs) (s : State) : Out := issueMem (.ldC h x) s fun c act s => c.load (.ldC h x) .c x act s
/-- LD_P (R207): starts a long-latency load from the lane's private space at an explicit offset. -/
def execLdP (h : Hdr) (x : LdArgs) (s : State) : Out := issueMem (.ldP h x) s fun c act s => c.load (.ldP h x) .p x act s

/-- ST (R208): checks every lane's generic address and stores each active lane's data, or issues engine commands through the aperture. -/
def execSt (h : Hdr) (x : StArgs) (gsl : BitVec 4) (s : State) : Out :=
  issueMem (.st h x gsl) s fun c act s => c.store (.st h x gsl) .gen x gsl act s
/-- ST_G (R208): stores each active lane's data to an explicit global address, including a mapped queue tail register. -/
def execStG (h : Hdr) (x : StArgs) (s : State) : Out := issueMem (.stG h x) s fun c act s => c.store (.stG h x) .g x 0 act s
/-- ST_S (R208): stores each active lane's data to the team's scratchpad at an explicit offset. -/
def execStS (h : Hdr) (x : StArgs) (s : State) : Out := issueMem (.stS h x) s fun c act s => c.store (.stS h x) .s x 0 act s
/-- ST_C (R208): stores each active lane's data through a cluster-shared operand. -/
def execStC (h : Hdr) (x : StArgs) (s : State) : Out := issueMem (.stC h x) s fun c act s => c.store (.stC h x) .c x 0 act s
/-- ST_P (R208): stores each active lane's data to its private space at an explicit offset. -/
def execStP (h : Hdr) (x : StArgs) (s : State) : Out := issueMem (.stP h x) s fun c act s => c.store (.stP h x) .p x 0 act s

/-- One lane's prefetch: an address that does not translate to memory of this package, or lies outside global, is ignored. -/
def Ctx.prefLane (c : Ctx) (lvl : PrefLvl) (a : Reg) (disp : BitVec 12) (s0 s : State) (l : Nat) : State :=
  let ea := (c.addr s0 l .gen a disp).toNat
  if ea ≥ 2 ^ 55 then s
  else
    match s0.translate c.part c.t.core .read ea with
    | .mem pa tag =>
      let s := s.noteXlate c.part c.t.core c.l.classH ea
      if pa ≥ hbmBytes then s
      else
        match lvl with
        | .l1 => c.lookUp (s.startWake (s.cacheAsleep c.cl true)) (pa / 128, tag)
        | .l2 => s.askHome ⟨pa / 128, 1, duelOf c.l.classH, c.l.classH, c.t.core, false, tag, none, 0⟩
        | .tlb => s
    | .remote .. => s.noteXlate c.part c.t.core c.l.classH ea
    | _ => s

/-- PREF (R209): prefetches a global line into the cluster cache or L2, or warms its translation, without any access. R54 says that a
prefetch with a bad window raises BAD_WINDOW, Table 12-5 that one of a mapped QUEUE_REG raises it, and R209 that an address that cannot
be prefetched is ignored without a fault: the model takes R209, the rule of the instruction itself (log 86). -/
def execPref (h : Hdr) (lvl : PrefLvl) (a : Reg) (disp : BitVec 12) (s : State) : Out :=
  issue (.pref h lvl a disp) s fun c act s =>
    c.advance (.pref h lvl a disp) ((Mask.lanes act).foldl (c.prefLane lvl a disp s) s)

/-- SPT (R210): writes the space code of a generic address without accessing memory. -/
def execSpt (h : Hdr) (d a : Reg) (s : State) : Out :=
  laneOp (.spt h d a) s fun c l => .v d (wordOf (spaceCode (c.pair s l a)))

/-! Space casts (R211). -/

/-- The space code of a space that `spc` names (Table 3-1). -/
def SpcSp.code : SpcSp → Nat
  | .g => 0 | .p => 1 | .s => 2 | .c => 3

/-- The generic address of an operand, where its fields marked zero are zero (R55). -/
def Ctx.toGeneric (c : Ctx) (sp : SpcSp) (x : DWord) : Option DWord :=
  let n := x.toNat
  match sp with
  | .g => if n < 2 ^ 55 then some x else none
  | .p => some (dwordOf (0xF0 * 2 ^ 56 + n))
  | .s => if n < 2 ^ 23 then some (c.t.window n) else none
  | .c => if n < 2 ^ 31 then some (dwordOf (0xF2 * 2 ^ 56 + n)) else none

/-- The operand of a generic address, where the address is of the space (R211). -/
def Ctx.toOperand (c : Ctx) (sp : SpcSp) (x : DWord) : Option DWord :=
  let n := x.toNat
  let own := field n 23 3 == c.t.tagCore && field n 26 5 == c.t.tagSlot
  let code := spaceCode x
  if !windowClean x then none
  else if code = SpcSp.code sp then
    match sp with
    | .g => some x
    | .p => some (dwordOf (n % 2 ^ 32))
    | .s => if own then some (dwordOf (n % 2 ^ 23)) else none
    | .c => some (dwordOf (n % 2 ^ 31))
  else if sp = .c ∧ code = 2 ∧ own = true then some (dwordOf (n % 2 ^ 31))
  else none

/-- `spc`: the register or pair that it writes, and its predicate. -/
def spcWr (pair : Bool) (d c : Reg) (r : Option DWord) : Wr :=
  let x := r.getD 0
  (if pair then Wr.pair d x else Wr.v d (loW x)).and (.p c r.isSome)

/-- SPC (R211): converts between a generic address and a space-relative operand and writes a success predicate. -/
def execSpc (h : Hdr) (sp : SpcSp) (off : Bool) (d cc a : Reg) (s : State) : Out :=
  laneOp (.spc h sp off d cc a) s fun c l =>
    if off then spcWr (decide (sp = .g)) d cc (c.toOperand sp (c.pair s l a))
    else spcWr true d cc (c.toGeneric sp (if sp = .g then c.pair s l a else (c.v s l a).setWidth 64))

/-- `xlate.pf` for one lane: its translation is warmed, and a warming frame goes out where the address is another package's (R212). -/
def Ctx.warmLane (c : Ctx) (a : Reg) (disp : BitVec 12) (s0 s : State) (l : Nat) : State :=
  let ea := c.addr s0 l .gen a disp
  if ea.toNat ≥ 2 ^ 55 then s
  else
    match s0.translate c.part c.t.core .read ea.toNat with
    | .mem .. => s.noteXlate c.part c.t.core c.l.classH ea.toNat
    | .remote pkg d =>
      let s := s.noteXlate c.part c.t.core c.l.classH ea.toNat
      match s.routePort pkg d with
      | some port => s.send 7 ⟨port, 0, pkg, d, 0, 0, c.l.classH, []⟩
      | none => s
    | _ => s

/-- XLATE_PF (R212): translates each lane's global address and asks a remote package's fabric unit to warm its destination translation. -/
def execXlatePf (h : Hdr) (a : Reg) (disp : BitVec 12) (s : State) : Out :=
  issueMem (.xlatePf h a disp) s fun c act s =>
    c.advance (.xlatePf h a disp) ((Mask.lanes act).foldl (c.warmLane a disp s) s)

/-! Atomics. -/

/-- ATOM_ADD (R214): atomically adds the operand to each active lane's location and starts the return of the old value. -/
def execAtomAdd (h : Hdr) (ty : Ty) (la : BitVec 4) (d a b : Reg) (s : State) : Out :=
  issueMem (.atomAdd h ty la d a b) s fun c act s => c.atom (.atomAdd h ty la d a b) (.op .add) ty la d a b 0 act s
/-- ATOM_MIN (R214): atomically stores the lesser of the old value and the operand and returns the old value. -/
def execAtomMin (h : Hdr) (ty : Ty) (la : BitVec 4) (d a b : Reg) (s : State) : Out :=
  issueMem (.atomMin h ty la d a b) s fun c act s => c.atom (.atomMin h ty la d a b) (.op .min) ty la d a b 0 act s
/-- ATOM_MAX (R214): atomically stores the greater of the old value and the operand and returns the old value. -/
def execAtomMax (h : Hdr) (ty : Ty) (la : BitVec 4) (d a b : Reg) (s : State) : Out :=
  issueMem (.atomMax h ty la d a b) s fun c act s => c.atom (.atomMax h ty la d a b) (.op .max) ty la d a b 0 act s
/-- ATOM_AND (R214): atomically ANDs the operand into the location and returns the old value. -/
def execAtomAnd (h : Hdr) (ty : Ty) (la : BitVec 4) (d a b : Reg) (s : State) : Out :=
  issueMem (.atomAnd h ty la d a b) s fun c act s => c.atom (.atomAnd h ty la d a b) (.op .and) ty la d a b 0 act s
/-- ATOM_OR (R214): atomically ORs the operand into the location and returns the old value. -/
def execAtomOr (h : Hdr) (ty : Ty) (la : BitVec 4) (d a b : Reg) (s : State) : Out :=
  issueMem (.atomOr h ty la d a b) s fun c act s => c.atom (.atomOr h ty la d a b) (.op .or) ty la d a b 0 act s
/-- ATOM_XOR (R214): atomically XORs the operand into the location and returns the old value. -/
def execAtomXor (h : Hdr) (ty : Ty) (la : BitVec 4) (d a b : Reg) (s : State) : Out :=
  issueMem (.atomXor h ty la d a b) s fun c act s => c.atom (.atomXor h ty la d a b) (.op .xor) ty la d a b 0 act s
/-- ATOM_EXCH (R214): atomically exchanges the operand with the location and returns the old value. -/
def execAtomExch (h : Hdr) (ty : Ty) (la : BitVec 4) (d a b : Reg) (s : State) : Out :=
  issueMem (.atomExch h ty la d a b) s fun c act s => c.atom (.atomExch h ty la d a b) .exch ty la d a b 0 act s
/-- ATOM_CAS (R214): atomically compares the location with b and stores c on equality, returning the old value. -/
def execAtomCas (h : Hdr) (ty : Ty) (la : BitVec 4) (d a b x : Reg) (s : State) : Out :=
  issueMem (.atomCas h ty la d a b x) s fun c act s => c.atom (.atomCas h ty la d a b x) .cas ty la d a b x act s
/-- ATOM_FADD (R214): atomically adds an FP32 operand with round to nearest even and returns the old value. -/
def execAtomFadd (h : Hdr) (ty : Ty) (la : BitVec 4) (d a b : Reg) (s : State) : Out :=
  issueMem (.atomFadd h ty la d a b) s fun c act s => c.atom (.atomFadd h ty la d a b) (.op .fadd) ty la d a b 0 act s
/-- ATOM_INC (R214): atomically increments the location, wrapping to 0 at the bound b, and returns the old value. -/
def execAtomInc (h : Hdr) (ty : Ty) (la : BitVec 4) (d a b : Reg) (s : State) : Out :=
  issueMem (.atomInc h ty la d a b) s fun c act s => c.atom (.atomInc h ty la d a b) (.op .inc) ty la d a b 0 act s
/-- RED (R215): performs an atomic update without a result for each active lane, completing at issue. -/
def execRed (h : Hdr) (op : MemOp) (ty : Ty) (a b : Reg) (s : State) : Out :=
  issueMem (.red h op ty a b) s fun c act s => c.red (.red h op ty a b) op ty a b act s

/-! Fences. -/

/-- An instruction whose pending result is the value of an access. -/
def isAccess : Instr → Bool
  | .ld .. | .ldG .. | .ldS .. | .ldC .. | .ldP .. => true
  | .atomAdd .. | .atomMin .. | .atomMax .. | .atomAnd .. | .atomOr .. | .atomXor .. | .atomExch .. | .atomCas ..
  | .atomFadd .. | .atomInc .. => true
  | .hgLoad .. => true
  | _ => false

/-- Every earlier access of a lane is performed; with `domain`, at other packages too (R98). -/
def State.fenceClear (s : State) (gk l : Nat) (domain : Bool) : Bool :=
  !(s.stores.any fun x => x.src == .lane gk l) &&
  !(domain && s.remotes.any fun r => r.src == .lane gk l) &&
  match s.group? gk with
  | none => true
  | some g => g.pend.all fun q => !isAccess q.instr || (q.lanes.all fun p => p.lane ≠ l || p.landed)

/-- FENCE (R216): holds each active lane's later accesses until its earlier accesses, and for domain its cross-package ones, are performed. -/
def execFence (h : Hdr) (scope : Scope) (s : State) : Out :=
  issue (.fence h scope) s fun c act s =>
    if (Mask.lanes act).all fun l => s.fenceClear c.gk l (decide (scope = .domain)) then c.advance (.fence h scope) s
    else c.holdLanes c.path (.fence (decide (scope = .domain))) s

end Sys2Proof.Machine
end

