-- ==== Sys2Proof/Machine/Grid.lean ====
section
/-! DEFINITION. The hashed-grid instructions (R217-R221). -/

namespace Sys2Proof.Machine

/-- A lane's descriptor, with the checks of R79 and R217. Where lanes of one instruction meet different faults the earliest row of
Table 9-2 is taken, as R205 gives for accesses: a bad address stands as row 1, a translation fault of a descriptor read as row 7, bad
contents as row 10, and REG_RANGE, which needs a descriptor, comes last (log 81). -/
def Ctx.hgUse (c : Ctx) (s : State) (l : Nat) (b : Reg) (top : Nat) : Sum Chk HgDesc :=
  let a := (c.pair s l b).toNat
  if a ≥ 2 ^ 55 ∨ a % 64 ≠ 0 then .inl (.bad 1 .hgDesc 0 a)
  else
    match c.readRecord s a 320 with
    | .inl e => .inl e
    | .inr bs =>
      match hgParse bs with
      | none => .inl (.bad 10 .hgDesc 0 a)
      | some h =>
        if top > h.l ∨ (h.detscat && !(Config.hasDetscat && h.stageOk c.t)) = true then .inl (.bad 10 .hgDesc 0 a) else .inr h

/-- A lane's descriptor, if its checks pass. -/
def Ctx.hgGet (c : Ctx) (s : State) (b : Reg) (top l : Nat) : Option HgDesc :=
  match c.hgUse s l b top with
  | .inr h => some h
  | .inl _ => none

/-- The outcome of a lane's descriptor checks. -/
def Ctx.hgChk (c : Ctx) (s : State) (b : Reg) (top l : Nat) : Chk :=
  match c.hgUse s l b top with
  | .inl e => e
  | .inr _ => .fine

/-- Registers from `r` on that a lane names pass 255 or the allocation. -/
def Ctx.runBeyond (c : Ctx) (r : Reg) (n : Nat) : Bool := decide (r.toNat + n > 32 * c.g.nb) || decide (r.toNat + n > 256)

/-- Lanes whose coordinates or per-level values pass the registers (R217). -/
def Ctx.hgBeyond (c : Ctx) (act : Mask) (hd : Nat → Option HgDesc) (a : Reg) (d : Option Reg) (n : Nat) : Mask :=
  Mask.ofPred fun l => act.getLsbD l &&
    match hd l with
    | some h => c.runBeyond a h.d || (match d with | some r => c.runBeyond r (h.f * n) | none => false)
    | none => false

/-- A lane's coordinates, as FP32 patterns. -/
def Ctx.hgCoords (c : Ctx) (s : State) (l : Nat) (a : Reg) (h : HgDesc) : List Nat :=
  (span a.toNat h.d).map fun r => (c.g.rv s.fresh l r).toNat

/-- The checks of one global address of a grid table. -/
def Ctx.gridChk (c : Ctx) (s : State) (a w : Nat) (acc : Acc) : Chk :=
  if a ≥ 2 ^ 55 then .bad 1 .badWindow 0 a else c.globalChk s a w acc false

/-- The outcome of a list of accesses: the earliest row. -/
def worst (cs : List Chk) : Chk :=
  let bads := cs.filterMap fun x => match x with | .bad row cc aux addr => some (row, Chk.bad row cc aux addr) | _ => none
  match minBy (fun x => x.1) bads with
  | some x => x.2
  | none => .fine

/-! `hg.load` (R218). -/

/-- The levels named, and on each the corners with entry index and weight. -/
def Ctx.hgCorners (c : Ctx) (s : State) (l : Nat) (a : Reg) (h : HgDesc) (l0 n : Nat) : List (HgLevel × List (Nat × Nat)) :=
  let xs := c.hgCoords s l a h
  (span l0 n).map fun i =>
    let x := atD h.levels i ⟨1, 0, 0, 0⟩
    (x, h.corners x xs)

/-- The addresses of the entries that a lane reads, in order. -/
def Ctx.hgAddrs (c : Ctx) (s : State) (l : Nat) (a : Reg) (h : HgDesc) (l0 n : Nat) : List Nat :=
  (c.hgCorners s l a h l0 n).flatMap fun x => x.2.map fun k => h.featAddr x.1 k.1

/-- The outcome of a lane's feature reads. -/
def Ctx.hgReads (c : Ctx) (s : State) (a : Reg) (hd : Nat → Option HgDesc) (l0 n l : Nat) : Chk :=
  match hd l with
  | some h => worst ((c.hgAddrs s l a h l0 n).map fun x => c.gridChk s x (Nat.min (h.f * h.fbytes) 16) .read)
  | none => .fine

/-- One corner of a lane's load: its features where the entry lies in this package, and a request for them where it lies in another;
zero where the read would fault (R25, R89, R106). -/
def Ctx.hgPart (c : Ctx) (s0 : State) (h : HgDesc) (l level : Nat) (x : HgLevel) (acc : State × List HgPart) (k : Nat × Nat) :
    State × List HgPart :=
  let addr := h.featAddr x k.1
  let w := h.f * h.fbytes
  let p : HgPart := ⟨level, k.2, h.ffmt, h.f, (span 0 h.f).map fun _ => 0, none⟩
  match c.gridChk s0 addr (Nat.min w 16) .read with
  | .ok (.mem pa tag) =>
    let r := c.loadBytes s0 l tag pa w
    let s := c.sees l r.2 (acc.1.needMem pa)
    (c.lookUp (s.noteXlate c.part c.t.core c.l.classH addr) (pa / 128, tag), acc.2 ++ [{ p with feats := featsOf h.ffmt h.f r.1 }])
  | .ok (.remote pkg da va) =>
    let tag := acc.1.nextTag
    match acc.1.tryRequest 0 (.lane c.gk l) pkg da (natBytes 2 w ++ [0])
        { Remote.blank with isLoad := true, pend := c.n0, pc := c.ipc, va := va, dest := .feat } with
    | some s' => (s', acc.2 ++ [{ p with tag := some tag }])
    | none => (acc.1, acc.2 ++ [p])
  | _ => (acc.1, acc.2 ++ [p])

/-- The corners of a lane's load, levels ascending and corners in ascending binary index (R84). -/
def Ctx.hgParts (c : Ctx) (s0 : State) (l : Nat) (a : Reg) (h : HgDesc) (l0 n : Nat) (s : State) : State × List HgPart :=
  ((span l0 n).zip (c.hgCorners s0 l a h l0 n)).foldl
    (fun acc x => x.2.2.foldl (c.hgPart s0 h l x.1 x.2.1) acc) (s, [])

/-- One lane's load: its results, or its corners where some are still to come. -/
def Ctx.hgLoadLane (c : Ctx) (la : BitVec 4) (d a : Reg) (hd : Nat → Option HgDesc) (l0 n : Nat) (s0 : State)
    (acc : State × List PLane) (l : Nat) : State × List PLane :=
  match hd l with
  | some h =>
    if c.runBeyond a h.d || c.runBeyond d (h.f * n) then (acc.1, acc.2 ++ [PLane.of l (c.window la) (Wr.v d 0)])
    else
      let (s, ps) := c.hgParts s0 l a h l0 n acc.1
      let ws := partSums ps
      let p := PLane.of l (c.window la) ⟨(span d.toNat ws.length).zip ws, []⟩
      (s, acc.2 ++ [{ p with parts := if ps.any fun x => x.tag.isSome then ps else [] }])
  | none => (acc.1, acc.2 ++ [PLane.of l (c.window la) (Wr.v d 0)])

/-- HG_LOAD (R218): reads a hashed-grid descriptor and starts a long-latency interpolated gather over the named levels. -/
def execHgLoad (h : Hdr) (la : BitVec 4) (d a b : Reg) (l0 n : BitVec 4) (s : State) : Out :=
  issueMem (.hgLoad h la d a b l0 n) s fun c act s =>
    let lv := l0.toNat
    let cnt := n.toNat + 1
    let hd := c.hgGet s b (lv + cnt)
    match c.asks act (c.hgChk s b (lv + cnt)) with
    | x :: xs => c.askRecords (x :: xs) s
    | [] =>
    match c.pickFault act false (c.hgChk s b (lv + cnt)) with
    | some f => c.pendFault (.hgLoad h la d a b l0 n) la act f s
    | none =>
      let far := c.hgBeyond (c.realOf act) hd a (some d) cnt
      if far ≠ 0 then c.trap .regRange far s
      else
        match c.pickFault act false (c.hgReads s a hd lv cnt) with
        | some f => c.pendFault (.hgLoad h la d a b l0 n) la act f s
        | none =>
          match s.cacheAsleep c.cl true with
          | b :: bs => s.parkFor c.gk (.wake (b :: bs))
          | [] =>
          let (s', ps) := (Mask.lanes act).foldl (c.hgLoadLane la d a hd lv cnt s) (s, [])
          c.advance (.hgLoad h la d a b l0 n) (c.startPend (.hgLoad h la d a b l0 n) ps s')

/-! `hg.grad` (R219, R220). -/

/-- The pairs that a lane emits: element number and FP32 pattern. -/
def Ctx.hgEmit (c : Ctx) (s : State) (a d : Reg) (h : HgDesc) (l0 n l : Nat) : List (Nat × Nat) :=
  ((c.hgCorners s l a h l0 n).zip (span 0 n)).flatMap fun x =>
    x.1.2.flatMap fun k => (span 0 h.f).map fun e =>
      let g := (c.g.rv s.fresh l (d.toNat + h.f * x.2 + e)).toNat
      (x.1.1.goff * 32 + k.1 * h.f + e, roundF fmtF32 .rne false false ((decodeF fmtF32 k.2).mul (decodeF fmtF32 g)))

/-- The outcome of a lane's gradient addresses; deterministic scatter touches none. -/
def Ctx.hgWrites (c : Ctx) (s : State) (a d : Reg) (hd : Nat → Option HgDesc) (l0 n l : Nat) : Chk :=
  match hd l with
  | some h =>
    if h.detscat then .fine
    else worst ((c.hgEmit s a d h l0 n l).map fun x => c.gridChk s (h.gradAddr x.1) 4 .write)
  | none => .fine

/-- One add at the gradient table (R219). -/
def Ctx.hgAdd (c : Ctx) (s0 : State) (h : HgDesc) (l : Nat) (s : State) (x : Nat × Nat) : State :=
  match c.gridChk s0 (h.gradAddr x.1) 4 .write with
  | .ok (.mem pa tag) => (c.atomAt (.op .fadd) .f32 l x.2 0 (.mem pa tag) s).1
  | .ok (.remote pkg da va) =>
    (s.tryRequest 4 (.lane c.gk l) pkg da (atomPayload MemOp.fadd.code.toNat .f32 (natBytes 4 x.2))
      { Remote.blank with pc := c.ipc, va := va }).getD s
  | _ => s

/-- The team's segment of the issuing group: its offset, its entry count and the entries it can take (R220). -/
def Ctx.hgSegment (c : Ctx) (s : State) (h : HgDesc) : Nat × Nat × Nat :=
  let off := h.stoff + c.gnum * h.segment c.t.groups
  (off, leNat (s.readScratch c.t off 4), (h.segment c.t.groups - 8) / 8)

/-- Append entries to the segment; none where there is no room for all. -/
def Ctx.hgAppend (c : Ctx) (s : State) (h : HgDesc) (xs : List (Nat × Nat)) : Option State :=
  let (off, n, room) := c.hgSegment s h
  if n + xs.length > room then none
  else
    let bs := xs.flatMap fun x => natBytes 4 x.1 ++ natBytes 4 x.2
    some ((s.writeScratch c.t (off + 8 + 8 * n) bs).writeScratch c.t off (natBytes 4 (n + xs.length)))

/-- A lane's adds or appends. -/
def Ctx.hgGradLane (c : Ctx) (a d : Reg) (hd : Nat → Option HgDesc) (l0 n : Nat) (s0 : State) (acc : Option State) (l : Nat) :
    Option State :=
  match acc, hd l with
  | some s, some h =>
    let xs := c.hgEmit s0 a d h l0 n l
    if h.detscat then c.hgAppend s h xs else some (xs.foldl (c.hgAdd s0 h l) s)
  | x, _ => x

/-- Scratchpad bytes that a lane's appends touch: the header, and with `all` the entries. -/
def Ctx.hgStage (c : Ctx) (s : State) (a d : Reg) (hd : Nat → Option HgDesc) (l0 n : Nat) (all : Bool) (ls : List Nat) :
    List (Nat × Nat × Nat) :=
  ls.flatMap fun l =>
    match hd l with
    | some h =>
      if h.detscat then
        let (off, k, _) := c.hgSegment s h
        (c.tuid, off, 8) ::
          (if all then [(c.tuid, off + 8 + 8 * k, 8 * ls.length * (c.hgEmit s a d h l0 n l).length)] else [])
      else []
    | none => []

/-- HG_GRAD (R219): scatters hashed-grid gradient contributions as atomic adds or appends them to the deterministic staging segment. -/
def execHgGrad (h : Hdr) (d a b : Reg) (l0 n : BitVec 4) (s : State) : Out :=
  issueMem (.hgGrad h d a b l0 n) s fun c act s =>
    let i := Instr.hgGrad h d a b l0 n
    let lv := l0.toNat
    let cnt := n.toNat + 1
    let hd := c.hgGet s b (lv + cnt)
    let real := c.realOf act
    match c.asks act (c.hgChk s b (lv + cnt)) with
    | x :: xs => c.askRecords (x :: xs) s
    | [] =>
    match c.pickFault act false (c.hgChk s b (lv + cnt)) with
    | some f => s.takeFault c.gk f
    | none =>
      let far := c.hgBeyond real hd a (some d) cnt
      if far ≠ 0 then c.trap .regRange far s
      else
        match c.pickFault act true (c.hgWrites s a d hd lv cnt) with
        | some f => s.takeFault c.gk f
        | none =>
          match s.scratchPark (c.hgStage s a d hd lv cnt false (Mask.lanes real)) with
          | .none =>
            match (Mask.lanes real).foldl (c.hgGradLane a d hd lv cnt s) (some s) with
            | none => c.trap .hgStageFull real s
            | some s' =>
              match s.scratchPark (c.hgStage s a d hd lv cnt true (Mask.lanes real)) with
              | .none =>
                let atomic := (Mask.lanes real).any fun l => match hd l with | some x => !x.detscat | none => false
                c.advance i (if atomic then c.markClosing i s' else s')
              | p => s.parkFor c.gk p
          | p => s.parkFor c.gk p

/-! `hg.corner` (R221). -/

/-- One lane's corner: entry index and weight. -/
def Ctx.hgCorner (c : Ctx) (s : State) (a x : Reg) (hd : Nat → Option HgDesc) (lv l : Nat) : Wr → Reg → Wr
  | w, d =>
    match hd l with
    | none => w
    | some h =>
      if c.runBeyond a h.d then w
      else
        let ks := h.corners (atD h.levels lv ⟨1, 0, 0, 0⟩) (c.hgCoords s l a h)
        let j := (c.v s l x).toNat
        if j < ks.length then
          let k := atD ks j (0, 0)
          ⟨[(d.toNat, wordOf k.1), (d.toNat + 1, wordOf k.2)], []⟩
        else ⟨[(d.toNat, 0xFFFFFFFF#32), (d.toNat + 1, 0)], []⟩

/-- HG_CORNER (R221): writes the entry index and weight of corner j of one level after the descriptor is read. -/
def execHgCorner (h : Hdr) (d a b x : Reg) (lv : BitVec 4) (s : State) : Out :=
  issueMem (.hgCorner h d a b x lv) s fun c act s =>
    let hd := c.hgGet s b (lv.toNat + 1)
    match c.asks act (c.hgChk s b (lv.toNat + 1)) with
    | x :: xs => c.askRecords (x :: xs) s
    | [] =>
    match c.pickFault act false (c.hgChk s b (lv.toNat + 1)) with
    | some f => s.takeFault c.gk f
    | none =>
      let far := c.hgBeyond (c.realOf act) hd a none 0
      if far ≠ 0 then c.trap .regRange far s
      else
        c.advance (.hgCorner h d a b x lv)
          (s.writeLanes c.gk act fun l => c.hgCorner s a x hd lv.toNat l (Wr.pair d 0) d)

end Sys2Proof.Machine
end

