-- ==== Sys2Proof/Machine/Channel.lean ====
section
/-! DEFINITION. Dataflow channels (R222-R227), FIFOs (R228), bank modes (R63, R64, R229) and stream contexts (R230). -/

namespace Sys2Proof.Machine

/-! Channels. -/

/-- The path of a group as if it issued now. -/
def State.ctxFor (s : State) (gk : Nat) (path : Mask) : Option Ctx :=
  State.ctx? { s with cur := some ⟨gk, path, false, 0, []⟩ }

/-- The checks that name the channel and its registers (R222). -/
def Ctx.chanChk (c : Ctx) (k : BitVec 4) (r : Option Reg) : Option Cause :=
  match SMap.find c.t.chans k.toNat with
  | none => some .illegalOperand
  | some x =>
    match r with
    | some b => if c.runBeyond b (x.width / 4) then some .regRange else none
    | none => none

/-- The team of the launch with a number. -/
def Ctx.teamNum (c : Ctx) (s : State) (n : Nat) : Option (Nat × Team) :=
  s.teams.find? fun x => x.2.launch == c.t.launch && x.2.num == n

/-- The instance of a team. -/
def Team.inst (t : Team) (k : Nat) : ChanInst := SMap.getD t.chans k ⟨0, 0, [], 0⟩

/-- Banks bound to a channel of a team. -/
def State.instBanks (s : State) (tuid k : Nat) : List Nat :=
  (s.banks.filter fun x => x.2.owner == .chan tuid k).map (·.1)

/-- How many lanes of a mask name a team number. -/
def Ctx.naming (c : Ctx) (s : State) (m : Mask) (a : Reg) (n : Nat) : Nat :=
  ((Mask.lanes m).filter fun l => (c.v s l a).toNat == n).length

/-- Every lane of the mask can be given a slot (R224). -/
def Ctx.sendReady (c : Ctx) (s : State) (k : Nat) (m : Mask) (a : Reg) : Bool :=
  (Mask.lanes m).all fun l =>
    let n := (c.v s l a).toNat
    match c.teamNum s n with
    | none => false
    | some (_, t) =>
      t.tst == .done || decide ((t.inst k).q.length + c.naming s m a n ≤ (t.inst k).slots)

/-- Banks of the target instances that are not ON (R73). -/
def Ctx.sendAsleep (c : Ctx) (s : State) (k : Nat) (m : Mask) (a : Reg) : List Nat :=
  dedup ((Mask.lanes m).flatMap fun l =>
    match c.teamNum s (c.v s l a).toNat with
    | some (u, _) => (s.instBanks u k).filter fun b => (s.bank b).pwr ≠ .on
    | none => [])

/-- One lane's slot is filled. -/
def Ctx.fillSlot (c : Ctx) (k : Nat) (a b : Reg) (s0 s : State) (l : Nat) : State :=
  match c.teamNum s (c.v s0 l a).toNat with
  | none => s
  | some (u, t) =>
    if t.tst = .done then s
    else
      let n := (t.inst k).taken + (t.inst k).q.length
      let s := s.updTeam u fun t =>
        let x := t.inst k
        let ws := (span b.toNat (x.width / 4)).map fun r => c.g.rv s0.fresh l r
        { t with chans := SMap.put t.chans k { x with q := x.q ++ [ws] } }
      if u = c.tuid then s.carryOps c.gk (slotEvent k n) else s

/-- Fill the slots of every lane of a mask in ascending order, and write their predicates (R224). -/
def Ctx.send (c : Ctx) (k : Nat) (m : Mask) (a b p : Reg) (s : State) : State :=
  let ok := fun (l : Nat) =>
    match c.teamNum s (c.v s l a).toNat with
    | some (_, t) => t.tst ≠ .done
    | none => false
  ((Mask.lanes m).foldl (c.fillSlot k a b s) s).writeLanes c.gk m fun l => Wr.p p (ok l)

/-- `chan.send` fills its slots and the path goes on, or the group waits: for slots, or for banks to wake (R73, R224). -/
def Ctx.sendOrPark (c : Ctx) (i : Instr) (k : Nat) (m : Mask) (a b p : Reg) (s : State) : State :=
  if c.sendReady s k m a then
    match c.sendAsleep s k m a with
    | [] => c.advance i (c.send k m a b p s)
    | bs => (s.startWake bs).updGroup c.gk fun g => { g with park := .chanSend i m }
  else s.updGroup c.gk fun g => { g with park := .chanSend i m }

/-- CHAN_SEND (R224): parks the group until each active real lane has a slot in its target team's channel instance, then fills the
slots. Where some lanes meet CHAN_TARGET and others CHAN_OVERSIZE, CHAN_TARGET is raised (DESIGN CHOICE: no order is given; log 82). -/
def execChanSend (h : Hdr) (k : BitVec 4) (a b p : Reg) (s : State) : Out :=
  issue (.chanSend h k a b p) s fun c act s =>
    let i := Instr.chanSend h k a b p
    let m := c.realOf act
    match c.chanChk k (some b) with
    | some cause => c.refuse cause s
    | none =>
      let slots := (c.t.inst k.toNat).slots
      let far := Mask.ofPred fun l => m.getLsbD l && decide ((c.v s l a).toNat ≥ c.l.teams)
      let many := Mask.ofPred fun l => m.getLsbD l && decide (c.naming s m a (c.v s l a).toNat > slots)
      if far ≠ 0 then c.trap .chanTarget far s
      else if many ≠ 0 then c.trap .chanOversize many s
      else if m = 0 then c.advance i s
      else c.sendOrPark i k.toNat m a b p s

/-- A waiting `chan.send` delivers, once it can (R224). -/
def execChanSendDelivery (gk : Nat) (s : State) : Out :=
  .next (match s.group? gk with
    | none => s
    | some g =>
      match g.park with
      | .chanSend (.chanSend h k a b p) m =>
        let pc := (g.lane ((Mask.lowest m).getD 0)).pc
        let path := Mask.ofPred fun l => (g.lane l).lst = .onPath && (g.lane l).pc == pc
        let s' := s.updGroup gk fun g => { g with park := .none }
        match s'.ctxFor gk path with
        | none => s
        | some c =>
          if s.atHome gk ∧ c.sendReady s' k.toNat m a then c.sendOrPark (.chanSend h k a b p) k.toNat m a b p s' else s
      | _ => s)

/-- Take filled slots, oldest first, into the lanes of a mask (R225). -/
def Ctx.recv (c : Ctx) (k : Nat) (m : Mask) (d : Reg) (s : State) : State :=
  let x := c.t.inst k
  let pairs := (Mask.lanes m).zip x.q
  let f := fun (l : Nat) =>
    match pairs.find? fun y => y.1 == l with
    | some (_, ws) => Wr.mk ((span d.toNat ws.length).zip ws) []
    | none => Wr.none
  let s := s.updTeam c.tuid fun t =>
    { t with chans := SMap.put t.chans k { x with q := x.q.drop (Mask.count m), taken := x.taken + Mask.count m } }
  let s := (span x.taken (Mask.count m)).foldl (fun s n => s.observeOps c.gk (slotEvent k n)) s
  (s.acquire c.gk m).writeLanes c.gk m f

/-- `chan.recv` takes its slots and the path goes on, or the group waits (R73, R225). -/
def Ctx.recvOrPark (c : Ctx) (i : Instr) (k : Nat) (m : Mask) (d : Reg) (s : State) : State :=
  if Mask.count m ≤ (c.t.inst k).q.length then
    match (s.instBanks c.tuid k).filter fun b => (s.bank b).pwr ≠ .on with
    | [] => c.advance i (c.recv k m d s)
    | bs => (s.startWake bs).updGroup c.gk fun g => { g with park := .chanRecv i m }
  else s.updGroup c.gk fun g => { g with park := .chanRecv i m }

/-- CHAN_RECV (R225): parks the group until the team's instance holds a filled slot for each active real lane, then takes them oldest first. -/
def execChanRecv (h : Hdr) (k : BitVec 4) (d : Reg) (s : State) : Out :=
  issue (.chanRecv h k d) s fun c act s =>
    let i := Instr.chanRecv h k d
    let m := c.realOf act
    match c.chanChk k (some d) with
    | some cause => c.refuse cause s
    | none =>
      if Mask.count m > (c.t.inst k.toNat).slots then c.trap .chanOversize m s
      else if m = 0 then c.advance i s
      else c.recvOrPark i k.toNat m d s

/-- A waiting `chan.recv` takes its slots, once they are filled (R225). -/
def execChanRecvDelivery (gk : Nat) (s : State) : Out :=
  .next (match s.group? gk with
    | none => s
    | some g =>
      match g.park with
      | .chanRecv (.chanRecv h k d) m =>
        let pc := (g.lane ((Mask.lowest m).getD 0)).pc
        let path := Mask.ofPred fun l => (g.lane l).lst = .onPath && (g.lane l).pc == pc
        let s' := s.updGroup gk fun g => { g with park := .none }
        match s'.ctxFor gk path with
        | none => s
        | some c =>
          if s.atHome gk ∧ Mask.count m ≤ (c.t.inst k.toNat).q.length then
            c.recvOrPark (.chanRecv h k d) k.toNat m d s'
          else s
      | _ => s)

/-- CHAN_PROBE (R226): writes the filled and free slot counts of the team's own channel instance. -/
def execChanProbe (h : Hdr) (k : BitVec 4) (d : Reg) (s : State) : Out :=
  issue (.chanProbe h k d) s fun c act s =>
    match c.chanChk k none with
    | some cause => c.refuse cause s
    | none =>
      let x := c.t.inst k.toNat
      let w := wordOf (x.q.length % 2 ^ 16 + (x.slots - x.q.length) % 2 ^ 16 * 2 ^ 16)
      c.advance (.chanProbe h k d) (s.writeLanes c.gk act fun _ => .v d w)

/-! FIFOs. -/

/-- Elements of a FIFO bank (R228). -/
def fifoMax : Nat := 32768

/-- The outcome of a FIFO access before the FIFO's fill is looked at: NOT_OWNER, NOT_READY, or none. -/
def Ctx.fifoBad (c : Ctx) (s : State) (n : Nat) : Option Word :=
  let b := s.bank (64 * c.cl + n)
  if n > 63 then some 3
  else
    match b.transit with
    | some x => if x.team = c.tuid ∧ (b.mode = .fifo ∨ x.target = .fifo) then some 2 else some 3
    | none => if b.mode = .fifo ∧ b.owner = .team c.tuid then none else some 3

/-- Banks that a FIFO instruction reaches and that are not ON (R73). -/
def Ctx.fifoAsleep (c : Ctx) (s : State) (m : Mask) (a : Reg) : List Nat :=
  dedup (((Mask.lanes m).map fun l => (c.v s l a).toNat).filterMap fun n =>
    if (c.fifoBad s n).isNone ∧ (s.bank (64 * c.cl + n)).pwr ≠ .on then some (64 * c.cl + n) else none)

def Ctx.pushLane (c : Ctx) (d a b p : Reg) (s0 s : State) (l : Nat) : State :=
  let n := (c.v s0 l a).toNat
  let k := 64 * c.cl + n
  let x := s.bank k
  let w : Word := match c.fifoBad s n with
    | some w => w
    | none => if x.fifo.length ≥ fifoMax then 1 else 0
  let s :=
    if w = 0 then
      (s.setBank k { x with fifo := x.fifo ++ [c.v s0 l b], lastUse := s.now }).carryOps c.gk (elemEvent k (x.popped + x.fifo.length))
    else s
  s.writeLanes c.gk (1#32 <<< l) fun _ => (Wr.v d w).and (.p p (w == 0))

def Ctx.popLane (c : Ctx) (d a p : Reg) (s0 s : State) (l : Nat) : State :=
  let n := (c.v s0 l a).toNat
  let k := 64 * c.cl + n
  let x := s.bank k
  let (w, ok, s) : Word × Bool × State := match c.fifoBad s n with
    | some w => (w, false, s)
    | none =>
      match x.fifo with
      | [] => (1, false, s)
      | e :: q =>
        let s := (s.setBank k { x with fifo := q, popped := x.popped + 1, lastUse := s.now }).observeOps c.gk (elemEvent k x.popped)
        (e, true, s.acquire c.gk (1#32 <<< l))
  s.writeLanes c.gk (1#32 <<< l) fun _ => (Wr.v d w).and (.p p ok)

/-- FIFO_PUSH (R228): appends each active real lane's element to an unbound FIFO bank and writes a status without parking. -/
def execFifoPush (h : Hdr) (d a b p : Reg) (s : State) : Out :=
  issue (.fifoPush h d a b p) s fun c act s =>
    match c.fifoAsleep s (c.realOf act) a with
    | [] => c.advance (.fifoPush h d a b p) ((Mask.lanes (c.realOf act)).foldl (c.pushLane d a b p s) s)
    | bs => s.parkFor c.gk (.wake bs)

/-- FIFO_POP (R228): removes the oldest element of an unbound FIFO bank for each active real lane and writes a status. -/
def execFifoPop (h : Hdr) (d a p : Reg) (s : State) : Out :=
  issue (.fifoPop h d a p) s fun c act s =>
    match c.fifoAsleep s (c.realOf act) a with
    | [] => c.advance (.fifoPop h d a p) ((Mask.lanes (c.realOf act)).foldl (c.popLane d a p s) s)
    | bs => s.parkFor c.gk (.wake bs)

/-! Bank modes. -/

/-- The mode that field B names (R229). -/
def modeOf : Nat → Option BMode
  | 0 => some .pool | 1 => some .cache | 2 => some .scratch | 3 => some .fifo | _ => none

/-- SCRATCH banks that a team holds, those on their way to it included (R58). -/
def State.ownCount (s : State) (tuid : Nat) : Nat :=
  (match s.team? tuid with | some t => t.banks.length | none => 0) +
    (s.banks.filter fun x => match x.2.transit with | some y => y.team == tuid && decide (y.target = .scratch) | none => false).length

/-- The status of a switch, and whether it is accepted (Table 3-3). A bank of the bring-up store is owned by no team and answers
BUSY (R377; log 19). -/
def Ctx.modeStatus (c : Ctx) (s : State) (n : Nat) (m : BMode) : Nat × Bool :=
  let k := 64 * c.cl + n
  let b := s.bank k
  let list := match s.team? c.tuid with | some t => t.bankList | none => []
  if n > 63 then (6, false)
  else if b.transit.isSome || s.bringUp k then (1, false)
  else if b.mode = m then (0, false)
  else if b.mode = .scratch ∧ b.owner ≠ .team c.tuid then (1, false)
  else if b.mode = .scratch ∧ list.getLast? ≠ some k then (4, false)
  else if b.mode = .fifo ∧ b.owner ≠ .team c.tuid then
    ((match b.owner with | .chan t _ => if t = c.tuid then 5 else 1 | _ => 1), false)
  else if b.mode = .fifo ∧ !b.fifo.isEmpty then (2, false)
  else if m = .scratch ∧ s.ownCount c.tuid ≥ 32 then (3, false)
  else (0, true)

/-- The teams whose banks a demand for one bank of a cluster takes (R50): none are needed where POOL has a bank, and there is no
answer where the demand must wait. -/
def State.poolDemand (s : State) (p cl : Nat) : Option (List Nat) :=
  if !(s.poolBanks cl).isEmpty then some [] else s.reclaimFor 1 (s.reclaimable p cl []) 0 []

/-- A G request for SCRATCH or FIFO that names a bank of an H team is a demand for a bank of the cluster: it reclaims banks first,
and has no answer while none can be had (R50; log 19). -/
def Ctx.bankDemand (c : Ctx) (s : State) (n : Nat) (m : BMode) : Option State :=
  let theirs := match (s.bank (64 * c.cl + n)).owner with
    | .team t => (match s.team? t with | some x => s.teamIsH x | none => false)
    | _ => false
  if c.l.classH || !theirs || decide (n > 63) || !(m = .scratch || m = .fifo) then some s
  else
    (s.poolDemand c.part c.cl).map fun ts =>
      ts.foldl (fun s t =>
        let s := if s.teamSt? t = some .resident then s.evictTeam t else s
        s.reclaimTeam t) s

/-- The dirty lines of a CACHE bank are written back as traffic of a class (R63, R74). -/
def State.cleanWay (s : State) (b : Nat) (core : Nat) (classH : Bool) : State :=
  let s := ((s.bank b).lines.filter fun x => x.2.dirty).foldl (fun s x => s.askWrite core classH x.2.tag x.2.line) s
  s.setBank b { s.bank b with lines := (s.bank b).lines.map fun x => (x.1, { x.2 with dirty := false }) }

/-- A bank leaves CACHE: dirty lines are written back, and the others are dropped (R63). -/
def State.flushWay (s : State) (b : Nat) (core : Nat) (classH : Bool) : State :=
  let s := s.cleanWay b core classH
  s.setBank b { s.bank b with lines := [] }

/-- One lane's request (R63, R64); no answer where it waits for banks (R50). -/
def Ctx.modeLane (c : Ctx) (la : BitVec 4) (m : BMode) (d a p : Reg) (s0 : State) (acc : Option (State × List PLane)) (l : Nat) :
    Option (State × List PLane) :=
  acc.bind fun (s, ps) =>
  let n := (c.v s0 l a).toNat
  let k := 64 * c.cl + n
  (c.bankDemand s n m).map fun s =>
  let (w, go) := c.modeStatus s n m
  let pl := PLane.of l (c.window la) ((Wr.v d (wordOf w)).and (.p p (w == 0)))
  if go then
    let b := s.bank k
    let s := if b.mode = .scratch then s.updTeam c.tuid fun t => { t with banks := t.banks.dropLast } else s
    let s := s.flushWay k c.t.core c.l.classH
    let s := s.setBank k { s.bank k with
      transit := some ⟨m, c.tuid, c.gk, c.n0, l⟩, owner := if m = .scratch ∨ m = .fifo then .team c.tuid else .none, warm := false, refill := false }
    -- its result is written with the switch, and answers no frame
    (s, ps ++ [{ pl with tag := some 0 }])
  else (s, ps ++ [pl])

/-- BANK_MODE (R229): requests a mode switch of a cluster SRAM bank per active lane, decided by the mode-switch table. -/
def execBankMode (h : Hdr) (la : BitVec 4) (mode d a p : Reg) (s : State) : Out :=
  issue (.bankMode h la mode d a p) s fun c act s =>
    match modeOf mode.toNat with
    | none => c.refuse .illegalOperand s
    | some m =>
      match (Mask.lanes act).foldl (c.modeLane la m d a p s) (some (s, [])) with
      | some (s', ps) => c.advance (.bankMode h la mode d a p) (c.startPend (.bankMode h la mode d a p) ps s')
      | none => s.parkFor c.gk (.pool c.cl)

/-- The result of a pending instruction lands for one lane (R150). -/
def State.landLane (s : State) (gk id lane : Nat) : State :=
  s.updGroup gk fun g =>
    Group.takeDue s.fresh { g with
      pend := g.pend.map fun q =>
        if q.id = id then { q with lanes := q.lanes.map fun p => if p.lane = lane then { p with landed := true } else p } else q }

/-- An accepted switch finishes: the bank takes its mode, and the status is written (R63, R64). -/
def execBankModeComplete (bank : Nat) (s : State) : Out :=
  .next (match (s.bank bank).transit with
    | none => s
    | some x =>
      let live := match s.team? x.team with | some t => t.tst ≠ .done | none => false
      -- the team ended meanwhile: its banks go to POOL (R65)
      let m := if live || x.target = .cache then x.target else .pool
      let s := s.clearBank bank
      let nb : Bank :=
        { Bank.reset with
          mode := m
          owner := if m = .scratch ∨ m = .fifo then .team x.team else .none
          pwr := if m = .pool then .deep else .on
          lastUse := s.now }
      let s := s.setBank bank nb
      let s := if m = .scratch then s.updTeam x.team fun t => { t with banks := t.banks ++ [bank] } else s
      s.landLane x.gk x.pend x.lane)

/-- SCTX_GET (R230): writes the stream context's base address, size and entry index. -/
def execSctxGet (h : Hdr) (d : Reg) (s : State) : Out :=
  laneOp (.sctxGet h d) s fun c _ =>
    match c.l.stream with
    | none => ⟨(span d.toNat 4).map fun r => (r, 0), []⟩
    | some e =>
      (Wr.pair d c.sctx).and
        ⟨[(d.toNat + 2, wordOf (bankBytes * c.t.ctxBanks.length)), (d.toNat + 3, wordOf (e % 2 ^ 13))], []⟩

end Sys2Proof.Machine
end

