-- ==== Sys2Proof/Machine/Anvil.lean ====
section
/-! DEFINITION. Anvil: joint operations (R231-R239), gangs that form (R249), and waits for slots. -/

namespace Sys2Proof.Machine

/-! Bellows at the start of a covered operation (R371). -/

/-- The cost of a covered operation (R371). -/
def Cluster.costOf (c : Cluster) (k : Nat) : Nat := field c.cost.toNat (8 * k) 8

/-- A covered operation of a group may issue: leave is not suspended, and the group is not among those released later
(R371). -/
def State.leaveOpen (s : State) (gk : Nat) : Bool :=
  let c := s.cluster (s.coreOf gk / 8)
  !c.depl && !c.heldOps.contains gk

/-- Charge a covered operation (R371). -/
def State.chargeOp (s : State) (gk k : Nat) : State :=
  let cl := s.coreOf gk / 8
  let c := s.cluster cl
  s.setCluster cl { c with charge := c.charge + c.costOf k }

/-- A covered operation of a group is held while the reserve is depleted; it is released later, in its turn (R371). -/
def State.holdOp (s : State) (gk : Nat) : State :=
  let cl := s.coreOf gk / 8
  let c := s.cluster cl
  if c.depl && !c.heldOps.contains gk then s.setCluster cl { c with heldOps := c.heldOps ++ [gk] } else s

/-! Joint operations. -/

/-- The members of the operation that a group takes part in, ascending (R231). -/
def State.jointMembers (s : State) (gk : Nat) : List Nat :=
  match s.group? gk with
  | none => []
  | some g => if g.gang = 0 then [gk] else (Mask.lanes g.gang).map fun i => gk / 32 * 32 + i

/-- What becomes of a joint operation (Table 10-4). -/
inductive Joint where
  /-- A member is not latched, a slot is busy, or the operation is held. -/
  | wait
  /-- A line of B is absent. -/
  | absent
  /-- Banks of B must wake. -/
  | wake (bs : List Nat)
  | trap (c : Cause)
  | go
  deriving DecidableEq, Repr

/-- The latched instructions of a joint operation; none while a member is not latched. -/
def State.latchedAll (s : State) (ms : List Nat) : Option (List Latched) :=
  ms.foldr (fun gk acc =>
    match acc, s.group? gk with
    | some ls, some g => g.latch.map fun x => x :: ls
    | _, _ => none) (some [])

/-- The offset of B, as the member of rank 0 gives it (R236). -/
def Ctx.bBase (c : Ctx) (s : State) (x : MmaArgs) : Nat := ((c.v s (c.lead.getD 0) x.c).toNat + x.bdisp.toNat) % 2 ^ 32

/-- The checks of Table 10-4, first row first. -/
def State.jointRows (s : State) (gk : Nat) : Joint :=
  let ms := s.jointMembers gk
  match s.latchedAll ms with
  | none => .wait
  | some [] => .wait
  | some (l0 :: ls) =>
    match mmaOf l0.instr, s.ctxFor (ms.headD 0) l0.path with
    | some (f, x), some c =>
      let all := l0 :: ls
      let diverged := (ms.zip all).any fun y => match s.group? y.1 with | some g => y.2.path ≠ g.live | none => false
      if ls.any fun y => y.instr ≠ l0.instr || y.pc ≠ l0.pc then .trap .gangMismatch
      else if diverged then .trap .groupDiverged
      else if all.any fun y => y.guard.isNone then .trap .groupDiverged
      else if x.d.toNat + ms.length > c.l.k.acc then .trap .regRange
      else
        let o := c.bBase s x
        let n := 512 * f.slots
        let reads := all.any fun y => y.guard == some true
        if reads && (decide (o ≥ 2 ^ 23) || o % 512 != 0 || decide (o + n > c.t.scratchBytes)) then .trap .matrixAddr
        else
          match if reads then s.scratchPark [(c.tuid, o, n)] else .none with
          | .wake bs => .wake bs
          | .none => .go
          | _ => .absent
    | _, _ => .wait

/-- What a group waits for by itself is over: its lines are present, its banks are ON, its slots are not busy, the records that it
asked for are here, a bank can be had (R50, R67, R73, R106, R242). -/
def State.parkOver (s : State) (gk : Nat) : Park → Bool
  | .none => true
  | .presence ls => ls.all fun k => (SMap.find s.absentLines k).isNone
  | .wake bs => bs.all fun b => (s.bank b).pwr == .on
  | .dslots m => !s.slotsBusy gk m
  | .record => s.recs.all fun r => decide (r.who ≠ .group gk) || r.bytes.isSome
  | .pool cl =>
    match s.team? (gk / 32) with
    | some t => (s.poolDemand (s.teamPart t) cl).isSome
    | none => false
  | _ => false

/-! Lockstep (R289). -/

/-- A spill or a fill of the accumulator waits for a line or a bank of scratchpad. -/
def State.accWaits (s : State) (gk : Nat) : Bool :=
  match s.group? gk, s.team? (gk / 32) with
  | some g, some t =>
    match s.launch? t.launch with
    | none => false
    | some l =>
      !s.parkOver gk g.park && (match g.park with | .presence _ | .wake _ => true | _ => false) &&
        match s.fetch l.part t.core l.start (g.lane ((Mask.lowest g.live).getD 0)).pc with
        | .instr (.accSpill ..) | .instr (.accFill ..) => true
        | _ => false
  | _, _ => false

/-- The groups of a team with an item that is late (R289): an operation of Anvil at rows 6 or 7 of Table 10-4, a store that
waits for a queue entry, or a command held at its queue head under an unresolved slot or for staging space. -/
def State.lateGroups (s : State) (tuid : Nat) : List Nat :=
  let atRows := fun (gk : Nat) =>
    match s.jointRows gk with
    | .absent | .wake _ => true
    | _ => false
  let stores := fun (g : Group) => g.lanes.any fun ln =>
    match ln.wait with
    | .queue ch n => ln.live && decide (s.chanRoom ch < n)
    | _ => false
  let gs := s.teamGroups tuid
  let heads := s.chans.filterMap fun x =>
    match x.2.queue with
    | c :: _ =>
      if c.tuid == tuid && !c.ran && !c.discard &&
          (s.guardOf c == some .unresolved ||
           (c.isStaged && s.guardOf c ≠ some .isFalse && !(c.gmerge && c.cursor == 0) && decide (x.2.stagedBytes + c.stageBytes > 65536)))
      then some c.gk else none
    | [] => none
  (gs.filter fun x => (x.2.park == .latch && atRows x.1) || s.accWaits x.1 || stores x.2).map (·.1) ++ heads

/-- The team's launch carries the lockstep flag (R289). -/
def State.lockstep (s : State) (tuid : Nat) : Bool :=
  match s.team? tuid with
  | none => false
  | some t => match s.launch? t.launch with | some l => l.k.lockstep | none => false

/-- An item of the team is late, and Anvil and Tongs take nothing more from it (R289). -/
def State.late (s : State) (tuid : Nat) : Bool := s.lockstep tuid && !(s.lateGroups tuid).isEmpty

/-- A group's gang issued a late item, and the group stays STALLED (R289). -/
def State.lateGang (s : State) (gk : Nat) : Bool :=
  s.lockstep (gk / 32) && (s.lateGroups (gk / 32)).any fun x => x == gk || (s.jointMembers x).contains gk

/-- A guard of the joint operation is 1, so that it is a covered operation of Bellows (R273). -/
def State.jointActs (s : State) (gk : Nat) : Bool :=
  (s.jointMembers gk).any fun m =>
    match s.group? m with
    | some g => match g.latch with | some y => y.guard == some true | none => false
    | none => false

/-- Everything but current leave lets the operation start. -/
def State.jointReady (s : State) (gk : Nat) : Bool :=
  let ms := s.jointMembers gk
  match s.jointRows gk, (s.group? (ms.headD 0)).bind (·.latch) with
  | .go, some y =>
    match mmaOf y.instr with
    | some (_, x) => !s.slotsBusy (ms.headD 0) x.ds.wmask && !s.late (gk / 32)
    | none => false
  | _, _ => false

/-- What becomes of the joint operation now: Table 10-4, then the slots, lockstep and current leave (R239, R289, R371). -/
def State.jointCheck (s : State) (gk : Nat) : Joint :=
  match s.jointRows gk with
  | .go =>
    if s.jointReady gk && (!s.jointActs gk || s.leaveOpen ((s.jointMembers gk).headD 0)) then .go else .wait
  | x => x

/-- A trap of every member at its latched instruction (R236). -/
def State.jointTrap (s : State) (gk : Nat) (cause : Cause) : State :=
  (s.jointMembers gk).foldl (fun s m =>
    match s.group? m with
    | none => s
    | some g =>
      match g.latch with
      | none => s
      | some y =>
        let s := s.updGroup m fun g => { g with latch := none, park := .none }
        match s.ctxFor m y.path with
        | some c => c.trap cause (c.realOf y.path) s
        | none => s) s

/-- A fragment read from registers: every lane's, an absent lane's as zero (R232). -/
def Ctx.fragment (c : Ctx) (s : State) (f : MForm) (a : Reg) : List (List Word) :=
  lanes32.map fun l =>
    (span a.toNat f.regs).map fun r => if (c.g.lane l).lst = .absent then 0 else c.g.rv s.fresh l r

/-- The reuse latch holds what this operation would read (R238). -/
def Group.reuses (g : Group) (f : MForm) (a : Reg) : Option (List (List Word)) :=
  match g.areuse with
  | some y => if y.opc = f.opc ∧ y.a = a then some y.frag else none
  | none => none

/-- The scale register of every lane. The manual does not say what scale a row or column of an absent lane has: a free value
(log 78). -/
def Ctx.scales (c : Ctx) (s : State) (b : Reg) : List Word :=
  lanes32.map fun l => if (c.g.lane l).lst = .absent then wordOf (Config.free 14 s.fresh (c.gk * 32 + l)) else c.v s l b

/-- The tile elements that a joint operation reads: none under `.zc` (R237). -/
def Ctx.accIn (c : Ctx) (s : State) (x : MmaArgs) (before : List Nat) (tiles : List Nat) : SMap (BitVec 40) :=
  if x.zc then [] else tiles.flatMap fun t => tileOf t fun m n => c.t.element s.fresh before (t * 256 + m * 16 + n)

/-- Each member leaves its park and goes on (R39, R239). -/
def State.jointRelease (s : State) (ms : List Nat) : State :=
  ms.foldl (fun s m =>
    match s.group? m with
    | none => s
    | some g =>
      match g.latch with
      | none => s
      | some y =>
        let s := s.updGroup m fun g => { g with latch := none, park := .none }
        match s.ctxFor m y.path with
        | some c => c.advance y.instr s
        | none => s) s

/-- Start a joint operation whose checks have passed (R237-R239). -/
def State.jointRun (s : State) (gk : Nat) : State :=
  let ms := s.jointMembers gk
  match s.latchedAll ms with
  | some (l0 :: ls) =>
    match mmaOf l0.instr, s.ctxFor (ms.headD 0) l0.path with
    | some (f, x), some cb =>
      let all := ms.zip (l0 :: ls)
      -- an operation that supplies no fragment of some member releases the reuse latch (R238)
      if !(all.any fun y => y.2.guard == some true) then
        (ms.foldl (fun s m => s.updGroup m fun g => { g with areuse := none }) s).jointRelease ms
      else
        let s := s.chargeOp (ms.headD 0) 0
        let members : Mask := Mask.ofPred fun i => ms.contains (gk / 32 * 32 + i)
        let before := s.opsBefore (ms.headD 0) x.ds.wmask (!x.zc) members
        let o := cb.bBase s x
        let bs := s.readScratch cb.t o (512 * f.slots)
        let reuse := (cb.g.reuses f x.a).isSome
        let frags := all.map fun y =>
          match s.ctxFor y.1 y.2.path with
          | some c => ((if reuse then c.g.reuses f x.a else none).getD (c.fragment s f x.a))
          | none => []
        let parts := ((span 0 all.length).zip (all.zip frags)).filterMap fun y =>
          if y.2.1.2.guard = some true then
            (s.ctxFor y.2.1.1 y.2.1.2.path).map fun c =>
              ⟨x.d.toNat + y.1, y.2.2, if x.sc then c.scales s x.b else []⟩
          else none
        let keep := x.ru && all.all fun y => y.2.guard == some true
        let s := s.touch cb.t o (512 * f.slots)
        let cap := AnvilCap.mma l0.instr cb.g.nbv o bs (if x.sc then cb.scales s x.b else []) parts
          (cb.accIn s x before (parts.map (·.tile)))
        let s := s.startOp (ms.headD 0) x.ds.wmask (DSlots.slot x.ds) (!x.zc) members true cap []
        let s := (ms.zip frags).foldl (fun s y =>
          s.updGroup y.1 fun g => { g with areuse := if keep then some ⟨f.opc, x.a, y.2⟩ else none }) s
        s.jointRelease ms
    | _, _ => s
  | _ => s

/-- JOINT_OPERATION_START (R236, R239). -/
def execJointOperationStart (gk : Nat) (s : State) : Out :=
  .next (match s.jointCheck gk with
    | .wait => s
    | .absent => s
    | .wake bs => s.startWake bs
    | .trap c => s.jointTrap gk c
    | .go => s.jointRun gk)

/-! Gangs that form (R249). -/

/-- Every group of the mask is parked in `gang.form` with it, and its own slots are not busy. -/
def State.formReady (s : State) (tuid : Nat) (m : Mask) : Bool :=
  (Mask.lanes m).all fun i =>
    match s.group? (tuid * 32 + i) with
    | some g => (match g.park with | .gangForm m' _ => m' == m | _ => false) && !s.slotsBusy (tuid * 32 + i) 255
    | none => false

/-- Form a gang if it can be formed now. -/
def State.tryForm (s : State) (tuid : Nat) (m : Mask) : State :=
  if s.formReady tuid m then
    let s := s.updTeam tuid fun t => { t with gangs := t.gangs ++ [⟨s.fresh, m⟩] }
    (Mask.lanes m).foldl (fun s i =>
      let gk := tuid * 32 + i
      match s.group? gk with
      | none => s
      | some g =>
        match g.park with
        | .gangForm _ ins =>
          let s := s.updGroup gk fun g => { g with gang := m, areuse := none, park := .none }
          match s.ctxFor gk g.live with
          | some c => c.advance ins s
          | none => s
        | _ => s) s
  else s

/-- Waits for slots that are over: groups stalled on slots, and gangs that form (R242, R249, R251). -/
def State.wakeSlots (s : State) (tuid : Nat) : State :=
  (s.teamGroups tuid).foldl (fun s x =>
    match s.group? x.1 with
    | none => s
    | some g =>
      match g.park with
      | .dslots m => if s.slotsBusy x.1 m then s else s.updGroup x.1 fun g => { g with park := .none }
      | .gangForm m _ => s.tryForm tuid m
      | _ => s) s

/-- Operations that every group of the team is ordered after become part of the tiles. -/
def Team.retire (t : Team) (fresh : Nat) (live : Mask) : Team :=
  if !t.anvil.isEmpty && t.anvil.all fun y => y.done && live &&& ~~~y.seen == 0 then
    { t with tiles := t.settledTiles fresh, anvil := [] }
  else t

/-- ANVIL_COMPLETION: an operation completes (R239). -/
def execAnvilCompletion (tuid op : Nat) (s : State) : Out := .next ((s.endOp tuid op).wakeSlots tuid)

end Sys2Proof.Machine
end

