-- ==== Sys2Proof/Machine/Matrix.lean ====
section
/-! DEFINITION. Group 11: `mma` (R235), the accumulator family (R242-R248), gangs and slots (R249-R251). -/

namespace Sys2Proof.Machine

/-- An `mma` enters the rendezvous latch, and its group parks there (R39, R239). -/
def enterLatch (i : Instr) (s : State) : Out :=
  issue i s fun c act s =>
    if c.realOf c.path = 0 then c.advance i s
    else
      let guard := if act = c.path then some true else if act = 0 then some false else none
      s.updGroup c.gk fun g => { g with latch := some ⟨i, c.ipc, guard, c.path, s.now⟩, park := .latch }

/-- MMA_F16 (R237): enters an FP16 matrix multiply-accumulate into the rendezvous latch. -/
def execMmaF16 (h : Hdr) (x : MmaArgs) (s : State) : Out := enterLatch (.mmaF16 h x) s
/-- MMA_BF16 (R237): enters a BF16 matrix multiply-accumulate into the rendezvous latch. -/
def execMmaBf16 (h : Hdr) (x : MmaArgs) (s : State) : Out := enterLatch (.mmaBf16 h x) s
/-- MMA_E4M3 (R237): enters an E4M3 matrix multiply-accumulate, optionally block-scaled, into the rendezvous latch. -/
def execMmaE4m3 (h : Hdr) (x : MmaArgs) (s : State) : Out := enterLatch (.mmaE4m3 h x) s
/-- MMA_E5M2 (R237): enters an E5M2 matrix multiply-accumulate, optionally block-scaled, into the rendezvous latch. -/
def execMmaE5m2 (h : Hdr) (x : MmaArgs) (s : State) : Out := enterLatch (.mmaE5m2 h x) s
/-- MMA_S8 (R237): enters an 8-bit integer matrix multiply-accumulate into the rendezvous latch. -/
def execMmaS8 (h : Hdr) (x : MmaArgs) (s : State) : Out := enterLatch (.mmaS8 h x) s
/-- MMA_DS8 (R237): enters a DS8-weight by FP8-activation matrix multiply-accumulate into the rendezvous latch. -/
def execMmaDs8 (h : Hdr) (x : MmaArgs) (s : State) : Out := enterLatch (.mmaDs8 h x) s

/-! The accumulator family. -/

/-- An instruction of the accumulator family: it stalls its group until the slots that it names are not busy (R242). -/
def accOp (i : Instr) (ds : DSlots) (s : State) (k : Ctx → State → State) : Out :=
  groupOp i s fun c s =>
    if s.slotsBusy c.gk ds.wmask then s.updGroup c.gk fun g => { g with park := .dslots ds.wmask } else k c s

/-- A tile element as an instruction of the group reads it. -/
def Ctx.elem (c : Ctx) (s : State) (ds : DSlots) (tile m n : Nat) : BitVec 40 :=
  c.t.element s.fresh (s.opsBefore c.gk ds.wmask false (1#32 <<< c.gnum)) (tile * 256 + m * 16 + n)

/-- The elements of a tile as an instruction of the group reads them. -/
def Ctx.tileIn (c : Ctx) (s : State) (ds : DSlots) (tile : Nat) : SMap (BitVec 40) := tileOf tile fun m n => c.elem s ds tile m n

/-- The operation starts, and the group goes on. -/
def Ctx.startAcc (c : Ctx) (i : Instr) (ds : DSlots) (cap : AnvilCap) (tags : List (Nat × Nat)) (s : State) : State :=
  c.advance i (s.startOp c.gk ds.wmask (DSlots.slot ds) false (1#32 <<< c.gnum) false cap tags)

/-- ACC_ZERO (R243): clears n accumulator tiles to +0. -/
def execAccZero (h : Hdr) (ds : DSlots) (d n : Reg) (s : State) : Out :=
  accOp (.accZero h ds d n) ds s fun c s =>
    c.startAcc (.accZero h ds d n) ds (.known ((span d.toNat n.toNat).flatMap fun t => tileOf t fun _ _ => 0)) [] s

/-- Element (m, n) of a tile in registers (R234). -/
def Ctx.tileReg (c : Ctx) (s : State) (ty : Sys2Proof.Ty) (a : Reg) (m n : Nat) : Nat :=
  let l := m + 16 * (n / 8)
  let j := n % 8 * ty.bytes
  if (c.g.lane l).lst = .absent then 0
  else field (c.g.rv s.fresh l (a.toNat + j / 4)).toNat (8 * (j % 4)) (8 * ty.bytes)

/-- A value entering the accumulator (R244). -/
def accIn (ty : Sys2Proof.Ty) (w : Nat) : BitVec 40 :=
  BitVec.ofNat 40 (roundAcc (if ty.isFloat then decodeF (fmtOf ty) w else FVal.ofInt (intVal ty w)))

/-- ACC_LD (R244): loads an accumulator tile exactly from lane registers. -/
def execAccLd (h : Hdr) (ds : DSlots) (ty : Ty) (d a : Reg) (s : State) : Out :=
  accOp (.accLd h ds ty d a) ds s fun c s =>
    c.startAcc (.accLd h ds ty d a) ds (.known (tileOf d.toNat fun m n => accIn ty (c.tileReg s ty a m n))) [] s

/-- ACC_MOV (R243): copies one accumulator tile to another bit for bit. -/
def execAccMov (h : Hdr) (ds : DSlots) (d a : Reg) (s : State) : Out :=
  accOp (.accMov h ds d a) ds s fun c s =>
    c.startAcc (.accMov h ds d a) ds (.mov d.toNat a.toNat (c.tileIn s ds a.toNat)) [] s

/-- ACC_ADD (R243): adds two accumulator tiles element by element with one rounding. -/
def execAccAdd (h : Hdr) (ds : DSlots) (d a b : Reg) (s : State) : Out :=
  accOp (.accAdd h ds d a b) ds s fun c s =>
    c.startAcc (.accAdd h ds d a b) ds (.add d.toNat a.toNat b.toNat (c.tileIn s ds a.toNat) (c.tileIn s ds b.toNat)) [] s

/-- ACC_SCALE (R243): scales an accumulator tile by per-row and per-column powers of two. -/
def execAccScale (h : Hdr) (ds : DSlots) (d a b : Reg) (s : State) : Out :=
  accOp (.accScale h ds d a b) ds s fun c s =>
    let es := lanes32.map fun l => if (c.g.lane l).lst = .absent then (0 : Int) else (c.v s l b).toInt
    c.startAcc (.accScale h ds d a b) ds (.scale d.toNat a.toNat (c.tileIn s ds a.toNat) es) [] s

/-! Draining (R245, R246). -/

/-- The block of a drain without one. -/
def Tpb.zero : Tpb := ⟨0, false, false, 0, 0⟩

/-- A block read from its 64 bytes, where R245 accepts it. -/
def tpbParse (bs : List Byte) : Option Tpb :=
  if recField bs 0 2 = 6 ∧ recField bs 2 1 < 32 ∧ recField bs 3 1 < 4 ∧ recZero bs 0x10 48 = true then
    some ⟨recField bs 2 1, field (recField bs 3 1) 0 1 == 1, field (recField bs 3 1) 1 1 == 1, wordOf (recField bs 4 4),
      dwordOf (recField bs 8 8)⟩
  else none

/-- The block at the address of one lane's pair, or the fault of reading it. -/
def Ctx.tpbRead (c : Ctx) (s : State) (l : Nat) (b : Reg) : Sum Chk Tpb :=
  let a := (c.pair s l b).toNat
  if a ≥ 2 ^ 55 ∨ a % 64 ≠ 0 then .inl (.bad 10 .tpbDesc 0 a)
  else
    match c.readRecord s a 64 with
    | .inl e => .inl e
    | .inr bs =>
      match tpbParse bs with
      | some x => .inr x
      | none => .inl (.bad 10 .tpbDesc 0 a)

/-- The registers of one lane (R234). -/
def drainWr (ty : Sys2Proof.Ty) (d : Reg) (l : Nat) (f : Nat → Nat → Nat) : Wr :=
  let per := 4 / ty.bytes
  ⟨(span 0 ty.tileRegs).map fun i =>
    (d.toNat + i, wordOf (sumN ((span 0 per).map fun j => f (l % 16) (8 * (l / 16) + per * i + j) * 2 ^ (8 * ty.bytes * j)))), []⟩

/-- ACC_DRAIN (R245): starts a long-latency conversion of an accumulator tile into lane registers, optionally under a tile parameter block. -/
def execAccDrain (h : Hdr) (ds : DSlots) (la : BitVec 4) (ty : Ty) (tpb : Bool) (d a b : Reg) (s : State) : Out :=
  accOp (.accDrain h ds la ty tpb d a b) ds s fun c s =>
    let i := Instr.accDrain h ds la ty tpb d a b
    let l0 := c.lead.getD 0
    match if tpb then c.tpbRead s l0 b else .inr Tpb.zero with
    | .inl e =>
      match c.asks (1#32 <<< l0) (fun _ => e), c.pickFault c.path false fun _ => e with
      | x :: xs, _ => c.askRecords (x :: xs) s
      | [], some f => c.pendFault i la c.path f s
      | [], none => c.advance i s
    | .inr x =>
      let sr := x.srFor ty && s.svc ≠ .normal
      let f := fun m n => drainElem ty x sr a.toNat m n (c.elem s ds a.toNat m n)
      let s' := if x.srFor ty && s.svc = .normal then s.updGroup c.gk fun g => { g with srbign := true } else s
      let s' := s'.startOp c.gk ds.wmask (DSlots.slot ds) false (1#32 <<< c.gnum) false
        (.drain c.gk c.n0 ty x sr d.toNat a.toNat) []
      c.advance i (c.startPend i ((Mask.lanes c.path).map fun l => PLane.of l (c.window la) (drainWr ty d l f)) s')

/-! Spill and fill (R247). -/

/-- The checks of an image's address. -/
def Ctx.imageChk (c : Ctx) (s : State) (ea : DWord) (acc : Acc) : Sum Chk Image5 :=
  let n := ea.toNat
  if !windowClean ea then .inl (.bad 1 .badWindow 0 n)
  else
    match spaceCode ea with
    | 0 =>
      if n % 128 ≠ 0 then .inl (.bad 3 .misaligned 0 n)
      else
        let cs := (span 0 10).map fun i => c.gridChk s (n + 128 * i) 128 acc
        match worst cs with
        | .bad row cc aux a => .inl (.bad row cc aux a)
        | _ => .inr (.lines (cs.filterMap fun x => match x with | .ok t => some t | _ => none))
    | 1 =>
      let off := n % 2 ^ 32
      if off + 1280 > c.l.k.priv then .inl (.bad 5 .privateRange 0 n) else .inl (.bad 10 .badWindow 0 n)
    | 2 =>
      if field n 23 3 ≠ c.t.tagCore ∨ field n 26 5 ≠ c.t.tagSlot then .inl (.bad 4 .spaceForeign 0 n)
      else if n % 128 ≠ 0 ∨ n % 2 ^ 23 + 1280 > c.t.scratchBytes then .inl (.bad 10 .matrixAddr 0 n)
      else .inr (.scratch (n % 2 ^ 23))
    | 4 => .inl (.bad 2 .apertureAccess 0 n)
    | _ => .inl (.bad 10 .badWindow 0 n)

/-- Bytes of a line of an image; those of another package come with its answer. -/
def fillLine (s : State) : Target → List Byte
  | .mem pa tag => s.readBytes tag pa 128
  | _ => List.replicate 128 0

/-- A request for a line that lies in another package (R106). -/
def Ctx.fillAsk (c : Ctx) (l : Nat) (acc : State × List (Nat × Nat)) (x : Nat × Target) : State × List (Nat × Nat) :=
  let (s, tags) := acc
  match x.2 with
  | .remote pkg d va =>
    let tag := s.nextTag
    match s.tryRequest 0 (.lane c.gk l) pkg d (natBytes 2 128 ++ [0]) { Remote.blank with isLoad := true, dest := .fill c.tuid, pc := c.ipc, va := va } with
    | some s' => (s', tags ++ [(tag, x.1)])
    | none => (s, tags)
  | .mem pa tag => ((s.needMem pa).askHome ⟨pa / 128, 1, duelOf c.l.classH, c.l.classH, c.t.core, false, tag, none, 0⟩, tags)
  | _ => acc

/-- The translations that the lines of an image use (R346). -/
def Ctx.imageXlates (c : Ctx) (ea : DWord) (s : State) : State :=
  if spaceCode ea ≠ 0 then s
  else (dedup ((span 0 10).map fun i => (ea.toNat + 128 * i) / 2 ^ 16)).foldl
    (fun s page => s.noteXlate c.part c.t.core c.l.classH (page * 2 ^ 16)) s

/-- As the check of an image ends: a fault at the instruction, a park, or the transfer. -/
def Ctx.image (c : Ctx) (s : State) (a : Reg) (acc : Acc) (k : Nat → Image5 → State → State) : State :=
  let l := c.lead.getD 0
  match c.imageChk s (c.pair s l a) acc with
  | .inl e =>
    match c.pickFault c.path (acc = .write) fun _ => e with
    | some f => s.takeFault c.gk f
    | none => s
  | .inr (.scratch off) =>
    match s.scratchPark [(c.tuid, off, 1280)] with
    | .none => k l (.scratch off) s
    | p => s.parkFor c.gk p
  | .inr x => k l x (c.imageXlates (c.pair s l a) s)

/-- ACC_SPILL (R247): writes an accumulator tile as a 1,280-byte image to global memory or scratchpad. -/
def execAccSpill (h : Hdr) (ds : DSlots) (a b : Reg) (s : State) : Out :=
  accOp (.accSpill h ds a b) ds s fun c s =>
    c.image s a .write fun l x s =>
      c.startAcc (.accSpill h ds a b) ds (.spill c.gk l c.ipc b.toNat (c.tileIn s ds b.toNat) x false) [] s

/-- ACC_FILL (R247): loads an accumulator tile from a 1,280-byte image. -/
def execAccFill (h : Hdr) (ds : DSlots) (d a : Reg) (s : State) : Out :=
  accOp (.accFill h ds d a) ds s fun c s =>
    c.image s a .read fun l x s =>
      let bs := match x with
        | .scratch off => s.readScratch c.t off 1280
        | .lines ts => ts.flatMap (fillLine s)
      let r := match x with
        | .scratch off => (s.touch c.t off 1280, [])
        | .lines ts => ((span 0 10).zip ts).foldl (c.fillAsk l) (s, [])
      c.startAcc (.accFill h ds d a) ds (.fill d.toNat bs x) r.2 r.1

/-! Gangs and slots. -/

/-- Groups parked in `gang.form` with another mask that shares a group with `m` (R249). -/
def State.formClash (s : State) (tuid : Nat) (m : Mask) : List Nat :=
  ((s.teamGroups tuid).filter fun x =>
    match x.2.park with
    | .gangForm m' _ => m' ≠ m && m' &&& m ≠ 0
    | _ => false).map (·.1)

/-- GANG_FORM (R249): parks the group until every group of the mask has executed gang.form with the same mask, then forms the gang. -/
def execGangForm (h : Hdr) (a : Reg) (s : State) : Out :=
  groupOp (.gangForm h a) s fun c s =>
    let m := c.v s (c.lead.getD 0) a
    let n := Mask.count m
    if n < 2 ∨ n > c.l.k.gang ∨ !(m.getLsbD c.gnum) ∨ ((Mask.lanes m).any fun i => decide (i ≥ c.t.groups)) = true ∨ c.g.gang ≠ 0 then
      c.trap .gangMask (c.realOf c.path) s
    else if ((Mask.lanes m).any fun i => match s.group? (c.tuid * 32 + i) with | some g => g.ended | none => true) then
      c.trap .gangExit (c.realOf c.path) s
    else
      match s.formClash c.tuid m with
      | [] => (s.updGroup c.gk fun g => { g with park := .gangForm m (.gangForm h a) }).tryForm c.tuid m
      | gks =>
        gks.foldl (fun s gk => (s.updGroup gk fun g => { g with park := .none }).trapGroup gk .gangMask)
          (c.trap .gangMask (c.realOf c.path) s)

/-- GANG_BRK (R250): waits until the gang's slots are not busy, then dissolves the gang and releases its A reuse latch. -/
def execGangBrk (h : Hdr) (s : State) : Out :=
  groupOp (.gangBrk h) s fun c s =>
    if c.g.gang = 0 then c.advance (.gangBrk h) s
    else if s.slotsBusy c.gk 255 then s.updGroup c.gk fun g => { g with park := .dslots 255 }
    else
      let s := s.gangExit c.tuid (c.g.gang &&& ~~~(1#32 <<< c.gnum))
      let s := (Mask.lanes c.g.gang).foldl (fun s i =>
        s.updGroup (c.tuid * 32 + i) fun g => { g with gang := 0, areuse := none }) s
      c.advance (.gangBrk h) (s.updTeam c.tuid fun t => { t with gangs := t.gangs.filter fun x => x.members ≠ c.g.gang })

/-- DSLOT_WAIT (R251): stalls the group until every dependency slot of WMASK is not busy. -/
def execDslotWait (h : Hdr) (wmask : BitVec 8) (s : State) : Out :=
  issue (.dslotWait h wmask) s fun c act s =>
    if act = 0 then c.advance (.dslotWait h wmask) s
    else if s.slotsBusy c.gk wmask then s.updGroup c.gk fun g => { g with park := .dslots wmask }
    else
      let ns := s.slotNs c.gk
      let live := Mask.ofPred fun i => (s.teamGroups c.tuid).any fun x => x.1 % 32 == i
      c.advance (.dslotWait h wmask) (s.updTeam c.tuid fun t =>
        Team.retire { t with
          anvil := t.anvil.map fun y => if y.named ns wmask then { y with seen := y.seen ||| (1#32 <<< c.gnum) } else y } s.fresh live)

end Sys2Proof.Machine
end

