-- ==== Sys2Proof/Machine/Events.lean ====
section
/-! DEFINITION. Group 12: barriers (R253-R255), events and handlers (R258-R262), mailboxes (R263), timelines (R264) and guard
slots (R265). -/

namespace Sys2Proof.Machine

/-! Barriers. -/

/-- The token of each lane that arrives: the open phase, or the next where the lane is recorded in the open one (R253). -/
def Barrier.token (b : Barrier) (gk l : Nat) : Word :=
  wordOf (if (SMap.getD b.cur gk 0#32).getLsbD l then b.phase + 1 else b.phase)

/-- Record lanes in the phases that they arrive in (R253). -/
def Barrier.arrive (b : Barrier) (gk : Nat) (m : Mask) : Barrier :=
  let cur := SMap.getD b.cur gk 0#32
  let again := m &&& cur
  { b with
    cur := SMap.put b.cur gk (cur ||| m)
    nxt := if again = 0 then b.nxt else SMap.put b.nxt gk (SMap.getD b.nxt gk 0#32 ||| again) }

/-- Lanes wait at the instruction, each by its number; the other lanes of the path go on. -/
def Ctx.waitEach (c : Ctx) (i : Instr) (act : Mask) (f : Nat → LaneWait) (s : State) : State :=
  let s := s.updGroup c.gk fun g =>
    Group.closeWindows s.fresh
      (g.updLanes fun l ln => if act.getLsbD l then { ln with wait := f l, ilen := i.len } else ln) act c.n0
  c.moveSome i (c.path &&& ~~~act) s

/-- Wait until the phases of the tokens have completed (R255); each completed phase that is passed here is acquired. -/
def Ctx.barWait (c : Ctx) (i : Instr) (lvl : BarLevel) (k : Nat) (act : Mask) (tok : Nat → Word) (s : State) : State :=
  let done := fun l => phaseDone (s.bar lvl c.tuid k).phase (tok l)
  if (Mask.lanes act).all done then
    c.advance i (((Mask.lanes act).foldl (fun s l => s.observeOps c.gk (barEvent lvl k (tok l))) s).acquire c.gk act)
  else c.waitEach i act (fun l => .bar lvl k (tok l)) s

/-- Some lane is recorded in the next phase already: its path waits for the open phase and retries (R253). -/
def Barrier.full (b : Barrier) (gk : Nat) (m : Mask) : Bool := SMap.getD b.nxt gk 0#32 &&& m ≠ 0

/-- An instruction that arrives: `k` goes on with the tokens (R253). -/
def Ctx.arrive (c : Ctx) (lvl : BarLevel) (j : Nat) (act : Mask) (s : State) (k : (Nat → Word) → State → State) : State :=
  let b := s.bar lvl c.tuid j
  if b.full c.gk act then c.holdLanes c.path (.retry lvl j b.phase) s
  else
    let tok := fun l => b.token c.gk l
    let s := (Mask.lanes act).foldl (fun s l => s.carryOps c.gk (barEvent lvl j (tok l))) s
    k tok (if act = 0 then s else s.setBar lvl c.tuid j (b.arrive c.gk act))

/-- The three forms of a barrier instruction (R255). -/
def Ctx.barrier (c : Ctx) (i : Instr) (lvl : BarLevel) (mode : BarMode) (k : Nat) (d a : Reg) (act : Mask) (s : State) : State :=
  match mode with
  | .arrive => c.arrive lvl k act s fun tok s => c.advance i (s.writeLanes c.gk act fun l => .v d (tok l))
  | .wait => c.barWait i lvl k act (fun l => c.v s l a) s
  | .sync => c.arrive lvl k act s fun tok s => if act = 0 then c.advance i s else c.barWait i lvl k act tok s

/-- BAR_ARRIVE (R253): records each active lane's arrival at a team barrier and writes its phase token. -/
def execBarArrive (h : Hdr) (d b : Reg) (s : State) : Out :=
  issue (.barArrive h d b) s fun c act s => c.barrier (.barArrive h d b) .team .arrive b.toNat d 0 act s

/-- BAR_WAIT (R255): parks the path until the phase named by each lane's token has completed. -/
def execBarWait (h : Hdr) (a b : Reg) (s : State) : Out :=
  issue (.barWait h a b) s fun c act s => c.barrier (.barWait h a b) .team .wait b.toNat 0 a act s

/-- BAR_SYNC (R255): arrives at a team barrier and waits on the token received. -/
def execBarSync (h : Hdr) (b : Reg) (s : State) : Out :=
  issue (.barSync h b) s fun c act s => c.barrier (.barSync h b) .team .sync b.toNat 0 0 act s

/-- A die or package barrier: BAR_SCOPE without the span-barrier flag (R255). -/
def Ctx.spanBarrier (c : Ctx) (i : Instr) (lvl : BarLevel) (mode : BarMode) (k : Nat) (d a : Reg) (act : Mask) (s : State) :
    State :=
  if act ≠ 0 ∧ !c.l.k.spanbar then c.trapOr i .barScope act s else c.barrier i lvl mode k d a act s

/-- BAR_DIE (R255): arrives at, waits on, or syncs at a die barrier by its mode field. -/
def execBarDie (h : Hdr) (mode : BarMode) (d a b : Reg) (s : State) : Out :=
  issue (.barDie h mode d a b) s fun c act s => c.spanBarrier (.barDie h mode d a b) .die mode b.toNat d a act s

/-- BAR_PKG (R255): arrives at, waits on, or syncs at a package barrier by its mode field. -/
def execBarPkg (h : Hdr) (mode : BarMode) (d a b : Reg) (s : State) : Out :=
  issue (.barPkg h mode d a b) s fun c act s => c.spanBarrier (.barPkg h mode d a b) .pkg mode b.toNat d a act s

/-! Events. -/

/-- Handler address, watched object and register of an entry (Table 11-2); none where R260 refuses the entry. -/
structure EvRec where
  kind : Nat
  obj : Nat
  reg : Nat
  handler : DWord
  deriving DecidableEq, Repr

def evRecOf (spanbar : Bool) (bs : List Byte) : Option EvRec :=
  let kind := recField bs 0 1
  let obj := recField bs 1 1
  let reg := recField bs 2 1
  let handler := dwordOf (recField bs 8 8)
  let lvl := field obj 4 2
  let objOk :=
    match kind with
    | 0 => field obj 6 2 == 0 && lvl ≤ 2 && (lvl == 0 || (decide (obj % 16 ≤ 3) && spanbar))
    | 1 => obj / 16 == 0
    | 2 => obj / 4 == 0 && reg == 0
    | _ => false
  if objOk && recZero bs 3 5 && (codeBad handler).isNone then some ⟨kind, obj, reg, handler⟩ else none

/-- The entries of an event-set record, or the fault of reading it (R260). -/
def Ctx.evRead (c : Ctx) (s : State) (a : Nat) : Sum Chk (List EvRec) :=
  let bad : Sum Chk (List EvRec) := .inl (.bad 10 .evDesc 0 a)
  if a ≥ 2 ^ 55 ∨ a % 64 ≠ 0 then bad
  else
    match c.readRecord s a 64 with
    | .inl e => .inl e
    | .inr hd =>
      let n := recField hd 2 1
      if recField hd 0 2 ≠ 2 ∨ n = 0 ∨ n > 8 ∨ recZero hd 3 61 = false then bad
      else
        match c.readRecord s (a + 64) (16 * n) with
        | .inl e => .inl e
        | .inr bs =>
          let es := (span 0 n).map fun i => evRecOf c.l.k.spanbar ((bs.drop (16 * i)).take 16)
          if es.any fun x => x.isNone then bad else .inr (es.filterMap id)

/-- A REG that raises REG_RANGE (R260). -/
def Ctx.evRegBad (c : Ctx) (x : EvRec) : Bool :=
  match x.kind with
  | 0 => decide (x.reg + 1 > 32 * c.g.nb)
  | 1 => x.reg % 2 == 1 || decide (x.reg + 2 > 32 * c.g.nb)
  | _ => false

/-- What an entry watches, with the value of its register in the lowest real live lane (R260). -/
def Ctx.evWatch (c : Ctx) (s : State) (x : EvRec) : EvWatch :=
  let l := c.lead.getD 0
  let w := c.g.rv s.fresh l x.reg
  match x.kind with
  | 0 => .bar (match field x.obj 4 2 with | 0 => .team | 1 => .die | _ => .pkg) (x.obj % 16) w
  | 1 => .tl (x.obj % 16) (pairOf w (c.g.rv s.fresh l (x.reg + 1)))
  | _ => .mbox (x.obj % 4)

/-- Arm the entries of a mask from a record (R260). -/
def Ctx.evArmGroup (c : Ctx) (s : State) (a : DWord) (m : Nat) (es : List EvRec) (g : Group) : Group :=
  let g := if g.armed = some a then { g with evs := s.latched c.gk g } else { g with evs := List.replicate 8 EvEntry.reset, armed := some a }
  let g := { g with
    evs := (span 0 8).map fun i =>
      match es.drop i with
      | x :: _ => if m / 2 ^ i % 2 = 1 then ⟨.armed, c.evWatch s x, x.handler⟩ else atD g.evs i EvEntry.reset
      | [] => atD g.evs i EvEntry.reset }
  -- conditions are tested in the same cycle
  { g with evs := s.latched c.gk g }

/-- The record of an event instruction, checked: `k` goes on with its entries. -/
def Ctx.withRecord (c : Ctx) (a : DWord) (s : State) (k : List EvRec → State) : State :=
  match c.evRead s a.toNat with
  | .inl e =>
    match c.asks (1#32 <<< c.lead.getD 0) (fun _ => e), c.pickFault c.path false fun _ => e with
    | x :: xs, _ => c.askRecords (x :: xs) s
    | [], some f => s.takeFault c.gk f
    | [], none => s
  | .inr es => if es.any c.evRegBad then c.trap .regRange (c.realOf c.path) s else k es

/-- EV_ARM (R260): reads and checks an event-set record and arms the named entries. -/
def execEvArm (h : Hdr) (a m : Reg) (s : State) : Out :=
  groupOp (.evArm h a m) s fun c s =>
    let ra := c.pair s (c.lead.getD 0) a
    c.withRecord ra s fun es => c.advance (.evArm h a m) (s.updGroup c.gk fun g => c.evArmGroup s ra m.toNat es g)

/-- %evm after `ev.mask` (R261). -/
def maskOp (op : MaskOp) (old m : BitVec 8) : BitVec 8 :=
  match op with
  | .wr => m
  | .set => old ||| m
  | .clr => old &&& ~~~m

/-- EV_MASK (R261): writes, sets or clears bits of the group's event mask. -/
def execEvMask (h : Hdr) (op : MaskOp) (m : Reg) (s : State) : Out :=
  issue (.evMask h op m) s fun c act s =>
    c.advance (.evMask h op m) (if act = 0 then s else s.updGroup c.gk fun g => { g with evm := maskOp op g.evm m })

/-- EV_CLEAR (R261): makes latched entries spent and armed entries disarmed. -/
def execEvClear (h : Hdr) (m : Reg) (s : State) : Out :=
  issue (.evClear h m) s fun c act s =>
    c.advance (.evClear h m)
      (if act = 0 then s
       else s.updGroup c.gk fun g => Group.clearEvents { g with evs := s.latched c.gk g } m.toNat true)

/-- Steps 2 to 4 of `wany` for a group whose entries stand as `g` says (R262). -/
def Ctx.wanyGo (c : Ctx) (i : Instr) (g : Group) (s : State) : State :=
  let s := s.dropRecs (.group c.gk)
  match g.firstEvent with
  | some e => (s.updGroup c.gk fun _ => g).enter c.gk e i.len
  | none =>
    if (span 0 8).any fun j => (atD g.evs j EvEntry.reset).est == .armed && !g.evm.getLsbD j then
      s.updGroup c.gk fun _ => { g with park := .wany i }
    else c.trap .wanyEmpty (c.realOf c.path) s

/-- WANY (R262): serves the lowest latched unmasked event entry, or parks until one latches, or traps when none can. -/
def execWany (h : Hdr) (a : Reg) (s : State) : Out :=
  groupOp (.wany h a) s fun c s =>
    let ra := c.pair s (c.lead.getD 0) a
    if c.g.armed = some ra then c.wanyGo (.wany h a) { c.g with evs := s.latched c.gk c.g } s
    else c.withRecord ra s fun es => c.wanyGo (.wany h a) (c.evArmGroup s ra 255 es c.g) s

/-! Mailboxes (R263). -/

/-- One lane's post. -/
def Ctx.postLane (c : Ctx) (slot : Nat) (d a b : Reg) (s0 s : State) (l : Nat) : State :=
  let tgt := (c.v s0 l a).toNat
  let (s, ok) : State × Bool :=
    match c.teamNum s (tgt / 32) with
    | none => (s, false)
    | some (u, t) =>
      let gk := u * 32 + tgt % 32
      match s.group? gk with
      | none => (s, false)
      | some g =>
        if t.tst = .done || (atD g.mbox slot none).isSome then (s, false)
        else
          let s := s.updGroup gk fun g => { g with mbox := setAt g.mbox slot (some (c.v s0 l b)) }
          let s := if u = c.tuid then s.carryOps c.gk (mboxEvent gk slot) else s
          (s.testEvents gk, true)
  s.writeLanes c.gk (1#32 <<< l) fun _ => .p d ok

/-- MBOX_POST (R263): writes each active real lane's message into a target group's mailbox slot if it is empty. -/
def execMboxPost (h : Hdr) (slot : BitVec 2) (d a b : Reg) (s : State) : Out :=
  issue (.mboxPost h slot d a b) s fun c act s =>
    let real := c.realOf act
    let out := Mask.ofPred fun l => real.getLsbD l &&
      (decide ((c.v s l a).toNat / 32 ≥ c.l.teams) || decide ((c.v s l a).toNat % 32 ≥ c.l.groupsPer))
    if out ≠ 0 then c.trap .mboxTarget out s
    else c.advance (.mboxPost h slot d a b) ((Mask.lanes real).foldl (c.postLane slot.toNat d a b s) s)

/-- MBOX_READ (R263): takes the message of the group's own mailbox slot once for the whole instruction. -/
def execMboxRead (h : Hdr) (slot : BitVec 2) (d p : Reg) (s : State) : Out :=
  issue (.mboxRead h slot d p) s fun c act s =>
    let i := slot.toNat
    if act = 0 then c.advance (.mboxRead h slot d p) s
    else
      let msg := atD c.g.mbox i none
      let s := (s.updGroup c.gk fun g => { g with mbox := setAt g.mbox i none }).observeOps c.gk (mboxEvent c.gk i)
      let s := s.updTeam c.tuid fun t => { t with
        anvil := t.anvil.map fun y => { y with carry := y.carry.filter fun k => k ≠ mboxEvent c.gk i } }
      let s := if msg.isSome then s.acquire c.gk act else s
      c.advance (.mboxRead h slot d p)
        (s.writeLanes c.gk act fun _ => (Wr.v d (msg.getD 0)).and (.p p msg.isSome))

/-! Timelines (R264). -/

/-- TL_WAIT (R264): parks the path until the timeline value reaches each active lane's operand, observing it. -/
def execTlWait (h : Hdr) (a b : Reg) (s : State) : Out :=
  issue (.tlWait h a b) s fun c act s =>
    let v := (s.chan (c.chanKey b.toNat)).value
    if (Mask.lanes act).all fun l => decide ((c.pair s l a).toNat ≤ v) then c.advance (.tlWait h a b) (s.acquire c.gk act)
    else c.waitEach (.tlWait h a b) act (fun l => .tl b.toNat (c.pair s l a)) s

/-- TL_READ (R264): writes the timeline's value, or with .err its highest errored command number. -/
def execTlRead (h : Hdr) (err : Bool) (d b : Reg) (s : State) : Out :=
  issue (.tlRead h err d b) s fun c act s =>
    let x := s.chan (c.chanKey b.toNat)
    c.advance (.tlRead h err d b)
      ((s.acquire c.gk act).writeLanes c.gk act fun _ => Wr.pair d (dwordOf (if err then x.errNum else x.value)))

/-- TL_TRY (R264): tests whether the timeline value reaches each lane's operand without waiting. -/
def execTlTry (h : Hdr) (d a b p : Reg) (s : State) : Out :=
  issue (.tlTry h d a b p) s fun c act s =>
    let v := (s.chan (c.chanKey b.toNat)).value
    let met := fun (l : Nat) => decide ((c.pair s l a).toNat ≤ v)
    c.advance (.tlTry h d a b p)
      ((s.acquire c.gk (Mask.ofPred fun l => act.getLsbD l && met l)).writeLanes c.gk act fun l =>
        if met l then (Wr.pair d (dwordOf v)).and (.p p true) else .p p false)

/-! Guard slots (R265). -/

/-- GSLOT_SET (R265): resolves a guard slot to the predicate of the lowest active real lane. -/
def execGslotSet (h : Hdr) (a b : Reg) (s : State) : Out :=
  issue (.gslotSet h a b) s fun c act s =>
    c.advance (.gslotSet h a b)
      (match Mask.lowest (c.realOf act) with
      | some l => (s.updGroup c.gk fun g => { g with guards := setAt g.guards b.toNat (if c.p s l a then .isTrue else .isFalse) }).latchHeads
      | none => s)

/-- GSLOT_CLR (R265): returns a guard slot to UNRESOLVED. -/
def execGslotClr (h : Hdr) (b : Reg) (s : State) : Out :=
  issue (.gslotClr h b) s fun c act s =>
    c.advance (.gslotClr h b)
      (if act = 0 then s else s.updGroup c.gk fun g => { g with guards := setAt g.guards b.toNat .unresolved })

end Sys2Proof.Machine
end

