-- ==== Sys2Proof/Machine/System.lean ====
section
/-! DEFINITION. Groups 13 and 14: launches and the tape (R271, R272), current leave (R273), regions (R274, R275), the register
budget (R276), special registers and time (R277), traps (R278) and `xret` (R279). -/

namespace Sys2Proof.Machine

/-! Launches. -/

/-- The 64 bytes of a record in 16 registers (R271). -/
def Ctx.recordBytes (c : Ctx) (s : State) (l : Nat) (b : Reg) : List Byte :=
  (span b.toNat 16).flatMap fun r => natBytes 4 (c.g.rv s.fresh l r).toNat

/-- Free records of the pending-launch store (R317). -/
def Part.storeFree (pt : Part) : Nat := 4096 - (pt.store.length + pt.plsRes)

/-- One lane's `launch` (R271, R317). -/
def Ctx.launchLane (c : Ctx) (d p a b : Reg) (s0 s : State) (l : Nat) : State :=
  let q := (c.v s0 l a).toNat % 2 ^ 16
  let pt := s.part c.part
  let w : Nat :=
    if q > 63 then 2
    else if c.l.classH && !(s.queue c.part q).classH then 3
    else if pt.storeFree = 0 then 1
    else 0
  let s :=
    if w = 0 then
      s.setPart c.part { pt with
        store := pt.store ++ [{ queue := q, bytes := c.recordBytes s0 l b, tapeH := false, prior := none, popOrder := none
                                stream := none, fireAt := 0, addr := 0 }] }
    else s
  s.writeLanes c.gk (1#32 <<< l) fun _ => (Wr.v d (wordOf w)).and (.p p (w == 0))

/-- LAUNCH (R271): submits a launch record per active real lane to the pending-launch store and writes a status. -/
def execLaunch (h : Hdr) (d a b p : Reg) (s : State) : Out :=
  issue (.launch h d a b p) s fun c act s =>
    c.advance (.launch h d a b p) ((Mask.lanes (c.realOf act)).foldl (c.launchLane d p a b s) s)

/-- Records that the tape holds at most: 64 on chip and 65,536 in its region (R272). -/
def tapeMax : Nat := 65600

/-- The global address of a record beyond the first 64 of the tape (R318). -/
def tapeSlot (pt : Part) (n : Nat) : Nat := (pt.tapeBase.toNat + 64 * (n - 64)) % 2 ^ 55

/-- The agent by which the units of a partition translate: the die of its first cluster. -/
def State.unitAgent (s : State) (p : Nat) : Nat := 384 + (s.clustersOf p).headD 0 / 24

/-- A record that the tape spills to TAPEBASE (R318): the bytes of record `n`, where it is not among the first 64. One whose address
does not translate is lost, and cannot be read back. -/
def State.spillTape (s : State) (p n : Nat) (classH : Bool) (bs : List Byte) : State :=
  if n < 64 then s
  else
    match s.translate p (s.unitAgent p) .write (tapeSlot (s.part p) n) with
    | .mem pa tag => ((s.needMem pa).writeBytes tag pa bs).askWrite (8 * (s.clustersOf p).headD 0) classH tag (pa / 128)
    | .remote pkg d => (s.tryRequest 2 (.take p classH) pkg d bs { Remote.blank with va := tapeSlot (s.part p) n }).getD s
    | _ => s

/-- One lane's `tape.push` (R272, R317, R318). -/
def Ctx.tapeLane (c : Ctx) (d p b : Reg) (s0 s : State) (l : Nat) : State :=
  let pt := s.part c.part
  let ok := decide (pt.tape.length < tapeMax) && pt.storeFree ≠ 0
  let s :=
    if ok then
      let bs := c.recordBytes s0 l b
      (s.setPart c.part { pt with tape := pt.tape ++ [⟨bs, c.l.classH, recField bs 0x17 1⟩], plsRes := pt.plsRes + 1 }).spillTape
        c.part pt.tape.length c.l.classH bs
    else s
  s.writeLanes c.gk (1#32 <<< l) fun _ => (Wr.v d (if ok then 0 else 1)).and (.p p ok)

/-- TAPE_PUSH (R272): pushes a record per active real lane onto the partition's backward tape, reserving its pop. -/
def execTapePush (h : Hdr) (d b p : Reg) (s : State) : Out :=
  issueMem (.tapePush h d b p) s fun c act s =>
    c.advance (.tapePush h d b p) ((Mask.lanes (c.realOf act)).foldl (c.tapeLane d p b s) s)

/-! Current leave (R273). -/

def LeaveCls.bit : Sys2Proof.LeaveCls → Nat
  | .mx => 0 | .mc => 1 | .gs => 2 | .vw => 3

def setLeave (m : BitVec 4) (k : Nat) (b : Bool) : BitVec 4 := if b then m ||| (1#4 <<< k) else m &&& ~~~(1#4 <<< k)

/-- `leave.req` completes once leave of its class is held; until then the group waits for Bellows. -/
def execLeaveReq (h : Hdr) (cls : LeaveCls) (s : State) : Out :=
  issue (.leaveReq h cls) s fun c act s =>
    if act = 0 ∨ c.g.leaveHeld.getLsbD (LeaveCls.bit cls) = true then c.advance (.leaveReq h cls) s
    else s.updGroup c.gk fun g =>
      { g with
        leaveWant := setLeave g.leaveWant (LeaveCls.bit cls) true
        leaveSince := if g.leaveWant = 0 then s.now else g.leaveSince }

/-- LEAVE_REL (R273): returns the group's current leave of the named class. -/
def execLeaveRel (h : Hdr) (cls : LeaveCls) (s : State) : Out :=
  issue (.leaveRel h cls) s fun c act s =>
    c.advance (.leaveRel h cls)
      (if act = 0 then s else s.updGroup c.gk fun g => { g with leaveHeld := setLeave g.leaveHeld (LeaveCls.bit cls) false })

/-! Regions (R274, R275). -/

/-- REGION_BEGIN (R274): pushes the address of the next instruction on the group's region stack. -/
def execRegionBegin (h : Hdr) (s : State) : Out :=
  groupOp (.regionBegin h) s fun c s =>
    if c.g.regions.length ≥ c.l.k.region then c.trap .regionState (c.realOf c.path) s
    else
      c.advance (.regionBegin h)
        (s.updGroup c.gk fun g => { g with regions := c.nextPc (.regionBegin h) s :: g.regions })

/-- The innermost region ends: at the outermost, staged commands are applied and complete; else they pass outward (R275). -/
def execRegionEnd (h : Hdr) (s : State) : Out :=
  groupOp (.regionEnd h) s fun c s =>
    match c.g.regions with
    | [] => c.trap .regionState (c.realOf c.path) s
    | _ :: rest =>
      let s := s.updGroup c.gk fun g => { g with regions := rest, closing := none }
      let s := if rest.isEmpty then s.applyGroupStaged c.gk else s
      c.advance (.regionEnd h) (s.lowerRegions c.gk rest.length)

/-! Register budget (R42-R44, R276). -/

/-- REGS_GROW (R42): asks for more register banks, failing at once beyond 8 banks or parking until granted. -/
def execRegsGrow (h : Hdr) (d n : Reg) (s : State) : Out :=
  groupOp (.regsGrow h d n) s fun c s =>
    let i := Instr.regsGrow h d n
    if c.g.nb + n.toNat > 8 then
      c.advance i ((s.writeLanes c.gk c.g.live fun _ => .p d false).updGroup c.gk fun g => { g with gst := 2 })
    else (s.updGroup c.gk fun g => { g with park := .grow d n.toNat i }).growStep c.t.core (c.gnum % 4)

/-- A lane loses the registers beyond its allocation (R42). -/
def Lane.shrink (ln : Lane) (regs : Nat) : Lane := { ln with v := ln.v.filter fun x => decide (x.1 < regs) }

/-- REGS_SHRINK (R42): returns register banks at once, never below one. -/
def execRegsShrink (h : Hdr) (n : Reg) (s : State) : Out :=
  groupOp (.regsShrink h n) s fun c s =>
    let i := Instr.regsShrink h n
    if c.g.nb ≤ n.toNat then c.advance i (s.updGroup c.gk fun g => { g with gst := 3 })
    else
      let nb := c.g.nb - n.toNat
      let s := s.updGroup c.gk fun g => 
        { (g.updLanes fun _ ln => ln.shrink (32 * nb)) with nb := nb, gst := 0, pend := g.pend.map (Pend.dropRegs (32 * nb)) }
      (c.advance i s).growStep c.t.core (c.gnum % 4)

/-! Special registers (R140, R277). -/

/-- SREG_GET (R277): writes a special register to every active lane. -/
def execSregGet (h : Hdr) (d x : Reg) (s : State) : Out :=
  laneOp (.sregGet h d x) s fun c l =>
    if sregRegs x = 2 then Wr.pair d (c.sreg s l x.toNat) else Wr.v d (loW (c.sreg s l x.toNat))

/-- Bits of a special register that a write may set (Tables 2-6, 3-7, 5-6; R140, R261). -/
def sregBits (idx : Nat) : Word :=
  match idx with
  | 0x0B => 3
  | 0x0C => 3
  | 0x0D => 0xFF
  | 0x0E => 0xFF
  | 0x15 => 0x1D
  | _ => ~~~0#32

/-- A value that `sreg.set` refuses (R125, R140). -/
def sregRefuses (idx : Nat) (w : Word) : Bool := w &&& ~~~sregBits idx ≠ 0 || (idx == 0x0B && !(w.toNat < 3 && Config.hasNbv w.toNat))

/-- A write of a special register other than %csp. -/
def Ctx.sregWrite (c : Ctx) (idx : Nat) (w : Word) (s : State) : State :=
  match idx with
  | 0x0B => s.updGroup c.gk fun g => { g with nbv := w.toNat }
  | 0x0C =>
    let s := s.updGroup c.gk fun g => { g with bphase := w.toNat, phaseSince := s.now }
    let s := if s.teamPhase c.tuid ≥ 2 then s.startWake ((s.phaseBanks c.tuid).filter fun b => (s.bank b).pwr ≠ .on) else s
    s.phaseSlices c.tuid
  | 0x0D => s.updGroup c.gk fun g => Group.clearEvents { g with evs := s.latched c.gk g } w.toNat false
  | 0x0E => s.updGroup c.gk fun g => { g with evm := w.setWidth 8 }
  | 0x15 => s.updGroup c.gk fun g => g.clearGstat w
  | _ => s

/-- SREG_SET (R277): writes a special register under its access rules from the active lanes. -/
def execSregSet (h : Hdr) (a x : Reg) (s : State) : Out :=
  issue (.sregSet h a x) s fun c act s =>
    let i := Instr.sregSet h a x
    if x.toNat = 0x0A then
      c.advance i (s.updGroup c.gk fun g => g.updLanes fun l ln => if act.getLsbD l then { ln with csp := c.pair s l a } else ln)
    else
      match Mask.lowest (c.realOf act) with
      | none => c.advance i s
      | some l =>
        if !sregWritable x || sregRefuses x.toNat (c.v s l a) then c.trap .illegalOperand (c.realOf act) s
        else c.advance i (c.sregWrite x.toNat (c.v s l a) s)

/-- RDTIME (R277): writes device time in ns, or with .cyc the core's cluster cycle count. -/
def execRdtime (h : Hdr) (cyc : Bool) (d : Reg) (s : State) : Out :=
  laneOp (.rdtime h cyc d) s fun c _ => Wr.pair d (dwordOf (if cyc then s.cycles c.cl else s.ptime))

/-! Traps and returns. -/

/-- Note where a `trap` or `brk` ends (R331). -/
def Ctx.noteNext (c : Ctx) (i : Instr) (s : State) : State :=
  s.updGroup c.gk fun g => { g with trapNext := some (c.ipc, c.ipc + dwordOf i.len) }

/-- TRAP (R278): raises the precise trap TRAP with a code and the active-lane mask. -/
def execTrap (h : Hdr) (code : BitVec 8) (s : State) : Out :=
  issue (.trap h code) s fun c act s =>
    let real := c.realOf act
    if real = 0 then c.advance (.trap h code) s
    else (c.noteNext (.trap h code) s).takeFault c.gk { c.info .trap real with aux := code.setWidth 64 }

/-- The group is held at the instruction for the debugger, to which the code is reported; released, it goes on after it (R278;
log 21). -/
def execBrk (h : Hdr) (code : BitVec 8) (s : State) : Out :=
  issue (.brk h code) s fun c act s =>
    if act = 0 ∨ (s.part c.part).debugger = false then c.advance (.brk h code) s
    else (c.noteNext (.brk h code) s).updGroup c.gk fun g => { g with halted := true, brkCode := some code.toNat }

/-- XRET (R279): sets every live lane's program counter to the group's return address. -/
def execXret (h : Hdr) (s : State) : Out :=
  groupOp (.xret h) s fun c s =>
    match c.g.retAddr with
    | none => c.trap .xretState (c.realOf c.path) s
    | some a => c.moveTo (fun _ _ => a) s

end Sys2Proof.Machine
end

