-- ==== Sys2Proof/Machine/Schedule.lean ====
section
/-! DEFINITION. Device events about residency: results that land (R150), release waves (R256), Bellows (R371, R372), placement
(R386), eviction and resume (R47, R51), and migration (R342). An event whose moment has not come changes nothing. -/

namespace Sys2Proof.Machine

/-- A pending result that has not landed and that no frame or bank answers. -/
def State.canLand (s : State) (gk id lane : Nat) : Bool :=
  match s.group? gk with
  | none => false
  | some g => g.pend.any fun q => q.id == id && q.lanes.any fun p => p.lane == lane && !p.landed && p.tag.isNone && p.parts.isEmpty

/-- LONG_LATENCY_RESULT (R150): a long-latency instruction's result is written for a lane, releasing its stall point or delivering its fault there. -/
def execLongLatencyResult (gk id lane : Nat) (s : State) : Out :=
  .next (if s.canLand gk id lane then s.landLane gk id lane else s)

/-- A wave of the cluster is due. -/
def State.waveDue (s : State) (cl : Nat) : Bool := (s.cluster cl).waves.any fun w => decide (w.at_ ≤ s.now)

/-- BARRIER_WAVE_RELEASE (R256): a wave of up to WAVE waiting groups is released SPACE cycles after the previous one. -/
def execBarrierWaveRelease (cl : Nat) (s : State) : Out := .next (if s.waveDue cl then s.releaseWave cl else s)

/-! Bellows. -/

/-- The class of leave that covers an instruction (R273): an `mma`, an aperture store that issues a multicast read or a
collective, `hg.grad`, and an instruction of groups 5 to 7 with 32 active lanes. -/
def Instr.vwGroup : Instr → Bool
  | .fadd .. | .fsub .. | .fmul .. | .ffma .. | .fmin .. | .fmax .. | .frnd .. | .fcmp .. | .fclass .. | .fsign .. | .fscale ..
  | .hadd2 .. | .hmul2 .. | .hfma2 .. | .badd2 .. | .bmul2 .. | .bfma2 .. | .fdot2 .. | .bdot2 .. | .qdot4 ..
  | .fcvt .. | .fcvtSr .. | .fcvti .. | .icvtf .. | .fpack .. | .funpack .. | .fbmax .. | .ds8enc .. | .ds8dec ..
  | .frcp .. | .frsq .. | .fsqrt .. | .fexp2 .. | .flog2 .. | .fsin .. | .fcos .. | .ftanh .. | .fsigm .. => true
  | _ => false

/-- An aperture store of the path issues a multicast read or a collective. -/
def Ctx.storesCovered (c : Ctx) (s : State) (x : StArgs) (act : Mask) : Bool :=
  (Mask.lanes (c.realOf act)).any fun l =>
    let ea := c.addr s l .gen x.a x.disp
    spaceCode ea == 4 && x.ty == .b128 &&
      match c.cmdReq s ea.toNat (c.storeData s x l) with
      | .inr r => r.t.kind == .multicast || r.t.kind == .collective
      | .inl _ => false

/-- The class under which an instruction of a path issues; an `mma` is covered where its joint operation starts. -/
def Ctx.covered (c : Ctx) (s : State) (i : Instr) (act : Mask) : Option Nat :=
  match i with
  | .st _ x _ => if c.storesCovered s x act then some 1 else none
  | .hgGrad .. => if act = 0 then none else some 2
  | _ => if Instr.vwGroup i && Mask.count act == 32 then some 3 else none

/-- What a cluster's reserve becomes at the end of a cycle of its clock (R371). -/
def Cluster.reserveTick (c : Cluster) : Cluster :=
  let lv := Nat.min 255 (c.level + c.rcRate - c.charge)
  { c with level := lv, charge := 0, depl := c.depl || decide (lv < c.rcLow), heldOps := if c.depl then c.heldOps else c.heldOps.drop 1 }

/-- Groups of a cluster, G before H and oldest first (R28). -/
def State.clusterGroups (s : State) (cl : Nat) : List Nat :=
  sortBy (fun gk => (if s.isH gk then 2 ^ 128 else 0) + s.ageKey gk)
    ((span (8 * cl) 8).flatMap fun core => (s.groupsOn core).map (·.1))

/-- DEPL clears once LEVEL has reached HIGH: the operations held are released one a cycle (R371). -/
def execDeplClear (cl : Nat) (s : State) : Out :=
  let c := s.cluster cl
  .next (if c.depl && decide (c.level ≥ c.rcHigh) then
    s.setCluster cl { c with depl := false, heldOps := (s.clusterGroups cl).filter (fun gk => c.heldOps.contains gk) |>.drop 1 }
  else s)

/-- Grants that a group waits for may be given (R372). -/
def State.canGrant (s : State) (gk : Nat) : Bool :=
  match s.group? gk with
  | none => false
  | some g => g.leaveWant != 0 && s.atHome gk && !(s.cluster (s.coreOf gk / 8)).depl

/-- LEAVE_GRANT (R372): bellows grants a pending leave request or implicit grant when it finds DEPL clear. -/
def execLeaveGrant (gk : Nat) (s : State) : Out :=
  .next (if s.canGrant gk then
    s.updGroup gk fun g => { g with leaveHeld := g.leaveHeld ||| g.leaveWant, leaveWant := 0 }
  else s)

/-! Placement, eviction, resume. -/

def State.isRunning (s : State) (p : Nat) : Bool := decide ((s.part p).pst = .running)

/-- TEAM_PLACEMENT (R386): the device places the oldest waiting team that fits on its chosen core, initialising its registers and banks. -/
def execTeamPlacement (part : Nat) (s : State) : Out :=
  .next (if s.isRunning part then (s.placeFirst (s.placing part)).getD s else s)

/-- A team that an eviction may take: resident and of class H (R46). -/
def State.canEvict (s : State) (tuid : Nat) : Bool :=
  match s.team? tuid with
  | some t => t.tst == .resident && s.teamIsH t && s.isRunning (s.teamPart t)
  | none => false

/-- An eviction for a demand of class G (R46, R47). -/
def execHarvestEviction (tuid : Nat) (s : State) : Out :=
  .next (if s.canEvict tuid then
    let core := match s.team? tuid with | some t => t.core | none => 0
    let s := s.evictTeam tuid
    (span 0 4).foldl (fun s ip => s.growStep core ip) s
  else s)

/-- End a team and post one entry of class END (R50, R51, R336, R375). -/
def State.endWith (s : State) (tuid : Nat) (i : FInfo) (whereGk : Option Nat) : State :=
  match s.team? tuid with
  | none => s
  | some t =>
    match s.launch? t.launch with
    | none => s
    | some l =>
      let place := match whereGk with
        | some gk => s.stoppedWhere gk
        | none => wordOf (t.core / 192 + t.core / 8 % 24 * 2 + t.core % 8 * 2 ^ 6)
      (s.killTeam tuid).raiseEntry l.part ⟨i, false, place, l.faultWord, t.num, [], .none⟩

/-- Groups of a team without an open region. -/
def State.noRegion (s : State) (tuid : Nat) : List (Nat × Group) := (s.teamGroups tuid).filter fun x => x.2.regions.isEmpty

/-- NO_REGION (R51). -/
def State.endNoRegion (s : State) (tuid : Nat) : State :=
  match s.noRegion tuid with
  | [] => s
  | (gk, g) :: _ =>
    let aux := sumN ((s.noRegion tuid).map fun x => 2 ^ (x.1 % 32))
    let l0 := (Mask.lowest g.live).getD 0
    s.endWith tuid ⟨.noRegion, l0, g.live, (g.lane l0).pc, 0, dwordOf aux, false⟩ (some gk)

/-- A resume of an evicted team on a core, by R51. -/
def State.resumeOn (s : State) (tuid core : Nat) : State :=
  match s.team? tuid with
  | none => s
  | some t =>
    match s.launch? t.launch with
    | none => s
    | some l =>
      if s.screedBad tuid t then
        s.endWith tuid ⟨.imageBad, 0, 0, 0, 0, 0, false⟩ none
      else if t.reclaimed then ((s.readSpill tuid).restartTeam tuid core l).proxyTest tuid
      else ((s.readSpill tuid).returnTeam tuid core).proxyTest tuid

/-- An evicted team may resume: its values have landed, no team of class G waits for a place, and a core fits it (R48, R51). -/
def State.canResume (s : State) (tuid : Nat) : Bool :=
  match s.team? tuid with
  | none => false
  | some t => t.tst == .evicted && s.isRunning (s.teamPart t) && s.teamLanded tuid

/-- EVICTED_TEAM_RESUME (R51): an evicted H team is placed again and resumes at its evicted instructions or restarts its innermost region. -/
def execEvictedTeamResume (tuid : Nat) (s : State) : Out :=
  .next (if !s.canResume tuid then s
    else if (match s.team? tuid with | some t => t.reclaimed | none => false) && !(s.noRegion tuid).isEmpty then s.endNoRegion tuid
    else
      match s.resumeCore tuid with
      | some core => s.resumeOn tuid core
      | none => s)

/-! Migration (R342). -/

/-- Commands of a team that are queued, running or staged. -/
def State.hasCmds (s : State) (tuid : Nat) : Bool :=
  s.chans.any fun x => (x.2.queue ++ x.2.staged).any fun c => c.tuid == tuid

/-- An entry of a group or a command of the team is outstanding or waits to be posted. -/
def State.hasEntry (s : State) (tuid : Nat) : Bool :=
  ((s.teamGroups tuid).any fun x => x.2.stopped || x.2.park == .fault) ||
  match s.team? tuid with
  | none => false
  | some t =>
    let pt := s.part (s.teamPart t)
    (pt.outstanding.map (·.2) ++ pt.wantPost).any fun e => decide (s.entryTeam e = some tuid)

/-- Cycles of the die network clock in 100 us. -/
def moveGap : Nat := 205000

/-- What a team has in flight can land with a move: nothing of it waits for another package or a bank (R48, R108, R248). -/
def State.canSettle (s : State) (tuid : Nat) : Bool :=
  ((s.teamGroups tuid).all fun x => x.2.pend.all fun q => q.lanes.all PLane.known) &&
  match s.team? tuid with
  | some t => t.anvil.all fun y => y.tags.isEmpty && match y.cap with
      | .spill _ _ _ _ _ (.lines ts) false => ts.all fun x => match x with | .remote .. => false | _ => true
      | _ => true
  | none => true

/-- Every long-latency result of a team lands (R48). -/
def State.landTeam (s : State) (tuid : Nat) : State :=
  (s.teamGroups tuid).foldl (fun s x => s.updGroup x.1 fun g =>
    Group.takeDue s.fresh { g with pend := g.pend.map fun q => { q with lanes := q.lanes.map fun p => { p with landed := true } } }) s

/-- A team is eligible for a move to a core (Table 17-6). Within a cluster, a core may take it whatever the temperature, which the
manual gives by cluster only; FIFO banks that are not bound stay where they are (log 84). -/
def State.canMove (s : State) (tuid core : Nat) : Bool :=
  match s.team? tuid with
  | none => false
  | some t =>
    match s.launch? t.launch with
    | none => false
    | some l =>
      let pt := s.part l.part
      let here := s.cluster (t.core / 8)
      let there := s.cluster (core / 8)
      let hot := fun (c : Cluster) => decide (c.temp ≥ c.thr.toNat % 2 ^ 12)
      let pinned := !l.k.chans.isEmpty || l.stream.isSome
      let gs := s.teamGroups tuid
      t.tst == .resident && pt.mig && s.isRunning l.part && hot here && (core / 8 == t.core / 8 || !hot there) && decide (there.part = l.part) && t.core ≠ core &&
      !l.k.cshared && (l.classH || (pt.migg && !s.hasCmds tuid)) &&
      !(gs.any fun x => x.2.halted) && !s.hasEntry tuid && (!pinned || core / 8 == t.core / 8) &&
      (t.movedAt == 0 || decide (s.now - t.movedAt ≥ moveGap)) && s.canSettle tuid &&
      s.regsFit core (gs.map fun x => (x.1 % 32 % 4, x.2.nb)) [] && s.coreRoom core l.classH (gs.map fun x => x.2.nb) (s.entriesOf tuid) l.k.acc [] &&
      (core / 8 == t.core / 8 || decide (t.banks.length ≤ (s.poolBanks (core / 8)).length)) &&
      !((s.launchIn t.launch (core / 8)).any fun x => x.1 ≠ tuid && x.2.tagCore == t.tagCore && x.2.tagSlot == t.tagSlot)

/-- A bank's number after the banks of `ps` have been exchanged for others. -/
def movedBank (ps : List (Nat × Nat)) (b : Nat) : Nat := match ps.find? fun x => x.1 == b with | some x => x.2 | none => b

/-- The contents and presence bits of some banks go to others; what names their lines follows (R342). -/
def State.copyBanks (s : State) (ps : List (Nat × Nat)) : State :=
  let line := fun (k : Nat) => movedBank ps (k / 1024) * 1024 + k % 1024
  let inOld := fun (b : Nat) => ps.any fun x => x.1 == b
  let s : State := { s with
    sram := s.sram.foldl (fun m x =>
      if inOld (x.1 / bankBytes) then SMap.put m (movedBank ps (x.1 / bankBytes) * bankBytes + x.1 % bankBytes) x.2 else m) s.sram
    absentLines := s.absentLines.foldl (fun m x => if inOld (x.1 / 1024) then SMap.put m (line x.1) x.2 else m) s.absentLines
    chans := s.chans.map fun x =>
      let f := fun (c : Cmd) => { c with lines := c.lines.map line }
      (x.1, { x.2 with queue := x.2.queue.map f, staged := x.2.staged.map f })
    groups := s.groups.map fun x =>
      (x.1, { x.2 with park := match x.2.park with | .presence ls => .presence (ls.map line) | .wake bs => .wake (bs.map (movedBank ps)) | p => p }) }
  ps.foldl (fun s x => s.freeBank x.1) s

/-- Move a team to a core (R342). -/
def State.moveTeam (s : State) (tuid core : Nat) : State :=
  match s.team? tuid with
  | none => s
  | some t =>
    let s := ((s.stopTeam tuid).landTeam tuid).endOps tuid
    let old := t.core
    let ps := if core / 8 = t.core / 8 then [] else t.banks.zip (s.poolBanks (core / 8))
    let s := ps.foldl (fun s x => s.takeBank x.2 .scratch (.team tuid)) s
    let s := s.copyBanks ps
    let s := s.updTeam tuid fun t => { t with core := core, banks := t.banks.map (movedBank ps), movedAt := s.now }
    let s := s.acquireTeam tuid
    let s := (span 0 4).foldl (fun s ip => s.growStep old ip) s
    (s.grantHeld 64 old).grantHeld 64 core

/-- HOT_SPOT_MIGRATION (R342): an eligible team is moved from a hot cluster to a cooler core of its partition with its image and scratchpad. -/
def execHotSpotMigration (tuid core : Nat) (s : State) : Out :=
  .next (if s.canMove tuid core then s.moveTeam tuid core else s)

end Sys2Proof.Machine
end

