-- ==== Sys2Proof/Machine/Engines.lean ====
section
/-! DEFINITION. Device events of Tongs: commands that run, end a chunk, complete or are discarded (R102-R105, R265, R268-R270, R337),
and the collective engines (R363-R365). An event whose moment has not come changes nothing. -/

namespace Sys2Proof.Machine

/-- The elements left to move by the command at a queue head. -/
def State.headLeft (s : State) (ch : Nat) : Nat :=
  match (s.chan ch).queue with
  | [] => 0
  | c :: _ => c.total - c.cursor

/-- The head of a queue is a merge (R270). -/
def State.headMerges (s : State) (ch : Nat) : Bool :=
  match (s.chan ch).queue with
  | [] => false
  | c :: _ => c.gmerge

/-- A command stops the model where it reached an address without memory. -/
def outMem (s : State) : Out :=
  match s.stuck with
  | some pa => .fault (.noMemory pa)
  | none => .next s

/-- The virtual queue of an evicted team runs from memory: its record follows each chunk (R337). -/
def State.syncQueue (s0 : State) (ch : Nat) (s : State) : State :=
  if ch < 2 ^ 20 ∨ s.chan ch = s0.chan ch ∨ s.teamSt? ((ch - 2 ^ 20) / 16) ≠ some .evicted then s
  else s.writeQueue ((ch - 2 ^ 20) / 16) (ch % 16)

/-- A channel after an event of one of its commands. -/
def outCmd (s0 : State) (ch : Nat) (s : State) : Out := outMem (s0.syncQueue ch s)

/-- COPY (R268): a copy command at its queue head under a TRUE or absent guard runs, converting elements row by row. -/
def execCopy (ch : Nat) (s : State) : Out := outCmd s ch (s.runHead ch (s.headLeft ch) .copy)

/-- GATHER (R268): a gather command at its queue head copies rows selected by an index array. -/
def execGather (ch : Nat) (s : State) : Out := outCmd s ch (s.runHead ch (s.headLeft ch) .gather)

/-- REDUCE_STORE (R268): a reduce-store at its queue head combines elements atomically into global memory, or is staged inside an open region. -/
def execReduceStore (ch : Nat) (s : State) : Out :=
  outCmd s ch (if (s.lateStaged ch).isSome then s.runLate ch
    else if s.headMerges ch then s else s.runHead ch (s.headLeft ch) .reduceStore)

/-- MERGE_ROUND (R270): a GMERGE reduce-store takes effect in its round after every team before it in order has completed its command or ended. -/
def execMergeRound (ch : Nat) (s : State) : Out :=
  outCmd s ch (if s.headMerges ch then s.runHead ch 1 .reduceStore else s)

/-- MULTICAST_READ (R268): a multicast read fetches global lines once and delivers them to the scratchpads of every receiving team. -/
def execMulticastRead (ch : Nat) (s : State) : Out := outCmd s ch (s.runHead ch (s.headLeft ch) .multicast)

/-- A chunk of a command ends after some elements, and its cursor is kept (R337); collectives run by the frames of their
schedule. -/
def execCommandChunkEnd (ch elems : Nat) (s : State) : Out :=
  outCmd s ch (match (s.chan ch).queue with
    | [] => s
    | c :: _ => if c.kind = .collective then s else s.runHead ch elems c.kind)

/-- The head of a queue has run, and every request of it to another package has been answered (R104). -/
def State.headDone (s : State) (ch : Nat) : Bool :=
  match (s.chan ch).queue with
  | [] => false
  | c :: _ => c.ran && !s.cmdPaused c && !s.cmdRemotes ch c.num

/-- COMMAND_COMPLETE (R104): an engine command completes, arrives at its barrier and advances its timeline value. -/
def execCommandComplete (ch : Nat) (s : State) : Out := outCmd s ch (if s.headDone ch then s.completeHead ch else s)

/-- COMMAND_DISCARD (R265): a command at its queue head under a FALSE guard slot completes without effect. -/
def execCommandDiscard (ch : Nat) (s : State) : Out := outCmd s ch (s.discardHead ch)

/-! Collectives: the schedule of one member (R364). -/

/-- One action of a member: send elements to a rank, or receive them and combine or store them. A message is named by its sender
and by a step number. -/
inductive CAct where
  | send (dst step lo n : Nat)
  | add (src step lo n hop : Nat)
  | put (src step lo n : Nat)
  deriving DecidableEq, Repr

/-- The first element of rank r's chunk. -/
def chunkLo (e n r : Nat) : Nat := r * e / n

/-- Rank r's chunk: its first element and its length. -/
def chunkOf (e n r : Nat) : Nat × Nat := (chunkLo e n r, chunkLo e n (r + 1) - chunkLo e n r)

/-- The reduction of the ring. -/
def ringReduce (e n r : Nat) : List CAct :=
  (span 1 (n - 1)).flatMap fun h =>
    let out := chunkOf e n ((r + n - h) % n)
    let inc := chunkOf e n ((r + 2 * n - 1 - h) % n)
    [.send ((r + 1) % n) h out.1 out.2, .add ((r + n - 1) % n) h inc.1 inc.2 h]

/-- The all-gather of the ring, its steps numbered after `base`. -/
def ringGather (e n r base : Nat) : List CAct :=
  (span 1 (n - 1)).flatMap fun g =>
    let out := chunkOf e n ((r + n + 1 - g) % n)
    let inc := chunkOf e n ((r + n - g) % n)
    [.send ((r + 1) % n) (base + g) out.1 out.2, .put ((r + n - 1) % n) (base + g) inc.1 inc.2]

def ringCast (e n r : Nat) : List CAct :=
  (if r = 0 then [] else [.put (r - 1) r 0 e]) ++ if r + 1 < n then [.send (r + 1) (r + 1) 0 e] else []

/-- ceil(log_k n): the hops of a tree. -/
def treeHops : Nat → Nat → Nat → Nat → Nat
  | 0, h, _, _ => h
  | fuel + 1, h, k, n => if k ^ h ≥ n then h else treeHops fuel (h + 1) k n

/-- The way up the tree: partial sums, or, in a gather, the chunks of each sub-block. -/
def treeUp (e n k r hops : Nat) (gather : Bool) : List CAct :=
  (span 1 hops).flatMap fun h =>
    let sub := k ^ (h - 1)
    let part := fun (q : Nat) =>
      if gather then (chunkLo e n q, chunkLo e n (Nat.min n (q + sub)) - chunkLo e n q) else (0, e)
    if r % sub ≠ 0 then []
    else if r % k ^ h = 0 then
      ((span 1 (k - 1)).filter fun j => decide (r + j * sub < n)).map fun j =>
        let p := part (r + j * sub)
        if gather then CAct.put (r + j * sub) h p.1 p.2 else CAct.add (r + j * sub) h p.1 p.2 h
    else [.send (r - r % k ^ h) h (part r).1 (part r).2]

/-- The way down the tree. -/
def treeDown (e n k r hops : Nat) : List CAct :=
  ((span 1 hops).reverse).flatMap fun h =>
    let sub := k ^ (h - 1)
    if r % sub ≠ 0 then []
    else if r % k ^ h = 0 then
      ((span 1 (k - 1)).filter fun j => decide (r + j * sub < n)).map fun j => .send (r + j * sub) (hops + h) 0 e
    else [.put (r - r % k ^ h) (hops + h) 0 e]

/-- The actions of rank r of n for a COP: 0 all-reduce, 1 reduce-scatter, 2 all-gather, 3 broadcast. -/
def collActs (cop : Nat) (tree : Bool) (k e n r : Nat) : List CAct :=
  let hops := treeHops 11 0 k n
  match cop, tree with
  | 0, false => ringReduce e n r ++ ringGather e n r (n - 1)
  | 1, false => ringReduce e n r
  | 2, false => ringGather e n r 0
  | 3, false => ringCast e n r
  | 2, true => treeUp e n k r hops true ++ treeDown e n k r hops
  | 3, true => treeDown e n k r hops
  | _, true => treeUp e n k r hops false ++ treeDown e n k r hops
  | _, _ => []

/-! Group entries (R363). -/

/-- A group entry, where it is well formed. -/
structure CGroup where
  members : List Nat
  tree : Bool
  radix : Nat
  hop0 : Nat
  deriving DecidableEq, Repr

def cgroupParse (bs : List Byte) : Option CGroup :=
  let n := recField bs 0 2
  let sched := recField bs 2 1
  let k := recField bs 3 1
  let hop0 := recField bs 4 4
  let ms := (span 0 n).map fun r => recField bs (0x40 + 2 * r) 2
  let hops := if sched = 0 then n - 1 else treeHops 11 0 k n
  if decide (1 ≤ n) && decide (n ≤ 1024) && decide (sched ≤ 1) && decide (2 ≤ k) && decide (k ≤ 32) && recZero bs 8 56 &&
      (ms.all fun m => decide (m < 1024)) && decide (hop0 + hops ≤ 0xFFFFFFFF) then
    some ⟨ms, sched == 1, k, hop0⟩
  else none

/-- The entry that a command names: read at a physical address under key ID 0. -/
def State.cgroup (s : State) (part cgrp : Nat) : Option CGroup :=
  cgroupParse (s.readBytes (s.keyTag 0) (((s.part part).cgBase.toNat + 4096 * cgrp) % 2 ^ 48) 4096)

/-! Frames of a collective (log 16): CID, COP, ROP, the two type codes, a flag byte (1: error, 2: the member's writes are performed), the
step, a zero byte, the count E, the first element, the elements. -/

def Cmd.elems (c : Cmd) : Nat := c.rows * c.rlen

def Cmd.collHead (c : Cmd) (flags step lo : Nat) : List Byte :=
  natBytes 8 c.cid.toNat ++ natBytes 1 c.cop ++ natBytes 1 c.rop ++ natBytes 1 c.sfmt.code.toNat ++ natBytes 1 c.dfmt.code.toNat ++
    natBytes 1 flags ++ natBytes 2 step ++ natBytes 1 0 ++ natBytes 8 c.elems ++ natBytes 8 lo

/-- Elements that one frame carries. -/
def Cmd.perFrame (c : Cmd) : Nat := 2016 / c.dfmt.bytes

/-- Send one frame of a collective; none where no route takes it. -/
def State.sendColl (s : State) (ch : Nat) (pkg : Nat) (payload : List Byte) : Option State :=
  match s.routePort pkg 0 with
  | none => none
  | some port => some (s.send 6 ⟨port, 0, pkg, 0, 0, 0, decide (ch ≥ 2 ^ 20), payload⟩)

/-- Send elements as as many frames as they take. -/
def State.sendElems (s : State) (ch : Nat) (c : Cmd) (pkg step : Nat) (buf : List (BitVec 128)) : Nat → Nat → Nat → Option State
  | 0, _, _ => some s
  | fuel + 1, lo, n =>
    if n = 0 then some s
    else
      let m := Nat.min n c.perFrame
      let data := ((buf.drop lo).take m).flatMap fun x => natBytes c.dfmt.bytes x.toNat
      match s.sendColl ch pkg (c.collHead 0 step lo ++ data) with
      | some s' => s'.sendElems ch c pkg step buf fuel (lo + m) (n - m)
      | none => none

/-- Tell every other member that the command ended in error (R363), or that this member's writes are performed (R104). -/
def State.sendFlags (s : State) (ch : Nat) (c : Cmd) (members : List Nat) (flags : Nat) : State :=
  ((dedup members).filter fun m => m ≠ s.pkgNum).foldl (fun s m => (s.sendColl ch m (c.collHead flags 0 0)).getD s) s

/-- The frames of a collective that have arrived. -/
def State.collFrames (s : State) (cid : DWord) : List Frame := (s.collIn.filter fun x => x.1 == cid.toNat).map (·.2)

/-- A frame that names another COP, ROP, type or count, or reports an error. -/
def Cmd.collClash (c : Cmd) (f : Frame) : Bool :=
  recField f.payload 12 1 % 2 == 1 || f.payload.take 12 != (c.collHead 0 0 0).take 12 || recField f.payload 16 8 != c.elems

/-- The elements of one message, if they have all arrived. -/
def Cmd.message (c : Cmd) (fs : List Frame) (pkg step lo n : Nat) : Option (List (BitVec 128)) :=
  let mine := fs.filter fun f => f.spkg == pkg && recField f.payload 12 1 == 0 && recField f.payload 13 2 == step
  (span lo n).foldr (fun i acc =>
    match acc, mine.find? fun f =>
        let a := recField f.payload 24 8
        decide (a ≤ i) && decide (i < a + (f.payload.length - 32) / c.dfmt.bytes) with
    | some xs, some f => some (BitVec.ofNat 128 (recField f.payload (32 + (i - recField f.payload 24 8) * c.dfmt.bytes) c.dfmt.bytes) :: xs)
    | _, _ => none) (some [])

/-- One reduction step of an element (R129, R364). -/
def Cmd.hopSum (c : Cmd) (hop0 i hop a b : Nat) : Nat :=
  if c.rop = 0 ∧ c.srh ∧ c.dfmt.isFloat ∧ c.dfmt ≠ .ds8 ∧ c.dfmt ≠ .e8m0 then
    let f := fmtOf c.dfmt
    let w := philox (wordOf i) (wordOf (i / 2 ^ 32)) (loW c.cid) (hiW c.cid) c.seed (wordOf (hop0 + hop - 1))
    roundSr f false false w.toNat (sumF [decodeF f a, decodeF f b])
  else combine c.dfmt c.rop a b

/-- Write a run of elements into the buffer. -/
def overlay (buf : List (BitVec 128)) (lo : Nat) (xs : List (BitVec 128)) : List (BitVec 128) :=
  buf.take lo ++ xs ++ buf.drop (lo + xs.length)

/-- The next action of a collective, done: the new record; `none` inside where its message has not arrived, `none` outside where
no route takes a frame. -/
def State.collStep (s : State) (c : Cmd) (x : Coll) : Option (State × Option Coll) :=
  let acts := collActs c.cop x.tree x.radix c.elems x.members.length x.rank
  let fs := s.collFrames x.cid
  let pkg := fun (r : Nat) => atD x.members r 0
  match (acts.drop x.step).head? with
  | none => some (s, none)
  | some (.send dst step lo n) =>
    (s.sendElems x.ch c (pkg dst) step x.buf (n + 1) lo n).map fun s => (s, some { x with step := x.step + 1 })
  | some (.add f step lo n hop) =>
    match c.message fs (pkg f) step lo n with
    | none => some (s, none)
    | some xs =>
      let new := ((span 0 n).zip xs).map fun y =>
        BitVec.ofNat 128 (c.hopSum x.hop0 (lo + y.1) hop y.2.toNat (atD x.buf (lo + y.1) 0).toNat)
      some (s, some { x with buf := overlay x.buf lo new, step := x.step + 1 })
  | some (.put f step lo n) =>
    match c.message fs (pkg f) step lo n with
    | none => some (s, none)
    | some xs => some (s, some { x with buf := overlay x.buf lo xs, step := x.step + 1 })

/-- Do every action that can be done. -/
def State.collRun (c : Cmd) : Nat → State → Coll → Option (State × Coll)
  | 0, s, x => some (s, x)
  | n + 1, s, x =>
    match s.collStep c x with
    | none => none
    | some (s', none) => some (s', x)
    | some (s', some x') => State.collRun c n s' x'

/-- The elements that a member writes: all of them, or in a reduce-scatter its own chunk. -/
def Cmd.resultRun (c : Cmd) (x : Coll) : Nat × Nat :=
  if c.cop = 1 then chunkOf c.elems x.members.length x.rank else (0, c.elems)

/-- The place of element e of a collective's destination. -/
def State.collPlace (s : State) (c : Cmd) (e : Nat) : EPlace :=
  s.elemPlace c.tuid c.dspc c.dbase (e / c.rlen) c.dstride (e % c.rlen) c.dfmt.bytes

/-- Elements of a run as one number. -/
def Cmd.joined (c : Cmd) (xs : List (BitVec 128)) : Nat := leNat (xs.flatMap fun x => natBytes c.dfmt.bytes x.toNat)

/-- Write the result, granule by granule (R102); where one cannot be written, how the run stops. -/
def State.collWrite (ch : Nat) (c : Cmd) (x : Coll) : Nat → State → Nat → State × Nat × Option CRes
  | 0, s, i => (s, i, none)
  | n + 1, s, i =>
    let (lo, len) := c.resultRun x
    if i ≥ len then (s, i, none)
    else
      let e := lo + i
      let m := Nat.min (len - i) ({ c with cursor := e } : Cmd).inGranule
      let d := s.collPlace c e
      match s.writeVia ch c d (m * c.dfmt.bytes) (c.joined ((x.buf.drop e).take m)) with
      | .inl s' => State.collWrite ch c x n (s'.engineNote ch c true d (m * c.dfmt.bytes)) (i + m)
      | .inr r => (s, i, some r)

/-- Forget a collective and its frames. -/
def State.collEnd (s : State) (x : Coll) : State :=
  { s with colls := s.colls.filter fun y => y.ch ≠ x.ch || y.num ≠ x.num, collIn := s.collIn.filter fun y => y.1 ≠ x.cid.toNat }

def State.setColl (s : State) (x : Coll) : State :=
  { s with colls := s.colls.map fun y => if y.ch = x.ch ∧ y.num = x.num then x else y }

/-- A collective ends in error, here and at every member (R363, R365). -/
def State.collFail (s : State) (ch : Nat) (c : Cmd) (x : Coll) : State :=
  ((s.sendFlags ch c x.members 1).collEnd x).setHead ch { c with ran := true, errored := true, stagedV := [] }

/-- The schedule of a member. -/
def Cmd.acts (c : Cmd) (x : Coll) : List CAct := collActs c.cop x.tree x.radix c.elems x.members.length x.rank

/-- Every other member has reported that its writes are performed. -/
def State.collPerformed (s : State) (x : Coll) : Bool :=
  ((dedup x.members).filter fun m => m ≠ s.pkgNum).all fun m =>
    (s.collFrames x.cid).any fun f => f.spkg == m && recField f.payload 12 1 == 2

/-- The result of a member has been written: once those writes are performed it tells the other members, and once all have told it so
its command has run (R104). -/
def State.collEnding (s : State) (ch : Nat) (c : Cmd) (x : Coll) : State :=
  if s.cmdRemotes ch c.num then s
  else
    let n := (c.acts x).length
    let (s, x) :=
      if x.step > n then (s, x)
      else
        let x := { x with step := n + 1 }
        ((s.sendFlags ch c x.members 2).setColl x, x)
    if s.collPerformed x then ((s.collEnd x).setPresence c).setHead ch { c with ran := true, stagedV := [] } else s

/-- A collective in progress goes on: an error of another member ends it, else its schedule, then its writes. -/
def State.collGo (s : State) (ch : Nat) (c : Cmd) (x : Coll) : State :=
  if c.errored || (s.collFrames x.cid).any c.collClash then s.collFail ch c x
  else
    let n := (c.acts x).length
    match State.collRun c (n + 1) s x with
    | none => s.collFail ch c x
    | some (s, x) =>
      let s := s.setColl x
      if x.step < n then s
      else
        match State.collWrite ch c x (c.elems + 1) s x.written with
        | (s, i, none) =>
          let x := { x with written := i }
          (s.setColl x).collEnding ch c x
        | (s, i, some (.fault va w)) =>
          ((s.setColl { x with written := i }).setHead ch { c with waiting := true }).abandon ch c va w
        | (s, _, some (.error va w)) => s.collFail ch { c with errVa := va, errW := w } x
        | (s, _, some _) => s.collFail ch c x

/-- A command whose elements have been read joins its group: its entry is read and its record made (R363). -/
def State.collStart (s : State) (ch : Nat) (c : Cmd) : State :=
  let part := s.cmdPart c
  let x : Coll := ⟨ch, c.num, part, c.cid, [], 0, false, 0, 0, c.stagedV.map (·.2), 0, 0⟩
  match s.cgroup part c.cgrp with
  | none => s.collFail ch c x
  | some g =>
    match (span 0 g.members.length).find? fun r => atD g.members r 0 == s.pkgNum with
    | none => s.setHead ch { c with ran := true, errored := true, stagedV := [] }
    | some r =>
      let x := { x with members := g.members, rank := r, tree := g.tree, radix := g.radix, hop0 := g.hop0 }
      -- a second command with the same ID in one package ends in error, and with it the first (R363)
      if s.colls.any fun y => y.cid == c.cid then s.setHead ch { c with ran := true, errored := true, stagedV := [] }
      else ({ s with colls := s.colls ++ [x] } : State).collGo ch c x

/-- The collective at a queue head reads its elements, then joins its group and goes on (R364). -/
def State.runCollective (s : State) (ch : Nat) : State :=
  match (s.chan ch).queue with
  | [] => s
  | c :: _ =>
    if c.kind ≠ .collective ∨ !s.headRuns ch then s
    else if s.svc = .reduced then s.setHead ch { c with ran := true, errored := true, stagedV := [] }
    else
      match s.colls.find? fun x => x.ch == ch && x.num == c.num with
      | some x => s.collGo ch c x
      | none =>
        let c := { c with guard := none }
        match State.runElems (c.total + 1) s ch c with
        | (s, c, .more) => s.setHead ch c
        | (s, c, .wait) => s.setHead ch { c with waiting := true }
        | (s, c, .error va w) =>
          s.collFail ch { c with errVa := va, errW := w } ⟨ch, c.num, s.cmdPart c, c.cid, match s.cgroup (s.cmdPart c) c.cgrp with | some g => g.members | none => [], 0, false, 0, 0, [], 0, 0⟩
        | (s, c, .fault va w) =>
          (s.setHead ch { c with cursor := 0, attempt := (c.attempt + 1) % 16, stagedV := [], rcache := [], waiting := true }).abandon ch c va w
        | (s, c, .done) => s.collStart ch c

/-- COLLECTIVE (R364): a collective command runs its reduction or copy schedule over its collective group. -/
def execCollective (ch : Nat) (s : State) : Out := outCmd s ch (s.runCollective ch)

/-- The oldest collective of a channel that has outlived its partition's limit (R365). -/
def State.lateColl (s : State) (ch : Nat) : Option Cmd :=
  match (s.chan ch).queue with
  | [] => none
  | c :: _ =>
    let t := (s.part (s.cmdPart c)).cTimeout
    if c.kind = .collective && !c.ran && t ≠ 0 && decide (s.ptime ≥ c.issued + 1000 * t) then some c else none

/-- An action of a schedule changes an element of the buffer. -/
def CAct.changes (a : CAct) (e : Nat) : Bool :=
  match a with
  | .send .. => false
  | .add _ _ lo n _ | .put _ _ lo n => decide (lo ≤ e) && decide (e < lo + n)

/-- Elements of a collective that ended by its limit: each keeps its value or takes the one that the command would have written, a free
choice. That value is the buffer's once no action left to do changes it; before, it rests on elements that have not arrived, and is
free (R365; log 48). -/
def State.collFree (s : State) (ch : Nat) (c : Cmd) (x : Coll) : State :=
  let (lo, len) := c.resultRun x
  let left := (c.acts x).drop x.step
  (span (lo + x.written) (len - x.written)).foldl (fun s e =>
    if Config.free 16 s.fresh e % 2 = 0 then s
    else
      let v := if left.any fun a => a.changes e then Config.free 17 s.fresh e % 2 ^ (8 * c.dfmt.bytes) else (atD x.buf e 0).toNat
      match s.writeVia ch c (s.collPlace c e) c.dfmt.bytes v with
      | .inl s' => s'
      | .inr _ => s) s

/-- COLLECTIVE_TIMEOUT (R365): a collective not completed CTIMEOUT µs after issue ends in error at every reachable member. -/
def execCollectiveTimeout (ch : Nat) (s : State) : Out :=
  outCmd s ch (match s.lateColl ch with
    | none => s
    | some c =>
      match s.colls.find? fun x => x.ch == ch && x.num == c.num with
      | some x => (s.collFree ch c x).collFail ch c x
      | none =>
        let ms := match s.cgroup (s.cmdPart c) c.cgrp with | some g => g.members | none => []
        s.collFail ch c ⟨ch, c.num, s.cmdPart c, c.cid, ms, 0, false, 0, 0, [], 0, 0⟩)

end Sys2Proof.Machine
end

