-- ==== Sys2Proof/Machine/Launching.lean ====
section
/-! DEFINITION. Device events of launch queues, the take unit, the backward tape, timers and stream contexts (R305, R308-R326). An
event whose moment has not come changes nothing. -/

namespace Sys2Proof.Machine

/-! Kernel information (R305). -/

/-- The declared channels of an entry, with slots and bytes, and whether they are well formed. -/
def kinfoChans (bs : List Byte) : SMap (Nat × Nat) × Bool :=
  let mask := recField bs 0x2C 4
  let w := fun (k : Nat) => recField bs (0x30 + 4 * k) 4
  let on := (span 0 16).filter fun k => field mask k 1 == 1
  (on.map fun k => (k, field (w k) 0 13, 4 * field (w k) 13 8),
    decide (mask < 2 ^ 16) &&
      (span 0 16).all fun k =>
        if field mask k 1 = 1 then
          decide (1 ≤ field (w k) 0 13) && decide (field (w k) 0 13 ≤ 4096) && decide (1 ≤ field (w k) 13 8) &&
            decide (field (w k) 13 8 ≤ 128) && field (w k) 21 11 == 0
        else w k == 0)

/-- An entry read from its 128 bytes, where R305 accepts it. -/
def kinfoParse (bs : List Byte) : Option KInfo :=
  let priv := recField bs 0x0C 4
  let scratch := recField bs 0x10 4
  let nb := recField bs 0x14 1
  let acc := recField bs 0x15 1
  let gang := recField bs 0x16 1
  let region := recField bs 0x17 1
  let cls := recField bs 0x18 1
  let nbv := recField bs 0x19 1
  let fl := recField bs 0x1A 2
  let ttb := recField bs 0x20 8
  let ttc := recField bs 0x28 4
  let (chans, chOk) := kinfoChans bs
  let entry := recField bs 0 8
  if entry % 4 == 0 && decide (entry < 2 ^ 55) && priv % 16 == 0 && decide (priv ≤ 2 ^ 24) && decide (scratch ≤ 2 ^ 22) && decide (1 ≤ nb) && decide (nb ≤ 8) && decide (acc ≤ 64) &&
      (gang == 0 || (decide (2 ≤ gang) && decide (gang ≤ 6))) && decide (1 ≤ region) && decide (region ≤ 4) && decide (1 ≤ cls) &&
      decide (cls ≤ 3) && field nbv 2 5 == 0 && !(field nbv 7 1 == 1 && nbv % 4 == 3) && decide (fl < 8) && recZero bs 0x1C 4 &&
      decide (ttc ≤ 4096) && (ttc ≠ 0 || ttb == 0) && recZero bs 0x70 16 && chOk then
    some { entry := dwordOf entry, priv := priv, scratch := scratch, nb := nb, acc := acc, gang := gang, region := region
           allowG := field cls 0 1 == 1, allowH := field cls 1 1 == 1, nbv := if field nbv 7 1 = 1 then nbv % 4 else 2
           cshared := field fl 0 1 == 1, spanbar := field fl 1 1 == 1, lockstep := field fl 2 1 == 1
           ttBase := dwordOf ttb, ttCount := ttc, chans := chans }
  else none

/-! What the take unit reads (R99, R106, R281, R305, R318). -/

/-- Bytes that the take unit reads: those bytes, none where an address does not translate or is refused, or what has to be asked of
another package first. -/
inductive Fetched where
  | got (bs : List Byte)
  | bad
  | wait (xs : List (Nat × Nat × Nat))
  deriving DecidableEq, Repr

/-- One read of at most 64 bytes, within one page; where `since` is given, each granule is some value that it held since that moment
of the memory order (R281). -/
def State.takePiece (s : State) (p : Nat) (since : Option (Nat × Nat)) (a n : Nat) : Fetched :=
  if a ≥ 2 ^ 55 then .bad
  else
    match s.translate p (s.unitAgent p) .read a with
    | .mem pa tag =>
      if pa ≥ hbmBytes ∨ s.stackFails pa = true then .bad
      else
        match since with
        | none => .got (s.readBytes tag pa n)
        | some (q, start) => .got ((span 0 (n / 4)).flatMap fun i => s.anyValueOf 18 (q * 64 + i) tag start (pa + 4 * i) 4)
    | .remote pkg d =>
      match s.recAt (.take p) a n with
      | none => .wait [(pkg, d, a)]
      | some [] => .bad
      | some bs => .got bs
    | _ => .bad

/-- Two reads, one after the other. -/
def Fetched.join : Fetched → Fetched → Fetched
  | .bad, _ | _, .bad => .bad
  | .got a, .got b => .got (a ++ b)
  | .wait a, .wait b => .wait (a ++ b)
  | .wait a, .got _ | .got _, .wait a => .wait a

/-- Bytes [va, va + n), read in pieces that end at multiples of 64. -/
def State.takeRead (s : State) (p : Nat) (since : Option (Nat × Nat)) (va n : Nat) : Fetched :=
  let b := va / 64 * 64
  (span 0 ((va % 64 + n + 63) / 64)).foldl (fun acc i =>
    let a := Nat.max va (b + 64 * i)
    acc.join (s.takePiece p since a (Nat.min (va + n) (b + 64 * i + 64) - a))) (.got [])

/-- The bytes of the entry that a record names. -/
def State.readKinfo (s : State) (p va : Nat) : Fetched := if va % 64 ≠ 0 then .bad else s.takeRead p none va 128

/-- The kernel information that a record names. -/
def State.takeKinfo (s : State) (p va : Nat) : Option KInfo :=
  match s.readKinfo p va with
  | .got bs => kinfoParse bs
  | _ => none

/-- Record `n` of the tape, read back from its place (R318). -/
def State.readTape (s : State) (p n : Nat) : Fetched := s.takeRead p none (tapeSlot (s.part p) n) 64

/-! Records (Table 16-1). -/

/-- DEP_i of a record: its queue, its reserved bit, its enable and its value. -/
def depOf (bs : List Byte) (i : Nat) : Nat × Nat × Bool × Nat :=
  let d := recField bs (0x28 + 8 * i) 8
  (field d 0 6, field d 6 1, field d 7 1 == 1, field d 8 56)

/-- Every enabled dependence is satisfied (R315). -/
def State.depsMet (s : State) (p : Nat) (bs : List Byte) : Bool :=
  (span 0 3).all fun i =>
    let (q, _, on, v) := depOf bs i
    !on || decide (v ≤ (s.queue p q).doneV)

/-- Cause 5 (Table 16-4). -/
def depsBad (bs : List Byte) : Bool := (span 0 3).any fun i => let (_, r, on, _) := depOf bs i; on && r == 1

/-- The stream-context entry that a record names. -/
def recStream (bs : List Byte) : Option Nat :=
  let w := recField bs 0x20 4
  if field w 31 1 = 1 then some (field w 0 13) else none

/-- Cause 9 (Table 16-4). -/
def reservedBad (bs : List Byte) : Bool :=
  decide (recField bs 0x16 1 ≥ 4) || field (recField bs 0x20 4) 13 18 != 0 || !recZero bs 0x24 4

/-! Head candidates (R313, R314). -/

/-- Where a head candidate comes from. -/
inductive Source where
  | fire
  | store
  | ring
  deriving DecidableEq, Repr

/-- A record that could be taken: its bytes, or none where they cannot be read, and what came with it. `wait` is what has to be
asked of other packages before it is taken, and `used` are the address ranges that it reads. -/
structure Cand where
  q : Nat
  source : Source
  sr : StoreRec
  bytes : Option (List Byte)
  wait : List (Nat × Nat × Nat)
  used : List (Nat × Nat)
  deriving DecidableEq, Repr

def StoreRec.blank (q : Nat) : StoreRec := ⟨q, [], false, none, none, none, 0, 0⟩

/-- A candidate whose record is read from memory. -/
def Cand.of (q : Nat) (src : Source) (r : StoreRec) (va : Nat) (f : Fetched) : Cand :=
  match f with
  | .got bs => ⟨q, src, r, some bs, [], [(va, 64)]⟩
  | .bad => ⟨q, src, r, none, [], [(va, 64)]⟩
  | .wait xs => ⟨q, src, r, none, xs, [(va, 64)]⟩

/-- A record whose STREAM names an entry, valid (R325). -/
def withStream (e : Nat) (bs : List Byte) : List Byte := bs.take 0x20 ++ natBytes 4 (2 ^ 31 + e) ++ bs.drop 0x24

/-- The next record of a queue's stream fires. -/
def State.fireCand (s : State) (p q : Nat) : Option Cand :=
  ((s.part p).fires.find? fun r => r.queue == q).map fun r =>
    let c := Cand.of q .fire r r.addr.toNat (s.takeRead p none r.addr.toNat 64)
    { c with bytes := c.bytes.map (withStream (r.stream.getD 0)) }

def State.storeCand (s : State) (p q : Nat) : Option Cand :=
  ((s.part p).store.find? fun r => r.queue == q).map fun r => ⟨q, .store, r, if r.bytes.isEmpty then none else some r.bytes, [], []⟩

/-- The next record of the ring: each granule of it is some value that it held since the record was published (R281). -/
def State.ringCand (s : State) (p q : Nat) : Option Cand :=
  let x := s.queue p q
  if x.tail ≤ x.head then none
  else
    let va := x.base.toNat + 64 * (x.head % 2 ^ x.log2s)
    some (Cand.of q .ring (StoreRec.blank q) va (s.takeRead p (some (q, x.pubs.headD s.wseq)) va 64))

/-- The launch of the record popped before this one has ended (R319). -/
def State.popMet (s : State) (p : Nat) (r : StoreRec) : Bool :=
  match r.prior with
  | none => true
  | some k =>
    -- a tape boundary ends when its last pop has been placed
    !((s.part p).cutOrder == some k && (s.part p).cutLaunch.isSome) &&
    !((s.part p).store.any fun y => y.popOrder == some k) &&
      !(s.launches.any fun x => x.2.part == p && x.2.prior == some k && !x.2.ended)

/-- The launch of a stream may be taken: its entry is IDLE (R87, R324), or the record will be rejected. -/
def State.streamMet (s : State) (p : Nat) (c : Cand) : Bool :=
  match c.sr.stream, c.bytes with
  | some e, _ => (s.stream e).sst == .idle
  | none, some bs =>
    match recStream bs with
    | some e => (s.stream e).sst == .free || (s.stream e).part ≠ p || (s.stream e).sst == .idle
    | none => true
  | none, none => true

/-- What R314 asks of a record itself. -/
def State.candMet (s : State) (p : Nat) (c : Cand) : Bool :=
  s.popMet p c.sr &&
    match c.bytes with
    | none => true
    | some bs => s.depsMet p bs

/-- What R314 asks of a queue, except that a timer's fire is due. -/
def State.queueMet (s : State) (p q : Nat) : Bool :=
  (s.queue p q).en && !(s.launches.any fun x => x.2.part == p && x.2.queue == q && !x.2.ended && !x.2.killed && decide (x.2.placed < x.2.teams))

/-! Checking a record (R316). -/

/-- The teams of a launch that a partition could hold at once (Table 16-4, cause 8). -/
def State.capacity (s : State) (p : Nat) (k : KInfo) (tsize : Nat) (classH : Bool) (cl : Option Nat) : Nat :=
  let ng := (tsize + 31) / 32
  let perIp := (span 0 4).map fun ip =>
    let gi := (ng + 3 - ip) / 4
    let share := atD (s.part p).gshare ip 0
    let banks := if classH then 32 - share else share
    if gi = 0 then 32 else Nat.min (8 / gi) (banks / (gi * k.nb))
  let per := perIp.foldl Nat.min 32
  let per := if k.acc = 0 then per else Nat.min per (64 / k.acc)
  let per := if k.cshared then Nat.min per 1 else per
  let per := if classH then Nat.min per (262144 / harvestBytes ((span 0 ng).map fun _ => k.nb) k.acc) else per
  let need := k.ownBanks + k.fifoBanks
  let cls := match cl with | some c => [c] | none => s.clustersOf p
  let total := sumN (cls.map fun c =>
    let pool := ((span (64 * c) 64).filter fun b => !(s.cluster c).role.getLsbD (b % 64) && !s.bringUp b).length
    if need = 0 then 8 * per else Nat.min (8 * per) (pool / need))
  if classH then Nat.min total (s.part p).hspillCnt else total

/-- Cause 6 (Table 16-4). -/
def State.streamBad (s : State) (p : Nat) (x : Queue) (e : Option Nat) : Bool :=
  match e with
  | some e => !x.streamq || (s.stream e).sst == .free || (s.stream e).part ≠ p
  | none => x.streamq

/-- The cause of a rejection and the kernel information, for a record that is no tape boundary. -/
def State.checkRec (s : State) (p : Nat) (c : Cand) (bs : List Byte) : Nat × Option KInfo :=
  let x := s.queue p c.q
  let tsize := recField bs 0x14 2
  let teams := recField bs 0x10 4
  let stream := match c.sr.stream with | some e => some e | none => recStream bs
  if tsize = 0 ∨ tsize > 1024 ∨ teams = 0 ∨ teams > 2 ^ 24 then (1, none)
  else
    match s.takeKinfo p (recField bs 0 8) with
    | none => (2, none)
    | some k =>
      if (x.classH && !k.allowH) || (!x.classH && !k.allowG) then (3, none)
      else if x.classH && decide (harvestBytes ((span 0 ((tsize + 31) / 32)).map fun _ => k.nb) k.acc > 262144) then (4, none)
      else if depsBad bs then (5, none)
      else if s.streamBad p x stream then (6, none)
      else if recField bs 0x16 1 % 2 = 1 ∧ (recField bs 0x18 4 = 0 ∨ recField bs 0x1C 2 = 0 ∨ 16 * recField bs 0x1E 2 + 16 > k.scratch) then (7, none)
      else if k.spanbar && decide (teams > s.capacity p k tsize x.classH (stream.map fun e => (s.stream e).place)) then (8, none)
      else if reservedBad bs then (9, none)
      else if c.sr.tapeH && !x.classH then (10, none)
      else if c.sr.popOrder.isSome && !x.en then (11, none)
      else (0, some k)

/-- The cause of a rejection of a tape boundary (R319). -/
def State.checkBoundary (s : State) (p : Nat) (c : Cand) (bs : List Byte) : Nat :=
  if depsBad bs then 5 else if reservedBad bs then 9
  else if c.sr.tapeH && !(s.queue p c.q).classH then 10
  else if c.sr.popOrder.isSome && !(s.queue p c.q).en then 11
  else 0

/-- The next record of each source of a queue, in the order of R313. -/
def State.heads (s : State) (p q : Nat) : List Cand := [s.fireCand p q, s.storeCand p q, s.ringCand p q].filterMap id

/-- What else a candidate reads at its take: its kernel information, or the records of the tape that a boundary cuts and that lie in
memory. -/
def State.readyCand (s : State) (p : Nat) (c : Cand) : Cand :=
  match c.bytes with
  | none => c
  | some bs =>
    let add := fun (c : Cand) (f : Fetched) (va n : Nat) =>
      match f with
      | .wait xs => { c with wait := c.wait ++ xs, used := c.used ++ [(va, n)] }
      | _ => { c with used := c.used ++ [(va, n)] }
    if recField bs 0x16 1 / 2 % 2 = 1 then
      if s.checkBoundary p c bs ≠ 0 then c
      else (span 64 ((s.part p).tape.length - 64)).foldl (fun c n => add c (s.readTape p n) (tapeSlot (s.part p) n) 64) c
    else
      let va := recField bs 0 8
      add c (s.readKinfo p va) va 128

/-- The eligible head candidate of a queue, a timer's fire apart: a stream fire, then the store, then the ring (R313). A popped
record of a queue with EN = 0 is taken to be rejected (R319). -/
def State.candOf (s : State) (p q : Nat) : Option Cand :=
  let ok := fun (c : Cand) => s.candMet p c && ((c.sr.popOrder.isSome && !(s.queue p q).en) || (s.queueMet p q && (!(s.queue p q).streamq || s.streamMet p c)))
  ((s.heads p q).map (s.readyCand p)).find? fun c => c.wait.isEmpty && ok c

/-- The eligible head candidate (R314, R322). -/
def State.eligible (s : State) (p q : Nat) : Option Cand :=
  let x := s.queue p q
  if x.en && x.timer && x.fireDue.isNone then none else s.candOf p q

/-- Queues of a partition that may hold a candidate. -/
def State.takeQueues (s : State) (p : Nat) : List Nat :=
  dedup ((SMap.keys (s.part p).queues) ++ ((s.part p).store.map fun r => r.queue))

/-- What the head candidates of enabled queues need from other packages is asked for (R106). -/
def State.askTakes (s : State) (p : Nat) : State :=
  (s.takeQueues p).foldl (fun s q =>
    if (s.queue p q).en then
      ((s.heads p q).flatMap fun c => (s.readyCand p c).wait).foldl
        (fun s x => s.askRecord (.take p) (.take p (s.queue p q).classH) x.1 x.2.1 x.2.2) s
    else s) s

/-- The take unit's choice (R314). -/
def State.choose (s : State) (p : Nat) : Option Cand :=
  let cs := (s.takeQueues p).filterMap fun q => s.eligible p q
  minBy (fun c =>
    let x := s.queue p c.q
    ((if x.classH then 8 else 0) + (7 - x.prio)) * 64 + (c.q + 63 - (s.part p).lastTaken) % 64) cs

/-- A rejection: it ends at once and is reported (R316). -/
def State.rejectRec (s : State) (p q num cause : Nat) : State :=
  let x := s.queue p q
  let s := s.setQueue p q { x with stat := x.stat ||| 2#3, rej := wordOf (cause + 256 * num) }
  let s := s.endNum p q num
  s.raiseEntry p ⟨⟨.launchReject, 0, 0, 0, 0, dwordOf cause, false⟩, false, 0, wordOf (num % 2 ^ 24 + q * 2 ^ 24), 0, [], .none⟩

/-! The tape (R319). -/

/-- Pop one cut record into the store; after the last, the boundary ends. -/
def State.popTape (s : State) (p : Nat) (order : Nat) : State :=
  let pt := s.part p
  match pt.cut with
  | [] => s
  | t :: rest =>
    let r : StoreRec :=
      ⟨t.rq % 64, if t.rq < 64 then t.bytes else setAt t.bytes 0x16 255, t.tapeH, pt.cutPrior, some order, none, 0, 0⟩
    let s := s.setPart p { pt with cut := rest, cutPrior := some order, store := pt.store ++ [r], plsRes := pt.plsRes - 1 }
    match rest, pt.cutLaunch with
    | [], some (q, num) =>
      let pt := s.part p
      (s.setPart p { pt with cutLaunch := none, cutOrder := none, cutPrior := none }).endNum p q num
    | _, _ => s

/-- Pop everything that an earlier boundary cut and that has not been popped. -/
def State.popAll : Nat → State → Nat → State
  | 0, s, _ => s
  | n + 1, s, p => if (s.part p).cut.isEmpty then s else State.popAll n (s.popTape p (s.fresh * 2 ^ 17 + n)) p

/-- The records of a cut tape, the last pushed first: those beyond the first 64 are read back from their places (R318). -/
def State.cutRecs (s : State) (p : Nat) : List TapeRec :=
  let ts := (s.part p).tape
  ((span 0 ts.length).zip ts).reverse.map fun x =>
    if x.1 < 64 then x.2
    else
      match s.readTape p x.1 with
      | .got bs => { x.2 with bytes := bs, rq := recField bs 0x17 1 }
      | _ => { x.2 with bytes := [] }

/-- A boundary's take cuts the tape. -/
def State.cutTape (s : State) (p q num : Nat) (order : Option Nat) : State :=
  let s := State.popAll (s.part p).cut.length s p
  let pt := s.part p
  if pt.tape.isEmpty then s.endNum p q num
  else s.setPart p { pt with cut := s.cutRecs p, tape := [], cutLaunch := some (q, num), cutOrder := order, cutPrior := none }

/-- TAPE_POP (R319): a cut tape record is popped into the pending store once the previously popped launch has ended. -/
def execTapePop (part : Nat) (s : State) : Out := .next (s.popTape part (s.fresh * 2 ^ 17 + 2 ^ 16))

/-! Taking (R314). -/

/-- The record leaves its source. -/
def State.consume (s : State) (p : Nat) (c : Cand) : State :=
  let pt := s.part p
  match c.source with
  | .fire => s.setPart p { pt with fires := pt.fires.erase c.sr }
  | .store => s.setPart p { pt with store := pt.store.erase c.sr }
  | .ring =>
    let x := s.queue p c.q
    s.setQueue p c.q { x with head := x.head + 1, pubs := x.pubs.drop 1 }

/-- A launch made from a record (R308, R313, R314). -/
def State.newLaunch (s : State) (p q num seq : Nat) (c : Cand) (k : KInfo) (bs : List Byte) : State :=
  let persist := recField bs 0x16 1 % 2 == 1
  let stream := match c.sr.stream with | some e => some e | none => recStream bs
  let l : Launch := {
    part := p, queue := q, num := num, seq := seq, classH := (s.queue p q).classH, k := k, args := dwordOf (recField bs 8 8)
    teams := recField bs 0x10 4, tsize := recField bs 0x14 2, persist := persist, iters := recField bs 0x18 4, tile := recField bs 0x1C 2
    rangeOff := recField bs 0x1E 2, stream := stream, steal := (s.queue p q).steal, placed := 0, finished := 0, killed := false
    ended := false, start := s.wseq, bars := [], prior := c.sr.popOrder }
  let s : State := { s with launches := SMap.put s.launches s.nextUid l, nextUid := s.nextUid + 1 }
  match stream with
  | some e => s.updStream e fun x => { x with sst := .active }
  | none => s

/-- The take unit is done with what it read for a record from other packages. -/
def State.dropUsed (s : State) (p : Nat) (used : List (Nat × Nat)) : State :=
  { s with recs := s.recs.filter fun r =>
      decide (r.who ≠ .take p) || !(used.any fun u => decide (r.va < u.1 + u.2) && decide (u.1 < r.va + r.n)) }

/-- The cause of a rejection of a record that cannot be read: the first row of Table 16-4 that applies. -/
def State.unreadCause (s : State) (p : Nat) (c : Cand) : Nat :=
  if c.sr.tapeH && !(s.queue p c.q).classH then 10 else if c.sr.popOrder.isSome && !(s.queue p c.q).en then 11 else 12

/-- Check a record that has been taken, and act on it. -/
def State.actOn (s : State) (p num seq : Nat) (c : Cand) : State :=
  match c.bytes with
  | none => s.rejectRec p c.q num (s.unreadCause p c)
  | some bs =>
    if recField bs 0x16 1 / 2 % 2 = 1 then
      match s.checkBoundary p c bs with
      | 0 => s.cutTape p c.q num c.sr.popOrder
      | cause => s.rejectRec p c.q num cause
    else
      match s.checkRec p c bs with
      | (0, some k) => s.newLaunch p c.q num seq c k bs
      | (cause, _) => s.rejectRec p c.q num cause

/-- Take a record. -/
def State.take (s : State) (p : Nat) (c : Cand) : State :=
  let s := s.consume p c
  let x := s.queue p c.q
  let num := x.nextNum
  let pt := s.part p
  let seq := pt.nextTake
  let s := s.setPart p { pt with nextTake := seq + 1, lastTaken := c.q }
  let s := s.setQueue p c.q { s.queue p c.q with nextNum := num + 1, fireDue := none }
  (s.actOn p num seq c).dropUsed p c.used

/-- TAKE_RECORD (R314): the take unit takes one eligible head-candidate launch record, checks it and admits its teams to PLACING. -/
def execTakeRecord (part : Nat) (s : State) : Out :=
  .next (if s.isRunning part then
    let s := s.askTakes part
    match s.choose part with
    | some c => s.take part c
    | none => s
  else s)

/-! Timers (R322). -/

/-- The time of a queue's next fire; none where it has no fires. -/
def Queue.nextFire (x : Queue) : Option Nat :=
  if x.en && x.timer && x.tperiod ≠ 0 then some (x.tstart.toNat + x.fires * x.tperiod.toNat) else none

/-- A fire that finds no eligible record. -/
def Queue.missFire (x : Queue) : Queue := { x with miss := Nat.min (x.miss + 1) (2 ^ 32 - 1), stat := x.stat ||| 4#3 }

/-- A fire of a timer queue: its record becomes eligible, or the fire is a miss. Timer queues take no fires in REDUCED (R377). -/
def State.timerFire (s : State) (p q : Nat) : State :=
  let x := s.queue p q
  match x.nextFire with
  | none => s
  | some t =>
    if s.ptime < t then s
    else
      let y := { x with fires := x.fires + 1 }
      if s.svc = .reduced then s.setQueue p q y
      else if s.isRunning p && (s.candOf p q).isSome && x.fireDue.isNone then s.setQueue p q { y with fireDue := some t }
      else s.setQueue p q y.missFire

/-- TIMER_FIRE (R322): a timer queue's fire time arrives and one eligible record is taken or a miss is counted. -/
def execTimerFire (part q : Nat) (s : State) : Out := .next (s.timerFire part q)

/-- The first fire at or after a time. -/
def firstFire (start period now : Nat) : Nat := if now ≤ start ∨ period = 0 then 0 else (now - start + period - 1) / period

/-! Queue registers (R311, R312). -/

/-- The fields of QCTL. -/
def Queue.withCtl (x : Queue) (v : Nat) : Queue :=
  { x with classH := field v 1 1 == 1, prio := field v 2 3, log2s := field v 5 5, steal := field v 10 1 == 1, timer := field v 11 1 == 1
           streamq := field v 12 1 == 1 }

/-- Steal-enabled queues of a partition. -/
def State.stealers (s : State) (p q : Nat) : Nat := ((s.part p).queues.filter fun x => x.1 ≠ q && x.2.en && x.2.steal).length

/-- EN may not go from 0 to 1. -/
def State.enRefused (s : State) (p q : Nat) (x : Queue) : Bool :=
  decide (x.log2s > 16) || (x.steal && x.classH) || (x.steal && decide (s.stealers p q ≥ 8)) || (x.timer && x.streamq)

def State.writeQctl (s : State) (p q : Nat) (v : Word) : State :=
  let x := s.queue p q
  let on := v.getLsbD 0
  if x.en then s.setQueue p q { x with en := on, fireDue := if on then x.fireDue else none }
  else
    let x := x.withCtl v.toNat
    if !on then s.setQueue p q x
    else if s.enRefused p q x then s.setQueue p q { x with stat := x.stat ||| 2#3, rej := 15 }
    else s.setQueue p q { x with en := true, fires := firstFire x.tstart.toNat x.tperiod.toNat s.ptime }

/-- QCTL_WRITE (R312): a write of QCTL sets queue fields while disabled, or enables the queue subject to refusal. -/
def execQctlWrite (part q : Nat) (v : Word) (s : State) : Out := .next (if part < 8 ∧ q < 64 then s.writeQctl part q v else s)

/-- QTAIL_WRITE (R312): a host write of QTAIL advances the tail only when tail < V ≤ head + S. -/
def execQtailWrite (part q : Nat) (v : DWord) (s : State) : Out :=
  .next (if part < 8 ∧ q < 64 then s.writeTail part q v.toNat else s)

/-! Stream contexts (R86-R88, R324-R326). -/

/-- The outcome of a command, and the command itself. -/
def State.scDone (s : State) (cmd e st : Nat) : State := { s with scCmd := wordOf (cmd + 16 * e), scStat := st }

/-- The entry's fields as BIND reads them, where they are in range. -/
def State.readStream (s : State) (e : Nat) : Option Stream :=
  let bs := s.readBytes (s.keyTag 0) (s.stBase.toNat % 2 ^ 48 + 64 * e) 64
  let part := recField bs 9 1
  let nbanks := recField bs 0x0A 1
  let silence := recField bs 0x0C 2
  let period := recField bs 0x30 4
  let q := recField bs 0x34 2
  let backing := recField bs 0x10 8
  if decide (part < 8) && decide (1 ≤ nbanks) && decide (nbanks ≤ 8) && decide (1 ≤ silence) && backing % 128 == 0 && decide (backing + nbanks * bankBytes ≤ hbmBytes) &&
      decide (100000 ≤ period) && decide (q < 64) && (s.queue part q).streamq then
    some { sst := .evicted, part := part, banks := [], nbanks := nbanks, place := 0, silence := silence, rld := false, late := false
           backing := dwordOf backing, lastChunk := recField bs 0x18 8, tlrec := dwordOf (recField bs 0x20 8)
           tstart := dwordOf (recField bs 0x28 8), tperiod := period, queue := q, silcnt := 0
           fires := firstFire (recField bs 0x28 8) period s.ptime, chunkWaits := false, absent := [] }
  else none

/-- BIND (R324): SCCMD BIND binds a free stream-context entry and starts its fires, or reports BADENTRY. -/
def execBind (e : Nat) (s : State) : Out :=
  .next (if (s.stream e).sst ≠ .free ∨ s.svc = .reduced then s.scDone 1 e 1
    else
      match s.readStream e with
      | none => s.scDone 1 e 2
      | some x => ((s.setStream e x).writeStream e).scDone 1 e 0)

/-- An entry stops its fires and becomes FREE. -/
def State.freeStream (s : State) (e : Nat) : State :=
  let x := s.stream e
  let s := x.banks.foldl State.freeBank s
  let s := s.updStream e fun x => { x with sst := .free, banks := [], rld := false, chunkWaits := false, absent := [] }
  let pt := s.part x.part
  s.setPart x.part { pt with fires := pt.fires.filter fun r => r.stream ≠ some e }

/-- UNBIND (R324): SCCMD UNBIND stops an entry's fires and frees it. -/
def execUnbind (e : Nat) (s : State) : Out :=
  .next (match (s.stream e).sst with
    | .evicted => (s.freeStream e).scDone 2 e 0
    | .idle => (s.freeStream e).scDone 2 e 0
    | _ => s.scDone 2 e 1)

/-- CHUNK (R324): SCCMD CHUNK records the chunk time and starts a reload of an evicted entry. -/
def execChunk (e : Nat) (s : State) : Out :=
  .next (match (s.stream e).sst with
    | .free => s.scDone 3 e 1
    | .evicted => (s.updStream e fun x => { x with lastChunk := s.ptime, rld := true }).scDone 3 e 0
    | .evicting => (s.updStream e fun x => { x with lastChunk := s.ptime, chunkWaits := true }).scDone 3 e 0
    | _ => (s.updStream e fun x => { x with lastChunk := s.ptime }).scDone 3 e 0)

/-- The time of an entry's next fire. -/
def Stream.nextFire (x : Stream) : Option Nat :=
  if x.sst = .free then none else some (x.tstart.toNat + x.fires * x.tperiod)

/-- A fire of a bound entry (R325). -/
def State.streamFire (s : State) (e : Nat) : State :=
  let x := s.stream e
  match x.nextFire with
  | none => s
  | some t =>
    if s.ptime < t then s
    else
      let fresh := if x.fires = 0 then x.lastChunk ≠ 0 else decide (x.lastChunk + x.tperiod > t)
      if fresh then
        let s := s.updStream e fun x => { x with silcnt := 0, fires := x.fires + 1 }
        let pt := s.part x.part
        s.setPart x.part { pt with fires := pt.fires ++ [{ StoreRec.blank x.queue with stream := some e, fireAt := t, addr := x.tlrec }] }
      else
        let n := Nat.min (x.silcnt + 1) 65535
        let out := x.sst = .idle ∧ n > x.silence
        s.updStream e fun x => { x with silcnt := n, fires := x.fires + 1, sst := if out then .evicting else x.sst }

/-- STREAM_FIRE (R325): a bound stream entry's fire time arrives, taking its record or counting silence. -/
def execStreamFire (e : Nat) (s : State) : Out := .next (s.streamFire e)

/-- Copy the banks of an entry to BACKING, under the partition's key, at G class (R12, R324). -/
def State.saveBanks (s : State) (e : Nat) : State :=
  let x := s.stream e
  let tag := s.keyTag (s.part x.part).ptKey
  let one := fun (s : State) (i : Nat) =>
    let b := atD x.banks i 0
    let pa := x.backing.toNat + i * bankBytes
    (s.writeBytes tag pa ((span (b * bankBytes) bankBytes).map s.sramByte)).askHome ⟨pa / 128, 1024, 0, false, 8 * x.place, true, tag, none, 0⟩
  (span 0 x.banks.length).foldl one s

/-- Lines of an entry's banks whose presence bits are clear, numbered within the context. -/
def State.absentOf (s : State) (banks : List Nat) : SMap Nat :=
  (span 0 banks.length).flatMap fun i =>
    (s.absentLines.filter fun x => x.1 / 1024 == atD banks i 0).map fun x => (i * 1024 + x.1 % 1024, x.2)

/-- The eviction copy completes (R324). -/
def execStreamEvictionComplete (e : Nat) (s : State) : Out :=
  outMem (if (s.stream e).sst ≠ .evicting then s
    else
      let x := s.stream e
      let gone := s.absentOf x.banks
      let s := s.saveBanks e
      let s := x.banks.foldl State.freeBank s
      s.updStream e fun x =>
        { x with sst := .evicted, banks := [], absent := gone, rld := x.chunkWaits, chunkWaits := false })

/-- The cluster of the partition that a reload uses: the one in PLACE where it can, else the first that has the banks (R326). -/
def State.reloadCluster (s : State) (e : Nat) : Option Nat :=
  let x := s.stream e
  let fits := fun (c : Nat) => decide (x.nbanks ≤ (s.poolBanks c).length)
  let cls := s.clustersOf x.part
  (cls.find? fun c => c == x.place && fits c).or (cls.find? fits)

/-- A reload fills the banks (R326). -/
def execStreamReloadComplete (e : Nat) (s : State) : Out :=
  let x := s.stream e
  .next (if x.sst ≠ .evicted ∨ !x.rld then s
    else
      match s.reloadCluster e with
      | none => s
      | some c =>
        let bs := (s.poolBanks c).take x.nbanks
        let tag := s.keyTag (s.part x.part).ptKey
        let s := bs.foldl (fun s b => s.takeBank b .scratch (.stream e)) s
        let fill := fun (s : State) (i : Nat) =>
          (span 0 bankBytes).foldl (fun s o => s.setSram (atD bs i 0 * bankBytes + o) (s.readByte tag (x.backing.toNat + i * bankBytes + o))) s
        let s := ((span 0 bs.length).foldl fill s).askHome ⟨x.backing.toNat / 128, 1024 * bs.length, 0, false, 8 * c, false, tag, none, 0⟩
        let s : State := { s with absentLines := x.absent.foldl (fun m y => SMap.put m (atD bs (y.1 / 1024) 0 * 1024 + y.1 % 1024) y.2) s.absentLines }
        let late := (s.part x.part).fires.any fun r => r.stream == some e && decide (r.fireAt + 2000 < s.ptime)
        s.updStream e fun x => { x with sst := .idle, banks := bs, place := c, rld := false, late := x.late || late, absent := [] })

end Sys2Proof.Machine
end

