-- ==== Sys2Proof/Machine/Driver.lean ====
section
/-! DEFINITION. Device events of the fault queue (R329-R332), of stops and debugging (R278, R333), of pre-emption, resume and swap
(R334-R341), and of clusters that change hands (R328). An event whose moment has not come changes nothing. -/

namespace Sys2Proof.Machine

/-! The fault ring. -/

/-- LOG2N of a write, where it names a ring. -/
def log2nOf (old v : Nat) : Nat := if 6 ≤ field v 2 5 ∧ field v 2 5 ≤ 16 then field v 2 5 else old

/-- A write of FQCTL (R329): setting EN numbers entries from 1 and posts what waits. -/
def State.writeFqctl (s : State) (p : Nat) (v : Word) : State :=
  let pt := s.part p
  let on := v.getLsbD 0
  let pt' := { pt with fqEn := on, fqIe := v.getLsbD 1, fqLog2n := log2nOf pt.fqLog2n v.toNat }
  if on && !pt.fqEn then
    State.postWaiting (pt.wantPost.length + pt.hold.length) (s.setPart p { pt' with nextSeq := 1, posted := 0, posts := [], outstanding := pt.outstanding.map fun x => (0, x.2) }) p
  else s.setPart p pt'

/-- FQCTL_WRITE (R329): a write of FQCTL sets the fault ring; setting EN posts the held entries from SEQ 1. -/
def execFqctlWrite (part : Nat) (v : Word) (s : State) : Out := outMem (if part < 8 then s.writeFqctl part v else s)

/-- A write of FQHEAD (R327, R332). -/
def State.writeFqhead (s : State) (p : Nat) (v : DWord) : State :=
  let pt := s.part p
  if pt.fqHead < v.toNat ∧ v.toNat ≤ pt.fqTail then
    State.postWaiting (pt.wantPost.length + pt.hold.length) (s.setPart p { pt with fqHead := v.toNat }) p else s

/-- FQHEAD_WRITE (R332): a write of FQHEAD consumes entries, letting waiting REPLAY and STOP entries be posted. -/
def execFqheadWrite (part : Nat) (v : DWord) (s : State) : Out := outMem (if part < 8 then s.writeFqhead part v else s)

/-- The partition's fault interrupt to the host harts (FQCTL.IE, Table 17-1). -/
def State.faultIrq (s : State) (p : Nat) : Bool := (s.part p).fqIe && decide ((s.part p).fqTail ≠ (s.part p).fqHead)

/-! Responses (R331). -/

/-- Set bits of FQSTAT. -/
def State.setFqStat (s : State) (p : Nat) (m : BitVec 4) : State :=
  let pt := s.part p
  s.setPart p { pt with fqStat := pt.fqStat ||| m }

/-- The outstanding entry that a response names: BADRESP or STALE where there is none to answer. -/
def State.answerable (s : State) (p seq act : Nat) : Sum (BitVec 4) FEntry :=
  let pt := s.part p
  match SMap.find pt.posts seq with
  | none => .inl 4#4
  | some c =>
    if act = 0 ∨ act > 4 ∨ c.cls = .done ∨ c.cls = .note ∨ (act = 3 ∧ c ≠ .trap) then .inl 4#4
    else
      match pt.outstanding.find? fun x => x.1 == seq with
      | some x => .inr x.2
      | none => .inl 8#4

/-- What an entry holds goes on (R331). -/
def State.replayEntry (s : State) (p : Nat) (e : FEntry) : State :=
  let s := s.dropOutstanding p fun x => x == e
  match e.target with
  | .group gk => (s.resumeGroup gk).updGroup gk fun g => { g with trapNext := none }
  | .command ch => s.replayCmd ch e.info.pc.toNat
  | .none => s

/-- Two addresses lie in one page of a partition's tables. -/
def State.samePage (s : State) (p a b : Nat) : Bool :=
  let pt := s.part p
  let big := match s.walkLeaf pt.ptBase.toNat (s.keyTag pt.ptKey) a with | .inr (2, _) => true | _ => false
  a / 2 ^ 16 == b / 2 ^ 16 || (big && a / 2 ^ 29 == b / 2 ^ 29)

/-- Lanes that stand at a `trap` or `brk` go to the instruction after it, which the lookahead windows count (R150). -/
def State.passTrap (s : State) (gk : Nat) : State :=
  match s.group? gk with
  | none => s
  | some g =>
    match g.trapNext with
    | none => s
    | some (at_, next) =>
      let m := Mask.ofPred fun l => (g.lane l).onSome && (g.lane l).pc == at_
      let s := s.updGroup gk fun g =>
        Group.closeWindows s.fresh
          { (g.updLanes fun l ln => if m.getLsbD l then { ln with pc := next } else ln) with trapNext := none } m g.nextPend
      (s.repath gk m).grantHeld 64 (s.coreOf gk)

/-- The launch of what an entry holds. -/
def State.entryLaunch (s : State) (e : FEntry) : Option Nat := ((s.entryTeam e).bind s.team?).map (·.launch)

/-- KILL (R331): no entry of the launch stays outstanding. -/
def State.killFor (s : State) (p : Nat) (e : FEntry) : State :=
  match s.entryLaunch e with
  | none => s.dropOutstanding p fun x => x == e
  | some lid => (s.dropOutstanding p fun x => s.entryLaunch x == some lid).killLaunch lid

/-- A write of FQRESP. -/
def State.respond (s : State) (p : Nat) (seq : Word) (act : Nat) : State :=
  let pt := s.part p
  let s := s.setPart p { pt with fqResp := dwordOf (seq.toNat + act * 2 ^ 32) }
  match s.answerable p seq.toNat act with
  | .inl m => s.setFqStat p m
  | .inr e =>
    match act with
    | 1 => s.replayEntry p e
    | 2 =>
      let more := (pt.outstanding.map (·.2)).filter fun x =>
        x ≠ e && x.info.cause.cls == .replay && s.samePage p e.info.addr.toNat x.info.addr.toNat
      more.foldl (fun s x => s.replayEntry p x) (s.replayEntry p e)
    | 3 =>
      match e.target with
      | .group gk => (((s.dropOutstanding p fun x => x == e).resumeGroup gk).passTrap gk)
      | _ => s
    | _ => s.killFor p e

/-- REPLAY (R331): FQRESP REPLAY re-issues the named instruction or replays the command whole. -/
def execReplay (part : Nat) (seq : Word) (s : State) : Out := outMem (if part < 8 then s.respond part seq 1 else s)

/-- REPLAY_PAGE (R331): FQRESP REPLAY_PAGE replays the named entry and every outstanding REPLAY entry in the same page. -/
def execReplayPage (part : Nat) (seq : Word) (s : State) : Out := outMem (if part < 8 then s.respond part seq 2 else s)

/-- SKIP (R331): FQRESP SKIP resumes a TRAP-stopped group at the instruction after the trap. -/
def execSkip (part : Nat) (seq : Word) (s : State) : Out := outMem (if part < 8 then s.respond part seq 3 else s)

/-- KILL (R331): FQRESP KILL ends the launch, discarding its commands at chunk boundaries. -/
def execKill (part : Nat) (seq : Word) (s : State) : Out := outMem (if part < 8 then s.respond part seq 4 else s)

/-! Pre-emption (R334). -/

/-- Teams of a partition, by number. -/
def State.teamsOf (s : State) (p : Nat) : List (Nat × Team) := s.teams.filter fun x => x.2.tst ≠ .done && s.teamPart x.2 == p

/-- A group of the partition is HALTED by the debugger: a resident one (Table 2-4). -/
def State.anyHalted (s : State) (p : Nat) : Bool :=
  (s.teamsOf p).any fun x => x.2.tst == .resident && (s.teamGroups x.1).any fun y => y.2.halted

/-- Note the outcome of a command. -/
def State.setRes (s : State) (p r : Nat) : State := s.setPart p { s.part p with res := r }

/-- Every group of a partition stops (R47 stop step). -/
def State.stopPart (s : State) (p : Nat) : State :=
  let s := (s.teamsOf p).foldl (fun s x => if x.2.tst = .resident then s.stopTeam x.1 else s) s
  s.setPart p { s.part p with pst := .stopping, held := none }

/-- PREEMPT: held while a debugger holds a group (R333). -/
def State.preempt (s : State) (p : Nat) : State :=
  if (s.part p).pst ≠ .running then s.setRes p 1
  else if s.anyHalted p then s.setPart p { s.part p with held := some 1 }
  else s.stopPart p

/-- PREEMPT (R334): PCMD PREEMPT stops every group of the partition and begins draining and saving it. -/
def execPreempt (part : Nat) (s : State) : Out :=
  .next (if part < 8 then (s.setPart part { s.part part with pcmdCmd := 1 }).preempt part else s)

/-- A queue of class G is drained: nothing of it runs, has run, or will run without a `gslot.set`, staging space, a merge's turn or
a response (R334 step 3). -/
def State.drained (s : State) (ch : Nat) : Bool :=
  match (s.chan ch).queue with
  | [] => (s.lateStaged ch).isNone
  | c :: _ => !c.ran && !s.headRuns ch && !s.headDiscards ch && !s.cmdRemotes ch c.num && (s.lateStaged ch).isNone

/-- Channels of class G of the partition's cores. -/
def State.gChans (s : State) (p : Nat) : List Nat :=
  (SMap.keys s.chans).filter fun ch => decide (ch < 2 ^ 20) && (s.coresOf p).contains (ch / 16)

/-- Banks of the partition's clusters that the map lists. -/
def State.partBanks (s : State) (p : Nat) : List (Nat × Bank) := s.banks.filter fun x => (s.cluster (x.1 / 64)).part == p

/-- The stop has drained: results have landed, no bank is in TRANSIT, and channels of class G are drained. -/
def State.stopDone (s : State) (p : Nat) : Bool :=
  (s.part p).pst == .stopping &&
    ((s.teamsOf p).all fun x => x.2.tst ≠ .resident || s.teamLanded x.1) &&
    ((s.partBanks p).all fun x => x.2.transit.isNone) && (s.gChans p).all s.drained

/-- Take the image of a partition off its clusters: banks (all of them, or those that teams and streams own), their bytes and presence
bits, and the channels of class G; the banks pass through DEEP, those in CACHE that are not kept after writing back their lines (R334). -/
def State.takeImage (s : State) (p : Nat) (all : Bool) : State :=
  let mine := (s.partBanks p).filter fun x => !s.bringUp x.1
  let kept := mine.filter fun x => all || x.2.mode == .scratch || x.2.mode == .fifo
  let has := fun (b : Nat) => kept.any fun x => x.1 == b
  let chs := s.gChans p
  let pt := s.part p
  let s := s.setPart p { pt with
    image := true, bankImage := kept, sramImage := s.sram.filter fun x => has (x.1 / bankBytes)
    absentImage := s.absentLines.filter fun x => has (x.1 / 1024), chanImage := s.chans.filter fun x => chs.contains x.1
    shape := s.clustersOf p }
  let s := mine.foldl (fun s x => (if has x.1 then s else s.flushWay x.1 (x.1 / 64 * 8) false).freeBank x.1) s
  { s with chans := s.chans.filter fun x => !chs.contains x.1 }

/-- Put an image back. -/
def State.putImage (s : State) (p : Nat) : State :=
  let pt := s.part p
  let own := fun (b : Nat) => (s.cluster (b / 64)).part == p
  let s : State := { s with
    banks := (pt.bankImage.filter fun x => own x.1).foldl (fun m x => SMap.put m x.1 x.2) s.banks
    sram := (pt.sramImage.filter fun x => own (x.1 / bankBytes)).foldl (fun m x => SMap.put m x.1 x.2) s.sram
    absentLines := (pt.absentImage.filter fun x => own (x.1 / 1024)).foldl (fun m x => SMap.put m x.1 x.2) s.absentLines
    chans := (pt.chanImage.filter fun x => own (x.1 / 128 * 64)).foldl (fun m x => SMap.put m x.1 x.2) s.chans }
  s.setPart p { pt with image := false, bankImage := [], sramImage := [], absentImage := [], chanImage := [], shape := [] }

/-- Teams leave their cores for an image, and no entry of theirs, or of teams evicted before, stays outstanding (R331). -/
def State.saveTeams (s : State) (p : Nat) (st : TeamSt) : State :=
  (s.teamsOf p).foldl (fun s x =>
    let s := s.dropEntries x.1
    if x.2.tst = .resident then (s.writeQueues x.1).updTeam x.1 fun t => { t with tst := st } else s) s

/-- Bytes of save area for each cluster (Table 17-1). -/
def saveSize : Nat := 0xD00000

/-- The lines of a partition's save area, for the clusters of its image. -/
def State.saveArea (s : State) (p : Nat) : Nat × Nat :=
  let pt := s.part p
  (pt.saveBase.toNat % 2 ^ 48 / 128, saveSize * pt.shape.length / 128)

/-- The save image is written at SAVEBASE under the partition's key (R334 step 5; log 35). -/
def State.writeSave (s : State) (p : Nat) : State :=
  let (line, n) := s.saveArea p
  let r := (s.needMem (128 * (line + n) - 1)).putBlob (s.imageTag p) line n
  r.1.setPart p { r.1.part p with saveId := r.2 }

/-- PREEMPT_SAVE: the images are written, and the partition is SAVED (R334 steps 5 and 6). -/
def execPreemptSave (part : Nat) (s : State) : Out :=
  outMem (if s.stopDone part && (s.part part).swapIn.isNone then
    let s := ((s.takeImage part false).saveTeams part .saved).writeSave part
    s.setPart part { s.part part with pst := .saved, res := 0 }
  else s)

/-! Resume (R335, R336, R374). -/

/-- The warm reserve takes POOL banks of a cluster, in NAP (R75). -/
def State.giveWarm (s : State) (cl : Nat) : State :=
  let n := (s.cluster cl).warm
  ((s.poolBanks cl).take n).foldl (fun s b => s.setBank b { s.bank b with pwr := .nap, warm := true, refill := false }) s

/-- Each bank of a cluster takes the role that BANKROLE gives it (R374). -/
def State.giveRoles (s : State) (cl : Nat) : State :=
  let c := s.cluster cl
  let s := (span (64 * cl) 64).foldl (fun s b =>
    if s.bringUp b then s
    else if c.role.getLsbD (b % 64) then (s.clearBank b).setBank b { Bank.reset with mode := .cache, pwr := .on, lastUse := s.now }
    else s.freeBank b) s
  s.giveWarm cl

/-- The tags of saved images may fail: the save area, where it now lies, does not hold the image as it was written. With none of it
there every tag fails; with some of it gone, those whose bytes are, which the manual does not place, a free choice (R336; log 35). -/
def State.saveBad (s : State) (p tuid : Nat) : Bool :=
  let pt := s.part p
  let (line, n) := s.saveArea p
  if s.holdsImage pt.saveId (s.imageTag p) line n then false
  else if (span line n).any (s.holdsLine pt.saveId (s.imageTag p)) then Config.free 15 s.fresh tuid % 2 == 1
  else true

/-- A team of an image comes back on the core it left; one whose tag fails ends (R336). -/
def State.restoreTeam (s : State) (p tuid : Nat) (bad : Bool) : State :=
  match s.team? tuid with
  | none => s
  | some t =>
    if (s.cluster (t.core / 8)).part ≠ p then s
    else
      let s := s.updTeam tuid fun t => { t with tst := .resident }
      if bad then s.endWith tuid ⟨.imageBad, 0, 0, 0, 0, 0, false⟩ none
      else ((((s.retryCmds tuid).acquireTeam tuid).wakeTeam tuid).proxyTest tuid).grantHeld 64 t.core

/-- Teams of a partition in an image come back. -/
def State.restoreTeams (s : State) (p : Nat) (st : TeamSt) (bad : Nat → Bool) : State :=
  ((s.teamsOf p).filter fun x => x.2.tst == st).foldl (fun s x => s.restoreTeam p x.1 (bad x.1)) s

/-- A partition runs from now on. -/
def State.startPart (s : State) (p : Nat) : State :=
  s.setPart p { s.part p with pst := .running, res := 0, sliceStart := s.ptime }

/-- RESUME. -/
def State.resumePart (s : State) (p : Nat) : State :=
  if (s.part p).pst ≠ .saved ∨ s.clustersOf p = [] then s.setRes p 1
  else
    let had := (s.part p).image
    let bad := s.saveBad p
    let s := (s.clustersOf p).foldl State.giveRoles s
    let s := (s.putImage p).startPart p
    if had then s.restoreTeams p .saved bad else s

/-- RESUME (R335): PCMD RESUME restores every team of a saved partition and re-enables the take unit. -/
def execResume (part : Nat) (s : State) : Out :=
  outMem (if part < 8 then (s.setPart part { s.part part with pcmdCmd := 2 }).resumePart part else s)

/-! Swap (R340, R341). -/

/-- Partitions whose image lies in the shadow store of a die of some clusters. -/
def State.shadowsOver (s : State) (cls : List Nat) (but : List Nat) : List Nat :=
  (span 0 8).filter fun q =>
    !but.contains q && (s.part q).pst == .shadow && (s.part q).shape.any fun c => cls.any fun d => c / 24 == d / 24

/-- The image of a swapped-out partition is lost: it is SAVED without an image, and its teams end with IMAGE_BAD (log 83). -/
def State.loseShadow (s : State) (q : Nat) : State :=
  let s := s.setPart q { s.part q with
    pst := .saved, image := false, bankImage := [], sramImage := [], absentImage := [], chanImage := [], shape := [] }
  ((s.teamsOf q).filter fun x => x.2.tst == .shadow).foldl
    (fun s x => s.endWith x.1 ⟨.imageBad, 0, 0, 0, 0, 0, false⟩ none) s

/-- The outcome of SWAP (R340): RES. A die's shadow store holds one image (R341), and the manual does not say what becomes of it where
another partition is swapped out with IN = 8 to the same die: the model answers OK, as R340's rows do, and the exchange replaces the
older image (log 83). -/
def State.swapRes (s : State) (p inp : Nat) : Nat :=
  let mine := s.clustersOf p
  if (s.part p).pst ≠ .running ∨ (span 0 8).any (fun q => (s.part q).swapIn.isSome) = true then 1
  else if (mine.filter fun c => decide (c < 24)).length > 3 ∨ (mine.filter fun c => decide (24 ≤ c)).length > 3 then 2
  else if inp > 8 then 5
  else if inp = p ∨ (inp < 8 ∧ (s.part inp).pst ≠ .shadow) then 3
  else if inp < 8 ∧ (s.part inp).shape ≠ mine then 4
  else 0

/-- SWAP: held while a debugger holds a group (R333). -/
def State.swap (s : State) (p inp : Nat) : State :=
  let r := s.swapRes p inp
  if r ≠ 0 then s.setRes p r
  else if s.anyHalted p then s.setPart p { s.part p with held := some (16 + inp) }
  else
    let s := s.stopPart p
    s.setPart p { s.part p with swapIn := some inp, res := 0 }

/-- SWAP (R340): PCMD SWAP stops and drains the writing partition for exchange with a shadowed partition. -/
def execSwap (part inp : Nat) (s : State) : Out :=
  .next (if part < 8 then (s.setPart part { s.part part with pcmdCmd := 3, pcmdIn := inp }).swap part inp else s)

/-- SWAP_EXCHANGE: OUT's banks, groups and channels go to the shadow stores, and IN's come from them (R340, R341); CLPART of the
clusters follows. An image that the stores held, and that is not IN's, is replaced (log 83). -/
def execSwapExchange (part : Nat) (s : State) : Out :=
  outMem (match (s.part part).swapIn with
    | none => s
    | some inp =>
      if !s.stopDone part then s
      else
        let cls := s.clustersOf part
        let s := (s.shadowsOver cls [part, inp]).foldl State.loseShadow s
        let s := (s.takeImage part true).saveTeams part .shadow
        let s := s.setPart part { s.part part with pst := .shadow, swapIn := none, res := 0 }
        let owner := if inp < 8 then inp else 15
        let s := cls.foldl (fun s c => s.setCluster c { s.cluster c with part := owner }) s
        if inp < 8 then ((s.putImage inp).startPart inp).restoreTeams inp .shadow (fun _ => false) else s)

/-- TIME_SLICE_EXPIRY (R334, R335). -/
def execTimeSliceExpiry (part : Nat) (s : State) : Out :=
  let pt := s.part part
  .next (if pt.tslice = 0 ∨ s.ptime < pt.sliceStart + pt.tslice.toNat then s
    else
      let s := s.setPart part { pt with sliceStart := s.ptime }
      match pt.tsact with
      | 1 => s.preempt part
      | 2 => s.swap part pt.pcmdIn
      | _ => s)

/-! Debugging (R278, R333). -/

/-- DEBUGGER_ATTACH (R278): a debugger is attached to or detached from a partition, deciding whether brk halts the group. -/
def execDebuggerAttach (part : Nat) (on : Bool) (s : State) : Out :=
  .next (if part < 8 then s.setPart part { s.part part with debugger := on } else s)

/-- The partition of a group. -/
def State.partOf (s : State) (gk : Nat) : Nat := match s.team? (gk / 32) with | some t => s.teamPart t | none => 15

/-- DEBUG_HALT (R333): an attached debugger halts a group, which becomes HALTED. -/
def execDebugHalt (gk : Nat) (s : State) : Out :=
  .next (match s.group? gk with
    | none => s
    | some g => if g.ended || !s.atHome gk || !(s.part (s.partOf gk)).debugger then s else s.updGroup gk fun g => { g with halted := true })

/-- A held pre-emption or swap goes on once no group of the partition is halted. -/
def State.goHeld (s : State) (p : Nat) : State :=
  if s.anyHalted p then s
  else
    match (s.part p).held with
    | none => s
    | some 1 => (s.setPart p { s.part p with held := none }).preempt p
    | some k => (s.setPart p { s.part p with held := none }).swap p (k - 16)

/-- DEBUG_RELEASE (R333): the debugger releases a halted group, letting held pre-emption proceed. -/
def execDebugRelease (gk : Nat) (s : State) : Out :=
  .next (match s.group? gk with
    | none => s
    | some g =>
      if !g.halted then s
      else
        let s := s.updGroup gk fun g => { g with halted := false }
        let s := if g.stopped then s else s.passTrap gk
        s.goHeld (s.partOf gk))

/-! Clusters that change hands (R328). -/

/-- Every bank of a cluster passes through DEEP, and its channels are reset. -/
def State.scrubCluster (s : State) (cl : Nat) : State :=
  let s := (span (64 * cl) 64).foldl (fun s b => if s.bringUp b then s else s.freeBank b) s
  { s with chans := s.chans.filter fun x => x.1 ≥ 2 ^ 20 || x.1 / 128 ≠ cl }

/-- A partition gives up or takes a cluster only while SAVED. -/
def State.mayMove (s : State) (cl target : Nat) : Bool :=
  let cur := (s.cluster cl).part
  let curOk := cur == 15 ||
    ((s.part cur).pst == .saved && !(s.teamsOf cur).any fun x => x.2.tst == .resident || x.2.tst == .evicted)
  let targetOk := target == 15 || (s.part target).pst == .saved || !s.partExists target
  curOk && targetOk

def State.writeClpart (s : State) (cl : Nat) (v : Word) : State :=
  let target := v.toNat % 16
  if cl ≥ 48 ∨ (8 ≤ target ∧ target ≠ 15) ∨ !s.mayMove cl target then s
  else if (s.cluster cl).part = target then s
  else
    let cur := (s.cluster cl).part
    -- a partition that is configured anew counts its takes from 1 (R314)
    let s := if target < 8 ∧ !s.partExists target ∧ (s.part target).pst = .saved then
      s.setPart target { s.part target with nextTake := 1 } else s
    let s := (s.scrubCluster cl).setCluster cl { s.cluster cl with part := target, waves := [] }
    -- a partition without a cluster reads SAVED, with no image; its saved teams and its launches end, so that it runs with no team
    if cur < 8 && !s.partExists cur then
      let s := (s.launches.filter fun x => x.2.part == cur && !x.2.ended).foldl (fun s x => s.killLaunch x.1) s
      s.setPart cur { s.part cur with pst := .saved, image := false, bankImage := [], sramImage := [], absentImage := [], chanImage := [], shape := [] }
    else s

/-- CLPART_WRITE (R328): a write of CLPART moves a cluster between partitions if both sides are saved, scrubbing it through DEEP. -/
def execClpartWrite (cl : Nat) (v : Word) (s : State) : Out := .next (s.writeClpart cl v)

end Sys2Proof.Machine
end

