-- ==== Sys2Proof/Machine/Keccak.lean ====
section
/-! DEFINITION. SHAKE256 and SHA3-512 (FIPS 202), by which R336, R349 and R350 name digests. -/

namespace Sys2Proof.Machine

/-- The constants of the 24 rounds. -/
def keccakRc : List DWord :=
  [0x0000000000000001#64, 0x0000000000008082#64, 0x800000000000808A#64, 0x8000000080008000#64, 0x000000000000808B#64,
   0x0000000080000001#64, 0x8000000080008081#64, 0x8000000000008009#64, 0x000000000000008A#64, 0x0000000000000088#64,
   0x0000000080008009#64, 0x000000008000000A#64, 0x000000008000808B#64, 0x800000000000008B#64, 0x8000000000008089#64,
   0x8000000000008003#64, 0x8000000000008002#64, 0x8000000000000080#64, 0x000000000000800A#64, 0x800000008000000A#64,
   0x8000000080008081#64, 0x8000000000008080#64, 0x0000000080000001#64, 0x8000000080008008#64]

/-- Rotations of lane (x, y), at place x + 5 y. -/
def keccakRot : List Nat := [0, 1, 62, 28, 27, 36, 44, 6, 55, 20, 3, 10, 43, 25, 39, 41, 45, 15, 21, 8, 18, 2, 61, 56, 14]

/-- One round on 25 lanes. -/
def keccakRound (a : List DWord) (rc : DWord) : List DWord :=
  let at_ := fun (x y : Nat) => atD a (x % 5 + 5 * (y % 5)) 0
  let c := (span 0 5).map fun x => at_ x 0 ^^^ at_ x 1 ^^^ at_ x 2 ^^^ at_ x 3 ^^^ at_ x 4
  let d := (span 0 5).map fun x => atD c ((x + 4) % 5) 0 ^^^ (atD c ((x + 1) % 5) 0).rotateLeft 1
  let t := (span 0 25).map fun i => atD a i 0 ^^^ atD d (i % 5) 0
  -- lane (x, y) goes to (y, 2 x + 3 y): place (x, y) takes lane (x + 3 y, x)
  let b := (span 0 25).map fun i =>
    let j := (i % 5 + 3 * (i / 5)) % 5 + 5 * (i % 5)
    (atD t j 0).rotateLeft (atD keccakRot j 0)
  let e := (span 0 25).map fun i =>
    atD b i 0 ^^^ (~~~(atD b ((i % 5 + 1) % 5 + 5 * (i / 5)) 0) &&& atD b ((i % 5 + 2) % 5 + 5 * (i / 5)) 0)
  match e with
  | [] => []
  | x :: xs => (x ^^^ rc) :: xs

def keccakF (a : List DWord) : List DWord := keccakRc.foldl keccakRound a

/-- Absorb one block of bytes. -/
def keccakAbsorb (a : List DWord) (block : List Byte) : List DWord :=
  keccakF ((span 0 25).map fun i => atD a i 0 ^^^ dwordOf (leNat ((block.drop (8 * i)).take 8)))

/-- Absorb every full block. -/
def keccakBlocks (rate : Nat) : Nat → List DWord → List Byte → List DWord
  | 0, a, _ => a
  | n + 1, a, bs => keccakBlocks rate n (keccakAbsorb a (bs.take rate)) (bs.drop rate)

/-- The sponge: at most one block of output. -/
def keccak (rate suffix out : Nat) (msg : List Byte) : List Byte :=
  let pad := rate - msg.length % rate
  let tail : List Byte :=
    if pad = 1 then [BitVec.ofNat 8 (suffix + 128)]
    else BitVec.ofNat 8 suffix :: (List.replicate (pad - 2) 0 ++ [128])
  let bs := msg ++ tail
  let a := keccakBlocks rate (bs.length / rate) (List.replicate 25 0) bs
  (a.flatMap fun w => natBytes 8 w.toNat).take out

/-- SHAKE256 with 64 bytes of output. -/
def shake256 (msg : List Byte) : List Byte := keccak 136 0x1F 64 msg

def sha3_512 (msg : List Byte) : List Byte := keccak 72 0x06 64 msg

end Sys2Proof.Machine
end

