-- ==== Sys2Proof/Machine/Security.lean ====
section
/-! DEFINITION. Device events of translation caches (R344-R347), keys (R348), firmware stages (R349) and attestation (R350). An event
whose moment has not come changes nothing. -/

namespace Sys2Proof.Machine

/-! Translation caches. -/

/-- TLB_INVALIDATE (R345): a write of TLBINV starts invalidation of one page or all translations and walk caches. -/
def execTlbInvalidate (part : Nat) (v : DWord) (s : State) : Out :=
  .next (if part < 8 then
    let pt := s.part part
    s.setPart part { pt with tlbInv := v, tlbBusy := true, tlbWant := pt.tlbWant ++ [v] }
  else s)

/-- An invalidation covers an address range of `big` size: all, or the page that it names. -/
def invCovers (v : DWord) (page : Nat) (big : Bool) : Bool :=
  v.getLsbD 0 || (if big then page == field v.toNat 29 26 else page == field v.toNat 16 39)

/-- A walk-cache entry lies on the walk of a page that an invalidation covers (R346). -/
def WalkEnt.covered (x : WalkEnt) (v : DWord) : Bool :=
  v.getLsbD 0 || x.pre == field v.toNat (if x.level = 3 then 42 else 29) (if x.level = 3 then 13 else 26)

/-- The partition for which a source makes its accesses. -/
def State.srcPart (s : State) : Src → Nat
  | .lane gk _ => s.partOf gk
  | .engine ch num =>
    let x := s.chan ch
    match (x.queue ++ x.staged).find? fun c => c.num == num with
    | some c => s.cmdPart c
    | none => 15
  | .hart _ p => p
  | .take p _ => p

/-- Accesses of a partition that have been issued and not performed (R345). -/
def State.accessesOpen (s : State) (p : Nat) : Bool :=
  (s.stores.any fun x => s.srcPart x.src == p) || (s.remotes.any fun x => s.srcPart x.src == p)

/-- Cached translations of a partition that some invalidations cover are forgotten: in every TLB, in the walk caches (R345, R346). -/
def State.forget (s : State) (p : Nat) (vs : List DWord) : State :=
  let old := fun (t : Tlb) => t.part == p && vs.any fun v => invCovers v t.page t.big
  let oldW := fun (x : WalkEnt) => x.part == p && vs.any x.covered
  { s with
    tlb1 := s.tlb1.map fun x => (x.1, x.2.filter fun t => !old t)
    tlb2 := s.tlb2.map fun x => (x.1, x.2.filter fun t => !old t)
    walkCache := s.walkCache.map fun x => (x.1, x.2.filter fun t => !oldW t) }

/-- TLB_INVALIDATE_DONE (R345): invalidation completes and TLBSTAT.BUSY reads 0. -/
def execTlbInvalidateDone (part : Nat) (s : State) : Out :=
  let pt := s.part part
  .next (if pt.tlbBusy && !s.accessesOpen part then
    (s.forget part pt.tlbWant).setPart part { pt with tlbBusy := false, tlbWant := [] }
  else s)

/-- FTINV (R347): the fabric translation unit forgets what it covers. -/
def execFabricTlbInvalidate (v : DWord) (s : State) : Out :=
  .next { s with ftInv := v, ftlb := s.ftlb.filter fun x => !invCovers v x.page x.big }

/-- The walk cache of a die keeps the L3 and L2 entries of a walk that it read (R346). -/
def State.keepWalk (s : State) (p die va : Nat) : State :=
  let pt := s.part p
  let tag := s.keyTag pt.ptKey
  let put := fun (level sh e : Nat) (xs : List WalkEnt) =>
    xs.filter (fun x => !(x.part == p && x.level == level && x.pre == va / 2 ^ sh)) ++ [⟨p, level, va / 2 ^ sh, dwordOf e⟩]
  let e3 := s.readEntry tag (pt.ptBase.toNat + 8 * field va 42 13)
  if e3 % 2 = 0 ∨ entryBad 3 e3 = true then s
  else
    let e2 := s.readEntry tag (field e3 16 32 * 2 ^ 16 + 8 * field va 29 13)
    { s with walkCache := SMap.updD s.walkCache die [] fun xs =>
        let xs := put 3 42 e3 xs
        if e2 % 2 = 0 ∨ entryBad 2 e2 = true ∨ field e2 1 1 = 1 then xs else put 2 29 e2 xs }

/-- The lines of the tables that a walk reads are asked of their homes, at the class of its request (R12, R344). -/
def State.askWalk (s : State) (w : Walk) (va : Nat) : State :=
  let pt := s.part w.part
  let tag := s.keyTag pt.ptKey
  let ask := fun (s : State) (a : Nat) => s.askHome ⟨a / 128, 1, duelOf w.classH, w.classH, 384 + w.die, false, tag, none, 0⟩
  let a3 := pt.ptBase.toNat + 8 * field va 42 13
  let e3 := s.readEntry tag a3
  let t := ask s a3
  if e3 % 2 = 0 ∨ entryBad 3 e3 = true then t
  else
    let a2 := field e3 16 32 * 2 ^ 16 + 8 * field va 29 13
    let e2 := s.readEntry tag a2
    let t := ask t a2
    if e2 % 2 = 0 ∨ entryBad 2 e2 = true ∨ field e2 1 1 = 1 then t
    else ask t (field e2 16 32 * 2 ^ 16 + 8 * field va 16 13)

/-- The next waiting miss of a die is walked: G before H, oldest first (R346). -/
def State.nextWalk (s : State) (die : Nat) : State :=
  if s.walksOn die ≥ 256 then s
  else
    let waits := s.walks.filter fun w => w.die == die && !w.running
    match (waits.find? fun w => !w.classH).or waits.head? with
    | none => s
    | some w => { s with walks := s.walks.map fun x => if x = w then { x with running := true } else x }

/-- A walk that gives a translation leaves it in the die's TLB and in those of the cores that it serves (R344, R346); any other leaves
nothing there. -/
def State.walkFill (s : State) (w : Walk) (va : Nat) (acc : Acc) : State :=
  let pt := s.part w.part
  match s.walk w.part acc va, s.walkLeaf pt.ptBase.toNat (s.keyTag pt.ptKey) va with
  | .fault _ _, _ => s
  | _, .inl _ => s
  | _, .inr (level, e) =>
    let t : Tlb := ⟨w.part, pageOf (level == 2) va, level == 2, dwordOf e⟩
    (w.cores.filter fun c => decide (c < 384)).foldl (fun s c => s.fillL1 c t) (s.fillL2 w.die t)

/-- A running walk ends. -/
def State.walkDone (s : State) (p die va : Nat) (acc : Acc) : State :=
  match s.walks.find? fun w => w.die == die && w.part == p && w.page == va / 2 ^ 16 && w.running with
  | none => s
  | some w =>
    let s := (((s.askWalk w va).keepWalk p die va).walkFill w va acc)
    ({ s with walks := s.walks.filter fun x => x ≠ w }).nextWalk die

/-- PAGE_WALK_COMPLETE (R344): a page-table walk ends with a translation, PAGE_FAULT or PROTECTION. -/
def execPageWalkComplete (part die va : Nat) (acc : Acc) (s : State) : Out :=
  .next (if part < 8 ∧ va < 2 ^ 55 then s.walkDone part (die % 2) va acc else s)

/-! Keys (R348). -/

/-- The lowest EMPTY key ID. -/
def State.emptyKey (s : State) : Option Nat := (span 1 2047).find? fun k => (s.key k).kst == .empty

/-- A key command: ignored while another runs, else noted with its outcome and with what it will change. -/
def State.keyCommand (s : State) (cmd id part res : Nat) (next : Option (Nat × Key)) : State :=
  if s.keyBusy then { s with keyRes := 4 }
  else
    { s with
      keyCmd := wordOf (cmd + 8 * id + 2 ^ 14 * part), keyBusy := decide (res ≠ 3), keyRes := res
      keyNext := if res = 0 then next else none }

/-- GENERATE (R348): KEYCMD GENERATE loads a fresh key into the lowest EMPTY key ID. -/
def execGenerate (s : State) : Out :=
  .next (match s.emptyKey with
    | none => s.keyCommand 1 0 0 1 none
    | some k =>
      if s.keyBusy then { s with keyRes := 4 }
      else { s.keyCommand 1 0 0 0 (some (k, ⟨.loaded, s.nextSerial⟩)) with keyGiven := k, nextSerial := s.nextSerial + 1 })

/-- ASSIGN (R348): KEYCMD ASSIGN assigns a loaded key ID to a partition. -/
def execAssign (id part : Nat) (s : State) : Out :=
  .next (if id = 0 ∨ id > 2047 then s.keyCommand 3 id part 3 none
    else
      match s.key id with
      | ⟨.loaded, n⟩ => s.keyCommand 3 id part 0 (some (id, ⟨.assigned (part % 8), n⟩))
      | _ => s.keyCommand 3 id part 2 none)

/-- DESTROY (R348): KEYCMD DESTROY drops every cached line of a key ID and erases the key. -/
def execDestroy (id : Nat) (s : State) : Out :=
  .next (if id = 0 ∨ id > 2047 then s.keyCommand 2 id 0 3 none
    else if (s.key id).kst = .empty then s.keyCommand 2 id 0 1 none
    else s.keyCommand 2 id 0 0 (some (id, Key.reset)))

/-- Every cached line under a key ID is dropped, dirty data included: in L2 and in the clusters' caches (R348). -/
def State.dropKey (s : State) (id : Nat) : State :=
  { s with
    l2 := s.l2.map fun x => (x.1, x.2.filter fun w => w.2.key % 2048 ≠ id)
    banks := s.banks.map fun x => (x.1, { x.2 with lines := x.2.lines.filter fun y => y.2.tag % 2048 ≠ id }) }

/-- The command's effect is complete: lines under a destroyed key are dropped, and read as noise from now on, as its tag is never used
again. -/
def execKeyCommandComplete (s : State) : Out :=
  .next (if !s.keyBusy then s
    else
      match s.keyNext with
      | none => { s with keyBusy := false }
      | some (k, y) =>
        let s := if y.kst = .empty then s.dropKey k else s
        { s with keyBusy := false, keyNext := none, keys := SMap.set Key.reset s.keys k y })

/-! Firmware (R349, R376). -/

/-- A stage verifies. -/
def State.imageOk (s : State) (i : Image) : Bool :=
  i.key.length == 1952 && i.sig.length == 3309 && shake256 i.key == Config.fusedKeyDigest && Config.mldsaVerify i.key i.bytes i.sig &&
    decide (s.fuseCount ≤ i.version)

/-- Mi := SHAKE256(Mi || SHAKE256(image)). -/
def State.extend (s : State) (i : Nat) (img : Image) : State :=
  { s with meas := setAt s.meas i (shake256 (atD s.meas i [] ++ shake256 img.bytes)) }

/-- A stage is loaded: it is measured and runs, or boot stops. After the last, every cluster scrubbed, the package is REDUCED. -/
def execFirmwareStageLoad (image : Image) (last : Bool) (s : State) : Out :=
  .next (if s.svc ≠ .boot ∨ s.bootFailed ∨ s.bootDone then s
    else if s.stages ≥ 8 || !s.imageOk image then
      -- the boot of a new image that fails goes on from the other bank (R382)
      (if s.uncommitted then
        { s with activeBank := 1 - s.activeBank, uncommitted := false, stages := 0, meas := List.replicate 8 (List.replicate 64 0) }
      else { s with bootFailed := true })
    else
      let s := { s.extend s.stages image with stages := s.stages + 1 }
      if last then { s with bootDone := true, svc := .reduced } else s)

/-! Attestation (R350): replies of the management port. Status 0 is the response of the request; any other is an SPDM error code. -/

def State.reply (s : State) (name : String) (status : Nat) (bytes : List Byte) : State :=
  { s with replies := s.replies ++ [⟨name, status, bytes⟩] }

/-- A request that needs negotiated algorithms. -/
def State.attest (s : State) (name : String) (bytes : List Byte) : State :=
  if s.negotiated then s.reply name 0 bytes else s.reply name 4 []

/-- GET_VERSION (R350): an SPDM GET_VERSION request is answered with version 1.4. -/
def execGetVersion (s : State) : Out := .next (s.reply "GET_VERSION" 0 (natBytes 2 0x1400))

/-- Certificate, challenge and signed-measurement capabilities, and no other. -/
def execGetCapabilities (s : State) : Out := .next (s.reply "GET_CAPABILITIES" 0 (natBytes 4 0x16))

/-- The DMTF measurement specification, SHA3-512 and ML-DSA-65. -/
def execNegotiateAlgorithms (s : State) : Out :=
  .next ({ s with negotiated := true }.reply "NEGOTIATE_ALGORITHMS" 0 (natBytes 1 1 ++ natBytes 4 0x20 ++ natBytes 4 2))

/-- GET_DIGESTS (R350): an SPDM GET_DIGESTS request is answered with certificate-chain digests. -/
def execGetDigests (s : State) : Out := .next (s.attest "GET_DIGESTS" (sha3_512 Config.certChain))

/-- GET_CERTIFICATE (R350): an SPDM GET_CERTIFICATE request is answered with the certificate chain. -/
def execGetCertificate (off len : Nat) (s : State) : Out :=
  .next (s.attest "GET_CERTIFICATE" ((Config.certChain.drop off).take len))

/-- A signature under the device key, over the certificate chain's digest and the nonce. -/
def execChallenge (nonce : List Byte) (s : State) : Out :=
  .next (s.attest "CHALLENGE" (Config.mldsaSign (atD s.meas 0 []) (sha3_512 (sha3_512 Config.certChain ++ nonce))))

/-- One raw block of 64 bytes for each of M0 to M7, and their signature. -/
def execGetMeasurements (nonce : List Byte) (s : State) : Out :=
  let blocks := s.meas.flatten
  .next (s.attest "GET_MEASUREMENTS" (blocks ++ Config.mldsaSign (atD s.meas 0 []) (sha3_512 (blocks ++ nonce))))

/-- UnsupportedRequest. -/
def execSpdmSessionRequest (r : SpdmSession) (s : State) : Out :=
  .next (match r with
    | .keyExchange => s.reply "KEY_EXCHANGE" 7 []
    | .pskExchange => s.reply "PSK_EXCHANGE" 7 []
    | .finish => s.reply "FINISH" 7 []
    | .other => s.reply "SESSION" 7 [])

end Sys2Proof.Machine
end

