-- ==== Sys2Proof/Machine/Power.lean ====
section
/-! DEFINITION. Device events of power and service: bias and heat (R368-R370), bank power states and the warm reserve (R73-R77),
retention loss (R375), service states (R376-R378) and package reset. An event whose moment has not come changes nothing. -/

namespace Sys2Proof.Machine

/-! Bias (R369, R377). -/

/-- Cycles of the die network clock in 10 us and in 1 ms. -/
def settleTime : Nat := 20500
def thermalGap : Nat := 2050000

/-- The bias that a request gives: in REDUCED every cluster runs at RBB1. -/
def State.biasOf (s : State) (req : Bias) : Bias := if s.svc = .reduced ∧ req ≠ .off then .rbb1 else req

/-- CUR takes a value at once, and settles. -/
def State.putBias (s : State) (cl : Nat) (b : Bias) : State :=
  let s := s.syncClock cl
  let c := s.cluster cl
  if c.curBias = b then s
  else s.setCluster cl { c with curBias := b, settleOld := some c.curBias, settleAt := s.now }

/-- A write of CLBIAS. OFF is refused to a cluster that belongs to a partition; leaving OFF scrubs the cluster. -/
def State.writeClbias (s : State) (cl : Nat) (v : Word) : State :=
  match Bias.ofCode (field v.toNat 0 3) with
  | none => s
  | some req =>
    let c := s.cluster cl
    if cl ≥ 48 ∨ (req = .off ∧ c.part < 8) then s
    else
      let s := if c.curBias = .off ∧ req ≠ .off then s.scrubCluster cl else s
      (s.setCluster cl { s.cluster cl with req := req }).putBias cl (s.biasOf req)

/-- CLBIAS_WRITE (R369): a write of CLBIAS requests a bias state, starting a settling interval or power-gating a free cluster. -/
def execClbiasWrite (cl : Nat) (v : Word) (s : State) : Out := .next (s.writeClbias cl v)

/-- BIAS_SETTLED (R369): SETTLING clears and the cluster runs at the new bias clock. -/
def execBiasSettled (cl : Nat) (s : State) : Out :=
  .next (if (s.cluster cl).settleOld.isNone then s
    else
      let s := s.syncClock cl
      s.setCluster cl { s.cluster cl with settleOld := none })

/-! Heat (R370). -/

/-- THERMAL_SAMPLE (R370): a cluster measures its temperature every 10 µs into CLTEMP. -/
def execThermalSample (cl temp : Nat) (s : State) : Out :=
  .next (if cl < 48 then s.setCluster cl { s.cluster cl with temp := temp % 2 ^ 12 } else s)

/-- One step slower, never below RBB2. -/
def Bias.slower : Bias → Bias
  | .fbb => .zbb | .zbb => .rbb1 | .rbb1 => .rbb2 | .rbb2 => .rbb2 | .off => .off

/-- One step faster. -/
def Bias.faster : Bias → Bias
  | .rbb2 => .rbb1 | .rbb1 => .zbb | .zbb => .fbb | .fbb => .fbb | .off => .off

/-- The bias that a thermal step gives, if one is called for. -/
def Cluster.thermalNext (c : Cluster) : Option Bias :=
  let migrate := c.thr.toNat % 2 ^ 12
  let trip := field c.thr.toNat 16 12
  if c.temp ≥ trip then
    (if c.curBias = .off ∨ c.curBias = .rbb2 then none else some c.curBias.slower)
  else if c.temp + 32 < migrate ∧ c.curBias ≠ .off ∧ c.req ≠ .off ∧ c.req.code < c.curBias.code then some c.curBias.faster
  else none

/-- A step of a cluster is due: none in REDUCED, where every cluster runs at RBB1. -/
def State.thermalDue (s : State) (cl : Nat) : Bool :=
  let c := s.cluster cl
  c.thermalNext.isSome && s.svc ≠ .reduced && (c.stepAt == 0 || decide (c.stepAt + thermalGap ≤ s.now))

/-- THERMAL_STEP (R370): every 1 ms a tripped cluster lowers CUR one step, or a cooled one steps back toward REQ. -/
def execThermalStep (cl : Nat) (s : State) : Out :=
  .next (match s.thermalDue cl, (s.cluster cl).thermalNext with
    | true, some b =>
      let down := (s.cluster cl).curBias.code < b.code
      let s := s.putBias cl b
      let c := s.cluster cl
      s.setCluster cl { c with stepAt := s.now, trips := if down then c.trips + 1 else c.trips }
    | _, _ => s)

/-! Bank power (R73, R74, R76). -/

/-- The phase that rules a bank (Table 3-8): its team's, its stream's teams', and for a CACHE bank 3 where a team of the cluster is
in that phase. -/
def State.bankPhase (s : State) (b : Nat) : Nat :=
  match (s.bank b).owner with
  | .team t => s.teamPhase t
  | .chan t _ => s.teamPhase t
  | .stream _ => ((s.teams.filter fun x => x.2.tst == .resident && x.2.ctxBanks.contains b).map fun x => s.teamPhase x.1).foldl Nat.max 0
  | .none =>
    if s.teams.any fun x => x.2.tst == .resident && x.2.core / 8 == b / 64 && decide (s.teamPhase x.1 ≥ 3) then 3 else 0

/-- A bank has been idle for some cycles of its cluster's clock. -/
def State.idleFor (s : State) (b n : Nat) : Bool := decide ((s.bank b).lastUse + (s.cluster (b / 64)).dieCycles n ≤ s.now)

/-- A bank in service, in a mode that the controller may rest. -/
def Bank.restable (b : Bank) : Bool := b.transit.isNone && !b.waking && b.mode ≠ .pool

def State.canNap (s : State) (b : Nat) : Bool :=
  (s.bank b).restable && (s.bank b).pwr == .on && decide (s.bankPhase b < 2) && s.idleFor b (if s.bankPhase b = 0 then 32 else 256)

/-! L2 slices follow the CACHE row of Table 3-6, at the thresholds of phase 0 (R374). Their banks are numbered after those of the clusters:
slice i is bank 3072 + i. -/

/-- A team in phase 3 holds every L2 slice ON (Table 3-8). -/
def State.slicesHeld (s : State) : Bool := s.teams.any fun x => x.2.tst == .resident && decide (s.teamPhase x.1 ≥ 3)

/-- A slice has been idle for some cycles of the die network clock. -/
def State.sliceIdle (s : State) (sl n : Nat) : Bool :=
  decide (sl < 128) && !(s.slice sl).waking && !s.slicesHeld && decide ((s.slice sl).lastUse + n ≤ s.now)

def State.canNapSlice (s : State) (sl : Nat) : Bool := (SMap.find s.slicePwr sl).isNone && s.sliceIdle sl 32

def State.canRetainSlice (s : State) (sl : Nat) : Bool := SMap.find s.slicePwr sl ≠ some .retain && s.sliceIdle sl 4096

/-- The sets of a slice, changed. -/
def State.mapSlice (s : State) (sl : Nat) (f : SMap Way → SMap Way) : State :=
  { s with l2 := s.l2.map fun x => if x.1 / 1024 = sl then (x.1, f x.2) else x }

/-- A slice retains once its dirty lines have been written back. -/
def State.retainSlice (s : State) (sl : Nat) : State :=
  let s := s.mapSlice sl fun ways => ways.map fun w => (w.1, { w.2 with dirty := false })
  { s with slicePwr := SMap.put s.slicePwr sl .retain }

/-- BANK_NAP (R74): a bank idle for its threshold moves from ON to NAP. -/
def execBankNap (bank : Nat) (s : State) : Out :=
  .next (if bank ≥ 3072 then
      (if s.canNapSlice (bank - 3072) then { s with slicePwr := SMap.put s.slicePwr (bank - 3072) .nap } else s)
    else if s.canNap bank then s.setBank bank { s.bank bank with pwr := .nap } else s)

/-- A group that is PARKED (Table 2-4). -/
def Group.parked (g : Group) : Bool :=
  match g.park with
  | .none | .wake _ | .dslots _ => !(g.lanes.any fun ln => ln.ready) && g.lanes.any fun ln => ln.live && ln.wait ≠ .none
  | _ => true

/-- A team is idle: every group is PARKED, SAVED or EVICTED (R74). -/
def State.teamIdle (s : State) (tuid : Nat) : Bool :=
  match s.teamSt? tuid with
  | some .resident => (s.teamGroups tuid).all fun x => x.2.parked
  | some _ => true
  | none => true

def State.canRetain (s : State) (b : Nat) : Bool :=
  let x := s.bank b
  let idle := match x.owner with
    | .team t => s.teamIdle t
    | .chan t _ => s.teamIdle t
    | .stream e => (s.stream e).sst ≠ .active
    | .none => true
  x.restable && (x.pwr == .on || x.pwr == .nap) && decide (s.bankPhase b < 2) && idle &&
    s.idleFor b (if s.bankPhase b = 0 then 4096 else 16384)

/-- BANK_RETAIN (R74): a bank of an idle owner reaches its idle count and moves to RETAIN. -/
def execBankRetain (bank : Nat) (s : State) : Out :=
  .next (if bank ≥ 3072 then (if s.canRetainSlice (bank - 3072) then s.retainSlice (bank - 3072) else s)
    else if s.canRetain bank then
      -- a CACHE bank only after its dirty lines are written back
      let s := s.cleanWay bank (bank / 64 * 8) false
      s.setBank bank { s.bank bank with pwr := .retain }
    else s)

/-! Retention loss (R375). -/

/-- One RETENTION_LOST entry for a team. -/
def lostInfo (bank : Nat) : FInfo := ⟨.retentionLost, 0, 0, 0, dwordOf (bank % 64), 0, false⟩

/-- A team holds a lost bank (Table 20-2). -/
def State.teamLoses (s : State) (tuid bank : Nat) : State :=
  match s.team? tuid with
  | none => s
  | some t =>
    if t.tst = .done then s
    else if !s.teamIsH t then
      -- the launch ends as under KILL
      (s.killLaunch t.launch).teamEntry tuid (lostInfo bank)
    else if t.chans.isEmpty && (s.noRegion tuid).isEmpty then
      (if t.tst = .resident then s.evictTeam tuid else s).reclaimTeam tuid
    else s.endWith tuid (lostInfo bank) none

/-- A stream context is lost. -/
def State.streamLoses (s : State) (e bank : Nat) : State :=
  let p := (s.stream e).part
  let s := s.freeStream e
  let s : State := { s with teams := s.teams.map fun x => (x.1, if x.2.ctxBanks.contains bank then { x.2 with ctxBanks := [] } else x.2) }
  s.raiseEntry p ⟨{ lostInfo bank with aux := dwordOf (0x10000 + e) }, false, 0, 0, 0, [], .none⟩

def State.retentionLoss (s : State) (b : Nat) : State :=
  let c := s.cluster (b / 64)
  let s := s.setCluster (b / 64) { c with rlcnt := Nat.min (c.rlcnt + 1) (2 ^ 32 - 1), rlTimes := (s.now :: c.rlTimes).take 3 }
  match (s.bank b).owner with
  -- a CACHE bank is invalidated: it held only clean lines (R74)
  | .none => s.setBank b { s.bank b with pwr := .on, waking := false, lines := [], lastUse := s.now }
  | .team t => (s.teamLoses t b).freeBank b
  | .chan t _ => (s.teamLoses t b).freeBank b
  | .stream e => s.streamLoses e b

/-- A command waits for a response to an entry (R331). -/
def State.cmdHeld (s : State) (ch : Nat) (c : Cmd) : Bool :=
  let pt := s.part (s.cmdPart c)
  (pt.outstanding.map (·.2) ++ pt.wantPost).any fun e => decide (e.target = .command ch) && e.info.pc.toNat == c.num

/-- Commands that waited for a bank go on; one that waits for a response does not, and one that waits for an answer waits again. -/
def State.wakeCmds (s : State) : State :=
  { s with chans := s.chans.map fun x =>
      (x.1, { x.2 with queue := x.2.queue.map fun c => if c.waiting && !s.cmdHeld x.1 c then { c with waiting := false } else c }) }

/-- The wake of an L2 slice ends; one whose parity failed holds no line. -/
def State.sliceWoken (s : State) (sl : Nat) (parityOk : Bool) : State :=
  let s := if SMap.find s.slicePwr sl = some .retain ∧ parityOk = false then s.mapSlice sl fun _ => [] else s
  { s with slicePwr := SMap.erase s.slicePwr sl, slices := SMap.put s.slices sl { s.slice sl with waking := false, lastUse := s.now } }

/-- The wake of a bank ends: it serves accesses, unless its retention parity fails. -/
def execBankWakeComplete (bank : Nat) (parityOk : Bool) (s : State) : Out :=
  let b := s.bank bank
  .next (if bank ≥ 3072 then (if (s.slice (bank - 3072)).waking then s.sliceWoken (bank - 3072) parityOk else s)
    else if !b.waking then s
    else if b.pwr = .retain ∧ parityOk = false then (s.retentionLoss bank).wakeCmds
    else (s.setBank bank { b with pwr := .on, waking := false, lastUse := s.now }).wakeCmds)

/-! Warm reserve (R75). -/

/-- Banks of a cluster that the reserve holds or that are being refilled. -/
def State.warmCount (s : State) (cl : Nat) : Nat :=
  ((span (64 * cl) 64).filter fun b => (s.bank b).warm || (s.bank b).refill).length

/-- A refill of a bank starts, where the reserve is short, or is done, and the bank joins the reserve in NAP. -/
def State.refill (s : State) (b : Nat) : State :=
  let x := s.bank b
  if b ≥ 3072 ∨ x.mode ≠ .pool ∨ x.transit.isSome ∨ s.bringUp b then s
  else if x.refill then s.setBank b { x with refill := false, warm := true, pwr := .nap }
  else if !x.warm && x.pwr = .deep && s.warmCount (b / 64) < (s.cluster (b / 64)).warm then s.setBank b { x with refill := true }
  else s

/-- WARM_RESERVE_REFILL (R75): a refilling POOL bank finishes its DEEP wake and joins the warm reserve in NAP. -/
def execWarmReserveRefill (bank : Nat) (s : State) : Out := .next (s.refill bank)

/-! Service states (R376-R378). -/

/-- Every queue has EN = 0, and no team is resident or evicted. -/
def State.quiescent (s : State) : Bool :=
  (s.parts.all fun x => x.2.queues.all fun y => !y.2.en) && !(s.teams.any fun x => x.2.tst == .resident || x.2.tst == .evicted)

/-- Set a service state: leaving REDUCED scrubs the bring-up store, gives its banks back to their roles, and lets requested biases take
effect; entering it takes those banks, and takes the ports and every clock down. -/
def State.enterSvc (s : State) (v : Svc) : State :=
  let was := s.svc
  let s := { s with svc := v }
  let low : List Nat := (span 0 8).flatMap fun c => span (64 * c + 48) 16
  let s :=
    if (was = .reduced) = (v = .reduced) then s
    else
      let s : State := { s with mem := s.mem.filter fun x => decide (2 ^ 24 ≤ x.1), ktag := s.ktag.filter fun x => decide (2 ^ 17 ≤ x.1)
                                blobs := s.blobs.flatMap (Blob.cut 0 (2 ^ 17)) }
      let role := fun (s : State) (b : Nat) =>
        if (s.cluster (b / 64)).role.getLsbD (b % 64) && v ≠ .reduced then
          (s.clearBank b).setBank b { Bank.reset with mode := .cache, pwr := .on, lastUse := s.now }
        else s.freeBank b
      low.foldl role s
  let s := if v = .reduced then { s with ports := s.ports.map fun x => (x.1, { x.2 with link := false, lanesUp := 0 }) } else s
  if (was = .reduced) = (v = .reduced) then s
  else (span 0 48).foldl (fun s c => s.putBias c (s.biasOf (s.cluster c).req)) s

/-- The outcome of a service command: the state it leads to, where a row of Table 20-3 allows it. -/
def State.svcTarget (s : State) (target : Nat) : Option Svc :=
  let all := s.hbmOk == 255#8
  match s.svc, target with
  | .reduced, 3 => some (if all then .normal else .recovery)
  | .test, 3 => some (if all then .normal else .recovery)
  | .recovery, 3 => if all then some .normal else none
  | .reduced, 2 => some .test
  | .normal, 2 => some .test
  | .test, 1 => some .reduced
  | .normal, 4 => some .recovery
  | _, _ => none

/-- A write of SVCCMD. -/
def State.svcCommand (s : State) (target : Nat) : State :=
  let s := { s with svcCmd := wordOf (target % 8) }
  if !s.quiescent then { s with svcRes := 1 }
  else
    match s.svcTarget target with
    | none => { s with svcRes := 2 }
    | some v =>
      let fail := if v = .recovery && s.svc ≠ .normal then ~~~s.hbmOk else if v = .normal then 0#8 else s.hbmFail
      ({ s with svcRes := 0, hbmFail := fail }).enterSvc v

/-- SVC_NORMAL (R376): SVCCMD NORMAL moves a quiescent package to NORMAL, or to RECOVERY if a stack failed training. -/
def execSvcNormal (s : State) : Out := .next (s.svcCommand 3)

/-- SVC_TEST (R376): SVCCMD TEST moves a quiescent package to TEST. -/
def execSvcTest (s : State) : Out := .next (s.svcCommand 2)

/-- SVC_REDUCED (R376): SVCCMD REDUCED moves a quiescent package from TEST to REDUCED. -/
def execSvcReduced (s : State) : Out := .next (s.svcCommand 1)

/-- SVC_RECOVERY (R376): SVCCMD RECOVERY moves a quiescent package from NORMAL to RECOVERY. -/
def execSvcRecovery (s : State) : Out := .next (s.svcCommand 4)

/-- HBM_ERROR_LIMIT (R376): a stack exceeds its uncorrectable-error limit and is mapped out; its error count has grown by a free number
(log 20). -/
def execHbmErrorLimit (stack : Nat) (s : State) : Out :=
  .next (if s.svc ≠ .normal ∨ stack ≥ 8 then s
    else
      let e := atD s.hbmErrs stack (0, 0)
      ({ s with
        hbmFail := s.hbmFail ||| (1#8 <<< stack), hbmOk := s.hbmOk &&& ~~~(1#8 <<< stack)
        hbmErrs := setAt s.hbmErrs stack (e.1, e.2 + 1 + Config.free 22 s.fresh stack) }).enterSvc .recovery)

/-- HBM_TRAINING_PASS (R376): a stack passes training and its HBMOK bit is set. -/
def execHbmTrainingPass (stack : Nat) (s : State) : Out :=
  .next (if stack < 8 then { s with hbmOk := s.hbmOk ||| (1#8 <<< stack) } else s)

/-! Package reset. -/

/-- The package is reset: flash and fuses stay, as does what the model keeps for itself; a new image is booted (R382). -/
def execPackageReset (s : State) : Out :=
  .next { State.reset with
    flash := s.flash, fuseCount := s.fuseCount, activeBank := if s.pendingUpdate then 1 - s.activeBank else s.activeBank, uncommitted := s.uncommitted || s.pendingUpdate
    replies := s.replies, reports := s.reports, out := s.out, agenda := s.agenda, fresh := s.fresh }

end Sys2Proof.Machine
end

