-- ==== Sys2Proof/Machine/Fabric.lean ====
section
/-! DEFINITION. Device events of the L2 and its shares (R283, R354-R360), of the fabric (R347, R361, R362), of device time (R366) and of
host harts (R94, R385). An event whose moment has not come changes nothing. -/

namespace Sys2Proof.Machine

/-! Shares (R357-R360). -/

/-- Bits set in a number below 2^16. -/
def bitCount (n : Nat) : Nat := ((span 0 32).filter fun i => n / 2 ^ i % 2 == 1).length

def State.qosError (s : State) (m : BitVec 4) : State := { s with qosErr := s.qosErr ||| m }

def State.writeL2wayg (s : State) (v : Word) : State :=
  let n := bitCount (v.toNat % 2 ^ 16)
  if n < 4 ∨ n > 12 then s.qosError 1#4 else { s with l2wayg := v.setWidth 16 }

/-- L2WAYG_WRITE (R357): a write of L2WAYG sets the G way mask, or is ignored with QOSERR.WAYS. -/
def execL2waygWrite (v : Word) (s : State) : Out := .next (s.writeL2wayg v)

/-- The sum of a share over the partitions other than one. -/
def State.othersShare (s : State) (p : Nat) (f : Part → Nat) : Nat := sumN (((span 0 8).filter fun q => q ≠ p).map fun q => f (s.part q))

def State.writeNetshare (s : State) (p : Nat) (v : Nat) : State :=
  if s.othersShare p Part.netShare + v % 2 ^ 7 > 64 then s.qosError 2#4 else s.setPart p { s.part p with netShare := v % 2 ^ 7 }

/-- A write of PORTREG (R362): its reserved bits read zero. -/
def State.writePortreg (s : State) (p port : Nat) (v : Nat) : State :=
  let pt := s.part p
  if s.othersShare p (fun q => (atD q.portReg port 0).toNat % 2 ^ 17) + v % 2 ^ 17 > 50000 then s.qosError 8#4
  else s.setPart p { pt with portReg := setAt pt.portReg port (dwordOf (v % 2 ^ 17 + field v 32 17 * 2 ^ 32)) }

/-- QOS_SHARE_WRITE (R358): a write of NETSHARE or PORTREG sets a G share, or is ignored with a QOSERR sum bit. -/
def execQosShareWrite (part port : Nat) (v : DWord) (s : State) : Out :=
  .next (if part ≥ 8 ∨ port > 32 then s else if port = 32 then s.writeNetshare part v.toNat else s.writePortreg part port v.toNat)

/-- A write of HBMREG sets both buckets to their new depths (R360). -/
def State.writeHbmreg (s : State) (p st : Nat) (v : Nat) : State :=
  let pt := s.part p
  if s.othersShare p (fun q => (atD q.hbmReg st 0).toNat % 2 ^ 7) + v % 2 ^ 7 > 64 then s.qosError 4#4
  else
    let w := v % 2 ^ 7 + field v 8 31 * 2 ^ 8 + field v 40 24 * 2 ^ 40
    s.setPart p { pt with hbmReg := setAt pt.hbmReg st (dwordOf w), buckets := setAt pt.buckets st (field v 8 24, field v 40 24) }

/-- HBMREG_WRITE (R360): a write of HBMREG sets a partition's token buckets at a stack, refilling them to the new depths. -/
def execHbmregWrite (part stack : Nat) (v : DWord) (s : State) : Out :=
  .next (if part < 8 ∧ stack < 8 then s.writeHbmreg part stack v.toNat else s)

/-! Device time (R322, R366). -/

/-- Fires of a timer queue that a forward step passes are misses. -/
def Queue.pass (x : Queue) (t : Nat) : Queue :=
  match x.nextFire with
  | none => x
  | some f =>
    if t ≤ f then x
    else
      let n := (t - f + x.tperiod.toNat - 1) / Nat.max 1 x.tperiod.toNat
      { x with fires := x.fires + n, miss := Nat.min (x.miss + n) (2 ^ 32 - 1), stat := x.stat ||| 4#3, fireDue := x.fireDue }

def State.writePtstep (s : State) (v : DWord) : State :=
  let was := s.ptime
  let now_ := (dwordOf was + v).toNat
  let s : State := { s with ptBase := now_, ptAt := s.now, ptStep := v, stepping := true }
  if v.toInt > 0 ∧ s.svc ≠ .reduced then
    { s with parts := s.parts.map fun x => (x.1, { x.2 with queues := x.2.queues.map fun y => (y.1, y.2.pass now_) }) }
  else s

/-- PTSTEP_WRITE (R366): a write of PTSTEP adds a signed step to device time, propagating to every core within 1 µs. -/
def execPtstepWrite (v : DWord) (s : State) : Out := .next (s.writePtstep v)

/-- STEP_REACHED_EVERY_CORE (R366): a device-time step written to PTSTEP has reached every core and PTSTAT.STEPPING clears. -/
def execStepReachedEveryCore (s : State) : Out := .next { s with stepping := false }

/-- PTP_EVENT_MESSAGE (R366): an IEEE 1588 event message crosses a port and is timestamped at the start of its frame. -/
def execPtpEventMessage (port : Nat) (egress : Bool) (s : State) : Out :=
  .next (if port > 32 then s
    else if egress then (if s.ptsel = port then { s with txts := dwordOf s.ptime } else s)
    else { s with rxTimes := s.rxTimes ++ [s.ptime] })

/-! The home of a line (R283, R354-R357). -/

/-- The first way of a list of way numbers that meets a test. -/
def wayWhere (ways : SMap Way) (ns : List Nat) (f : Way → Bool) : Option Nat :=
  ns.find? fun i => match SMap.find ways i with | some w => f w | none => false

/-- The victim among the allowed ways, after their RRPV have risen as far as it takes. -/
def victimOf : Nat → SMap Way → List Nat → SMap Way × Option Nat
  | 0, ways, _ => (ways, none)
  | n + 1, ways, ns =>
    match ns.find? fun i => (SMap.find ways i).isNone with
    | some i => (ways, some i)
    | none =>
      match wayWhere ways ns fun w => w.rrpv ≥ 3 with
      | some i => (ways, some i)
      | none => victimOf n (ns.foldl (fun m i => SMap.upd m i fun w => { w with rrpv := w.rrpv + 1 }) ways) ns

/-- PSEL of a class. -/
def Slice.psel (x : Slice) (duel : Nat) : Nat := if duel = 0 then x.pselG else if duel = 1 then x.pselH else x.pselE

/-- A miss of a class moves its selector, in its leader sets. -/
def Slice.miss (x : Slice) (duel set : Nat) : Slice :=
  let move := fun (n : Nat) =>
    if set % 32 = 2 * duel then Nat.min 1023 (n + 1) else if set % 32 = 2 * duel + 1 then n - 1 else n
  if duel = 0 then { x with pselG := move x.pselG } else if duel = 1 then { x with pselH := move x.pselH }
  else { x with pselE := move x.pselE }

/-- A fill uses BRRIP insertion. -/
def Slice.bimodal (x : Slice) (duel set : Nat) : Bool :=
  if set % 32 = 2 * duel then false else if set % 32 = 2 * duel + 1 then true else decide (512 ≤ x.psel duel)

/-- A look-up of a line in its set: a hit, or a fill of the victim; a write leaves the line dirty under its key (R348, R355, R357). -/
def State.l2Access (s : State) (r : HomeReq) : State :=
  let pa := r.line * 128
  let sl := homeSlice pa
  let set := homeSet pa
  let key := sl * 1024 + set
  let ways := SMap.getD s.l2 key []
  match wayWhere ways (span 0 16) fun w => w.line == r.line with
  | some i =>
    let hit := fun (w : Way) => { w with rrpv := 0, dirty := w.dirty || r.write, key := if r.write then r.tag else w.key }
    { s with l2 := SMap.put s.l2 key (SMap.upd ways i hit) }
  | none =>
    let x := (s.slice sl).miss r.duel set
    let ns := (span 0 16).filter fun i => s.l2wayg.getLsbD i != r.classH
    let (ways, v) := victimOf 4 ways ns
    match v with
    | none => { s with slices := SMap.put s.slices sl x }
    | some i =>
      let bi := x.bimodal r.duel set
      let rrpv := if bi ∧ x.brrip ≠ 0 then 3 else 2
      let x := if bi then { x with brrip := (x.brrip + 1) % 32 } else x
      let tag : L2Tag := if r.duel = 0 then .g else if r.duel = 1 then .h else .e
      { s with slices := SMap.put s.slices sl x, l2 := SMap.put s.l2 key (SMap.put ways i ⟨r.line, rrpv, tag, r.write, r.tag⟩) }

/-- A queued request that an event serves: its next line, its class, its core. -/
def HomeReq.serves (q : HomeReq) (r : HomeRead) : Bool :=
  q.line == r.line && q.duel == r.duel && q.classH == r.classH && q.core == r.core && q.multicast.isSome == r.multicast

/-- The requests without the next line of one of them. -/
def takeReq (q : HomeReq) : List HomeReq → List HomeReq
  | [] => []
  | x :: xs =>
    if x = q then (if x.n ≤ 1 then xs else { x with line := x.line + 1, n := x.n - 1 } :: xs) else x :: takeReq q xs

/-- No write of a line lies between two moments, so that reads at both are one read event of each granule (R283). -/
def State.sameRead (s : State) (line m n : Nat) : Bool :=
  !(s.hist.any fun h => h.pa / 128 == line && decide (Nat.min m n ≤ h.stamp) && decide (h.stamp < Nat.max m n))

/-- A request at the home of its line (R283): with a multicast read of the line in progress, a read of the same values is merged with it
within the window that held at its acceptance (R367), joined while the multicast's packet has not passed the router, and otherwise
served on its own. -/
def State.serveHome (s : State) (q : HomeReq) (pastRouter : Bool) : State :=
  if q.write then s.l2Access q
  else
    let alone := fun (s : State) =>
      (match q.multicast with
        | some cmd => { s with mcasts := ⟨q.line, s.now, s.mcwin, cmd, [q.core], q.at_⟩ :: s.mcasts }
        | none => s).l2Access q
    match s.mcasts.find? fun m => m.line == q.line with
    | none => alone s
    | some m =>
      let more := { m with cores := if q.core ∈ m.cores then m.cores else m.cores ++ [q.core] }
      let add := fun (s : State) => { s with mcasts := s.mcasts.map fun x => if x = m then more else x }
      if !s.sameRead q.line m.at_ q.at_ then alone s
      else if s.now ≤ m.accepted + m.win then
        { add s with merged := SMap.updD s.merged (homeSlice (q.line * 128)) 0 (· + 1) }
      else if !pastRouter then add s
      else alone s

/-- The next line of a queued request reaches its home slice, which has to be in service (R73). -/
def State.homeRead (s : State) (r : HomeRead) : State :=
  match s.homeReqs.find? fun q => q.serves r with
  | none => s
  | some q =>
    let sl := homeSlice (q.line * 128)
    if (SMap.find s.slicePwr sl).isSome then s.wakeSlice sl
    else
      let s : State := { s with homeReqs := takeReq q s.homeReqs, slices := SMap.put s.slices sl { s.slice sl with lastUse := s.now } }
      s.serveHome { q with n := 1 } r.pastRouter

/-- L2_HOME_READ (R283): a read reaches its home slice and is merged, joined or served as unicast, filling L2 on a miss. -/
def execL2HomeRead (r : HomeRead) (s : State) : Out := .next (s.homeRead r)

/-! The fabric translation unit (R347). -/

/-- What a leaf of the fabric table grants. -/
def fabricLeaf (s : State) (write big : Bool) (e va : Nat) : Option (Nat × Nat) :=
  if field e 4 2 ≠ 0 ∨ (write && field e 2 1 == 0) then none else some (leafAddr big e va, s.keyTag (field e 48 11))

/-- The entry of the unit for a domain address. -/
def State.fabricHit (s : State) (d : Nat) : Option FabTlb := s.ftlb.find? fun t => t.page == pageOf t.big d

/-- The memory that a domain address names: a walk of the fabric table, or a cached entry that may still be used, a free choice. -/
def State.fabricXlate (s : State) (write : Bool) (d : Nat) : Option (Nat × Nat) :=
  let w :=
    match s.walkLeaf s.ftBase.toNat (s.keyTag 0) d with
    | .inl _ => none
    | .inr (level, e) => fabricLeaf s write (level == 2) e d
  match s.fabricHit d with
  | none => w
  | some t =>
    let o := fabricLeaf s write t.big t.entry.toNat d
    if o = w then w else if Config.free 19 s.fresh d % 2 = 0 then w else o

/-- An entry in place of one of those that meet a test, chosen freely; none where no entry does. -/
def replaceOne (fresh : Nat) (f : FabTlb → Bool) (t : FabTlb) (ts : List FabTlb) : List FabTlb :=
  match (span 0 ts.length).filter fun i => f (atD ts i t) with
  | [] => ts
  | i :: is => setAt ts (atD (i :: is) (Config.free 31 fresh t.page % (is.length + 1)) i) t

/-- The unit takes an entry: 16,384 of them, of which 4,096 are filled only by G requests; an H fill replaces only H entries (R347). -/
def ftlbPut (fresh : Nat) (t : FabTlb) (ts : List FabTlb) : List FabTlb :=
  let os := ts.filter fun x => !(x.big == t.big && x.page == t.page)
  let hs := (os.filter fun x => x.classH).length
  if os.length < 16384 ∧ (!t.classH || decide (hs < 12288)) = true then os ++ [t]
  else if t.classH then replaceOne fresh (fun x => x.classH) t os
  else replaceOne fresh (fun _ => true) t os

/-- A translation that has been walked for a request of a class stays in the unit. -/
def State.fabricFill (s : State) (d : Nat) (classH : Bool) : State :=
  match s.walkLeaf s.ftBase.toNat (s.keyTag 0) d with
  | .inr (level, e) =>
    if field e 4 2 = 0 then { s with ftlb := ftlbPut s.fresh ⟨pageOf (level == 2) d, level == 2, dwordOf e, classH⟩ s.ftlb } else s
  | .inl _ => s

/-! Frames (R361; log 16). -/

/-- An answer leaves by the port at which its request came in. -/
def State.answer (s : State) (op : Nat) (f : Frame) (payload : List Byte) : State :=
  s.send op ⟨f.port, 0, f.spkg, f.daddr, f.tag, 0, f.classH, payload⟩

/-- A frame that is for this package, while the ports are up. -/
def State.accepts (s : State) (f : Frame) : Bool := decide (f.dpkg = s.pkgNum) && s.svc ≠ .boot && s.svc ≠ .reduced

/-- Refuse a request: the domain address goes to FTFAULT. -/
def State.refuseFrame (s : State) (f : Frame) : State := ({ s with ftFault := dwordOf f.daddr }).answer 8 f []

/-- Serve a request at the memory that its domain address names, where its home sees it (R11, R106). -/
def State.serveAt (s : State) (f : Frame) (write : Bool) (k : Nat → Nat → State → State) : State :=
  if !s.accepts f then s
  else
    match s.fabricXlate write f.daddr with
    | none => s.refuseFrame f
    | some (pa, tag) =>
      if s.stackFails pa then s.refuseFrame f
      else
        let home : HomeReq := ⟨pa / 128, 1, duelOf f.classH, f.classH, 384 + homeSlice pa / 64, write, tag, none, 0⟩
        k pa tag (((s.fabricFill f.daddr f.classH).needMem pa).askHome home)

/-- The bytes that a read request asks for: mode 1 reads each granule as an invariant load does. The package that serves it does not know
when the launch began that reads, and takes any value that the granule has held (R99; log 18). -/
def State.readFor (s : State) (mode tag pa n : Nat) : List Byte :=
  if mode = 1 then (span 0 ((n + 3) / 4)).flatMap fun i => s.anyValueOf 30 i tag 0 (pa + 4 * i) (Nat.min 4 (n - 4 * i))
  else s.readBytes tag pa n

/-- READ_REQUEST (R361): a fabric read-request frame is received and served at its destination home. -/
def execReadRequest (f : Frame) (s : State) : Out :=
  outMem (s.serveAt f false fun pa tag s =>
    let n := Nat.min (recField f.payload 0 2) 2048
    let mode := recField f.payload 2 1
    let t := s.answer 1 f (s.readFor mode tag pa n)
    if mode = 2 then t.discardLine (pa / 128) else t)

/-- WRITE (R361): a fabric write frame is received and performed at its destination home. -/
def execWrite (f : Frame) (s : State) : Out :=
  outMem (s.serveAt f true fun pa tag s => (s.writeBytes tag pa f.payload).answer 3 f [])

/-- The new value that an atomic frame asks for, with the width of its type. -/
def atomicOf (payload : List Byte) (old : Nat → Nat) : Option (Nat × Nat) :=
  let op := recField payload 0 1
  match Ty.ofCode (BitVec.ofNat 5 (recField payload 1 1)) with
  | none => none
  | some ty =>
    let w := ty.bytes
    let b := recField payload 2 w
    let o := old w
    if op < 8 then
      match MemOp.ofCode (BitVec.ofNat 3 op) with
      | some m => some (w, atomicNew m ty o b)
      | none => none
    else if op = 8 then some (w, b)
    else if op = 9 then some (w, if o = b then recField payload (2 + w) w else o)
    else if op < 16 then none
    else some (w, combine ty (op - 16) o b)

/-- ATOMIC (R361): a fabric atomic frame is received and performed atomically at its destination home. -/
def execAtomic (f : Frame) (s : State) : Out :=
  outMem (s.serveAt f true fun pa tag s =>
    let old := fun (w : Nat) => leNat (s.readBytes tag pa w)
    match atomicOf f.payload old with
    | none => s.refuseFrame f
    | some (w, x) => (s.writeBytes tag pa (natBytes w x)).answer 5 f (natBytes w (old w)))

/-- TRANSLATION_WARM (R212): a translation-warm frame makes the destination unit load a page's destination translation. -/
def execTranslationWarm (f : Frame) (s : State) : Out := .next (if s.accepts f then s.fabricFill f.daddr f.classH else s)

/-! Answers. -/

/-- The request that an answer names is answered: its frame need not be sent again. -/
def State.answered (s : State) (r : Remote) : State :=
  { s with remotes := s.remotes.filter fun x => x.tag ≠ r.tag, sent := s.sent.filter fun x => x.frame.tag ≠ r.tag || x.op ≠ r.op }

/-- Commands of a channel that a number names, queued or staged, are changed. -/
def State.updCmd (s : State) (ch num : Nat) (f : Cmd → Cmd) : State :=
  let y := s.chan ch
  let g := fun (c : Cmd) => if c.num = num then f c else c
  s.setChan ch { y with queue := y.queue.map g, staged := y.staged.map g }

/-- A command goes on with an answer, unless it waits for a response to an entry. -/
def State.answerCmd (s : State) (ch num : Nat) (got : List (Nat × Nat)) : State :=
  s.updCmd ch num fun c => { c with waiting := c.waiting && s.cmdHeld ch c, rcache := c.rcache ++ got }

/-- The bytes of a record that a reader has asked for, or none where the request was refused. -/
def State.answerRec (s : State) (tag : Nat) (bs : List Byte) : State :=
  { s with recs := s.recs.map fun r => if r.tag = tag then { r with bytes := some bs } else r }

/-- A lane's share of a pending result lands with the bytes of an answer, or with a fault; registers that the group has given up stay lost
(R42). -/
def PLane.answer (p : PLane) (r : Remote) (bs : List Byte) (fault : Option FInfo) : PLane :=
  let ws := match r.regs with
    | [] => p.ws
    | d :: _ => (wrOf (BitVec.ofNat 8 d) r.ty (leNat ((bs.drop p.off).take r.ty.bytes))).vs.filter fun x => (SMap.find p.ws x.1).isSome
  { p with landed := true, fault := fault, ws := ws, tag := none }

/-- A corner of a lane's `hg.load` has its features; with the last of them the lane's results land (R218). -/
def PLane.answerPart (p : PLane) (tag : Nat) (bs : List Byte) (fault : Option FInfo) : PLane :=
  if !(p.parts.any fun x => x.tag = some tag) then p
  else
    let parts := p.parts.map fun x => if x.tag = some tag then { x with feats := featsOf x.ffmt x.f bs, tag := none } else x
    let p := { p with parts := parts, fault := p.fault.or fault }
    if parts.any fun x => x.tag.isSome then p
    else { p with parts := [], landed := true, ws := (p.ws.map (·.1)).zip (partSums parts) }

/-- The results of a group that a request is for. -/
def State.landPend (s : State) (gk : Nat) (r : Remote) (f : PLane → PLane) : State :=
  s.updGroup gk fun g =>
    Group.takeDue s.fresh { g with pend := g.pend.map fun q => if q.id = r.pend then { q with lanes := q.lanes.map f } else q }

/-- A result that a lane waits for lands. -/
def State.landAnswer (s : State) (gk : Nat) (r : Remote) (bs : List Byte) (fault : Option FInfo) : State :=
  match r.dest with
  | .feat => s.landPend gk r fun p => p.answerPart r.tag bs fault
  | _ => s.landPend gk r fun p => if p.tag = some r.tag then p.answer r bs fault else p

/-- An operation of Anvil has the answer to a request for one line of an image (R247): a line read, or one written. -/
def AnvilOp.answer (y : AnvilOp) (tag : Nat) (bs : Option (List Byte)) : AnvilOp :=
  match y.tags.find? fun x => x.1 == tag with
  | none => y
  | some (_, i) =>
    let y := { y with tags := y.tags.filter fun x => x.1 ≠ tag }
    match y.cap, bs with
    | .fill d img src, some bs =>
      let cap := AnvilCap.fill d (img.take (128 * i) ++ (bs ++ List.replicate (128 - bs.length) 0).take 128 ++ img.drop (128 * (i + 1))) src
      { y with cap := cap, new := cap.result }
    | _, _ => y

def State.answerOp (s : State) (tuid tag : Nat) (bs : Option (List Byte)) : State :=
  s.updTeam tuid fun t => { t with anvil := t.anvil.map fun y => y.answer tag bs }

/-- What a hart's access gives: a whole value, or one part of an access that lies in two pages. -/
def State.answerHart (s : State) (h : Nat) (r : Remote) (v : Nat) : State :=
  let was := match s.hostLast.find? fun x => x.hart == h with | some x => x.value.getD 0 | none => 0
  let x := match r.regs with | [] => v | o :: _ => was + v * 2 ^ (8 * o)
  { s with hostLast := ⟨h, some x⟩ :: s.hostLast.filter fun x => x.hart ≠ h }

/-- A read or atomic response. -/
def State.takeResponse (s : State) (f : Frame) : State :=
  match s.remotes.find? fun r => r.tag == f.tag with
  | none => s
  | some r =>
    let s := s.answered r
    match r.dest, r.src with
    | .record, .engine ch num => (s.answerRec r.tag f.payload).answerCmd ch num []
    | .record, _ => s.answerRec r.tag f.payload
    | .fill tuid, _ => s.answerOp tuid r.tag (some f.payload)
    | _, .lane gk _ => if r.isLoad then s.landAnswer gk r f.payload none else s
    | _, .engine ch num => s.answerCmd ch num (if r.isLoad then [(r.pend, leNat f.payload)] else [])
    | _, .hart h _ => if r.isLoad then s.answerHart h r (leNat f.payload) else s
    | _, .take .. => s

/-- READ_RESPONSE (R361): a fabric read-response frame is received and completes its request. -/
def execReadResponse (f : Frame) (s : State) : Out := .next (if s.accepts f then s.takeResponse f else s)

/-- ATOMIC_RESPONSE (R361): a fabric atomic-response frame is received and returns the old value. -/
def execAtomicResponse (f : Frame) (s : State) : Out := .next (if s.accepts f then s.takeResponse f else s)

/-- A write of another package is performed. -/
def State.takeAck (s : State) (f : Frame) : State :=
  match s.remotes.find? fun r => r.tag == f.tag with
  | none => s
  | some r =>
    let s := s.answered r
    match r.src with
    | .engine ch num => s.answerCmd ch num []
    | .lane gk _ => s.answerOp (gk / 32) r.tag none
    | _ => s

/-- WRITE_ACKNOWLEDGEMENT (R361): a fabric write acknowledgement is received and marks the write performed. -/
def execWriteAcknowledgement (f : Frame) (s : State) : Out := .next (if s.accepts f then s.takeAck f else s)

/-- A command whose request was refused ends in error (R269): a permanent fault. -/
def State.failCmd (s : State) (ch num : Nat) (r : Remote) : State :=
  let bad := fun (c : Cmd) =>
    { c with waiting := false, ran := decide (c.kind ≠ .collective), errored := true, stagedV := [], errVa := r.va, errW := !r.isLoad }
  match (s.chan ch).queue.find? fun c => c.num == num with
  | some c => (if c.kind = .reduceStore ∨ c.kind = .collective ∨ c.ran = true then s else s.failElems ch c).updCmd ch num bad
  | none => s.updCmd ch num bad

/-- A group takes the fault of a refused request, unless it holds an entry already (R330). -/
def State.refuseLane (s : State) (gk : Nat) (i : FInfo) : State :=
  match s.group? gk with
  | none => s
  | some g => if g.ended || g.stopped || g.park = .fault then s else s.takeFault gk i

/-- A refusal: the source raises PROTECTION with reason 4 (R347). -/
def State.takeRefusal (s : State) (f : Frame) : State :=
  match s.remotes.find? fun r => r.tag == f.tag with
  | none => s
  | some r =>
    let s := s.answered r
    match r.dest, r.src with
    | .record, .engine ch num => (s.answerRec r.tag []).answerCmd ch num []
    | .record, _ => s.answerRec r.tag []
    | d, .lane gk l =>
      let i : FInfo := ⟨.protection, l, 1#32 <<< l, r.pc, dwordOf r.va, 4, !r.isLoad || r.op == 4⟩
      match d with
      | .fill tuid => (s.answerOp tuid r.tag none).refuseLane gk i
      | _ => if r.isLoad then s.landAnswer gk r [] (some i) else (s.answerOp (gk / 32) r.tag none).refuseLane gk i
    | _, .engine ch num => s.failCmd ch num r
    | _, .hart h _ => { s with hostLast := ⟨h, none⟩ :: s.hostLast.filter fun x => x.hart ≠ h }
    | _, .take .. => s

/-- REFUSAL (R347): a refusal frame makes the source raise PROTECTION with reason 4. -/
def execRefusal (f : Frame) (s : State) : Out := .next (if s.accepts f then s.takeRefusal f else s)

/-- Collective frames wait for their command (R364). -/
def execCollectiveData (f : Frame) (s : State) : Out :=
  .next (if s.accepts f then { s with collIn := s.collIn ++ [(recField f.payload 0 8, f)] } else s)

/-! Links (R361, R362, R380). -/

/-- One more, saturating. -/
def satInc64 (n : Nat) : Nat := Nat.min (n + 1) (2 ^ 64 - 1)

/-- LINK_RESEND (R361): an unacknowledged frame is resent by its link sequence number. -/
def execLinkResend (port lseq : Nat) (s : State) : Out :=
  .next (match s.sent.find? fun x => x.frame.port == port && x.frame.lseq == lseq with
    | none => s
    | some x =>
      let po := s.port port
      { (s.setPort port { po with resend := satInc64 po.resend }) with out := s.out ++ [x] })

/-- FRAME_DROP (R361): a received fabric frame with a reserved OP, a bad VER or a failing frame check is dropped and counted in FPDROP. -/
def execFrameDrop (port : Nat) (s : State) : Out :=
  .next (if port < 32 then let po := s.port port; s.setPort port { po with drop := satInc64 po.drop } else s)

/-- LINK_STATE_CHANGE (R380): a fabric port's link comes up or goes down, changing FPCTL.LINK. -/
def execLinkStateChange (port lanes : Nat) (up : Bool) (s : State) : Out :=
  .next (if port < 32 then
    let on := up && s.svc ≠ .boot && s.svc ≠ .reduced
    s.setPort port { s.port port with link := on, lanesUp := if on then lanes % 16 else 0 }
  else s)

/-- FABRIC_WINDOW_START (R362): a 1 µs window of device time begins and each port's send allowances refill. -/
def execFabricWindowStart (s : State) : Out := .next { s with windows := [] }

/-- STORE_PERFORMED (R95): a local store, atomic or red is accepted at its L2 home and becomes performed, ending the waits of fences and starting the 1 µs visibility bound. -/
def execStorePerformed (id : Nat) (s : State) : Out := .next { s with stores := s.stores.filter fun x => x.id ≠ id }

end Sys2Proof.Machine
end

