-- ==== Sys2Proof/Machine/Registers.lean ====
section
/-! DEFINITION. Device register space (R310): every register with its width, its value and what a write of it does; and the accesses of
host harts (R94, R385). -/

namespace Sys2Proof.Machine

/-! Widths. A register lies at its offset; 0 means that none begins there. -/

/-- Registers of a queue (Table 16-2). -/
def queueRegs : SMap Nat :=
  [(0x00, 8), (0x08, 4), (0x10, 8), (0x18, 8), (0x20, 8), (0x28, 4), (0x2C, 4), (0x30, 8), (0x38, 4), (0x3C, 4)]

/-- Registers of a partition's window beyond its queues (R317, R318, Tables 17-1, 18-2, 19-3). -/
def windowRegs : SMap Nat :=
  [(0x1000, 4), (0x1004, 4), (0x1008, 8), (0x1010, 4)] ++
  [(0x1100, 8), (0x1108, 4), (0x110C, 4), (0x1110, 8), (0x1118, 8), (0x1120, 8), (0x1128, 4), (0x112C, 4), (0x1130, 4), (0x1134, 4),
    (0x1138, 8), (0x1140, 4), (0x1144, 4), (0x1148, 8), (0x1150, 4)] ++
  [(0x1200, 8), (0x1208, 4), (0x1210, 8), (0x1218, 4), (0x1300, 4)] ++
  ((span 0 8).map fun i => (0x1308 + 8 * i, 8)) ++ ((span 0 32).map fun i => (0x1400 + 8 * i, 8)) ++ [(0x1500, 8), (0x1508, 4)]

/-- Registers of the package (R323, R324, Table 18-3, Table 19-1, R362, Table 19-5, R376). -/
def packageRegs : SMap Nat :=
  [(0x500000, 8), (0x500008, 4), (0x50000C, 4)] ++
  [(0x600000, 8), (0x600008, 8), (0x600010, 4), (0x600018, 8), (0x600100, 4), (0x600104, 4)] ++
  [(0x700000, 4), (0x700004, 4), (0x700008, 4), (0x70000C, 4), (0x700010, 4), (0x730000, 8)] ++
  [(0x750000, 8), (0x750008, 8), (0x750010, 4), (0x750014, 4), (0x750018, 8), (0x750020, 4)] ++
  [(0x770000, 4), (0x770004, 4), (0x770008, 4)]

/-- Registers of a port (Table 21-2) and of a cluster (Table 20-1). -/
def portRegs : SMap Nat := [(0, 4), (8, 8), (0x10, 8), (0x18, 8)]

def clusterRegs : SMap Nat :=
  [(0, 4), (4, 4), (8, 4), (0xC, 4), (0x10, 4), (0x14, 4), (0x18, 4), (0x1C, 4), (0x20, 8), (0x28, 8), (0x30, 8), (0x38, 4)]

/-- Where an offset lies. -/
inductive Place where
  | config
  | queue (p q o : Nat)
  | window (p o : Nat)
  | port (p o : Nat)
  | hpart (h : Nat)
  | cluster (c o : Nat)
  | clpart (c : Nat)
  | package
  deriving DecidableEq, Repr

def placeOf (off : Nat) : Place :=
  if off < 0x1000 then .config
  else if 0x400000 ≤ off ∧ off < 0x480000 then
    let p := (off - 0x400000) / 0x10000
    let w := off % 0x10000
    if w < 0x1000 then .queue p (w / 0x40) (w % 0x40) else .window p w
  else if 0x740000 ≤ off ∧ off < 0x742000 then .port ((off - 0x740000) / 0x100) (off % 0x100)
  else if 0x761000 ≤ off ∧ off < 0x761080 then .hpart ((off - 0x761000) / 4)
  else if 0x780000 ≤ off ∧ off < 0x783000 then .cluster ((off - 0x780000) / 0x100) (off % 0x100)
  else if 0x790000 ≤ off ∧ off < 0x7900C0 then .clpart ((off - 0x790000) / 4)
  else .package

def regWidth (off : Nat) : Nat :=
  match placeOf off with
  | .config => 0
  | .queue _ _ o => SMap.getD queueRegs o 0
  | .window _ o => SMap.getD windowRegs o 0
  | .port _ o => SMap.getD portRegs o 0
  | .hpart _ => if off % 4 = 0 then 4 else 0
  | .cluster _ o => SMap.getD clusterRegs o 0
  | .clpart _ => if off % 4 = 0 then 4 else 0
  | .package => SMap.getD packageRegs off 0

/-! Values. -/

/-- The value of flags from bit 0 up. -/
def bitsOf (bs : List Bool) : Nat := bs.foldr (fun b acc => b.toNat + 2 * acc) 0

/-- Configuration space (R351): the capability list from 0x40 on. -/
def capBytes : Nat → List Cap → List Byte
  | _, [] => []
  | off, c :: cs =>
    let len := 2 + c.body.length
    let next := if cs.isEmpty then 0 else off + 4 * len
    natBytes 2 c.id ++ natBytes 1 c.version ++ natBytes 1 len ++ natBytes 2 next ++ natBytes 2 0 ++
      (c.body.flatMap fun w => natBytes 4 w.toNat) ++ capBytes (off + 4 * len) cs

def configRead (off n : Nat) : Nat := leNat ((span off n).map fun a => if a < 0x40 then 0 else atD (capBytes 0x40 Config.caps) (a - 0x40) 0)

def Queue.ctl (x : Queue) : Nat :=
  bitsOf [x.en, x.classH] + x.prio % 8 * 4 + x.log2s % 32 * 32 + bitsOf [x.steal, x.timer, x.streamq] * 2 ^ 10

def Queue.read (x : Queue) (o : Nat) : Nat :=
  match o with
  | 0x00 => x.base.toNat
  | 0x08 => x.ctl
  | 0x10 => x.tail
  | 0x18 => x.head
  | 0x20 => x.doneV
  | 0x28 => x.stat.toNat
  | 0x2C => x.rej.toNat
  | 0x30 => x.tstart.toNat
  | 0x38 => x.tperiod.toNat
  | 0x3C => x.miss
  | _ => 0

/-- A partition's state as PSTAT reads it: one that holds no cluster reads SAVED (R328), and one whose image lies in the shadow stores
SHADOW (R341). -/
def State.pstate (s : State) (p : Nat) : PState := if s.partExists p || (s.part p).pst = .shadow then (s.part p).pst else .saved

def State.windowRead (s : State) (p o : Nat) : Nat :=
  let pt := s.part p
  if o = 0x1000 then pt.store.length
  else if o = 0x1004 then pt.plsRes
  else if o = 0x1008 then pt.tapeBase.toNat
  else if o = 0x1010 then pt.tape.length
  else if o = 0x1100 then pt.fqBase.toNat
  else if o = 0x1108 then bitsOf [pt.fqEn, pt.fqIe] + 4 * pt.fqLog2n
  else if o = 0x110C then pt.fqStat.toNat
  else if o = 0x1110 then pt.fqTail
  else if o = 0x1118 then pt.fqHead
  else if o = 0x1120 then pt.fqResp.toNat
  else if o = 0x1128 then pt.tsact + 4 * bitsOf [pt.mig, pt.migg]
  else if o = 0x112C then pt.pcmdCmd + 8 * pt.pcmdIn
  else if o = 0x1130 then (s.pstate p).code + 256 * pt.res
  else if o = 0x1134 then pt.tslice.toNat
  else if o = 0x1138 then pt.saveBase.toNat
  else if o = 0x1140 then 0xD00000
  else if o = 0x1144 then leNat (pt.gshare.map fun x => BitVec.ofNat 8 x)
  else if o = 0x1148 then pt.hspillBase.toNat
  else if o = 0x1150 then pt.hspillCnt
  else if o = 0x1200 then pt.ptBase.toNat
  else if o = 0x1208 then pt.ptKey
  else if o = 0x1210 then pt.tlbInv.toNat
  else if o = 0x1218 then pt.tlbBusy.toNat
  else if o = 0x1300 then pt.netShare
  else if 0x1308 ≤ o ∧ o < 0x1348 then (atD pt.hbmReg ((o - 0x1308) / 8) 0).toNat
  else if 0x1400 ≤ o ∧ o < 0x1500 then (atD pt.portReg ((o - 0x1400) / 8) 0).toNat
  else if o = 0x1500 then pt.cgBase.toNat
  else if o = 0x1508 then pt.cTimeout
  else 0

/-- BANKPWR: two bits for each of 32 banks. -/
def State.bankPwr (s : State) (c i : Nat) : Nat := sumN ((span 0 32).map fun b => (s.bank (64 * c + 32 * i + b)).pwr.code * 4 ^ b)

def State.clusterRead (s : State) (cl o : Nat) : Nat :=
  let c := s.cluster cl
  match o with
  | 0x00 => c.req.code + 16 * c.curBias.code + 256 * c.settleOld.isSome.toNat
  | 0x04 => c.wave + 256 * c.space
  | 0x08 => c.level + 256 * c.depl.toNat
  | 0x0C => c.rcLow + 256 * c.rcHigh + 65536 * c.rcRate
  | 0x10 => c.cost.toNat
  | 0x14 => c.temp
  | 0x18 => c.thr.toNat
  | 0x1C => c.warm
  | 0x20 => c.role.toNat
  | 0x28 => s.bankPwr cl 0
  | 0x30 => s.bankPwr cl 1
  | 0x38 => c.rlcnt
  | _ => 0

def Port.read (x : Port) (o : Nat) : Nat :=
  match o with
  | 0x00 => bitsOf [x.en, x.link] + 4 * (x.lanesUp % 16)
  | 0x08 => x.drop
  | 0x10 => x.resend
  | 0x18 => x.fec
  | _ => 0

def State.duelRead (s : State) : Nat :=
  let x := s.slice s.l2sel
  x.pselG + x.pselH * 2 ^ 10 + x.pselE * 2 ^ 20

def State.packageRead (s : State) (off : Nat) : Nat :=
  if off = 0x500000 then s.stBase.toNat
  else if off = 0x500008 then s.scCmd.toNat
  else if off = 0x50000C then s.scStat
  else if off = 0x600000 then s.ftBase.toNat
  else if off = 0x600008 then s.ftInv.toNat
  else if off = 0x600010 then s.ftBusy.toNat
  else if off = 0x600018 then s.ftFault.toNat
  else if off = 0x600100 then s.keyCmd.toNat
  else if off = 0x600104 then s.keyBusy.toNat + 2 * s.keyRes + 16 * s.keyGiven
  else if off = 0x700000 then s.l2wayg.toNat
  else if off = 0x700004 then s.mcwin
  else if off = 0x700008 then s.l2sel
  else if off = 0x70000C then s.duelRead
  else if off = 0x700010 then s.qosErr.toNat
  else if off = 0x730000 then s.rtBase.toNat
  else if off = 0x750000 then s.ptime
  else if off = 0x750008 then s.ptStep.toNat
  else if off = 0x750010 then (s.ptRate % 2 ^ 32).toNat
  else if off = 0x750014 then s.stepping.toNat
  else if off = 0x750018 then s.txts.toNat
  else if off = 0x750020 then s.ptsel
  else if off = 0x770000 then s.svc.code + 256 * s.hbmOk.toNat + 65536 * s.hbmFail.toNat
  else if off = 0x770004 then s.svcCmd.toNat
  else if off = 0x770008 then s.svcRes
  else 0

/-- The value of the register that begins at an offset. -/
def State.regRead (s : State) (off : Nat) : Nat :=
  match placeOf off with
  | .config => 0
  | .queue p q o => (s.queue p q).read o
  | .window p o => s.windowRead p o
  | .port p o => (s.port p).read o
  | .hpart h => SMap.getD s.hpart h 15
  | .cluster c o => s.clusterRead c o
  | .clpart c => (s.cluster c).part
  | .package => s.packageRead off

/-! Writes. -/

/-- The state that an event leaves, where it leaves one. -/
def nextOr (s : State) (o : Out) : State :=
  match o with
  | .next t => t
  | _ => s

/-- A value with its low bits, which are reserved, zero. -/
def maskLow (n : Nat) (v : Nat) : DWord := dwordOf (v / 2 ^ n * 2 ^ n)

/-- No queue of a partition has EN = 1. -/
def State.queuesOff (s : State) (p : Nat) : Bool := (s.part p).queues.all fun x => !x.2.en

def State.queueWrite (s : State) (p q o v : Nat) : State :=
  let x := s.queue p q
  let timed := fun (y : Queue) => if y.en then { y with fires := firstFire y.tstart.toNat y.tperiod.toNat s.ptime } else y
  match o with
  | 0x00 => s.setQueue p q { x with base := maskLow 6 v }
  | 0x08 => s.writeQctl p q (wordOf v)
  | 0x10 => s.writeTail p q v
  | 0x28 => s.setQueue p q { x with stat := x.stat &&& ~~~BitVec.ofNat 3 v }
  | 0x30 => s.setQueue p q (timed { x with tstart := dwordOf v })
  | 0x38 => s.setQueue p q (timed { x with tperiod := wordOf v })
  | _ => s

/-- A write of PCMD acts (Table 17-1); its field IN keeps what is written. -/
def State.writePcmd (s : State) (p v : Nat) : State :=
  let cmd := v % 8
  let inp := field v 3 4
  let s := s.setPart p { s.part p with pcmdIn := inp }
  if cmd = 1 then nextOr s (execPreempt p s)
  else if cmd = 2 then nextOr s (execResume p s)
  else if cmd = 3 then nextOr s (execSwap p inp s)
  else
    let s := s.setPart p { s.part p with pcmdCmd := cmd, pcmdIn := inp }
    if cmd = 0 then s else s.setRes p 5

/-- An H team of the partition is placed or evicted. -/
def State.hTeams (s : State) (p : Nat) : Bool := (s.teamsOf p).any fun x => s.teamIsH x.2

/-- A write of GSHARE, ignored as a whole where it gives a share of 33 to 63. -/
def State.writeGshare (s : State) (p v : Nat) : State :=
  let xs := (span 0 4).map fun i => field v (8 * i) 6
  if xs.any fun x => decide (x > 32) then s else s.setPart p { s.part p with gshare := xs }

def State.windowWrite (s : State) (p o v : Nat) : State :=
  let pt := s.part p
  if o = 0x1008 then (if s.queuesOff p then s.setPart p { pt with tapeBase := maskLow 22 v } else s)
  else if o = 0x1100 then (if pt.fqEn then s else s.setPart p { pt with fqBase := maskLow 12 (v % 2 ^ 48) })
  else if o = 0x1108 then s.writeFqctl p (wordOf v)
  else if o = 0x110C then s.setPart p { pt with fqStat := pt.fqStat &&& ~~~BitVec.ofNat 4 v }
  else if o = 0x1118 then s.writeFqhead p (dwordOf v)
  else if o = 0x1120 then s.respond p (wordOf v) (field v 32 3)
  else if o = 0x1128 then s.setPart p { pt with tsact := v % 4, mig := field v 2 1 == 1, migg := field v 3 1 == 1 }
  else if o = 0x112C then s.writePcmd p v
  else if o = 0x1134 then s.setPart p { pt with tslice := wordOf v, sliceStart := s.ptime }
  else if o = 0x1138 then s.setPart p { pt with saveBase := maskLow 16 v }
  else if o = 0x1144 then s.writeGshare p v
  else if o = 0x1148 then s.setPart p { pt with hspillBase := maskLow 16 v }
  else if o = 0x1150 then (if s.hTeams p then s else s.setPart p { pt with hspillCnt := v % 2 ^ 16 })
  else if o = 0x1200 then s.setPart p { pt with ptBase := maskLow 16 v }
  else if o = 0x1208 then s.setPart p { pt with ptKey := v % 2 ^ 11 }
  else if o = 0x1210 then nextOr s (execTlbInvalidate p (dwordOf (v % 2 + field v 16 39 * 2 ^ 16)) s)
  else if o = 0x1300 then s.writeNetshare p v
  else if 0x1308 ≤ o ∧ o < 0x1348 then s.writeHbmreg p ((o - 0x1308) / 8) v
  else if 0x1400 ≤ o ∧ o < 0x1500 then s.writePortreg p ((o - 0x1400) / 8) v
  else if o = 0x1500 then s.setPart p { pt with cgBase := maskLow 12 v }
  else if o = 0x1508 then s.setPart p { pt with cTimeout := v % 2 ^ 24 }
  else s

/-- BANKROLE may be written while the cluster belongs to no partition, or to one that is SAVED with no team of it resident (R374). -/
def State.roleOpen (s : State) (cl : Nat) : Bool :=
  let p := (s.cluster cl).part
  p == 15 || ((s.part p).pst == .saved && !(s.teamsOf p).any fun x => x.2.tst == .resident)

def State.clusterWrite (s : State) (cl o v : Nat) : State :=
  let c := s.cluster cl
  match o with
  | 0x00 => s.writeClbias cl (wordOf v)
  | 0x04 =>
    if v % 64 = 0 ∨ v % 64 > 32 ∨ field v 8 8 = 0 then s else s.setCluster cl { c with wave := v % 64, space := field v 8 8 }
  | 0x0C =>
    if field v 16 8 = 0 ∨ field v 8 8 ≤ v % 256 then s
    else s.setCluster cl { c with rcLow := v % 256, rcHigh := field v 8 8, rcRate := field v 16 8 }
  | 0x10 => s.setCluster cl { c with cost := wordOf v }
  | 0x18 => s.setCluster cl { c with thr := wordOf (v % 2 ^ 12 + field v 16 12 * 2 ^ 16) }
  | 0x1C => if v % 32 > 16 then s else s.setCluster cl { c with warm := v % 32 }
  | 0x20 => if s.roleOpen cl then s.setCluster cl { c with role := dwordOf v } else s
  | _ => s

/-- A write of HPART: a reserved value is ignored. -/
def State.writeHpart (s : State) (h v : Nat) : State :=
  if 8 ≤ v % 16 ∧ v % 16 ≠ 15 then s else { s with hpart := SMap.set 15 s.hpart h (v % 16) }

/-- A write of SCCMD acts (R324). -/
def State.writeSccmd (s : State) (v : Nat) : State :=
  let e := field v 4 13
  match v % 16 with
  | 1 => nextOr s (execBind e s)
  | 2 => nextOr s (execUnbind e s)
  | 3 => nextOr s (execChunk e s)
  | c => s.scDone c e 3

/-- A write of KEYCMD acts (R348); one that is not ignored is what the register reads. -/
def State.writeKeycmd (s : State) (v : Nat) : State :=
  let id := field v 3 11
  let t := match v % 8 with
    | 1 => nextOr s (execGenerate s)
    | 2 => nextOr s (execDestroy id s)
    | 3 => nextOr s (execAssign id (field v 14 3) s)
    | c => s.keyCommand c id (field v 14 3) 3 none
  if s.keyBusy then t else { t with keyCmd := wordOf (v % 2 ^ 17) }

/-- A write of PTRATE: device time goes on from where it is. -/
def State.writePtrate (s : State) (v : Nat) : State := { s with ptBase := s.ptime, ptAt := s.now, ptRate := (wordOf v).toInt }

def State.packageWrite (s : State) (off v : Nat) : State :=
  if off = 0x500000 then
    (if s.streams.all fun x => x.2.sst == .free then { s with stBase := maskLow 16 v } else s)
  else if off = 0x500008 then s.writeSccmd v
  else if off = 0x600000 then { s with ftBase := maskLow 16 v }
  else if off = 0x600008 then nextOr s (execFabricTlbInvalidate (dwordOf (v % 2 + field v 16 39 * 2 ^ 16)) s)
  else if off = 0x600100 then s.writeKeycmd v
  else if off = 0x700000 then s.writeL2wayg (wordOf v)
  else if off = 0x700004 then { s with mcwin := v % 256 }
  else if off = 0x700008 then { s with l2sel := v % 128 }
  else if off = 0x700010 then { s with qosErr := s.qosErr &&& ~~~BitVec.ofNat 4 v }
  else if off = 0x730000 then { s with rtBase := maskLow 12 v }
  else if off = 0x750008 then s.writePtstep (dwordOf v)
  else if off = 0x750010 then s.writePtrate v
  else if off = 0x750020 then { s with ptsel := v % 64 }
  else if off = 0x770004 then s.svcCommand (v % 8)
  else s

/-- A write of the register that begins at an offset; one that is read-only keeps its value. -/
def State.regWrite (s : State) (off v : Nat) : State :=
  match placeOf off with
  | .config => s
  | .queue p q o => s.queueWrite p q o v
  | .window p o => s.windowWrite p o v
  | .port p o => if o = 0 then s.setPort p { s.port p with en := v % 2 == 1 } else s
  | .hpart h => s.writeHpart h v
  | .cluster c o => s.clusterWrite c o v
  | .clpart c => s.writeClpart c (wordOf v)
  | .package => s.packageWrite off v

/-- The register that an access of 4 or 8 bytes reaches, and the place of its bits in the access: none where the access is ignored
(R310). -/
def regOfAccess (off size : Nat) : Option (Nat × Nat) :=
  if off % size ≠ 0 then none
  else if regWidth off = size then some (off, 0)
  else if size = 8 ∧ regWidth off = 4 ∧ regWidth (off + 4) = 0 then some (off, 0)
  else if size = 8 ∧ regWidth off = 0 ∧ regWidth (off + 4) = 4 then some (off + 4, 32)
  else none

def State.deviceRead (s : State) (off size : Nat) : Nat :=
  if off < 0x1000 then configRead off size
  else
    match regOfAccess off size with
    | some (r, sh) => s.regRead r * 2 ^ sh
    | none => 0

def State.deviceWrite (s : State) (off size v : Nat) : State :=
  match regOfAccess off size with
  | some (r, sh) => s.regWrite r (field v sh (8 * regWidth r))
  | none => s

/-- REGISTER_WRITE (R310): a write to a device register without its own row sets or ignores the field as its table gives. -/
def execRegisterWrite (off size : Nat) (v : DWord) (s : State) : Out :=
  outMem (if off < 2 ^ 24 ∧ (size = 4 ∨ size = 8) then s.deviceWrite off size v.toNat else s)

/-! Host harts. -/

/-- Where an access of a hart goes: a register, memory, another package, a queue's tail, or an access fault. -/
inductive HTarget where
  | reg (off : Nat)
  | mem (pa tag : Nat)
  | remote (pkg d : Nat)
  | tail (p q : Nat)
  | bad
  deriving DecidableEq, Repr

/-- The partition that HPART names for a hart. -/
def State.hartPart (s : State) (hart : Nat) : Nat := SMap.getD s.hpart hart 15

/-- The agent by which a hart translates: the die of the partition's first cluster (log 66). -/
def State.hartAgent (s : State) (hart : Nat) : Nat := s.unitAgent (s.hartPart hart)

/-- Where an access within one page goes. -/
def State.hostTarget (s : State) (hart a size : Nat) (acc : Acc) : HTarget :=
  let p := s.hartPart hart
  let whole := fun (pa tag : Nat) => if s.stackFails pa then HTarget.bad else .mem pa tag
  if 0xF000000000 ≤ a ∧ a < 0xF001000000 then .reg (a - 0xF000000000)
  else if p = 15 then
    if a + size > hbmBytes ∨ (s.svc = .reduced ∧ a + size > 2 ^ 24) then .bad else whole a (s.keyTag 0)
  else if !s.partExists p || a ≥ 2 ^ 55 then .bad
  else
    match s.translate p (s.hartAgent hart) acc a with
    | .mem pa tag => whole pa tag
    | .remote pkg d => .remote pkg d
    | .device pa =>
      match tailAt pa with
      | some (p', q) => if p' = p ∧ size = 8 then .tail p q else .bad
      | none => .bad
    | .fault _ _ => .bad

/-- The parts of an access: address, offset and bytes. One of a partition that crosses a page is translated page by page. -/
def State.hostParts (s : State) (hart a size : Nat) : List (Nat × Nat × Nat) :=
  let k := 65536 - a % 65536
  if s.hartPart hart < 8 ∧ k < size then [(a, 0, k), (a + k, k, size - k)] else [(a, 0, size)]

/-- What a hart's last access gave. -/
def State.hostGives (s : State) (hart : Nat) (v : Option Nat) : State :=
  { s with hostLast := ⟨hart, v⟩ :: s.hostLast.filter fun x => x.hart ≠ hart }

/-- The source that a hart's accesses name. -/
def State.hartSrc (s : State) (hart : Nat) : Src := .hart hart (s.hartPart hart)

/-- A hart's access to memory: its page is looked up, and the line's home sees it, at class H (R12, R346, R385). -/
def State.hostSees (s : State) (hart va pa tag : Nat) (write : Bool) : State :=
  let s := if s.hartPart hart < 8 then s.noteXlate (s.hartPart hart) (s.hartAgent hart) true va else s
  s.askHome ⟨pa / 128, 1, 1, true, s.hartAgent hart, write, tag, none, 0⟩

/-- The bits that a part of an access gives, where it gives them at once. -/
def State.hostBits (s : State) (hart : Nat) (acc : Acc) (x : Nat × Nat × Nat) : Nat :=
  match s.hostTarget hart x.1 x.2.2 acc with
  | .mem pa tag => leNat (s.readBytes tag pa x.2.2) * 2 ^ (8 * x.2.1)
  | .tail p q => (s.queue p q).tail
  | _ => 0

/-- One part of a load: a request where it lies in another package. -/
def State.hostLoadPart (s : State) (hart : Nat) (acc : Acc) (split : Bool) (x : Nat × Nat × Nat) : State :=
  match s.hostTarget hart x.1 x.2.2 acc with
  | .mem pa tag => (s.needMem pa).hostSees hart x.1 pa tag false
  | .remote pkg d =>
    (s.tryRequest 0 (s.hartSrc hart) pkg d (natBytes 2 x.2.2 ++ [0])
      { Remote.blank with isLoad := true, regs := if split then [x.2.1] else [], va := x.1 }).getD (s.hostGives hart none)
  | _ => s

/-- A part of an access cannot be made. -/
def State.hostBad (s : State) (hart : Nat) (acc : Acc) (x : Nat × Nat × Nat) : Bool :=
  match s.hostTarget hart x.1 x.2.2 acc with
  | .bad => true
  | _ => false

/-- A hart's load. -/
def State.hostLoad (s : State) (hart a size : Nat) (acc : Acc) : State :=
  let xs := s.hostParts hart a size
  match s.hostTarget hart a size acc with
  | .reg off => if (size = 4 ∨ size = 8) ∧ acc ≠ .fetch then s.hostGives hart (some (s.deviceRead off size)) else s.hostGives hart none
  | .remote .. =>
    if xs.any (s.hostBad hart acc) then s.hostGives hart none
    else if xs.length = 1 then xs.foldl (fun t x => t.hostLoadPart hart acc false x) s
    else xs.foldl (fun t x => t.hostLoadPart hart acc true x) (s.hostGives hart (some (sumN (xs.map (s.hostBits hart acc)))))
  | _ =>
    if xs.any (s.hostBad hart acc) then s.hostGives hart none
    else xs.foldl (fun t x => t.hostLoadPart hart acc true x) (s.hostGives hart (some (sumN (xs.map (s.hostBits hart acc)))))

/-- One part of a store. -/
def State.hostStorePart (s : State) (hart v : Nat) (x : Nat × Nat × Nat) : State :=
  let bs := ((natBytes 8 v).drop x.2.1).take x.2.2
  match s.hostTarget hart x.1 x.2.2 .write with
  | .mem pa tag => (((s.needMem pa).writeBytes tag pa bs).noteStore (s.hartSrc hart)).hostSees hart x.1 pa tag true
  | .tail p q => s.writeTail p q v
  | .remote pkg d =>
    (s.tryRequest 2 (s.hartSrc hart) pkg d bs { Remote.blank with va := x.1 }).getD (s.hostGives hart none)
  | _ => s

/-- A hart's store. -/
def State.hostStore (s : State) (hart a size v : Nat) : State :=
  let xs := s.hostParts hart a size
  match s.hostTarget hart a size .write with
  | .reg off => if size = 4 ∨ size = 8 then (s.deviceWrite off size v).hostGives hart (some 0) else s.hostGives hart none
  | _ =>
    if xs.any (s.hostBad hart .write) then s.hostGives hart none
    else xs.foldl (fun t x => t.hostStorePart hart v x) (s.hostGives hart (some 0))

/-- The integer type of an AMO's width; min and max come signed and unsigned. -/
def amoTy (uns : Bool) (size : Nat) : Sys2Proof.Ty :=
  if size = 8 then (if uns then .z64 else .s64) else if uns then .z32 else .s32

/-- A hart's AMO: one event, answering the old value. -/
def State.hostAmo (s : State) (hart a size : Nat) (uns : Bool) (code : Nat) (new : Nat → Nat) (v : Nat) : State :=
  match s.hostTarget hart a size .write with
  | .mem pa tag =>
    let old := leNat (s.readBytes tag pa size)
    ((((s.needMem pa).writeBytes tag pa (natBytes size (new old))).noteStore (s.hartSrc hart)).hostSees hart a pa tag true).hostGives hart
      (some old)
  | .remote pkg d =>
    (s.tryRequest 4 (s.hartSrc hart) pkg d (atomPayload code (amoTy uns size) (natBytes size v))
      { Remote.blank with isLoad := true, va := a }).getD (s.hostGives hart none)
  | _ => s.hostGives hart none

/-- A store-conditional: it succeeds only where the hart's reservation names the place and nothing has written it since, and may fail
even then (R94). One to another package fails: the frames of R361 carry no reservation (log 66). -/
def State.hostConditional (s : State) (hart a size v : Nat) : State :=
  let held :=
    match SMap.find s.hostResv hart, s.hostTarget hart a size .write with
    | some (pa, n, stamp), .mem pa' _ => pa == pa' && n == size && decide (s.wroteAt pa size ≤ stamp) && Config.free 20 s.fresh hart % 2 == 0
    | _, _ => false
  let s' : State := { s with hostResv := SMap.erase s.hostResv hart }
  match s.hostTarget hart a size .write with
  | .mem _ _ => if held then s'.hostStore hart a size v else s'.hostGives hart (some 1)
  | .remote .. => s'.hostGives hart (some 1)
  | _ => s'.hostGives hart none

/-- A load-reserve. -/
def State.hostReserve (s : State) (hart a size : Nat) : State :=
  let t := s.hostLoad hart a size .read
  match s.hostTarget hart a size .read with
  | .mem pa _ => { t with hostResv := SMap.put t.hostResv hart (pa, size, s.wseq) }
  | _ => t

/-- An access of a hart. An atomic one that is not aligned has no place. -/
def State.hostDo (s : State) (hart : Nat) (op : HostOp) : State :=
  let atomic := fun (a n : Nat) (k : State) => if a % n = 0 then k else s.hostGives hart none
  match op with
  | .load a n => s.hostLoad hart a n .read
  | .fetch a n => s.hostLoad hart a n .fetch
  | .store a n v => s.hostStore hart a n v
  | .amo o u a n v => atomic a n (s.hostAmo hart a n u o.code.toNat (fun old => atomicNew o (amoTy u n) old v) v)
  | .swap a n v => atomic a n (s.hostAmo hart a n false 8 (fun _ => v) v)
  | .reserve a n => atomic a n (s.hostReserve hart a n)
  | .conditional a n v => atomic a n (s.hostConditional hart a n v)

/-- A request of a hart to another package has not been answered. -/
def State.hartRemote (s : State) (hart : Nat) : Bool := s.remotes.any fun r => match r.src with | .hart h _ => h == hart | _ => false

/-- A host `fence` waits for the hart's accesses to other packages; the hart's own stores are performed by then (R94, R95). -/
def State.hostFence (s : State) (hart : Nat) : State :=
  if s.hartRemote hart then { s with hostHeld := s.hostHeld ++ [hart] }
  else { s with stores := s.stores.filter fun x => match x.src with | .hart h _ => h ≠ hart | _ => true }

/-- Accesses of a hart, in program order, up to a fence that has to wait; the others are kept. -/
def State.hostRun (hart : Nat) : List (Option HostOp) → State → State
  | [], s => s
  | some op :: xs, s => State.hostRun hart xs (s.hostDo hart op)
  | none :: xs, s =>
    let s := s.hostFence hart
    if s.hostHeld.contains hart then { s with hostWait := s.hostWait ++ xs.map fun x => (hart, x) } else State.hostRun hart xs s

/-- A held hart goes on once its fence's accesses are performed. -/
def State.hostRelease (s : State) (hart : Nat) : State :=
  if s.hartRemote hart then s
  else
    let xs := (s.hostWait.filter fun x => x.1 == hart).map (·.2)
    let s : State := { s with hostHeld := s.hostHeld.filter fun h => h ≠ hart, hostWait := s.hostWait.filter fun x => x.1 ≠ hart }
    State.hostRun hart (none :: xs) s

/-- HOST_ACCESS (R385): a host hart's access is translated through its HPART partition or served from HBM under key 0; a hart that a fence
holds makes it later. -/
def execHostAccess (hart : Nat) (op : HostOp) (s : State) : Out :=
  outMem (if hart ≥ 32 then s
    else if s.hostHeld.contains hart then { s with hostWait := s.hostWait ++ [(hart, some op)] }
    else s.hostDo hart op)

/-- HOST_FENCE (R94): a host `fence` acts as `fence.domain` for the hart's accesses to other packages. -/
def execHostFence (hart : Nat) (s : State) : Out :=
  .next (if s.hostHeld.contains hart then { s with hostWait := s.hostWait ++ [(hart, none)] } else s.hostFence hart)

end Sys2Proof.Machine
end

