-- ==== Sys2Proof/Machine/Fleet.lean ====
section
/-! DEFINITION. Device events of the management service: partition profiles (R379), firmware update (R382), telemetry (R381, R383). -/

namespace Sys2Proof.Machine

/-! Profiles. -/

/-- The sum of a share, with a profile's value in place of its partition's, exceeds a limit. -/
def State.sharesOver (s : State) (p limit v : Nat) (f : Part → Nat) : Bool := decide (s.othersShare p f + v > limit)

/-- A profile is refused (R379). -/
def State.profileRefused (s : State) (x : Profile) : Bool :=
  let p := x.part
  let onDie := fun (d : Nat) => (x.clusters.filter fun c => c / 24 == d).length
  p ≥ 8 || s.pstate p ≠ .saved || s.sharesOver p 64 (x.netshare.toNat % 2 ^ 7) Part.netShare ||
    (x.hbm.any fun y => s.sharesOver p 64 (y.2.toNat % 2 ^ 7) fun q => (atD q.hbmReg y.1 0).toNat % 2 ^ 7) ||
    (x.port.any fun y => s.sharesOver p 50000 (y.2.toNat % 2 ^ 17) fun q => (atD q.portReg y.1 0).toNat % 2 ^ 17) ||
    (x.tsact == 2 && (onDie 0 > 3 || onDie 1 > 3))

/-- The writes of a queue's settings. -/
def State.writeSetting (s : State) (p : Nat) (x : QueueSetting) : State :=
  let s := s.queueWrite p x.queue 0x00 x.base.toNat
  let s := s.queueWrite p x.queue 0x30 x.tstart.toNat
  let s := s.queueWrite p x.queue 0x38 x.tperiod.toNat
  s.queueWrite p x.queue 0x08 x.ctl.toNat

/-- The writes of a profile, in the order of Table 21-1, then its queue settings. -/
def State.writeProfile (s : State) (x : Profile) : State :=
  let p := x.part
  let s := (span 0 48).foldl (fun s c =>
    if c ∈ x.clusters then s.writeClpart c (wordOf p)
    else if (s.cluster c).part = p then s.writeClpart c 15 else s) s
  let s := x.bankRoles.foldl (fun s y => s.clusterWrite y.1 0x20 y.2.toNat) s
  let s := x.warm.foldl (fun s y => s.clusterWrite y.1 0x1C y.2) s
  let s := s.writeGshare p x.gshare.toNat
  let s := s.writeNetshare p x.netshare.toNat
  let s := x.hbm.foldl (fun s y => if y.1 < 8 then s.writeHbmreg p y.1 y.2.toNat else s) s
  let s := x.port.foldl (fun s y => if y.1 < 32 then s.writePortreg p y.1 y.2.toNat else s) s
  let s := s.windowWrite p 0x1134 x.tslice.toNat
  let s := s.windowWrite p 0x1128 (x.tsact % 4 + 4 * bitsOf [x.mig, x.migg])
  x.queues.foldl (fun s y => if y.queue < 64 then s.writeSetting p y else s) s

/-- PROFILE_APPLY (R379): a Redfish partition profile is applied by writing its registers in order, or refused with HTTP 409. -/
def execProfileApply (p : Profile) (s : State) : Out :=
  .next (if s.profileRefused p then s.reply "PROFILE" 409 []
    else ({ s.writeProfile p with profiles := p :: s.profiles.filter fun x => x.part ≠ p.part }).reply "PROFILE" 200 [])

/-! Firmware update. -/

/-- A push: refused while an earlier image is being written, which takes a time that the manual does not give; else it is verified and
written to the inactive bank. -/
def execSimpleUpdate (image : Image) (s : State) : Out :=
  .next (if s.flashBusy && Config.free 21 s.fresh 0 % 2 == 0 then s.reply "SIMPLE_UPDATE" 409 []
    else if !s.imageOk image then s.reply "SIMPLE_UPDATE" 400 []
    else
      ({ s with flash := setAt s.flash (1 - s.activeBank) (some image), flashBusy := true, pendingUpdate := true }).reply "SIMPLE_UPDATE" 200 [])

/-- The fused counter is raised when the operator commits after a successful boot. -/
def execFirmwareCommit (s : State) : Out :=
  .next (if s.uncommitted && s.bootDone then
    match atD s.flash s.activeBank none with
    | some i => { s with fuseCount := Nat.max s.fuseCount i.version, uncommitted := false }
    | none => { s with uncommitted := false }
  else s)

/-! Telemetry. -/

/-- Cycles of the die network clock in 24 hours. -/
def oneDay : Nat := 177120000000000

/-- Three retention losses within 24 hours mark a cluster Degraded (R383). -/
def Cluster.failing (c : Cluster) (now : Nat) : Bool := c.rlTimes.length == 3 && c.rlTimes.all fun t => decide (now ≤ t + oneDay)

def State.markDegraded (s : State) : State :=
  { s with clusters := s.clusters.map fun x => (x.1, if x.2.failing s.now then { x.2 with degraded := true } else x.2) }

/-- The values of one report (R381). -/
def State.sample (s : State) : Report where
  clusters := (span 0 48).map fun c => let x := s.cluster c; (x.temp, x.curBias.code, x.trips, x.rlcnt)
  ports := (span 0 32).map fun p => let x := s.port p; (x.drop, x.resend, x.fec)
  stackErrs := s.hbmErrs
  faults := (span 0 8).map fun p => let x := s.part p; (x.causes, x.fqStat.getLsbD 1)
  svc := s.svc.code
  emptyKeys := ((span 1 2047).filter fun k => (s.key k).kst == .empty).length

/-- METRIC_SAMPLE (R381): once per second the firmware samples telemetry into Redfish metric reports. -/
def execMetricSample (s : State) : Out :=
  let s := s.markDegraded
  .next { s with reports := s.reports ++ [s.sample] }

end Sys2Proof.Machine
end

