-- ==== Sys2Proof/Machine/Dispatch.lean ====
section
/-! DEFINITION. The meaning of each instruction and device event: one arm a constructor. -/

namespace Sys2Proof.Machine

/-- Execute an instruction for the path that issues, or a device event. -/
def exec (i : Instr) (s : State) : Host.Outcome State Fault Refusal :=
  match i with
  | .iadd a0 a1 a2 a3 a4 a5 => Sys2Proof.Machine.execIadd a0 a1 a2 a3 a4 a5 s
  | .isub a0 a1 a2 a3 a4 a5 => Sys2Proof.Machine.execIsub a0 a1 a2 a3 a4 a5 s
  | .imul a0 a1 a2 a3 a4 a5 => Sys2Proof.Machine.execImul a0 a1 a2 a3 a4 a5 s
  | .imulhi a0 a1 a2 a3 a4 => Sys2Proof.Machine.execImulhi a0 a1 a2 a3 a4 s
  | .imad a0 a1 a2 a3 a4 a5 a6 => Sys2Proof.Machine.execImad a0 a1 a2 a3 a4 a5 a6 s
  | .iadd64 a0 a1 a2 a3 a4 a5 => Sys2Proof.Machine.execIadd64 a0 a1 a2 a3 a4 a5 s
  | .isub64 a0 a1 a2 a3 a4 a5 => Sys2Proof.Machine.execIsub64 a0 a1 a2 a3 a4 a5 s
  | .imad64 a0 a1 a2 a3 a4 a5 a6 => Sys2Proof.Machine.execImad64 a0 a1 a2 a3 a4 a5 a6 s
  | .iaddc a0 a1 a2 a3 a4 a5 => Sys2Proof.Machine.execIaddc a0 a1 a2 a3 a4 a5 s
  | .ineg a0 a1 a2 a3 => Sys2Proof.Machine.execIneg a0 a1 a2 a3 s
  | .iabs a0 a1 a2 a3 => Sys2Proof.Machine.execIabs a0 a1 a2 a3 s
  | .imin a0 a1 a2 a3 a4 => Sys2Proof.Machine.execImin a0 a1 a2 a3 a4 s
  | .imax a0 a1 a2 a3 a4 => Sys2Proof.Machine.execImax a0 a1 a2 a3 a4 s
  | .and a0 a1 a2 a3 => Sys2Proof.Machine.execAnd a0 a1 a2 a3 s
  | .or a0 a1 a2 a3 => Sys2Proof.Machine.execOr a0 a1 a2 a3 s
  | .xor a0 a1 a2 a3 => Sys2Proof.Machine.execXor a0 a1 a2 a3 s
  | .andn a0 a1 a2 a3 => Sys2Proof.Machine.execAndn a0 a1 a2 a3 s
  | .not a0 a1 a2 => Sys2Proof.Machine.execNot a0 a1 a2 s
  | .lop3 a0 a1 a2 a3 a4 a5 => Sys2Proof.Machine.execLop3 a0 a1 a2 a3 a4 a5 s
  | .shl a0 a1 a2 a3 => Sys2Proof.Machine.execShl a0 a1 a2 a3 s
  | .shr a0 a1 a2 a3 => Sys2Proof.Machine.execShr a0 a1 a2 a3 s
  | .sra a0 a1 a2 a3 => Sys2Proof.Machine.execSra a0 a1 a2 a3 s
  | .shl64 a0 a1 a2 a3 => Sys2Proof.Machine.execShl64 a0 a1 a2 a3 s
  | .shr64 a0 a1 a2 a3 a4 => Sys2Proof.Machine.execShr64 a0 a1 a2 a3 a4 s
  | .rotl a0 a1 a2 a3 => Sys2Proof.Machine.execRotl a0 a1 a2 a3 s
  | .clz a0 a1 a2 => Sys2Proof.Machine.execClz a0 a1 a2 s
  | .popc a0 a1 a2 => Sys2Proof.Machine.execPopc a0 a1 a2 s
  | .brev a0 a1 a2 => Sys2Proof.Machine.execBrev a0 a1 a2 s
  | .bfx a0 a1 a2 a3 a4 a5 a6 => Sys2Proof.Machine.execBfx a0 a1 a2 a3 a4 a5 a6 s
  | .bfi a0 a1 a2 a3 a4 => Sys2Proof.Machine.execBfi a0 a1 a2 a3 a4 s
  | .sel a0 a1 a2 a3 a4 => Sys2Proof.Machine.execSel a0 a1 a2 a3 a4 s
  | .mov a0 a1 a2 => Sys2Proof.Machine.execMov a0 a1 a2 s
  | .lea a0 a1 a2 a3 a4 a5 => Sys2Proof.Machine.execLea a0 a1 a2 a3 a4 a5 s
  | .iaddImm a0 a1 a2 a3 a4 a5 => Sys2Proof.Machine.execIaddImm a0 a1 a2 a3 a4 a5 s
  | .isubImm a0 a1 a2 a3 a4 a5 => Sys2Proof.Machine.execIsubImm a0 a1 a2 a3 a4 a5 s
  | .imulImm a0 a1 a2 a3 a4 a5 => Sys2Proof.Machine.execImulImm a0 a1 a2 a3 a4 a5 s
  | .imadImm a0 a1 a2 a3 a4 a5 a6 => Sys2Proof.Machine.execImadImm a0 a1 a2 a3 a4 a5 a6 s
  | .iminImm a0 a1 a2 a3 a4 => Sys2Proof.Machine.execIminImm a0 a1 a2 a3 a4 s
  | .imaxImm a0 a1 a2 a3 a4 => Sys2Proof.Machine.execImaxImm a0 a1 a2 a3 a4 s
  | .andImm a0 a1 a2 a3 => Sys2Proof.Machine.execAndImm a0 a1 a2 a3 s
  | .orImm a0 a1 a2 a3 => Sys2Proof.Machine.execOrImm a0 a1 a2 a3 s
  | .xorImm a0 a1 a2 a3 => Sys2Proof.Machine.execXorImm a0 a1 a2 a3 s
  | .andnImm a0 a1 a2 a3 => Sys2Proof.Machine.execAndnImm a0 a1 a2 a3 s
  | .movk a0 a1 a2 => Sys2Proof.Machine.execMovk a0 a1 a2 s
  | .movk64 a0 a1 a2 => Sys2Proof.Machine.execMovk64 a0 a1 a2 s
  | .icmp a0 a1 a2 a3 a4 a5 => Sys2Proof.Machine.execIcmp a0 a1 a2 a3 a4 a5 s
  | .pset a0 a1 a2 a3 => Sys2Proof.Machine.execPset a0 a1 a2 a3 s
  | .pget a0 a1 a2 a3 => Sys2Proof.Machine.execPget a0 a1 a2 a3 s
  | .pand a0 a1 a2 a3 a4 a5 => Sys2Proof.Machine.execPand a0 a1 a2 a3 a4 a5 s
  | .por a0 a1 a2 a3 a4 a5 => Sys2Proof.Machine.execPor a0 a1 a2 a3 a4 a5 s
  | .pxor a0 a1 a2 a3 a4 a5 => Sys2Proof.Machine.execPxor a0 a1 a2 a3 a4 a5 s
  | .pnot a0 a1 a2 a3 => Sys2Proof.Machine.execPnot a0 a1 a2 a3 s
  | .pmov a0 a1 a2 a3 => Sys2Proof.Machine.execPmov a0 a1 a2 a3 s
  | .bra a0 a1 => Sys2Proof.Machine.execBra a0 a1 s
  | .brx a0 a1 => Sys2Proof.Machine.execBrx a0 a1 s
  | .call a0 a1 => Sys2Proof.Machine.execCall a0 a1 s
  | .callx a0 a1 => Sys2Proof.Machine.execCallx a0 a1 s
  | .ret a0 => Sys2Proof.Machine.execRet a0 s
  | .exit a0 => Sys2Proof.Machine.execExit a0 s
  | .rejoinArm a0 a1 a2 a3 => Sys2Proof.Machine.execRejoinArm a0 a1 a2 a3 s
  | .rejoin a0 a1 => Sys2Proof.Machine.execRejoin a0 a1 s
  | .yield a0 => Sys2Proof.Machine.execYield a0 s
  | .nop a0 => Sys2Proof.Machine.execNop a0 s
  | .nopWidened a0 => Sys2Proof.Machine.execNopWidened a0 s
  | .qswap a0 a1 a2 a3 => Sys2Proof.Machine.execQswap a0 a1 a2 a3 s
  | .qbcast a0 a1 a2 a3 => Sys2Proof.Machine.execQbcast a0 a1 a2 a3 s
  | .gshfl a0 a1 a2 a3 a4 => Sys2Proof.Machine.execGshfl a0 a1 a2 a3 a4 s
  | .gvote a0 a1 a2 a3 => Sys2Proof.Machine.execGvote a0 a1 a2 a3 s
  | .gsync a0 a1 a2 => Sys2Proof.Machine.execGsync a0 a1 a2 s
  | .gmatch a0 a1 a2 a3 => Sys2Proof.Machine.execGmatch a0 a1 a2 a3 s
  | .gredux a0 a1 a2 a3 a4 => Sys2Proof.Machine.execGredux a0 a1 a2 a3 a4 s
  | .gscan a0 a1 a2 a3 a4 a5 => Sys2Proof.Machine.execGscan a0 a1 a2 a3 a4 a5 s
  | .gelect a0 a1 => Sys2Proof.Machine.execGelect a0 a1 s
  | .fadd a0 a1 a2 a3 a4 a5 => Sys2Proof.Machine.execFadd a0 a1 a2 a3 a4 a5 s
  | .fsub a0 a1 a2 a3 a4 a5 => Sys2Proof.Machine.execFsub a0 a1 a2 a3 a4 a5 s
  | .fmul a0 a1 a2 a3 a4 a5 => Sys2Proof.Machine.execFmul a0 a1 a2 a3 a4 a5 s
  | .ffma a0 a1 a2 a3 a4 a5 a6 => Sys2Proof.Machine.execFfma a0 a1 a2 a3 a4 a5 a6 s
  | .fmin a0 a1 a2 a3 a4 => Sys2Proof.Machine.execFmin a0 a1 a2 a3 a4 s
  | .fmax a0 a1 a2 a3 a4 => Sys2Proof.Machine.execFmax a0 a1 a2 a3 a4 s
  | .frnd a0 a1 a2 a3 a4 => Sys2Proof.Machine.execFrnd a0 a1 a2 a3 a4 s
  | .fcmp a0 a1 a2 a3 a4 a5 => Sys2Proof.Machine.execFcmp a0 a1 a2 a3 a4 a5 s
  | .fclass a0 a1 a2 a3 => Sys2Proof.Machine.execFclass a0 a1 a2 a3 s
  | .fsign a0 a1 a2 a3 a4 => Sys2Proof.Machine.execFsign a0 a1 a2 a3 a4 s
  | .fscale a0 a1 a2 a3 a4 a5 => Sys2Proof.Machine.execFscale a0 a1 a2 a3 a4 a5 s
  | .hadd2 a0 a1 a2 a3 a4 a5 => Sys2Proof.Machine.execHadd2 a0 a1 a2 a3 a4 a5 s
  | .hmul2 a0 a1 a2 a3 a4 a5 => Sys2Proof.Machine.execHmul2 a0 a1 a2 a3 a4 a5 s
  | .hfma2 a0 a1 a2 a3 a4 a5 a6 => Sys2Proof.Machine.execHfma2 a0 a1 a2 a3 a4 a5 a6 s
  | .badd2 a0 a1 a2 a3 a4 a5 => Sys2Proof.Machine.execBadd2 a0 a1 a2 a3 a4 a5 s
  | .bmul2 a0 a1 a2 a3 a4 a5 => Sys2Proof.Machine.execBmul2 a0 a1 a2 a3 a4 a5 s
  | .bfma2 a0 a1 a2 a3 a4 a5 a6 => Sys2Proof.Machine.execBfma2 a0 a1 a2 a3 a4 a5 a6 s
  | .fdot2 a0 a1 a2 a3 a4 a5 a6 => Sys2Proof.Machine.execFdot2 a0 a1 a2 a3 a4 a5 a6 s
  | .bdot2 a0 a1 a2 a3 a4 a5 a6 => Sys2Proof.Machine.execBdot2 a0 a1 a2 a3 a4 a5 a6 s
  | .qdot4 a0 a1 a2 a3 a4 a5 a6 a7 a8 => Sys2Proof.Machine.execQdot4 a0 a1 a2 a3 a4 a5 a6 a7 a8 s
  | .fcvt a0 a1 a2 a3 a4 a5 a6 a7 a8 => Sys2Proof.Machine.execFcvt a0 a1 a2 a3 a4 a5 a6 a7 a8 s
  | .fcvtSr a0 a1 a2 a3 a4 a5 a6 a7 a8 => Sys2Proof.Machine.execFcvtSr a0 a1 a2 a3 a4 a5 a6 a7 a8 s
  | .fcvti a0 a1 a2 a3 a4 a5 a6 => Sys2Proof.Machine.execFcvti a0 a1 a2 a3 a4 a5 a6 s
  | .icvtf a0 a1 a2 a3 a4 a5 a6 => Sys2Proof.Machine.execIcvtf a0 a1 a2 a3 a4 a5 a6 s
  | .fpack a0 a1 a2 a3 a4 a5 a6 a7 a8 => Sys2Proof.Machine.execFpack a0 a1 a2 a3 a4 a5 a6 a7 a8 s
  | .funpack a0 a1 a2 a3 a4 a5 => Sys2Proof.Machine.execFunpack a0 a1 a2 a3 a4 a5 s
  | .fbmax a0 a1 a2 a3 a4 a5 => Sys2Proof.Machine.execFbmax a0 a1 a2 a3 a4 a5 s
  | .ds8enc a0 a1 a2 a3 a4 => Sys2Proof.Machine.execDs8enc a0 a1 a2 a3 a4 s
  | .ds8dec a0 a1 a2 a3 a4 a5 a6 => Sys2Proof.Machine.execDs8dec a0 a1 a2 a3 a4 a5 a6 s
  | .frcp a0 a1 a2 a3 a4 => Sys2Proof.Machine.execFrcp a0 a1 a2 a3 a4 s
  | .frsq a0 a1 a2 a3 a4 => Sys2Proof.Machine.execFrsq a0 a1 a2 a3 a4 s
  | .fsqrt a0 a1 a2 a3 a4 => Sys2Proof.Machine.execFsqrt a0 a1 a2 a3 a4 s
  | .fexp2 a0 a1 a2 a3 a4 => Sys2Proof.Machine.execFexp2 a0 a1 a2 a3 a4 s
  | .flog2 a0 a1 a2 a3 a4 => Sys2Proof.Machine.execFlog2 a0 a1 a2 a3 a4 s
  | .fsin a0 a1 a2 a3 a4 => Sys2Proof.Machine.execFsin a0 a1 a2 a3 a4 s
  | .fcos a0 a1 a2 a3 a4 => Sys2Proof.Machine.execFcos a0 a1 a2 a3 a4 s
  | .ftanh a0 a1 a2 a3 a4 => Sys2Proof.Machine.execFtanh a0 a1 a2 a3 a4 s
  | .fsigm a0 a1 a2 a3 a4 => Sys2Proof.Machine.execFsigm a0 a1 a2 a3 a4 s
  | .ld a0 a1 => Sys2Proof.Machine.execLd a0 a1 s
  | .ldG a0 a1 => Sys2Proof.Machine.execLdG a0 a1 s
  | .ldS a0 a1 => Sys2Proof.Machine.execLdS a0 a1 s
  | .ldC a0 a1 => Sys2Proof.Machine.execLdC a0 a1 s
  | .ldP a0 a1 => Sys2Proof.Machine.execLdP a0 a1 s
  | .st a0 a1 a2 => Sys2Proof.Machine.execSt a0 a1 a2 s
  | .stG a0 a1 => Sys2Proof.Machine.execStG a0 a1 s
  | .stS a0 a1 => Sys2Proof.Machine.execStS a0 a1 s
  | .stC a0 a1 => Sys2Proof.Machine.execStC a0 a1 s
  | .stP a0 a1 => Sys2Proof.Machine.execStP a0 a1 s
  | .pref a0 a1 a2 a3 => Sys2Proof.Machine.execPref a0 a1 a2 a3 s
  | .spt a0 a1 a2 => Sys2Proof.Machine.execSpt a0 a1 a2 s
  | .spc a0 a1 a2 a3 a4 a5 => Sys2Proof.Machine.execSpc a0 a1 a2 a3 a4 a5 s
  | .xlatePf a0 a1 a2 => Sys2Proof.Machine.execXlatePf a0 a1 a2 s
  | .atomAdd a0 a1 a2 a3 a4 a5 => Sys2Proof.Machine.execAtomAdd a0 a1 a2 a3 a4 a5 s
  | .atomMin a0 a1 a2 a3 a4 a5 => Sys2Proof.Machine.execAtomMin a0 a1 a2 a3 a4 a5 s
  | .atomMax a0 a1 a2 a3 a4 a5 => Sys2Proof.Machine.execAtomMax a0 a1 a2 a3 a4 a5 s
  | .atomAnd a0 a1 a2 a3 a4 a5 => Sys2Proof.Machine.execAtomAnd a0 a1 a2 a3 a4 a5 s
  | .atomOr a0 a1 a2 a3 a4 a5 => Sys2Proof.Machine.execAtomOr a0 a1 a2 a3 a4 a5 s
  | .atomXor a0 a1 a2 a3 a4 a5 => Sys2Proof.Machine.execAtomXor a0 a1 a2 a3 a4 a5 s
  | .atomExch a0 a1 a2 a3 a4 a5 => Sys2Proof.Machine.execAtomExch a0 a1 a2 a3 a4 a5 s
  | .atomCas a0 a1 a2 a3 a4 a5 a6 => Sys2Proof.Machine.execAtomCas a0 a1 a2 a3 a4 a5 a6 s
  | .atomFadd a0 a1 a2 a3 a4 a5 => Sys2Proof.Machine.execAtomFadd a0 a1 a2 a3 a4 a5 s
  | .atomInc a0 a1 a2 a3 a4 a5 => Sys2Proof.Machine.execAtomInc a0 a1 a2 a3 a4 a5 s
  | .red a0 a1 a2 a3 a4 => Sys2Proof.Machine.execRed a0 a1 a2 a3 a4 s
  | .fence a0 a1 => Sys2Proof.Machine.execFence a0 a1 s
  | .hgLoad a0 a1 a2 a3 a4 a5 a6 => Sys2Proof.Machine.execHgLoad a0 a1 a2 a3 a4 a5 a6 s
  | .hgGrad a0 a1 a2 a3 a4 a5 => Sys2Proof.Machine.execHgGrad a0 a1 a2 a3 a4 a5 s
  | .hgCorner a0 a1 a2 a3 a4 a5 => Sys2Proof.Machine.execHgCorner a0 a1 a2 a3 a4 a5 s
  | .chanSend a0 a1 a2 a3 a4 => Sys2Proof.Machine.execChanSend a0 a1 a2 a3 a4 s
  | .chanRecv a0 a1 a2 => Sys2Proof.Machine.execChanRecv a0 a1 a2 s
  | .chanProbe a0 a1 a2 => Sys2Proof.Machine.execChanProbe a0 a1 a2 s
  | .fifoPush a0 a1 a2 a3 a4 => Sys2Proof.Machine.execFifoPush a0 a1 a2 a3 a4 s
  | .fifoPop a0 a1 a2 a3 => Sys2Proof.Machine.execFifoPop a0 a1 a2 a3 s
  | .bankMode a0 a1 a2 a3 a4 a5 => Sys2Proof.Machine.execBankMode a0 a1 a2 a3 a4 a5 s
  | .sctxGet a0 a1 => Sys2Proof.Machine.execSctxGet a0 a1 s
  | .mmaF16 a0 a1 => Sys2Proof.Machine.execMmaF16 a0 a1 s
  | .mmaBf16 a0 a1 => Sys2Proof.Machine.execMmaBf16 a0 a1 s
  | .mmaE4m3 a0 a1 => Sys2Proof.Machine.execMmaE4m3 a0 a1 s
  | .mmaE5m2 a0 a1 => Sys2Proof.Machine.execMmaE5m2 a0 a1 s
  | .mmaS8 a0 a1 => Sys2Proof.Machine.execMmaS8 a0 a1 s
  | .mmaDs8 a0 a1 => Sys2Proof.Machine.execMmaDs8 a0 a1 s
  | .accZero a0 a1 a2 a3 => Sys2Proof.Machine.execAccZero a0 a1 a2 a3 s
  | .accLd a0 a1 a2 a3 a4 => Sys2Proof.Machine.execAccLd a0 a1 a2 a3 a4 s
  | .accDrain a0 a1 a2 a3 a4 a5 a6 a7 => Sys2Proof.Machine.execAccDrain a0 a1 a2 a3 a4 a5 a6 a7 s
  | .accSpill a0 a1 a2 a3 => Sys2Proof.Machine.execAccSpill a0 a1 a2 a3 s
  | .accFill a0 a1 a2 a3 => Sys2Proof.Machine.execAccFill a0 a1 a2 a3 s
  | .accMov a0 a1 a2 a3 => Sys2Proof.Machine.execAccMov a0 a1 a2 a3 s
  | .accAdd a0 a1 a2 a3 a4 => Sys2Proof.Machine.execAccAdd a0 a1 a2 a3 a4 s
  | .accScale a0 a1 a2 a3 a4 => Sys2Proof.Machine.execAccScale a0 a1 a2 a3 a4 s
  | .gangForm a0 a1 => Sys2Proof.Machine.execGangForm a0 a1 s
  | .gangBrk a0 => Sys2Proof.Machine.execGangBrk a0 s
  | .dslotWait a0 a1 => Sys2Proof.Machine.execDslotWait a0 a1 s
  | .barArrive a0 a1 a2 => Sys2Proof.Machine.execBarArrive a0 a1 a2 s
  | .barWait a0 a1 a2 => Sys2Proof.Machine.execBarWait a0 a1 a2 s
  | .barSync a0 a1 => Sys2Proof.Machine.execBarSync a0 a1 s
  | .barDie a0 a1 a2 a3 a4 => Sys2Proof.Machine.execBarDie a0 a1 a2 a3 a4 s
  | .barPkg a0 a1 a2 a3 a4 => Sys2Proof.Machine.execBarPkg a0 a1 a2 a3 a4 s
  | .evArm a0 a1 a2 => Sys2Proof.Machine.execEvArm a0 a1 a2 s
  | .evMask a0 a1 a2 => Sys2Proof.Machine.execEvMask a0 a1 a2 s
  | .evClear a0 a1 => Sys2Proof.Machine.execEvClear a0 a1 s
  | .wany a0 a1 => Sys2Proof.Machine.execWany a0 a1 s
  | .mboxPost a0 a1 a2 a3 a4 => Sys2Proof.Machine.execMboxPost a0 a1 a2 a3 a4 s
  | .mboxRead a0 a1 a2 a3 => Sys2Proof.Machine.execMboxRead a0 a1 a2 a3 s
  | .tlWait a0 a1 a2 => Sys2Proof.Machine.execTlWait a0 a1 a2 s
  | .tlRead a0 a1 a2 a3 => Sys2Proof.Machine.execTlRead a0 a1 a2 a3 s
  | .tlTry a0 a1 a2 a3 a4 => Sys2Proof.Machine.execTlTry a0 a1 a2 a3 a4 s
  | .gslotSet a0 a1 a2 => Sys2Proof.Machine.execGslotSet a0 a1 a2 s
  | .gslotClr a0 a1 => Sys2Proof.Machine.execGslotClr a0 a1 s
  | .launch a0 a1 a2 a3 a4 => Sys2Proof.Machine.execLaunch a0 a1 a2 a3 a4 s
  | .tapePush a0 a1 a2 a3 => Sys2Proof.Machine.execTapePush a0 a1 a2 a3 s
  | .leaveReq a0 a1 => Sys2Proof.Machine.execLeaveReq a0 a1 s
  | .leaveRel a0 a1 => Sys2Proof.Machine.execLeaveRel a0 a1 s
  | .regionBegin a0 => Sys2Proof.Machine.execRegionBegin a0 s
  | .regionEnd a0 => Sys2Proof.Machine.execRegionEnd a0 s
  | .regsGrow a0 a1 a2 => Sys2Proof.Machine.execRegsGrow a0 a1 a2 s
  | .regsShrink a0 a1 => Sys2Proof.Machine.execRegsShrink a0 a1 s
  | .sregGet a0 a1 a2 => Sys2Proof.Machine.execSregGet a0 a1 a2 s
  | .sregSet a0 a1 a2 => Sys2Proof.Machine.execSregSet a0 a1 a2 s
  | .rdtime a0 a1 a2 => Sys2Proof.Machine.execRdtime a0 a1 a2 s
  | .trap a0 a1 => Sys2Proof.Machine.execTrap a0 a1 s
  | .brk a0 a1 => Sys2Proof.Machine.execBrk a0 a1 s
  | .xret a0 => Sys2Proof.Machine.execXret a0 s
  | .longLatencyResult a0 a1 a2 => Sys2Proof.Machine.execLongLatencyResult a0 a1 a2 s
  | .barrierWaveRelease a0 => Sys2Proof.Machine.execBarrierWaveRelease a0 s
  | .chanSendDelivery a0 => Sys2Proof.Machine.execChanSendDelivery a0 s
  | .chanRecvDelivery a0 => Sys2Proof.Machine.execChanRecvDelivery a0 s
  | .jointOperationStart a0 => Sys2Proof.Machine.execJointOperationStart a0 s
  | .anvilCompletion a0 a1 => Sys2Proof.Machine.execAnvilCompletion a0 a1 s
  | .deplClear a0 => Sys2Proof.Machine.execDeplClear a0 s
  | .leaveGrant a0 => Sys2Proof.Machine.execLeaveGrant a0 s
  | .teamPlacement a0 => Sys2Proof.Machine.execTeamPlacement a0 s
  | .evictedTeamResume a0 => Sys2Proof.Machine.execEvictedTeamResume a0 s
  | .hotSpotMigration a0 a1 => Sys2Proof.Machine.execHotSpotMigration a0 a1 s
  | .copy a0 => Sys2Proof.Machine.execCopy a0 s
  | .gather a0 => Sys2Proof.Machine.execGather a0 s
  | .reduceStore a0 => Sys2Proof.Machine.execReduceStore a0 s
  | .mergeRound a0 => Sys2Proof.Machine.execMergeRound a0 s
  | .multicastRead a0 => Sys2Proof.Machine.execMulticastRead a0 s
  | .collective a0 => Sys2Proof.Machine.execCollective a0 s
  | .commandDiscard a0 => Sys2Proof.Machine.execCommandDiscard a0 s
  | .commandComplete a0 => Sys2Proof.Machine.execCommandComplete a0 s
  | .takeRecord a0 => Sys2Proof.Machine.execTakeRecord a0 s
  | .tapePop a0 => Sys2Proof.Machine.execTapePop a0 s
  | .timerFire a0 a1 => Sys2Proof.Machine.execTimerFire a0 a1 s
  | .streamFire a0 => Sys2Proof.Machine.execStreamFire a0 s
  | .streamEvictionComplete a0 => Sys2Proof.Machine.execStreamEvictionComplete a0 s
  | .streamReloadComplete a0 => Sys2Proof.Machine.execStreamReloadComplete a0 s
  | .preemptSave a0 => Sys2Proof.Machine.execPreemptSave a0 s
  | .swapExchange a0 => Sys2Proof.Machine.execSwapExchange a0 s
  | .timeSliceExpiry a0 => Sys2Proof.Machine.execTimeSliceExpiry a0 s
  | .tlbInvalidateDone a0 => Sys2Proof.Machine.execTlbInvalidateDone a0 s
  | .keyCommandComplete => Sys2Proof.Machine.execKeyCommandComplete s
  | .biasSettled a0 => Sys2Proof.Machine.execBiasSettled a0 s
  | .thermalStep a0 => Sys2Proof.Machine.execThermalStep a0 s
  | .bankNap a0 => Sys2Proof.Machine.execBankNap a0 s
  | .bankRetain a0 => Sys2Proof.Machine.execBankRetain a0 s
  | .bankWakeComplete a0 a1 => Sys2Proof.Machine.execBankWakeComplete a0 a1 s
  | .warmReserveRefill a0 => Sys2Proof.Machine.execWarmReserveRefill a0 s
  | .bankModeComplete a0 => Sys2Proof.Machine.execBankModeComplete a0 s
  | .fabricWindowStart => Sys2Proof.Machine.execFabricWindowStart s
  | .collectiveTimeout a0 => Sys2Proof.Machine.execCollectiveTimeout a0 s
  | .storePerformed a0 => Sys2Proof.Machine.execStorePerformed a0 s
  | .stepReachedEveryCore => Sys2Proof.Machine.execStepReachedEveryCore s
  | .harvestEviction a0 => Sys2Proof.Machine.execHarvestEviction a0 s
  | .commandChunkEnd a0 a1 => Sys2Proof.Machine.execCommandChunkEnd a0 a1 s
  | .bind a0 => Sys2Proof.Machine.execBind a0 s
  | .unbind a0 => Sys2Proof.Machine.execUnbind a0 s
  | .chunk a0 => Sys2Proof.Machine.execChunk a0 s
  | .qctlWrite a0 a1 a2 => Sys2Proof.Machine.execQctlWrite a0 a1 a2 s
  | .qtailWrite a0 a1 a2 => Sys2Proof.Machine.execQtailWrite a0 a1 a2 s
  | .fqctlWrite a0 a1 => Sys2Proof.Machine.execFqctlWrite a0 a1 s
  | .fqheadWrite a0 a1 => Sys2Proof.Machine.execFqheadWrite a0 a1 s
  | .replay a0 a1 => Sys2Proof.Machine.execReplay a0 a1 s
  | .replayPage a0 a1 => Sys2Proof.Machine.execReplayPage a0 a1 s
  | .skip a0 a1 => Sys2Proof.Machine.execSkip a0 a1 s
  | .kill a0 a1 => Sys2Proof.Machine.execKill a0 a1 s
  | .preempt a0 => Sys2Proof.Machine.execPreempt a0 s
  | .resume a0 => Sys2Proof.Machine.execResume a0 s
  | .swap a0 a1 => Sys2Proof.Machine.execSwap a0 a1 s
  | .clpartWrite a0 a1 => Sys2Proof.Machine.execClpartWrite a0 a1 s
  | .tlbInvalidate a0 a1 => Sys2Proof.Machine.execTlbInvalidate a0 a1 s
  | .fabricTlbInvalidate a0 => Sys2Proof.Machine.execFabricTlbInvalidate a0 s
  | .pageWalkComplete a0 a1 a2 a3 => Sys2Proof.Machine.execPageWalkComplete a0 a1 a2 a3 s
  | .generate => Sys2Proof.Machine.execGenerate s
  | .assign a0 a1 => Sys2Proof.Machine.execAssign a0 a1 s
  | .destroy a0 => Sys2Proof.Machine.execDestroy a0 s
  | .svcNormal => Sys2Proof.Machine.execSvcNormal s
  | .svcTest => Sys2Proof.Machine.execSvcTest s
  | .svcReduced => Sys2Proof.Machine.execSvcReduced s
  | .svcRecovery => Sys2Proof.Machine.execSvcRecovery s
  | .hbmErrorLimit a0 => Sys2Proof.Machine.execHbmErrorLimit a0 s
  | .hbmTrainingPass a0 => Sys2Proof.Machine.execHbmTrainingPass a0 s
  | .packageReset => Sys2Proof.Machine.execPackageReset s
  | .firmwareStageLoad a0 a1 => Sys2Proof.Machine.execFirmwareStageLoad a0 a1 s
  | .clbiasWrite a0 a1 => Sys2Proof.Machine.execClbiasWrite a0 a1 s
  | .thermalSample a0 a1 => Sys2Proof.Machine.execThermalSample a0 a1 s
  | .l2waygWrite a0 => Sys2Proof.Machine.execL2waygWrite a0 s
  | .qosShareWrite a0 a1 a2 => Sys2Proof.Machine.execQosShareWrite a0 a1 a2 s
  | .hbmregWrite a0 a1 a2 => Sys2Proof.Machine.execHbmregWrite a0 a1 a2 s
  | .ptstepWrite a0 => Sys2Proof.Machine.execPtstepWrite a0 s
  | .registerWrite a0 a1 a2 => Sys2Proof.Machine.execRegisterWrite a0 a1 a2 s
  | .hostAccess a0 a1 => Sys2Proof.Machine.execHostAccess a0 a1 s
  | .hostFence a0 => Sys2Proof.Machine.execHostFence a0 s
  | .l2HomeRead a0 => Sys2Proof.Machine.execL2HomeRead a0 s
  | .readRequest a0 => Sys2Proof.Machine.execReadRequest a0 s
  | .readResponse a0 => Sys2Proof.Machine.execReadResponse a0 s
  | .write a0 => Sys2Proof.Machine.execWrite a0 s
  | .writeAcknowledgement a0 => Sys2Proof.Machine.execWriteAcknowledgement a0 s
  | .atomic a0 => Sys2Proof.Machine.execAtomic a0 s
  | .atomicResponse a0 => Sys2Proof.Machine.execAtomicResponse a0 s
  | .collectiveData a0 => Sys2Proof.Machine.execCollectiveData a0 s
  | .translationWarm a0 => Sys2Proof.Machine.execTranslationWarm a0 s
  | .refusal a0 => Sys2Proof.Machine.execRefusal a0 s
  | .linkResend a0 a1 => Sys2Proof.Machine.execLinkResend a0 a1 s
  | .linkStateChange a0 a1 a2 => Sys2Proof.Machine.execLinkStateChange a0 a1 a2 s
  | .ptpEventMessage a0 a1 => Sys2Proof.Machine.execPtpEventMessage a0 a1 s
  | .debugHalt a0 => Sys2Proof.Machine.execDebugHalt a0 s
  | .debugRelease a0 => Sys2Proof.Machine.execDebugRelease a0 s
  | .getVersion => Sys2Proof.Machine.execGetVersion s
  | .getCapabilities => Sys2Proof.Machine.execGetCapabilities s
  | .negotiateAlgorithms => Sys2Proof.Machine.execNegotiateAlgorithms s
  | .getDigests => Sys2Proof.Machine.execGetDigests s
  | .getCertificate a0 a1 => Sys2Proof.Machine.execGetCertificate a0 a1 s
  | .challenge a0 => Sys2Proof.Machine.execChallenge a0 s
  | .getMeasurements a0 => Sys2Proof.Machine.execGetMeasurements a0 s
  | .spdmSessionRequest a0 => Sys2Proof.Machine.execSpdmSessionRequest a0 s
  | .profileApply a0 => Sys2Proof.Machine.execProfileApply a0 s
  | .simpleUpdate a0 => Sys2Proof.Machine.execSimpleUpdate a0 s
  | .firmwareCommit => Sys2Proof.Machine.execFirmwareCommit s
  | .metricSample => Sys2Proof.Machine.execMetricSample s
  | .frameDrop a0 => Sys2Proof.Machine.execFrameDrop a0 s
  | .debuggerAttach a0 a1 => Sys2Proof.Machine.execDebuggerAttach a0 a1 s

end Sys2Proof.Machine
end

