-- ==== Sys2Proof/Machine/Issue.lean ====
section
/-! DEFINITION. Issue: which path of which group issues next (R28-R33, R150, R151, R175, R176, R387), the holds of Bellows and
lockstep (R273, R289, R371), words that are no instruction (R155), and the running of what is chosen. -/

namespace Sys2Proof.Machine

/-! What a path would do now. -/

/-- What a path offers to the issue stage. -/
inductive Offer where
  /-- Nothing: it waits. -/
  | none
  /-- A covered operation that waits for the reserve (R371). -/
  | held
  /-- A fill word, passed without an issue (R146). -/
  | fill
  /-- A word that is no instruction, or that cannot be fetched (R155, R171). -/
  | bad (c : Cause) (aux addr : Nat)
  /-- The fault of a pending result, taken here (R151, R387). -/
  | pend (id : Nat)
  | instr (i : Instr)
  deriving DecidableEq, Repr

/-- A path with its offer: the lanes that would issue, its population, its age and lowest lane, and whether it replays alone
(R27, R151). -/
structure PathOffer where
  path : Mask
  pop : Nat
  age : Nat
  low : Nat
  alone : Bool
  apc : DWord
  offer : Offer
  deriving DecidableEq, Repr

/-- The lane can issue, or can ask again whether it may (R98, R266). -/
def Lane.tries (ln : Lane) : Bool :=
  ln.lst = .onPath && match ln.wait with
    | .none | .fence _ | .queue _ _ => true
    | _ => false

/-- A wait of the lane that is not over. -/
def State.laneShut (s : State) (gk l : Nat) (ln : Lane) : Bool :=
  decide (s.now < ln.readyAt) || match ln.wait with
  | .fence d => !s.fenceClear gk l d
  | .queue ch n => decide (s.chanRoom ch < n)
  | _ => false

/-- The lanes at a program counter, and those of them that would issue. -/
def Group.at_ (g : Group) (pc : DWord) : Mask := Mask.ofPred fun l => (g.lane l).onSome && (g.lane l).pc == pc
def Group.tries (g : Group) (pc : DWord) : Mask := Mask.ofPred fun l => (g.lane l).tries && (g.lane l).pc == pc

/-- The stall point of a result that has not landed (R150). -/
def Ctx.stalls (c : Ctx) : Bool := c.g.pend.any fun q => q.lanes.any fun p => c.path.getLsbD p.lane && p.left == 0 && !p.landed

/-- The oldest pending instruction with a fault for a lane of the mask; at its stall point, or in the window too (R151). -/
def Ctx.faulted (c : Ctx) (m : Mask) (inWindow : Bool) : Option Pend :=
  c.g.pend.find? fun q => q.lanes.any fun p => m.getLsbD p.lane && p.fault.isSome && (inWindow || p.left == 0)

/-- An instruction that ends the path of its active lanes: they leave, or wait (R387). -/
def endsLanes : Instr → Bool
  | .exit .. | .rejoin .. | .gsync .. | .barWait .. | .barSync .. | .tlWait .. => true
  | .barDie _ m _ _ _ => m ≠ .arrive
  | .barPkg _ m _ _ _ => m ≠ .arrive
  | _ => false

/-- An instruction whose group waits as a whole where it acts, and with it every lane of the path (R387). -/
def endsGroup : Instr → Bool
  | .wany .. | .chanSend .. | .chanRecv .. | .gangForm .. | .regsGrow .. => true
  | _ => false

/-- The lanes of a path that an instruction ends (R387). An `mma` of a gang's member latches its group whatever its guard; outside a
gang it is taken as a gang-latched instruction of its active lanes (log 89). -/
def Ctx.endsPath (c : Ctx) (i : Instr) (act : Mask) : Mask :=
  if endsLanes i then act
  else if endsGroup i then (if act = 0 then 0 else c.path)
  else if (mmaOf i).isSome then (if c.g.gang = 0 then act else c.path)
  else 0

/-- An instruction that starts an operation of Anvil, or a store that issues commands, of a team with a late item (R289). -/
def Ctx.lateHeld (c : Ctx) (s : State) (i : Instr) (act : Mask) : Bool :=
  s.late c.tuid && match i with
    | .accZero .. | .accLd .. | .accDrain .. | .accSpill .. | .accFill .. | .accMov .. | .accAdd .. | .accScale .. => true
    | .st _ x _ => (Mask.lanes (c.realOf act)).any fun l => spaceCode (c.addr s l .gen x.a x.disp) == 4
    | _ => false

/-- The slots that an instruction of the path waits for: it is not issuable while one of them is busy (R28, R242, R250, R251). -/
def Ctx.slotsOf (c : Ctx) (i : Instr) (act : Mask) : BitVec 8 :=
  match i with
  | .accZero _ ds .. | .accLd _ ds .. | .accDrain _ ds .. | .accSpill _ ds .. | .accFill _ ds .. | .accMov _ ds .. | .accAdd _ ds ..
  | .accScale _ ds .. => if c.whole act then ds.wmask else 0
  | .gangBrk _ => if c.whole act && c.g.gang ≠ 0 then 255 else 0
  | .dslotWait _ m => if act = 0 then 0 else m
  | _ => 0

/-- What the instruction at a path's program counter may do now. -/
def Ctx.offerInstr (c : Ctx) (s : State) (i : Instr) : Offer :=
  let act := c.active i s
  match c.faulted (c.endsPath i act) true with
  | some q => .pend q.id
  | none =>
    if (c.reject? i s).isSome then .instr i
    else if c.lateHeld s i act then .none
    else if s.slotsBusy c.gk (c.slotsOf i act) then .none
    else if (c.covered s i act).isSome && !s.leaveOpen c.gk then .held
    else .instr i

/-- The offer of a path's context. -/
def Ctx.offer (c : Ctx) (s : State) : Offer :=
  if (Mask.lanes c.path).any fun l => s.laneShut c.gk l (c.g.lane l) then .none
  else if c.stalls then .none
  else
    match c.faulted c.path false with
    | some q => .pend q.id
    | none =>
      match s.fetch c.part c.t.core c.l.start c.ipc with
      | .fill => .fill
      | .bad cause aux addr => .bad cause aux addr
      | .instr i => c.offerInstr s i

/-- The offer of the path at a program counter. -/
def State.offerAt (s : State) (gk : Nat) (g : Group) (pc : DWord) : PathOffer :=
  let m := g.tries pc
  let o := match s.ctxFor gk m with
    | some c => if m = 0 then Offer.none else c.offer s
    | none => .none
  let low := (Mask.lowest (g.at_ pc)).getD 0
  ⟨m, Mask.count (g.at_ pc), (g.lane low).age, low, false, pc, o⟩

/-- A pending instruction that replays (R151): its lanes with a fault issue it alone. -/
def Pend.replayOffer (q : Pend) : PathOffer :=
  let m := Mask.ofPred fun l => match q.plane l with | some p => p.fault.isSome | none => false
  ⟨m, 0, 0, 0, true, q.pc, if m = 0 then .none else .instr q.instr⟩

/-- The offers of a group's paths. -/
def State.offers (s : State) (gk : Nat) (g : Group) : List PathOffer :=
  match g.pend.find? fun q => q.replay with
  | some q => [q.replayOffer]
  | none => g.pathPcs.map (s.offerAt gk g)

def Offer.open : Offer → Bool
  | .none | .held => false
  | _ => true

/-- The partition of a group's launch runs (R334). -/
def State.mayRun (s : State) (gk : Nat) : Bool :=
  match s.team? (gk / 32) with
  | none => false
  | some t =>
    match s.launch? t.launch with
    | none => false
    | some l => s.isRunning l.part

/-- The group stays in the selection (Table 2-4). -/
def State.selectable (s : State) (gk : Nat) (g : Group) : Bool :=
  !g.ended && !g.stopped && !g.halted && g.leaveWant == 0 && s.parkOver gk g.park && s.mayRun gk && !s.lateGang gk

/-! Selection (R28). -/

/-- The issue partition of a group: its core's number × 4 + its own. -/
def State.issueKey (s : State) (gk : Nat) : Nat := s.coreOf gk * 4 + gk % 32 % 4

/-- Issue partitions with a resident group, ascending. -/
def State.issueKeys (s : State) : List Nat :=
  sortBy id (dedup ((s.groups.filter fun x => !x.2.ended && s.atHome x.1).map fun x => s.issueKey x.1))

/-- The partition's cluster has a cycle of its clock now, and no group of the partition has issued in it. -/
def State.turn (s : State) (key : Nat) : Bool :=
  let cl := key / 32
  !s.served.contains key && decide (s.cycles cl < State.cycles { s with now := s.now + 1 } cl)

/-- The ready groups of an issue partition with their open offers. -/
def State.readyOn (s : State) (key : Nat) : List (Nat × Group × List PathOffer) :=
  (s.groups.filter fun x => s.issueKey x.1 == key && s.atHome x.1 && s.selectable x.1 x.2).filterMap fun x =>
    let os := (s.offers x.1 x.2).filter fun o => o.offer.open
    if os.isEmpty then none else some (x.1, x.2, os)

/-- The group that issues: G before H, then age, but in every sixteenth G selection the group that issued least recently; a
group that yielded is passed over where another of its class is ready (R28, R175). Of two that issued equally long ago, such as
never, the older is chosen (log 87), and where every ready group of the class has yielded none is passed over (log 88). -/
def State.chooseGroup (s : State) (key : Nat) : Option (Nat × Group × List PathOffer) :=
  let rs := s.readyOn key
  let gs := rs.filter fun x => !s.isH x.1
  let cls := if gs.isEmpty then rs else gs
  let awake := cls.filter fun x => !x.2.1.yielded
  let pick := if awake.isEmpty then cls else awake
  if !gs.isEmpty && SMap.getD s.rotation key 0 % 16 == 15 then
    minBy (fun x => x.2.1.lastIssue * 2 ^ 128 + s.ageKey x.1) pick
  else minBy (fun x => s.ageKey x.1) pick

/-- The non-replicated unit that an offer needs (R30); 0 for none. -/
def Offer.unit : Offer → Nat
  | .instr i =>
    match toRaw i with
    | .none => 0
    | .some r =>
      match r.opc.toNat / 64 with
      | 8 | 9 | 10 => 1
      | 7 => 2
      | 11 => 3
      | _ => 0
  | _ => 0

/-- The two paths that issue, the larger first, ties by precedence; an instruction that waited for its unit comes first
(R27, R29, R30). -/
def State.choosePaths (s : State) (key gk : Nat) (os : List PathOffer) : Option (PathOffer × Option PathOffer) :=
  let rank := fun (o : PathOffer) => ((32 - o.pop) * 2 ^ 128 + o.age) * 32 + o.low
  let late := fun (o : PathOffer) =>
    match SMap.find s.waiting key with
    | some w => w.gk == gk && w.path &&& o.path ≠ 0 && w.apc == o.apc
    | none => false
  match sortBy (fun o => (if late o then 0 else 2 ^ 256) + rank o) os with
  | [] => none
  | [a] => some (a, none)
  | a :: b :: _ => some (a, some b)

/-! Running what is chosen. -/

/-- Lanes of a path go on past a fill word (R146). -/
def Ctx.passFill (c : Ctx) (s : State) : State :=
  let s := s.updGroup c.gk fun g => g.updLanes fun l ln => if c.path.getLsbD l then { ln with pc := ln.pc + 4, wait := .none } else ln
  (s.repath c.gk c.path).grantHeld 64 c.t.core

/-- A word that is no instruction, or cannot be fetched, at a path's program counter (R25, R155, R171). -/
def Ctx.badWord (c : Ctx) (cause : Cause) (aux addr : Nat) (s : State) : State :=
  if c.realOf c.path = 0 then s.exitLanes c.gk c.path
  else s.takeFault c.gk { c.info cause (c.realOf c.path) with addr := dwordOf addr, aux := dwordOf aux }

/-- The fault of a pending instruction is taken, for every lane that met its cause; the instruction replays (R151). -/
def Ctx.takePend (c : Ctx) (id : Nat) (s : State) : State :=
  match c.g.pend.find? fun q => q.id == id with
  | none => s
  | some q =>
    match q.lanes.findSome? fun p => p.fault with
    | none => s
    | some f =>
      let lm := Mask.ofPred fun l =>
        match q.plane l with
        | some p => (match p.fault with | some x => x.cause = f.cause && (x.lmask.getLsbD l || x.lmask == 0) | none => false)
        | none => false
      let lm := if lm = 0 then f.lmask else lm
      let s := s.updGroup c.gk fun g => { g with pend := g.pend.map fun q => if q.id = id then { q with replay := true } else q }
      s.takeFault c.gk { f with lmask := lm, lane := (Mask.lowest lm).getD f.lane }

/-- The lanes of a pending instruction that have been replayed are no longer its lanes. -/
def Group.dropReplayed (g : Group) : Group :=
  { g with
    pend := (g.pend.map fun q =>
      if q.replay then { q with replay := false, lanes := q.lanes.filter fun p => p.fault.isNone } else q).filter fun q => !q.lanes.isEmpty }

/-- The group waits on: it is parked or held, or the lanes of the path wait. -/
def Group.waitsOn (g : Group) (m : Mask) : Bool :=
  g.park != .none || g.stopped || (Mask.lanes m).any fun l => (g.lane l).wait ≠ .none

/-- A fetch is an access of its core's TLB (R171, R346). -/
def State.noteFetch (s : State) (gk : Nat) (pc : DWord) : State :=
  match s.team? (gk / 32) with
  | none => s
  | some t =>
    match s.launch? t.launch with
    | none => s
    | some l => s.noteXlate l.part t.core l.classH pc.toNat

/-- The state in which an instruction of a path acts: the path issues, and its waits and its group's park are over. -/
def State.issuing (s : State) (gk : Nat) (o : PathOffer) (view : List Lane) : State :=
  let s := if o.alone then s else s.noteFetch gk o.apc
  let s := s.updGroup gk fun g =>
    { (g.updLanes fun l ln => if o.path.getLsbD l && !o.alone then { ln with wait := .none } else ln) with park := .none, lastIssue := s.now + 1 }
  { s with cur := some ⟨gk, o.path, o.alone, o.apc, view⟩ }

/-- What follows an instruction: a covered one is charged, and one that replayed leaves the pending results (R151, R371). -/
def State.issued (s : State) (gk : Nat) (o : PathOffer) (cov : Option Nat) : State :=
  let on := match s.group? gk with | some g => g.waitsOn o.path | none => false
  let s := match cov with | some k => if on then s else s.chargeOp gk k | none => s
  let s := if o.alone && !on then s.updGroup gk Group.dropReplayed else s
  { s with cur := none }

/-- The instructions that transfer control for each active lane (R170-R172, R279). -/
def transfers : Instr → Bool
  | .bra .. | .brx .. | .call .. | .callx .. | .ret .. | .xret .. => true
  | _ => false

/-- The targets of a transfer issue 2 cycles after it at the earliest (R293). -/
def State.delayTargets (s : State) (gk : Nat) (i : Instr) (act : Mask) : State :=
  if transfers i && act ≠ 0 then
    s.updGroup gk fun g => g.updLanes fun l ln => if act.getLsbD l then { ln with readyAt := s.targetAt gk } else ln
  else s

/-- Issue an instruction for a path. -/
def State.runInstr (s : State) (gk : Nat) (o : PathOffer) (view : List Lane) (i : Instr) : Out :=
  let s := s.issuing gk o view
  let cov := match s.ctx? with
    | some c => if (c.reject? i s).isSome then none else c.covered s i (c.active i s)
    | none => none
  let act := match s.ctx? with
    | some c => if (c.reject? i s).isSome then 0 else c.active i s
    | none => 0
  match exec i s with
  | .next t => .next ((t.issued gk o cov).delayTargets gk i act)
  | x => x

/-- Run a path's offer. -/
def State.runOffer (s : State) (gk : Nat) (o : PathOffer) (view : List Lane) : Out :=
  match o.offer with
  | .none => .next s
  | .held => .next s
  | .instr i => s.runInstr gk o view i
  | .fill => .next (match s.ctxFor gk o.path with | some c => c.passFill s | none => s)
  | .bad cause aux addr => .next (match s.ctxFor gk o.path with | some c => c.badWord cause aux addr s | none => s)
  | .pend id => .next (match s.ctxFor gk o.path with | some c => c.takePend id s | none => s)

/-- A group waits for a response to an entry, or for the driver. -/
def Group.atFault (g : Group) : Bool := g.stopped || g.park == .fault

/-- The second instruction of a pair issues whatever the first did (R29). Where both leave the group parked or held, it can hold one
of the two: the entry of the second's fault takes the place of a park of the first, and otherwise the second has no effect, and issues
again with its path (log 70). -/
def joinParks (before after : State) (gk : Nat) : State :=
  match before.group? gk, after.group? gk with
  | some x, some y =>
    if !x.stopped && x.park == .none then after
    else if !y.stopped && y.park == .none then after.updGroup gk fun g => { g with park := x.park, stopped := x.stopped }
    else if y.atFault && !x.atFault then after
    else { before with second := none }
  | _, _ => after

/-- What the second path of a pair offers after the first has taken effect; nothing where the first ended its lanes. -/
def State.secondOffer (s : State) (cu : Cur) : Option PathOffer :=
  match s.group? cu.gk with
  | none => none
  | some g =>
    let m := cu.path &&& g.tries cu.apc
    if g.ended || m == 0 then none
    else (s.ctxFor cu.gk m).map fun c => ⟨m, 0, 0, 0, false, cu.apc, c.offer s⟩

/-- The second path of a pair, after the first has taken effect; then the waits of the pair complete (R29, R176). -/
def State.runSecond (s : State) (cu : Cur) : Out :=
  let s : State := { s with second := none }
  match s.secondOffer cu with
  | none => .next ((s.meet cu.gk).settle cu.gk)
  | some o =>
    match s.runOffer cu.gk o cu.view with
    | .next t =>
      let t := joinParks s t cu.gk
      .next ((t.meet cu.gk).settle cu.gk)
    | x => x

/-- The bookkeeping of a selection (R28, R175). The yield of an H group outlasts a selection of class G (log 88). -/
def State.selected (s : State) (key gk : Nat) : State :=
  let others := (s.readyOn key).filter fun x => s.isH x.1 == s.isH gk && x.1 ≠ gk
  let s := others.foldl (fun s x => s.updGroup x.1 fun g => { g with yielded := false }) s
  let s := if others.isEmpty then s else s.updGroup gk fun g => { g with yielded := false }
  { s with
    served := s.served ++ [key]
    waiting := s.waiting.filter fun x => x.1 ≠ key
    rotation := if s.isH gk then s.rotation else SMap.updD s.rotation key 0 (· + 1) }

/-- One issue partition's selection in this cycle: the first instruction runs, and the second is kept for the next step; a fill
word is passed before it. -/
def State.issueOn (s : State) (key : Nat) : Option Out :=
  match s.chooseGroup key with
  | none => none
  | some (gk, g, os) =>
    match os.find? fun o => o.offer == .fill with
    | some o => some (s.runOffer gk o [])
    | none =>
      match s.choosePaths key gk os with
      | none => none
      | some (a, none) => some ((s.selected key gk).runOffer gk a [])
      | some (a, some b) =>
        let s := s.selected key gk
        let cu : Cur := ⟨gk, b.path, false, b.apc, g.lanes⟩
        if a.offer.unit ≠ 0 ∧ a.offer.unit = b.offer.unit then
          some (State.runOffer { s with waiting := SMap.put s.waiting key cu } gk a [])
        else some (State.runOffer { s with second := some cu } gk a [])

/-- The first issue partition, in ascending order, that can issue now. -/
def State.issueNow (s : State) : Option Out := (s.issueKeys.filter fun k => s.turn k).findSome? fun k => s.issueOn k

/-! Holds (R371). -/

/-- At the end of a cycle, the groups of a depleted cluster whose covered operations were held are noted. -/
def State.noteHolds (s : State) (cl : Nat) : State :=
  if !(s.cluster cl).depl then s
  else
    (s.groups.filter fun x => s.coreOf x.1 / 8 == cl && s.atHome x.1).foldl (fun s x =>
      let gk := x.1
      if x.2.park == .latch then
        (if s.jointReady gk && s.jointActs gk then s.holdOp ((s.jointMembers gk).headD 0) else s)
      else if s.selectable gk x.2 && (s.offers gk x.2).any fun o => o.offer == .held then s.holdOp gk
      else s) s

end Sys2Proof.Machine
end

