-- ==== Sys2Proof/Machine/Cycle.lean ====
section
/-! DEFINITION. One step of the package: the second path of an issue pair, an event of the agenda, an issue, an event that the
device brings about by itself, or the end of a cycle of the die network clock (logs 4, 5 and 6); and a state in which a word is
fetched next. -/

namespace Sys2Proof.Machine

/-- A device event: an instruction of the table that has no encoding. -/
def isEvent (i : Instr) : Bool := (toRaw i).isNone

/-- The resident team's groups, by key. -/
def State.homeGroups (s : State) : List (Nat × Group) := s.groups.filter fun x => !x.2.ended && s.atHome x.1

/-- The command at a queue head, as the event that runs it. -/
def runEvent (ch : Nat) (c : Cmd) : Instr :=
  match c.kind with
  | .copy => .copy ch
  | .gather => .gather ch
  | .reduceStore => if c.gmerge then .mergeRound ch else .reduceStore ch
  | .multicast => .multicastRead ch
  | .collective => .collective ch

/-! Events that the device brings about, in the order in which this model tries them. -/

/-- Joint operations that could start: G before H, and by the age of the lowest member (R231). -/
def State.jointEvents (s : State) : List Instr :=
  let leads := dedup ((s.homeGroups.filter fun x => x.2.park == .latch).map fun x => (s.jointMembers x.1).headD x.1)
  (sortBy (fun gk => (if s.isH gk then 2 ^ 128 else 0) + s.ageKey gk) leads).map .jointOperationStart

/-- Events of groups: joint operations, channels, leave. -/
def State.groupEvents (s : State) : List Instr :=
  s.jointEvents ++ s.homeGroups.flatMap fun x =>
    (match x.2.park with
      | .chanSend .. => [.chanSendDelivery x.1]
      | .chanRecv .. => [.chanRecvDelivery x.1]
      | _ => []) ++
    if x.2.leaveWant = 0 then [] else [.leaveGrant x.1]

/-- Results of long-latency instructions, those of saved and evicted groups included (R48, R150). -/
def State.resultEvents (s : State) : List Instr :=
  s.groups.flatMap fun x =>
    x.2.pend.flatMap fun q => (q.lanes.filter fun p => s.canLand x.1 q.id p.lane).map fun p => .longLatencyResult x.1 q.id p.lane

/-- Events of clusters and banks. A wake of a bank in RETAIN meets a parity outcome that is free (R375). -/
def State.clusterEvents (s : State) : List Instr :=
  ((SMap.keys s.clusters).flatMap fun cl =>
    [.barrierWaveRelease cl, .thermalStep cl] ++
      if (s.cluster cl).settleAt + settleTime ≤ s.now then [.biasSettled cl] else []) ++
  (s.banks.flatMap fun x =>
    if x.2.waking then [.bankWakeComplete x.1 (x.2.pwr ≠ .retain || Config.free 23 s.fresh x.1 % 2 == 0)]
    else if x.2.transit.isSome then [.bankModeComplete x.1]
    else [.bankRetain x.1, .bankNap x.1]) ++
  ((SMap.keys s.clusters).flatMap fun cl =>
    if (s.cluster cl).warm = 0 then [] else (span (64 * cl) 64).map fun b => .warmReserveRefill b)

/-- The first queued request that can go on reaches its home, as L2_HOME_READ does it, or wakes it. Whether a multicast's packet has passed
the router of the request is a free choice (R73, R283; log 10). -/
def State.homeNow (s : State) : Option State :=
  s.homeReqs.findSome? fun q =>
    let t := s.homeRead ⟨q.line, q.duel, q.classH, q.multicast.isSome, q.core, Config.free 34 s.fresh q.line % 2 == 1⟩
    if t = s then none else some t

/-- Events of L2 slices: their power states (R73, R375). -/
def State.sliceEvents (s : State) : List Instr :=
  ((span 0 128).flatMap fun sl =>
    if (s.slice sl).waking then
      [.bankWakeComplete (3072 + sl) (SMap.find s.slicePwr sl ≠ some .retain || Config.free 23 s.fresh (3072 + sl) % 2 == 0)]
    else (if s.canRetainSlice sl then [.bankRetain (3072 + sl)] else []) ++ if s.canNapSlice sl then [.bankNap (3072 + sl)] else [])

/-- Events of Tongs and Anvil. -/
def State.engineEvents (s : State) : List Instr :=
  (s.teams.flatMap fun x => (x.2.anvil.filter fun y => !y.done).map fun y => .anvilCompletion x.1 y.id) ++
  (s.chans.flatMap fun x =>
    match x.2.queue with
    | [] => [.reduceStore x.1]
    | c :: _ => [.commandComplete x.1, .commandDiscard x.1, .collectiveTimeout x.1, runEvent x.1 c, .reduceStore x.1]) ++
  (s.stores.map fun x => .storePerformed x.id)

/-- Events of partitions: pre-emption, tapes, timers, the take unit, placement and resume. -/
def State.partEvents (s : State) : List Instr :=
  (SMap.keys s.parts).flatMap fun p =>
    [.swapExchange p, .preemptSave p, .timeSliceExpiry p, .tlbInvalidateDone p, .tapePop p] ++
      ((SMap.keys (s.part p).queues).map fun q => .timerFire p q) ++ [.takeRecord p, .teamPlacement p]

/-- Events of streams, evicted teams, hot clusters, keys and time. -/
def State.otherEvents (s : State) : List Instr :=
  ((SMap.keys s.streams).flatMap fun e => [.streamFire e, .streamEvictionComplete e, .streamReloadComplete e]) ++
  ((s.teams.filter fun x => x.2.tst == .evicted).map fun x => .evictedTeamResume x.1) ++
  ((s.teams.filter fun x => x.2.tst == .resident && (s.part (s.teamPart x.2)).mig).flatMap fun x =>
    (s.coresOf (s.teamPart x.2)).map fun core => .hotSpotMigration x.1 core) ++
  (if s.keyBusy then [.keyCommandComplete] else []) ++ (if s.stepping then [.stepReachedEveryCore] else []) ++
  (if s.windows.isEmpty || s.ptime / 1000 == State.ptime { s with now := s.now - 1 } / 1000 then [] else [.fabricWindowStart])

/-- All of them, after those that come before an issue. -/
def State.events (s : State) : List Instr :=
  s.resultEvents ++ s.groupEvents ++ s.sliceEvents ++ s.clusterEvents ++ s.engineEvents ++ s.partEvents ++ s.otherEvents

/-- Events that come before an issue: the reserve of a cluster recovers (R371). -/
def State.earlyEvents (s : State) : List Instr := (SMap.keys s.clusters).map fun cl => .deplClear cl

/-- The event changes something, or stops the model. -/
def State.fires (s : State) (i : Instr) : Bool :=
  match exec i s with
  | .next t => t ≠ s
  | _ => true

/-! The end of a cycle (R371; log 6). -/

/-- A cluster's cycle ends: its reserve is filled and charged. -/
def State.clusterTick (s : State) (cl : Nat) : State :=
  let n := State.cycles { s with now := s.now + 1 } cl - s.cycles cl
  let s := if n = 0 then s else s.noteHolds cl
  let c := (span 0 n).foldl (fun c _ => c.reserveTick) (s.cluster cl)
  if c = s.cluster cl then s else s.setCluster cl c

/-- What follows as a cycle ends wherever it has become possible: instruction-buffer entries and register banks are granted (R33, R42,
R43), page walks end (R344, R346), evicted teams whose banks were reclaimed end without an open region (R51), a held pre-emption goes on
(R333), and harts go on past a fence (R94). -/
def State.followUps (s : State) : State :=
  let s := (s.walks.filter fun w => w.running).foldl (fun s w => s.walkDone w.part w.die (w.page * 2 ^ 16) .read) s
  let s := (dedup ((s.teams.filter fun x => x.2.tst == .resident).map fun x => x.2.core)).foldl State.coreTick s
  let s := ((s.teams.filter fun x => x.2.tst == .evicted && x.2.reclaimed).map (·.1)).foldl State.endNoRegion s
  let s := (SMap.keys s.parts).foldl State.goHeld s
  s.hostHeld.foldl State.hostRelease s

/-- A cycle of the die network clock ends: commands at queue heads take the values of their slots (R265), the phases in which everything
has arrived complete (R253), and an instruction that waited for its unit keeps its precedence for one cycle (R30). -/
def State.tick (s : State) : State :=
  let s := s.latchHeads.followUps
  let s := ((s.teams.filter fun x => x.2.tst ≠ .done).map (·.1)).foldl State.checkBars s
  let s := (SMap.keys s.clusters).foldl State.clusterTick s
  { s with
    waiting := s.waiting.filter fun x => s.served.contains x.1 || !s.turn x.1
    served := []
    now := s.now + 1 }

/-! The step. -/

/-- Once every instruction and event of this cycle has taken effect, the cycle ends. -/
def State.rest (s : State) : Out :=
  match s.events.find? s.fires with
  | some i => exec i s
  | none =>
    match s.homeNow with
    | some t => .next t
    | none => .next s.tick

/-- What the package does by itself. -/
def State.alone (s : State) : Out :=
  match s.earlyEvents.find? s.fires with
  | some i => exec i s
  | none =>
    match s.issueNow with
    | some o => o
    | none => s.rest

/-- One whole and indivisible step. -/
def State.act (s : State) : Out :=
  match s.second with
  | some cu => s.runSecond cu
  | none =>
    match s.agenda with
    | i :: rest =>
      let s : State := { s with agenda := rest }
      if isEvent i then exec i s else .next s
    | [] => s.alone

/-- One step, with a new draw of the free values. -/
def State.cycle (s : State) : Out :=
  match s.act with
  | .next t => .next { t with fresh := t.fresh + 1 }
  | o => o

/-! A word to be fetched next (log 4). -/

/-- The launch that runs it: class G, 128 KiB of private memory a lane, every register and 64 tiles. -/
def fetchLaunch (start : Nat) : Launch where
  part := 0
  queue := 0
  num := 1
  seq := 1
  classH := false
  k := ⟨0x40000, 131072, 0, 8, 64, 6, 4, true, true, 0, false, true, false, 0, 0, []⟩
  args := 0
  teams := 1
  tsize := 32
  persist := false
  iters := 0
  tile := 0
  rangeOff := 0
  stream := none
  steal := false
  placed := 1
  finished := 0
  killed := false
  ended := false
  start := start
  bars := []
  prior := none

/-- Its one team, on core 0. -/
def fetchTeam : Team where
  launch := 0
  num := 0
  tst := .resident
  core := 0
  firstCore := 0
  tagCore := 0
  tagSlot := 0
  groups := 1
  banks := []
  ctxBanks := []
  ctxAt := 0
  chanBanks := []
  tiles := []
  bars := []
  chans := []
  gangs := []
  anvil := []
  screed := none
  reclaimed := false
  imageId := 0
  movedAt := 0
  stopCause := none
  mergeCount := 0

/-- Bytes placed in memory from an address on. -/
def placeBytes (m : List Host.Cell) : Nat → List Byte → List Host.Cell
  | _, [] => m
  | pa, b :: bs => placeBytes (SMap.set 0 m pa b) (pa + 1) bs

/-- Page tables at 0x10000 and 0x20000 that map the first 512 MiB to themselves under key 1, and a word at 0x40000. -/
def fetchMem (m : List Host.Cell) (nbits w : Nat) : List Host.Cell :=
  placeBytes (placeBytes (placeBytes m 0x10000 (natBytes 8 0x20001)) 0x20000 (natBytes 8 (2 ^ 48 + 0xF)))
    0x40000 (natBytes 16 (w % 2 ^ nbits) ++ List.replicate 16 0#8)

/-- A team of one group is resident whose path fetches the word. -/
def State.fetching (s : State) (nbits w : Nat) : State :=
  let l := fetchLaunch s.wseq
  let clean := fun (line : Nat × Nat) => line.1 != 0x200 && line.1 != 0x400 && line.1 != 0x800
  { s with
    svc := .normal
    mem := fetchMem s.mem nbits w
    ktag := s.ktag.filter clean
    keys := SMap.put s.keys 1 ⟨.assigned 0, s.nextSerial⟩
    nextSerial := s.nextSerial + 1
    clusters := SMap.put s.clusters 0 { Cluster.reset with part := 0, req := .fbb, curBias := .fbb, clkAt := s.now }
    parts := SMap.put s.parts 0 { Part.reset with pst := .running, ptBase := 0x10000 }
    launches := [(0, l)]
    teams := [(0, fetchTeam)]
    groups := [(0, { newGroup l s.now 0 with gang := 0 })]
    nextUid := Nat.max 1 s.nextUid
    agenda := []
    second := none
    waiting := []
    served := [] }

end Sys2Proof.Machine
end

