-- ==== Sys2Proof/Machine/Step.lean ====
section
/-! DEFINITION. The step of the machine, and where the host places a word to be fetched. -/

namespace Sys2Proof.Machine

/-- One step. -/
def step (s : State) : Host.Outcome State Fault Refusal := s.cycle

/-- The state with a word placed where the next step fetches and runs it (log 4). -/
def State.withFetchWord (s : State) (nbits w : Nat) : State := s.fetching nbits w

end Sys2Proof.Machine
end

