-- ==== Sys2Proof/Safety.lean ====
section
/-! DEFINITION. What claims speak of: sound states and safe runs, a path that issues, and what an instruction leaves as it
was. -/

namespace Sys2Proof.Machine

/-- Every lane's p0 reads 1 (R139). -/
def Group.p0 (g : Group) : Bool := g.lanes.all fun ln => ln.p.getLsbD 0

/-- Memory has its canonical form, no access has met an address without memory, and no path is issuing. -/
def State.sound (s : State) : Bool := Memory.wf s.mem && s.stuck.isNone && s.cur.isNone

/-- A step ends in a next state: the machine has not stopped. -/
def State.goesOn (s : State) : Bool :=
  match step s with
  | .next _ => true
  | _ => false

/-- The state after some steps; none where the machine stopped. -/
def State.after : Nat → State → Option State
  | 0, s => some s
  | n + 1, s =>
    match step s with
    | .next t => State.after n t
    | _ => none

/-- A run of `n` steps is safe: no step stops the machine. -/
def State.safe (s : State) (n : Nat) : Bool := (State.after n s).isSome

/-! What is read of one lane. -/

/-- A register of a lane as it is written, whatever a pending result will write. -/
def Group.reg (g : Group) (l r : Nat) : Word := SMap.getD (g.lane l).v r 0

/-- A predicate of a lane as it is written. -/
def Group.pred (g : Group) (l r : Nat) : Bool := (g.lane l).p.getLsbD r

/-- No pending result of the group will write the register of the lane (R150). -/
def Group.clearV (g : Group) (l r : Nat) : Prop := ∀ q ∈ g.pend, ∀ p ∈ q.lanes, p.lane = l → r ∉ p.ws.map (·.1)

/-- No pending result of the group will write the predicate of the lane (R150). -/
def Group.clearP (g : Group) (l r : Nat) : Prop := ∀ q ∈ g.pend, ∀ p ∈ q.lanes, p.lane = l → r ∉ p.ps.map (·.1)

/-- What a lane's writes make of a register: the last value written, or the old one. -/
def Wr.reg (w : Wr) (r : Nat) (old : Word) : Word := w.vs.foldl (fun x q => if q.1 = r then q.2 else x) old

/-- What a lane's writes make of a predicate; p0 keeps its value (R139). -/
def Wr.pred (w : Wr) (r : Nat) (old : Bool) : Bool :=
  w.ps.foldl (fun x q => if q.1 = r ∧ q.1 ≠ 0 ∧ r < 96 then q.2 else x) old

/-! A path that issues. -/

/-- The path of `c` issues `i`, which no row of Table 6-10 turns away (R139, R155, R200). -/
def Issues (i : Instr) (s : State) (c : Ctx) : Prop := s.ctx? = some c ∧ c.reject? i s = none

/-! What is left as it was. -/

/-- A lane's state is as it was, but that a lane on a path may be HELD now, and a HELD lane on a path (R33). -/
def LaneSt.turned (a b : LaneSt) : Prop := b = a ∨ (a = .onPath ∧ b = .held) ∨ (a = .held ∧ b = .onPath)

/-- A lane differs at most in its place among the paths: its state, its path's age and its turn for an entry (R27, R33). -/
def Lane.placed (a b : Lane) : Prop := b = { a with lst := b.lst, age := b.age, heldAt := b.heldAt } ∧ LaneSt.turned a.lst b.lst

/-- A group differs at most in its lanes' places among the paths. -/
def Group.placed (g h : Group) : Prop :=
  h = { g with lanes := h.lanes } ∧ h.lanes.length = g.lanes.length ∧ ∀ l, Lane.placed (g.lane l) (h.lane l)

/-- Each of the other groups differs at most in its lanes' places among the paths. -/
def State.othersPlaced (gk : Nat) (s t : State) : Prop :=
  ∀ j, j ≠ gk → (∀ g, s.group? j = some g → ∃ h, t.group? j = some h ∧ Group.placed g h) ∧ (s.group? j = none → t.group? j = none)

/-- One lane after an instruction: its registers and predicates as `w` makes them, but for those that a pending result
names; its program counter `pc`; and its stack pointer, helper mark, waits and place in the memory order as they were, and its state
but for its place among the paths. -/
structure Lane.after (g : Group) (l : Nat) (w : Wr) (pc : DWord) (h : Group) : Prop where
  reg : ∀ r, g.clearV l r → h.reg l r = w.reg r (g.reg l r)
  pred : ∀ r, g.clearP l r → h.pred l r = w.pred r (g.pred l r)
  pc : (h.lane l).pc = pc
  csp : (h.lane l).csp = (g.lane l).csp
  helper : (h.lane l).helper = (g.lane l).helper
  seen : (h.lane l).seen = (g.lane l).seen
  wait : (h.lane l).wait = (g.lane l).wait
  lst : LaneSt.turned (g.lane l).lst (h.lane l).lst

/-- The program counter at which a lane stands once its path has gone on past `i`. -/
def Ctx.pcAfter (c : Ctx) (i : Instr) (l : Nat) : DWord :=
  if c.path.getLsbD l ∧ (c.g.lane l).onSome ∧ c.alone = false then (c.g.lane l).pc + dwordOf i.len else (c.g.lane l).pc

/-- What an instruction does that only writes registers and predicates of its active lanes, by `f`: those writes, the
program counters of its path, and nothing else: not a byte of memory or scratchpad, no special register, no other group. The registers'
tags and the core's count of scalar issues, which show in no register, may change, and records of other packages that the group had
asked for are forgotten (R31, R106, R294). -/
structure RegEffect (i : Instr) (c : Ctx) (f : Nat → Wr) (s t : State) : Prop where
  rest : t = { s.dropRecs (.group c.gk) with groups := t.groups, scalarIssues := t.scalarIssues }
  scalar : t.scalarIssues = s.scalarIssues ∨ t.scalarIssues = SMap.updD s.scalarIssues c.t.core 0 (· + 1)
  others : State.othersPlaced c.gk s t
  own : ∃ h, t.group? c.gk = some h ∧ h = { c.g with lanes := h.lanes, pend := h.pend, rtags := h.rtags } ∧ h.lanes.length = c.g.lanes.length ∧
    ∀ l, l < c.g.lanes.length →
      Lane.after c.g l (if (c.active i s).getLsbD l then f l else Wr.none) (c.pcAfter i l) h

/-- The instruction completes with the register and predicate writes of `f`, and no other effect, wherever it issues. -/
def Writes (i : Instr) (f : State → Ctx → Nat → Wr) : Prop :=
  ∀ s c, Issues i s c → ∃ t, exec i s = .next t ∧ RegEffect i c (f s c) s t

/-- A path has gone from `u` on: the lanes of the path stand at the addresses that `next` gives, lanes find their places among
the paths anew, the windows of earlier results shrink and the results that this makes due are written (R27, R150); a result
that this instruction left pending is pending still, records of other packages that the group had asked for are forgotten, and
nothing else has changed. -/
structure Moved (c : Ctx) (next : Nat → DWord → DWord) (u t : State) : Prop where
  rest : t = { u.dropRecs (.group c.gk) with groups := t.groups }
  others : State.othersPlaced c.gk u t
  own : ∃ g h, u.group? c.gk = some g ∧ t.group? c.gk = some h ∧ h = { g with lanes := h.lanes, pend := h.pend, rtags := h.rtags } ∧
    h.lanes.length = g.lanes.length ∧
    (∀ q ∈ g.pend, c.n0 ≤ q.id → q.lanes ≠ [] → (∀ p ∈ q.lanes, p.due = false) → q ∈ h.pend) ∧
    ∀ l, l < g.lanes.length → Lane.after g l Wr.none
      (if c.path.getLsbD l ∧ (g.lane l).onSome ∧ c.alone = false then next l (g.lane l).pc else (g.lane l).pc) h

/-- The path has gone from `u` on to the instruction that follows `i`. -/
def Advanced (c : Ctx) (i : Instr) (u t : State) : Prop := Moved c (fun _ pc => pc + dwordOf i.len) u t

/-- From `u` on, the lanes of `m` wait at the instruction as `f` says, and the other lanes of the path have gone on; the group's
other lanes, and everything else, are as they were. -/
structure Waits (c : Ctx) (i : Instr) (m : Mask) (f : Nat → Lane → Lane) (u t : State) : Prop where
  rest : t = { u with groups := t.groups }
  others : State.othersPlaced c.gk u t
  own : ∃ g h, u.group? c.gk = some g ∧ t.group? c.gk = some h ∧ h = { g with lanes := h.lanes, pend := h.pend, rtags := h.rtags } ∧
    h.lanes.length = g.lanes.length ∧
    ∀ l, l < g.lanes.length →
      (∀ r, g.clearV l r → h.reg l r = g.reg l r) ∧ (∀ r, g.clearP l r → h.pred l r = g.pred l r) ∧
      (h.lane l).csp = (g.lane l).csp ∧ (h.lane l).helper = (g.lane l).helper ∧ (h.lane l).seen = (if m.getLsbD l then (f l (g.lane l)).seen else (g.lane l).seen) ∧
      (h.lane l).pc = (if c.path.getLsbD l ∧ m.getLsbD l = false ∧ (g.lane l).onSome ∧ c.alone = false
        then (g.lane l).pc + dwordOf i.len else (g.lane l).pc) ∧
      LaneSt.turned (if m.getLsbD l then (f l (g.lane l)).lst else (g.lane l).lst) (h.lane l).lst ∧
      (h.lane l).wait = if m.getLsbD l then (f l (g.lane l)).wait else (g.lane l).wait

/-- Lanes of one group that waited have gone on past the instruction at which each waited; its other lanes, and everything
else, are as they were. -/
structure Passed (gk : Nat) (m : Mask) (u t : State) : Prop where
  rest : t = { u with groups := t.groups }
  others : State.othersPlaced gk u t
  own : ∀ g, u.group? gk = some g → ∃ h, t.group? gk = some h ∧ h = { g with lanes := h.lanes } ∧
    h.lanes.length = g.lanes.length ∧
    ∀ l, l < g.lanes.length →
      (m.getLsbD l = false → Lane.placed (g.lane l) (h.lane l)) ∧
      (m.getLsbD l = true → (h.lane l).pc = (g.lane l).pc + dwordOf (g.lane l).ilen ∧ (h.lane l).wait = .none ∧
        ((h.lane l).lst = .onPath ∨ (h.lane l).lst = .held) ∧ (h.lane l).v = (g.lane l).v ∧ (h.lane l).p = (g.lane l).p ∧
        (h.lane l).seen = (g.lane l).seen ∧ (h.lane l).csp = (g.lane l).csp ∧ (h.lane l).helper = (g.lane l).helper)

/-! Floating-point values as exact numbers. -/

/-- A value: NaN, an infinity, or a sign and an exact magnitude. -/
inductive Ext where
  | nan
  | inf (neg : Bool)
  | fin (neg : Bool) (q : ℚ)

/-- The magnitude that the exponent and fraction fields `k` stand for (R109); codes go on past the largest finite one, as with
an unbounded exponent (R119). -/
def FFmt.mag (f : FFmt) (k : Nat) : ℚ :=
  if k / 2 ^ f.fb = 0 then (k : ℚ) / 2 ^ f.fb * (2 : ℚ) ^ (1 - f.bias)
  else (1 + ((k % 2 ^ f.fb : ℕ) : ℚ) / 2 ^ f.fb) * (2 : ℚ) ^ (((k / 2 ^ f.fb : ℕ) : ℤ) - f.bias)

/-- The value of a pattern (R109, Table 5-1). -/
def FFmt.ext (f : FFmt) (w : Nat) : Ext :=
  let neg := w / f.signBit % 2 == 1
  let k := w % f.signBit
  if f.e4m3 then (if k = 0x7F then .nan else .fin neg (f.mag k))
  else if k / 2 ^ f.fb = 2 ^ f.eb - 1 then (if k % 2 ^ f.fb = 0 then .inf neg else .nan)
  else .fin neg (f.mag k)

/-- On a rising grid of magnitudes, `k` is the member that a rounding mode chooses for an exact magnitude `q` (R118). -/
def nearestOn (g : Nat → ℚ) (rm : RMode) (neg : Bool) (q : ℚ) (k : Nat) : Prop :=
  let below := g k ≤ q ∧ q < g (k + 1)
  let above := q ≤ g k ∧ ∀ j, j < k → g j < q
  match rm with
  | .rne => (∀ j, |q - g k| ≤ |q - g j|) ∧ ∀ j, j ≠ k → |q - g j| = |q - g k| → k % 2 = 0
  | .rtz => below
  | .rpi => if neg then below else above
  | .rni => if neg then above else below

/-- The result above the largest finite magnitude (R118, R119). -/
def FFmt.overflow (f : FFmt) (rm : RMode) (sat inf neg : Bool) : Nat :=
  let s := if neg then f.signBit else 0
  if f.e4m3 then (if inf then 0x7F else s + 0x7E)
  else if sat ∨ rm = .rtz ∨ (rm = .rpi ∧ neg) ∨ (rm = .rni ∧ neg = false) then s + (f.overCode - 1)
  else s + f.overCode

/-- A pattern is an exact value rounded once into a format (R110, R118, R119). -/
def FFmt.roundsTo (f : FFmt) (rm : RMode) (sat inf : Bool) : Ext → Nat → Prop
  | .nan, w => w = f.nanCode
  | .inf neg, w =>
    w = if f.e4m3 then (if inf then 0x7F else (if neg then f.signBit else 0) + 0x7E)
      else (if neg then f.signBit else 0) + (if sat then f.overCode - 1 else f.overCode)
  | .fin neg q, w =>
    ∃ k, nearestOn f.mag rm neg q k ∧
      w = if k < f.overCode then (if neg then f.signBit else 0) + k else f.overflow rm sat inf neg

/-- A pattern is an exact value rounded stochastically into a format with a random word (R128). -/
def FFmt.roundsSr (f : FFmt) (sat inf : Bool) (word : Nat) : Ext → Nat → Prop
  | .fin neg q, w =>
    ∃ k, f.mag k ≤ q ∧ q < f.mag (k + 1) ∧
      let c := if (word : ℤ) < ⌊2 ^ 32 * ((q - f.mag k) / (f.mag (k + 1) - f.mag k))⌋ then k + 1 else k
      w = if c < f.overCode then (if neg then f.signBit else 0) + c else f.overflow .rne sat inf neg
  | x, w => f.roundsTo .rne false inf x w

def Ext.isNan : Ext → Bool
  | .nan => true
  | _ => false

def Ext.isInf (neg : Bool) : Ext → Bool
  | .inf s => s == neg
  | _ => false

/-- A finite value as a number; 0 for the others. -/
def Ext.num : Ext → ℚ
  | .fin neg q => if neg then -q else q
  | _ => 0

/-- The value is −0, where it is finite and zero. -/
def Ext.negative : Ext → Bool
  | .fin neg _ => neg
  | .inf neg => neg
  | .nan => false

def Ext.negate : Ext → Ext
  | .nan => .nan
  | .inf s => .inf (!s)
  | .fin s q => .fin (!s) q

/-- The exact sum of addends: NaN and infinities by R124; a zero sum is −0 only where every addend is −0 (R123). -/
def Ext.sum (xs : List Ext) : Ext :=
  let t := (xs.map Ext.num).sum
  if xs.any Ext.isNan ∨ (xs.any (Ext.isInf true) ∧ xs.any (Ext.isInf false)) then .nan
  else if xs.any (Ext.isInf true) then .inf true
  else if xs.any (Ext.isInf false) then .inf false
  else if t = 0 then .fin (xs.all fun x => x.negative && decide (x.num = 0)) 0
  else .fin (decide (t < 0)) |t|

/-- The exact product; its sign is the XOR of the signs (R185). -/
def Ext.mul : Ext → Ext → Ext
  | .nan, _ => .nan
  | _, .nan => .nan
  | .inf a, .inf b => .inf (a != b)
  | .inf a, .fin b q => if q = 0 then .nan else .inf (a != b)
  | .fin a q, .inf b => if q = 0 then .nan else .inf (a != b)
  | .fin a q, .fin b r => .fin (a != b) (q * r)

/-- .ftz on a pattern (R111): a subnormal becomes zero of its sign. -/
def FFmt.ftz (f : FFmt) (on : Bool) (w : Nat) : Nat :=
  if on = true ∧ w % f.signBit ≠ 0 ∧ w % f.signBit / 2 ^ f.fb = 0 then (if w / f.signBit % 2 = 1 then f.signBit else 0) else w

/-- A result: an exact value rounded once, then flushed where .ftz asks (R185). -/
def FFmt.resultOf (f : FFmt) (rm : RMode) (ftz : Bool) (x : Ext) (w : Nat) : Prop :=
  ∃ v, f.roundsTo rm false false x v ∧ w = f.ftz ftz v

/-- The operand of an instruction with .ftz, as a value. -/
def FFmt.operand (f : FFmt) (ftz : Bool) (w : Nat) : Ext := f.ext (f.ftz ftz w)

end Sys2Proof.Machine
end

