-- ==== Sys2Proof/Certificates/Slice0/Obligations.lean ====
section
/-! DEFINITION. The statements for the provers, and the vocabulary of the manual that they use. -/

namespace Sys2Proof.Claims

open Sys2Proof Sys2Proof.Machine

/-! The arithmetic that the statements use, written from the manual's formulas. -/

/-- A pattern read as a number of a type: signed for .s32 and .s64, unsigned for .z32 and .z64 (R112). -/
def num {n : Nat} (ty : Ty) (w : BitVec n) : Int := if ty = .s32 ∨ ty = .s64 then w.toInt else (w.toNat : Int)

/-- Least number of a type. -/
def least : Ty → Int
  | .s32 => -2147483648
  | .s64 => -9223372036854775808
  | _ => 0

/-- Greatest number of a type. -/
def greatest : Ty → Int
  | .s32 => 2147483647
  | .z32 => 4294967295
  | .s64 => 9223372036854775807
  | _ => 18446744073709551615

/-- The clamp of R160, with .sat, and the wrap without it. -/
def fit (n : Nat) (ty : Ty) (sat : Bool) (x : Int) : BitVec n :=
  BitVec.ofInt n (if sat then max (least ty) (min x (greatest ty)) else x)

/-- The word whose bit `i` is `f i`. -/
def bits (f : Nat → Bool) : Word := Mask.ofPred f

/-- Leading zero bits: the length of the run of zeros that begins at bit 31. -/
def leadingZeros (a : Word) : Nat := ((span 0 32).takeWhile fun i => !a.getLsbD (31 - i)).length

/-- Set bits. -/
def setBits (a : Word) : Nat := ((span 0 32).filter fun i => a.getLsbD i).length

/-- `bfx` (R165). -/
def extracted (ty : Ty) (a : Word) (pos len : Nat) : Word :=
  let p := min pos 32
  let n := min len (32 - p)
  let f := (a >>> p) &&& BitVec.ofNat 32 (2 ^ n - 1)
  if n = 0 then 0
  else if ty = .s32 ∧ f.getLsbD (n - 1) = true then f ||| ~~~BitVec.ofNat 32 (2 ^ n - 1) else f

/-- `bfi` (R165). -/
def inserted (a b c : Word) : Word :=
  let p := min (c.toNat % 256) 32
  let n := min (c.toNat / 256 % 256) (32 - p)
  let m := BitVec.ofNat 32 (2 ^ n - 1) <<< p
  (a &&& ~~~m) ||| ((b <<< p) &&& m)

/-- The order of `icmp` (R167). -/
def ordered : ICc → Int → Int → Bool
  | .eq, a, b => decide (a = b)
  | .ne, a, b => decide (a ≠ b)
  | .lt, a, b => decide (a < b)
  | .le, a, b => decide (a ≤ b)
  | .gt, a, b => decide (b < a)
  | .ge, a, b => decide (b ≤ a)

end Sys2Proof.Claims

open Sys2Proof Sys2Proof.Machine Sys2Proof.Claims

/-! Integer arithmetic and logic. -/

/-- R160: the 32-bit operations, exact and then wrapped or clamped, in each active lane and nowhere else; none of them
faults on overflow. -/
def Sys2Proof.Claims.IntegerOperationsResult : Prop :=
  ∀ (h : Hdr) (ty : Ty) (sat : Bool) (d a b x : Reg) (y : SrcB), ty = .s32 ∨ ty = .z32 →
    Writes (.iadd h ty sat d a y) (fun s c l => .v d (fit 32 ty sat (num ty (c.v s l a) + num ty (c.src s l y)))) ∧
    Writes (.isub h ty sat d a y) (fun s c l => .v d (fit 32 ty sat (num ty (c.v s l a) - num ty (c.src s l y)))) ∧
    Writes (.imul h ty sat d a y) (fun s c l => .v d (fit 32 ty sat (num ty (c.v s l a) * num ty (c.src s l y)))) ∧
    Writes (.imulhi h ty d a y)
      (fun s c l => .v d (BitVec.ofInt 32 (num ty (c.v s l a) * num ty (c.src s l y) / 4294967296))) ∧
    Writes (.imad h ty sat d a b x)
      (fun s c l => .v d (fit 32 ty sat (num ty (c.v s l a) * num ty (c.v s l b) + num ty (c.v s l x)))) ∧
    Writes (.ineg h sat d a) (fun s c l => .v d (fit 32 .s32 sat (-(c.v s l a).toInt))) ∧
    Writes (.iabs h sat d a) (fun s c l => .v d (fit 32 .s32 sat |(c.v s l a).toInt|)) ∧
    Writes (.imin h ty d a y)
      (fun s c l => .v d (if num ty (c.v s l a) ≤ num ty (c.src s l y) then c.v s l a else c.src s l y)) ∧
    Writes (.imax h ty d a y)
      (fun s c l => .v d (if num ty (c.v s l a) ≤ num ty (c.src s l y) then c.src s l y else c.v s l a)) ∧
    Writes (.and h d a y) (fun s c l => .v d (c.v s l a &&& c.src s l y)) ∧
    Writes (.or h d a y) (fun s c l => .v d (c.v s l a ||| c.src s l y)) ∧
    Writes (.xor h d a y) (fun s c l => .v d (c.v s l a ^^^ c.src s l y)) ∧
    Writes (.andn h d a y) (fun s c l => .v d (c.v s l a &&& ~~~c.src s l y)) ∧
    Writes (.not h d a) (fun s c l => .v d (~~~c.v s l a))

/-- R161: the 64-bit forms on register pairs. -/
def Sys2Proof.Claims.PairArithmeticResult : Prop :=
  ∀ (h : Hdr) (ty : Ty) (sat : Bool) (d a b x : Reg), ty = .s64 ∨ ty = .z64 →
    Writes (.iadd64 h ty sat d a b) (fun s c l => .pair d (fit 64 ty sat (num ty (c.pair s l a) + num ty (c.pair s l b)))) ∧
    Writes (.isub64 h ty sat d a b) (fun s c l => .pair d (fit 64 ty sat (num ty (c.pair s l a) - num ty (c.pair s l b)))) ∧
    Writes (.imad64 h ty sat d a b x)
      (fun s c l => .pair d (fit 64 ty sat (num ty (c.v s l a) * num ty (c.v s l b) + num ty (c.pair s l x))))

/-- R162: the 33-bit sum, its low bits in vD and its carry in pC; p0 gives a carry-in of 1 and takes no carry-out (R139). -/
def Sys2Proof.Claims.AddWithCarryResult : Prop :=
  ∀ (h : Hdr) (first : Bool) (d a b x : Reg),
    Writes (.iaddc h first d a b x) (fun s c l =>
      let sum := (c.v s l a).toNat + (c.v s l b).toNat + (if first = false ∧ c.p s l x = true then 1 else 0)
      (Wr.v d (BitVec.ofNat 32 sum)).and (Wr.p x (decide (4294967296 ≤ sum)))) ∧
    ∀ s c, Issues (.iaddc h first d a b 0) s c → ∀ l, c.p s l 0 = true

/-- R163: each bit of the result is the bit of the table that the three source bits name. -/
def Sys2Proof.Claims.ThreeInputLogicResult : Prop :=
  ∀ (h : Hdr) (lut : BitVec 8) (d a b x : Reg),
    Writes (.lop3 h lut d a b x) (fun s c l => .v d (bits fun i =>
      lut.getLsbD (4 * ((c.v s l a).getLsbD i).toNat + 2 * ((c.v s l b).getLsbD i).toNat + ((c.v s l x).getLsbD i).toNat)))

/-- R164: shifts by amounts that may reach or pass the width, and rotates. -/
def Sys2Proof.Claims.ShiftResult : Prop :=
  ∀ (h : Hdr) (d a : Reg) (y : SrcB),
    Writes (.shl h d a y)
      (fun s c l => .v d (if (c.src s l y).toNat < 32 then c.v s l a <<< (c.src s l y).toNat else 0)) ∧
    Writes (.shr h d a y)
      (fun s c l => .v d (if (c.src s l y).toNat < 32 then c.v s l a >>> (c.src s l y).toNat else 0)) ∧
    Writes (.sra h d a y)
      (fun s c l => .v d (if (c.src s l y).toNat < 32 then (c.v s l a).sshiftRight (c.src s l y).toNat
        else if (c.v s l a).getLsbD 31 then 0xFFFFFFFF#32 else 0)) ∧
    Writes (.shl64 h d a y)
      (fun s c l => .pair d (if (c.src s l y).toNat < 64 then c.pair s l a <<< (c.src s l y).toNat else 0)) ∧
    Writes (.shr64 h .z64 d a y)
      (fun s c l => .pair d (if (c.src s l y).toNat < 64 then c.pair s l a >>> (c.src s l y).toNat else 0)) ∧
    Writes (.shr64 h .s64 d a y)
      (fun s c l => .pair d (if (c.src s l y).toNat < 64 then (c.pair s l a).sshiftRight (c.src s l y).toNat
        else if (c.pair s l a).getLsbD 63 then 0xFFFFFFFFFFFFFFFF#64 else 0)) ∧
    Writes (.rotl h d a y) (fun s c l => .v d ((c.v s l a).rotateLeft ((c.src s l y).toNat % 32)))

/-- R165: counts of bits, the reversed word, and bit fields. -/
def Sys2Proof.Claims.BitFieldResult : Prop :=
  ∀ (h : Hdr) (ty : Ty) (d a b x : Reg), ty = .s32 ∨ ty = .z32 →
    Writes (.clz h d a) (fun s c l => .v d (BitVec.ofNat 32 (leadingZeros (c.v s l a)))) ∧
    Writes (.popc h d a) (fun s c l => .v d (BitVec.ofNat 32 (setBits (c.v s l a)))) ∧
    Writes (.brev h d a) (fun s c l => .v d (bits fun i => (c.v s l a).getLsbD (31 - i))) ∧
    Writes (.bfx h ty false d a b x)
      (fun s c l => .v d (extracted ty (c.v s l a) (c.v s l b).toNat (c.v s l x).toNat)) ∧
    Writes (.bfx h ty true d a b x) (fun s c l => .v d (extracted ty (c.v s l a) b.toNat x.toNat)) ∧
    Writes (.bfi h d a b x) (fun s c l => .v d (inserted (c.v s l a) (c.v s l b) (c.v s l x)))

/-- R166: selection, moves and address arithmetic. -/
def Sys2Proof.Claims.MoveResult : Prop :=
  ∀ (h : Hdr) (d a b k : Reg) (y : SrcB) (imm : Word) (imm64 : DWord),
    Writes (.sel h d a b k) (fun s c l => .v d (if c.p s l k = true then c.v s l a else c.v s l b)) ∧
    Writes (.mov h d y) (fun s c l => .v d (c.src s l y)) ∧
    Writes (.lea h .s32 d a b k) (fun s c l => .pair d (c.pair s l a + ((c.v s l b).signExtend 64 <<< k.toNat))) ∧
    Writes (.lea h .z32 d a b k) (fun s c l => .pair d (c.pair s l a + ((c.v s l b).setWidth 64 <<< k.toNat))) ∧
    Writes (.movk h d imm) (fun _ _ _ => .v d imm) ∧
    Writes (.movk64 h d imm64) (fun _ _ _ => ⟨[(d.toNat, imm64.setWidth 32), (d.toNat + 1, (imm64 >>> 32).setWidth 32)], []⟩)

/-- R159: a group 1 form behaves as its group 0 form with operand B replaced by the 32-bit immediate. -/
def Sys2Proof.Claims.ImmediateFormsResult : Prop :=
  ∀ (h : Hdr) (ty : Ty) (sat : Bool) (d a x : Reg) (imm : Word), ty = .s32 ∨ ty = .z32 →
    Writes (.iaddImm h ty sat d a imm) (fun s c l => .v d (fit 32 ty sat (num ty (c.v s l a) + num ty imm))) ∧
    Writes (.isubImm h ty sat d a imm) (fun s c l => .v d (fit 32 ty sat (num ty (c.v s l a) - num ty imm))) ∧
    Writes (.imulImm h ty sat d a imm) (fun s c l => .v d (fit 32 ty sat (num ty (c.v s l a) * num ty imm))) ∧
    Writes (.imadImm h ty sat d a imm x)
      (fun s c l => .v d (fit 32 ty sat (num ty (c.v s l a) * num ty imm + num ty (c.v s l x)))) ∧
    Writes (.iminImm h ty d a imm) (fun s c l => .v d (if num ty (c.v s l a) ≤ num ty imm then c.v s l a else imm)) ∧
    Writes (.imaxImm h ty d a imm) (fun s c l => .v d (if num ty (c.v s l a) ≤ num ty imm then imm else c.v s l a)) ∧
    Writes (.andImm h d a imm) (fun s c l => .v d (c.v s l a &&& imm)) ∧
    Writes (.orImm h d a imm) (fun s c l => .v d (c.v s l a ||| imm)) ∧
    Writes (.xorImm h d a imm) (fun s c l => .v d (c.v s l a ^^^ imm)) ∧
    Writes (.andnImm h d a imm) (fun s c l => .v d (c.v s l a &&& ~~~imm))

/-- R167: integer comparison, on 32-bit operands and on pairs. -/
def Sys2Proof.Claims.IntegerCompareResult : Prop :=
  ∀ (h : Hdr) (cc : ICc) (ty : Ty) (d a b : Reg) (y : SrcB),
    (ty = .s32 ∨ ty = .z32 →
      Writes (.icmp h cc ty d a y) (fun s c l => .p d (ordered cc (num ty (c.v s l a)) (num ty (c.src s l y))))) ∧
    (ty = .s64 ∨ ty = .z64 →
      Writes (.icmp h cc ty d a (.reg b)) (fun s c l => .p d (ordered cc (num ty (c.pair s l a)) (num ty (c.pair s l b)))))

/-- R168, R169: predicate logic, and runs of predicates to and from a register. -/
def Sys2Proof.Claims.PredicateResult : Prop :=
  ∀ (h : Hdr) (na nb : Bool) (d a b n : Reg),
    Writes (.pand h na nb d a b) (fun s c l => .p d (xor (c.p s l a) na && xor (c.p s l b) nb)) ∧
    Writes (.por h na nb d a b) (fun s c l => .p d (xor (c.p s l a) na || xor (c.p s l b) nb)) ∧
    Writes (.pxor h na nb d a b) (fun s c l => .p d (xor (xor (c.p s l a) na) (xor (c.p s l b) nb))) ∧
    Writes (.pnot h na d a) (fun s c l => .p d (!xor (c.p s l a) na)) ∧
    Writes (.pmov h na d a) (fun s c l => .p d (xor (c.p s l a) na)) ∧
    Writes (.pset h d a n) (fun s c l => ⟨[], (span 0 n.toNat).map fun i => (d.toNat + i, (c.v s l a).getLsbD i)⟩) ∧
    Writes (.pget h d a n)
      (fun s c l => .v d (bits fun i => decide (i < n.toNat) && c.g.rp s.fresh l (a.toNat + i)))

namespace Sys2Proof.Claims

open Sys2Proof Sys2Proof.Machine

/-- The contributors: the active real lanes of the issuing path (R177). -/
def contributors (i : Instr) (s : State) (c : Ctx) : Mask := c.active i s &&& c.g.real

/-- Table 7-10: the operation. -/
def opOf (op : RedOp) (ty : Ty) (a b : Word) : Word :=
  match op with
  | .add => a + b
  | .min => if num ty a ≤ num ty b then a else b
  | .max => if num ty a ≤ num ty b then b else a
  | .and => a &&& b
  | .or => a ||| b
  | .xor => a ^^^ b

/-- Table 7-10: its identity. -/
def unitOf (op : RedOp) (ty : Ty) : Word :=
  match op with
  | .min => BitVec.ofInt 32 (greatest ty)
  | .max => BitVec.ofInt 32 (least ty)
  | .and => 0xFFFFFFFF#32
  | _ => 0

/-- The combination of the values of some lanes. -/
def combined (op : RedOp) (ty : Ty) (x : Nat → Word) (ls : List Nat) : Word :=
  ls.foldl (fun w l => opOf op ty w (x l)) (unitOf op ty)

/-- Table 3-1: the space code of a generic address. -/
def spaceOf (x : DWord) : Nat :=
  if x >>> 55 = 0 then 0
  else if x >>> 56 = 0xF0#64 then 1
  else if x >>> 56 = 0xF1#64 then 2
  else if x >>> 56 = 0xF2#64 then 3
  else if x >>> 56 = 0xF3#64 then 4
  else 7

/-- The bits of an address that Table 3-1 marks zero are zero: below its space byte and above the fields of the space. -/
def tidy (x : DWord) : Bool :=
  match spaceOf x with
  | 0 => true
  | 1 => (x &&& 0x00FFFFFF00000000#64) == 0
  | 2 => (x &&& 0x00FFFFFF80000000#64) == 0
  | 3 => (x &&& 0x00FFFFFF80000000#64) == 0
  | 4 => (x &&& 0x00FFFFFFFFFFFC3F#64) == 0
  | _ => false

/-- A scratchpad address of the team's own tag. -/
def ownTag (t : Team) (x : DWord) : Bool := (x >>> 23 &&& 7#64).toNat == t.tagCore && (x >>> 26 &&& 31#64).toNat == t.tagSlot

/-- `spc.gen` (R211): the generic address, or none. -/
def genericOf (t : Team) (sp : SpcSp) (x : DWord) : Option DWord :=
  match sp with
  | .g => if x.toNat < 2 ^ 55 then some x else none
  | .p => some (0xF000000000000000#64 ||| x)
  | .s => if x.toNat < 2 ^ 23 then
      some (BitVec.ofNat 64 (0xF1 * 2 ^ 56 + t.tagSlot * 2 ^ 26 + t.tagCore * 2 ^ 23 + x.toNat)) else none
  | .c => if x.toNat < 2 ^ 31 then some (0xF200000000000000#64 ||| x) else none

/-- `spc.off` (R211): the operand, or none. -/
def operandOf (t : Team) (sp : SpcSp) (x : DWord) : Option DWord :=
  if tidy x = false then none
  else
    match sp with
    | .g => if spaceOf x = 0 then some x else none
    | .p => if spaceOf x = 1 then some (x &&& 0xFFFFFFFF#64) else none
    | .s => if spaceOf x = 2 ∧ ownTag t x then some (x &&& 0x7FFFFF#64) else none
    | .c => if spaceOf x = 3 ∨ (spaceOf x = 2 ∧ ownTag t x) then some (x &&& 0x7FFFFFFF#64) else none

end Sys2Proof.Claims

/-! Exchange, votes, special registers and address helpers. -/

/-- R178: quad and shuffle instructions; the source lane of Table 7-8 supplies its register as R177 says. -/
def Obligations.ExchangeResult : Prop :=
  ∀ (h : Hdr) (d a k : Reg) (y : SrcB),
    Writes (.qswap h .h d a) (fun s c l => .v d (c.exch s (l ^^^ 1) a.toNat)) ∧
    Writes (.qswap h .v d a) (fun s c l => .v d (c.exch s (l ^^^ 2) a.toNat)) ∧
    Writes (.qswap h .d d a) (fun s c l => .v d (c.exch s (l ^^^ 3) a.toNat)) ∧
    Writes (.qbcast h d a k) (fun s c l => .v d (c.exch s (4 * (l / 4) + k.toNat) a.toNat)) ∧
    Writes (.gshfl h .idx d a y) (fun s c l => .v d (c.exch s ((c.src s l y).toNat % 32) a.toNat)) ∧
    Writes (.gshfl h .up d a y) (fun s c l =>
      .v d (c.exch s (if (c.src s l y).toNat ≤ l then l - (c.src s l y).toNat else l) a.toNat)) ∧
    Writes (.gshfl h .down d a y) (fun s c l =>
      .v d (c.exch s (if l + (c.src s l y).toNat ≤ 31 then l + (c.src s l y).toNat else l) a.toNat)) ∧
    Writes (.gshfl h .xor d a y) (fun s c l => .v d (c.exch s (l ^^^ ((c.src s l y).toNat % 32)) a.toNat)) ∧
    (∀ s (c : Ctx) src r, c.view = [] →
      c.exch s src r = if (c.g.lane src).lst = .absent then 0 else c.g.rv s.fresh src r)

/-- R179: votes, matches and elections over the contributors, their results written to every active lane. -/
def Sys2Proof.Claims.VoteResult : Prop :=
  ∀ (h : Hdr) (ty : Ty) (d a : Reg),
    Writes (.gvote h .any d a) (fun s c _ =>
      .p d ((Mask.lanes (contributors (.gvote h .any d a) s c)).any fun l => c.p s l a)) ∧
    Writes (.gvote h .all d a) (fun s c _ =>
      .p d ((Mask.lanes (contributors (.gvote h .all d a) s c)).all fun l => c.p s l a)) ∧
    Writes (.gvote h .ballot d a) (fun s c _ =>
      .v d (bits fun l => (contributors (.gvote h .ballot d a) s c).getLsbD l && c.p s l a)) ∧
    Writes (.gmatch h ty d a) (fun s c l =>
      .v d (bits fun i => (contributors (.gmatch h ty d a) s c).getLsbD i && decide (c.data s i a ty = c.data s l a ty))) ∧
    Writes (.gelect h d) (fun s c l =>
      .p d ((contributors (.gelect h d) s c).getLsbD l && (span 0 l).all fun i => !(contributors (.gelect h d) s c).getLsbD i))

/-- R180: reductions and prefix reductions over the contributors. -/
def Sys2Proof.Claims.ReductionResult : Prop :=
  ∀ (h : Hdr) (op : RedOp) (excl : Bool) (ty : Ty) (d a : Reg), ty = .s32 ∨ ty = .z32 ∨ (ty = .b32 ∧ (op = .and ∨ op = .or ∨ op = .xor)) →
    Writes (.gredux h op ty d a) (fun s c _ =>
      .v d (combined op ty (fun l => c.v s l a) (Mask.lanes (contributors (.gredux h op ty d a) s c)))) ∧
    Writes (.gscan h op excl ty d a) (fun s c l =>
      .v d (combined op ty (fun l => c.v s l a)
        ((Mask.lanes (contributors (.gscan h op excl ty d a) s c)).filter fun i => if excl then decide (i < l) else decide (i ≤ l))))

/-- R140, R277: what `sreg.get` reads under each index of Table 6-5, and `rdtime`; `nop` and its widened form change
no register. -/
def Sys2Proof.Claims.SpecialRegisterRead : Prop :=
  ∀ (h : Hdr) (d : Reg),
    Writes (.sregGet h d 0x00) (fun _ _ l => .v d (wordOf l)) ∧
    Writes (.sregGet h d 0x01) (fun _ _ l => .v d (wordOf (l / 4))) ∧
    Writes (.sregGet h d 0x02) (fun _ c _ => .v d (wordOf (c.gk % 32))) ∧
    Writes (.sregGet h d 0x03) (fun _ c _ => .v d (wordOf c.t.num)) ∧
    Writes (.sregGet h d 0x04) (fun _ c _ => .v d (wordOf (c.t.core % 8))) ∧
    Writes (.sregGet h d 0x05) (fun _ c _ => .v d (wordOf (c.t.core / 8 % 24))) ∧
    Writes (.sregGet h d 0x06) (fun _ c _ => .v d (wordOf (c.t.core / 192))) ∧
    Writes (.sregGet h d 0x07) (fun _ c _ => .v d (wordOf c.l.part)) ∧
    Writes (.sregGet h d 0x08) (fun _ c _ => .v d (if c.l.classH then 1 else 0)) ∧
    Writes (.sregGet h d 0x09) (fun _ c _ => .v d c.g.gang) ∧
    Writes (.sregGet h d 0x0A) (fun _ c l => .pair d (c.g.lane l).csp) ∧
    Writes (.sregGet h d 0x0B) (fun _ c _ => .v d (wordOf c.g.nbv)) ∧
    Writes (.sregGet h d 0x0C) (fun _ c _ => .v d (wordOf c.g.bphase)) ∧
    Writes (.sregGet h d 0x0D) (fun _ c _ => .v d c.g.pev) ∧
    Writes (.sregGet h d 0x0E) (fun _ c _ => .v d (c.g.evm.setWidth 32)) ∧
    Writes (.sregGet h d 0x0F) (fun _ c _ => .v d (wordOf c.g.evhit)) ∧
    Writes (.sregGet h d 0x10) (fun _ c _ => .pair d c.g.fmask) ∧
    Writes (.sregGet h d 0x11) (fun _ c _ => .pair d c.sctx) ∧
    Writes (.sregGet h d 0x12) (fun s _ _ => .pair d (dwordOf s.ptime)) ∧
    Writes (.sregGet h d 0x13) (fun s _ _ => .v d (wordOf s.svc.code)) ∧
    Writes (.sregGet h d 0x14) (fun _ c _ => .v d c.g.regalloc) ∧
    Writes (.sregGet h d 0x15) (fun _ c _ => .v d c.g.gstat) ∧
    Writes (.rdtime h false d) (fun s _ _ => .pair d (dwordOf s.ptime)) ∧
    Writes (.rdtime h true d) (fun s c _ => .pair d (dwordOf (s.cycles (c.t.core / 8)))) ∧
    Writes (.nop h) (fun _ _ _ => Wr.none) ∧
    Writes (.nopWidened h) (fun _ _ _ => Wr.none)

/-- R210, R211: space codes and space casts, computed from the address bits of Table 3-1 without any access. -/
def Obligations.AddressCastResult : Prop :=
  ∀ (h : Hdr) (sp : SpcSp) (d p a : Reg),
    Writes (.spt h d a) (fun s c l => .v d (BitVec.ofNat 32 (spaceOf (c.pair s l a)))) ∧
    Writes (.spc h sp false d p a) (fun s c l =>
      let r := genericOf c.t sp (if sp = .g then c.pair s l a else (c.v s l a).setWidth 64)
      (Wr.pair d (r.getD 0)).and (.p p r.isSome)) ∧
    Writes (.spc h sp true d p a) (fun s c l =>
      let r := operandOf c.t sp (c.pair s l a)
      (if sp = .g then Wr.pair d (r.getD 0) else Wr.v d ((r.getD 0).setWidth 32)).and (.p p r.isSome))

namespace Sys2Proof.Claims

open Sys2Proof Sys2Proof.Machine

/-- The instruction completes wherever it issues: each active lane's vD takes a word that meets `P`, and nothing else changes. -/
def WritesWord (i : Instr) (d : Reg) (P : State → Ctx → Nat → Word → Prop) : Prop :=
  ∃ r : State → Ctx → Nat → Word, Writes i (fun s c l => .v d (r s c l)) ∧ ∀ s c l, P s c l (r s c l)

/-- Element `i` of a packed pair, or of a packed quadruple (R183). -/
def elem16 (w : Word) (i : Nat) : Nat := w.toNat / 65536 ^ i % 65536
def elem8 (w : Word) (i : Nat) : Nat := w.toNat / 256 ^ i % 256

/-- Every packed form, element by element (R183). -/
def eachHalf (P : Nat → Nat → Prop) (w : Word) : Prop := ∀ i, i < 2 → P i (elem16 w i)

/-- a is less than b; false where either is NaN. -/
def extLess : Ext → Ext → Prop
  | .nan, _ => False
  | _, .nan => False
  | .inf a, .inf b => a = true ∧ b = false
  | .inf a, .fin _ _ => a = true
  | .fin _ _, .inf b => b = false
  | a, b => a.num < b.num

/-- a equals b, with −0 equal to +0; false where either is NaN. -/
def extSame : Ext → Ext → Prop
  | .inf a, .inf b => a = b
  | .fin a p, .fin b q => (Ext.fin a p).num = (Ext.fin b q).num
  | _, _ => False

/-- The condition codes of `fcmp` (R188). -/
def fcmpHolds (cc : FCc) (a b : Ext) : Prop :=
  match cc with
  | .eq => extSame a b
  | .ne => ¬extSame a b
  | .lt => extLess a b
  | .le => extLess a b ∨ extSame a b
  | .gt => extLess b a
  | .ge => extLess b a ∨ extSame b a
  | .num => a ≠ .nan ∧ b ≠ .nan
  | .nan => a = .nan ∨ b = .nan

/-- `fmin` and `fmax` (R186): `low` says that a is taken before b. -/
def extremum (a b : Nat) (low : Ext → Ext → Prop) (w : Nat) : Prop :=
  let x := fmtF32.ext a
  let y := fmtF32.ext b
  (x = .nan ∧ y = .nan → w = 0x7FC00000) ∧ (x = .nan ∧ y ≠ .nan → w = b) ∧ (x ≠ .nan ∧ y = .nan → w = a) ∧
  (x ≠ .nan ∧ y ≠ .nan → (low x y → w = a) ∧ (low y x → w = b) ∧ (w = a ∨ w = b))

/-- −0 is less than +0 (R186). -/
def extBelow (a b : Ext) : Prop := extLess a b ∨ (extSame a b ∧ a.negative = true ∧ b.negative = false)

/-- The bit of a class (R189). -/
def classOf (f : FFmt) (w : Nat) (bit : Nat) : Prop :=
  match f.ext w with
  | .nan => bit = 8
  | .inf neg => bit = if neg then 0 else 7
  | .fin neg q =>
    bit = if q = 0 then (if neg then 3 else 4)
      else if q < (2 : ℚ) ^ (1 - f.bias) then (if neg then 2 else 5) else (if neg then 1 else 6)

/-- The format of a type. -/
def formatOf (ty : Ty) : FFmt :=
  match ty with
  | .f16 => ⟨5, 10, 15, false⟩
  | .bf16 => ⟨8, 7, 127, false⟩
  | .e4m3 => ⟨4, 3, 7, true⟩
  | .e5m2 => ⟨5, 2, 15, false⟩
  | _ => ⟨8, 23, 127, false⟩

/-- A narrow operand: the low bits of its register (R183). -/
def lowOf (ty : Ty) (w : Word) : Nat :=
  match ty with
  | .f16 => w.toNat % 65536
  | .bf16 => w.toNat % 65536
  | .e4m3 => w.toNat % 256
  | .e5m2 => w.toNat % 256
  | _ => w.toNat

/-- Types of the float conversions. -/
def floatTy (ty : Ty) : Prop := ty = .f32 ∨ ty = .f16 ∨ ty = .bf16 ∨ ty = .e4m3 ∨ ty = .e5m2

/-- `fcvt` under RM 0 to 3 (R195): `a` is the operand's pattern in format `st`. -/
def converted (dt st : Ty) (rm : RMode) (ftz sat inf : Bool) (a w : Nat) : Prop :=
  let x := (formatOf st).ftz ftz a
  if dt = st then w = if ((formatOf st).ext x).isNan = true then (formatOf dt).nanCode else x
  else ∃ v, (formatOf dt).roundsTo rm sat inf ((formatOf st).ext x) v ∧ w = (formatOf dt).ftz ftz v

/-- `fcvt.sr` (R128, R195). -/
def convertedSr (dt st : Ty) (ftz sat inf : Bool) (a : Nat) (key : Word) (w : Nat) : Prop :=
  let x := (formatOf st).ftz ftz a
  if dt = st then w = if ((formatOf st).ext x).isNan = true then (formatOf dt).nanCode else x
  else ∃ v, (formatOf dt).roundsSr sat inf key.toNat ((formatOf st).ext x) v ∧ w = (formatOf dt).ftz ftz v

/-- Float to integer (R120): NaN gives 0, an infinity the end of the range, a finite value its rounding, clamped. -/
def integerOf (it : Ty) (rm : RMode) (x : Ext) (n : Int) : Prop :=
  match x with
  | .nan => n = 0
  | .inf neg => n = if neg then least it else greatest it
  | .fin neg q => ∃ k : Nat, nearestOn (fun j => (j : ℚ)) rm neg q k ∧
      n = max (least it) (min (if neg then -(k : Int) else k) (greatest it))

/-- A whole number as a value. -/
def wholeOf (n : Int) : Ext := .fin (decide (n < 0)) |(n : ℚ)|

/-- A DS8 weight (R114). -/
def ds8Value (w : Nat) : ℚ :=
  let term := fun (s e : Nat) => if e = 7 then (0 : ℚ) else (if s = 1 then -1 else 1) / 2 ^ e
  term (w / 128 % 2) (w / 16 % 8) + term (w / 8 % 2) (w % 8)

/-- Nonzero terms of an encoding; its zero terms are written with s = 0 (R115). -/
def termsOf (w : Nat) : Nat := (if w / 16 % 8 = 7 then 0 else 1) + (if w % 8 = 7 then 0 else 1)
def zerosPlain (w : Nat) : Prop := (w / 16 % 8 = 7 → w / 128 % 2 = 0) ∧ (w % 8 = 7 → w / 8 % 2 = 0)

/-- The canonical encoding of its value (R115). -/
def canonical (w : Nat) : Prop :=
  w < 256 ∧ zerosPlain w ∧ ∀ v, v < 256 → zerosPlain v → ds8Value v = ds8Value w →
    termsOf w < termsOf v ∨ (termsOf w = termsOf v ∧ w / 16 % 8 ≤ v / 16 % 8)

/-- Conversion into DS8 (R115). -/
def intoDs8 (x : Ext) (scale : Nat) (w : Nat) : Prop :=
  if scale = 255 then w = 0x77
  else
    match x with
    | .nan => w = 0x77
    | .inf neg => w = if neg then 0x88 else 0x00
    | .fin neg q =>
      let v := (Ext.fin neg q).num / 2 ^ ((scale : ℤ) - 127)
      if 2 < |v| then w = if neg then 0x88 else 0x00
      else canonical w ∧ ∀ u, canonical u →
        |ds8Value w - v| < |ds8Value u - v| ∨
        (|ds8Value w - v| = |ds8Value u - v| ∧
          (termsOf w < termsOf u ∨ (termsOf w = termsOf u ∧ |ds8Value w| ≤ |ds8Value u|)))

/-- A DS8 weight times an E8M0 scale (R113, R199). -/
def ds8Scaled (w scale : Nat) : Ext :=
  if scale = 255 then .nan
  else .fin (decide (ds8Value w < 0)) (|ds8Value w| * 2 ^ ((scale : ℤ) - 127))

/-- The exponent of the largest finite value of an element type (R198). -/
def emax (ty : Ty) : ℤ :=
  match ty with
  | .f16 => 15
  | .bf16 => 127
  | .e4m3 => 8
  | .e5m2 => 15
  | _ => 1

/-- The scale byte that a value contributes (R198). -/
def scaleByte (ty : Ty) (x : Ext) (e : Nat) : Prop :=
  match x with
  | .nan => e = 255
  | .inf _ => e = 255
  | .fin _ q =>
    if q = 0 then e = 0
    else ∃ n : ℤ, (2 : ℚ) ^ n ≤ q ∧ q < 2 ^ (n + 1) ∧ (e : ℤ) = max 0 (min (n - emax ty + 127) 254)

end Sys2Proof.Claims

/-! Floating point. -/

/-- R185: scalar FP32 arithmetic, exact and rounded once; NaN, infinities and zero signs by R110, R123 and R124. -/
def Obligations.FloatArithmeticResult : Prop :=
  ∀ (h : Hdr) (rm : RMode) (ftz : Bool) (d a b x : Reg),
    WritesWord (.fadd h rm ftz d a b) d (fun s c l w => fmtF32.resultOf rm ftz
      (Ext.sum [fmtF32.operand ftz (c.v s l a).toNat, fmtF32.operand ftz (c.v s l b).toNat]) w.toNat) ∧
    WritesWord (.fsub h rm ftz d a b) d (fun s c l w => fmtF32.resultOf rm ftz
      (Ext.sum [fmtF32.operand ftz (c.v s l a).toNat, (fmtF32.operand ftz (c.v s l b).toNat).negate]) w.toNat) ∧
    WritesWord (.fmul h rm ftz d a b) d (fun s c l w => fmtF32.resultOf rm ftz
      (Ext.mul (fmtF32.operand ftz (c.v s l a).toNat) (fmtF32.operand ftz (c.v s l b).toNat)) w.toNat) ∧
    WritesWord (.ffma h rm ftz d a b x) d (fun s c l w => fmtF32.resultOf rm ftz
      (Ext.sum [Ext.mul (fmtF32.operand ftz (c.v s l a).toNat) (fmtF32.operand ftz (c.v s l b).toNat),
        fmtF32.operand ftz (c.v s l x).toNat]) w.toNat)

/-- R186, R188, R189, R190: minimum and maximum, comparison, classes and signs. -/
def Sys2Proof.Claims.FloatOrderResult : Prop :=
  ∀ (h : Hdr) (ftz : Bool) (cc : FCc) (ty : Ty) (d a b : Reg), floatTy ty →
    WritesWord (.fmin h ftz d a b) d (fun s c l w =>
      extremum (fmtF32.ftz ftz (c.v s l a).toNat) (fmtF32.ftz ftz (c.v s l b).toNat) extBelow w.toNat) ∧
    WritesWord (.fmax h ftz d a b) d (fun s c l w =>
      extremum (fmtF32.ftz ftz (c.v s l a).toNat) (fmtF32.ftz ftz (c.v s l b).toNat) (fun x y => extBelow y x) w.toNat) ∧
    (∃ r : State → Ctx → Nat → Bool, Writes (.fcmp h cc ftz d a b) (fun s c l => .p d (r s c l)) ∧
      ∀ s c l, r s c l = true ↔
        fcmpHolds cc (fmtF32.operand ftz (c.v s l a).toNat) (fmtF32.operand ftz (c.v s l b).toNat)) ∧
    WritesWord (.fclass h ty d a) d (fun s c l w =>
      ∃ k, classOf (formatOf ty) (lowOf ty (c.v s l a)) k ∧ w = 1#32 <<< k) ∧
    Writes (.fsign h .copy d a b)
      (fun s c l => .v d ((c.v s l a &&& 0x7FFFFFFF#32) ||| (c.v s l b &&& 0x80000000#32))) ∧
    Writes (.fsign h .neg d a b)
      (fun s c l => .v d ((c.v s l a &&& 0x7FFFFFFF#32) ||| (~~~c.v s l b &&& 0x80000000#32))) ∧
    Writes (.fsign h .xor d a b) (fun s c l => .v d (c.v s l a ^^^ (c.v s l b &&& 0x80000000#32)))

/-- R187, R191: rounding to a whole number, and scaling by a power of two. -/
def Sys2Proof.Claims.FloatRoundAndScaleResult : Prop :=
  ∀ (h : Hdr) (rm : RMode) (ftz : Bool) (d a b : Reg),
    WritesWord (.frnd h rm ftz d a) d (fun s c l w =>
      let x := fmtF32.ftz ftz (c.v s l a).toNat
      match fmtF32.ext x with
      | .nan => w = 0x7FC00000#32
      | .inf _ => w.toNat = x
      | .fin neg q => (8388608 ≤ q → w.toNat = x) ∧
          ∃ k : Nat, nearestOn (fun j => (j : ℚ)) rm neg q k ∧ fmtF32.ext w.toNat = .fin neg k) ∧
    WritesWord (.fscale h rm ftz d a b) d (fun s c l w =>
      match fmtF32.operand ftz (c.v s l a).toNat with
      | .fin neg q => fmtF32.resultOf rm ftz (.fin neg (q * 2 ^ (c.v s l b).toInt)) w.toNat
      | x => fmtF32.resultOf rm ftz x w.toNat)

/-- R192: the packed forms, each element as one instruction of R185 in its own format. -/
def Sys2Proof.Claims.PackedArithmeticResult : Prop :=
  ∀ (h : Hdr) (rm : RMode) (ftz : Bool) (d a b x : Reg),
    (∀ i f, (i = Instr.hadd2 h rm ftz d a b ∧ f = formatOf .f16) ∨ (i = Instr.badd2 h rm ftz d a b ∧ f = formatOf .bf16) →
      WritesWord i d (fun s c l => eachHalf fun k => f.resultOf rm ftz
        (Ext.sum [f.operand ftz (elem16 (c.v s l a) k), f.operand ftz (elem16 (c.v s l b) k)]))) ∧
    (∀ i f, (i = Instr.hmul2 h rm ftz d a b ∧ f = formatOf .f16) ∨ (i = Instr.bmul2 h rm ftz d a b ∧ f = formatOf .bf16) →
      WritesWord i d (fun s c l => eachHalf fun k => f.resultOf rm ftz
        (Ext.mul (f.operand ftz (elem16 (c.v s l a) k)) (f.operand ftz (elem16 (c.v s l b) k))))) ∧
    (∀ i f, (i = Instr.hfma2 h rm ftz d a b x ∧ f = formatOf .f16) ∨ (i = Instr.bfma2 h rm ftz d a b x ∧ f = formatOf .bf16) →
      WritesWord i d (fun s c l => eachHalf fun k => f.resultOf rm ftz
        (Ext.sum [Ext.mul (f.operand ftz (elem16 (c.v s l a) k)) (f.operand ftz (elem16 (c.v s l b) k)),
          f.operand ftz (elem16 (c.v s l x) k)])))

/-- R193: sums of exact products with a 32-bit addend. -/
def Sys2Proof.Claims.DotProductResult : Prop :=
  ∀ (h : Hdr) (rm : RMode) (ftz sat : Bool) (d a b x : Reg),
    (∀ i f, (i = Instr.fdot2 h rm ftz d a b x ∧ f = formatOf .f16) ∨ (i = Instr.bdot2 h rm ftz d a b x ∧ f = formatOf .bf16) →
      WritesWord i d (fun s c l w => fmtF32.resultOf rm ftz (Ext.sum
        [Ext.mul (f.operand ftz (elem16 (c.v s l a) 0)) (f.operand ftz (elem16 (c.v s l b) 0)),
         Ext.mul (f.operand ftz (elem16 (c.v s l a) 1)) (f.operand ftz (elem16 (c.v s l b) 1)),
         fmtF32.operand ftz (c.v s l x).toNat]) w.toNat)) ∧
    (∀ ty, ty = .e4m3 ∨ ty = .e5m2 →
      WritesWord (.qdot4 h ty rm ftz sat d a b x) d (fun s c l w =>
        let f := formatOf ty
        fmtF32.resultOf rm ftz (Ext.sum
          [Ext.mul (f.operand ftz (elem8 (c.v s l a) 0)) (f.operand ftz (elem8 (c.v s l b) 0)),
           Ext.mul (f.operand ftz (elem8 (c.v s l a) 1)) (f.operand ftz (elem8 (c.v s l b) 1)),
           Ext.mul (f.operand ftz (elem8 (c.v s l a) 2)) (f.operand ftz (elem8 (c.v s l b) 2)),
           Ext.mul (f.operand ftz (elem8 (c.v s l a) 3)) (f.operand ftz (elem8 (c.v s l b) 3)),
           fmtF32.operand ftz (c.v s l x).toNat]) w.toNat)) ∧
    Writes (.qdot4 h .s8 rm ftz sat d a b x) (fun s c l =>
      let p := fun i => (BitVec.ofNat 8 (elem8 (c.v s l a) i)).toInt * (BitVec.ofNat 8 (elem8 (c.v s l b) i)).toInt
      .v d (fit 32 .s32 sat ((c.v s l x).toInt + (p 0 + p 1 + p 2 + p 3)))) ∧
    Writes (.qdot4 h .z8 rm ftz sat d a b x) (fun s c l =>
      let p := fun i => elem8 (c.v s l a) i * elem8 (c.v s l b) i
      .v d (fit 32 .z32 sat (((c.v s l x).toNat + (p 0 + p 1 + p 2 + p 3) : Nat) : Int)))

/-- R195, R197: conversions between float formats, to nearest, directed or stochastic, and packed conversions. -/
def Sys2Proof.Claims.FloatConversionResult : Prop :=
  ∀ (h : Hdr) (dt st : Ty) (rm : RMode) (ftz sat inf : Bool) (d a b k : Reg), floatTy dt → floatTy st →
    WritesWord (.fcvt h dt st rm ftz sat inf d a) d (fun s c l w =>
      converted dt st rm ftz sat inf (lowOf st (c.v s l a)) w.toNat) ∧
    WritesWord (.fcvtSr h dt st ftz sat inf d a b) d (fun s c l w =>
      convertedSr dt st ftz sat inf (lowOf st (c.v s l a)) (c.v s l b) w.toNat) ∧
    (dt ≠ .f32 → WritesWord (.fpack h dt rm ftz sat inf d a b) d (fun s c l w =>
      ∃ u v, converted dt .f32 rm ftz sat inf (c.v s l a).toNat u ∧ converted dt .f32 rm ftz sat inf (c.v s l b).toNat v ∧
        w = BitVec.ofNat 32 (u + (if dt = .f16 ∨ dt = .bf16 then 65536 else 256) * v))) ∧
    (st ≠ .f32 → ∃ r : State → Ctx → Nat → DWord, Writes (.funpack h st ftz d a k) (fun s c l => .pair d (r s c l)) ∧
      ∀ s c l, Issues (.funpack h st ftz d a k) s c →
        let e := fun i => if st = .f16 ∨ st = .bf16 then elem16 (c.v s l a) i else elem8 (c.v s l a) (2 * k.toNat + i)
        converted .f32 st .rne ftz false false (e 0) ((r s c l).setWidth 32).toNat ∧
        converted .f32 st .rne ftz false false (e 1) ((r s c l) >>> 32).toNat)

/-- R196: conversions between floats and integers. -/
def Sys2Proof.Claims.IntegerConversionResult : Prop :=
  ∀ (h : Hdr) (it ft : Ty) (rm : RMode) (ftz : Bool) (d a : Reg), ft = .f32 ∨ ft = .f16 ∨ ft = .bf16 →
    (it = .s32 ∨ it = .z32 →
      (∃ n : State → Ctx → Nat → Int, Writes (.fcvti h it ft rm ftz d a) (fun s c l => .v d (BitVec.ofInt 32 (n s c l))) ∧
        ∀ s c l, integerOf it rm ((formatOf ft).operand ftz (lowOf ft (c.v s l a))) (n s c l)) ∧
      WritesWord (.icvtf h ft it rm ftz d a) d (fun s c l w =>
        (formatOf ft).resultOf rm ftz (wholeOf (num it (c.v s l a))) w.toNat)) ∧
    (it = .s64 ∨ it = .z64 →
      (∃ n : State → Ctx → Nat → Int, Writes (.fcvti h it ft rm ftz d a) (fun s c l => .pair d (BitVec.ofInt 64 (n s c l))) ∧
        ∀ s c l, integerOf it rm ((formatOf ft).operand ftz (lowOf ft (c.v s l a))) (n s c l)) ∧
      WritesWord (.icvtf h ft it rm ftz d a) d (fun s c l w =>
        (formatOf ft).resultOf rm ftz (wholeOf (num it (c.pair s l a))) w.toNat))

/-- R198, R199: block scales, and conversion into and out of DS8. -/
def Sys2Proof.Claims.BlockScaleResult : Prop :=
  ∀ (h : Hdr) (dt : Ty) (rm : RMode) (ftz : Bool) (d a b k : Reg),
    dt = .f16 ∨ dt = .bf16 ∨ dt = .e4m3 ∨ dt = .e5m2 ∨ dt = .ds8 →
    WritesWord (.fbmax h dt ftz d a b) d (fun s c l w =>
      ∃ e, scaleByte dt (fmtF32.operand ftz (c.v s l a).toNat) e ∧ w.toNat = max (elem8 (c.v s l b) 0) e) ∧
    WritesWord (.ds8enc h ftz d a b) d (fun s c l w =>
      intoDs8 (fmtF32.operand ftz (c.v s l a).toNat) (elem8 (c.v s l b) 0) w.toNat) ∧
    WritesWord (.ds8dec h rm ftz d a b k) d (fun s c l w =>
      fmtF32.resultOf rm ftz (ds8Scaled (elem8 (c.v s l a) k.toNat) (elem8 (c.v s l b) 0)) w.toNat)

/-- R201, R202: each special function starts a long-latency result that one function of the operand gives, whose special
values are those of Table 8-4; the accuracy of the others is not stated here.
The other values are free within their accuracy (log 8), and nothing is stated of them. -/
def Obligations.SpecialFunctionStarts : Prop :=
  let starts := fun (mk : Hdr → Bool → BitVec 4 → Reg → Reg → Instr) (ftz : Bool) (f : Word → Word) =>
    ∀ (h : Hdr) (la : BitVec 4) (d a : Reg) (s : State) (c : Ctx), Issues (mk h ftz la d a) s c →
      ∃ t, exec (mk h ftz la d a) s = .next t ∧
        Advanced c (mk h ftz la d a)
          (c.startPend (mk h ftz la d a)
            ((Mask.lanes (c.active (mk h ftz la d a) s)).map fun l =>
              PLane.of l (if c.alone then 0 else la.toNat) (.v d (f (c.v s l a)))) s) t
  let table := fun (f : Word → Word) (minf mzero pzero pinf : Word) =>
    f 0xFF800000#32 = minf ∧ f 0x80000000#32 = mzero ∧ f 0#32 = pzero ∧ f 0x7F800000#32 = pinf ∧
    ∀ x : Word, fmtF32.ext x.toNat = .nan → f x = 0x7FC00000#32
  ∀ ftz,
    (∃ f, starts .frcp ftz f ∧ table f 0x80000000#32 0xFF800000#32 0x7F800000#32 0#32) ∧
    (∃ f, starts .frsq ftz f ∧ table f 0x7FC00000#32 0xFF800000#32 0x7F800000#32 0#32) ∧
    (∃ f, starts .fsqrt ftz f ∧ table f 0x7FC00000#32 0x80000000#32 0#32 0x7F800000#32) ∧
    (∃ f, starts .fexp2 ftz f ∧ table f 0#32 0x3F800000#32 0x3F800000#32 0x7F800000#32) ∧
    (∃ f, starts .flog2 ftz f ∧ table f 0x7FC00000#32 0xFF800000#32 0xFF800000#32 0x7F800000#32) ∧
    (∃ f, starts .fsin ftz f ∧ table f 0x7FC00000#32 0x80000000#32 0#32 0x7FC00000#32) ∧
    (∃ f, starts .fcos ftz f ∧ table f 0x7FC00000#32 0x3F800000#32 0x3F800000#32 0x7FC00000#32) ∧
    (∃ f, starts .ftanh ftz f ∧ table f 0xBF800000#32 0x80000000#32 0#32 0x3F800000#32) ∧
    (∃ f, starts .fsigm ftz f ∧ table f 0#32 0x3F000000#32 0x3F000000#32 0x3F800000#32)

namespace Sys2Proof.Claims

open Sys2Proof Sys2Proof.Machine

/-- The active lanes of an instruction (R149). -/
def on (i : Instr) (s : State) (c : Ctx) (l : Nat) : Bool := (c.active i s).getLsbD l

/-- A return-address access of 8 bytes at `sp` lies inside private space at its size (R172). -/
def stackSlot (priv : Nat) (sp : DWord) : Prop :=
  sp.toNat / 2 ^ 32 = 0xF0000000 ∧ sp.toNat % 8 = 0 ∧ sp.toNat % 2 ^ 32 + 8 ≤ priv

/-- The 8 bytes at `sp` of a lane's private space are translated to HBM of this package, which the lane may reach as `acc`
says (R57, R344). -/
def slotIn (c : Ctx) (s : State) (l : Nat) (sp : DWord) (acc : Acc) : Prop :=
  ∃ pa tag, pa < hbmBytes ∧ s.stackFails pa = false ∧
    s.translate c.part c.t.core acc (Config.privRegion + 2 ^ 29 * (c.gk % 2 ^ 25) + 128 * (sp.toNat % 2 ^ 32 / 4) + 4 * l) = .mem pa tag

/-- A lane may call: %csp names a private slot with room below it, and the slot lies in memory (R172). -/
def mayPush (c : Ctx) (s : State) (l : Nat) : Prop :=
  8 ≤ (c.g.lane l).csp.toNat % 2 ^ 32 ∧ stackSlot c.l.k.priv ((c.g.lane l).csp - 8) ∧ slotIn c s l ((c.g.lane l).csp - 8) .write

/-- A lane may return: %csp names a private slot, and the slot lies in memory (R172). -/
def mayPop (c : Ctx) (s : State) (l : Nat) : Prop := stackSlot c.l.k.priv (c.g.lane l).csp ∧ slotIn c s l (c.g.lane l).csp .read

/-- A code address (R171). -/
def codeAddr (a : DWord) : Prop := a.toNat < 2 ^ 55 ∧ a.toNat % 4 = 0

/-- The trap of a target that is no code address: its cause, the lanes that name it, and the address (R171). -/
def badTarget (c : Ctx) (m : Mask) (a : DWord) : FInfo :=
  ⟨if 2 ^ 55 ≤ a.toNat then .badWindow else .fetchAlign, (Mask.lowest m).getD 0, m, c.ipc, a, 0, false⟩

/-- Nothing but what the package notes of accesses differs, none of which a program can read: the L1 TLBs, walks and requests to
L2 homes that they start, the lines and moments of use of banks, and the moment of the memory order that each lane has seen (R62, R74, R91,
R346). -/
structure Noted (s v : State) : Prop where
  rest : v = { s with tlb1 := v.tlb1, walks := v.walks, homeReqs := v.homeReqs, banks := v.banks, groups := v.groups }
  banks : ∀ b, v.bank b = { s.bank b with lastUse := (v.bank b).lastUse, lines := (v.bank b).lines }
  groups : ∀ k, (s.group? k = none → v.group? k = none) ∧ ∀ g, s.group? k = some g → ∃ h, v.group? k = some h ∧
    h = { g with lanes := h.lanes } ∧ h.lanes.length = g.lanes.length ∧ ∀ l, h.lane l = { g.lane l with seen := (h.lane l).seen }

/-- Lanes that leave with the lanes of `m`: those, and helper lanes of quads that keep no real lane (R25, R35). -/
def leaving (g : Group) (m : Mask) : Mask :=
  Mask.ofPred fun l => (g.lane l).live && (m.getLsbD l ||
    ((g.lane l).helper && (span (4 * (l / 4)) 4).all fun j => (g.lane j).helper || !(g.lane j).live || m.getLsbD j))

/-- The OR of the masks that some lanes name. -/
def orMasks (f : Nat → Mask) (m : Mask) : Mask := (Mask.lanes m).foldl (fun x l => x ||| f l) 0

end Sys2Proof.Claims

/-! Control flow. -/

/-- R170, R171: a branch moves its active lanes to their targets and the other lanes of its path past it; nothing else
changes. A direct target that is no code address traps at the branch. -/
def Sys2Proof.Claims.BranchResult : Prop :=
  ∀ (h : Hdr) (off : Word) (a : Reg),
    (∀ s c, Issues (.bra h off) s c → (c.active (.bra h off) s ≠ 0 → codeAddr (c.ipc + off.signExtend 64)) →
      ∃ t, exec (.bra h off) s = .next t ∧
        Moved c (fun l pc => if on (.bra h off) s c l then c.ipc + off.signExtend 64 else pc + 12#64) s t) ∧
    (∀ s c, Issues (.bra h off) s c → contributors (.bra h off) s c ≠ 0 → ¬codeAddr (c.ipc + off.signExtend 64) →
      exec (.bra h off) s = .next (s.takeFault c.gk (badTarget c (contributors (.bra h off) s c) (c.ipc + off.signExtend 64)))) ∧
    (∀ s c, Issues (.brx h a) s c → (∀ l, on (.brx h a) s c l = true → codeAddr (c.pair s l a)) →
      ∃ t, exec (.brx h a) s = .next t ∧
        Moved c (fun l pc => if on (.brx h a) s c l then c.pair s l a else pc + 8#64) s t)

/-- R172: calls push the address of the next instruction on each active lane's private stack, and `ret` pops it. -/
def Sys2Proof.Claims.CallAndReturnResult : Prop :=
  ∀ (h : Hdr) (off : Word) (a : Reg),
    (∀ s c, Issues (.call h off) s c → s.stuck = none →
      (∀ l, on (.call h off) s c l = true → codeAddr (c.ipc + off.signExtend 64) ∧ mayPush c s l) →
      ∃ t, exec (.call h off) s = .next t ∧
        Moved c (fun l pc => if on (.call h off) s c l then c.ipc + off.signExtend 64 else pc + 12#64)
          ((Mask.lanes (c.active (.call h off) s)).foldl (c.push s (c.nextPc (.call h off) s)) s) t) ∧
    (∀ s c, Issues (.callx h a) s c → s.stuck = none →
      (∀ l, on (.callx h a) s c l = true → codeAddr (c.pair s l a) ∧ mayPush c s l) →
      ∃ t, exec (.callx h a) s = .next t ∧
        Moved c (fun l pc => if on (.callx h a) s c l then c.pair s l a else pc + 8#64)
          ((Mask.lanes (c.active (.callx h a) s)).foldl (c.push s (c.nextPc (.callx h a) s)) s) t) ∧
    (∀ s c, Issues (.ret h) s c → s.stuck = none →
      (∀ l, on (.ret h) s c l = true → mayPop c s l ∧ codeAddr (c.retAddr s l)) →
      ∃ t, exec (.ret h) s = .next t ∧
        Moved c (fun l pc => if on (.ret h) s c l then c.retAddr s l else pc + 8#64)
          ((Mask.lanes (c.active (.ret h) s)).foldl (c.pop s) s) t)

/-- R172, R57, R146: what a push and a pop do. The return address is that of the instruction that follows in memory, past a fill
word; a push writes its 8 bytes to the lane's slot below %csp, word by word 128 bytes apart, and lowers %csp by 8; a pop reads them
back and raises %csp by 8, and memory stays as it was. -/
def Sys2Proof.Claims.StackSlotResult : Prop :=
  (∀ (c : Ctx) (i : Instr) s,
    let pc := c.ipc + dwordOf i.len
    let fills := pc.toNat % 32 = 28 ∧ s.fetch c.part c.t.core c.l.start pc = .fill
    (fills → c.nextPc i s = pc + 4) ∧ (¬fills → c.nextPc i s = pc)) ∧
  ∀ (c : Ctx) (s u : State) (ra : DWord) (l pa tag : Nat) (g : Group), u.group? c.gk = some g → l < g.lanes.length →
    let at_ := fun (sp : DWord) => Config.privRegion + 2 ^ 29 * (c.gk % 2 ^ 25) + 128 * (sp.toNat % 2 ^ 32 / 4) + 4 * l
    let place := fun i => pa + 128 * (i / 4) + i % 4
    let sp := (c.g.lane l).csp
    s.stackFails pa = false →
    (stackSlot c.l.k.priv (sp - 8) → s.translate c.part c.t.core .write (at_ (sp - 8)) = .mem pa tag →
      (∃ h, (c.push s ra u l).group? c.gk = some h ∧ (h.lane l).csp = sp - 8) ∧
      (∀ i, i < 8 → (c.push s ra u l).readByte tag (place i) = BitVec.ofNat 8 (ra.toNat / 256 ^ i)) ∧
      (∀ a, (∀ i, i < 8 → a ≠ place i) → (c.push s ra u l).readByte tag a = u.readByte tag a)) ∧
    (stackSlot c.l.k.priv sp → s.translate c.part c.t.core .read (at_ sp) = .mem pa tag →
      c.retAddr s l = dwordOf (leNat ((span 0 8).map fun i => s.readByte tag (place i))) ∧
      (∃ h, (c.pop s u l).group? c.gk = some h ∧ (h.lane l).csp = sp + 8) ∧ ∀ k a, (c.pop s u l).readByte k a = u.readByte k a)

/-- R35, R25: where the group has no wait to complete and some lane stays, `exit` takes its active lanes away, with the
helpers of quads that end, and the other lanes of the path go on. -/
def Sys2Proof.Claims.ExitResult : Prop :=
  ∀ (h : Hdr) s c, Issues (.exit h) s c →
    (∀ k, atD c.g.records k none = none) → c.g.gsync = none → (∀ l, (c.g.lane l).live = true → (c.g.lane l).wait = .none) →
    c.g.live &&& ~~~leaving c.g (c.active (.exit h) s) ≠ 0 →
    ∃ t, exec (.exit h) s = .next t ∧
      Waits c (.exit h) (if c.active (.exit h) s = 0 then 0 else leaving c.g (c.active (.exit h) s))
        (fun _ ln => { ln with lst := .exited, wait := .none }) s t

/-- R174, R34, R181, R175: `rejoin.arm` fills a record; `rejoin` and `gsync` make lanes wait, and note what they wait for;
`yield` marks its group. What then completes is the subject of `WaitsComplete`. -/
def Sys2Proof.Claims.ArriveResult : Prop :=
  ∀ (h : Hdr) (all : Bool) (a k : Reg),
    (∀ s c, Issues (.rejoinArm h all a k) s c →
      let act := c.active (.rejoinArm h all a k) s
      let m := (if all then 0xFFFFFFFF#32 else orMasks (fun l => c.v s l a) act) &&& c.g.live
      ∃ u, exec (.rejoinArm h all a k) s = .next (u.settleLate c.gk) ∧
        Advanced c (.rejoinArm h all a k)
          (if act = 0 then s else s.updGroup c.gk fun g => { g with records := setAt g.records k.toNat (some m) }) u) ∧
    (∀ s c, Issues (.rejoin h k) s c →
      let act := c.active (.rejoin h k) s
      let m := match atD c.g.records k.toNat none with | some x => act &&& x | none => 0
      ∃ u, exec (.rejoin h k) s = .next (u.settleLate c.gk) ∧
        Waits c (.rejoin h k) m (fun _ ln => { ln with lst := .waitRejoin k.toNat }) s u) ∧
    (∀ s c, Issues (.gsync h all a) s c →
      let act := c.active (.gsync h all a) s
      let mask := fun l => if all then 0xFFFFFFFF#32 else c.v s l a
      let old := c.g.gsync.getD ⟨0, 0, match Mask.lowest act with | some l => mask l | none => 0⟩
      let new : GSync := ⟨old.r ||| act, old.u ||| orMasks mask act ||| act, old.first⟩
      ∃ u, exec (.gsync h all a) s = .next (u.settleLate c.gk) ∧
        Waits c (.gsync h all a) act (fun _ ln => { ln with lst := .waitSync })
          (if act = 0 then s
           else s.updGroup c.gk fun g =>
            { g with gsync := some new, syncmm := g.syncmm || (Mask.lanes act).any fun l => decide (mask l ≠ old.first) }) u) ∧
    (∀ s c, Issues (.yield h) s c →
      ∃ t, exec (.yield h) s = .next t ∧
        Advanced c (.yield h) (if c.active (.yield h) s = 0 then s else s.updGroup c.gk fun g => { g with yielded := true }) t)

/-- R34, R181: a record whose lanes have all arrived is disarmed and lets them go on, and a `gsync` whose union is covered by
lanes that have arrived or are gone lets the arrived lanes go on; otherwise nothing happens. -/
def Sys2Proof.Claims.WaitsComplete : Prop :=
  ∀ (s : State) (gk : Nat) (g : Group), s.group? gk = some g →
    (∀ (k : Nat) (m : Mask), atD g.records k none = some m → (∀ l, l < 32 → m.getLsbD l = true → (g.lane l).lst = .waitRejoin k) →
      Passed gk (Mask.ofPred fun l => decide ((g.lane l).lst = .waitRejoin k))
        (s.updGroup gk fun g => { g with records := setAt g.records k none }) (s.releaseRecord gk k)) ∧
    (∀ (k : Nat) (m : Mask) (l : Nat), atD g.records k none = some m → l < 32 → m.getLsbD l = true →
      (g.lane l).lst ≠ .waitRejoin k → s.releaseRecord gk k = s) ∧
    (∀ x : GSync, g.gsync = some x → x.u &&& ~~~(x.r ||| ~~~g.live) = 0 →
      Passed gk (x.r &&& g.live) ((s.updGroup gk fun g => { g with gsync := none }).acquire gk (x.r &&& g.live)) (s.releaseSync gk)) ∧
    (∀ x : GSync, g.gsync = some x → x.u &&& ~~~(x.r ||| ~~~g.live) ≠ 0 → s.releaseSync gk = s)

namespace Sys2Proof.Claims

open Sys2Proof Sys2Proof.Machine

/-- A place in this package that can be reached now: memory that the package holds, private space, a tail register, or
scratchpad whose lines are present and whose banks are ON (R206). -/
def near (s : State) (w : Nat) : Target → Prop
  | .mem pa _ => pa < hbmBytes
  | .priv pa _ => pa < hbmBytes
  | .remote .. => False
  | .command _ => False
  | .tail .. => True
  | .sram u off => ∀ x, s.team? u = some x →
      (∀ k ∈ x.linesOf off w, SMap.find s.absentLines k = none) ∧ (∀ b ∈ x.banksOf off w, (s.bank b).pwr = .on)

/-- The memory bytes of a place in order, with their key: one after another in memory, and four in each 128 of private space (R57). -/
def bytesAt (w : Nat) : Target → Option (Nat × List Nat)
  | .mem pa k => some (k, (span 0 w).map fun i => pa + i)
  | .priv pa k => some (k, (span 0 w).map fun i => pa + 128 * (i / 4) + i % 4)
  | _ => none

/-- A load that passes the checks of Table 9-2 (R207), where every way of the cluster's cache is ON: each active lane reads its
place, the value waits to be written to vD as R150 says, a helper lane that fails a check gets zero (R25), and with .last the lines
read are discarded (R100). -/
def LoadsFrom (i : Instr) (sp : Sp) (x : LdArgs) : Prop :=
  ∀ s c, Issues i s c → s.stuck = none →
    let w := x.ty.bytes
    let f := fun l => c.check s l sp (c.addr s l sp x.a x.disp) w .read false false (decide (x.ty = .b64) && !x.inv && !x.last)
    let act := c.active i s
    (∀ l, act.getLsbD l = true → (c.g.lane l).helper = false → ∃ p, f l = .ok p) →
    (∀ l p, act.getLsbD l = true → f l = .ok p → near s w p) → (∀ b ∈ s.cacheBanks c.cl, (s.bank b).pwr = .on) →
    let value := fun l => match f l with | .ok p => (c.readTarget s l x.inv x.last w p).1 | _ => 0
    let lines := dedup ((placesOf act f).flatMap fun q => linesOfTarget w q.2)
    ∃ t v u, exec i s = .next t ∧ Noted s v ∧
      Noted (if x.last then lines.foldl (fun v k => (v.discardLine k.1).dropCopies c.cl k.1) v else v) u ∧
      Advanced c i (c.startPend i ((Mask.lanes act).map fun l => PLane.of l (c.window x.la) (wrOf x.d x.ty (value l))) u) t

/-- A store that passes the checks of Table 9-2 and names no aperture (R208): each active real lane in ascending order writes
the low bytes of its data at its place. In memory, the highest lane's bytes remain, and every other byte reads as before. -/
def StoresTo (i : Instr) (sp : Sp) (x : StArgs) (gsl : BitVec 4) : Prop :=
  ∀ s c, Issues i s c → s.stuck = none →
    let w := x.ty.bytes
    let f := fun l => c.storeChk s sp x gsl l
    let real := c.active i s &&& c.g.real
    (∀ l, real.getLsbD l = true → ∃ p, f l = .ok p ∧ near s w p) →
    ∃ t v, exec i s = .next t ∧ Noted s v ∧
      Advanced c i ((placesOf real f).foldl
        (fun u q => c.writeTarget u q.1 (natBytes w (c.data s q.1 x.d x.ty)) q.2) v) t ∧
      (∀ l p k as, real.getLsbD l = true → f l = .ok p → bytesAt w p = some (k, as) →
        (∀ l' p' k' as', l < l' → real.getLsbD l' = true → f l' = .ok p' → bytesAt w p' = some (k', as') →
          k' = k ∧ ∀ a ∈ as', a ∉ as) →
        ∀ j, j < w → t.readByte k (atD as j 0) = BitVec.ofNat 8 (c.data s l x.d x.ty / 256 ^ j)) ∧
      (∀ tag a, (∀ l p k as, real.getLsbD l = true → f l = .ok p → bytesAt w p = some (k, as) →
          a ∉ as ∧ (k = tag ∨ ∀ b ∈ as, a / 128 ≠ b / 128)) →
        t.readByte tag a = s.readByte tag a)

/-- Table 9-4 on the patterns of a type, for the operations that are not floating-point. -/
def atomNew (o : AOp) (ty : Ty) (old b x : Nat) : Nat :=
  let n := 8 * ty.bytes
  let v := fun (k : Nat) => if ty = .s32 ∨ ty = .s64 then (BitVec.ofNat n k).toInt else ((BitVec.ofNat n k).toNat : Int)
  match o with
  | .op .add => (old + b) % 2 ^ n
  | .op .min => if v b < v old then b else old
  | .op .max => if v old < v b then b else old
  | .op .and => old &&& b
  | .op .or => old ||| b
  | .op .xor => old ^^^ b
  | .op .fadd => atomicNew .fadd ty old b
  | .op .inc => if b ≤ old then 0 else old + 1
  | .exch => b
  | .cas => if old = b then x else old

/-- The bytes at a place of this package as one number. -/
def valueAt (s : State) (w : Nat) : Target → Nat
  | .mem pa tag => leNat (s.readBytes tag pa w)
  | .priv pa tag => leNat ((span 0 w).map fun i => s.readByte tag (pa + 128 * (i / 4) + i % 4))
  | .sram u off =>
    match s.team? u with
    | some x => leNat (s.readScratch x off w)
    | none => 0
  | .tail p q => (s.queue p q).tail
  | _ => 0

/-- One lane's atomic at a place: the state after it, and the old value. A compare that fails writes nothing (R214). -/
def atomic (c : Ctx) (o : AOp) (ty : Ty) (b x : Nat → Nat) (q : State × List (Nat × Nat)) (y : Nat × Target) :
    State × List (Nat × Nat) :=
  let old := valueAt q.1 ty.bytes y.2
  (if o = .cas ∧ old ≠ b y.1 then q.1.noteAccess y.2 ty.bytes
   else c.writeTarget q.1 y.1 (natBytes ty.bytes (atomNew o ty old (b y.1) (x y.1))) y.2,
   q.2 ++ [(y.1, old)])

/-- An atomic with a result that passes the checks (R213, R214): each active lane that is no helper in ascending order, each
one seeing what the lanes before it wrote; the old values, and zero for helpers, wait to be written to vD. -/
def Atomics (i : Instr) (o : AOp) (ty : Ty) (la : BitVec 4) (d a b x : Reg) : Prop :=
  ∀ s c, Issues i s c → s.stuck = none →
    let f := fun l => c.atomChk s ty a l
    let act := c.active i s
    let ours := Mask.ofPred fun l => act.getLsbD l && !(c.g.lane l).helper
    (∀ l, act.getLsbD l = true → (c.g.lane l).helper = false → ∃ p, f l = .ok p ∧ near s ty.bytes p) →
    ∃ t v, exec i s = .next t ∧ Noted s v ∧
      let r := (placesOf ours f).foldl
        (atomic c o ty (fun l => c.data s l b ty) (fun l => if o = .cas then c.data s l x ty else 0)) (v, [])
      Advanced c i (c.startPend i ((Mask.lanes act).map fun l =>
        PLane.of l (c.window la) (wrOf d ty (((r.2.find? fun y => y.1 == l).map (·.2)).getD 0))) (c.markClosing i r.1)) t

end Sys2Proof.Claims

/-! Memory access. -/

/-- R90, R96: bytes written are read back under their key, and every other byte of their lines under that key, and every byte
of other lines, is as it was. -/
def Obligations.MemoryReadsWhatWasWritten : Prop :=
  ∀ (s : State) (tag pa : Nat) (bs : List Byte),
    (s.writeBytes tag pa bs).readBytes tag pa bs.length = bs ∧
    ∀ tag' a, (a < pa ∨ pa + bs.length ≤ a) →
      (tag' = tag ∨ ∀ b, pa ≤ b → b < pa + bs.length → a / 128 ≠ b / 128) →
      (s.writeBytes tag pa bs).readByte tag' a = s.readByte tag' a

/-- R207, R99, R100: every form of load. -/
def Sys2Proof.Claims.LoadResult : Prop :=
  ∀ (h : Hdr) (x : LdArgs),
    LoadsFrom (.ld h x) .gen x ∧ LoadsFrom (.ldG h x) .g x ∧ LoadsFrom (.ldS h x) .s x ∧ LoadsFrom (.ldC h x) .c x ∧
    LoadsFrom (.ldP h x) .p x

/-- R208: every form of store that issues no engine command. -/
def Sys2Proof.Claims.StoreResult : Prop :=
  ∀ (h : Hdr) (x : StArgs) (gsl : BitVec 4),
    StoresTo (.st h x gsl) .gen x gsl ∧ StoresTo (.stG h x) .g x 0 ∧ StoresTo (.stS h x) .s x 0 ∧ StoresTo (.stC h x) .c x 0 ∧
    StoresTo (.stP h x) .p x 0

/-- R213, R214, Table 9-4: every atomic with a result. -/
def Sys2Proof.Claims.AtomicResult : Prop :=
  ∀ (h : Hdr) (ty : Ty) (la : BitVec 4) (d a b x : Reg), ty.bytes = 4 ∨ ty.bytes = 8 →
    Atomics (.atomAdd h ty la d a b) (.op .add) ty la d a b 0 ∧
    Atomics (.atomMin h ty la d a b) (.op .min) ty la d a b 0 ∧
    Atomics (.atomMax h ty la d a b) (.op .max) ty la d a b 0 ∧
    Atomics (.atomAnd h ty la d a b) (.op .and) ty la d a b 0 ∧
    Atomics (.atomOr h ty la d a b) (.op .or) ty la d a b 0 ∧
    Atomics (.atomXor h ty la d a b) (.op .xor) ty la d a b 0 ∧
    Atomics (.atomExch h ty la d a b) .exch ty la d a b 0 ∧
    Atomics (.atomCas h ty la d a b x) .cas ty la d a b x ∧
    Atomics (.atomFadd h ty la d a b) (.op .fadd) ty la d a b 0 ∧
    Atomics (.atomInc h ty la d a b) (.op .inc) ty la d a b 0 ∧
    ∀ old v, old < 2 ^ 32 → v < 2 ^ 32 →
      fmtF32.roundsTo .rne false false (Ext.sum [fmtF32.ext old, fmtF32.ext v]) (atomNew (.op .fadd) .f32 old v 0)

/-- R215: `red` makes the same updates for its active real lanes, at once and without a result. -/
def Sys2Proof.Claims.ReduceResult : Prop :=
  ∀ (h : Hdr) (op : MemOp) (ty : Ty) (a b : Reg) s c, ty.bytes = 4 ∨ ty.bytes = 8 → Issues (.red h op ty a b) s c → s.stuck = none →
    let f := fun l => c.atomChk s ty a l
    let real := c.active (.red h op ty a b) s &&& c.g.real
    (∀ l, real.getLsbD l = true → ∃ p, f l = .ok p ∧ near s ty.bytes p) →
    ∃ t v, exec (.red h op ty a b) s = .next t ∧ Noted s v ∧
      Advanced c (.red h op ty a b) (c.markClosing (.red h op ty a b)
        ((placesOf real f).foldl (atomic c (.op op) ty (fun l => c.data s l b ty) fun _ => 0) (v, [])).1) t

/-- R98, R216: a fence lets its path go on once every earlier access of its active lanes is performed, and with .domain those
to other packages too; until then the path waits. R212: `xlate.pf` makes no access; for addresses of other packages it asks
for a translation. R209: `pref` makes no access either, and changes no register: it may start a walk, a request to an L2 home and the
wake of a cache way, and take a line into one; an address that cannot be prefetched is ignored (log 86).
That a path waits as a whole is the model's choice, log 44. -/
def Obligations.FenceAndWarmResult : Prop :=
  ∀ (h : Hdr) (scope : Scope) (a : Reg) (disp : BitVec 12) s c,
    (Issues (.fence h scope) s c →
      let clear := ∀ l, (c.active (.fence h scope) s).getLsbD l = true →
        (∀ x ∈ s.stores, x.src ≠ .lane c.gk l) ∧ (scope = .domain → ∀ r ∈ s.remotes, r.src ≠ .lane c.gk l) ∧
        ∀ q ∈ c.g.pend, isAccess q.instr = true → ∀ p ∈ q.lanes, p.lane = l → p.landed = true
      (clear → ∃ t, exec (.fence h scope) s = .next t ∧ Advanced c (.fence h scope) s t) ∧
      (¬clear → exec (.fence h scope) s = .next (c.holdLanes c.path (.fence (decide (scope = .domain))) s))) ∧
    (Issues (.xlatePf h a disp) s c → s.stuck = none →
      ∃ t u, exec (.xlatePf h a disp) s = .next t ∧ Advanced c (.xlatePf h a disp) u t ∧
        u = { s with out := u.out, sent := u.sent, ports := u.ports, windows := u.windows, tlb1 := u.tlb1, walks := u.walks } ∧
        ((∀ l pkg d, (c.active (.xlatePf h a disp) s).getLsbD l = true →
          s.translate c.part c.t.core .read (c.pair s l a + disp.signExtend 64).toNat ≠ .remote pkg d) → Noted s u)) ∧
    (∀ lvl, Issues (.pref h lvl a disp) s c →
      ∃ t u, exec (.pref h lvl a disp) s = .next t ∧ Advanced c (.pref h lvl a disp) u t ∧
        u = { s with tlb1 := u.tlb1, walks := u.walks, homeReqs := u.homeReqs, banks := u.banks } ∧
        ∀ k, u.bank k = { s.bank k with lastUse := (u.bank k).lastUse, lines := (u.bank k).lines, waking := (u.bank k).waking })

namespace Sys2Proof.Claims

open Sys2Proof Sys2Proof.Machine

/-- The hash of a corner (R81): the XOR over the dimensions of k(i) · pi(i) mod 2^32. -/
def cornerHash (ks : List Nat) : Nat :=
  ((span 0 ks.length).map fun i =>
    atD ks i 0 * (if i = 0 then 1 else (2 * i + 1) * 0x9E3779B1) % 2 ^ 32).foldl (fun x y => x ^^^ y) 0

/-- The dense index of a corner (R81): the sum of k(i) · (N + 1)^i. -/
def cornerDense (n : Nat) (ks : List Nat) : Nat := sumN ((span 0 ks.length).map fun i => atD ks i 0 * (n + 1) ^ i)

/-- The descriptor of every active lane that is no helper is read and accepted, and the registers that it asks for lie in the
allocation; no lane's descriptor has still to be asked for in another package (R217, R106). -/
def gridOk (c : Ctx) (s : State) (act : Mask) (a b : Reg) (d : Option Reg) (top n : Nat) : Prop :=
  (∀ l pkg da va, act.getLsbD l = true → c.hgUse s l b top ≠ .inl (.ask pkg da va)) ∧
  ∀ l, act.getLsbD l = true → (c.g.lane l).helper = false → ∃ h, c.hgUse s l b top = .inr h ∧ a.toNat + h.d ≤ 32 * c.g.nb ∧ a.toNat + h.d ≤ 256 ∧
    ∀ r, d = some r → r.toNat + h.f * n ≤ 32 * c.g.nb ∧ r.toNat + h.f * n ≤ 256

/-- The features of an entry at an address, as a lane loads them; zero where the read of a helper lane fails (R25, R84). -/
def featuresAt (c : Ctx) (s : State) (h : HgDesc) (l addr : Nat) : List FVal :=
  match c.gridChk s addr (Nat.min (h.f * h.fbytes) 16) .read with
  | .ok (.mem pa tag) => (featsOf h.ffmt h.f (c.loadBytes s l tag pa (h.f * h.fbytes)).1).map (featVal h.ffmt)
  | _ => (span 0 h.f).map fun _ => featVal h.ffmt 0

/-- What `hg.load` gives a lane: for each level the weighted sums of its corners' features (R84, R218); zero in vD for a helper lane
whose descriptor fails or whose registers pass the allocation (R25). -/
def gathered (c : Ctx) (s : State) (a d b : Reg) (l0 n l : Nat) : Wr :=
  match c.hgGet s b (l0 + n) l with
  | none => .v d 0
  | some h =>
    let past := fun (r : Reg) (k : Nat) => 32 * c.g.nb < r.toNat + k ∨ 256 < r.toNat + k
    if past a h.d ∨ past d (h.f * n) then .v d 0
    else
      let ws := (span l0 n).flatMap fun k =>
        let x := atD h.levels k ⟨1, 0, 0, 0⟩
        hgSums h.f ((h.corners x (c.hgCoords s l a h)).map fun y => (y.2, featuresAt c s h l (h.featAddr x y.1)))
      ⟨(span d.toNat ws.length).zip ws, []⟩

/-- One add of an FP32 pattern at a gradient address (R219). -/
def gradAdd (c : Ctx) (s0 : State) (h : HgDesc) (l : Nat) (s : State) (x : Nat × Nat) : State :=
  match c.gridChk s0 (h.gradAddr x.1) 4 .write with
  | .ok (.mem pa tag) =>
    c.writeTarget s l (natBytes 4 (atomicNew .fadd .f32 (leNat (s.readBytes tag pa 4)) x.2)) (.mem pa tag)
  | _ => s

/-- The words that a lane sends (R224). -/
def sentWords (c : Ctx) (s : State) (b : Reg) (width l : Nat) : List Word :=
  (span b.toNat (width / 4)).map fun r => c.g.rv s.fresh l r

/-- Some lanes of `chan.send` fill slots at the tail of their target's instance, in ascending order (R224). -/
def filled (c : Ctx) (k : Nat) (a b : Reg) (s0 s : State) (l : Nat) : State :=
  match s.teams.find? fun x => x.2.launch == c.t.launch && x.2.num == (c.v s0 l a).toNat with
  | some (u, t) =>
    if t.tst = .done then s
    else
      let x := SMap.getD t.chans k ⟨0, 0, [], 0⟩
      let v := s.updTeam u fun t =>
        let x := SMap.getD t.chans k ⟨0, 0, [], 0⟩
        { t with chans := SMap.put t.chans k { x with q := x.q ++ [sentWords c s0 b x.width l] } }
      if u = c.tuid then v.carryOps c.gk (slotEvent k (x.taken + x.q.length)) else v
  | none => s

end Sys2Proof.Claims

/-! The hashed grid, channels and banks. -/

/-- R81: a corner's entry index, dense where the level's entries all fit and hashed where they do not. -/
def Sys2Proof.Claims.GridIndexResult : Prop :=
  ∀ (x : HgLevel) (ks : List Nat),
    x.index ks = if (x.n + 1) ^ ks.length ≤ 2 ^ x.log2t then cornerDense x.n ks else cornerHash ks % 2 ^ x.log2t

/-- R221, R218, R219: `hg.corner` writes a corner's index and weight; `hg.load` starts the gather of the features of its lanes;
`hg.grad` adds its lanes' products at the gradient table, or appends them to the staging segment. -/
def Sys2Proof.Claims.HashedGridResult : Prop :=
  ∀ (h : Hdr) (la : BitVec 4) (d a b x : Reg) (l0 n : BitVec 4) s c, s.stuck = none →
    (Issues (.hgCorner h d a b x l0) s c →
      gridOk c s (c.active (.hgCorner h d a b x l0) s) a b none (l0.toNat + 1) 0 →
      ∃ t, exec (.hgCorner h d a b x l0) s = .next t ∧
        RegEffect (.hgCorner h d a b x l0) c (fun l =>
          match c.hgUse s l b (l0.toNat + 1) with
          | .inr g =>
            let ks := g.corners (atD g.levels l0.toNat ⟨1, 0, 0, 0⟩) (c.hgCoords s l a g)
            let j := (c.v s l x).toNat
            if 32 * c.g.nb < a.toNat + g.d ∨ 256 < a.toNat + g.d then Wr.pair d 0
            else if j < ks.length then ⟨[(d.toNat, wordOf (atD ks j (0, 0)).1), (d.toNat + 1, wordOf (atD ks j (0, 0)).2)], []⟩
            else ⟨[(d.toNat, 0xFFFFFFFF#32), (d.toNat + 1, 0)], []⟩
          | .inl _ => Wr.pair d 0) s t) ∧
    (Issues (.hgLoad h la d a b l0 n) s c →
      let top := l0.toNat + n.toNat + 1
      gridOk c s (c.active (.hgLoad h la d a b l0 n) s) a b (some d) top (n.toNat + 1) →
      (∀ l g addr, (c.active (.hgLoad h la d a b l0 n) s).getLsbD l = true → c.hgUse s l b top = .inr g →
        addr ∈ c.hgAddrs s l a g l0.toNat (n.toNat + 1) →
        let r := c.gridChk s addr (Nat.min (g.f * g.fbytes) 16) .read
        ((c.g.lane l).helper = false → ∃ p, r = .ok p) ∧ ∀ p, r = .ok p → ∃ pa tag, p = .mem pa tag ∧ pa < hbmBytes) →
      (∀ y ∈ s.cacheBanks c.cl, (s.bank y).pwr = .on) →
      ∃ t v, exec (.hgLoad h la d a b l0 n) s = .next t ∧ Noted s v ∧
        Advanced c (.hgLoad h la d a b l0 n)
          (c.startPend (.hgLoad h la d a b l0 n) ((Mask.lanes (c.active (.hgLoad h la d a b l0 n) s)).map fun l =>
            PLane.of l (c.window la) (gathered c s a d b l0.toNat (n.toNat + 1) l)) v) t) ∧
    (Issues (.hgGrad h d a b l0 n) s c →
      let top := l0.toNat + n.toNat + 1
      let hd := c.hgGet s b top
      let real := c.active (.hgGrad h d a b l0 n) s &&& c.g.real
      gridOk c s (c.active (.hgGrad h d a b l0 n) s) a b (some d) top (n.toNat + 1) →
      ((∀ l g, real.getLsbD l = true → hd l = some g → g.detscat = false ∧
          ∀ y ∈ c.hgEmit s a d g l0.toNat (n.toNat + 1) l,
            ∃ pa tag, c.gridChk s (g.gradAddr y.1) 4 .write = .ok (.mem pa tag) ∧ pa < hbmBytes) →
        ∃ t, exec (.hgGrad h d a b l0 n) s = .next t ∧
          let u := (Mask.lanes real).foldl (fun u l =>
            match hd l with
            | some g => (c.hgEmit s a d g l0.toNat (n.toNat + 1) l).foldl (gradAdd c s g l) u
            | none => u) s
          Advanced c (.hgGrad h d a b l0 n) (if real = 0 then u else c.markClosing (.hgGrad h d a b l0 n) u) t) ∧
      (∀ u, (∀ l g, real.getLsbD l = true → hd l = some g → g.detscat = true) →
        s.scratchPark (c.hgStage s a d hd l0.toNat (n.toNat + 1) false (Mask.lanes real)) = .none →
        s.scratchPark (c.hgStage s a d hd l0.toNat (n.toNat + 1) true (Mask.lanes real)) = .none →
        (Mask.lanes real).foldlM (fun u l =>
          match hd l with
          | some g => c.hgAppend u g (c.hgEmit s a d g l0.toNat (n.toNat + 1) l)
          | none => some u) s = some u →
        ∃ t, exec (.hgGrad h d a b l0 n) s = .next t ∧ Advanced c (.hgGrad h d a b l0 n) u t))

/-- R224, R225, R226: where every slot that they ask for is free or filled and the banks are ON, `chan.send` fills slots and
`chan.recv` takes the oldest; otherwise the group is PARKED. `chan.probe` counts. -/
def Sys2Proof.Claims.ChannelInstructionResult : Prop :=
  ∀ (h : Hdr) (k : BitVec 4) (a b d p : Reg) s c (x : ChanInst), SMap.find c.t.chans k.toNat = some x →
    (Issues (.chanProbe h k d) s c →
      ∃ t, exec (.chanProbe h k d) s = .next t ∧
        RegEffect (.chanProbe h k d) c
          (fun _ => .v d (wordOf (x.q.length % 65536 + (x.slots - x.q.length) % 65536 * 65536))) s t) ∧
    (Issues (.chanSend h k a b p) s c → b.toNat + x.width / 4 ≤ 32 * c.g.nb → b.toNat + x.width / 4 ≤ 256 →
      let m := c.active (.chanSend h k a b p) s &&& c.g.real
      let count := fun n => ((Mask.lanes m).filter fun l => (c.v s l a).toNat == n).length
      (∀ l, m.getLsbD l = true → (c.v s l a).toNat < c.l.teams ∧ count (c.v s l a).toNat ≤ x.slots) →
      let ready := ∀ l, m.getLsbD l = true → ∃ u t, c.teamNum s (c.v s l a).toNat = some (u, t) ∧
        (t.tst = .done ∨ (t.inst k.toNat).q.length + count (c.v s l a).toNat ≤ (t.inst k.toNat).slots)
      (ready → c.sendAsleep s k.toNat m a = [] →
        ∃ t, exec (.chanSend h k a b p) s = .next t ∧
          Advanced c (.chanSend h k a b p)
            (if m = 0 then s
             else ((Mask.lanes m).foldl (filled c k.toNat a b s) s).writeLanes c.gk m fun l =>
              Wr.p p (match c.teamNum s (c.v s l a).toNat with | some (_, t) => decide (t.tst ≠ .done) | none => false)) t) ∧
      (¬ready → exec (.chanSend h k a b p) s =
        .next (s.updGroup c.gk fun g => { g with park := .chanSend (.chanSend h k a b p) m }))) ∧
    (Issues (.chanRecv h k d) s c → d.toNat + x.width / 4 ≤ 32 * c.g.nb → d.toNat + x.width / 4 ≤ 256 →
      let m := c.active (.chanRecv h k d) s &&& c.g.real
      Mask.count m ≤ x.slots → m ≠ 0 →
      (Mask.count m ≤ x.q.length → (∀ y ∈ s.instBanks c.tuid k.toNat, (s.bank y).pwr = .on) →
        ∃ t, exec (.chanRecv h k d) s = .next t ∧
          Advanced c (.chanRecv h k d)
            ((((span x.taken (Mask.count m)).foldl (fun v n => v.observeOps c.gk (slotEvent k.toNat n))
                (s.updTeam c.tuid fun t =>
                  { t with chans := SMap.put t.chans k.toNat { x with q := x.q.drop (Mask.count m), taken := x.taken + Mask.count m } })).acquire
              c.gk m).writeLanes c.gk m fun l =>
                let ws := atD x.q ((Mask.lanes m).filter fun j => decide (j < l)).length []
                ⟨(span d.toNat ws.length).zip ws, []⟩) t) ∧
      (x.q.length < Mask.count m → exec (.chanRecv h k d) s =
        .next (s.updGroup c.gk fun g => { g with park := .chanRecv (.chanRecv h k d) m })))

/-- R228, R230: each active real lane in ascending order pushes at the tail of the FIFO bank that it names, or pops at its head,
and gets a status; `sctx.get` reads the stream context. -/
def Obligations.FifoAndContextResult : Prop :=
  ∀ (h : Hdr) (d a b p : Reg) s c,
    (Issues (.fifoPush h d a b p) s c → c.fifoAsleep s (c.active (.fifoPush h d a b p) s &&& c.g.real) a = [] →
      ∃ t, exec (.fifoPush h d a b p) s = .next t ∧
        Advanced c (.fifoPush h d a b p)
          ((Mask.lanes (c.active (.fifoPush h d a b p) s &&& c.g.real)).foldl (c.pushLane d a b p s) s) t) ∧
    (Issues (.fifoPop h d a p) s c → c.fifoAsleep s (c.active (.fifoPop h d a p) s &&& c.g.real) a = [] →
      ∃ t, exec (.fifoPop h d a p) s = .next t ∧
        Advanced c (.fifoPop h d a p)
          ((Mask.lanes (c.active (.fifoPop h d a p) s &&& c.g.real)).foldl (c.popLane d a p s) s) t) ∧
    (∀ (u : State) (l : Nat), let n := (c.v s l a).toNat
      let k := 64 * c.cl + n
      n < 64 → (u.bank k).transit = none → (u.bank k).mode = .fifo → (u.bank k).owner = .team c.tuid →
      ((u.bank k).fifo.length < 32768 →
        c.pushLane d a b p s u l =
          ((u.setBank k { u.bank k with fifo := (u.bank k).fifo ++ [c.v s l b], lastUse := u.now }).carryOps c.gk
            (elemEvent k ((u.bank k).popped + (u.bank k).fifo.length))).writeLanes c.gk (1#32 <<< l)
            fun _ => (Wr.v d 0).and (.p p true)) ∧
      (32768 ≤ (u.bank k).fifo.length →
        c.pushLane d a b p s u l = u.writeLanes c.gk (1#32 <<< l) fun _ => (Wr.v d 1).and (.p p false)) ∧
      (∀ e q, (u.bank k).fifo = e :: q →
        c.popLane d a p s u l =
          (((u.setBank k { u.bank k with fifo := q, popped := (u.bank k).popped + 1, lastUse := u.now }).observeOps c.gk
            (elemEvent k (u.bank k).popped)).acquire c.gk (1#32 <<< l)).writeLanes c.gk (1#32 <<< l)
            fun _ => (Wr.v d e).and (.p p true)) ∧
      ((u.bank k).fifo = [] →
        c.popLane d a p s u l = u.writeLanes c.gk (1#32 <<< l) fun _ => (Wr.v d 1).and (.p p false))) ∧
    Writes (.sctxGet h d) (fun _ c _ =>
      match c.l.stream with
      | none => ⟨[(d.toNat, 0), (d.toNat + 1, 0), (d.toNat + 2, 0), (d.toNat + 3, 0)], []⟩
      | some e =>
        let base := 0xF1 * 2 ^ 56 + c.t.tagSlot * 2 ^ 26 + c.t.tagCore * 2 ^ 23 + c.t.ctxAt * 131072
        ⟨[(d.toNat, wordOf base), (d.toNat + 1, wordOf (base / 2 ^ 32)), (d.toNat + 2, wordOf (131072 * c.t.ctxBanks.length)),
          (d.toNat + 3, wordOf (e % 8192))], []⟩)

/-- R63, R64, R229: `bank.mode` asks for each active lane in ascending order, and waits as a whole where a demand of
R50 must wait for banks; a switch of a POOL bank that Table 3-3 accepts
begins, and its status waits for it; BANK_MODE_COMPLETE gives the bank, cleared, its mode and its owner. -/
def Obligations.BankModeResult : Prop :=
  (∀ (h : Hdr) (la : BitVec 4) (mode d a p : Reg) s c (m : BMode), Issues (.bankMode h la mode d a p) s c →
    modeOf mode.toNat = some m →
    let r := (Mask.lanes (c.active (.bankMode h la mode d a p) s)).foldl (c.modeLane la m d a p s) (some (s, []))
    (∀ u ls, r = some (u, ls) → ∃ t, exec (.bankMode h la mode d a p) s = .next t ∧
      Advanced c (.bankMode h la mode d a p) (c.startPend (.bankMode h la mode d a p) ls u) t) ∧
    (r = none → exec (.bankMode h la mode d a p) s = .next (s.updGroup c.gk fun g => { g with park := .pool c.cl }))) ∧
  (∀ (la : BitVec 4) (d a p : Reg) (s u : State) (c : Ctx) (ps : List PLane) (l : Nat) (m : BMode), let n := (c.v s l a).toNat
    let k := 64 * c.cl + n
    n < 64 → (u.bank k).transit = none → u.bringUp k = false → (u.bank k).mode = .pool → (u.bank k).owner = .none → m ≠ .pool →
    (u.bank k).lines = [] → (m = .scratch → u.ownCount c.tuid < 32) →
    c.modeLane la m d a p s (some (u, ps)) l = some
      (u.setBank k { u.bank k with
        transit := some ⟨m, c.tuid, c.gk, c.n0, l⟩, owner := if m = .cache then .none else .team c.tuid, warm := false, refill := false },
       ps ++ [{ PLane.of l (c.window la) ((Wr.v d 0).and (.p p true)) with tag := some 0 }])) ∧
  (∀ (bank : Nat) s (x : Transit) (t : Team), (s.bank bank).transit = some x → s.team? x.team = some t → t.tst ≠ .done →
    exec (.bankModeComplete bank) s = .next (
      let v := (s.clearBank bank).setBank bank { Bank.reset with
        mode := x.target, owner := if x.target = .scratch ∨ x.target = .fifo then .team x.team else .none
        pwr := if x.target = .pool then .deep else .on, lastUse := s.now }
      (if x.target = .scratch then v.updTeam x.team fun t => { t with banks := t.banks ++ [bank] } else v).landLane x.gk x.pend x.lane))

namespace Sys2Proof.Claims

open Sys2Proof Sys2Proof.Machine

/-- An instruction of a whole group issues with every live lane and a guard of 1 in each (R40). -/
def Whole (i : Instr) (s : State) (c : Ctx) : Prop :=
  Issues i s c ∧ s.stuck = none ∧ c.path = c.g.live ∧ c.active i s = c.path

/-- The number that a decoded value stands for. -/
def exactly : FVal → Ext
  | .nan => .nan
  | .inf s => .inf s
  | .fin s m e => .fin s ((m : ℚ) * (2 : ℚ) ^ e)

/-- The steps of R126 under %nbv 1 and 0: each exact addend is rounded to FP32 and added to the running FP32 value, which is
rounded again. -/
def serially (ftz : Bool) : Nat → List Ext → Nat → Prop
  | t, [], r => r = t
  | t, x :: xs, r =>
    ∃ q u, fmtF32.resultOf .rne ftz x q ∧ fmtF32.resultOf .rne ftz (Ext.sum [fmtF32.ext t, fmtF32.ext q]) u ∧ serially ftz u xs r

/-- The sums of runs of eight products (R126). -/
def runsOf8 (ps : List FVal) : List Ext :=
  (span 0 (ps.length / 8)).map fun g => Ext.sum (((ps.drop (8 * g)).take 8).map exactly)

/-- x · 2^e. -/
def shifted (x : Ext) (e : Int) : Ext :=
  match x with
  | .fin s q => .fin s (q * (2 : ℚ) ^ e)
  | y => y

/-- The value of a tile element that an instruction of the group reads (R240). -/
def elemAt (c : Ctx) (s : State) (ds : DSlots) (a : Reg) (m n : Nat) : Ext := fmtAcc.ext (c.elem s ds a.toNat m n).toNat

/-- An operation of a group has started, with what it has captured; it sets its slot (R239, R240). -/
def started (c : Ctx) (ds : DSlots) (cap : AnvilCap) (s : State) : State :=
  s.startOp c.gk ds.wmask (if ds.sset then some ds.sslot.toNat else none) false (1#32 <<< (c.gk % 32)) false cap []

/-- What an operation captured leaves nothing to read or write as it completes. -/
def settledCap : AnvilCap → Bool
  | .known _ => true
  | .mov .. => true
  | .add .. => true
  | .scale .. => true
  | .drain .. => true
  | _ => false

/-- A tile operation: where no slot that it names is busy it starts, having computed the tile elements that `P` describes, sets its
slot, and the group goes on; where one is, the group is STALLED (R239, R242). -/
def TileOp (i : Instr) (ds : DSlots) (P : Ctx → State → SMap (BitVec 40) → Prop) : Prop :=
  ∀ s c, Whole i s c →
    (s.slotsBusy c.gk ds.wmask = false → ∃ t cap, exec i s = .next t ∧ P c s cap.result ∧ Advanced c i (started c ds cap s) t) ∧
    (s.slotsBusy c.gk ds.wmask = true → exec i s = .next (s.updGroup c.gk fun g => { g with park := .dslots ds.wmask }))

/-- `new` gives exactly the elements of one tile, each as `P` says. -/
def tileIs (tile : Nat) (P : Nat → Nat → BitVec 40 → Prop) (new : SMap (BitVec 40)) : Prop :=
  new.map (·.1) = (span (tile * 256) 256) ∧
    ∀ m n, m < 16 → n < 16 → ∃ w, SMap.find new (tile * 256 + m * 16 + n) = some w ∧ P m n w

end Sys2Proof.Claims

/-! Matrix instructions. -/

/-- R126: one element of an `mma` from its accumulator input and its K products, under each order. -/
def Sys2Proof.Claims.MatrixElementResult : Prop :=
  ∀ (ftz : Bool) (x : FVal) (ps : List FVal),
    fmtAcc.resultOf .rne ftz (Ext.sum (exactly x :: ps.map exactly)) (mmaElem 2 ftz x ps).toNat ∧
    (∃ t r, fmtF32.resultOf .rne ftz (exactly x) t ∧ serially ftz t (runsOf8 ps) r ∧ (mmaElem 1 ftz x ps).toNat = 256 * r) ∧
    (∃ t r, fmtF32.resultOf .rne ftz (exactly x) t ∧ serially ftz t (ps.map exactly) r ∧ (mmaElem 0 ftz x ps).toNat = 256 * r)

/-- R231, R239: an `mma` enters the rendezvous latch with its guard where that agrees in every lane, and its group is PARKED. -/
def Sys2Proof.Claims.MatrixEntersLatch : Prop :=
  ∀ (h : Hdr) (x : MmaArgs) (i : Instr),
    (i = .mmaF16 h x ∨ i = .mmaBf16 h x ∨ i = .mmaE4m3 h x ∨ i = .mmaE5m2 h x ∨ i = .mmaS8 h x ∨ i = .mmaDs8 h x) →
    ∀ s c, Issues i s c → c.path &&& c.g.real ≠ 0 →
      exec i s = .next (s.updGroup c.gk fun g => { g with
        park := .latch
        latch := some ⟨i, c.ipc, if c.active i s = c.path then some true else if c.active i s = 0 then some false else none,
          c.path, s.now⟩ })

/-- R236, R237, R239: a joint operation whose members have all entered the latch traps, wakes the banks of B, starts, or waits, as the
first row of Table 10-4 that holds says. One of a group alone, with its guard 1 and no scaling, starts with every element of its tile
computed from its A fragment, its B bytes and its accumulator input, and lets the group go on. ANVIL_COMPLETION completes an operation
after those that it follows, and ends the waits for its slot. -/
def Sys2Proof.Claims.JointOperationResult : Prop :=
  (∀ (gk tuid op : Nat) (s : State),
    exec (.jointOperationStart gk) s = .next (match s.jointCheck gk with
      | .wait => s | .absent => s | .wake bs => s.startWake bs | .trap cause => s.jointTrap gk cause | .go => s.jointRun gk) ∧
    exec (.anvilCompletion tuid op) s = .next ((s.endOp tuid op).wakeSlots tuid)) ∧
  (∀ (tuid op : Nat) (s : State) (tm : Team) (y : AnvilOp), s.team? tuid = some tm → (tm.anvil.find? fun z => z.id == op) = some y →
    let may := y.done = false ∧ y.tags = [] ∧ ∀ z ∈ tm.anvil, z.id ∈ y.after → z.done = true
    (¬may → s.endOp tuid op = s) ∧
    (may → settledCap y.cap = true →
      s.endOp tuid op = s.updTeam tuid fun t => { t with anvil := replaceOp { y with done := true } t.anvil })) ∧
  ∀ (gk : Nat) (s : State) (g : Group) (tm : Team) (y : Latched) (f : MForm) (x : MmaArgs) (c : Ctx),
    s.group? gk = some g → s.team? (gk / 32) = some tm → g.gang = 0 → g.latch = some y → mmaOf y.instr = some (f, x) →
    y.guard = some true → s.ctxFor gk y.path = some c → s.jointCheck gk = .go → g.areuse = none → x.sc = false →
    let a := fun (m k : Nat) => f.aElem (c.fragment s f x.a) m k
    let bs := s.readScratch tm (c.bBase s x) (512 * f.slots)
    let b := fun (k n : Nat) => leNat ((bs.drop (f.bOff x.tb k n)).take f.bytes)
    let before := s.opsBefore gk x.ds.wmask (!x.zc) (1#32 <<< (gk % 32))
    ∃ t tm' op g', exec (.jointOperationStart gk) s = .next t ∧
      t = { s.dropRecs (.group gk) with groups := t.groups, teams := t.teams, clusters := t.clusters, banks := t.banks } ∧
      t.team? (gk / 32) = some tm' ∧ tm'.anvil.map (·.id) = tm.anvil.map (·.id) ++ [op.id] ∧ tm'.anvil.getLast? = some op ∧ op.done = false ∧ op.mma = true ∧
      op.slot = (if x.ds.sset then some x.ds.sslot.toNat else none) ∧ t.group? gk = some g' ∧ g'.latch = none ∧ g'.park = .none ∧
      ∀ m n, m < 16 → n < 16 →
        let key := x.d.toNat * 256 + m * 16 + n
        SMap.find op.new key = some (mmaElem (if f = .s8 then 2 else g.nbv) x.ftz
          (if x.zc then .fin false 0 0 else accVal (tm.element s.fresh before key))
          ((span 0 f.k).map fun k => f.prod x (a m k) (b k n)))

/-- R243, R244: the elements that `acc.zero`, `acc.mov`, `acc.add`, `acc.scale` and `acc.ld` write. -/
def Sys2Proof.Claims.TileArithmeticResult : Prop :=
  ∀ (h : Hdr) (ds : DSlots) (ty : Ty) (d a b n : Reg),
    TileOp (.accZero h ds d n) ds (fun _ _ new =>
      new.map (·.1) = span (256 * d.toNat) (256 * n.toNat) ∧ ∀ x ∈ new, x.2 = 0) ∧
    TileOp (.accMov h ds d a) ds (fun c s => tileIs d.toNat fun m k w => w = c.elem s ds a.toNat m k) ∧
    TileOp (.accAdd h ds d a b) ds (fun c s => tileIs d.toNat fun m k w =>
      fmtAcc.roundsTo .rne false false (Ext.sum [elemAt c s ds a m k, elemAt c s ds b m k]) w.toNat) ∧
    TileOp (.accScale h ds d a b) ds (fun c s => tileIs d.toNat fun m k w =>
      let at_ := fun l => if (c.g.lane l).lst = .absent then (0 : Int) else (c.v s l b).toInt
      fmtAcc.roundsTo .rne false false (shifted (elemAt c s ds a m k) (at_ m + at_ (16 + k))) w.toNat) ∧
    (ty = .f32 ∨ ty = .f16 ∨ ty = .bf16 →
      TileOp (.accLd h ds ty d a) ds (fun c s => tileIs d.toNat fun m k w =>
        fmtAcc.roundsTo .rne false false ((formatOf ty).ext (c.tileReg s ty a m k)) w.toNat)) ∧
    TileOp (.accLd h ds .s32 d a) ds (fun c s => tileIs d.toNat fun m k w =>
      fmtAcc.roundsTo .rne false false (wholeOf (BitVec.ofNat 32 (c.tileReg s .s32 a m k)).toInt) w.toNat)

/-- R122, R245: a drain without stochastic rounding converts each element of the tile to the destination type under round to
nearest even, and its results wait to be written to the registers of R234. -/
def Sys2Proof.Claims.DrainResult : Prop :=
  (∀ (h : Hdr) (ds : DSlots) (la : BitVec 4) (ty : Ty) (d a b : Reg) s c, Whole (.accDrain h ds la ty false d a b) s c →
    s.slotsBusy c.gk ds.wmask = false →
    ∃ t, exec (.accDrain h ds la ty false d a b) s = .next t ∧
      Advanced c (.accDrain h ds la ty false d a b)
        (c.startPend (.accDrain h ds la ty false d a b)
          ((Mask.lanes c.path).map fun l => PLane.of l (c.window la) (drainWr ty d l fun m n =>
            drainElem ty Tpb.zero false a.toNat m n (c.elem s ds a.toNat m n)))
          (started c ds (.drain c.gk c.n0 ty Tpb.zero false d.toNat a.toNat) s)) t) ∧
  (∀ (h : Hdr) (ds : DSlots) (la : BitVec 4) (ty : Ty) (d a b : Reg) s c x, Whole (.accDrain h ds la ty true d a b) s c →
    s.slotsBusy c.gk ds.wmask = false → c.tpbRead s (c.lead.getD 0) b = .inr x →
    ∃ t, exec (.accDrain h ds la ty true d a b) s = .next t ∧
      Advanced c (.accDrain h ds la ty true d a b)
        (c.startPend (.accDrain h ds la ty true d a b)
          ((Mask.lanes c.path).map fun l => PLane.of l (c.window la) (drainWr ty d l fun m n =>
            drainElem ty x (x.srFor ty && decide (s.svc ≠ .normal)) a.toNat m n (c.elem s ds a.toNat m n)))
          (started c ds (.drain c.gk c.n0 ty x (x.srFor ty && decide (s.svc ≠ .normal)) d.toNat a.toNat)
            (if x.srFor ty = true ∧ s.svc = .normal then s.updGroup c.gk fun g => { g with srbign := true } else s))) t) ∧
  (∀ (ty : Ty) (x : Tpb) (tile m n : Nat) (w : BitVec 40),
    (ty = .f32 ∨ ty = .f16 ∨ ty = .bf16 ∨ ty = .e4m3 ∨ ty = .e5m2 →
      (formatOf ty).roundsTo .rne (x.sat && (decide (ty = .f16) || decide (ty = .e5m2))) (x.inf && decide (ty = .e4m3))
        (fmtAcc.ext w.toNat) (drainElem ty x false tile m n w)) ∧
    ∃ k : Int, integerOf .s32 .rne (fmtAcc.ext w.toNat) k ∧ drainElem .s32 x false tile m n w = (BitVec.ofInt 32 k).toNat)

/-- R247, R241: a spill starts with the elements of its tile and writes their 1,280 bytes, five to an element in row order, as it
completes; a fill starts with the bytes of its image. The image lies in the team's own scratchpad or in memory of this package. That a
spill's granules are written as it completes is the model's choice among what R241 allows, log 20. -/
def Obligations.SpillAndFillResult : Prop :=
  ∀ (h : Hdr) (ds : DSlots) (d a b : Reg) s c,
    (Whole (.accSpill h ds a b) s c → s.slotsBusy c.gk ds.wmask = false →
      let l := c.lead.getD 0
      let spill := fun img => AnvilCap.spill c.gk l c.ipc b.toNat (c.tileIn s ds b.toNat) img false
      (∀ off, c.imageChk s (c.pair s l a) .write = .inr (.scratch off) → s.scratchPark [(c.tuid, off, 1280)] = .none →
        ∃ t, exec (.accSpill h ds a b) s = .next t ∧ Advanced c (.accSpill h ds a b) (started c ds (spill (.scratch off)) s) t) ∧
      (∀ ts, c.imageChk s (c.pair s l a) .write = .inr (.lines ts) → (∀ x ∈ ts, ∃ pa tag, x = .mem pa tag ∧ pa < hbmBytes) →
        ∃ t v, exec (.accSpill h ds a b) s = .next t ∧ Noted s v ∧
          Advanced c (.accSpill h ds a b) (started c ds (spill (.lines ts)) v) t)) ∧
    (Whole (.accFill h ds d a) s c → s.slotsBusy c.gk ds.wmask = false →
      let l := c.lead.getD 0
      (∀ off, c.imageChk s (c.pair s l a) .read = .inr (.scratch off) → s.scratchPark [(c.tuid, off, 1280)] = .none →
        ∃ t, exec (.accFill h ds d a) s = .next t ∧
          Advanced c (.accFill h ds d a)
            (started c ds (.fill d.toNat (s.readScratch c.t off 1280) (.scratch off)) (s.touch c.t off 1280)) t) ∧
      (∀ ts, c.imageChk s (c.pair s l a) .read = .inr (.lines ts) → (∀ x ∈ ts, ∃ pa tag, x = .mem pa tag ∧ pa < hbmBytes) →
        ∃ t v bs, exec (.accFill h ds d a) s = .next t ∧ Noted s v ∧
          (∀ i pa tag k, i < 10 → k < 128 → ts[i]? = some (.mem pa tag) → bs[128 * i + k]? = some (s.readByte tag (pa + k))) ∧
          Advanced c (.accFill h ds d a) (started c ds (.fill d.toNat bs (.lines ts)) v) t)) ∧
    (∀ bs img, (AnvilCap.fill d.toNat bs img).result = (span 0 256).map fun i =>
      (d.toNat * 256 + i, BitVec.ofNat 40 (leNat ((bs.drop (5 * i)).take 5)))) ∧
    (∀ (tuid op : Nat) (tm : Team) (y : AnvilOp) gk l pc tile wa img, s.team? tuid = some tm →
      (tm.anvil.find? fun z => z.id == op) = some y → y.done = false → y.tags = [] →
      (∀ z ∈ tm.anvil, z.id ∈ y.after → z.done = true) → y.cap = .spill gk l pc tile wa img false →
      let image := (span 0 256).flatMap fun i => natBytes 5 (SMap.getD wa (tile * 256 + i) 0).toNat
      let closed := fun (u : State) => u.updTeam tuid fun t =>
        { t with anvil := replaceOp { y with cap := .spill gk l pc tile wa img true, done := true } t.anvil }
      (∀ off, img = .scratch off → s.endOp tuid op = closed ((s.touch tm off 1280).writeScratch tm off image)) ∧
      (∀ ts, img = .lines ts → (∀ x ∈ ts, ∃ pa tag, x = .mem pa tag ∧ pa < hbmBytes) →
        ∃ u, s.endOp tuid op = closed { u with homeReqs := (s.endOp tuid op).homeReqs } ∧
          u = ((span 0 10).zip ts).foldl (fun u x =>
            match x.2 with
            | .mem pa tag => u.writeBytes tag pa ((image.drop (128 * x.1)).take 128)
            | _ => u) s))

/-- R249, R250, R251, R242: a gang forms once all its groups have asked for it, dissolves at `gang.brk`, and slot waits stall
their group while a slot is busy. -/
def Obligations.GangAndSlotResult : Prop :=
  (∀ (h : Hdr) (a : Reg) s c, Whole (.gangForm h a) s c →
    let m := c.v s (c.lead.getD 0) a
    2 ≤ Mask.count m → Mask.count m ≤ c.l.k.gang → m.getLsbD (c.gk % 32) = true → c.g.gang = 0 →
    (∀ i, m.getLsbD i = true → i < c.t.groups ∧ ∃ g, s.group? (c.tuid * 32 + i) = some g ∧ g.ended = false) →
    s.formClash c.tuid m = [] →
    exec (.gangForm h a) s = .next ((s.updGroup c.gk fun g => { g with park := .gangForm m (.gangForm h a) }).tryForm c.tuid m)) ∧
  (∀ (s : State) (tuid : Nat) (m : Mask), s.formReady tuid m = true →
    ∀ i, i < 32 → m.getLsbD i = true →
      ∃ g, (s.tryForm tuid m).group? (tuid * 32 + i) = some g ∧ g.gang = m ∧ g.park = .none ∧ g.areuse = none) ∧
  (∀ (s : State) (tuid : Nat) (m : Mask), s.formReady tuid m = false → s.tryForm tuid m = s) ∧
  (∀ (h : Hdr) s c, Whole (.gangBrk h) s c →
    (c.g.gang = 0 → ∃ t, exec (.gangBrk h) s = .next t ∧ Advanced c (.gangBrk h) s t) ∧
    (c.g.gang ≠ 0 → s.slotsBusy c.gk 255 = true →
      exec (.gangBrk h) s = .next (s.updGroup c.gk fun g => { g with park := .dslots 255 })) ∧
    (c.g.gang ≠ 0 → s.slotsBusy c.gk 255 = false →
      (∀ i g, i < 32 → c.g.gang.getLsbD i = true → s.group? (c.tuid * 32 + i) = some g → g.latch = none) →
      ∃ t, exec (.gangBrk h) s = .next t ∧
        Advanced c (.gangBrk h)
          (((Mask.lanes c.g.gang).foldl (fun u i => u.updGroup (c.tuid * 32 + i) fun g => { g with gang := 0, areuse := none }) s).updTeam
            c.tuid fun t => { t with gangs := t.gangs.filter fun x => decide (x.members ≠ c.g.gang) }) t)) ∧
  (∀ (h : Hdr) (w : BitVec 8) s c, Issues (.dslotWait h w) s c →
    (c.active (.dslotWait h w) s = 0 → ∃ t, exec (.dslotWait h w) s = .next t ∧ Advanced c (.dslotWait h w) s t) ∧
    (c.active (.dslotWait h w) s ≠ 0 → s.slotsBusy c.gk w = true →
      exec (.dslotWait h w) s = .next (s.updGroup c.gk fun g => { g with park := .dslots w })) ∧
    (c.active (.dslotWait h w) s ≠ 0 → s.slotsBusy c.gk w = false →
      ∃ t u, exec (.dslotWait h w) s = .next t ∧ Advanced c (.dslotWait h w) u t ∧
        u = { s with teams := u.teams } ∧ ∀ j, j ≠ c.tuid → u.team? j = s.team? j))

namespace Sys2Proof.Claims

open Sys2Proof Sys2Proof.Machine

/-- The token that an arrival answers (R253): the open phase, or the next one for a lane already recorded in it. -/
def tokenOf (b : Barrier) (gk l : Nat) : Word := BitVec.ofNat 32 (if (SMap.getD b.cur gk 0#32).getLsbD l then b.phase + 1 else b.phase)

/-- Lanes of a group recorded in the phases that they arrive in. -/
def recorded (b : Barrier) (gk : Nat) (m : Mask) : Barrier :=
  let cur := SMap.getD b.cur gk 0#32
  { b with
    cur := SMap.put b.cur gk (cur ||| m)
    nxt := if m &&& cur = 0 then b.nxt else SMap.put b.nxt gk (SMap.getD b.nxt gk 0#32 ||| (m &&& cur)) }

/-- The state once the active lanes have arrived. -/
def arrivedAt (c : Ctx) (lvl : BarLevel) (k : Nat) (act : Mask) (s : State) : State :=
  let b := s.bar lvl c.tuid k
  let v := (Mask.lanes act).foldl (fun v l => v.carryOps c.gk (barEvent lvl k (tokenOf b c.gk l))) s
  if act = 0 then v else v.setBar lvl c.tuid k (recorded b c.gk act)

/-- The phase of a token has completed (R255): (c - tok) mod 2^32 lies in 1 to 2^31. -/
def passedPhase (phase : Nat) (tok : Word) : Prop :=
  1 ≤ (BitVec.ofNat 32 phase - tok).toNat ∧ (BitVec.ofNat 32 phase - tok).toNat ≤ 2 ^ 31

/-- The three forms of a barrier instruction (R253, R255). -/
def BarrierOp (i : Instr) (lvl : BarLevel) (mode : BarMode) (k : Nat) (d a : Reg) : Prop :=
  ∀ s c, Issues i s c → (lvl = .team ∨ c.l.k.spanbar = true) →
    let b := s.bar lvl c.tuid k
    let act := c.active i s
    (mode ≠ .wait → SMap.getD b.nxt c.gk 0#32 &&& act ≠ 0 →
      exec i s = .next (c.holdLanes c.path (.retry lvl k b.phase) s)) ∧
    (mode = .arrive → SMap.getD b.nxt c.gk 0#32 &&& act = 0 →
      ∃ t, exec i s = .next t ∧
        Advanced c i ((arrivedAt c lvl k act s).writeLanes c.gk act fun l => .v d (tokenOf b c.gk l)) t) ∧
    (mode = .sync → act = 0 → ∃ t, exec i s = .next t ∧ Advanced c i s t) ∧
    (mode = .sync → SMap.getD b.nxt c.gk 0#32 &&& act = 0 → act ≠ 0 →
      ∃ t, exec i s = .next t ∧
        Waits c i act (fun l ln => { ln with wait := .bar lvl k (tokenOf b c.gk l) }) (arrivedAt c lvl k act s) t) ∧
    (mode = .wait → (∀ l, act.getLsbD l = true → passedPhase b.phase (c.v s l a)) →
      ∃ t, exec i s = .next t ∧
        Advanced c i (((Mask.lanes act).foldl (fun v l => v.observeOps c.gk (barEvent lvl k (c.v s l a))) s).acquire c.gk act) t) ∧
    (mode = .wait → (∃ l, act.getLsbD l = true ∧ ¬passedPhase b.phase (c.v s l a)) →
      ∃ t, exec i s = .next t ∧ Waits c i act (fun l ln => { ln with wait := .bar lvl k (c.v s l a) }) s t)

end Sys2Proof.Claims

/-! Barriers, events, mailboxes, timelines, guard slots. -/

/-- R253, R255: the barrier instructions of the three levels. -/
def Sys2Proof.Claims.BarrierLevelsResult : Prop :=
  ∀ (h : Hdr) (mode : BarMode) (d a b : Reg),
    BarrierOp (.barArrive h d b) .team .arrive b.toNat d 0 ∧
    BarrierOp (.barWait h a b) .team .wait b.toNat 0 a ∧
    BarrierOp (.barSync h b) .team .sync b.toNat 0 0 ∧
    BarrierOp (.barDie h mode d a b) .die mode b.toNat d a ∧
    BarrierOp (.barPkg h mode d a b) .pkg mode b.toNat d a

/-- R255: a die or package barrier of a kernel without the span-barrier flag raises BAR_SCOPE in its active real lanes; where no
lane is active it has no effect. -/
def Sys2Proof.Claims.SpanBarrierTraps : Prop :=
  ∀ (h : Hdr) (mode : BarMode) (d a b : Reg) (i : Instr), (i = .barDie h mode d a b ∨ i = .barPkg h mode d a b) →
    ∀ s c, Issues i s c → c.l.k.spanbar = false → c.active i s &&& c.g.real ≠ 0 →
      exec i s = .next (s.takeFault c.gk
        ⟨.barScope, (Mask.lowest (c.active i s &&& c.g.real)).getD 0, c.active i s &&& c.g.real, c.ipc, 0, 0, false⟩)

/-- R262: serving an event entry sends every live lane to its handler, makes the entry SPENT, and notes the entry and the
return address; nothing else of the group changes but its park. -/
def Sys2Proof.Claims.EventServiceResult : Prop :=
  ∀ (g : Group) (i len now ready : Nat),
    let h := g.serve i len now ready
    let e := atD g.evs i EvEntry.reset
    h = { g with lanes := h.lanes, evs := h.evs, evhit := i, park := .none
                 retAddr := some ((g.lane ((Mask.lowest g.live).getD 0)).pc + BitVec.ofNat 64 len) } ∧
    h.lanes.length = g.lanes.length ∧
    (i < g.evs.length → atD h.evs i EvEntry.reset = { e with est := .spent }) ∧
    (∀ j, j ≠ i → atD h.evs j EvEntry.reset = atD g.evs j EvEntry.reset) ∧
    ∀ l, l < g.lanes.length →
      h.lane l = if (g.lane l).live then
          { g.lane l with pc := e.handler, age := min (g.lane l).age now, readyAt := ready }
        else g.lane l

/-- R260, R261, R262: arming, masking and clearing event entries, and `wany`. -/
def Sys2Proof.Claims.EventInstructionResult : Prop :=
  ∀ (h : Hdr) (op : MaskOp) (a m : Reg) (m8 : BitVec 8),
    (∀ s c es, Whole (.evArm h a m) s c →
      c.evRead s (c.pair s (c.lead.getD 0) a).toNat = .inr es → es.any c.evRegBad = false →
      ∃ t, exec (.evArm h a m) s = .next t ∧
        Advanced c (.evArm h a m)
          (s.updGroup c.gk fun g => c.evArmGroup s (c.pair s (c.lead.getD 0) a) m.toNat es g) t) ∧
    (∀ s c, Issues (.evMask h op m8) s c →
      ∃ t, exec (.evMask h op m8) s = .next t ∧
        Advanced c (.evMask h op m8) (if c.active (.evMask h op m8) s = 0 then s else s.updGroup c.gk fun g => { g with
          evm := match op with | .wr => m8 | .set => g.evm ||| m8 | .clr => g.evm &&& ~~~m8 }) t) ∧
    (∀ s c, Issues (.evClear h m) s c →
      ∃ t, exec (.evClear h m) s = .next t ∧
        Advanced c (.evClear h m) (if c.active (.evClear h m) s = 0 then s else s.updGroup c.gk fun g => { g with
          evs := (span 0 8).map fun j =>
            let e := atD (s.latched c.gk g) j EvEntry.reset
            if m.toNat / 2 ^ j % 2 = 0 then e
            else { e with est := match e.est with | .latched => .spent | .armed => .disarmed | y => y } }) t) ∧
    (∀ s c g, Whole (.wany h a) s c →
      let ra := c.pair s (c.lead.getD 0) a
      ((c.g.armed = some ra ∧ g = { c.g with evs := s.latched c.gk c.g }) ∨
        (c.g.armed ≠ some ra ∧ ∃ es, c.evRead s ra.toNat = .inr es ∧ es.any c.evRegBad = false ∧ g = c.evArmGroup s ra 255 es c.g)) →
      (∀ e, g.firstEvent = some e → ∃ t g', exec (.wany h a) s = .next t ∧
        t = { s.dropRecs (.group c.gk) with groups := t.groups, teams := t.teams } ∧
        t.group? c.gk = some g' ∧ g'.evhit = e ∧ g'.retAddr = (g.serve e 8 s.now 0).retAddr ∧ g'.evs = (g.serve e 8 s.now 0).evs ∧
        ∀ l, l < c.g.lanes.length → (g'.lane l).pc = ((g.serve e 8 s.now 0).lane l).pc) ∧
      (g.firstEvent = none → (∃ j, j < 8 ∧ (atD g.evs j EvEntry.reset).est = .armed ∧ g.evm.getLsbD j = false) →
        exec (.wany h a) s = .next ((s.dropRecs (.group c.gk)).updGroup c.gk fun _ => { g with park := .wany (.wany h a) })) ∧
      (g.firstEvent = none → (∀ j, j < 8 → (atD g.evs j EvEntry.reset).est = .armed → g.evm.getLsbD j = true) →
        exec (.wany h a) s = .next (c.trap .wanyEmpty (c.path &&& c.g.real) (s.dropRecs (.group c.gk)))))

/-- R263: a post reaches an empty slot of the group that its lane names, or fails; a read takes the message of a slot once. -/
def Obligations.MailboxResult : Prop :=
  ∀ (h : Hdr) (slot : BitVec 2) (d a b p : Reg) s c,
    (Issues (.mboxPost h slot d a b) s c →
      let real := c.active (.mboxPost h slot d a b) s &&& c.g.real
      (∀ l, real.getLsbD l = true → (c.v s l a).toNat / 32 < c.l.teams ∧ (c.v s l a).toNat % 32 < c.l.groupsPer) →
      ∃ t, exec (.mboxPost h slot d a b) s = .next t ∧
        Advanced c (.mboxPost h slot d a b) ((Mask.lanes real).foldl (c.postLane slot.toNat d a b s) s) t) ∧
    (∀ (u : State) (l k : Nat) (tm : Team) (g : Group),
      c.teamNum u ((c.v s l a).toNat / 32) = some (k, tm) → u.group? (k * 32 + (c.v s l a).toNat % 32) = some g →
      ((tm.tst = .done ∨ atD g.mbox slot.toNat none ≠ none) →
        c.postLane slot.toNat d a b s u l = u.writeLanes c.gk (1#32 <<< l) fun _ => .p d false) ∧
      (tm.tst ≠ .done → atD g.mbox slot.toNat none = none →
        let gk := k * 32 + (c.v s l a).toNat % 32
        let v := u.updGroup gk fun g => { g with mbox := setAt g.mbox slot.toNat (some (c.v s l b)) }
        let v := if k = c.tuid then v.carryOps c.gk (mboxEvent gk slot.toNat) else v
        c.postLane slot.toNat d a b s u l = (v.testEvents gk).writeLanes c.gk (1#32 <<< l) fun _ => .p d true)) ∧
    (Issues (.mboxRead h slot d p) s c →
      ∃ (t u : State), exec (.mboxRead h slot d p) s = .next t ∧
        (c.active (.mboxRead h slot d p) s = 0 → u = s) ∧
        (c.active (.mboxRead h slot d p) s ≠ 0 →
          let v := s.updGroup c.gk fun g => { g with mbox := setAt g.mbox slot.toNat none }
          u = { (if atD c.g.mbox slot.toNat none = none then v else v.acquire c.gk (c.active (.mboxRead h slot d p) s)) with
            teams := u.teams }) ∧
        Advanced c (.mboxRead h slot d p)
          (u.writeLanes c.gk (c.active (.mboxRead h slot d p) s) fun _ =>
            (Wr.v d ((atD c.g.mbox slot.toNat none).getD 0)).and (.p p (atD c.g.mbox slot.toNat none).isSome)) t)

/-- R264, R93: waiting for, reading and testing a timeline, each of which acquires what it observes. -/
def Sys2Proof.Claims.TimelineResult : Prop :=
  ∀ (h : Hdr) (err : Bool) (d a b p : Reg),
    (∀ s c, Issues (.tlWait h a b) s c →
      let v := (s.chan (c.chanKey b.toNat)).value
      ((∀ l, (c.active (.tlWait h a b) s).getLsbD l = true → (c.pair s l a).toNat ≤ v) →
        ∃ t, exec (.tlWait h a b) s = .next t ∧
          Advanced c (.tlWait h a b) (s.acquire c.gk (c.active (.tlWait h a b) s)) t) ∧
      ((∃ l, (c.active (.tlWait h a b) s).getLsbD l = true ∧ v < (c.pair s l a).toNat) →
        ∃ t, exec (.tlWait h a b) s = .next t ∧
          Waits c (.tlWait h a b) (c.active (.tlWait h a b) s) (fun l ln => { ln with wait := .tl b.toNat (c.pair s l a) }) s t)) ∧
    (∀ s c, Issues (.tlRead h err d b) s c →
      let x := s.chan (c.chanKey b.toNat)
      let act := c.active (.tlRead h err d b) s
      ∃ t, exec (.tlRead h err d b) s = .next t ∧
        Advanced c (.tlRead h err d b)
          ((s.acquire c.gk act).writeLanes c.gk act fun _ => .pair d (dwordOf (if err then x.errNum else x.value))) t) ∧
    (∀ s c, Issues (.tlTry h d a b p) s c →
      let v := (s.chan (c.chanKey b.toNat)).value
      let act := c.active (.tlTry h d a b p) s
      ∃ t, exec (.tlTry h d a b p) s = .next t ∧
        Advanced c (.tlTry h d a b p)
          ((s.acquire c.gk (Mask.ofPred fun l => act.getLsbD l && decide ((c.pair s l a).toNat ≤ v))).writeLanes c.gk act fun l =>
            if (c.pair s l a).toNat ≤ v then (Wr.pair d (dwordOf v)).and (.p p true) else .p p false) t)

/-- R265: a guard slot takes the predicate of the lowest active real lane, and commands at the heads of their queues take the value of
their slots; or the slot becomes UNRESOLVED again. -/
def Sys2Proof.Claims.GuardSlotResult : Prop :=
  ∀ (h : Hdr) (a b : Reg) s c,
    (Issues (.gslotSet h a b) s c →
      (∀ l, Mask.lowest (c.active (.gslotSet h a b) s &&& c.g.real) = some l →
        ∃ t, exec (.gslotSet h a b) s = .next t ∧
          Advanced c (.gslotSet h a b) (s.updGroup c.gk fun g =>
            { g with guards := setAt g.guards b.toNat (if c.p s l a then .isTrue else .isFalse) }).latchHeads t) ∧
      (c.active (.gslotSet h a b) s &&& c.g.real = 0 →
        ∃ t, exec (.gslotSet h a b) s = .next t ∧ Advanced c (.gslotSet h a b) s t)) ∧
    (Issues (.gslotClr h b) s c →
      ∃ t, exec (.gslotClr h b) s = .next t ∧
        Advanced c (.gslotClr h b)
          (if c.active (.gslotClr h b) s = 0 then s else s.updGroup c.gk fun g => { g with guards := setAt g.guards b.toNat .unresolved }) t)

namespace Sys2Proof.Claims

open Sys2Proof Sys2Proof.Machine

/-- The lanes that act and are neither helpers nor absent. -/
def realActs (i : Instr) (s : State) (c : Ctx) : Mask := c.active i s &&& c.g.real

/-- The trap of a path: its cause, the lowest lane that it names, those lanes, and the address of the instruction (R155). -/
def trapped (c : Ctx) (cause : Cause) (m : Mask) (aux : Nat) (s : State) : State :=
  s.takeFault c.gk ⟨cause, (Mask.lowest m).getD 0, m, c.ipc, 0, BitVec.ofNat 64 aux, false⟩

/-- The status that `launch` returns (R271): 2 for a queue beyond 63, 3 for a class G queue from a class H launch, 1 where the
pending-launch store is full, and otherwise 0. -/
def launchStatus (c : Ctx) (s : State) (q : Nat) : Nat :=
  if 63 < q then 2
  else if c.l.classH = true ∧ (s.queue c.part q).classH = false then 3
  else if 4096 ≤ (s.part c.part).store.length + (s.part c.part).plsRes then 1
  else 0

/-- The bit of a class of leave: MX, MC, GS, VW (R273). -/
def leaveBit (cls : LeaveCls) : Nat := match cls with | .mx => 0 | .mc => 1 | .gs => 2 | .vw => 3

/-- What a trap that waits for the driver leaves of the machine: only its group, its partition and the ring in memory differ, and
records of other packages that the group had asked for are forgotten. -/
def onlyEntry (gk : Nat) (s t : State) : Prop :=
  t = { s.dropRecs (.group gk) with
    groups := t.groups, parts := t.parts, mem := t.mem, ktag := t.ktag, blobs := t.blobs, hist := t.hist, wseq := t.wseq } ∧
    ∀ j, j ≠ gk → t.group? j = s.group? j

end Sys2Proof.Claims

/-! System instructions, faults and results. -/

/-- R271, R272, R317: `launch` and `tape.push`, lane by lane in ascending order. A record that is accepted joins the store, or the
tape with a place reserved for its pop; the predicate says whether it was accepted. Where the tape spills, the region is mapped.
The order of the status checks is the model's choice, log 45. -/
def Obligations.LaunchAndTapeResult : Prop :=
  ∀ (h : Hdr) (d a b p : Reg) s c,
    (Issues (.launch h d a b p) s c →
      ∃ t, exec (.launch h d a b p) s = .next t ∧
        Advanced c (.launch h d a b p) ((Mask.lanes (realActs (.launch h d a b p) s c)).foldl (c.launchLane d p a b s) s) t) ∧
    (Issues (.tapePush h d b p) s c → s.stuck = none →
      ((Mask.lanes (realActs (.tapePush h d b p) s c)).foldl (c.tapeLane d p b s) s).stuck = none →
      ∃ t, exec (.tapePush h d b p) s = .next t ∧
        Advanced c (.tapePush h d b p) ((Mask.lanes (realActs (.tapePush h d b p) s c)).foldl (c.tapeLane d p b s) s) t) ∧
    (∀ (u : State) (l : Nat),
      let q := (c.v s l a).toNat % 65536
      let w := launchStatus c u q
      let v := c.launchLane d p a b s u l
      (w ≠ 0 → v = u.writeLanes c.gk (1#32 <<< l) fun _ => (Wr.v d (BitVec.ofNat 32 w)).and (.p p false)) ∧
      (w = 0 → ∃ x : StoreRec, x.queue = q ∧ x.bytes = c.recordBytes s l b ∧ x.tapeH = false ∧
        v = (u.setPart c.part { u.part c.part with store := (u.part c.part).store ++ [x] }).writeLanes c.gk (1#32 <<< l) fun _ =>
          (Wr.v d 0).and (.p p true))) ∧
    (∀ (u : State) (l : Nat),
      let pt := u.part c.part
      let full := 65600 ≤ pt.tape.length ∨ 4096 ≤ pt.store.length + pt.plsRes
      (full → c.tapeLane d p b s u l = u.writeLanes c.gk (1#32 <<< l) fun _ => (Wr.v d 1).and (.p p false)) ∧
      let bs := c.recordBytes s l b
      let v := u.setPart c.part { pt with tape := pt.tape ++ [⟨bs, c.l.classH, recField bs 0x17 1⟩], plsRes := pt.plsRes + 1 }
      (¬full → pt.tape.length < 64 →
        c.tapeLane d p b s u l = v.writeLanes c.gk (1#32 <<< l) fun _ => (Wr.v d 0).and (.p p true)) ∧
      (¬full → 64 ≤ pt.tape.length → ∀ pa tag, pa < hbmBytes →
        v.translate c.part (v.unitAgent c.part) .write ((pt.tapeBase.toNat + 64 * (pt.tape.length - 64)) % 2 ^ 55) = .mem pa tag →
        ∃ r, c.tapeLane d p b s u l =
          { v.writeBytes tag pa bs with homeReqs := r }.writeLanes c.gk (1#32 <<< l) fun _ => (Wr.v d 0).and (.p p true)))

/-- R273: `leave.req` goes on where leave of its class is held or no lane acts, and else waits for Bellows; `leave.rel` returns
leave. -/
def Sys2Proof.Claims.LeaveResult : Prop :=
  ∀ (h : Hdr) (cls : LeaveCls) s c,
    (Issues (.leaveReq h cls) s c →
      (c.active (.leaveReq h cls) s = 0 ∨ c.g.leaveHeld.getLsbD (leaveBit cls) = true →
        ∃ t, exec (.leaveReq h cls) s = .next t ∧ Advanced c (.leaveReq h cls) s t) ∧
      (c.active (.leaveReq h cls) s ≠ 0 → c.g.leaveHeld.getLsbD (leaveBit cls) = false →
        exec (.leaveReq h cls) s = .next (s.updGroup c.gk fun g => { g with
          leaveWant := g.leaveWant ||| (1#4 <<< leaveBit cls), leaveSince := if g.leaveWant = 0 then s.now else g.leaveSince }))) ∧
    (Issues (.leaveRel h cls) s c →
      ∃ t, exec (.leaveRel h cls) s = .next t ∧
        Advanced c (.leaveRel h cls) (if c.active (.leaveRel h cls) s = 0 then s
          else s.updGroup c.gk fun g => { g with leaveHeld := g.leaveHeld &&& ~~~(1#4 <<< leaveBit cls) }) t)

/-- R274, R275: `region.begin` notes the address of the instruction that follows it, `region.end` closes the innermost region,
and each traps REGION_STATE where the kernel's depth or an open region is missing. -/
def Obligations.RegionResult : Prop :=
  ∀ (h : Hdr) s c,
    (Whole (.regionBegin h) s c →
      (c.g.regions.length < c.l.k.region → ∃ t, exec (.regionBegin h) s = .next t ∧
        Advanced c (.regionBegin h) (s.updGroup c.gk fun g => { g with regions := c.nextPc (.regionBegin h) s :: g.regions }) t) ∧
      (c.l.k.region ≤ c.g.regions.length →
        exec (.regionBegin h) s = .next (trapped c .regionState (realActs (.regionBegin h) s c) 0 s))) ∧
    (Whole (.regionEnd h) s c →
      (∀ r rs, c.g.regions = r :: rs →
        let u := s.updGroup c.gk fun g => { g with regions := rs, closing := none }
        (rs ≠ [] → ∃ t, exec (.regionEnd h) s = .next t ∧ Advanced c (.regionEnd h) (u.lowerRegions c.gk rs.length) t) ∧
        (rs = [] → u.stagedOf c.gk = [] → ∃ t, exec (.regionEnd h) s = .next t ∧ Advanced c (.regionEnd h) (u.lowerRegions c.gk 0) t) ∧
        (rs = [] →
          let t := c.moveTo (fun _ pc => pc + 8#64) ((u.applyGroupStaged c.gk).lowerRegions c.gk 0)
          t.stuck = none → exec (.regionEnd h) s = .next t)) ∧
      (c.g.regions = [] → exec (.regionEnd h) s = .next (trapped c .regionState (realActs (.regionEnd h) s c) 0 s)))

/-- R42, R276: a request beyond eight banks fails at once; any other waits, to be granted from the partition's banks; banks are
returned at once, but never the last. -/
def Sys2Proof.Claims.RegisterBudgetResult : Prop :=
  ∀ (h : Hdr) (d n : Reg),
    (∀ s c, Whole (.regsGrow h d n) s c →
      (8 < c.g.nb + n.toNat → ∃ t, exec (.regsGrow h d n) s = .next t ∧
        Advanced c (.regsGrow h d n)
          ((s.writeLanes c.gk c.g.live fun _ => .p d false).updGroup c.gk fun g => { g with gst := 2 }) t) ∧
      (c.g.nb + n.toNat ≤ 8 →
        let u := (s.updGroup c.gk fun g => { g with park := .grow d n.toNat (.regsGrow h d n) }).growStep c.t.core (c.gk % 32 % 4)
        (u.stuck = none → exec (.regsGrow h d n) s = .next u) ∧
        (c.t.tst = .resident → c.g.ended = false → s.growers c.t.core (c.gk % 32 % 4) = [] →
          n.toNat ≤ s.freeRegs c.t.core (c.gk % 32 % 4) →
          (s.isH c.gk = true → s.harvestOn c.t.core [] + 4096 * n.toNat ≤ 262144) →
          exec (.regsGrow h d n) s =
            .next ((s.updGroup c.gk fun g => { g with park := .grow d n.toNat (.regsGrow h d n) }).finishGrow c.gk true 0)))) ∧
    (∀ (s : State) (gk m : Nat) (i : Instr) (g : Group) (ok : Bool) (gst : Nat),
      s.group? gk = some g → g.park = .grow d m i →
      ∃ t g', s.finishGrow gk ok gst = t ∧ t = { s with groups := t.groups } ∧ State.othersPlaced gk s t ∧
        t.group? gk = some g' ∧ g'.park = .none ∧ g'.gst = gst ∧ g'.nb = (if ok then g.nb + m else g.nb) ∧
        ∀ l, l < 32 → l < g.lanes.length → (g.lane l).live = true →
          (g.clearP l d.toNat → g'.pred l d.toNat = if d = 0 ∨ 96 ≤ d.toNat then g.pred l d.toNat else ok) ∧
          (g'.lane l).pc = if (g.lane l).onSome then (g.lane l).pc + BitVec.ofNat 64 i.len else (g.lane l).pc) ∧
    (∀ s c, Whole (.regsShrink h n) s c →
      (c.g.nb ≤ n.toNat → ∃ t, exec (.regsShrink h n) s = .next t ∧
        Advanced c (.regsShrink h n) (s.updGroup c.gk fun g => { g with gst := 3 }) t) ∧
      (n.toNat < c.g.nb → ∃ u : State, Advanced c (.regsShrink h n)
          (s.updGroup c.gk fun g => { (g.updLanes fun _ ln => { ln with v := ln.v.filter fun x => decide (x.1 < 32 * (c.g.nb - n.toNat)) })
            with nb := c.g.nb - n.toNat, gst := 0, pend := g.pend.map (Pend.dropRegs (32 * (c.g.nb - n.toNat))) }) u ∧
        (s.growers c.t.core (c.gk % 32 % 4) = [] → exec (.regsShrink h n) s = .next u) ∧
        ((u.growStep c.t.core (c.gk % 32 % 4)).stuck = none →
          exec (.regsShrink h n) s = .next (u.growStep c.t.core (c.gk % 32 % 4)))))

/-- R140, R277: `sreg.set` writes %csp in each active lane; of the others the lowest active real lane gives the value, which
%nbv, %bphase, %evm, %evs and %gstat take as their tables say; any other register, and a reserved value, traps. -/
def Sys2Proof.Claims.SpecialRegisterWrite : Prop :=
  ∀ (h : Hdr) (a x : Reg),
    (x.toNat = 0x0A → ∀ s c, Issues (.sregSet h a x) s c →
      ∃ t, exec (.sregSet h a x) s = .next t ∧
        Advanced c (.sregSet h a x) (s.updGroup c.gk fun g => g.updLanes fun l ln =>
          if (c.active (.sregSet h a x) s).getLsbD l then { ln with csp := c.pair s l a } else ln) t) ∧
    (x.toNat ≠ 0x0A → ∀ s c, Issues (.sregSet h a x) s c → realActs (.sregSet h a x) s c = 0 →
      ∃ t, exec (.sregSet h a x) s = .next t ∧ Advanced c (.sregSet h a x) s t) ∧
    (∀ s c l, Issues (.sregSet h a x) s c → Mask.lowest (realActs (.sregSet h a x) s c) = some l →
      let w := c.v s l a
      let i := Instr.sregSet h a x
      (x.toNat = 0x0B → w.toNat < 3 → Config.hasNbv w.toNat = true →
        ∃ t, exec i s = .next t ∧ Advanced c i (s.updGroup c.gk fun g => { g with nbv := w.toNat }) t) ∧
      (x.toNat = 0x0C → w.toNat < 4 →
        ∃ (t u : State), exec i s = .next t ∧ Advanced c i u t ∧
          u = { (s.updGroup c.gk fun g => { g with bphase := w.toNat, phaseSince := s.now }) with banks := u.banks, slices := u.slices } ∧
          ∀ k, u.bank k = { s.bank k with waking := (u.bank k).waking } ∧ ((s.bank k).waking = true → (u.bank k).waking = true)) ∧
      (x.toNat = 0x0D → w.toNat < 256 →
        ∃ t, exec i s = .next t ∧ Advanced c i (s.updGroup c.gk fun g => { g with
          evs := (span 0 8).map fun j =>
            let e := atD (s.latched c.gk g) j EvEntry.reset
            if w.getLsbD j = true ∧ e.est = .latched then { e with est := .spent } else e }) t) ∧
      (x.toNat = 0x0E → w.toNat < 256 →
        ∃ t, exec i s = .next t ∧ Advanced c i (s.updGroup c.gk fun g => { g with evm := BitVec.ofNat 8 w.toNat }) t) ∧
      (x.toNat = 0x15 → w &&& 0xFFFFFFE2#32 = 0 →
        ∃ t, exec i s = .next t ∧ Advanced c i (s.updGroup c.gk fun g => { g with
          syncmm := g.syncmm && !w.getLsbD 0, evictedBit := g.evictedBit && !w.getLsbD 2
          restartedBit := g.restartedBit && !w.getLsbD 3, srbign := g.srbign && !w.getLsbD 4 }) t) ∧
      (x.toNat ≠ 0x0A → sregWritable x = false →
        exec i s = .next (trapped c .illegalOperand (realActs i s c) 0 s)) ∧
      ((x.toNat = 0x0B ∧ (3 ≤ w.toNat ∨ Config.hasNbv w.toNat = false)) ∨ (x.toNat = 0x0C ∧ 4 ≤ w.toNat) ∨
          ((x.toNat = 0x0D ∨ x.toNat = 0x0E) ∧ 256 ≤ w.toNat) ∨ (x.toNat = 0x15 ∧ w &&& 0xFFFFFFE2#32 ≠ 0) →
        exec i s = .next (trapped c .illegalOperand (realActs i s c) 0 s)))

/-- R278, R331, R279: `trap` raises TRAP with its code in AUX, and notes the instruction that follows; `brk` holds its group, and notes its
code for the debugger, where one is attached; `xret` sends every live lane to the return address, which must be there.
A group halted by brk stands at the brk: the model's choice, log 21. -/
def Obligations.TrapAndReturnResult : Prop :=
  ∀ (h : Hdr) (code : BitVec 8) s c,
    (Issues (.trap h code) s c →
      let real := realActs (.trap h code) s c
      (real ≠ 0 → exec (.trap h code) s =
        .next (trapped c .trap real code.toNat (s.updGroup c.gk fun g => { g with trapNext := some (c.ipc, c.ipc + 8#64) }))) ∧
      (real = 0 → ∃ t, exec (.trap h code) s = .next t ∧ Advanced c (.trap h code) s t)) ∧
    (Issues (.brk h code) s c →
      ((s.part c.l.part).debugger = false ∨ c.active (.brk h code) s = 0 →
        ∃ t, exec (.brk h code) s = .next t ∧ Advanced c (.brk h code) s t) ∧
      ((s.part c.l.part).debugger = true → c.active (.brk h code) s ≠ 0 →
        exec (.brk h code) s = .next ((s.updGroup c.gk fun g => { g with trapNext := some (c.ipc, c.ipc + 8#64) }).updGroup
          c.gk fun g => { g with halted := true, brkCode := some code.toNat }))) ∧
    (Whole (.xret h) s c →
      (∀ r, c.g.retAddr = some r → ∃ t, exec (.xret h) s = .next t ∧ Moved c (fun _ _ => r) s t) ∧
      (c.g.retAddr = none → exec (.xret h) s = .next (trapped c .xretState (realActs (.xret h) s c) 0 s)))

/-- After an instruction the group of the path is as `P` says, and the lanes of the path stand at the addresses that `f` gives. -/
def Sys2Proof.Claims.wentOn (c : Ctx) (t : State) (f : Nat → DWord → DWord) (P : Group → Prop) : Prop :=
  ∃ g, t.group? c.gk = some g ∧ P g ∧
    ∀ l, l < c.g.lanes.length → c.path.getLsbD l = true → (c.g.lane l).onSome = true → c.alone = false →
      (g.lane l).pc = f l (c.g.lane l).pc

/-- R170, R171, R172: a branch, a call and a return complete wherever their active lanes' targets are code addresses and their stack
slots lie in memory: those lanes stand at their targets and the others of the path past the instruction, and %csp is lower or higher
by 8. R260, R261, R262: `ev.arm` and `wany` complete wherever their record can be read, and `ev.mask` and `ev.clear` always. R274, R275:
`region.begin` completes while the kernel's depth allows, and `region.end` in an open region that holds no staged command of the
group. R42, R276: `regs.grow` completes at once beyond eight banks and where its banks are free, `regs.shrink` where none waits for
banks. R273: `leave.req` completes where leave is held, and `leave.rel` always. That the load of `ret` answers at once is the model's
choice, log 29. -/
def Obligations.ControlFormsComplete : Prop :=
  ∀ (h : Hdr) (off : Word) (a d n m : Reg) (op : MaskOp) (m8 : BitVec 8) (cls : LeaveCls) (s : State) (c : Ctx),
    let past : Instr → Nat → DWord → DWord := fun i _ pc => pc + dwordOf i.len
    let direct := c.ipc + off.signExtend 64
    let goes : Instr → (Nat → DWord) → Nat → DWord → DWord := fun i f l pc => if on i s c l then f l else pc + dwordOf i.len
    (Issues (.bra h off) s c → codeAddr direct →
      ∃ t, exec (.bra h off) s = .next t ∧ wentOn c t (goes (.bra h off) fun _ => direct) fun _ => True) ∧
    (Issues (.brx h a) s c → (∀ l, on (.brx h a) s c l = true → codeAddr (c.pair s l a)) →
      ∃ t, exec (.brx h a) s = .next t ∧ wentOn c t (goes (.brx h a) fun l => c.pair s l a) fun _ => True) ∧
    (Issues (.call h off) s c → s.stuck = none → codeAddr direct → (∀ l, on (.call h off) s c l = true → mayPush c s l) →
      ∃ t, exec (.call h off) s = .next t ∧ wentOn c t (goes (.call h off) fun _ => direct) fun g =>
        ∀ l, l < c.g.lanes.length → on (.call h off) s c l = true → (g.lane l).csp = (c.g.lane l).csp - 8) ∧
    (Issues (.callx h a) s c → s.stuck = none →
      (∀ l, on (.callx h a) s c l = true → codeAddr (c.pair s l a) ∧ mayPush c s l) →
      ∃ t, exec (.callx h a) s = .next t ∧ wentOn c t (goes (.callx h a) fun l => c.pair s l a) fun g =>
        ∀ l, l < c.g.lanes.length → on (.callx h a) s c l = true → (g.lane l).csp = (c.g.lane l).csp - 8) ∧
    (Issues (.ret h) s c → s.stuck = none → (∀ l, on (.ret h) s c l = true → mayPop c s l ∧ codeAddr (c.retAddr s l)) →
      ∃ t, exec (.ret h) s = .next t ∧ wentOn c t (goes (.ret h) fun l => c.retAddr s l) fun g =>
        ∀ l, l < c.g.lanes.length → on (.ret h) s c l = true → (g.lane l).csp = (c.g.lane l).csp + 8) ∧
    (∀ es, Whole (.evArm h a m) s c → c.evRead s (c.pair s (c.lead.getD 0) a).toNat = .inr es → es.any c.evRegBad = false →
      ∃ t, exec (.evArm h a m) s = .next t ∧ wentOn c t (past (.evArm h a m)) fun g =>
        g.armed = some (c.pair s (c.lead.getD 0) a)) ∧
    (Issues (.evMask h op m8) s c →
      ∃ t, exec (.evMask h op m8) s = .next t ∧ wentOn c t (past (.evMask h op m8)) fun g =>
        c.active (.evMask h op m8) s ≠ 0 →
          g.evm = match op with | .wr => m8 | .set => c.g.evm ||| m8 | .clr => c.g.evm &&& ~~~m8) ∧
    (Issues (.evClear h m) s c →
      ∃ t, exec (.evClear h m) s = .next t ∧ wentOn c t (past (.evClear h m)) fun g =>
        c.active (.evClear h m) s ≠ 0 → ∀ j, j < 8 → m.toNat / 2 ^ j % 2 = 1 →
          (atD g.evs j EvEntry.reset).est ≠ .latched ∧ (atD g.evs j EvEntry.reset).est ≠ .armed) ∧
    (∀ (e : Nat) (g0 : Group), Whole (.wany h a) s c → c.g.armed = some (c.pair s (c.lead.getD 0) a) →
      g0 = { c.g with evs := s.latched c.gk c.g } → g0.firstEvent = some e →
      ∃ t, exec (.wany h a) s = .next t ∧
        wentOn c t (fun _ _ => (atD (s.latched c.gk c.g) e EvEntry.reset).handler) fun g => g.evhit = e ∧ g.park = .none) ∧
    (Whole (.regionBegin h) s c → c.g.regions.length < c.l.k.region →
      ∃ t, exec (.regionBegin h) s = .next t ∧ wentOn c t (past (.regionBegin h)) fun g =>
        g.regions = c.nextPc (.regionBegin h) s :: c.g.regions) ∧
    (∀ r rs, Whole (.regionEnd h) s c → c.g.regions = r :: rs →
      (rs ≠ [] ∨ (s.updGroup c.gk fun g => { g with regions := rs, closing := none }).stagedOf c.gk = []) →
      ∃ t, exec (.regionEnd h) s = .next t ∧ wentOn c t (past (.regionEnd h)) fun g => g.regions = rs) ∧
    (Whole (.regsGrow h d n) s c → 8 < c.g.nb + n.toNat →
      ∃ t, exec (.regsGrow h d n) s = .next t ∧ wentOn c t (past (.regsGrow h d n)) fun g => g.gst = 2 ∧ g.nb = c.g.nb) ∧
    (Whole (.regsGrow h d n) s c → c.g.nb + n.toNat ≤ 8 → c.t.tst = .resident → c.g.ended = false →
      s.growers c.t.core (c.gk % 32 % 4) = [] → n.toNat ≤ s.freeRegs c.t.core (c.gk % 32 % 4) →
      (s.isH c.gk = true → s.harvestOn c.t.core [] + 4096 * n.toNat ≤ 262144) →
      ∃ t, exec (.regsGrow h d n) s = .next t ∧ wentOn c t (past (.regsGrow h d n)) fun g => g.gst = 0 ∧ g.nb = c.g.nb + n.toNat) ∧
    (Whole (.regsShrink h n) s c → s.growers c.t.core (c.gk % 32 % 4) = [] →
      ∃ t, exec (.regsShrink h n) s = .next t ∧ wentOn c t (past (.regsShrink h n)) fun g =>
        g.nb = if c.g.nb ≤ n.toNat then c.g.nb else c.g.nb - n.toNat) ∧
    (Issues (.leaveReq h cls) s c → c.active (.leaveReq h cls) s = 0 ∨ c.g.leaveHeld.getLsbD (leaveBit cls) = true →
      ∃ t, exec (.leaveReq h cls) s = .next t ∧ wentOn c t (past (.leaveReq h cls)) fun g => g.leaveHeld = c.g.leaveHeld) ∧
    (Issues (.leaveRel h cls) s c →
      ∃ t, exec (.leaveRel h cls) s = .next t ∧ wentOn c t (past (.leaveRel h cls)) fun g =>
        c.active (.leaveRel h cls) s ≠ 0 → g.leaveHeld.getLsbD (leaveBit cls) = false)

/-- R155, R329, R330, R332: taking a fault or trap holds the group, for the driver or for a replay, and raises one entry; it is
posted at the ring's tail where nothing waits before it and there is room, and waits otherwise. No lane, register, private
space, scratchpad or other group changes. -/
def Sys2Proof.Claims.FaultEntryPosted : Prop :=
  ∀ (s : State) (gk : Nat) (g : Group) (tm : Team) (l : Launch) (f : FInfo),
    s.group? gk = some g → s.team? (gk / 32) = some tm → s.launch? tm.launch = some l →
    f.cause.cls = .replay ∨ f.cause.cls = .stop →
    let t := s.takeFault gk f
    let g' := if f.cause.cls = .replay then { g with park := .fault } else { g with stopped := true }
    let u := s.updGroup gk fun _ => g'
    let pt := s.part l.part
    let e := u.groupEntry gk f
    onlyEntry gk s t ∧ t.group? gk = some g' ∧
    (pt.wantPost = [] → pt.hold = [] → pt.fqEn = true → pt.fqTail - pt.fqHead + 1 ≤ 2 ^ pt.fqLog2n →
      t.readBytes (s.keyTag 0) (pt.fqBase.toNat % 2 ^ 48 + 64 * (pt.fqTail % 2 ^ pt.fqLog2n)) 64 = e.bytes pt.nextSeq ∧
      (t.part l.part).fqTail = pt.fqTail + 1 ∧ (t.part l.part).nextSeq = pt.nextSeq + 1 ∧
      (t.part l.part).outstanding = pt.outstanding ++ [(pt.nextSeq, e)] ∧ (t.part l.part).wantPost = []) ∧
    (pt.wantPost = [] → (pt.fqEn = false ∨ 2 ^ pt.fqLog2n < pt.fqTail - pt.fqHead + 1) →
      t.mem = s.mem ∧ (t.part l.part).wantPost = [e] ∧ (t.part l.part).fqTail = pt.fqTail ∧
      (t.part l.part).outstanding = pt.outstanding)

/-- R205, R206, R151: where a lane of a load or a store meets a fault of Table 9-2 no lane has an effect: a store traps at once, and
a load leaves a pending result that faults at its stall point. Where the lines named are absent or banks asleep, the group is
parked. -/
def Sys2Proof.Claims.AccessFaultResult : Prop :=
  ∀ (h : Hdr) (x : LdArgs) (y : StArgs) (gsl : BitVec 4) (i : Instr) (sp : Sp) s c,
    ((i = .ld h x ∧ sp = .gen) ∨ (i = .ldG h x ∧ sp = .g) ∨ (i = .ldS h x ∧ sp = .s) ∨ (i = .ldC h x ∧ sp = .c) ∨
        (i = .ldP h x ∧ sp = .p) →
      Issues i s c → s.stuck = none →
      let f := fun l => c.check s l sp (c.addr s l sp x.a x.disp) x.ty.bytes .read false false (decide (x.ty = .b64) && !x.inv && !x.last)
      (∀ e, c.pickFault (c.active i s) false f = some e →
        ∃ t, exec i s = .next t ∧ Advanced c i
          (c.startPend i ((Mask.lanes (c.active i s)).map fun l => PLane.bad l (c.window x.la) e) s) t) ∧
      (∀ l row cause aux addr, c.g.real.getLsbD l = true → (c.active i s).getLsbD l = true → f l = .bad row cause aux addr →
        ∃ e, c.pickFault (c.active i s) false f = some e)) ∧
    ((i = .st h y gsl ∧ sp = .gen) ∨ (gsl = 0 ∧ ((i = .stG h y ∧ sp = .g) ∨ (i = .stS h y ∧ sp = .s) ∨ (i = .stC h y ∧ sp = .c) ∨
        (i = .stP h y ∧ sp = .p))) →
      Issues i s c → s.stuck = none →
      let f := fun l => c.storeChk s sp y gsl l
      let real := c.active i s &&& c.g.real
      (∀ l pkg d va, real.getLsbD l = true → f l ≠ .ask pkg d va) →
      (∀ e, c.pickFault real true f = some e → exec i s = .next (s.takeFault c.gk e)) ∧
      (c.pickFault real true f = none →
        ∀ p, s.scratchPark ((placesOf real f).filterMap fun q => q.2.scratch.map fun z => (z.1, z.2, y.ty.bytes)) = p → p ≠ .none →
          exec i s = .next (s.parkFor c.gk p)))

/-- R150, R151: a result that can land is noted, and written to its lane once its window is over; until then, and where it
carries a fault, the lane keeps its registers. -/
def Obligations.LongLatencyResult : Prop :=
  ∀ (gk id lane : Nat) (s : State),
    ∃ t, exec (.longLatencyResult gk id lane) s = .next t ∧
      (s.canLand gk id lane = false → t = s) ∧
      (∀ g, s.canLand gk id lane = true → s.group? gk = some g →
        ∃ h, t = s.updGroup gk (fun _ => h) ∧ h = { g with lanes := h.lanes, pend := h.pend, rtags := h.rtags } ∧
          h.lanes.length = g.lanes.length ∧
          (∀ l, l < g.lanes.length → Lane.after g l Wr.none (g.lane l).pc h) ∧
          ∀ (q : Pend) (p : PLane), g.pend = [q] → q.id = id → q.lanes = [p] → p.lane = lane → lane < g.lanes.length →
            (p.left = 0 → p.fault = none → p.clobV = [] → p.clobP = [] →
              h.pend = [] ∧ (∀ r, h.reg lane r = (⟨p.ws, p.ps⟩ : Wr).reg r (g.reg lane r)) ∧
              ∀ r, h.pred lane r = (⟨p.ws, p.ps⟩ : Wr).pred r (g.pred lane r)) ∧
            (p.left ≠ 0 ∨ p.fault ≠ none → h.lanes = g.lanes ∧ h.pend = [{ q with lanes := [{ p with landed := true }] }]))

namespace Sys2Proof.Claims

open Sys2Proof Sys2Proof.Machine

/-- A well-formed instruction with an encoding: rows 6 and 7 of Table 6-10 and the length rule of R145 turn nothing away. -/
def Encodable (i : Instr) : Prop := (toRaw i).isSome = true ∧ i.encodingOk = true ∧ i.widthOk = true

/-- Little-endian 32-bit words as bytes (R142). -/
def ofWords (ws : List Nat) : List Byte := ws.flatMap fun w => natBytes 4 w

/-- A run of words at the start of a fetch block is one instruction. -/
def decodesTo (ws : List Nat) (i : Instr) : Prop := decode 0 (ofWords ws) = .ok (.instr i)

/-- The instructions that act for a whole group (R40). -/
def wholeGroup : Instr → Bool
  | .mmaF16 .. | .mmaBf16 .. | .mmaE4m3 .. | .mmaE5m2 .. | .mmaS8 .. | .mmaDs8 .. => true
  | .accZero .. | .accLd .. | .accDrain .. | .accSpill .. | .accFill .. | .accMov .. | .accAdd .. | .accScale .. => true
  | .gangForm .. | .gangBrk .. | .evArm .. | .wany .. => true
  | .regionBegin .. | .regionEnd .. | .regsGrow .. | .regsShrink .. | .xret .. => true
  | _ => false

/-- An instruction that transfers control for its active lanes. -/
def isTransfer : Instr → Bool
  | .bra .. | .brx .. | .call .. | .callx .. | .ret .. | .xret .. => true
  | _ => false

/-- What follows an instruction in its step: its waits noted, a covered operation charged (R371), the path no longer issues, the
targets of a transfer held for two cycles (R293), and a new draw of the free values. -/
def completed (gk : Nat) (o : PathOffer) (c : Ctx) (i : Instr) (u : State) (r : Out) : Out :=
  match r with
  | .next t =>
    let ok := (c.reject? i u).isNone
    let v := t.issued gk o (if ok then c.covered u i (c.active i u) else none)
    let v := if isTransfer i = true ∧ ok = true ∧ c.active i u ≠ 0 then
        v.updGroup gk fun g => g.updLanes fun l ln =>
          if (c.active i u).getLsbD l then { ln with readyAt := v.targetAt gk } else ln
      else v
    .next { v with fresh := v.fresh + 1 }
  | x => x

end Sys2Proof.Claims

/-! Encoding, the step, and what every step keeps. -/

/-- R142 to R153: words written out from the manual's encodings, one or more of each major group, decode to what they stand for. -/
def Obligations.WordsDecode : Prop :=
  decodesTo [0x10385000, 0x02000020] (.iadd ⟨5, true, false⟩ .s32 false 3 1 (.reg 2)) ∧
  decodesTo [0x10300000, 0x028FB000] (.iadd ⟨0, false, false⟩ .s32 false 3 1 (.imm 0xFB)) ∧
  decodesTo [0x10300101, 0x02000000, 0xC8] (.iaddImm ⟨0, false, false⟩ .s32 false 3 1 200) ∧
  decodesTo [0x00003301, 0, 0xFFFFFFC0] (.bra ⟨3, false, false⟩ 0xFFFFFFC0) ∧
  decodesTo [0x1080250C, 0x32103020] (.ffma ⟨2, false, false⟩ .rtz true 8 1 2 3) ∧
  decodesTo [0x40A00804, 0x0A200400] (.ldG ⟨0, false, false⟩ ⟨.b32, 10, 4, 0x40, false, false, 2⟩) ∧
  decodesTo [0x40800820, 0x0CB00000] (.st ⟨0, false, false⟩ ⟨.b128, 8, 4, 0⟩ 11) ∧
  decodesTo [0x60000C2C, 0] (.wany ⟨0, false, false⟩ 6) ∧
  decodesTo [0xA0000C40, 0x20] (.tlWait ⟨0, false, false⟩ 10 2) ∧
  decodesTo [0x60000C20, 0x3000] (.evArm ⟨0, false, false⟩ 6 3) ∧
  decodesTo [0x50200848, 0x00211002] (.spc ⟨0, false, false⟩ .s false 2 17 37) ∧
  decodesTo [0x00400B06, 0x00003001, 0x04000901, 0x400]
    (.mmaBf16 ⟨0, false, false⟩ ⟨4, 16, 0, 3, ⟨1, 1, true⟩, 0x400, 0, false, true, false, false, false, false, false⟩) ∧
  decodesTo [0xA1000A04, 0x12010060] (.hgGrad ⟨0, false, false⟩ 16 10 6 0 1) ∧
  decodesTo [0x00000D40, 0] (.regionBegin ⟨0, false, false⟩)

/-- Tables 6-7 to 6-9, R5, R142: what the encoder writes for a well-formed instruction, with any operands and whatever bytes
follow, the decoder reads back, wherever in a fetch block the instruction fits. -/
def Obligations.DecodeEncodeAgree : Prop :=
  ∀ (i : Instr) (off : Nat) (bs : List Byte), Encodable i → off % 4 = 0 → off + (encode i).length ≤ 32 →
    decode off (encode i ++ bs) = .ok (.instr i)

/-- R142, R145, R147, R155: a word that decodes is the encoding of the instruction that it decodes to, of that instruction's length,
inside its fetch block; no two words of one instruction differ. -/
def Obligations.DecodedBytesAreItsEncoding : Prop :=
  ∀ (i : Instr) (off : Nat) (bs : List Byte), decode off bs = .ok (.instr i) →
    Encodable i ∧ bs.take i.len = encode i ∧ off % 4 = 0 ∧ off + i.len ≤ 32

/-- R155 (Table 6-10): an instruction that rows 6 to 10 turn away, whatever its guard, raises the trap of the first of those rows
that applies, at its own address, for the real lanes of its path; nothing else changes. -/
def Sys2Proof.Claims.EncodingTraps : Prop :=
  ∀ (i : Instr) s c, (toRaw i).isSome = true → s.ctx? = some c → s.stuck = none → c.path &&& c.g.real ≠ 0 →
    let trap := fun cause => Claims.trapped c cause (c.path &&& c.g.real) 0 s
    ((i.encodingOk = false ∨ i.widthOk = false ∨ s.excluded i = true) → exec i s = .next (trap .illegalOpcode)) ∧
    (i.encodingOk = true → i.widthOk = true → s.excluded i = false → i.operandsOk = false →
      exec i s = .next (trap .illegalOperand)) ∧
    (i.encodingOk = true → i.widthOk = true → s.excluded i = false → i.operandsOk = true →
      (∃ o ∈ i.opnds, Opnd.beyond (32 * c.g.nb) c.l.k.acc o = true) → exec i s = .next (trap .regRange))

/-- R40: an instruction of a whole group that a path without every live lane issues, or whose guard differs among its lanes,
traps GROUP_DIVERGED and has no effect; where its guard is 0 in every lane the group goes on. -/
def Sys2Proof.Claims.WholeGroupInstructionsTrap : Prop :=
  ∀ (i : Instr) s c, wholeGroup i = true → Issues i s c → s.stuck = none → c.path &&& c.g.real ≠ 0 →
    (c.path ≠ c.g.live ∨ (c.active i s ≠ c.path ∧ c.active i s ≠ 0) →
      exec i s = .next (Claims.trapped c .groupDiverged (c.path &&& c.g.real) 0 s)) ∧
    (c.path = c.g.live → c.active i s = 0 →
      (∀ h x, i ≠ .mmaF16 h x ∧ i ≠ .mmaBf16 h x ∧ i ≠ .mmaE4m3 h x ∧ i ≠ .mmaE5m2 h x ∧ i ≠ .mmaS8 h x ∧ i ≠ .mmaDs8 h x) →
      ∃ t, exec i s = .next t ∧ Advanced c i s t)

/-- A step runs the decoded instruction. Where the package has nothing of an earlier cycle to finish and the first issue
partition in turn chooses a group with one path that offers an instruction, the bytes at that path's program counter, unchanged
since the launch was taken, decode to the instruction that runs; and the step is `exec` of it in the state in which that
path issues, followed by the bookkeeping of `completed`.
What a step does around it, one issue at a time, is the model's, logs 5 and 71. -/
def Obligations.StepRunsDecodedInstruction : Prop :=
  ∀ (s : State) (key : Nat) (keys : List Nat) (gk : Nat) (g : Group) (pc : DWord) (c : Ctx) (pa tag : Nat) (i j : Instr),
    s.second = none → s.agenda = [] → (∀ e ∈ s.earlyEvents, s.fires e = false) →
    (s.issueKeys.filter s.turn) = key :: keys →
    s.chooseGroup key = some (gk, g, [s.offerAt gk g pc]) → s.group? gk = some g →
    (s.offerAt gk g pc).offer = .instr j →
    s.ctxFor gk (g.tries pc) = some c →
    s.translate c.part c.t.core .fetch (pc.toNat / 32 * 32) = .mem pa tag → s.stackFails pa = false →
    s.moments c.l.start pa 32 = [c.l.start] →
    decode (pc.toNat % 32) ((s.readBytes tag pa 32).drop (pc.toNat % 32)) = .ok (.instr i) →
    let o := s.offerAt gk g pc
    let u := (s.selected key gk).issuing gk o []
    j = i ∧ ∀ cu, u.ctx? = some cu → step s = completed gk o cu i u (exec i u)

/-- Memory keeps its canonical form in every step, whatever runs: addresses rising, no byte listed that reads as an unlisted one
does.
The form is the model's own, log 1. -/
def Obligations.StepKeepsMemoryForm : Prop :=
  ∀ (s t : State), Memory.wf s.mem = true → step s = .next t → Memory.wf t.mem = true

/-- The machine after reset: booting, sound, with memory, keys, launches, teams and groups absent, no partition running, and the
registers of Tables 16-2, 17-1, 18-2, 18-3, 19-1, 19-3, 20-1, 21-2 and those of device time at the values that these give.
Registers to which no table gives a reset value read 0 by the model's choice, log 3. -/
def Obligations.ResetState : Prop :=
  let s := State.reset
  s.sound = true ∧ s.svc = .boot ∧ s.mem = [] ∧ s.launches = [] ∧ s.teams = [] ∧ s.groups = [] ∧
    (∀ k, (s.key k).kst = .empty) ∧ (∀ p, s.partExists p = true → p = 15) ∧
    s.meas = List.replicate 8 (List.replicate 64 0) ∧
    (∀ p q o, p < 8 → q < 64 → o ∈ [0x00, 0x08, 0x10, 0x18, 0x20, 0x28, 0x2C, 0x30, 0x38, 0x3C] →
      s.regRead (0x400000 + 0x10000 * p + 0x40 * q + o) = 0) ∧
    (∀ p o, p < 8 → o ∈ [0x1000, 0x1004, 0x1008, 0x1010, 0x1100, 0x1108, 0x110C, 0x1110, 0x1118, 0x1120, 0x1128, 0x112C, 0x1134,
        0x1138, 0x1144, 0x1148, 0x1150, 0x1200, 0x1208, 0x1210, 0x1218, 0x1300, 0x1500] →
      s.regRead (0x400000 + 0x10000 * p + o) = 0) ∧
    (∀ p, p < 8 → s.regRead (0x400000 + 0x10000 * p + 0x1140) = 0xD00000 ∧ s.regRead (0x400000 + 0x10000 * p + 0x1508) = 0x2710) ∧
    s.regRead 0x700000 = 0xFF ∧ s.regRead 0x700004 = 0x20 ∧ s.regRead 0x700008 = 0 ∧ s.regRead 0x70000C = 0x20080200 ∧
    s.regRead 0x700010 = 0 ∧
    (∀ o ∈ [0x600000, 0x600008, 0x600010, 0x600018, 0x600100, 0x600104, 0x750000, 0x750008, 0x750010, 0x750014, 0x750018, 0x750020],
      s.regRead o = 0) ∧
    (∀ p, p < 32 → ∀ o ∈ [0x00, 0x08, 0x10, 0x18], s.regRead (0x740000 + 0x100 * p + o) = 0) ∧
    ∀ k, k < 48 →
      s.regRead (0x780000 + 0x100 * k) = 0x22 ∧ s.regRead (0x780000 + 0x100 * k + 0x04) = 0x120 ∧
      s.regRead (0x780000 + 0x100 * k + 0x08) = 0xFF ∧ s.regRead (0x780000 + 0x100 * k + 0x0C) = 0x48020 ∧
      s.regRead (0x780000 + 0x100 * k + 0x10) = 0x020C1008 ∧ s.regRead (0x780000 + 0x100 * k + 0x14) = 0 ∧
      s.regRead (0x780000 + 0x100 * k + 0x18) = 0x069005F0 ∧ s.regRead (0x780000 + 0x100 * k + 0x1C) = 0 ∧
      s.regRead (0x780000 + 0x100 * k + 0x20) = 0 ∧ s.regRead (0x780000 + 0x100 * k + 0x28) = 2 ^ 64 - 1 ∧
      s.regRead (0x780000 + 0x100 * k + 0x30) = 2 ^ 64 - 1 ∧ s.regRead (0x780000 + 0x100 * k + 0x38) = 0

/-- R309: at the start of a team every register of a lane reads zero but v2:3, which hold ARGS, every predicate but p0 reads 0, and
the group's special registers, events, mailboxes, guard slots and regions stand at their first values. -/
def Obligations.TeamStartState : Prop :=
  ∀ (l : Launch) (now n : Nat),
    let g := newGroup l now n
    g.lanes.length = 32 ∧ g.nb = l.k.nb ∧ g.nbv = l.k.nbv ∧ g.bphase = 0 ∧ g.evm = 0 ∧ g.gst = 0 ∧ g.regions = [] ∧
      g.pend = [] ∧ g.park = .none ∧ g.ended = false ∧ g.stopped = false ∧ g.halted = false ∧ g.leaveHeld = 0 ∧
      (∀ j, (atD g.evs j EvEntry.reset).est = .disarmed) ∧ (∀ j, atD g.mbox j none = none) ∧
      (∀ j, atD g.guards j .unresolved = .unresolved) ∧ (∀ j, atD g.records j none = none) ∧ g.gsync = none ∧ g.retAddr = none ∧
      ∀ i, i < 32 → 32 * n + i < l.tsize →
        g.reg i 2 = loW l.args ∧ g.reg i 3 = hiW l.args ∧ (∀ r, r ≠ 2 → r ≠ 3 → g.reg i r = 0) ∧
        (∀ r, 0 < r → g.pred i r = false) ∧ g.pred i 0 = true ∧ (g.lane i).pc = l.k.entry ∧ (g.lane i).seen = l.start ∧
        (g.lane i).csp = 0xF000000000000000#64 + BitVec.ofNat 64 l.k.priv ∧ (g.lane i).helper = false ∧ (g.lane i).lst = .onPath

namespace Sys2Proof.Claims

open Sys2Proof Sys2Proof.Machine

/-- A path of a group that waits in a channel instruction: the lanes at the program counter of the lowest lane that waits. -/
def waitingPath (g : Group) (m : Mask) : Mask :=
  Mask.ofPred fun l => decide ((g.lane l).lst = .onPath) && (g.lane l).pc == (g.lane ((Mask.lowest m).getD 0)).pc

/-- The team is resident. -/
def resident (s : State) (tuid : Nat) : Prop := ∃ t, s.team? tuid = some t ∧ t.tst = .resident

/-- The place of element (r, j) of a command's side (R268): a global address, or an operand of its team's spaces. -/
def placeAt (s : State) (tuid spc : Nat) (base : DWord) (r stride j size : Nat) : EPlace :=
  let a := base.toNat + r * stride + j * size
  if spc = 0 then .glob (a % 2 ^ 64) else s.operandPlace tuid spc (a % 2 ^ 32) size

end Sys2Proof.Claims

/-! Device events: residency, commands. -/

/-- R256, R371, R372, R386, R46, R48, R51, R342: the moments of the device events that move groups and teams. Before its moment
an event changes nothing; a wave that is due is released; DEPL clears once the reserve has reached HIGH, and the first held operation
goes; a grant is given to a resident group of a cluster that is not depleted; the first team that waits and fits is placed; a team
moves only where every condition of Table 17-6 that concerns its partition, its clusters and its groups holds.
When an allowed event happens is the model's choice, log 5. -/
def Obligations.ResidencyEvents : Prop :=
  ∀ (s : State),
    (∀ cl, exec (.barrierWaveRelease cl) s =
      .next (if ∃ w ∈ (s.cluster cl).waves, w.at_ ≤ s.now then s.releaseWave cl else s)) ∧
    (∀ cl w, (s.cluster cl).waves = [w] → w.gks = [] →
      s.releaseWave cl = s.setCluster cl { s.cluster cl with waves := [] }) ∧
    (∀ cl, let x := s.cluster cl
      (x.depl = false ∨ x.level < x.rcHigh → exec (.deplClear cl) s = .next s) ∧
      (x.depl = true → x.rcHigh ≤ x.level → ∃ held, exec (.deplClear cl) s =
          .next (s.setCluster cl { x with depl := false, heldOps := held }) ∧ (∀ k ∈ held, k ∈ x.heldOps))) ∧
    (∀ gk g, s.group? gk = some g →
      (resident s (gk / 32) → g.leaveWant ≠ 0 → (s.cluster (s.coreOf gk / 8)).depl = false →
        exec (.leaveGrant gk) s = .next (s.updGroup gk fun g => { g with leaveHeld := g.leaveHeld ||| g.leaveWant, leaveWant := 0 })) ∧
      (¬resident s (gk / 32) ∨ g.leaveWant = 0 ∨ (s.cluster (s.coreOf gk / 8)).depl = true →
        exec (.leaveGrant gk) s = .next s)) ∧
    (∀ p, ((s.part p).pst ≠ .running → exec (.teamPlacement p) s = .next s) ∧
      ((s.part p).pst = .running → ∀ t, s.placeFirst (s.placing p) = some t → exec (.teamPlacement p) s = .next t) ∧
      (s.placeFirst (s.placing p) = none → exec (.teamPlacement p) s = .next s)) ∧
    (∀ tuid t l, s.team? tuid = some t → s.launch? t.launch = some l →
      (t.tst = .resident → l.classH = true → (s.part l.part).pst = .running →
        exec (.harvestEviction tuid) s =
          .next ([0, 1, 2, 3].foldl (fun u k => u.growStep t.core k) (s.evictTeam tuid))) ∧
      (t.tst ≠ .resident ∨ l.classH = false ∨ (s.part l.part).pst ≠ .running →
        exec (.harvestEviction tuid) s = .next s) ∧
      (t.tst ≠ .evicted ∨ (s.part l.part).pst ≠ .running ∨ s.teamLanded tuid = false →
        exec (.evictedTeamResume tuid) s = .next s) ∧
      (t.tst = .evicted → (s.part l.part).pst = .running → s.teamLanded tuid = true → t.reclaimed = false →
        exec (.evictedTeamResume tuid) s =
          .next (match s.resumeCore tuid with | some core => s.resumeOn tuid core | none => s)) ∧
      (t.tst = .evicted → (s.part l.part).pst = .running → s.teamLanded tuid = true → t.reclaimed = true →
        (s.teamGroups tuid).all (fun x => !x.2.regions.isEmpty) = true →
        exec (.evictedTeamResume tuid) s =
          .next (match s.resumeCore tuid with | some core => s.resumeOn tuid core | none => s)) ∧
      (∀ core, (exec (.hotSpotMigration tuid core) s = .next s ∨ exec (.hotSpotMigration tuid core) s = .next (s.moveTeam tuid core)) ∧
        (t.tst ≠ .resident ∨ (s.part l.part).mig = false ∨ (s.part l.part).pst ≠ .running ∨
            (s.cluster (t.core / 8)).temp < (s.cluster (t.core / 8)).thr.toNat % 4096 ∨
            (core / 8 ≠ t.core / 8 ∧ (s.cluster (core / 8)).thr.toNat % 4096 ≤ (s.cluster (core / 8)).temp) ∨
            (s.cluster (core / 8)).part ≠ l.part ∨
            core = t.core ∨ l.k.cshared = true ∨ (l.classH = false ∧ (s.part l.part).migg = false) ∨
            (t.movedAt ≠ 0 ∧ s.now - t.movedAt < 205000) →
          exec (.hotSpotMigration tuid core) s = .next s)))

/-- R224, R225, R73: a group that waits in `chan.send` or `chan.recv` goes on once it is resident and every slot that it asks for is
free or filled, where the banks are ON; before that nothing changes. -/
def Sys2Proof.Claims.ChannelDeliveries : Prop :=
  ∀ (s : State) (gk : Nat) (g : Group) (h : Hdr) (k : BitVec 4) (a b d p : Reg) (m : Mask) (c : Ctx), s.group? gk = some g →
    let u := s.updGroup gk fun g => { g with park := .none }
    u.ctxFor gk (waitingPath g m) = some c →
    (g.park = .chanSend (.chanSend h k a b p) m →
      (resident s (gk / 32) → c.sendReady u k.toNat m a = true → c.sendAsleep u k.toNat m a = [] →
        ∃ t, exec (.chanSendDelivery gk) s = .next t ∧ Advanced c (.chanSend h k a b p) (c.send k.toNat m a b p u) t) ∧
      (¬resident s (gk / 32) ∨ c.sendReady u k.toNat m a = false → exec (.chanSendDelivery gk) s = .next s)) ∧
    (g.park = .chanRecv (.chanRecv h k d) m →
      let x := c.t.inst k.toNat
      (resident s (gk / 32) → Mask.count m ≤ x.q.length → (∀ y ∈ u.instBanks c.tuid k.toNat, (u.bank y).pwr = .on) →
        ∃ t, exec (.chanRecvDelivery gk) s = .next t ∧ Advanced c (.chanRecv h k d) (c.recv k.toNat m d u) t) ∧
      (¬resident s (gk / 32) ∨ x.q.length < Mask.count m → exec (.chanRecvDelivery gk) s = .next s)) ∧
    (g.park = .none → exec (.chanSendDelivery gk) s = .next s ∧ exec (.chanRecvDelivery gk) s = .next s)

/-- R266, R267, R104, R254: a 16-byte store whose active real lanes all name the aperture and pass the checks issues one command a
lane, in ascending order, where the channels have room, and waits where one has not. A command joins its queue with the next number of
the timeline, counts at its barrier, and clears the presence bits of its destination; where it is at the head of its queue it takes
the value that its slot has. -/
def Sys2Proof.Claims.CommandsJoinQueues : Prop :=
  (∀ (h : Hdr) (x : StArgs) (gsl : BitVec 4) s c, Issues (.st h x gsl) s c → s.stuck = none → x.ty = .b128 →
    let real := c.active (.st h x gsl) s &&& c.g.real
    let data := fun l => c.data s l x.d x.ty
    let ea := fun l => (c.addr s l .gen x.a x.disp).toNat
    (∀ l, real.getLsbD l = true → ∃ k r, c.check s l .gen (c.addr s l .gen x.a x.disp) 16 .write true (gsl.getLsbD 3) false = .ok (.command k) ∧
      c.cmdReq s (ea l) (data l) = .inr r) →
    let xs := placesOf real fun l => c.storeChk s .gen x gsl l
    (c.fullChan s xs = none → ∃ t v, exec (.st h x gsl) s = .next t ∧ Noted s v ∧
      Advanced c (.st h x gsl) (xs.foldl (fun u q =>
        match q.2, c.cmdReq s (ea q.1) (data q.1) with
        | .command k, .inr r => c.issueCmd q.1 k gsl r u
        | _, _ => u) v) t) ∧
    (∀ ch n, c.fullChan s xs = some (ch, n) →
      exec (.st h x gsl) s = .next (c.holdLanes c.path (.queue ch n) s) ∧ s.chanRoom ch < n)) ∧
  (∀ (c : Ctx) (l k : Nat) (gsl : BitVec 4) (r : CmdReq) (s : State),
    let ch := c.chanKey k
    let t := c.issueCmd l k gsl r s
    ∃ x : Cmd, (t.chan ch).queue = (s.chan ch).queue ++ [x] ∧ (t.chan ch).nextNum = (s.chan ch).nextNum + 1 ∧
      (t.chan ch).value = (s.chan ch).value ∧ x.num = (s.chan ch).nextNum ∧ x.kind = r.t.kind ∧ x.gk = c.gk ∧ x.tuid = c.tuid ∧
      x.sfmt = r.t.sfmt ∧ x.dfmt = r.t.dfmt ∧ x.rows = r.rows ∧ x.rlen = r.t.rlen ∧ x.sbase = dwordOf r.sbase ∧
      x.dbase = dwordOf r.dbase ∧
      (gsl.getLsbD 3 = false → x.guard = none ∧ x.discard = false) ∧
      (gsl.getLsbD 3 = true → (s.chan ch).queue ≠ [] → x.guard = some (gsl.toNat % 8) ∧ x.discard = false) ∧
      (∀ g, gsl.getLsbD 3 = true → (s.chan ch).queue = [] → s.group? c.gk = some g →
        let slot := atD g.guards (gsl.toNat % 8) .unresolved
        x.guard = (if slot = .unresolved then some (gsl.toNat % 8) else none) ∧ x.discard = decide (slot = .isFalse)) ∧
      x.bar = (if r.nobar then none else r.t.bar) ∧ x.ran = false ∧ x.cursor = 0 ∧
      (∀ ch', ch' ≠ ch → t.chan ch' = s.chan ch') ∧ t.mem = s.mem ∧ t.sram = s.sram ∧ t.groups = s.groups)

/-- R68, R102, R268: one granule of a copy or gather, or one element where it fills granules: its elements are read from the source
row, or from the row that the index names, converted, and written together at the destination, and the cursor goes on; an element of a
reduce-store joins the updates that are to be applied. What the engine notes of its accesses no program can read. -/
def Sys2Proof.Claims.CommandElementResult : Prop :=
  (∀ (s : State) (ch : Nat) (c : Cmd) (w : Bool) (pl : EPlace) (size : Nat), Noted s (s.engineNote ch c w pl size)) ∧
  (∀ (s u : State) (ch : Nat) (c : Cmd) (row j n w x : Nat),
    let src := placeAt s c.tuid c.sspc c.sbase row c.sstride j c.sfmt.bytes
    let m := 2 ^ (8 * c.dfmt.bytes)
    readRun ch c row j 0 s = .inl (s, 0) ∧
    (s.readElem (s.cmdPart c) (s.cmdCore c) src c.sfmt.bytes = .ok w →
      readRun ch c row (j + 1) n (s.engineNote ch c false src c.sfmt.bytes) = .inl (u, x) →
      readRun ch c row j (n + 1) s = .inl (u, cvElem c.sfmt c.dfmt c.sat c.inf w % m + m * x))) ∧
  ∀ (s t u : State) (ch : Nat) (c : Cmd) (row x : Nat), 0 < c.rlen →
    let r := c.cursor / c.rlen
    let j := c.cursor % c.rlen
    let off := c.dbase.toNat + r * c.dstride + j * c.dfmt.bytes
    let n := if c.dfmt.bytes ≥ 4 then 1 else max 1 (min (c.rlen - j) ((4 - off % 4) / c.dfmt.bytes))
    let src := placeAt s c.tuid c.sspc c.sbase row c.sstride j c.sfmt.bytes
    let dst := placeAt s c.tuid c.dspc c.dbase r c.dstride j c.dfmt.bytes
    (c.kind = .gather → s.readElem (s.cmdPart c) (s.cmdCore c)
      (placeAt s c.tuid c.sspc c.ibase r (if c.idx64 then 8 else 4) 0 (if c.idx64 then 8 else 4)) (if c.idx64 then 8 else 4) = .ok row) →
    (c.kind ≠ .gather → row = r) →
    (c.kind = .copy ∨ c.kind = .gather → s.asleep [src, dst] = [] → readRun ch c row j n s = .inl (u, x) →
      u.writeElem (u.cmdPart c) (u.cmdCore c) (placeAt u c.tuid c.dspc c.dbase r c.dstride j c.dfmt.bytes) (n * c.dfmt.bytes) x = .ok t →
      ∃ v old, Noted t v ∧ s.elemStep ch c = (v, { c with cursor := c.cursor + n, undo := old ++ c.undo }, .more)) ∧
    (c.kind = .reduceStore → s.asleep [src] = [] → readRun ch c row j 1 s = .inl (u, x) →
      s.elemStep ch c = (u, { c with
        cursor := c.cursor + 1, stagedV := c.stagedV ++ [(off % 2 ^ 64, BitVec.ofNat 128 x)] }, .more))

/-- R104, R105, R265, R268, R270, R275, R337, R364, R365: the command at a queue head runs in the event of its kind, where its guard,
its region and its turn let it; once its elements are moved it has run; a chunk may end before; it then completes, leaves its queue and
counts on the timeline; under a FALSE guard it completes without running. A staged command whose region has ended is applied first. In
any other case the event changes nothing. The virtual queue of an evicted team is written back whenever it changes.
What a collective meets is logs 16 and 48. -/
def Obligations.CommandRunResult : Prop :=
  ∀ (s : State) (ch : Nat) (c : Cmd) (q : List Cmd), s.stuck = none → (s.chan ch).queue = c :: q →
    let c0 := { c with guard := none }
    let runs := s.headRuns ch
    let back := s.syncQueue ch
    let tail := (s.setChan ch { s.chan ch with queue := q }).setPresence c
    let team := (ch - 2 ^ 20) / 16
    (∀ t : State,
      (ch < 2 ^ 20 ∨ t.chan ch = s.chan ch → back t = t) ∧
      (2 ^ 20 ≤ ch → t.chan ch ≠ s.chan ch → t.teamSt? team = some .evicted → back t = t.writeQueue team (ch % 16)) ∧
      (t.teamSt? team ≠ some .evicted → back t = t)) ∧
    (∀ k i, (k = CmdKind.copy ∧ i = .copy ch) ∨ (k = .gather ∧ i = .gather ch) ∨ (k = .multicast ∧ i = .multicastRead ch) →
      (c.kind ≠ k ∨ runs = false → exec i s = .next s) ∧
      (c.kind = k → runs = true → c.gmerge = false → c.cursor < c.total → ∀ (s' : State) (c' : Cmd),
        s.runElems (c.total - c.cursor) ch c0 = (s', c', .done) → c'.kind = k →
        let t := back ((s'.setPresence c').setHead ch { c' with ran := true })
        t.stuck = none → exec i s = .next t)) ∧
    (∀ y, s.lateStaged ch = some y → (back (s.applyStagedCmd ch y)).stuck = none →
      exec (.reduceStore ch) s = .next (back (s.applyStagedCmd ch y))) ∧
    (s.lateStaged ch = none → c.gmerge = true ∨ c.kind ≠ .reduceStore ∨ runs = false → exec (.reduceStore ch) s = .next s) ∧
    (s.lateStaged ch = none → c.gmerge = false → c.kind = .reduceStore → runs = true → c.cursor < c.total → ∀ (s' : State) (c' : Cmd),
      s.runElems (c.total - c.cursor) ch c0 = (s', c', .done) → c'.kind = .reduceStore →
      (back (s'.applyHead ch c')).stuck = none → exec (.reduceStore ch) s = .next (back (s'.applyHead ch c'))) ∧
    (c.gmerge = false ∨ c.kind ≠ .reduceStore ∨ runs = false → exec (.mergeRound ch) s = .next s) ∧
    (c.gmerge = true → c.kind = .reduceStore → runs = true → c.cursor < c.total → ∀ (s' : State) (c' : Cmd),
      s.takeMerge ch c0 = (s', c', .done) → c'.kind = .reduceStore →
      (back (s'.applyHead ch c')).stuck = none → exec (.mergeRound ch) s = .next (back (s'.applyHead ch c'))) ∧
    (∀ n, (c.kind = .collective ∨ runs = false → exec (.commandChunkEnd ch n) s = .next s) ∧
      (c.kind ≠ .collective → runs = true → c.gmerge = false → c.cursor < c.total → ∀ (s' : State) (c' : Cmd),
        s.runElems n ch c0 = (s', c', .more) →
        let t := back ((s'.landLines c').setHead ch c')
        t.stuck = none → exec (.commandChunkEnd ch n) s = .next t)) ∧
    (c.ran = false ∨ s.cmdPaused c = true ∨ s.cmdRemotes ch c.num = true → exec (.commandComplete ch) s = .next s) ∧
    (c.ran = true → s.cmdPaused c = false → s.cmdRemotes ch c.num = false →
      let told := if c.errored then tail.raiseEntry (tail.cmdPart c) (tail.cmdEntry ch c .engineError c.errVa c.errW) else tail
      let t := back ((told.endMcasts ch c).finishCmd ch c)
      t.stuck = none → exec (.commandComplete ch) s = .next t) ∧
    (c.ran = true ∨ s.cmdPaused c = true ∨ s.cmdRemotes ch c.num = true ∨ (c.discard = false ∧ s.guardOf c ≠ some .isFalse) →
      exec (.commandDiscard ch) s = .next s) ∧
    (c.ran = false → s.cmdPaused c = false → s.cmdRemotes ch c.num = false → c.discard = true ∨ s.guardOf c = some .isFalse →
      let t := back ((tail.endMcasts ch c).finishCmd ch c)
      t.stuck = none → exec (.commandDiscard ch) s = .next t) ∧
    (c.kind ≠ .collective ∨ runs = false → exec (.collective ch) s = .next s) ∧
    (c.kind = .collective → runs = true → s.svc = .reduced →
      let t := back (s.setHead ch { c with ran := true, errored := true, stagedV := [] })
      t.stuck = none → exec (.collective ch) s = .next t) ∧
    (∀ x, c.kind = .collective → runs = true → s.svc ≠ .reduced → (s.colls.find? fun y => y.ch == ch && y.num == c.num) = some x →
      (back (s.collGo ch c x)).stuck = none → exec (.collective ch) s = .next (back (s.collGo ch c x))) ∧
    (c.kind = .collective → runs = true → s.svc ≠ .reduced → (s.colls.find? fun y => y.ch == ch && y.num == c.num) = none →
      ∀ (s' : State) (c' : Cmd), s.runElems (c.total + 1) ch c0 = (s', c', .done) →
      (back (s'.collStart ch c')).stuck = none → exec (.collective ch) s = .next (back (s'.collStart ch c'))) ∧
    (let lim := (s.part (s.cmdPart c)).cTimeout;
      (c.kind ≠ .collective ∨ c.ran = true ∨ lim = 0 ∨ s.ptime < c.issued + 1000 * lim → exec (.collectiveTimeout ch) s = .next s) ∧
      ∀ x, c.kind = .collective → c.ran = false → lim ≠ 0 → c.issued + 1000 * lim ≤ s.ptime →
        (s.colls.find? fun y => y.ch == ch && y.num == c.num) = some x →
        let t := back ((s.collFree ch c x).collFail ch c x)
        t.stuck = none → exec (.collectiveTimeout ch) s = .next t)

/-- R104: a command that completes is counted; the timeline's value rises over the completed numbers that follow it, and the highest
number in error is kept. -/
def Sys2Proof.Claims.TimelineAdvances : Prop :=
  ∀ (s : State) (ch : Nat) (c : Cmd),
    let x := s.chan ch
    let y := (s.finishCmd ch c).chan ch
    y.errNum = (if c.errored then max x.errNum c.num else x.errNum) ∧ y.queue = x.queue ∧ y.nextNum = x.nextNum ∧
      x.value ≤ y.value ∧ (∀ n, x.value < n → n ≤ y.value → n = c.num ∨ n ∈ x.doneNums) ∧
      (c.num = x.value + 1 → x.value < y.value) ∧ (c.num ≠ x.value + 1 → x.value + 1 ∉ x.doneNums → y.value = x.value)

namespace Sys2Proof.Claims

open Sys2Proof Sys2Proof.Machine

/-- The queue after a fire of its timer that takes nothing (R322). -/
def missed (x : Queue) : Queue := { x with fires := x.fires + 1, miss := min (x.miss + 1) 4294967295, stat := x.stat ||| 4 }

/-- The outcome of a stream-context command (R324). -/
def scOutcome (s : State) (cmd e st : Nat) : State := { s with scCmd := BitVec.ofNat 32 (cmd + 16 * e), scStat := st }

/-- The fields of QCTL beyond EN, as a write gives them (Table 16-3). -/
def withCtl (x : Queue) (v : Word) : Queue :=
  { x with
    classH := v.getLsbD 1, prio := v.toNat / 4 % 8, log2s := v.toNat / 32 % 32, steal := v.getLsbD 10, timer := v.getLsbD 11
    streamq := v.getLsbD 12 }

end Sys2Proof.Claims

/-! Device events: queues, the take unit, the tape, timers, streams. -/

/-- R280, R311, R312: a write of QTAIL is accepted where it lies above the tail and at most a ring above the head, and notes OVERRUN
beyond that; a write of QCTL reaches the other fields only where EN reads 0, and EN rises only where no row of R312 refuses it. -/
def Sys2Proof.Claims.QueueRegisterWrites : Prop :=
  ∀ (s : State) (p q : Nat), p < 8 → q < 64 →
    let x := s.queue p q
    (∀ v : DWord, let top := x.head + 2 ^ x.log2s
      ∃ t, exec (.qtailWrite p q v) s = .next t ∧ t = { s with parts := t.parts } ∧
        (t.queue p q).tail = (if x.tail < v.toNat ∧ v.toNat ≤ top then v.toNat else x.tail) ∧
        (t.queue p q).stat = (if top < v.toNat then x.stat ||| 1 else x.stat) ∧ (t.queue p q).head = x.head ∧
        ∀ q', q' ≠ q → t.queue p q' = s.queue p q') ∧
    (∀ v : Word,
      (x.en = true → exec (.qctlWrite p q v) s =
        .next (s.setQueue p q { x with en := v.getLsbD 0, fireDue := if v.getLsbD 0 then x.fireDue else none })) ∧
      (x.en = false → v.getLsbD 0 = false → exec (.qctlWrite p q v) s = .next (s.setQueue p q (withCtl x v))) ∧
      (x.en = false → v.getLsbD 0 = true →
        let others := ((s.part p).queues.filter fun y => y.1 ≠ q && y.2.en && y.2.steal).length
        let refused := 16 < v.toNat / 32 % 32 ∨ (v.getLsbD 10 = true ∧ (v.getLsbD 1 = true ∨ 8 ≤ others)) ∨
          (v.getLsbD 11 = true ∧ v.getLsbD 12 = true)
        (refused → exec (.qctlWrite p q v) s = .next (s.setQueue p q { withCtl x v with stat := x.stat ||| 2, rej := 15 })) ∧
        (¬refused → ∃ n, exec (.qctlWrite p q v) s = .next (s.setQueue p q { withCtl x v with en := true, fires := n }))))

/-- R106, R314, R315, R316, R308: a running partition asks other packages for what its head candidates lack, and takes the eligible head candidate that the order of R314 prefers, if there is one. A
record of a ring that nothing rejects becomes a launch with the next number and its fields, and QHEAD and the number rise; a
rejected one starts nothing and sets QSTAT.REJECT and QREJ. -/
def Sys2Proof.Claims.TakeRecordResult : Prop :=
  ∀ (s : State) (p : Nat),
    let s' := s.askTakes p
    ((s.part p).pst ≠ .running → exec (.takeRecord p) s = .next s) ∧
    ((∀ q ∈ s.takeQueues p, (s.queue p q).en = true → ∀ c ∈ s.heads p q, (s.readyCand p c).wait = []) → s' = s) ∧
    ((s.part p).pst = .running → s'.choose p = none → exec (.takeRecord p) s = .next s') ∧
    ∀ c, (s.part p).pst = .running → s'.choose p = some c → c.source = .ring → c.sr = StoreRec.blank c.q →
      let x := s'.queue p c.q
      let u := (s'.setPart p { s'.part p with nextTake := (s'.part p).nextTake + 1, lastTaken := c.q }).setQueue p c.q
        { x with head := x.head + 1, pubs := x.pubs.drop 1, nextNum := x.nextNum + 1, fireDue := none }
      let rejected := fun (cause : Nat) =>
        ∃ t, exec (.takeRecord p) s = .next t ∧ t.launches = s'.launches ∧ t.nextUid = s'.nextUid ∧
          (t.queue p c.q).head = x.head + 1 ∧ (t.queue p c.q).stat = x.stat ||| 2 ∧
          (t.queue p c.q).rej = BitVec.ofNat 32 (cause + 256 * x.nextNum)
      (c.bytes = none → rejected 12) ∧
      ∀ bs, c.bytes = some bs → recField bs 0x16 1 / 2 % 2 = 0 →
        (∀ k, u.checkRec p c bs = (0, some k) →
          ∃ t l, exec (.takeRecord p) s = .next t ∧ t.launch? s'.nextUid = some l ∧ t.nextUid = s'.nextUid + 1 ∧
            l.part = p ∧ l.queue = c.q ∧ l.num = x.nextNum ∧ l.seq = (s'.part p).nextTake ∧ l.classH = x.classH ∧ l.k = k ∧
            l.teams = recField bs 0x10 4 ∧ l.tsize = recField bs 0x14 2 ∧ l.args.toNat = recField bs 8 8 ∧ l.placed = 0 ∧
            l.ended = false ∧ l.persist = (recField bs 0x16 1 % 2 == 1) ∧
            (t.queue p c.q).head = x.head + 1 ∧ (t.queue p c.q).nextNum = x.nextNum + 1) ∧
        (∀ cause k, u.checkRec p c bs = (cause, k) → cause ≠ 0 → rejected cause)

/-- R319, R322: a cut record is popped into the store, in its turn, with its place returned; a timer whose fire time has come makes its
record due, or counts a miss, and passes no fire before its time. -/
def Sys2Proof.Claims.TapeAndTimerEvents : Prop :=
  ∀ (s : State) (p : Nat),
    ((s.part p).cut = [] → exec (.tapePop p) s = .next s) ∧
    (∀ y ys, (s.part p).cut = y :: ys → ys ≠ [] →
      ∃ (t : State) (r : StoreRec), exec (.tapePop p) s = .next t ∧ t = { s with parts := t.parts } ∧
        t.part p = { s.part p with
          cut := ys, cutPrior := (t.part p).cutPrior, store := (s.part p).store ++ [r], plsRes := (s.part p).plsRes - 1 } ∧
        r.queue = y.rq % 64 ∧ r.prior = (s.part p).cutPrior ∧ r.popOrder = (t.part p).cutPrior ∧ r.popOrder ≠ none ∧
        r.tapeH = y.tapeH ∧ (y.rq < 64 → r.bytes = y.bytes)) ∧
    ∀ q, let x := s.queue p q
      let at_ := x.tstart.toNat + x.fires * x.tperiod.toNat
      let armed := x.en = true ∧ x.timer = true ∧ x.tperiod ≠ 0
      (¬armed ∨ s.ptime < at_ → exec (.timerFire p q) s = .next s) ∧
      (armed → at_ ≤ s.ptime → s.svc = .reduced → exec (.timerFire p q) s = .next (s.setQueue p q { x with fires := x.fires + 1 })) ∧
      (armed → at_ ≤ s.ptime → s.svc ≠ .reduced → (s.part p).pst = .running → (∃ c, s.candOf p q = some c) → x.fireDue = none →
        exec (.timerFire p q) s = .next (s.setQueue p q { x with fires := x.fires + 1, fireDue := some at_ })) ∧
      (armed → at_ ≤ s.ptime → s.svc ≠ .reduced → (s.part p).pst ≠ .running ∨ s.candOf p q = none →
        exec (.timerFire p q) s = .next (s.setQueue p q (missed x)))

/-- R324, R325, R326 (Table 16-6): the stream-context commands by the entry's state, the fires of a bound entry, and the ends of an
eviction and of a reload. -/
def Sys2Proof.Claims.StreamEvents : Prop :=
  ∀ (s : State) (e : Nat), let x := s.stream e
    (x.sst ≠ .free → exec (.bind e) s = .next (scOutcome s 1 e 1)) ∧
    (x.sst = .free → s.svc ≠ .reduced → s.readStream e = none → exec (.bind e) s = .next (scOutcome s 1 e 2)) ∧
    (∀ y, x.sst = .free → s.svc ≠ .reduced → s.readStream e = some y →
      ∃ t, exec (.bind e) s = .next t ∧ t.stream e = y ∧ y.sst = .evicted ∧ y.silcnt = 0 ∧ t.scStat = 0) ∧
    (x.sst = .evicted ∨ x.sst = .idle → ∃ t, exec (.unbind e) s = .next t ∧ (t.stream e).sst = .free ∧ (t.stream e).banks = [] ∧
      t.scStat = 0 ∧ ∀ r ∈ (t.part x.part).fires, r.stream ≠ some e) ∧
    (x.sst = .free ∨ x.sst = .active ∨ x.sst = .evicting → exec (.unbind e) s = .next (scOutcome s 2 e 1)) ∧
    (x.sst = .free → exec (.chunk e) s = .next (scOutcome s 3 e 1)) ∧
    (x.sst ≠ .free → ∃ t, exec (.chunk e) s = .next t ∧ t.scStat = 0 ∧
      t.stream e = { x with
        lastChunk := s.ptime, rld := x.rld || decide (x.sst = .evicted), chunkWaits := x.chunkWaits || decide (x.sst = .evicting) }) ∧
    (let at_ := x.tstart.toNat + x.fires * x.tperiod;
      (x.sst = .free ∨ s.ptime < at_ → exec (.streamFire e) s = .next s) ∧
      (x.sst ≠ .free → at_ ≤ s.ptime →
        let fresh := if x.fires = 0 then x.lastChunk ≠ 0 else at_ < x.lastChunk + x.tperiod
        let n := min (x.silcnt + 1) 65535
        (fresh → ∃ (t : State) (r : StoreRec), exec (.streamFire e) s = .next t ∧ t.stream e = { x with silcnt := 0, fires := x.fires + 1 } ∧
          (t.part x.part).fires = (s.part x.part).fires ++ [r] ∧ r.queue = x.queue ∧ r.stream = some e ∧ r.fireAt = at_ ∧
          r.addr = x.tlrec) ∧
        (¬fresh → ∃ t, exec (.streamFire e) s = .next t ∧ t.parts = s.parts ∧
          t.stream e = { x with
            silcnt := n, fires := x.fires + 1, sst := if x.sst = .idle ∧ x.silence < n then .evicting else x.sst }))) ∧
    (x.sst ≠ .evicting → s.stuck = none → exec (.streamEvictionComplete e) s = .next s) ∧
    (x.sst = .evicting → s.stuck = none → (x.backing.toNat % 2 ^ 48 + 131072 * x.banks.length ≤ hbmBytes) →
      ∃ t, exec (.streamEvictionComplete e) s = .next t ∧ (t.stream e).sst = .evicted ∧ (t.stream e).banks = [] ∧
        (t.stream e).rld = x.chunkWaits ∧ ∀ b ∈ x.banks, (t.bank b).owner = .none) ∧
    (x.sst ≠ .evicted ∨ x.rld = false ∨ s.reloadCluster e = none → exec (.streamReloadComplete e) s = .next s) ∧
    (∀ k, x.sst = .evicted → x.rld = true → s.reloadCluster e = some k →
      ∃ t, exec (.streamReloadComplete e) s = .next t ∧ (t.stream e).sst = .idle ∧ (t.stream e).place = k ∧ (t.stream e).rld = false ∧
        (t.stream e).banks = (s.poolBanks k).take x.nbanks)

namespace Sys2Proof.Claims

open Sys2Proof Sys2Proof.Machine

/-- A state with one partition's unit changed. -/
def withPart (s : State) (p : Nat) (f : Part → Part) : State := s.setPart p (f (s.part p))

/-- A group of the partition is held by the debugger. -/
def someHalted (s : State) (p : Nat) : Prop := s.anyHalted p = true

/-- A group after REPLAY of its entry: it issues the instruction again (R331). -/
def replayed (g : Group) : Group :=
  { g with stopped := false, park := if g.park = .fault then .none else g.park, trapNext := none }

/-- The result of SWAP (R340): the first row that applies. -/
def swapResult (s : State) (p inp : Nat) : Nat :=
  let mine := s.clustersOf p
  if (s.part p).pst ≠ .running ∨ ((span 0 8).any fun q => (s.part q).swapIn.isSome) = true then 1
  else if 3 < (mine.filter fun c => decide (c < 24)).length ∨ 3 < (mine.filter fun c => decide (24 ≤ c)).length then 2
  else if 9 ≤ inp then 5
  else if inp = p ∨ (inp < 8 ∧ (s.part inp).pst ≠ .shadow) then 3
  else if inp < 8 ∧ (s.part inp).shape ≠ mine then 4
  else 0

/-- A key command that cannot run, or that does nothing (R348). -/
def keyNoted (s : State) (cmd id part res : Nat) : State :=
  { s with keyCmd := BitVec.ofNat 32 (cmd + 8 * id + 16384 * part), keyBusy := decide (res ≠ 3), keyRes := res, keyNext := none }

end Sys2Proof.Claims

/-! Device events: the fault ring, responses, pre-emption, debugging, clusters. -/

/-- R329, R332: a write of FQHEAD counts only within the entries posted; a write of FQCTL sets the ring, and one that raises EN numbers
entries from 1. Where entries wait, they are posted as there is room. -/
def Sys2Proof.Claims.FaultRingWrites : Prop :=
  ∀ (s : State) (p : Nat), p < 8 → s.stuck = none →
    let pt := s.part p
    (∀ v : DWord,
      (v.toNat ≤ pt.fqHead ∨ pt.fqTail < v.toNat → exec (.fqheadWrite p v) s = .next s) ∧
      (pt.fqHead < v.toNat → v.toNat ≤ pt.fqTail → pt.wantPost = [] → pt.hold = [] →
        exec (.fqheadWrite p v) s = .next (withPart s p fun x => { x with fqHead := v.toNat })) ∧
      (∀ e, pt.fqHead < v.toNat → v.toNat ≤ pt.fqTail → pt.wantPost = [e] → pt.hold = [] → pt.fqEn = true →
        pt.fqTail - v.toNat + e.size ≤ 2 ^ pt.fqLog2n →
        ∃ t, exec (.fqheadWrite p v) s = .next t ∧ (t.part p).wantPost = [] ∧ (t.part p).fqTail = pt.fqTail + e.size ∧
          (t.part p).nextSeq = pt.nextSeq + 1)) ∧
    (∀ v : Word, let log2n := if 6 ≤ v.toNat / 4 % 32 ∧ v.toNat / 4 % 32 ≤ 16 then v.toNat / 4 % 32 else pt.fqLog2n
      (v.getLsbD 0 = false ∨ pt.fqEn = true →
        exec (.fqctlWrite p v) s = .next (withPart s p fun x => { x with fqEn := v.getLsbD 0, fqIe := v.getLsbD 1, fqLog2n := log2n })) ∧
      (v.getLsbD 0 = true → pt.fqEn = false → pt.wantPost = [] → pt.hold = [] →
        exec (.fqctlWrite p v) s = .next (withPart s p fun x => { x with
          fqEn := true, fqIe := v.getLsbD 1, fqLog2n := log2n, nextSeq := 1, posted := 0, posts := []
          outstanding := x.outstanding.map fun y => (0, y.2) })))

/-- R331: a response to no entry that was posted, to a class that takes none, or SKIP to any cause but TRAP sets BADRESP; to one no longer
outstanding, STALE. REPLAY makes the group issue its instruction again, SKIP makes the lanes at a `trap` go on after it, and KILL
ends the launch; the entry answered is outstanding no more. -/
def Sys2Proof.Claims.ResponsesTaken : Prop :=
  ∀ (s : State) (p : Nat) (seq : Word) (act : Nat) (i : Instr), p < 8 → s.stuck = none →
    (act = 1 ∧ i = .replay p seq) ∨ (act = 2 ∧ i = .replayPage p seq) ∨ (act = 3 ∧ i = .skip p seq) ∨ (act = 4 ∧ i = .kill p seq) →
    let u := withPart s p fun x => { x with fqResp := BitVec.ofNat 64 (seq.toNat + act * 2 ^ 32) }
    let pt := s.part p
    (SMap.find pt.posts seq.toNat = none → exec i s = .next (withPart u p fun x => { x with fqStat := x.fqStat ||| 4 })) ∧
    ∀ cause, SMap.find pt.posts seq.toNat = some cause →
      (cause.cls = .note ∨ cause.cls = .done ∨ (act = 3 ∧ cause ≠ .trap) →
        exec i s = .next (withPart u p fun x => { x with fqStat := x.fqStat ||| 4 })) ∧
      (cause.cls = .replay ∨ cause.cls = .stop → (act = 3 → cause = .trap) →
        (pt.outstanding.find? fun x => x.1 == seq.toNat) = none →
        exec i s = .next (withPart u p fun x => { x with fqStat := x.fqStat ||| 8 })) ∧
      ∀ e gk g, cause.cls = .replay ∨ cause.cls = .stop → (act = 3 → cause = .trap) →
        (pt.outstanding.find? fun x => x.1 == seq.toNat) = some (seq.toNat, e) → e.target = .group gk → s.group? gk = some g →
        let v := withPart u p fun x => { x with
          outstanding := x.outstanding.filter fun y => !(y.2 == e)
          wantPost := x.wantPost.map fun y => if y == e then { y with target := .none } else y }
        (act = 1 → ∃ t, exec i s = .next t ∧ t.group? gk = some (replayed g) ∧ t = { v with groups := t.groups } ∧
          ∀ k, k ≠ gk → t.group? k = s.group? k) ∧
        (act = 2 → (∀ y ∈ pt.outstanding, y.2.info.cause.cls = .replay → y.2 = e) →
          ∃ t, exec i s = .next t ∧ t.group? gk = some (replayed g) ∧ t = { v with groups := t.groups }) ∧
        (act = 3 → ∀ a n, g.trapNext = some (a, n) →
          ∃ t g', exec i s = .next t ∧ t = { v with groups := t.groups } ∧ t.group? gk = some g' ∧ g'.stopped = false ∧ g'.trapNext = none ∧
            ∀ l, l < 32 → l < g.lanes.length →
              (g'.lane l).pc = if (g.lane l).onSome = true ∧ (g.lane l).pc = a then n else (g.lane l).pc) ∧
        (act = 4 → ∀ t, s.team? (gk / 32) = some t →
          let w := (u.dropOutstanding p fun x => u.entryLaunch x == some t.launch).killLaunch t.launch
          w.stuck = none → exec i s = .next w)

/-- R333, R334, R335, R340, Table 17-1: PREEMPT and SWAP are turned away by their rows, held while a debugger holds a group, and
otherwise stop the partition; the save and the exchange wait for its stop; RESUME runs a SAVED partition that has clusters; and a
time slice that has passed does what TSACT says. -/
def Sys2Proof.Claims.PreemptionEvents : Prop :=
  ∀ (s : State) (p : Nat), p < 8 → s.stuck = none →
    let pt := s.part p
    let pre := withPart s p fun x => { x with pcmdCmd := 1 }
    let res := withPart s p fun x => { x with pcmdCmd := 2 }
    (pt.pst ≠ .running → exec (.preempt p) s = .next (withPart pre p fun x => { x with res := 1 })) ∧
    (pt.pst = .running → someHalted s p → exec (.preempt p) s = .next (withPart pre p fun x => { x with held := some 1 })) ∧
    (pt.pst = .running → ¬someHalted s p →
      exec (.preempt p) s = .next (pre.stopPart p) ∧ ((pre.stopPart p).part p).pst = .stopping) ∧
    (s.stopDone p = false ∨ pt.swapIn ≠ none → exec (.preemptSave p) s = .next s) ∧
    (s.stopDone p = true → pt.swapIn = none →
      let u := ((s.takeImage p false).saveTeams p .saved).writeSave p
      u.stuck = none → exec (.preemptSave p) s = .next (withPart u p fun x => { x with pst := .saved, res := 0 })) ∧
    (pt.pst ≠ .saved ∨ s.clustersOf p = [] → exec (.resume p) s = .next (withPart res p fun x => { x with res := 1 })) ∧
    (pt.pst = .saved → s.clustersOf p ≠ [] →
      (pt.image = false → ∃ t, exec (.resume p) s = .next t ∧ (t.part p).pst = .running ∧ (t.part p).res = 0 ∧ (t.part p).image = false ∧
        t.teams = s.teams ∧ t.groups = s.groups) ∧
      ((res.resumePart p).stuck = none → exec (.resume p) s = .next (res.resumePart p))) ∧
    (∀ inp, let cmd := withPart s p fun x => { x with pcmdCmd := 3, pcmdIn := inp }
      let r := swapResult s p inp
      (r ≠ 0 → exec (.swap p inp) s = .next (withPart cmd p fun x => { x with res := r })) ∧
      (r = 0 → someHalted s p → exec (.swap p inp) s = .next (withPart cmd p fun x => { x with held := some (16 + inp) })) ∧
      (r = 0 → ¬someHalted s p →
        exec (.swap p inp) s = .next (withPart (cmd.stopPart p) p fun x => { x with swapIn := some inp, res := 0 }))) ∧
    (pt.swapIn = none ∨ s.stopDone p = false → exec (.swapExchange p) s = .next s) ∧
    (pt.swapIn = some 8 → s.stopDone p = true →
      let v := (s.shadowsOver (s.clustersOf p) [p, 8]).foldl State.loseShadow s
      let u := withPart ((v.takeImage p true).saveTeams p .shadow) p fun x => { x with pst := .shadow, swapIn := none, res := 0 }
      u.stuck = none →
        exec (.swapExchange p) s = .next ((s.clustersOf p).foldl (fun v c => v.setCluster c { v.cluster c with part := 15 }) u)) ∧
    (pt.tslice = 0 ∨ s.ptime < pt.sliceStart + pt.tslice.toNat → exec (.timeSliceExpiry p) s = .next s) ∧
    (pt.tslice ≠ 0 → pt.sliceStart + pt.tslice.toNat ≤ s.ptime →
      let u := withPart s p fun x => { x with sliceStart := s.ptime }
      (pt.tsact ≠ 1 → pt.tsact ≠ 2 → exec (.timeSliceExpiry p) s = .next u) ∧
      (pt.tsact = 1 → exec (.timeSliceExpiry p) s = .next (u.preempt p)) ∧
      (pt.tsact = 2 → exec (.timeSliceExpiry p) s = .next (u.swap p pt.pcmdIn)))

/-- R278, R333, R328: a debugger is attached and detached, holds a resident group of its partition and lets it go; a cluster goes from one
partition to another only where both are SAVED or none, and passes through DEEP. A partition that gives its last cluster away is SAVED
without an image. -/
def Sys2Proof.Claims.DebugAndClusterEvents : Prop :=
  ∀ (s : State),
    (∀ p on, p < 8 → exec (.debuggerAttach p on) s = .next (withPart s p fun x => { x with debugger := on })) ∧
    (∀ gk g, s.group? gk = some g →
      (g.ended = false → s.atHome gk = true → (s.part (s.partOf gk)).debugger = true →
        exec (.debugHalt gk) s = .next (s.updGroup gk fun g => { g with halted := true })) ∧
      (g.ended = true ∨ s.atHome gk = false ∨ (s.part (s.partOf gk)).debugger = false → exec (.debugHalt gk) s = .next s) ∧
      (g.halted = false → exec (.debugRelease gk) s = .next s) ∧
      (g.halted = true → g.stopped = false → g.trapNext = none → (s.part (s.partOf gk)).held = none →
        exec (.debugRelease gk) s = .next (s.updGroup gk fun g => { g with halted := false }))) ∧
    (∀ cl v, let target := v.toNat % 16
      let cur := (s.cluster cl).part
      let free := cur = 15 ∨ ((s.part cur).pst = .saved ∧
        ∀ x ∈ s.teamsOf cur, x.2.tst ≠ .resident ∧ x.2.tst ≠ .evicted)
      let open_ := target = 15 ∨ (s.part target).pst = .saved ∨ s.partExists target = false
      (48 ≤ cl ∨ (8 ≤ target ∧ target < 15) ∨ ¬free ∨ ¬open_ ∨ cur = target → exec (.clpartWrite cl v) s = .next s) ∧
      let last := cur < 8 ∧ ∀ c, c < 48 → c ≠ cl → (s.cluster c).part ≠ cur
      (cl < 48 → target < 8 ∨ target = 15 → free → open_ → cur ≠ target →
        ∃ t, exec (.clpartWrite cl v) s = .next t ∧ (last → (t.part cur).pst = .saved ∧ (t.part cur).image = false) ∧
          (¬last ∨ (∀ x ∈ s.launches, x.2.part = cur → x.2.ended = true) → (t.cluster cl).part = target ∧
            (∀ c, c ≠ cl → t.cluster c = s.cluster c) ∧ t.mem = s.mem ∧
            ∀ b, 64 * cl ≤ b → b < 64 * cl + 64 → s.bringUp b = false → (t.bank b).mode = .pool ∧ (t.bank b).pwr = .deep)))

/-- R344, R345, R346, R347: an invalidation is noted and BUSY reads 1 until no access of the partition is open; it then removes what it
covers from every TLB and walk cache. A walk that ends with a translation leaves it in the TLB of its die and in those of the cores that
it serves; one that fails leaves nothing there. -/
def Sys2Proof.Claims.TranslationEvents : Prop :=
  ∀ (s : State) (p : Nat),
    let pt := s.part p
    let gone := fun (t : Tlb) => t.part = p ∧ ∃ v ∈ pt.tlbWant, invCovers v t.page t.big = true
    (∀ v, p < 8 → exec (.tlbInvalidate p v) s = .next (withPart s p fun x => { x with
      tlbInv := v, tlbBusy := true, tlbWant := x.tlbWant ++ [v] })) ∧
    (pt.tlbBusy = false ∨ s.accessesOpen p = true → exec (.tlbInvalidateDone p) s = .next s) ∧
    (pt.tlbBusy = true → s.accessesOpen p = false → ∃ t, exec (.tlbInvalidateDone p) s = .next t ∧
      t = { s with parts := t.parts, tlb1 := t.tlb1, tlb2 := t.tlb2, walkCache := t.walkCache } ∧
      (t.part p).tlbBusy = false ∧ (t.part p).tlbWant = [] ∧ ∀ k,
        (∀ x, x ∈ SMap.getD t.tlb1 k [] ↔ x ∈ SMap.getD s.tlb1 k [] ∧ ¬gone x) ∧
        (∀ x, x ∈ SMap.getD t.tlb2 k [] ↔ x ∈ SMap.getD s.tlb2 k [] ∧ ¬gone x) ∧
        (∀ x, x ∈ SMap.getD t.walkCache k [] ↔
          x ∈ SMap.getD s.walkCache k [] ∧ ¬(x.part = p ∧ ∃ v ∈ pt.tlbWant, x.covered v = true))) ∧
    (∀ v, exec (.fabricTlbInvalidate v) s = .next { s with ftInv := v, ftlb := s.ftlb.filter fun x => !invCovers v x.page x.big }) ∧
    (∀ die va acc, p < 8 → va < 2 ^ 55 →
      let mine := s.walks.find? fun w => w.die == die % 2 && w.part == p && w.page == va / 2 ^ 16 && w.running
      (mine = none → exec (.pageWalkComplete p die va acc) s = .next s) ∧
      ∀ w, mine = some w → ∃ t, exec (.pageWalkComplete p die va acc) s = .next t ∧
        t = { s with tlb1 := t.tlb1, tlb2 := t.tlb2, walkCache := t.walkCache, walks := t.walks, homeReqs := t.homeReqs } ∧
        (∀ cause aux, s.walk p acc va = .fault cause aux → t.tlb1 = s.tlb1 ∧ t.tlb2 = s.tlb2) ∧
        (∀ level e, (∀ cause aux, s.walk p acc va ≠ .fault cause aux) →
          s.walkLeaf pt.ptBase.toNat (s.keyTag pt.ptKey) va = .inr (level, e) →
          let x : Tlb := ⟨p, pageOf (level == 2) va, level == 2, BitVec.ofNat 64 e⟩
          x ∈ SMap.getD t.tlb2 (die % 2) [] ∧ ∀ c ∈ w.cores, c < 384 → x ∈ SMap.getD t.tlb1 c []))

/-- R348: GENERATE takes the lowest EMPTY key ID, ASSIGN a LOADED one, DESTROY any that is not EMPTY; each runs until its completion,
which changes that key alone, and of DESTROY drops every line cached under it; while one runs another is ignored. -/
def Sys2Proof.Claims.KeyEvents : Prop :=
  ∀ (s : State),
    (s.keyBusy = true → exec .generate s = .next { s with keyRes := 4 } ∧
      ∀ id p, exec (.assign id p) s = .next { s with keyRes := 4 } ∧ exec (.destroy id) s = .next { s with keyRes := 4 }) ∧
    (s.keyBusy = false →
      (s.emptyKey = none → exec .generate s = .next (keyNoted s 1 0 0 1)) ∧
      (∀ k, s.emptyKey = some k → (∀ j, 1 ≤ j → j < k → (s.key j).kst ≠ .empty) ∧ (s.key k).kst = .empty ∧
        exec .generate s = .next { keyNoted s 1 0 0 0 with
          keyNext := some (k, ⟨.loaded, s.nextSerial⟩), keyGiven := k, nextSerial := s.nextSerial + 1 }) ∧
      (∀ id p, 1 ≤ id → id ≤ 2047 →
        ((s.key id).kst = .loaded → exec (.assign id p) s = .next { keyNoted s 3 id p 0 with
          keyNext := some (id, ⟨.assigned (p % 8), (s.key id).serial⟩) }) ∧
        ((s.key id).kst ≠ .loaded → exec (.assign id p) s = .next (keyNoted s 3 id p 2))) ∧
      (∀ id, 1 ≤ id → id ≤ 2047 →
        ((s.key id).kst = .empty → exec (.destroy id) s = .next (keyNoted s 2 id 0 1)) ∧
        ((s.key id).kst ≠ .empty → exec (.destroy id) s = .next { keyNoted s 2 id 0 0 with keyNext := some (id, Key.reset) })) ∧
      (∀ id p, id = 0 ∨ 2047 < id → exec (.assign id p) s = .next (keyNoted s 3 id p 3) ∧
        exec (.destroy id) s = .next (keyNoted s 2 id 0 3)) ∧
      exec .keyCommandComplete s = .next s) ∧
    (s.keyBusy = true → s.keyNext = none → exec .keyCommandComplete s = .next { s with keyBusy := false }) ∧
    (∀ k y, s.keyBusy = true → s.keyNext = some (k, y) → ∃ t, exec .keyCommandComplete s = .next t ∧
      t = { s with keyBusy := false, keyNext := none, keys := t.keys, l2 := t.l2, banks := t.banks } ∧
      t.key k = y ∧ (∀ j, j ≠ k → t.key j = s.key j) ∧
      (y.kst ≠ .empty → t.l2 = s.l2 ∧ t.banks = s.banks) ∧
      (y.kst = .empty → (∀ set, ∀ x ∈ SMap.getD t.l2 set [], x ∈ SMap.getD s.l2 set [] ∧ x.2.key % 2048 ≠ k) ∧
        ∀ b, ∀ x ∈ (t.bank b).lines, x ∈ (s.bank b).lines ∧ x.2.tag % 2048 ≠ k))

/-- R349, R382, R350: a stage that verifies is measured into the next register, Mi := SHAKE256(Mi ‖ SHAKE256(image)), and the last one
makes the package REDUCED; one that fails stops the boot. SPDM requests are answered in turn, those that need
negotiated algorithms only after them, and sessions are refused. -/
def Sys2Proof.Claims.BootAndAttestationEvents : Prop :=
  ∀ (s : State) (img : Image) (last : Bool),
    (s.svc ≠ .boot ∨ s.bootFailed = true ∨ s.bootDone = true → exec (.firmwareStageLoad img last) s = .next s) ∧
    (s.svc = .boot → s.bootFailed = false → s.bootDone = false →
      (s.stages < 8 → s.imageOk img = true → exec (.firmwareStageLoad img last) s = .next { s with
        meas := setAt s.meas s.stages (shake256 (atD s.meas s.stages [] ++ shake256 img.bytes)), stages := s.stages + 1
        bootDone := last, svc := if last then .reduced else .boot }) ∧
      (8 ≤ s.stages ∨ s.imageOk img = false → s.uncommitted = false →
        exec (.firmwareStageLoad img last) s = .next { s with bootFailed := true }) ∧
      (8 ≤ s.stages ∨ s.imageOk img = false → s.uncommitted = true → ∃ t, exec (.firmwareStageLoad img last) s = .next t ∧
        t.activeBank = 1 - s.activeBank ∧ t.uncommitted = false ∧ t.stages = 0 ∧ t.bootFailed = false)) ∧
    (s.imageOk img = true → img.key.length = 1952 ∧ img.sig.length = 3309 ∧ s.fuseCount ≤ img.version) ∧
    let answers := fun (i : Instr) (f : Nat → List Byte → Prop) =>
      ∃ name st bs, exec i s = .next { s with replies := s.replies ++ [⟨name, st, bs⟩] } ∧ f st bs
    answers .getVersion (fun st bs => st = 0 ∧ bs = [0x00, 0x14]) ∧
    answers .getCapabilities (fun st bs => st = 0 ∧ bs.length = 4) ∧
    (∃ name bs, exec .negotiateAlgorithms s = .next { s with negotiated := true, replies := s.replies ++ [⟨name, 0, bs⟩] }) ∧
    (∀ i, (i = .getDigests ∨ (∃ a n, i = .getCertificate a n) ∨ (∃ n, i = .challenge n) ∨ ∃ n, i = .getMeasurements n) →
      answers i fun st bs => st = (if s.negotiated then 0 else 4) ∧ (s.negotiated = false → bs = [])) ∧
    (s.negotiated = true → ∀ a n nonce,
      answers .getDigests (fun _ bs => bs = sha3_512 Config.certChain) ∧
      answers (.getCertificate a n) (fun _ bs => bs = (Config.certChain.drop a).take n) ∧
      answers (.challenge nonce) (fun _ bs => bs = Config.mldsaSign (atD s.meas 0 []) (sha3_512 (sha3_512 Config.certChain ++ nonce))) ∧
      answers (.getMeasurements nonce) (fun _ bs =>
        bs = s.meas.flatten ++ Config.mldsaSign (atD s.meas 0 []) (sha3_512 (s.meas.flatten ++ nonce)))) ∧
    ∀ r, answers (.spdmSessionRequest r) fun st bs => st = 7 ∧ bs = []

namespace Sys2Proof.Claims

open Sys2Proof Sys2Proof.Machine

/-- A cluster with its clock counted up to the present moment. -/
def counted (s : State) (cl : Nat) : Cluster := { s.cluster cl with clk := s.cycles cl, clkAt := s.now }

/-- CUR takes a value at once, and the old one is kept while it settles (R369). -/
def settling (s : State) (c : Cluster) (b : Bias) : Cluster :=
  if c.curBias = b then c else { c with curBias := b, settleOld := some c.curBias, settleAt := s.now }

/-- One cluster of a state, and nothing else, has changed. -/
def onlyCluster (s t : State) (cl : Nat) (c : Cluster) : Prop :=
  t = { s with clusters := t.clusters } ∧ t.cluster cl = c ∧ ∀ x, x ≠ cl → t.cluster x = s.cluster x

/-- A cluster may take another thermal step: 1 ms has passed since its last (R370). -/
def stepMay (s : State) (c : Cluster) : Prop := s.svc ≠ .reduced ∧ (c.stepAt = 0 ∨ c.stepAt + 2050000 ≤ s.now)

/-- The idle counts of Table 3-8, in cycles of the cluster's clock. -/
def restCount (phase a b : Nat) : Nat := if phase = 0 then a else b

/-- Where each service command leads (Table 20-3), by whether every stack has passed training. -/
def serviceRow (all : Bool) : Svc → Nat → Option Svc
  | .reduced, 3 => some (if all then .normal else .recovery)
  | .test, 3 => some (if all then .normal else .recovery)
  | .recovery, 3 => if all then some .normal else none
  | .reduced, 2 => some .test
  | .normal, 2 => some .test
  | .test, 1 => some .reduced
  | .normal, 4 => some .recovery
  | _, _ => none

end Sys2Proof.Claims

/-! Device events: power and service. -/

/-- R369, R370: a write of CLBIAS asks for a bias, refused where it is reserved or would switch off a cluster that a partition holds; CUR
takes it at once and settles. At TRIP or above a cluster slows by one step, and 2 degrees below MIGRATE it goes one step
back towards REQ. (That no thermal step is taken in REDUCED is the model's choice: R377, log 41.) -/
def Sys2Proof.Claims.BiasAndHeatEvents : Prop :=
  ∀ (s : State) (cl : Nat),
    (∀ v : Word, 48 ≤ cl ∨ 5 ≤ v.toNat % 8 ∨ (v.toNat % 8 = 4 ∧ (s.cluster cl).part < 8) → exec (.clbiasWrite cl v) s = .next s) ∧
    (∀ (v : Word) (req : Bias), cl < 48 → req.code = v.toNat % 8 → (req = .off → 8 ≤ (s.cluster cl).part) →
      let b := if s.svc = .reduced ∧ req ≠ .off then .rbb1 else req
      let c := settling s { counted s cl with req := req } b
      ((s.cluster cl).curBias ≠ .off ∨ req = .off → ∃ t, exec (.clbiasWrite cl v) s = .next t ∧ onlyCluster s t cl c) ∧
      ((s.cluster cl).curBias = .off → req ≠ .off → ∃ t, exec (.clbiasWrite cl v) s = .next t ∧ t.cluster cl = c ∧ t.mem = s.mem ∧
        ∀ k, 64 * cl ≤ k → k < 64 * cl + 64 → s.bringUp k = false → (t.bank k).mode = .pool ∧ (t.bank k).pwr = .deep)) ∧
    ((s.cluster cl).settleOld = none → exec (.biasSettled cl) s = .next s) ∧
    ((s.cluster cl).settleOld ≠ none →
      ∃ t, exec (.biasSettled cl) s = .next t ∧ onlyCluster s t cl { counted s cl with settleOld := none }) ∧
    (∀ temp, cl < 48 → ∃ t, exec (.thermalSample cl temp) s = .next t ∧
      onlyCluster s t cl { s.cluster cl with temp := temp % 4096 }) ∧
    let c := s.cluster cl
    let migrate := c.thr.toNat % 4096
    let trip := c.thr.toNat / 65536 % 4096
    (¬stepMay s c → exec (.thermalStep cl) s = .next s) ∧
    (c.temp < trip → (migrate ≤ c.temp + 32 ∨ c.curBias = .off ∨ c.req = .off ∨ c.curBias.code ≤ c.req.code) →
      exec (.thermalStep cl) s = .next s) ∧
    (trip ≤ c.temp → c.curBias = .off ∨ c.curBias = .rbb2 → exec (.thermalStep cl) s = .next s) ∧
    (∀ b : Bias, stepMay s c → trip ≤ c.temp → c.curBias.code < 3 → b.code = c.curBias.code + 1 →
      ∃ t, exec (.thermalStep cl) s = .next t ∧
        onlyCluster s t cl { settling s (counted s cl) b with stepAt := s.now, trips := c.trips + 1 }) ∧
    (∀ b : Bias, stepMay s c → c.temp < trip → c.temp + 32 < migrate → c.curBias ≠ .off → c.req ≠ .off → c.req.code < c.curBias.code →
      b.code + 1 = c.curBias.code →
      ∃ t, exec (.thermalStep cl) s = .next t ∧ onlyCluster s t cl { settling s (counted s cl) b with stepAt := s.now })

/-- R73, R74, R75, R375: a bank that has been idle for its count naps, and one whose owner is idle too goes to RETAIN, a CACHE bank once
its lines are clean; a wake puts it to ON, and one that fails its parity in RETAIN counts a loss; the warm reserve is refilled from POOL
banks in DEEP. L2 slices, numbered from 3072 on, do the same at the counts of phase 0, unless a team in phase 3 holds them. -/
def Sys2Proof.Claims.BankPowerEvents : Prop :=
  (∀ (s : State) (b : Nat), b < 3072 →
    let x := s.bank b
    let phase := s.bankPhase b
    let idle := fun (n : Nat) => x.lastUse + (s.cluster (b / 64)).dieCycles n ≤ s.now
    let inService := x.transit = none ∧ x.waking = false ∧ x.mode ≠ .pool ∧ phase < 2
    (inService → x.pwr = .on → idle (restCount phase 32 256) → exec (.bankNap b) s = .next (s.setBank b { x with pwr := .nap })) ∧
    (¬inService ∨ x.pwr ≠ .on ∨ ¬idle (restCount phase 32 256) → exec (.bankNap b) s = .next s) ∧
    (inService → x.pwr = .on ∨ x.pwr = .nap → idle (restCount phase 4096 16384) →
      (x.owner = .none ∨ (∃ t, x.owner = .team t ∧ s.teamIdle t = true) ∨ (∃ t k, x.owner = .chan t k ∧ s.teamIdle t = true) ∨
        (∃ e, x.owner = .stream e ∧ (s.stream e).sst ≠ .active)) →
      ∃ t, exec (.bankRetain b) s = .next t ∧ t = { s with banks := t.banks, homeReqs := t.homeReqs } ∧
        t.bank b = { x with pwr := .retain, lines := x.lines.map fun y => (y.1, { y.2 with dirty := false }) } ∧
        (∀ k, k ≠ b → t.bank k = s.bank k) ∧ ((∀ y ∈ x.lines, y.2.dirty = false) → t.homeReqs = s.homeReqs)) ∧
    (¬inService ∨ (x.pwr ≠ .on ∧ x.pwr ≠ .nap) ∨ ¬idle (restCount phase 4096 16384) ∨
        (∃ t, x.owner = .team t ∧ s.teamIdle t = false) ∨ (∃ t k, x.owner = .chan t k ∧ s.teamIdle t = false) ∨
        (∃ e, x.owner = .stream e ∧ (s.stream e).sst = .active) →
      exec (.bankRetain b) s = .next s) ∧
    (∀ ok, (x.waking = false → exec (.bankWakeComplete b ok) s = .next s) ∧
      (x.waking = true → x.pwr ≠ .retain ∨ ok = true → ∃ t, exec (.bankWakeComplete b ok) s = .next t ∧
        t = { s with banks := t.banks, chans := t.chans } ∧ t.bank b = { x with pwr := .on, waking := false, lastUse := s.now } ∧
        ∀ k, k ≠ b → t.bank k = s.bank k)) ∧
    (x.waking = true → x.pwr = .retain → x.owner = .none → ∃ t, exec (.bankWakeComplete b false) s = .next t ∧
      t.bank b = { x with pwr := .on, waking := false, lines := [], lastUse := s.now } ∧
      (t.cluster (b / 64)).rlcnt = min ((s.cluster (b / 64)).rlcnt + 1) 4294967295 ∧ t.mem = s.mem ∧ t.groups = s.groups) ∧
    (x.mode = .pool → x.transit = none → s.bringUp b = false →
      (x.refill = true → exec (.warmReserveRefill b) s = .next (s.setBank b { x with refill := false, warm := true, pwr := .nap })) ∧
      (x.refill = false → x.warm = false → x.pwr = .deep → s.warmCount (b / 64) < (s.cluster (b / 64)).warm →
        exec (.warmReserveRefill b) s = .next (s.setBank b { x with refill := true })) ∧
      (x.refill = false → x.warm = true ∨ x.pwr ≠ .deep ∨ (s.cluster (b / 64)).warm ≤ s.warmCount (b / 64) →
        exec (.warmReserveRefill b) s = .next s))) ∧
  ∀ (s : State) (sl : Nat),
    let x := s.slice sl
    let held := ∃ y ∈ s.teams, y.2.tst = .resident ∧ 3 ≤ s.teamPhase y.1
    let idle := fun (n : Nat) => sl < 128 ∧ x.waking = false ∧ ¬held ∧ x.lastUse + n ≤ s.now
    let pwr := SMap.find s.slicePwr sl
    (pwr = none → idle 32 → exec (.bankNap (3072 + sl)) s = .next { s with slicePwr := SMap.put s.slicePwr sl .nap }) ∧
    (pwr ≠ none ∨ ¬idle 32 → exec (.bankNap (3072 + sl)) s = .next s) ∧
    (pwr ≠ some .retain → idle 4096 → ∃ t, exec (.bankRetain (3072 + sl)) s = .next t ∧
      t = { s with l2 := t.l2, slicePwr := SMap.put s.slicePwr sl .retain } ∧
      ∀ set, set / 1024 = sl → SMap.getD t.l2 set [] = (SMap.getD s.l2 set []).map fun w => (w.1, { w.2 with dirty := false })) ∧
    (pwr = some .retain ∨ ¬idle 4096 → exec (.bankRetain (3072 + sl)) s = .next s) ∧
    ∀ ok, (x.waking = false → exec (.bankWakeComplete (3072 + sl) ok) s = .next s) ∧
      (x.waking = true → ∃ t, exec (.bankWakeComplete (3072 + sl) ok) s = .next t ∧
        t = { s with l2 := t.l2, slicePwr := SMap.erase s.slicePwr sl, slices := t.slices } ∧
        t.slice sl = { x with waking := false, lastUse := s.now } ∧
        (pwr ≠ some .retain ∨ ok = true → t.l2 = s.l2) ∧
        (pwr = some .retain → ok = false → ∀ set, set / 1024 = sl → SMap.getD t.l2 set [] = []))

/-- R376, R378, R382: a service command is BUSY while a queue is enabled or a team is resident or evicted, REFUSED where Table 20-3 has no row,
and otherwise sets SVC; a stack past its error limit is mapped out into RECOVERY; a reset of the package keeps flash and fuses and
goes back to BOOT. -/
def Sys2Proof.Claims.ServiceEvents : Prop :=
  ∀ (s : State),
    (∀ i n, (i = .svcReduced ∧ n = 1) ∨ (i = .svcTest ∧ n = 2) ∨ (i = .svcNormal ∧ n = 3) ∨ (i = .svcRecovery ∧ n = 4) →
      let row := serviceRow (s.hbmOk == 255#8) s.svc n
      (s.quiescent = false → exec i s = .next { s with svcCmd := BitVec.ofNat 32 n, svcRes := 1 }) ∧
      (s.quiescent = true → row = none → exec i s = .next { s with svcCmd := BitVec.ofNat 32 n, svcRes := 2 }) ∧
      (∀ v, s.quiescent = true → row = some v → ∃ t, exec i s = .next t ∧ t.svc = v ∧ t.svcCmd = BitVec.ofNat 32 n ∧ t.svcRes = 0 ∧
        t.hbmOk = s.hbmOk ∧ t.parts = s.parts ∧ t.teams = s.teams ∧
        (v = .recovery → s.svc ≠ .normal → t.hbmFail = ~~~s.hbmOk) ∧ (v = .normal → t.hbmFail = 0) ∧
        (s.svc ≠ .reduced → v ≠ .reduced → t = { s with svc := v, svcCmd := t.svcCmd, svcRes := 0, hbmFail := t.hbmFail }) ∧
        (v = .reduced → (∀ p, (t.port p).link = false ∨ SMap.find s.ports p = none) ∧
          ∀ c, c < 48 → (t.cluster c).curBias = if (s.cluster c).req = .off then .off else .rbb1) ∧
        (s.svc = .reduced → v ≠ .reduced → ∀ c, c < 48 → (t.cluster c).curBias = (s.cluster c).req))) ∧
    (∀ k, (s.svc ≠ .normal ∨ 8 ≤ k → exec (.hbmErrorLimit k) s = .next s) ∧
      (s.svc = .normal → k < 8 → ∃ t, exec (.hbmErrorLimit k) s = .next t ∧ t.svc = .recovery ∧
        t = { s with svc := .recovery, hbmFail := t.hbmFail, hbmOk := t.hbmOk, hbmErrs := t.hbmErrs } ∧
        ∀ j, j < 8 → t.hbmFail.getLsbD j = (decide (j = k) || s.hbmFail.getLsbD j)) ∧
      (k < 8 → ∃ t, exec (.hbmTrainingPass k) s = .next t ∧ t = { s with hbmOk := t.hbmOk } ∧
        ∀ j, j < 8 → t.hbmOk.getLsbD j = (decide (j = k) || s.hbmOk.getLsbD j))) ∧
    ∃ t, exec .packageReset s = .next t ∧ t.svc = .boot ∧ t.flash = s.flash ∧ t.fuseCount = s.fuseCount ∧ t.hbmOk = 0 ∧ t.stages = 0 ∧
      t.parts = [] ∧ t.launches = [] ∧ t.teams = [] ∧ t.groups = [] ∧ t.chans = [] ∧ t.clusters = [] ∧ t.banks = [] ∧ t.keys = [] ∧
      t.streams = [] ∧ t.activeBank = if s.pendingUpdate then 1 - s.activeBank else s.activeBank

namespace Sys2Proof.Claims

open Sys2Proof Sys2Proof.Machine

/-- What the other partitions hold of a share. -/
def others (s : State) (p : Nat) (f : Part → Nat) : Nat := (((span 0 8).filter fun q => q ≠ p).map fun q => f (s.part q)).foldr (· + ·) 0

/-- A frame that this package answers: it names the package, and its ports are up (R361, R377). -/
def forUs (s : State) (f : Frame) : Prop := f.dpkg = s.pkgNum ∧ s.svc ≠ .boot ∧ s.svc ≠ .reduced

/-- One answer has gone out: its OP, back to where the request came from, with the request's tag and these bytes. -/
def answered (s t : State) (f : Frame) (op : Nat) (bs : List Byte) : Prop :=
  ∃ x : Frame, t.out = s.out ++ [⟨op, x⟩] ∧ x.port = f.port ∧ x.dpkg = f.spkg ∧ x.tag = f.tag ∧ x.payload = bs

/-- A hart's access gave a value, or an access fault, and nothing else has changed. -/
def hartGot (s : State) (hart : Nat) (v : Option Nat) : State :=
  { s with hostLast := ⟨hart, v⟩ :: s.hostLast.filter fun x => x.hart ≠ hart }

/-- Registers that keep the bits of a write that their table names: offset, bytes and bits (Tables 16-2, 17-1, 18-2, 18-3, 19-1, 19-3,
19-5, 20-1). -/
def plainRegisters (p q cl : Nat) : List (Nat × Nat × Nat) :=
  let w := 0x400000 + 0x10000 * p
  let c := 0x780000 + 0x100 * cl
  [(w + 0x40 * q, 8, 2 ^ 64 - 2 ^ 6), (w + 0x40 * q + 0x30, 8, 2 ^ 64 - 1), (w + 0x40 * q + 0x38, 4, 2 ^ 32 - 1),
    (w + 0x1134, 4, 2 ^ 32 - 1), (w + 0x1138, 8, 2 ^ 64 - 2 ^ 16), (w + 0x1148, 8, 2 ^ 64 - 2 ^ 16), (w + 0x1200, 8, 2 ^ 64 - 2 ^ 16),
    (w + 0x1208, 4, 2 ^ 11 - 1), (w + 0x1500, 8, 2 ^ 64 - 2 ^ 12), (w + 0x1508, 4, 2 ^ 24 - 1),
    (c + 0x10, 4, 2 ^ 32 - 1), (c + 0x18, 4, 0x0FFF0FFF),
    (0x600000, 8, 2 ^ 64 - 2 ^ 16), (0x700004, 4, 0xFF), (0x700008, 4, 0x7F), (0x730000, 8, 2 ^ 64 - 2 ^ 12), (0x750020, 4, 0x3F)]

/-- Registers that a write does not change. -/
def fixedRegisters (p q cl port : Nat) : List (Nat × Nat) :=
  let w := 0x400000 + 0x10000 * p
  let c := 0x780000 + 0x100 * cl
  [(w + 0x40 * q + 0x18, 8), (w + 0x40 * q + 0x20, 8), (w + 0x40 * q + 0x2C, 4), (w + 0x40 * q + 0x3C, 4), (w + 0x1000, 4), (w + 0x1004, 4),
    (w + 0x1010, 4), (w + 0x1110, 8), (w + 0x1130, 4), (w + 0x1140, 4), (w + 0x1218, 4),
    (c + 0x08, 4), (c + 0x14, 4), (c + 0x28, 8), (c + 0x30, 8), (c + 0x38, 4),
    (0x740000 + 0x100 * port + 8, 8), (0x740000 + 0x100 * port + 0x10, 8), (0x740000 + 0x100 * port + 0x18, 8),
    (0x50000C, 4), (0x600010, 4), (0x600018, 8), (0x600104, 4), (0x70000C, 4), (0x750000, 8), (0x750014, 4), (0x750018, 8),
    (0x770000, 4), (0x770008, 4)]

end Sys2Proof.Claims

/-! Device events: shares, time, fabric, registers, harts, management. -/

/-- R357, R358, R360, R362: a share that would go past its limit is refused with its bit of QOSERR, and any other is set; a write of HBMREG
fills its buckets. -/
def Sys2Proof.Claims.ShareWrites : Prop :=
  ∀ (s : State),
    (∀ v : Word, let n := ((span 0 16).filter fun i => v.getLsbD i).length
      (n < 4 ∨ 12 < n → exec (.l2waygWrite v) s = .next { s with qosErr := s.qosErr ||| 1 }) ∧
      (4 ≤ n → n ≤ 12 → exec (.l2waygWrite v) s = .next { s with l2wayg := v.setWidth 16 })) ∧
    ∀ p, p < 8 → ∀ v : DWord,
      let total := others s p Part.netShare + v.toNat % 128
      (64 < total → exec (.qosShareWrite p 32 v) s = .next { s with qosErr := s.qosErr ||| 2 }) ∧
      (total ≤ 64 → exec (.qosShareWrite p 32 v) s = .next (withPart s p fun x => { x with netShare := v.toNat % 128 })) ∧
      (∀ k, k < 32 →
        let total := others s p (fun q => (atD q.portReg k 0).toNat % 2 ^ 17) + v.toNat % 2 ^ 17
        (50000 < total → exec (.qosShareWrite p k v) s = .next { s with qosErr := s.qosErr ||| 8 }) ∧
        (total ≤ 50000 → exec (.qosShareWrite p k v) s = .next (withPart s p fun x => { x with
          portReg := setAt x.portReg k (v &&& 0x0001FFFF0001FFFF) }))) ∧
      (∀ k, k < 8 →
        let total := others s p (fun q => (atD q.hbmReg k 0).toNat % 2 ^ 7) + v.toNat % 2 ^ 7
        (64 < total → exec (.hbmregWrite p k v) s = .next { s with qosErr := s.qosErr ||| 4 }) ∧
        (total ≤ 64 → exec (.hbmregWrite p k v) s = .next (withPart s p fun x => { x with
          hbmReg := setAt x.hbmReg k (v &&& 0xFFFFFF7FFFFFFF7F)
          buckets := setAt x.buckets k (v.toNat / 2 ^ 8 % 2 ^ 24, v.toNat / 2 ^ 40) })))

/-- R366: a write of PTSTEP moves device time by a signed step, and STEPPING reads 1 until it has reached every core; the selected port's
egress messages set TXTS. -/
def Sys2Proof.Claims.DeviceTimeEvents : Prop :=
  ∀ (s : State),
    (∀ v : DWord, ∃ t, exec (.ptstepWrite v) s = .next t ∧ t.ptime = (BitVec.ofNat 64 s.ptime + v).toNat ∧
      t = { s with ptBase := t.ptBase, ptAt := s.now, ptStep := v, stepping := true, parts := t.parts } ∧
      (v.toInt ≤ 0 → t.parts = s.parts)) ∧
    exec .stepReachedEveryCore s = .next { s with stepping := false } ∧
    ∀ k, (32 < k → ∀ e, exec (.ptpEventMessage k e) s = .next s) ∧
      (k ≤ 32 →
        exec (.ptpEventMessage k false) s = .next { s with rxTimes := s.rxTimes ++ [s.ptime] } ∧
        exec (.ptpEventMessage k true) s = .next (if s.ptsel = k then { s with txts := BitVec.ofNat 64 s.ptime } else s))

/-- R73, R283, R355, R357, R367: the next line of a queued request reaches its home slice, or wakes it. Alone, it takes RRPV 0 where it
hits and fills an empty way of its class where it misses, and a multicast read is noted with the window of that moment; a read of the same
values within the window of a multicast read in progress is merged with it and counted, and one whose router the packet has not passed
joins it. -/
def Sys2Proof.Claims.HomeReadResult : Prop :=
  ∀ (s : State) (r : HomeRead),
    let req := s.homeReqs.find? fun q => q.serves r
    (req = none → exec (.l2HomeRead r) s = .next s) ∧
    ∀ q, req = some q →
      let sl := homeSlice (q.line * 128)
      let key := sl * 1024 + homeSet (q.line * 128)
      let set := SMap.getD s.l2 key []
      let busy := s.mcasts.find? fun m => m.line == q.line
      let u := { s with homeReqs := takeReq q s.homeReqs, slices := SMap.put s.slices sl { s.slice sl with lastUse := s.now } }
      (SMap.find s.slicePwr sl ≠ none → exec (.l2HomeRead r) s = .next (s.wakeSlice sl)) ∧
      (SMap.find s.slicePwr sl = none → q.write = true ∨ busy = none → ∃ t, exec (.l2HomeRead r) s = .next t ∧
        t = { u with l2 := t.l2, slices := t.slices, mcasts := t.mcasts } ∧
        (q.write = true ∨ q.multicast = none → t.mcasts = s.mcasts) ∧
        (∀ cmd, q.write = false → q.multicast = some cmd → t.mcasts = ⟨q.line, s.now, s.mcwin, cmd, [q.core], q.at_⟩ :: s.mcasts) ∧
        let now := SMap.getD t.l2 key []
        (∀ i w, i < 16 → SMap.find set i = some w → w.line = q.line →
          (∀ j, j < i → ∀ y, SMap.find set j = some y → y.line ≠ q.line) →
          SMap.find now i = some { w with rrpv := 0, dirty := w.dirty || q.write, key := if q.write then q.tag else w.key } ∧
          ∀ j, j ≠ i → SMap.find now j = SMap.find set j) ∧
        (∀ i, i < 16 → (∀ j y, SMap.find set j = some y → y.line ≠ q.line) → SMap.find set i = none →
          s.l2wayg.getLsbD i = !q.classH → (∀ j, j < i → s.l2wayg.getLsbD j = !q.classH → SMap.find set j ≠ none) →
          ∃ w, SMap.find now i = some w ∧ w.line = q.line ∧ w.dirty = q.write ∧ w.key = q.tag ∧ (w.rrpv = 2 ∨ w.rrpv = 3) ∧
            w.tag = (if q.duel = 0 then .g else if q.duel = 1 then .h else .e) ∧ ∀ j, j ≠ i → SMap.find now j = SMap.find set j)) ∧
      ∀ m, SMap.find s.slicePwr sl = none → q.write = false → busy = some m → s.sameRead q.line m.at_ q.at_ = true →
        s.now ≤ m.accepted + m.win ∨ r.pastRouter = false →
        ∃ t m', exec (.l2HomeRead r) s = .next t ∧ (t.mcasts.find? fun m => m.line == q.line) = some m' ∧ q.core ∈ m'.cores ∧
          m' = { m with cores := m'.cores } ∧ t = { u with mcasts := t.mcasts, merged := t.merged } ∧
          (s.now ≤ m.accepted + m.win → SMap.getD t.merged sl 0 = SMap.getD s.merged sl 0 + 1) ∧
          (m.accepted + m.win < s.now → t.merged = s.merged)

/-- R347, R361: a request at its home reads, writes or updates the memory that the fabric table names and is answered; one that it does not
grant is refused, with its address in FTFAULT. A frame for another package, or while the ports are down, does nothing. (What the bytes of
a frame hold is log 16.) -/
def Sys2Proof.Claims.FabricRequests : Prop :=
  ∀ (s : State) (f : Frame) (i : Instr), i = .readRequest f ∨ i = .write f ∨ i = .atomic f → s.stuck = none →
    (¬forUs s f → exec i s = .next s ∧ exec (.translationWarm f) s = .next s ∧ exec (.collectiveData f) s = .next s) ∧
    (forUs s f →
      (s.fabricXlate (i ≠ .readRequest f) f.daddr = none → ∃ t, exec i s = .next t ∧ answered s t f 8 [] ∧
        t.ftFault = BitVec.ofNat 64 f.daddr ∧ t.mem = s.mem ∧ t.remotes = s.remotes) ∧
      (∀ pa tag, s.fabricXlate (i ≠ .readRequest f) f.daddr = some (pa, tag) → s.stackFails pa = false → pa < hbmBytes →
        (i = .readRequest f → recField f.payload 2 1 ≠ 1 → recField f.payload 2 1 ≠ 2 → ∃ t, exec i s = .next t ∧ t.mem = s.mem ∧
          answered s t f 1 (s.readBytes tag pa (min (recField f.payload 0 2) 2048))) ∧
        (i = .write f → ∃ t, exec i s = .next t ∧ t.mem = (s.writeBytes tag pa f.payload).mem ∧ answered s t f 3 []) ∧
        (∀ w x, i = .atomic f → atomicOf f.payload (fun n => leNat (s.readBytes tag pa n)) = some (w, x) →
          ∃ t, exec i s = .next t ∧ t.mem = (s.writeBytes tag pa (natBytes w x)).mem ∧
            answered s t f 5 (natBytes w (leNat (s.readBytes tag pa w))))) ∧
      (∃ t, exec (.translationWarm f) s = .next t ∧ t = { s with ftlb := t.ftlb }) ∧
      exec (.collectiveData f) s = .next { s with collIn := s.collIn ++ [(recField f.payload 0 8, f)] })

/-- R361, R347, R330, R95, R362, R380: an answer ends the request that its tag names, and only that one; a refusal is an access fault to a
hart, an error to a command, a refusal of a record to its reader, and PROTECTION with reason 4 to a lane, whose group takes it unless it
holds an entry already. Frames are sent again, dropped frames are counted, and a link goes up only outside BOOT and REDUCED. -/
def Sys2Proof.Claims.FabricAnswers : Prop :=
  ∀ (s : State) (f : Frame),
    let left := fun (r : Remote) => { s with
      remotes := s.remotes.filter fun x => x.tag ≠ r.tag, sent := s.sent.filter fun x => x.frame.tag ≠ r.tag || x.op ≠ r.op }
    let own := fun (r : Remote) => forUs s f ∧ (s.remotes.find? fun r => r.tag == f.tag) = some r
    (∀ i, i = .readResponse f ∨ i = .atomicResponse f ∨ i = .writeAcknowledgement f ∨ i = .refusal f →
      (¬forUs s f ∨ (s.remotes.find? fun r => r.tag == f.tag) = none → exec i s = .next s) ∧
      ∀ r, own r →
        (i = .refusal f → r.dest = .record ∨ (∃ h p, r.src = .hart h p) ∨
          (r.isLoad = true ∧ (r.dest = .value ∨ r.dest = .feat) ∧ ∃ gk l, r.src = .lane gk l)) →
        ∃ t, exec i s = .next t ∧ t.remotes = (left r).remotes ∧ t.mem = s.mem ∧ t.stores = s.stores) ∧
    (∀ r gk l g, own r → r.dest = .value → r.src = .lane gk l → r.isLoad = false → s.group? gk = some g →
      let v := (left r).answerOp (gk / 32) r.tag none
      (g.ended = false ∧ g.stopped = false ∧ g.park ≠ .fault → exec (.refusal f) s =
        .next (v.takeFault gk ⟨.protection, l, 1#32 <<< l, r.pc, BitVec.ofNat 64 r.va, 4, true⟩)) ∧
      (g.ended = true ∨ g.stopped = true ∨ g.park = .fault → exec (.refusal f) s = .next v)) ∧
    (∀ r h p, own r → r.dest = .value → r.src = .hart h p →
      (r.isLoad = true → r.regs = [] → exec (.readResponse f) s = .next (hartGot (left r) h (some (leNat f.payload))) ∧
        exec (.atomicResponse f) s = .next (hartGot (left r) h (some (leNat f.payload)))) ∧
      exec (.writeAcknowledgement f) s = .next (left r) ∧
      exec (.refusal f) s = .next (hartGot (left r) h none)) ∧
    (∀ r ch num, own r → r.dest = .value → r.src = .engine ch num →
      let x := s.chan ch
      let u := match x.queue.find? fun c => c.num == num with
        | some c => if c.kind = CmdKind.reduceStore ∨ c.kind = CmdKind.collective ∨ c.ran = true then left r else (left r).failElems ch c
        | none => left r
      exec (.refusal f) s = .next (u.updCmd ch num fun c => { c with
        waiting := false, ran := decide (c.kind ≠ CmdKind.collective), errored := true, stagedV := [], errVa := r.va, errW := !r.isLoad }) ∧
      let go := fun (c : Cmd) => if c.num = num then { c with waiting := c.waiting && s.cmdHeld ch c } else c
      exec (.writeAcknowledgement f) s =
        .next ((left r).setChan ch { x with queue := x.queue.map go, staged := x.staged.map go })) ∧
    (∀ r, own r → r.dest = .record → (∀ ch num, r.src ≠ .engine ch num) →
      let told := fun (bs : List Byte) => { left r with recs := s.recs.map fun y => if y.tag = r.tag then { y with bytes := some bs } else y }
      exec (.readResponse f) s = .next (told f.payload) ∧ exec (.refusal f) s = .next (told [])) ∧
    (∀ p q, (s.sent.find? fun x => x.frame.port == p && x.frame.lseq == q) = none → exec (.linkResend p q) s = .next s) ∧
    (∀ p q x, (s.sent.find? fun x => x.frame.port == p && x.frame.lseq == q) = some x →
      ∃ t, exec (.linkResend p q) s = .next t ∧ t.out = s.out ++ [x] ∧ (t.port p).resend = min ((s.port p).resend + 1) (2 ^ 64 - 1) ∧
        t = { s with ports := t.ports, out := t.out }) ∧
    (∀ p, p < 32 → exec (.frameDrop p) s = .next (s.setPort p { s.port p with drop := min ((s.port p).drop + 1) (2 ^ 64 - 1) }) ∧
      ∀ n up, exec (.linkStateChange p n up) s = .next (s.setPort p (
        if up = true ∧ s.svc ≠ .boot ∧ s.svc ≠ .reduced then { s.port p with link := true, lanesUp := n % 16 }
        else { s.port p with link := false, lanesUp := 0 }))) ∧
    (∀ p, 32 ≤ p → exec (.frameDrop p) s = .next s ∧ ∀ n up, exec (.linkStateChange p n up) s = .next s) ∧
    exec .fabricWindowStart s = .next { s with windows := [] } ∧
    ∀ id, ∃ t, exec (.storePerformed id) s = .next t ∧ t = { s with stores := t.stores } ∧
      ∀ x, x ∈ t.stores ↔ x ∈ s.stores ∧ x.id ≠ id

/-- R310: a write of a register keeps the bits that its table names, and a read gives them back; a write changes no read-only register,
and no register is reached where none begins or the size is another; status bits clear where a write has a 1. -/
def Sys2Proof.Claims.RegisterWriteResult : Prop :=
  ∀ (s : State), s.stuck = none →
    (∀ off size v, 2 ^ 24 ≤ off ∨ (size ≠ 4 ∧ size ≠ 8) ∨ regOfAccess off size = none → exec (.registerWrite off size v) s = .next s) ∧
    (∀ p q cl, p < 8 → q < 64 → cl < 48 → ∀ x ∈ plainRegisters p q cl, ∀ v : DWord,
      ∃ t, exec (.registerWrite x.1 x.2.1 v) s = .next t ∧ t.regRead x.1 = Nat.land v.toNat x.2.2 ∧ t.mem = s.mem ∧ t.groups = s.groups) ∧
    (∀ p q cl k, p < 8 → q < 64 → cl < 48 → k < 32 → ∀ x ∈ fixedRegisters p q cl k, ∀ v,
      exec (.registerWrite x.1 x.2 v) s = .next s) ∧
    ∀ (p q : Nat) (v : DWord), p < 8 → q < 64 →
      (∃ t, exec (.registerWrite (0x400000 + 0x10000 * p + 0x40 * q + 0x28) 4 v) s = .next t ∧
        ∀ b, (t.queue p q).stat.getLsbD b = ((s.queue p q).stat.getLsbD b && !v.getLsbD b)) ∧
      (∃ t, exec (.registerWrite (0x400000 + 0x10000 * p + 0x110C) 4 v) s = .next t ∧
        ∀ b, (t.part p).fqStat.getLsbD b = ((s.part p).fqStat.getLsbD b && !v.getLsbD b)) ∧
      ∃ t, exec (.registerWrite 0x700010 4 v) s = .next t ∧ t = { s with qosErr := t.qosErr } ∧
        ∀ b, t.qosErr.getLsbD b = (s.qosErr.getLsbD b && !v.getLsbD b)

/-- R385, R94, R345: a hart that belongs to no partition reads, writes and updates memory at its physical address under key 0, and faults
past its end; one that belongs to a partition accesses memory where the partition's tables say. A hart's access to the device window acts
as the access of a register; a store-conditional without a reservation fails; a fence holds the hart until other packages owe it nothing,
and what it does meanwhile waits. -/
def Sys2Proof.Claims.HostAccessResult : Prop :=
  ∀ (s : State) (hart : Nat),
    let free := s.hostHeld.contains hart = false
    let owed := ∃ r ∈ s.remotes, ∃ p, r.src = .hart hart p
    (32 ≤ hart → s.stuck = none → ∀ op, exec (.hostAccess hart op) s = .next s) ∧
    (hart < 32 → s.stuck = none → ¬free →
      (∀ op, exec (.hostAccess hart op) s = .next { s with hostWait := s.hostWait ++ [(hart, some op)] }) ∧
      exec (.hostFence hart) s = .next { s with hostWait := s.hostWait ++ [(hart, none)] }) ∧
    (hart < 32 → s.stuck = none → free → SMap.getD s.hpart hart 15 = 15 → s.svc ≠ .reduced →
      (∀ a n, a + n ≤ hbmBytes → 0 < n → n ≤ 8 → s.stackFails a = false →
        let key := s.keyTag 0
        let old := leNat (s.readBytes key a n)
        let put := fun (t : State) (x : Nat) => t.mem = (s.writeBytes key a (natBytes n x)).mem
        (∃ t, exec (.hostAccess hart (.load a n)) s = .next t ∧ Noted (hartGot s hart (some old)) t) ∧
        (∃ t, exec (.hostAccess hart (.fetch a n)) s = .next t ∧ Noted (hartGot s hart (some old)) t) ∧
        (∀ v, ∃ t, exec (.hostAccess hart (.store a n v)) s = .next t ∧ put t v ∧ t.hostLast = (hartGot s hart (some 0)).hostLast) ∧
        (a % n = 0 →
          (∃ t v, exec (.hostAccess hart (.reserve a n)) s = .next t ∧ Noted (hartGot s hart (some old)) v ∧
            t = { v with hostResv := t.hostResv } ∧ SMap.find t.hostResv hart = some (a, n, s.wseq)) ∧
          ∀ v,
            (∀ o w, ∃ t, exec (.hostAccess hart (.amo o w a n v)) s = .next t ∧ put t (atomicNew o (amoTy w n) old v) ∧
              t.hostLast = (hartGot s hart (some old)).hostLast) ∧
            (∃ t, exec (.hostAccess hart (.swap a n v)) s = .next t ∧ put t v ∧ t.hostLast = (hartGot s hart (some old)).hostLast) ∧
            (∃ t, exec (.hostAccess hart (.conditional a n v)) s = .next t ∧ SMap.find t.hostResv hart = none ∧
              ((put t v ∧ t.hostLast = (hartGot s hart (some 0)).hostLast ∧ SMap.find s.hostResv hart ≠ none) ∨
                (t.mem = s.mem ∧ t.hostLast = (hartGot s hart (some 1)).hostLast))))) ∧
      (∀ a n v, hbmBytes < a + n → a < 0xF000000000 →
        exec (.hostAccess hart (.load a n)) s = .next (hartGot s hart none) ∧
        exec (.hostAccess hart (.store a n v)) s = .next (hartGot s hart none))) ∧
    (∀ p a n pa tag, hart < 32 → s.stuck = none → free → SMap.getD s.hpart hart 15 = p → p < 8 → s.partExists p = true →
      a < 2 ^ 55 → a < 0xF000000000 ∨ 0xF001000000 ≤ a → 0 < n → n ≤ 8 → a % 65536 + n ≤ 65536 → pa < hbmBytes →
      s.stackFails pa = false →
      (s.translate p (s.hartAgent hart) .read a = .mem pa tag → ∃ t, exec (.hostAccess hart (.load a n)) s = .next t ∧
        Noted (hartGot s hart (some (leNat (s.readBytes tag pa n)))) t) ∧
      (∀ v, s.translate p (s.hartAgent hart) .write a = .mem pa tag → ∃ t, exec (.hostAccess hart (.store a n v)) s = .next t ∧
        t.mem = (s.writeBytes tag pa (natBytes n v)).mem) ∧
      (∀ cause aux, s.translate p (s.hartAgent hart) .read a = .fault cause aux →
        exec (.hostAccess hart (.load a n)) s = .next (hartGot s hart none))) ∧
    (hart < 32 → free → ∀ off size, off < 2 ^ 24 → size = 4 ∨ size = 8 →
      (s.stuck = none → exec (.hostAccess hart (.load (0xF000000000 + off) size)) s = .next (hartGot s hart (some (s.deviceRead off size)))) ∧
      ∀ (v : DWord) t, exec (.registerWrite off size v) s = .next t →
        exec (.hostAccess hart (.store (0xF000000000 + off) size v.toNat)) s = .next (hartGot t hart (some 0))) ∧
    (free → owed → exec (.hostFence hart) s = .next { s with hostHeld := s.hostHeld ++ [hart] }) ∧
    (free → ¬owed → ∃ t, exec (.hostFence hart) s = .next t ∧ t = { s with stores := t.stores } ∧
      ∀ x, x ∈ t.stores ↔ x ∈ s.stores ∧ ∀ p, x.src ≠ .hart hart p) ∧
    (owed → s.hostRelease hart = s) ∧
    (¬owed → (∀ x ∈ s.hostWait, x.1 ≠ hart) → ∃ t, s.hostRelease hart = t ∧ t.hostHeld.contains hart = false ∧
      t = { s with hostHeld := t.hostHeld, stores := t.stores })

/-- R379, R381, R382, R383: a profile is refused with 409 while its partition is not SAVED or a share would go past its limit, and else applied and
kept; an image that does not verify is refused with 400, one that does goes to the inactive bank; a commit after a boot raises the fused
counter and never lowers it; a report is made, and a cluster with three losses in 24 hours is Degraded. -/
def Sys2Proof.Claims.ManagementEvents : Prop :=
  ∀ (s : State),
    (∀ x : Profile, (8 ≤ x.part ∨ s.pstate x.part ≠ .saved ∨ 64 < others s x.part Part.netShare + x.netshare.toNat % 128 →
        exec (.profileApply x) s = .next { s with replies := s.replies ++ [⟨"PROFILE", 409, []⟩] }) ∧
      (s.profileRefused x = false → ∃ t, exec (.profileApply x) s = .next t ∧ t.replies.getLast? = some ⟨"PROFILE", 200, []⟩ ∧
        t.profiles = x :: s.profiles.filter fun y => y.part ≠ x.part)) ∧
    (∀ img, s.flashBusy = false →
      (s.imageOk img = false → exec (.simpleUpdate img) s = .next { s with replies := s.replies ++ [⟨"SIMPLE_UPDATE", 400, []⟩] }) ∧
      (s.imageOk img = true → exec (.simpleUpdate img) s = .next { s with
        flash := setAt s.flash (1 - s.activeBank) (some img), flashBusy := true, pendingUpdate := true
        replies := s.replies ++ [⟨"SIMPLE_UPDATE", 200, []⟩] })) ∧
    (∀ img, s.flashBusy = true → ∃ st t, exec (.simpleUpdate img) s = .next t ∧ t.replies = s.replies ++ [⟨"SIMPLE_UPDATE", st, []⟩] ∧
      (st ≠ 200 → t.flash = s.flash) ∧ (s.imageOk img = false → st ≠ 200)) ∧
    (s.uncommitted = false ∨ s.bootDone = false → exec .firmwareCommit s = .next s) ∧
    (s.uncommitted = true → s.bootDone = true → ∃ t, exec .firmwareCommit s = .next t ∧
      t = { s with fuseCount := t.fuseCount, uncommitted := false } ∧ s.fuseCount ≤ t.fuseCount ∧
      ∀ img, atD s.flash s.activeBank none = some img → t.fuseCount = max s.fuseCount img.version) ∧
    ∃ t r, exec .metricSample s = .next t ∧ t = { s with clusters := t.clusters, reports := s.reports ++ [r] } ∧
      r.svc = s.svc.code ∧ r.stackErrs = s.hbmErrs ∧ r.clusters.length = 48 ∧ r.ports.length = 32 ∧ r.faults.length = 8 ∧
      ∀ c, t.cluster c = { s.cluster c with degraded := (s.cluster c).degraded ||
        ((s.cluster c).rlTimes.length == 3 && (s.cluster c).rlTimes.all fun x => decide (s.now ≤ x + 177120000000000)) }

/-! The statements that cover several instructions or events. -/

/-- 32-bit, pair, carry and three-input operations: exact results, wrapped or clamped, in the active lanes and nowhere else. -/
def Obligations.IntegerArithmeticResult : Prop :=
  Claims.IntegerOperationsResult ∧
  Claims.PairArithmeticResult ∧
  Claims.AddWithCarryResult ∧
  Claims.ThreeInputLogicResult

/-- Shifts, rotates, bit counts and bit fields, with amounts, positions and lengths of any size. -/
def Obligations.ShiftAndBitFieldResult : Prop :=
  Claims.ShiftResult ∧
  Claims.BitFieldResult

/-- Selection, moves and address arithmetic; a group 1 form takes its 32-bit immediate as operand B. -/
def Obligations.MoveAndImmediateResult : Prop :=
  Claims.MoveResult ∧
  Claims.ImmediateFormsResult

/-- Integer comparison, predicate logic, and runs of predicates to and from a register. -/
def Obligations.CompareAndPredicateResult : Prop :=
  Claims.IntegerCompareResult ∧
  Claims.PredicateResult

/-- Votes, matches, elections, reductions and prefix reductions use the contributors and write every active lane. -/
def Obligations.VoteAndReductionResult : Prop :=
  Claims.VoteResult ∧
  Claims.ReductionResult

/-- sreg.get reads every register of Table 6-5, sreg.set writes those that it may and traps on the others; rdtime and nop. That a register that may not be written traps when it is executed is the model's reading, log 76. -/
def Obligations.SpecialRegisterResult : Prop :=
  Claims.SpecialRegisterRead ∧
  Claims.SpecialRegisterWrite

/-- Minimum, maximum, comparison, classes, signs, rounding to a whole number and scaling by a power of two. -/
def Obligations.FloatOrderAndScaleResult : Prop :=
  Claims.FloatOrderResult ∧
  Claims.FloatRoundAndScaleResult

/-- Packed 16-bit arithmetic element by element, and dot products with one rounding. -/
def Obligations.PackedAndDotResult : Prop :=
  Claims.PackedArithmeticResult ∧
  Claims.DotProductResult

/-- Conversions among float formats, integers and DS8, to nearest, directed or stochastic, and block scales. -/
def Obligations.ConversionResult : Prop :=
  Claims.FloatConversionResult ∧
  Claims.IntegerConversionResult ∧
  Claims.BlockScaleResult

/-- Branches, calls and returns move the active lanes, and calls keep a stack in private space. That the load of ret answers at once is the model's choice, log 29. -/
def Obligations.BranchAndCallResult : Prop :=
  Claims.BranchResult ∧
  Claims.CallAndReturnResult ∧
  Claims.StackSlotResult

/-- exit takes its lanes away; rejoin.arm, rejoin, gsync and yield; and the waits that complete. -/
def Obligations.RejoinAndSyncResult : Prop :=
  Claims.ExitResult ∧
  Claims.ArriveResult ∧
  Claims.WaitsComplete

/-- Every form of load and store that passes its checks: values read, bytes stored, all other bytes unchanged. A load reads its value when it issues and writes it later: the model's choice, log 29. -/
def Obligations.LoadAndStoreResult : Prop :=
  Claims.LoadResult ∧
  Claims.StoreResult

/-- Atomics and reds update their places lane by lane, and atomics return the old values. -/
def Obligations.AtomicAndReduceResult : Prop :=
  Claims.AtomicResult ∧
  Claims.ReduceResult

/-- The hashed grid: corner indices and weights, gathers, and scatters of gradients. What a helper lane gets from a descriptor that fails is the model's choice, log 42. -/
def Obligations.GridResult : Prop :=
  Claims.GridIndexResult ∧
  Claims.HashedGridResult

/-- chan.send and chan.recv move whole slots in lane order or park, and go on when they can; chan.probe counts. -/
def Obligations.ChannelResult : Prop :=
  Claims.ChannelInstructionResult ∧
  Claims.ChannelDeliveries

/-- mma enters the rendezvous latch, a joint operation starts, and each element is the sum that %nbv orders. The order in which operations take effect is R240 read literally, log 74. -/
def Obligations.MatrixMultiplyResult : Prop :=
  Claims.MatrixElementResult ∧
  Claims.MatrixEntersLatch ∧
  Claims.JointOperationResult

/-- acc.zero, acc.ld, acc.mov, acc.add, acc.scale and acc.drain: every element of their tiles. -/
def Obligations.AccumulatorResult : Prop :=
  Claims.TileArithmeticResult ∧
  Claims.DrainResult

/-- Barriers of the three levels record arrivals, answer tokens and wait; a span barrier without its flag traps. That the lanes of a path wait together is the model's choice, log 44. -/
def Obligations.BarrierResult : Prop :=
  Claims.BarrierLevelsResult ∧
  Claims.SpanBarrierTraps

/-- Arming, masking and clearing events; wany serves the lowest latched entry, parks or traps. -/
def Obligations.EventResult : Prop :=
  Claims.EventServiceResult ∧
  Claims.EventInstructionResult

/-- Timelines are waited for, read, tested and advanced in order; guard slots are set and cleared. -/
def Obligations.TimelineAndGuardResult : Prop :=
  Claims.TimelineResult ∧
  Claims.GuardSlotResult ∧
  Claims.TimelineAdvances

/-- Leave is asked for, waited for and returned; register banks are asked for and given back. -/
def Obligations.LeaveAndBudgetResult : Prop :=
  Claims.LeaveResult ∧
  Claims.RegisterBudgetResult

/-- A fault holds its group and raises one entry, in the ring or waiting; a refused access has no effect. -/
def Obligations.FaultEntryResult : Prop :=
  Claims.FaultEntryPosted ∧
  Claims.AccessFaultResult

/-- An instruction that Table 6-10 turns away, or a whole-group instruction on a part of its group, traps and has no effect. -/
def Obligations.RejectedInstructionsTrap : Prop :=
  Claims.EncodingTraps ∧
  Claims.WholeGroupInstructionsTrap

/-- An aperture store issues one command a lane; each element of a command is read, converted and written. That elements act in ascending order is the model's choice, log 31. -/
def Obligations.CommandIssueResult : Prop :=
  Claims.CommandsJoinQueues ∧
  Claims.CommandElementResult

/-- Writes of QTAIL and QCTL, and the take of a record as a launch or as a rejection. That a refused QCTL still sets its other fields is the model's choice, log 53. -/
def Obligations.QueueResult : Prop :=
  Claims.QueueRegisterWrites ∧
  Claims.TakeRecordResult

/-- Tape pops, timer fires and the commands, fires and moves of stream contexts. Fires in REDUCED and while a fire is due: logs 51 and 52. -/
def Obligations.TapeTimerStreamEvents : Prop :=
  Claims.TapeAndTimerEvents ∧
  Claims.StreamEvents

/-- Writes of the fault ring, and REPLAY, REPLAY_PAGE, SKIP and KILL. The order of BADRESP and STALE is the model's choice, log 54. -/
def Obligations.FaultResponses : Prop :=
  Claims.FaultRingWrites ∧
  Claims.ResponsesTaken

/-- PREEMPT, SWAP, RESUME, time slices, debugging, and clusters that change hands. RESUME without a cluster answers BUSY: the model's choice, log 55; so is the loss of an older image in a die's shadow store, log 83. -/
def Obligations.PreemptionAndDebugEvents : Prop :=
  Claims.PreemptionEvents ∧
  Claims.DebugAndClusterEvents

/-- Invalidations, walks and key commands change what their rules name, and nothing else. DESTROY of an empty key answers NOKEY: the model's choice, log 56. -/
def Obligations.TranslationAndKeyEvents : Prop :=
  Claims.TranslationEvents ∧
  Claims.KeyEvents

/-- Bias states and heat, and the power states of banks. No thermal step in REDUCED is log 41; the counts of CACHE banks are log 59. -/
def Obligations.PowerEvents : Prop :=
  Claims.BiasAndHeatEvents ∧
  Claims.BankPowerEvents

/-- Boot stages, service commands, stack errors, package reset, and attestation. The bytes of SPDM answers are log 57; BUSY before REFUSED is log 58. -/
def Obligations.ServiceAndAttestationEvents : Prop :=
  Claims.ServiceEvents ∧
  Claims.BootAndAttestationEvents

/-- Reads at an L2 home, requests and answers of the fabric, links and windows. What the bytes of a frame hold is the model's choice, log 16, and so is the queue in which requests reach their homes, log 10. -/
def Obligations.FabricEvents : Prop :=
  Claims.HomeReadResult ∧
  Claims.FabricRequests ∧
  Claims.FabricAnswers

/-- Device registers keep, ignore or clear what is written; shares have limits; device time steps. -/
def Obligations.RegisterResult : Prop :=
  Claims.RegisterWriteResult ∧
  Claims.ShareWrites ∧
  Claims.DeviceTimeEvents

/-- Accesses and fences of host harts, and profiles, updates and reports of the management service. HTTP codes and what an access to a device page meets are logs 61 and 66. -/
def Obligations.HostAndManagementEvents : Prop :=
  Claims.HostAccessResult ∧
  Claims.ManagementEvents
end

