-- ==== Sys2Proof/Laws/Fp.lean ====
section
/-! SUPPORT. Laws of the number formats: the grid of a format, correct rounding, and exact sums and products. -/

namespace Sys2Proof.Machine

/-! The grid. -/

/-- Exponent of the last place of a code. -/
def FFmt.place (f : FFmt) (k : Nat) : ℤ := f.qmin + ((k / 2 ^ f.fb - 1 : ℕ) : ℤ)

theorem two_zpow_pos (e : ℤ) : (0 : ℚ) < 2 ^ e := by positivity

/-- A number with its quotient and its rest named. -/
theorem div_mod_of {P c r n : Nat} (h : n = c * P + r) (hr : r < P) : n / P = c ∧ n % P = r := by
  subst h
  have hp : 0 < P := by omega
  rw [Nat.add_comm, Nat.add_mul_div_right _ _ hp, Nat.add_mul_mod_self_right, Nat.div_eq_of_lt hr, Nat.mod_eq_of_lt hr]
  simp

/-- A code's magnitude in units of its last place. -/
theorem FFmt.mag_eq (f : FFmt) (k : Nat) :
    f.mag k = ((if k / 2 ^ f.fb = 0 then k else 2 ^ f.fb + k % 2 ^ f.fb : ℕ) : ℚ) * 2 ^ f.place k := by
  have h2 : (2 : ℚ) ≠ 0 := by norm_num
  simp only [FFmt.mag, FFmt.place, FFmt.qmin]
  by_cases h : k / 2 ^ f.fb = 0
  · simp only [h, if_true]
    rw [div_mul_eq_mul_div, div_eq_iff (by positivity), mul_assoc, ← zpow_natCast, ← zpow_add₀ h2]
    congr 2; push_cast; ring
  · simp only [h, if_false]
    obtain ⟨n, hn⟩ : ∃ n, k / 2 ^ f.fb = n + 1 := Nat.exists_eq_succ_of_ne_zero h
    rw [hn, Nat.add_sub_cancel]
    have e : (2 : ℚ) ^ ((((n + 1 : ℕ) : ℤ)) - f.bias) = 2 ^ f.fb * 2 ^ (1 - f.bias - f.fb + (n : ℤ)) := by
      rw [← zpow_natCast, ← zpow_add₀ h2]; congr 1; push_cast; ring
    rw [e]; push_cast; field_simp

theorem FFmt.mag_zero (f : FFmt) : f.mag 0 = 0 := by rw [FFmt.mag_eq]; simp

/-- Codes next to each other differ by one unit in the last place. -/
theorem FFmt.mag_succ (f : FFmt) (k : Nat) : f.mag (k + 1) = f.mag k + 2 ^ f.place k := by
  have h2 : (2 : ℚ) ≠ 0 := by norm_num
  have hp : 0 < 2 ^ f.fb := Nat.two_pow_pos _
  rw [FFmt.mag_eq, FFmt.mag_eq]
  have hdm := Nat.div_add_mod k (2 ^ f.fb)
  have hlt := Nat.mod_lt k hp
  by_cases hc : k % 2 ^ f.fb + 1 = 2 ^ f.fb
  · have hn1 : k + 1 = (k / 2 ^ f.fb + 1) * 2 ^ f.fb + 0 := by
      rw [Nat.add_mul, Nat.mul_comm (k / 2 ^ f.fb)]; omega
    obtain ⟨hd, hm⟩ := div_mod_of hn1 hp
    have hpl : f.place (k + 1) = f.qmin + (k / 2 ^ f.fb : ℕ) := by simp [FFmt.place, hd]
    by_cases h0 : k / 2 ^ f.fb = 0
    · have hk : k + 1 = 2 ^ f.fb := by rw [h0] at hdm; omega
      have hpl0 : f.place k = f.qmin := by simp [FFmt.place, h0]
      simp only [hd, h0, hm, hpl, hpl0, if_true]
      rw [if_neg (by omega)]
      have : (2 ^ f.fb + 0 : ℕ) = k + 1 := by omega
      rw [this]; push_cast; simp; ring
    · obtain ⟨n, hn⟩ : ∃ n, k / 2 ^ f.fb = n + 1 := Nat.exists_eq_succ_of_ne_zero h0
      have hpl0 : f.place k = f.qmin + n := by simp [FFmt.place, hn]
      rw [hpl, hpl0, if_neg (by omega), if_neg h0, hm, hn]
      have : (2 ^ f.fb + k % 2 ^ f.fb : ℕ) + 1 = 2 * 2 ^ f.fb := by omega
      have e : (2 : ℚ) ^ (f.qmin + ((n + 1 : ℕ) : ℤ)) = 2 * 2 ^ (f.qmin + (n : ℤ)) := by
        rw [show f.qmin + ((n + 1 : ℕ) : ℤ) = 1 + (f.qmin + n) by push_cast; ring, zpow_add₀ h2, zpow_one]
      rw [e]
      have c : ((2 ^ f.fb + k % 2 ^ f.fb : ℕ) : ℚ) + 1 = 2 * ((2 ^ f.fb : ℕ) : ℚ) := by exact_mod_cast this
      push_cast at c ⊢
      linear_combination (-(2 : ℚ) ^ (f.qmin + (n : ℤ))) * c
  · have hlt' : k % 2 ^ f.fb + 1 < 2 ^ f.fb := by omega
    have hn1 : k + 1 = k / 2 ^ f.fb * 2 ^ f.fb + (k % 2 ^ f.fb + 1) := by
      rw [Nat.mul_comm (k / 2 ^ f.fb)]; omega
    obtain ⟨hd, hm⟩ := div_mod_of hn1 hlt'
    have hpl : f.place (k + 1) = f.place k := by simp [FFmt.place, hd]
    rw [hpl, hd, hm]
    split <;> push_cast <;> ring

theorem FFmt.mag_strictMono (f : FFmt) : StrictMono f.mag :=
  strictMono_nat_of_lt_succ fun k => by rw [FFmt.mag_succ]; linarith [two_zpow_pos (f.place k)]

theorem FFmt.mag_nonneg (f : FFmt) (k : Nat) : 0 ≤ f.mag k := by
  have := f.mag_strictMono.monotone (Nat.zero_le k); rwa [f.mag_zero] at this

/-- The code of `t` units of 2^q, where q is the exponent of its last place. -/
theorem FFmt.magCode_mag (f : FFmt) (t : Nat) (q : ℤ) (h0 : f.qmin ≤ q) (h1 : t < 2 ^ (f.fb + 1)) (h2 : 2 ^ f.fb ≤ t ∨ q = f.qmin) :
    f.mag (f.magCode t q) = t * 2 ^ q ∧ f.place (f.magCode t q) = q := by
  have hp : 0 < 2 ^ f.fb := Nat.two_pow_pos _
  by_cases hs : t < 2 ^ f.fb
  · have hq : q = f.qmin := by rcases h2 with h | h; omega; exact h
    have hd : t / 2 ^ f.fb = 0 := Nat.div_eq_of_lt hs
    have hpl : f.place t = q := by simp [FFmt.place, hd, hq]
    simp only [FFmt.magCode, hs, if_true]
    rw [FFmt.mag_eq, hpl, hd]; simp
  · obtain ⟨c, hc⟩ : ∃ c : ℕ, q = f.qmin + c := ⟨(q - f.qmin).toNat, by omega⟩
    have hn : (q - f.qmin + 1).toNat = c + 1 := by omega
    obtain ⟨r, hr⟩ : ∃ r, t = 2 ^ f.fb + r := ⟨t - 2 ^ f.fb, by omega⟩
    have hrl : r < 2 ^ f.fb := by rw [Nat.pow_succ] at h1; omega
    have hk : f.magCode t q = (c + 1) * 2 ^ f.fb + r := by
      simp only [FFmt.magCode, hs, if_false, hn]; omega
    obtain ⟨hd, hm⟩ := div_mod_of hk hrl
    have hpl : f.place (f.magCode t q) = q := by simp only [FFmt.place, hd]; omega
    refine ⟨?_, hpl⟩
    rw [FFmt.mag_eq, hpl, hd, hm, if_neg (by omega), hr]

/-- The next number of units has the next code. -/
theorem FFmt.magCode_succ (f : FFmt) (t : Nat) (q : ℤ) (h2 : 2 ^ f.fb ≤ t ∨ q = f.qmin) :
    f.magCode (t + 1) q = f.magCode t q + 1 := by
  simp only [FFmt.magCode]
  by_cases hs : t < 2 ^ f.fb
  · have hq : q = f.qmin := by rcases h2 with h | h; omega; exact h
    subst hq
    simp only [hs, if_true]
    by_cases ht : t + 1 < 2 ^ f.fb
    · simp [ht]
    · have : t + 1 = 2 ^ f.fb := by omega
      simp [this]
  · rw [if_neg hs, if_neg (by omega)]; omega

theorem FFmt.magCode_even (f : FFmt) (hf : 1 ≤ f.fb) (t : Nat) (q : ℤ) : f.magCode t q % 2 = t % 2 := by
  obtain ⟨n, hn⟩ : ∃ n, f.fb = n + 1 := ⟨f.fb - 1, by omega⟩
  have h2 : 2 ^ f.fb = 2 * 2 ^ n := by rw [hn, Nat.pow_succ]; ring
  simp only [FFmt.magCode]
  split
  · rfl
  · generalize (q - f.qmin + 1).toNat = c
    have : c * 2 ^ f.fb = 2 * (c * 2 ^ n) := by rw [h2]; ring
    omega

/-! Rounding. -/

/-- An exact member of the grid is its own rounding. -/
theorem nearestOn_exact (g : Nat → ℚ) (hm : StrictMono g) (rm : RMode) (neg : Bool) (q : ℚ) (k : Nat) (h : g k = q) : nearestOn g rm neg q k := by
  have hb : g k ≤ q ∧ q < g (k + 1) := ⟨h.le, h ▸ hm (Nat.lt_succ_self k)⟩
  have ha : q ≤ g k ∧ ∀ j, j < k → g j < q := ⟨h.ge, fun j hj => h ▸ hm hj⟩
  cases rm
  · refine ⟨fun j => by simp [h], fun j hj he => ?_⟩
    simp only [h, sub_self, abs_zero, abs_eq_zero] at he
    exact absurd (hm.injective (by linarith)) hj
  · exact hb
  · simp only [nearestOn]; split <;> assumption
  · simp only [nearestOn]; split <;> assumption

/-- Between two members of the grid, the choice of `roundsAway`. -/
theorem nearestOn_between (g : Nat → ℚ) (hm : StrictMono g) (rm : RMode) (neg : Bool) (q : ℚ) (k : Nat) (odd : Bool) (r2 half : Nat)
    (h1 : g k ≤ q) (h2 : q < g (k + 1)) (hodd : odd = (k % 2 == 1))
    (hz : r2 = 0 ↔ q = g k)
    (hgt : half < r2 ↔ g (k + 1) - q < q - g k) (heq : half = r2 ↔ g (k + 1) - q = q - g k) :
    nearestOn g rm neg q (if roundsAway rm neg odd r2 half then k + 1 else k) := by
  have hb : g k ≤ q ∧ q < g (k + 1) := ⟨h1, h2⟩
  have hab : 0 < r2 → (q ≤ g (k + 1) ∧ ∀ j, j < k + 1 → g j < q) := fun hr =>
    ⟨h2.le, fun j hj => lt_of_le_of_lt (hm.monotone (by omega)) (lt_of_le_of_ne h1 fun e => by have := hz.2 e.symm; omega)⟩
  have haz : r2 = 0 → (q ≤ g k ∧ ∀ j, j < k → g j < q) := fun hr =>
    ⟨(hz.1 hr).le, fun j hj => (hz.1 hr) ▸ hm hj⟩
  have dk : |q - g k| = q - g k := abs_of_nonneg (by linarith)
  have dk1 : |q - g (k + 1)| = g (k + 1) - q := by rw [abs_of_neg (by linarith)]; ring
  have lo : ∀ j, j < k → q - g k < |q - g j| := fun j hj => by
    have := hm hj; rw [abs_of_nonneg (by linarith)]; linarith
  have hi : ∀ j, k + 1 < j → g (k + 1) - q < |q - g j| := fun j hj => by
    have := hm hj; rw [abs_of_neg (by linarith)]; linarith
  cases rm
  · by_cases hc : half < r2 ∨ (half = r2 ∧ odd = true)
    · have e : roundsAway .rne neg odd r2 half = true := by
        simp only [roundsAway, Bool.or_eq_true, decide_eq_true_eq, Bool.and_eq_true, beq_iff_eq]
        rcases hc with h | ⟨h, h'⟩; exact .inl h; exact .inr ⟨h.symm, h'⟩
      rw [if_pos e]
      have hle : g (k + 1) - q ≤ q - g k := by
        rcases hc with h | h; exact (hgt.1 h).le; exact (heq.1 h.1).le
      refine ⟨fun j => ?_, fun j hj he => ?_⟩
      · rw [dk1]
        rcases lt_trichotomy j k with h | h | h
        · linarith [lo j h]
        · rw [h, dk]; exact hle
        · rcases Nat.lt_or_eq_of_le h with h' | h'
          · exact (hi j h').le
          · rw [← h', dk1]
      · rw [dk1] at he
        rcases lt_trichotomy j k with h | h | h
        · linarith [lo j h]
        · rw [h, dk] at he
          rcases hc with h3 | h3
          · linarith [hgt.1 h3]
          · rw [hodd] at h3; have := h3.2; simp at this; omega
        · rcases Nat.lt_or_eq_of_le h with h' | h'
          · linarith [hi j h']
          · exact absurd h'.symm hj
    · have e : roundsAway .rne neg odd r2 half = false := by
        rw [← Bool.not_eq_true]
        simp only [roundsAway, Bool.or_eq_true, decide_eq_true_eq, Bool.and_eq_true, beq_iff_eq]
        rintro (h | ⟨h, h'⟩); exact hc (.inl h); exact hc (.inr ⟨h.symm, h'⟩)
      rw [e]; simp only [Bool.false_eq_true, if_false]
      have hle : q - g k ≤ g (k + 1) - q := by
        by_contra hh; exact hc (.inl (hgt.2 (by linarith)))
      refine ⟨fun j => ?_, fun j hj he => ?_⟩
      · rw [dk]
        rcases lt_trichotomy j k with h | h | h
        · exact (lo j h).le
        · rw [h, dk]
        · rcases Nat.lt_or_eq_of_le h with h' | h'
          · linarith [hi j h']
          · rw [← h', dk1]; exact hle
      · rw [dk] at he
        rcases lt_trichotomy j k with h | h | h
        · linarith [lo j h]
        · exact absurd h hj
        · rcases Nat.lt_or_eq_of_le h with h' | h'
          · linarith [hi j h']
          · rw [← h', dk1] at he
            have h3 := heq.2 he
            have : odd ≠ true := fun ho => hc (.inr ⟨h3, ho⟩)
            rw [hodd] at this; simp at this; omega
  · exact hb
  · cases neg
    · by_cases hr : r2 = 0
      · simp [roundsAway, hr, nearestOn]; exact haz hr
      · have : 0 < r2 := by omega
        simp only [roundsAway, nearestOn, this, decide_true, Bool.not_false, Bool.true_and, if_true, Bool.false_eq_true, if_false]; exact hab this
    · simp [roundsAway, nearestOn]; exact hb
  · cases neg
    · simp [roundsAway, nearestOn]; exact hb
    · by_cases hr : r2 = 0
      · simp [roundsAway, hr, nearestOn]; exact haz hr
      · have : 0 < r2 := by omega
        simp only [roundsAway, nearestOn, this, decide_true, Bool.true_and, if_true]; exact hab this

/-- The last place of a magnitude: it is at most 2^(fb+1) units of it, and at least 2^fb unless it is subnormal. -/
theorem FFmt.quantum_spec (f : FFmt) (m : Nat) (e : ℤ) (hm : m ≠ 0) :
    f.qmin ≤ f.quantum m e ∧
    (f.quantum m e ≤ e → m * 2 ^ (e - f.quantum m e).toNat < 2 ^ (f.fb + 1) ∧
      (2 ^ f.fb ≤ m * 2 ^ (e - f.quantum m e).toNat ∨ f.quantum m e = f.qmin)) ∧
    (e < f.quantum m e → m / 2 ^ (f.quantum m e - e).toNat < 2 ^ (f.fb + 1) ∧
      (2 ^ f.fb ≤ m / 2 ^ (f.quantum m e - e).toNat ∨ f.quantum m e = f.qmin)) := by
  have hl : 2 ^ Nat.log2 m ≤ m := Nat.log2_self_le hm
  have hu : m < 2 ^ (Nat.log2 m + 1) := Nat.lt_log2_self
  have hq0 : f.qmin ≤ f.quantum m e := by simp only [FFmt.quantum]; split <;> omega
  have hq1 : (Nat.log2 m : ℤ) + e - f.fb ≤ f.quantum m e := by simp only [FFmt.quantum]; split <;> omega
  have hq2 : f.quantum m e = f.qmin ∨ f.quantum m e = (Nat.log2 m : ℤ) + e - f.fb := by
    simp only [FFmt.quantum]; split <;> simp
  generalize f.quantum m e = q at *
  refine ⟨hq0, fun h => ?_, fun h => ?_⟩
  · obtain ⟨s, hs⟩ : ∃ s : ℕ, e = q + s := ⟨(e - q).toNat, by omega⟩
    have e1 : (e - q).toNat = s := by omega
    rw [e1]
    have hle : Nat.log2 m + s ≤ f.fb := by omega
    constructor
    · calc m * 2 ^ s < 2 ^ (Nat.log2 m + 1) * 2 ^ s := Nat.mul_lt_mul_of_pos_right hu (Nat.two_pow_pos _)
        _ = 2 ^ (Nat.log2 m + 1 + s) := by rw [← Nat.pow_add]
        _ ≤ _ := Nat.pow_le_pow_right (by decide) (by omega)
    · rcases hq2 with h3 | h3
      · exact .inr h3
      · left
        have : Nat.log2 m + s = f.fb := by omega
        rw [← this, Nat.pow_add]; exact Nat.mul_le_mul_right _ hl
  · obtain ⟨s, hs⟩ : ∃ s : ℕ, q = e + s := ⟨(q - e).toNat, by omega⟩
    have e1 : (q - e).toNat = s := by omega
    rw [e1]
    have hle : Nat.log2 m ≤ f.fb + s := by omega
    constructor
    · rw [Nat.div_lt_iff_lt_mul (Nat.two_pow_pos _), ← Nat.pow_add]
      exact lt_of_lt_of_le hu (Nat.pow_le_pow_right (by decide) (by omega))
    · rcases hq2 with h3 | h3
      · exact .inr h3
      · left
        rw [Nat.le_div_iff_mul_le (Nat.two_pow_pos _), ← Nat.pow_add]
        have : f.fb + s = Nat.log2 m := by omega
        rw [this]; exact hl

/-- A value's magnitude. -/
def FVal.magnitude (m : Nat) (e : ℤ) : ℚ := m * 2 ^ e

/-- A magnitude between two members of the grid: the code below it, and how far it is from it. -/
theorem FFmt.floor_spec (f : FFmt) (m : Nat) (e : ℤ) (hm : m ≠ 0) (h : e < f.quantum m e) :
    let q := f.quantum m e
    let s := (q - e).toNat
    let k := f.magCode (m / 2 ^ s) q
    f.mag k = (m / 2 ^ s : ℕ) * 2 ^ q ∧ f.mag (k + 1) = f.mag k + 2 ^ q ∧
      FVal.magnitude m e = f.mag k + ((m % 2 ^ s : ℕ) : ℚ) * 2 ^ e ∧ (2 : ℚ) ^ q = 2 ^ s * 2 ^ e := by
  intro q s k
  have sp := f.quantum_spec m e hm
  obtain ⟨s1, s2⟩ := sp.2.2 h
  obtain ⟨c1, c2⟩ := f.magCode_mag (m / 2 ^ s) q sp.1 s1 s2
  have hs : q = e + s := by simp only [s]; omega
  have hq : (2 : ℚ) ^ q = 2 ^ s * 2 ^ e := by
    rw [hs, zpow_add₀ (by norm_num), zpow_natCast]; ring
  refine ⟨c1, by rw [f.mag_succ, c2], ?_, hq⟩
  rw [c1, hq, FVal.magnitude]
  have hd := Nat.div_add_mod m (2 ^ s)
  have hd' : (m : ℚ) = 2 ^ s * (m / 2 ^ s : ℕ) + (m % 2 ^ s : ℕ) := by exact_mod_cast hd.symm
  rw [hd']; ring

/-- Rounding chooses the code that the mode asks for (R118, R119). -/
theorem roundMag_nearest (f : FFmt) (hf : 1 ≤ f.fb) (rm : RMode) (neg : Bool) (m : Nat) (e : ℤ) :
    nearestOn f.mag rm neg (FVal.magnitude m e) (roundMag f rm neg m e) := by
  by_cases h0 : m = 0
  · subst h0
    simp only [roundMag, if_true]
    exact nearestOn_exact f.mag f.mag_strictMono rm neg _ 0 (by simp [FFmt.mag_zero, FVal.magnitude])
  · have sp := f.quantum_spec m e h0
    simp only [roundMag, h0, if_false]
    by_cases hq : f.quantum m e ≤ e
    · simp only [hq, if_true]
      obtain ⟨s1, s2⟩ := sp.2.1 hq
      apply nearestOn_exact f.mag f.mag_strictMono
      rw [(f.magCode_mag _ _ sp.1 s1 s2).1, FVal.magnitude]
      push_cast
      rw [mul_assoc, ← zpow_natCast, ← zpow_add₀ (by norm_num)]
      congr 2; omega
    · simp only [hq, if_false]
      have hlt : e < f.quantum m e := by omega
      obtain ⟨s1, s2⟩ := sp.2.2 hlt
      obtain ⟨c1, c2, c3, c4⟩ := f.floor_spec m e h0 hlt
      generalize hs : (f.quantum m e - e).toNat = s at *
      generalize hqq : f.quantum m e = q at *
      have key := nearestOn_between f.mag f.mag_strictMono rm neg (FVal.magnitude m e) (f.magCode (m / 2 ^ s) q) (m / 2 ^ s % 2 == 1)
        (2 * (m % 2 ^ s)) (2 ^ s)
      have pe := two_zpow_pos e
      have hr : m % 2 ^ s < 2 ^ s := Nat.mod_lt _ (Nat.two_pow_pos _)
      have hr' : ((m % 2 ^ s : ℕ) : ℚ) < 2 ^ s := by exact_mod_cast hr
      have key := key (by rw [c3]; nlinarith [Nat.cast_nonneg (α := ℚ) (m % 2 ^ s)])
        (by rw [c2, c3, c4]; nlinarith) (by rw [f.magCode_even hf])
        (by
          rw [c3]
          constructor
          · intro h; have : m % 2 ^ s = 0 := by omega
            rw [this]; simp
          · intro h
            have : ((m % 2 ^ s : ℕ) : ℚ) * 2 ^ e = 0 := by linarith
            rcases mul_eq_zero.1 this with h | h
            · have : m % 2 ^ s = 0 := by exact_mod_cast h
              omega
            · linarith)
        (by
          rw [c2, c3, c4]
          constructor
          · intro h
            have : ((2 : ℚ) ^ s) < 2 * (m % 2 ^ s : ℕ) := by exact_mod_cast h
            nlinarith
          · intro h
            have : ((2 : ℚ) ^ s) < 2 * (m % 2 ^ s : ℕ) := by
              by_contra hh
              have := mul_le_mul_of_nonneg_right (not_lt.1 hh) pe.le
              linarith
            exact_mod_cast this)
        (by
          rw [c2, c3, c4]
          constructor
          · intro h
            have : ((2 : ℚ) ^ s) = 2 * (m % 2 ^ s : ℕ) := by exact_mod_cast h
            rw [this]; ring
          · intro h
            have : ((2 : ℚ) ^ s - 2 * (m % 2 ^ s : ℕ)) * 2 ^ e = 0 := by linarith
            rcases mul_eq_zero.1 this with h | h
            · have : ((2 : ℚ) ^ s) = 2 * (m % 2 ^ s : ℕ) := by linarith
              exact_mod_cast this
            · linarith)
      by_cases hra : roundsAway rm neg (m / 2 ^ s % 2 == 1) (2 * (m % 2 ^ s)) (2 ^ s) = true
      · rw [if_pos hra] at key ⊢
        rwa [f.magCode_succ _ _ s2]
      · rw [if_neg hra] at key ⊢
        exact key

/-- Stochastic rounding chooses the code below a magnitude, or the next one where the random word lies below the fraction
(R128). -/
theorem roundSr_code (f : FFmt) (m : Nat) (e : ℤ) (w : Nat) (h0 : m ≠ 0) (h : e < f.quantum m e) :
    let q := f.quantum m e
    let s := (q - e).toNat
    let k := f.magCode (m / 2 ^ s) q
    f.mag k ≤ FVal.magnitude m e ∧ FVal.magnitude m e < f.mag (k + 1) ∧
      f.magCode (if w < m % 2 ^ s * 2 ^ 32 / 2 ^ s then m / 2 ^ s + 1 else m / 2 ^ s) q =
        if (w : ℤ) < ⌊2 ^ 32 * ((FVal.magnitude m e - f.mag k) / (f.mag (k + 1) - f.mag k))⌋ then k + 1 else k := by
  intro q s k
  obtain ⟨c1, c2, c3, c4⟩ := f.floor_spec m e h0 h
  have pe := two_zpow_pos e
  have hr : m % 2 ^ s < 2 ^ s := Nat.mod_lt _ (Nat.two_pow_pos _)
  have hr' : ((m % 2 ^ s : ℕ) : ℚ) < 2 ^ s := by exact_mod_cast hr
  have c2 : f.mag (k + 1) = f.mag k + 2 ^ q := c2
  have c3 : FVal.magnitude m e = f.mag k + ((m % 2 ^ s : ℕ) : ℚ) * 2 ^ e := c3
  have c4 : (2 : ℚ) ^ q = 2 ^ s * 2 ^ e := c4
  refine ⟨?_, ?_, ?_⟩
  · rw [c3]; nlinarith [Nat.cast_nonneg (α := ℚ) (m % 2 ^ s)]
  · rw [c2, c3, c4]; nlinarith
  · have hfl : ⌊(2 : ℚ) ^ 32 * ((FVal.magnitude m e - f.mag k) / (f.mag (k + 1) - f.mag k))⌋ =
        ((m % 2 ^ s * 2 ^ 32 / 2 ^ s : ℕ) : ℤ) := by
      have : (2 : ℚ) ^ 32 * ((FVal.magnitude m e - f.mag k) / (f.mag (k + 1) - f.mag k)) =
          ((m % 2 ^ s * 2 ^ 32 : ℕ) : ℚ) / ((2 ^ s : ℕ) : ℚ) := by
        rw [c2, c3, c4]; push_cast; field_simp
        try ring
      rw [this, Rat.floor_natCast_div_natCast]; exact (Int.natCast_div _ _).symm
    rw [hfl]
    by_cases hw : w < m % 2 ^ s * 2 ^ 32 / 2 ^ s
    · rw [if_pos hw, if_pos (by exact_mod_cast hw)]
      exact f.magCode_succ _ _ ((f.quantum_spec m e h0).2.2 h).2
    · rw [if_neg hw, if_neg (by exact_mod_cast hw)]

/-! Values. -/

/-- A model value as an exact one. -/
def FVal.exact : FVal → Ext
  | .nan => .nan
  | .inf s => .inf s
  | .fin s m e => .fin s (FVal.magnitude m e)

theorem signed_eq (f : FFmt) (neg : Bool) (k : Nat) : signed f neg k = (if neg then f.signBit else 0) + k := by
  cases neg <;> simp [signed]

theorem overflowCode_eq (f : FFmt) (rm : RMode) (sat inf neg : Bool) : overflowCode f rm sat inf neg = f.overflow rm sat inf neg := by
  simp only [overflowCode, FFmt.overflow, infCode, signed_eq]
  cases f.e4m3 <;> cases sat <;> cases rm <;> cases neg <;> simp

theorem infCode_eq (f : FFmt) (sat inf neg : Bool) :
    infCode f sat inf neg = if f.e4m3 then (if inf then 0x7F else (if neg then f.signBit else 0) + 0x7E)
      else (if neg then f.signBit else 0) + (if sat then f.overCode - 1 else f.overCode) := by
  simp only [infCode, signed_eq]
  cases f.e4m3 <;> cases sat <;> rfl

/-- Correct rounding: the one rounding of every instruction (R118, R119). -/
theorem roundF_roundsTo (f : FFmt) (hf : 1 ≤ f.fb) (rm : RMode) (sat inf : Bool) (x : FVal) :
    f.roundsTo rm sat inf x.exact (roundF f rm sat inf x) := by
  cases x with
  | nan => rfl
  | inf neg => exact infCode_eq f sat inf neg
  | fin neg m e =>
    refine ⟨_, roundMag_nearest f hf rm neg m e, ?_⟩
    simp only [roundF, signed_eq, overflowCode_eq]

theorem flush_eq (f : FFmt) (on : Bool) (w : Nat) : flush f on w = f.ftz on w := by
  simp only [flush, FFmt.ftz]
  have hc : (on && isSubnormal f w) = true ↔
      (on = true ∧ w % f.signBit ≠ 0 ∧ w % f.signBit / 2 ^ f.fb = 0) := by simp [isSubnormal]
  by_cases h : on = true ∧ w % f.signBit ≠ 0 ∧ w % f.signBit / 2 ^ f.fb = 0
  · rw [if_pos h, if_pos (hc.2 h)]
    have : w / f.signBit % 2 = 0 ∨ w / f.signBit % 2 = 1 := by omega
    rcases this with h' | h' <;> simp [h']
  · rw [if_neg h, if_neg (fun h' => h (hc.1 h'))]

theorem decodeF_exact (f : FFmt) (w : Nat) : (decodeF f w).exact = f.ext w := by
  simp only [decodeF, FFmt.ext]
  cases he : f.e4m3
  · simp only [Bool.false_and, Bool.false_eq_true, if_false, Bool.not_false, Bool.true_and, beq_iff_eq]
    by_cases h1 : w % f.signBit / 2 ^ f.fb = 2 ^ f.eb - 1
    · simp only [h1, if_true]
      split <;> rfl
    · simp only [h1, if_false]
      by_cases h0 : w % f.signBit / 2 ^ f.fb = 0
      · have hlt : w % f.signBit < 2 ^ f.fb := by
          rcases Nat.div_eq_zero_iff.1 h0 with h | h
          · exact absurd h (Nat.two_pow_pos _).ne'
          · exact h
        simp only [h0, if_true, FVal.exact, FVal.magnitude]
        rw [FFmt.mag_eq, h0, FFmt.place, h0, Nat.mod_eq_of_lt hlt]; simp
      · simp only [h0, if_false, FVal.exact, FVal.magnitude]
        rw [FFmt.mag_eq, if_neg h0, FFmt.place]
  · simp only [Bool.true_and, beq_iff_eq, if_true, Bool.not_true, Bool.false_and, Bool.false_eq_true, if_false]
    by_cases h1 : w % f.signBit = 0x7F
    · simp only [h1, if_true]; rfl
    · simp only [h1, if_false]
      by_cases h0 : w % f.signBit / 2 ^ f.fb = 0
      · have hlt : w % f.signBit < 2 ^ f.fb := by
          rcases Nat.div_eq_zero_iff.1 h0 with h | h
          · exact absurd h (Nat.two_pow_pos _).ne'
          · exact h
        simp only [h0, if_true, FVal.exact, FVal.magnitude]
        rw [FFmt.mag_eq, h0, FFmt.place, h0, Nat.mod_eq_of_lt hlt]; simp
      · simp only [h0, if_false, FVal.exact, FVal.magnitude]
        rw [FFmt.mag_eq, if_neg h0, FFmt.place]

/-- A dyadic number as a rational one. -/
def Dy.rat (x : Dy) : ℚ := x.n * 2 ^ x.e

theorem Dy.rat_add (a b : Dy) : (a.add b).rat = a.rat + b.rat := by
  have h2 : (2 : ℚ) ≠ 0 := by norm_num
  simp only [Dy.add]
  split
  · next h =>
    obtain ⟨s, hs⟩ : ∃ s : ℕ, b.e = a.e + s := ⟨(b.e - a.e).toNat, by omega⟩
    have e1 : (b.e - a.e).toNat = s := by omega
    simp only [Dy.rat, e1]
    rw [hs, zpow_add₀ h2, zpow_natCast]; push_cast; ring
  · next h =>
    obtain ⟨s, hs⟩ : ∃ s : ℕ, a.e = b.e + s := ⟨(a.e - b.e).toNat, by omega⟩
    have e1 : (a.e - b.e).toNat = s := by omega
    simp only [Dy.rat, e1]
    rw [hs, zpow_add₀ h2, zpow_natCast]; push_cast; ring

theorem FVal.rat_dy (x : FVal) : x.dy.rat = x.exact.num := by
  cases x with
  | nan => simp [FVal.dy, Dy.rat, FVal.exact, Ext.num]
  | inf s => simp [FVal.dy, Dy.rat, FVal.exact, Ext.num]
  | fin s m e => cases s <;> simp [FVal.dy, Dy.rat, FVal.exact, Ext.num, FVal.magnitude]

theorem foldl_rat (xs : List Dy) (a : Dy) : (xs.foldl Dy.add a).rat = a.rat + (xs.map Dy.rat).sum := by
  induction xs generalizing a with
  | nil => simp
  | cons x xs ih => simp [List.foldl_cons, ih, Dy.rat_add, add_assoc]

theorem FVal.negZero_exact (x : FVal) (h1 : x.isNan = false) (h2 : ∀ s, x.isInf s = false) :
    x.isNegZero = (x.exact.negative && decide (x.exact.num = 0)) := by
  cases x with
  | nan => simp [FVal.isNan] at h1
  | inf s => simpa [FVal.isInf] using h2 s
  | fin s m e =>
    have : ((2 : ℚ) ^ e) ≠ 0 := (two_zpow_pos e).ne'
    cases s <;> simp [FVal.isNegZero, FVal.exact, Ext.negative, Ext.num, FVal.magnitude, this] <;> rfl

/-- The sum of R123 and R124, exactly. -/
theorem sumF_exact (xs : List FVal) : (sumF xs).exact = Ext.sum (xs.map FVal.exact) := by
  have hn : (xs.map FVal.exact).any Ext.isNan = xs.any FVal.isNan := by
    rw [List.any_map]; congr 1; funext x; cases x <;> rfl
  have hi : ∀ b, (xs.map FVal.exact).any (Ext.isInf b) = xs.any (FVal.isInf · b) := by
    intro b; rw [List.any_map]; congr 1; funext x
    cases x with
    | nan => rfl
    | inf s => cases s <;> cases b <;> rfl
    | fin s m e => rfl
  have ht : ((xs.map FVal.exact).map Ext.num).sum = ((xs.map FVal.dy).foldl Dy.add ⟨0, 0⟩).rat := by
    rw [foldl_rat]
    simp only [List.map_map, Dy.rat]
    simp only [Int.cast_zero, zero_mul, zero_add]
    congr 1; apply List.map_congr_left; intro x _
    simp only [Function.comp, ← FVal.rat_dy]
  simp only [sumF, Ext.sum, hn, hi, ht]
  have hc : (xs.any FVal.isNan || xs.any (FVal.isInf · true) && xs.any (FVal.isInf · false)) = true ↔
      (xs.any FVal.isNan = true ∨ xs.any (FVal.isInf · true) = true ∧ xs.any (FVal.isInf · false) = true) := by
    simp only [Bool.or_eq_true, Bool.and_eq_true]
  by_cases h1 : (xs.any FVal.isNan || xs.any (FVal.isInf · true) && xs.any (FVal.isInf · false)) = true
  · have h1' := hc.1 h1
    rw [if_pos h1, if_pos h1']; rfl
  · have h1' := fun h => h1 (hc.2 h)
    rw [if_neg h1, if_neg h1']
    by_cases h2 : xs.any (FVal.isInf · true) = true
    · rw [if_pos h2, if_pos h2]; rfl
    · rw [if_neg h2, if_neg h2]
      by_cases h3 : xs.any (FVal.isInf · false) = true
      · rw [if_pos h3, if_pos h3]; rfl
      · rw [if_neg h3, if_neg h3]
        have hx : ∀ x ∈ xs, x.isNan = false ∧ ∀ s, x.isInf s = false := by
          intro x hx
          simp only [Bool.or_eq_true, not_or] at h1
          have n1 := h1.1
          simp only [List.any_eq_true, not_exists, not_and, Bool.not_eq_true] at n1 h2 h3
          exact ⟨n1 x hx, fun s => by cases s; exact h3 x hx; exact h2 x hx⟩
        generalize ((xs.map FVal.dy).foldl Dy.add ⟨0, 0⟩) = t
        have pe := two_zpow_pos t.e
        have hz : t.rat = 0 ↔ t.n = 0 := by simp [Dy.rat, pe.ne']
        by_cases h4 : t.n = 0
        · rw [if_pos h4, if_pos (hz.2 h4)]
          simp only [FVal.exact, FVal.magnitude, Nat.cast_zero, zero_mul, List.all_map]
          congr 1
          rw [Bool.eq_iff_iff, List.all_eq_true, List.all_eq_true]
          constructor
          · intro h x hx'; rw [← h x hx', Function.comp, FVal.negZero_exact x (hx x hx').1 (hx x hx').2]
          · intro h x hx'; rw [← h x hx', Function.comp, FVal.negZero_exact x (hx x hx').1 (hx x hx').2]
        · rw [if_neg h4, if_neg (fun h => h4 (hz.1 h))]
          simp only [FVal.exact, FVal.magnitude]
          have hneg : t.rat < 0 ↔ t.n < 0 := by
            simp only [Dy.rat]
            constructor
            · intro h; by_contra hh
              have : (0 : ℚ) ≤ t.n := by exact_mod_cast not_lt.1 hh
              nlinarith
            · intro h
              have : ((t.n : ℤ) : ℚ) < 0 := by exact_mod_cast h
              nlinarith
          have habs : |t.rat| = (t.n.natAbs : ℚ) * 2 ^ t.e := by
            rw [Dy.rat, abs_mul, abs_of_pos pe]; congr 1
            rw [Nat.cast_natAbs, Int.cast_abs]
          rw [habs]; congr 1; simp only [hneg]

/-- The exact product. -/
theorem mul_exact (a b : FVal) : (a.mul b).exact = Ext.mul a.exact b.exact := by
  have hz : ∀ (m : Nat) (e : ℤ), FVal.magnitude m e = 0 ↔ m = 0 := by
    intro m e; simp [FVal.magnitude, (two_zpow_pos e).ne']
  cases a with
  | nan => cases b <;> rfl
  | inf s =>
    cases b with
    | nan => rfl
    | inf t => rfl
    | fin t n g => by_cases h : n = 0 <;> simp [FVal.mul, FVal.exact, Ext.mul, hz, h]
  | fin s m e =>
    cases b with
    | nan => rfl
    | inf t => by_cases h : m = 0 <;> simp [FVal.mul, FVal.exact, Ext.mul, hz, h]
    | fin t n g =>
      simp only [FVal.mul, FVal.exact, Ext.mul, FVal.magnitude]
      congr 1
      push_cast; rw [zpow_add₀ (by norm_num)]; ring

theorem neg_exact (a : FVal) : a.neg.exact = a.exact.negate := by cases a <;> rfl

/-! Sizes of patterns. -/

/-- The sizes that the laws below rest on: the codes of a format fit below its sign bit. -/
structure FFmt.fits (f : FFmt) : Prop where
  frac : 1 ≤ f.fb
  top : 0 < f.overCode ∧ f.overCode < f.signBit
  e4m3 : f.e4m3 = true → 0x7F < f.signBit
  nan : f.nanCode < f.signBit

theorem fits_f32 : fmtF32.fits := ⟨by decide, by decide, by decide, by decide⟩
theorem fits_f16 : fmtF16.fits := ⟨by decide, by decide, by decide, by decide⟩
theorem fits_bf16 : fmtBf16.fits := ⟨by decide, by decide, by decide, by decide⟩
theorem fits_e4m3 : fmtE4m3.fits := ⟨by decide, by decide, by decide, by decide⟩
theorem fits_e5m2 : fmtE5m2.fits := ⟨by decide, by decide, by decide, by decide⟩

theorem fits_of (ty : Sys2Proof.Ty) : (fmtOf ty).fits := by
  cases ty <;> first | exact fits_f16 | exact fits_bf16 | exact fits_e4m3 | exact fits_e5m2 | exact fits_f32

theorem FFmt.overflow_lt (f : FFmt) (hf : f.fits) (rm : RMode) (sat inf neg : Bool) : f.overflow rm sat inf neg < 2 * f.signBit := by
  have h1 := hf.top
  simp only [FFmt.overflow]
  cases he : f.e4m3
  · simp only [Bool.false_eq_true, if_false]; split <;> split <;> omega
  · have := hf.e4m3 he
    simp only [if_true]; split <;> (try split) <;> omega

theorem FFmt.roundsTo_lt (f : FFmt) (hf : f.fits) (rm : RMode) (sat inf : Bool) (x : Ext) (w : Nat) (h : f.roundsTo rm sat inf x w) :
    w < 2 * f.signBit := by
  have h1 := hf.top
  have h2 := hf.nan
  cases x with
  | nan => simp only [FFmt.roundsTo] at h; omega
  | inf neg =>
    simp only [FFmt.roundsTo] at h
    cases he : f.e4m3
    · rw [he] at h; simp only [Bool.false_eq_true, if_false] at h; revert h; split <;> split <;> omega
    · have := hf.e4m3 he
      rw [he] at h; simp only [if_true] at h; revert h; split <;> (try split) <;> omega
  | fin neg q =>
    obtain ⟨k, _, h⟩ := h
    have := f.overflow_lt hf rm sat inf neg
    revert h; split <;> (try split) <;> omega

theorem FFmt.ftz_lt (f : FFmt) (on : Bool) (w : Nat) (h : w < 2 * f.signBit) : f.ftz on w < 2 * f.signBit := by
  simp only [FFmt.ftz]; split <;> (try split) <;> omega

/-- Stochastic rounding, as claims say it (R128). -/
theorem roundSr_roundsSr (f : FFmt) (sat inf : Bool) (w : Nat) (x : FVal) :
    f.roundsSr sat inf w x.exact (roundSr f sat inf w x) := by
  cases x with
  | nan => rfl
  | inf neg => exact infCode_eq f false inf neg
  | fin neg m e =>
    have fin : ∀ k c, f.mag k ≤ FVal.magnitude m e → FVal.magnitude m e < f.mag (k + 1) →
        c = (if (w : ℤ) < ⌊2 ^ 32 * ((FVal.magnitude m e - f.mag k) / (f.mag (k + 1) - f.mag k))⌋ then k + 1 else k) →
        f.roundsSr sat inf w (FVal.fin neg m e).exact
          (if c < f.overCode then signed f neg c else overflowCode f .rne sat inf neg) := by
      intro k c h1 h2 h3
      exact ⟨k, h1, h2, by rw [← h3, signed_eq, overflowCode_eq]⟩
    have hex : ∀ k, f.mag k = FVal.magnitude m e →
        f.roundsSr sat inf w (FVal.fin neg m e).exact
          (if k < f.overCode then signed f neg k else overflowCode f .rne sat inf neg) := by
      intro k hk
      refine fin k k hk.le (hk ▸ f.mag_strictMono (Nat.lt_succ_self k)) ?_
      rw [hk]; simp
    simp only [roundSr]
    by_cases h0 : m = 0
    · simp only [h0, if_true]
      subst h0
      exact hex 0 (by simp [FFmt.mag_zero, FVal.magnitude])
    · simp only [h0, if_false]
      by_cases hq : f.quantum m e ≤ e
      · simp only [hq, if_true]
        have sp := f.quantum_spec m e h0
        obtain ⟨s1, s2⟩ := sp.2.1 hq
        apply hex
        rw [(f.magCode_mag _ _ sp.1 s1 s2).1, FVal.magnitude]
        push_cast
        rw [mul_assoc, ← zpow_natCast, ← zpow_add₀ (by norm_num)]
        congr 2; omega
      · simp only [hq, if_false]
        obtain ⟨a1, a2, a3⟩ := roundSr_code f m e w h0 (by omega)
        exact fin _ _ a1 a2 a3

/-- A magnitude rounded to a whole number (R120, R187). -/
theorem roundInt_nearest (rm : RMode) (neg : Bool) (m : Nat) (e : ℤ) :
    ∃ k : Nat, nearestOn (fun j => (j : ℚ)) rm neg (FVal.magnitude m e) k ∧ roundInt rm neg m e = if neg then -(k : Int) else k := by
  have hm : StrictMono (fun j : Nat => (j : ℚ)) := Nat.strictMono_cast
  simp only [roundInt]
  by_cases he : 0 ≤ e
  · simp only [he, if_true]
    obtain ⟨s, rfl⟩ : ∃ s : ℕ, e = s := ⟨e.toNat, by omega⟩
    refine ⟨_, nearestOn_exact _ hm rm neg _ (m * 2 ^ (s : ℤ).toNat) ?_, rfl⟩
    simp [FVal.magnitude]
  · simp only [he, if_false]
    obtain ⟨s, hs⟩ : ∃ s : ℕ, e = -(s : ℤ) := ⟨(-e).toNat, by omega⟩
    subst hs
    have e1 : (-(-(s : ℤ))).toNat = s := by omega
    simp only [e1]
    have hd := Nat.div_add_mod m (2 ^ s)
    have hd' : (m : ℚ) = 2 ^ s * (m / 2 ^ s : ℕ) + (m % 2 ^ s : ℕ) := by exact_mod_cast hd.symm
    have hr : m % 2 ^ s < 2 ^ s := Nat.mod_lt _ (Nat.two_pow_pos _)
    have hr' : ((m % 2 ^ s : ℕ) : ℚ) < 2 ^ s := by exact_mod_cast hr
    have hp : (0 : ℚ) < 2 ^ s := by positivity
    have hv : FVal.magnitude m (-(s : ℤ)) = (m / 2 ^ s : ℕ) + ((m % 2 ^ s : ℕ) : ℚ) / 2 ^ s := by
      rw [FVal.magnitude, zpow_neg, zpow_natCast, ← div_eq_mul_inv, hd', add_div, mul_div_cancel_left₀ _ hp.ne']
    have hf0 : 0 ≤ ((m % 2 ^ s : ℕ) : ℚ) / 2 ^ s := by positivity
    have hf1 : ((m % 2 ^ s : ℕ) : ℚ) / 2 ^ s < 1 := by rw [div_lt_one hp]; exact hr'
    have key := nearestOn_between (fun j : Nat => (j : ℚ)) hm rm neg (FVal.magnitude m (-(s : ℤ))) (m / 2 ^ s) (m / 2 ^ s % 2 == 1)
      (2 * (m % 2 ^ s)) (2 ^ s)
    have key := key (by rw [hv]; linarith) (by rw [hv]; push_cast; linarith) rfl
      (by
        rw [hv]
        constructor
        · intro h; have : m % 2 ^ s = 0 := by omega
          rw [this]; simp
        · intro h
          have : ((m % 2 ^ s : ℕ) : ℚ) / 2 ^ s = 0 := by linarith
          rcases div_eq_zero_iff.1 this with h | h
          · have : m % 2 ^ s = 0 := by exact_mod_cast h
            omega
          · exact absurd h hp.ne')
      (by
        rw [hv]
        have : (2 ^ s < 2 * (m % 2 ^ s)) ↔ (1 : ℚ) < 2 * (((m % 2 ^ s : ℕ) : ℚ) / 2 ^ s) := by
          rw [← mul_div_assoc, lt_div_iff₀ hp, one_mul]; exact_mod_cast Iff.rfl
        rw [this]; push_cast
        constructor <;> intro h <;> linarith)
      (by
        rw [hv]
        have : (2 ^ s = 2 * (m % 2 ^ s)) ↔ (1 : ℚ) = 2 * (((m % 2 ^ s : ℕ) : ℚ) / 2 ^ s) := by
          rw [← mul_div_assoc, eq_div_iff hp.ne', one_mul]; exact_mod_cast Iff.rfl
        rw [this]; push_cast
        constructor <;> intro h <;> linarith)
    refine ⟨_, key, ?_⟩
    by_cases hra : roundsAway rm neg (m / 2 ^ s % 2 == 1) (2 * (m % 2 ^ s)) (2 ^ s) = true
    · simp only [if_pos hra]
    · simp only [if_neg hra]

/-- A result of the model, as claims say it (R185). -/
theorem result_resultOf (f : FFmt) (hf : f.fits) (rm : RMode) (ftz : Bool) (x : FVal) :
    f.resultOf rm ftz x.exact (flush f ftz (roundF f rm false false x)) ∧ flush f ftz (roundF f rm false false x) < 2 * f.signBit := by
  have h := roundF_roundsTo f hf.frac rm false false x
  refine ⟨⟨_, h, flush_eq ..⟩, ?_⟩
  rw [flush_eq]; exact f.ftz_lt ftz _ (f.roundsTo_lt hf rm false false _ _ h)

theorem operand_exact (f : FFmt) (ftz : Bool) (w : Nat) : (decodeF f (flush f ftz w)).exact = f.operand ftz w := by
  rw [decodeF_exact, flush_eq]; rfl

/-- Comparison of values. -/
theorem FVal.num_sub (a b : FVal) (ha : ∃ s m e, a = .fin s m e) (hb : ∃ s m e, b = .fin s m e) :
    ((a.dy.add ⟨-b.dy.n, b.dy.e⟩).n < 0 ↔ a.exact.num < b.exact.num) ∧
    ((a.dy.add ⟨-b.dy.n, b.dy.e⟩).n = 0 ↔ a.exact.num = b.exact.num) := by
  obtain ⟨s, m, e, rfl⟩ := ha
  obtain ⟨t, n, g, rfl⟩ := hb
  have h := Dy.rat_add (FVal.fin s m e).dy ⟨-(FVal.fin t n g).dy.n, (FVal.fin t n g).dy.e⟩
  have hn : Dy.rat ⟨-(FVal.fin t n g).dy.n, (FVal.fin t n g).dy.e⟩ = -(FVal.fin t n g).dy.rat := by simp [Dy.rat]
  rw [hn, FVal.rat_dy, FVal.rat_dy] at h
  generalize (FVal.fin s m e).dy.add _ = y at *
  have pe := two_zpow_pos y.e
  simp only [Dy.rat] at h
  constructor
  · constructor
    · intro hy
      have : ((y.n : ℤ) : ℚ) < 0 := by exact_mod_cast hy
      nlinarith
    · intro hy
      have : ((y.n : ℤ) : ℚ) * 2 ^ y.e < 0 := by linarith
      have : ((y.n : ℤ) : ℚ) < 0 := by by_contra hh; nlinarith
      exact_mod_cast this
  · constructor
    · intro hy; rw [hy] at h; simp at h; linarith
    · intro hy
      have : ((y.n : ℤ) : ℚ) * 2 ^ y.e = 0 := by linarith
      rcases mul_eq_zero.1 this with h | h
      · exact_mod_cast h
      · exact absurd h pe.ne'

end Sys2Proof.Machine
end

