-- ==== Sys2Proof/Laws/Maps.lean ====
section
/-! SUPPORT. Laws of the sparse maps, of lists by number, and of lane masks. -/

namespace Sys2Proof.Machine

/-! Sparse maps. -/

@[simp] theorem SMap.find_put {α : Type} (m : SMap α) (a b : Nat) (x : α) :
    SMap.find (SMap.put m a x) b = if a = b then some x else SMap.find m b := by
  induction m with
  | nil => simp [SMap.put, SMap.find]
  | cons y m ih =>
    obtain ⟨k, v⟩ := y
    simp only [SMap.put]
    split
    · simp [SMap.find]
    · split
      · next h => subst h; simp only [SMap.find]; split <;> simp_all
      · simp only [SMap.find, ih]; split
        · next h1 h2 h3 => subst h3; simp [h2]
        · rfl

@[simp] theorem SMap.find_erase {α : Type} (m : SMap α) (a b : Nat) :
    SMap.find (SMap.erase m a) b = if a = b then none else SMap.find m b := by
  induction m with
  | nil => simp [SMap.erase, SMap.find]
  | cons y m ih =>
    obtain ⟨k, v⟩ := y
    by_cases h : k = a
    · subst h; simp only [SMap.erase, if_true, ih, SMap.find]; split <;> simp_all
    · simp only [SMap.erase, h, if_false, SMap.find, ih]; split
      · next h2 => subst h2; simp [Ne.symm h]
      · rfl

@[simp] theorem SMap.getD_put {α : Type} (m : SMap α) (a b : Nat) (x d : α) :
    SMap.getD (SMap.put m a x) b d = if a = b then x else SMap.getD m b d := by
  simp only [SMap.getD, SMap.find_put]; split <;> rfl

/-- A written member reads back, and every other one is as before. -/
@[simp] theorem SMap.getD_set {α : Type} [DecidableEq α] (m : SMap α) (a b : Nat) (x d : α) :
    SMap.getD (SMap.set d m a x) b d = if a = b then x else SMap.getD m b d := by
  simp only [SMap.set]
  split
  · next h => simp only [SMap.getD, SMap.find_erase]; split <;> simp_all
  · simp

@[simp] theorem SMap.find_upd {α : Type} (m : SMap α) (a b : Nat) (f : α → α) :
    SMap.find (SMap.upd m a f) b = if a = b then (SMap.find m b).map f else SMap.find m b := by
  simp only [SMap.upd]
  split
  · next x h => simp only [SMap.find_put]; split
                · next h2 => subst h2; simp [h]
                · rfl
  · next h => split
              · next h2 => subst h2; simp [h]
              · rfl

/-! Lists by number. -/

@[simp] theorem mapLanes_length (f : Nat → Lane → Lane) (n : Nat) (ls : List Lane) :
    (mapLanes f n ls).length = ls.length := by
  induction ls generalizing n with
  | nil => rfl
  | cons x xs ih => simp [mapLanes, ih]

/-- A changed lane, by its number. -/
theorem atD_mapLanes (f : Nat → Lane → Lane) (ls : List Lane) (n l : Nat) (d : Lane) :
    atD (mapLanes f n ls) l d = if l < ls.length then f (n + l) (atD ls l d) else d := by
  induction ls generalizing n l with
  | nil => simp [mapLanes, atD]
  | cons x xs ih =>
    cases l with
    | zero => simp [mapLanes, atD]
    | succ l => simp [mapLanes, atD, ih, Nat.add_comm, Nat.add_left_comm]

theorem atD_beyond {α : Type} (xs : List α) (i : Nat) (d : α) (h : xs.length ≤ i) : atD xs i d = d := by
  induction xs generalizing i with
  | nil => rfl
  | cons x xs ih =>
    cases i with
    | zero => simp at h
    | succ i => simp only [List.length_cons, Nat.add_le_add_iff_right] at h; simp [atD, ih i h]

@[simp] theorem setAt_length {α : Type} (xs : List α) (i : Nat) (y : α) : (setAt xs i y).length = xs.length := by
  induction xs generalizing i with
  | nil => rfl
  | cons x xs ih => cases i <;> simp [setAt, ih]

theorem atD_setAt {α : Type} (xs : List α) (i j : Nat) (y d : α) :
    atD (setAt xs i y) j d = if i = j ∧ j < xs.length then y else atD xs j d := by
  induction xs generalizing i j with
  | nil => simp [setAt, atD]
  | cons x xs ih =>
    cases i <;> cases j <;> simp [setAt, atD, ih]

@[simp] theorem mem_span (a n x : Nat) : x ∈ span a n ↔ a ≤ x ∧ x < a + n := by
  induction n generalizing a with
  | zero => simp [span]
  | succ n ih => simp only [span, List.mem_cons, ih]; omega

@[simp] theorem span_length (a n : Nat) : (span a n).length = n := by
  induction n generalizing a with
  | zero => rfl
  | succ n ih => simp [span, ih]

/-! Lane masks. -/

theorem foldl_mask_getLsbD (f : Nat → Bool) (ls : List Nat) (m : Mask) (l : Nat) :
    (ls.foldl (fun m l => if f l then m ||| (1#32 <<< l) else m) m).getLsbD l =
      (m.getLsbD l || (decide (l < 32) && decide (l ∈ ls) && f l)) := by
  induction ls generalizing m with
  | nil => simp
  | cons x xs ih =>
    simp only [List.foldl_cons, ih, List.mem_cons]
    by_cases hx : l = x
    · subst hx
      by_cases hf : f l <;> by_cases h32 : l < 32 <;> simp [hf, h32, BitVec.getLsbD_shiftLeft]
    · by_cases hf : f x
      · have : (1#32 <<< x).getLsbD l = false := by
          simp only [BitVec.getLsbD_shiftLeft, BitVec.getLsbD_one]
          by_cases h1 : l < x
          · simp [h1]
          · have : l - x ≠ 0 := by omega
            simp [this]
        simp [hf, this, hx]
      · simp [hf, hx]

/-- The lanes of a mask made from a test are those below 32 that meet it. -/
@[simp] theorem Mask.ofPred_getLsbD (f : Nat → Bool) (l : Nat) :
    (Mask.ofPred f).getLsbD l = (decide (l < 32) && f l) := by
  simp only [Mask.ofPred, foldl_mask_getLsbD, lanes32]; simp

@[simp] theorem Mask.mem_lanes (m : Mask) (l : Nat) : l ∈ Mask.lanes m ↔ m.getLsbD l = true := by
  simp only [Mask.lanes, lanes32, List.mem_filter, mem_span]
  constructor
  · rintro ⟨_, h⟩; exact h
  · intro h; exact ⟨⟨Nat.zero_le _, by simpa using BitVec.lt_of_getLsbD h⟩, h⟩

@[simp] theorem Mask.lanes_zero : Mask.lanes 0 = [] := by decide

theorem Mask.lanes_eq_nil {m : Mask} : Mask.lanes m = [] ↔ m = 0 := by
  constructor
  · intro h
    apply BitVec.eq_of_getLsbD_eq
    intro i hi
    have : i ∉ Mask.lanes m := by simp [h]
    simpa [Mask.mem_lanes] using this
  · rintro rfl; exact Mask.lanes_zero

end Sys2Proof.Machine
end

