-- ==== Sys2Proof/Laws/State.lean ====
section
/-! SUPPORT. What the named updates of the state leave in each field: the field that one writes, and every other field as it
was. -/

namespace Sys2Proof.Machine

/-! `State.setPart`. -/

@[simp] theorem State.setPart_svc (s : State) (p : Nat) (x : Part) : (s.setPart p x).svc = s.svc := rfl
@[simp] theorem State.setPart_hbmOk (s : State) (p : Nat) (x : Part) : (s.setPart p x).hbmOk = s.hbmOk := rfl
@[simp] theorem State.setPart_hbmFail (s : State) (p : Nat) (x : Part) : (s.setPart p x).hbmFail = s.hbmFail := rfl
@[simp] theorem State.setPart_svcCmd (s : State) (p : Nat) (x : Part) : (s.setPart p x).svcCmd = s.svcCmd := rfl
@[simp] theorem State.setPart_svcRes (s : State) (p : Nat) (x : Part) : (s.setPart p x).svcRes = s.svcRes := rfl
@[simp] theorem State.setPart_stages (s : State) (p : Nat) (x : Part) : (s.setPart p x).stages = s.stages := rfl
@[simp] theorem State.setPart_bootFailed (s : State) (p : Nat) (x : Part) : (s.setPart p x).bootFailed = s.bootFailed := rfl
@[simp] theorem State.setPart_bootDone (s : State) (p : Nat) (x : Part) : (s.setPart p x).bootDone = s.bootDone := rfl
@[simp] theorem State.setPart_meas (s : State) (p : Nat) (x : Part) : (s.setPart p x).meas = s.meas := rfl
@[simp] theorem State.setPart_fuseCount (s : State) (p : Nat) (x : Part) : (s.setPart p x).fuseCount = s.fuseCount := rfl
@[simp] theorem State.setPart_flash (s : State) (p : Nat) (x : Part) : (s.setPart p x).flash = s.flash := rfl
@[simp] theorem State.setPart_activeBank (s : State) (p : Nat) (x : Part) : (s.setPart p x).activeBank = s.activeBank := rfl
@[simp] theorem State.setPart_uncommitted (s : State) (p : Nat) (x : Part) : (s.setPart p x).uncommitted = s.uncommitted := rfl
@[simp] theorem State.setPart_flashBusy (s : State) (p : Nat) (x : Part) : (s.setPart p x).flashBusy = s.flashBusy := rfl
@[simp] theorem State.setPart_pendingUpdate (s : State) (p : Nat) (x : Part) : (s.setPart p x).pendingUpdate = s.pendingUpdate := rfl
@[simp] theorem State.setPart_hbmErrs (s : State) (p : Nat) (x : Part) : (s.setPart p x).hbmErrs = s.hbmErrs := rfl
@[simp] theorem State.setPart_ptBase (s : State) (p : Nat) (x : Part) : (s.setPart p x).ptBase = s.ptBase := rfl
@[simp] theorem State.setPart_ptAt (s : State) (p : Nat) (x : Part) : (s.setPart p x).ptAt = s.ptAt := rfl
@[simp] theorem State.setPart_ptStep (s : State) (p : Nat) (x : Part) : (s.setPart p x).ptStep = s.ptStep := rfl
@[simp] theorem State.setPart_ptRate (s : State) (p : Nat) (x : Part) : (s.setPart p x).ptRate = s.ptRate := rfl
@[simp] theorem State.setPart_stepping (s : State) (p : Nat) (x : Part) : (s.setPart p x).stepping = s.stepping := rfl
@[simp] theorem State.setPart_txts (s : State) (p : Nat) (x : Part) : (s.setPart p x).txts = s.txts := rfl
@[simp] theorem State.setPart_ptsel (s : State) (p : Nat) (x : Part) : (s.setPart p x).ptsel = s.ptsel := rfl
@[simp] theorem State.setPart_l2wayg (s : State) (p : Nat) (x : Part) : (s.setPart p x).l2wayg = s.l2wayg := rfl
@[simp] theorem State.setPart_mcwin (s : State) (p : Nat) (x : Part) : (s.setPart p x).mcwin = s.mcwin := rfl
@[simp] theorem State.setPart_l2sel (s : State) (p : Nat) (x : Part) : (s.setPart p x).l2sel = s.l2sel := rfl
@[simp] theorem State.setPart_qosErr (s : State) (p : Nat) (x : Part) : (s.setPart p x).qosErr = s.qosErr := rfl
@[simp] theorem State.setPart_slices (s : State) (p : Nat) (x : Part) : (s.setPart p x).slices = s.slices := rfl
@[simp] theorem State.setPart_l2 (s : State) (p : Nat) (x : Part) : (s.setPart p x).l2 = s.l2 := rfl
@[simp] theorem State.setPart_mcasts (s : State) (p : Nat) (x : Part) : (s.setPart p x).mcasts = s.mcasts := rfl
@[simp] theorem State.setPart_merged (s : State) (p : Nat) (x : Part) : (s.setPart p x).merged = s.merged := rfl
@[simp] theorem State.setPart_homeReqs (s : State) (p : Nat) (x : Part) : (s.setPart p x).homeReqs = s.homeReqs := rfl
@[simp] theorem State.setPart_slicePwr (s : State) (p : Nat) (x : Part) : (s.setPart p x).slicePwr = s.slicePwr := rfl
@[simp] theorem State.setPart_tlb1 (s : State) (p : Nat) (x : Part) : (s.setPart p x).tlb1 = s.tlb1 := rfl
@[simp] theorem State.setPart_tlb2 (s : State) (p : Nat) (x : Part) : (s.setPart p x).tlb2 = s.tlb2 := rfl
@[simp] theorem State.setPart_walkCache (s : State) (p : Nat) (x : Part) : (s.setPart p x).walkCache = s.walkCache := rfl
@[simp] theorem State.setPart_walks (s : State) (p : Nat) (x : Part) : (s.setPart p x).walks = s.walks := rfl
@[simp] theorem State.setPart_stBase (s : State) (p : Nat) (x : Part) : (s.setPart p x).stBase = s.stBase := rfl
@[simp] theorem State.setPart_scCmd (s : State) (p : Nat) (x : Part) : (s.setPart p x).scCmd = s.scCmd := rfl
@[simp] theorem State.setPart_scStat (s : State) (p : Nat) (x : Part) : (s.setPart p x).scStat = s.scStat := rfl
@[simp] theorem State.setPart_streams (s : State) (p : Nat) (x : Part) : (s.setPart p x).streams = s.streams := rfl
@[simp] theorem State.setPart_ftBase (s : State) (p : Nat) (x : Part) : (s.setPart p x).ftBase = s.ftBase := rfl
@[simp] theorem State.setPart_ftInv (s : State) (p : Nat) (x : Part) : (s.setPart p x).ftInv = s.ftInv := rfl
@[simp] theorem State.setPart_ftBusy (s : State) (p : Nat) (x : Part) : (s.setPart p x).ftBusy = s.ftBusy := rfl
@[simp] theorem State.setPart_ftFault (s : State) (p : Nat) (x : Part) : (s.setPart p x).ftFault = s.ftFault := rfl
@[simp] theorem State.setPart_ftlb (s : State) (p : Nat) (x : Part) : (s.setPart p x).ftlb = s.ftlb := rfl
@[simp] theorem State.setPart_keyCmd (s : State) (p : Nat) (x : Part) : (s.setPart p x).keyCmd = s.keyCmd := rfl
@[simp] theorem State.setPart_keyBusy (s : State) (p : Nat) (x : Part) : (s.setPart p x).keyBusy = s.keyBusy := rfl
@[simp] theorem State.setPart_keyRes (s : State) (p : Nat) (x : Part) : (s.setPart p x).keyRes = s.keyRes := rfl
@[simp] theorem State.setPart_keyGiven (s : State) (p : Nat) (x : Part) : (s.setPart p x).keyGiven = s.keyGiven := rfl
@[simp] theorem State.setPart_keyNext (s : State) (p : Nat) (x : Part) : (s.setPart p x).keyNext = s.keyNext := rfl
@[simp] theorem State.setPart_keys (s : State) (p : Nat) (x : Part) : (s.setPart p x).keys = s.keys := rfl
@[simp] theorem State.setPart_nextSerial (s : State) (p : Nat) (x : Part) : (s.setPart p x).nextSerial = s.nextSerial := rfl
@[simp] theorem State.setPart_rtBase (s : State) (p : Nat) (x : Part) : (s.setPart p x).rtBase = s.rtBase := rfl
@[simp] theorem State.setPart_pkgNum (s : State) (p : Nat) (x : Part) : (s.setPart p x).pkgNum = s.pkgNum := rfl
@[simp] theorem State.setPart_ports (s : State) (p : Nat) (x : Part) : (s.setPart p x).ports = s.ports := rfl
@[simp] theorem State.setPart_sent (s : State) (p : Nat) (x : Part) : (s.setPart p x).sent = s.sent := rfl
@[simp] theorem State.setPart_out (s : State) (p : Nat) (x : Part) : (s.setPart p x).out = s.out := rfl
@[simp] theorem State.setPart_remotes (s : State) (p : Nat) (x : Part) : (s.setPart p x).remotes = s.remotes := rfl
@[simp] theorem State.setPart_recs (s : State) (p : Nat) (x : Part) : (s.setPart p x).recs = s.recs := rfl
@[simp] theorem State.setPart_nextTag (s : State) (p : Nat) (x : Part) : (s.setPart p x).nextTag = s.nextTag := rfl
@[simp] theorem State.setPart_windows (s : State) (p : Nat) (x : Part) : (s.setPart p x).windows = s.windows := rfl
@[simp] theorem State.setPart_colls (s : State) (p : Nat) (x : Part) : (s.setPart p x).colls = s.colls := rfl
@[simp] theorem State.setPart_collIn (s : State) (p : Nat) (x : Part) : (s.setPart p x).collIn = s.collIn := rfl
@[simp] theorem State.setPart_rxTimes (s : State) (p : Nat) (x : Part) : (s.setPart p x).rxTimes = s.rxTimes := rfl
@[simp] theorem State.setPart_hpart (s : State) (p : Nat) (x : Part) : (s.setPart p x).hpart = s.hpart := rfl
@[simp] theorem State.setPart_hostLast (s : State) (p : Nat) (x : Part) : (s.setPart p x).hostLast = s.hostLast := rfl
@[simp] theorem State.setPart_hostResv (s : State) (p : Nat) (x : Part) : (s.setPart p x).hostResv = s.hostResv := rfl
@[simp] theorem State.setPart_hostHeld (s : State) (p : Nat) (x : Part) : (s.setPart p x).hostHeld = s.hostHeld := rfl
@[simp] theorem State.setPart_hostWait (s : State) (p : Nat) (x : Part) : (s.setPart p x).hostWait = s.hostWait := rfl
@[simp] theorem State.setPart_mem (s : State) (p : Nat) (x : Part) : (s.setPart p x).mem = s.mem := rfl
@[simp] theorem State.setPart_hist (s : State) (p : Nat) (x : Part) : (s.setPart p x).hist = s.hist := rfl
@[simp] theorem State.setPart_wseq (s : State) (p : Nat) (x : Part) : (s.setPart p x).wseq = s.wseq := rfl
@[simp] theorem State.setPart_wb (s : State) (p : Nat) (x : Part) : (s.setPart p x).wb = s.wb := rfl
@[simp] theorem State.setPart_ktag (s : State) (p : Nat) (x : Part) : (s.setPart p x).ktag = s.ktag := rfl
@[simp] theorem State.setPart_blobs (s : State) (p : Nat) (x : Part) : (s.setPart p x).blobs = s.blobs := rfl
@[simp] theorem State.setPart_nextBlob (s : State) (p : Nat) (x : Part) : (s.setPart p x).nextBlob = s.nextBlob := rfl
@[simp] theorem State.setPart_stores (s : State) (p : Nat) (x : Part) : (s.setPart p x).stores = s.stores := rfl
@[simp] theorem State.setPart_nextStore (s : State) (p : Nat) (x : Part) : (s.setPart p x).nextStore = s.nextStore := rfl
@[simp] theorem State.setPart_sram (s : State) (p : Nat) (x : Part) : (s.setPart p x).sram = s.sram := rfl
@[simp] theorem State.setPart_absentLines (s : State) (p : Nat) (x : Part) : (s.setPart p x).absentLines = s.absentLines := rfl
@[simp] theorem State.setPart_clusters (s : State) (p : Nat) (x : Part) : (s.setPart p x).clusters = s.clusters := rfl
@[simp] theorem State.setPart_banks (s : State) (p : Nat) (x : Part) : (s.setPart p x).banks = s.banks := rfl
@[simp] theorem State.setPart_parts (s : State) (p : Nat) (x : Part) : (s.setPart p x).parts = SMap.put s.parts p x := rfl
@[simp] theorem State.setPart_launches (s : State) (p : Nat) (x : Part) : (s.setPart p x).launches = s.launches := rfl
@[simp] theorem State.setPart_teams (s : State) (p : Nat) (x : Part) : (s.setPart p x).teams = s.teams := rfl
@[simp] theorem State.setPart_groups (s : State) (p : Nat) (x : Part) : (s.setPart p x).groups = s.groups := rfl
@[simp] theorem State.setPart_chans (s : State) (p : Nat) (x : Part) : (s.setPart p x).chans = s.chans := rfl
@[simp] theorem State.setPart_nextUid (s : State) (p : Nat) (x : Part) : (s.setPart p x).nextUid = s.nextUid := rfl
@[simp] theorem State.setPart_rotation (s : State) (p : Nat) (x : Part) : (s.setPart p x).rotation = s.rotation := rfl
@[simp] theorem State.setPart_scalarIssues (s : State) (p : Nat) (x : Part) : (s.setPart p x).scalarIssues = s.scalarIssues := rfl
@[simp] theorem State.setPart_replies (s : State) (p : Nat) (x : Part) : (s.setPart p x).replies = s.replies := rfl
@[simp] theorem State.setPart_negotiated (s : State) (p : Nat) (x : Part) : (s.setPart p x).negotiated = s.negotiated := rfl
@[simp] theorem State.setPart_reports (s : State) (p : Nat) (x : Part) : (s.setPart p x).reports = s.reports := rfl
@[simp] theorem State.setPart_profiles (s : State) (p : Nat) (x : Part) : (s.setPart p x).profiles = s.profiles := rfl
@[simp] theorem State.setPart_agenda (s : State) (p : Nat) (x : Part) : (s.setPart p x).agenda = s.agenda := rfl
@[simp] theorem State.setPart_cur (s : State) (p : Nat) (x : Part) : (s.setPart p x).cur = s.cur := rfl
@[simp] theorem State.setPart_second (s : State) (p : Nat) (x : Part) : (s.setPart p x).second = s.second := rfl
@[simp] theorem State.setPart_waiting (s : State) (p : Nat) (x : Part) : (s.setPart p x).waiting = s.waiting := rfl
@[simp] theorem State.setPart_served (s : State) (p : Nat) (x : Part) : (s.setPart p x).served = s.served := rfl
@[simp] theorem State.setPart_now (s : State) (p : Nat) (x : Part) : (s.setPart p x).now = s.now := rfl
@[simp] theorem State.setPart_fresh (s : State) (p : Nat) (x : Part) : (s.setPart p x).fresh = s.fresh := rfl
@[simp] theorem State.setPart_stuck (s : State) (p : Nat) (x : Part) : (s.setPart p x).stuck = s.stuck := rfl

/-! `State.setCluster`. -/

@[simp] theorem State.setCluster_svc (s : State) (c : Nat) (x : Cluster) : (s.setCluster c x).svc = s.svc := rfl
@[simp] theorem State.setCluster_hbmOk (s : State) (c : Nat) (x : Cluster) : (s.setCluster c x).hbmOk = s.hbmOk := rfl
@[simp] theorem State.setCluster_hbmFail (s : State) (c : Nat) (x : Cluster) : (s.setCluster c x).hbmFail = s.hbmFail := rfl
@[simp] theorem State.setCluster_svcCmd (s : State) (c : Nat) (x : Cluster) : (s.setCluster c x).svcCmd = s.svcCmd := rfl
@[simp] theorem State.setCluster_svcRes (s : State) (c : Nat) (x : Cluster) : (s.setCluster c x).svcRes = s.svcRes := rfl
@[simp] theorem State.setCluster_stages (s : State) (c : Nat) (x : Cluster) : (s.setCluster c x).stages = s.stages := rfl
@[simp] theorem State.setCluster_bootFailed (s : State) (c : Nat) (x : Cluster) : (s.setCluster c x).bootFailed = s.bootFailed := rfl
@[simp] theorem State.setCluster_bootDone (s : State) (c : Nat) (x : Cluster) : (s.setCluster c x).bootDone = s.bootDone := rfl
@[simp] theorem State.setCluster_meas (s : State) (c : Nat) (x : Cluster) : (s.setCluster c x).meas = s.meas := rfl
@[simp] theorem State.setCluster_fuseCount (s : State) (c : Nat) (x : Cluster) : (s.setCluster c x).fuseCount = s.fuseCount := rfl
@[simp] theorem State.setCluster_flash (s : State) (c : Nat) (x : Cluster) : (s.setCluster c x).flash = s.flash := rfl
@[simp] theorem State.setCluster_activeBank (s : State) (c : Nat) (x : Cluster) : (s.setCluster c x).activeBank = s.activeBank := rfl
@[simp] theorem State.setCluster_uncommitted (s : State) (c : Nat) (x : Cluster) : (s.setCluster c x).uncommitted = s.uncommitted := rfl
@[simp] theorem State.setCluster_flashBusy (s : State) (c : Nat) (x : Cluster) : (s.setCluster c x).flashBusy = s.flashBusy := rfl
@[simp] theorem State.setCluster_pendingUpdate (s : State) (c : Nat) (x : Cluster) : (s.setCluster c x).pendingUpdate = s.pendingUpdate := rfl
@[simp] theorem State.setCluster_hbmErrs (s : State) (c : Nat) (x : Cluster) : (s.setCluster c x).hbmErrs = s.hbmErrs := rfl
@[simp] theorem State.setCluster_ptBase (s : State) (c : Nat) (x : Cluster) : (s.setCluster c x).ptBase = s.ptBase := rfl
@[simp] theorem State.setCluster_ptAt (s : State) (c : Nat) (x : Cluster) : (s.setCluster c x).ptAt = s.ptAt := rfl
@[simp] theorem State.setCluster_ptStep (s : State) (c : Nat) (x : Cluster) : (s.setCluster c x).ptStep = s.ptStep := rfl
@[simp] theorem State.setCluster_ptRate (s : State) (c : Nat) (x : Cluster) : (s.setCluster c x).ptRate = s.ptRate := rfl
@[simp] theorem State.setCluster_stepping (s : State) (c : Nat) (x : Cluster) : (s.setCluster c x).stepping = s.stepping := rfl
@[simp] theorem State.setCluster_txts (s : State) (c : Nat) (x : Cluster) : (s.setCluster c x).txts = s.txts := rfl
@[simp] theorem State.setCluster_ptsel (s : State) (c : Nat) (x : Cluster) : (s.setCluster c x).ptsel = s.ptsel := rfl
@[simp] theorem State.setCluster_l2wayg (s : State) (c : Nat) (x : Cluster) : (s.setCluster c x).l2wayg = s.l2wayg := rfl
@[simp] theorem State.setCluster_mcwin (s : State) (c : Nat) (x : Cluster) : (s.setCluster c x).mcwin = s.mcwin := rfl
@[simp] theorem State.setCluster_l2sel (s : State) (c : Nat) (x : Cluster) : (s.setCluster c x).l2sel = s.l2sel := rfl
@[simp] theorem State.setCluster_qosErr (s : State) (c : Nat) (x : Cluster) : (s.setCluster c x).qosErr = s.qosErr := rfl
@[simp] theorem State.setCluster_slices (s : State) (c : Nat) (x : Cluster) : (s.setCluster c x).slices = s.slices := rfl
@[simp] theorem State.setCluster_l2 (s : State) (c : Nat) (x : Cluster) : (s.setCluster c x).l2 = s.l2 := rfl
@[simp] theorem State.setCluster_mcasts (s : State) (c : Nat) (x : Cluster) : (s.setCluster c x).mcasts = s.mcasts := rfl
@[simp] theorem State.setCluster_merged (s : State) (c : Nat) (x : Cluster) : (s.setCluster c x).merged = s.merged := rfl
@[simp] theorem State.setCluster_homeReqs (s : State) (c : Nat) (x : Cluster) : (s.setCluster c x).homeReqs = s.homeReqs := rfl
@[simp] theorem State.setCluster_slicePwr (s : State) (c : Nat) (x : Cluster) : (s.setCluster c x).slicePwr = s.slicePwr := rfl
@[simp] theorem State.setCluster_tlb1 (s : State) (c : Nat) (x : Cluster) : (s.setCluster c x).tlb1 = s.tlb1 := rfl
@[simp] theorem State.setCluster_tlb2 (s : State) (c : Nat) (x : Cluster) : (s.setCluster c x).tlb2 = s.tlb2 := rfl
@[simp] theorem State.setCluster_walkCache (s : State) (c : Nat) (x : Cluster) : (s.setCluster c x).walkCache = s.walkCache := rfl
@[simp] theorem State.setCluster_walks (s : State) (c : Nat) (x : Cluster) : (s.setCluster c x).walks = s.walks := rfl
@[simp] theorem State.setCluster_stBase (s : State) (c : Nat) (x : Cluster) : (s.setCluster c x).stBase = s.stBase := rfl
@[simp] theorem State.setCluster_scCmd (s : State) (c : Nat) (x : Cluster) : (s.setCluster c x).scCmd = s.scCmd := rfl
@[simp] theorem State.setCluster_scStat (s : State) (c : Nat) (x : Cluster) : (s.setCluster c x).scStat = s.scStat := rfl
@[simp] theorem State.setCluster_streams (s : State) (c : Nat) (x : Cluster) : (s.setCluster c x).streams = s.streams := rfl
@[simp] theorem State.setCluster_ftBase (s : State) (c : Nat) (x : Cluster) : (s.setCluster c x).ftBase = s.ftBase := rfl
@[simp] theorem State.setCluster_ftInv (s : State) (c : Nat) (x : Cluster) : (s.setCluster c x).ftInv = s.ftInv := rfl
@[simp] theorem State.setCluster_ftBusy (s : State) (c : Nat) (x : Cluster) : (s.setCluster c x).ftBusy = s.ftBusy := rfl
@[simp] theorem State.setCluster_ftFault (s : State) (c : Nat) (x : Cluster) : (s.setCluster c x).ftFault = s.ftFault := rfl
@[simp] theorem State.setCluster_ftlb (s : State) (c : Nat) (x : Cluster) : (s.setCluster c x).ftlb = s.ftlb := rfl
@[simp] theorem State.setCluster_keyCmd (s : State) (c : Nat) (x : Cluster) : (s.setCluster c x).keyCmd = s.keyCmd := rfl
@[simp] theorem State.setCluster_keyBusy (s : State) (c : Nat) (x : Cluster) : (s.setCluster c x).keyBusy = s.keyBusy := rfl
@[simp] theorem State.setCluster_keyRes (s : State) (c : Nat) (x : Cluster) : (s.setCluster c x).keyRes = s.keyRes := rfl
@[simp] theorem State.setCluster_keyGiven (s : State) (c : Nat) (x : Cluster) : (s.setCluster c x).keyGiven = s.keyGiven := rfl
@[simp] theorem State.setCluster_keyNext (s : State) (c : Nat) (x : Cluster) : (s.setCluster c x).keyNext = s.keyNext := rfl
@[simp] theorem State.setCluster_keys (s : State) (c : Nat) (x : Cluster) : (s.setCluster c x).keys = s.keys := rfl
@[simp] theorem State.setCluster_nextSerial (s : State) (c : Nat) (x : Cluster) : (s.setCluster c x).nextSerial = s.nextSerial := rfl
@[simp] theorem State.setCluster_rtBase (s : State) (c : Nat) (x : Cluster) : (s.setCluster c x).rtBase = s.rtBase := rfl
@[simp] theorem State.setCluster_pkgNum (s : State) (c : Nat) (x : Cluster) : (s.setCluster c x).pkgNum = s.pkgNum := rfl
@[simp] theorem State.setCluster_ports (s : State) (c : Nat) (x : Cluster) : (s.setCluster c x).ports = s.ports := rfl
@[simp] theorem State.setCluster_sent (s : State) (c : Nat) (x : Cluster) : (s.setCluster c x).sent = s.sent := rfl
@[simp] theorem State.setCluster_out (s : State) (c : Nat) (x : Cluster) : (s.setCluster c x).out = s.out := rfl
@[simp] theorem State.setCluster_remotes (s : State) (c : Nat) (x : Cluster) : (s.setCluster c x).remotes = s.remotes := rfl
@[simp] theorem State.setCluster_recs (s : State) (c : Nat) (x : Cluster) : (s.setCluster c x).recs = s.recs := rfl
@[simp] theorem State.setCluster_nextTag (s : State) (c : Nat) (x : Cluster) : (s.setCluster c x).nextTag = s.nextTag := rfl
@[simp] theorem State.setCluster_windows (s : State) (c : Nat) (x : Cluster) : (s.setCluster c x).windows = s.windows := rfl
@[simp] theorem State.setCluster_colls (s : State) (c : Nat) (x : Cluster) : (s.setCluster c x).colls = s.colls := rfl
@[simp] theorem State.setCluster_collIn (s : State) (c : Nat) (x : Cluster) : (s.setCluster c x).collIn = s.collIn := rfl
@[simp] theorem State.setCluster_rxTimes (s : State) (c : Nat) (x : Cluster) : (s.setCluster c x).rxTimes = s.rxTimes := rfl
@[simp] theorem State.setCluster_hpart (s : State) (c : Nat) (x : Cluster) : (s.setCluster c x).hpart = s.hpart := rfl
@[simp] theorem State.setCluster_hostLast (s : State) (c : Nat) (x : Cluster) : (s.setCluster c x).hostLast = s.hostLast := rfl
@[simp] theorem State.setCluster_hostResv (s : State) (c : Nat) (x : Cluster) : (s.setCluster c x).hostResv = s.hostResv := rfl
@[simp] theorem State.setCluster_hostHeld (s : State) (c : Nat) (x : Cluster) : (s.setCluster c x).hostHeld = s.hostHeld := rfl
@[simp] theorem State.setCluster_hostWait (s : State) (c : Nat) (x : Cluster) : (s.setCluster c x).hostWait = s.hostWait := rfl
@[simp] theorem State.setCluster_mem (s : State) (c : Nat) (x : Cluster) : (s.setCluster c x).mem = s.mem := rfl
@[simp] theorem State.setCluster_hist (s : State) (c : Nat) (x : Cluster) : (s.setCluster c x).hist = s.hist := rfl
@[simp] theorem State.setCluster_wseq (s : State) (c : Nat) (x : Cluster) : (s.setCluster c x).wseq = s.wseq := rfl
@[simp] theorem State.setCluster_wb (s : State) (c : Nat) (x : Cluster) : (s.setCluster c x).wb = s.wb := rfl
@[simp] theorem State.setCluster_ktag (s : State) (c : Nat) (x : Cluster) : (s.setCluster c x).ktag = s.ktag := rfl
@[simp] theorem State.setCluster_blobs (s : State) (c : Nat) (x : Cluster) : (s.setCluster c x).blobs = s.blobs := rfl
@[simp] theorem State.setCluster_nextBlob (s : State) (c : Nat) (x : Cluster) : (s.setCluster c x).nextBlob = s.nextBlob := rfl
@[simp] theorem State.setCluster_stores (s : State) (c : Nat) (x : Cluster) : (s.setCluster c x).stores = s.stores := rfl
@[simp] theorem State.setCluster_nextStore (s : State) (c : Nat) (x : Cluster) : (s.setCluster c x).nextStore = s.nextStore := rfl
@[simp] theorem State.setCluster_sram (s : State) (c : Nat) (x : Cluster) : (s.setCluster c x).sram = s.sram := rfl
@[simp] theorem State.setCluster_absentLines (s : State) (c : Nat) (x : Cluster) : (s.setCluster c x).absentLines = s.absentLines := rfl
@[simp] theorem State.setCluster_clusters (s : State) (c : Nat) (x : Cluster) : (s.setCluster c x).clusters = SMap.put s.clusters c x := rfl
@[simp] theorem State.setCluster_banks (s : State) (c : Nat) (x : Cluster) : (s.setCluster c x).banks = s.banks := rfl
@[simp] theorem State.setCluster_parts (s : State) (c : Nat) (x : Cluster) : (s.setCluster c x).parts = s.parts := rfl
@[simp] theorem State.setCluster_launches (s : State) (c : Nat) (x : Cluster) : (s.setCluster c x).launches = s.launches := rfl
@[simp] theorem State.setCluster_teams (s : State) (c : Nat) (x : Cluster) : (s.setCluster c x).teams = s.teams := rfl
@[simp] theorem State.setCluster_groups (s : State) (c : Nat) (x : Cluster) : (s.setCluster c x).groups = s.groups := rfl
@[simp] theorem State.setCluster_chans (s : State) (c : Nat) (x : Cluster) : (s.setCluster c x).chans = s.chans := rfl
@[simp] theorem State.setCluster_nextUid (s : State) (c : Nat) (x : Cluster) : (s.setCluster c x).nextUid = s.nextUid := rfl
@[simp] theorem State.setCluster_rotation (s : State) (c : Nat) (x : Cluster) : (s.setCluster c x).rotation = s.rotation := rfl
@[simp] theorem State.setCluster_scalarIssues (s : State) (c : Nat) (x : Cluster) : (s.setCluster c x).scalarIssues = s.scalarIssues := rfl
@[simp] theorem State.setCluster_replies (s : State) (c : Nat) (x : Cluster) : (s.setCluster c x).replies = s.replies := rfl
@[simp] theorem State.setCluster_negotiated (s : State) (c : Nat) (x : Cluster) : (s.setCluster c x).negotiated = s.negotiated := rfl
@[simp] theorem State.setCluster_reports (s : State) (c : Nat) (x : Cluster) : (s.setCluster c x).reports = s.reports := rfl
@[simp] theorem State.setCluster_profiles (s : State) (c : Nat) (x : Cluster) : (s.setCluster c x).profiles = s.profiles := rfl
@[simp] theorem State.setCluster_agenda (s : State) (c : Nat) (x : Cluster) : (s.setCluster c x).agenda = s.agenda := rfl
@[simp] theorem State.setCluster_cur (s : State) (c : Nat) (x : Cluster) : (s.setCluster c x).cur = s.cur := rfl
@[simp] theorem State.setCluster_second (s : State) (c : Nat) (x : Cluster) : (s.setCluster c x).second = s.second := rfl
@[simp] theorem State.setCluster_waiting (s : State) (c : Nat) (x : Cluster) : (s.setCluster c x).waiting = s.waiting := rfl
@[simp] theorem State.setCluster_served (s : State) (c : Nat) (x : Cluster) : (s.setCluster c x).served = s.served := rfl
@[simp] theorem State.setCluster_now (s : State) (c : Nat) (x : Cluster) : (s.setCluster c x).now = s.now := rfl
@[simp] theorem State.setCluster_fresh (s : State) (c : Nat) (x : Cluster) : (s.setCluster c x).fresh = s.fresh := rfl
@[simp] theorem State.setCluster_stuck (s : State) (c : Nat) (x : Cluster) : (s.setCluster c x).stuck = s.stuck := rfl

/-! `State.setBank`. -/

@[simp] theorem State.setBank_svc (s : State) (b : Nat) (x : Bank) : (s.setBank b x).svc = s.svc := rfl
@[simp] theorem State.setBank_hbmOk (s : State) (b : Nat) (x : Bank) : (s.setBank b x).hbmOk = s.hbmOk := rfl
@[simp] theorem State.setBank_hbmFail (s : State) (b : Nat) (x : Bank) : (s.setBank b x).hbmFail = s.hbmFail := rfl
@[simp] theorem State.setBank_svcCmd (s : State) (b : Nat) (x : Bank) : (s.setBank b x).svcCmd = s.svcCmd := rfl
@[simp] theorem State.setBank_svcRes (s : State) (b : Nat) (x : Bank) : (s.setBank b x).svcRes = s.svcRes := rfl
@[simp] theorem State.setBank_stages (s : State) (b : Nat) (x : Bank) : (s.setBank b x).stages = s.stages := rfl
@[simp] theorem State.setBank_bootFailed (s : State) (b : Nat) (x : Bank) : (s.setBank b x).bootFailed = s.bootFailed := rfl
@[simp] theorem State.setBank_bootDone (s : State) (b : Nat) (x : Bank) : (s.setBank b x).bootDone = s.bootDone := rfl
@[simp] theorem State.setBank_meas (s : State) (b : Nat) (x : Bank) : (s.setBank b x).meas = s.meas := rfl
@[simp] theorem State.setBank_fuseCount (s : State) (b : Nat) (x : Bank) : (s.setBank b x).fuseCount = s.fuseCount := rfl
@[simp] theorem State.setBank_flash (s : State) (b : Nat) (x : Bank) : (s.setBank b x).flash = s.flash := rfl
@[simp] theorem State.setBank_activeBank (s : State) (b : Nat) (x : Bank) : (s.setBank b x).activeBank = s.activeBank := rfl
@[simp] theorem State.setBank_uncommitted (s : State) (b : Nat) (x : Bank) : (s.setBank b x).uncommitted = s.uncommitted := rfl
@[simp] theorem State.setBank_flashBusy (s : State) (b : Nat) (x : Bank) : (s.setBank b x).flashBusy = s.flashBusy := rfl
@[simp] theorem State.setBank_pendingUpdate (s : State) (b : Nat) (x : Bank) : (s.setBank b x).pendingUpdate = s.pendingUpdate := rfl
@[simp] theorem State.setBank_hbmErrs (s : State) (b : Nat) (x : Bank) : (s.setBank b x).hbmErrs = s.hbmErrs := rfl
@[simp] theorem State.setBank_ptBase (s : State) (b : Nat) (x : Bank) : (s.setBank b x).ptBase = s.ptBase := rfl
@[simp] theorem State.setBank_ptAt (s : State) (b : Nat) (x : Bank) : (s.setBank b x).ptAt = s.ptAt := rfl
@[simp] theorem State.setBank_ptStep (s : State) (b : Nat) (x : Bank) : (s.setBank b x).ptStep = s.ptStep := rfl
@[simp] theorem State.setBank_ptRate (s : State) (b : Nat) (x : Bank) : (s.setBank b x).ptRate = s.ptRate := rfl
@[simp] theorem State.setBank_stepping (s : State) (b : Nat) (x : Bank) : (s.setBank b x).stepping = s.stepping := rfl
@[simp] theorem State.setBank_txts (s : State) (b : Nat) (x : Bank) : (s.setBank b x).txts = s.txts := rfl
@[simp] theorem State.setBank_ptsel (s : State) (b : Nat) (x : Bank) : (s.setBank b x).ptsel = s.ptsel := rfl
@[simp] theorem State.setBank_l2wayg (s : State) (b : Nat) (x : Bank) : (s.setBank b x).l2wayg = s.l2wayg := rfl
@[simp] theorem State.setBank_mcwin (s : State) (b : Nat) (x : Bank) : (s.setBank b x).mcwin = s.mcwin := rfl
@[simp] theorem State.setBank_l2sel (s : State) (b : Nat) (x : Bank) : (s.setBank b x).l2sel = s.l2sel := rfl
@[simp] theorem State.setBank_qosErr (s : State) (b : Nat) (x : Bank) : (s.setBank b x).qosErr = s.qosErr := rfl
@[simp] theorem State.setBank_slices (s : State) (b : Nat) (x : Bank) : (s.setBank b x).slices = s.slices := rfl
@[simp] theorem State.setBank_l2 (s : State) (b : Nat) (x : Bank) : (s.setBank b x).l2 = s.l2 := rfl
@[simp] theorem State.setBank_mcasts (s : State) (b : Nat) (x : Bank) : (s.setBank b x).mcasts = s.mcasts := rfl
@[simp] theorem State.setBank_merged (s : State) (b : Nat) (x : Bank) : (s.setBank b x).merged = s.merged := rfl
@[simp] theorem State.setBank_homeReqs (s : State) (b : Nat) (x : Bank) : (s.setBank b x).homeReqs = s.homeReqs := rfl
@[simp] theorem State.setBank_slicePwr (s : State) (b : Nat) (x : Bank) : (s.setBank b x).slicePwr = s.slicePwr := rfl
@[simp] theorem State.setBank_tlb1 (s : State) (b : Nat) (x : Bank) : (s.setBank b x).tlb1 = s.tlb1 := rfl
@[simp] theorem State.setBank_tlb2 (s : State) (b : Nat) (x : Bank) : (s.setBank b x).tlb2 = s.tlb2 := rfl
@[simp] theorem State.setBank_walkCache (s : State) (b : Nat) (x : Bank) : (s.setBank b x).walkCache = s.walkCache := rfl
@[simp] theorem State.setBank_walks (s : State) (b : Nat) (x : Bank) : (s.setBank b x).walks = s.walks := rfl
@[simp] theorem State.setBank_stBase (s : State) (b : Nat) (x : Bank) : (s.setBank b x).stBase = s.stBase := rfl
@[simp] theorem State.setBank_scCmd (s : State) (b : Nat) (x : Bank) : (s.setBank b x).scCmd = s.scCmd := rfl
@[simp] theorem State.setBank_scStat (s : State) (b : Nat) (x : Bank) : (s.setBank b x).scStat = s.scStat := rfl
@[simp] theorem State.setBank_streams (s : State) (b : Nat) (x : Bank) : (s.setBank b x).streams = s.streams := rfl
@[simp] theorem State.setBank_ftBase (s : State) (b : Nat) (x : Bank) : (s.setBank b x).ftBase = s.ftBase := rfl
@[simp] theorem State.setBank_ftInv (s : State) (b : Nat) (x : Bank) : (s.setBank b x).ftInv = s.ftInv := rfl
@[simp] theorem State.setBank_ftBusy (s : State) (b : Nat) (x : Bank) : (s.setBank b x).ftBusy = s.ftBusy := rfl
@[simp] theorem State.setBank_ftFault (s : State) (b : Nat) (x : Bank) : (s.setBank b x).ftFault = s.ftFault := rfl
@[simp] theorem State.setBank_ftlb (s : State) (b : Nat) (x : Bank) : (s.setBank b x).ftlb = s.ftlb := rfl
@[simp] theorem State.setBank_keyCmd (s : State) (b : Nat) (x : Bank) : (s.setBank b x).keyCmd = s.keyCmd := rfl
@[simp] theorem State.setBank_keyBusy (s : State) (b : Nat) (x : Bank) : (s.setBank b x).keyBusy = s.keyBusy := rfl
@[simp] theorem State.setBank_keyRes (s : State) (b : Nat) (x : Bank) : (s.setBank b x).keyRes = s.keyRes := rfl
@[simp] theorem State.setBank_keyGiven (s : State) (b : Nat) (x : Bank) : (s.setBank b x).keyGiven = s.keyGiven := rfl
@[simp] theorem State.setBank_keyNext (s : State) (b : Nat) (x : Bank) : (s.setBank b x).keyNext = s.keyNext := rfl
@[simp] theorem State.setBank_keys (s : State) (b : Nat) (x : Bank) : (s.setBank b x).keys = s.keys := rfl
@[simp] theorem State.setBank_nextSerial (s : State) (b : Nat) (x : Bank) : (s.setBank b x).nextSerial = s.nextSerial := rfl
@[simp] theorem State.setBank_rtBase (s : State) (b : Nat) (x : Bank) : (s.setBank b x).rtBase = s.rtBase := rfl
@[simp] theorem State.setBank_pkgNum (s : State) (b : Nat) (x : Bank) : (s.setBank b x).pkgNum = s.pkgNum := rfl
@[simp] theorem State.setBank_ports (s : State) (b : Nat) (x : Bank) : (s.setBank b x).ports = s.ports := rfl
@[simp] theorem State.setBank_sent (s : State) (b : Nat) (x : Bank) : (s.setBank b x).sent = s.sent := rfl
@[simp] theorem State.setBank_out (s : State) (b : Nat) (x : Bank) : (s.setBank b x).out = s.out := rfl
@[simp] theorem State.setBank_remotes (s : State) (b : Nat) (x : Bank) : (s.setBank b x).remotes = s.remotes := rfl
@[simp] theorem State.setBank_recs (s : State) (b : Nat) (x : Bank) : (s.setBank b x).recs = s.recs := rfl
@[simp] theorem State.setBank_nextTag (s : State) (b : Nat) (x : Bank) : (s.setBank b x).nextTag = s.nextTag := rfl
@[simp] theorem State.setBank_windows (s : State) (b : Nat) (x : Bank) : (s.setBank b x).windows = s.windows := rfl
@[simp] theorem State.setBank_colls (s : State) (b : Nat) (x : Bank) : (s.setBank b x).colls = s.colls := rfl
@[simp] theorem State.setBank_collIn (s : State) (b : Nat) (x : Bank) : (s.setBank b x).collIn = s.collIn := rfl
@[simp] theorem State.setBank_rxTimes (s : State) (b : Nat) (x : Bank) : (s.setBank b x).rxTimes = s.rxTimes := rfl
@[simp] theorem State.setBank_hpart (s : State) (b : Nat) (x : Bank) : (s.setBank b x).hpart = s.hpart := rfl
@[simp] theorem State.setBank_hostLast (s : State) (b : Nat) (x : Bank) : (s.setBank b x).hostLast = s.hostLast := rfl
@[simp] theorem State.setBank_hostResv (s : State) (b : Nat) (x : Bank) : (s.setBank b x).hostResv = s.hostResv := rfl
@[simp] theorem State.setBank_hostHeld (s : State) (b : Nat) (x : Bank) : (s.setBank b x).hostHeld = s.hostHeld := rfl
@[simp] theorem State.setBank_hostWait (s : State) (b : Nat) (x : Bank) : (s.setBank b x).hostWait = s.hostWait := rfl
@[simp] theorem State.setBank_mem (s : State) (b : Nat) (x : Bank) : (s.setBank b x).mem = s.mem := rfl
@[simp] theorem State.setBank_hist (s : State) (b : Nat) (x : Bank) : (s.setBank b x).hist = s.hist := rfl
@[simp] theorem State.setBank_wseq (s : State) (b : Nat) (x : Bank) : (s.setBank b x).wseq = s.wseq := rfl
@[simp] theorem State.setBank_wb (s : State) (b : Nat) (x : Bank) : (s.setBank b x).wb = s.wb := rfl
@[simp] theorem State.setBank_ktag (s : State) (b : Nat) (x : Bank) : (s.setBank b x).ktag = s.ktag := rfl
@[simp] theorem State.setBank_blobs (s : State) (b : Nat) (x : Bank) : (s.setBank b x).blobs = s.blobs := rfl
@[simp] theorem State.setBank_nextBlob (s : State) (b : Nat) (x : Bank) : (s.setBank b x).nextBlob = s.nextBlob := rfl
@[simp] theorem State.setBank_stores (s : State) (b : Nat) (x : Bank) : (s.setBank b x).stores = s.stores := rfl
@[simp] theorem State.setBank_nextStore (s : State) (b : Nat) (x : Bank) : (s.setBank b x).nextStore = s.nextStore := rfl
@[simp] theorem State.setBank_sram (s : State) (b : Nat) (x : Bank) : (s.setBank b x).sram = s.sram := rfl
@[simp] theorem State.setBank_absentLines (s : State) (b : Nat) (x : Bank) : (s.setBank b x).absentLines = s.absentLines := rfl
@[simp] theorem State.setBank_clusters (s : State) (b : Nat) (x : Bank) : (s.setBank b x).clusters = s.clusters := rfl
@[simp] theorem State.setBank_banks (s : State) (b : Nat) (x : Bank) : (s.setBank b x).banks = SMap.put s.banks b x := rfl
@[simp] theorem State.setBank_parts (s : State) (b : Nat) (x : Bank) : (s.setBank b x).parts = s.parts := rfl
@[simp] theorem State.setBank_launches (s : State) (b : Nat) (x : Bank) : (s.setBank b x).launches = s.launches := rfl
@[simp] theorem State.setBank_teams (s : State) (b : Nat) (x : Bank) : (s.setBank b x).teams = s.teams := rfl
@[simp] theorem State.setBank_groups (s : State) (b : Nat) (x : Bank) : (s.setBank b x).groups = s.groups := rfl
@[simp] theorem State.setBank_chans (s : State) (b : Nat) (x : Bank) : (s.setBank b x).chans = s.chans := rfl
@[simp] theorem State.setBank_nextUid (s : State) (b : Nat) (x : Bank) : (s.setBank b x).nextUid = s.nextUid := rfl
@[simp] theorem State.setBank_rotation (s : State) (b : Nat) (x : Bank) : (s.setBank b x).rotation = s.rotation := rfl
@[simp] theorem State.setBank_scalarIssues (s : State) (b : Nat) (x : Bank) : (s.setBank b x).scalarIssues = s.scalarIssues := rfl
@[simp] theorem State.setBank_replies (s : State) (b : Nat) (x : Bank) : (s.setBank b x).replies = s.replies := rfl
@[simp] theorem State.setBank_negotiated (s : State) (b : Nat) (x : Bank) : (s.setBank b x).negotiated = s.negotiated := rfl
@[simp] theorem State.setBank_reports (s : State) (b : Nat) (x : Bank) : (s.setBank b x).reports = s.reports := rfl
@[simp] theorem State.setBank_profiles (s : State) (b : Nat) (x : Bank) : (s.setBank b x).profiles = s.profiles := rfl
@[simp] theorem State.setBank_agenda (s : State) (b : Nat) (x : Bank) : (s.setBank b x).agenda = s.agenda := rfl
@[simp] theorem State.setBank_cur (s : State) (b : Nat) (x : Bank) : (s.setBank b x).cur = s.cur := rfl
@[simp] theorem State.setBank_second (s : State) (b : Nat) (x : Bank) : (s.setBank b x).second = s.second := rfl
@[simp] theorem State.setBank_waiting (s : State) (b : Nat) (x : Bank) : (s.setBank b x).waiting = s.waiting := rfl
@[simp] theorem State.setBank_served (s : State) (b : Nat) (x : Bank) : (s.setBank b x).served = s.served := rfl
@[simp] theorem State.setBank_now (s : State) (b : Nat) (x : Bank) : (s.setBank b x).now = s.now := rfl
@[simp] theorem State.setBank_fresh (s : State) (b : Nat) (x : Bank) : (s.setBank b x).fresh = s.fresh := rfl
@[simp] theorem State.setBank_stuck (s : State) (b : Nat) (x : Bank) : (s.setBank b x).stuck = s.stuck := rfl

/-! `State.setChan`. -/

@[simp] theorem State.setChan_svc (s : State) (ch : Nat) (x : Chan) : (s.setChan ch x).svc = s.svc := rfl
@[simp] theorem State.setChan_hbmOk (s : State) (ch : Nat) (x : Chan) : (s.setChan ch x).hbmOk = s.hbmOk := rfl
@[simp] theorem State.setChan_hbmFail (s : State) (ch : Nat) (x : Chan) : (s.setChan ch x).hbmFail = s.hbmFail := rfl
@[simp] theorem State.setChan_svcCmd (s : State) (ch : Nat) (x : Chan) : (s.setChan ch x).svcCmd = s.svcCmd := rfl
@[simp] theorem State.setChan_svcRes (s : State) (ch : Nat) (x : Chan) : (s.setChan ch x).svcRes = s.svcRes := rfl
@[simp] theorem State.setChan_stages (s : State) (ch : Nat) (x : Chan) : (s.setChan ch x).stages = s.stages := rfl
@[simp] theorem State.setChan_bootFailed (s : State) (ch : Nat) (x : Chan) : (s.setChan ch x).bootFailed = s.bootFailed := rfl
@[simp] theorem State.setChan_bootDone (s : State) (ch : Nat) (x : Chan) : (s.setChan ch x).bootDone = s.bootDone := rfl
@[simp] theorem State.setChan_meas (s : State) (ch : Nat) (x : Chan) : (s.setChan ch x).meas = s.meas := rfl
@[simp] theorem State.setChan_fuseCount (s : State) (ch : Nat) (x : Chan) : (s.setChan ch x).fuseCount = s.fuseCount := rfl
@[simp] theorem State.setChan_flash (s : State) (ch : Nat) (x : Chan) : (s.setChan ch x).flash = s.flash := rfl
@[simp] theorem State.setChan_activeBank (s : State) (ch : Nat) (x : Chan) : (s.setChan ch x).activeBank = s.activeBank := rfl
@[simp] theorem State.setChan_uncommitted (s : State) (ch : Nat) (x : Chan) : (s.setChan ch x).uncommitted = s.uncommitted := rfl
@[simp] theorem State.setChan_flashBusy (s : State) (ch : Nat) (x : Chan) : (s.setChan ch x).flashBusy = s.flashBusy := rfl
@[simp] theorem State.setChan_pendingUpdate (s : State) (ch : Nat) (x : Chan) : (s.setChan ch x).pendingUpdate = s.pendingUpdate := rfl
@[simp] theorem State.setChan_hbmErrs (s : State) (ch : Nat) (x : Chan) : (s.setChan ch x).hbmErrs = s.hbmErrs := rfl
@[simp] theorem State.setChan_ptBase (s : State) (ch : Nat) (x : Chan) : (s.setChan ch x).ptBase = s.ptBase := rfl
@[simp] theorem State.setChan_ptAt (s : State) (ch : Nat) (x : Chan) : (s.setChan ch x).ptAt = s.ptAt := rfl
@[simp] theorem State.setChan_ptStep (s : State) (ch : Nat) (x : Chan) : (s.setChan ch x).ptStep = s.ptStep := rfl
@[simp] theorem State.setChan_ptRate (s : State) (ch : Nat) (x : Chan) : (s.setChan ch x).ptRate = s.ptRate := rfl
@[simp] theorem State.setChan_stepping (s : State) (ch : Nat) (x : Chan) : (s.setChan ch x).stepping = s.stepping := rfl
@[simp] theorem State.setChan_txts (s : State) (ch : Nat) (x : Chan) : (s.setChan ch x).txts = s.txts := rfl
@[simp] theorem State.setChan_ptsel (s : State) (ch : Nat) (x : Chan) : (s.setChan ch x).ptsel = s.ptsel := rfl
@[simp] theorem State.setChan_l2wayg (s : State) (ch : Nat) (x : Chan) : (s.setChan ch x).l2wayg = s.l2wayg := rfl
@[simp] theorem State.setChan_mcwin (s : State) (ch : Nat) (x : Chan) : (s.setChan ch x).mcwin = s.mcwin := rfl
@[simp] theorem State.setChan_l2sel (s : State) (ch : Nat) (x : Chan) : (s.setChan ch x).l2sel = s.l2sel := rfl
@[simp] theorem State.setChan_qosErr (s : State) (ch : Nat) (x : Chan) : (s.setChan ch x).qosErr = s.qosErr := rfl
@[simp] theorem State.setChan_slices (s : State) (ch : Nat) (x : Chan) : (s.setChan ch x).slices = s.slices := rfl
@[simp] theorem State.setChan_l2 (s : State) (ch : Nat) (x : Chan) : (s.setChan ch x).l2 = s.l2 := rfl
@[simp] theorem State.setChan_mcasts (s : State) (ch : Nat) (x : Chan) : (s.setChan ch x).mcasts = s.mcasts := rfl
@[simp] theorem State.setChan_merged (s : State) (ch : Nat) (x : Chan) : (s.setChan ch x).merged = s.merged := rfl
@[simp] theorem State.setChan_homeReqs (s : State) (ch : Nat) (x : Chan) : (s.setChan ch x).homeReqs = s.homeReqs := rfl
@[simp] theorem State.setChan_slicePwr (s : State) (ch : Nat) (x : Chan) : (s.setChan ch x).slicePwr = s.slicePwr := rfl
@[simp] theorem State.setChan_tlb1 (s : State) (ch : Nat) (x : Chan) : (s.setChan ch x).tlb1 = s.tlb1 := rfl
@[simp] theorem State.setChan_tlb2 (s : State) (ch : Nat) (x : Chan) : (s.setChan ch x).tlb2 = s.tlb2 := rfl
@[simp] theorem State.setChan_walkCache (s : State) (ch : Nat) (x : Chan) : (s.setChan ch x).walkCache = s.walkCache := rfl
@[simp] theorem State.setChan_walks (s : State) (ch : Nat) (x : Chan) : (s.setChan ch x).walks = s.walks := rfl
@[simp] theorem State.setChan_stBase (s : State) (ch : Nat) (x : Chan) : (s.setChan ch x).stBase = s.stBase := rfl
@[simp] theorem State.setChan_scCmd (s : State) (ch : Nat) (x : Chan) : (s.setChan ch x).scCmd = s.scCmd := rfl
@[simp] theorem State.setChan_scStat (s : State) (ch : Nat) (x : Chan) : (s.setChan ch x).scStat = s.scStat := rfl
@[simp] theorem State.setChan_streams (s : State) (ch : Nat) (x : Chan) : (s.setChan ch x).streams = s.streams := rfl
@[simp] theorem State.setChan_ftBase (s : State) (ch : Nat) (x : Chan) : (s.setChan ch x).ftBase = s.ftBase := rfl
@[simp] theorem State.setChan_ftInv (s : State) (ch : Nat) (x : Chan) : (s.setChan ch x).ftInv = s.ftInv := rfl
@[simp] theorem State.setChan_ftBusy (s : State) (ch : Nat) (x : Chan) : (s.setChan ch x).ftBusy = s.ftBusy := rfl
@[simp] theorem State.setChan_ftFault (s : State) (ch : Nat) (x : Chan) : (s.setChan ch x).ftFault = s.ftFault := rfl
@[simp] theorem State.setChan_ftlb (s : State) (ch : Nat) (x : Chan) : (s.setChan ch x).ftlb = s.ftlb := rfl
@[simp] theorem State.setChan_keyCmd (s : State) (ch : Nat) (x : Chan) : (s.setChan ch x).keyCmd = s.keyCmd := rfl
@[simp] theorem State.setChan_keyBusy (s : State) (ch : Nat) (x : Chan) : (s.setChan ch x).keyBusy = s.keyBusy := rfl
@[simp] theorem State.setChan_keyRes (s : State) (ch : Nat) (x : Chan) : (s.setChan ch x).keyRes = s.keyRes := rfl
@[simp] theorem State.setChan_keyGiven (s : State) (ch : Nat) (x : Chan) : (s.setChan ch x).keyGiven = s.keyGiven := rfl
@[simp] theorem State.setChan_keyNext (s : State) (ch : Nat) (x : Chan) : (s.setChan ch x).keyNext = s.keyNext := rfl
@[simp] theorem State.setChan_keys (s : State) (ch : Nat) (x : Chan) : (s.setChan ch x).keys = s.keys := rfl
@[simp] theorem State.setChan_nextSerial (s : State) (ch : Nat) (x : Chan) : (s.setChan ch x).nextSerial = s.nextSerial := rfl
@[simp] theorem State.setChan_rtBase (s : State) (ch : Nat) (x : Chan) : (s.setChan ch x).rtBase = s.rtBase := rfl
@[simp] theorem State.setChan_pkgNum (s : State) (ch : Nat) (x : Chan) : (s.setChan ch x).pkgNum = s.pkgNum := rfl
@[simp] theorem State.setChan_ports (s : State) (ch : Nat) (x : Chan) : (s.setChan ch x).ports = s.ports := rfl
@[simp] theorem State.setChan_sent (s : State) (ch : Nat) (x : Chan) : (s.setChan ch x).sent = s.sent := rfl
@[simp] theorem State.setChan_out (s : State) (ch : Nat) (x : Chan) : (s.setChan ch x).out = s.out := rfl
@[simp] theorem State.setChan_remotes (s : State) (ch : Nat) (x : Chan) : (s.setChan ch x).remotes = s.remotes := rfl
@[simp] theorem State.setChan_recs (s : State) (ch : Nat) (x : Chan) : (s.setChan ch x).recs = s.recs := rfl
@[simp] theorem State.setChan_nextTag (s : State) (ch : Nat) (x : Chan) : (s.setChan ch x).nextTag = s.nextTag := rfl
@[simp] theorem State.setChan_windows (s : State) (ch : Nat) (x : Chan) : (s.setChan ch x).windows = s.windows := rfl
@[simp] theorem State.setChan_colls (s : State) (ch : Nat) (x : Chan) : (s.setChan ch x).colls = s.colls := rfl
@[simp] theorem State.setChan_collIn (s : State) (ch : Nat) (x : Chan) : (s.setChan ch x).collIn = s.collIn := rfl
@[simp] theorem State.setChan_rxTimes (s : State) (ch : Nat) (x : Chan) : (s.setChan ch x).rxTimes = s.rxTimes := rfl
@[simp] theorem State.setChan_hpart (s : State) (ch : Nat) (x : Chan) : (s.setChan ch x).hpart = s.hpart := rfl
@[simp] theorem State.setChan_hostLast (s : State) (ch : Nat) (x : Chan) : (s.setChan ch x).hostLast = s.hostLast := rfl
@[simp] theorem State.setChan_hostResv (s : State) (ch : Nat) (x : Chan) : (s.setChan ch x).hostResv = s.hostResv := rfl
@[simp] theorem State.setChan_hostHeld (s : State) (ch : Nat) (x : Chan) : (s.setChan ch x).hostHeld = s.hostHeld := rfl
@[simp] theorem State.setChan_hostWait (s : State) (ch : Nat) (x : Chan) : (s.setChan ch x).hostWait = s.hostWait := rfl
@[simp] theorem State.setChan_mem (s : State) (ch : Nat) (x : Chan) : (s.setChan ch x).mem = s.mem := rfl
@[simp] theorem State.setChan_hist (s : State) (ch : Nat) (x : Chan) : (s.setChan ch x).hist = s.hist := rfl
@[simp] theorem State.setChan_wseq (s : State) (ch : Nat) (x : Chan) : (s.setChan ch x).wseq = s.wseq := rfl
@[simp] theorem State.setChan_wb (s : State) (ch : Nat) (x : Chan) : (s.setChan ch x).wb = s.wb := rfl
@[simp] theorem State.setChan_ktag (s : State) (ch : Nat) (x : Chan) : (s.setChan ch x).ktag = s.ktag := rfl
@[simp] theorem State.setChan_blobs (s : State) (ch : Nat) (x : Chan) : (s.setChan ch x).blobs = s.blobs := rfl
@[simp] theorem State.setChan_nextBlob (s : State) (ch : Nat) (x : Chan) : (s.setChan ch x).nextBlob = s.nextBlob := rfl
@[simp] theorem State.setChan_stores (s : State) (ch : Nat) (x : Chan) : (s.setChan ch x).stores = s.stores := rfl
@[simp] theorem State.setChan_nextStore (s : State) (ch : Nat) (x : Chan) : (s.setChan ch x).nextStore = s.nextStore := rfl
@[simp] theorem State.setChan_sram (s : State) (ch : Nat) (x : Chan) : (s.setChan ch x).sram = s.sram := rfl
@[simp] theorem State.setChan_absentLines (s : State) (ch : Nat) (x : Chan) : (s.setChan ch x).absentLines = s.absentLines := rfl
@[simp] theorem State.setChan_clusters (s : State) (ch : Nat) (x : Chan) : (s.setChan ch x).clusters = s.clusters := rfl
@[simp] theorem State.setChan_banks (s : State) (ch : Nat) (x : Chan) : (s.setChan ch x).banks = s.banks := rfl
@[simp] theorem State.setChan_parts (s : State) (ch : Nat) (x : Chan) : (s.setChan ch x).parts = s.parts := rfl
@[simp] theorem State.setChan_launches (s : State) (ch : Nat) (x : Chan) : (s.setChan ch x).launches = s.launches := rfl
@[simp] theorem State.setChan_teams (s : State) (ch : Nat) (x : Chan) : (s.setChan ch x).teams = s.teams := rfl
@[simp] theorem State.setChan_groups (s : State) (ch : Nat) (x : Chan) : (s.setChan ch x).groups = s.groups := rfl
@[simp] theorem State.setChan_chans (s : State) (ch : Nat) (x : Chan) : (s.setChan ch x).chans = SMap.put s.chans ch x := rfl
@[simp] theorem State.setChan_nextUid (s : State) (ch : Nat) (x : Chan) : (s.setChan ch x).nextUid = s.nextUid := rfl
@[simp] theorem State.setChan_rotation (s : State) (ch : Nat) (x : Chan) : (s.setChan ch x).rotation = s.rotation := rfl
@[simp] theorem State.setChan_scalarIssues (s : State) (ch : Nat) (x : Chan) : (s.setChan ch x).scalarIssues = s.scalarIssues := rfl
@[simp] theorem State.setChan_replies (s : State) (ch : Nat) (x : Chan) : (s.setChan ch x).replies = s.replies := rfl
@[simp] theorem State.setChan_negotiated (s : State) (ch : Nat) (x : Chan) : (s.setChan ch x).negotiated = s.negotiated := rfl
@[simp] theorem State.setChan_reports (s : State) (ch : Nat) (x : Chan) : (s.setChan ch x).reports = s.reports := rfl
@[simp] theorem State.setChan_profiles (s : State) (ch : Nat) (x : Chan) : (s.setChan ch x).profiles = s.profiles := rfl
@[simp] theorem State.setChan_agenda (s : State) (ch : Nat) (x : Chan) : (s.setChan ch x).agenda = s.agenda := rfl
@[simp] theorem State.setChan_cur (s : State) (ch : Nat) (x : Chan) : (s.setChan ch x).cur = s.cur := rfl
@[simp] theorem State.setChan_second (s : State) (ch : Nat) (x : Chan) : (s.setChan ch x).second = s.second := rfl
@[simp] theorem State.setChan_waiting (s : State) (ch : Nat) (x : Chan) : (s.setChan ch x).waiting = s.waiting := rfl
@[simp] theorem State.setChan_served (s : State) (ch : Nat) (x : Chan) : (s.setChan ch x).served = s.served := rfl
@[simp] theorem State.setChan_now (s : State) (ch : Nat) (x : Chan) : (s.setChan ch x).now = s.now := rfl
@[simp] theorem State.setChan_fresh (s : State) (ch : Nat) (x : Chan) : (s.setChan ch x).fresh = s.fresh := rfl
@[simp] theorem State.setChan_stuck (s : State) (ch : Nat) (x : Chan) : (s.setChan ch x).stuck = s.stuck := rfl

/-! `State.setStream`. -/

@[simp] theorem State.setStream_svc (s : State) (e : Nat) (x : Stream) : (s.setStream e x).svc = s.svc := rfl
@[simp] theorem State.setStream_hbmOk (s : State) (e : Nat) (x : Stream) : (s.setStream e x).hbmOk = s.hbmOk := rfl
@[simp] theorem State.setStream_hbmFail (s : State) (e : Nat) (x : Stream) : (s.setStream e x).hbmFail = s.hbmFail := rfl
@[simp] theorem State.setStream_svcCmd (s : State) (e : Nat) (x : Stream) : (s.setStream e x).svcCmd = s.svcCmd := rfl
@[simp] theorem State.setStream_svcRes (s : State) (e : Nat) (x : Stream) : (s.setStream e x).svcRes = s.svcRes := rfl
@[simp] theorem State.setStream_stages (s : State) (e : Nat) (x : Stream) : (s.setStream e x).stages = s.stages := rfl
@[simp] theorem State.setStream_bootFailed (s : State) (e : Nat) (x : Stream) : (s.setStream e x).bootFailed = s.bootFailed := rfl
@[simp] theorem State.setStream_bootDone (s : State) (e : Nat) (x : Stream) : (s.setStream e x).bootDone = s.bootDone := rfl
@[simp] theorem State.setStream_meas (s : State) (e : Nat) (x : Stream) : (s.setStream e x).meas = s.meas := rfl
@[simp] theorem State.setStream_fuseCount (s : State) (e : Nat) (x : Stream) : (s.setStream e x).fuseCount = s.fuseCount := rfl
@[simp] theorem State.setStream_flash (s : State) (e : Nat) (x : Stream) : (s.setStream e x).flash = s.flash := rfl
@[simp] theorem State.setStream_activeBank (s : State) (e : Nat) (x : Stream) : (s.setStream e x).activeBank = s.activeBank := rfl
@[simp] theorem State.setStream_uncommitted (s : State) (e : Nat) (x : Stream) : (s.setStream e x).uncommitted = s.uncommitted := rfl
@[simp] theorem State.setStream_flashBusy (s : State) (e : Nat) (x : Stream) : (s.setStream e x).flashBusy = s.flashBusy := rfl
@[simp] theorem State.setStream_pendingUpdate (s : State) (e : Nat) (x : Stream) : (s.setStream e x).pendingUpdate = s.pendingUpdate := rfl
@[simp] theorem State.setStream_hbmErrs (s : State) (e : Nat) (x : Stream) : (s.setStream e x).hbmErrs = s.hbmErrs := rfl
@[simp] theorem State.setStream_ptBase (s : State) (e : Nat) (x : Stream) : (s.setStream e x).ptBase = s.ptBase := rfl
@[simp] theorem State.setStream_ptAt (s : State) (e : Nat) (x : Stream) : (s.setStream e x).ptAt = s.ptAt := rfl
@[simp] theorem State.setStream_ptStep (s : State) (e : Nat) (x : Stream) : (s.setStream e x).ptStep = s.ptStep := rfl
@[simp] theorem State.setStream_ptRate (s : State) (e : Nat) (x : Stream) : (s.setStream e x).ptRate = s.ptRate := rfl
@[simp] theorem State.setStream_stepping (s : State) (e : Nat) (x : Stream) : (s.setStream e x).stepping = s.stepping := rfl
@[simp] theorem State.setStream_txts (s : State) (e : Nat) (x : Stream) : (s.setStream e x).txts = s.txts := rfl
@[simp] theorem State.setStream_ptsel (s : State) (e : Nat) (x : Stream) : (s.setStream e x).ptsel = s.ptsel := rfl
@[simp] theorem State.setStream_l2wayg (s : State) (e : Nat) (x : Stream) : (s.setStream e x).l2wayg = s.l2wayg := rfl
@[simp] theorem State.setStream_mcwin (s : State) (e : Nat) (x : Stream) : (s.setStream e x).mcwin = s.mcwin := rfl
@[simp] theorem State.setStream_l2sel (s : State) (e : Nat) (x : Stream) : (s.setStream e x).l2sel = s.l2sel := rfl
@[simp] theorem State.setStream_qosErr (s : State) (e : Nat) (x : Stream) : (s.setStream e x).qosErr = s.qosErr := rfl
@[simp] theorem State.setStream_slices (s : State) (e : Nat) (x : Stream) : (s.setStream e x).slices = s.slices := rfl
@[simp] theorem State.setStream_l2 (s : State) (e : Nat) (x : Stream) : (s.setStream e x).l2 = s.l2 := rfl
@[simp] theorem State.setStream_mcasts (s : State) (e : Nat) (x : Stream) : (s.setStream e x).mcasts = s.mcasts := rfl
@[simp] theorem State.setStream_merged (s : State) (e : Nat) (x : Stream) : (s.setStream e x).merged = s.merged := rfl
@[simp] theorem State.setStream_homeReqs (s : State) (e : Nat) (x : Stream) : (s.setStream e x).homeReqs = s.homeReqs := rfl
@[simp] theorem State.setStream_slicePwr (s : State) (e : Nat) (x : Stream) : (s.setStream e x).slicePwr = s.slicePwr := rfl
@[simp] theorem State.setStream_tlb1 (s : State) (e : Nat) (x : Stream) : (s.setStream e x).tlb1 = s.tlb1 := rfl
@[simp] theorem State.setStream_tlb2 (s : State) (e : Nat) (x : Stream) : (s.setStream e x).tlb2 = s.tlb2 := rfl
@[simp] theorem State.setStream_walkCache (s : State) (e : Nat) (x : Stream) : (s.setStream e x).walkCache = s.walkCache := rfl
@[simp] theorem State.setStream_walks (s : State) (e : Nat) (x : Stream) : (s.setStream e x).walks = s.walks := rfl
@[simp] theorem State.setStream_stBase (s : State) (e : Nat) (x : Stream) : (s.setStream e x).stBase = s.stBase := rfl
@[simp] theorem State.setStream_scCmd (s : State) (e : Nat) (x : Stream) : (s.setStream e x).scCmd = s.scCmd := rfl
@[simp] theorem State.setStream_scStat (s : State) (e : Nat) (x : Stream) : (s.setStream e x).scStat = s.scStat := rfl
@[simp] theorem State.setStream_streams (s : State) (e : Nat) (x : Stream) : (s.setStream e x).streams = SMap.put s.streams e x := rfl
@[simp] theorem State.setStream_ftBase (s : State) (e : Nat) (x : Stream) : (s.setStream e x).ftBase = s.ftBase := rfl
@[simp] theorem State.setStream_ftInv (s : State) (e : Nat) (x : Stream) : (s.setStream e x).ftInv = s.ftInv := rfl
@[simp] theorem State.setStream_ftBusy (s : State) (e : Nat) (x : Stream) : (s.setStream e x).ftBusy = s.ftBusy := rfl
@[simp] theorem State.setStream_ftFault (s : State) (e : Nat) (x : Stream) : (s.setStream e x).ftFault = s.ftFault := rfl
@[simp] theorem State.setStream_ftlb (s : State) (e : Nat) (x : Stream) : (s.setStream e x).ftlb = s.ftlb := rfl
@[simp] theorem State.setStream_keyCmd (s : State) (e : Nat) (x : Stream) : (s.setStream e x).keyCmd = s.keyCmd := rfl
@[simp] theorem State.setStream_keyBusy (s : State) (e : Nat) (x : Stream) : (s.setStream e x).keyBusy = s.keyBusy := rfl
@[simp] theorem State.setStream_keyRes (s : State) (e : Nat) (x : Stream) : (s.setStream e x).keyRes = s.keyRes := rfl
@[simp] theorem State.setStream_keyGiven (s : State) (e : Nat) (x : Stream) : (s.setStream e x).keyGiven = s.keyGiven := rfl
@[simp] theorem State.setStream_keyNext (s : State) (e : Nat) (x : Stream) : (s.setStream e x).keyNext = s.keyNext := rfl
@[simp] theorem State.setStream_keys (s : State) (e : Nat) (x : Stream) : (s.setStream e x).keys = s.keys := rfl
@[simp] theorem State.setStream_nextSerial (s : State) (e : Nat) (x : Stream) : (s.setStream e x).nextSerial = s.nextSerial := rfl
@[simp] theorem State.setStream_rtBase (s : State) (e : Nat) (x : Stream) : (s.setStream e x).rtBase = s.rtBase := rfl
@[simp] theorem State.setStream_pkgNum (s : State) (e : Nat) (x : Stream) : (s.setStream e x).pkgNum = s.pkgNum := rfl
@[simp] theorem State.setStream_ports (s : State) (e : Nat) (x : Stream) : (s.setStream e x).ports = s.ports := rfl
@[simp] theorem State.setStream_sent (s : State) (e : Nat) (x : Stream) : (s.setStream e x).sent = s.sent := rfl
@[simp] theorem State.setStream_out (s : State) (e : Nat) (x : Stream) : (s.setStream e x).out = s.out := rfl
@[simp] theorem State.setStream_remotes (s : State) (e : Nat) (x : Stream) : (s.setStream e x).remotes = s.remotes := rfl
@[simp] theorem State.setStream_recs (s : State) (e : Nat) (x : Stream) : (s.setStream e x).recs = s.recs := rfl
@[simp] theorem State.setStream_nextTag (s : State) (e : Nat) (x : Stream) : (s.setStream e x).nextTag = s.nextTag := rfl
@[simp] theorem State.setStream_windows (s : State) (e : Nat) (x : Stream) : (s.setStream e x).windows = s.windows := rfl
@[simp] theorem State.setStream_colls (s : State) (e : Nat) (x : Stream) : (s.setStream e x).colls = s.colls := rfl
@[simp] theorem State.setStream_collIn (s : State) (e : Nat) (x : Stream) : (s.setStream e x).collIn = s.collIn := rfl
@[simp] theorem State.setStream_rxTimes (s : State) (e : Nat) (x : Stream) : (s.setStream e x).rxTimes = s.rxTimes := rfl
@[simp] theorem State.setStream_hpart (s : State) (e : Nat) (x : Stream) : (s.setStream e x).hpart = s.hpart := rfl
@[simp] theorem State.setStream_hostLast (s : State) (e : Nat) (x : Stream) : (s.setStream e x).hostLast = s.hostLast := rfl
@[simp] theorem State.setStream_hostResv (s : State) (e : Nat) (x : Stream) : (s.setStream e x).hostResv = s.hostResv := rfl
@[simp] theorem State.setStream_hostHeld (s : State) (e : Nat) (x : Stream) : (s.setStream e x).hostHeld = s.hostHeld := rfl
@[simp] theorem State.setStream_hostWait (s : State) (e : Nat) (x : Stream) : (s.setStream e x).hostWait = s.hostWait := rfl
@[simp] theorem State.setStream_mem (s : State) (e : Nat) (x : Stream) : (s.setStream e x).mem = s.mem := rfl
@[simp] theorem State.setStream_hist (s : State) (e : Nat) (x : Stream) : (s.setStream e x).hist = s.hist := rfl
@[simp] theorem State.setStream_wseq (s : State) (e : Nat) (x : Stream) : (s.setStream e x).wseq = s.wseq := rfl
@[simp] theorem State.setStream_wb (s : State) (e : Nat) (x : Stream) : (s.setStream e x).wb = s.wb := rfl
@[simp] theorem State.setStream_ktag (s : State) (e : Nat) (x : Stream) : (s.setStream e x).ktag = s.ktag := rfl
@[simp] theorem State.setStream_blobs (s : State) (e : Nat) (x : Stream) : (s.setStream e x).blobs = s.blobs := rfl
@[simp] theorem State.setStream_nextBlob (s : State) (e : Nat) (x : Stream) : (s.setStream e x).nextBlob = s.nextBlob := rfl
@[simp] theorem State.setStream_stores (s : State) (e : Nat) (x : Stream) : (s.setStream e x).stores = s.stores := rfl
@[simp] theorem State.setStream_nextStore (s : State) (e : Nat) (x : Stream) : (s.setStream e x).nextStore = s.nextStore := rfl
@[simp] theorem State.setStream_sram (s : State) (e : Nat) (x : Stream) : (s.setStream e x).sram = s.sram := rfl
@[simp] theorem State.setStream_absentLines (s : State) (e : Nat) (x : Stream) : (s.setStream e x).absentLines = s.absentLines := rfl
@[simp] theorem State.setStream_clusters (s : State) (e : Nat) (x : Stream) : (s.setStream e x).clusters = s.clusters := rfl
@[simp] theorem State.setStream_banks (s : State) (e : Nat) (x : Stream) : (s.setStream e x).banks = s.banks := rfl
@[simp] theorem State.setStream_parts (s : State) (e : Nat) (x : Stream) : (s.setStream e x).parts = s.parts := rfl
@[simp] theorem State.setStream_launches (s : State) (e : Nat) (x : Stream) : (s.setStream e x).launches = s.launches := rfl
@[simp] theorem State.setStream_teams (s : State) (e : Nat) (x : Stream) : (s.setStream e x).teams = s.teams := rfl
@[simp] theorem State.setStream_groups (s : State) (e : Nat) (x : Stream) : (s.setStream e x).groups = s.groups := rfl
@[simp] theorem State.setStream_chans (s : State) (e : Nat) (x : Stream) : (s.setStream e x).chans = s.chans := rfl
@[simp] theorem State.setStream_nextUid (s : State) (e : Nat) (x : Stream) : (s.setStream e x).nextUid = s.nextUid := rfl
@[simp] theorem State.setStream_rotation (s : State) (e : Nat) (x : Stream) : (s.setStream e x).rotation = s.rotation := rfl
@[simp] theorem State.setStream_scalarIssues (s : State) (e : Nat) (x : Stream) : (s.setStream e x).scalarIssues = s.scalarIssues := rfl
@[simp] theorem State.setStream_replies (s : State) (e : Nat) (x : Stream) : (s.setStream e x).replies = s.replies := rfl
@[simp] theorem State.setStream_negotiated (s : State) (e : Nat) (x : Stream) : (s.setStream e x).negotiated = s.negotiated := rfl
@[simp] theorem State.setStream_reports (s : State) (e : Nat) (x : Stream) : (s.setStream e x).reports = s.reports := rfl
@[simp] theorem State.setStream_profiles (s : State) (e : Nat) (x : Stream) : (s.setStream e x).profiles = s.profiles := rfl
@[simp] theorem State.setStream_agenda (s : State) (e : Nat) (x : Stream) : (s.setStream e x).agenda = s.agenda := rfl
@[simp] theorem State.setStream_cur (s : State) (e : Nat) (x : Stream) : (s.setStream e x).cur = s.cur := rfl
@[simp] theorem State.setStream_second (s : State) (e : Nat) (x : Stream) : (s.setStream e x).second = s.second := rfl
@[simp] theorem State.setStream_waiting (s : State) (e : Nat) (x : Stream) : (s.setStream e x).waiting = s.waiting := rfl
@[simp] theorem State.setStream_served (s : State) (e : Nat) (x : Stream) : (s.setStream e x).served = s.served := rfl
@[simp] theorem State.setStream_now (s : State) (e : Nat) (x : Stream) : (s.setStream e x).now = s.now := rfl
@[simp] theorem State.setStream_fresh (s : State) (e : Nat) (x : Stream) : (s.setStream e x).fresh = s.fresh := rfl
@[simp] theorem State.setStream_stuck (s : State) (e : Nat) (x : Stream) : (s.setStream e x).stuck = s.stuck := rfl

/-! `State.setPort`. -/

@[simp] theorem State.setPort_svc (s : State) (p : Nat) (x : Port) : (s.setPort p x).svc = s.svc := rfl
@[simp] theorem State.setPort_hbmOk (s : State) (p : Nat) (x : Port) : (s.setPort p x).hbmOk = s.hbmOk := rfl
@[simp] theorem State.setPort_hbmFail (s : State) (p : Nat) (x : Port) : (s.setPort p x).hbmFail = s.hbmFail := rfl
@[simp] theorem State.setPort_svcCmd (s : State) (p : Nat) (x : Port) : (s.setPort p x).svcCmd = s.svcCmd := rfl
@[simp] theorem State.setPort_svcRes (s : State) (p : Nat) (x : Port) : (s.setPort p x).svcRes = s.svcRes := rfl
@[simp] theorem State.setPort_stages (s : State) (p : Nat) (x : Port) : (s.setPort p x).stages = s.stages := rfl
@[simp] theorem State.setPort_bootFailed (s : State) (p : Nat) (x : Port) : (s.setPort p x).bootFailed = s.bootFailed := rfl
@[simp] theorem State.setPort_bootDone (s : State) (p : Nat) (x : Port) : (s.setPort p x).bootDone = s.bootDone := rfl
@[simp] theorem State.setPort_meas (s : State) (p : Nat) (x : Port) : (s.setPort p x).meas = s.meas := rfl
@[simp] theorem State.setPort_fuseCount (s : State) (p : Nat) (x : Port) : (s.setPort p x).fuseCount = s.fuseCount := rfl
@[simp] theorem State.setPort_flash (s : State) (p : Nat) (x : Port) : (s.setPort p x).flash = s.flash := rfl
@[simp] theorem State.setPort_activeBank (s : State) (p : Nat) (x : Port) : (s.setPort p x).activeBank = s.activeBank := rfl
@[simp] theorem State.setPort_uncommitted (s : State) (p : Nat) (x : Port) : (s.setPort p x).uncommitted = s.uncommitted := rfl
@[simp] theorem State.setPort_flashBusy (s : State) (p : Nat) (x : Port) : (s.setPort p x).flashBusy = s.flashBusy := rfl
@[simp] theorem State.setPort_pendingUpdate (s : State) (p : Nat) (x : Port) : (s.setPort p x).pendingUpdate = s.pendingUpdate := rfl
@[simp] theorem State.setPort_hbmErrs (s : State) (p : Nat) (x : Port) : (s.setPort p x).hbmErrs = s.hbmErrs := rfl
@[simp] theorem State.setPort_ptBase (s : State) (p : Nat) (x : Port) : (s.setPort p x).ptBase = s.ptBase := rfl
@[simp] theorem State.setPort_ptAt (s : State) (p : Nat) (x : Port) : (s.setPort p x).ptAt = s.ptAt := rfl
@[simp] theorem State.setPort_ptStep (s : State) (p : Nat) (x : Port) : (s.setPort p x).ptStep = s.ptStep := rfl
@[simp] theorem State.setPort_ptRate (s : State) (p : Nat) (x : Port) : (s.setPort p x).ptRate = s.ptRate := rfl
@[simp] theorem State.setPort_stepping (s : State) (p : Nat) (x : Port) : (s.setPort p x).stepping = s.stepping := rfl
@[simp] theorem State.setPort_txts (s : State) (p : Nat) (x : Port) : (s.setPort p x).txts = s.txts := rfl
@[simp] theorem State.setPort_ptsel (s : State) (p : Nat) (x : Port) : (s.setPort p x).ptsel = s.ptsel := rfl
@[simp] theorem State.setPort_l2wayg (s : State) (p : Nat) (x : Port) : (s.setPort p x).l2wayg = s.l2wayg := rfl
@[simp] theorem State.setPort_mcwin (s : State) (p : Nat) (x : Port) : (s.setPort p x).mcwin = s.mcwin := rfl
@[simp] theorem State.setPort_l2sel (s : State) (p : Nat) (x : Port) : (s.setPort p x).l2sel = s.l2sel := rfl
@[simp] theorem State.setPort_qosErr (s : State) (p : Nat) (x : Port) : (s.setPort p x).qosErr = s.qosErr := rfl
@[simp] theorem State.setPort_slices (s : State) (p : Nat) (x : Port) : (s.setPort p x).slices = s.slices := rfl
@[simp] theorem State.setPort_l2 (s : State) (p : Nat) (x : Port) : (s.setPort p x).l2 = s.l2 := rfl
@[simp] theorem State.setPort_mcasts (s : State) (p : Nat) (x : Port) : (s.setPort p x).mcasts = s.mcasts := rfl
@[simp] theorem State.setPort_merged (s : State) (p : Nat) (x : Port) : (s.setPort p x).merged = s.merged := rfl
@[simp] theorem State.setPort_homeReqs (s : State) (p : Nat) (x : Port) : (s.setPort p x).homeReqs = s.homeReqs := rfl
@[simp] theorem State.setPort_slicePwr (s : State) (p : Nat) (x : Port) : (s.setPort p x).slicePwr = s.slicePwr := rfl
@[simp] theorem State.setPort_tlb1 (s : State) (p : Nat) (x : Port) : (s.setPort p x).tlb1 = s.tlb1 := rfl
@[simp] theorem State.setPort_tlb2 (s : State) (p : Nat) (x : Port) : (s.setPort p x).tlb2 = s.tlb2 := rfl
@[simp] theorem State.setPort_walkCache (s : State) (p : Nat) (x : Port) : (s.setPort p x).walkCache = s.walkCache := rfl
@[simp] theorem State.setPort_walks (s : State) (p : Nat) (x : Port) : (s.setPort p x).walks = s.walks := rfl
@[simp] theorem State.setPort_stBase (s : State) (p : Nat) (x : Port) : (s.setPort p x).stBase = s.stBase := rfl
@[simp] theorem State.setPort_scCmd (s : State) (p : Nat) (x : Port) : (s.setPort p x).scCmd = s.scCmd := rfl
@[simp] theorem State.setPort_scStat (s : State) (p : Nat) (x : Port) : (s.setPort p x).scStat = s.scStat := rfl
@[simp] theorem State.setPort_streams (s : State) (p : Nat) (x : Port) : (s.setPort p x).streams = s.streams := rfl
@[simp] theorem State.setPort_ftBase (s : State) (p : Nat) (x : Port) : (s.setPort p x).ftBase = s.ftBase := rfl
@[simp] theorem State.setPort_ftInv (s : State) (p : Nat) (x : Port) : (s.setPort p x).ftInv = s.ftInv := rfl
@[simp] theorem State.setPort_ftBusy (s : State) (p : Nat) (x : Port) : (s.setPort p x).ftBusy = s.ftBusy := rfl
@[simp] theorem State.setPort_ftFault (s : State) (p : Nat) (x : Port) : (s.setPort p x).ftFault = s.ftFault := rfl
@[simp] theorem State.setPort_ftlb (s : State) (p : Nat) (x : Port) : (s.setPort p x).ftlb = s.ftlb := rfl
@[simp] theorem State.setPort_keyCmd (s : State) (p : Nat) (x : Port) : (s.setPort p x).keyCmd = s.keyCmd := rfl
@[simp] theorem State.setPort_keyBusy (s : State) (p : Nat) (x : Port) : (s.setPort p x).keyBusy = s.keyBusy := rfl
@[simp] theorem State.setPort_keyRes (s : State) (p : Nat) (x : Port) : (s.setPort p x).keyRes = s.keyRes := rfl
@[simp] theorem State.setPort_keyGiven (s : State) (p : Nat) (x : Port) : (s.setPort p x).keyGiven = s.keyGiven := rfl
@[simp] theorem State.setPort_keyNext (s : State) (p : Nat) (x : Port) : (s.setPort p x).keyNext = s.keyNext := rfl
@[simp] theorem State.setPort_keys (s : State) (p : Nat) (x : Port) : (s.setPort p x).keys = s.keys := rfl
@[simp] theorem State.setPort_nextSerial (s : State) (p : Nat) (x : Port) : (s.setPort p x).nextSerial = s.nextSerial := rfl
@[simp] theorem State.setPort_rtBase (s : State) (p : Nat) (x : Port) : (s.setPort p x).rtBase = s.rtBase := rfl
@[simp] theorem State.setPort_pkgNum (s : State) (p : Nat) (x : Port) : (s.setPort p x).pkgNum = s.pkgNum := rfl
@[simp] theorem State.setPort_ports (s : State) (p : Nat) (x : Port) : (s.setPort p x).ports = SMap.put s.ports p x := rfl
@[simp] theorem State.setPort_sent (s : State) (p : Nat) (x : Port) : (s.setPort p x).sent = s.sent := rfl
@[simp] theorem State.setPort_out (s : State) (p : Nat) (x : Port) : (s.setPort p x).out = s.out := rfl
@[simp] theorem State.setPort_remotes (s : State) (p : Nat) (x : Port) : (s.setPort p x).remotes = s.remotes := rfl
@[simp] theorem State.setPort_recs (s : State) (p : Nat) (x : Port) : (s.setPort p x).recs = s.recs := rfl
@[simp] theorem State.setPort_nextTag (s : State) (p : Nat) (x : Port) : (s.setPort p x).nextTag = s.nextTag := rfl
@[simp] theorem State.setPort_windows (s : State) (p : Nat) (x : Port) : (s.setPort p x).windows = s.windows := rfl
@[simp] theorem State.setPort_colls (s : State) (p : Nat) (x : Port) : (s.setPort p x).colls = s.colls := rfl
@[simp] theorem State.setPort_collIn (s : State) (p : Nat) (x : Port) : (s.setPort p x).collIn = s.collIn := rfl
@[simp] theorem State.setPort_rxTimes (s : State) (p : Nat) (x : Port) : (s.setPort p x).rxTimes = s.rxTimes := rfl
@[simp] theorem State.setPort_hpart (s : State) (p : Nat) (x : Port) : (s.setPort p x).hpart = s.hpart := rfl
@[simp] theorem State.setPort_hostLast (s : State) (p : Nat) (x : Port) : (s.setPort p x).hostLast = s.hostLast := rfl
@[simp] theorem State.setPort_hostResv (s : State) (p : Nat) (x : Port) : (s.setPort p x).hostResv = s.hostResv := rfl
@[simp] theorem State.setPort_hostHeld (s : State) (p : Nat) (x : Port) : (s.setPort p x).hostHeld = s.hostHeld := rfl
@[simp] theorem State.setPort_hostWait (s : State) (p : Nat) (x : Port) : (s.setPort p x).hostWait = s.hostWait := rfl
@[simp] theorem State.setPort_mem (s : State) (p : Nat) (x : Port) : (s.setPort p x).mem = s.mem := rfl
@[simp] theorem State.setPort_hist (s : State) (p : Nat) (x : Port) : (s.setPort p x).hist = s.hist := rfl
@[simp] theorem State.setPort_wseq (s : State) (p : Nat) (x : Port) : (s.setPort p x).wseq = s.wseq := rfl
@[simp] theorem State.setPort_wb (s : State) (p : Nat) (x : Port) : (s.setPort p x).wb = s.wb := rfl
@[simp] theorem State.setPort_ktag (s : State) (p : Nat) (x : Port) : (s.setPort p x).ktag = s.ktag := rfl
@[simp] theorem State.setPort_blobs (s : State) (p : Nat) (x : Port) : (s.setPort p x).blobs = s.blobs := rfl
@[simp] theorem State.setPort_nextBlob (s : State) (p : Nat) (x : Port) : (s.setPort p x).nextBlob = s.nextBlob := rfl
@[simp] theorem State.setPort_stores (s : State) (p : Nat) (x : Port) : (s.setPort p x).stores = s.stores := rfl
@[simp] theorem State.setPort_nextStore (s : State) (p : Nat) (x : Port) : (s.setPort p x).nextStore = s.nextStore := rfl
@[simp] theorem State.setPort_sram (s : State) (p : Nat) (x : Port) : (s.setPort p x).sram = s.sram := rfl
@[simp] theorem State.setPort_absentLines (s : State) (p : Nat) (x : Port) : (s.setPort p x).absentLines = s.absentLines := rfl
@[simp] theorem State.setPort_clusters (s : State) (p : Nat) (x : Port) : (s.setPort p x).clusters = s.clusters := rfl
@[simp] theorem State.setPort_banks (s : State) (p : Nat) (x : Port) : (s.setPort p x).banks = s.banks := rfl
@[simp] theorem State.setPort_parts (s : State) (p : Nat) (x : Port) : (s.setPort p x).parts = s.parts := rfl
@[simp] theorem State.setPort_launches (s : State) (p : Nat) (x : Port) : (s.setPort p x).launches = s.launches := rfl
@[simp] theorem State.setPort_teams (s : State) (p : Nat) (x : Port) : (s.setPort p x).teams = s.teams := rfl
@[simp] theorem State.setPort_groups (s : State) (p : Nat) (x : Port) : (s.setPort p x).groups = s.groups := rfl
@[simp] theorem State.setPort_chans (s : State) (p : Nat) (x : Port) : (s.setPort p x).chans = s.chans := rfl
@[simp] theorem State.setPort_nextUid (s : State) (p : Nat) (x : Port) : (s.setPort p x).nextUid = s.nextUid := rfl
@[simp] theorem State.setPort_rotation (s : State) (p : Nat) (x : Port) : (s.setPort p x).rotation = s.rotation := rfl
@[simp] theorem State.setPort_scalarIssues (s : State) (p : Nat) (x : Port) : (s.setPort p x).scalarIssues = s.scalarIssues := rfl
@[simp] theorem State.setPort_replies (s : State) (p : Nat) (x : Port) : (s.setPort p x).replies = s.replies := rfl
@[simp] theorem State.setPort_negotiated (s : State) (p : Nat) (x : Port) : (s.setPort p x).negotiated = s.negotiated := rfl
@[simp] theorem State.setPort_reports (s : State) (p : Nat) (x : Port) : (s.setPort p x).reports = s.reports := rfl
@[simp] theorem State.setPort_profiles (s : State) (p : Nat) (x : Port) : (s.setPort p x).profiles = s.profiles := rfl
@[simp] theorem State.setPort_agenda (s : State) (p : Nat) (x : Port) : (s.setPort p x).agenda = s.agenda := rfl
@[simp] theorem State.setPort_cur (s : State) (p : Nat) (x : Port) : (s.setPort p x).cur = s.cur := rfl
@[simp] theorem State.setPort_second (s : State) (p : Nat) (x : Port) : (s.setPort p x).second = s.second := rfl
@[simp] theorem State.setPort_waiting (s : State) (p : Nat) (x : Port) : (s.setPort p x).waiting = s.waiting := rfl
@[simp] theorem State.setPort_served (s : State) (p : Nat) (x : Port) : (s.setPort p x).served = s.served := rfl
@[simp] theorem State.setPort_now (s : State) (p : Nat) (x : Port) : (s.setPort p x).now = s.now := rfl
@[simp] theorem State.setPort_fresh (s : State) (p : Nat) (x : Port) : (s.setPort p x).fresh = s.fresh := rfl
@[simp] theorem State.setPort_stuck (s : State) (p : Nat) (x : Port) : (s.setPort p x).stuck = s.stuck := rfl

/-! `State.setSram`. -/

@[simp] theorem State.setSram_svc (s : State) (k : Nat) (b : Byte) : (s.setSram k b).svc = s.svc := rfl
@[simp] theorem State.setSram_hbmOk (s : State) (k : Nat) (b : Byte) : (s.setSram k b).hbmOk = s.hbmOk := rfl
@[simp] theorem State.setSram_hbmFail (s : State) (k : Nat) (b : Byte) : (s.setSram k b).hbmFail = s.hbmFail := rfl
@[simp] theorem State.setSram_svcCmd (s : State) (k : Nat) (b : Byte) : (s.setSram k b).svcCmd = s.svcCmd := rfl
@[simp] theorem State.setSram_svcRes (s : State) (k : Nat) (b : Byte) : (s.setSram k b).svcRes = s.svcRes := rfl
@[simp] theorem State.setSram_stages (s : State) (k : Nat) (b : Byte) : (s.setSram k b).stages = s.stages := rfl
@[simp] theorem State.setSram_bootFailed (s : State) (k : Nat) (b : Byte) : (s.setSram k b).bootFailed = s.bootFailed := rfl
@[simp] theorem State.setSram_bootDone (s : State) (k : Nat) (b : Byte) : (s.setSram k b).bootDone = s.bootDone := rfl
@[simp] theorem State.setSram_meas (s : State) (k : Nat) (b : Byte) : (s.setSram k b).meas = s.meas := rfl
@[simp] theorem State.setSram_fuseCount (s : State) (k : Nat) (b : Byte) : (s.setSram k b).fuseCount = s.fuseCount := rfl
@[simp] theorem State.setSram_flash (s : State) (k : Nat) (b : Byte) : (s.setSram k b).flash = s.flash := rfl
@[simp] theorem State.setSram_activeBank (s : State) (k : Nat) (b : Byte) : (s.setSram k b).activeBank = s.activeBank := rfl
@[simp] theorem State.setSram_uncommitted (s : State) (k : Nat) (b : Byte) : (s.setSram k b).uncommitted = s.uncommitted := rfl
@[simp] theorem State.setSram_flashBusy (s : State) (k : Nat) (b : Byte) : (s.setSram k b).flashBusy = s.flashBusy := rfl
@[simp] theorem State.setSram_pendingUpdate (s : State) (k : Nat) (b : Byte) : (s.setSram k b).pendingUpdate = s.pendingUpdate := rfl
@[simp] theorem State.setSram_hbmErrs (s : State) (k : Nat) (b : Byte) : (s.setSram k b).hbmErrs = s.hbmErrs := rfl
@[simp] theorem State.setSram_ptBase (s : State) (k : Nat) (b : Byte) : (s.setSram k b).ptBase = s.ptBase := rfl
@[simp] theorem State.setSram_ptAt (s : State) (k : Nat) (b : Byte) : (s.setSram k b).ptAt = s.ptAt := rfl
@[simp] theorem State.setSram_ptStep (s : State) (k : Nat) (b : Byte) : (s.setSram k b).ptStep = s.ptStep := rfl
@[simp] theorem State.setSram_ptRate (s : State) (k : Nat) (b : Byte) : (s.setSram k b).ptRate = s.ptRate := rfl
@[simp] theorem State.setSram_stepping (s : State) (k : Nat) (b : Byte) : (s.setSram k b).stepping = s.stepping := rfl
@[simp] theorem State.setSram_txts (s : State) (k : Nat) (b : Byte) : (s.setSram k b).txts = s.txts := rfl
@[simp] theorem State.setSram_ptsel (s : State) (k : Nat) (b : Byte) : (s.setSram k b).ptsel = s.ptsel := rfl
@[simp] theorem State.setSram_l2wayg (s : State) (k : Nat) (b : Byte) : (s.setSram k b).l2wayg = s.l2wayg := rfl
@[simp] theorem State.setSram_mcwin (s : State) (k : Nat) (b : Byte) : (s.setSram k b).mcwin = s.mcwin := rfl
@[simp] theorem State.setSram_l2sel (s : State) (k : Nat) (b : Byte) : (s.setSram k b).l2sel = s.l2sel := rfl
@[simp] theorem State.setSram_qosErr (s : State) (k : Nat) (b : Byte) : (s.setSram k b).qosErr = s.qosErr := rfl
@[simp] theorem State.setSram_slices (s : State) (k : Nat) (b : Byte) : (s.setSram k b).slices = s.slices := rfl
@[simp] theorem State.setSram_l2 (s : State) (k : Nat) (b : Byte) : (s.setSram k b).l2 = s.l2 := rfl
@[simp] theorem State.setSram_mcasts (s : State) (k : Nat) (b : Byte) : (s.setSram k b).mcasts = s.mcasts := rfl
@[simp] theorem State.setSram_merged (s : State) (k : Nat) (b : Byte) : (s.setSram k b).merged = s.merged := rfl
@[simp] theorem State.setSram_homeReqs (s : State) (k : Nat) (b : Byte) : (s.setSram k b).homeReqs = s.homeReqs := rfl
@[simp] theorem State.setSram_slicePwr (s : State) (k : Nat) (b : Byte) : (s.setSram k b).slicePwr = s.slicePwr := rfl
@[simp] theorem State.setSram_tlb1 (s : State) (k : Nat) (b : Byte) : (s.setSram k b).tlb1 = s.tlb1 := rfl
@[simp] theorem State.setSram_tlb2 (s : State) (k : Nat) (b : Byte) : (s.setSram k b).tlb2 = s.tlb2 := rfl
@[simp] theorem State.setSram_walkCache (s : State) (k : Nat) (b : Byte) : (s.setSram k b).walkCache = s.walkCache := rfl
@[simp] theorem State.setSram_walks (s : State) (k : Nat) (b : Byte) : (s.setSram k b).walks = s.walks := rfl
@[simp] theorem State.setSram_stBase (s : State) (k : Nat) (b : Byte) : (s.setSram k b).stBase = s.stBase := rfl
@[simp] theorem State.setSram_scCmd (s : State) (k : Nat) (b : Byte) : (s.setSram k b).scCmd = s.scCmd := rfl
@[simp] theorem State.setSram_scStat (s : State) (k : Nat) (b : Byte) : (s.setSram k b).scStat = s.scStat := rfl
@[simp] theorem State.setSram_streams (s : State) (k : Nat) (b : Byte) : (s.setSram k b).streams = s.streams := rfl
@[simp] theorem State.setSram_ftBase (s : State) (k : Nat) (b : Byte) : (s.setSram k b).ftBase = s.ftBase := rfl
@[simp] theorem State.setSram_ftInv (s : State) (k : Nat) (b : Byte) : (s.setSram k b).ftInv = s.ftInv := rfl
@[simp] theorem State.setSram_ftBusy (s : State) (k : Nat) (b : Byte) : (s.setSram k b).ftBusy = s.ftBusy := rfl
@[simp] theorem State.setSram_ftFault (s : State) (k : Nat) (b : Byte) : (s.setSram k b).ftFault = s.ftFault := rfl
@[simp] theorem State.setSram_ftlb (s : State) (k : Nat) (b : Byte) : (s.setSram k b).ftlb = s.ftlb := rfl
@[simp] theorem State.setSram_keyCmd (s : State) (k : Nat) (b : Byte) : (s.setSram k b).keyCmd = s.keyCmd := rfl
@[simp] theorem State.setSram_keyBusy (s : State) (k : Nat) (b : Byte) : (s.setSram k b).keyBusy = s.keyBusy := rfl
@[simp] theorem State.setSram_keyRes (s : State) (k : Nat) (b : Byte) : (s.setSram k b).keyRes = s.keyRes := rfl
@[simp] theorem State.setSram_keyGiven (s : State) (k : Nat) (b : Byte) : (s.setSram k b).keyGiven = s.keyGiven := rfl
@[simp] theorem State.setSram_keyNext (s : State) (k : Nat) (b : Byte) : (s.setSram k b).keyNext = s.keyNext := rfl
@[simp] theorem State.setSram_keys (s : State) (k : Nat) (b : Byte) : (s.setSram k b).keys = s.keys := rfl
@[simp] theorem State.setSram_nextSerial (s : State) (k : Nat) (b : Byte) : (s.setSram k b).nextSerial = s.nextSerial := rfl
@[simp] theorem State.setSram_rtBase (s : State) (k : Nat) (b : Byte) : (s.setSram k b).rtBase = s.rtBase := rfl
@[simp] theorem State.setSram_pkgNum (s : State) (k : Nat) (b : Byte) : (s.setSram k b).pkgNum = s.pkgNum := rfl
@[simp] theorem State.setSram_ports (s : State) (k : Nat) (b : Byte) : (s.setSram k b).ports = s.ports := rfl
@[simp] theorem State.setSram_sent (s : State) (k : Nat) (b : Byte) : (s.setSram k b).sent = s.sent := rfl
@[simp] theorem State.setSram_out (s : State) (k : Nat) (b : Byte) : (s.setSram k b).out = s.out := rfl
@[simp] theorem State.setSram_remotes (s : State) (k : Nat) (b : Byte) : (s.setSram k b).remotes = s.remotes := rfl
@[simp] theorem State.setSram_recs (s : State) (k : Nat) (b : Byte) : (s.setSram k b).recs = s.recs := rfl
@[simp] theorem State.setSram_nextTag (s : State) (k : Nat) (b : Byte) : (s.setSram k b).nextTag = s.nextTag := rfl
@[simp] theorem State.setSram_windows (s : State) (k : Nat) (b : Byte) : (s.setSram k b).windows = s.windows := rfl
@[simp] theorem State.setSram_colls (s : State) (k : Nat) (b : Byte) : (s.setSram k b).colls = s.colls := rfl
@[simp] theorem State.setSram_collIn (s : State) (k : Nat) (b : Byte) : (s.setSram k b).collIn = s.collIn := rfl
@[simp] theorem State.setSram_rxTimes (s : State) (k : Nat) (b : Byte) : (s.setSram k b).rxTimes = s.rxTimes := rfl
@[simp] theorem State.setSram_hpart (s : State) (k : Nat) (b : Byte) : (s.setSram k b).hpart = s.hpart := rfl
@[simp] theorem State.setSram_hostLast (s : State) (k : Nat) (b : Byte) : (s.setSram k b).hostLast = s.hostLast := rfl
@[simp] theorem State.setSram_hostResv (s : State) (k : Nat) (b : Byte) : (s.setSram k b).hostResv = s.hostResv := rfl
@[simp] theorem State.setSram_hostHeld (s : State) (k : Nat) (b : Byte) : (s.setSram k b).hostHeld = s.hostHeld := rfl
@[simp] theorem State.setSram_hostWait (s : State) (k : Nat) (b : Byte) : (s.setSram k b).hostWait = s.hostWait := rfl
@[simp] theorem State.setSram_mem (s : State) (k : Nat) (b : Byte) : (s.setSram k b).mem = s.mem := rfl
@[simp] theorem State.setSram_hist (s : State) (k : Nat) (b : Byte) : (s.setSram k b).hist = s.hist := rfl
@[simp] theorem State.setSram_wseq (s : State) (k : Nat) (b : Byte) : (s.setSram k b).wseq = s.wseq := rfl
@[simp] theorem State.setSram_wb (s : State) (k : Nat) (b : Byte) : (s.setSram k b).wb = s.wb := rfl
@[simp] theorem State.setSram_ktag (s : State) (k : Nat) (b : Byte) : (s.setSram k b).ktag = s.ktag := rfl
@[simp] theorem State.setSram_blobs (s : State) (k : Nat) (b : Byte) : (s.setSram k b).blobs = s.blobs := rfl
@[simp] theorem State.setSram_nextBlob (s : State) (k : Nat) (b : Byte) : (s.setSram k b).nextBlob = s.nextBlob := rfl
@[simp] theorem State.setSram_stores (s : State) (k : Nat) (b : Byte) : (s.setSram k b).stores = s.stores := rfl
@[simp] theorem State.setSram_nextStore (s : State) (k : Nat) (b : Byte) : (s.setSram k b).nextStore = s.nextStore := rfl
@[simp] theorem State.setSram_sram (s : State) (k : Nat) (b : Byte) : (s.setSram k b).sram = SMap.set 0 s.sram k b := rfl
@[simp] theorem State.setSram_absentLines (s : State) (k : Nat) (b : Byte) : (s.setSram k b).absentLines = s.absentLines := rfl
@[simp] theorem State.setSram_clusters (s : State) (k : Nat) (b : Byte) : (s.setSram k b).clusters = s.clusters := rfl
@[simp] theorem State.setSram_banks (s : State) (k : Nat) (b : Byte) : (s.setSram k b).banks = s.banks := rfl
@[simp] theorem State.setSram_parts (s : State) (k : Nat) (b : Byte) : (s.setSram k b).parts = s.parts := rfl
@[simp] theorem State.setSram_launches (s : State) (k : Nat) (b : Byte) : (s.setSram k b).launches = s.launches := rfl
@[simp] theorem State.setSram_teams (s : State) (k : Nat) (b : Byte) : (s.setSram k b).teams = s.teams := rfl
@[simp] theorem State.setSram_groups (s : State) (k : Nat) (b : Byte) : (s.setSram k b).groups = s.groups := rfl
@[simp] theorem State.setSram_chans (s : State) (k : Nat) (b : Byte) : (s.setSram k b).chans = s.chans := rfl
@[simp] theorem State.setSram_nextUid (s : State) (k : Nat) (b : Byte) : (s.setSram k b).nextUid = s.nextUid := rfl
@[simp] theorem State.setSram_rotation (s : State) (k : Nat) (b : Byte) : (s.setSram k b).rotation = s.rotation := rfl
@[simp] theorem State.setSram_scalarIssues (s : State) (k : Nat) (b : Byte) : (s.setSram k b).scalarIssues = s.scalarIssues := rfl
@[simp] theorem State.setSram_replies (s : State) (k : Nat) (b : Byte) : (s.setSram k b).replies = s.replies := rfl
@[simp] theorem State.setSram_negotiated (s : State) (k : Nat) (b : Byte) : (s.setSram k b).negotiated = s.negotiated := rfl
@[simp] theorem State.setSram_reports (s : State) (k : Nat) (b : Byte) : (s.setSram k b).reports = s.reports := rfl
@[simp] theorem State.setSram_profiles (s : State) (k : Nat) (b : Byte) : (s.setSram k b).profiles = s.profiles := rfl
@[simp] theorem State.setSram_agenda (s : State) (k : Nat) (b : Byte) : (s.setSram k b).agenda = s.agenda := rfl
@[simp] theorem State.setSram_cur (s : State) (k : Nat) (b : Byte) : (s.setSram k b).cur = s.cur := rfl
@[simp] theorem State.setSram_second (s : State) (k : Nat) (b : Byte) : (s.setSram k b).second = s.second := rfl
@[simp] theorem State.setSram_waiting (s : State) (k : Nat) (b : Byte) : (s.setSram k b).waiting = s.waiting := rfl
@[simp] theorem State.setSram_served (s : State) (k : Nat) (b : Byte) : (s.setSram k b).served = s.served := rfl
@[simp] theorem State.setSram_now (s : State) (k : Nat) (b : Byte) : (s.setSram k b).now = s.now := rfl
@[simp] theorem State.setSram_fresh (s : State) (k : Nat) (b : Byte) : (s.setSram k b).fresh = s.fresh := rfl
@[simp] theorem State.setSram_stuck (s : State) (k : Nat) (b : Byte) : (s.setSram k b).stuck = s.stuck := rfl

/-! `State.updGroup`. -/

@[simp] theorem State.updGroup_svc (s : State) (gk : Nat) (f : Group → Group) : (s.updGroup gk f).svc = s.svc := rfl
@[simp] theorem State.updGroup_hbmOk (s : State) (gk : Nat) (f : Group → Group) : (s.updGroup gk f).hbmOk = s.hbmOk := rfl
@[simp] theorem State.updGroup_hbmFail (s : State) (gk : Nat) (f : Group → Group) : (s.updGroup gk f).hbmFail = s.hbmFail := rfl
@[simp] theorem State.updGroup_svcCmd (s : State) (gk : Nat) (f : Group → Group) : (s.updGroup gk f).svcCmd = s.svcCmd := rfl
@[simp] theorem State.updGroup_svcRes (s : State) (gk : Nat) (f : Group → Group) : (s.updGroup gk f).svcRes = s.svcRes := rfl
@[simp] theorem State.updGroup_stages (s : State) (gk : Nat) (f : Group → Group) : (s.updGroup gk f).stages = s.stages := rfl
@[simp] theorem State.updGroup_bootFailed (s : State) (gk : Nat) (f : Group → Group) : (s.updGroup gk f).bootFailed = s.bootFailed := rfl
@[simp] theorem State.updGroup_bootDone (s : State) (gk : Nat) (f : Group → Group) : (s.updGroup gk f).bootDone = s.bootDone := rfl
@[simp] theorem State.updGroup_meas (s : State) (gk : Nat) (f : Group → Group) : (s.updGroup gk f).meas = s.meas := rfl
@[simp] theorem State.updGroup_fuseCount (s : State) (gk : Nat) (f : Group → Group) : (s.updGroup gk f).fuseCount = s.fuseCount := rfl
@[simp] theorem State.updGroup_flash (s : State) (gk : Nat) (f : Group → Group) : (s.updGroup gk f).flash = s.flash := rfl
@[simp] theorem State.updGroup_activeBank (s : State) (gk : Nat) (f : Group → Group) : (s.updGroup gk f).activeBank = s.activeBank := rfl
@[simp] theorem State.updGroup_uncommitted (s : State) (gk : Nat) (f : Group → Group) : (s.updGroup gk f).uncommitted = s.uncommitted := rfl
@[simp] theorem State.updGroup_flashBusy (s : State) (gk : Nat) (f : Group → Group) : (s.updGroup gk f).flashBusy = s.flashBusy := rfl
@[simp] theorem State.updGroup_pendingUpdate (s : State) (gk : Nat) (f : Group → Group) : (s.updGroup gk f).pendingUpdate = s.pendingUpdate := rfl
@[simp] theorem State.updGroup_hbmErrs (s : State) (gk : Nat) (f : Group → Group) : (s.updGroup gk f).hbmErrs = s.hbmErrs := rfl
@[simp] theorem State.updGroup_ptBase (s : State) (gk : Nat) (f : Group → Group) : (s.updGroup gk f).ptBase = s.ptBase := rfl
@[simp] theorem State.updGroup_ptAt (s : State) (gk : Nat) (f : Group → Group) : (s.updGroup gk f).ptAt = s.ptAt := rfl
@[simp] theorem State.updGroup_ptStep (s : State) (gk : Nat) (f : Group → Group) : (s.updGroup gk f).ptStep = s.ptStep := rfl
@[simp] theorem State.updGroup_ptRate (s : State) (gk : Nat) (f : Group → Group) : (s.updGroup gk f).ptRate = s.ptRate := rfl
@[simp] theorem State.updGroup_stepping (s : State) (gk : Nat) (f : Group → Group) : (s.updGroup gk f).stepping = s.stepping := rfl
@[simp] theorem State.updGroup_txts (s : State) (gk : Nat) (f : Group → Group) : (s.updGroup gk f).txts = s.txts := rfl
@[simp] theorem State.updGroup_ptsel (s : State) (gk : Nat) (f : Group → Group) : (s.updGroup gk f).ptsel = s.ptsel := rfl
@[simp] theorem State.updGroup_l2wayg (s : State) (gk : Nat) (f : Group → Group) : (s.updGroup gk f).l2wayg = s.l2wayg := rfl
@[simp] theorem State.updGroup_mcwin (s : State) (gk : Nat) (f : Group → Group) : (s.updGroup gk f).mcwin = s.mcwin := rfl
@[simp] theorem State.updGroup_l2sel (s : State) (gk : Nat) (f : Group → Group) : (s.updGroup gk f).l2sel = s.l2sel := rfl
@[simp] theorem State.updGroup_qosErr (s : State) (gk : Nat) (f : Group → Group) : (s.updGroup gk f).qosErr = s.qosErr := rfl
@[simp] theorem State.updGroup_slices (s : State) (gk : Nat) (f : Group → Group) : (s.updGroup gk f).slices = s.slices := rfl
@[simp] theorem State.updGroup_l2 (s : State) (gk : Nat) (f : Group → Group) : (s.updGroup gk f).l2 = s.l2 := rfl
@[simp] theorem State.updGroup_mcasts (s : State) (gk : Nat) (f : Group → Group) : (s.updGroup gk f).mcasts = s.mcasts := rfl
@[simp] theorem State.updGroup_merged (s : State) (gk : Nat) (f : Group → Group) : (s.updGroup gk f).merged = s.merged := rfl
@[simp] theorem State.updGroup_homeReqs (s : State) (gk : Nat) (f : Group → Group) : (s.updGroup gk f).homeReqs = s.homeReqs := rfl
@[simp] theorem State.updGroup_slicePwr (s : State) (gk : Nat) (f : Group → Group) : (s.updGroup gk f).slicePwr = s.slicePwr := rfl
@[simp] theorem State.updGroup_tlb1 (s : State) (gk : Nat) (f : Group → Group) : (s.updGroup gk f).tlb1 = s.tlb1 := rfl
@[simp] theorem State.updGroup_tlb2 (s : State) (gk : Nat) (f : Group → Group) : (s.updGroup gk f).tlb2 = s.tlb2 := rfl
@[simp] theorem State.updGroup_walkCache (s : State) (gk : Nat) (f : Group → Group) : (s.updGroup gk f).walkCache = s.walkCache := rfl
@[simp] theorem State.updGroup_walks (s : State) (gk : Nat) (f : Group → Group) : (s.updGroup gk f).walks = s.walks := rfl
@[simp] theorem State.updGroup_stBase (s : State) (gk : Nat) (f : Group → Group) : (s.updGroup gk f).stBase = s.stBase := rfl
@[simp] theorem State.updGroup_scCmd (s : State) (gk : Nat) (f : Group → Group) : (s.updGroup gk f).scCmd = s.scCmd := rfl
@[simp] theorem State.updGroup_scStat (s : State) (gk : Nat) (f : Group → Group) : (s.updGroup gk f).scStat = s.scStat := rfl
@[simp] theorem State.updGroup_streams (s : State) (gk : Nat) (f : Group → Group) : (s.updGroup gk f).streams = s.streams := rfl
@[simp] theorem State.updGroup_ftBase (s : State) (gk : Nat) (f : Group → Group) : (s.updGroup gk f).ftBase = s.ftBase := rfl
@[simp] theorem State.updGroup_ftInv (s : State) (gk : Nat) (f : Group → Group) : (s.updGroup gk f).ftInv = s.ftInv := rfl
@[simp] theorem State.updGroup_ftBusy (s : State) (gk : Nat) (f : Group → Group) : (s.updGroup gk f).ftBusy = s.ftBusy := rfl
@[simp] theorem State.updGroup_ftFault (s : State) (gk : Nat) (f : Group → Group) : (s.updGroup gk f).ftFault = s.ftFault := rfl
@[simp] theorem State.updGroup_ftlb (s : State) (gk : Nat) (f : Group → Group) : (s.updGroup gk f).ftlb = s.ftlb := rfl
@[simp] theorem State.updGroup_keyCmd (s : State) (gk : Nat) (f : Group → Group) : (s.updGroup gk f).keyCmd = s.keyCmd := rfl
@[simp] theorem State.updGroup_keyBusy (s : State) (gk : Nat) (f : Group → Group) : (s.updGroup gk f).keyBusy = s.keyBusy := rfl
@[simp] theorem State.updGroup_keyRes (s : State) (gk : Nat) (f : Group → Group) : (s.updGroup gk f).keyRes = s.keyRes := rfl
@[simp] theorem State.updGroup_keyGiven (s : State) (gk : Nat) (f : Group → Group) : (s.updGroup gk f).keyGiven = s.keyGiven := rfl
@[simp] theorem State.updGroup_keyNext (s : State) (gk : Nat) (f : Group → Group) : (s.updGroup gk f).keyNext = s.keyNext := rfl
@[simp] theorem State.updGroup_keys (s : State) (gk : Nat) (f : Group → Group) : (s.updGroup gk f).keys = s.keys := rfl
@[simp] theorem State.updGroup_nextSerial (s : State) (gk : Nat) (f : Group → Group) : (s.updGroup gk f).nextSerial = s.nextSerial := rfl
@[simp] theorem State.updGroup_rtBase (s : State) (gk : Nat) (f : Group → Group) : (s.updGroup gk f).rtBase = s.rtBase := rfl
@[simp] theorem State.updGroup_pkgNum (s : State) (gk : Nat) (f : Group → Group) : (s.updGroup gk f).pkgNum = s.pkgNum := rfl
@[simp] theorem State.updGroup_ports (s : State) (gk : Nat) (f : Group → Group) : (s.updGroup gk f).ports = s.ports := rfl
@[simp] theorem State.updGroup_sent (s : State) (gk : Nat) (f : Group → Group) : (s.updGroup gk f).sent = s.sent := rfl
@[simp] theorem State.updGroup_out (s : State) (gk : Nat) (f : Group → Group) : (s.updGroup gk f).out = s.out := rfl
@[simp] theorem State.updGroup_remotes (s : State) (gk : Nat) (f : Group → Group) : (s.updGroup gk f).remotes = s.remotes := rfl
@[simp] theorem State.updGroup_recs (s : State) (gk : Nat) (f : Group → Group) : (s.updGroup gk f).recs = s.recs := rfl
@[simp] theorem State.updGroup_nextTag (s : State) (gk : Nat) (f : Group → Group) : (s.updGroup gk f).nextTag = s.nextTag := rfl
@[simp] theorem State.updGroup_windows (s : State) (gk : Nat) (f : Group → Group) : (s.updGroup gk f).windows = s.windows := rfl
@[simp] theorem State.updGroup_colls (s : State) (gk : Nat) (f : Group → Group) : (s.updGroup gk f).colls = s.colls := rfl
@[simp] theorem State.updGroup_collIn (s : State) (gk : Nat) (f : Group → Group) : (s.updGroup gk f).collIn = s.collIn := rfl
@[simp] theorem State.updGroup_rxTimes (s : State) (gk : Nat) (f : Group → Group) : (s.updGroup gk f).rxTimes = s.rxTimes := rfl
@[simp] theorem State.updGroup_hpart (s : State) (gk : Nat) (f : Group → Group) : (s.updGroup gk f).hpart = s.hpart := rfl
@[simp] theorem State.updGroup_hostLast (s : State) (gk : Nat) (f : Group → Group) : (s.updGroup gk f).hostLast = s.hostLast := rfl
@[simp] theorem State.updGroup_hostResv (s : State) (gk : Nat) (f : Group → Group) : (s.updGroup gk f).hostResv = s.hostResv := rfl
@[simp] theorem State.updGroup_hostHeld (s : State) (gk : Nat) (f : Group → Group) : (s.updGroup gk f).hostHeld = s.hostHeld := rfl
@[simp] theorem State.updGroup_hostWait (s : State) (gk : Nat) (f : Group → Group) : (s.updGroup gk f).hostWait = s.hostWait := rfl
@[simp] theorem State.updGroup_mem (s : State) (gk : Nat) (f : Group → Group) : (s.updGroup gk f).mem = s.mem := rfl
@[simp] theorem State.updGroup_hist (s : State) (gk : Nat) (f : Group → Group) : (s.updGroup gk f).hist = s.hist := rfl
@[simp] theorem State.updGroup_wseq (s : State) (gk : Nat) (f : Group → Group) : (s.updGroup gk f).wseq = s.wseq := rfl
@[simp] theorem State.updGroup_wb (s : State) (gk : Nat) (f : Group → Group) : (s.updGroup gk f).wb = s.wb := rfl
@[simp] theorem State.updGroup_ktag (s : State) (gk : Nat) (f : Group → Group) : (s.updGroup gk f).ktag = s.ktag := rfl
@[simp] theorem State.updGroup_blobs (s : State) (gk : Nat) (f : Group → Group) : (s.updGroup gk f).blobs = s.blobs := rfl
@[simp] theorem State.updGroup_nextBlob (s : State) (gk : Nat) (f : Group → Group) : (s.updGroup gk f).nextBlob = s.nextBlob := rfl
@[simp] theorem State.updGroup_stores (s : State) (gk : Nat) (f : Group → Group) : (s.updGroup gk f).stores = s.stores := rfl
@[simp] theorem State.updGroup_nextStore (s : State) (gk : Nat) (f : Group → Group) : (s.updGroup gk f).nextStore = s.nextStore := rfl
@[simp] theorem State.updGroup_sram (s : State) (gk : Nat) (f : Group → Group) : (s.updGroup gk f).sram = s.sram := rfl
@[simp] theorem State.updGroup_absentLines (s : State) (gk : Nat) (f : Group → Group) : (s.updGroup gk f).absentLines = s.absentLines := rfl
@[simp] theorem State.updGroup_clusters (s : State) (gk : Nat) (f : Group → Group) : (s.updGroup gk f).clusters = s.clusters := rfl
@[simp] theorem State.updGroup_banks (s : State) (gk : Nat) (f : Group → Group) : (s.updGroup gk f).banks = s.banks := rfl
@[simp] theorem State.updGroup_parts (s : State) (gk : Nat) (f : Group → Group) : (s.updGroup gk f).parts = s.parts := rfl
@[simp] theorem State.updGroup_launches (s : State) (gk : Nat) (f : Group → Group) : (s.updGroup gk f).launches = s.launches := rfl
@[simp] theorem State.updGroup_teams (s : State) (gk : Nat) (f : Group → Group) : (s.updGroup gk f).teams = s.teams := rfl
@[simp] theorem State.updGroup_groups (s : State) (gk : Nat) (f : Group → Group) : (s.updGroup gk f).groups = SMap.upd s.groups gk f := rfl
@[simp] theorem State.updGroup_chans (s : State) (gk : Nat) (f : Group → Group) : (s.updGroup gk f).chans = s.chans := rfl
@[simp] theorem State.updGroup_nextUid (s : State) (gk : Nat) (f : Group → Group) : (s.updGroup gk f).nextUid = s.nextUid := rfl
@[simp] theorem State.updGroup_rotation (s : State) (gk : Nat) (f : Group → Group) : (s.updGroup gk f).rotation = s.rotation := rfl
@[simp] theorem State.updGroup_scalarIssues (s : State) (gk : Nat) (f : Group → Group) : (s.updGroup gk f).scalarIssues = s.scalarIssues := rfl
@[simp] theorem State.updGroup_replies (s : State) (gk : Nat) (f : Group → Group) : (s.updGroup gk f).replies = s.replies := rfl
@[simp] theorem State.updGroup_negotiated (s : State) (gk : Nat) (f : Group → Group) : (s.updGroup gk f).negotiated = s.negotiated := rfl
@[simp] theorem State.updGroup_reports (s : State) (gk : Nat) (f : Group → Group) : (s.updGroup gk f).reports = s.reports := rfl
@[simp] theorem State.updGroup_profiles (s : State) (gk : Nat) (f : Group → Group) : (s.updGroup gk f).profiles = s.profiles := rfl
@[simp] theorem State.updGroup_agenda (s : State) (gk : Nat) (f : Group → Group) : (s.updGroup gk f).agenda = s.agenda := rfl
@[simp] theorem State.updGroup_cur (s : State) (gk : Nat) (f : Group → Group) : (s.updGroup gk f).cur = s.cur := rfl
@[simp] theorem State.updGroup_second (s : State) (gk : Nat) (f : Group → Group) : (s.updGroup gk f).second = s.second := rfl
@[simp] theorem State.updGroup_waiting (s : State) (gk : Nat) (f : Group → Group) : (s.updGroup gk f).waiting = s.waiting := rfl
@[simp] theorem State.updGroup_served (s : State) (gk : Nat) (f : Group → Group) : (s.updGroup gk f).served = s.served := rfl
@[simp] theorem State.updGroup_now (s : State) (gk : Nat) (f : Group → Group) : (s.updGroup gk f).now = s.now := rfl
@[simp] theorem State.updGroup_fresh (s : State) (gk : Nat) (f : Group → Group) : (s.updGroup gk f).fresh = s.fresh := rfl
@[simp] theorem State.updGroup_stuck (s : State) (gk : Nat) (f : Group → Group) : (s.updGroup gk f).stuck = s.stuck := rfl

/-! `State.updTeam`. -/

@[simp] theorem State.updTeam_svc (s : State) (t : Nat) (f : Team → Team) : (s.updTeam t f).svc = s.svc := rfl
@[simp] theorem State.updTeam_hbmOk (s : State) (t : Nat) (f : Team → Team) : (s.updTeam t f).hbmOk = s.hbmOk := rfl
@[simp] theorem State.updTeam_hbmFail (s : State) (t : Nat) (f : Team → Team) : (s.updTeam t f).hbmFail = s.hbmFail := rfl
@[simp] theorem State.updTeam_svcCmd (s : State) (t : Nat) (f : Team → Team) : (s.updTeam t f).svcCmd = s.svcCmd := rfl
@[simp] theorem State.updTeam_svcRes (s : State) (t : Nat) (f : Team → Team) : (s.updTeam t f).svcRes = s.svcRes := rfl
@[simp] theorem State.updTeam_stages (s : State) (t : Nat) (f : Team → Team) : (s.updTeam t f).stages = s.stages := rfl
@[simp] theorem State.updTeam_bootFailed (s : State) (t : Nat) (f : Team → Team) : (s.updTeam t f).bootFailed = s.bootFailed := rfl
@[simp] theorem State.updTeam_bootDone (s : State) (t : Nat) (f : Team → Team) : (s.updTeam t f).bootDone = s.bootDone := rfl
@[simp] theorem State.updTeam_meas (s : State) (t : Nat) (f : Team → Team) : (s.updTeam t f).meas = s.meas := rfl
@[simp] theorem State.updTeam_fuseCount (s : State) (t : Nat) (f : Team → Team) : (s.updTeam t f).fuseCount = s.fuseCount := rfl
@[simp] theorem State.updTeam_flash (s : State) (t : Nat) (f : Team → Team) : (s.updTeam t f).flash = s.flash := rfl
@[simp] theorem State.updTeam_activeBank (s : State) (t : Nat) (f : Team → Team) : (s.updTeam t f).activeBank = s.activeBank := rfl
@[simp] theorem State.updTeam_uncommitted (s : State) (t : Nat) (f : Team → Team) : (s.updTeam t f).uncommitted = s.uncommitted := rfl
@[simp] theorem State.updTeam_flashBusy (s : State) (t : Nat) (f : Team → Team) : (s.updTeam t f).flashBusy = s.flashBusy := rfl
@[simp] theorem State.updTeam_pendingUpdate (s : State) (t : Nat) (f : Team → Team) : (s.updTeam t f).pendingUpdate = s.pendingUpdate := rfl
@[simp] theorem State.updTeam_hbmErrs (s : State) (t : Nat) (f : Team → Team) : (s.updTeam t f).hbmErrs = s.hbmErrs := rfl
@[simp] theorem State.updTeam_ptBase (s : State) (t : Nat) (f : Team → Team) : (s.updTeam t f).ptBase = s.ptBase := rfl
@[simp] theorem State.updTeam_ptAt (s : State) (t : Nat) (f : Team → Team) : (s.updTeam t f).ptAt = s.ptAt := rfl
@[simp] theorem State.updTeam_ptStep (s : State) (t : Nat) (f : Team → Team) : (s.updTeam t f).ptStep = s.ptStep := rfl
@[simp] theorem State.updTeam_ptRate (s : State) (t : Nat) (f : Team → Team) : (s.updTeam t f).ptRate = s.ptRate := rfl
@[simp] theorem State.updTeam_stepping (s : State) (t : Nat) (f : Team → Team) : (s.updTeam t f).stepping = s.stepping := rfl
@[simp] theorem State.updTeam_txts (s : State) (t : Nat) (f : Team → Team) : (s.updTeam t f).txts = s.txts := rfl
@[simp] theorem State.updTeam_ptsel (s : State) (t : Nat) (f : Team → Team) : (s.updTeam t f).ptsel = s.ptsel := rfl
@[simp] theorem State.updTeam_l2wayg (s : State) (t : Nat) (f : Team → Team) : (s.updTeam t f).l2wayg = s.l2wayg := rfl
@[simp] theorem State.updTeam_mcwin (s : State) (t : Nat) (f : Team → Team) : (s.updTeam t f).mcwin = s.mcwin := rfl
@[simp] theorem State.updTeam_l2sel (s : State) (t : Nat) (f : Team → Team) : (s.updTeam t f).l2sel = s.l2sel := rfl
@[simp] theorem State.updTeam_qosErr (s : State) (t : Nat) (f : Team → Team) : (s.updTeam t f).qosErr = s.qosErr := rfl
@[simp] theorem State.updTeam_slices (s : State) (t : Nat) (f : Team → Team) : (s.updTeam t f).slices = s.slices := rfl
@[simp] theorem State.updTeam_l2 (s : State) (t : Nat) (f : Team → Team) : (s.updTeam t f).l2 = s.l2 := rfl
@[simp] theorem State.updTeam_mcasts (s : State) (t : Nat) (f : Team → Team) : (s.updTeam t f).mcasts = s.mcasts := rfl
@[simp] theorem State.updTeam_merged (s : State) (t : Nat) (f : Team → Team) : (s.updTeam t f).merged = s.merged := rfl
@[simp] theorem State.updTeam_homeReqs (s : State) (t : Nat) (f : Team → Team) : (s.updTeam t f).homeReqs = s.homeReqs := rfl
@[simp] theorem State.updTeam_slicePwr (s : State) (t : Nat) (f : Team → Team) : (s.updTeam t f).slicePwr = s.slicePwr := rfl
@[simp] theorem State.updTeam_tlb1 (s : State) (t : Nat) (f : Team → Team) : (s.updTeam t f).tlb1 = s.tlb1 := rfl
@[simp] theorem State.updTeam_tlb2 (s : State) (t : Nat) (f : Team → Team) : (s.updTeam t f).tlb2 = s.tlb2 := rfl
@[simp] theorem State.updTeam_walkCache (s : State) (t : Nat) (f : Team → Team) : (s.updTeam t f).walkCache = s.walkCache := rfl
@[simp] theorem State.updTeam_walks (s : State) (t : Nat) (f : Team → Team) : (s.updTeam t f).walks = s.walks := rfl
@[simp] theorem State.updTeam_stBase (s : State) (t : Nat) (f : Team → Team) : (s.updTeam t f).stBase = s.stBase := rfl
@[simp] theorem State.updTeam_scCmd (s : State) (t : Nat) (f : Team → Team) : (s.updTeam t f).scCmd = s.scCmd := rfl
@[simp] theorem State.updTeam_scStat (s : State) (t : Nat) (f : Team → Team) : (s.updTeam t f).scStat = s.scStat := rfl
@[simp] theorem State.updTeam_streams (s : State) (t : Nat) (f : Team → Team) : (s.updTeam t f).streams = s.streams := rfl
@[simp] theorem State.updTeam_ftBase (s : State) (t : Nat) (f : Team → Team) : (s.updTeam t f).ftBase = s.ftBase := rfl
@[simp] theorem State.updTeam_ftInv (s : State) (t : Nat) (f : Team → Team) : (s.updTeam t f).ftInv = s.ftInv := rfl
@[simp] theorem State.updTeam_ftBusy (s : State) (t : Nat) (f : Team → Team) : (s.updTeam t f).ftBusy = s.ftBusy := rfl
@[simp] theorem State.updTeam_ftFault (s : State) (t : Nat) (f : Team → Team) : (s.updTeam t f).ftFault = s.ftFault := rfl
@[simp] theorem State.updTeam_ftlb (s : State) (t : Nat) (f : Team → Team) : (s.updTeam t f).ftlb = s.ftlb := rfl
@[simp] theorem State.updTeam_keyCmd (s : State) (t : Nat) (f : Team → Team) : (s.updTeam t f).keyCmd = s.keyCmd := rfl
@[simp] theorem State.updTeam_keyBusy (s : State) (t : Nat) (f : Team → Team) : (s.updTeam t f).keyBusy = s.keyBusy := rfl
@[simp] theorem State.updTeam_keyRes (s : State) (t : Nat) (f : Team → Team) : (s.updTeam t f).keyRes = s.keyRes := rfl
@[simp] theorem State.updTeam_keyGiven (s : State) (t : Nat) (f : Team → Team) : (s.updTeam t f).keyGiven = s.keyGiven := rfl
@[simp] theorem State.updTeam_keyNext (s : State) (t : Nat) (f : Team → Team) : (s.updTeam t f).keyNext = s.keyNext := rfl
@[simp] theorem State.updTeam_keys (s : State) (t : Nat) (f : Team → Team) : (s.updTeam t f).keys = s.keys := rfl
@[simp] theorem State.updTeam_nextSerial (s : State) (t : Nat) (f : Team → Team) : (s.updTeam t f).nextSerial = s.nextSerial := rfl
@[simp] theorem State.updTeam_rtBase (s : State) (t : Nat) (f : Team → Team) : (s.updTeam t f).rtBase = s.rtBase := rfl
@[simp] theorem State.updTeam_pkgNum (s : State) (t : Nat) (f : Team → Team) : (s.updTeam t f).pkgNum = s.pkgNum := rfl
@[simp] theorem State.updTeam_ports (s : State) (t : Nat) (f : Team → Team) : (s.updTeam t f).ports = s.ports := rfl
@[simp] theorem State.updTeam_sent (s : State) (t : Nat) (f : Team → Team) : (s.updTeam t f).sent = s.sent := rfl
@[simp] theorem State.updTeam_out (s : State) (t : Nat) (f : Team → Team) : (s.updTeam t f).out = s.out := rfl
@[simp] theorem State.updTeam_remotes (s : State) (t : Nat) (f : Team → Team) : (s.updTeam t f).remotes = s.remotes := rfl
@[simp] theorem State.updTeam_recs (s : State) (t : Nat) (f : Team → Team) : (s.updTeam t f).recs = s.recs := rfl
@[simp] theorem State.updTeam_nextTag (s : State) (t : Nat) (f : Team → Team) : (s.updTeam t f).nextTag = s.nextTag := rfl
@[simp] theorem State.updTeam_windows (s : State) (t : Nat) (f : Team → Team) : (s.updTeam t f).windows = s.windows := rfl
@[simp] theorem State.updTeam_colls (s : State) (t : Nat) (f : Team → Team) : (s.updTeam t f).colls = s.colls := rfl
@[simp] theorem State.updTeam_collIn (s : State) (t : Nat) (f : Team → Team) : (s.updTeam t f).collIn = s.collIn := rfl
@[simp] theorem State.updTeam_rxTimes (s : State) (t : Nat) (f : Team → Team) : (s.updTeam t f).rxTimes = s.rxTimes := rfl
@[simp] theorem State.updTeam_hpart (s : State) (t : Nat) (f : Team → Team) : (s.updTeam t f).hpart = s.hpart := rfl
@[simp] theorem State.updTeam_hostLast (s : State) (t : Nat) (f : Team → Team) : (s.updTeam t f).hostLast = s.hostLast := rfl
@[simp] theorem State.updTeam_hostResv (s : State) (t : Nat) (f : Team → Team) : (s.updTeam t f).hostResv = s.hostResv := rfl
@[simp] theorem State.updTeam_hostHeld (s : State) (t : Nat) (f : Team → Team) : (s.updTeam t f).hostHeld = s.hostHeld := rfl
@[simp] theorem State.updTeam_hostWait (s : State) (t : Nat) (f : Team → Team) : (s.updTeam t f).hostWait = s.hostWait := rfl
@[simp] theorem State.updTeam_mem (s : State) (t : Nat) (f : Team → Team) : (s.updTeam t f).mem = s.mem := rfl
@[simp] theorem State.updTeam_hist (s : State) (t : Nat) (f : Team → Team) : (s.updTeam t f).hist = s.hist := rfl
@[simp] theorem State.updTeam_wseq (s : State) (t : Nat) (f : Team → Team) : (s.updTeam t f).wseq = s.wseq := rfl
@[simp] theorem State.updTeam_wb (s : State) (t : Nat) (f : Team → Team) : (s.updTeam t f).wb = s.wb := rfl
@[simp] theorem State.updTeam_ktag (s : State) (t : Nat) (f : Team → Team) : (s.updTeam t f).ktag = s.ktag := rfl
@[simp] theorem State.updTeam_blobs (s : State) (t : Nat) (f : Team → Team) : (s.updTeam t f).blobs = s.blobs := rfl
@[simp] theorem State.updTeam_nextBlob (s : State) (t : Nat) (f : Team → Team) : (s.updTeam t f).nextBlob = s.nextBlob := rfl
@[simp] theorem State.updTeam_stores (s : State) (t : Nat) (f : Team → Team) : (s.updTeam t f).stores = s.stores := rfl
@[simp] theorem State.updTeam_nextStore (s : State) (t : Nat) (f : Team → Team) : (s.updTeam t f).nextStore = s.nextStore := rfl
@[simp] theorem State.updTeam_sram (s : State) (t : Nat) (f : Team → Team) : (s.updTeam t f).sram = s.sram := rfl
@[simp] theorem State.updTeam_absentLines (s : State) (t : Nat) (f : Team → Team) : (s.updTeam t f).absentLines = s.absentLines := rfl
@[simp] theorem State.updTeam_clusters (s : State) (t : Nat) (f : Team → Team) : (s.updTeam t f).clusters = s.clusters := rfl
@[simp] theorem State.updTeam_banks (s : State) (t : Nat) (f : Team → Team) : (s.updTeam t f).banks = s.banks := rfl
@[simp] theorem State.updTeam_parts (s : State) (t : Nat) (f : Team → Team) : (s.updTeam t f).parts = s.parts := rfl
@[simp] theorem State.updTeam_launches (s : State) (t : Nat) (f : Team → Team) : (s.updTeam t f).launches = s.launches := rfl
@[simp] theorem State.updTeam_teams (s : State) (t : Nat) (f : Team → Team) : (s.updTeam t f).teams = SMap.upd s.teams t f := rfl
@[simp] theorem State.updTeam_groups (s : State) (t : Nat) (f : Team → Team) : (s.updTeam t f).groups = s.groups := rfl
@[simp] theorem State.updTeam_chans (s : State) (t : Nat) (f : Team → Team) : (s.updTeam t f).chans = s.chans := rfl
@[simp] theorem State.updTeam_nextUid (s : State) (t : Nat) (f : Team → Team) : (s.updTeam t f).nextUid = s.nextUid := rfl
@[simp] theorem State.updTeam_rotation (s : State) (t : Nat) (f : Team → Team) : (s.updTeam t f).rotation = s.rotation := rfl
@[simp] theorem State.updTeam_scalarIssues (s : State) (t : Nat) (f : Team → Team) : (s.updTeam t f).scalarIssues = s.scalarIssues := rfl
@[simp] theorem State.updTeam_replies (s : State) (t : Nat) (f : Team → Team) : (s.updTeam t f).replies = s.replies := rfl
@[simp] theorem State.updTeam_negotiated (s : State) (t : Nat) (f : Team → Team) : (s.updTeam t f).negotiated = s.negotiated := rfl
@[simp] theorem State.updTeam_reports (s : State) (t : Nat) (f : Team → Team) : (s.updTeam t f).reports = s.reports := rfl
@[simp] theorem State.updTeam_profiles (s : State) (t : Nat) (f : Team → Team) : (s.updTeam t f).profiles = s.profiles := rfl
@[simp] theorem State.updTeam_agenda (s : State) (t : Nat) (f : Team → Team) : (s.updTeam t f).agenda = s.agenda := rfl
@[simp] theorem State.updTeam_cur (s : State) (t : Nat) (f : Team → Team) : (s.updTeam t f).cur = s.cur := rfl
@[simp] theorem State.updTeam_second (s : State) (t : Nat) (f : Team → Team) : (s.updTeam t f).second = s.second := rfl
@[simp] theorem State.updTeam_waiting (s : State) (t : Nat) (f : Team → Team) : (s.updTeam t f).waiting = s.waiting := rfl
@[simp] theorem State.updTeam_served (s : State) (t : Nat) (f : Team → Team) : (s.updTeam t f).served = s.served := rfl
@[simp] theorem State.updTeam_now (s : State) (t : Nat) (f : Team → Team) : (s.updTeam t f).now = s.now := rfl
@[simp] theorem State.updTeam_fresh (s : State) (t : Nat) (f : Team → Team) : (s.updTeam t f).fresh = s.fresh := rfl
@[simp] theorem State.updTeam_stuck (s : State) (t : Nat) (f : Team → Team) : (s.updTeam t f).stuck = s.stuck := rfl

/-! `State.updLaunch`. -/

@[simp] theorem State.updLaunch_svc (s : State) (l : Nat) (f : Launch → Launch) : (s.updLaunch l f).svc = s.svc := rfl
@[simp] theorem State.updLaunch_hbmOk (s : State) (l : Nat) (f : Launch → Launch) : (s.updLaunch l f).hbmOk = s.hbmOk := rfl
@[simp] theorem State.updLaunch_hbmFail (s : State) (l : Nat) (f : Launch → Launch) : (s.updLaunch l f).hbmFail = s.hbmFail := rfl
@[simp] theorem State.updLaunch_svcCmd (s : State) (l : Nat) (f : Launch → Launch) : (s.updLaunch l f).svcCmd = s.svcCmd := rfl
@[simp] theorem State.updLaunch_svcRes (s : State) (l : Nat) (f : Launch → Launch) : (s.updLaunch l f).svcRes = s.svcRes := rfl
@[simp] theorem State.updLaunch_stages (s : State) (l : Nat) (f : Launch → Launch) : (s.updLaunch l f).stages = s.stages := rfl
@[simp] theorem State.updLaunch_bootFailed (s : State) (l : Nat) (f : Launch → Launch) : (s.updLaunch l f).bootFailed = s.bootFailed := rfl
@[simp] theorem State.updLaunch_bootDone (s : State) (l : Nat) (f : Launch → Launch) : (s.updLaunch l f).bootDone = s.bootDone := rfl
@[simp] theorem State.updLaunch_meas (s : State) (l : Nat) (f : Launch → Launch) : (s.updLaunch l f).meas = s.meas := rfl
@[simp] theorem State.updLaunch_fuseCount (s : State) (l : Nat) (f : Launch → Launch) : (s.updLaunch l f).fuseCount = s.fuseCount := rfl
@[simp] theorem State.updLaunch_flash (s : State) (l : Nat) (f : Launch → Launch) : (s.updLaunch l f).flash = s.flash := rfl
@[simp] theorem State.updLaunch_activeBank (s : State) (l : Nat) (f : Launch → Launch) : (s.updLaunch l f).activeBank = s.activeBank := rfl
@[simp] theorem State.updLaunch_uncommitted (s : State) (l : Nat) (f : Launch → Launch) : (s.updLaunch l f).uncommitted = s.uncommitted := rfl
@[simp] theorem State.updLaunch_flashBusy (s : State) (l : Nat) (f : Launch → Launch) : (s.updLaunch l f).flashBusy = s.flashBusy := rfl
@[simp] theorem State.updLaunch_pendingUpdate (s : State) (l : Nat) (f : Launch → Launch) : (s.updLaunch l f).pendingUpdate = s.pendingUpdate := rfl
@[simp] theorem State.updLaunch_hbmErrs (s : State) (l : Nat) (f : Launch → Launch) : (s.updLaunch l f).hbmErrs = s.hbmErrs := rfl
@[simp] theorem State.updLaunch_ptBase (s : State) (l : Nat) (f : Launch → Launch) : (s.updLaunch l f).ptBase = s.ptBase := rfl
@[simp] theorem State.updLaunch_ptAt (s : State) (l : Nat) (f : Launch → Launch) : (s.updLaunch l f).ptAt = s.ptAt := rfl
@[simp] theorem State.updLaunch_ptStep (s : State) (l : Nat) (f : Launch → Launch) : (s.updLaunch l f).ptStep = s.ptStep := rfl
@[simp] theorem State.updLaunch_ptRate (s : State) (l : Nat) (f : Launch → Launch) : (s.updLaunch l f).ptRate = s.ptRate := rfl
@[simp] theorem State.updLaunch_stepping (s : State) (l : Nat) (f : Launch → Launch) : (s.updLaunch l f).stepping = s.stepping := rfl
@[simp] theorem State.updLaunch_txts (s : State) (l : Nat) (f : Launch → Launch) : (s.updLaunch l f).txts = s.txts := rfl
@[simp] theorem State.updLaunch_ptsel (s : State) (l : Nat) (f : Launch → Launch) : (s.updLaunch l f).ptsel = s.ptsel := rfl
@[simp] theorem State.updLaunch_l2wayg (s : State) (l : Nat) (f : Launch → Launch) : (s.updLaunch l f).l2wayg = s.l2wayg := rfl
@[simp] theorem State.updLaunch_mcwin (s : State) (l : Nat) (f : Launch → Launch) : (s.updLaunch l f).mcwin = s.mcwin := rfl
@[simp] theorem State.updLaunch_l2sel (s : State) (l : Nat) (f : Launch → Launch) : (s.updLaunch l f).l2sel = s.l2sel := rfl
@[simp] theorem State.updLaunch_qosErr (s : State) (l : Nat) (f : Launch → Launch) : (s.updLaunch l f).qosErr = s.qosErr := rfl
@[simp] theorem State.updLaunch_slices (s : State) (l : Nat) (f : Launch → Launch) : (s.updLaunch l f).slices = s.slices := rfl
@[simp] theorem State.updLaunch_l2 (s : State) (l : Nat) (f : Launch → Launch) : (s.updLaunch l f).l2 = s.l2 := rfl
@[simp] theorem State.updLaunch_mcasts (s : State) (l : Nat) (f : Launch → Launch) : (s.updLaunch l f).mcasts = s.mcasts := rfl
@[simp] theorem State.updLaunch_merged (s : State) (l : Nat) (f : Launch → Launch) : (s.updLaunch l f).merged = s.merged := rfl
@[simp] theorem State.updLaunch_homeReqs (s : State) (l : Nat) (f : Launch → Launch) : (s.updLaunch l f).homeReqs = s.homeReqs := rfl
@[simp] theorem State.updLaunch_slicePwr (s : State) (l : Nat) (f : Launch → Launch) : (s.updLaunch l f).slicePwr = s.slicePwr := rfl
@[simp] theorem State.updLaunch_tlb1 (s : State) (l : Nat) (f : Launch → Launch) : (s.updLaunch l f).tlb1 = s.tlb1 := rfl
@[simp] theorem State.updLaunch_tlb2 (s : State) (l : Nat) (f : Launch → Launch) : (s.updLaunch l f).tlb2 = s.tlb2 := rfl
@[simp] theorem State.updLaunch_walkCache (s : State) (l : Nat) (f : Launch → Launch) : (s.updLaunch l f).walkCache = s.walkCache := rfl
@[simp] theorem State.updLaunch_walks (s : State) (l : Nat) (f : Launch → Launch) : (s.updLaunch l f).walks = s.walks := rfl
@[simp] theorem State.updLaunch_stBase (s : State) (l : Nat) (f : Launch → Launch) : (s.updLaunch l f).stBase = s.stBase := rfl
@[simp] theorem State.updLaunch_scCmd (s : State) (l : Nat) (f : Launch → Launch) : (s.updLaunch l f).scCmd = s.scCmd := rfl
@[simp] theorem State.updLaunch_scStat (s : State) (l : Nat) (f : Launch → Launch) : (s.updLaunch l f).scStat = s.scStat := rfl
@[simp] theorem State.updLaunch_streams (s : State) (l : Nat) (f : Launch → Launch) : (s.updLaunch l f).streams = s.streams := rfl
@[simp] theorem State.updLaunch_ftBase (s : State) (l : Nat) (f : Launch → Launch) : (s.updLaunch l f).ftBase = s.ftBase := rfl
@[simp] theorem State.updLaunch_ftInv (s : State) (l : Nat) (f : Launch → Launch) : (s.updLaunch l f).ftInv = s.ftInv := rfl
@[simp] theorem State.updLaunch_ftBusy (s : State) (l : Nat) (f : Launch → Launch) : (s.updLaunch l f).ftBusy = s.ftBusy := rfl
@[simp] theorem State.updLaunch_ftFault (s : State) (l : Nat) (f : Launch → Launch) : (s.updLaunch l f).ftFault = s.ftFault := rfl
@[simp] theorem State.updLaunch_ftlb (s : State) (l : Nat) (f : Launch → Launch) : (s.updLaunch l f).ftlb = s.ftlb := rfl
@[simp] theorem State.updLaunch_keyCmd (s : State) (l : Nat) (f : Launch → Launch) : (s.updLaunch l f).keyCmd = s.keyCmd := rfl
@[simp] theorem State.updLaunch_keyBusy (s : State) (l : Nat) (f : Launch → Launch) : (s.updLaunch l f).keyBusy = s.keyBusy := rfl
@[simp] theorem State.updLaunch_keyRes (s : State) (l : Nat) (f : Launch → Launch) : (s.updLaunch l f).keyRes = s.keyRes := rfl
@[simp] theorem State.updLaunch_keyGiven (s : State) (l : Nat) (f : Launch → Launch) : (s.updLaunch l f).keyGiven = s.keyGiven := rfl
@[simp] theorem State.updLaunch_keyNext (s : State) (l : Nat) (f : Launch → Launch) : (s.updLaunch l f).keyNext = s.keyNext := rfl
@[simp] theorem State.updLaunch_keys (s : State) (l : Nat) (f : Launch → Launch) : (s.updLaunch l f).keys = s.keys := rfl
@[simp] theorem State.updLaunch_nextSerial (s : State) (l : Nat) (f : Launch → Launch) : (s.updLaunch l f).nextSerial = s.nextSerial := rfl
@[simp] theorem State.updLaunch_rtBase (s : State) (l : Nat) (f : Launch → Launch) : (s.updLaunch l f).rtBase = s.rtBase := rfl
@[simp] theorem State.updLaunch_pkgNum (s : State) (l : Nat) (f : Launch → Launch) : (s.updLaunch l f).pkgNum = s.pkgNum := rfl
@[simp] theorem State.updLaunch_ports (s : State) (l : Nat) (f : Launch → Launch) : (s.updLaunch l f).ports = s.ports := rfl
@[simp] theorem State.updLaunch_sent (s : State) (l : Nat) (f : Launch → Launch) : (s.updLaunch l f).sent = s.sent := rfl
@[simp] theorem State.updLaunch_out (s : State) (l : Nat) (f : Launch → Launch) : (s.updLaunch l f).out = s.out := rfl
@[simp] theorem State.updLaunch_remotes (s : State) (l : Nat) (f : Launch → Launch) : (s.updLaunch l f).remotes = s.remotes := rfl
@[simp] theorem State.updLaunch_recs (s : State) (l : Nat) (f : Launch → Launch) : (s.updLaunch l f).recs = s.recs := rfl
@[simp] theorem State.updLaunch_nextTag (s : State) (l : Nat) (f : Launch → Launch) : (s.updLaunch l f).nextTag = s.nextTag := rfl
@[simp] theorem State.updLaunch_windows (s : State) (l : Nat) (f : Launch → Launch) : (s.updLaunch l f).windows = s.windows := rfl
@[simp] theorem State.updLaunch_colls (s : State) (l : Nat) (f : Launch → Launch) : (s.updLaunch l f).colls = s.colls := rfl
@[simp] theorem State.updLaunch_collIn (s : State) (l : Nat) (f : Launch → Launch) : (s.updLaunch l f).collIn = s.collIn := rfl
@[simp] theorem State.updLaunch_rxTimes (s : State) (l : Nat) (f : Launch → Launch) : (s.updLaunch l f).rxTimes = s.rxTimes := rfl
@[simp] theorem State.updLaunch_hpart (s : State) (l : Nat) (f : Launch → Launch) : (s.updLaunch l f).hpart = s.hpart := rfl
@[simp] theorem State.updLaunch_hostLast (s : State) (l : Nat) (f : Launch → Launch) : (s.updLaunch l f).hostLast = s.hostLast := rfl
@[simp] theorem State.updLaunch_hostResv (s : State) (l : Nat) (f : Launch → Launch) : (s.updLaunch l f).hostResv = s.hostResv := rfl
@[simp] theorem State.updLaunch_hostHeld (s : State) (l : Nat) (f : Launch → Launch) : (s.updLaunch l f).hostHeld = s.hostHeld := rfl
@[simp] theorem State.updLaunch_hostWait (s : State) (l : Nat) (f : Launch → Launch) : (s.updLaunch l f).hostWait = s.hostWait := rfl
@[simp] theorem State.updLaunch_mem (s : State) (l : Nat) (f : Launch → Launch) : (s.updLaunch l f).mem = s.mem := rfl
@[simp] theorem State.updLaunch_hist (s : State) (l : Nat) (f : Launch → Launch) : (s.updLaunch l f).hist = s.hist := rfl
@[simp] theorem State.updLaunch_wseq (s : State) (l : Nat) (f : Launch → Launch) : (s.updLaunch l f).wseq = s.wseq := rfl
@[simp] theorem State.updLaunch_wb (s : State) (l : Nat) (f : Launch → Launch) : (s.updLaunch l f).wb = s.wb := rfl
@[simp] theorem State.updLaunch_ktag (s : State) (l : Nat) (f : Launch → Launch) : (s.updLaunch l f).ktag = s.ktag := rfl
@[simp] theorem State.updLaunch_blobs (s : State) (l : Nat) (f : Launch → Launch) : (s.updLaunch l f).blobs = s.blobs := rfl
@[simp] theorem State.updLaunch_nextBlob (s : State) (l : Nat) (f : Launch → Launch) : (s.updLaunch l f).nextBlob = s.nextBlob := rfl
@[simp] theorem State.updLaunch_stores (s : State) (l : Nat) (f : Launch → Launch) : (s.updLaunch l f).stores = s.stores := rfl
@[simp] theorem State.updLaunch_nextStore (s : State) (l : Nat) (f : Launch → Launch) : (s.updLaunch l f).nextStore = s.nextStore := rfl
@[simp] theorem State.updLaunch_sram (s : State) (l : Nat) (f : Launch → Launch) : (s.updLaunch l f).sram = s.sram := rfl
@[simp] theorem State.updLaunch_absentLines (s : State) (l : Nat) (f : Launch → Launch) : (s.updLaunch l f).absentLines = s.absentLines := rfl
@[simp] theorem State.updLaunch_clusters (s : State) (l : Nat) (f : Launch → Launch) : (s.updLaunch l f).clusters = s.clusters := rfl
@[simp] theorem State.updLaunch_banks (s : State) (l : Nat) (f : Launch → Launch) : (s.updLaunch l f).banks = s.banks := rfl
@[simp] theorem State.updLaunch_parts (s : State) (l : Nat) (f : Launch → Launch) : (s.updLaunch l f).parts = s.parts := rfl
@[simp] theorem State.updLaunch_launches (s : State) (l : Nat) (f : Launch → Launch) : (s.updLaunch l f).launches = SMap.upd s.launches l f := rfl
@[simp] theorem State.updLaunch_teams (s : State) (l : Nat) (f : Launch → Launch) : (s.updLaunch l f).teams = s.teams := rfl
@[simp] theorem State.updLaunch_groups (s : State) (l : Nat) (f : Launch → Launch) : (s.updLaunch l f).groups = s.groups := rfl
@[simp] theorem State.updLaunch_chans (s : State) (l : Nat) (f : Launch → Launch) : (s.updLaunch l f).chans = s.chans := rfl
@[simp] theorem State.updLaunch_nextUid (s : State) (l : Nat) (f : Launch → Launch) : (s.updLaunch l f).nextUid = s.nextUid := rfl
@[simp] theorem State.updLaunch_rotation (s : State) (l : Nat) (f : Launch → Launch) : (s.updLaunch l f).rotation = s.rotation := rfl
@[simp] theorem State.updLaunch_scalarIssues (s : State) (l : Nat) (f : Launch → Launch) : (s.updLaunch l f).scalarIssues = s.scalarIssues := rfl
@[simp] theorem State.updLaunch_replies (s : State) (l : Nat) (f : Launch → Launch) : (s.updLaunch l f).replies = s.replies := rfl
@[simp] theorem State.updLaunch_negotiated (s : State) (l : Nat) (f : Launch → Launch) : (s.updLaunch l f).negotiated = s.negotiated := rfl
@[simp] theorem State.updLaunch_reports (s : State) (l : Nat) (f : Launch → Launch) : (s.updLaunch l f).reports = s.reports := rfl
@[simp] theorem State.updLaunch_profiles (s : State) (l : Nat) (f : Launch → Launch) : (s.updLaunch l f).profiles = s.profiles := rfl
@[simp] theorem State.updLaunch_agenda (s : State) (l : Nat) (f : Launch → Launch) : (s.updLaunch l f).agenda = s.agenda := rfl
@[simp] theorem State.updLaunch_cur (s : State) (l : Nat) (f : Launch → Launch) : (s.updLaunch l f).cur = s.cur := rfl
@[simp] theorem State.updLaunch_second (s : State) (l : Nat) (f : Launch → Launch) : (s.updLaunch l f).second = s.second := rfl
@[simp] theorem State.updLaunch_waiting (s : State) (l : Nat) (f : Launch → Launch) : (s.updLaunch l f).waiting = s.waiting := rfl
@[simp] theorem State.updLaunch_served (s : State) (l : Nat) (f : Launch → Launch) : (s.updLaunch l f).served = s.served := rfl
@[simp] theorem State.updLaunch_now (s : State) (l : Nat) (f : Launch → Launch) : (s.updLaunch l f).now = s.now := rfl
@[simp] theorem State.updLaunch_fresh (s : State) (l : Nat) (f : Launch → Launch) : (s.updLaunch l f).fresh = s.fresh := rfl
@[simp] theorem State.updLaunch_stuck (s : State) (l : Nat) (f : Launch → Launch) : (s.updLaunch l f).stuck = s.stuck := rfl

/-! Reading back through the accessors. -/

@[simp] theorem State.part_setPart (s : State) (p q : Nat) (x : Part) : (s.setPart p x).part q = if p = q then x else s.part q := by
  simp [State.part]
@[simp] theorem State.cluster_setCluster (s : State) (c d : Nat) (x : Cluster) :
    (s.setCluster c x).cluster d = if c = d then x else s.cluster d := by
  simp [State.cluster]
@[simp] theorem State.bank_setBank (s : State) (b d : Nat) (x : Bank) : (s.setBank b x).bank d = if b = d then x else s.bank d := by
  simp [State.bank]
@[simp] theorem State.chan_setChan (s : State) (c d : Nat) (x : Chan) : (s.setChan c x).chan d = if c = d then x else s.chan d := by
  simp [State.chan]
@[simp] theorem State.stream_setStream (s : State) (e d : Nat) (x : Stream) :
    (s.setStream e x).stream d = if e = d then x else s.stream d := by
  simp [State.stream]
@[simp] theorem State.port_setPort (s : State) (p q : Nat) (x : Port) : (s.setPort p x).port q = if p = q then x else s.port q := by
  simp [State.port]
@[simp] theorem State.sramByte_setSram (s : State) (k j : Nat) (b : Byte) :
    (s.setSram k b).sramByte j = if k = j then b else s.sramByte j := by
  simp [State.sramByte]
@[simp] theorem State.group_updGroup (s : State) (gk j : Nat) (f : Group → Group) :
    (s.updGroup gk f).group? j = if gk = j then (s.group? j).map f else s.group? j := by
  simp [State.group?]
@[simp] theorem State.team_updTeam (s : State) (t j : Nat) (f : Team → Team) :
    (s.updTeam t f).team? j = if t = j then (s.team? j).map f else s.team? j := by
  simp [State.team?]
@[simp] theorem State.launch_updLaunch (s : State) (l j : Nat) (f : Launch → Launch) :
    (s.updLaunch l f).launch? j = if l = j then (s.launch? j).map f else s.launch? j := by
  simp [State.launch?]

/-! Updates of a lane. -/

@[simp] theorem Lane.setV_v (ln : Lane) (r r' : Nat) (x : Word) :
    SMap.getD (ln.setV r x).v r' 0 = if r = r' then x else SMap.getD ln.v r' 0 := by
  simp [Lane.setV]
@[simp] theorem Lane.setV_lst (ln : Lane) (r : Nat) (x : Word) : (ln.setV r x).lst = ln.lst := rfl
@[simp] theorem Lane.setV_helper (ln : Lane) (r : Nat) (x : Word) : (ln.setV r x).helper = ln.helper := rfl
@[simp] theorem Lane.setV_pc (ln : Lane) (r : Nat) (x : Word) : (ln.setV r x).pc = ln.pc := rfl
@[simp] theorem Lane.setV_csp (ln : Lane) (r : Nat) (x : Word) : (ln.setV r x).csp = ln.csp := rfl
@[simp] theorem Lane.setV_p (ln : Lane) (r : Nat) (x : Word) : (ln.setV r x).p = ln.p := rfl
@[simp] theorem Lane.setV_age (ln : Lane) (r : Nat) (x : Word) : (ln.setV r x).age = ln.age := rfl
@[simp] theorem Lane.setV_heldAt (ln : Lane) (r : Nat) (x : Word) : (ln.setV r x).heldAt = ln.heldAt := rfl
@[simp] theorem Lane.setV_wait (ln : Lane) (r : Nat) (x : Word) : (ln.setV r x).wait = ln.wait := rfl
@[simp] theorem Lane.setV_ilen (ln : Lane) (r : Nat) (x : Word) : (ln.setV r x).ilen = ln.ilen := rfl
@[simp] theorem Lane.setV_readyAt (ln : Lane) (r : Nat) (x : Word) : (ln.setV r x).readyAt = ln.readyAt := rfl
@[simp] theorem Lane.setV_seen (ln : Lane) (r : Nat) (x : Word) : (ln.setV r x).seen = ln.seen := rfl
@[simp] theorem Lane.setP_lst (ln : Lane) (r : Nat) (b : Bool) : (ln.setP r b).lst = ln.lst := rfl
@[simp] theorem Lane.setP_helper (ln : Lane) (r : Nat) (b : Bool) : (ln.setP r b).helper = ln.helper := rfl
@[simp] theorem Lane.setP_pc (ln : Lane) (r : Nat) (b : Bool) : (ln.setP r b).pc = ln.pc := rfl
@[simp] theorem Lane.setP_csp (ln : Lane) (r : Nat) (b : Bool) : (ln.setP r b).csp = ln.csp := rfl
@[simp] theorem Lane.setP_v (ln : Lane) (r : Nat) (b : Bool) : (ln.setP r b).v = ln.v := rfl
@[simp] theorem Lane.setP_age (ln : Lane) (r : Nat) (b : Bool) : (ln.setP r b).age = ln.age := rfl
@[simp] theorem Lane.setP_heldAt (ln : Lane) (r : Nat) (b : Bool) : (ln.setP r b).heldAt = ln.heldAt := rfl
@[simp] theorem Lane.setP_wait (ln : Lane) (r : Nat) (b : Bool) : (ln.setP r b).wait = ln.wait := rfl
@[simp] theorem Lane.setP_ilen (ln : Lane) (r : Nat) (b : Bool) : (ln.setP r b).ilen = ln.ilen := rfl
@[simp] theorem Lane.setP_readyAt (ln : Lane) (r : Nat) (b : Bool) : (ln.setP r b).readyAt = ln.readyAt := rfl
@[simp] theorem Lane.setP_seen (ln : Lane) (r : Nat) (b : Bool) : (ln.setP r b).seen = ln.seen := rfl

theorem getLsbD_one_shift (i j : Nat) : (1#96 <<< i).getLsbD j = (decide (j < 96) && decide (i = j)) := by
  simp only [BitVec.getLsbD_shiftLeft, BitVec.getLsbD_one]
  by_cases h : i = j
  · subst h; simp
  · by_cases h1 : j < i
    · simp [h, h1]
    · have : j - i ≠ 0 := by omega
      simp [h, this]

/-- A predicate other than p0 reads as it was written (R139). -/
theorem setBit_getLsbD (p : BitVec 96) (i j : Nat) (b : Bool) :
    (setBit p i b).getLsbD j = if i = j ∧ i ≠ 0 ∧ j < 96 then b else p.getLsbD j := by
  simp only [setBit]
  by_cases h0 : i = 0
  · simp [h0]
  · by_cases hj : j < 96
    · by_cases h : i = j
      · subst h; cases b <;> simp [h0, hj]
      · cases b <;> simp [h0, h, hj] <;> omega
    · have hz : p.getLsbD j = false := BitVec.getLsbD_of_ge p j (by omega)
      cases b <;> simp [h0, hj, hz]

theorem Lane.setP_p (ln : Lane) (r r' : Nat) (b : Bool) :
    (ln.setP r b).p.getLsbD r' = if r = r' ∧ r ≠ 0 ∧ r' < 96 then b else ln.p.getLsbD r' := setBit_getLsbD ..

end Sys2Proof.Machine
end

