-- ==== Sys2Proof/Laws/Issue.lean ====
section
/-! SUPPORT. Laws of issuing: the writes of lanes, the windows of pending results, how paths form anew, and what an
instruction that only writes registers does. -/

namespace Sys2Proof.Machine

/-! Lanes by number. -/

theorem Group.lane_mapLanes (g : Group) (f : Nat → Lane → Lane) (l : Nat) (h : l < g.lanes.length) :
    Group.lane { g with lanes := mapLanes f 0 g.lanes } l = f l (g.lane l) := by
  simp [Group.lane, atD_mapLanes, h]

theorem Group.lane_beyond (g : Group) (l : Nat) (h : g.lanes.length ≤ l) : g.lane l = Lane.reset := atD_beyond _ _ _ h

theorem Group.lane_updLanes (g : Group) (f : Nat → Lane → Lane) (l : Nat) (h : l < g.lanes.length) :
    (g.updLanes f).lane l = f l (g.lane l) := Group.lane_mapLanes g f l h

/-! Groups and lanes that keep everything but their places. -/

theorem LaneSt.turned_refl (a : LaneSt) : LaneSt.turned a a := .inl rfl

theorem LaneSt.turned_trans {a b c : LaneSt} (h1 : LaneSt.turned a b) (h2 : LaneSt.turned b c) : LaneSt.turned a c := by
  rcases h1 with rfl | ⟨rfl, rfl⟩ | ⟨rfl, rfl⟩
  · exact h2
  · rcases h2 with rfl | ⟨h, _⟩ | ⟨_, rfl⟩
    · exact .inr (.inl ⟨rfl, rfl⟩)
    · cases h
    · exact .inl rfl
  · rcases h2 with rfl | ⟨_, rfl⟩ | ⟨h, _⟩
    · exact .inr (.inr ⟨rfl, rfl⟩)
    · exact .inl rfl
    · cases h

theorem Lane.placed_refl (a : Lane) : Lane.placed a a := ⟨by cases a; rfl, .inl rfl⟩

theorem Lane.placed_trans {a b c : Lane} (h1 : Lane.placed a b) (h2 : Lane.placed b c) : Lane.placed a c := by
  refine ⟨?_, LaneSt.turned_trans h1.2 h2.2⟩
  rw [h2.1, h1.1]

theorem Lane.placed_ite {a b c : Lane} {p : Prop} [Decidable p] (h1 : Lane.placed a b) (h2 : Lane.placed a c) :
    Lane.placed a (if p then b else c) := by
  split
  · exact h1
  · exact h2

theorem Group.placed_refl (g : Group) : Group.placed g g := ⟨by cases g; rfl, rfl, fun _ => Lane.placed_refl _⟩

theorem Group.placed_trans {a b c : Group} (h1 : Group.placed a b) (h2 : Group.placed b c) : Group.placed a c := by
  obtain ⟨e1, l1, p1⟩ := h1
  obtain ⟨e2, l2, p2⟩ := h2
  refine ⟨?_, l2.trans l1, fun l => Lane.placed_trans (p1 l) (p2 l)⟩
  rw [e2, e1]

/-- Changing only the places of lanes. -/
theorem Group.placed_updLanes (g : Group) (f : Nat → Lane → Lane) (h : ∀ l ln, Lane.placed ln (f l ln)) :
    Group.placed g (g.updLanes f) := by
  refine ⟨rfl, by simp [Group.updLanes], fun l => ?_⟩
  by_cases hl : l < g.lanes.length
  · rw [Group.lane_updLanes g f l hl]; exact h l _
  · have hn : (g.updLanes f).lanes.length = g.lanes.length := by simp [Group.updLanes]
    rw [Group.lane_beyond (g.updLanes f) l (by omega), Group.lane_beyond g l (by omega)]; exact Lane.placed_refl _

/-- Only the places of lanes differ between two states. -/
structure State.regrouped (s t : State) : Prop where
  rest : t = { s with groups := t.groups }
  some : ∀ j g, s.group? j = some g → ∃ h, t.group? j = some h ∧ Group.placed g h
  none : ∀ j, s.group? j = none → t.group? j = none

theorem State.regrouped_refl (s : State) : State.regrouped s s :=
  ⟨by cases s; rfl, fun _ g h => ⟨g, h, Group.placed_refl g⟩, fun _ h => h⟩

theorem State.regrouped_trans {a b c : State} (h1 : State.regrouped a b) (h2 : State.regrouped b c) : State.regrouped a c := by
  refine ⟨by rw [h2.rest, h1.rest], fun j g h => ?_, fun j h => h2.none j (h1.none j h)⟩
  obtain ⟨g1, e1, p1⟩ := h1.some j g h
  obtain ⟨g2, e2, p2⟩ := h2.some j g1 e1
  exact ⟨g2, e2, Group.placed_trans p1 p2⟩

theorem State.regrouped_updLanes (s : State) (gk : Nat) (f : Group → Nat → Lane → Lane)
    (h : ∀ g l ln, Lane.placed ln (f g l ln)) : State.regrouped s (s.updGroup gk fun g => g.updLanes (f g)) := by
  refine ⟨rfl, fun j g hg => ?_, fun j hg => ?_⟩
  · by_cases e : gk = j
    · exact ⟨g.updLanes (f g), by simp [e, hg], Group.placed_updLanes g (f g) (h g)⟩
    · exact ⟨g, by simp [e, hg], Group.placed_refl g⟩
  · by_cases e : gk = j <;> simp [e, hg]

/-- The grants of free entries (R33) change only places. -/
theorem State.grantHeld_regrouped (n : Nat) (s : State) (core : Nat) : State.regrouped s (State.grantHeld n s core) := by
  induction n generalizing s with
  | zero => exact State.regrouped_refl s
  | succ n ih =>
    simp only [State.grantHeld]
    split
    · exact State.regrouped_refl s
    · split
      · refine State.regrouped_trans (State.regrouped_updLanes s _ (fun _ _ ln => _) fun _ l ln => ?_) (ih _)
        split
        · next hh => exact ⟨rfl, .inr (.inr ⟨hh.1, rfl⟩)⟩
        · exact Lane.placed_refl _
      · exact State.regrouped_refl s

/-- Forming paths anew (R27, R32, R33) changes only places. -/
theorem State.repath_regrouped (s : State) (gk : Nat) (moved : Mask) : State.regrouped s (s.repath gk moved) := by
  simp only [State.repath]
  split
  · exact State.regrouped_refl s
  · split
    · exact State.regrouped_refl s
    · exact State.regrouped_updLanes s _ (fun g l ln => _) fun g l ln =>
        Lane.placed_ite (Lane.placed_refl _) (Lane.placed_ite (by
            split
            · next hh => exact ⟨rfl, .inr (.inl ⟨hh, rfl⟩)⟩
            · exact Lane.placed_refl _)
          (Lane.placed_ite (by
            refine ⟨rfl, ?_⟩
            dsimp only
            split
            · next hh => exact .inr (.inr ⟨hh, rfl⟩)
            · exact .inl rfl) (Lane.placed_refl _)))

/-! Writes of lanes. -/

theorem foldl_setV_reg (ws : List (Nat × Word)) (ln : Lane) (r : Nat) :
    SMap.getD (ws.foldl (fun x q => x.setV q.1 q.2) ln).v r 0 =
      ws.foldl (fun x q => if q.1 = r then q.2 else x) (SMap.getD ln.v r 0) := by
  induction ws generalizing ln with
  | nil => rfl
  | cons q ws ih => simp only [List.foldl_cons, ih, Lane.setV_v]

theorem foldl_setP_pred (ps : List (Nat × Bool)) (ln : Lane) (r : Nat) :
    (ps.foldl (fun x q => x.setP q.1 q.2) ln).p.getLsbD r =
      ps.foldl (fun x q => if q.1 = r ∧ q.1 ≠ 0 ∧ r < 96 then q.2 else x) (ln.p.getLsbD r) := by
  induction ps generalizing ln with
  | nil => rfl
  | cons q ps ih => simp only [List.foldl_cons, ih, Lane.setP_p]

/-- What a lane keeps while its registers and predicates are written. -/
structure Lane.kept (a b : Lane) : Prop where
  lst : b.lst = a.lst
  helper : b.helper = a.helper
  pc : b.pc = a.pc
  csp : b.csp = a.csp
  seen : b.seen = a.seen
  age : b.age = a.age
  heldAt : b.heldAt = a.heldAt
  wait : b.wait = a.wait
  ilen : b.ilen = a.ilen
  readyAt : b.readyAt = a.readyAt

theorem Lane.kept_refl (a : Lane) : Lane.kept a a := ⟨rfl, rfl, rfl, rfl, rfl, rfl, rfl, rfl, rfl, rfl⟩

theorem Lane.kept_trans {a b c : Lane} (h1 : Lane.kept a b) (h2 : Lane.kept b c) : Lane.kept a c :=
  ⟨h2.1.trans h1.1, h2.2.trans h1.2, h2.3.trans h1.3, h2.4.trans h1.4, h2.5.trans h1.5, h2.6.trans h1.6, h2.7.trans h1.7,
    h2.8.trans h1.8, h2.9.trans h1.9, h2.10.trans h1.10⟩

theorem foldl_kept {α : Type} (f : Lane → α → Lane) (hf : ∀ x a, Lane.kept x (f x a)) (xs : List α) (ln : Lane) :
    Lane.kept ln (xs.foldl f ln) := by
  induction xs generalizing ln with
  | nil => exact Lane.kept_refl ln
  | cons a xs ih => exact Lane.kept_trans (hf ln a) (ih _)

theorem Lane.setV_kept (ln : Lane) (r : Nat) (x : Word) : Lane.kept ln (ln.setV r x) :=
  ⟨rfl, rfl, rfl, rfl, rfl, rfl, rfl, rfl, rfl, rfl⟩

theorem Lane.setP_kept (ln : Lane) (r : Nat) (x : Bool) : Lane.kept ln (ln.setP r x) :=
  ⟨rfl, rfl, rfl, rfl, rfl, rfl, rfl, rfl, rfl, rfl⟩

theorem Lane.apply_kept (ln : Lane) (w : Wr) : Lane.kept ln (ln.apply w) :=
  Lane.kept_trans (foldl_kept _ (fun x q => Lane.setV_kept x q.1 q.2) w.vs ln)
    (foldl_kept _ (fun x q => Lane.setP_kept x q.1 q.2) w.ps _)

theorem foldl_setP_v (ps : List (Nat × Bool)) (ln : Lane) : (ps.foldl (fun x q => x.setP q.1 q.2) ln).v = ln.v := by
  induction ps generalizing ln with
  | nil => rfl
  | cons q ps ih => simp only [List.foldl_cons, ih, Lane.setP_v]

theorem foldl_setV_p (ws : List (Nat × Word)) (ln : Lane) : (ws.foldl (fun x q => x.setV q.1 q.2) ln).p = ln.p := by
  induction ws generalizing ln with
  | nil => rfl
  | cons q ws ih => simp only [List.foldl_cons, ih, Lane.setV_p]

theorem Lane.apply_reg (ln : Lane) (w : Wr) (r : Nat) : SMap.getD (ln.apply w).v r 0 = w.reg r (SMap.getD ln.v r 0) := by
  simp only [Lane.apply, foldl_setP_v, foldl_setV_reg, Wr.reg]

theorem Lane.apply_pred (ln : Lane) (w : Wr) (r : Nat) : (ln.apply w).p.getLsbD r = w.pred r (ln.p.getLsbD r) := by
  simp only [Lane.apply, foldl_setP_pred, foldl_setV_p, Wr.pred]

/-- A lane takes a landed result: the registers and predicates that it does not name stay. -/
theorem Lane.take_kept (fresh : Nat) (ln : Lane) (id : Nat) (p : PLane) : Lane.kept ln (ln.take fresh id p) := by
  refine Lane.kept_trans (foldl_kept _ (fun x q => ?_) p.ws ln) (foldl_kept _ (fun x q => ?_) p.ps _)
  · split
    · exact Lane.kept_refl _
    · exact Lane.setV_kept ..
  · split
    · exact Lane.kept_refl _
    · exact Lane.setP_kept ..

theorem foldl_take_v (fresh id : Nat) (p : PLane) (ws : List (Nat × Word)) (ln : Lane) (r : Nat) (h : r ∉ ws.map (·.1)) :
    SMap.getD (ws.foldl (fun (x : Lane) q =>
      if q.1 ∈ p.clobV ∧ Config.free 4 fresh (id * 65536 + p.lane * 256 + q.1) % 2 = 0 then x else x.setV q.1 q.2) ln).v r 0 =
      SMap.getD ln.v r 0 := by
  induction ws generalizing ln with
  | nil => rfl
  | cons q ws ih =>
    simp only [List.map_cons, List.mem_cons, not_or] at h
    simp only [List.foldl_cons]
    rw [ih _ h.2]
    split
    · rfl
    · rw [Lane.setV_v, if_neg (Ne.symm h.1)]

theorem foldl_take_p (fresh id : Nat) (p : PLane) (ps : List (Nat × Bool)) (ln : Lane) (r : Nat) (h : r ∉ ps.map (·.1)) :
    (ps.foldl (fun (x : Lane) q =>
      if q.1 ∈ p.clobP ∧ Config.free 5 fresh (id * 65536 + p.lane * 256 + q.1) % 2 = 0 then x else x.setP q.1 q.2) ln).p.getLsbD r =
      ln.p.getLsbD r := by
  induction ps generalizing ln with
  | nil => rfl
  | cons q ps ih =>
    simp only [List.map_cons, List.mem_cons, not_or] at h
    simp only [List.foldl_cons]
    rw [ih _ h.2]
    split
    · rfl
    · rw [Lane.setP_p]; simp [Ne.symm h.1]

theorem foldl_take_vp (fresh id : Nat) (p : PLane) (ps : List (Nat × Bool)) (ln : Lane) :
    (ps.foldl (fun (x : Lane) q =>
      if q.1 ∈ p.clobP ∧ Config.free 5 fresh (id * 65536 + p.lane * 256 + q.1) % 2 = 0 then x else x.setP q.1 q.2) ln).v = ln.v := by
  induction ps generalizing ln with
  | nil => rfl
  | cons q ps ih =>
    simp only [List.foldl_cons]
    rw [ih]
    split <;> rfl

theorem foldl_take_pv (fresh id : Nat) (p : PLane) (ws : List (Nat × Word)) (ln : Lane) :
    (ws.foldl (fun (x : Lane) q =>
      if q.1 ∈ p.clobV ∧ Config.free 4 fresh (id * 65536 + p.lane * 256 + q.1) % 2 = 0 then x else x.setV q.1 q.2) ln).p = ln.p := by
  induction ws generalizing ln with
  | nil => rfl
  | cons q ws ih =>
    simp only [List.foldl_cons]
    rw [ih]
    split <;> rfl

theorem Lane.take_reg (fresh : Nat) (ln : Lane) (id : Nat) (p : PLane) (r : Nat) (h : r ∉ p.ws.map (·.1)) :
    SMap.getD (ln.take fresh id p).v r 0 = SMap.getD ln.v r 0 := by
  simp only [Lane.take, foldl_take_vp]; exact foldl_take_v fresh id p p.ws ln r h

theorem Lane.take_pred (fresh : Nat) (ln : Lane) (id : Nat) (p : PLane) (r : Nat) (h : r ∉ p.ps.map (·.1)) :
    (ln.take fresh id p).p.getLsbD r = ln.p.getLsbD r := by
  simp only [Lane.take]
  rw [foldl_take_p fresh id p p.ps _ r h, foldl_take_pv]

/-! Results that become due. -/

/-- A lane of a group keeps all but the registers and predicates that a pending result names for it. -/
structure Lane.settled (g : Group) (l : Nat) (a b : Lane) : Prop where
  kept : Lane.kept a b
  reg : ∀ r, g.clearV l r → SMap.getD b.v r 0 = SMap.getD a.v r 0
  pred : ∀ r, g.clearP l r → b.p.getLsbD r = a.p.getLsbD r

theorem Lane.settled_refl (g : Group) (l : Nat) (a : Lane) : Lane.settled g l a a := ⟨Lane.kept_refl a, fun _ _ => rfl, fun _ _ => rfl⟩

theorem Lane.settled_trans {g : Group} {l : Nat} {a b c : Lane} (h1 : Lane.settled g l a b) (h2 : Lane.settled g l b c) :
    Lane.settled g l a c :=
  ⟨Lane.kept_trans h1.kept h2.kept, fun r h => (h2.reg r h).trans (h1.reg r h), fun r h => (h2.pred r h).trans (h1.pred r h)⟩

theorem Pend.plane_mem {q : Pend} {l : Nat} {p : PLane} (h : q.plane l = some p) : p ∈ q.lanes ∧ p.lane = l := by
  refine ⟨List.mem_of_find?_eq_some h, ?_⟩
  have := List.find?_some h
  simpa using this

theorem takeDue_lane (fresh : Nat) (g : Group) (qs : List Pend) (hq : ∀ q ∈ qs, q ∈ g.pend) (ls : List Lane) (l : Nat) :
    Lane.settled g l (atD ls l Lane.reset)
      (atD (qs.foldl (fun ls q =>
        mapLanes (fun l ln =>
          match q.plane l with
          | some p => if p.due then ln.take fresh q.id p else ln
          | none => ln) 0 ls) ls) l Lane.reset) := by
  induction qs generalizing ls with
  | nil => exact Lane.settled_refl ..
  | cons q qs ih =>
    simp only [List.foldl_cons]
    refine Lane.settled_trans ?_ (ih (fun q' h => hq q' (List.mem_cons_of_mem _ h)) _)
    rw [atD_mapLanes]
    by_cases hl : l < ls.length
    · simp only [hl, if_true, Nat.zero_add]
      split
      · next p hp =>
        obtain ⟨h1, h2⟩ := Pend.plane_mem hp
        split
        · refine ⟨Lane.take_kept .., fun r hr => ?_, fun r hr => ?_⟩
          · exact Lane.take_reg fresh _ q.id p r (hr q (hq q (List.mem_cons_self ..)) p h1 h2)
          · exact Lane.take_pred fresh _ q.id p r (hr q (hq q (List.mem_cons_self ..)) p h1 h2)
        · exact Lane.settled_refl ..
      · exact Lane.settled_refl ..
    · simp only [hl, if_false, atD_beyond ls l _ (by omega)]; exact Lane.settled_refl ..

theorem foldl_mapLanes_length {α : Type} (f : α → Nat → Lane → Lane) (qs : List α) (ls : List Lane) :
    (qs.foldl (fun ls q => mapLanes (f q) 0 ls) ls).length = ls.length := by
  induction qs generalizing ls with
  | nil => rfl
  | cons q qs ih => simp [List.foldl_cons, ih]

/-- What a group keeps as results become due: all but its lanes, its pending results and its tags, and of its lanes all but what a
pending result names. -/
structure Group.settledTo (g h : Group) : Prop where
  rest : h = { g with lanes := h.lanes, pend := h.pend, rtags := h.rtags }
  len : h.lanes.length = g.lanes.length
  lane : ∀ l, Lane.settled g l (g.lane l) (h.lane l)

theorem Group.takeDue_settled (fresh : Nat) (g : Group) : Group.settledTo g (Group.takeDue fresh g) := by
  refine ⟨rfl, ?_, fun l => takeDue_lane fresh g g.pend (fun _ h => h) g.lanes l⟩
  simp only [Group.takeDue]
  exact foldl_mapLanes_length (fun q l ln =>
    match q.plane l with
    | some p => if p.due then ln.take fresh q.id p else ln
    | none => ln) g.pend g.lanes

/-- The pending results name what they named before. -/
theorem Group.clearV_of_map {g h : Group} {f : Pend → Pend}
    (hp : h.pend = g.pend.map f) (hf : ∀ q, ∀ p ∈ (f q).lanes, ∃ p' ∈ q.lanes, p'.lane = p.lane ∧ p'.ws = p.ws ∧ p'.ps = p.ps)
    (l r : Nat) : (g.clearV l r → h.clearV l r) ∧ (g.clearP l r → h.clearP l r) := by
  constructor
  · intro hg q hq p hpq e
    rw [hp] at hq
    obtain ⟨q0, h0, rfl⟩ := List.mem_map.1 hq
    obtain ⟨p', h1, h2, h3, _⟩ := hf q0 p hpq
    rw [← h3]; exact hg q0 h0 p' h1 (h2.trans e)
  · intro hg q hq p hpq e
    rw [hp] at hq
    obtain ⟨q0, h0, rfl⟩ := List.mem_map.1 hq
    obtain ⟨p', h1, h2, _, h3⟩ := hf q0 p hpq
    rw [← h3]; exact hg q0 h0 p' h1 (h2.trans e)

/-- The windows of earlier results shrink by one (R150), and results that become due are written. -/
theorem Group.closeWindows_settled (fresh : Nat) (g : Group) (path : Mask) (n0 : Nat) :
    Group.settledTo g (Group.closeWindows fresh g path n0) := by
  simp only [Group.closeWindows]
  split
  · exact ⟨by cases g; rfl, rfl, fun _ => Lane.settled_refl ..⟩
  · let f : Pend → Pend := fun q =>
      if q.id < n0 then
        { q with lanes := q.lanes.map fun p => if path.getLsbD p.lane then { p with left := p.left - 1 } else p }
      else q
    let g1 : Group := { g with pend := g.pend.map f }
    have h1 := Group.takeDue_settled fresh g1
    have hc := fun l r => Group.clearV_of_map (g := g) (h := g1) (f := f) rfl (by
      intro q p hp
      simp only [f] at hp
      split at hp
      · obtain ⟨p', hp', rfl⟩ := List.mem_map.1 hp
        refine ⟨p', hp', ?_⟩
        split <;> exact ⟨rfl, rfl, rfl⟩
      · exact ⟨p, hp, rfl, rfl, rfl⟩) l r
    refine ⟨?_, h1.len, fun l => ⟨(h1.lane l).kept, fun r h => (h1.lane l).reg r ((hc l r).1 h),
      fun r h => (h1.lane l).pred r ((hc l r).2 h)⟩⟩
    exact h1.rest

/-! Moving on. -/

/-- What stays of a lane that moves to a program counter. -/
structure Lane.movedTo (g : Group) (l : Nat) (pc : DWord) (a b : Lane) : Prop where
  reg : ∀ r, g.clearV l r → SMap.getD b.v r 0 = SMap.getD a.v r 0
  pred : ∀ r, g.clearP l r → b.p.getLsbD r = a.p.getLsbD r
  pc : b.pc = pc
  csp : b.csp = a.csp
  helper : b.helper = a.helper
  seen : b.seen = a.seen
  wait : b.wait = a.wait
  lst : LaneSt.turned a.lst b.lst

/-- What moving a path does (R27, R150): program counters, places, and results that become due; nothing else. -/
structure MoveEffect (c : Ctx) (next : Nat → DWord → DWord) (s t : State) : Prop where
  rest : t = { s.dropRecs (.group c.gk) with groups := t.groups }
  others : State.othersPlaced c.gk s t
  gone : s.group? c.gk = none → t.group? c.gk = none
  own : ∀ g, s.group? c.gk = some g → ∃ h, t.group? c.gk = some h ∧ h = { g with lanes := h.lanes, pend := h.pend, rtags := h.rtags } ∧
    h.lanes.length = g.lanes.length ∧
    ∀ l, l < g.lanes.length →
      Lane.movedTo g l
        (if c.path.getLsbD l ∧ (g.lane l).onSome ∧ c.alone = false then next l (g.lane l).pc else (g.lane l).pc) (g.lane l) (h.lane l)

@[simp] theorem State.dropRecs_group (s : State) (w : Reader) (j : Nat) : (s.dropRecs w).group? j = s.group? j := by
  simp only [State.dropRecs]; split <;> rfl

@[simp] theorem State.dropRecs_fresh (s : State) (w : Reader) : (s.dropRecs w).fresh = s.fresh := by
  simp only [State.dropRecs]; split <;> rfl

theorem Ctx.moveTo_effect (c : Ctx) (next : Nat → DWord → DWord) (s : State) : MoveEffect c next s (c.moveTo next s) := by
  have hd : ∀ j, (s.dropRecs (.group c.gk)).group? j = s.group? j := State.dropRecs_group s _
  simp only [Ctx.moveTo]
  by_cases ha : c.alone = true
  · simp only [ha, if_true]
    refine ⟨rfl, fun j _ => ⟨fun g h => ⟨g, (hd j).trans h, Group.placed_refl g⟩, fun h => (hd j).trans h⟩,
      fun h => (hd _).trans h, fun g h => ?_⟩
    refine ⟨g, (hd _).trans h, by cases g; rfl, rfl, fun l _ => ⟨fun _ _ => rfl, fun _ _ => rfl, ?_, rfl, rfl, rfl, rfl, .inl rfl⟩⟩
    simp [ha]
  · have ha' : c.alone = false := by simpa using ha
    simp only [ha', Bool.false_eq_true, if_false]
    let mv : Nat → Lane → Lane := fun l ln => if c.path.getLsbD l ∧ ln.onSome then { ln with pc := next l ln.pc } else ln
    let s0 := s.dropRecs (.group c.gk)
    let s1 := s0.updGroup c.gk fun g => Group.closeWindows s0.fresh (g.updLanes mv) c.path c.n0
    have r1 : State.regrouped s1 ((s1.repath c.gk c.path).grantHeld 64 c.t.core) :=
      State.regrouped_trans (State.repath_regrouped ..) (State.grantHeld_regrouped ..)
    have hs1 : ∀ j, j ≠ c.gk → s1.group? j = s.group? j := by
      intro j hj; simp only [s1, s0, State.group_updGroup, if_neg (Ne.symm hj), hd]
    refine ⟨?_, fun j hj => ⟨fun g h => ?_, fun h => ?_⟩, fun h => ?_, fun g h => ?_⟩
    · exact r1.rest.trans rfl
    · exact r1.some j g (by rw [hs1 j hj]; exact h)
    · exact r1.none j (by rw [hs1 j hj]; exact h)
    · exact r1.none c.gk (by simp [s1, s0, h])
    · have hg1 : s1.group? c.gk = some (Group.closeWindows s0.fresh (g.updLanes mv) c.path c.n0) := by simp [s1, s0, h]
      have hw := Group.closeWindows_settled s0.fresh (g.updLanes mv) c.path c.n0
      obtain ⟨h2, e2, p2⟩ := r1.some c.gk _ hg1
      refine ⟨h2, e2, ?_, ?_, fun l hl => ?_⟩
      · rw [p2.1, hw.rest]; rfl
      · rw [p2.2.1, hw.len]; simp [Group.updLanes]
      · have e3 := (hw.lane l)
        rw [Group.lane_updLanes g mv l hl] at e3
        have e4 := p2.2.2 l
        have hcv : ∀ r, g.clearV l r → (g.updLanes mv).clearV l r := fun r h => h
        have hcp : ∀ r, g.clearP l r → (g.updLanes mv).clearP l r := fun r h => h
        have hm : (mv l (g.lane l)).v = (g.lane l).v ∧ (mv l (g.lane l)).p = (g.lane l).p ∧
            (mv l (g.lane l)).seen = (g.lane l).seen ∧ (mv l (g.lane l)).csp = (g.lane l).csp ∧
            (mv l (g.lane l)).helper = (g.lane l).helper ∧ (mv l (g.lane l)).wait = (g.lane l).wait ∧
            (mv l (g.lane l)).lst = (g.lane l).lst := by
          simp only [mv]; split <;> exact ⟨rfl, rfl, rfl, rfl, rfl, rfl, rfl⟩
        have hpc : (mv l (g.lane l)).pc =
            if c.path.getLsbD l = true ∧ (g.lane l).onSome = true ∧ c.alone = false then next l (g.lane l).pc else (g.lane l).pc := by
          simp only [mv, ha', and_true]
          split <;> rfl
        obtain ⟨e4, e5⟩ := e4
        refine ⟨fun r hr => ?_, fun r hr => ?_, ?_, ?_, ?_, ?_, ?_, ?_⟩
        · rw [e4]; exact (e3.reg r (hcv r hr)).trans (by rw [hm.1])
        · rw [e4]; exact (e3.pred r (hcp r hr)).trans (by rw [hm.2.1])
        · rw [e4]; exact e3.kept.pc.trans hpc
        · rw [e4]; exact e3.kept.csp.trans hm.2.2.2.1
        · rw [e4]; exact e3.kept.helper.trans hm.2.2.2.2.1
        · rw [e4]; exact e3.kept.seen.trans hm.2.2.1
        · rw [e4]; exact e3.kept.wait.trans hm.2.2.2.2.2.1
        · rw [e3.kept.lst, hm.2.2.2.2.2.2] at e5; exact e5

/-! Instructions that only write registers. -/

/-- An instruction that no row turns away goes on with its active lanes. -/
theorem issue_next {i : Instr} {s : State} {c : Ctx} (h : Issues i s c) (k : Ctx → Mask → State → State) :
    issue i s k = .next (k c (c.active i s) s) := by
  simp only [issue, h.1, h.2]

/-- Everything that issuing can do. -/
theorem issue_cases {i : Instr} {s t : State} {k : Ctx → Mask → State → State} (h : issue i s k = .next t) :
    ∃ c, s.ctx? = some c ∧
      ((∃ cause, c.reject? i s = some cause ∧ t = c.refuse cause s) ∨ (c.reject? i s = none ∧ t = k c (c.active i s) s)) := by
  simp only [issue] at h
  cases hc : s.ctx? with
  | none => simp [hc] at h
  | some c =>
    simp only [hc, Host.Outcome.next.injEq] at h
    refine ⟨c, rfl, ?_⟩
    cases hr : c.reject? i s with
    | none => simp only [hr] at h; exact .inr ⟨rfl, h.symm⟩
    | some cause => simp only [hr] at h; exact .inl ⟨cause, rfl, h.symm⟩

/-- The group that issues is the group of the context. -/
theorem State.ctx_group {s : State} {c : Ctx} (h : s.ctx? = some c) : s.group? c.gk = some c.g := by
  simp only [State.ctx?] at h
  split at h
  · cases h
  · split at h
    · cases h
    · next g hg =>
      split at h
      · cases h
      · split at h
        · cases h
        · cases h; exact hg

theorem Group.write_lane (g : Group) (act : Mask) (f : Nat → Wr) (l : Nat) (h : l < g.lanes.length) :
    (g.write act f).lane l = if act.getLsbD l then (g.lane l).apply (f l) else g.lane l := by
  simp [Group.lane, Group.write, atD_mapLanes, h]

theorem Group.write_clear (g : Group) (act : Mask) (f : Nat → Wr) (l r : Nat) :
    (g.clearV l r → (g.write act f).clearV l r) ∧ (g.clearP l r → (g.write act f).clearP l r) :=
  Group.clearV_of_map rfl (by
    intro q p hp
    simp only [Pend.clobber] at hp
    obtain ⟨p', hp', rfl⟩ := List.mem_map.1 hp
    refine ⟨p', hp', ?_⟩
    split <;> exact ⟨rfl, rfl, rfl⟩) l r

/-- The group as its lanes' writes leave it, tags and core counters apart. -/
structure Written (c : Ctx) (act : Mask) (f : Nat → Wr) (s u : State) : Prop where
  rest : ∃ gs k, u = { s with groups := gs, scalarIssues := k }
  scalar : u.scalarIssues = s.scalarIssues ∨ u.scalarIssues = SMap.updD s.scalarIssues c.t.core 0 (· + 1)
  others : ∀ j, j ≠ c.gk → u.group? j = s.group? j
  own : ∃ tg, u.group? c.gk = some { c.g.write act f with rtags := tg }

theorem State.writeLanes_written (c : Ctx) (s : State) (act : Mask) (f : Nat → Wr) (hc : s.ctx? = some c) :
    Written c act f s (s.writeLanes c.gk act f) := by
  refine ⟨⟨_, _, rfl⟩, .inl rfl, fun j hj => ?_, ?_⟩
  · simp only [State.writeLanes, State.group_updGroup, if_neg (Ne.symm hj)]
  · simp only [State.writeLanes, State.group_updGroup, if_true, State.ctx_group hc, Option.map_some, Group.untag]
    split
    · exact ⟨_, rfl⟩
    · exact ⟨_, rfl⟩

/-- Tagging changes tags and the count of scalar issues (R294). -/
theorem Ctx.tagWrites_written (c : Ctx) (i : Instr) (s : State) (act m : Mask) (f : Nat → Wr) (hc : s.ctx? = some c) :
    Written c act f s (c.tagWrites i m (s.writeLanes c.gk act f)) := by
  obtain ⟨⟨gs, k, hr⟩, -, ho, tg, hg⟩ := State.writeLanes_written c s act f hc
  have hsi : (s.writeLanes c.gk act f).scalarIssues = s.scalarIssues := rfl
  generalize s.writeLanes c.gk act f = u at *
  have counted : ∀ b : Bool, Written c act f s
      (if b then { u with scalarIssues := SMap.updD u.scalarIssues c.t.core 0 (· + 1) } else u) := by
    intro b
    cases b
    · exact ⟨⟨gs, k, hr⟩, .inl hsi, ho, tg, hg⟩
    · exact ⟨⟨gs, _, by simp only [if_true]; rw [hr]⟩, .inr (by simp only [if_true, hsi]), ho, tg, hg⟩
  have tagged : ∀ u' (ts : List (Nat × RTag)), Written c act f s u' → Written c act f s
      (u'.updGroup c.gk fun g => { g with rtags := ts.foldl (fun m x => SMap.put m x.1 x.2) g.rtags }) := by
    rintro u' ts ⟨⟨gs, k, hr⟩, hs, ho, tg, hg⟩
    refine ⟨⟨_, _, by simp only [State.updGroup]; rw [hr]⟩, hs, fun j hj => ?_, ?_⟩
    · simp only [State.group_updGroup, if_neg (Ne.symm hj)]; exact ho j hj
    · simp only [State.group_updGroup, if_true, hg, Option.map_some]; exact ⟨_, rfl⟩
  simp only [Ctx.tagWrites]
  split
  · exact counted _
  · exact tagged _ _ (counted _)

theorem State.dropRecs_scalar (s : State) (w : Reader) : (s.dropRecs w).scalarIssues = s.scalarIssues := by
  simp only [State.dropRecs]; split <;> rfl

/-- Lanes have written, and the path goes on: the effect of every instruction that only writes registers. -/
theorem Ctx.written_advance (c : Ctx) (i : Instr) (s u : State) (f : Nat → Wr) (hw : Written c (c.active i s) f s u) :
    RegEffect i c f s (c.advance i u) := by
  obtain ⟨⟨gs, k, hr⟩, hs, ho, tg, hg⟩ := hw
  let act := c.active i s
  have m := Ctx.moveTo_effect c (fun _ pc => pc + dwordOf i.len) u
  have hsi : (c.advance i u).scalarIssues = u.scalarIssues := by
    have := m.rest
    simp only [Ctx.advance]; rw [this]; exact State.dropRecs_scalar u _
  refine ⟨?_, by rw [hsi]; exact hs, fun j hj => ⟨fun g h => ?_, fun h => ?_⟩, ?_⟩
  · rw [hsi]
    refine m.rest.trans ?_
    rw [hr]
    simp only [State.dropRecs]
    split <;> rfl
  · exact (m.others j hj).1 g (by rw [ho j hj]; exact h)
  · exact (m.others j hj).2 (by rw [ho j hj]; exact h)
  · obtain ⟨h, e, er, el, ll⟩ := m.own _ hg
    have hlen : (c.g.write act f).lanes.length = c.g.lanes.length := by simp [Group.write]
    refine ⟨h, e, ?_, el.trans hlen, fun l hl => ?_⟩
    · rw [er]; rfl
    · have k := ll l (hlen.symm ▸ hl)
      rw [show Group.lane { c.g.write act f with rtags := tg } l = (c.g.write act f).lane l from rfl,
        Group.write_lane c.g act f l hl] at k
      have hk : Lane.kept (c.g.lane l) (if act.getLsbD l then (c.g.lane l).apply (f l) else c.g.lane l) := by
        split
        · exact Lane.apply_kept ..
        · exact Lane.kept_refl _
      have hon : (if act.getLsbD l then (c.g.lane l).apply (f l) else c.g.lane l).onSome = (c.g.lane l).onSome := by
        simp only [Lane.onSome, Lane.live, hk.lst]
      rw [hk.pc, hon] at k
      refine ⟨fun r hr => ?_, fun r hr => ?_, k.pc, k.csp.trans hk.csp, k.helper.trans hk.helper, k.seen.trans hk.seen,
        k.wait.trans hk.wait, hk.lst ▸ k.lst⟩
      · have := k.reg r ((Group.write_clear c.g act f l r).1 hr)
        simp only [Group.reg, this]
        by_cases ha : act.getLsbD l
        · simp only [ha, if_true, act, Lane.apply_reg] at *
        · simp only [ha, act] at *; rfl
      · have := k.pred r ((Group.write_clear c.g act f l r).2 hr)
        simp only [Group.pred, this]
        by_cases ha : act.getLsbD l
        · simp only [ha, if_true, act, Lane.apply_pred] at *
        · simp only [ha, act] at *; rfl

/-- As above, for an instruction that gives no tags. -/
theorem Ctx.write_advance (c : Ctx) (i : Instr) (s : State) (f : Nat → Wr) (hc : s.ctx? = some c) :
    RegEffect i c f s (c.advance i (s.writeLanes c.gk (c.active i s) f)) :=
  Ctx.written_advance c i s _ f (State.writeLanes_written c s _ f hc)

/-- An instruction that only writes registers completes wherever it issues. -/
theorem laneOp_effect {i : Instr} {s : State} {c : Ctx} (h : Issues i s c) (f : Ctx → Nat → Wr) :
    ∃ t, laneOp i s f = .next t ∧ RegEffect i c (f c) s t :=
  ⟨_, issue_next h _, Ctx.written_advance c i s _ (f c) (Ctx.tagWrites_written c i s _ _ _ h.1)⟩

theorem voteOp_effect {i : Instr} {s : State} {c : Ctx} (h : Issues i s c) (f : Ctx → Mask → Nat → Wr) :
    ∃ t, voteOp i s f = .next t ∧ RegEffect i c (f c (c.realOf (c.active i s))) s t :=
  ⟨_, issue_next h _, Ctx.write_advance c i s (f c (c.realOf (c.active i s))) h.1⟩

/-- The same as a claim says it: the writes may be given by another formula. -/
theorem laneOp_writes {i : Instr} {f : State → Ctx → Nat → Wr} (g : State → Ctx → Nat → Wr)
    (he : ∀ s, exec i s = laneOp i s (g s)) (hf : ∀ s c, Issues i s c → ∀ l, g s c l = f s c l) : Writes i f := by
  intro s c h
  obtain ⟨t, e, r⟩ := laneOp_effect h (g s)
  exact ⟨t, (he s).trans e, (funext (hf s c h) : g s c = f s c) ▸ r⟩

theorem voteOp_writes {i : Instr} {f : State → Ctx → Nat → Wr} (g : State → Ctx → Mask → Nat → Wr)
    (he : ∀ s, exec i s = voteOp i s (g s)) (hf : ∀ s c, Issues i s c → ∀ l, g s c (c.realOf (c.active i s)) l = f s c l) :
    Writes i f := by
  intro s c h
  obtain ⟨t, e, r⟩ := voteOp_effect h (g s)
  exact ⟨t, (he s).trans e, (funext (hf s c h) : g s c (c.realOf (c.active i s)) = f s c) ▸ r⟩

/-! What is left where a path goes on. -/

/-- A result that is pending and not due stays as it is. -/
theorem Group.takeDue_pend (fresh : Nat) (g : Group) (q : Pend) (hq : q ∈ g.pend) (h0 : q.lanes ≠ [])
    (hd : ∀ p ∈ q.lanes, p.due = false) : q ∈ (Group.takeDue fresh g).pend := by
  simp only [Group.takeDue, List.mem_filter, List.mem_map]
  have e : q.lanes.filter (fun p => !p.due) = q.lanes := List.filter_eq_self.2 fun p hp => by simp [hd p hp]
  refine ⟨⟨q, hq, by cases q; simp only [Pend.mk.injEq, true_and, and_true] at *; exact e⟩, ?_⟩
  simpa using h0

/-- A result of this instruction, which is not due, stays as it is where the windows of earlier results shrink. -/
theorem Group.closeWindows_pend (fresh : Nat) (g : Group) (path : Mask) (n0 : Nat) (q : Pend) (hq : q ∈ g.pend)
    (hn : n0 ≤ q.id) (h0 : q.lanes ≠ []) (hd : ∀ p ∈ q.lanes, p.due = false) :
    q ∈ (Group.closeWindows fresh g path n0).pend := by
  simp only [Group.closeWindows]
  split
  · exact hq
  · refine Group.takeDue_pend fresh _ q ?_ h0 hd
    exact List.mem_map.2 ⟨q, hq, if_neg (Nat.not_lt.2 hn)⟩

/-- Moving a path, as claims say it. -/
theorem Ctx.moveTo_moved (c : Ctx) (next : Nat → DWord → DWord) (u : State) (g : Group) (hg : u.group? c.gk = some g) :
    Moved c next u (c.moveTo next u) := by
  have m := Ctx.moveTo_effect c next u
  obtain ⟨h, e, er, el, ll⟩ := m.own g hg
  refine ⟨m.rest, m.others, g, h, hg, e, er, el, fun q hq hn h0 hd => ?_, fun l hl => ?_⟩
  · simp only [Ctx.moveTo] at e
    by_cases ha : c.alone = true
    · simp only [ha, if_true] at e
      rw [State.dropRecs_group, hg] at e; cases e; exact hq
    · simp only [ha, Bool.false_eq_true, if_false] at e
      let u1 := (u.dropRecs (.group c.gk)).updGroup c.gk fun g => Group.closeWindows (u.dropRecs (.group c.gk)).fresh
        (g.updLanes fun l ln => if c.path.getLsbD l ∧ ln.onSome then { ln with pc := next l ln.pc } else ln) c.path c.n0
      obtain ⟨h2, e2, p2⟩ := (State.regrouped_trans (State.repath_regrouped u1 c.gk c.path)
        (State.grantHeld_regrouped 64 _ c.t.core)).some c.gk _ (by simp only [u1, State.group_updGroup, if_true, State.dropRecs_group, hg, Option.map_some]; rfl)
      rw [e] at e2; cases e2
      rw [p2.1]
      exact Group.closeWindows_pend _ _ _ _ q hq hn h0 hd
  · have k := ll l hl
    exact ⟨fun r hr => k.reg r hr, fun r hr => k.pred r hr, k.pc, k.csp, k.helper, k.seen, k.wait, k.lst⟩

theorem Ctx.advance_advanced (c : Ctx) (i : Instr) (u : State) (g : Group) (hg : u.group? c.gk = some g) :
    Advanced c i u (c.advance i u) := Ctx.moveTo_moved c _ u g hg

end Sys2Proof.Machine
end

