-- ==== Sys2Proof/Laws/Memory.lean ====
section
/-! SUPPORT. Laws of memory: every operation keeps its canonical form, a written byte reads back, and every other byte is as
before. -/

namespace Sys2Proof.Machine

/-! The canonical form, as facts about the list. -/

/-- Every listed address is at least `a`. -/
def Memory.fromAddr (a : Nat) (m : List Host.Cell) : Prop := ∀ x ∈ m, a ≤ x.1

theorem Memory.wf_cons {a : Nat} {b : Byte} {m : List Host.Cell} :
    Memory.wf ((a, b) :: m) = true ↔ b ≠ 0 ∧ Memory.fromAddr (a + 1) m ∧ Memory.wf m = true := by
  induction m generalizing a b with
  | nil => simp [Memory.wf, Memory.fromAddr]
  | cons y m ih =>
    obtain ⟨a', b'⟩ := y
    simp only [Memory.wf, Bool.and_eq_true, decide_eq_true_eq, bne_iff_ne, ih]
    constructor
    · rintro ⟨⟨h1, h2⟩, h3, h4, h5⟩
      refine ⟨h2, ?_, h3, h4, h5⟩
      intro x hx
      rcases List.mem_cons.1 hx with rfl | hx
      · exact h1
      · exact Nat.le_trans (by omega) (h4 x hx)
    · rintro ⟨h2, h1, h3, h4, h5⟩
      exact ⟨⟨h1 (a', b') (List.mem_cons_self ..), h2⟩, h3, h4, h5⟩

theorem Memory.fromAddr_put {k a : Nat} {b : Byte} {m : List Host.Cell} (h : Memory.fromAddr k m) (ha : k ≤ a) :
    Memory.fromAddr k (SMap.put m a b) := by
  induction m with
  | nil => simpa [SMap.put, Memory.fromAddr] using ha
  | cons y m ih =>
    obtain ⟨a', b'⟩ := y
    have h1 := h (a', b') (List.mem_cons_self ..)
    have h2 : Memory.fromAddr k m := fun x hx => h x (List.mem_cons_of_mem _ hx)
    simp only [SMap.put]
    split
    · intro x hx
      rcases List.mem_cons.1 hx with rfl | hx
      · exact ha
      · exact h x hx
    · split
      · intro x hx
        rcases List.mem_cons.1 hx with rfl | hx
        · exact ha
        · exact h2 x hx
      · intro x hx
        rcases List.mem_cons.1 hx with rfl | hx
        · exact h1
        · exact ih h2 x hx

theorem Memory.fromAddr_erase {k a : Nat} {m : List Host.Cell} (h : Memory.fromAddr k m) :
    Memory.fromAddr k (SMap.erase m a) := by
  induction m with
  | nil => exact h
  | cons y m ih =>
    obtain ⟨a', b'⟩ := y
    have h2 : Memory.fromAddr k m := fun x hx => h x (List.mem_cons_of_mem _ hx)
    simp only [SMap.erase]
    split
    · exact ih h2
    · intro x hx
      rcases List.mem_cons.1 hx with rfl | hx
      · exact h (a', b') (List.mem_cons_self ..)
      · exact ih h2 x hx

theorem Memory.wf_put {m : List Host.Cell} (h : Memory.wf m = true) (a : Nat) (b : Byte) (hb : b ≠ 0) :
    Memory.wf (SMap.put m a b) = true := by
  induction m with
  | nil => simpa [SMap.put, Memory.wf] using hb
  | cons y m ih =>
    obtain ⟨a', b'⟩ := y
    obtain ⟨h1, h2, h3⟩ := Memory.wf_cons.1 h
    simp only [SMap.put]
    split
    · next hlt =>
      refine Memory.wf_cons.2 ⟨hb, ?_, h⟩
      intro x hx
      rcases List.mem_cons.1 hx with rfl | hx
      · exact hlt
      · exact Nat.le_trans (by omega) (h2 x hx)
    · split
      · next he => subst he; exact Memory.wf_cons.2 ⟨hb, h2, h3⟩
      · exact Memory.wf_cons.2 ⟨h1, Memory.fromAddr_put h2 (by omega), ih h3⟩

theorem Memory.wf_erase {m : List Host.Cell} (h : Memory.wf m = true) (a : Nat) : Memory.wf (SMap.erase m a) = true := by
  induction m with
  | nil => rfl
  | cons y m ih =>
    obtain ⟨a', b'⟩ := y
    obtain ⟨h1, h2, h3⟩ := Memory.wf_cons.1 h
    simp only [SMap.erase]
    split
    · exact ih h3
    · exact Memory.wf_cons.2 ⟨h1, Memory.fromAddr_erase h2, ih h3⟩

/-- Writing a byte keeps the canonical form. -/
theorem Memory.wf_set {m : List Host.Cell} (h : Memory.wf m = true) (a : Nat) (b : Byte) :
    Memory.wf (SMap.set 0 m a b) = true := by
  simp only [SMap.set]
  split
  · exact Memory.wf_erase h a
  · next hb => exact Memory.wf_put h a b hb

theorem Memory.wf_filter {m : List Host.Cell} (h : Memory.wf m = true) (f : Host.Cell → Bool) :
    Memory.wf (m.filter f) = true := by
  induction m with
  | nil => rfl
  | cons y m ih =>
    obtain ⟨a', b'⟩ := y
    obtain ⟨h1, h2, h3⟩ := Memory.wf_cons.1 h
    simp only [List.filter_cons]
    split
    · exact Memory.wf_cons.2 ⟨h1, fun x hx => h2 x ((List.mem_filter.1 hx).1), ih h3⟩
    · exact ih h3

/-- Writing bytes one after another keeps the canonical form. -/
theorem Memory.wf_foldl_set {m : List Host.Cell} (h : Memory.wf m = true) (as : List Nat) (f : Nat → Byte) :
    Memory.wf (as.foldl (fun m a => SMap.set 0 m a (f a)) m) = true := by
  induction as generalizing m with
  | nil => exact h
  | cons a as ih => exact ih (Memory.wf_set h a (f a))

theorem getD_foldl_set (m : List Host.Cell) (as : List Nat) (f : Nat → Byte) (b : Nat) :
    SMap.getD (as.foldl (fun m a => SMap.set 0 m a (f a)) m) b 0 = if b ∈ as then f b else SMap.getD m b 0 := by
  induction as generalizing m with
  | nil => simp
  | cons a as ih =>
    simp only [List.foldl_cons, ih, List.mem_cons]
    by_cases h : b ∈ as
    · simp [h]
    · by_cases h2 : a = b
      · subst h2; simp [h]
      · simp [h, h2, Ne.symm h2]

/-! The operations of the state. -/

theorem State.retag_wf {s : State} (h : Memory.wf s.mem = true) (tag line : Nat) : Memory.wf (s.retag tag line).mem = true := by
  simp only [State.retag]
  split
  · split
    · exact h
    · exact Memory.wf_foldl_set h ..
  · exact h

/-! Images (log 35): a line of one becomes bytes of its own without reading otherwise. -/

theorem Blob.holds_iff (b : Blob) (k : Nat) : b.holds k = true ↔ b.line ≤ k ∧ k < b.line + b.n := by simp [Blob.holds]

/-- What a cut leaves of a blob holds every other line as it was, and no longer that one. -/
theorem Blob.cut_find (b : Blob) (line k : Nat) :
    ((Blob.cut line 1 b).find? fun x => x.holds k).map (fun x => (x.id, x.tag)) =
      if b.holds k = true ∧ k ≠ line then some (b.id, b.tag) else none := by
  obtain ⟨bl, bn, bt, bi⟩ := b
  simp only [Blob.cut, Blob.holds_iff, Nat.min_eq_min, Nat.max_eq_max]
  by_cases h : (bl ≤ k ∧ k < bl + bn) ∧ k ≠ line
  · rw [if_pos h]
    obtain ⟨⟨h1, h2⟩, h3⟩ := h
    by_cases hk : k < line
    · rw [List.filter_cons_of_pos (by simp; omega), List.find?_cons_of_pos (by simp [Blob.holds]; omega)]
      rfl
    · have e1 : (Blob.holds ⟨bl, min bn (line - bl), bt, bi⟩ k) = false := by
        simp only [Blob.holds, Bool.and_eq_false_iff, decide_eq_false_iff_not]; omega
      have e2 : (Blob.holds ⟨max bl (line + 1), bl + bn - max bl (line + 1), bt, bi⟩ k) = true := by
        simp only [Blob.holds, Bool.and_eq_true, decide_eq_true_eq]; omega
      have e3 : (bl + bn - max bl (line + 1) ≠ 0) := by omega
      simp only [List.filter_cons, List.filter_nil]
      split <;> simp [e1, e2, e3]
  · rw [if_neg h]
    simp only [Option.map_eq_none_iff, List.find?_eq_none, List.mem_filter]
    rintro x ⟨hx, _⟩
    rw [Blob.holds_iff]
    simp only [List.mem_cons, List.not_mem_nil, or_false] at hx
    rcases hx with rfl | rfl <;> simp only <;> omega

/-- The image and key of a line, where it lies in an image. -/
def blobSig (bs : List Blob) (k : Nat) : Option (Nat × Nat) := (bs.find? fun b => b.holds k).map fun b => (b.id, b.tag)

theorem blobSig_cut (bs : List Blob) (line k : Nat) :
    blobSig (bs.flatMap (Blob.cut line 1)) k = if k = line then none else blobSig bs k := by
  induction bs with
  | nil => simp [blobSig]
  | cons b bs ih =>
    have hb := Blob.cut_find b line k
    simp only [blobSig, List.flatMap_cons, List.find?_append, List.find?_cons] at *
    cases hc : (Blob.cut line 1 b).find? fun x => x.holds k with
    | some x =>
      rw [hc] at hb
      by_cases hh : b.holds k = true ∧ k ≠ line
      · rw [if_pos hh] at hb
        simp [hh.1, hh.2] at *
        exact hb
      · rw [if_neg hh] at hb; simp at hb
    | none =>
      rw [hc] at hb
      simp only [Option.map_none, Option.none_or, ih] at *
      by_cases hk : k = line
      · simp [hk]
      · have : b.holds k = false := by
          by_contra hn
          rw [if_pos ⟨by simpa using hn, hk⟩] at hb; simp at hb
        simp [hk, this]

theorem State.lineTag_eq (s : State) (k : Nat) :
    s.lineTag k = match blobSig s.blobs k with | some x => some x.2 | none => SMap.find s.ktag k := by
  simp only [State.lineTag, blobSig, State.blobOf]
  cases s.blobs.find? fun b => b.holds k <;> rfl

theorem State.memByte_eq (s : State) (pa : Nat) :
    s.memByte pa = match blobSig s.blobs (pa / 128) with | some x => Config.imageByte x.1 pa | none => SMap.getD s.mem pa 0 := by
  simp only [State.memByte, blobSig, State.blobOf]
  cases s.blobs.find? fun b => b.holds (pa / 128) <;> rfl

/-- Making a line solid changes no byte as it is read. -/
theorem State.solid_readByte (s : State) (line tag pa : Nat) : (s.solid line).readByte tag pa = s.readByte tag pa := by
  simp only [State.solid]
  cases hb : s.blobOf line with
  | none => rfl
  | some b =>
    have hs : blobSig s.blobs line = some (b.id, b.tag) := by simp only [blobSig]; rw [show s.blobs.find? _ = some b from hb]; rfl
    simp only [State.readByte, State.lineTag_eq, State.memByte_eq, blobSig_cut]
    by_cases h : pa / 128 = line
    · subst h
      have hm : pa / 128 * 128 ≤ pa ∧ pa < pa / 128 * 128 + 128 := by omega
      simp only [if_true, SMap.find_put, hs, getD_foldl_set, mem_span, hm, and_self]
    · simp only [h, if_false, SMap.find_put, if_neg (Ne.symm h), getD_foldl_set, mem_span]
      rw [if_neg (by omega)]

theorem State.solid_blob (s : State) (line : Nat) : blobSig (s.solid line).blobs line = none := by
  simp only [State.solid]
  cases hb : s.blobOf line with
  | none => simp only [blobSig]; rw [show s.blobs.find? _ = none from hb]; rfl
  | some b => simp [blobSig_cut]

theorem State.retag_blobs (s : State) (tag line : Nat) : (s.retag tag line).blobs = s.blobs := by
  simp only [State.retag]; split
  · split <;> rfl
  · rfl

theorem State.solid_wf {s : State} (h : Memory.wf s.mem = true) (line : Nat) : Memory.wf (s.solid line).mem = true := by
  simp only [State.solid]; split
  · exact h
  · exact Memory.wf_foldl_set h ..

theorem State.putBlob_wf {s : State} (h : Memory.wf s.mem = true) (tag line n : Nat) :
    Memory.wf (s.putBlob tag line n).1.mem = true := Memory.wf_filter h _

theorem State.writeByte_wf {s : State} (h : Memory.wf s.mem = true) (tag pa : Nat) (b : Byte) :
    Memory.wf (s.writeByte tag pa b).mem = true :=
  Memory.wf_set (State.retag_wf (State.solid_wf h _) ..) pa b

theorem State.writeEach_wf {s : State} (h : Memory.wf s.mem = true) (tag pa : Nat) (bs : List Byte) :
    Memory.wf (s.writeEach tag pa bs).mem = true := by
  induction bs generalizing s pa with
  | nil => exact h
  | cons b bs ih => exact ih (State.writeByte_wf h tag pa b) (pa + 1)

theorem State.writeBytes_wf {s : State} (h : Memory.wf s.mem = true) (tag pa : Nat) (bs : List Byte) :
    Memory.wf (s.writeBytes tag pa bs).mem = true := State.writeEach_wf h tag pa bs

/-- One write event at each of a list of addresses keeps the canonical form. -/
theorem State.writeAt_wf {s : State} (h : Memory.wf s.mem = true) (tag : Nat) (xs : List (Nat × Byte)) :
    Memory.wf (s.writeAt tag xs).mem = true := by
  simp only [State.writeAt]
  induction xs generalizing s with
  | nil => exact h
  | cons x xs ih => exact ih (State.writeByte_wf h tag x.1 x.2)

/-- Memory after reset is in its canonical form. -/
theorem State.reset_mem_wf : Memory.wf State.reset.mem = true := rfl

/-! Reading after writing. -/

/-- Bytes of a line that lies in no image are read as they were before the line took another key. -/
theorem State.retag_readByte (s : State) (tag line pa : Nat) (h : pa / 128 = line) (hb : blobSig s.blobs line = none) :
    (s.retag tag line).readByte tag pa = s.readByte tag pa := by
  subst h
  simp only [State.readByte, State.lineTag_eq, State.memByte_eq, State.retag_blobs, hb]
  simp only [State.retag]
  cases hk : SMap.find s.ktag (pa / 128) with
  | none => simp
  | some t =>
    by_cases ht : t = tag
    · simp [ht, hk]
    · simp only [ht, if_false, SMap.find_put, if_true, getD_foldl_set, mem_span]
      rw [if_pos (by omega)]

theorem State.retag_other (s : State) (tag line tag' pa : Nat) (h : pa / 128 ≠ line) :
    (s.retag tag line).readByte tag' pa = s.readByte tag' pa := by
  simp only [State.readByte, State.lineTag_eq, State.memByte_eq, State.retag_blobs]
  cases hk : SMap.find s.ktag line with
  | none => simp only [State.retag, hk, SMap.find_put, if_neg (Ne.symm h)]
  | some t =>
    by_cases ht : t = tag
    · simp only [State.retag, hk, ht, if_true]
    · simp only [State.retag, hk, ht, if_false, SMap.find_put, if_neg (Ne.symm h), getD_foldl_set, mem_span]
      rw [if_neg (by omega)]

theorem State.retag_ktag (s : State) (tag line : Nat) : SMap.find (s.retag tag line).ktag line = some tag := by
  simp only [State.retag]
  split
  · next t h => split
                · next h2 => subst h2; exact h
                · simp
  · simp

/-- A written byte changes no other byte of memory, as it is read. -/
theorem State.writeByte_sig (s : State) (tag pa : Nat) (b : Byte) : blobSig (s.writeByte tag pa b).blobs (pa / 128) = none := by
  simp only [State.writeByte, State.retag_blobs, State.solid_blob]

/-- A byte that was written reads back under the key it was written under. -/
theorem State.writeByte_readByte (s : State) (tag pa : Nat) (b : Byte) : (s.writeByte tag pa b).readByte tag pa = b := by
  simp only [State.readByte, State.lineTag_eq, State.memByte_eq, State.writeByte_sig]
  simp [State.writeByte, State.retag_ktag]

/-- A write leaves every other byte of its line, as read under its key, and every byte of another line alone. -/
theorem State.writeByte_other (s : State) (tag pa tag' pa' : Nat) (b : Byte) (h : pa' ≠ pa)
    (hk : pa' / 128 = pa / 128 → tag' = tag) : (s.writeByte tag pa b).readByte tag' pa' = s.readByte tag' pa' := by
  have : (s.writeByte tag pa b).readByte tag' pa' = ((s.solid (pa / 128)).retag tag (pa / 128)).readByte tag' pa' := by
    simp only [State.readByte, State.lineTag_eq, State.memByte_eq]
    simp [State.writeByte, Ne.symm h]
  rw [this]
  by_cases hl : pa' / 128 = pa / 128
  · rw [hk hl, State.retag_readByte _ tag (pa / 128) pa' hl (State.solid_blob ..), State.solid_readByte]
  · rw [State.retag_other _ tag (pa / 128) tag' pa' hl, State.solid_readByte]

/-- The bytes outside a run that is written are as before. -/
theorem State.writeEach_other (s : State) (tag pa tag' pa' : Nat) (bs : List Byte) (h : pa' < pa ∨ pa + bs.length ≤ pa')
    (hk : ∀ a, pa ≤ a → a < pa + bs.length → pa' / 128 = a / 128 → tag' = tag) :
    (s.writeEach tag pa bs).readByte tag' pa' = s.readByte tag' pa' := by
  induction bs generalizing s pa with
  | nil => rfl
  | cons b bs ih =>
    simp only [List.length_cons] at h hk
    simp only [State.writeEach]
    rw [ih (s.writeByte tag pa b) (pa + 1) (by omega) (fun a h1 h2 => hk a (by omega) (by omega))]
    exact State.writeByte_other s tag pa tag' pa' b (by omega) (hk pa (Nat.le_refl _) (by omega))

theorem State.writeBytes_other (s : State) (tag pa tag' pa' : Nat) (bs : List Byte) (h : pa' < pa ∨ pa + bs.length ≤ pa')
    (hk : ∀ a, pa ≤ a → a < pa + bs.length → pa' / 128 = a / 128 → tag' = tag) :
    (s.writeBytes tag pa bs).readByte tag' pa' = s.readByte tag' pa' :=
  State.writeEach_other s tag pa tag' pa' bs h hk

/-- A run of bytes that is written reads back. -/
theorem State.writeEach_read (s : State) (tag pa i : Nat) (bs : List Byte) (h : i < bs.length) :
    (s.writeEach tag pa bs).readByte tag (pa + i) = bs[i] := by
  induction bs generalizing s pa i with
  | nil => simp at h
  | cons b bs ih =>
    simp only [State.writeEach]
    cases i with
    | zero =>
      rw [State.writeEach_other _ _ _ _ _ _ (by omega) (fun _ _ _ _ => rfl)]
      exact State.writeByte_readByte s tag pa b
    | succ i =>
      rw [show pa + (i + 1) = (pa + 1) + i by omega, ih _ _ _ (by simpa using h)]
      rfl

theorem State.writeBytes_read (s : State) (tag pa i : Nat) (bs : List Byte) (h : i < bs.length) :
    (s.writeBytes tag pa bs).readByte tag (pa + i) = bs[i] := State.writeEach_read s tag pa i bs h

end Sys2Proof.Machine
end

