-- ==== Sys2Proof/Laws/Keeps.lean ====
section
/-! SUPPORT. What every operation keeps: the canonical form of memory, and that the anti-rollback count never falls. One lemma
for each operation, in the order of the files that hold them. -/

namespace Sys2Proof.Machine

/-- What a step keeps of memory and of the anti-rollback count: the canonical form, and that the count never falls. -/
structure KeepsParts (z : State) (m : List Host.Cell) (n : Nat) : Prop where
  mem : Memory.wf z.mem = true → Memory.wf m = true
  fuse : z.fuseCount ≤ n

/-- From `z` to `s` memory keeps its canonical form, and the fused count does not fall. -/
structure Keeps (z s : State) : Prop where
  parts : KeepsParts z s.mem s.fuseCount

/-- Every next state that an instruction answers keeps them. -/
def KeepsOut (z : State) (o : Out) : Prop := ∀ t, o = .next t → Keeps z t
def KeepsOpt (z : State) (o : Option State) : Prop := ∀ t, o = some t → Keeps z t
def KeepsE (z : State) (o : EAcc State) : Prop := ∀ t, o = .ok t → Keeps z t
def KeepsOptFst {α : Type} (z : State) (o : Option (State × α)) : Prop := ∀ t, o = some t → Keeps z t.1
def KeepsInr {α β : Type} (z : State) (o : Sum α (State × β)) : Prop := ∀ t, o = .inr t → Keeps z t.1
def KeepsSum {α β : Type} (z : State) (o : Sum (State × α) (State × β)) : Prop :=
  (∀ t, o = .inl t → Keeps z t.1) ∧ ∀ t, o = .inr t → Keeps z t.1
def KeepsInl {α : Type} (z : State) (o : Sum State α) : Prop := ∀ t, o = .inl t → Keeps z t

theorem Keeps.refl (s : State) : Keeps s s := ⟨id, Nat.le_refl _⟩
theorem keeps_kp {z s : State} (h : Keeps z s) : KeepsParts z s.mem s.fuseCount := h.1
theorem keeps_ite {z a b : State} {p : Prop} [Decidable p] (h1 : Keeps z a) (h2 : Keeps z b) : Keeps z (if p then a else b) := by
  split <;> assumption
theorem keepsFst_ite {α : Type} {z : State} {a b : State × α} {p : Prop} [Decidable p] (h1 : Keeps z a.1) (h2 : Keeps z b.1) :
    Keeps z (if p then a else b).1 := by
  split <;> assumption
theorem keepsOut_ite {z : State} {a b : Out} {p : Prop} [Decidable p] (h1 : KeepsOut z a) (h2 : KeepsOut z b) :
    KeepsOut z (if p then a else b) := by
  split <;> assumption
theorem keepsOut_next {z s : State} (h : Keeps z s) : KeepsOut z (.next s) := by
  intro t e; cases e; exact h
theorem keepsOut_fault {z : State} {f : Fault} : KeepsOut z (.fault f) := by intro t e; cases e
theorem keeps_of_fst {α : Type} {z t : State} {a : α} {p : State × α} (e : p = (t, a)) (h : Keeps z p.1) : Keeps z t := by
  subst e; exact h
theorem keepsOpt_ite {z : State} {a b : Option State} {p : Prop} [Decidable p] (h1 : KeepsOpt z a) (h2 : KeepsOpt z b) :
    KeepsOpt z (if p then a else b) := by
  split <;> assumption
theorem keepsOpt_some {z s : State} (h : Keeps z s) : KeepsOpt z (some s) := by intro t e; cases e; exact h
theorem keepsOpt_none {z : State} : KeepsOpt z none := by intro t e; cases e
theorem keeps_of_some {z t : State} {o : Option State} (e : o = some t) (h : KeepsOpt z o) : Keeps z t := h t e
theorem keeps_of_next {z t : State} {o : Out} (e : o = .next t) (h : KeepsOut z o) : Keeps z t := h t e
theorem keepsE_ok {z s : State} (h : Keeps z s) : KeepsE z (.ok s) := by intro t e; cases e; exact h
theorem keepsE_fault {z : State} {c : Cause} {a b : Nat} : KeepsE z (.fault c a b) := by intro t e; cases e
theorem keepsE_remote {z : State} {a b : Nat} : KeepsE z (.remote a b) := by intro t e; cases e
theorem keeps_of_ok {z t : State} {o : EAcc State} (e : o = .ok t) (h : KeepsE z o) : Keeps z t := h t e
theorem keepsOptFst_some {α : Type} {z : State} {p : State × α} (h : Keeps z p.1) : KeepsOptFst z (some p) := by
  intro t e; cases e; exact h
theorem keepsOptFst_none {α : Type} {z : State} : KeepsOptFst (α := α) z none := by intro t e; cases e
theorem keeps_of_somefst {α : Type} {z t : State} {a : α} {o : Option (State × α)} (e : o = some (t, a)) (h : KeepsOptFst z o) :
    Keeps z t := h (t, a) e
theorem keepsInr_inr {α β : Type} {z : State} {p : State × β} (h : Keeps z p.1) : KeepsInr (α := α) z (.inr p) := by
  intro t e; cases e; exact h
theorem keepsInr_inl {α β : Type} {z : State} {a : α} : KeepsInr (β := β) z (.inl a) := by intro t e; cases e
theorem keeps_of_inr {α β : Type} {z t : State} {b : β} {o : Sum α (State × β)} (e : o = .inr (t, b)) (h : KeepsInr z o) :
    Keeps z t := h (t, b) e
theorem keepsInl_inl {α : Type} {z s : State} (h : Keeps z s) : KeepsInl (α := α) z (.inl s) := by intro t e; cases e; exact h
theorem keepsInl_inr {α : Type} {z : State} {a : α} : KeepsInl z (.inr a) := by intro t e; cases e
theorem keeps_of_inl {α : Type} {z t : State} {o : Sum State α} (e : o = .inl t) (h : KeepsInl z o) : Keeps z t := h t e
theorem keeps_of_suml {α β : Type} {z t : State} {a : α} {o : Sum (State × α) (State × β)} (e : o = .inl (t, a)) (h : KeepsSum z o) :
    Keeps z t := h.1 (t, a) e
theorem keeps_of_sumr {α β : Type} {z t : State} {b : β} {o : Sum (State × α) (State × β)} (e : o = .inr (t, b)) (h : KeepsSum z o) :
    Keeps z t := h.2 (t, b) e
theorem keepsSum_inl {α β : Type} {z : State} {p : State × α} (h : Keeps z p.1) : KeepsSum (β := β) z (.inl p) :=
  ⟨fun t e => by cases e; exact h, fun t e => by cases e⟩
theorem keepsSum_inr {α β : Type} {z : State} {p : State × β} (h : Keeps z p.1) : KeepsSum (α := α) z (.inr p) :=
  ⟨fun t e => by (cases e), fun t e => by cases e; exact h⟩
theorem keeps_getD {z s : State} {o : Option State} (h1 : KeepsOpt z o) (h2 : Keeps z s) : Keeps z (o.getD s) := by
  cases o with
  | none => exact h2
  | some t => exact h1 t rfl
theorem keeps_foldl {α : Type} {z s : State} {f : State → α → State} {xs : List α}
    (hf : ∀ s x, Keeps z s → Keeps z (f s x)) (h : Keeps z s) : Keeps z (xs.foldl f s) := by
  induction xs generalizing s with
  | nil => exact h
  | cons x xs ih => exact ih (hf s x h)
theorem keepsFst_foldl {α β : Type} {z : State} {p : State × β} {f : State × β → α → State × β} {xs : List α}
    (hf : ∀ p x, Keeps z p.1 → Keeps z (f p x).1) (h : Keeps z p.1) : Keeps z (xs.foldl f p).1 := by
  induction xs generalizing p with
  | nil => exact h
  | cons x xs ih => exact ih (hf p x h)
theorem keepsOpt_foldl {α : Type} {z : State} {p : Option State} {f : Option State → α → Option State} {xs : List α}
    (hf : ∀ p x, KeepsOpt z p → KeepsOpt z (f p x)) (h : KeepsOpt z p) : KeepsOpt z (xs.foldl f p) := by
  induction xs generalizing p with
  | nil => exact h
  | cons x xs ih => exact ih (hf p x h)
theorem keeps_mk {z : State} (svc : Svc) (hbmOk : BitVec 8) (hbmFail : BitVec 8) (svcCmd : Word) (svcRes : Nat) (stages : Nat) (bootFailed : Bool) (bootDone : Bool) (meas : List (List Byte)) (fuseCount : Nat) (flash : List (Option Image)) (activeBank : Nat) (uncommitted : Bool) (flashBusy : Bool) (pendingUpdate : Bool) (hbmErrs : List (Nat × Nat)) (ptBase : Nat) (ptAt : Nat) (ptStep : DWord) (ptRate : Int) (stepping : Bool) (txts : DWord) (ptsel : Nat) (l2wayg : BitVec 16) (mcwin : Nat) (l2sel : Nat) (qosErr : BitVec 4) (slices : SMap Slice) (l2 : SMap (SMap Way)) (mcasts : List Mcast) (merged : SMap Nat) (homeReqs : List HomeReq) (slicePwr : SMap Pwr) (tlb1 : SMap (List Tlb)) (tlb2 : SMap (List Tlb)) (walkCache : SMap (List WalkEnt)) (walks : List Walk) (stBase : DWord) (scCmd : Word) (scStat : Nat) (streams : SMap Stream) (ftBase : DWord) (ftInv : DWord) (ftBusy : Bool) (ftFault : DWord) (ftlb : List FabTlb) (keyCmd : Word) (keyBusy : Bool) (keyRes : Nat) (keyGiven : Nat) (keyNext : Option (Nat × Key)) (keys : SMap Key) (nextSerial : Nat) (rtBase : DWord) (pkgNum : Nat) (ports : SMap Port) (sent : List Sent) (out : List Sent) (remotes : List Remote) (recs : List RecAns) (nextTag : Nat) (windows : SMap (Nat × Nat)) (colls : List Coll) (collIn : List (Nat × Frame)) (rxTimes : List Nat) (hpart : SMap Nat) (hostLast : List HartRes) (hostResv : SMap (Nat × Nat × Nat)) (hostHeld : List Nat) (hostWait : List (Nat × Option HostOp)) (mem : List Host.Cell) (hist : List Hist) (wseq : Nat) (wb : SMap Nat) (ktag : SMap Nat) (blobs : List Blob) (nextBlob : Nat) (stores : List Store) (nextStore : Nat) (sram : SMap Byte) (absentLines : SMap Nat) (clusters : SMap Cluster) (banks : SMap Bank) (parts : SMap Part) (launches : SMap Launch) (teams : SMap Team) (groups : SMap Group) (chans : SMap Chan) (nextUid : Nat) (rotation : SMap Nat) (scalarIssues : SMap Nat) (replies : List Reply) (negotiated : Bool) (reports : List Report) (profiles : List Profile) (agenda : List Instr) (cur : Option Cur) (second : Option Cur) (waiting : SMap Cur) (served : List Nat) (now : Nat) (fresh : Nat) (stuck : Option Nat)
    (h : KeepsParts z mem fuseCount) : Keeps z ⟨svc, hbmOk, hbmFail, svcCmd, svcRes, stages, bootFailed, bootDone, meas, fuseCount, flash, activeBank, uncommitted, flashBusy, pendingUpdate, hbmErrs, ptBase, ptAt, ptStep, ptRate, stepping, txts, ptsel, l2wayg, mcwin, l2sel, qosErr, slices, l2, mcasts, merged, homeReqs, slicePwr, tlb1, tlb2, walkCache, walks, stBase, scCmd, scStat, streams, ftBase, ftInv, ftBusy, ftFault, ftlb, keyCmd, keyBusy, keyRes, keyGiven, keyNext, keys, nextSerial, rtBase, pkgNum, ports, sent, out, remotes, recs, nextTag, windows, colls, collIn, rxTimes, hpart, hostLast, hostResv, hostHeld, hostWait, mem, hist, wseq, wb, ktag, blobs, nextBlob, stores, nextStore, sram, absentLines, clusters, banks, parts, launches, teams, groups, chans, nextUid, rotation, scalarIssues, replies, negotiated, reports, profiles, agenda, cur, second, waiting, served, now, fresh, stuck⟩ := ⟨h⟩

theorem State.solid_keeps {z : State} (s : State) (line : Nat) (h0 : Keeps z s) : Keeps z (State.solid s line) := by
  refine ⟨fun h => State.solid_wf (h0.1.1 h) line, ?_⟩
  have e : (s.solid line).fuseCount = s.fuseCount := by simp only [State.solid]; split <;> rfl
  rw [e]; exact h0.1.2

theorem State.putBlob_keeps {z : State} (s : State) (tag : Nat) (line : Nat) (n : Nat) (h0 : Keeps z s) : Keeps z (State.putBlob s tag line n).1 :=
  ⟨fun h => State.putBlob_wf (h0.1.1 h) tag line n, h0.1.2⟩

theorem State.retag_keeps {z : State} (s : State) (tag : Nat) (line : Nat) (h0 : Keeps z s) : Keeps z (State.retag s tag line) := by
  refine ⟨fun h => State.retag_wf (h0.1.1 h) tag line, ?_⟩
  have e : (s.retag tag line).fuseCount = s.fuseCount := by
    simp only [State.retag]
    split
    · split <;> rfl
    · rfl
  rw [e]; exact h0.1.2

theorem State.writeByte_keeps {z : State} (s : State) (tag : Nat) (pa : Nat) (b : Byte) (h0 : Keeps z s) : Keeps z (State.writeByte s tag pa b) := by
  exact ⟨fun h => State.writeByte_wf (h0.1.1 h) tag pa b, (State.retag_keeps _ tag (pa / 128) (State.solid_keeps s (pa / 128) h0)).1.2⟩

theorem State.writeEach_keeps {z : State} (s : State) (tag : ℕ) (x0 : ℕ) (x1 : List Byte) (h0 : Keeps z s) : Keeps z (State.writeEach s tag x0 x1) := by
  induction x1 generalizing s tag x0 with
  | nil =>
    unfold State.writeEach
    try dsimp only
    with_reducible repeat' assumption
  | cons y ys ih =>
    unfold State.writeEach
    try dsimp only
    with_reducible repeat' first | assumption | apply State.writeByte_keeps | apply ih

theorem State.writeBytes_keeps {z : State} (s : State) (tag : ℕ) (pa : ℕ) (bs : List Byte) (h0 : Keeps z s) : Keeps z (State.writeBytes s tag pa bs) := by
  unfold State.writeBytes
  try dsimp only
  repeat' first
    | with_reducible assumption
    | with_reducible (apply keeps_mk; apply keeps_kp; apply State.writeEach_keeps)

theorem State.writeAt_keeps {z : State} (s : State) (tag : ℕ) (xs : List (ℕ × Byte)) (h0 : Keeps z s) : Keeps z (State.writeAt s tag xs) := by
  unfold State.writeAt
  try dsimp only
  repeat' first
    | (with_reducible first | intro _ | assumption | apply State.writeByte_keeps)
    | with_reducible (apply keeps_mk; apply keeps_kp; apply keeps_foldl)

theorem State.setPart_keeps {z : State} (s : State) (p : ℕ) (x : Part) (h0 : Keeps z s) : Keeps z (State.setPart s p x) := ⟨h0.1⟩

theorem State.setCluster_keeps {z : State} (s : State) (c : ℕ) (x : Cluster) (h0 : Keeps z s) : Keeps z (State.setCluster s c x) := ⟨h0.1⟩

theorem State.setBank_keeps {z : State} (s : State) (b : ℕ) (x : Bank) (h0 : Keeps z s) : Keeps z (State.setBank s b x) := ⟨h0.1⟩

theorem State.setChan_keeps {z : State} (s : State) (ch : ℕ) (x : Chan) (h0 : Keeps z s) : Keeps z (State.setChan s ch x) := ⟨h0.1⟩

theorem State.setStream_keeps {z : State} (s : State) (e : ℕ) (x : Stream) (h0 : Keeps z s) : Keeps z (State.setStream s e x) := ⟨h0.1⟩

theorem State.setPort_keeps {z : State} (s : State) (p : ℕ) (x : Port) (h0 : Keeps z s) : Keeps z (State.setPort s p x) := ⟨h0.1⟩

theorem State.updGroup_keeps {z : State} (s : State) (gk : ℕ) (f : Group → Group) (h0 : Keeps z s) : Keeps z (State.updGroup s gk f) := ⟨h0.1⟩

theorem State.updTeam_keeps {z : State} (s : State) (t : ℕ) (f : Team → Team) (h0 : Keeps z s) : Keeps z (State.updTeam s t f) := ⟨h0.1⟩

theorem State.updLaunch_keeps {z : State} (s : State) (l : ℕ) (f : Launch → Launch) (h0 : Keeps z s) : Keeps z (State.updLaunch s l f) := ⟨h0.1⟩

theorem State.fillL1_keeps {z : State} (s : State) (core : ℕ) (t : Tlb) (h0 : Keeps z s) : Keeps z (State.fillL1 s core t) := ⟨h0.1⟩

theorem State.fillL2_keeps {z : State} (s : State) (die : ℕ) (t : Tlb) (h0 : Keeps z s) : Keeps z (State.fillL2 s die t) := ⟨h0.1⟩

theorem State.miss_keeps {z : State} (s : State) (die : ℕ) (p : ℕ) (va : ℕ) (agent : ℕ) (classH : Bool) (h0 : Keeps z s) : Keeps z (State.miss s die p va agent classH) := by
  unfold State.miss
  try dsimp only
  repeat' first
    | split
    | with_reducible (apply keeps_mk; apply keeps_kp; assumption)

theorem State.noteXlate_keeps {z : State} (s : State) (p : ℕ) (agent : ℕ) (classH : Bool) (va : ℕ) (h0 : Keeps z s) : Keeps z (State.noteXlate s p agent classH va) := by
  unfold State.noteXlate
  try dsimp only
  repeat' first
    | (with_reducible first | assumption | apply State.fillL1_keeps | apply State.miss_keeps)
    | split

theorem State.askHome_keeps {z : State} (s : State) (r : HomeReq) (h0 : Keeps z s) : Keeps z (State.askHome s r) := by
  unfold State.askHome
  try dsimp only
  repeat' first
    | with_reducible assumption
    | split
    | with_reducible (apply keeps_mk; apply keeps_kp; assumption)

theorem State.needMem_keeps {z : State} (s : State) (pa : ℕ) (h0 : Keeps z s) : Keeps z (State.needMem s pa) := by
  unfold State.needMem
  try dsimp only
  repeat' first
    | with_reducible assumption
    | split
    | with_reducible (apply keeps_mk; apply keeps_kp; assumption)

theorem State.setSram_keeps {z : State} (s : State) (k : ℕ) (b : Byte) (h0 : Keeps z s) : Keeps z (State.setSram s k b) := ⟨h0.1⟩

theorem State.writeScratch_keeps {z : State} (s : State) (t : Team) (x0 : ℕ) (x1 : List Byte) (h0 : Keeps z s) : Keeps z (State.writeScratch s t x0 x1) := by
  induction x1 generalizing s t x0 with
  | nil =>
    unfold State.writeScratch
    try dsimp only
    with_reducible repeat' assumption
  | cons y ys ih =>
    unfold State.writeScratch
    try dsimp only
    with_reducible repeat' first | assumption | apply State.setSram_keeps | apply ih

theorem State.clearBank_keeps {z : State} (s : State) (b : ℕ) (h0 : Keeps z s) : Keeps z (State.clearBank s b) := ⟨h0.1⟩

theorem State.writeLanes_keeps {z : State} (s : State) (gk : ℕ) (act : Mask) (f : ℕ → Wr) (h0 : Keeps z s) : Keeps z (State.writeLanes s gk act f) := ⟨h0.1⟩

theorem State.repath_keeps {z : State} (s : State) (gk : ℕ) (moved : Mask) (h0 : Keeps z s) : Keeps z (State.repath s gk moved) := by
  unfold State.repath
  try dsimp only
  repeat' first
    | (with_reducible first | assumption | apply State.updGroup_keeps)
    | split

theorem State.meet_keeps {z : State} (s : State) (gk : ℕ) (h0 : Keeps z s) : Keeps z (State.meet s gk) := ⟨h0.1⟩

theorem State.grantHeld_keeps {z : State} (x0 : ℕ) (x1 : State) (x2 : ℕ) (h0 : Keeps z x1) : Keeps z (State.grantHeld x0 x1 x2) := by
  induction x0 generalizing x1 x2 with
  | zero =>
    unfold State.grantHeld
    try dsimp only
    with_reducible repeat' assumption
  | succ n ih =>
    unfold State.grantHeld
    try dsimp only
    repeat' first
      | (with_reducible first | assumption | apply State.updGroup_keeps | apply ih)
      | split

theorem State.dropRecs_keeps {z : State} (s : State) (who : Reader) (h0 : Keeps z s) : Keeps z (State.dropRecs s who) := by
  unfold State.dropRecs
  try dsimp only
  repeat' first
    | with_reducible assumption
    | split
    | with_reducible (apply keeps_mk; apply keeps_kp; assumption)

theorem Ctx.moveTo_keeps {z : State} (c : Ctx) (next : ℕ → DWord → DWord) (s : State) (h0 : Keeps z s) : Keeps z (Ctx.moveTo c next s) := by
  unfold Ctx.moveTo
  try dsimp only
  repeat' first
    | with_reducible
        first
          | assumption | apply State.dropRecs_keeps | apply State.grantHeld_keeps | apply State.repath_keeps
          | apply State.updGroup_keeps
    | split

theorem Ctx.advance_keeps {z : State} (c : Ctx) (i : Instr) (s : State) (h0 : Keeps z s) : Keeps z (Ctx.advance c i s) := by
  unfold Ctx.advance
  try dsimp only
  with_reducible repeat' first | assumption | apply Ctx.moveTo_keeps

theorem State.ringWrite_keeps {z : State} (s : State) (p : ℕ) (x0 : ℕ) (x1 : List Byte) (h0 : Keeps z s) : Keeps z (State.ringWrite s p x0 x1) := by
  induction x0 generalizing s p x1 with
  | zero =>
    unfold State.ringWrite
    try dsimp only
    with_reducible repeat' assumption
  | succ n ih =>
    unfold State.ringWrite
    try dsimp only
    with_reducible repeat' first | assumption | apply State.setPart_keeps | apply State.writeBytes_keeps | apply ih

theorem State.postNow_keeps {z : State} (s : State) (p : ℕ) (e : FEntry) (h0 : Keeps z s) : Keeps z (State.postNow s p e) := by
  unfold State.postNow
  try dsimp only
  with_reducible repeat' first | assumption | apply State.ringWrite_keeps | apply State.setPart_keeps

theorem State.postWaiting_keeps {z : State} (x0 : ℕ) (x1 : State) (x2 : ℕ) (h0 : Keeps z x1) : Keeps z (State.postWaiting x0 x1 x2) := by
  induction x0 generalizing x1 x2 with
  | zero =>
    unfold State.postWaiting
    try dsimp only
    with_reducible repeat' assumption
  | succ n ih =>
    unfold State.postWaiting
    try dsimp only
    repeat' first
      | (with_reducible first | assumption | apply State.postNow_keeps | apply State.setPart_keeps | apply ih)
      | split

theorem State.raiseEntry_keeps {z : State} (s : State) (p : ℕ) (e : FEntry) (h0 : Keeps z s) : Keeps z (State.raiseEntry s p e) := by
  unfold State.raiseEntry
  try dsimp only
  with_reducible repeat' first | assumption | apply State.postWaiting_keeps | apply State.setPart_keeps

theorem State.takeFault_keeps {z : State} (s : State) (gk : ℕ) (i : FInfo) (h0 : Keeps z s) : Keeps z (State.takeFault s gk i) := by
  unfold State.takeFault
  try dsimp only
  repeat' first
    | (with_reducible first | assumption | apply State.dropRecs_keeps | apply State.raiseEntry_keeps | apply State.updGroup_keeps)
    | split

theorem Ctx.trap_keeps {z : State} (c : Ctx) (cause : Cause) (lm : Mask) (s : State) (h0 : Keeps z s) : Keeps z (Ctx.trap c cause lm s) := by
  unfold Ctx.trap
  try dsimp only
  with_reducible repeat' first | assumption | apply State.takeFault_keeps

theorem State.resumeGroup_keeps {z : State} (s : State) (gk : ℕ) (h0 : Keeps z s) : Keeps z (State.resumeGroup s gk) := ⟨h0.1⟩

theorem State.dropOutstanding_keeps {z : State} (s : State) (p : ℕ) (f : FEntry → Bool) (h0 : Keeps z s) : Keeps z (State.dropOutstanding s p f) := ⟨h0.1⟩

theorem State.send_keeps {z : State} (s : State) (op : ℕ) (f : Frame) (h0 : Keeps z s) : Keeps z (State.send s op f) := ⟨h0.1⟩

theorem State.request_keeps {z : State} (s : State) (op : ℕ) (src : Src) (pkg : ℕ) (daddr : ℕ) (port : ℕ) (payload : List Byte) (rem : Remote) (h0 : Keeps z s) : Keeps z (State.request s op src pkg daddr port payload rem) := ⟨h0.1⟩

theorem State.noteStore_keeps {z : State} (s : State) (src : Src) (h0 : Keeps z s) : Keeps z (State.noteStore s src) := ⟨h0.1⟩

theorem State.askOnce_keeps {z : State} (s : State) (r : HomeReq) (h0 : Keeps z s) : Keeps z (State.askOnce s r) := by
  unfold State.askOnce
  try dsimp only
  repeat' first
    | (with_reducible first | assumption | apply State.askHome_keeps)
    | split

theorem State.touch_keeps {z : State} (s : State) (t : Team) (off : ℕ) (n : ℕ) (h0 : Keeps z s) : Keeps z (State.touch s t off n) := by
  unfold State.touch
  try dsimp only
  with_reducible repeat' first | intro _ | assumption | apply keeps_foldl | apply State.setBank_keeps

theorem State.askWrite_keeps {z : State} (s : State) (core : ℕ) (classH : Bool) (tag : ℕ) (line : ℕ) (h0 : Keeps z s) : Keeps z (State.askWrite s core classH tag line) := ⟨h0.1⟩

theorem State.startWake_keeps {z : State} (s : State) (bs : List ℕ) (h0 : Keeps z s) : Keeps z (State.startWake s bs) := by
  unfold State.startWake
  try dsimp only
  with_reducible repeat' first | intro _ | assumption | apply keeps_foldl | apply State.setBank_keeps

theorem State.writeElem_keeps {z : State} (s : State) (p : ℕ) (core : ℕ) (pl : EPlace) (size : ℕ) (x : ℕ) (h0 : Keeps z s) : KeepsE z (State.writeElem s p core pl size x) := by
  unfold State.writeElem
  try dsimp only
  repeat' first
    | with_reducible
        first
          | assumption | apply State.needMem_keeps | apply State.writeBytes_keeps | apply State.writeScratch_keeps | apply keepsE_ok
          | apply keepsE_fault | apply keepsE_remote
    | split

theorem State.applyStaged1_keeps {z : State} (s : State) (p : ℕ) (core : ℕ) (t : Sys2Proof.Ty) (rop : ℕ) (va : ℕ) (x : ℕ) (h0 : Keeps z s) : KeepsE z (State.applyStaged1 s p core t rop va x) := by
  unfold State.applyStaged1
  try dsimp only
  repeat' first
    | (with_reducible first | assumption | apply State.writeElem_keeps | apply keepsE_fault | apply keepsE_remote)
    | split

theorem State.tryRequest_keeps {z : State} (s : State) (op : ℕ) (src : Src) (pkg : ℕ) (daddr : ℕ) (payload : List Byte) (rem : Remote) (h0 : Keeps z s) : KeepsOpt z (State.tryRequest s op src pkg daddr payload rem) := by
  unfold State.tryRequest
  try dsimp only
  repeat' first
    | (with_reducible first | assumption | apply State.request_keeps | apply keepsOpt_some | apply keepsOpt_none)
    | split

theorem State.askRecord_keeps {z : State} (s : State) (who : Reader) (src : Src) (pkg : ℕ) (d : ℕ) (va : ℕ) (h0 : Keeps z s) : Keeps z (State.askRecord s who src pkg d va) := by
  unfold State.askRecord
  try dsimp only
  repeat' first
    | (with_reducible first | assumption | apply keeps_ite | apply State.tryRequest_keeps)
    | split
    | with_reducible (apply keeps_mk; apply keeps_kp; first | assumption | refine keeps_of_some ‹_› ?_)

theorem State.applyStaged_keeps {z : State} (s : State) (p : Nat) (core : Nat) (src : Src) (t : Sys2Proof.Ty) (rop : Nat) (x0 : List (Nat × BitVec 128)) (h0 : Keeps z s) : Keeps z (State.applyStaged s p core src t rop x0).1 := by
  induction x0 generalizing s with
  | nil => exact h0
  | cons y ys ih =>
    simp only [State.applyStaged]
    split
    · next e => exact ih _ (State.applyStaged1_keeps s p core t rop y.1 y.2.toNat h0 _ e)
    · exact h0
    · split
      · next e => exact ih _ (State.tryRequest_keeps s _ _ _ _ _ _ h0 _ e)
      · exact h0

theorem State.passSet_keeps {z : State} (s : State) (gk : ℕ) (m : Mask) (h0 : Keeps z s) : Keeps z (State.passSet s gk m) := by
  unfold State.passSet
  try dsimp only
  with_reducible repeat' first | assumption | apply State.repath_keeps | apply State.updGroup_keeps

theorem State.passLanes_keeps {z : State} (s : State) (gk : ℕ) (m : Mask) (h0 : Keeps z s) : Keeps z (State.passLanes s gk m) := by
  unfold State.passLanes
  try dsimp only
  repeat' first
    | (with_reducible first | intro _ | assumption | apply keeps_foldl | apply State.grantHeld_keeps | apply State.passSet_keeps)
    | split

theorem State.carryOps_keeps {z : State} (s : State) (gk : ℕ) (key : ℕ) (h0 : Keeps z s) : Keeps z (State.carryOps s gk key) := ⟨h0.1⟩

theorem State.observeOps_keeps {z : State} (s : State) (gk : ℕ) (key : ℕ) (h0 : Keeps z s) : Keeps z (State.observeOps s gk key) := ⟨h0.1⟩

theorem State.acquire_keeps {z : State} (s : State) (gk : ℕ) (m : Mask) (h0 : Keeps z s) : Keeps z (State.acquire s gk m) := ⟨h0.1⟩

theorem State.setBar_keeps {z : State} (s : State) (lvl : BarLevel) (tuid : ℕ) (k : ℕ) (b : Barrier) (h0 : Keeps z s) : Keeps z (State.setBar s lvl tuid k b) := by
  unfold State.setBar
  try dsimp only
  repeat' first
    | (with_reducible first | assumption | apply State.updLaunch_keeps | apply State.updTeam_keeps)
    | split

theorem State.scheduleWaves_keeps {z : State} (s : State) (lvl : BarLevel) (tuid : ℕ) (k : ℕ) (h0 : Keeps z s) : Keeps z (State.scheduleWaves s lvl tuid k) := by
  unfold State.scheduleWaves
  try dsimp only
  with_reducible repeat' first | intro _ | assumption | apply keeps_foldl | apply State.setCluster_keeps

theorem State.wakeRetries_keeps {z : State} (s : State) (lvl : BarLevel) (tuid : ℕ) (k : ℕ) (done : ℕ) (h0 : Keeps z s) : Keeps z (State.wakeRetries s lvl tuid k done) := by
  unfold State.wakeRetries
  try dsimp only
  with_reducible repeat' first | intro _ | assumption | apply keeps_foldl | apply State.updGroup_keeps

theorem State.enter_keeps {z : State} (s : State) (gk : ℕ) (i : ℕ) (len : ℕ) (h0 : Keeps z s) : Keeps z (State.enter s gk i len) := by
  unfold State.enter
  try dsimp only
  repeat' first
    | (with_reducible first | assumption | apply State.acquire_keeps | apply State.observeOps_keeps | apply State.updGroup_keeps)
    | split

theorem State.testEvents_keeps {z : State} (s : State) (gk : ℕ) (h0 : Keeps z s) : Keeps z (State.testEvents s gk) := by
  unfold State.testEvents
  try dsimp only
  repeat' first
    | (with_reducible first | assumption | apply State.enter_keeps)
    | split
    | with_reducible (apply keeps_mk; apply keeps_kp; assumption)

theorem State.testAllEvents_keeps {z : State} (s : State) (h0 : Keeps z s) : Keeps z (State.testAllEvents s) := by
  unfold State.testAllEvents
  try dsimp only
  with_reducible repeat' first | intro _ | assumption | apply keeps_foldl | apply State.testEvents_keeps

theorem State.completeBar_keeps {z : State} (x0 : ℕ) (x1 : State) (x2 : BarLevel) (x3 : ℕ) (x4 : ℕ) (h0 : Keeps z x1) : Keeps z (State.completeBar x0 x1 x2 x3 x4) := by
  induction x0 generalizing x1 x2 x3 x4 with
  | zero =>
    unfold State.completeBar
    try dsimp only
    with_reducible repeat' assumption
  | succ n ih =>
    unfold State.completeBar
    try dsimp only
    repeat' first
      | with_reducible
          first
            | assumption | apply State.scheduleWaves_keeps | apply State.setBar_keeps | apply State.testAllEvents_keeps
            | apply State.wakeRetries_keeps | apply ih
      | split

theorem State.checkBars_keeps {z : State} (s : State) (tuid : ℕ) (h0 : Keeps z s) : Keeps z (State.checkBars s tuid) := by
  unfold State.checkBars
  try dsimp only
  repeat' first
    | (with_reducible first | intro _ | assumption | apply keeps_foldl | apply State.completeBar_keeps)
    | split

theorem State.releaseWave_keeps {z : State} (s : State) (cl : ℕ) (h0 : Keeps z s) : Keeps z (State.releaseWave s cl) := by
  unfold State.releaseWave
  try dsimp only
  repeat' first
    | with_reducible
        first
          | intro _ | assumption | apply keeps_foldl | apply State.acquire_keeps | apply State.observeOps_keeps
          | apply State.passLanes_keeps | apply State.setCluster_keeps
    | split

theorem State.engineArrive_keeps {z : State} (s : State) (c : Cmd) (h0 : Keeps z s) : Keeps z (State.engineArrive s c) := by
  unfold State.engineArrive
  try dsimp only
  repeat' first
    | (with_reducible first | assumption | apply State.setBar_keeps)
    | split

theorem State.wakeTlOf_keeps {z : State} (s : State) (ch : ℕ) (gk : ℕ) (h0 : Keeps z s) : Keeps z (State.wakeTlOf s ch gk) := by
  unfold State.wakeTlOf
  try dsimp only
  repeat' first
    | (with_reducible first | assumption | apply State.acquire_keeps | apply State.passLanes_keeps)
    | split

theorem State.wakeTl_keeps {z : State} (s : State) (ch : ℕ) (h0 : Keeps z s) : Keeps z (State.wakeTl s ch) := by
  unfold State.wakeTl
  try dsimp only
  with_reducible repeat' first | intro _ | assumption | apply keeps_foldl | apply State.wakeTlOf_keeps

theorem State.finishCmd_keeps {z : State} (s : State) (ch : ℕ) (c : Cmd) (h0 : Keeps z s) : Keeps z (State.finishCmd s ch c) := by
  unfold State.finishCmd
  try dsimp only
  with_reducible
    repeat' first
      | assumption | apply State.engineArrive_keeps | apply State.setChan_keeps | apply State.testAllEvents_keeps
      | apply State.wakeTl_keeps

theorem State.withdraw_keeps {z : State} (s : State) (c : Cmd) (h0 : Keeps z s) : Keeps z (State.withdraw s c) := by
  unfold State.withdraw
  try dsimp only
  repeat' first
    | (with_reducible first | assumption | apply State.setBar_keeps)
    | split

theorem State.overtakeDrain_keeps {z : State} (s : State) (w : SMap (BitVec 40)) (y : AnvilOp) (h0 : Keeps z s) : Keeps z (State.overtakeDrain s w y) := by
  unfold State.overtakeDrain
  try dsimp only
  repeat' first
    | (with_reducible first | assumption | apply State.updGroup_keeps)
    | split

theorem State.startOp_keeps {z : State} (s : State) (gk : ℕ) (m : BitVec 8) (slot : Option ℕ) (chain : Bool) (members : Mask) (mma : Bool) (cap : AnvilCap) (tags : List (ℕ × ℕ)) (h0 : Keeps z s) : Keeps z (State.startOp s gk m slot chain members mma cap tags) := by
  unfold State.startOp
  try dsimp only
  with_reducible repeat' first | intro _ | assumption | apply keeps_foldl | apply State.overtakeDrain_keeps | apply State.updTeam_keeps

theorem State.spillLine_keeps {z : State} (s : State) (gk : ℕ) (l : ℕ) (pc : DWord) (bs : List Byte) (acc : List (ℕ × ℕ)) (x : ℕ × Target) (h0 : Keeps z s) : Keeps z (State.spillLine s gk l pc bs acc x).1 := by
  unfold State.spillLine
  try dsimp only
  repeat' first
    | with_reducible
        first
          | assumption | apply State.askWrite_keeps | apply State.needMem_keeps | apply State.tryRequest_keeps
          | apply State.writeBytes_keeps | refine keeps_of_some ‹_› ?_
    | split

theorem State.spillImage_keeps {z : State} (s : State) (t : Team) (y : AnvilOp) (h0 : Keeps z s) : Keeps z (State.spillImage s t y).1 := by
  unfold State.spillImage
  try dsimp only
  repeat' first
    | with_reducible
        first
          | intro _ | assumption | apply State.spillLine_keeps | apply State.touch_keeps | apply State.writeScratch_keeps
          | apply keepsFst_foldl
    | split

theorem State.endOp_keeps {z : State} (s : State) (tuid : ℕ) (op : ℕ) (h0 : Keeps z s) : Keeps z (State.endOp s tuid op) := by
  unfold State.endOp
  try dsimp only
  repeat' first
    | (with_reducible first | assumption | apply State.spillImage_keeps | apply State.updTeam_keeps)
    | split

theorem State.endOps_keeps {z : State} (s : State) (tuid : ℕ) (h0 : Keeps z s) : Keeps z (State.endOps s tuid) := by
  unfold State.endOps
  try dsimp only
  repeat' first
    | (with_reducible first | intro _ | assumption | apply keeps_foldl | apply State.endOp_keeps)
    | split

theorem State.takeSegments_keeps {z : State} (s : State) (t : Team) (h : HgDesc) (h0 : Keeps z s) : Keeps z (State.takeSegments s t h).1 := by
  unfold State.takeSegments
  try dsimp only
  with_reducible repeat' first | intro _ | assumption | apply keeps_foldl | apply State.writeScratch_keeps

theorem State.setPresence_keeps {z : State} (s : State) (c : Cmd) (h0 : Keeps z s) : Keeps z (State.setPresence s c) := ⟨h0.1⟩

theorem State.clearPresence_keeps {z : State} (s : State) (c : Cmd) (h0 : Keeps z s) : Keeps z (State.clearPresence s c) := ⟨h0.1⟩

theorem State.landLines_keeps {z : State} (s : State) (c : Cmd) (h0 : Keeps z s) : Keeps z (State.landLines s c) := by
  unfold State.landLines
  try dsimp only
  repeat' first
    | with_reducible assumption
    | split
    | with_reducible (apply keeps_mk; apply keeps_kp; assumption)

theorem State.engineNote_keeps {z : State} (s : State) (ch : ℕ) (c : Cmd) (w : Bool) (pl : EPlace) (size : ℕ) (h0 : Keeps z s) : Keeps z (State.engineNote s ch c w pl size) := by
  unfold State.engineNote
  try dsimp only
  repeat' first
    | (with_reducible first | assumption | apply State.askOnce_keeps | apply State.noteXlate_keeps | apply State.touch_keeps)
    | split

theorem State.readVia_keeps {z : State} (s : State) (ch : ℕ) (c : Cmd) (pl : EPlace) (size : ℕ) (h0 : Keeps z s) : KeepsInr z (State.readVia s ch c pl size) := by
  unfold State.readVia
  try dsimp only
  repeat' first
    | with_reducible
        first
          | assumption | apply State.tryRequest_keeps | refine keeps_of_some ‹_› ?_ | apply keepsInr_inr | apply keepsInr_inl
    | split

theorem State.writeVia_keeps {z : State} (s : State) (ch : ℕ) (c : Cmd) (pl : EPlace) (size : ℕ) (x : ℕ) (h0 : Keeps z s) : KeepsInl z (State.writeVia s ch c pl size x) := by
  unfold State.writeVia
  try dsimp only
  repeat' first
    | with_reducible
        first
          | assumption | apply State.tryRequest_keeps | apply State.writeElem_keeps | refine keeps_of_some ‹_› ?_
          | refine keeps_of_ok ‹_› ?_ | apply keepsInl_inl | apply keepsInl_inr
    | split

theorem State.rowOf_keeps {z : State} (s : State) (ch : ℕ) (c : Cmd) (r : ℕ) (h0 : Keeps z s) : KeepsInr z (State.rowOf s ch c r) := by
  unfold State.rowOf
  try dsimp only
  repeat' first
    | (with_reducible first | assumption | apply State.readVia_keeps | apply keepsInr_inl)
    | split

theorem State.deliver_keeps {z : State} (s : State) (c : Cmd) (off : Nat) (size : Nat) (x : Nat) (h0 : Keeps z s) : KeepsOpt z (State.deliver s c off size x) := by
  unfold State.deliver
  refine keepsOpt_foldl (fun p q hp => ?_) (keepsOpt_some h0)
  split
  · have hs := hp _ rfl
    repeat' (first | apply keepsOpt_ite | split)
    all_goals first | exact keepsOpt_none | exact keepsOpt_some hs | exact keepsOpt_some (State.touch_keeps _ _ _ _ (State.writeScratch_keeps _ _ _ _ hs))
  · exact hp

theorem readRun_keeps {z : State} (ch : Nat) (c : Cmd) (row : Nat) (x0 : Nat) (x1 : Nat) (x2 : State) (h0 : Keeps z x2) : KeepsSum z (readRun ch c row x0 x1 x2) := by
  induction x1 generalizing x0 x2 with
  | zero => simp only [readRun]; exact keepsSum_inl h0
  | succ n ih =>
    simp only [readRun]
    split
    · next e => exact keepsSum_inr (State.readVia_keeps _ ch c _ c.sfmt.bytes h0 _ e)
    · have h1 := ih (x0 + 1) _ (State.engineNote_keeps x2 ch c false (x2.elemPlace c.tuid c.sspc c.sbase row c.sstride x0 c.sfmt.bytes)
        c.sfmt.bytes h0)
      split
      · next e => exact keepsSum_inr (h1.2 _ e)
      · next e => exact keepsSum_inl (p := (_, _)) (keeps_of_suml e h1)

theorem State.elemStep_keeps {z : State} (s : State) (ch : Nat) (c : Cmd) (h0 : Keeps z s) : Keeps z (State.elemStep s ch c).1 := by
  unfold State.elemStep
  dsimp only
  split
  · next e => exact State.rowOf_keeps _ _ _ _ h0 _ e
  · refine keepsFst_ite (State.startWake_keeps _ _ h0) ?_
    generalize e : readRun _ _ _ _ _ _ = r
    have hr := e ▸ readRun_keeps _ _ _ _ _ _ h0
    cases r with
    | inr x => exact hr.2 x rfl
    | inl x =>
      have h1 := hr.1 x rfl
      dsimp only
      cases hk : c.kind <;> dsimp only
      all_goals first
        | exact h1
        | (split
           · next e => exact State.engineNote_keeps _ _ _ _ _ _ (State.writeVia_keeps _ _ _ _ _ _ h1 _ e)
           · exact h1)
        | (split
           · next e => exact State.deliver_keeps _ _ _ _ _ h1 _ e
           · exact h1)

theorem State.runElems_keeps {z : State} (x0 : ℕ) (x1 : State) (x2 : ℕ) (x3 : Cmd) (h0 : Keeps z x1) : Keeps z (State.runElems x0 x1 x2 x3).1 := by
  induction x0 generalizing x1 x2 x3 with
  | zero =>
    unfold State.runElems
    try dsimp only
    with_reducible repeat' assumption
  | succ n ih =>
    unfold State.runElems
    try dsimp only
    repeat' first
      | (with_reducible first | assumption | apply State.elemStep_keeps | refine keeps_of_fst ‹_› ?_ | apply ih)
      | split

theorem State.restOfFailed_keeps {z : State} (x0 : ℕ) (x1 : State) (x2 : ℕ) (x3 : Cmd) (h0 : Keeps z x1) : Keeps z (State.restOfFailed x0 x1 x2 x3).1 := by
  induction x0 generalizing x1 x2 x3 with
  | zero =>
    unfold State.restOfFailed
    try dsimp only
    with_reducible repeat' assumption
  | succ n ih =>
    unfold State.restOfFailed
    try dsimp only
    repeat' first
      | (with_reducible first | assumption | apply State.elemStep_keeps | refine keeps_of_fst ‹_› ?_ | apply ih)
      | split

theorem State.failElems_keeps {z : State} (s : State) (ch : ℕ) (c : Cmd) (h0 : Keeps z s) : Keeps z (State.failElems s ch c) := by
  unfold State.failElems
  try dsimp only
  repeat' first
    | with_reducible
        first
          | intro _ | assumption | apply keeps_ite | apply keeps_foldl | apply State.restOfFailed_keeps | apply State.writeScratch_keeps
    | split

theorem State.cmdRecord_keeps {z : State} (s : State) (ch : Nat) (c : Cmd) (va : Nat) (n : Nat) (h0 : Keeps z s) : KeepsInr z (State.cmdRecord s ch c va n) := by
  unfold State.cmdRecord
  dsimp only
  split
  · next e h =>
    obtain ⟨i, -, hi⟩ := List.mem_map.1 (List.mem_of_find?_eq_some h)
    rw [← hi]
    repeat' split
    all_goals first | exact keepsInr_inl | exact keepsInr_inr h0 | exact keepsInr_inr (State.askRecord_keeps _ _ _ _ _ _ h0)
  · exact keepsInr_inl

theorem State.takeMerge_keeps {z : State} (s : State) (ch : ℕ) (c : Cmd) (h0 : Keeps z s) : Keeps z (State.takeMerge s ch c).1 := by
  unfold State.takeMerge
  try dsimp only
  repeat' first
    | with_reducible
        first
          | assumption | apply State.cmdRecord_keeps | apply State.dropRecs_keeps | apply State.startWake_keeps
          | apply State.takeSegments_keeps | refine keeps_of_inr ‹_› ?_
    | split

theorem State.captureMerges_keeps {z : State} (s : State) (tuid : ℕ) (h0 : Keeps z s) : Keeps z (State.captureMerges s tuid) := by
  unfold State.captureMerges
  try dsimp only
  repeat' first
    | with_reducible
        first
          | intro _ | assumption | apply keeps_ite | apply State.setChan_keeps | apply State.takeMerge_keeps | apply keeps_foldl
          | apply keepsFst_foldl
    | split

theorem State.latchHeads_keeps {z : State} (s : State) (h0 : Keeps z s) : Keeps z (State.latchHeads s) := ⟨h0.1⟩

theorem State.setHead_keeps {z : State} (s : State) (ch : ℕ) (c : Cmd) (h0 : Keeps z s) : Keeps z (State.setHead s ch c) := ⟨h0.1⟩

theorem State.abandon_keeps {z : State} (s : State) (ch : ℕ) (c : Cmd) (va : ℕ) (w : Bool) (h0 : Keeps z s) : Keeps z (State.abandon s ch c va w) := by
  unfold State.abandon
  try dsimp only
  with_reducible repeat' first | assumption | apply State.raiseEntry_keeps

theorem State.applyHead_keeps {z : State} (s : State) (ch : ℕ) (c : Cmd) (h0 : Keeps z s) : Keeps z (State.applyHead s ch c) := by
  unfold State.applyHead
  try dsimp only
  repeat' first
    | with_reducible
        first
          | assumption | apply State.abandon_keeps | apply State.applyStaged_keeps | apply State.setChan_keeps
          | apply State.setHead_keeps
    | split

theorem State.runHead_keeps {z : State} (s : State) (ch : ℕ) (n : ℕ) (k : CmdKind) (h0 : Keeps z s) : Keeps z (State.runHead s ch n k) := by
  unfold State.runHead
  try dsimp only
  repeat' first
    | with_reducible
        first
          | assumption | apply State.abandon_keeps | apply State.applyHead_keeps | apply State.failElems_keeps
          | apply State.landLines_keeps | apply State.runElems_keeps | apply State.setHead_keeps | apply State.setPresence_keeps
          | apply State.takeMerge_keeps
    | split

theorem State.endMcasts_keeps {z : State} (s : State) (ch : ℕ) (c : Cmd) (h0 : Keeps z s) : Keeps z (State.endMcasts s ch c) := ⟨h0.1⟩

theorem State.completeHead_keeps {z : State} (s : State) (ch : ℕ) (h0 : Keeps z s) : Keeps z (State.completeHead s ch) := by
  unfold State.completeHead
  try dsimp only
  repeat' first
    | with_reducible
        first
          | assumption | apply State.endMcasts_keeps | apply State.finishCmd_keeps | apply State.raiseEntry_keeps
          | apply State.setChan_keeps | apply State.setPresence_keeps
    | split

theorem State.discardHead_keeps {z : State} (s : State) (ch : ℕ) (h0 : Keeps z s) : Keeps z (State.discardHead s ch) := by
  unfold State.discardHead
  try dsimp only
  repeat' first
    | with_reducible
        first
          | assumption | apply State.endMcasts_keeps | apply State.finishCmd_keeps | apply State.setChan_keeps
          | apply State.setPresence_keeps
    | split

theorem State.unstage_keeps {z : State} (s : State) (ch : ℕ) (c : Cmd) (h0 : Keeps z s) : Keeps z (State.unstage s ch c) := ⟨h0.1⟩

theorem State.putStaged_keeps {z : State} (s : State) (ch : ℕ) (c : Cmd) (h0 : Keeps z s) : Keeps z (State.putStaged s ch c) := ⟨h0.1⟩

theorem State.endStaged_keeps {z : State} (s : State) (ch : ℕ) (c : Cmd) (h0 : Keeps z s) : Keeps z (State.endStaged s ch c) := by
  unfold State.endStaged
  try dsimp only
  repeat' first
    | with_reducible
        first
          | assumption | apply State.finishCmd_keeps | apply State.putStaged_keeps | apply State.raiseEntry_keeps
          | apply State.unstage_keeps
    | split

theorem State.applyStagedCmd_keeps {z : State} (s : State) (ch : ℕ) (c : Cmd) (h0 : Keeps z s) : Keeps z (State.applyStagedCmd s ch c) := by
  unfold State.applyStagedCmd
  try dsimp only
  repeat' first
    | with_reducible
        first
          | assumption | apply State.abandon_keeps | apply State.applyStaged_keeps | apply State.endStaged_keeps
          | apply State.putStaged_keeps
    | split

theorem State.applyInOrder_keeps {z : State} (x0 : List (ℕ × Cmd)) (x1 : State) (h0 : Keeps z x1) : Keeps z (State.applyInOrder x0 x1) := by
  induction x0 generalizing x1 with
  | nil =>
    unfold State.applyInOrder
    try dsimp only
    with_reducible repeat' assumption
  | cons y ys ih =>
    unfold State.applyInOrder
    try dsimp only
    repeat' first
      | (with_reducible first | assumption | apply State.applyStagedCmd_keeps | apply ih)
      | split

theorem State.applyGroupStaged_keeps {z : State} (s : State) (gk : ℕ) (h0 : Keeps z s) : Keeps z (State.applyGroupStaged s gk) := by
  unfold State.applyGroupStaged
  try dsimp only
  repeat' first
    | with_reducible apply State.applyInOrder_keeps
    | split
    | with_reducible (apply keeps_mk; apply keeps_kp; assumption)

theorem State.withdrawCmd_keeps {z : State} (s : State) (ch : ℕ) (c : Cmd) (h0 : Keeps z s) : Keeps z (State.withdrawCmd s ch c) := by
  unfold State.withdrawCmd
  try dsimp only
  with_reducible repeat' first | assumption | apply State.finishCmd_keeps | apply State.setPresence_keeps | apply State.withdraw_keeps

theorem State.discardRegion_keeps {z : State} (s : State) (gk : ℕ) (depth : ℕ) (h0 : Keeps z s) : Keeps z (State.discardRegion s gk depth) := by
  unfold State.discardRegion
  try dsimp only
  with_reducible
    repeat' first
      | intro _ | assumption | apply keeps_ite | apply keeps_foldl | apply State.setChan_keeps | apply State.withdrawCmd_keeps

theorem State.discardTeamStaged_keeps {z : State} (s : State) (tuid : ℕ) (h0 : Keeps z s) : Keeps z (State.discardTeamStaged s tuid) := by
  unfold State.discardTeamStaged
  try dsimp only
  with_reducible
    repeat' first
      | intro _ | assumption | apply keeps_ite | apply keeps_foldl | apply State.finishCmd_keeps | apply State.setChan_keeps

theorem State.lowerRegions_keeps {z : State} (s : State) (gk : ℕ) (depth : ℕ) (h0 : Keeps z s) : Keeps z (State.lowerRegions s gk depth) := ⟨h0.1⟩

theorem State.discardUnresolved_keeps {z : State} (s : State) (gk : ℕ) (h0 : Keeps z s) : Keeps z (State.discardUnresolved s gk) := ⟨h0.1⟩

theorem State.replayCmd_keeps {z : State} (s : State) (ch : ℕ) (num : ℕ) (h0 : Keeps z s) : Keeps z (State.replayCmd s ch num) := ⟨h0.1⟩

theorem State.runLate_keeps {z : State} (s : State) (ch : ℕ) (h0 : Keeps z s) : Keeps z (State.runLate s ch) := by
  unfold State.runLate
  try dsimp only
  repeat' first
    | (with_reducible first | assumption | apply State.applyStagedCmd_keeps)
    | split

theorem State.freeBank_keeps {z : State} (s : State) (b : ℕ) (h0 : Keeps z s) : Keeps z (State.freeBank s b) := ⟨h0.1⟩

theorem State.takeBank_keeps {z : State} (s : State) (b : ℕ) (m : BMode) (o : Owner) (h0 : Keeps z s) : Keeps z (State.takeBank s b m o) := ⟨h0.1⟩

theorem State.writeVirtual_keeps {z : State} (s : State) (tag : ℕ) (base : ℕ) (tuid : ℕ) (k : ℕ) (h0 : Keeps z s) : Keeps z (State.writeVirtual s tag base tuid k) := by
  unfold State.writeVirtual
  try dsimp only
  with_reducible repeat' first | assumption | apply State.writeBytes_keeps

theorem State.writeImage_keeps {z : State} (s : State) (core : ℕ) (classH : Bool) (tag : ℕ) (base : ℕ) (n : ℕ) (h0 : Keeps z s) : Keeps z (State.writeImage s core classH tag base n).1 := by
  unfold State.writeImage
  try dsimp only
  with_reducible repeat' first | assumption | apply State.askHome_keeps | apply State.putBlob_keeps

theorem State.writeQueue_keeps {z : State} (s : State) (tuid : ℕ) (k : ℕ) (h0 : Keeps z s) : Keeps z (State.writeQueue s tuid k) := by
  unfold State.writeQueue
  try dsimp only
  repeat' first
    | (with_reducible first | assumption | apply State.writeImage_keeps | apply State.writeVirtual_keeps)
    | split

theorem State.writeQueues_keeps {z : State} (s : State) (tuid : ℕ) (h0 : Keeps z s) : Keeps z (State.writeQueues s tuid) := by
  unfold State.writeQueues
  try dsimp only
  with_reducible repeat' first | intro _ | assumption | apply keeps_foldl | apply State.writeQueue_keeps

theorem State.writeSpill_keeps {z : State} (s : State) (tuid : ℕ) (h0 : Keeps z s) : Keeps z (State.writeSpill s tuid) := by
  unfold State.writeSpill
  try dsimp only
  repeat' first
    | (with_reducible first | assumption | apply State.updTeam_keeps | apply State.writeImage_keeps)
    | split

theorem State.closeRegion_keeps {z : State} (s : State) (gk : ℕ) (h0 : Keeps z s) : Keeps z (State.closeRegion s gk) := by
  unfold State.closeRegion
  try dsimp only
  repeat' first
    | with_reducible
        first
          | assumption | apply State.applyGroupStaged_keeps | apply State.lowerRegions_keeps | apply State.updGroup_keeps
    | split

theorem State.retryCmds_keeps {z : State} (s : State) (tuid : ℕ) (h0 : Keeps z s) : Keeps z (State.retryCmds s tuid) := ⟨h0.1⟩

theorem State.dropEntries_keeps {z : State} (s : State) (tuid : ℕ) (h0 : Keeps z s) : Keeps z (State.dropEntries s tuid) := by
  unfold State.dropEntries
  try dsimp only
  repeat' first
    | (with_reducible first | assumption | apply State.dropOutstanding_keeps | apply State.retryCmds_keeps)
    | split

theorem State.stopTeam_keeps {z : State} (s : State) (tuid : ℕ) (h0 : Keeps z s) : Keeps z (State.stopTeam s tuid) := by
  unfold State.stopTeam
  try dsimp only
  with_reducible
    repeat' first
      | intro _ | assumption | apply keeps_foldl | apply State.closeRegion_keeps | apply State.dropEntries_keeps
      | apply State.updGroup_keeps

theorem State.evictTeam_keeps {z : State} (s : State) (tuid : ℕ) (h0 : Keeps z s) : Keeps z (State.evictTeam s tuid) := by
  unfold State.evictTeam
  try dsimp only
  with_reducible
    repeat' first
      | intro _ | assumption | apply keeps_foldl | apply State.endOps_keeps | apply State.grantHeld_keeps | apply State.stopTeam_keeps
      | apply State.updGroup_keeps | apply State.updTeam_keeps | apply State.writeQueues_keeps | apply State.writeSpill_keeps

theorem State.reclaimTeam_keeps {z : State} (s : State) (tuid : ℕ) (h0 : Keeps z s) : Keeps z (State.reclaimTeam s tuid) := by
  unfold State.reclaimTeam
  try dsimp only
  repeat' first
    | (with_reducible first | intro _ | assumption | apply State.freeBank_keeps | apply State.updTeam_keeps)
    | with_reducible (apply keeps_mk; apply keeps_kp; apply keeps_foldl)

theorem State.giveBanks_keeps {z : State} (s : State) (l : Launch) (tuid : ℕ) (cl : ℕ) (h0 : Keeps z s) : Keeps z (State.giveBanks s l tuid cl).1 := by
  unfold State.giveBanks
  try dsimp only
  with_reducible repeat' first | intro _ | assumption | apply State.takeBank_keeps | apply keeps_foldl | apply keepsFst_foldl

theorem State.serveBank_keeps {z : State} (s : State) (b : ℕ) (h0 : Keeps z s) : Keeps z (State.serveBank s b) := by
  unfold State.serveBank
  try dsimp only
  repeat' first
    | (with_reducible first | assumption | apply State.setBank_keeps)
    | split

theorem State.placeOn_keeps {z : State} (s : State) (lid : ℕ) (core : ℕ) (out : List ℕ) (rec : List ℕ) (h0 : Keeps z s) : Keeps z (State.placeOn s lid core out rec) := by
  unfold State.placeOn
  try dsimp only
  repeat' first
    | with_reducible
        first
          | intro _ | assumption | apply keeps_foldl | apply State.evictTeam_keeps | apply State.giveBanks_keeps
          | apply State.reclaimTeam_keeps | apply State.serveBank_keeps | apply State.updLaunch_keeps
    | split
    | with_reducible (apply keeps_mk; apply keeps_kp; apply keeps_foldl)

theorem State.placeNext_keeps {z : State} (s : State) (lid : ℕ) (h0 : Keeps z s) : KeepsOpt z (State.placeNext s lid) := by
  unfold State.placeNext
  try dsimp only
  repeat' first
    | (with_reducible first | assumption | apply State.placeOn_keeps | apply keepsOpt_some | apply keepsOpt_none)
    | split

theorem State.placeMany_keeps {z : State} (x0 : ℕ) (x1 : State) (x2 : ℕ) (h0 : Keeps z x1) : Keeps z (State.placeMany x0 x1 x2) := by
  induction x0 generalizing x1 x2 with
  | zero =>
    unfold State.placeMany
    try dsimp only
    with_reducible repeat' assumption
  | succ n ih =>
    unfold State.placeMany
    try dsimp only
    repeat' first
      | (with_reducible first | assumption | apply State.placeNext_keeps | refine keeps_of_some ‹_› ?_ | apply ih)
      | split

theorem State.writeRange_keeps {z : State} (s : State) (l : Launch) (t : Team) (a : ℕ) (b : ℕ) (first : Bool) (last : Bool) (h0 : Keeps z s) : Keeps z (State.writeRange s l t a b first last) := by
  unfold State.writeRange
  try dsimp only
  with_reducible repeat' first | assumption | apply State.writeScratch_keeps

theorem State.giveRanges_keeps {z : State} (s : State) (lid : ℕ) (h0 : Keeps z s) : Keeps z (State.giveRanges s lid) := by
  unfold State.giveRanges
  try dsimp only
  repeat' first
    | (with_reducible first | intro _ | assumption | apply keeps_foldl | apply State.writeRange_keeps)
    | split

theorem State.placeLaunch_keeps {z : State} (s : State) (lid : ℕ) (h0 : Keeps z s) : KeepsOpt z (State.placeLaunch s lid) := by
  unfold State.placeLaunch
  try dsimp only
  repeat' first
    | with_reducible
        first
          | assumption | apply keepsOpt_ite | apply State.giveRanges_keeps | apply State.placeMany_keeps | apply State.placeNext_keeps
          | apply State.updLaunch_keeps | apply keepsOpt_some | apply keepsOpt_none
    | split

theorem State.placeFirst_keeps {z : State} (s : State) (x0 : List (ℕ × Launch)) (h0 : Keeps z s) : KeepsOpt z (State.placeFirst s x0) := by
  induction x0 generalizing s with
  | nil =>
    unfold State.placeFirst
    try dsimp only
    with_reducible repeat' apply keepsOpt_none
  | cons y ys ih =>
    unfold State.placeFirst
    try dsimp only
    repeat' first
      | with_reducible
          first
            | assumption | apply State.placeLaunch_keeps | apply keepsOpt_some | refine keeps_of_some ‹_› ?_ | apply ih
      | split

theorem State.wakeSlice_keeps {z : State} (s : State) (sl : ℕ) (h0 : Keeps z s) : Keeps z (State.wakeSlice s sl) := by
  unfold State.wakeSlice
  try dsimp only
  repeat' first
    | with_reducible assumption
    | split
    | with_reducible (apply keeps_mk; apply keeps_kp; assumption)

theorem State.phaseSlices_keeps {z : State} (s : State) (tuid : ℕ) (h0 : Keeps z s) : Keeps z (State.phaseSlices s tuid) := by
  unfold State.phaseSlices
  try dsimp only
  with_reducible repeat' first | intro _ | assumption | apply keeps_ite | apply keeps_foldl | apply State.wakeSlice_keeps

theorem State.wakeTeam_keeps {z : State} (s : State) (tuid : ℕ) (h0 : Keeps z s) : Keeps z (State.wakeTeam s tuid) := by
  unfold State.wakeTeam
  try dsimp only
  with_reducible repeat' first | assumption | apply State.phaseSlices_keeps | apply State.startWake_keeps

theorem State.withdrawArrivals_keeps {z : State} (s : State) (tuid : ℕ) (h0 : Keeps z s) : Keeps z (State.withdrawArrivals s tuid) := by
  unfold State.withdrawArrivals
  try dsimp only
  repeat' first
    | (with_reducible first | assumption | apply State.updLaunch_keeps | apply State.updTeam_keeps)
    | split

theorem State.proxyTest_keeps {z : State} (s : State) (tuid : ℕ) (h0 : Keeps z s) : Keeps z (State.proxyTest s tuid) := by
  unfold State.proxyTest
  try dsimp only
  with_reducible repeat' first | intro _ | assumption | apply keeps_foldl | apply State.testEvents_keeps

theorem State.acquireTeam_keeps {z : State} (s : State) (tuid : ℕ) (h0 : Keeps z s) : Keeps z (State.acquireTeam s tuid) := by
  unfold State.acquireTeam
  try dsimp only
  with_reducible repeat' first | intro _ | assumption | apply keeps_foldl | apply State.updGroup_keeps

theorem State.readSpill_keeps {z : State} (s : State) (tuid : ℕ) (h0 : Keeps z s) : Keeps z (State.readSpill s tuid) := by
  unfold State.readSpill
  try dsimp only
  repeat' first
    | (with_reducible first | assumption | apply State.askHome_keeps)
    | split

theorem State.restartTeam_keeps {z : State} (s : State) (tuid : ℕ) (core : ℕ) (l : Launch) (h0 : Keeps z s) : Keeps z (State.restartTeam s tuid core l) := by
  unfold State.restartTeam
  try dsimp only
  with_reducible
    repeat' first
      | intro _ | assumption | apply keeps_foldl | apply State.acquireTeam_keeps | apply State.discardRegion_keeps
      | apply State.giveBanks_keeps | apply State.grantHeld_keeps | apply State.updGroup_keeps | apply State.updTeam_keeps
      | apply State.wakeTeam_keeps | apply State.withdrawArrivals_keeps

theorem State.returnTeam_keeps {z : State} (s : State) (tuid : ℕ) (core : ℕ) (h0 : Keeps z s) : Keeps z (State.returnTeam s tuid core) := by
  unfold State.returnTeam
  try dsimp only
  with_reducible
    repeat' first
      | assumption | apply State.acquireTeam_keeps | apply State.grantHeld_keeps | apply State.updTeam_keeps
      | apply State.wakeTeam_keeps

theorem State.releaseRecord_keeps {z : State} (s : State) (gk : ℕ) (k : ℕ) (h0 : Keeps z s) : Keeps z (State.releaseRecord s gk k) := by
  unfold State.releaseRecord
  try dsimp only
  repeat' first
    | (with_reducible first | assumption | apply State.passLanes_keeps | apply State.updGroup_keeps)
    | split

theorem State.releaseSync_keeps {z : State} (s : State) (gk : ℕ) (h0 : Keeps z s) : Keeps z (State.releaseSync s gk) := by
  unfold State.releaseSync
  try dsimp only
  repeat' first
    | (with_reducible first | assumption | apply State.acquire_keeps | apply State.passLanes_keeps | apply State.updGroup_keeps)
    | split

theorem State.settle_keeps {z : State} (s : State) (gk : ℕ) (h0 : Keeps z s) : Keeps z (State.settle s gk) := by
  unfold State.settle
  try dsimp only
  with_reducible
    repeat' first
      | intro _ | assumption | apply keeps_foldl | apply State.releaseRecord_keeps | apply State.releaseSync_keeps

theorem State.settleBars_keeps {z : State} (s : State) (gk : ℕ) (h0 : Keeps z s) : Keeps z (State.settleBars s gk) := by
  unfold State.settleBars
  try dsimp only
  repeat' first
    | (with_reducible first | assumption | apply State.passLanes_keeps)
    | split

theorem State.settleExit_keeps {z : State} (s : State) (gk : ℕ) (h0 : Keeps z s) : Keeps z (State.settleExit s gk) := by
  unfold State.settleExit
  try dsimp only
  with_reducible
    repeat' first
      | intro _ | assumption | apply keeps_foldl | apply State.settleBars_keeps | apply State.settle_keeps | apply State.wakeTlOf_keeps

theorem State.settleLate_keeps {z : State} (s : State) (gk : ℕ) (h0 : Keeps z s) : Keeps z (State.settleLate s gk) := by
  unfold State.settleLate
  try dsimp only
  repeat' first
    | (with_reducible first | assumption | apply State.settleExit_keeps)
    | split

theorem State.trapGroup_keeps {z : State} (s : State) (gk : ℕ) (cause : Cause) (h0 : Keeps z s) : Keeps z (State.trapGroup s gk cause) := by
  unfold State.trapGroup
  try dsimp only
  repeat' first
    | (with_reducible first | assumption | apply State.takeFault_keeps)
    | split

theorem State.gangExit_keeps {z : State} (s : State) (tuid : ℕ) (m : Mask) (h0 : Keeps z s) : Keeps z (State.gangExit s tuid m) := by
  unfold State.gangExit
  try dsimp only
  repeat' first
    | (with_reducible first | intro _ | assumption | apply keeps_foldl | apply State.takeFault_keeps | apply State.updGroup_keeps)
    | split

theorem State.formExit_keeps {z : State} (s : State) (tuid : ℕ) (g : ℕ) (h0 : Keeps z s) : Keeps z (State.formExit s tuid g) := by
  unfold State.formExit
  try dsimp only
  repeat' first
    | with_reducible
        first
          | intro _ | assumption | apply keeps_ite | apply keeps_foldl | apply State.trapGroup_keeps | apply State.updGroup_keeps
    | split

theorem State.leaveGang_keeps {z : State} (s : State) (gk : ℕ) (h0 : Keeps z s) : Keeps z (State.leaveGang s gk) := by
  unfold State.leaveGang
  try dsimp only
  repeat' first
    | with_reducible
        first
          | intro _ | assumption | apply keeps_ite | apply keeps_foldl | apply State.gangExit_keeps | apply State.updGroup_keeps
          | apply State.updTeam_keeps
    | split

theorem State.finishGrow_keeps {z : State} (s : State) (gk : ℕ) (ok : Bool) (gst : ℕ) (h0 : Keeps z s) : Keeps z (State.finishGrow s gk ok gst) := by
  unfold State.finishGrow
  try dsimp only
  repeat' first
    | (with_reducible first | assumption | apply State.repath_keeps | apply State.updGroup_keeps)
    | split

theorem State.grantGrows_keeps {z : State} (x0 : ℕ) (x1 : State) (x2 : ℕ) (x3 : ℕ) (h0 : Keeps z x1) : Keeps z (State.grantGrows x0 x1 x2 x3) := by
  induction x0 generalizing x1 x2 x3 with
  | zero =>
    unfold State.grantGrows
    try dsimp only
    with_reducible repeat' assumption
  | succ n ih =>
    unfold State.grantGrows
    try dsimp only
    repeat' first
      | with_reducible
          first
            | intro _ | assumption | apply keeps_foldl | apply State.evictTeam_keeps | apply State.finishGrow_keeps | apply ih
      | split

theorem State.growDeadlock_keeps {z : State} (s : State) (core : ℕ) (ip : ℕ) (h0 : Keeps z s) : Keeps z (State.growDeadlock s core ip) := by
  unfold State.growDeadlock
  try dsimp only
  repeat' first
    | (with_reducible first | assumption | apply State.finishGrow_keeps)
    | split

theorem State.growStep_keeps {z : State} (s : State) (core : ℕ) (ip : ℕ) (h0 : Keeps z s) : Keeps z (State.growStep s core ip) := by
  unfold State.growStep
  try dsimp only
  with_reducible repeat' first | assumption | apply State.grantGrows_keeps | apply State.growDeadlock_keeps

theorem State.coreTick_keeps {z : State} (s : State) (core : ℕ) (h0 : Keeps z s) : Keeps z (State.coreTick s core) := by
  unfold State.coreTick
  try dsimp only
  with_reducible
    repeat' first
      | intro _ | assumption | apply keeps_ite | apply keeps_foldl | apply State.grantHeld_keeps | apply State.growStep_keeps

theorem State.setQueue_keeps {z : State} (s : State) (p : ℕ) (q : ℕ) (x : Queue) (h0 : Keeps z s) : Keeps z (State.setQueue s p q x) := ⟨h0.1⟩

theorem State.endNum_keeps {z : State} (s : State) (p : ℕ) (q : ℕ) (num : ℕ) (h0 : Keeps z s) : Keeps z (State.endNum s p q num) := ⟨h0.1⟩

theorem State.writeStream_keeps {z : State} (s : State) (e : ℕ) (h0 : Keeps z s) : Keeps z (State.writeStream s e) := by
  unfold State.writeStream
  try dsimp only
  with_reducible repeat' first | assumption | apply State.writeBytes_keeps

theorem State.updStream_keeps {z : State} (s : State) (e : ℕ) (f : Stream → Stream) (h0 : Keeps z s) : Keeps z (State.updStream s e f) := by
  unfold State.updStream
  try dsimp only
  with_reducible repeat' first | assumption | apply State.setStream_keeps | apply State.writeStream_keeps

theorem State.endLaunch_keeps {z : State} (s : State) (lid : ℕ) (h0 : Keeps z s) : Keeps z (State.endLaunch s lid) := by
  unfold State.endLaunch
  try dsimp only
  repeat' first
    | (with_reducible first | assumption | apply State.endNum_keeps | apply State.updLaunch_keeps | apply State.updStream_keeps)
    | split

theorem State.checkLaunch_keeps {z : State} (s : State) (lid : ℕ) (h0 : Keeps z s) : Keeps z (State.checkLaunch s lid) := by
  unfold State.checkLaunch
  try dsimp only
  repeat' first
    | (with_reducible first | assumption | apply State.endLaunch_keeps)
    | split

theorem State.steal_keeps {z : State} (s : State) (lid : ℕ) (core : ℕ) (h0 : Keeps z s) : Keeps z (State.steal s lid core) := by
  unfold State.steal
  try dsimp only
  repeat' first
    | (with_reducible first | assumption | apply State.placeOn_keeps | apply State.updLaunch_keeps | apply State.writeRange_keeps)
    | split

theorem State.scratchReport_keeps {z : State} (s : State) (tuid : ℕ) (h0 : Keeps z s) : Keeps z (State.scratchReport s tuid) := by
  unfold State.scratchReport
  try dsimp only
  repeat' first
    | (with_reducible first | assumption | apply State.raiseEntry_keeps)
    | split

theorem State.returnBanks_keeps {z : State} (s : State) (tuid : ℕ) (h0 : Keeps z s) : Keeps z (State.returnBanks s tuid) := by
  unfold State.returnBanks
  try dsimp only
  with_reducible repeat' first | intro _ | assumption | apply keeps_foldl | apply State.freeBank_keeps | apply State.updTeam_keeps

theorem State.endTeam_keeps {z : State} (s : State) (tuid : ℕ) (h0 : Keeps z s) : Keeps z (State.endTeam s tuid) := by
  unfold State.endTeam
  try dsimp only
  repeat' first
    | with_reducible
        first
          | assumption | apply State.captureMerges_keeps | apply State.checkLaunch_keeps | apply State.returnBanks_keeps
          | apply State.scratchReport_keeps | apply State.steal_keeps | apply State.updLaunch_keeps | apply State.updTeam_keeps
    | split

theorem State.endGroup_keeps {z : State} (s : State) (gk : ℕ) (h0 : Keeps z s) : Keeps z (State.endGroup s gk) := by
  unfold State.endGroup
  try dsimp only
  repeat' first
    | with_reducible
        first
          | assumption | apply State.applyGroupStaged_keeps | apply State.discardUnresolved_keeps | apply State.endTeam_keeps
          | apply State.formExit_keeps | apply State.grantHeld_keeps | apply State.growStep_keeps | apply State.leaveGang_keeps
          | apply State.lowerRegions_keeps | apply State.updGroup_keeps
    | split

theorem State.exitLanes_keeps {z : State} (s : State) (gk : ℕ) (m : Mask) (h0 : Keeps z s) : Keeps z (State.exitLanes s gk m) := by
  unfold State.exitLanes
  try dsimp only
  repeat' first
    | with_reducible
        first
          | assumption | apply State.endGroup_keeps | apply State.grantHeld_keeps | apply State.settleLate_keeps
          | apply State.updGroup_keeps
    | split

theorem State.switchOff_keeps {z : State} (s : State) (gk : ℕ) (m : Mask) (why : ℕ → ℕ) (h0 : Keeps z s) : Keeps z (State.switchOff s gk m why) := by
  unfold State.switchOff
  try dsimp only
  repeat' first
    | (with_reducible first | assumption | apply State.exitLanes_keeps | apply State.updGroup_keeps)
    | split

theorem State.killTeam_keeps {z : State} (s : State) (tuid : ℕ) (h0 : Keeps z s) : Keeps z (State.killTeam s tuid) := by
  unfold State.killTeam
  try dsimp only
  repeat' first
    | with_reducible
        first
          | intro _ | assumption | apply keeps_ite | apply keeps_foldl | apply State.discardUnresolved_keeps | apply State.endTeam_keeps
          | apply State.grantHeld_keeps | apply State.growStep_keeps | apply State.stopTeam_keeps | apply State.updGroup_keeps
    | split
    | with_reducible (apply keeps_mk; apply keeps_kp; apply State.discardTeamStaged_keeps)

theorem State.discardTeamCmds_keeps {z : State} (s : State) (tuid : ℕ) (h0 : Keeps z s) : Keeps z (State.discardTeamCmds s tuid) := ⟨h0.1⟩

theorem State.killLaunch_keeps {z : State} (s : State) (lid : ℕ) (h0 : Keeps z s) : Keeps z (State.killLaunch s lid) := by
  unfold State.killLaunch
  try dsimp only
  with_reducible
    repeat' first
      | intro _ | assumption | apply keeps_foldl | apply State.checkLaunch_keeps | apply State.discardTeamCmds_keeps
      | apply State.killTeam_keeps | apply State.updLaunch_keeps

theorem State.teamEntry_keeps {z : State} (s : State) (tuid : ℕ) (i : FInfo) (h0 : Keeps z s) : Keeps z (State.teamEntry s tuid i) := by
  unfold State.teamEntry
  try dsimp only
  repeat' first
    | (with_reducible first | assumption | apply State.raiseEntry_keeps)
    | split

theorem State.parkFor_keeps {z : State} (s : State) (gk : ℕ) (p : Park) (h0 : Keeps z s) : Keeps z (State.parkFor s gk p) := by
  unfold State.parkFor
  try dsimp only
  repeat' first
    | (with_reducible first | assumption | apply State.startWake_keeps | apply State.updGroup_keeps)
    | split

theorem Ctx.askRecords_keeps {z : State} (c : Ctx) (xs : List (ℕ × ℕ × ℕ × ℕ)) (s : State) (h0 : Keeps z s) : Keeps z (Ctx.askRecords c xs s) := by
  unfold Ctx.askRecords
  try dsimp only
  with_reducible repeat' first | intro _ | assumption | apply keeps_foldl | apply State.askRecord_keeps | apply State.updGroup_keeps

theorem Ctx.sees_keeps {z : State} (c : Ctx) (l : ℕ) (moment : ℕ) (s : State) (h0 : Keeps z s) : Keeps z (Ctx.sees c l moment s) := by
  unfold Ctx.sees
  try dsimp only
  repeat' first
    | (with_reducible first | assumption | apply State.updGroup_keeps)
    | split

theorem State.fillCache_keeps {z : State} (s : State) (core : ℕ) (classH : Bool) (tag : ℕ) (line : ℕ) (h0 : Keeps z s) : Keeps z (State.fillCache s core classH tag line) := by
  unfold State.fillCache
  try dsimp only
  repeat' first
    | (with_reducible first | assumption | apply State.askWrite_keeps | apply State.setBank_keeps)
    | split

theorem Ctx.lookUp_keeps {z : State} (c : Ctx) (s : State) (x : ℕ × ℕ) (h0 : Keeps z s) : Keeps z (Ctx.lookUp c s x) := by
  unfold Ctx.lookUp
  try dsimp only
  repeat' first
    | (with_reducible first | assumption | apply State.askHome_keeps | apply State.fillCache_keeps | apply State.setBank_keeps)
    | split

theorem State.dropCopies_keeps {z : State} (s : State) (cl : ℕ) (line : ℕ) (h0 : Keeps z s) : Keeps z (State.dropCopies s cl line) := by
  unfold State.dropCopies
  try dsimp only
  repeat' first
    | (with_reducible first | intro _ | assumption | apply keeps_ite | apply keeps_foldl | apply State.setBank_keeps)
    | split

theorem State.syncClock_keeps {z : State} (s : State) (cl : ℕ) (h0 : Keeps z s) : Keeps z (State.syncClock s cl) := ⟨h0.1⟩

theorem Ctx.refuse_keeps {z : State} (c : Ctx) (cause : Cause) (s : State) (h0 : Keeps z s) : Keeps z (Ctx.refuse c cause s) := by
  unfold Ctx.refuse
  try dsimp only
  repeat' first
    | (with_reducible first | assumption | apply Ctx.trap_keeps | apply State.exitLanes_keeps)
    | split

theorem issue_keeps {z : State} (i : Instr) (s : State) (k : Ctx → Mask → State → State) (h0 : Keeps z s) (h1 : ∀ y0 y1 y2, Keeps z y2 → Keeps z (k y0 y1 y2)) : KeepsOut z (issue i s k) := by
  unfold issue
  try dsimp only
  repeat' first
    | (with_reducible first | assumption | apply keepsOut_next | apply keepsOut_fault | apply Ctx.refuse_keeps | apply h1)
    | split

theorem issueMem_keeps {z : State} (i : Instr) (s : State) (k : Ctx → Mask → State → State) (h0 : Keeps z s) (h1 : ∀ y0 y1 y2, Keeps z y2 → Keeps z (k y0 y1 y2)) : KeepsOut z (issueMem i s k) := by
  unfold issueMem
  try dsimp only
  repeat' first
    | with_reducible
        first
          | intro _ | assumption | apply keepsOut_next | apply keepsOut_fault | apply issue_keeps | apply h1
          | refine keeps_of_next ‹_› ?_
    | split

theorem Ctx.tagWrites_keeps {z : State} (c : Ctx) (i : Instr) (act : Mask) (s : State) (h0 : Keeps z s) : Keeps z (Ctx.tagWrites c i act s) := by
  unfold Ctx.tagWrites
  try dsimp only
  repeat' first
    | (with_reducible first | assumption | apply State.updGroup_keeps)
    | split
    | with_reducible (apply keeps_mk; apply keeps_kp; assumption)

theorem laneOp_keeps {z : State} (i : Instr) (s : State) (f : Ctx → ℕ → Wr) (h0 : Keeps z s) : KeepsOut z (laneOp i s f) := by
  unfold laneOp
  try dsimp only
  with_reducible
    repeat' first
      | intro _ | assumption | apply Ctx.advance_keeps | apply Ctx.tagWrites_keeps | apply State.writeLanes_keeps | apply issue_keeps

theorem Ctx.trapOr_keeps {z : State} (c : Ctx) (i : Instr) (cause : Cause) (lm : Mask) (s : State) (h0 : Keeps z s) : Keeps z (Ctx.trapOr c i cause lm s) := by
  unfold Ctx.trapOr
  try dsimp only
  repeat' first
    | (with_reducible first | assumption | apply Ctx.advance_keeps | apply Ctx.trap_keeps)
    | split

theorem groupOpG_keeps {z : State} (i : Instr) (s : State) (k : Ctx → Bool → State → State) (h0 : Keeps z s) (h1 : ∀ y0 y1 y2, Keeps z y2 → Keeps z (k y0 y1 y2)) : KeepsOut z (groupOpG i s k) := by
  unfold groupOpG
  try dsimp only
  with_reducible repeat' first | intro _ | assumption | apply keeps_ite | apply h1 | apply Ctx.trapOr_keeps | apply issueMem_keeps

theorem groupOp_keeps {z : State} (i : Instr) (s : State) (k : Ctx → State → State) (h0 : Keeps z s) (h1 : ∀ y0 y1, Keeps z y1 → Keeps z (k y0 y1)) : KeepsOut z (groupOp i s k) := by
  unfold groupOp
  try dsimp only
  with_reducible repeat' first | intro _ | assumption | apply keeps_ite | apply h1 | apply Ctx.advance_keeps | apply groupOpG_keeps

theorem Ctx.startPend_keeps {z : State} (c : Ctx) (i : Instr) (ls : List PLane) (s : State) (h0 : Keeps z s) : Keeps z (Ctx.startPend c i ls s) := by
  unfold Ctx.startPend
  try dsimp only
  repeat' first
    | (with_reducible first | assumption | apply State.updGroup_keeps)
    | split

theorem longOp_keeps {z : State} (i : Instr) (la : BitVec 4) (s : State) (f : Ctx → ℕ → Wr) (h0 : Keeps z s) : KeepsOut z (longOp i la s f) := by
  unfold longOp
  try dsimp only
  with_reducible repeat' first | intro _ | assumption | apply Ctx.advance_keeps | apply Ctx.startPend_keeps | apply issue_keeps

theorem Ctx.waitLanes_keeps {z : State} (c : Ctx) (i : Instr) (m : Mask) (f : Lane → Lane) (s : State) (h0 : Keeps z s) : Keeps z (Ctx.waitLanes c i m f s) := ⟨h0.1⟩

theorem Ctx.holdLanes_keeps {z : State} (c : Ctx) (m : Mask) (w : LaneWait) (s : State) (h0 : Keeps z s) : Keeps z (Ctx.holdLanes c m w s) := ⟨h0.1⟩

theorem Ctx.moveSome_keeps {z : State} (c : Ctx) (i : Instr) (m : Mask) (s : State) (h0 : Keeps z s) : Keeps z (Ctx.moveSome c i m s) := by
  unfold Ctx.moveSome
  try dsimp only
  repeat' first
    | (with_reducible first | assumption | apply State.grantHeld_keeps | apply State.repath_keeps | apply State.updGroup_keeps)
    | split

theorem Ctx.waitAll_keeps {z : State} (c : Ctx) (i : Instr) (act : Mask) (f : Lane → Lane) (s : State) (h0 : Keeps z s) : Keeps z (Ctx.waitAll c i act f s) := by
  unfold Ctx.waitAll
  try dsimp only
  with_reducible repeat' first | assumption | apply Ctx.moveSome_keeps | apply Ctx.waitLanes_keeps

theorem execIadd_keeps {z : State} (h : Hdr) (ty : Sys2Proof.Ty) (sat : Bool) (d : Reg) (a : Reg) (b : SrcB) (s : State) (h0 : Keeps z s) : KeepsOut z (execIadd h ty sat d a b s) := by
  unfold execIadd
  try dsimp only
  with_reducible repeat' first | assumption | apply laneOp_keeps

theorem execIsub_keeps {z : State} (h : Hdr) (ty : Sys2Proof.Ty) (sat : Bool) (d : Reg) (a : Reg) (b : SrcB) (s : State) (h0 : Keeps z s) : KeepsOut z (execIsub h ty sat d a b s) := by
  unfold execIsub
  try dsimp only
  with_reducible repeat' first | assumption | apply laneOp_keeps

theorem execImul_keeps {z : State} (h : Hdr) (ty : Sys2Proof.Ty) (sat : Bool) (d : Reg) (a : Reg) (b : SrcB) (s : State) (h0 : Keeps z s) : KeepsOut z (execImul h ty sat d a b s) := by
  unfold execImul
  try dsimp only
  with_reducible repeat' first | assumption | apply laneOp_keeps

theorem execImulhi_keeps {z : State} (h : Hdr) (ty : Sys2Proof.Ty) (d : Reg) (a : Reg) (b : SrcB) (s : State) (h0 : Keeps z s) : KeepsOut z (execImulhi h ty d a b s) := by
  unfold execImulhi
  try dsimp only
  with_reducible repeat' first | assumption | apply laneOp_keeps

theorem execImad_keeps {z : State} (h : Hdr) (ty : Sys2Proof.Ty) (sat : Bool) (d : Reg) (a : Reg) (b : Reg) (x : Reg) (s : State) (h0 : Keeps z s) : KeepsOut z (execImad h ty sat d a b x s) := by
  unfold execImad
  try dsimp only
  with_reducible repeat' first | assumption | apply laneOp_keeps

theorem execIadd64_keeps {z : State} (h : Hdr) (ty : Sys2Proof.Ty) (sat : Bool) (d : Reg) (a : Reg) (b : Reg) (s : State) (h0 : Keeps z s) : KeepsOut z (execIadd64 h ty sat d a b s) := by
  unfold execIadd64
  try dsimp only
  with_reducible repeat' first | assumption | apply laneOp_keeps

theorem execIsub64_keeps {z : State} (h : Hdr) (ty : Sys2Proof.Ty) (sat : Bool) (d : Reg) (a : Reg) (b : Reg) (s : State) (h0 : Keeps z s) : KeepsOut z (execIsub64 h ty sat d a b s) := by
  unfold execIsub64
  try dsimp only
  with_reducible repeat' first | assumption | apply laneOp_keeps

theorem execImad64_keeps {z : State} (h : Hdr) (ty : Sys2Proof.Ty) (sat : Bool) (d : Reg) (a : Reg) (b : Reg) (x : Reg) (s : State) (h0 : Keeps z s) : KeepsOut z (execImad64 h ty sat d a b x s) := by
  unfold execImad64
  try dsimp only
  with_reducible repeat' first | assumption | apply laneOp_keeps

theorem execIaddc_keeps {z : State} (h : Hdr) (first : Bool) (d : Reg) (a : Reg) (b : Reg) (x : Reg) (s : State) (h0 : Keeps z s) : KeepsOut z (execIaddc h first d a b x s) := by
  unfold execIaddc
  try dsimp only
  with_reducible repeat' first | assumption | apply laneOp_keeps

theorem execIneg_keeps {z : State} (h : Hdr) (sat : Bool) (d : Reg) (a : Reg) (s : State) (h0 : Keeps z s) : KeepsOut z (execIneg h sat d a s) := by
  unfold execIneg
  try dsimp only
  with_reducible repeat' first | assumption | apply laneOp_keeps

theorem execIabs_keeps {z : State} (h : Hdr) (sat : Bool) (d : Reg) (a : Reg) (s : State) (h0 : Keeps z s) : KeepsOut z (execIabs h sat d a s) := by
  unfold execIabs
  try dsimp only
  with_reducible repeat' first | assumption | apply laneOp_keeps

theorem execImin_keeps {z : State} (h : Hdr) (ty : Sys2Proof.Ty) (d : Reg) (a : Reg) (b : SrcB) (s : State) (h0 : Keeps z s) : KeepsOut z (execImin h ty d a b s) := by
  unfold execImin
  try dsimp only
  with_reducible repeat' first | assumption | apply laneOp_keeps

theorem execImax_keeps {z : State} (h : Hdr) (ty : Sys2Proof.Ty) (d : Reg) (a : Reg) (b : SrcB) (s : State) (h0 : Keeps z s) : KeepsOut z (execImax h ty d a b s) := by
  unfold execImax
  try dsimp only
  with_reducible repeat' first | assumption | apply laneOp_keeps

theorem execAnd_keeps {z : State} (h : Hdr) (d : Reg) (a : Reg) (b : SrcB) (s : State) (h0 : Keeps z s) : KeepsOut z (execAnd h d a b s) := by
  unfold execAnd
  try dsimp only
  with_reducible repeat' first | assumption | apply laneOp_keeps

theorem execOr_keeps {z : State} (h : Hdr) (d : Reg) (a : Reg) (b : SrcB) (s : State) (h0 : Keeps z s) : KeepsOut z (execOr h d a b s) := by
  unfold execOr
  try dsimp only
  with_reducible repeat' first | assumption | apply laneOp_keeps

theorem execXor_keeps {z : State} (h : Hdr) (d : Reg) (a : Reg) (b : SrcB) (s : State) (h0 : Keeps z s) : KeepsOut z (execXor h d a b s) := by
  unfold execXor
  try dsimp only
  with_reducible repeat' first | assumption | apply laneOp_keeps

theorem execAndn_keeps {z : State} (h : Hdr) (d : Reg) (a : Reg) (b : SrcB) (s : State) (h0 : Keeps z s) : KeepsOut z (execAndn h d a b s) := by
  unfold execAndn
  try dsimp only
  with_reducible repeat' first | assumption | apply laneOp_keeps

theorem execNot_keeps {z : State} (h : Hdr) (d : Reg) (a : Reg) (s : State) (h0 : Keeps z s) : KeepsOut z (execNot h d a s) := by
  unfold execNot
  try dsimp only
  with_reducible repeat' first | assumption | apply laneOp_keeps

theorem execLop3_keeps {z : State} (h : Hdr) (lut : BitVec 8) (d : Reg) (a : Reg) (b : Reg) (x : Reg) (s : State) (h0 : Keeps z s) : KeepsOut z (execLop3 h lut d a b x s) := by
  unfold execLop3
  try dsimp only
  with_reducible repeat' first | assumption | apply laneOp_keeps

theorem execShl_keeps {z : State} (h : Hdr) (d : Reg) (a : Reg) (b : SrcB) (s : State) (h0 : Keeps z s) : KeepsOut z (execShl h d a b s) := by
  unfold execShl
  try dsimp only
  with_reducible repeat' first | assumption | apply laneOp_keeps

theorem execShr_keeps {z : State} (h : Hdr) (d : Reg) (a : Reg) (b : SrcB) (s : State) (h0 : Keeps z s) : KeepsOut z (execShr h d a b s) := by
  unfold execShr
  try dsimp only
  with_reducible repeat' first | assumption | apply laneOp_keeps

theorem execSra_keeps {z : State} (h : Hdr) (d : Reg) (a : Reg) (b : SrcB) (s : State) (h0 : Keeps z s) : KeepsOut z (execSra h d a b s) := by
  unfold execSra
  try dsimp only
  with_reducible repeat' first | assumption | apply laneOp_keeps

theorem execShl64_keeps {z : State} (h : Hdr) (d : Reg) (a : Reg) (b : SrcB) (s : State) (h0 : Keeps z s) : KeepsOut z (execShl64 h d a b s) := by
  unfold execShl64
  try dsimp only
  with_reducible repeat' first | assumption | apply laneOp_keeps

theorem execShr64_keeps {z : State} (h : Hdr) (ty : Sys2Proof.Ty) (d : Reg) (a : Reg) (b : SrcB) (s : State) (h0 : Keeps z s) : KeepsOut z (execShr64 h ty d a b s) := by
  unfold execShr64
  try dsimp only
  with_reducible repeat' first | assumption | apply laneOp_keeps

theorem execRotl_keeps {z : State} (h : Hdr) (d : Reg) (a : Reg) (b : SrcB) (s : State) (h0 : Keeps z s) : KeepsOut z (execRotl h d a b s) := by
  unfold execRotl
  try dsimp only
  with_reducible repeat' first | assumption | apply laneOp_keeps

theorem execClz_keeps {z : State} (h : Hdr) (d : Reg) (a : Reg) (s : State) (h0 : Keeps z s) : KeepsOut z (execClz h d a s) := by
  unfold execClz
  try dsimp only
  with_reducible repeat' first | assumption | apply laneOp_keeps

theorem execPopc_keeps {z : State} (h : Hdr) (d : Reg) (a : Reg) (s : State) (h0 : Keeps z s) : KeepsOut z (execPopc h d a s) := by
  unfold execPopc
  try dsimp only
  with_reducible repeat' first | assumption | apply laneOp_keeps

theorem execBrev_keeps {z : State} (h : Hdr) (d : Reg) (a : Reg) (s : State) (h0 : Keeps z s) : KeepsOut z (execBrev h d a s) := by
  unfold execBrev
  try dsimp only
  with_reducible repeat' first | assumption | apply laneOp_keeps

theorem execBfx_keeps {z : State} (h : Hdr) (ty : Sys2Proof.Ty) (bi : Bool) (d : Reg) (a : Reg) (b : Reg) (x : Reg) (s : State) (h0 : Keeps z s) : KeepsOut z (execBfx h ty bi d a b x s) := by
  unfold execBfx
  try dsimp only
  with_reducible repeat' first | assumption | apply laneOp_keeps

theorem execBfi_keeps {z : State} (h : Hdr) (d : Reg) (a : Reg) (b : Reg) (x : Reg) (s : State) (h0 : Keeps z s) : KeepsOut z (execBfi h d a b x s) := by
  unfold execBfi
  try dsimp only
  with_reducible repeat' first | assumption | apply laneOp_keeps

theorem execSel_keeps {z : State} (h : Hdr) (d : Reg) (a : Reg) (b : Reg) (x : Reg) (s : State) (h0 : Keeps z s) : KeepsOut z (execSel h d a b x s) := by
  unfold execSel
  try dsimp only
  with_reducible repeat' first | assumption | apply laneOp_keeps

theorem execMov_keeps {z : State} (h : Hdr) (d : Reg) (a : SrcB) (s : State) (h0 : Keeps z s) : KeepsOut z (execMov h d a s) := by
  unfold execMov
  try dsimp only
  with_reducible repeat' first | assumption | apply laneOp_keeps

theorem execLea_keeps {z : State} (h : Hdr) (ty : Sys2Proof.Ty) (d : Reg) (a : Reg) (b : Reg) (k : Reg) (s : State) (h0 : Keeps z s) : KeepsOut z (execLea h ty d a b k s) := by
  unfold execLea
  try dsimp only
  with_reducible repeat' first | assumption | apply laneOp_keeps

theorem execIaddImm_keeps {z : State} (h : Hdr) (ty : Sys2Proof.Ty) (sat : Bool) (d : Reg) (a : Reg) (imm : Word) (s : State) (h0 : Keeps z s) : KeepsOut z (execIaddImm h ty sat d a imm s) := by
  unfold execIaddImm
  try dsimp only
  with_reducible repeat' first | assumption | apply laneOp_keeps

theorem execIsubImm_keeps {z : State} (h : Hdr) (ty : Sys2Proof.Ty) (sat : Bool) (d : Reg) (a : Reg) (imm : Word) (s : State) (h0 : Keeps z s) : KeepsOut z (execIsubImm h ty sat d a imm s) := by
  unfold execIsubImm
  try dsimp only
  with_reducible repeat' first | assumption | apply laneOp_keeps

theorem execImulImm_keeps {z : State} (h : Hdr) (ty : Sys2Proof.Ty) (sat : Bool) (d : Reg) (a : Reg) (imm : Word) (s : State) (h0 : Keeps z s) : KeepsOut z (execImulImm h ty sat d a imm s) := by
  unfold execImulImm
  try dsimp only
  with_reducible repeat' first | assumption | apply laneOp_keeps

theorem execImadImm_keeps {z : State} (h : Hdr) (ty : Sys2Proof.Ty) (sat : Bool) (d : Reg) (a : Reg) (imm : Word) (x : Reg) (s : State) (h0 : Keeps z s) : KeepsOut z (execImadImm h ty sat d a imm x s) := by
  unfold execImadImm
  try dsimp only
  with_reducible repeat' first | assumption | apply laneOp_keeps

theorem execIminImm_keeps {z : State} (h : Hdr) (ty : Sys2Proof.Ty) (d : Reg) (a : Reg) (imm : Word) (s : State) (h0 : Keeps z s) : KeepsOut z (execIminImm h ty d a imm s) := by
  unfold execIminImm
  try dsimp only
  with_reducible repeat' first | assumption | apply laneOp_keeps

theorem execImaxImm_keeps {z : State} (h : Hdr) (ty : Sys2Proof.Ty) (d : Reg) (a : Reg) (imm : Word) (s : State) (h0 : Keeps z s) : KeepsOut z (execImaxImm h ty d a imm s) := by
  unfold execImaxImm
  try dsimp only
  with_reducible repeat' first | assumption | apply laneOp_keeps

theorem execAndImm_keeps {z : State} (h : Hdr) (d : Reg) (a : Reg) (imm : Word) (s : State) (h0 : Keeps z s) : KeepsOut z (execAndImm h d a imm s) := by
  unfold execAndImm
  try dsimp only
  with_reducible repeat' first | assumption | apply laneOp_keeps

theorem execOrImm_keeps {z : State} (h : Hdr) (d : Reg) (a : Reg) (imm : Word) (s : State) (h0 : Keeps z s) : KeepsOut z (execOrImm h d a imm s) := by
  unfold execOrImm
  try dsimp only
  with_reducible repeat' first | assumption | apply laneOp_keeps

theorem execXorImm_keeps {z : State} (h : Hdr) (d : Reg) (a : Reg) (imm : Word) (s : State) (h0 : Keeps z s) : KeepsOut z (execXorImm h d a imm s) := by
  unfold execXorImm
  try dsimp only
  with_reducible repeat' first | assumption | apply laneOp_keeps

theorem execAndnImm_keeps {z : State} (h : Hdr) (d : Reg) (a : Reg) (imm : Word) (s : State) (h0 : Keeps z s) : KeepsOut z (execAndnImm h d a imm s) := by
  unfold execAndnImm
  try dsimp only
  with_reducible repeat' first | assumption | apply laneOp_keeps

theorem execMovk_keeps {z : State} (h : Hdr) (d : Reg) (imm : Word) (s : State) (h0 : Keeps z s) : KeepsOut z (execMovk h d imm s) := by
  unfold execMovk
  try dsimp only
  with_reducible repeat' first | assumption | apply laneOp_keeps

theorem execMovk64_keeps {z : State} (h : Hdr) (d : Reg) (imm : DWord) (s : State) (h0 : Keeps z s) : KeepsOut z (execMovk64 h d imm s) := by
  unfold execMovk64
  try dsimp only
  with_reducible repeat' first | assumption | apply laneOp_keeps

theorem execIcmp_keeps {z : State} (h : Hdr) (cc : ICc) (ty : Sys2Proof.Ty) (d : Reg) (a : Reg) (b : SrcB) (s : State) (h0 : Keeps z s) : KeepsOut z (execIcmp h cc ty d a b s) := by
  unfold execIcmp
  try dsimp only
  with_reducible repeat' first | assumption | apply laneOp_keeps

theorem execPset_keeps {z : State} (h : Hdr) (d : Reg) (a : Reg) (n : Reg) (s : State) (h0 : Keeps z s) : KeepsOut z (execPset h d a n s) := by
  unfold execPset
  try dsimp only
  with_reducible repeat' first | assumption | apply laneOp_keeps

theorem execPget_keeps {z : State} (h : Hdr) (d : Reg) (a : Reg) (n : Reg) (s : State) (h0 : Keeps z s) : KeepsOut z (execPget h d a n s) := by
  unfold execPget
  try dsimp only
  with_reducible repeat' first | assumption | apply laneOp_keeps

theorem execPand_keeps {z : State} (h : Hdr) (na : Bool) (nb : Bool) (d : Reg) (a : Reg) (b : Reg) (s : State) (h0 : Keeps z s) : KeepsOut z (execPand h na nb d a b s) := by
  unfold execPand
  try dsimp only
  with_reducible repeat' first | assumption | apply laneOp_keeps

theorem execPor_keeps {z : State} (h : Hdr) (na : Bool) (nb : Bool) (d : Reg) (a : Reg) (b : Reg) (s : State) (h0 : Keeps z s) : KeepsOut z (execPor h na nb d a b s) := by
  unfold execPor
  try dsimp only
  with_reducible repeat' first | assumption | apply laneOp_keeps

theorem execPxor_keeps {z : State} (h : Hdr) (na : Bool) (nb : Bool) (d : Reg) (a : Reg) (b : Reg) (s : State) (h0 : Keeps z s) : KeepsOut z (execPxor h na nb d a b s) := by
  unfold execPxor
  try dsimp only
  with_reducible repeat' first | assumption | apply laneOp_keeps

theorem execPnot_keeps {z : State} (h : Hdr) (na : Bool) (d : Reg) (a : Reg) (s : State) (h0 : Keeps z s) : KeepsOut z (execPnot h na d a s) := by
  unfold execPnot
  try dsimp only
  with_reducible repeat' first | assumption | apply laneOp_keeps

theorem execPmov_keeps {z : State} (h : Hdr) (na : Bool) (d : Reg) (a : Reg) (s : State) (h0 : Keeps z s) : KeepsOut z (execPmov h na d a s) := by
  unfold execPmov
  try dsimp only
  with_reducible repeat' first | assumption | apply laneOp_keeps

theorem State.writeTail_keeps {z : State} (s : State) (p : ℕ) (q : ℕ) (v : ℕ) (h0 : Keeps z s) : Keeps z (State.writeTail s p q v) := ⟨h0.1⟩

theorem State.noteAccess_keeps {z : State} (s : State) (t : Target) (w : ℕ) (h0 : Keeps z s) : Keeps z (State.noteAccess s t w) := by
  unfold State.noteAccess
  try dsimp only
  repeat' first
    | (with_reducible first | assumption | apply State.needMem_keeps | apply State.touch_keeps)
    | split

theorem State.privLines_keeps {z : State} (s : State) (core : ℕ) (classH : Bool) (tag : ℕ) (lines : List ℕ) (h0 : Keeps z s) : Keeps z (State.privLines s core classH tag lines) := by
  unfold State.privLines
  try dsimp only
  repeat' first
    | (with_reducible first | intro _ | assumption | apply keeps_foldl | apply State.askWrite_keeps | apply State.setBank_keeps)
    | split

theorem Ctx.writeTarget_keeps {z : State} (c : Ctx) (s : State) (l : ℕ) (bs : List Byte) (t : Target) (h0 : Keeps z s) : Keeps z (Ctx.writeTarget c s l bs t) := by
  unfold Ctx.writeTarget
  try dsimp only
  repeat' first
    | with_reducible
        first
          | assumption | apply Ctx.sees_keeps | apply State.askWrite_keeps | apply State.noteAccess_keeps | apply State.noteStore_keeps
          | apply State.privLines_keeps | apply State.tryRequest_keeps | apply State.writeAt_keeps | apply State.writeBytes_keeps
          | apply State.writeScratch_keeps | apply State.writeTail_keeps | apply keeps_getD
    | split

theorem Ctx.branch_keeps {z : State} (c : Ctx) (i : Instr) (act : Mask) (target : ℕ → DWord) (s : State) (h0 : Keeps z s) : Keeps z (Ctx.branch c i act target s) := by
  unfold Ctx.branch
  try dsimp only
  with_reducible repeat' first | assumption | apply Ctx.moveTo_keeps

theorem execBra_keeps {z : State} (h : Hdr) (off : Word) (s : State) (h0 : Keeps z s) : KeepsOut z (execBra h off s) := by
  unfold execBra
  try dsimp only
  repeat' first
    | (with_reducible first | intro _ | assumption | apply Ctx.branch_keeps | apply State.takeFault_keeps | apply issue_keeps)
    | split

theorem execBrx_keeps {z : State} (h : Hdr) (a : Reg) (s : State) (h0 : Keeps z s) : KeepsOut z (execBrx h a s) := by
  unfold execBrx
  try dsimp only
  repeat' first
    | (with_reducible first | intro _ | assumption | apply Ctx.branch_keeps | apply State.takeFault_keeps | apply issue_keeps)
    | split

theorem Ctx.push_keeps {z : State} (c : Ctx) (s0 : State) (ra : DWord) (s : State) (l : ℕ) (_h0 : Keeps z s0) (h1 : Keeps z s) : Keeps z (Ctx.push c s0 ra s l) := by
  unfold Ctx.push
  try dsimp only
  repeat' first
    | (with_reducible first | assumption | apply Ctx.writeTarget_keeps | apply State.noteXlate_keeps | apply State.updGroup_keeps)
    | split

theorem Ctx.callTo_keeps {z : State} (c : Ctx) (i : Instr) (act : Mask) (target : ℕ → DWord) (s : State) (h0 : Keeps z s) : Keeps z (Ctx.callTo c i act target s) := by
  unfold Ctx.callTo
  try dsimp only
  repeat' first
    | with_reducible
        first
          | intro _ | assumption | apply keeps_foldl | apply Ctx.branch_keeps | apply Ctx.push_keeps | apply State.exitLanes_keeps
          | apply State.takeFault_keeps
    | split

theorem execCall_keeps {z : State} (h : Hdr) (off : Word) (s : State) (h0 : Keeps z s) : KeepsOut z (execCall h off s) := by
  unfold execCall
  try dsimp only
  with_reducible repeat' first | intro _ | assumption | apply Ctx.callTo_keeps | apply issueMem_keeps

theorem execCallx_keeps {z : State} (h : Hdr) (a : Reg) (s : State) (h0 : Keeps z s) : KeepsOut z (execCallx h a s) := by
  unfold execCallx
  try dsimp only
  with_reducible repeat' first | intro _ | assumption | apply Ctx.callTo_keeps | apply issueMem_keeps

theorem Ctx.pop_keeps {z : State} (c : Ctx) (s0 : State) (s : State) (l : ℕ) (_h0 : Keeps z s0) (h1 : Keeps z s) : Keeps z (Ctx.pop c s0 s l) := by
  unfold Ctx.pop
  try dsimp only
  repeat' first
    | with_reducible
        first
          | assumption | apply Ctx.sees_keeps | apply State.noteAccess_keeps | apply State.noteXlate_keeps | apply State.updGroup_keeps
    | split

theorem execRet_keeps {z : State} (h : Hdr) (s : State) (h0 : Keeps z s) : KeepsOut z (execRet h s) := by
  unfold execRet
  try dsimp only
  repeat' first
    | with_reducible
        first
          | intro _ | assumption | apply keeps_foldl | apply Ctx.branch_keeps | apply Ctx.pop_keeps | apply State.exitLanes_keeps
          | apply State.takeFault_keeps | apply issueMem_keeps
    | split

theorem execExit_keeps {z : State} (h : Hdr) (s : State) (h0 : Keeps z s) : KeepsOut z (execExit h s) := by
  unfold execExit
  try dsimp only
  with_reducible repeat' first | intro _ | assumption | apply Ctx.moveSome_keeps | apply State.exitLanes_keeps | apply issue_keeps

theorem execRejoinArm_keeps {z : State} (h : Hdr) (all : Bool) (a : Reg) (k : Reg) (s : State) (h0 : Keeps z s) : KeepsOut z (execRejoinArm h all a k s) := by
  unfold execRejoinArm
  try dsimp only
  with_reducible
    repeat' first
      | intro _ | assumption | apply keeps_ite | apply Ctx.advance_keeps | apply State.settleLate_keeps | apply State.updGroup_keeps
      | apply issue_keeps

theorem execRejoin_keeps {z : State} (h : Hdr) (k : Reg) (s : State) (h0 : Keeps z s) : KeepsOut z (execRejoin h k s) := by
  unfold execRejoin
  try dsimp only
  with_reducible repeat' first | intro _ | assumption | apply Ctx.waitAll_keeps | apply State.settleLate_keeps | apply issue_keeps

theorem execYield_keeps {z : State} (h : Hdr) (s : State) (h0 : Keeps z s) : KeepsOut z (execYield h s) := by
  unfold execYield
  try dsimp only
  with_reducible
    repeat' first
      | intro _ | assumption | apply keeps_ite | apply Ctx.advance_keeps | apply State.updGroup_keeps | apply issue_keeps

theorem execNop_keeps {z : State} (h : Hdr) (s : State) (h0 : Keeps z s) : KeepsOut z (execNop h s) := by
  unfold execNop
  try dsimp only
  with_reducible repeat' first | assumption | apply laneOp_keeps

theorem execNopWidened_keeps {z : State} (h : Hdr) (s : State) (h0 : Keeps z s) : KeepsOut z (execNopWidened h s) := by
  unfold execNopWidened
  try dsimp only
  with_reducible repeat' first | assumption | apply laneOp_keeps

theorem execQswap_keeps {z : State} (h : Hdr) (mode : QMode) (d : Reg) (a : Reg) (s : State) (h0 : Keeps z s) : KeepsOut z (execQswap h mode d a s) := by
  unfold execQswap
  try dsimp only
  with_reducible repeat' first | assumption | apply laneOp_keeps

theorem execQbcast_keeps {z : State} (h : Hdr) (d : Reg) (a : Reg) (k : Reg) (s : State) (h0 : Keeps z s) : KeepsOut z (execQbcast h d a k s) := by
  unfold execQbcast
  try dsimp only
  with_reducible repeat' first | assumption | apply laneOp_keeps

theorem execGshfl_keeps {z : State} (h : Hdr) (mode : ShflMode) (d : Reg) (a : Reg) (b : SrcB) (s : State) (h0 : Keeps z s) : KeepsOut z (execGshfl h mode d a b s) := by
  unfold execGshfl
  try dsimp only
  with_reducible repeat' first | assumption | apply laneOp_keeps

theorem voteOp_keeps {z : State} (i : Instr) (s : State) (f : Ctx → Mask → ℕ → Wr) (h0 : Keeps z s) : KeepsOut z (voteOp i s f) := by
  unfold voteOp
  try dsimp only
  with_reducible repeat' first | intro _ | assumption | apply Ctx.advance_keeps | apply State.writeLanes_keeps | apply issue_keeps

theorem execGvote_keeps {z : State} (h : Hdr) (mode : VoteMode) (d : Reg) (a : Reg) (s : State) (h0 : Keeps z s) : KeepsOut z (execGvote h mode d a s) := by
  unfold execGvote
  try dsimp only
  with_reducible repeat' first | assumption | apply voteOp_keeps

theorem execGmatch_keeps {z : State} (h : Hdr) (ty : Sys2Proof.Ty) (d : Reg) (a : Reg) (s : State) (h0 : Keeps z s) : KeepsOut z (execGmatch h ty d a s) := by
  unfold execGmatch
  try dsimp only
  with_reducible repeat' first | assumption | apply voteOp_keeps

theorem execGredux_keeps {z : State} (h : Hdr) (op : RedOp) (ty : Sys2Proof.Ty) (d : Reg) (a : Reg) (s : State) (h0 : Keeps z s) : KeepsOut z (execGredux h op ty d a s) := by
  unfold execGredux
  try dsimp only
  with_reducible repeat' first | assumption | apply voteOp_keeps

theorem execGscan_keeps {z : State} (h : Hdr) (op : RedOp) (excl : Bool) (ty : Sys2Proof.Ty) (d : Reg) (a : Reg) (s : State) (h0 : Keeps z s) : KeepsOut z (execGscan h op excl ty d a s) := by
  unfold execGscan
  try dsimp only
  with_reducible repeat' first | assumption | apply voteOp_keeps

theorem execGelect_keeps {z : State} (h : Hdr) (d : Reg) (s : State) (h0 : Keeps z s) : KeepsOut z (execGelect h d s) := by
  unfold execGelect
  try dsimp only
  with_reducible repeat' first | assumption | apply voteOp_keeps

theorem execGsync_keeps {z : State} (h : Hdr) (all : Bool) (a : Reg) (s : State) (h0 : Keeps z s) : KeepsOut z (execGsync h all a s) := by
  unfold execGsync
  try dsimp only
  with_reducible
    repeat' first
      | intro _ | assumption | apply Ctx.waitAll_keeps | apply State.settleLate_keeps | apply State.updGroup_keeps | apply issue_keeps

theorem sfuOp_keeps {z : State} (i : Instr) (ftz : Bool) (la : BitVec 4) (d : Reg) (a : Reg) (s : State) (f : Word → ℕ) (h0 : Keeps z s) : KeepsOut z (sfuOp i ftz la d a s f) := by
  unfold sfuOp
  try dsimp only
  with_reducible repeat' first | assumption | apply longOp_keeps

theorem execFrcp_keeps {z : State} (h : Hdr) (ftz : Bool) (la : BitVec 4) (d : Reg) (a : Reg) (s : State) (h0 : Keeps z s) : KeepsOut z (execFrcp h ftz la d a s) := by
  unfold execFrcp
  try dsimp only
  with_reducible repeat' first | assumption | apply sfuOp_keeps

theorem execFrsq_keeps {z : State} (h : Hdr) (ftz : Bool) (la : BitVec 4) (d : Reg) (a : Reg) (s : State) (h0 : Keeps z s) : KeepsOut z (execFrsq h ftz la d a s) := by
  unfold execFrsq
  try dsimp only
  with_reducible repeat' first | assumption | apply sfuOp_keeps

theorem execFsqrt_keeps {z : State} (h : Hdr) (ftz : Bool) (la : BitVec 4) (d : Reg) (a : Reg) (s : State) (h0 : Keeps z s) : KeepsOut z (execFsqrt h ftz la d a s) := by
  unfold execFsqrt
  try dsimp only
  with_reducible repeat' first | assumption | apply sfuOp_keeps

theorem execFexp2_keeps {z : State} (h : Hdr) (ftz : Bool) (la : BitVec 4) (d : Reg) (a : Reg) (s : State) (h0 : Keeps z s) : KeepsOut z (execFexp2 h ftz la d a s) := by
  unfold execFexp2
  try dsimp only
  with_reducible repeat' first | assumption | apply sfuOp_keeps

theorem execFlog2_keeps {z : State} (h : Hdr) (ftz : Bool) (la : BitVec 4) (d : Reg) (a : Reg) (s : State) (h0 : Keeps z s) : KeepsOut z (execFlog2 h ftz la d a s) := by
  unfold execFlog2
  try dsimp only
  with_reducible repeat' first | assumption | apply sfuOp_keeps

theorem execFsin_keeps {z : State} (h : Hdr) (ftz : Bool) (la : BitVec 4) (d : Reg) (a : Reg) (s : State) (h0 : Keeps z s) : KeepsOut z (execFsin h ftz la d a s) := by
  unfold execFsin
  try dsimp only
  with_reducible repeat' first | assumption | apply sfuOp_keeps

theorem execFcos_keeps {z : State} (h : Hdr) (ftz : Bool) (la : BitVec 4) (d : Reg) (a : Reg) (s : State) (h0 : Keeps z s) : KeepsOut z (execFcos h ftz la d a s) := by
  unfold execFcos
  try dsimp only
  with_reducible repeat' first | assumption | apply sfuOp_keeps

theorem execFtanh_keeps {z : State} (h : Hdr) (ftz : Bool) (la : BitVec 4) (d : Reg) (a : Reg) (s : State) (h0 : Keeps z s) : KeepsOut z (execFtanh h ftz la d a s) := by
  unfold execFtanh
  try dsimp only
  with_reducible repeat' first | assumption | apply sfuOp_keeps

theorem execFsigm_keeps {z : State} (h : Hdr) (ftz : Bool) (la : BitVec 4) (d : Reg) (a : Reg) (s : State) (h0 : Keeps z s) : KeepsOut z (execFsigm h ftz la d a s) := by
  unfold execFsigm
  try dsimp only
  with_reducible repeat' first | assumption | apply sfuOp_keeps

theorem execFadd_keeps {z : State} (h : Hdr) (rm : RMode) (ftz : Bool) (d : Reg) (a : Reg) (b : Reg) (s : State) (h0 : Keeps z s) : KeepsOut z (execFadd h rm ftz d a b s) := by
  unfold execFadd
  try dsimp only
  with_reducible repeat' first | assumption | apply laneOp_keeps

theorem execFsub_keeps {z : State} (h : Hdr) (rm : RMode) (ftz : Bool) (d : Reg) (a : Reg) (b : Reg) (s : State) (h0 : Keeps z s) : KeepsOut z (execFsub h rm ftz d a b s) := by
  unfold execFsub
  try dsimp only
  with_reducible repeat' first | assumption | apply laneOp_keeps

theorem execFmul_keeps {z : State} (h : Hdr) (rm : RMode) (ftz : Bool) (d : Reg) (a : Reg) (b : Reg) (s : State) (h0 : Keeps z s) : KeepsOut z (execFmul h rm ftz d a b s) := by
  unfold execFmul
  try dsimp only
  with_reducible repeat' first | assumption | apply laneOp_keeps

theorem execFfma_keeps {z : State} (h : Hdr) (rm : RMode) (ftz : Bool) (d : Reg) (a : Reg) (b : Reg) (x : Reg) (s : State) (h0 : Keeps z s) : KeepsOut z (execFfma h rm ftz d a b x s) := by
  unfold execFfma
  try dsimp only
  with_reducible repeat' first | assumption | apply laneOp_keeps

theorem execFmin_keeps {z : State} (h : Hdr) (ftz : Bool) (d : Reg) (a : Reg) (b : Reg) (s : State) (h0 : Keeps z s) : KeepsOut z (execFmin h ftz d a b s) := by
  unfold execFmin
  try dsimp only
  with_reducible repeat' first | assumption | apply laneOp_keeps

theorem execFmax_keeps {z : State} (h : Hdr) (ftz : Bool) (d : Reg) (a : Reg) (b : Reg) (s : State) (h0 : Keeps z s) : KeepsOut z (execFmax h ftz d a b s) := by
  unfold execFmax
  try dsimp only
  with_reducible repeat' first | assumption | apply laneOp_keeps

theorem execFrnd_keeps {z : State} (h : Hdr) (rm : RMode) (ftz : Bool) (d : Reg) (a : Reg) (s : State) (h0 : Keeps z s) : KeepsOut z (execFrnd h rm ftz d a s) := by
  unfold execFrnd
  try dsimp only
  with_reducible repeat' first | assumption | apply laneOp_keeps

theorem execFcmp_keeps {z : State} (h : Hdr) (cc : FCc) (ftz : Bool) (d : Reg) (a : Reg) (b : Reg) (s : State) (h0 : Keeps z s) : KeepsOut z (execFcmp h cc ftz d a b s) := by
  unfold execFcmp
  try dsimp only
  with_reducible repeat' first | assumption | apply laneOp_keeps

theorem execFclass_keeps {z : State} (h : Hdr) (ty : Sys2Proof.Ty) (d : Reg) (a : Reg) (s : State) (h0 : Keeps z s) : KeepsOut z (execFclass h ty d a s) := by
  unfold execFclass
  try dsimp only
  with_reducible repeat' first | assumption | apply laneOp_keeps

theorem execFsign_keeps {z : State} (h : Hdr) (mode : SignMode) (d : Reg) (a : Reg) (b : Reg) (s : State) (h0 : Keeps z s) : KeepsOut z (execFsign h mode d a b s) := by
  unfold execFsign
  try dsimp only
  with_reducible repeat' first | assumption | apply laneOp_keeps

theorem execFscale_keeps {z : State} (h : Hdr) (rm : RMode) (ftz : Bool) (d : Reg) (a : Reg) (b : Reg) (s : State) (h0 : Keeps z s) : KeepsOut z (execFscale h rm ftz d a b s) := by
  unfold execFscale
  try dsimp only
  with_reducible repeat' first | assumption | apply laneOp_keeps

theorem execHadd2_keeps {z : State} (h : Hdr) (rm : RMode) (ftz : Bool) (d : Reg) (a : Reg) (b : Reg) (s : State) (h0 : Keeps z s) : KeepsOut z (execHadd2 h rm ftz d a b s) := by
  unfold execHadd2
  try dsimp only
  with_reducible repeat' first | assumption | apply laneOp_keeps

theorem execHmul2_keeps {z : State} (h : Hdr) (rm : RMode) (ftz : Bool) (d : Reg) (a : Reg) (b : Reg) (s : State) (h0 : Keeps z s) : KeepsOut z (execHmul2 h rm ftz d a b s) := by
  unfold execHmul2
  try dsimp only
  with_reducible repeat' first | assumption | apply laneOp_keeps

theorem execHfma2_keeps {z : State} (h : Hdr) (rm : RMode) (ftz : Bool) (d : Reg) (a : Reg) (b : Reg) (x : Reg) (s : State) (h0 : Keeps z s) : KeepsOut z (execHfma2 h rm ftz d a b x s) := by
  unfold execHfma2
  try dsimp only
  with_reducible repeat' first | assumption | apply laneOp_keeps

theorem execBadd2_keeps {z : State} (h : Hdr) (rm : RMode) (ftz : Bool) (d : Reg) (a : Reg) (b : Reg) (s : State) (h0 : Keeps z s) : KeepsOut z (execBadd2 h rm ftz d a b s) := by
  unfold execBadd2
  try dsimp only
  with_reducible repeat' first | assumption | apply laneOp_keeps

theorem execBmul2_keeps {z : State} (h : Hdr) (rm : RMode) (ftz : Bool) (d : Reg) (a : Reg) (b : Reg) (s : State) (h0 : Keeps z s) : KeepsOut z (execBmul2 h rm ftz d a b s) := by
  unfold execBmul2
  try dsimp only
  with_reducible repeat' first | assumption | apply laneOp_keeps

theorem execBfma2_keeps {z : State} (h : Hdr) (rm : RMode) (ftz : Bool) (d : Reg) (a : Reg) (b : Reg) (x : Reg) (s : State) (h0 : Keeps z s) : KeepsOut z (execBfma2 h rm ftz d a b x s) := by
  unfold execBfma2
  try dsimp only
  with_reducible repeat' first | assumption | apply laneOp_keeps

theorem execFdot2_keeps {z : State} (h : Hdr) (rm : RMode) (ftz : Bool) (d : Reg) (a : Reg) (b : Reg) (x : Reg) (s : State) (h0 : Keeps z s) : KeepsOut z (execFdot2 h rm ftz d a b x s) := by
  unfold execFdot2
  try dsimp only
  with_reducible repeat' first | assumption | apply laneOp_keeps

theorem execBdot2_keeps {z : State} (h : Hdr) (rm : RMode) (ftz : Bool) (d : Reg) (a : Reg) (b : Reg) (x : Reg) (s : State) (h0 : Keeps z s) : KeepsOut z (execBdot2 h rm ftz d a b x s) := by
  unfold execBdot2
  try dsimp only
  with_reducible repeat' first | assumption | apply laneOp_keeps

theorem execQdot4_keeps {z : State} (h : Hdr) (ty : Sys2Proof.Ty) (rm : RMode) (ftz : Bool) (sat : Bool) (d : Reg) (a : Reg) (b : Reg) (x : Reg) (s : State) (h0 : Keeps z s) : KeepsOut z (execQdot4 h ty rm ftz sat d a b x s) := by
  unfold execQdot4
  try dsimp only
  with_reducible repeat' first | assumption | apply laneOp_keeps

theorem execFcvt_keeps {z : State} (h : Hdr) (dt : Sys2Proof.Ty) (sty : Sys2Proof.Ty) (rm : RMode) (ftz : Bool) (sat : Bool) (inf : Bool) (d : Reg) (a : Reg) (s : State) (h0 : Keeps z s) : KeepsOut z (execFcvt h dt sty rm ftz sat inf d a s) := by
  unfold execFcvt
  try dsimp only
  with_reducible repeat' first | assumption | apply laneOp_keeps

theorem execFcvtSr_keeps {z : State} (h : Hdr) (dt : Sys2Proof.Ty) (sty : Sys2Proof.Ty) (ftz : Bool) (sat : Bool) (inf : Bool) (d : Reg) (a : Reg) (b : Reg) (s : State) (h0 : Keeps z s) : KeepsOut z (execFcvtSr h dt sty ftz sat inf d a b s) := by
  unfold execFcvtSr
  try dsimp only
  with_reducible repeat' first | assumption | apply laneOp_keeps

theorem execFcvti_keeps {z : State} (h : Hdr) (it : Sys2Proof.Ty) (sty : Sys2Proof.Ty) (rm : RMode) (ftz : Bool) (d : Reg) (a : Reg) (s : State) (h0 : Keeps z s) : KeepsOut z (execFcvti h it sty rm ftz d a s) := by
  unfold execFcvti
  try dsimp only
  with_reducible repeat' first | assumption | apply laneOp_keeps

theorem execIcvtf_keeps {z : State} (h : Hdr) (dt : Sys2Proof.Ty) (it : Sys2Proof.Ty) (rm : RMode) (ftz : Bool) (d : Reg) (a : Reg) (s : State) (h0 : Keeps z s) : KeepsOut z (execIcvtf h dt it rm ftz d a s) := by
  unfold execIcvtf
  try dsimp only
  with_reducible repeat' first | assumption | apply laneOp_keeps

theorem execFpack_keeps {z : State} (h : Hdr) (dt : Sys2Proof.Ty) (rm : RMode) (ftz : Bool) (sat : Bool) (inf : Bool) (d : Reg) (a : Reg) (b : Reg) (s : State) (h0 : Keeps z s) : KeepsOut z (execFpack h dt rm ftz sat inf d a b s) := by
  unfold execFpack
  try dsimp only
  with_reducible repeat' first | assumption | apply laneOp_keeps

theorem execFunpack_keeps {z : State} (h : Hdr) (sty : Sys2Proof.Ty) (ftz : Bool) (d : Reg) (a : Reg) (k : Reg) (s : State) (h0 : Keeps z s) : KeepsOut z (execFunpack h sty ftz d a k s) := by
  unfold execFunpack
  try dsimp only
  with_reducible repeat' first | assumption | apply laneOp_keeps

theorem execFbmax_keeps {z : State} (h : Hdr) (dt : Sys2Proof.Ty) (ftz : Bool) (d : Reg) (a : Reg) (b : Reg) (s : State) (h0 : Keeps z s) : KeepsOut z (execFbmax h dt ftz d a b s) := by
  unfold execFbmax
  try dsimp only
  with_reducible repeat' first | assumption | apply laneOp_keeps

theorem execDs8enc_keeps {z : State} (h : Hdr) (ftz : Bool) (d : Reg) (a : Reg) (b : Reg) (s : State) (h0 : Keeps z s) : KeepsOut z (execDs8enc h ftz d a b s) := by
  unfold execDs8enc
  try dsimp only
  with_reducible repeat' first | assumption | apply laneOp_keeps

theorem execDs8dec_keeps {z : State} (h : Hdr) (rm : RMode) (ftz : Bool) (d : Reg) (a : Reg) (b : Reg) (k : Reg) (s : State) (h0 : Keeps z s) : KeepsOut z (execDs8dec h rm ftz d a b k s) := by
  unfold execDs8dec
  try dsimp only
  with_reducible repeat' first | assumption | apply laneOp_keeps

theorem Ctx.markClosing_keeps {z : State} (c : Ctx) (i : Instr) (s : State) (h0 : Keeps z s) : Keeps z (Ctx.markClosing c i s) := by
  unfold Ctx.markClosing
  try dsimp only
  repeat' first
    | (with_reducible first | assumption | apply State.updGroup_keeps)
    | split

theorem State.dropHome_keeps {z : State} (s : State) (line : ℕ) (h0 : Keeps z s) : Keeps z (State.dropHome s line) := ⟨h0.1⟩

theorem State.discardLine_keeps {z : State} (s : State) (line : ℕ) (h0 : Keeps z s) : Keeps z (State.discardLine s line) := by
  unfold State.discardLine
  try dsimp only
  repeat' first
    | (with_reducible first | assumption | apply State.dropHome_keeps)
    | split
    | with_reducible (apply keeps_mk; apply keeps_kp; first | assumption | apply State.writeBytes_keeps)

theorem Ctx.pendFault_keeps {z : State} (c : Ctx) (i : Instr) (la : BitVec 4) (act : Mask) (f : FInfo) (s : State) (h0 : Keeps z s) : Keeps z (Ctx.pendFault c i la act f s) := by
  unfold Ctx.pendFault
  try dsimp only
  with_reducible repeat' first | assumption | apply Ctx.advance_keeps | apply Ctx.startPend_keeps

theorem Ctx.loadLane_keeps {z : State} (c : Ctx) (x : LdArgs) (f : ℕ → Chk) (acc : State × List PLane) (l : ℕ) (h0 : Keeps z acc.1) : Keeps z (Ctx.loadLane c x f acc l).1 := by
  unfold Ctx.loadLane
  try dsimp only
  repeat' first
    | with_reducible
        first
          | assumption | apply keepsOpt_ite | apply Ctx.sees_keeps | apply State.noteAccess_keeps | apply State.tryRequest_keeps
          | refine keeps_of_some ‹_› ?_
    | split

theorem Ctx.noteXlates_keeps {z : State} (c : Ctx) (m : Mask) (sp : Sp) (ea : ℕ → DWord) (s : State) (h0 : Keeps z s) : Keeps z (Ctx.noteXlates c m sp ea s) := by
  unfold Ctx.noteXlates
  try dsimp only
  with_reducible repeat' first | intro _ | assumption | apply keeps_foldl | apply State.noteXlate_keeps

theorem Ctx.load_keeps {z : State} (c : Ctx) (i : Instr) (sp : Sp) (x : LdArgs) (act : Mask) (s : State) (h0 : Keeps z s) : Keeps z (Ctx.load c i sp x act s) := by
  unfold Ctx.load
  try dsimp only
  repeat' first
    | with_reducible
        first
          | intro _ | assumption | apply keeps_ite | apply Ctx.advance_keeps | apply Ctx.askRecords_keeps | apply Ctx.loadLane_keeps
          | apply Ctx.lookUp_keeps | apply Ctx.noteXlates_keeps | apply Ctx.pendFault_keeps | apply Ctx.startPend_keeps
          | apply State.discardLine_keeps | apply State.dropCopies_keeps | apply State.parkFor_keeps | apply State.switchOff_keeps
          | apply keeps_foldl | apply keepsFst_foldl
    | split

theorem Ctx.atomAt_keeps {z : State} (c : Ctx) (a : AOp) (ty : Sys2Proof.Ty) (l : ℕ) (b : ℕ) (x : ℕ) (t : Target) (s : State) (h0 : Keeps z s) : Keeps z (Ctx.atomAt c a ty l b x t s).1 := by
  unfold Ctx.atomAt
  try dsimp only
  repeat' first
    | (with_reducible first | assumption | apply Ctx.writeTarget_keeps | apply State.noteAccess_keeps)
    | split

theorem Ctx.atomLane_keeps {z : State} (c : Ctx) (o : AOp) (ty : Sys2Proof.Ty) (la : BitVec 4) (d : Reg) (b : Reg) (x : Reg) (f : ℕ → Chk) (s0 : State) (acc : State × List PLane) (l : ℕ) (_h0 : Keeps z s0) (h1 : Keeps z acc.1) : Keeps z (Ctx.atomLane c o ty la d b x f s0 acc l).1 := by
  unfold Ctx.atomLane
  try dsimp only
  repeat' first
    | (with_reducible first | assumption | apply Ctx.atomAt_keeps | apply State.tryRequest_keeps | refine keeps_of_some ‹_› ?_)
    | split

theorem Ctx.atom_keeps {z : State} (c : Ctx) (i : Instr) (o : AOp) (ty : Sys2Proof.Ty) (la : BitVec 4) (d : Reg) (a : Reg) (b : Reg) (x : Reg) (act : Mask) (s : State) (h0 : Keeps z s) : Keeps z (Ctx.atom c i o ty la d a b x act s) := by
  unfold Ctx.atom
  try dsimp only
  repeat' first
    | with_reducible
        first
          | intro _ | assumption | apply Ctx.advance_keeps | apply Ctx.askRecords_keeps | apply Ctx.atomLane_keeps
          | apply Ctx.markClosing_keeps | apply Ctx.noteXlates_keeps | apply Ctx.pendFault_keeps | apply Ctx.startPend_keeps
          | apply State.parkFor_keeps | apply State.switchOff_keeps | apply keepsFst_foldl
    | split

theorem Ctx.redLane_keeps {z : State} (c : Ctx) (o : MemOp) (ty : Sys2Proof.Ty) (b : Reg) (f : ℕ → Chk) (s0 : State) (s : State) (l : ℕ) (_h0 : Keeps z s0) (h1 : Keeps z s) : Keeps z (Ctx.redLane c o ty b f s0 s l) := by
  unfold Ctx.redLane
  try dsimp only
  repeat' first
    | (with_reducible first | assumption | apply Ctx.atomAt_keeps | apply State.tryRequest_keeps | apply keeps_getD)
    | split

theorem Ctx.red_keeps {z : State} (c : Ctx) (i : Instr) (o : MemOp) (ty : Sys2Proof.Ty) (a : Reg) (b : Reg) (act : Mask) (s : State) (h0 : Keeps z s) : Keeps z (Ctx.red c i o ty a b act s) := by
  unfold Ctx.red
  try dsimp only
  repeat' first
    | with_reducible
        first
          | intro _ | assumption | apply keeps_foldl | apply Ctx.advance_keeps | apply Ctx.askRecords_keeps
          | apply Ctx.markClosing_keeps | apply Ctx.noteXlates_keeps | apply Ctx.redLane_keeps | apply State.parkFor_keeps
          | apply State.switchOff_keeps | apply State.takeFault_keeps
    | split

theorem Ctx.issueCmd_keeps {z : State} (c : Ctx) (l : ℕ) (k : ℕ) (gsl : BitVec 4) (r : CmdReq) (s : State) (h0 : Keeps z s) : Keeps z (Ctx.issueCmd c l k gsl r s) := by
  unfold Ctx.issueCmd
  try dsimp only
  repeat' first
    | with_reducible
        first
          | assumption | apply State.clearPresence_keeps | apply State.setBar_keeps | apply State.setChan_keeps
          | apply State.updTeam_keeps
    | split

theorem Ctx.storeLane_keeps {z : State} (c : Ctx) (sp : Sp) (x : StArgs) (gsl : BitVec 4) (s0 : State) (s : State) (q : ℕ × Target) (_h0 : Keeps z s0) (h1 : Keeps z s) : Keeps z (Ctx.storeLane c sp x gsl s0 s q) := by
  unfold Ctx.storeLane
  try dsimp only
  repeat' first
    | (with_reducible first | assumption | apply Ctx.issueCmd_keeps | apply Ctx.writeTarget_keeps)
    | split

theorem Ctx.store_keeps {z : State} (c : Ctx) (i : Instr) (sp : Sp) (x : StArgs) (gsl : BitVec 4) (act : Mask) (s : State) (h0 : Keeps z s) : Keeps z (Ctx.store c i sp x gsl act s) := by
  unfold Ctx.store
  try dsimp only
  repeat' first
    | with_reducible
        first
          | intro _ | assumption | apply keeps_foldl | apply Ctx.advance_keeps | apply Ctx.askRecords_keeps | apply Ctx.holdLanes_keeps
          | apply Ctx.noteXlates_keeps | apply Ctx.storeLane_keeps | apply State.parkFor_keeps | apply State.switchOff_keeps
          | apply State.takeFault_keeps
    | split

theorem execLd_keeps {z : State} (h : Hdr) (x : LdArgs) (s : State) (h0 : Keeps z s) : KeepsOut z (execLd h x s) := by
  unfold execLd
  try dsimp only
  with_reducible repeat' first | intro _ | assumption | apply Ctx.load_keeps | apply issueMem_keeps

theorem execLdG_keeps {z : State} (h : Hdr) (x : LdArgs) (s : State) (h0 : Keeps z s) : KeepsOut z (execLdG h x s) := by
  unfold execLdG
  try dsimp only
  with_reducible repeat' first | intro _ | assumption | apply Ctx.load_keeps | apply issueMem_keeps

theorem execLdS_keeps {z : State} (h : Hdr) (x : LdArgs) (s : State) (h0 : Keeps z s) : KeepsOut z (execLdS h x s) := by
  unfold execLdS
  try dsimp only
  with_reducible repeat' first | intro _ | assumption | apply Ctx.load_keeps | apply issueMem_keeps

theorem execLdC_keeps {z : State} (h : Hdr) (x : LdArgs) (s : State) (h0 : Keeps z s) : KeepsOut z (execLdC h x s) := by
  unfold execLdC
  try dsimp only
  with_reducible repeat' first | intro _ | assumption | apply Ctx.load_keeps | apply issueMem_keeps

theorem execLdP_keeps {z : State} (h : Hdr) (x : LdArgs) (s : State) (h0 : Keeps z s) : KeepsOut z (execLdP h x s) := by
  unfold execLdP
  try dsimp only
  with_reducible repeat' first | intro _ | assumption | apply Ctx.load_keeps | apply issueMem_keeps

theorem execSt_keeps {z : State} (h : Hdr) (x : StArgs) (gsl : BitVec 4) (s : State) (h0 : Keeps z s) : KeepsOut z (execSt h x gsl s) := by
  unfold execSt
  try dsimp only
  with_reducible repeat' first | intro _ | assumption | apply Ctx.store_keeps | apply issueMem_keeps

theorem execStG_keeps {z : State} (h : Hdr) (x : StArgs) (s : State) (h0 : Keeps z s) : KeepsOut z (execStG h x s) := by
  unfold execStG
  try dsimp only
  with_reducible repeat' first | intro _ | assumption | apply Ctx.store_keeps | apply issueMem_keeps

theorem execStS_keeps {z : State} (h : Hdr) (x : StArgs) (s : State) (h0 : Keeps z s) : KeepsOut z (execStS h x s) := by
  unfold execStS
  try dsimp only
  with_reducible repeat' first | intro _ | assumption | apply Ctx.store_keeps | apply issueMem_keeps

theorem execStC_keeps {z : State} (h : Hdr) (x : StArgs) (s : State) (h0 : Keeps z s) : KeepsOut z (execStC h x s) := by
  unfold execStC
  try dsimp only
  with_reducible repeat' first | intro _ | assumption | apply Ctx.store_keeps | apply issueMem_keeps

theorem execStP_keeps {z : State} (h : Hdr) (x : StArgs) (s : State) (h0 : Keeps z s) : KeepsOut z (execStP h x s) := by
  unfold execStP
  try dsimp only
  with_reducible repeat' first | intro _ | assumption | apply Ctx.store_keeps | apply issueMem_keeps

theorem Ctx.prefLane_keeps {z : State} (c : Ctx) (lvl : PrefLvl) (a : Reg) (disp : BitVec 12) (s0 : State) (s : State) (l : ℕ) (_h0 : Keeps z s0) (h1 : Keeps z s) : Keeps z (Ctx.prefLane c lvl a disp s0 s l) := by
  unfold Ctx.prefLane
  try dsimp only
  repeat' first
    | with_reducible
        first
          | assumption | apply Ctx.lookUp_keeps | apply State.askHome_keeps | apply State.noteXlate_keeps | apply State.startWake_keeps
    | split

theorem execPref_keeps {z : State} (h : Hdr) (lvl : PrefLvl) (a : Reg) (disp : BitVec 12) (s : State) (h0 : Keeps z s) : KeepsOut z (execPref h lvl a disp s) := by
  unfold execPref
  try dsimp only
  with_reducible
    repeat' first
      | intro _ | assumption | apply keeps_foldl | apply Ctx.advance_keeps | apply Ctx.prefLane_keeps | apply issue_keeps

theorem execSpt_keeps {z : State} (h : Hdr) (d : Reg) (a : Reg) (s : State) (h0 : Keeps z s) : KeepsOut z (execSpt h d a s) := by
  unfold execSpt
  try dsimp only
  with_reducible repeat' first | assumption | apply laneOp_keeps

theorem execSpc_keeps {z : State} (h : Hdr) (sp : SpcSp) (off : Bool) (d : Reg) (cc : Reg) (a : Reg) (s : State) (h0 : Keeps z s) : KeepsOut z (execSpc h sp off d cc a s) := by
  unfold execSpc
  try dsimp only
  with_reducible repeat' first | assumption | apply laneOp_keeps

theorem Ctx.warmLane_keeps {z : State} (c : Ctx) (a : Reg) (disp : BitVec 12) (s0 : State) (s : State) (l : ℕ) (_h0 : Keeps z s0) (h1 : Keeps z s) : Keeps z (Ctx.warmLane c a disp s0 s l) := by
  unfold Ctx.warmLane
  try dsimp only
  repeat' first
    | (with_reducible first | assumption | apply State.noteXlate_keeps | apply State.send_keeps)
    | split

theorem execXlatePf_keeps {z : State} (h : Hdr) (a : Reg) (disp : BitVec 12) (s : State) (h0 : Keeps z s) : KeepsOut z (execXlatePf h a disp s) := by
  unfold execXlatePf
  try dsimp only
  with_reducible
    repeat' first
      | intro _ | assumption | apply keeps_foldl | apply Ctx.advance_keeps | apply Ctx.warmLane_keeps | apply issueMem_keeps

theorem execAtomAdd_keeps {z : State} (h : Hdr) (ty : Sys2Proof.Ty) (la : BitVec 4) (d : Reg) (a : Reg) (b : Reg) (s : State) (h0 : Keeps z s) : KeepsOut z (execAtomAdd h ty la d a b s) := by
  unfold execAtomAdd
  try dsimp only
  with_reducible repeat' first | intro _ | assumption | apply Ctx.atom_keeps | apply issueMem_keeps

theorem execAtomMin_keeps {z : State} (h : Hdr) (ty : Sys2Proof.Ty) (la : BitVec 4) (d : Reg) (a : Reg) (b : Reg) (s : State) (h0 : Keeps z s) : KeepsOut z (execAtomMin h ty la d a b s) := by
  unfold execAtomMin
  try dsimp only
  with_reducible repeat' first | intro _ | assumption | apply Ctx.atom_keeps | apply issueMem_keeps

theorem execAtomMax_keeps {z : State} (h : Hdr) (ty : Sys2Proof.Ty) (la : BitVec 4) (d : Reg) (a : Reg) (b : Reg) (s : State) (h0 : Keeps z s) : KeepsOut z (execAtomMax h ty la d a b s) := by
  unfold execAtomMax
  try dsimp only
  with_reducible repeat' first | intro _ | assumption | apply Ctx.atom_keeps | apply issueMem_keeps

theorem execAtomAnd_keeps {z : State} (h : Hdr) (ty : Sys2Proof.Ty) (la : BitVec 4) (d : Reg) (a : Reg) (b : Reg) (s : State) (h0 : Keeps z s) : KeepsOut z (execAtomAnd h ty la d a b s) := by
  unfold execAtomAnd
  try dsimp only
  with_reducible repeat' first | intro _ | assumption | apply Ctx.atom_keeps | apply issueMem_keeps

theorem execAtomOr_keeps {z : State} (h : Hdr) (ty : Sys2Proof.Ty) (la : BitVec 4) (d : Reg) (a : Reg) (b : Reg) (s : State) (h0 : Keeps z s) : KeepsOut z (execAtomOr h ty la d a b s) := by
  unfold execAtomOr
  try dsimp only
  with_reducible repeat' first | intro _ | assumption | apply Ctx.atom_keeps | apply issueMem_keeps

theorem execAtomXor_keeps {z : State} (h : Hdr) (ty : Sys2Proof.Ty) (la : BitVec 4) (d : Reg) (a : Reg) (b : Reg) (s : State) (h0 : Keeps z s) : KeepsOut z (execAtomXor h ty la d a b s) := by
  unfold execAtomXor
  try dsimp only
  with_reducible repeat' first | intro _ | assumption | apply Ctx.atom_keeps | apply issueMem_keeps

theorem execAtomExch_keeps {z : State} (h : Hdr) (ty : Sys2Proof.Ty) (la : BitVec 4) (d : Reg) (a : Reg) (b : Reg) (s : State) (h0 : Keeps z s) : KeepsOut z (execAtomExch h ty la d a b s) := by
  unfold execAtomExch
  try dsimp only
  with_reducible repeat' first | intro _ | assumption | apply Ctx.atom_keeps | apply issueMem_keeps

theorem execAtomCas_keeps {z : State} (h : Hdr) (ty : Sys2Proof.Ty) (la : BitVec 4) (d : Reg) (a : Reg) (b : Reg) (x : Reg) (s : State) (h0 : Keeps z s) : KeepsOut z (execAtomCas h ty la d a b x s) := by
  unfold execAtomCas
  try dsimp only
  with_reducible repeat' first | intro _ | assumption | apply Ctx.atom_keeps | apply issueMem_keeps

theorem execAtomFadd_keeps {z : State} (h : Hdr) (ty : Sys2Proof.Ty) (la : BitVec 4) (d : Reg) (a : Reg) (b : Reg) (s : State) (h0 : Keeps z s) : KeepsOut z (execAtomFadd h ty la d a b s) := by
  unfold execAtomFadd
  try dsimp only
  with_reducible repeat' first | intro _ | assumption | apply Ctx.atom_keeps | apply issueMem_keeps

theorem execAtomInc_keeps {z : State} (h : Hdr) (ty : Sys2Proof.Ty) (la : BitVec 4) (d : Reg) (a : Reg) (b : Reg) (s : State) (h0 : Keeps z s) : KeepsOut z (execAtomInc h ty la d a b s) := by
  unfold execAtomInc
  try dsimp only
  with_reducible repeat' first | intro _ | assumption | apply Ctx.atom_keeps | apply issueMem_keeps

theorem execRed_keeps {z : State} (h : Hdr) (op : MemOp) (ty : Sys2Proof.Ty) (a : Reg) (b : Reg) (s : State) (h0 : Keeps z s) : KeepsOut z (execRed h op ty a b s) := by
  unfold execRed
  try dsimp only
  with_reducible repeat' first | intro _ | assumption | apply Ctx.red_keeps | apply issueMem_keeps

theorem execFence_keeps {z : State} (h : Hdr) (scope : Scope) (s : State) (h0 : Keeps z s) : KeepsOut z (execFence h scope s) := by
  unfold execFence
  try dsimp only
  with_reducible
    repeat' first
      | intro _ | assumption | apply keeps_ite | apply Ctx.advance_keeps | apply Ctx.holdLanes_keeps | apply issue_keeps

theorem Ctx.hgPart_keeps {z : State} (c : Ctx) (s0 : State) (h : HgDesc) (l : ℕ) (level : ℕ) (x : HgLevel) (acc : State × List HgPart) (k : ℕ × ℕ) (_h0 : Keeps z s0) (h1 : Keeps z acc.1) : Keeps z (Ctx.hgPart c s0 h l level x acc k).1 := by
  unfold Ctx.hgPart
  try dsimp only
  repeat' first
    | with_reducible
        first
          | assumption | apply Ctx.lookUp_keeps | apply Ctx.sees_keeps | apply State.needMem_keeps | apply State.noteXlate_keeps
          | apply State.tryRequest_keeps | refine keeps_of_some ‹_› ?_
    | split

theorem Ctx.hgParts_keeps {z : State} (c : Ctx) (s0 : State) (l : ℕ) (a : Reg) (h : HgDesc) (l0 : ℕ) (n : ℕ) (s : State) (h0 : Keeps z s0) (h1 : Keeps z s) : Keeps z (Ctx.hgParts c s0 l a h l0 n s).1 := by
  unfold Ctx.hgParts
  try dsimp only
  with_reducible repeat' first | intro _ | assumption | apply Ctx.hgPart_keeps | apply keepsFst_foldl

theorem Ctx.hgLoadLane_keeps {z : State} (c : Ctx) (la : BitVec 4) (d : Reg) (a : Reg) (hd : ℕ → Option HgDesc) (l0 : ℕ) (n : ℕ) (s0 : State) (acc : State × List PLane) (l : ℕ) (h0 : Keeps z s0) (h1 : Keeps z acc.1) : Keeps z (Ctx.hgLoadLane c la d a hd l0 n s0 acc l).1 := by
  unfold Ctx.hgLoadLane
  try dsimp only
  repeat' first
    | (with_reducible first | assumption | apply Ctx.hgParts_keeps)
    | split

theorem execHgLoad_keeps {z : State} (h : Hdr) (la : BitVec 4) (d : Reg) (a : Reg) (b : Reg) (l0 : BitVec 4) (n : BitVec 4) (s : State) (h0 : Keeps z s) : KeepsOut z (execHgLoad h la d a b l0 n s) := by
  unfold execHgLoad
  try dsimp only
  repeat' first
    | with_reducible
        first
          | intro _ | assumption | apply keeps_ite | apply Ctx.advance_keeps | apply Ctx.askRecords_keeps | apply Ctx.hgLoadLane_keeps
          | apply Ctx.pendFault_keeps | apply Ctx.startPend_keeps | apply Ctx.trap_keeps | apply State.parkFor_keeps
          | apply issueMem_keeps | apply keepsFst_foldl
    | split

theorem Ctx.hgAdd_keeps {z : State} (c : Ctx) (s0 : State) (h : HgDesc) (l : ℕ) (s : State) (x : ℕ × ℕ) (_h0 : Keeps z s0) (h1 : Keeps z s) : Keeps z (Ctx.hgAdd c s0 h l s x) := by
  unfold Ctx.hgAdd
  try dsimp only
  repeat' first
    | (with_reducible first | assumption | apply Ctx.atomAt_keeps | apply State.tryRequest_keeps | apply keeps_getD)
    | split

theorem Ctx.hgAppend_keeps {z : State} (c : Ctx) (s : State) (h : HgDesc) (xs : List (ℕ × ℕ)) (h0 : Keeps z s) : KeepsOpt z (Ctx.hgAppend c s h xs) := by
  unfold Ctx.hgAppend
  try dsimp only
  with_reducible
    repeat' first
      | assumption | apply keepsOpt_ite | apply State.writeScratch_keeps | apply keepsOpt_some | apply keepsOpt_none

theorem Ctx.hgGradLane_keeps {z : State} (c : Ctx) (a : Reg) (d : Reg) (hd : Nat → Option HgDesc) (l0 : Nat) (n : Nat) (s0 : State) (acc : Option State) (l : Nat) (h0 : Keeps z s0) (h1 : KeepsOpt z acc) : KeepsOpt z (Ctx.hgGradLane c a d hd l0 n s0 acc l) := by
  unfold Ctx.hgGradLane
  split
  · have hs := h1 _ rfl
    dsimp only
    split
    · exact Ctx.hgAppend_keeps _ _ _ _ hs
    · exact keepsOpt_some (keeps_foldl (fun _ _ h => Ctx.hgAdd_keeps _ _ _ _ _ _ h0 h) hs)
  · exact h1

theorem execHgGrad_keeps {z : State} (h : Hdr) (d : Reg) (a : Reg) (b : Reg) (l0 : BitVec 4) (n : BitVec 4) (s : State) (h0 : Keeps z s) : KeepsOut z (execHgGrad h d a b l0 n s) := by
  unfold execHgGrad
  try dsimp only
  repeat' first
    | with_reducible
        first
          | intro _ | assumption | apply keeps_ite | apply Ctx.advance_keeps | apply Ctx.askRecords_keeps | apply Ctx.hgGradLane_keeps
          | apply Ctx.markClosing_keeps | apply Ctx.trap_keeps | apply State.parkFor_keeps | apply State.takeFault_keeps
          | apply issueMem_keeps | apply keepsOpt_foldl | apply keepsOpt_some | refine keeps_of_some ‹_› ?_
    | split

theorem execHgCorner_keeps {z : State} (h : Hdr) (d : Reg) (a : Reg) (b : Reg) (x : Reg) (lv : BitVec 4) (s : State) (h0 : Keeps z s) : KeepsOut z (execHgCorner h d a b x lv s) := by
  unfold execHgCorner
  try dsimp only
  repeat' first
    | with_reducible
        first
          | intro _ | assumption | apply keeps_ite | apply Ctx.advance_keeps | apply Ctx.askRecords_keeps | apply Ctx.trap_keeps
          | apply State.takeFault_keeps | apply State.writeLanes_keeps | apply issueMem_keeps
    | split

theorem Ctx.fillSlot_keeps {z : State} (c : Ctx) (k : ℕ) (a : Reg) (b : Reg) (s0 : State) (s : State) (l : ℕ) (_h0 : Keeps z s0) (h1 : Keeps z s) : Keeps z (Ctx.fillSlot c k a b s0 s l) := by
  unfold Ctx.fillSlot
  try dsimp only
  repeat' first
    | (with_reducible first | assumption | apply State.carryOps_keeps | apply State.updTeam_keeps)
    | split

theorem Ctx.send_keeps {z : State} (c : Ctx) (k : ℕ) (m : Mask) (a : Reg) (b : Reg) (p : Reg) (s : State) (h0 : Keeps z s) : Keeps z (Ctx.send c k m a b p s) := by
  unfold Ctx.send
  try dsimp only
  with_reducible repeat' first | intro _ | assumption | apply keeps_foldl | apply Ctx.fillSlot_keeps | apply State.writeLanes_keeps

theorem Ctx.sendOrPark_keeps {z : State} (c : Ctx) (i : Instr) (k : ℕ) (m : Mask) (a : Reg) (b : Reg) (p : Reg) (s : State) (h0 : Keeps z s) : Keeps z (Ctx.sendOrPark c i k m a b p s) := by
  unfold Ctx.sendOrPark
  try dsimp only
  repeat' first
    | with_reducible
        first
          | assumption | apply Ctx.advance_keeps | apply Ctx.send_keeps | apply State.startWake_keeps | apply State.updGroup_keeps
    | split

theorem execChanSend_keeps {z : State} (h : Hdr) (k : BitVec 4) (a : Reg) (b : Reg) (p : Reg) (s : State) (h0 : Keeps z s) : KeepsOut z (execChanSend h k a b p s) := by
  unfold execChanSend
  try dsimp only
  repeat' first
    | with_reducible
        first
          | intro _ | assumption | apply keeps_ite | apply Ctx.advance_keeps | apply Ctx.refuse_keeps | apply Ctx.sendOrPark_keeps
          | apply Ctx.trap_keeps | apply issue_keeps
    | split

theorem execChanSendDelivery_keeps {z : State} (gk : ℕ) (s : State) (h0 : Keeps z s) : KeepsOut z (execChanSendDelivery gk s) := by
  unfold execChanSendDelivery
  try dsimp only
  repeat' first
    | with_reducible
        first
          | assumption | apply keeps_ite | apply keepsOut_next | apply Ctx.sendOrPark_keeps | apply State.updGroup_keeps
    | split

theorem Ctx.recv_keeps {z : State} (c : Ctx) (k : ℕ) (m : Mask) (d : Reg) (s : State) (h0 : Keeps z s) : Keeps z (Ctx.recv c k m d s) := by
  unfold Ctx.recv
  try dsimp only
  with_reducible
    repeat' first
      | intro _ | assumption | apply keeps_foldl | apply State.acquire_keeps | apply State.observeOps_keeps | apply State.updTeam_keeps
      | apply State.writeLanes_keeps

theorem Ctx.recvOrPark_keeps {z : State} (c : Ctx) (i : Instr) (k : ℕ) (m : Mask) (d : Reg) (s : State) (h0 : Keeps z s) : Keeps z (Ctx.recvOrPark c i k m d s) := by
  unfold Ctx.recvOrPark
  try dsimp only
  repeat' first
    | with_reducible
        first
          | assumption | apply Ctx.advance_keeps | apply Ctx.recv_keeps | apply State.startWake_keeps | apply State.updGroup_keeps
    | split

theorem execChanRecv_keeps {z : State} (h : Hdr) (k : BitVec 4) (d : Reg) (s : State) (h0 : Keeps z s) : KeepsOut z (execChanRecv h k d s) := by
  unfold execChanRecv
  try dsimp only
  repeat' first
    | with_reducible
        first
          | intro _ | assumption | apply keeps_ite | apply Ctx.advance_keeps | apply Ctx.recvOrPark_keeps | apply Ctx.refuse_keeps
          | apply Ctx.trap_keeps | apply issue_keeps
    | split

theorem execChanRecvDelivery_keeps {z : State} (gk : ℕ) (s : State) (h0 : Keeps z s) : KeepsOut z (execChanRecvDelivery gk s) := by
  unfold execChanRecvDelivery
  try dsimp only
  repeat' first
    | with_reducible
        first
          | assumption | apply keeps_ite | apply keepsOut_next | apply Ctx.recvOrPark_keeps | apply State.updGroup_keeps
    | split

theorem execChanProbe_keeps {z : State} (h : Hdr) (k : BitVec 4) (d : Reg) (s : State) (h0 : Keeps z s) : KeepsOut z (execChanProbe h k d s) := by
  unfold execChanProbe
  try dsimp only
  repeat' first
    | with_reducible
        first
          | intro _ | assumption | apply Ctx.advance_keeps | apply Ctx.refuse_keeps | apply State.writeLanes_keeps | apply issue_keeps
    | split

theorem Ctx.pushLane_keeps {z : State} (c : Ctx) (d : Reg) (a : Reg) (b : Reg) (p : Reg) (s0 : State) (s : State) (l : ℕ) (_h0 : Keeps z s0) (h1 : Keeps z s) : Keeps z (Ctx.pushLane c d a b p s0 s l) := by
  unfold Ctx.pushLane
  try dsimp only
  repeat' first
    | (with_reducible first | assumption | apply State.carryOps_keeps | apply State.setBank_keeps | apply State.writeLanes_keeps)
    | split

theorem Ctx.popLane_keeps {z : State} (c : Ctx) (d : Reg) (a : Reg) (p : Reg) (s0 : State) (s : State) (l : ℕ) (_h0 : Keeps z s0) (h1 : Keeps z s) : Keeps z (Ctx.popLane c d a p s0 s l) := by
  unfold Ctx.popLane
  try dsimp only
  repeat' first
    | with_reducible
        first
          | assumption | apply State.acquire_keeps | apply State.observeOps_keeps | apply State.setBank_keeps
          | apply State.writeLanes_keeps
    | split

theorem execFifoPush_keeps {z : State} (h : Hdr) (d : Reg) (a : Reg) (b : Reg) (p : Reg) (s : State) (h0 : Keeps z s) : KeepsOut z (execFifoPush h d a b p s) := by
  unfold execFifoPush
  try dsimp only
  repeat' first
    | with_reducible
        first
          | intro _ | assumption | apply keeps_foldl | apply Ctx.advance_keeps | apply Ctx.pushLane_keeps | apply State.parkFor_keeps
          | apply issue_keeps
    | split

theorem execFifoPop_keeps {z : State} (h : Hdr) (d : Reg) (a : Reg) (p : Reg) (s : State) (h0 : Keeps z s) : KeepsOut z (execFifoPop h d a p s) := by
  unfold execFifoPop
  try dsimp only
  repeat' first
    | with_reducible
        first
          | intro _ | assumption | apply keeps_foldl | apply Ctx.advance_keeps | apply Ctx.popLane_keeps | apply State.parkFor_keeps
          | apply issue_keeps
    | split

theorem Ctx.bankDemand_keeps {z : State} (c : Ctx) (s : State) (n : Nat) (m : BMode) (h0 : Keeps z s) : KeepsOpt z (Ctx.bankDemand c s n m) := by
  unfold Ctx.bankDemand
  dsimp only
  repeat' split
  all_goals first
    | exact keepsOpt_some h0
    | (intro t e
       obtain ⟨ts, -, h⟩ := Option.map_eq_some_iff.1 e
       rw [← h]
       exact keeps_foldl (fun u x hu => State.reclaimTeam_keeps _ _ (keeps_ite (State.evictTeam_keeps _ _ hu) hu)) h0)

theorem State.cleanWay_keeps {z : State} (s : State) (b : ℕ) (core : ℕ) (classH : Bool) (h0 : Keeps z s) : Keeps z (State.cleanWay s b core classH) := by
  unfold State.cleanWay
  try dsimp only
  with_reducible repeat' first | intro _ | assumption | apply keeps_foldl | apply State.askWrite_keeps | apply State.setBank_keeps

theorem State.flushWay_keeps {z : State} (s : State) (b : ℕ) (core : ℕ) (classH : Bool) (h0 : Keeps z s) : Keeps z (State.flushWay s b core classH) := by
  unfold State.flushWay
  try dsimp only
  with_reducible repeat' first | assumption | apply State.cleanWay_keeps | apply State.setBank_keeps

theorem Ctx.modeLane_keeps {z : State} (c : Ctx) (la : BitVec 4) (m : BMode) (d : Reg) (a : Reg) (p : Reg) (s0 : State) (acc : Option (State × List PLane)) (l : Nat) (_h0 : Keeps z s0) (h1 : KeepsOptFst z acc) : KeepsOptFst z (Ctx.modeLane c la m d a p s0 acc l) := by
  intro t e
  obtain ⟨⟨s1, ps⟩, ha, hb⟩ := Option.bind_eq_some_iff.1 e
  obtain ⟨s2, hc, hd⟩ := Option.map_eq_some_iff.1 hb
  have hs := Ctx.bankDemand_keeps c s1 _ m (h1 _ ha) _ hc
  rw [← hd]
  dsimp only
  split
  · exact State.setBank_keeps _ _ _ (State.flushWay_keeps _ _ _ _ (keeps_ite (State.updTeam_keeps _ _ _ hs) hs))
  · exact hs

theorem execBankMode_keeps {z : State} (h : Hdr) (la : BitVec 4) (mode : Reg) (d : Reg) (a : Reg) (p : Reg) (s : State) (h0 : Keeps z s) : KeepsOut z (execBankMode h la mode d a p s) := by
  unfold execBankMode
  refine issue_keeps _ _ _ h0 (fun c act s hs => ?_)
  split
  · exact Ctx.refuse_keeps _ _ _ hs
  · next m _ =>
    have hf : ∀ (xs : List Nat) (acc : Option (State × List PLane)), KeepsOptFst z acc →
        KeepsOptFst z (xs.foldl (c.modeLane la m d a p s) acc) := by
      intro xs
      induction xs with
      | nil => intro acc ha; exact ha
      | cons x xs ih => intro acc ha; exact ih _ (Ctx.modeLane_keeps _ _ _ _ _ _ _ _ _ hs ha)
    split
    · next e => exact Ctx.advance_keeps _ _ _ (Ctx.startPend_keeps _ _ _ _ (hf _ _ (keepsOptFst_some hs) _ e))
    · exact State.parkFor_keeps _ _ _ hs

theorem State.landLane_keeps {z : State} (s : State) (gk : ℕ) (id : ℕ) (lane : ℕ) (h0 : Keeps z s) : Keeps z (State.landLane s gk id lane) := ⟨h0.1⟩

theorem execBankModeComplete_keeps {z : State} (bank : ℕ) (s : State) (h0 : Keeps z s) : KeepsOut z (execBankModeComplete bank s) := by
  unfold execBankModeComplete
  try dsimp only
  repeat' first
    | with_reducible
        first
          | assumption | apply keeps_ite | apply keepsOut_next | apply State.clearBank_keeps | apply State.landLane_keeps
          | apply State.setBank_keeps | apply State.updTeam_keeps
    | split

theorem execSctxGet_keeps {z : State} (h : Hdr) (d : Reg) (s : State) (h0 : Keeps z s) : KeepsOut z (execSctxGet h d s) := by
  unfold execSctxGet
  try dsimp only
  with_reducible repeat' first | assumption | apply laneOp_keeps

theorem State.chargeOp_keeps {z : State} (s : State) (gk : ℕ) (k : ℕ) (h0 : Keeps z s) : Keeps z (State.chargeOp s gk k) := ⟨h0.1⟩

theorem State.holdOp_keeps {z : State} (s : State) (gk : ℕ) (h0 : Keeps z s) : Keeps z (State.holdOp s gk) := by
  unfold State.holdOp
  try dsimp only
  repeat' first
    | (with_reducible first | assumption | apply State.setCluster_keeps)
    | split

theorem State.jointTrap_keeps {z : State} (s : State) (gk : ℕ) (cause : Cause) (h0 : Keeps z s) : Keeps z (State.jointTrap s gk cause) := by
  unfold State.jointTrap
  try dsimp only
  repeat' first
    | (with_reducible first | intro _ | assumption | apply keeps_foldl | apply Ctx.trap_keeps | apply State.updGroup_keeps)
    | split

theorem State.jointRelease_keeps {z : State} (s : State) (ms : List ℕ) (h0 : Keeps z s) : Keeps z (State.jointRelease s ms) := by
  unfold State.jointRelease
  try dsimp only
  repeat' first
    | (with_reducible first | intro _ | assumption | apply keeps_foldl | apply Ctx.advance_keeps | apply State.updGroup_keeps)
    | split

theorem State.jointRun_keeps {z : State} (s : State) (gk : ℕ) (h0 : Keeps z s) : Keeps z (State.jointRun s gk) := by
  unfold State.jointRun
  try dsimp only
  repeat' first
    | with_reducible
        first
          | intro _ | assumption | apply keeps_ite | apply keeps_foldl | apply State.chargeOp_keeps | apply State.jointRelease_keeps
          | apply State.startOp_keeps | apply State.touch_keeps | apply State.updGroup_keeps
    | split

theorem execJointOperationStart_keeps {z : State} (gk : ℕ) (s : State) (h0 : Keeps z s) : KeepsOut z (execJointOperationStart gk s) := by
  unfold execJointOperationStart
  try dsimp only
  repeat' first
    | with_reducible
        first
          | assumption | apply keepsOut_next | apply State.jointRun_keeps | apply State.jointTrap_keeps | apply State.startWake_keeps
    | split

theorem State.tryForm_keeps {z : State} (s : State) (tuid : ℕ) (m : Mask) (h0 : Keeps z s) : Keeps z (State.tryForm s tuid m) := by
  unfold State.tryForm
  try dsimp only
  repeat' first
    | with_reducible
        first
          | intro _ | assumption | apply keeps_ite | apply keeps_foldl | apply Ctx.advance_keeps | apply State.updGroup_keeps
          | apply State.updTeam_keeps
    | split

theorem State.wakeSlots_keeps {z : State} (s : State) (tuid : ℕ) (h0 : Keeps z s) : Keeps z (State.wakeSlots s tuid) := by
  unfold State.wakeSlots
  try dsimp only
  repeat' first
    | with_reducible
        first
          | intro _ | assumption | apply keeps_ite | apply keeps_foldl | apply State.tryForm_keeps | apply State.updGroup_keeps
    | split

theorem execAnvilCompletion_keeps {z : State} (tuid : ℕ) (op : ℕ) (s : State) (h0 : Keeps z s) : KeepsOut z (execAnvilCompletion tuid op s) := by
  unfold execAnvilCompletion
  try dsimp only
  with_reducible repeat' first | assumption | apply keepsOut_next | apply State.endOp_keeps | apply State.wakeSlots_keeps

theorem enterLatch_keeps {z : State} (i : Instr) (s : State) (h0 : Keeps z s) : KeepsOut z (enterLatch i s) := by
  unfold enterLatch
  try dsimp only
  with_reducible
    repeat' first
      | intro _ | assumption | apply keeps_ite | apply Ctx.advance_keeps | apply State.updGroup_keeps | apply issue_keeps

theorem execMmaF16_keeps {z : State} (h : Hdr) (x : MmaArgs) (s : State) (h0 : Keeps z s) : KeepsOut z (execMmaF16 h x s) := by
  unfold execMmaF16
  try dsimp only
  with_reducible repeat' first | assumption | apply enterLatch_keeps

theorem execMmaBf16_keeps {z : State} (h : Hdr) (x : MmaArgs) (s : State) (h0 : Keeps z s) : KeepsOut z (execMmaBf16 h x s) := by
  unfold execMmaBf16
  try dsimp only
  with_reducible repeat' first | assumption | apply enterLatch_keeps

theorem execMmaE4m3_keeps {z : State} (h : Hdr) (x : MmaArgs) (s : State) (h0 : Keeps z s) : KeepsOut z (execMmaE4m3 h x s) := by
  unfold execMmaE4m3
  try dsimp only
  with_reducible repeat' first | assumption | apply enterLatch_keeps

theorem execMmaE5m2_keeps {z : State} (h : Hdr) (x : MmaArgs) (s : State) (h0 : Keeps z s) : KeepsOut z (execMmaE5m2 h x s) := by
  unfold execMmaE5m2
  try dsimp only
  with_reducible repeat' first | assumption | apply enterLatch_keeps

theorem execMmaS8_keeps {z : State} (h : Hdr) (x : MmaArgs) (s : State) (h0 : Keeps z s) : KeepsOut z (execMmaS8 h x s) := by
  unfold execMmaS8
  try dsimp only
  with_reducible repeat' first | assumption | apply enterLatch_keeps

theorem execMmaDs8_keeps {z : State} (h : Hdr) (x : MmaArgs) (s : State) (h0 : Keeps z s) : KeepsOut z (execMmaDs8 h x s) := by
  unfold execMmaDs8
  try dsimp only
  with_reducible repeat' first | assumption | apply enterLatch_keeps

theorem accOp_keeps {z : State} (i : Instr) (ds : Sys2Proof.DSlots) (s : State) (k : Ctx → State → State) (h0 : Keeps z s) (h1 : ∀ y0 y1, Keeps z y1 → Keeps z (k y0 y1)) : KeepsOut z (accOp i ds s k) := by
  unfold accOp
  try dsimp only
  with_reducible repeat' first | intro _ | assumption | apply keeps_ite | apply h1 | apply State.updGroup_keeps | apply groupOp_keeps

theorem Ctx.startAcc_keeps {z : State} (c : Ctx) (i : Instr) (ds : Sys2Proof.DSlots) (cap : AnvilCap) (tags : List (ℕ × ℕ)) (s : State) (h0 : Keeps z s) : Keeps z (Ctx.startAcc c i ds cap tags s) := by
  unfold Ctx.startAcc
  try dsimp only
  with_reducible repeat' first | assumption | apply Ctx.advance_keeps | apply State.startOp_keeps

theorem execAccZero_keeps {z : State} (h : Hdr) (ds : Sys2Proof.DSlots) (d : Reg) (n : Reg) (s : State) (h0 : Keeps z s) : KeepsOut z (execAccZero h ds d n s) := by
  unfold execAccZero
  try dsimp only
  with_reducible repeat' first | intro _ | assumption | apply Ctx.startAcc_keeps | apply accOp_keeps

theorem execAccLd_keeps {z : State} (h : Hdr) (ds : Sys2Proof.DSlots) (ty : Sys2Proof.Ty) (d : Reg) (a : Reg) (s : State) (h0 : Keeps z s) : KeepsOut z (execAccLd h ds ty d a s) := by
  unfold execAccLd
  try dsimp only
  with_reducible repeat' first | intro _ | assumption | apply Ctx.startAcc_keeps | apply accOp_keeps

theorem execAccMov_keeps {z : State} (h : Hdr) (ds : Sys2Proof.DSlots) (d : Reg) (a : Reg) (s : State) (h0 : Keeps z s) : KeepsOut z (execAccMov h ds d a s) := by
  unfold execAccMov
  try dsimp only
  with_reducible repeat' first | intro _ | assumption | apply Ctx.startAcc_keeps | apply accOp_keeps

theorem execAccAdd_keeps {z : State} (h : Hdr) (ds : Sys2Proof.DSlots) (d : Reg) (a : Reg) (b : Reg) (s : State) (h0 : Keeps z s) : KeepsOut z (execAccAdd h ds d a b s) := by
  unfold execAccAdd
  try dsimp only
  with_reducible repeat' first | intro _ | assumption | apply Ctx.startAcc_keeps | apply accOp_keeps

theorem execAccScale_keeps {z : State} (h : Hdr) (ds : Sys2Proof.DSlots) (d : Reg) (a : Reg) (b : Reg) (s : State) (h0 : Keeps z s) : KeepsOut z (execAccScale h ds d a b s) := by
  unfold execAccScale
  try dsimp only
  with_reducible repeat' first | intro _ | assumption | apply Ctx.startAcc_keeps | apply accOp_keeps

theorem execAccDrain_keeps {z : State} (h : Hdr) (ds : Sys2Proof.DSlots) (la : BitVec 4) (ty : Sys2Proof.Ty) (tpb : Bool) (d : Reg) (a : Reg) (b : Reg) (s : State) (h0 : Keeps z s) : KeepsOut z (execAccDrain h ds la ty tpb d a b s) := by
  unfold execAccDrain
  try dsimp only
  repeat' first
    | with_reducible
        first
          | intro _ | assumption | apply keeps_ite | apply Ctx.advance_keeps | apply Ctx.askRecords_keeps | apply Ctx.pendFault_keeps
          | apply Ctx.startPend_keeps | apply State.startOp_keeps | apply State.updGroup_keeps | apply accOp_keeps
    | split

theorem Ctx.fillAsk_keeps {z : State} (c : Ctx) (l : ℕ) (acc : State × List (ℕ × ℕ)) (x : ℕ × Target) (h0 : Keeps z acc.1) : Keeps z (Ctx.fillAsk c l acc x).1 := by
  unfold Ctx.fillAsk
  try dsimp only
  repeat' first
    | with_reducible
        first
          | assumption | apply State.askHome_keeps | apply State.needMem_keeps | apply State.tryRequest_keeps
          | refine keeps_of_some ‹_› ?_
    | split

theorem Ctx.imageXlates_keeps {z : State} (c : Ctx) (ea : DWord) (s : State) (h0 : Keeps z s) : Keeps z (Ctx.imageXlates c ea s) := by
  unfold Ctx.imageXlates
  try dsimp only
  with_reducible repeat' first | intro _ | assumption | apply keeps_ite | apply keeps_foldl | apply State.noteXlate_keeps

theorem Ctx.image_keeps {z : State} (c : Ctx) (s : State) (a : Reg) (acc : Acc) (k : ℕ → Image5 → State → State) (h0 : Keeps z s) (h1 : ∀ y0 y1 y2, Keeps z y2 → Keeps z (k y0 y1 y2)) : Keeps z (Ctx.image c s a acc k) := by
  unfold Ctx.image
  try dsimp only
  repeat' first
    | with_reducible
        first
          | assumption | apply h1 | apply Ctx.imageXlates_keeps | apply State.parkFor_keeps | apply State.takeFault_keeps
    | split

theorem execAccSpill_keeps {z : State} (h : Hdr) (ds : Sys2Proof.DSlots) (a : Reg) (b : Reg) (s : State) (h0 : Keeps z s) : KeepsOut z (execAccSpill h ds a b s) := by
  unfold execAccSpill
  try dsimp only
  with_reducible repeat' first | intro _ | assumption | apply Ctx.image_keeps | apply Ctx.startAcc_keeps | apply accOp_keeps

theorem execAccFill_keeps {z : State} (h : Hdr) (ds : Sys2Proof.DSlots) (d : Reg) (a : Reg) (s : State) (h0 : Keeps z s) : KeepsOut z (execAccFill h ds d a s) := by
  unfold execAccFill
  try dsimp only
  repeat' first
    | with_reducible
        first
          | intro _ | assumption | apply Ctx.fillAsk_keeps | apply Ctx.image_keeps | apply Ctx.startAcc_keeps | apply State.touch_keeps
          | apply accOp_keeps | apply keepsFst_foldl
    | split

theorem execGangForm_keeps {z : State} (h : Hdr) (a : Reg) (s : State) (h0 : Keeps z s) : KeepsOut z (execGangForm h a s) := by
  unfold execGangForm
  try dsimp only
  repeat' first
    | with_reducible
        first
          | intro _ | assumption | apply keeps_ite | apply keeps_foldl | apply Ctx.trap_keeps | apply State.trapGroup_keeps
          | apply State.tryForm_keeps | apply State.updGroup_keeps | apply groupOp_keeps
    | split

theorem execGangBrk_keeps {z : State} (h : Hdr) (s : State) (h0 : Keeps z s) : KeepsOut z (execGangBrk h s) := by
  unfold execGangBrk
  try dsimp only
  with_reducible
    repeat' first
      | intro _ | assumption | apply keeps_ite | apply keeps_foldl | apply Ctx.advance_keeps | apply State.gangExit_keeps
      | apply State.updGroup_keeps | apply State.updTeam_keeps | apply groupOp_keeps

theorem execDslotWait_keeps {z : State} (h : Hdr) (wmask : BitVec 8) (s : State) (h0 : Keeps z s) : KeepsOut z (execDslotWait h wmask s) := by
  unfold execDslotWait
  try dsimp only
  with_reducible
    repeat' first
      | intro _ | assumption | apply keeps_ite | apply Ctx.advance_keeps | apply State.updGroup_keeps | apply State.updTeam_keeps
      | apply issue_keeps

theorem Ctx.waitEach_keeps {z : State} (c : Ctx) (i : Instr) (act : Mask) (f : ℕ → LaneWait) (s : State) (h0 : Keeps z s) : Keeps z (Ctx.waitEach c i act f s) := by
  unfold Ctx.waitEach
  try dsimp only
  with_reducible repeat' first | assumption | apply Ctx.moveSome_keeps | apply State.updGroup_keeps

theorem Ctx.barWait_keeps {z : State} (c : Ctx) (i : Instr) (lvl : BarLevel) (k : ℕ) (act : Mask) (tok : ℕ → Word) (s : State) (h0 : Keeps z s) : Keeps z (Ctx.barWait c i lvl k act tok s) := by
  unfold Ctx.barWait
  try dsimp only
  with_reducible
    repeat' first
      | intro _ | assumption | apply keeps_ite | apply keeps_foldl | apply Ctx.advance_keeps | apply Ctx.waitEach_keeps
      | apply State.acquire_keeps | apply State.observeOps_keeps

theorem Ctx.arrive_keeps {z : State} (c : Ctx) (lvl : BarLevel) (j : ℕ) (act : Mask) (s : State) (k : (ℕ → Word) → State → State) (h0 : Keeps z s) (h1 : ∀ y0 y1, Keeps z y1 → Keeps z (k y0 y1)) : Keeps z (Ctx.arrive c lvl j act s k) := by
  unfold Ctx.arrive
  try dsimp only
  with_reducible
    repeat' first
      | intro _ | assumption | apply keeps_ite | apply keeps_foldl | apply h1 | apply Ctx.holdLanes_keeps | apply State.carryOps_keeps
      | apply State.setBar_keeps

theorem Ctx.barrier_keeps {z : State} (c : Ctx) (i : Instr) (lvl : BarLevel) (mode : BarMode) (k : ℕ) (d : Reg) (a : Reg) (act : Mask) (s : State) (h0 : Keeps z s) : Keeps z (Ctx.barrier c i lvl mode k d a act s) := by
  unfold Ctx.barrier
  try dsimp only
  repeat' first
    | with_reducible
        first
          | intro _ | assumption | apply keeps_ite | apply Ctx.advance_keeps | apply Ctx.arrive_keeps | apply Ctx.barWait_keeps
          | apply State.writeLanes_keeps
    | split

theorem execBarArrive_keeps {z : State} (h : Hdr) (d : Reg) (b : Reg) (s : State) (h0 : Keeps z s) : KeepsOut z (execBarArrive h d b s) := by
  unfold execBarArrive
  try dsimp only
  with_reducible repeat' first | intro _ | assumption | apply Ctx.barrier_keeps | apply issue_keeps

theorem execBarWait_keeps {z : State} (h : Hdr) (a : Reg) (b : Reg) (s : State) (h0 : Keeps z s) : KeepsOut z (execBarWait h a b s) := by
  unfold execBarWait
  try dsimp only
  with_reducible repeat' first | intro _ | assumption | apply Ctx.barrier_keeps | apply issue_keeps

theorem execBarSync_keeps {z : State} (h : Hdr) (b : Reg) (s : State) (h0 : Keeps z s) : KeepsOut z (execBarSync h b s) := by
  unfold execBarSync
  try dsimp only
  with_reducible repeat' first | intro _ | assumption | apply Ctx.barrier_keeps | apply issue_keeps

theorem Ctx.spanBarrier_keeps {z : State} (c : Ctx) (i : Instr) (lvl : BarLevel) (mode : BarMode) (k : ℕ) (d : Reg) (a : Reg) (act : Mask) (s : State) (h0 : Keeps z s) : Keeps z (Ctx.spanBarrier c i lvl mode k d a act s) := by
  unfold Ctx.spanBarrier
  try dsimp only
  repeat' first
    | (with_reducible first | assumption | apply Ctx.barrier_keeps | apply Ctx.trapOr_keeps)
    | split

theorem execBarDie_keeps {z : State} (h : Hdr) (mode : BarMode) (d : Reg) (a : Reg) (b : Reg) (s : State) (h0 : Keeps z s) : KeepsOut z (execBarDie h mode d a b s) := by
  unfold execBarDie
  try dsimp only
  with_reducible repeat' first | intro _ | assumption | apply Ctx.spanBarrier_keeps | apply issue_keeps

theorem execBarPkg_keeps {z : State} (h : Hdr) (mode : BarMode) (d : Reg) (a : Reg) (b : Reg) (s : State) (h0 : Keeps z s) : KeepsOut z (execBarPkg h mode d a b s) := by
  unfold execBarPkg
  try dsimp only
  with_reducible repeat' first | intro _ | assumption | apply Ctx.spanBarrier_keeps | apply issue_keeps

theorem Ctx.withRecord_keeps {z : State} (c : Ctx) (a : DWord) (s : State) (k : List EvRec → State) (h0 : Keeps z s) (h1 : ∀ y0, Keeps z (k y0)) : Keeps z (Ctx.withRecord c a s k) := by
  unfold Ctx.withRecord
  try dsimp only
  repeat' first
    | (with_reducible first | assumption | apply h1 | apply Ctx.askRecords_keeps | apply Ctx.trap_keeps | apply State.takeFault_keeps)
    | split

theorem execEvArm_keeps {z : State} (h : Hdr) (a : Reg) (m : Reg) (s : State) (h0 : Keeps z s) : KeepsOut z (execEvArm h a m s) := by
  unfold execEvArm
  try dsimp only
  with_reducible
    repeat' first
      | intro _ | assumption | apply Ctx.advance_keeps | apply Ctx.withRecord_keeps | apply State.updGroup_keeps | apply groupOp_keeps

theorem execEvMask_keeps {z : State} (h : Hdr) (op : MaskOp) (m : Reg) (s : State) (h0 : Keeps z s) : KeepsOut z (execEvMask h op m s) := by
  unfold execEvMask
  try dsimp only
  with_reducible
    repeat' first
      | intro _ | assumption | apply keeps_ite | apply Ctx.advance_keeps | apply State.updGroup_keeps | apply issue_keeps

theorem execEvClear_keeps {z : State} (h : Hdr) (m : Reg) (s : State) (h0 : Keeps z s) : KeepsOut z (execEvClear h m s) := by
  unfold execEvClear
  try dsimp only
  with_reducible
    repeat' first
      | intro _ | assumption | apply keeps_ite | apply Ctx.advance_keeps | apply State.updGroup_keeps | apply issue_keeps

theorem Ctx.wanyGo_keeps {z : State} (c : Ctx) (i : Instr) (g : Group) (s : State) (h0 : Keeps z s) : Keeps z (Ctx.wanyGo c i g s) := by
  unfold Ctx.wanyGo
  try dsimp only
  repeat' first
    | with_reducible
        first
          | assumption | apply Ctx.trap_keeps | apply State.dropRecs_keeps | apply State.enter_keeps | apply State.updGroup_keeps
    | split

theorem execWany_keeps {z : State} (h : Hdr) (a : Reg) (s : State) (h0 : Keeps z s) : KeepsOut z (execWany h a s) := by
  unfold execWany
  try dsimp only
  with_reducible
    repeat' first
      | intro _ | assumption | apply keeps_ite | apply Ctx.wanyGo_keeps | apply Ctx.withRecord_keeps | apply groupOp_keeps

theorem Ctx.postLane_keeps {z : State} (c : Ctx) (slot : ℕ) (d : Reg) (a : Reg) (b : Reg) (s0 : State) (s : State) (l : ℕ) (_h0 : Keeps z s0) (h1 : Keeps z s) : Keeps z (Ctx.postLane c slot d a b s0 s l) := by
  unfold Ctx.postLane
  try dsimp only
  repeat' first
    | with_reducible
        first
          | assumption | apply State.carryOps_keeps | apply State.testEvents_keeps | apply State.updGroup_keeps
          | apply State.writeLanes_keeps
    | split

theorem execMboxPost_keeps {z : State} (h : Hdr) (slot : BitVec 2) (d : Reg) (a : Reg) (b : Reg) (s : State) (h0 : Keeps z s) : KeepsOut z (execMboxPost h slot d a b s) := by
  unfold execMboxPost
  try dsimp only
  with_reducible
    repeat' first
      | intro _ | assumption | apply keeps_ite | apply keeps_foldl | apply Ctx.advance_keeps | apply Ctx.postLane_keeps
      | apply Ctx.trap_keeps | apply issue_keeps

theorem execMboxRead_keeps {z : State} (h : Hdr) (slot : BitVec 2) (d : Reg) (p : Reg) (s : State) (h0 : Keeps z s) : KeepsOut z (execMboxRead h slot d p s) := by
  unfold execMboxRead
  try dsimp only
  with_reducible
    repeat' first
      | intro _ | assumption | apply keeps_ite | apply Ctx.advance_keeps | apply State.acquire_keeps | apply State.observeOps_keeps
      | apply State.updGroup_keeps | apply State.updTeam_keeps | apply State.writeLanes_keeps | apply issue_keeps

theorem execTlWait_keeps {z : State} (h : Hdr) (a : Reg) (b : Reg) (s : State) (h0 : Keeps z s) : KeepsOut z (execTlWait h a b s) := by
  unfold execTlWait
  try dsimp only
  with_reducible
    repeat' first
      | intro _ | assumption | apply keeps_ite | apply Ctx.advance_keeps | apply Ctx.waitEach_keeps | apply State.acquire_keeps
      | apply issue_keeps

theorem execTlRead_keeps {z : State} (h : Hdr) (err : Bool) (d : Reg) (b : Reg) (s : State) (h0 : Keeps z s) : KeepsOut z (execTlRead h err d b s) := by
  unfold execTlRead
  try dsimp only
  with_reducible
    repeat' first
      | intro _ | assumption | apply Ctx.advance_keeps | apply State.acquire_keeps | apply State.writeLanes_keeps | apply issue_keeps

theorem execTlTry_keeps {z : State} (h : Hdr) (d : Reg) (a : Reg) (b : Reg) (p : Reg) (s : State) (h0 : Keeps z s) : KeepsOut z (execTlTry h d a b p s) := by
  unfold execTlTry
  try dsimp only
  with_reducible
    repeat' first
      | intro _ | assumption | apply Ctx.advance_keeps | apply State.acquire_keeps | apply State.writeLanes_keeps | apply issue_keeps

theorem execGslotSet_keeps {z : State} (h : Hdr) (a : Reg) (b : Reg) (s : State) (h0 : Keeps z s) : KeepsOut z (execGslotSet h a b s) := by
  unfold execGslotSet
  try dsimp only
  repeat' first
    | with_reducible
        first
          | intro _ | assumption | apply Ctx.advance_keeps | apply State.latchHeads_keeps | apply State.updGroup_keeps
          | apply issue_keeps
    | split

theorem execGslotClr_keeps {z : State} (h : Hdr) (b : Reg) (s : State) (h0 : Keeps z s) : KeepsOut z (execGslotClr h b s) := by
  unfold execGslotClr
  try dsimp only
  with_reducible
    repeat' first
      | intro _ | assumption | apply keeps_ite | apply Ctx.advance_keeps | apply State.updGroup_keeps | apply issue_keeps

theorem Ctx.launchLane_keeps {z : State} (c : Ctx) (d : Reg) (p : Reg) (a : Reg) (b : Reg) (s0 : State) (s : State) (l : ℕ) (_h0 : Keeps z s0) (h1 : Keeps z s) : Keeps z (Ctx.launchLane c d p a b s0 s l) := by
  unfold Ctx.launchLane
  try dsimp only
  repeat' first
    | (with_reducible first | assumption | apply State.setPart_keeps | apply State.writeLanes_keeps)
    | split

theorem execLaunch_keeps {z : State} (h : Hdr) (d : Reg) (a : Reg) (b : Reg) (p : Reg) (s : State) (h0 : Keeps z s) : KeepsOut z (execLaunch h d a b p s) := by
  unfold execLaunch
  try dsimp only
  with_reducible
    repeat' first
      | intro _ | assumption | apply keeps_foldl | apply Ctx.advance_keeps | apply Ctx.launchLane_keeps | apply issue_keeps

theorem State.spillTape_keeps {z : State} (s : State) (p : ℕ) (n : ℕ) (classH : Bool) (bs : List Byte) (h0 : Keeps z s) : Keeps z (State.spillTape s p n classH bs) := by
  unfold State.spillTape
  try dsimp only
  repeat' first
    | with_reducible
        first
          | assumption | apply keeps_ite | apply State.askWrite_keeps | apply State.needMem_keeps | apply State.tryRequest_keeps
          | apply State.writeBytes_keeps | apply keeps_getD
    | split

theorem Ctx.tapeLane_keeps {z : State} (c : Ctx) (d : Reg) (p : Reg) (b : Reg) (s0 : State) (s : State) (l : ℕ) (_h0 : Keeps z s0) (h1 : Keeps z s) : Keeps z (Ctx.tapeLane c d p b s0 s l) := by
  unfold Ctx.tapeLane
  try dsimp only
  repeat' first
    | (with_reducible first | assumption | apply State.setPart_keeps | apply State.spillTape_keeps | apply State.writeLanes_keeps)
    | split

theorem execTapePush_keeps {z : State} (h : Hdr) (d : Reg) (b : Reg) (p : Reg) (s : State) (h0 : Keeps z s) : KeepsOut z (execTapePush h d b p s) := by
  unfold execTapePush
  try dsimp only
  with_reducible
    repeat' first
      | intro _ | assumption | apply keeps_foldl | apply Ctx.advance_keeps | apply Ctx.tapeLane_keeps | apply issueMem_keeps

theorem execLeaveReq_keeps {z : State} (h : Hdr) (cls : LeaveCls) (s : State) (h0 : Keeps z s) : KeepsOut z (execLeaveReq h cls s) := by
  unfold execLeaveReq
  try dsimp only
  with_reducible
    repeat' first
      | intro _ | assumption | apply keeps_ite | apply Ctx.advance_keeps | apply State.updGroup_keeps | apply issue_keeps

theorem execLeaveRel_keeps {z : State} (h : Hdr) (cls : LeaveCls) (s : State) (h0 : Keeps z s) : KeepsOut z (execLeaveRel h cls s) := by
  unfold execLeaveRel
  try dsimp only
  with_reducible
    repeat' first
      | intro _ | assumption | apply keeps_ite | apply Ctx.advance_keeps | apply State.updGroup_keeps | apply issue_keeps

theorem execRegionBegin_keeps {z : State} (h : Hdr) (s : State) (h0 : Keeps z s) : KeepsOut z (execRegionBegin h s) := by
  unfold execRegionBegin
  try dsimp only
  with_reducible
    repeat' first
      | intro _ | assumption | apply keeps_ite | apply Ctx.advance_keeps | apply Ctx.trap_keeps | apply State.updGroup_keeps
      | apply groupOp_keeps

theorem execRegionEnd_keeps {z : State} (h : Hdr) (s : State) (h0 : Keeps z s) : KeepsOut z (execRegionEnd h s) := by
  unfold execRegionEnd
  try dsimp only
  repeat' first
    | with_reducible
        first
          | intro _ | assumption | apply keeps_ite | apply Ctx.advance_keeps | apply Ctx.trap_keeps | apply State.applyGroupStaged_keeps
          | apply State.lowerRegions_keeps | apply State.updGroup_keeps | apply groupOp_keeps
    | split

theorem execRegsGrow_keeps {z : State} (h : Hdr) (d : Reg) (n : Reg) (s : State) (h0 : Keeps z s) : KeepsOut z (execRegsGrow h d n s) := by
  unfold execRegsGrow
  try dsimp only
  with_reducible
    repeat' first
      | intro _ | assumption | apply keeps_ite | apply Ctx.advance_keeps | apply State.growStep_keeps | apply State.updGroup_keeps
      | apply State.writeLanes_keeps | apply groupOp_keeps

theorem execRegsShrink_keeps {z : State} (h : Hdr) (n : Reg) (s : State) (h0 : Keeps z s) : KeepsOut z (execRegsShrink h n s) := by
  unfold execRegsShrink
  try dsimp only
  with_reducible
    repeat' first
      | intro _ | assumption | apply keeps_ite | apply Ctx.advance_keeps | apply State.growStep_keeps | apply State.updGroup_keeps
      | apply groupOp_keeps

theorem execSregGet_keeps {z : State} (h : Hdr) (d : Reg) (x : Reg) (s : State) (h0 : Keeps z s) : KeepsOut z (execSregGet h d x s) := by
  unfold execSregGet
  try dsimp only
  with_reducible repeat' first | assumption | apply laneOp_keeps

theorem Ctx.sregWrite_keeps {z : State} (c : Ctx) (idx : ℕ) (w : Word) (s : State) (h0 : Keeps z s) : Keeps z (Ctx.sregWrite c idx w s) := by
  unfold Ctx.sregWrite
  try dsimp only
  repeat' first
    | (with_reducible first | assumption | apply State.phaseSlices_keeps | apply State.startWake_keeps | apply State.updGroup_keeps)
    | split

theorem execSregSet_keeps {z : State} (h : Hdr) (a : Reg) (x : Reg) (s : State) (h0 : Keeps z s) : KeepsOut z (execSregSet h a x s) := by
  unfold execSregSet
  try dsimp only
  repeat' first
    | with_reducible
        first
          | intro _ | assumption | apply keeps_ite | apply Ctx.advance_keeps | apply Ctx.sregWrite_keeps | apply Ctx.trap_keeps
          | apply State.updGroup_keeps | apply issue_keeps
    | split

theorem execRdtime_keeps {z : State} (h : Hdr) (cyc : Bool) (d : Reg) (s : State) (h0 : Keeps z s) : KeepsOut z (execRdtime h cyc d s) := by
  unfold execRdtime
  try dsimp only
  with_reducible repeat' first | assumption | apply laneOp_keeps

theorem Ctx.noteNext_keeps {z : State} (c : Ctx) (i : Instr) (s : State) (h0 : Keeps z s) : Keeps z (Ctx.noteNext c i s) := ⟨h0.1⟩

theorem execTrap_keeps {z : State} (h : Hdr) (code : BitVec 8) (s : State) (h0 : Keeps z s) : KeepsOut z (execTrap h code s) := by
  unfold execTrap
  try dsimp only
  with_reducible
    repeat' first
      | intro _ | assumption | apply keeps_ite | apply Ctx.advance_keeps | apply Ctx.noteNext_keeps | apply State.takeFault_keeps
      | apply issue_keeps

theorem execBrk_keeps {z : State} (h : Hdr) (code : BitVec 8) (s : State) (h0 : Keeps z s) : KeepsOut z (execBrk h code s) := by
  unfold execBrk
  try dsimp only
  with_reducible
    repeat' first
      | intro _ | assumption | apply keeps_ite | apply Ctx.advance_keeps | apply Ctx.noteNext_keeps | apply State.updGroup_keeps
      | apply issue_keeps

theorem execXret_keeps {z : State} (h : Hdr) (s : State) (h0 : Keeps z s) : KeepsOut z (execXret h s) := by
  unfold execXret
  try dsimp only
  repeat' first
    | (with_reducible first | intro _ | assumption | apply Ctx.moveTo_keeps | apply Ctx.trap_keeps | apply groupOp_keeps)
    | split

theorem execLongLatencyResult_keeps {z : State} (gk : ℕ) (id : ℕ) (lane : ℕ) (s : State) (h0 : Keeps z s) : KeepsOut z (execLongLatencyResult gk id lane s) := by
  unfold execLongLatencyResult
  try dsimp only
  with_reducible repeat' first | assumption | apply keeps_ite | apply keepsOut_next | apply State.landLane_keeps

theorem execBarrierWaveRelease_keeps {z : State} (cl : ℕ) (s : State) (h0 : Keeps z s) : KeepsOut z (execBarrierWaveRelease cl s) := by
  unfold execBarrierWaveRelease
  try dsimp only
  with_reducible repeat' first | assumption | apply keeps_ite | apply keepsOut_next | apply State.releaseWave_keeps

theorem execDeplClear_keeps {z : State} (cl : ℕ) (s : State) (h0 : Keeps z s) : KeepsOut z (execDeplClear cl s) := by
  unfold execDeplClear
  try dsimp only
  with_reducible repeat' first | assumption | apply keeps_ite | apply keepsOut_next | apply State.setCluster_keeps

theorem execLeaveGrant_keeps {z : State} (gk : ℕ) (s : State) (h0 : Keeps z s) : KeepsOut z (execLeaveGrant gk s) := by
  unfold execLeaveGrant
  try dsimp only
  with_reducible repeat' first | assumption | apply keeps_ite | apply keepsOut_next | apply State.updGroup_keeps

theorem execTeamPlacement_keeps {z : State} (part : ℕ) (s : State) (h0 : Keeps z s) : KeepsOut z (execTeamPlacement part s) := by
  unfold execTeamPlacement
  try dsimp only
  with_reducible repeat' first | assumption | apply keeps_ite | apply keepsOut_next | apply State.placeFirst_keeps | apply keeps_getD

theorem execHarvestEviction_keeps {z : State} (tuid : ℕ) (s : State) (h0 : Keeps z s) : KeepsOut z (execHarvestEviction tuid s) := by
  unfold execHarvestEviction
  try dsimp only
  with_reducible
    repeat' first
      | intro _ | assumption | apply keeps_ite | apply keepsOut_next | apply keeps_foldl | apply State.evictTeam_keeps
      | apply State.growStep_keeps

theorem State.endWith_keeps {z : State} (s : State) (tuid : ℕ) (i : FInfo) (whereGk : Option ℕ) (h0 : Keeps z s) : Keeps z (State.endWith s tuid i whereGk) := by
  unfold State.endWith
  try dsimp only
  repeat' first
    | (with_reducible first | assumption | apply State.killTeam_keeps | apply State.raiseEntry_keeps)
    | split

theorem State.endNoRegion_keeps {z : State} (s : State) (tuid : ℕ) (h0 : Keeps z s) : Keeps z (State.endNoRegion s tuid) := by
  unfold State.endNoRegion
  try dsimp only
  repeat' first
    | (with_reducible first | assumption | apply State.endWith_keeps)
    | split

theorem State.resumeOn_keeps {z : State} (s : State) (tuid : ℕ) (core : ℕ) (h0 : Keeps z s) : Keeps z (State.resumeOn s tuid core) := by
  unfold State.resumeOn
  try dsimp only
  repeat' first
    | with_reducible
        first
          | assumption | apply State.endWith_keeps | apply State.proxyTest_keeps | apply State.readSpill_keeps
          | apply State.restartTeam_keeps | apply State.returnTeam_keeps
    | split

theorem execEvictedTeamResume_keeps {z : State} (tuid : ℕ) (s : State) (h0 : Keeps z s) : KeepsOut z (execEvictedTeamResume tuid s) := by
  unfold execEvictedTeamResume
  try dsimp only
  repeat' first
    | with_reducible
        first
          | assumption | apply keeps_ite | apply keepsOut_next | apply State.endNoRegion_keeps | apply State.resumeOn_keeps
    | split

theorem State.landTeam_keeps {z : State} (s : State) (tuid : ℕ) (h0 : Keeps z s) : Keeps z (State.landTeam s tuid) := by
  unfold State.landTeam
  try dsimp only
  with_reducible repeat' first | intro _ | assumption | apply keeps_foldl | apply State.updGroup_keeps

theorem State.copyBanks_keeps {z : State} (s : State) (ps : List (ℕ × ℕ)) (h0 : Keeps z s) : Keeps z (State.copyBanks s ps) := by
  unfold State.copyBanks
  try dsimp only
  repeat' first
    | (with_reducible first | intro _ | assumption | apply keeps_foldl | apply State.freeBank_keeps)
    | with_reducible (apply keeps_mk; apply keeps_kp; assumption)

theorem State.moveTeam_keeps {z : State} (s : State) (tuid : ℕ) (core : ℕ) (h0 : Keeps z s) : Keeps z (State.moveTeam s tuid core) := by
  unfold State.moveTeam
  try dsimp only
  repeat' first
    | with_reducible
        first
          | intro _ | assumption | apply keeps_foldl | apply State.acquireTeam_keeps | apply State.copyBanks_keeps
          | apply State.endOps_keeps | apply State.grantHeld_keeps | apply State.growStep_keeps | apply State.landTeam_keeps
          | apply State.stopTeam_keeps | apply State.takeBank_keeps | apply State.updTeam_keeps
    | split

theorem execHotSpotMigration_keeps {z : State} (tuid : ℕ) (core : ℕ) (s : State) (h0 : Keeps z s) : KeepsOut z (execHotSpotMigration tuid core s) := by
  unfold execHotSpotMigration
  try dsimp only
  with_reducible repeat' first | assumption | apply keeps_ite | apply keepsOut_next | apply State.moveTeam_keeps

theorem outMem_keeps {z : State} (s : State) (h0 : Keeps z s) : KeepsOut z (outMem s) := by
  unfold outMem
  try dsimp only
  repeat' first
    | (with_reducible first | assumption | apply keepsOut_next | apply keepsOut_fault)
    | split

theorem State.syncQueue_keeps {z : State} (s0 : State) (ch : ℕ) (s : State) (_h0 : Keeps z s0) (h1 : Keeps z s) : Keeps z (State.syncQueue s0 ch s) := by
  unfold State.syncQueue
  try dsimp only
  repeat' first
    | (with_reducible first | assumption | apply State.writeQueue_keeps)
    | split

theorem outCmd_keeps {z : State} (s0 : State) (ch : ℕ) (s : State) (h0 : Keeps z s0) (h1 : Keeps z s) : KeepsOut z (outCmd s0 ch s) := by
  unfold outCmd
  try dsimp only
  with_reducible repeat' first | assumption | apply State.syncQueue_keeps | apply outMem_keeps

theorem execCopy_keeps {z : State} (ch : ℕ) (s : State) (h0 : Keeps z s) : KeepsOut z (execCopy ch s) := by
  unfold execCopy
  try dsimp only
  with_reducible repeat' first | assumption | apply State.runHead_keeps | apply outCmd_keeps

theorem execGather_keeps {z : State} (ch : ℕ) (s : State) (h0 : Keeps z s) : KeepsOut z (execGather ch s) := by
  unfold execGather
  try dsimp only
  with_reducible repeat' first | assumption | apply State.runHead_keeps | apply outCmd_keeps

theorem execReduceStore_keeps {z : State} (ch : ℕ) (s : State) (h0 : Keeps z s) : KeepsOut z (execReduceStore ch s) := by
  unfold execReduceStore
  try dsimp only
  repeat' first
    | (with_reducible first | assumption | apply State.runHead_keeps | apply State.runLate_keeps | apply outCmd_keeps)
    | split

theorem execMergeRound_keeps {z : State} (ch : ℕ) (s : State) (h0 : Keeps z s) : KeepsOut z (execMergeRound ch s) := by
  unfold execMergeRound
  try dsimp only
  repeat' first
    | (with_reducible first | assumption | apply State.runHead_keeps | apply outCmd_keeps)
    | split

theorem execMulticastRead_keeps {z : State} (ch : ℕ) (s : State) (h0 : Keeps z s) : KeepsOut z (execMulticastRead ch s) := by
  unfold execMulticastRead
  try dsimp only
  with_reducible repeat' first | assumption | apply State.runHead_keeps | apply outCmd_keeps

theorem execCommandChunkEnd_keeps {z : State} (ch : ℕ) (elems : ℕ) (s : State) (h0 : Keeps z s) : KeepsOut z (execCommandChunkEnd ch elems s) := by
  unfold execCommandChunkEnd
  try dsimp only
  repeat' first
    | (with_reducible first | assumption | apply State.runHead_keeps | apply outCmd_keeps)
    | split

theorem execCommandComplete_keeps {z : State} (ch : ℕ) (s : State) (h0 : Keeps z s) : KeepsOut z (execCommandComplete ch s) := by
  unfold execCommandComplete
  try dsimp only
  repeat' first
    | (with_reducible first | assumption | apply State.completeHead_keeps | apply outCmd_keeps)
    | split

theorem execCommandDiscard_keeps {z : State} (ch : ℕ) (s : State) (h0 : Keeps z s) : KeepsOut z (execCommandDiscard ch s) := by
  unfold execCommandDiscard
  try dsimp only
  with_reducible repeat' first | assumption | apply State.discardHead_keeps | apply outCmd_keeps

theorem State.sendColl_keeps {z : State} (s : State) (ch : ℕ) (pkg : ℕ) (payload : List Byte) (h0 : Keeps z s) : KeepsOpt z (State.sendColl s ch pkg payload) := by
  unfold State.sendColl
  try dsimp only
  repeat' first
    | (with_reducible first | assumption | apply State.send_keeps | apply keepsOpt_some | apply keepsOpt_none)
    | split

theorem State.sendElems_keeps {z : State} (s : State) (ch : ℕ) (c : Cmd) (pkg : ℕ) (step : ℕ) (buf : List (BitVec 128)) (x0 : ℕ) (x1 : ℕ) (x2 : ℕ) (h0 : Keeps z s) : KeepsOpt z (State.sendElems s ch c pkg step buf x0 x1 x2) := by
  induction x0 generalizing s ch c pkg step buf x1 x2 with
  | zero =>
    unfold State.sendElems
    try dsimp only
    with_reducible repeat' first | assumption | apply keepsOpt_some
  | succ n ih =>
    unfold State.sendElems
    try dsimp only
    repeat' first
      | with_reducible
          first
            | assumption | apply keepsOpt_ite | apply State.sendColl_keeps | apply keepsOpt_some | apply keepsOpt_none
            | refine keeps_of_some ‹_› ?_ | apply ih
      | split

theorem State.sendFlags_keeps {z : State} (s : State) (ch : ℕ) (c : Cmd) (members : List ℕ) (flags : ℕ) (h0 : Keeps z s) : Keeps z (State.sendFlags s ch c members flags) := by
  unfold State.sendFlags
  try dsimp only
  with_reducible repeat' first | intro _ | assumption | apply State.sendColl_keeps | apply keeps_foldl | apply keeps_getD

theorem State.collStep_keeps {z : State} (s : State) (c : Cmd) (x : Coll) (h0 : Keeps z s) : KeepsOptFst z (State.collStep s c x) := by
  unfold State.collStep
  dsimp only
  split
  · exact keepsOptFst_some h0
  · intro t e
    obtain ⟨u, h1, h2⟩ := Option.map_eq_some_iff.1 e
    rw [← h2]; exact State.sendElems_keeps _ _ _ _ _ _ _ _ _ h0 _ h1
  · repeat' split
    all_goals first | exact keepsOptFst_none | exact keepsOptFst_some h0
  all_goals first | exact keepsOptFst_none | exact keepsOptFst_some h0 | (repeat' split) <;> first | exact keepsOptFst_none | exact keepsOptFst_some h0

theorem State.collRun_keeps {z : State} (c : Cmd) (x0 : ℕ) (x1 : State) (x2 : Coll) (h0 : Keeps z x1) : KeepsOptFst z (State.collRun c x0 x1 x2) := by
  induction x0 generalizing c x1 x2 with
  | zero =>
    unfold State.collRun
    try dsimp only
    with_reducible repeat' first | assumption | apply keepsOptFst_some
  | succ n ih =>
    unfold State.collRun
    try dsimp only
    repeat' first
      | with_reducible
          first
            | assumption | apply State.collStep_keeps | apply keepsOptFst_some | apply keepsOptFst_none | refine keeps_of_somefst ‹_› ?_
            | apply ih
      | split

theorem State.collWrite_keeps {z : State} (ch : ℕ) (c : Cmd) (x : Coll) (x0 : ℕ) (x1 : State) (x2 : ℕ) (h0 : Keeps z x1) : Keeps z (State.collWrite ch c x x0 x1 x2).1 := by
  induction x0 generalizing ch c x x1 x2 with
  | zero =>
    unfold State.collWrite
    try dsimp only
    with_reducible repeat' assumption
  | succ n ih =>
    unfold State.collWrite
    try dsimp only
    repeat' first
      | with_reducible
          first
            | assumption | apply State.engineNote_keeps | apply State.writeVia_keeps | refine keeps_of_inl ‹_› ?_ | apply ih
      | split

theorem State.collEnd_keeps {z : State} (s : State) (x : Coll) (h0 : Keeps z s) : Keeps z (State.collEnd s x) := ⟨h0.1⟩

theorem State.setColl_keeps {z : State} (s : State) (x : Coll) (h0 : Keeps z s) : Keeps z (State.setColl s x) := ⟨h0.1⟩

theorem State.collFail_keeps {z : State} (s : State) (ch : ℕ) (c : Cmd) (x : Coll) (h0 : Keeps z s) : Keeps z (State.collFail s ch c x) := by
  unfold State.collFail
  try dsimp only
  with_reducible repeat' first | assumption | apply State.collEnd_keeps | apply State.sendFlags_keeps | apply State.setHead_keeps

theorem State.collEnding_keeps {z : State} (s : State) (ch : ℕ) (c : Cmd) (x : Coll) (h0 : Keeps z s) : Keeps z (State.collEnding s ch c x) := by
  unfold State.collEnding
  try dsimp only
  repeat' first
    | with_reducible
        first
          | assumption | apply State.collEnd_keeps | apply State.sendFlags_keeps | apply State.setColl_keeps | apply State.setHead_keeps
          | apply State.setPresence_keeps
    | split

theorem State.collGo_keeps {z : State} (s : State) (ch : ℕ) (c : Cmd) (x : Coll) (h0 : Keeps z s) : Keeps z (State.collGo s ch c x) := by
  unfold State.collGo
  try dsimp only
  repeat' first
    | with_reducible
        first
          | assumption | apply keeps_ite | apply State.abandon_keeps | apply State.collEnding_keeps | apply State.collFail_keeps
          | apply State.collRun_keeps | apply State.collWrite_keeps | apply State.setColl_keeps | apply State.setHead_keeps
          | refine keeps_of_fst ‹_› ?_ | refine keeps_of_somefst ‹_› ?_
    | split

theorem State.collStart_keeps {z : State} (s : State) (ch : ℕ) (c : Cmd) (h0 : Keeps z s) : Keeps z (State.collStart s ch c) := by
  unfold State.collStart
  try dsimp only
  repeat' first
    | (with_reducible first | assumption | apply State.collFail_keeps | apply State.collGo_keeps | apply State.setHead_keeps)
    | split
    | with_reducible (apply keeps_mk; apply keeps_kp; assumption)

theorem State.runCollective_keeps {z : State} (s : State) (ch : ℕ) (h0 : Keeps z s) : Keeps z (State.runCollective s ch) := by
  unfold State.runCollective
  try dsimp only
  repeat' first
    | with_reducible
        first
          | assumption | apply keeps_ite | apply State.abandon_keeps | apply State.collFail_keeps | apply State.collGo_keeps
          | apply State.collStart_keeps | apply State.runElems_keeps | apply State.setHead_keeps | refine keeps_of_fst ‹_› ?_
    | split

theorem execCollective_keeps {z : State} (ch : ℕ) (s : State) (h0 : Keeps z s) : KeepsOut z (execCollective ch s) := by
  unfold execCollective
  try dsimp only
  with_reducible repeat' first | assumption | apply State.runCollective_keeps | apply outCmd_keeps

theorem State.collFree_keeps {z : State} (s : State) (ch : ℕ) (c : Cmd) (x : Coll) (h0 : Keeps z s) : Keeps z (State.collFree s ch c x) := by
  unfold State.collFree
  try dsimp only
  repeat' first
    | with_reducible
        first
          | intro _ | assumption | apply keeps_ite | apply State.writeVia_keeps | apply keeps_foldl | refine keeps_of_inl ‹_› ?_
    | split

theorem execCollectiveTimeout_keeps {z : State} (ch : ℕ) (s : State) (h0 : Keeps z s) : KeepsOut z (execCollectiveTimeout ch s) := by
  unfold execCollectiveTimeout
  try dsimp only
  repeat' first
    | (with_reducible first | assumption | apply State.collFail_keeps | apply State.collFree_keeps | apply outCmd_keeps)
    | split

theorem State.askTakes_keeps {z : State} (s : State) (p : ℕ) (h0 : Keeps z s) : Keeps z (State.askTakes s p) := by
  unfold State.askTakes
  try dsimp only
  with_reducible repeat' first | intro _ | assumption | apply keeps_ite | apply keeps_foldl | apply State.askRecord_keeps

theorem State.rejectRec_keeps {z : State} (s : State) (p : ℕ) (q : ℕ) (num : ℕ) (cause : ℕ) (h0 : Keeps z s) : Keeps z (State.rejectRec s p q num cause) := by
  unfold State.rejectRec
  try dsimp only
  with_reducible repeat' first | assumption | apply State.endNum_keeps | apply State.raiseEntry_keeps | apply State.setQueue_keeps

theorem State.popTape_keeps {z : State} (s : State) (p : ℕ) (order : ℕ) (h0 : Keeps z s) : Keeps z (State.popTape s p order) := by
  unfold State.popTape
  try dsimp only
  repeat' first
    | (with_reducible first | assumption | apply State.endNum_keeps | apply State.setPart_keeps)
    | split

theorem State.popAll_keeps {z : State} (x0 : ℕ) (x1 : State) (x2 : ℕ) (h0 : Keeps z x1) : Keeps z (State.popAll x0 x1 x2) := by
  induction x0 generalizing x1 x2 with
  | zero =>
    unfold State.popAll
    try dsimp only
    with_reducible repeat' assumption
  | succ n ih =>
    unfold State.popAll
    try dsimp only
    repeat' first
      | (with_reducible first | assumption | apply State.popTape_keeps | apply ih)
      | split

theorem State.cutTape_keeps {z : State} (s : State) (p : ℕ) (q : ℕ) (num : ℕ) (order : Option ℕ) (h0 : Keeps z s) : Keeps z (State.cutTape s p q num order) := by
  unfold State.cutTape
  try dsimp only
  repeat' first
    | (with_reducible first | assumption | apply State.endNum_keeps | apply State.popAll_keeps | apply State.setPart_keeps)
    | split

theorem execTapePop_keeps {z : State} (part : ℕ) (s : State) (h0 : Keeps z s) : KeepsOut z (execTapePop part s) := by
  unfold execTapePop
  try dsimp only
  with_reducible repeat' first | assumption | apply keepsOut_next | apply State.popTape_keeps

theorem State.consume_keeps {z : State} (s : State) (p : ℕ) (c : Cand) (h0 : Keeps z s) : Keeps z (State.consume s p c) := by
  unfold State.consume
  try dsimp only
  repeat' first
    | (with_reducible first | assumption | apply State.setPart_keeps | apply State.setQueue_keeps)
    | split

theorem State.newLaunch_keeps {z : State} (s : State) (p : ℕ) (q : ℕ) (num : ℕ) (seq : ℕ) (c : Cand) (k : KInfo) (bs : List Byte) (h0 : Keeps z s) : Keeps z (State.newLaunch s p q num seq c k bs) := by
  unfold State.newLaunch
  try dsimp only
  repeat' first
    | with_reducible apply State.updStream_keeps
    | split
    | with_reducible (apply keeps_mk; apply keeps_kp; assumption)

theorem State.dropUsed_keeps {z : State} (s : State) (p : ℕ) (used : List (ℕ × ℕ)) (h0 : Keeps z s) : Keeps z (State.dropUsed s p used) := ⟨h0.1⟩

theorem State.actOn_keeps {z : State} (s : State) (p : ℕ) (num : ℕ) (seq : ℕ) (c : Cand) (h0 : Keeps z s) : Keeps z (State.actOn s p num seq c) := by
  unfold State.actOn
  try dsimp only
  repeat' first
    | (with_reducible first | assumption | apply State.cutTape_keeps | apply State.newLaunch_keeps | apply State.rejectRec_keeps)
    | split

theorem State.take_keeps {z : State} (s : State) (p : ℕ) (c : Cand) (h0 : Keeps z s) : Keeps z (State.take s p c) := by
  unfold State.take
  try dsimp only
  with_reducible
    repeat' first
      | assumption | apply State.actOn_keeps | apply State.consume_keeps | apply State.dropUsed_keeps | apply State.setPart_keeps
      | apply State.setQueue_keeps

theorem execTakeRecord_keeps {z : State} (part : ℕ) (s : State) (h0 : Keeps z s) : KeepsOut z (execTakeRecord part s) := by
  unfold execTakeRecord
  try dsimp only
  repeat' first
    | (with_reducible first | assumption | apply keeps_ite | apply keepsOut_next | apply State.askTakes_keeps | apply State.take_keeps)
    | split

theorem State.timerFire_keeps {z : State} (s : State) (p : ℕ) (q : ℕ) (h0 : Keeps z s) : Keeps z (State.timerFire s p q) := by
  unfold State.timerFire
  try dsimp only
  repeat' first
    | (with_reducible first | assumption | apply State.setQueue_keeps)
    | split

theorem execTimerFire_keeps {z : State} (part : ℕ) (q : ℕ) (s : State) (h0 : Keeps z s) : KeepsOut z (execTimerFire part q s) := by
  unfold execTimerFire
  try dsimp only
  with_reducible repeat' first | assumption | apply keepsOut_next | apply State.timerFire_keeps

theorem State.writeQctl_keeps {z : State} (s : State) (p : ℕ) (q : ℕ) (v : Word) (h0 : Keeps z s) : Keeps z (State.writeQctl s p q v) := by
  unfold State.writeQctl
  try dsimp only
  repeat' first
    | (with_reducible first | assumption | apply State.setQueue_keeps)
    | split

theorem execQctlWrite_keeps {z : State} (part : ℕ) (q : ℕ) (v : Word) (s : State) (h0 : Keeps z s) : KeepsOut z (execQctlWrite part q v s) := by
  unfold execQctlWrite
  try dsimp only
  with_reducible repeat' first | assumption | apply keeps_ite | apply keepsOut_next | apply State.writeQctl_keeps

theorem execQtailWrite_keeps {z : State} (part : ℕ) (q : ℕ) (v : DWord) (s : State) (h0 : Keeps z s) : KeepsOut z (execQtailWrite part q v s) := by
  unfold execQtailWrite
  try dsimp only
  with_reducible repeat' first | assumption | apply keeps_ite | apply keepsOut_next | apply State.writeTail_keeps

theorem State.scDone_keeps {z : State} (s : State) (cmd : ℕ) (e : ℕ) (st : ℕ) (h0 : Keeps z s) : Keeps z (State.scDone s cmd e st) := ⟨h0.1⟩

theorem execBind_keeps {z : State} (e : ℕ) (s : State) (h0 : Keeps z s) : KeepsOut z (execBind e s) := by
  unfold execBind
  try dsimp only
  repeat' first
    | with_reducible
        first
          | assumption | apply keeps_ite | apply keepsOut_next | apply State.scDone_keeps | apply State.setStream_keeps
          | apply State.writeStream_keeps
    | split

theorem State.freeStream_keeps {z : State} (s : State) (e : ℕ) (h0 : Keeps z s) : Keeps z (State.freeStream s e) := by
  unfold State.freeStream
  try dsimp only
  with_reducible
    repeat' first
      | intro _ | assumption | apply keeps_foldl | apply State.freeBank_keeps | apply State.setPart_keeps | apply State.updStream_keeps

theorem execUnbind_keeps {z : State} (e : ℕ) (s : State) (h0 : Keeps z s) : KeepsOut z (execUnbind e s) := by
  unfold execUnbind
  try dsimp only
  repeat' first
    | (with_reducible first | assumption | apply keepsOut_next | apply State.freeStream_keeps | apply State.scDone_keeps)
    | split

theorem execChunk_keeps {z : State} (e : ℕ) (s : State) (h0 : Keeps z s) : KeepsOut z (execChunk e s) := by
  unfold execChunk
  try dsimp only
  repeat' first
    | (with_reducible first | assumption | apply keepsOut_next | apply State.scDone_keeps | apply State.updStream_keeps)
    | split

theorem State.streamFire_keeps {z : State} (s : State) (e : ℕ) (h0 : Keeps z s) : Keeps z (State.streamFire s e) := by
  unfold State.streamFire
  try dsimp only
  repeat' first
    | (with_reducible first | assumption | apply State.setPart_keeps | apply State.updStream_keeps)
    | split

theorem execStreamFire_keeps {z : State} (e : ℕ) (s : State) (h0 : Keeps z s) : KeepsOut z (execStreamFire e s) := by
  unfold execStreamFire
  try dsimp only
  with_reducible repeat' first | assumption | apply keepsOut_next | apply State.streamFire_keeps

theorem State.saveBanks_keeps {z : State} (s : State) (e : ℕ) (h0 : Keeps z s) : Keeps z (State.saveBanks s e) := by
  unfold State.saveBanks
  try dsimp only
  with_reducible repeat' first | intro _ | assumption | apply keeps_foldl | apply State.askHome_keeps | apply State.writeBytes_keeps

theorem execStreamEvictionComplete_keeps {z : State} (e : ℕ) (s : State) (h0 : Keeps z s) : KeepsOut z (execStreamEvictionComplete e s) := by
  unfold execStreamEvictionComplete
  try dsimp only
  with_reducible
    repeat' first
      | intro _ | assumption | apply keeps_ite | apply keeps_foldl | apply State.freeBank_keeps | apply State.saveBanks_keeps
      | apply State.updStream_keeps | apply outMem_keeps

theorem execStreamReloadComplete_keeps {z : State} (e : ℕ) (s : State) (h0 : Keeps z s) : KeepsOut z (execStreamReloadComplete e s) := by
  unfold execStreamReloadComplete
  try dsimp only
  repeat' first
    | with_reducible
        first
          | intro _ | assumption | apply keeps_ite | apply keepsOut_next | apply keeps_foldl | apply State.setSram_keeps
          | apply State.takeBank_keeps | apply State.updStream_keeps
    | split
    | with_reducible (apply keeps_mk; apply keeps_kp; apply State.askHome_keeps)

theorem State.writeFqctl_keeps {z : State} (s : State) (p : ℕ) (v : Word) (h0 : Keeps z s) : Keeps z (State.writeFqctl s p v) := by
  unfold State.writeFqctl
  try dsimp only
  repeat' first
    | (with_reducible first | assumption | apply State.postWaiting_keeps | apply State.setPart_keeps)
    | split

theorem execFqctlWrite_keeps {z : State} (part : ℕ) (v : Word) (s : State) (h0 : Keeps z s) : KeepsOut z (execFqctlWrite part v s) := by
  unfold execFqctlWrite
  try dsimp only
  repeat' first
    | (with_reducible first | assumption | apply State.writeFqctl_keeps | apply outMem_keeps)
    | split

theorem State.writeFqhead_keeps {z : State} (s : State) (p : ℕ) (v : DWord) (h0 : Keeps z s) : Keeps z (State.writeFqhead s p v) := by
  unfold State.writeFqhead
  try dsimp only
  repeat' first
    | (with_reducible first | assumption | apply State.postWaiting_keeps | apply State.setPart_keeps)
    | split

theorem execFqheadWrite_keeps {z : State} (part : ℕ) (v : DWord) (s : State) (h0 : Keeps z s) : KeepsOut z (execFqheadWrite part v s) := by
  unfold execFqheadWrite
  try dsimp only
  repeat' first
    | (with_reducible first | assumption | apply State.writeFqhead_keeps | apply outMem_keeps)
    | split

theorem State.setFqStat_keeps {z : State} (s : State) (p : ℕ) (m : BitVec 4) (h0 : Keeps z s) : Keeps z (State.setFqStat s p m) := ⟨h0.1⟩

theorem State.replayEntry_keeps {z : State} (s : State) (p : ℕ) (e : FEntry) (h0 : Keeps z s) : Keeps z (State.replayEntry s p e) := by
  unfold State.replayEntry
  try dsimp only
  repeat' first
    | with_reducible
        first
          | assumption | apply State.dropOutstanding_keeps | apply State.replayCmd_keeps | apply State.resumeGroup_keeps
          | apply State.updGroup_keeps
    | split

theorem State.passTrap_keeps {z : State} (s : State) (gk : ℕ) (h0 : Keeps z s) : Keeps z (State.passTrap s gk) := by
  unfold State.passTrap
  try dsimp only
  repeat' first
    | (with_reducible first | assumption | apply State.grantHeld_keeps | apply State.repath_keeps | apply State.updGroup_keeps)
    | split

theorem State.killFor_keeps {z : State} (s : State) (p : ℕ) (e : FEntry) (h0 : Keeps z s) : Keeps z (State.killFor s p e) := by
  unfold State.killFor
  try dsimp only
  repeat' first
    | (with_reducible first | assumption | apply State.dropOutstanding_keeps | apply State.killLaunch_keeps)
    | split

theorem State.respond_keeps {z : State} (s : State) (p : ℕ) (seq : Word) (act : ℕ) (h0 : Keeps z s) : Keeps z (State.respond s p seq act) := by
  unfold State.respond
  try dsimp only
  repeat' first
    | with_reducible
        first
          | intro _ | assumption | apply keeps_foldl | apply State.dropOutstanding_keeps | apply State.killFor_keeps
          | apply State.passTrap_keeps | apply State.replayEntry_keeps | apply State.resumeGroup_keeps | apply State.setFqStat_keeps
          | apply State.setPart_keeps
    | split

theorem execReplay_keeps {z : State} (part : ℕ) (seq : Word) (s : State) (h0 : Keeps z s) : KeepsOut z (execReplay part seq s) := by
  unfold execReplay
  try dsimp only
  repeat' first
    | (with_reducible first | assumption | apply State.respond_keeps | apply outMem_keeps)
    | split

theorem execReplayPage_keeps {z : State} (part : ℕ) (seq : Word) (s : State) (h0 : Keeps z s) : KeepsOut z (execReplayPage part seq s) := by
  unfold execReplayPage
  try dsimp only
  repeat' first
    | (with_reducible first | assumption | apply State.respond_keeps | apply outMem_keeps)
    | split

theorem execSkip_keeps {z : State} (part : ℕ) (seq : Word) (s : State) (h0 : Keeps z s) : KeepsOut z (execSkip part seq s) := by
  unfold execSkip
  try dsimp only
  repeat' first
    | (with_reducible first | assumption | apply State.respond_keeps | apply outMem_keeps)
    | split

theorem execKill_keeps {z : State} (part : ℕ) (seq : Word) (s : State) (h0 : Keeps z s) : KeepsOut z (execKill part seq s) := by
  unfold execKill
  try dsimp only
  repeat' first
    | (with_reducible first | assumption | apply State.respond_keeps | apply outMem_keeps)
    | split

theorem State.setRes_keeps {z : State} (s : State) (p : ℕ) (r : ℕ) (h0 : Keeps z s) : Keeps z (State.setRes s p r) := ⟨h0.1⟩

theorem State.stopPart_keeps {z : State} (s : State) (p : ℕ) (h0 : Keeps z s) : Keeps z (State.stopPart s p) := by
  unfold State.stopPart
  try dsimp only
  with_reducible
    repeat' first
      | intro _ | assumption | apply keeps_ite | apply keeps_foldl | apply State.setPart_keeps | apply State.stopTeam_keeps

theorem State.preempt_keeps {z : State} (s : State) (p : ℕ) (h0 : Keeps z s) : Keeps z (State.preempt s p) := by
  unfold State.preempt
  try dsimp only
  repeat' first
    | (with_reducible first | assumption | apply State.setPart_keeps | apply State.setRes_keeps | apply State.stopPart_keeps)
    | split

theorem execPreempt_keeps {z : State} (part : ℕ) (s : State) (h0 : Keeps z s) : KeepsOut z (execPreempt part s) := by
  unfold execPreempt
  try dsimp only
  with_reducible
    repeat' first
      | assumption | apply keeps_ite | apply keepsOut_next | apply State.preempt_keeps | apply State.setPart_keeps

theorem State.takeImage_keeps {z : State} (s : State) (p : ℕ) (all : Bool) (h0 : Keeps z s) : Keeps z (State.takeImage s p all) := by
  unfold State.takeImage
  try dsimp only
  repeat' first
    | with_reducible
        first
          | intro _ | assumption | apply keeps_ite | apply State.flushWay_keeps | apply State.freeBank_keeps | apply State.setPart_keeps
    | with_reducible (apply keeps_mk; apply keeps_kp; apply keeps_foldl)

theorem State.putImage_keeps {z : State} (s : State) (p : ℕ) (h0 : Keeps z s) : Keeps z (State.putImage s p) := ⟨h0.1⟩

theorem State.saveTeams_keeps {z : State} (s : State) (p : ℕ) (st : TeamSt) (h0 : Keeps z s) : Keeps z (State.saveTeams s p st) := by
  unfold State.saveTeams
  try dsimp only
  with_reducible
    repeat' first
      | intro _ | assumption | apply keeps_ite | apply keeps_foldl | apply State.dropEntries_keeps | apply State.updTeam_keeps
      | apply State.writeQueues_keeps

theorem State.writeSave_keeps {z : State} (s : State) (p : ℕ) (h0 : Keeps z s) : Keeps z (State.writeSave s p) := by
  unfold State.writeSave
  try dsimp only
  with_reducible repeat' first | assumption | apply State.needMem_keeps | apply State.putBlob_keeps | apply State.setPart_keeps

theorem execPreemptSave_keeps {z : State} (part : ℕ) (s : State) (h0 : Keeps z s) : KeepsOut z (execPreemptSave part s) := by
  unfold execPreemptSave
  try dsimp only
  repeat' first
    | with_reducible
        first
          | assumption | apply State.saveTeams_keeps | apply State.setPart_keeps | apply State.takeImage_keeps
          | apply State.writeSave_keeps | apply outMem_keeps
    | split

theorem State.giveWarm_keeps {z : State} (s : State) (cl : ℕ) (h0 : Keeps z s) : Keeps z (State.giveWarm s cl) := by
  unfold State.giveWarm
  try dsimp only
  with_reducible repeat' first | intro _ | assumption | apply keeps_foldl | apply State.setBank_keeps

theorem State.giveRoles_keeps {z : State} (s : State) (cl : ℕ) (h0 : Keeps z s) : Keeps z (State.giveRoles s cl) := by
  unfold State.giveRoles
  try dsimp only
  with_reducible
    repeat' first
      | intro _ | assumption | apply keeps_ite | apply keeps_foldl | apply State.clearBank_keeps | apply State.freeBank_keeps
      | apply State.giveWarm_keeps | apply State.setBank_keeps

theorem State.restoreTeam_keeps {z : State} (s : State) (p : ℕ) (tuid : ℕ) (bad : Bool) (h0 : Keeps z s) : Keeps z (State.restoreTeam s p tuid bad) := by
  unfold State.restoreTeam
  try dsimp only
  repeat' first
    | with_reducible
        first
          | assumption | apply State.acquireTeam_keeps | apply State.endWith_keeps | apply State.grantHeld_keeps
          | apply State.proxyTest_keeps | apply State.retryCmds_keeps | apply State.updTeam_keeps | apply State.wakeTeam_keeps
    | split

theorem State.restoreTeams_keeps {z : State} (s : State) (p : ℕ) (st : TeamSt) (bad : ℕ → Bool) (h0 : Keeps z s) : Keeps z (State.restoreTeams s p st bad) := by
  unfold State.restoreTeams
  try dsimp only
  with_reducible repeat' first | intro _ | assumption | apply keeps_foldl | apply State.restoreTeam_keeps

theorem State.startPart_keeps {z : State} (s : State) (p : ℕ) (h0 : Keeps z s) : Keeps z (State.startPart s p) := ⟨h0.1⟩

theorem State.resumePart_keeps {z : State} (s : State) (p : ℕ) (h0 : Keeps z s) : Keeps z (State.resumePart s p) := by
  unfold State.resumePart
  try dsimp only
  with_reducible
    repeat' first
      | intro _ | assumption | apply keeps_ite | apply keeps_foldl | apply State.giveRoles_keeps | apply State.putImage_keeps
      | apply State.restoreTeams_keeps | apply State.setRes_keeps | apply State.startPart_keeps

theorem execResume_keeps {z : State} (part : ℕ) (s : State) (h0 : Keeps z s) : KeepsOut z (execResume part s) := by
  unfold execResume
  try dsimp only
  repeat' first
    | (with_reducible first | assumption | apply State.resumePart_keeps | apply State.setPart_keeps | apply outMem_keeps)
    | split

theorem State.loseShadow_keeps {z : State} (s : State) (q : ℕ) (h0 : Keeps z s) : Keeps z (State.loseShadow s q) := by
  unfold State.loseShadow
  try dsimp only
  with_reducible repeat' first | intro _ | assumption | apply keeps_foldl | apply State.endWith_keeps | apply State.setPart_keeps

theorem State.swap_keeps {z : State} (s : State) (p : ℕ) (inp : ℕ) (h0 : Keeps z s) : Keeps z (State.swap s p inp) := by
  unfold State.swap
  try dsimp only
  repeat' first
    | (with_reducible first | assumption | apply State.setPart_keeps | apply State.setRes_keeps | apply State.stopPart_keeps)
    | split

theorem execSwap_keeps {z : State} (part : ℕ) (inp : ℕ) (s : State) (h0 : Keeps z s) : KeepsOut z (execSwap part inp s) := by
  unfold execSwap
  try dsimp only
  with_reducible repeat' first | assumption | apply keeps_ite | apply keepsOut_next | apply State.setPart_keeps | apply State.swap_keeps

theorem execSwapExchange_keeps {z : State} (part : ℕ) (s : State) (h0 : Keeps z s) : KeepsOut z (execSwapExchange part s) := by
  unfold execSwapExchange
  try dsimp only
  repeat' first
    | with_reducible
        first
          | intro _ | assumption | apply keeps_ite | apply keeps_foldl | apply State.loseShadow_keeps | apply State.putImage_keeps
          | apply State.restoreTeams_keeps | apply State.saveTeams_keeps | apply State.setCluster_keeps | apply State.setPart_keeps
          | apply State.startPart_keeps | apply State.takeImage_keeps | apply outMem_keeps
    | split

theorem execTimeSliceExpiry_keeps {z : State} (part : ℕ) (s : State) (h0 : Keeps z s) : KeepsOut z (execTimeSliceExpiry part s) := by
  unfold execTimeSliceExpiry
  try dsimp only
  repeat' first
    | with_reducible
        first
          | assumption | apply keeps_ite | apply keepsOut_next | apply State.preempt_keeps | apply State.setPart_keeps
          | apply State.swap_keeps
    | split

theorem execDebuggerAttach_keeps {z : State} (part : ℕ) (on : Bool) (s : State) (h0 : Keeps z s) : KeepsOut z (execDebuggerAttach part on s) := by
  unfold execDebuggerAttach
  try dsimp only
  with_reducible repeat' first | assumption | apply keeps_ite | apply keepsOut_next | apply State.setPart_keeps

theorem execDebugHalt_keeps {z : State} (gk : ℕ) (s : State) (h0 : Keeps z s) : KeepsOut z (execDebugHalt gk s) := by
  unfold execDebugHalt
  try dsimp only
  repeat' first
    | (with_reducible first | assumption | apply keeps_ite | apply keepsOut_next | apply State.updGroup_keeps)
    | split

theorem State.goHeld_keeps {z : State} (s : State) (p : ℕ) (h0 : Keeps z s) : Keeps z (State.goHeld s p) := by
  unfold State.goHeld
  try dsimp only
  repeat' first
    | (with_reducible first | assumption | apply State.preempt_keeps | apply State.setPart_keeps | apply State.swap_keeps)
    | split

theorem execDebugRelease_keeps {z : State} (gk : ℕ) (s : State) (h0 : Keeps z s) : KeepsOut z (execDebugRelease gk s) := by
  unfold execDebugRelease
  try dsimp only
  repeat' first
    | with_reducible
        first
          | assumption | apply keeps_ite | apply keepsOut_next | apply State.goHeld_keeps | apply State.passTrap_keeps
          | apply State.updGroup_keeps
    | split

theorem State.scrubCluster_keeps {z : State} (s : State) (cl : ℕ) (h0 : Keeps z s) : Keeps z (State.scrubCluster s cl) := by
  unfold State.scrubCluster
  try dsimp only
  repeat' first
    | (with_reducible first | intro _ | assumption | apply keeps_ite | apply State.freeBank_keeps)
    | with_reducible (apply keeps_mk; apply keeps_kp; apply keeps_foldl)

theorem State.writeClpart_keeps {z : State} (s : State) (cl : ℕ) (v : Word) (h0 : Keeps z s) : Keeps z (State.writeClpart s cl v) := by
  unfold State.writeClpart
  try dsimp only
  with_reducible
    repeat' first
      | intro _ | assumption | apply keeps_ite | apply keeps_foldl | apply State.killLaunch_keeps | apply State.scrubCluster_keeps
      | apply State.setCluster_keeps | apply State.setPart_keeps

theorem execClpartWrite_keeps {z : State} (cl : ℕ) (v : Word) (s : State) (h0 : Keeps z s) : KeepsOut z (execClpartWrite cl v s) := by
  unfold execClpartWrite
  try dsimp only
  with_reducible repeat' first | assumption | apply keepsOut_next | apply State.writeClpart_keeps

theorem execTlbInvalidate_keeps {z : State} (part : ℕ) (v : DWord) (s : State) (h0 : Keeps z s) : KeepsOut z (execTlbInvalidate part v s) := by
  unfold execTlbInvalidate
  try dsimp only
  with_reducible repeat' first | assumption | apply keeps_ite | apply keepsOut_next | apply State.setPart_keeps

theorem State.forget_keeps {z : State} (s : State) (p : ℕ) (vs : List DWord) (h0 : Keeps z s) : Keeps z (State.forget s p vs) := ⟨h0.1⟩

theorem execTlbInvalidateDone_keeps {z : State} (part : ℕ) (s : State) (h0 : Keeps z s) : KeepsOut z (execTlbInvalidateDone part s) := by
  unfold execTlbInvalidateDone
  try dsimp only
  with_reducible
    repeat' first
      | assumption | apply keeps_ite | apply keepsOut_next | apply State.forget_keeps | apply State.setPart_keeps

theorem execFabricTlbInvalidate_keeps {z : State} (v : DWord) (s : State) (h0 : Keeps z s) : KeepsOut z (execFabricTlbInvalidate v s) := by
  unfold execFabricTlbInvalidate
  try dsimp only
  repeat' first
    | with_reducible apply keepsOut_next
    | with_reducible (apply keeps_mk; apply keeps_kp; assumption)

theorem State.keepWalk_keeps {z : State} (s : State) (p : ℕ) (die : ℕ) (va : ℕ) (h0 : Keeps z s) : Keeps z (State.keepWalk s p die va) := by
  unfold State.keepWalk
  try dsimp only
  repeat' first
    | with_reducible assumption
    | split
    | with_reducible (apply keeps_mk; apply keeps_kp; assumption)

theorem State.askWalk_keeps {z : State} (s : State) (w : Walk) (va : ℕ) (h0 : Keeps z s) : Keeps z (State.askWalk s w va) := by
  unfold State.askWalk
  try dsimp only
  repeat' first
    | (with_reducible first | assumption | apply State.askHome_keeps)
    | split

theorem State.nextWalk_keeps {z : State} (s : State) (die : ℕ) (h0 : Keeps z s) : Keeps z (State.nextWalk s die) := by
  unfold State.nextWalk
  try dsimp only
  repeat' first
    | with_reducible assumption
    | split
    | with_reducible (apply keeps_mk; apply keeps_kp; assumption)

theorem State.walkFill_keeps {z : State} (s : State) (w : Walk) (va : ℕ) (acc : Acc) (h0 : Keeps z s) : Keeps z (State.walkFill s w va acc) := by
  unfold State.walkFill
  try dsimp only
  repeat' first
    | (with_reducible first | intro _ | assumption | apply keeps_foldl | apply State.fillL1_keeps | apply State.fillL2_keeps)
    | split

theorem State.walkDone_keeps {z : State} (s : State) (p : ℕ) (die : ℕ) (va : ℕ) (acc : Acc) (h0 : Keeps z s) : Keeps z (State.walkDone s p die va acc) := by
  unfold State.walkDone
  try dsimp only
  repeat' first
    | (with_reducible first | assumption | apply State.askWalk_keeps | apply State.keepWalk_keeps | apply State.nextWalk_keeps)
    | split
    | with_reducible (apply keeps_mk; apply keeps_kp; apply State.walkFill_keeps)

theorem execPageWalkComplete_keeps {z : State} (part : ℕ) (die : ℕ) (va : ℕ) (acc : Acc) (s : State) (h0 : Keeps z s) : KeepsOut z (execPageWalkComplete part die va acc s) := by
  unfold execPageWalkComplete
  try dsimp only
  with_reducible repeat' first | assumption | apply keeps_ite | apply keepsOut_next | apply State.walkDone_keeps

theorem State.keyCommand_keeps {z : State} (s : State) (cmd : ℕ) (id : ℕ) (part : ℕ) (res : ℕ) (next : Option (ℕ × Key)) (h0 : Keeps z s) : Keeps z (State.keyCommand s cmd id part res next) := by
  unfold State.keyCommand
  try dsimp only
  repeat' first
    | split
    | with_reducible (apply keeps_mk; apply keeps_kp; assumption)

theorem execGenerate_keeps {z : State} (s : State) (h0 : Keeps z s) : KeepsOut z (execGenerate s) := by
  unfold execGenerate
  try dsimp only
  repeat' first
    | (with_reducible first | assumption | apply keeps_ite | apply keepsOut_next | apply State.keyCommand_keeps)
    | split
    | with_reducible (apply keeps_mk; apply keeps_kp; first | assumption | apply State.keyCommand_keeps)

theorem execAssign_keeps {z : State} (id : ℕ) (part : ℕ) (s : State) (h0 : Keeps z s) : KeepsOut z (execAssign id part s) := by
  unfold execAssign
  try dsimp only
  repeat' first
    | (with_reducible first | assumption | apply keeps_ite | apply keepsOut_next | apply State.keyCommand_keeps)
    | split

theorem execDestroy_keeps {z : State} (id : ℕ) (s : State) (h0 : Keeps z s) : KeepsOut z (execDestroy id s) := by
  unfold execDestroy
  try dsimp only
  with_reducible repeat' first | assumption | apply keeps_ite | apply keepsOut_next | apply State.keyCommand_keeps

theorem State.dropKey_keeps {z : State} (s : State) (id : ℕ) (h0 : Keeps z s) : Keeps z (State.dropKey s id) := ⟨h0.1⟩

theorem execKeyCommandComplete_keeps {z : State} (s : State) (h0 : Keeps z s) : KeepsOut z (execKeyCommandComplete s) := by
  unfold execKeyCommandComplete
  try dsimp only
  repeat' first
    | (with_reducible first | assumption | apply keeps_ite | apply keepsOut_next)
    | split
    | with_reducible (apply keeps_mk; apply keeps_kp; first | assumption | apply State.dropKey_keeps)

theorem State.extend_keeps {z : State} (s : State) (i : ℕ) (img : Image) (h0 : Keeps z s) : Keeps z (State.extend s i img) := ⟨h0.1⟩

theorem execFirmwareStageLoad_keeps {z : State} (image : Image) (last : Bool) (s : State) (h0 : Keeps z s) : KeepsOut z (execFirmwareStageLoad image last s) := by
  unfold execFirmwareStageLoad
  try dsimp only
  repeat' first
    | (with_reducible first | assumption | apply keeps_ite | apply keepsOut_next)
    | with_reducible (apply keeps_mk; apply keeps_kp; first | assumption | apply State.extend_keeps)

theorem State.reply_keeps {z : State} (s : State) (name : String) (status : ℕ) (bytes : List Byte) (h0 : Keeps z s) : Keeps z (State.reply s name status bytes) := ⟨h0.1⟩

theorem State.attest_keeps {z : State} (s : State) (name : String) (bytes : List Byte) (h0 : Keeps z s) : Keeps z (State.attest s name bytes) := by
  unfold State.attest
  try dsimp only
  repeat' first
    | (with_reducible first | assumption | apply State.reply_keeps)
    | split

theorem execGetVersion_keeps {z : State} (s : State) (h0 : Keeps z s) : KeepsOut z (execGetVersion s) := by
  unfold execGetVersion
  try dsimp only
  with_reducible repeat' first | assumption | apply keepsOut_next | apply State.reply_keeps

theorem execGetCapabilities_keeps {z : State} (s : State) (h0 : Keeps z s) : KeepsOut z (execGetCapabilities s) := by
  unfold execGetCapabilities
  try dsimp only
  with_reducible repeat' first | assumption | apply keepsOut_next | apply State.reply_keeps

theorem execNegotiateAlgorithms_keeps {z : State} (s : State) (h0 : Keeps z s) : KeepsOut z (execNegotiateAlgorithms s) := by
  unfold execNegotiateAlgorithms
  try dsimp only
  repeat' first
    | (with_reducible first | apply keepsOut_next | apply State.reply_keeps)
    | with_reducible (apply keeps_mk; apply keeps_kp; assumption)

theorem execGetDigests_keeps {z : State} (s : State) (h0 : Keeps z s) : KeepsOut z (execGetDigests s) := by
  unfold execGetDigests
  try dsimp only
  with_reducible repeat' first | assumption | apply keepsOut_next | apply State.attest_keeps

theorem execGetCertificate_keeps {z : State} (off : ℕ) (len : ℕ) (s : State) (h0 : Keeps z s) : KeepsOut z (execGetCertificate off len s) := by
  unfold execGetCertificate
  try dsimp only
  with_reducible repeat' first | assumption | apply keepsOut_next | apply State.attest_keeps

theorem execChallenge_keeps {z : State} (nonce : List Byte) (s : State) (h0 : Keeps z s) : KeepsOut z (execChallenge nonce s) := by
  unfold execChallenge
  try dsimp only
  with_reducible repeat' first | assumption | apply keepsOut_next | apply State.attest_keeps

theorem execGetMeasurements_keeps {z : State} (nonce : List Byte) (s : State) (h0 : Keeps z s) : KeepsOut z (execGetMeasurements nonce s) := by
  unfold execGetMeasurements
  try dsimp only
  with_reducible repeat' first | assumption | apply keepsOut_next | apply State.attest_keeps

theorem execSpdmSessionRequest_keeps {z : State} (r : SpdmSession) (s : State) (h0 : Keeps z s) : KeepsOut z (execSpdmSessionRequest r s) := by
  unfold execSpdmSessionRequest
  try dsimp only
  repeat' first
    | (with_reducible first | assumption | apply keepsOut_next | apply State.reply_keeps)
    | split

theorem State.putBias_keeps {z : State} (s : State) (cl : ℕ) (b : Bias) (h0 : Keeps z s) : Keeps z (State.putBias s cl b) := by
  unfold State.putBias
  try dsimp only
  repeat' first
    | (with_reducible first | assumption | apply State.setCluster_keeps | apply State.syncClock_keeps)
    | split

theorem State.writeClbias_keeps {z : State} (s : State) (cl : ℕ) (v : Word) (h0 : Keeps z s) : Keeps z (State.writeClbias s cl v) := by
  unfold State.writeClbias
  try dsimp only
  repeat' first
    | (with_reducible first | assumption | apply State.putBias_keeps | apply State.scrubCluster_keeps | apply State.setCluster_keeps)
    | split

theorem execClbiasWrite_keeps {z : State} (cl : ℕ) (v : Word) (s : State) (h0 : Keeps z s) : KeepsOut z (execClbiasWrite cl v s) := by
  unfold execClbiasWrite
  try dsimp only
  with_reducible repeat' first | assumption | apply keepsOut_next | apply State.writeClbias_keeps

theorem execBiasSettled_keeps {z : State} (cl : ℕ) (s : State) (h0 : Keeps z s) : KeepsOut z (execBiasSettled cl s) := by
  unfold execBiasSettled
  try dsimp only
  with_reducible
    repeat' first
      | assumption | apply keeps_ite | apply keepsOut_next | apply State.setCluster_keeps | apply State.syncClock_keeps

theorem execThermalSample_keeps {z : State} (cl : ℕ) (temp : ℕ) (s : State) (h0 : Keeps z s) : KeepsOut z (execThermalSample cl temp s) := by
  unfold execThermalSample
  try dsimp only
  with_reducible repeat' first | assumption | apply keeps_ite | apply keepsOut_next | apply State.setCluster_keeps

theorem execThermalStep_keeps {z : State} (cl : ℕ) (s : State) (h0 : Keeps z s) : KeepsOut z (execThermalStep cl s) := by
  unfold execThermalStep
  try dsimp only
  repeat' first
    | (with_reducible first | assumption | apply keepsOut_next | apply State.putBias_keeps | apply State.setCluster_keeps)
    | split

theorem State.mapSlice_keeps {z : State} (s : State) (sl : ℕ) (f : SMap Way → SMap Way) (h0 : Keeps z s) : Keeps z (State.mapSlice s sl f) := ⟨h0.1⟩

theorem State.retainSlice_keeps {z : State} (s : State) (sl : ℕ) (h0 : Keeps z s) : Keeps z (State.retainSlice s sl) := ⟨h0.1⟩

theorem execBankNap_keeps {z : State} (bank : ℕ) (s : State) (h0 : Keeps z s) : KeepsOut z (execBankNap bank s) := by
  unfold execBankNap
  try dsimp only
  repeat' first
    | (with_reducible first | assumption | apply keeps_ite | apply keepsOut_next | apply State.setBank_keeps)
    | with_reducible (apply keeps_mk; apply keeps_kp; assumption)

theorem execBankRetain_keeps {z : State} (bank : ℕ) (s : State) (h0 : Keeps z s) : KeepsOut z (execBankRetain bank s) := by
  unfold execBankRetain
  try dsimp only
  with_reducible
    repeat' first
      | assumption | apply keeps_ite | apply keepsOut_next | apply State.cleanWay_keeps | apply State.retainSlice_keeps
      | apply State.setBank_keeps

theorem State.teamLoses_keeps {z : State} (s : State) (tuid : ℕ) (bank : ℕ) (h0 : Keeps z s) : Keeps z (State.teamLoses s tuid bank) := by
  unfold State.teamLoses
  try dsimp only
  repeat' first
    | with_reducible
        first
          | assumption | apply State.endWith_keeps | apply State.evictTeam_keeps | apply State.killLaunch_keeps
          | apply State.reclaimTeam_keeps | apply State.teamEntry_keeps
    | split

theorem State.streamLoses_keeps {z : State} (s : State) (e : ℕ) (bank : ℕ) (h0 : Keeps z s) : Keeps z (State.streamLoses s e bank) := by
  unfold State.streamLoses
  try dsimp only
  repeat' first
    | (with_reducible first | assumption | apply State.raiseEntry_keeps)
    | with_reducible (apply keeps_mk; apply keeps_kp; apply State.freeStream_keeps)

theorem State.retentionLoss_keeps {z : State} (s : State) (b : ℕ) (h0 : Keeps z s) : Keeps z (State.retentionLoss s b) := by
  unfold State.retentionLoss
  try dsimp only
  repeat' first
    | with_reducible
        first
          | assumption | apply State.freeBank_keeps | apply State.setBank_keeps | apply State.setCluster_keeps
          | apply State.streamLoses_keeps | apply State.teamLoses_keeps
    | split

theorem State.wakeCmds_keeps {z : State} (s : State) (h0 : Keeps z s) : Keeps z (State.wakeCmds s) := ⟨h0.1⟩

theorem State.sliceWoken_keeps {z : State} (s : State) (sl : ℕ) (parityOk : Bool) (h0 : Keeps z s) : Keeps z (State.sliceWoken s sl parityOk) := by
  unfold State.sliceWoken
  try dsimp only
  repeat' first
    | with_reducible assumption
    | split
    | with_reducible (apply keeps_mk; apply keeps_kp; first | assumption | apply State.mapSlice_keeps)

theorem execBankWakeComplete_keeps {z : State} (bank : ℕ) (parityOk : Bool) (s : State) (h0 : Keeps z s) : KeepsOut z (execBankWakeComplete bank parityOk s) := by
  unfold execBankWakeComplete
  try dsimp only
  with_reducible
    repeat' first
      | assumption | apply keeps_ite | apply keepsOut_next | apply State.retentionLoss_keeps | apply State.setBank_keeps
      | apply State.sliceWoken_keeps | apply State.wakeCmds_keeps

theorem State.refill_keeps {z : State} (s : State) (b : ℕ) (h0 : Keeps z s) : Keeps z (State.refill s b) := by
  unfold State.refill
  try dsimp only
  repeat' first
    | (with_reducible first | assumption | apply State.setBank_keeps)
    | split

theorem execWarmReserveRefill_keeps {z : State} (bank : ℕ) (s : State) (h0 : Keeps z s) : KeepsOut z (execWarmReserveRefill bank s) := by
  unfold execWarmReserveRefill
  try dsimp only
  with_reducible repeat' first | assumption | apply keepsOut_next | apply State.refill_keeps

theorem State.enterSvc_keeps {z : State} (s : State) (v : Svc) (h0 : Keeps z s) : Keeps z (State.enterSvc s v) := by
  have h1 : Keeps z { s with svc := v } := ⟨h0.1⟩
  have h2 : Keeps z { s with svc := v, mem := s.mem.filter fun x => decide (2 ^ 24 ≤ x.1), ktag := s.ktag.filter fun x => decide (2 ^ 17 ≤ x.1), blobs := s.blobs.flatMap (Blob.cut 0 (2 ^ 17)) } :=
    ⟨fun h => Memory.wf_filter (h0.1.1 h) _, h0.1.2⟩
  have h3 : ∀ t, Keeps z t → Keeps z (if v = .reduced then { t with ports := t.ports.map fun x => (x.1, { x.2 with link := false, lanesUp := 0 }) } else t) := by
    intro t ht; split
    · exact ⟨ht.1⟩
    · exact ht
  unfold State.enterSvc
  dsimp only
  refine keeps_ite (h3 _ (keeps_ite h1 (keeps_foldl (fun t b ht => ?_) h2))) (keeps_foldl (fun t c ht => State.putBias_keeps _ _ _ ht) (h3 _ (keeps_ite h1 (keeps_foldl (fun t b ht => ?_) h2))))
  all_goals
    exact keeps_ite (State.setBank_keeps _ _ _ (State.clearBank_keeps _ _ ht)) (State.freeBank_keeps _ _ ht)

theorem State.svcCommand_keeps {z : State} (s : State) (target : ℕ) (h0 : Keeps z s) : Keeps z (State.svcCommand s target) := by
  unfold State.svcCommand
  try dsimp only
  repeat' first
    | with_reducible apply State.enterSvc_keeps
    | split
    | with_reducible (apply keeps_mk; apply keeps_kp; assumption)

theorem execSvcNormal_keeps {z : State} (s : State) (h0 : Keeps z s) : KeepsOut z (execSvcNormal s) := by
  unfold execSvcNormal
  try dsimp only
  with_reducible repeat' first | assumption | apply keepsOut_next | apply State.svcCommand_keeps

theorem execSvcTest_keeps {z : State} (s : State) (h0 : Keeps z s) : KeepsOut z (execSvcTest s) := by
  unfold execSvcTest
  try dsimp only
  with_reducible repeat' first | assumption | apply keepsOut_next | apply State.svcCommand_keeps

theorem execSvcReduced_keeps {z : State} (s : State) (h0 : Keeps z s) : KeepsOut z (execSvcReduced s) := by
  unfold execSvcReduced
  try dsimp only
  with_reducible repeat' first | assumption | apply keepsOut_next | apply State.svcCommand_keeps

theorem execSvcRecovery_keeps {z : State} (s : State) (h0 : Keeps z s) : KeepsOut z (execSvcRecovery s) := by
  unfold execSvcRecovery
  try dsimp only
  with_reducible repeat' first | assumption | apply keepsOut_next | apply State.svcCommand_keeps

theorem execHbmErrorLimit_keeps {z : State} (stack : ℕ) (s : State) (h0 : Keeps z s) : KeepsOut z (execHbmErrorLimit stack s) := by
  unfold execHbmErrorLimit
  try dsimp only
  repeat' first
    | (with_reducible first | assumption | apply keeps_ite | apply keepsOut_next | apply State.enterSvc_keeps)
    | with_reducible (apply keeps_mk; apply keeps_kp; assumption)

theorem execHbmTrainingPass_keeps {z : State} (stack : ℕ) (s : State) (h0 : Keeps z s) : KeepsOut z (execHbmTrainingPass stack s) := by
  unfold execHbmTrainingPass
  try dsimp only
  repeat' first
    | (with_reducible first | assumption | apply keeps_ite | apply keepsOut_next)
    | with_reducible (apply keeps_mk; apply keeps_kp; assumption)

theorem execPackageReset_keeps {z : State} (s : State) (h0 : Keeps z s) : KeepsOut z (execPackageReset s) := by
  exact keepsOut_next ⟨⟨fun _ => rfl, h0.1.2⟩⟩

theorem State.qosError_keeps {z : State} (s : State) (m : BitVec 4) (h0 : Keeps z s) : Keeps z (State.qosError s m) := ⟨h0.1⟩

theorem State.writeL2wayg_keeps {z : State} (s : State) (v : Word) (h0 : Keeps z s) : Keeps z (State.writeL2wayg s v) := by
  unfold State.writeL2wayg
  try dsimp only
  repeat' first
    | (with_reducible first | assumption | apply State.qosError_keeps)
    | split
    | with_reducible (apply keeps_mk; apply keeps_kp; assumption)

theorem execL2waygWrite_keeps {z : State} (v : Word) (s : State) (h0 : Keeps z s) : KeepsOut z (execL2waygWrite v s) := by
  unfold execL2waygWrite
  try dsimp only
  with_reducible repeat' first | assumption | apply keepsOut_next | apply State.writeL2wayg_keeps

theorem State.writeNetshare_keeps {z : State} (s : State) (p : ℕ) (v : ℕ) (h0 : Keeps z s) : Keeps z (State.writeNetshare s p v) := by
  unfold State.writeNetshare
  try dsimp only
  repeat' first
    | (with_reducible first | assumption | apply State.qosError_keeps | apply State.setPart_keeps)
    | split

theorem State.writePortreg_keeps {z : State} (s : State) (p : ℕ) (port : ℕ) (v : ℕ) (h0 : Keeps z s) : Keeps z (State.writePortreg s p port v) := by
  unfold State.writePortreg
  try dsimp only
  repeat' first
    | (with_reducible first | assumption | apply State.qosError_keeps | apply State.setPart_keeps)
    | split

theorem execQosShareWrite_keeps {z : State} (part : ℕ) (port : ℕ) (v : DWord) (s : State) (h0 : Keeps z s) : KeepsOut z (execQosShareWrite part port v s) := by
  unfold execQosShareWrite
  try dsimp only
  with_reducible
    repeat' first
      | assumption | apply keeps_ite | apply keepsOut_next | apply State.writeNetshare_keeps | apply State.writePortreg_keeps

theorem State.writeHbmreg_keeps {z : State} (s : State) (p : ℕ) (st : ℕ) (v : ℕ) (h0 : Keeps z s) : Keeps z (State.writeHbmreg s p st v) := by
  unfold State.writeHbmreg
  try dsimp only
  repeat' first
    | (with_reducible first | assumption | apply State.qosError_keeps | apply State.setPart_keeps)
    | split

theorem execHbmregWrite_keeps {z : State} (part : ℕ) (stack : ℕ) (v : DWord) (s : State) (h0 : Keeps z s) : KeepsOut z (execHbmregWrite part stack v s) := by
  unfold execHbmregWrite
  try dsimp only
  with_reducible repeat' first | assumption | apply keeps_ite | apply keepsOut_next | apply State.writeHbmreg_keeps

theorem State.writePtstep_keeps {z : State} (s : State) (v : DWord) (h0 : Keeps z s) : Keeps z (State.writePtstep s v) := by
  unfold State.writePtstep
  try dsimp only
  repeat' first
    | split
    | with_reducible (apply keeps_mk; apply keeps_kp; assumption)

theorem execPtstepWrite_keeps {z : State} (v : DWord) (s : State) (h0 : Keeps z s) : KeepsOut z (execPtstepWrite v s) := by
  unfold execPtstepWrite
  try dsimp only
  with_reducible repeat' first | assumption | apply keepsOut_next | apply State.writePtstep_keeps

theorem execStepReachedEveryCore_keeps {z : State} (s : State) (h0 : Keeps z s) : KeepsOut z (execStepReachedEveryCore s) := by
  unfold execStepReachedEveryCore
  try dsimp only
  repeat' first
    | with_reducible apply keepsOut_next
    | with_reducible (apply keeps_mk; apply keeps_kp; assumption)

theorem execPtpEventMessage_keeps {z : State} (port : ℕ) (egress : Bool) (s : State) (h0 : Keeps z s) : KeepsOut z (execPtpEventMessage port egress s) := by
  unfold execPtpEventMessage
  try dsimp only
  repeat' first
    | (with_reducible first | assumption | apply keeps_ite | apply keepsOut_next)
    | with_reducible (apply keeps_mk; apply keeps_kp; assumption)

theorem State.l2Access_keeps {z : State} (s : State) (r : HomeReq) (h0 : Keeps z s) : Keeps z (State.l2Access s r) := by
  unfold State.l2Access
  try dsimp only
  repeat' first
    | split
    | with_reducible (apply keeps_mk; apply keeps_kp; assumption)

theorem State.serveHome_keeps {z : State} (s : State) (q : HomeReq) (pastRouter : Bool) (h0 : Keeps z s) : Keeps z (State.serveHome s q pastRouter) := by
  unfold State.serveHome
  try dsimp only
  repeat' first
    | (with_reducible first | assumption | apply State.l2Access_keeps)
    | split
    | with_reducible (apply keeps_mk; apply keeps_kp; assumption)

theorem State.homeRead_keeps {z : State} (s : State) (r : HomeRead) (h0 : Keeps z s) : Keeps z (State.homeRead s r) := by
  unfold State.homeRead
  try dsimp only
  repeat' first
    | (with_reducible first | assumption | apply State.serveHome_keeps | apply State.wakeSlice_keeps)
    | split
    | with_reducible (apply keeps_mk; apply keeps_kp; assumption)

theorem execL2HomeRead_keeps {z : State} (r : HomeRead) (s : State) (h0 : Keeps z s) : KeepsOut z (execL2HomeRead r s) := by
  unfold execL2HomeRead
  try dsimp only
  with_reducible repeat' first | assumption | apply keepsOut_next | apply State.homeRead_keeps

theorem State.fabricFill_keeps {z : State} (s : State) (d : ℕ) (classH : Bool) (h0 : Keeps z s) : Keeps z (State.fabricFill s d classH) := by
  unfold State.fabricFill
  try dsimp only
  repeat' first
    | with_reducible assumption
    | split
    | with_reducible (apply keeps_mk; apply keeps_kp; assumption)

theorem State.answer_keeps {z : State} (s : State) (op : ℕ) (f : Frame) (payload : List Byte) (h0 : Keeps z s) : Keeps z (State.answer s op f payload) := ⟨h0.1⟩

theorem State.refuseFrame_keeps {z : State} (s : State) (f : Frame) (h0 : Keeps z s) : Keeps z (State.refuseFrame s f) := ⟨h0.1⟩

theorem State.serveAt_keeps {z : State} (s : State) (f : Frame) (write : Bool) (k : ℕ → ℕ → State → State) (h0 : Keeps z s) (h1 : ∀ y0 y1 y2, Keeps z y2 → Keeps z (k y0 y1 y2)) : Keeps z (State.serveAt s f write k) := by
  unfold State.serveAt
  try dsimp only
  repeat' first
    | with_reducible
        first
          | assumption | apply h1 | apply State.askHome_keeps | apply State.fabricFill_keeps | apply State.needMem_keeps
          | apply State.refuseFrame_keeps
    | split

theorem execReadRequest_keeps {z : State} (f : Frame) (s : State) (h0 : Keeps z s) : KeepsOut z (execReadRequest f s) := by
  unfold execReadRequest
  try dsimp only
  with_reducible
    repeat' first
      | intro _ | assumption | apply keeps_ite | apply State.answer_keeps | apply State.discardLine_keeps | apply State.serveAt_keeps
      | apply outMem_keeps

theorem execWrite_keeps {z : State} (f : Frame) (s : State) (h0 : Keeps z s) : KeepsOut z (execWrite f s) := by
  unfold execWrite
  try dsimp only
  with_reducible
    repeat' first
      | intro _ | assumption | apply State.answer_keeps | apply State.serveAt_keeps | apply State.writeBytes_keeps | apply outMem_keeps

theorem execAtomic_keeps {z : State} (f : Frame) (s : State) (h0 : Keeps z s) : KeepsOut z (execAtomic f s) := by
  unfold execAtomic
  try dsimp only
  repeat' first
    | with_reducible
        first
          | intro _ | assumption | apply State.answer_keeps | apply State.refuseFrame_keeps | apply State.serveAt_keeps
          | apply State.writeBytes_keeps | apply outMem_keeps
    | split

theorem execTranslationWarm_keeps {z : State} (f : Frame) (s : State) (h0 : Keeps z s) : KeepsOut z (execTranslationWarm f s) := by
  unfold execTranslationWarm
  try dsimp only
  with_reducible repeat' first | assumption | apply keeps_ite | apply keepsOut_next | apply State.fabricFill_keeps

theorem State.answered_keeps {z : State} (s : State) (r : Remote) (h0 : Keeps z s) : Keeps z (State.answered s r) := ⟨h0.1⟩

theorem State.updCmd_keeps {z : State} (s : State) (ch : ℕ) (num : ℕ) (f : Cmd → Cmd) (h0 : Keeps z s) : Keeps z (State.updCmd s ch num f) := ⟨h0.1⟩

theorem State.answerCmd_keeps {z : State} (s : State) (ch : ℕ) (num : ℕ) (got : List (ℕ × ℕ)) (h0 : Keeps z s) : Keeps z (State.answerCmd s ch num got) := ⟨h0.1⟩

theorem State.answerRec_keeps {z : State} (s : State) (tag : ℕ) (bs : List Byte) (h0 : Keeps z s) : Keeps z (State.answerRec s tag bs) := ⟨h0.1⟩

theorem State.landPend_keeps {z : State} (s : State) (gk : ℕ) (r : Remote) (f : PLane → PLane) (h0 : Keeps z s) : Keeps z (State.landPend s gk r f) := ⟨h0.1⟩

theorem State.landAnswer_keeps {z : State} (s : State) (gk : ℕ) (r : Remote) (bs : List Byte) (fault : Option FInfo) (h0 : Keeps z s) : Keeps z (State.landAnswer s gk r bs fault) := by
  unfold State.landAnswer
  try dsimp only
  repeat' first
    | (with_reducible first | assumption | apply State.landPend_keeps)
    | split

theorem State.answerOp_keeps {z : State} (s : State) (tuid : ℕ) (tag : ℕ) (bs : Option (List Byte)) (h0 : Keeps z s) : Keeps z (State.answerOp s tuid tag bs) := ⟨h0.1⟩

theorem State.answerHart_keeps {z : State} (s : State) (h : ℕ) (r : Remote) (v : ℕ) (h0 : Keeps z s) : Keeps z (State.answerHart s h r v) := ⟨h0.1⟩

theorem State.takeResponse_keeps {z : State} (s : State) (f : Frame) (h0 : Keeps z s) : Keeps z (State.takeResponse s f) := by
  unfold State.takeResponse
  try dsimp only
  repeat' first
    | with_reducible
        first
          | assumption | apply State.answerCmd_keeps | apply State.answerHart_keeps | apply State.answerOp_keeps
          | apply State.answerRec_keeps | apply State.answered_keeps | apply State.landAnswer_keeps
    | split

theorem execReadResponse_keeps {z : State} (f : Frame) (s : State) (h0 : Keeps z s) : KeepsOut z (execReadResponse f s) := by
  unfold execReadResponse
  try dsimp only
  with_reducible repeat' first | assumption | apply keeps_ite | apply keepsOut_next | apply State.takeResponse_keeps

theorem execAtomicResponse_keeps {z : State} (f : Frame) (s : State) (h0 : Keeps z s) : KeepsOut z (execAtomicResponse f s) := by
  unfold execAtomicResponse
  try dsimp only
  with_reducible repeat' first | assumption | apply keeps_ite | apply keepsOut_next | apply State.takeResponse_keeps

theorem State.takeAck_keeps {z : State} (s : State) (f : Frame) (h0 : Keeps z s) : Keeps z (State.takeAck s f) := by
  unfold State.takeAck
  try dsimp only
  repeat' first
    | (with_reducible first | assumption | apply State.answerCmd_keeps | apply State.answerOp_keeps | apply State.answered_keeps)
    | split

theorem execWriteAcknowledgement_keeps {z : State} (f : Frame) (s : State) (h0 : Keeps z s) : KeepsOut z (execWriteAcknowledgement f s) := by
  unfold execWriteAcknowledgement
  try dsimp only
  with_reducible repeat' first | assumption | apply keeps_ite | apply keepsOut_next | apply State.takeAck_keeps

theorem State.failCmd_keeps {z : State} (s : State) (ch : ℕ) (num : ℕ) (r : Remote) (h0 : Keeps z s) : Keeps z (State.failCmd s ch num r) := by
  unfold State.failCmd
  try dsimp only
  repeat' first
    | (with_reducible first | assumption | apply State.failElems_keeps | apply State.updCmd_keeps)
    | split

theorem State.refuseLane_keeps {z : State} (s : State) (gk : ℕ) (i : FInfo) (h0 : Keeps z s) : Keeps z (State.refuseLane s gk i) := by
  unfold State.refuseLane
  try dsimp only
  repeat' first
    | (with_reducible first | assumption | apply State.takeFault_keeps)
    | split

theorem State.takeRefusal_keeps {z : State} (s : State) (f : Frame) (h0 : Keeps z s) : Keeps z (State.takeRefusal s f) := by
  unfold State.takeRefusal
  try dsimp only
  repeat' first
    | with_reducible
        first
          | assumption | apply State.answerCmd_keeps | apply State.answerOp_keeps | apply State.answerRec_keeps
          | apply State.answered_keeps | apply State.failCmd_keeps | apply State.landAnswer_keeps | apply State.refuseLane_keeps
    | split
    | with_reducible (apply keeps_mk; apply keeps_kp; apply State.answered_keeps)

theorem execRefusal_keeps {z : State} (f : Frame) (s : State) (h0 : Keeps z s) : KeepsOut z (execRefusal f s) := by
  unfold execRefusal
  try dsimp only
  with_reducible repeat' first | assumption | apply keeps_ite | apply keepsOut_next | apply State.takeRefusal_keeps

theorem execCollectiveData_keeps {z : State} (f : Frame) (s : State) (h0 : Keeps z s) : KeepsOut z (execCollectiveData f s) := by
  unfold execCollectiveData
  try dsimp only
  repeat' first
    | (with_reducible first | assumption | apply keeps_ite | apply keepsOut_next)
    | with_reducible (apply keeps_mk; apply keeps_kp; assumption)

theorem execLinkResend_keeps {z : State} (port : ℕ) (lseq : ℕ) (s : State) (h0 : Keeps z s) : KeepsOut z (execLinkResend port lseq s) := by
  unfold execLinkResend
  try dsimp only
  repeat' first
    | (with_reducible first | assumption | apply keepsOut_next)
    | split
    | with_reducible (apply keeps_mk; apply keeps_kp; apply State.setPort_keeps)

theorem execFrameDrop_keeps {z : State} (port : ℕ) (s : State) (h0 : Keeps z s) : KeepsOut z (execFrameDrop port s) := by
  unfold execFrameDrop
  try dsimp only
  with_reducible repeat' first | assumption | apply keeps_ite | apply keepsOut_next | apply State.setPort_keeps

theorem execLinkStateChange_keeps {z : State} (port : ℕ) (lanes : ℕ) (up : Bool) (s : State) (h0 : Keeps z s) : KeepsOut z (execLinkStateChange port lanes up s) := by
  unfold execLinkStateChange
  try dsimp only
  with_reducible repeat' first | assumption | apply keeps_ite | apply keepsOut_next | apply State.setPort_keeps

theorem execFabricWindowStart_keeps {z : State} (s : State) (h0 : Keeps z s) : KeepsOut z (execFabricWindowStart s) := by
  unfold execFabricWindowStart
  try dsimp only
  repeat' first
    | with_reducible apply keepsOut_next
    | with_reducible (apply keeps_mk; apply keeps_kp; assumption)

theorem execStorePerformed_keeps {z : State} (id : ℕ) (s : State) (h0 : Keeps z s) : KeepsOut z (execStorePerformed id s) := by
  unfold execStorePerformed
  try dsimp only
  repeat' first
    | with_reducible apply keepsOut_next
    | with_reducible (apply keeps_mk; apply keeps_kp; assumption)

theorem nextOr_keeps {z : State} (s : State) (o : Out) (h0 : Keeps z s) (h1 : KeepsOut z o) : Keeps z (nextOr s o) := by
  unfold nextOr
  split
  · exact h1 _ rfl
  · exact h0

theorem State.queueWrite_keeps {z : State} (s : State) (p : ℕ) (q : ℕ) (o : ℕ) (v : ℕ) (h0 : Keeps z s) : Keeps z (State.queueWrite s p q o v) := by
  unfold State.queueWrite
  try dsimp only
  repeat' first
    | (with_reducible first | assumption | apply State.setQueue_keeps | apply State.writeQctl_keeps | apply State.writeTail_keeps)
    | split

theorem State.writePcmd_keeps {z : State} (s : State) (p : ℕ) (v : ℕ) (h0 : Keeps z s) : Keeps z (State.writePcmd s p v) := by
  unfold State.writePcmd
  try dsimp only
  repeat' first
    | with_reducible
        first
          | assumption | apply State.setPart_keeps | apply State.setRes_keeps | apply execPreempt_keeps | apply execResume_keeps
          | apply execSwap_keeps | apply nextOr_keeps
    | split

theorem State.writeGshare_keeps {z : State} (s : State) (p : ℕ) (v : ℕ) (h0 : Keeps z s) : Keeps z (State.writeGshare s p v) := by
  unfold State.writeGshare
  try dsimp only
  repeat' first
    | (with_reducible first | assumption | apply State.setPart_keeps)
    | split

theorem State.windowWrite_keeps {z : State} (s : State) (p : ℕ) (o : ℕ) (v : ℕ) (h0 : Keeps z s) : Keeps z (State.windowWrite s p o v) := by
  unfold State.windowWrite
  try dsimp only
  with_reducible
    repeat' first
      | assumption | apply keeps_ite | apply State.respond_keeps | apply State.setPart_keeps | apply State.writeFqctl_keeps
      | apply State.writeFqhead_keeps | apply State.writeGshare_keeps | apply State.writeHbmreg_keeps | apply State.writeNetshare_keeps
      | apply State.writePcmd_keeps | apply State.writePortreg_keeps | apply execTlbInvalidate_keeps | apply nextOr_keeps

theorem State.clusterWrite_keeps {z : State} (s : State) (cl : ℕ) (o : ℕ) (v : ℕ) (h0 : Keeps z s) : Keeps z (State.clusterWrite s cl o v) := by
  unfold State.clusterWrite
  try dsimp only
  repeat' first
    | (with_reducible first | assumption | apply State.setCluster_keeps | apply State.writeClbias_keeps)
    | split

theorem State.writeHpart_keeps {z : State} (s : State) (h : ℕ) (v : ℕ) (h0 : Keeps z s) : Keeps z (State.writeHpart s h v) := by
  unfold State.writeHpart
  try dsimp only
  repeat' first
    | with_reducible assumption
    | split
    | with_reducible (apply keeps_mk; apply keeps_kp; assumption)

theorem State.writeSccmd_keeps {z : State} (s : State) (v : ℕ) (h0 : Keeps z s) : Keeps z (State.writeSccmd s v) := by
  unfold State.writeSccmd
  try dsimp only
  repeat' first
    | with_reducible
        first
          | assumption | apply State.scDone_keeps | apply execBind_keeps | apply execChunk_keeps | apply execUnbind_keeps
          | apply nextOr_keeps
    | split

theorem State.writeKeycmd_keeps {z : State} (s : State) (v : ℕ) (h0 : Keeps z s) : Keeps z (State.writeKeycmd s v) := by
  unfold State.writeKeycmd
  try dsimp only
  repeat' first
    | with_reducible
        first
          | assumption | apply State.keyCommand_keeps | apply execAssign_keeps | apply execDestroy_keeps | apply execGenerate_keeps
          | apply nextOr_keeps
    | split
    | with_reducible (apply keeps_mk; apply keeps_kp; first | apply State.keyCommand_keeps | apply nextOr_keeps)

theorem State.writePtrate_keeps {z : State} (s : State) (v : ℕ) (h0 : Keeps z s) : Keeps z (State.writePtrate s v) := ⟨h0.1⟩

theorem State.packageWrite_keeps {z : State} (s : State) (off : ℕ) (v : ℕ) (h0 : Keeps z s) : Keeps z (State.packageWrite s off v) := by
  unfold State.packageWrite
  try dsimp only
  repeat' first
    | with_reducible
        first
          | assumption | apply keeps_ite | apply State.svcCommand_keeps | apply State.writeKeycmd_keeps | apply State.writeL2wayg_keeps
          | apply State.writePtrate_keeps | apply State.writePtstep_keeps | apply State.writeSccmd_keeps
          | apply execFabricTlbInvalidate_keeps | apply nextOr_keeps
    | with_reducible (apply keeps_mk; apply keeps_kp; assumption)

theorem State.regWrite_keeps {z : State} (s : State) (off : ℕ) (v : ℕ) (h0 : Keeps z s) : Keeps z (State.regWrite s off v) := by
  unfold State.regWrite
  try dsimp only
  repeat' first
    | with_reducible
        first
          | assumption | apply State.clusterWrite_keeps | apply State.packageWrite_keeps | apply State.queueWrite_keeps
          | apply State.setPort_keeps | apply State.windowWrite_keeps | apply State.writeClpart_keeps | apply State.writeHpart_keeps
    | split

theorem State.deviceWrite_keeps {z : State} (s : State) (off : ℕ) (size : ℕ) (v : ℕ) (h0 : Keeps z s) : Keeps z (State.deviceWrite s off size v) := by
  unfold State.deviceWrite
  try dsimp only
  repeat' first
    | (with_reducible first | assumption | apply State.regWrite_keeps)
    | split

theorem execRegisterWrite_keeps {z : State} (off : ℕ) (size : ℕ) (v : DWord) (s : State) (h0 : Keeps z s) : KeepsOut z (execRegisterWrite off size v s) := by
  unfold execRegisterWrite
  try dsimp only
  repeat' first
    | (with_reducible first | assumption | apply State.deviceWrite_keeps | apply outMem_keeps)
    | split

theorem State.hostGives_keeps {z : State} (s : State) (hart : ℕ) (v : Option ℕ) (h0 : Keeps z s) : Keeps z (State.hostGives s hart v) := ⟨h0.1⟩

theorem State.hostSees_keeps {z : State} (s : State) (hart : ℕ) (va : ℕ) (pa : ℕ) (tag : ℕ) (write : Bool) (h0 : Keeps z s) : Keeps z (State.hostSees s hart va pa tag write) := by
  unfold State.hostSees
  try dsimp only
  repeat' first
    | (with_reducible first | assumption | apply State.askHome_keeps | apply State.noteXlate_keeps)
    | split

theorem State.hostLoadPart_keeps {z : State} (s : State) (hart : ℕ) (acc : Acc) (split : Bool) (x : ℕ × ℕ × ℕ) (h0 : Keeps z s) : Keeps z (State.hostLoadPart s hart acc split x) := by
  unfold State.hostLoadPart
  try dsimp only
  repeat' first
    | with_reducible
        first
          | assumption | apply State.hostGives_keeps | apply State.hostSees_keeps | apply State.needMem_keeps
          | apply State.tryRequest_keeps | apply keeps_getD
    | split

theorem State.hostLoad_keeps {z : State} (s : State) (hart : ℕ) (a : ℕ) (size : ℕ) (acc : Acc) (h0 : Keeps z s) : Keeps z (State.hostLoad s hart a size acc) := by
  unfold State.hostLoad
  try dsimp only
  repeat' first
    | with_reducible
        first
          | intro _ | assumption | apply keeps_ite | apply keeps_foldl | apply State.hostGives_keeps | apply State.hostLoadPart_keeps
    | split

theorem State.hostStorePart_keeps {z : State} (s : State) (hart : ℕ) (v : ℕ) (x : ℕ × ℕ × ℕ) (h0 : Keeps z s) : Keeps z (State.hostStorePart s hart v x) := by
  unfold State.hostStorePart
  try dsimp only
  repeat' first
    | with_reducible
        first
          | assumption | apply State.hostGives_keeps | apply State.hostSees_keeps | apply State.needMem_keeps
          | apply State.noteStore_keeps | apply State.tryRequest_keeps | apply State.writeBytes_keeps | apply State.writeTail_keeps
          | apply keeps_getD
    | split

theorem State.hostStore_keeps {z : State} (s : State) (hart : ℕ) (a : ℕ) (size : ℕ) (v : ℕ) (h0 : Keeps z s) : Keeps z (State.hostStore s hart a size v) := by
  unfold State.hostStore
  try dsimp only
  repeat' first
    | with_reducible
        first
          | intro _ | assumption | apply keeps_ite | apply keeps_foldl | apply State.deviceWrite_keeps | apply State.hostGives_keeps
          | apply State.hostStorePart_keeps
    | split

theorem State.hostAmo_keeps {z : State} (s : State) (hart : ℕ) (a : ℕ) (size : ℕ) (uns : Bool) (code : ℕ) (new : ℕ → ℕ) (v : ℕ) (h0 : Keeps z s) : Keeps z (State.hostAmo s hart a size uns code new v) := by
  unfold State.hostAmo
  try dsimp only
  repeat' first
    | with_reducible
        first
          | assumption | apply State.hostGives_keeps | apply State.hostSees_keeps | apply State.needMem_keeps
          | apply State.noteStore_keeps | apply State.tryRequest_keeps | apply State.writeBytes_keeps | apply keeps_getD
    | split

theorem State.hostConditional_keeps {z : State} (s : State) (hart : ℕ) (a : ℕ) (size : ℕ) (v : ℕ) (h0 : Keeps z s) : Keeps z (State.hostConditional s hart a size v) := by
  unfold State.hostConditional
  try dsimp only
  repeat' first
    | (with_reducible first | apply State.hostGives_keeps | apply State.hostStore_keeps)
    | split
    | with_reducible (apply keeps_mk; apply keeps_kp; assumption)

theorem State.hostReserve_keeps {z : State} (s : State) (hart : ℕ) (a : ℕ) (size : ℕ) (h0 : Keeps z s) : Keeps z (State.hostReserve s hart a size) := by
  unfold State.hostReserve
  try dsimp only
  repeat' first
    | (with_reducible first | assumption | apply State.hostLoad_keeps)
    | split
    | with_reducible (apply keeps_mk; apply keeps_kp; apply State.hostLoad_keeps)

theorem State.hostDo_keeps {z : State} (s : State) (hart : ℕ) (op : HostOp) (h0 : Keeps z s) : Keeps z (State.hostDo s hart op) := by
  unfold State.hostDo
  try dsimp only
  repeat' first
    | with_reducible
        first
          | assumption | apply State.hostAmo_keeps | apply State.hostConditional_keeps | apply State.hostGives_keeps
          | apply State.hostLoad_keeps | apply State.hostReserve_keeps | apply State.hostStore_keeps
    | split

theorem State.hostFence_keeps {z : State} (s : State) (hart : ℕ) (h0 : Keeps z s) : Keeps z (State.hostFence s hart) := by
  unfold State.hostFence
  try dsimp only
  repeat' first
    | split
    | with_reducible (apply keeps_mk; apply keeps_kp; assumption)

theorem State.hostRun_keeps {z : State} (hart : Nat) (x0 : List (Option Sys2Proof.HostOp)) (x1 : State) (h0 : Keeps z x1) : Keeps z (State.hostRun hart x0 x1) := by
  induction x0 generalizing x1 with
  | nil => exact h0
  | cons y ys ih =>
    cases y with
    | some op => exact ih _ (State.hostDo_keeps _ _ _ h0)
    | none =>
      have h1 := State.hostFence_keeps x1 hart h0
      simp only [State.hostRun]
      split
      · exact ⟨h1.1⟩
      · exact ih _ h1

theorem State.hostRelease_keeps {z : State} (s : State) (hart : ℕ) (h0 : Keeps z s) : Keeps z (State.hostRelease s hart) := by
  unfold State.hostRelease
  try dsimp only
  repeat' first
    | (with_reducible first | assumption | apply State.hostRun_keeps)
    | split
    | with_reducible (apply keeps_mk; apply keeps_kp; assumption)

theorem execHostAccess_keeps {z : State} (hart : ℕ) (op : HostOp) (s : State) (h0 : Keeps z s) : KeepsOut z (execHostAccess hart op s) := by
  unfold execHostAccess
  try dsimp only
  repeat' first
    | (with_reducible first | assumption | apply State.hostDo_keeps | apply outMem_keeps)
    | split
    | with_reducible (apply keeps_mk; apply keeps_kp; assumption)

theorem execHostFence_keeps {z : State} (hart : ℕ) (s : State) (h0 : Keeps z s) : KeepsOut z (execHostFence hart s) := by
  unfold execHostFence
  try dsimp only
  repeat' first
    | (with_reducible first | assumption | apply keeps_ite | apply keepsOut_next | apply State.hostFence_keeps)
    | with_reducible (apply keeps_mk; apply keeps_kp; assumption)

theorem State.writeSetting_keeps {z : State} (s : State) (p : ℕ) (x : QueueSetting) (h0 : Keeps z s) : Keeps z (State.writeSetting s p x) := by
  unfold State.writeSetting
  try dsimp only
  with_reducible repeat' first | assumption | apply State.queueWrite_keeps

theorem State.writeProfile_keeps {z : State} (s : State) (x : Profile) (h0 : Keeps z s) : Keeps z (State.writeProfile s x) := by
  unfold State.writeProfile
  try dsimp only
  with_reducible
    repeat' first
      | intro _ | assumption | apply keeps_ite | apply keeps_foldl | apply State.clusterWrite_keeps | apply State.windowWrite_keeps
      | apply State.writeClpart_keeps | apply State.writeGshare_keeps | apply State.writeHbmreg_keeps | apply State.writeNetshare_keeps
      | apply State.writePortreg_keeps | apply State.writeSetting_keeps

theorem execProfileApply_keeps {z : State} (p : Profile) (s : State) (h0 : Keeps z s) : KeepsOut z (execProfileApply p s) := by
  unfold execProfileApply
  try dsimp only
  repeat' first
    | (with_reducible first | assumption | apply keeps_ite | apply keepsOut_next | apply State.reply_keeps)
    | with_reducible (apply keeps_mk; apply keeps_kp; apply State.writeProfile_keeps)

theorem execSimpleUpdate_keeps {z : State} (image : Image) (s : State) (h0 : Keeps z s) : KeepsOut z (execSimpleUpdate image s) := by
  unfold execSimpleUpdate
  try dsimp only
  repeat' first
    | (with_reducible first | assumption | apply keeps_ite | apply keepsOut_next | apply State.reply_keeps)
    | with_reducible (apply keeps_mk; apply keeps_kp; assumption)

theorem execFirmwareCommit_keeps {z : State} (s : State) (h0 : Keeps z s) : KeepsOut z (execFirmwareCommit s) := by
  unfold execFirmwareCommit
  refine keepsOut_next (keeps_ite ?_ h0)
  split
  · exact ⟨h0.1.1, Nat.le_trans h0.1.2 (Nat.le_max_left _ _)⟩
  · exact ⟨h0.1⟩

theorem State.markDegraded_keeps {z : State} (s : State) (h0 : Keeps z s) : Keeps z (State.markDegraded s) := ⟨h0.1⟩

theorem execMetricSample_keeps {z : State} (s : State) (h0 : Keeps z s) : KeepsOut z (execMetricSample s) := by
  unfold execMetricSample
  try dsimp only
  repeat' first
    | (with_reducible first | assumption | apply keepsOut_next)
    | with_reducible (apply keeps_mk; apply keeps_kp; apply State.markDegraded_keeps)

theorem exec_keeps {z : State} (i : Instr) (s : State) (h0 : Keeps z s) : KeepsOut z (exec i s) := by
  cases i with
  | iadd a0 a1 a2 a3 a4 a5 => exact execIadd_keeps a0 a1 a2 a3 a4 a5 s h0
  | isub a0 a1 a2 a3 a4 a5 => exact execIsub_keeps a0 a1 a2 a3 a4 a5 s h0
  | imul a0 a1 a2 a3 a4 a5 => exact execImul_keeps a0 a1 a2 a3 a4 a5 s h0
  | imulhi a0 a1 a2 a3 a4 => exact execImulhi_keeps a0 a1 a2 a3 a4 s h0
  | imad a0 a1 a2 a3 a4 a5 a6 => exact execImad_keeps a0 a1 a2 a3 a4 a5 a6 s h0
  | iadd64 a0 a1 a2 a3 a4 a5 => exact execIadd64_keeps a0 a1 a2 a3 a4 a5 s h0
  | isub64 a0 a1 a2 a3 a4 a5 => exact execIsub64_keeps a0 a1 a2 a3 a4 a5 s h0
  | imad64 a0 a1 a2 a3 a4 a5 a6 => exact execImad64_keeps a0 a1 a2 a3 a4 a5 a6 s h0
  | iaddc a0 a1 a2 a3 a4 a5 => exact execIaddc_keeps a0 a1 a2 a3 a4 a5 s h0
  | ineg a0 a1 a2 a3 => exact execIneg_keeps a0 a1 a2 a3 s h0
  | iabs a0 a1 a2 a3 => exact execIabs_keeps a0 a1 a2 a3 s h0
  | imin a0 a1 a2 a3 a4 => exact execImin_keeps a0 a1 a2 a3 a4 s h0
  | imax a0 a1 a2 a3 a4 => exact execImax_keeps a0 a1 a2 a3 a4 s h0
  | and a0 a1 a2 a3 => exact execAnd_keeps a0 a1 a2 a3 s h0
  | or a0 a1 a2 a3 => exact execOr_keeps a0 a1 a2 a3 s h0
  | xor a0 a1 a2 a3 => exact execXor_keeps a0 a1 a2 a3 s h0
  | andn a0 a1 a2 a3 => exact execAndn_keeps a0 a1 a2 a3 s h0
  | not a0 a1 a2 => exact execNot_keeps a0 a1 a2 s h0
  | lop3 a0 a1 a2 a3 a4 a5 => exact execLop3_keeps a0 a1 a2 a3 a4 a5 s h0
  | shl a0 a1 a2 a3 => exact execShl_keeps a0 a1 a2 a3 s h0
  | shr a0 a1 a2 a3 => exact execShr_keeps a0 a1 a2 a3 s h0
  | sra a0 a1 a2 a3 => exact execSra_keeps a0 a1 a2 a3 s h0
  | shl64 a0 a1 a2 a3 => exact execShl64_keeps a0 a1 a2 a3 s h0
  | shr64 a0 a1 a2 a3 a4 => exact execShr64_keeps a0 a1 a2 a3 a4 s h0
  | rotl a0 a1 a2 a3 => exact execRotl_keeps a0 a1 a2 a3 s h0
  | clz a0 a1 a2 => exact execClz_keeps a0 a1 a2 s h0
  | popc a0 a1 a2 => exact execPopc_keeps a0 a1 a2 s h0
  | brev a0 a1 a2 => exact execBrev_keeps a0 a1 a2 s h0
  | bfx a0 a1 a2 a3 a4 a5 a6 => exact execBfx_keeps a0 a1 a2 a3 a4 a5 a6 s h0
  | bfi a0 a1 a2 a3 a4 => exact execBfi_keeps a0 a1 a2 a3 a4 s h0
  | sel a0 a1 a2 a3 a4 => exact execSel_keeps a0 a1 a2 a3 a4 s h0
  | mov a0 a1 a2 => exact execMov_keeps a0 a1 a2 s h0
  | lea a0 a1 a2 a3 a4 a5 => exact execLea_keeps a0 a1 a2 a3 a4 a5 s h0
  | iaddImm a0 a1 a2 a3 a4 a5 => exact execIaddImm_keeps a0 a1 a2 a3 a4 a5 s h0
  | isubImm a0 a1 a2 a3 a4 a5 => exact execIsubImm_keeps a0 a1 a2 a3 a4 a5 s h0
  | imulImm a0 a1 a2 a3 a4 a5 => exact execImulImm_keeps a0 a1 a2 a3 a4 a5 s h0
  | imadImm a0 a1 a2 a3 a4 a5 a6 => exact execImadImm_keeps a0 a1 a2 a3 a4 a5 a6 s h0
  | iminImm a0 a1 a2 a3 a4 => exact execIminImm_keeps a0 a1 a2 a3 a4 s h0
  | imaxImm a0 a1 a2 a3 a4 => exact execImaxImm_keeps a0 a1 a2 a3 a4 s h0
  | andImm a0 a1 a2 a3 => exact execAndImm_keeps a0 a1 a2 a3 s h0
  | orImm a0 a1 a2 a3 => exact execOrImm_keeps a0 a1 a2 a3 s h0
  | xorImm a0 a1 a2 a3 => exact execXorImm_keeps a0 a1 a2 a3 s h0
  | andnImm a0 a1 a2 a3 => exact execAndnImm_keeps a0 a1 a2 a3 s h0
  | movk a0 a1 a2 => exact execMovk_keeps a0 a1 a2 s h0
  | movk64 a0 a1 a2 => exact execMovk64_keeps a0 a1 a2 s h0
  | icmp a0 a1 a2 a3 a4 a5 => exact execIcmp_keeps a0 a1 a2 a3 a4 a5 s h0
  | pset a0 a1 a2 a3 => exact execPset_keeps a0 a1 a2 a3 s h0
  | pget a0 a1 a2 a3 => exact execPget_keeps a0 a1 a2 a3 s h0
  | pand a0 a1 a2 a3 a4 a5 => exact execPand_keeps a0 a1 a2 a3 a4 a5 s h0
  | por a0 a1 a2 a3 a4 a5 => exact execPor_keeps a0 a1 a2 a3 a4 a5 s h0
  | pxor a0 a1 a2 a3 a4 a5 => exact execPxor_keeps a0 a1 a2 a3 a4 a5 s h0
  | pnot a0 a1 a2 a3 => exact execPnot_keeps a0 a1 a2 a3 s h0
  | pmov a0 a1 a2 a3 => exact execPmov_keeps a0 a1 a2 a3 s h0
  | bra a0 a1 => exact execBra_keeps a0 a1 s h0
  | brx a0 a1 => exact execBrx_keeps a0 a1 s h0
  | call a0 a1 => exact execCall_keeps a0 a1 s h0
  | callx a0 a1 => exact execCallx_keeps a0 a1 s h0
  | ret a0 => exact execRet_keeps a0 s h0
  | exit a0 => exact execExit_keeps a0 s h0
  | rejoinArm a0 a1 a2 a3 => exact execRejoinArm_keeps a0 a1 a2 a3 s h0
  | rejoin a0 a1 => exact execRejoin_keeps a0 a1 s h0
  | yield a0 => exact execYield_keeps a0 s h0
  | nop a0 => exact execNop_keeps a0 s h0
  | nopWidened a0 => exact execNopWidened_keeps a0 s h0
  | qswap a0 a1 a2 a3 => exact execQswap_keeps a0 a1 a2 a3 s h0
  | qbcast a0 a1 a2 a3 => exact execQbcast_keeps a0 a1 a2 a3 s h0
  | gshfl a0 a1 a2 a3 a4 => exact execGshfl_keeps a0 a1 a2 a3 a4 s h0
  | gvote a0 a1 a2 a3 => exact execGvote_keeps a0 a1 a2 a3 s h0
  | gsync a0 a1 a2 => exact execGsync_keeps a0 a1 a2 s h0
  | gmatch a0 a1 a2 a3 => exact execGmatch_keeps a0 a1 a2 a3 s h0
  | gredux a0 a1 a2 a3 a4 => exact execGredux_keeps a0 a1 a2 a3 a4 s h0
  | gscan a0 a1 a2 a3 a4 a5 => exact execGscan_keeps a0 a1 a2 a3 a4 a5 s h0
  | gelect a0 a1 => exact execGelect_keeps a0 a1 s h0
  | fadd a0 a1 a2 a3 a4 a5 => exact execFadd_keeps a0 a1 a2 a3 a4 a5 s h0
  | fsub a0 a1 a2 a3 a4 a5 => exact execFsub_keeps a0 a1 a2 a3 a4 a5 s h0
  | fmul a0 a1 a2 a3 a4 a5 => exact execFmul_keeps a0 a1 a2 a3 a4 a5 s h0
  | ffma a0 a1 a2 a3 a4 a5 a6 => exact execFfma_keeps a0 a1 a2 a3 a4 a5 a6 s h0
  | fmin a0 a1 a2 a3 a4 => exact execFmin_keeps a0 a1 a2 a3 a4 s h0
  | fmax a0 a1 a2 a3 a4 => exact execFmax_keeps a0 a1 a2 a3 a4 s h0
  | frnd a0 a1 a2 a3 a4 => exact execFrnd_keeps a0 a1 a2 a3 a4 s h0
  | fcmp a0 a1 a2 a3 a4 a5 => exact execFcmp_keeps a0 a1 a2 a3 a4 a5 s h0
  | fclass a0 a1 a2 a3 => exact execFclass_keeps a0 a1 a2 a3 s h0
  | fsign a0 a1 a2 a3 a4 => exact execFsign_keeps a0 a1 a2 a3 a4 s h0
  | fscale a0 a1 a2 a3 a4 a5 => exact execFscale_keeps a0 a1 a2 a3 a4 a5 s h0
  | hadd2 a0 a1 a2 a3 a4 a5 => exact execHadd2_keeps a0 a1 a2 a3 a4 a5 s h0
  | hmul2 a0 a1 a2 a3 a4 a5 => exact execHmul2_keeps a0 a1 a2 a3 a4 a5 s h0
  | hfma2 a0 a1 a2 a3 a4 a5 a6 => exact execHfma2_keeps a0 a1 a2 a3 a4 a5 a6 s h0
  | badd2 a0 a1 a2 a3 a4 a5 => exact execBadd2_keeps a0 a1 a2 a3 a4 a5 s h0
  | bmul2 a0 a1 a2 a3 a4 a5 => exact execBmul2_keeps a0 a1 a2 a3 a4 a5 s h0
  | bfma2 a0 a1 a2 a3 a4 a5 a6 => exact execBfma2_keeps a0 a1 a2 a3 a4 a5 a6 s h0
  | fdot2 a0 a1 a2 a3 a4 a5 a6 => exact execFdot2_keeps a0 a1 a2 a3 a4 a5 a6 s h0
  | bdot2 a0 a1 a2 a3 a4 a5 a6 => exact execBdot2_keeps a0 a1 a2 a3 a4 a5 a6 s h0
  | qdot4 a0 a1 a2 a3 a4 a5 a6 a7 a8 => exact execQdot4_keeps a0 a1 a2 a3 a4 a5 a6 a7 a8 s h0
  | fcvt a0 a1 a2 a3 a4 a5 a6 a7 a8 => exact execFcvt_keeps a0 a1 a2 a3 a4 a5 a6 a7 a8 s h0
  | fcvtSr a0 a1 a2 a3 a4 a5 a6 a7 a8 => exact execFcvtSr_keeps a0 a1 a2 a3 a4 a5 a6 a7 a8 s h0
  | fcvti a0 a1 a2 a3 a4 a5 a6 => exact execFcvti_keeps a0 a1 a2 a3 a4 a5 a6 s h0
  | icvtf a0 a1 a2 a3 a4 a5 a6 => exact execIcvtf_keeps a0 a1 a2 a3 a4 a5 a6 s h0
  | fpack a0 a1 a2 a3 a4 a5 a6 a7 a8 => exact execFpack_keeps a0 a1 a2 a3 a4 a5 a6 a7 a8 s h0
  | funpack a0 a1 a2 a3 a4 a5 => exact execFunpack_keeps a0 a1 a2 a3 a4 a5 s h0
  | fbmax a0 a1 a2 a3 a4 a5 => exact execFbmax_keeps a0 a1 a2 a3 a4 a5 s h0
  | ds8enc a0 a1 a2 a3 a4 => exact execDs8enc_keeps a0 a1 a2 a3 a4 s h0
  | ds8dec a0 a1 a2 a3 a4 a5 a6 => exact execDs8dec_keeps a0 a1 a2 a3 a4 a5 a6 s h0
  | frcp a0 a1 a2 a3 a4 => exact execFrcp_keeps a0 a1 a2 a3 a4 s h0
  | frsq a0 a1 a2 a3 a4 => exact execFrsq_keeps a0 a1 a2 a3 a4 s h0
  | fsqrt a0 a1 a2 a3 a4 => exact execFsqrt_keeps a0 a1 a2 a3 a4 s h0
  | fexp2 a0 a1 a2 a3 a4 => exact execFexp2_keeps a0 a1 a2 a3 a4 s h0
  | flog2 a0 a1 a2 a3 a4 => exact execFlog2_keeps a0 a1 a2 a3 a4 s h0
  | fsin a0 a1 a2 a3 a4 => exact execFsin_keeps a0 a1 a2 a3 a4 s h0
  | fcos a0 a1 a2 a3 a4 => exact execFcos_keeps a0 a1 a2 a3 a4 s h0
  | ftanh a0 a1 a2 a3 a4 => exact execFtanh_keeps a0 a1 a2 a3 a4 s h0
  | fsigm a0 a1 a2 a3 a4 => exact execFsigm_keeps a0 a1 a2 a3 a4 s h0
  | ld a0 a1 => exact execLd_keeps a0 a1 s h0
  | ldG a0 a1 => exact execLdG_keeps a0 a1 s h0
  | ldS a0 a1 => exact execLdS_keeps a0 a1 s h0
  | ldC a0 a1 => exact execLdC_keeps a0 a1 s h0
  | ldP a0 a1 => exact execLdP_keeps a0 a1 s h0
  | st a0 a1 a2 => exact execSt_keeps a0 a1 a2 s h0
  | stG a0 a1 => exact execStG_keeps a0 a1 s h0
  | stS a0 a1 => exact execStS_keeps a0 a1 s h0
  | stC a0 a1 => exact execStC_keeps a0 a1 s h0
  | stP a0 a1 => exact execStP_keeps a0 a1 s h0
  | pref a0 a1 a2 a3 => exact execPref_keeps a0 a1 a2 a3 s h0
  | spt a0 a1 a2 => exact execSpt_keeps a0 a1 a2 s h0
  | spc a0 a1 a2 a3 a4 a5 => exact execSpc_keeps a0 a1 a2 a3 a4 a5 s h0
  | xlatePf a0 a1 a2 => exact execXlatePf_keeps a0 a1 a2 s h0
  | atomAdd a0 a1 a2 a3 a4 a5 => exact execAtomAdd_keeps a0 a1 a2 a3 a4 a5 s h0
  | atomMin a0 a1 a2 a3 a4 a5 => exact execAtomMin_keeps a0 a1 a2 a3 a4 a5 s h0
  | atomMax a0 a1 a2 a3 a4 a5 => exact execAtomMax_keeps a0 a1 a2 a3 a4 a5 s h0
  | atomAnd a0 a1 a2 a3 a4 a5 => exact execAtomAnd_keeps a0 a1 a2 a3 a4 a5 s h0
  | atomOr a0 a1 a2 a3 a4 a5 => exact execAtomOr_keeps a0 a1 a2 a3 a4 a5 s h0
  | atomXor a0 a1 a2 a3 a4 a5 => exact execAtomXor_keeps a0 a1 a2 a3 a4 a5 s h0
  | atomExch a0 a1 a2 a3 a4 a5 => exact execAtomExch_keeps a0 a1 a2 a3 a4 a5 s h0
  | atomCas a0 a1 a2 a3 a4 a5 a6 => exact execAtomCas_keeps a0 a1 a2 a3 a4 a5 a6 s h0
  | atomFadd a0 a1 a2 a3 a4 a5 => exact execAtomFadd_keeps a0 a1 a2 a3 a4 a5 s h0
  | atomInc a0 a1 a2 a3 a4 a5 => exact execAtomInc_keeps a0 a1 a2 a3 a4 a5 s h0
  | red a0 a1 a2 a3 a4 => exact execRed_keeps a0 a1 a2 a3 a4 s h0
  | fence a0 a1 => exact execFence_keeps a0 a1 s h0
  | hgLoad a0 a1 a2 a3 a4 a5 a6 => exact execHgLoad_keeps a0 a1 a2 a3 a4 a5 a6 s h0
  | hgGrad a0 a1 a2 a3 a4 a5 => exact execHgGrad_keeps a0 a1 a2 a3 a4 a5 s h0
  | hgCorner a0 a1 a2 a3 a4 a5 => exact execHgCorner_keeps a0 a1 a2 a3 a4 a5 s h0
  | chanSend a0 a1 a2 a3 a4 => exact execChanSend_keeps a0 a1 a2 a3 a4 s h0
  | chanRecv a0 a1 a2 => exact execChanRecv_keeps a0 a1 a2 s h0
  | chanProbe a0 a1 a2 => exact execChanProbe_keeps a0 a1 a2 s h0
  | fifoPush a0 a1 a2 a3 a4 => exact execFifoPush_keeps a0 a1 a2 a3 a4 s h0
  | fifoPop a0 a1 a2 a3 => exact execFifoPop_keeps a0 a1 a2 a3 s h0
  | bankMode a0 a1 a2 a3 a4 a5 => exact execBankMode_keeps a0 a1 a2 a3 a4 a5 s h0
  | sctxGet a0 a1 => exact execSctxGet_keeps a0 a1 s h0
  | mmaF16 a0 a1 => exact execMmaF16_keeps a0 a1 s h0
  | mmaBf16 a0 a1 => exact execMmaBf16_keeps a0 a1 s h0
  | mmaE4m3 a0 a1 => exact execMmaE4m3_keeps a0 a1 s h0
  | mmaE5m2 a0 a1 => exact execMmaE5m2_keeps a0 a1 s h0
  | mmaS8 a0 a1 => exact execMmaS8_keeps a0 a1 s h0
  | mmaDs8 a0 a1 => exact execMmaDs8_keeps a0 a1 s h0
  | accZero a0 a1 a2 a3 => exact execAccZero_keeps a0 a1 a2 a3 s h0
  | accLd a0 a1 a2 a3 a4 => exact execAccLd_keeps a0 a1 a2 a3 a4 s h0
  | accDrain a0 a1 a2 a3 a4 a5 a6 a7 => exact execAccDrain_keeps a0 a1 a2 a3 a4 a5 a6 a7 s h0
  | accSpill a0 a1 a2 a3 => exact execAccSpill_keeps a0 a1 a2 a3 s h0
  | accFill a0 a1 a2 a3 => exact execAccFill_keeps a0 a1 a2 a3 s h0
  | accMov a0 a1 a2 a3 => exact execAccMov_keeps a0 a1 a2 a3 s h0
  | accAdd a0 a1 a2 a3 a4 => exact execAccAdd_keeps a0 a1 a2 a3 a4 s h0
  | accScale a0 a1 a2 a3 a4 => exact execAccScale_keeps a0 a1 a2 a3 a4 s h0
  | gangForm a0 a1 => exact execGangForm_keeps a0 a1 s h0
  | gangBrk a0 => exact execGangBrk_keeps a0 s h0
  | dslotWait a0 a1 => exact execDslotWait_keeps a0 a1 s h0
  | barArrive a0 a1 a2 => exact execBarArrive_keeps a0 a1 a2 s h0
  | barWait a0 a1 a2 => exact execBarWait_keeps a0 a1 a2 s h0
  | barSync a0 a1 => exact execBarSync_keeps a0 a1 s h0
  | barDie a0 a1 a2 a3 a4 => exact execBarDie_keeps a0 a1 a2 a3 a4 s h0
  | barPkg a0 a1 a2 a3 a4 => exact execBarPkg_keeps a0 a1 a2 a3 a4 s h0
  | evArm a0 a1 a2 => exact execEvArm_keeps a0 a1 a2 s h0
  | evMask a0 a1 a2 => exact execEvMask_keeps a0 a1 a2 s h0
  | evClear a0 a1 => exact execEvClear_keeps a0 a1 s h0
  | wany a0 a1 => exact execWany_keeps a0 a1 s h0
  | mboxPost a0 a1 a2 a3 a4 => exact execMboxPost_keeps a0 a1 a2 a3 a4 s h0
  | mboxRead a0 a1 a2 a3 => exact execMboxRead_keeps a0 a1 a2 a3 s h0
  | tlWait a0 a1 a2 => exact execTlWait_keeps a0 a1 a2 s h0
  | tlRead a0 a1 a2 a3 => exact execTlRead_keeps a0 a1 a2 a3 s h0
  | tlTry a0 a1 a2 a3 a4 => exact execTlTry_keeps a0 a1 a2 a3 a4 s h0
  | gslotSet a0 a1 a2 => exact execGslotSet_keeps a0 a1 a2 s h0
  | gslotClr a0 a1 => exact execGslotClr_keeps a0 a1 s h0
  | launch a0 a1 a2 a3 a4 => exact execLaunch_keeps a0 a1 a2 a3 a4 s h0
  | tapePush a0 a1 a2 a3 => exact execTapePush_keeps a0 a1 a2 a3 s h0
  | leaveReq a0 a1 => exact execLeaveReq_keeps a0 a1 s h0
  | leaveRel a0 a1 => exact execLeaveRel_keeps a0 a1 s h0
  | regionBegin a0 => exact execRegionBegin_keeps a0 s h0
  | regionEnd a0 => exact execRegionEnd_keeps a0 s h0
  | regsGrow a0 a1 a2 => exact execRegsGrow_keeps a0 a1 a2 s h0
  | regsShrink a0 a1 => exact execRegsShrink_keeps a0 a1 s h0
  | sregGet a0 a1 a2 => exact execSregGet_keeps a0 a1 a2 s h0
  | sregSet a0 a1 a2 => exact execSregSet_keeps a0 a1 a2 s h0
  | rdtime a0 a1 a2 => exact execRdtime_keeps a0 a1 a2 s h0
  | trap a0 a1 => exact execTrap_keeps a0 a1 s h0
  | brk a0 a1 => exact execBrk_keeps a0 a1 s h0
  | xret a0 => exact execXret_keeps a0 s h0
  | longLatencyResult a0 a1 a2 => exact execLongLatencyResult_keeps a0 a1 a2 s h0
  | barrierWaveRelease a0 => exact execBarrierWaveRelease_keeps a0 s h0
  | chanSendDelivery a0 => exact execChanSendDelivery_keeps a0 s h0
  | chanRecvDelivery a0 => exact execChanRecvDelivery_keeps a0 s h0
  | jointOperationStart a0 => exact execJointOperationStart_keeps a0 s h0
  | anvilCompletion a0 a1 => exact execAnvilCompletion_keeps a0 a1 s h0
  | deplClear a0 => exact execDeplClear_keeps a0 s h0
  | leaveGrant a0 => exact execLeaveGrant_keeps a0 s h0
  | teamPlacement a0 => exact execTeamPlacement_keeps a0 s h0
  | evictedTeamResume a0 => exact execEvictedTeamResume_keeps a0 s h0
  | hotSpotMigration a0 a1 => exact execHotSpotMigration_keeps a0 a1 s h0
  | copy a0 => exact execCopy_keeps a0 s h0
  | gather a0 => exact execGather_keeps a0 s h0
  | reduceStore a0 => exact execReduceStore_keeps a0 s h0
  | mergeRound a0 => exact execMergeRound_keeps a0 s h0
  | multicastRead a0 => exact execMulticastRead_keeps a0 s h0
  | collective a0 => exact execCollective_keeps a0 s h0
  | commandDiscard a0 => exact execCommandDiscard_keeps a0 s h0
  | commandComplete a0 => exact execCommandComplete_keeps a0 s h0
  | takeRecord a0 => exact execTakeRecord_keeps a0 s h0
  | tapePop a0 => exact execTapePop_keeps a0 s h0
  | timerFire a0 a1 => exact execTimerFire_keeps a0 a1 s h0
  | streamFire a0 => exact execStreamFire_keeps a0 s h0
  | streamEvictionComplete a0 => exact execStreamEvictionComplete_keeps a0 s h0
  | streamReloadComplete a0 => exact execStreamReloadComplete_keeps a0 s h0
  | preemptSave a0 => exact execPreemptSave_keeps a0 s h0
  | swapExchange a0 => exact execSwapExchange_keeps a0 s h0
  | timeSliceExpiry a0 => exact execTimeSliceExpiry_keeps a0 s h0
  | tlbInvalidateDone a0 => exact execTlbInvalidateDone_keeps a0 s h0
  | keyCommandComplete => exact execKeyCommandComplete_keeps s h0
  | biasSettled a0 => exact execBiasSettled_keeps a0 s h0
  | thermalStep a0 => exact execThermalStep_keeps a0 s h0
  | bankNap a0 => exact execBankNap_keeps a0 s h0
  | bankRetain a0 => exact execBankRetain_keeps a0 s h0
  | bankWakeComplete a0 a1 => exact execBankWakeComplete_keeps a0 a1 s h0
  | warmReserveRefill a0 => exact execWarmReserveRefill_keeps a0 s h0
  | bankModeComplete a0 => exact execBankModeComplete_keeps a0 s h0
  | fabricWindowStart => exact execFabricWindowStart_keeps s h0
  | collectiveTimeout a0 => exact execCollectiveTimeout_keeps a0 s h0
  | storePerformed a0 => exact execStorePerformed_keeps a0 s h0
  | stepReachedEveryCore => exact execStepReachedEveryCore_keeps s h0
  | harvestEviction a0 => exact execHarvestEviction_keeps a0 s h0
  | commandChunkEnd a0 a1 => exact execCommandChunkEnd_keeps a0 a1 s h0
  | bind a0 => exact execBind_keeps a0 s h0
  | unbind a0 => exact execUnbind_keeps a0 s h0
  | chunk a0 => exact execChunk_keeps a0 s h0
  | qctlWrite a0 a1 a2 => exact execQctlWrite_keeps a0 a1 a2 s h0
  | qtailWrite a0 a1 a2 => exact execQtailWrite_keeps a0 a1 a2 s h0
  | fqctlWrite a0 a1 => exact execFqctlWrite_keeps a0 a1 s h0
  | fqheadWrite a0 a1 => exact execFqheadWrite_keeps a0 a1 s h0
  | replay a0 a1 => exact execReplay_keeps a0 a1 s h0
  | replayPage a0 a1 => exact execReplayPage_keeps a0 a1 s h0
  | skip a0 a1 => exact execSkip_keeps a0 a1 s h0
  | kill a0 a1 => exact execKill_keeps a0 a1 s h0
  | preempt a0 => exact execPreempt_keeps a0 s h0
  | resume a0 => exact execResume_keeps a0 s h0
  | swap a0 a1 => exact execSwap_keeps a0 a1 s h0
  | clpartWrite a0 a1 => exact execClpartWrite_keeps a0 a1 s h0
  | tlbInvalidate a0 a1 => exact execTlbInvalidate_keeps a0 a1 s h0
  | fabricTlbInvalidate a0 => exact execFabricTlbInvalidate_keeps a0 s h0
  | pageWalkComplete a0 a1 a2 a3 => exact execPageWalkComplete_keeps a0 a1 a2 a3 s h0
  | generate => exact execGenerate_keeps s h0
  | assign a0 a1 => exact execAssign_keeps a0 a1 s h0
  | destroy a0 => exact execDestroy_keeps a0 s h0
  | svcNormal => exact execSvcNormal_keeps s h0
  | svcTest => exact execSvcTest_keeps s h0
  | svcReduced => exact execSvcReduced_keeps s h0
  | svcRecovery => exact execSvcRecovery_keeps s h0
  | hbmErrorLimit a0 => exact execHbmErrorLimit_keeps a0 s h0
  | hbmTrainingPass a0 => exact execHbmTrainingPass_keeps a0 s h0
  | packageReset => exact execPackageReset_keeps s h0
  | firmwareStageLoad a0 a1 => exact execFirmwareStageLoad_keeps a0 a1 s h0
  | clbiasWrite a0 a1 => exact execClbiasWrite_keeps a0 a1 s h0
  | thermalSample a0 a1 => exact execThermalSample_keeps a0 a1 s h0
  | l2waygWrite a0 => exact execL2waygWrite_keeps a0 s h0
  | qosShareWrite a0 a1 a2 => exact execQosShareWrite_keeps a0 a1 a2 s h0
  | hbmregWrite a0 a1 a2 => exact execHbmregWrite_keeps a0 a1 a2 s h0
  | ptstepWrite a0 => exact execPtstepWrite_keeps a0 s h0
  | registerWrite a0 a1 a2 => exact execRegisterWrite_keeps a0 a1 a2 s h0
  | hostAccess a0 a1 => exact execHostAccess_keeps a0 a1 s h0
  | hostFence a0 => exact execHostFence_keeps a0 s h0
  | l2HomeRead a0 => exact execL2HomeRead_keeps a0 s h0
  | readRequest a0 => exact execReadRequest_keeps a0 s h0
  | readResponse a0 => exact execReadResponse_keeps a0 s h0
  | write a0 => exact execWrite_keeps a0 s h0
  | writeAcknowledgement a0 => exact execWriteAcknowledgement_keeps a0 s h0
  | atomic a0 => exact execAtomic_keeps a0 s h0
  | atomicResponse a0 => exact execAtomicResponse_keeps a0 s h0
  | collectiveData a0 => exact execCollectiveData_keeps a0 s h0
  | translationWarm a0 => exact execTranslationWarm_keeps a0 s h0
  | refusal a0 => exact execRefusal_keeps a0 s h0
  | linkResend a0 a1 => exact execLinkResend_keeps a0 a1 s h0
  | linkStateChange a0 a1 a2 => exact execLinkStateChange_keeps a0 a1 a2 s h0
  | ptpEventMessage a0 a1 => exact execPtpEventMessage_keeps a0 a1 s h0
  | debugHalt a0 => exact execDebugHalt_keeps a0 s h0
  | debugRelease a0 => exact execDebugRelease_keeps a0 s h0
  | getVersion => exact execGetVersion_keeps s h0
  | getCapabilities => exact execGetCapabilities_keeps s h0
  | negotiateAlgorithms => exact execNegotiateAlgorithms_keeps s h0
  | getDigests => exact execGetDigests_keeps s h0
  | getCertificate a0 a1 => exact execGetCertificate_keeps a0 a1 s h0
  | challenge a0 => exact execChallenge_keeps a0 s h0
  | getMeasurements a0 => exact execGetMeasurements_keeps a0 s h0
  | spdmSessionRequest a0 => exact execSpdmSessionRequest_keeps a0 s h0
  | profileApply a0 => exact execProfileApply_keeps a0 s h0
  | simpleUpdate a0 => exact execSimpleUpdate_keeps a0 s h0
  | firmwareCommit => exact execFirmwareCommit_keeps s h0
  | metricSample => exact execMetricSample_keeps s h0
  | frameDrop a0 => exact execFrameDrop_keeps a0 s h0
  | debuggerAttach a0 a1 => exact execDebuggerAttach_keeps a0 a1 s h0

theorem Ctx.passFill_keeps {z : State} (c : Ctx) (s : State) (h0 : Keeps z s) : Keeps z (Ctx.passFill c s) := by
  unfold Ctx.passFill
  try dsimp only
  with_reducible repeat' first | assumption | apply State.grantHeld_keeps | apply State.repath_keeps | apply State.updGroup_keeps

theorem Ctx.badWord_keeps {z : State} (c : Ctx) (cause : Cause) (aux : ℕ) (addr : ℕ) (s : State) (h0 : Keeps z s) : Keeps z (Ctx.badWord c cause aux addr s) := by
  unfold Ctx.badWord
  try dsimp only
  repeat' first
    | (with_reducible first | assumption | apply State.exitLanes_keeps | apply State.takeFault_keeps)
    | split

theorem Ctx.takePend_keeps {z : State} (c : Ctx) (id : ℕ) (s : State) (h0 : Keeps z s) : Keeps z (Ctx.takePend c id s) := by
  unfold Ctx.takePend
  try dsimp only
  repeat' first
    | (with_reducible first | assumption | apply State.takeFault_keeps | apply State.updGroup_keeps)
    | split

theorem State.noteFetch_keeps {z : State} (s : State) (gk : ℕ) (pc : DWord) (h0 : Keeps z s) : Keeps z (State.noteFetch s gk pc) := by
  unfold State.noteFetch
  try dsimp only
  repeat' first
    | (with_reducible first | assumption | apply State.noteXlate_keeps)
    | split

theorem State.issuing_keeps {z : State} (s : State) (gk : ℕ) (o : PathOffer) (view : List Lane) (h0 : Keeps z s) : Keeps z (State.issuing s gk o view) := by
  unfold State.issuing
  try dsimp only
  repeat' first
    | (with_reducible first | assumption | apply State.noteFetch_keeps)
    | split
    | with_reducible (apply keeps_mk; apply keeps_kp; apply State.updGroup_keeps)

theorem State.issued_keeps {z : State} (s : State) (gk : ℕ) (o : PathOffer) (cov : Option ℕ) (h0 : Keeps z s) : Keeps z (State.issued s gk o cov) := by
  unfold State.issued
  try dsimp only
  repeat' first
    | (with_reducible first | assumption | apply State.chargeOp_keeps)
    | split
    | with_reducible (apply keeps_mk; apply keeps_kp; first | assumption | apply State.chargeOp_keeps | apply State.updGroup_keeps)

theorem State.delayTargets_keeps {z : State} (s : State) (gk : ℕ) (i : Instr) (act : Mask) (h0 : Keeps z s) : Keeps z (State.delayTargets s gk i act) := by
  unfold State.delayTargets
  try dsimp only
  repeat' first
    | (with_reducible first | assumption | apply State.updGroup_keeps)
    | split

theorem State.runInstr_keeps {z : State} (s : State) (gk : Nat) (o : PathOffer) (view : List Lane) (i : Instr) (h0 : Keeps z s) : KeepsOut z (State.runInstr s gk o view i) := by
  have h1 := exec_keeps i _ (State.issuing_keeps s gk o view h0)
  simp only [State.runInstr]
  split
  · next e => exact keepsOut_next (State.delayTargets_keeps _ _ _ _ (State.issued_keeps _ _ _ _ (h1 _ e)))
  · exact h1

theorem State.runOffer_keeps {z : State} (s : State) (gk : ℕ) (o : PathOffer) (view : List Lane) (h0 : Keeps z s) : KeepsOut z (State.runOffer s gk o view) := by
  unfold State.runOffer
  try dsimp only
  repeat' first
    | with_reducible
        first
          | assumption | apply keepsOut_next | apply Ctx.badWord_keeps | apply Ctx.passFill_keeps | apply Ctx.takePend_keeps
          | apply State.runInstr_keeps
    | split

theorem joinParks_keeps {z : State} (before : State) (after : State) (gk : ℕ) (h0 : Keeps z before) (h1 : Keeps z after) : Keeps z (joinParks before after gk) := by
  unfold joinParks
  try dsimp only
  repeat' first
    | (with_reducible first | assumption | apply State.updGroup_keeps)
    | split
    | with_reducible (apply keeps_mk; apply keeps_kp; assumption)

theorem State.runSecond_keeps {z : State} (s : State) (cu : Cur) (h0 : Keeps z s) : KeepsOut z (State.runSecond s cu) := by
  unfold State.runSecond
  try dsimp only
  repeat' first
    | with_reducible
        first
          | apply keepsOut_next | apply State.meet_keeps | apply State.runOffer_keeps | apply State.settle_keeps | apply joinParks_keeps
          | refine keeps_of_next ‹_› ?_
    | split
    | with_reducible (apply keeps_mk; apply keeps_kp; assumption)

theorem State.selected_keeps {z : State} (s : State) (key : ℕ) (gk : ℕ) (h0 : Keeps z s) : Keeps z (State.selected s key gk) := by
  unfold State.selected
  try dsimp only
  repeat' first
    | (with_reducible first | intro _ | assumption | apply keeps_foldl | apply State.updGroup_keeps)
    | split
    | with_reducible (apply keeps_mk; apply keeps_kp; first | apply keeps_foldl | apply State.updGroup_keeps)

theorem State.noteHolds_keeps {z : State} (s : State) (cl : ℕ) (h0 : Keeps z s) : Keeps z (State.noteHolds s cl) := by
  unfold State.noteHolds
  try dsimp only
  with_reducible repeat' first | intro _ | assumption | apply keeps_ite | apply keeps_foldl | apply State.holdOp_keeps

theorem State.homeNow_keeps {z : State} (s : State) (h0 : Keeps z s) : KeepsOpt z (State.homeNow s) := by
  intro t e
  obtain ⟨q, -, hq⟩ := List.exists_of_findSome?_eq_some e
  simp only [ite_eq_iff] at hq
  obtain ⟨-, hq⟩ | ⟨-, hq⟩ := hq
  · cases hq
  · cases hq; exact State.homeRead_keeps _ _ h0

theorem State.clusterTick_keeps {z : State} (s : State) (cl : ℕ) (h0 : Keeps z s) : Keeps z (State.clusterTick s cl) := by
  unfold State.clusterTick
  try dsimp only
  repeat' first
    | (with_reducible first | assumption | apply State.noteHolds_keeps | apply State.setCluster_keeps)
    | split

theorem State.followUps_keeps {z : State} (s : State) (h0 : Keeps z s) : Keeps z (State.followUps s) := by
  unfold State.followUps
  try dsimp only
  with_reducible
    repeat' first
      | intro _ | assumption | apply keeps_foldl | apply State.coreTick_keeps | apply State.endNoRegion_keeps | apply State.goHeld_keeps
      | apply State.hostRelease_keeps | apply State.walkDone_keeps

theorem State.tick_keeps {z : State} (s : State) (h0 : Keeps z s) : Keeps z (State.tick s) := by
  unfold State.tick
  try dsimp only
  repeat' first
    | with_reducible
        first
          | intro _ | assumption | apply keeps_foldl | apply State.checkBars_keeps | apply State.clusterTick_keeps
          | apply State.followUps_keeps | apply State.latchHeads_keeps
    | with_reducible (apply keeps_mk; apply keeps_kp; apply keeps_foldl)

theorem State.issueOn_keeps {z : State} (s : State) (key : Nat) (h0 : Keeps z s) (o : Out) (e : s.issueOn key = some o) : KeepsOut z o := by
  simp only [State.issueOn] at e
  split at e
  · cases e
  · split at e
    · cases e; exact State.runOffer_keeps _ _ _ _ h0
    · split at e
      · cases e
      · cases e; exact State.runOffer_keeps _ _ _ _ (State.selected_keeps _ _ _ h0)
      · have h1 := fun key gk => State.selected_keeps s key gk h0
        split at e
        · cases e; exact State.runOffer_keeps _ _ _ _ ⟨(h1 _ _).1⟩
        · cases e; exact State.runOffer_keeps _ _ _ _ ⟨(h1 _ _).1⟩

theorem State.issueNow_keeps {z : State} (s : State) (h0 : Keeps z s) (o : Out) (e : s.issueNow = some o) : KeepsOut z o := by
  obtain ⟨k, _, hk⟩ := List.exists_of_findSome?_eq_some e
  exact State.issueOn_keeps s k h0 o hk

theorem State.rest_keeps {z : State} (s : State) (h0 : Keeps z s) : KeepsOut z (State.rest s) := by
  unfold State.rest
  split
  · exact exec_keeps _ s h0
  · split
    · next e => exact keepsOut_next (State.homeNow_keeps s h0 _ e)
    · exact keepsOut_next (State.tick_keeps s h0)

theorem State.alone_keeps {z : State} (s : State) (h0 : Keeps z s) : KeepsOut z (State.alone s) := by
  unfold State.alone
  split
  · exact exec_keeps _ s h0
  · split
    · next e => exact State.issueNow_keeps s h0 _ e
    · exact State.rest_keeps s h0

theorem State.act_keeps {z : State} (s : State) (h0 : Keeps z s) : KeepsOut z (State.act s) := by
  unfold State.act
  try dsimp only
  repeat' first
    | with_reducible
        first
          | assumption | apply keepsOut_next | apply State.alone_keeps | apply State.runSecond_keeps | apply exec_keeps
    | split
    | with_reducible (apply keeps_mk; apply keeps_kp; assumption)

end Sys2Proof.Machine
end

