-- ==== Sys2Proof/Laws/PerInstr.lean ====
section
/-! SUPPORT. Per-instruction lemmas: the fields that the encoder gives an instruction read back as that instruction
(Tables 6-7 to 6-9), and they fill the length that the instruction has (R142, R145). -/

namespace Sys2Proof.Laws

open Sys2Proof

@[simp] theorem code_some {α : Type} (a : α) : code (some a) = .ok a := rfl

@[simp] theorem ok_bind {α β : Type} (a : α) (f : α → Except DecErr β) : (Except.ok a >>= f) = f a := rfl

/-! Parts of a bit vector. -/

theorem extract_low {m n : Nat} (x : BitVec m) (y : BitVec n) : (x ++ y).extractLsb' 0 n = y := by
  ext i hi; simp [BitVec.getLsbD_append, hi]

theorem extract_high {m n : Nat} (x : BitVec m) (y : BitVec n) : (x ++ y).extractLsb' n m = x := by
  ext i hi; simp [BitVec.getLsbD_append, hi]

theorem extract_join {w : Nat} (x : BitVec w) (s m n : Nat) :
    x.extractLsb' (s + n) m ++ x.extractLsb' s n = x.extractLsb' s (m + n) := by
  apply BitVec.eq_of_getLsbD_eq
  intro i hi
  simp only [BitVec.getLsbD_append, BitVec.getLsbD_extractLsb']
  split
  · next h => simp [h, hi]
  · next h => simp only [hi, show i - n < m by omega, show s + n + (i - n) = s + i by omega]

theorem extract_all {w : Nat} (x : BitVec w) : x.extractLsb' 0 w = x := by simp

/-! Codes read back as what they stand for. -/

@[simp] theorem Ty.ofCode_code (x : Ty) : Ty.ofCode x.code = some x := by cases x <;> rfl

@[simp] theorem RMode.ofCode_code (x : RMode) : RMode.ofCode x.code = some x := by cases x <;> rfl

@[simp] theorem ICc.ofCode_code (x : ICc) : ICc.ofCode x.code = some x := by cases x <;> rfl

@[simp] theorem FCc.ofCode_code (x : FCc) : FCc.ofCode x.code = some x := by cases x <;> rfl

@[simp] theorem QMode.ofCode_code (x : QMode) : QMode.ofCode x.code = some x := by cases x <;> rfl

@[simp] theorem ShflMode.ofCode_code (x : ShflMode) : ShflMode.ofCode x.code = some x := by cases x <;> rfl

@[simp] theorem VoteMode.ofCode_code (x : VoteMode) : VoteMode.ofCode x.code = some x := by cases x <;> rfl

@[simp] theorem RedOp.ofCode_code (x : RedOp) : RedOp.ofCode x.code = some x := by cases x <;> rfl

@[simp] theorem SignMode.ofCode_code (x : SignMode) : SignMode.ofCode x.code = some x := by cases x <;> rfl

@[simp] theorem MemOp.ofCode_code (x : MemOp) : MemOp.ofCode x.code = some x := by cases x <;> rfl

@[simp] theorem Scope.ofCode_code (x : Scope) : Scope.ofCode x.code = some x := by cases x <;> rfl

@[simp] theorem PrefLvl.ofCode_code (x : PrefLvl) : PrefLvl.ofCode x.code = some x := by cases x <;> rfl

@[simp] theorem SpcSp.ofCode_code (x : SpcSp) : SpcSp.ofCode x.code = some x := by cases x <;> rfl

@[simp] theorem BarMode.ofCode_code (x : BarMode) : BarMode.ofCode x.code = some x := by cases x <;> rfl

@[simp] theorem MaskOp.ofCode_code (x : MaskOp) : MaskOp.ofCode x.code = some x := by cases x <;> rfl

@[simp] theorem LeaveCls.ofCode_code (x : LeaveCls) : LeaveCls.ofCode x.code = some x := by cases x <;> rfl

/-! Fields made of two parts. -/

@[simp] theorem ty_field (x : BitVec 3) (y : BitVec 5) : (x ++ y : BitVec 8).extractLsb' 0 5 = y := extract_low x y

@[simp] theorem rm_field (x : BitVec 3) (y : BitVec 5) : (x ++ y : BitVec 8).extractLsb' 5 3 = x := extract_high x y

@[simp] theorem x2_field (x y : BitVec 2) : (x ++ y : BitVec 4).extractLsb' 0 2 = y := extract_low x y

@[simp] theorem x3_field (x : BitVec 1) (y : BitVec 3) : (x ++ y : BitVec 4).extractLsb' 0 3 = y := extract_low x y

@[simp] theorem x3_high (x : BitVec 3) (y : BitVec 1) : (x ++ y : BitVec 4).extractLsb' 1 3 = x := extract_high x y

@[simp] theorem nibble_low (x y : BitVec 4) : (x ++ y : BitVec 8).extractLsb' 0 4 = y := extract_low x y

@[simp] theorem nibble_high (x y : BitVec 4) : (x ++ y : BitVec 8).extractLsb' 4 4 = x := extract_high x y

@[simp] theorem byte_low (x : BitVec 24) (y : BitVec 8) : (x ++ y : BitVec 32).extractLsb' 0 8 = y := extract_low x y

@[simp] theorem half_high (x y : BitVec 16) : (x ++ y : BitVec 32).extractLsb' 16 16 = x := extract_high x y

@[simp] theorem disp_parts (x : BitVec 12) : (x.extractLsb' 8 4 ++ x.extractLsb' 0 8 : BitVec 12) = x :=
  (extract_join x 0 4 8).trans (extract_all x)

@[simp] theorem bdisp_parts (x : BitVec 23) : (x.extractLsb' 16 7 ++ x.extractLsb' 0 16 : BitVec 23) = x :=
  (extract_join x 0 7 16).trans (extract_all x)

@[simp] theorem imm64_parts (x : DWord) :
    (x.extractLsb' 56 8 ++ x.extractLsb' 48 8 ++ x.extractLsb' 16 32 ++ x.extractLsb' 0 16 : DWord) = x := by
  rw [extract_join x 48 8 8, extract_join x 16 16 32]
  exact (extract_join x 0 48 16).trans (extract_all x)

@[simp] theorem x3_bit (x : BitVec 1) (y : BitVec 3) : (x ++ y : BitVec 4)[3] = x[0] := by
  revert x y; decide

@[simp] theorem x2_bit (x y : BitVec 2) : (x ++ y : BitVec 4)[3] = x[1] := by
  revert x y; decide

@[simp] theorem x1_bit (x : BitVec 3) (y : BitVec 1) : (x ++ y : BitVec 4)[0] = y[0] := by
  revert x y; decide

@[simp] theorem disp_bit4 (x y : BitVec 4) : (x ++ y : BitVec 8)[4] = x[0] := by
  revert x y; decide

@[simp] theorem disp_bit5 (x y : BitVec 4) : (x ++ y : BitVec 8)[5] = x[1] := by
  revert x y; decide

@[simp] theorem last_bit (a b : Bool) : (0#2 ++ BitVec.ofBool a ++ BitVec.ofBool b : BitVec 4)[1] = a := by
  cases a <;> cases b <;> rfl

@[simp] theorem RMode.code_ne (x : RMode) : (x.code = 4#3) = False := by cases x <;> simp [RMode.code]

@[simp] theorem SrcB.read (b : SrcB) : (if b.ib = true then SrcB.imm b.cField else SrcB.reg b.bField) = b := by
  cases b <;> rfl

theorem ds_parts' (x : BitVec 16) (ds : DSlots) :
    (⟨(x ++ ds.field : BitVec 32).extractLsb' 0 8, (x ++ ds.field : BitVec 32).extractLsb' 8 3,
      (x ++ ds.field : BitVec 32).getLsbD 11⟩ : DSlots) = ds := by
  obtain ⟨m, s, b⟩ := ds
  simp only [DSlots.field, DSlots.mk.injEq]
  refine ⟨?_, ?_, ?_⟩
  · apply BitVec.eq_of_getLsbD_eq
    intro i hi
    simp only [BitVec.getLsbD_append, BitVec.getLsbD_extractLsb']
    simp [hi]; omega
  · apply BitVec.eq_of_getLsbD_eq
    intro i hi
    simp only [BitVec.getLsbD_append, BitVec.getLsbD_extractLsb']
    simp [hi, show 8 + i < 16 by omega]
  · simp only [BitVec.getLsbD_append]
    simp

@[simp] theorem ds_parts (x : BitVec 16) (ds : DSlots) :
    (⟨(x ++ ds.field : BitVec 32).extractLsb' 0 8, (x ++ ds.field : BitVec 32).extractLsb' 8 3,
      (x ++ ds.field : BitVec 32)[11]⟩ : DSlots) = ds := ds_parts' x ds

@[simp] theorem half_bit (x y : BitVec 16) : (x ++ y : BitVec 32)[16] = x[0] := by
  rw [← BitVec.getLsbD_eq_getElem, ← BitVec.getLsbD_eq_getElem, BitVec.getLsbD_append]
  simp

theorem mma_hi (x : MmaArgs) :
    x.hiField.getLsbD 9 = x.tb ∧ x.hiField.getLsbD 10 = x.ru ∧ x.hiField.getLsbD 11 = x.sc ∧
    x.hiField.getLsbD 12 = x.ftz ∧ x.hiField.getLsbD 13 = x.zc ∧ x.hiField.getLsbD 14 = x.u ∧ x.hiField.getLsbD 15 = x.ub ∧
    x.hiField.extractLsb' 7 2 = x.bsel ∧ x.hiField.extractLsb' 0 7 = x.bdisp.extractLsb' 16 7 := by
  simp only [MmaArgs.hiField, BitVec.getLsbD_append]
  refine ⟨?_, ?_, ?_, ?_, ?_, ?_, ?_, ?_, ?_⟩
  iterate 7 simp
  · apply BitVec.eq_of_getLsbD_eq
    intro i hi
    simp only [BitVec.getLsbD_append, BitVec.getLsbD_extractLsb']
    simp [hi]
  · apply BitVec.eq_of_getLsbD_eq
    intro i hi
    simp only [BitVec.getLsbD_append, BitVec.getLsbD_extractLsb']
    simp [hi]

theorem mma_parts (h : Hdr) (opc : BitVec 10) (x : MmaArgs) :
    (raw128 h opc x.d x.a x.b x.c 0#4 0#8 (x.bdisp.extractLsb' 0 16 ++ x.ds.field) x.hiField).mma = x := by
  obtain ⟨h0, h1, h2, h3, h4, h5, h6, h7, h8⟩ := mma_hi x
  simp only [Raw.mma, Raw.ds, raw128, h0, h1, h2, h3, h4, h5, h6, h7, h8, half_high, bdisp_parts, ds_parts']

/-! What holds of every instruction of a format. -/

/-- What holds of a well-formed instruction (rows 6 and 7 of Table 6-10, R145): its fields read back as it, LEN gives its
length, and the words beyond that length are zero. -/
def RoundTrip.Statement (i : Instr) : Prop :=
  (i.encodingOk && i.widthOk) = true →
    ∀ r, toRaw i = some r →
      parse r = .ok i ∧ lenBytes r.len.toNat = i.len ∧ (i.len = 8 → r.w2 = 0#32) ∧ (i.len ≤ 12 → r.w3 = 0#32)

theorem RoundTrip.of64 {i : Instr} {h : Hdr} {opc : BitVec 10} {d a b c : BitVec 8} {x : BitVec 4} {m : BitVec 8}
    (ht : toRaw i = some (raw64 h opc d a b c x m)) (hl : i.len = if h.wide = true then 12 else 8)
    (hp : i.encodingOk = true → (raw64 h opc d a b c x m).hdr = h → parse (raw64 h opc d a b c x m) = .ok i) :
    RoundTrip.Statement i := by
  intro hw r hr
  have hw' := (Bool.and_eq_true _ _ ▸ hw : i.encodingOk = true ∧ i.widthOk = true)
  rw [ht] at hr
  cases hr
  refine ⟨hp hw'.1 ?_, ?_, fun _ => rfl, fun _ => rfl⟩
  · obtain ⟨p, n, w⟩ := h
    cases w <;> rfl
  · rw [hl]
    obtain ⟨p, n, w⟩ := h
    cases w <;> rfl

theorem RoundTrip.of96 {i : Instr} {h : Hdr} {opc : BitVec 10} {d a b c : BitVec 8} {x : BitVec 4} {m : BitVec 8}
    {w2 : BitVec 32} (ht : toRaw i = some (raw96 h opc d a b c x m w2)) (hl : i.len = 12) (hw : i.widthOk = !h.wide)
    (hp : (raw96 h opc d a b c x m w2).hdrN = h → parse (raw96 h opc d a b c x m w2) = .ok i) : RoundTrip.Statement i := by
  intro hk r hr
  have hk' := (Bool.and_eq_true _ _ ▸ hk : i.encodingOk = true ∧ i.widthOk = true)
  rw [ht] at hr
  cases hr
  obtain ⟨p, n, w⟩ := h
  cases w
  · exact ⟨hp rfl, by rw [hl]; rfl, fun h8 => absurd (hl ▸ h8) (by decide), fun _ => rfl⟩
  · rw [hw] at hk'
    cases hk'.2

theorem RoundTrip.of128 {i : Instr} {h : Hdr} {opc : BitVec 10} {d a b c : BitVec 8} {x : BitVec 4} {m : BitVec 8}
    {w2 w3 : BitVec 32} (ht : toRaw i = some (raw128 h opc d a b c x m w2 w3)) (hl : i.len = 16) (hw : i.widthOk = !h.wide)
    (hp : (raw128 h opc d a b c x m w2 w3).hdrN = h → parse (raw128 h opc d a b c x m w2 w3) = .ok i) :
    RoundTrip.Statement i := by
  intro hk r hr
  have hk' := (Bool.and_eq_true _ _ ▸ hk : i.encodingOk = true ∧ i.widthOk = true)
  rw [ht] at hr
  cases hr
  obtain ⟨p, n, w⟩ := h
  cases w
  · exact ⟨hp rfl, by rw [hl]; rfl, fun h8 => absurd (hl ▸ h8) (by decide), fun h12 => absurd (hl ▸ h12) (by decide)⟩
  · rw [hw] at hk'
    cases hk'.2

/-! The instructions. -/

theorem RoundTrip.iadd (h : Hdr) (ty : Ty) (sat : Bool) (d : Reg) (a : Reg) (b : SrcB) : RoundTrip.Statement (.iadd h ty sat d a b) :=
  RoundTrip.of64 rfl rfl fun _ hh => by
    simp only [Raw.hdr, raw64] at hh
    cases sat <;> cases b <;> simp [parse, parseG0, Raw.ty, Raw.srcB, SrcB.ib, SrcB.bField, SrcB.cField, raw64, Raw.hdr, hh]

theorem RoundTrip.isub (h : Hdr) (ty : Ty) (sat : Bool) (d : Reg) (a : Reg) (b : SrcB) : RoundTrip.Statement (.isub h ty sat d a b) :=
  RoundTrip.of64 rfl rfl fun _ hh => by
    simp only [Raw.hdr, raw64] at hh
    cases sat <;> cases b <;> simp [parse, parseG0, Raw.ty, Raw.srcB, SrcB.ib, SrcB.bField, SrcB.cField, raw64, Raw.hdr, hh]

theorem RoundTrip.imul (h : Hdr) (ty : Ty) (sat : Bool) (d : Reg) (a : Reg) (b : SrcB) : RoundTrip.Statement (.imul h ty sat d a b) :=
  RoundTrip.of64 rfl rfl fun _ hh => by
    simp only [Raw.hdr, raw64] at hh
    cases sat <;> cases b <;> simp [parse, parseG0, Raw.ty, Raw.srcB, SrcB.ib, SrcB.bField, SrcB.cField, raw64, Raw.hdr, hh]

theorem RoundTrip.imulhi (h : Hdr) (ty : Ty) (d : Reg) (a : Reg) (b : SrcB) : RoundTrip.Statement (.imulhi h ty d a b) :=
  RoundTrip.of64 rfl rfl fun _ hh => by
    simp only [Raw.hdr, raw64] at hh
    cases b <;> simp [parse, parseG0, Raw.ty, Raw.srcB, SrcB.ib, SrcB.bField, SrcB.cField, raw64, Raw.hdr, hh]

theorem RoundTrip.imad (h : Hdr) (ty : Ty) (sat : Bool) (d : Reg) (a : Reg) (b : Reg) (c : Reg) : RoundTrip.Statement (.imad h ty sat d a b c) :=
  RoundTrip.of64 rfl rfl fun _ hh => by
    simp only [Raw.hdr, raw64] at hh
    cases sat <;> simp [parse, parseG0, Raw.ty, raw64, Raw.hdr, hh]

theorem RoundTrip.iadd64 (h : Hdr) (ty : Ty) (sat : Bool) (d : Reg) (a : Reg) (b : Reg) : RoundTrip.Statement (.iadd64 h ty sat d a b) :=
  RoundTrip.of64 rfl rfl fun _ hh => by
    simp only [Raw.hdr, raw64] at hh
    cases sat <;> simp [parse, parseG0, Raw.ty, raw64, Raw.hdr, hh]

theorem RoundTrip.isub64 (h : Hdr) (ty : Ty) (sat : Bool) (d : Reg) (a : Reg) (b : Reg) : RoundTrip.Statement (.isub64 h ty sat d a b) :=
  RoundTrip.of64 rfl rfl fun _ hh => by
    simp only [Raw.hdr, raw64] at hh
    cases sat <;> simp [parse, parseG0, Raw.ty, raw64, Raw.hdr, hh]

theorem RoundTrip.imad64 (h : Hdr) (ty : Ty) (sat : Bool) (d : Reg) (a : Reg) (b : Reg) (c : Reg) : RoundTrip.Statement (.imad64 h ty sat d a b c) :=
  RoundTrip.of64 rfl rfl fun _ hh => by
    simp only [Raw.hdr, raw64] at hh
    cases sat <;> simp [parse, parseG0, Raw.ty, raw64, Raw.hdr, hh]

theorem RoundTrip.iaddc (h : Hdr) (first : Bool) (d : Reg) (a : Reg) (b : Reg) (c : Reg) : RoundTrip.Statement (.iaddc h first d a b c) :=
  RoundTrip.of64 rfl rfl fun _ hh => by
    simp only [Raw.hdr, raw64] at hh
    cases first <;> simp [parse, parseG0, raw64, Raw.hdr, hh]

theorem RoundTrip.ineg (h : Hdr) (sat : Bool) (d : Reg) (a : Reg) : RoundTrip.Statement (.ineg h sat d a) :=
  RoundTrip.of64 rfl rfl fun _ hh => by
    simp only [Raw.hdr, raw64] at hh
    cases sat <;> simp [parse, parseG0, raw64, Raw.hdr, hh]

theorem RoundTrip.iabs (h : Hdr) (sat : Bool) (d : Reg) (a : Reg) : RoundTrip.Statement (.iabs h sat d a) :=
  RoundTrip.of64 rfl rfl fun _ hh => by
    simp only [Raw.hdr, raw64] at hh
    cases sat <;> simp [parse, parseG0, raw64, Raw.hdr, hh]

theorem RoundTrip.imin (h : Hdr) (ty : Ty) (d : Reg) (a : Reg) (b : SrcB) : RoundTrip.Statement (.imin h ty d a b) :=
  RoundTrip.of64 rfl rfl fun _ hh => by
    simp only [Raw.hdr, raw64] at hh
    cases b <;> simp [parse, parseG0, Raw.ty, Raw.srcB, SrcB.ib, SrcB.bField, SrcB.cField, raw64, Raw.hdr, hh]

theorem RoundTrip.imax (h : Hdr) (ty : Ty) (d : Reg) (a : Reg) (b : SrcB) : RoundTrip.Statement (.imax h ty d a b) :=
  RoundTrip.of64 rfl rfl fun _ hh => by
    simp only [Raw.hdr, raw64] at hh
    cases b <;> simp [parse, parseG0, Raw.ty, Raw.srcB, SrcB.ib, SrcB.bField, SrcB.cField, raw64, Raw.hdr, hh]

theorem RoundTrip.and (h : Hdr) (d : Reg) (a : Reg) (b : SrcB) : RoundTrip.Statement (.and h d a b) :=
  RoundTrip.of64 rfl rfl fun _ hh => by
    simp only [Raw.hdr, raw64] at hh
    cases b <;> simp [parse, parseG0, Raw.srcB, SrcB.ib, SrcB.bField, SrcB.cField, raw64, Raw.hdr, hh]

theorem RoundTrip.or (h : Hdr) (d : Reg) (a : Reg) (b : SrcB) : RoundTrip.Statement (.or h d a b) :=
  RoundTrip.of64 rfl rfl fun _ hh => by
    simp only [Raw.hdr, raw64] at hh
    cases b <;> simp [parse, parseG0, Raw.srcB, SrcB.ib, SrcB.bField, SrcB.cField, raw64, Raw.hdr, hh]

theorem RoundTrip.xor (h : Hdr) (d : Reg) (a : Reg) (b : SrcB) : RoundTrip.Statement (.xor h d a b) :=
  RoundTrip.of64 rfl rfl fun _ hh => by
    simp only [Raw.hdr, raw64] at hh
    cases b <;> simp [parse, parseG0, Raw.srcB, SrcB.ib, SrcB.bField, SrcB.cField, raw64, Raw.hdr, hh]

theorem RoundTrip.andn (h : Hdr) (d : Reg) (a : Reg) (b : SrcB) : RoundTrip.Statement (.andn h d a b) :=
  RoundTrip.of64 rfl rfl fun _ hh => by
    simp only [Raw.hdr, raw64] at hh
    cases b <;> simp [parse, parseG0, Raw.srcB, SrcB.ib, SrcB.bField, SrcB.cField, raw64, Raw.hdr, hh]

theorem RoundTrip.not (h : Hdr) (d : Reg) (a : Reg) : RoundTrip.Statement (.not h d a) :=
  RoundTrip.of64 rfl rfl fun _ hh => by
    simp only [Raw.hdr, raw64] at hh
    simp [parse, parseG0, raw64, Raw.hdr, hh]

theorem RoundTrip.lop3 (h : Hdr) (lut : BitVec 8) (d : Reg) (a : Reg) (b : Reg) (c : Reg) : RoundTrip.Statement (.lop3 h lut d a b c) :=
  RoundTrip.of64 rfl rfl fun _ hh => by
    simp only [Raw.hdr, raw64] at hh
    simp [parse, parseG0, raw64, Raw.hdr, hh]

theorem RoundTrip.shl (h : Hdr) (d : Reg) (a : Reg) (b : SrcB) : RoundTrip.Statement (.shl h d a b) :=
  RoundTrip.of64 rfl rfl fun _ hh => by
    simp only [Raw.hdr, raw64] at hh
    cases b <;> simp [parse, parseG0, Raw.srcB, SrcB.ib, SrcB.bField, SrcB.cField, raw64, Raw.hdr, hh]

theorem RoundTrip.shr (h : Hdr) (d : Reg) (a : Reg) (b : SrcB) : RoundTrip.Statement (.shr h d a b) :=
  RoundTrip.of64 rfl rfl fun _ hh => by
    simp only [Raw.hdr, raw64] at hh
    cases b <;> simp [parse, parseG0, Raw.srcB, SrcB.ib, SrcB.bField, SrcB.cField, raw64, Raw.hdr, hh]

theorem RoundTrip.sra (h : Hdr) (d : Reg) (a : Reg) (b : SrcB) : RoundTrip.Statement (.sra h d a b) :=
  RoundTrip.of64 rfl rfl fun _ hh => by
    simp only [Raw.hdr, raw64] at hh
    cases b <;> simp [parse, parseG0, Raw.srcB, SrcB.ib, SrcB.bField, SrcB.cField, raw64, Raw.hdr, hh]

theorem RoundTrip.shl64 (h : Hdr) (d : Reg) (a : Reg) (b : SrcB) : RoundTrip.Statement (.shl64 h d a b) :=
  RoundTrip.of64 rfl rfl fun _ hh => by
    simp only [Raw.hdr, raw64] at hh
    cases b <;> simp [parse, parseG0, Raw.srcB, SrcB.ib, SrcB.bField, SrcB.cField, raw64, Raw.hdr, hh]

theorem RoundTrip.shr64 (h : Hdr) (ty : Ty) (d : Reg) (a : Reg) (b : SrcB) : RoundTrip.Statement (.shr64 h ty d a b) :=
  RoundTrip.of64 rfl rfl fun _ hh => by
    simp only [Raw.hdr, raw64] at hh
    cases b <;> simp [parse, parseG0, Raw.ty, Raw.srcB, SrcB.ib, SrcB.bField, SrcB.cField, raw64, Raw.hdr, hh]

theorem RoundTrip.rotl (h : Hdr) (d : Reg) (a : Reg) (b : SrcB) : RoundTrip.Statement (.rotl h d a b) :=
  RoundTrip.of64 rfl rfl fun _ hh => by
    simp only [Raw.hdr, raw64] at hh
    cases b <;> simp [parse, parseG0, Raw.srcB, SrcB.ib, SrcB.bField, SrcB.cField, raw64, Raw.hdr, hh]

theorem RoundTrip.clz (h : Hdr) (d : Reg) (a : Reg) : RoundTrip.Statement (.clz h d a) :=
  RoundTrip.of64 rfl rfl fun _ hh => by
    simp only [Raw.hdr, raw64] at hh
    simp [parse, parseG0, raw64, Raw.hdr, hh]

theorem RoundTrip.popc (h : Hdr) (d : Reg) (a : Reg) : RoundTrip.Statement (.popc h d a) :=
  RoundTrip.of64 rfl rfl fun _ hh => by
    simp only [Raw.hdr, raw64] at hh
    simp [parse, parseG0, raw64, Raw.hdr, hh]

theorem RoundTrip.brev (h : Hdr) (d : Reg) (a : Reg) : RoundTrip.Statement (.brev h d a) :=
  RoundTrip.of64 rfl rfl fun _ hh => by
    simp only [Raw.hdr, raw64] at hh
    simp [parse, parseG0, raw64, Raw.hdr, hh]

theorem RoundTrip.bfx (h : Hdr) (ty : Ty) (bi : Bool) (d : Reg) (a : Reg) (b : Reg) (c : Reg) : RoundTrip.Statement (.bfx h ty bi d a b c) :=
  RoundTrip.of64 rfl rfl fun _ hh => by
    simp only [Raw.hdr, raw64] at hh
    cases bi <;> simp [parse, parseG0, Raw.ty, raw64, Raw.hdr, hh]

theorem RoundTrip.bfi (h : Hdr) (d : Reg) (a : Reg) (b : Reg) (c : Reg) : RoundTrip.Statement (.bfi h d a b c) :=
  RoundTrip.of64 rfl rfl fun _ hh => by
    simp only [Raw.hdr, raw64] at hh
    simp [parse, parseG0, raw64, Raw.hdr, hh]

theorem RoundTrip.sel (h : Hdr) (d : Reg) (a : Reg) (b : Reg) (c : Reg) : RoundTrip.Statement (.sel h d a b c) :=
  RoundTrip.of64 rfl rfl fun _ hh => by
    simp only [Raw.hdr, raw64] at hh
    simp [parse, parseG0, raw64, Raw.hdr, hh]

theorem RoundTrip.mov (h : Hdr) (d : Reg) (a : SrcB) : RoundTrip.Statement (.mov h d a) :=
  RoundTrip.of64 rfl rfl fun _ hh => by
    simp only [Raw.hdr, raw64] at hh
    cases a <;> simp [parse, parseG0, SrcB.ib, SrcB.bField, SrcB.cField, raw64, Raw.hdr, hh]

theorem RoundTrip.lea (h : Hdr) (ty : Ty) (d : Reg) (a : Reg) (b : Reg) (s : Reg) : RoundTrip.Statement (.lea h ty d a b s) :=
  RoundTrip.of64 rfl rfl fun _ hh => by
    simp only [Raw.hdr, raw64] at hh
    simp [parse, parseG0, Raw.ty, raw64, Raw.hdr, hh]

theorem RoundTrip.iaddImm (h : Hdr) (ty : Ty) (sat : Bool) (d : Reg) (a : Reg) (imm : Word) : RoundTrip.Statement (.iaddImm h ty sat d a imm) :=
  RoundTrip.of96 rfl rfl rfl fun hh => by
    simp only [Raw.hdrN, raw96] at hh
    cases sat <;> simp [parse, parseG1, Raw.ty, raw96, Raw.hdrN, hh]

theorem RoundTrip.isubImm (h : Hdr) (ty : Ty) (sat : Bool) (d : Reg) (a : Reg) (imm : Word) : RoundTrip.Statement (.isubImm h ty sat d a imm) :=
  RoundTrip.of96 rfl rfl rfl fun hh => by
    simp only [Raw.hdrN, raw96] at hh
    cases sat <;> simp [parse, parseG1, Raw.ty, raw96, Raw.hdrN, hh]

theorem RoundTrip.imulImm (h : Hdr) (ty : Ty) (sat : Bool) (d : Reg) (a : Reg) (imm : Word) : RoundTrip.Statement (.imulImm h ty sat d a imm) :=
  RoundTrip.of96 rfl rfl rfl fun hh => by
    simp only [Raw.hdrN, raw96] at hh
    cases sat <;> simp [parse, parseG1, Raw.ty, raw96, Raw.hdrN, hh]

theorem RoundTrip.imadImm (h : Hdr) (ty : Ty) (sat : Bool) (d : Reg) (a : Reg) (imm : Word) (c : Reg) : RoundTrip.Statement (.imadImm h ty sat d a imm c) :=
  RoundTrip.of96 rfl rfl rfl fun hh => by
    simp only [Raw.hdrN, raw96] at hh
    cases sat <;> simp [parse, parseG1, Raw.ty, raw96, Raw.hdrN, hh]

theorem RoundTrip.iminImm (h : Hdr) (ty : Ty) (d : Reg) (a : Reg) (imm : Word) : RoundTrip.Statement (.iminImm h ty d a imm) :=
  RoundTrip.of96 rfl rfl rfl fun hh => by
    simp only [Raw.hdrN, raw96] at hh
    simp [parse, parseG1, Raw.ty, raw96, Raw.hdrN, hh]

theorem RoundTrip.imaxImm (h : Hdr) (ty : Ty) (d : Reg) (a : Reg) (imm : Word) : RoundTrip.Statement (.imaxImm h ty d a imm) :=
  RoundTrip.of96 rfl rfl rfl fun hh => by
    simp only [Raw.hdrN, raw96] at hh
    simp [parse, parseG1, Raw.ty, raw96, Raw.hdrN, hh]

theorem RoundTrip.andImm (h : Hdr) (d : Reg) (a : Reg) (imm : Word) : RoundTrip.Statement (.andImm h d a imm) :=
  RoundTrip.of96 rfl rfl rfl fun hh => by
    simp only [Raw.hdrN, raw96] at hh
    simp [parse, parseG1, raw96, Raw.hdrN, hh]

theorem RoundTrip.orImm (h : Hdr) (d : Reg) (a : Reg) (imm : Word) : RoundTrip.Statement (.orImm h d a imm) :=
  RoundTrip.of96 rfl rfl rfl fun hh => by
    simp only [Raw.hdrN, raw96] at hh
    simp [parse, parseG1, raw96, Raw.hdrN, hh]

theorem RoundTrip.xorImm (h : Hdr) (d : Reg) (a : Reg) (imm : Word) : RoundTrip.Statement (.xorImm h d a imm) :=
  RoundTrip.of96 rfl rfl rfl fun hh => by
    simp only [Raw.hdrN, raw96] at hh
    simp [parse, parseG1, raw96, Raw.hdrN, hh]

theorem RoundTrip.andnImm (h : Hdr) (d : Reg) (a : Reg) (imm : Word) : RoundTrip.Statement (.andnImm h d a imm) :=
  RoundTrip.of96 rfl rfl rfl fun hh => by
    simp only [Raw.hdrN, raw96] at hh
    simp [parse, parseG1, raw96, Raw.hdrN, hh]

theorem RoundTrip.movk (h : Hdr) (d : Reg) (imm : Word) : RoundTrip.Statement (.movk h d imm) :=
  RoundTrip.of96 rfl rfl rfl fun hh => by
    simp only [Raw.hdrN, raw96] at hh
    simp [parse, parseG1, raw96, Raw.hdrN, hh]

theorem RoundTrip.movk64 (h : Hdr) (d : Reg) (imm : DWord) : RoundTrip.Statement (.movk64 h d imm) :=
  RoundTrip.of128 rfl rfl rfl fun hh => by
    simp only [Raw.hdrN, raw128] at hh
    simp [parse, parseG1, raw128, Raw.hdrN, hh]

theorem RoundTrip.icmp (h : Hdr) (cc : ICc) (ty : Ty) (d : Reg) (a : Reg) (b : SrcB) : RoundTrip.Statement (.icmp h cc ty d a b) :=
  RoundTrip.of64 rfl rfl fun _ hh => by
    simp only [Raw.hdr, raw64] at hh
    cases b <;> simp [parse, parseG2, Raw.ty, Raw.srcB, SrcB.ib, SrcB.bField, SrcB.cField, raw64, Raw.hdr, hh]

theorem RoundTrip.pset (h : Hdr) (d : Reg) (a : Reg) (n : Reg) : RoundTrip.Statement (.pset h d a n) :=
  RoundTrip.of64 rfl rfl fun _ hh => by
    simp only [Raw.hdr, raw64] at hh
    simp [parse, parseG2, raw64, Raw.hdr, hh]

theorem RoundTrip.pget (h : Hdr) (d : Reg) (a : Reg) (n : Reg) : RoundTrip.Statement (.pget h d a n) :=
  RoundTrip.of64 rfl rfl fun _ hh => by
    simp only [Raw.hdr, raw64] at hh
    simp [parse, parseG2, raw64, Raw.hdr, hh]

theorem RoundTrip.pand (h : Hdr) (na : Bool) (nb : Bool) (d : Reg) (a : Reg) (b : Reg) : RoundTrip.Statement (.pand h na nb d a b) :=
  RoundTrip.of64 rfl rfl fun _ hh => by
    simp only [Raw.hdr, raw64] at hh
    cases na <;> cases nb <;> simp [parse, parseG2, raw64, Raw.hdr, hh]

theorem RoundTrip.por (h : Hdr) (na : Bool) (nb : Bool) (d : Reg) (a : Reg) (b : Reg) : RoundTrip.Statement (.por h na nb d a b) :=
  RoundTrip.of64 rfl rfl fun _ hh => by
    simp only [Raw.hdr, raw64] at hh
    cases na <;> cases nb <;> simp [parse, parseG2, raw64, Raw.hdr, hh]

theorem RoundTrip.pxor (h : Hdr) (na : Bool) (nb : Bool) (d : Reg) (a : Reg) (b : Reg) : RoundTrip.Statement (.pxor h na nb d a b) :=
  RoundTrip.of64 rfl rfl fun _ hh => by
    simp only [Raw.hdr, raw64] at hh
    cases na <;> cases nb <;> simp [parse, parseG2, raw64, Raw.hdr, hh]

theorem RoundTrip.pnot (h : Hdr) (na : Bool) (d : Reg) (a : Reg) : RoundTrip.Statement (.pnot h na d a) :=
  RoundTrip.of64 rfl rfl fun _ hh => by
    simp only [Raw.hdr, raw64] at hh
    cases na <;> simp [parse, parseG2, raw64, Raw.hdr, hh]

theorem RoundTrip.pmov (h : Hdr) (na : Bool) (d : Reg) (a : Reg) : RoundTrip.Statement (.pmov h na d a) :=
  RoundTrip.of64 rfl rfl fun _ hh => by
    simp only [Raw.hdr, raw64] at hh
    cases na <;> simp [parse, parseG2, raw64, Raw.hdr, hh]

theorem RoundTrip.bra (h : Hdr) (off : Word) : RoundTrip.Statement (.bra h off) :=
  RoundTrip.of96 rfl rfl rfl fun hh => by
    simp only [Raw.hdrN, raw96] at hh
    simp [parse, parseG3, raw96, Raw.hdrN, hh]

theorem RoundTrip.brx (h : Hdr) (a : Reg) : RoundTrip.Statement (.brx h a) :=
  RoundTrip.of64 rfl rfl fun _ hh => by
    simp only [Raw.hdr, raw64] at hh
    simp [parse, parseG3, raw64, Raw.hdr, hh]

theorem RoundTrip.call (h : Hdr) (off : Word) : RoundTrip.Statement (.call h off) :=
  RoundTrip.of96 rfl rfl rfl fun hh => by
    simp only [Raw.hdrN, raw96] at hh
    simp [parse, parseG3, raw96, Raw.hdrN, hh]

theorem RoundTrip.callx (h : Hdr) (a : Reg) : RoundTrip.Statement (.callx h a) :=
  RoundTrip.of64 rfl rfl fun _ hh => by
    simp only [Raw.hdr, raw64] at hh
    simp [parse, parseG3, raw64, Raw.hdr, hh]

theorem RoundTrip.ret (h : Hdr) : RoundTrip.Statement (.ret h) :=
  RoundTrip.of64 rfl rfl fun _ hh => by
    simp only [Raw.hdr, raw64] at hh
    simp [parse, parseG3, raw64, Raw.hdr, hh]

theorem RoundTrip.exit (h : Hdr) : RoundTrip.Statement (.exit h) :=
  RoundTrip.of64 rfl rfl fun _ hh => by
    simp only [Raw.hdr, raw64] at hh
    simp [parse, parseG3, raw64, Raw.hdr, hh]

theorem RoundTrip.rejoinArm (h : Hdr) (all : Bool) (a : Reg) (k : Reg) : RoundTrip.Statement (.rejoinArm h all a k) :=
  RoundTrip.of64 rfl rfl fun _ hh => by
    simp only [Raw.hdr, raw64] at hh
    cases all <;> simp [parse, parseG3, raw64, Raw.hdr, hh]

theorem RoundTrip.rejoin (h : Hdr) (k : Reg) : RoundTrip.Statement (.rejoin h k) :=
  RoundTrip.of64 rfl rfl fun _ hh => by
    simp only [Raw.hdr, raw64] at hh
    simp [parse, parseG3, raw64, Raw.hdr, hh]

theorem RoundTrip.yield (h : Hdr) : RoundTrip.Statement (.yield h) :=
  RoundTrip.of64 rfl rfl fun _ hh => by
    simp only [Raw.hdr, raw64] at hh
    simp [parse, parseG3, raw64, Raw.hdr, hh]

theorem RoundTrip.nop (h : Hdr) : RoundTrip.Statement (.nop h) :=
  RoundTrip.of64 rfl rfl fun he _ => by
    cases h with | mk p n w => cases w <;> first | (cases he; done) | simp [parse, parseG3, raw64, Raw.hdr]

theorem RoundTrip.nopWidened (h : Hdr) : RoundTrip.Statement (.nopWidened h) :=
  RoundTrip.of64 rfl rfl fun he _ => by
    cases h with | mk p n w => cases w <;> first | (cases he; done) | simp [parse, parseG3, raw64, Raw.hdr]

theorem RoundTrip.qswap (h : Hdr) (mode : QMode) (d : Reg) (a : Reg) : RoundTrip.Statement (.qswap h mode d a) :=
  RoundTrip.of64 rfl rfl fun _ hh => by
    simp only [Raw.hdr, raw64] at hh
    simp [parse, parseG4, raw64, Raw.hdr, hh]

theorem RoundTrip.qbcast (h : Hdr) (d : Reg) (a : Reg) (k : Reg) : RoundTrip.Statement (.qbcast h d a k) :=
  RoundTrip.of64 rfl rfl fun _ hh => by
    simp only [Raw.hdr, raw64] at hh
    simp [parse, parseG4, raw64, Raw.hdr, hh]

theorem RoundTrip.gshfl (h : Hdr) (mode : ShflMode) (d : Reg) (a : Reg) (b : SrcB) : RoundTrip.Statement (.gshfl h mode d a b) :=
  RoundTrip.of64 rfl rfl fun _ hh => by
    simp only [Raw.hdr, raw64] at hh
    cases b <;> simp [parse, parseG4, Raw.srcB, SrcB.ib, SrcB.bField, SrcB.cField, raw64, Raw.hdr, hh]

theorem RoundTrip.gvote (h : Hdr) (mode : VoteMode) (d : Reg) (a : Reg) : RoundTrip.Statement (.gvote h mode d a) :=
  RoundTrip.of64 rfl rfl fun _ hh => by
    simp only [Raw.hdr, raw64] at hh
    simp [parse, parseG4, raw64, Raw.hdr, hh]

theorem RoundTrip.gsync (h : Hdr) (all : Bool) (a : Reg) : RoundTrip.Statement (.gsync h all a) :=
  RoundTrip.of64 rfl rfl fun _ hh => by
    simp only [Raw.hdr, raw64] at hh
    cases all <;> simp [parse, parseG4, raw64, Raw.hdr, hh]

theorem RoundTrip.gmatch (h : Hdr) (ty : Ty) (d : Reg) (a : Reg) : RoundTrip.Statement (.gmatch h ty d a) :=
  RoundTrip.of64 rfl rfl fun _ hh => by
    simp only [Raw.hdr, raw64] at hh
    simp [parse, parseG4, Raw.ty, raw64, Raw.hdr, hh]

theorem RoundTrip.gredux (h : Hdr) (op : RedOp) (ty : Ty) (d : Reg) (a : Reg) : RoundTrip.Statement (.gredux h op ty d a) :=
  RoundTrip.of64 rfl rfl fun _ hh => by
    simp only [Raw.hdr, raw64] at hh
    simp [parse, parseG4, Raw.ty, raw64, Raw.hdr, hh]

theorem RoundTrip.gscan (h : Hdr) (op : RedOp) (excl : Bool) (ty : Ty) (d : Reg) (a : Reg) : RoundTrip.Statement (.gscan h op excl ty d a) :=
  RoundTrip.of64 rfl rfl fun _ hh => by
    simp only [Raw.hdr, raw64] at hh
    cases excl <;> simp [parse, parseG4, Raw.ty, raw64, Raw.hdr, hh]

theorem RoundTrip.gelect (h : Hdr) (d : Reg) : RoundTrip.Statement (.gelect h d) :=
  RoundTrip.of64 rfl rfl fun _ hh => by
    simp only [Raw.hdr, raw64] at hh
    simp [parse, parseG4, raw64, Raw.hdr, hh]

theorem RoundTrip.fadd (h : Hdr) (rm : RMode) (ftz : Bool) (d : Reg) (a : Reg) (b : Reg) : RoundTrip.Statement (.fadd h rm ftz d a b) :=
  RoundTrip.of64 rfl rfl fun _ hh => by
    simp only [Raw.hdr, raw64] at hh
    cases ftz <;> simp [parse, parseG5, Raw.rm, raw64, Raw.hdr, hh]

theorem RoundTrip.fsub (h : Hdr) (rm : RMode) (ftz : Bool) (d : Reg) (a : Reg) (b : Reg) : RoundTrip.Statement (.fsub h rm ftz d a b) :=
  RoundTrip.of64 rfl rfl fun _ hh => by
    simp only [Raw.hdr, raw64] at hh
    cases ftz <;> simp [parse, parseG5, Raw.rm, raw64, Raw.hdr, hh]

theorem RoundTrip.fmul (h : Hdr) (rm : RMode) (ftz : Bool) (d : Reg) (a : Reg) (b : Reg) : RoundTrip.Statement (.fmul h rm ftz d a b) :=
  RoundTrip.of64 rfl rfl fun _ hh => by
    simp only [Raw.hdr, raw64] at hh
    cases ftz <;> simp [parse, parseG5, Raw.rm, raw64, Raw.hdr, hh]

theorem RoundTrip.ffma (h : Hdr) (rm : RMode) (ftz : Bool) (d : Reg) (a : Reg) (b : Reg) (c : Reg) : RoundTrip.Statement (.ffma h rm ftz d a b c) :=
  RoundTrip.of64 rfl rfl fun _ hh => by
    simp only [Raw.hdr, raw64] at hh
    cases ftz <;> simp [parse, parseG5, Raw.rm, raw64, Raw.hdr, hh]

theorem RoundTrip.fmin (h : Hdr) (ftz : Bool) (d : Reg) (a : Reg) (b : Reg) : RoundTrip.Statement (.fmin h ftz d a b) :=
  RoundTrip.of64 rfl rfl fun _ hh => by
    simp only [Raw.hdr, raw64] at hh
    cases ftz <;> simp [parse, parseG5, raw64, Raw.hdr, hh]

theorem RoundTrip.fmax (h : Hdr) (ftz : Bool) (d : Reg) (a : Reg) (b : Reg) : RoundTrip.Statement (.fmax h ftz d a b) :=
  RoundTrip.of64 rfl rfl fun _ hh => by
    simp only [Raw.hdr, raw64] at hh
    cases ftz <;> simp [parse, parseG5, raw64, Raw.hdr, hh]

theorem RoundTrip.frnd (h : Hdr) (rm : RMode) (ftz : Bool) (d : Reg) (a : Reg) : RoundTrip.Statement (.frnd h rm ftz d a) :=
  RoundTrip.of64 rfl rfl fun _ hh => by
    simp only [Raw.hdr, raw64] at hh
    cases ftz <;> simp [parse, parseG5, Raw.rm, raw64, Raw.hdr, hh]

theorem RoundTrip.fcmp (h : Hdr) (cc : FCc) (ftz : Bool) (d : Reg) (a : Reg) (b : Reg) : RoundTrip.Statement (.fcmp h cc ftz d a b) :=
  RoundTrip.of64 rfl rfl fun _ hh => by
    simp only [Raw.hdr, raw64] at hh
    cases ftz <;> simp [parse, parseG5, raw64, Raw.hdr, hh]

theorem RoundTrip.fclass (h : Hdr) (ty : Ty) (d : Reg) (a : Reg) : RoundTrip.Statement (.fclass h ty d a) :=
  RoundTrip.of64 rfl rfl fun _ hh => by
    simp only [Raw.hdr, raw64] at hh
    simp [parse, parseG5, Raw.ty, raw64, Raw.hdr, hh]

theorem RoundTrip.fsign (h : Hdr) (mode : SignMode) (d : Reg) (a : Reg) (b : Reg) : RoundTrip.Statement (.fsign h mode d a b) :=
  RoundTrip.of64 rfl rfl fun _ hh => by
    simp only [Raw.hdr, raw64] at hh
    simp [parse, parseG5, raw64, Raw.hdr, hh]

theorem RoundTrip.fscale (h : Hdr) (rm : RMode) (ftz : Bool) (d : Reg) (a : Reg) (b : Reg) : RoundTrip.Statement (.fscale h rm ftz d a b) :=
  RoundTrip.of64 rfl rfl fun _ hh => by
    simp only [Raw.hdr, raw64] at hh
    cases ftz <;> simp [parse, parseG5, Raw.rm, raw64, Raw.hdr, hh]

theorem RoundTrip.hadd2 (h : Hdr) (rm : RMode) (ftz : Bool) (d : Reg) (a : Reg) (b : Reg) : RoundTrip.Statement (.hadd2 h rm ftz d a b) :=
  RoundTrip.of64 rfl rfl fun _ hh => by
    simp only [Raw.hdr, raw64] at hh
    cases ftz <;> simp [parse, parseG5, Raw.rm, raw64, Raw.hdr, hh]

theorem RoundTrip.hmul2 (h : Hdr) (rm : RMode) (ftz : Bool) (d : Reg) (a : Reg) (b : Reg) : RoundTrip.Statement (.hmul2 h rm ftz d a b) :=
  RoundTrip.of64 rfl rfl fun _ hh => by
    simp only [Raw.hdr, raw64] at hh
    cases ftz <;> simp [parse, parseG5, Raw.rm, raw64, Raw.hdr, hh]

theorem RoundTrip.hfma2 (h : Hdr) (rm : RMode) (ftz : Bool) (d : Reg) (a : Reg) (b : Reg) (c : Reg) : RoundTrip.Statement (.hfma2 h rm ftz d a b c) :=
  RoundTrip.of64 rfl rfl fun _ hh => by
    simp only [Raw.hdr, raw64] at hh
    cases ftz <;> simp [parse, parseG5, Raw.rm, raw64, Raw.hdr, hh]

theorem RoundTrip.badd2 (h : Hdr) (rm : RMode) (ftz : Bool) (d : Reg) (a : Reg) (b : Reg) : RoundTrip.Statement (.badd2 h rm ftz d a b) :=
  RoundTrip.of64 rfl rfl fun _ hh => by
    simp only [Raw.hdr, raw64] at hh
    cases ftz <;> simp [parse, parseG5, Raw.rm, raw64, Raw.hdr, hh]

theorem RoundTrip.bmul2 (h : Hdr) (rm : RMode) (ftz : Bool) (d : Reg) (a : Reg) (b : Reg) : RoundTrip.Statement (.bmul2 h rm ftz d a b) :=
  RoundTrip.of64 rfl rfl fun _ hh => by
    simp only [Raw.hdr, raw64] at hh
    cases ftz <;> simp [parse, parseG5, Raw.rm, raw64, Raw.hdr, hh]

theorem RoundTrip.bfma2 (h : Hdr) (rm : RMode) (ftz : Bool) (d : Reg) (a : Reg) (b : Reg) (c : Reg) : RoundTrip.Statement (.bfma2 h rm ftz d a b c) :=
  RoundTrip.of64 rfl rfl fun _ hh => by
    simp only [Raw.hdr, raw64] at hh
    cases ftz <;> simp [parse, parseG5, Raw.rm, raw64, Raw.hdr, hh]

theorem RoundTrip.fdot2 (h : Hdr) (rm : RMode) (ftz : Bool) (d : Reg) (a : Reg) (b : Reg) (c : Reg) : RoundTrip.Statement (.fdot2 h rm ftz d a b c) :=
  RoundTrip.of64 rfl rfl fun _ hh => by
    simp only [Raw.hdr, raw64] at hh
    cases ftz <;> simp [parse, parseG5, Raw.rm, raw64, Raw.hdr, hh]

theorem RoundTrip.bdot2 (h : Hdr) (rm : RMode) (ftz : Bool) (d : Reg) (a : Reg) (b : Reg) (c : Reg) : RoundTrip.Statement (.bdot2 h rm ftz d a b c) :=
  RoundTrip.of64 rfl rfl fun _ hh => by
    simp only [Raw.hdr, raw64] at hh
    cases ftz <;> simp [parse, parseG5, Raw.rm, raw64, Raw.hdr, hh]

theorem RoundTrip.qdot4 (h : Hdr) (ty : Ty) (rm : RMode) (ftz : Bool) (sat : Bool) (d : Reg) (a : Reg) (b : Reg) (c : Reg) : RoundTrip.Statement (.qdot4 h ty rm ftz sat d a b c) :=
  RoundTrip.of64 rfl rfl fun _ hh => by
    simp only [Raw.hdr, raw64] at hh
    cases ftz <;> cases sat <;> simp [parse, parseG5, Raw.ty, Raw.rm, raw64, Raw.hdr, hh]

theorem RoundTrip.fcvt (h : Hdr) (dt : Ty) (st : Ty) (rm : RMode) (ftz : Bool) (sat : Bool) (inf : Bool) (d : Reg) (a : Reg) : RoundTrip.Statement (.fcvt h dt st rm ftz sat inf d a) :=
  RoundTrip.of64 rfl rfl fun _ hh => by
    simp only [Raw.hdr, raw64] at hh
    cases ftz <;> cases sat <;> cases inf <;> simp [parse, parseG6, Raw.ty, Raw.rm, raw64, Raw.hdr, hh]

theorem RoundTrip.fcvtSr (h : Hdr) (dt : Ty) (st : Ty) (ftz : Bool) (sat : Bool) (inf : Bool) (d : Reg) (a : Reg) (b : Reg) : RoundTrip.Statement (.fcvtSr h dt st ftz sat inf d a b) :=
  RoundTrip.of64 rfl rfl fun _ hh => by
    simp only [Raw.hdr, raw64] at hh
    cases ftz <;> cases sat <;> cases inf <;> simp [parse, parseG6, Raw.ty, raw64, Raw.hdr, hh]

theorem RoundTrip.fcvti (h : Hdr) (it : Ty) (st : Ty) (rm : RMode) (ftz : Bool) (d : Reg) (a : Reg) : RoundTrip.Statement (.fcvti h it st rm ftz d a) :=
  RoundTrip.of64 rfl rfl fun _ hh => by
    simp only [Raw.hdr, raw64] at hh
    cases ftz <;> simp [parse, parseG6, Raw.ty, Raw.rm, raw64, Raw.hdr, hh]

theorem RoundTrip.icvtf (h : Hdr) (dt : Ty) (it : Ty) (rm : RMode) (ftz : Bool) (d : Reg) (a : Reg) : RoundTrip.Statement (.icvtf h dt it rm ftz d a) :=
  RoundTrip.of64 rfl rfl fun _ hh => by
    simp only [Raw.hdr, raw64] at hh
    cases ftz <;> simp [parse, parseG6, Raw.ty, Raw.rm, raw64, Raw.hdr, hh]

theorem RoundTrip.fpack (h : Hdr) (dt : Ty) (rm : RMode) (ftz : Bool) (sat : Bool) (inf : Bool) (d : Reg) (a : Reg) (b : Reg) : RoundTrip.Statement (.fpack h dt rm ftz sat inf d a b) :=
  RoundTrip.of64 rfl rfl fun _ hh => by
    simp only [Raw.hdr, raw64] at hh
    cases ftz <;> cases sat <;> cases inf <;> simp [parse, parseG6, Raw.ty, Raw.rm, raw64, Raw.hdr, hh]

theorem RoundTrip.funpack (h : Hdr) (st : Ty) (ftz : Bool) (d : Reg) (a : Reg) (k : Reg) : RoundTrip.Statement (.funpack h st ftz d a k) :=
  RoundTrip.of64 rfl rfl fun _ hh => by
    simp only [Raw.hdr, raw64] at hh
    cases ftz <;> simp [parse, parseG6, Raw.ty, raw64, Raw.hdr, hh]

theorem RoundTrip.fbmax (h : Hdr) (dt : Ty) (ftz : Bool) (d : Reg) (a : Reg) (b : Reg) : RoundTrip.Statement (.fbmax h dt ftz d a b) :=
  RoundTrip.of64 rfl rfl fun _ hh => by
    simp only [Raw.hdr, raw64] at hh
    cases ftz <;> simp [parse, parseG6, Raw.ty, raw64, Raw.hdr, hh]

theorem RoundTrip.ds8enc (h : Hdr) (ftz : Bool) (d : Reg) (a : Reg) (b : Reg) : RoundTrip.Statement (.ds8enc h ftz d a b) :=
  RoundTrip.of64 rfl rfl fun _ hh => by
    simp only [Raw.hdr, raw64] at hh
    cases ftz <;> simp [parse, parseG6, raw64, Raw.hdr, hh]

theorem RoundTrip.ds8dec (h : Hdr) (rm : RMode) (ftz : Bool) (d : Reg) (a : Reg) (b : Reg) (k : Reg) : RoundTrip.Statement (.ds8dec h rm ftz d a b k) :=
  RoundTrip.of64 rfl rfl fun _ hh => by
    simp only [Raw.hdr, raw64] at hh
    cases ftz <;> simp [parse, parseG6, Raw.rm, raw64, Raw.hdr, hh]

theorem RoundTrip.frcp (h : Hdr) (ftz : Bool) (la : BitVec 4) (d : Reg) (a : Reg) : RoundTrip.Statement (.frcp h ftz la d a) :=
  RoundTrip.of64 rfl rfl fun _ hh => by
    simp only [Raw.hdr, raw64] at hh
    cases ftz <;> simp [parse, parseG7, raw64, Raw.hdr, hh]

theorem RoundTrip.frsq (h : Hdr) (ftz : Bool) (la : BitVec 4) (d : Reg) (a : Reg) : RoundTrip.Statement (.frsq h ftz la d a) :=
  RoundTrip.of64 rfl rfl fun _ hh => by
    simp only [Raw.hdr, raw64] at hh
    cases ftz <;> simp [parse, parseG7, raw64, Raw.hdr, hh]

theorem RoundTrip.fsqrt (h : Hdr) (ftz : Bool) (la : BitVec 4) (d : Reg) (a : Reg) : RoundTrip.Statement (.fsqrt h ftz la d a) :=
  RoundTrip.of64 rfl rfl fun _ hh => by
    simp only [Raw.hdr, raw64] at hh
    cases ftz <;> simp [parse, parseG7, raw64, Raw.hdr, hh]

theorem RoundTrip.fexp2 (h : Hdr) (ftz : Bool) (la : BitVec 4) (d : Reg) (a : Reg) : RoundTrip.Statement (.fexp2 h ftz la d a) :=
  RoundTrip.of64 rfl rfl fun _ hh => by
    simp only [Raw.hdr, raw64] at hh
    cases ftz <;> simp [parse, parseG7, raw64, Raw.hdr, hh]

theorem RoundTrip.flog2 (h : Hdr) (ftz : Bool) (la : BitVec 4) (d : Reg) (a : Reg) : RoundTrip.Statement (.flog2 h ftz la d a) :=
  RoundTrip.of64 rfl rfl fun _ hh => by
    simp only [Raw.hdr, raw64] at hh
    cases ftz <;> simp [parse, parseG7, raw64, Raw.hdr, hh]

theorem RoundTrip.fsin (h : Hdr) (ftz : Bool) (la : BitVec 4) (d : Reg) (a : Reg) : RoundTrip.Statement (.fsin h ftz la d a) :=
  RoundTrip.of64 rfl rfl fun _ hh => by
    simp only [Raw.hdr, raw64] at hh
    cases ftz <;> simp [parse, parseG7, raw64, Raw.hdr, hh]

theorem RoundTrip.fcos (h : Hdr) (ftz : Bool) (la : BitVec 4) (d : Reg) (a : Reg) : RoundTrip.Statement (.fcos h ftz la d a) :=
  RoundTrip.of64 rfl rfl fun _ hh => by
    simp only [Raw.hdr, raw64] at hh
    cases ftz <;> simp [parse, parseG7, raw64, Raw.hdr, hh]

theorem RoundTrip.ftanh (h : Hdr) (ftz : Bool) (la : BitVec 4) (d : Reg) (a : Reg) : RoundTrip.Statement (.ftanh h ftz la d a) :=
  RoundTrip.of64 rfl rfl fun _ hh => by
    simp only [Raw.hdr, raw64] at hh
    cases ftz <;> simp [parse, parseG7, raw64, Raw.hdr, hh]

theorem RoundTrip.fsigm (h : Hdr) (ftz : Bool) (la : BitVec 4) (d : Reg) (a : Reg) : RoundTrip.Statement (.fsigm h ftz la d a) :=
  RoundTrip.of64 rfl rfl fun _ hh => by
    simp only [Raw.hdr, raw64] at hh
    cases ftz <;> simp [parse, parseG7, raw64, Raw.hdr, hh]

theorem RoundTrip.ld (h : Hdr) (x : LdArgs) : RoundTrip.Statement (.ld h x) :=
  RoundTrip.of64 rfl rfl fun _ hh => by
    simp only [Raw.hdr, raw64] at hh
    simp [parse, parseG8, Raw.ty, Raw.disp, raw64, Raw.hdr, hh]

theorem RoundTrip.ldG (h : Hdr) (x : LdArgs) : RoundTrip.Statement (.ldG h x) :=
  RoundTrip.of64 rfl rfl fun _ hh => by
    simp only [Raw.hdr, raw64] at hh
    simp [parse, parseG8, Raw.ty, Raw.disp, raw64, Raw.hdr, hh]

theorem RoundTrip.ldS (h : Hdr) (x : LdArgs) : RoundTrip.Statement (.ldS h x) :=
  RoundTrip.of64 rfl rfl fun _ hh => by
    simp only [Raw.hdr, raw64] at hh
    simp [parse, parseG8, Raw.ty, Raw.disp, raw64, Raw.hdr, hh]

theorem RoundTrip.ldC (h : Hdr) (x : LdArgs) : RoundTrip.Statement (.ldC h x) :=
  RoundTrip.of64 rfl rfl fun _ hh => by
    simp only [Raw.hdr, raw64] at hh
    simp [parse, parseG8, Raw.ty, Raw.disp, raw64, Raw.hdr, hh]

theorem RoundTrip.ldP (h : Hdr) (x : LdArgs) : RoundTrip.Statement (.ldP h x) :=
  RoundTrip.of64 rfl rfl fun _ hh => by
    simp only [Raw.hdr, raw64] at hh
    simp [parse, parseG8, Raw.ty, Raw.disp, raw64, Raw.hdr, hh]

theorem RoundTrip.st (h : Hdr) (x : StArgs) (gsl : BitVec 4) : RoundTrip.Statement (.st h x gsl) :=
  RoundTrip.of64 rfl rfl fun _ hh => by
    simp only [Raw.hdr, raw64] at hh
    simp [parse, parseG8, Raw.ty, Raw.disp, raw64, Raw.hdr, hh]

theorem RoundTrip.stG (h : Hdr) (x : StArgs) : RoundTrip.Statement (.stG h x) :=
  RoundTrip.of64 rfl rfl fun _ hh => by
    simp only [Raw.hdr, raw64] at hh
    simp [parse, parseG8, Raw.ty, Raw.disp, raw64, Raw.hdr, hh]

theorem RoundTrip.stS (h : Hdr) (x : StArgs) : RoundTrip.Statement (.stS h x) :=
  RoundTrip.of64 rfl rfl fun _ hh => by
    simp only [Raw.hdr, raw64] at hh
    simp [parse, parseG8, Raw.ty, Raw.disp, raw64, Raw.hdr, hh]

theorem RoundTrip.stC (h : Hdr) (x : StArgs) : RoundTrip.Statement (.stC h x) :=
  RoundTrip.of64 rfl rfl fun _ hh => by
    simp only [Raw.hdr, raw64] at hh
    simp [parse, parseG8, Raw.ty, Raw.disp, raw64, Raw.hdr, hh]

theorem RoundTrip.stP (h : Hdr) (x : StArgs) : RoundTrip.Statement (.stP h x) :=
  RoundTrip.of64 rfl rfl fun _ hh => by
    simp only [Raw.hdr, raw64] at hh
    simp [parse, parseG8, Raw.ty, Raw.disp, raw64, Raw.hdr, hh]

theorem RoundTrip.pref (h : Hdr) (lvl : PrefLvl) (a : Reg) (disp : BitVec 12) : RoundTrip.Statement (.pref h lvl a disp) :=
  RoundTrip.of64 rfl rfl fun _ hh => by
    simp only [Raw.hdr, raw64] at hh
    simp [parse, parseG8, Raw.disp, raw64, Raw.hdr, hh]

theorem RoundTrip.spt (h : Hdr) (d : Reg) (a : Reg) : RoundTrip.Statement (.spt h d a) :=
  RoundTrip.of64 rfl rfl fun _ hh => by
    simp only [Raw.hdr, raw64] at hh
    simp [parse, parseG8, raw64, Raw.hdr, hh]

theorem RoundTrip.spc (h : Hdr) (sp : SpcSp) (off : Bool) (d : Reg) (c : Reg) (a : Reg) : RoundTrip.Statement (.spc h sp off d c a) :=
  RoundTrip.of64 rfl rfl fun _ hh => by
    simp only [Raw.hdr, raw64] at hh
    cases off <;> simp [parse, parseG8, raw64, Raw.hdr, hh]

theorem RoundTrip.xlatePf (h : Hdr) (a : Reg) (disp : BitVec 12) : RoundTrip.Statement (.xlatePf h a disp) :=
  RoundTrip.of64 rfl rfl fun _ hh => by
    simp only [Raw.hdr, raw64] at hh
    simp [parse, parseG8, Raw.disp, raw64, Raw.hdr, hh]

theorem RoundTrip.atomAdd (h : Hdr) (ty : Ty) (la : BitVec 4) (d : Reg) (a : Reg) (b : Reg) : RoundTrip.Statement (.atomAdd h ty la d a b) :=
  RoundTrip.of64 rfl rfl fun _ hh => by
    simp only [Raw.hdr, raw64] at hh
    simp [parse, parseG9, Raw.ty, raw64, Raw.hdr, hh]

theorem RoundTrip.atomMin (h : Hdr) (ty : Ty) (la : BitVec 4) (d : Reg) (a : Reg) (b : Reg) : RoundTrip.Statement (.atomMin h ty la d a b) :=
  RoundTrip.of64 rfl rfl fun _ hh => by
    simp only [Raw.hdr, raw64] at hh
    simp [parse, parseG9, Raw.ty, raw64, Raw.hdr, hh]

theorem RoundTrip.atomMax (h : Hdr) (ty : Ty) (la : BitVec 4) (d : Reg) (a : Reg) (b : Reg) : RoundTrip.Statement (.atomMax h ty la d a b) :=
  RoundTrip.of64 rfl rfl fun _ hh => by
    simp only [Raw.hdr, raw64] at hh
    simp [parse, parseG9, Raw.ty, raw64, Raw.hdr, hh]

theorem RoundTrip.atomAnd (h : Hdr) (ty : Ty) (la : BitVec 4) (d : Reg) (a : Reg) (b : Reg) : RoundTrip.Statement (.atomAnd h ty la d a b) :=
  RoundTrip.of64 rfl rfl fun _ hh => by
    simp only [Raw.hdr, raw64] at hh
    simp [parse, parseG9, Raw.ty, raw64, Raw.hdr, hh]

theorem RoundTrip.atomOr (h : Hdr) (ty : Ty) (la : BitVec 4) (d : Reg) (a : Reg) (b : Reg) : RoundTrip.Statement (.atomOr h ty la d a b) :=
  RoundTrip.of64 rfl rfl fun _ hh => by
    simp only [Raw.hdr, raw64] at hh
    simp [parse, parseG9, Raw.ty, raw64, Raw.hdr, hh]

theorem RoundTrip.atomXor (h : Hdr) (ty : Ty) (la : BitVec 4) (d : Reg) (a : Reg) (b : Reg) : RoundTrip.Statement (.atomXor h ty la d a b) :=
  RoundTrip.of64 rfl rfl fun _ hh => by
    simp only [Raw.hdr, raw64] at hh
    simp [parse, parseG9, Raw.ty, raw64, Raw.hdr, hh]

theorem RoundTrip.atomExch (h : Hdr) (ty : Ty) (la : BitVec 4) (d : Reg) (a : Reg) (b : Reg) : RoundTrip.Statement (.atomExch h ty la d a b) :=
  RoundTrip.of64 rfl rfl fun _ hh => by
    simp only [Raw.hdr, raw64] at hh
    simp [parse, parseG9, Raw.ty, raw64, Raw.hdr, hh]

theorem RoundTrip.atomCas (h : Hdr) (ty : Ty) (la : BitVec 4) (d : Reg) (a : Reg) (b : Reg) (c : Reg) : RoundTrip.Statement (.atomCas h ty la d a b c) :=
  RoundTrip.of64 rfl rfl fun _ hh => by
    simp only [Raw.hdr, raw64] at hh
    simp [parse, parseG9, Raw.ty, raw64, Raw.hdr, hh]

theorem RoundTrip.atomFadd (h : Hdr) (ty : Ty) (la : BitVec 4) (d : Reg) (a : Reg) (b : Reg) : RoundTrip.Statement (.atomFadd h ty la d a b) :=
  RoundTrip.of64 rfl rfl fun _ hh => by
    simp only [Raw.hdr, raw64] at hh
    simp [parse, parseG9, Raw.ty, raw64, Raw.hdr, hh]

theorem RoundTrip.atomInc (h : Hdr) (ty : Ty) (la : BitVec 4) (d : Reg) (a : Reg) (b : Reg) : RoundTrip.Statement (.atomInc h ty la d a b) :=
  RoundTrip.of64 rfl rfl fun _ hh => by
    simp only [Raw.hdr, raw64] at hh
    simp [parse, parseG9, Raw.ty, raw64, Raw.hdr, hh]

theorem RoundTrip.red (h : Hdr) (op : MemOp) (ty : Ty) (a : Reg) (b : Reg) : RoundTrip.Statement (.red h op ty a b) :=
  RoundTrip.of64 rfl rfl fun _ hh => by
    simp only [Raw.hdr, raw64] at hh
    simp [parse, parseG9, Raw.ty, raw64, Raw.hdr, hh]

theorem RoundTrip.fence (h : Hdr) (scope : Scope) : RoundTrip.Statement (.fence h scope) :=
  RoundTrip.of64 rfl rfl fun _ hh => by
    simp only [Raw.hdr, raw64] at hh
    simp [parse, parseG9, raw64, Raw.hdr, hh]

theorem RoundTrip.hgLoad (h : Hdr) (la : BitVec 4) (d : Reg) (a : Reg) (b : Reg) (l0 : BitVec 4) (n : BitVec 4) : RoundTrip.Statement (.hgLoad h la d a b l0 n) :=
  RoundTrip.of64 rfl rfl fun _ hh => by
    simp only [Raw.hdr, raw64] at hh
    simp [parse, parseG10, raw64, Raw.hdr, hh]

theorem RoundTrip.hgGrad (h : Hdr) (d : Reg) (a : Reg) (b : Reg) (l0 : BitVec 4) (n : BitVec 4) : RoundTrip.Statement (.hgGrad h d a b l0 n) :=
  RoundTrip.of64 rfl rfl fun _ hh => by
    simp only [Raw.hdr, raw64] at hh
    simp [parse, parseG10, raw64, Raw.hdr, hh]

theorem RoundTrip.hgCorner (h : Hdr) (d : Reg) (a : Reg) (b : Reg) (c : Reg) (l : BitVec 4) : RoundTrip.Statement (.hgCorner h d a b c l) :=
  RoundTrip.of64 rfl rfl fun _ hh => by
    simp only [Raw.hdr, raw64] at hh
    simp [parse, parseG10, raw64, Raw.hdr, hh]

theorem RoundTrip.chanSend (h : Hdr) (k : BitVec 4) (a : Reg) (b : Reg) (c : Reg) : RoundTrip.Statement (.chanSend h k a b c) :=
  RoundTrip.of64 rfl rfl fun _ hh => by
    simp only [Raw.hdr, raw64] at hh
    simp [parse, parseG10, raw64, Raw.hdr, hh]

theorem RoundTrip.chanRecv (h : Hdr) (k : BitVec 4) (d : Reg) : RoundTrip.Statement (.chanRecv h k d) :=
  RoundTrip.of64 rfl rfl fun _ hh => by
    simp only [Raw.hdr, raw64] at hh
    simp [parse, parseG10, raw64, Raw.hdr, hh]

theorem RoundTrip.chanProbe (h : Hdr) (k : BitVec 4) (d : Reg) : RoundTrip.Statement (.chanProbe h k d) :=
  RoundTrip.of64 rfl rfl fun _ hh => by
    simp only [Raw.hdr, raw64] at hh
    simp [parse, parseG10, raw64, Raw.hdr, hh]

theorem RoundTrip.fifoPush (h : Hdr) (d : Reg) (a : Reg) (b : Reg) (c : Reg) : RoundTrip.Statement (.fifoPush h d a b c) :=
  RoundTrip.of64 rfl rfl fun _ hh => by
    simp only [Raw.hdr, raw64] at hh
    simp [parse, parseG10, raw64, Raw.hdr, hh]

theorem RoundTrip.fifoPop (h : Hdr) (d : Reg) (a : Reg) (c : Reg) : RoundTrip.Statement (.fifoPop h d a c) :=
  RoundTrip.of64 rfl rfl fun _ hh => by
    simp only [Raw.hdr, raw64] at hh
    simp [parse, parseG10, raw64, Raw.hdr, hh]

theorem RoundTrip.bankMode (h : Hdr) (la : BitVec 4) (mode : Reg) (d : Reg) (a : Reg) (c : Reg) : RoundTrip.Statement (.bankMode h la mode d a c) :=
  RoundTrip.of64 rfl rfl fun _ hh => by
    simp only [Raw.hdr, raw64] at hh
    simp [parse, parseG10, raw64, Raw.hdr, hh]

theorem RoundTrip.sctxGet (h : Hdr) (d : Reg) : RoundTrip.Statement (.sctxGet h d) :=
  RoundTrip.of64 rfl rfl fun _ hh => by
    simp only [Raw.hdr, raw64] at hh
    simp [parse, parseG10, raw64, Raw.hdr, hh]

theorem RoundTrip.mmaF16 (h : Hdr) (x : MmaArgs) : RoundTrip.Statement (.mmaF16 h x) :=
  RoundTrip.of128 rfl rfl rfl fun hh => by
    have hp : ∀ r : Raw, r.opc = 0x2C0#10 → parse r = .ok (.mmaF16 r.hdrN r.mma) := by
      intro r hr
      simp [parse, hr, parseG11]
    rw [hp _ rfl, hh, mma_parts]

theorem RoundTrip.mmaBf16 (h : Hdr) (x : MmaArgs) : RoundTrip.Statement (.mmaBf16 h x) :=
  RoundTrip.of128 rfl rfl rfl fun hh => by
    have hp : ∀ r : Raw, r.opc = 0x2C1#10 → parse r = .ok (.mmaBf16 r.hdrN r.mma) := by
      intro r hr
      simp [parse, hr, parseG11]
    rw [hp _ rfl, hh, mma_parts]

theorem RoundTrip.mmaE4m3 (h : Hdr) (x : MmaArgs) : RoundTrip.Statement (.mmaE4m3 h x) :=
  RoundTrip.of128 rfl rfl rfl fun hh => by
    have hp : ∀ r : Raw, r.opc = 0x2C2#10 → parse r = .ok (.mmaE4m3 r.hdrN r.mma) := by
      intro r hr
      simp [parse, hr, parseG11]
    rw [hp _ rfl, hh, mma_parts]

theorem RoundTrip.mmaE5m2 (h : Hdr) (x : MmaArgs) : RoundTrip.Statement (.mmaE5m2 h x) :=
  RoundTrip.of128 rfl rfl rfl fun hh => by
    have hp : ∀ r : Raw, r.opc = 0x2C3#10 → parse r = .ok (.mmaE5m2 r.hdrN r.mma) := by
      intro r hr
      simp [parse, hr, parseG11]
    rw [hp _ rfl, hh, mma_parts]

theorem RoundTrip.mmaS8 (h : Hdr) (x : MmaArgs) : RoundTrip.Statement (.mmaS8 h x) :=
  RoundTrip.of128 rfl rfl rfl fun hh => by
    have hp : ∀ r : Raw, r.opc = 0x2C4#10 → parse r = .ok (.mmaS8 r.hdrN r.mma) := by
      intro r hr
      simp [parse, hr, parseG11]
    rw [hp _ rfl, hh, mma_parts]

theorem RoundTrip.mmaDs8 (h : Hdr) (x : MmaArgs) : RoundTrip.Statement (.mmaDs8 h x) :=
  RoundTrip.of128 rfl rfl rfl fun hh => by
    have hp : ∀ r : Raw, r.opc = 0x2C5#10 → parse r = .ok (.mmaDs8 r.hdrN r.mma) := by
      intro r hr
      simp [parse, hr, parseG11]
    rw [hp _ rfl, hh, mma_parts]

theorem RoundTrip.accZero (h : Hdr) (ds : DSlots) (d : Reg) (n : Reg) : RoundTrip.Statement (.accZero h ds d n) :=
  RoundTrip.of128 rfl rfl rfl fun hh => by
    simp only [Raw.hdrN, raw128] at hh
    simp [parse, parseG11, Raw.ds, raw128, Raw.hdrN, hh]

theorem RoundTrip.accLd (h : Hdr) (ds : DSlots) (ty : Ty) (d : Reg) (a : Reg) : RoundTrip.Statement (.accLd h ds ty d a) :=
  RoundTrip.of128 rfl rfl rfl fun hh => by
    simp only [Raw.hdrN, raw128] at hh
    simp [parse, parseG11, Raw.ty, Raw.ds, raw128, Raw.hdrN, hh]

theorem RoundTrip.accDrain (h : Hdr) (ds : DSlots) (la : BitVec 4) (ty : Ty) (tpb : Bool) (d : Reg) (a : Reg) (b : Reg) : RoundTrip.Statement (.accDrain h ds la ty tpb d a b) :=
  RoundTrip.of128 rfl rfl rfl fun hh => by
    simp only [Raw.hdrN, raw128] at hh
    cases tpb <;> simp [parse, parseG11, Raw.ty, Raw.ds, raw128, Raw.hdrN, hh]

theorem RoundTrip.accSpill (h : Hdr) (ds : DSlots) (a : Reg) (b : Reg) : RoundTrip.Statement (.accSpill h ds a b) :=
  RoundTrip.of128 rfl rfl rfl fun hh => by
    simp only [Raw.hdrN, raw128] at hh
    simp [parse, parseG11, Raw.ds, raw128, Raw.hdrN, hh]

theorem RoundTrip.accFill (h : Hdr) (ds : DSlots) (d : Reg) (a : Reg) : RoundTrip.Statement (.accFill h ds d a) :=
  RoundTrip.of128 rfl rfl rfl fun hh => by
    simp only [Raw.hdrN, raw128] at hh
    simp [parse, parseG11, Raw.ds, raw128, Raw.hdrN, hh]

theorem RoundTrip.accMov (h : Hdr) (ds : DSlots) (d : Reg) (a : Reg) : RoundTrip.Statement (.accMov h ds d a) :=
  RoundTrip.of128 rfl rfl rfl fun hh => by
    simp only [Raw.hdrN, raw128] at hh
    simp [parse, parseG11, Raw.ds, raw128, Raw.hdrN, hh]

theorem RoundTrip.accAdd (h : Hdr) (ds : DSlots) (d : Reg) (a : Reg) (b : Reg) : RoundTrip.Statement (.accAdd h ds d a b) :=
  RoundTrip.of128 rfl rfl rfl fun hh => by
    simp only [Raw.hdrN, raw128] at hh
    simp [parse, parseG11, Raw.ds, raw128, Raw.hdrN, hh]

theorem RoundTrip.accScale (h : Hdr) (ds : DSlots) (d : Reg) (a : Reg) (b : Reg) : RoundTrip.Statement (.accScale h ds d a b) :=
  RoundTrip.of128 rfl rfl rfl fun hh => by
    simp only [Raw.hdrN, raw128] at hh
    simp [parse, parseG11, Raw.ds, raw128, Raw.hdrN, hh]

theorem RoundTrip.gangForm (h : Hdr) (a : Reg) : RoundTrip.Statement (.gangForm h a) :=
  RoundTrip.of64 rfl rfl fun _ hh => by
    simp only [Raw.hdr, raw64] at hh
    simp [parse, parseG11, raw64, Raw.hdr, hh]

theorem RoundTrip.gangBrk (h : Hdr) : RoundTrip.Statement (.gangBrk h) :=
  RoundTrip.of64 rfl rfl fun _ hh => by
    simp only [Raw.hdr, raw64] at hh
    simp [parse, parseG11, raw64, Raw.hdr, hh]

theorem RoundTrip.dslotWait (h : Hdr) (wmask : BitVec 8) : RoundTrip.Statement (.dslotWait h wmask) :=
  RoundTrip.of128 rfl rfl rfl fun hh => by
    simp only [Raw.hdrN, raw128] at hh
    simp [parse, parseG11, raw128, Raw.hdrN, hh]

theorem RoundTrip.barArrive (h : Hdr) (d : Reg) (b : Reg) : RoundTrip.Statement (.barArrive h d b) :=
  RoundTrip.of64 rfl rfl fun _ hh => by
    simp only [Raw.hdr, raw64] at hh
    simp [parse, parseG12, raw64, Raw.hdr, hh]

theorem RoundTrip.barWait (h : Hdr) (a : Reg) (b : Reg) : RoundTrip.Statement (.barWait h a b) :=
  RoundTrip.of64 rfl rfl fun _ hh => by
    simp only [Raw.hdr, raw64] at hh
    simp [parse, parseG12, raw64, Raw.hdr, hh]

theorem RoundTrip.barSync (h : Hdr) (b : Reg) : RoundTrip.Statement (.barSync h b) :=
  RoundTrip.of64 rfl rfl fun _ hh => by
    simp only [Raw.hdr, raw64] at hh
    simp [parse, parseG12, raw64, Raw.hdr, hh]

theorem RoundTrip.barDie (h : Hdr) (mode : BarMode) (d : Reg) (a : Reg) (b : Reg) : RoundTrip.Statement (.barDie h mode d a b) :=
  RoundTrip.of64 rfl rfl fun _ hh => by
    simp only [Raw.hdr, raw64] at hh
    simp [parse, parseG12, raw64, Raw.hdr, hh]

theorem RoundTrip.barPkg (h : Hdr) (mode : BarMode) (d : Reg) (a : Reg) (b : Reg) : RoundTrip.Statement (.barPkg h mode d a b) :=
  RoundTrip.of64 rfl rfl fun _ hh => by
    simp only [Raw.hdr, raw64] at hh
    simp [parse, parseG12, raw64, Raw.hdr, hh]

theorem RoundTrip.evArm (h : Hdr) (a : Reg) (m : Reg) : RoundTrip.Statement (.evArm h a m) :=
  RoundTrip.of64 rfl rfl fun _ hh => by
    simp only [Raw.hdr, raw64] at hh
    simp [parse, parseG12, raw64, Raw.hdr, hh]

theorem RoundTrip.evMask (h : Hdr) (op : MaskOp) (m : Reg) : RoundTrip.Statement (.evMask h op m) :=
  RoundTrip.of64 rfl rfl fun _ hh => by
    simp only [Raw.hdr, raw64] at hh
    simp [parse, parseG12, raw64, Raw.hdr, hh]

theorem RoundTrip.evClear (h : Hdr) (m : Reg) : RoundTrip.Statement (.evClear h m) :=
  RoundTrip.of64 rfl rfl fun _ hh => by
    simp only [Raw.hdr, raw64] at hh
    simp [parse, parseG12, raw64, Raw.hdr, hh]

theorem RoundTrip.wany (h : Hdr) (a : Reg) : RoundTrip.Statement (.wany h a) :=
  RoundTrip.of64 rfl rfl fun _ hh => by
    simp only [Raw.hdr, raw64] at hh
    simp [parse, parseG12, raw64, Raw.hdr, hh]

theorem RoundTrip.mboxPost (h : Hdr) (slot : BitVec 2) (d : Reg) (a : Reg) (b : Reg) : RoundTrip.Statement (.mboxPost h slot d a b) :=
  RoundTrip.of64 rfl rfl fun _ hh => by
    simp only [Raw.hdr, raw64] at hh
    simp [parse, parseG12, raw64, Raw.hdr, hh]

theorem RoundTrip.mboxRead (h : Hdr) (slot : BitVec 2) (d : Reg) (c : Reg) : RoundTrip.Statement (.mboxRead h slot d c) :=
  RoundTrip.of64 rfl rfl fun _ hh => by
    simp only [Raw.hdr, raw64] at hh
    simp [parse, parseG12, raw64, Raw.hdr, hh]

theorem RoundTrip.tlWait (h : Hdr) (a : Reg) (b : Reg) : RoundTrip.Statement (.tlWait h a b) :=
  RoundTrip.of64 rfl rfl fun _ hh => by
    simp only [Raw.hdr, raw64] at hh
    simp [parse, parseG12, raw64, Raw.hdr, hh]

theorem RoundTrip.tlRead (h : Hdr) (err : Bool) (d : Reg) (b : Reg) : RoundTrip.Statement (.tlRead h err d b) :=
  RoundTrip.of64 rfl rfl fun _ hh => by
    simp only [Raw.hdr, raw64] at hh
    cases err <;> simp [parse, parseG12, raw64, Raw.hdr, hh]

theorem RoundTrip.tlTry (h : Hdr) (d : Reg) (a : Reg) (b : Reg) (c : Reg) : RoundTrip.Statement (.tlTry h d a b c) :=
  RoundTrip.of64 rfl rfl fun _ hh => by
    simp only [Raw.hdr, raw64] at hh
    simp [parse, parseG12, raw64, Raw.hdr, hh]

theorem RoundTrip.gslotSet (h : Hdr) (a : Reg) (b : Reg) : RoundTrip.Statement (.gslotSet h a b) :=
  RoundTrip.of64 rfl rfl fun _ hh => by
    simp only [Raw.hdr, raw64] at hh
    simp [parse, parseG12, raw64, Raw.hdr, hh]

theorem RoundTrip.gslotClr (h : Hdr) (b : Reg) : RoundTrip.Statement (.gslotClr h b) :=
  RoundTrip.of64 rfl rfl fun _ hh => by
    simp only [Raw.hdr, raw64] at hh
    simp [parse, parseG12, raw64, Raw.hdr, hh]

theorem RoundTrip.launch (h : Hdr) (d : Reg) (a : Reg) (b : Reg) (c : Reg) : RoundTrip.Statement (.launch h d a b c) :=
  RoundTrip.of64 rfl rfl fun _ hh => by
    simp only [Raw.hdr, raw64] at hh
    simp [parse, parseG13, raw64, Raw.hdr, hh]

theorem RoundTrip.tapePush (h : Hdr) (d : Reg) (b : Reg) (c : Reg) : RoundTrip.Statement (.tapePush h d b c) :=
  RoundTrip.of64 rfl rfl fun _ hh => by
    simp only [Raw.hdr, raw64] at hh
    simp [parse, parseG13, raw64, Raw.hdr, hh]

theorem RoundTrip.leaveReq (h : Hdr) (cls : LeaveCls) : RoundTrip.Statement (.leaveReq h cls) :=
  RoundTrip.of64 rfl rfl fun _ hh => by
    simp only [Raw.hdr, raw64] at hh
    simp [parse, parseG13, raw64, Raw.hdr, hh]

theorem RoundTrip.leaveRel (h : Hdr) (cls : LeaveCls) : RoundTrip.Statement (.leaveRel h cls) :=
  RoundTrip.of64 rfl rfl fun _ hh => by
    simp only [Raw.hdr, raw64] at hh
    simp [parse, parseG13, raw64, Raw.hdr, hh]

theorem RoundTrip.regionBegin (h : Hdr) : RoundTrip.Statement (.regionBegin h) :=
  RoundTrip.of64 rfl rfl fun _ hh => by
    simp only [Raw.hdr, raw64] at hh
    simp [parse, parseG13, raw64, Raw.hdr, hh]

theorem RoundTrip.regionEnd (h : Hdr) : RoundTrip.Statement (.regionEnd h) :=
  RoundTrip.of64 rfl rfl fun _ hh => by
    simp only [Raw.hdr, raw64] at hh
    simp [parse, parseG13, raw64, Raw.hdr, hh]

theorem RoundTrip.regsGrow (h : Hdr) (d : Reg) (n : Reg) : RoundTrip.Statement (.regsGrow h d n) :=
  RoundTrip.of64 rfl rfl fun _ hh => by
    simp only [Raw.hdr, raw64] at hh
    simp [parse, parseG13, raw64, Raw.hdr, hh]

theorem RoundTrip.regsShrink (h : Hdr) (n : Reg) : RoundTrip.Statement (.regsShrink h n) :=
  RoundTrip.of64 rfl rfl fun _ hh => by
    simp only [Raw.hdr, raw64] at hh
    simp [parse, parseG13, raw64, Raw.hdr, hh]

theorem RoundTrip.sregGet (h : Hdr) (d : Reg) (c : Reg) : RoundTrip.Statement (.sregGet h d c) :=
  RoundTrip.of64 rfl rfl fun _ hh => by
    simp only [Raw.hdr, raw64] at hh
    simp [parse, parseG14, raw64, Raw.hdr, hh]

theorem RoundTrip.sregSet (h : Hdr) (a : Reg) (c : Reg) : RoundTrip.Statement (.sregSet h a c) :=
  RoundTrip.of64 rfl rfl fun _ hh => by
    simp only [Raw.hdr, raw64] at hh
    simp [parse, parseG14, raw64, Raw.hdr, hh]

theorem RoundTrip.rdtime (h : Hdr) (cyc : Bool) (d : Reg) : RoundTrip.Statement (.rdtime h cyc d) :=
  RoundTrip.of64 rfl rfl fun _ hh => by
    simp only [Raw.hdr, raw64] at hh
    cases cyc <;> simp [parse, parseG14, raw64, Raw.hdr, hh]

theorem RoundTrip.trap (h : Hdr) (code : BitVec 8) : RoundTrip.Statement (.trap h code) :=
  RoundTrip.of64 rfl rfl fun _ hh => by
    simp only [Raw.hdr, raw64] at hh
    simp [parse, parseG14, raw64, Raw.hdr, hh]

theorem RoundTrip.brk (h : Hdr) (code : BitVec 8) : RoundTrip.Statement (.brk h code) :=
  RoundTrip.of64 rfl rfl fun _ hh => by
    simp only [Raw.hdr, raw64] at hh
    simp [parse, parseG14, raw64, Raw.hdr, hh]

theorem RoundTrip.xret (h : Hdr) : RoundTrip.Statement (.xret h) :=
  RoundTrip.of64 rfl rfl fun _ hh => by
    simp only [Raw.hdr, raw64] at hh
    simp [parse, parseG14, raw64, Raw.hdr, hh]

theorem RoundTrip.longLatencyResult (gk : Nat) (id : Nat) (lane : Nat) : RoundTrip.Statement (.longLatencyResult gk id lane) := fun _ _ h => nomatch h

theorem RoundTrip.barrierWaveRelease (cl : Nat) : RoundTrip.Statement (.barrierWaveRelease cl) := fun _ _ h => nomatch h

theorem RoundTrip.chanSendDelivery (gk : Nat) : RoundTrip.Statement (.chanSendDelivery gk) := fun _ _ h => nomatch h

theorem RoundTrip.chanRecvDelivery (gk : Nat) : RoundTrip.Statement (.chanRecvDelivery gk) := fun _ _ h => nomatch h

theorem RoundTrip.jointOperationStart (gk : Nat) : RoundTrip.Statement (.jointOperationStart gk) := fun _ _ h => nomatch h

theorem RoundTrip.anvilCompletion (tuid : Nat) (op : Nat) : RoundTrip.Statement (.anvilCompletion tuid op) := fun _ _ h => nomatch h

theorem RoundTrip.deplClear (cl : Nat) : RoundTrip.Statement (.deplClear cl) := fun _ _ h => nomatch h

theorem RoundTrip.leaveGrant (gk : Nat) : RoundTrip.Statement (.leaveGrant gk) := fun _ _ h => nomatch h

theorem RoundTrip.teamPlacement (part : Nat) : RoundTrip.Statement (.teamPlacement part) := fun _ _ h => nomatch h

theorem RoundTrip.evictedTeamResume (tuid : Nat) : RoundTrip.Statement (.evictedTeamResume tuid) := fun _ _ h => nomatch h

theorem RoundTrip.hotSpotMigration (tuid : Nat) (core : Nat) : RoundTrip.Statement (.hotSpotMigration tuid core) := fun _ _ h => nomatch h

theorem RoundTrip.copy (ch : Nat) : RoundTrip.Statement (.copy ch) := fun _ _ h => nomatch h

theorem RoundTrip.gather (ch : Nat) : RoundTrip.Statement (.gather ch) := fun _ _ h => nomatch h

theorem RoundTrip.reduceStore (ch : Nat) : RoundTrip.Statement (.reduceStore ch) := fun _ _ h => nomatch h

theorem RoundTrip.mergeRound (ch : Nat) : RoundTrip.Statement (.mergeRound ch) := fun _ _ h => nomatch h

theorem RoundTrip.multicastRead (ch : Nat) : RoundTrip.Statement (.multicastRead ch) := fun _ _ h => nomatch h

theorem RoundTrip.collective (ch : Nat) : RoundTrip.Statement (.collective ch) := fun _ _ h => nomatch h

theorem RoundTrip.commandDiscard (ch : Nat) : RoundTrip.Statement (.commandDiscard ch) := fun _ _ h => nomatch h

theorem RoundTrip.commandComplete (ch : Nat) : RoundTrip.Statement (.commandComplete ch) := fun _ _ h => nomatch h

theorem RoundTrip.takeRecord (part : Nat) : RoundTrip.Statement (.takeRecord part) := fun _ _ h => nomatch h

theorem RoundTrip.tapePop (part : Nat) : RoundTrip.Statement (.tapePop part) := fun _ _ h => nomatch h

theorem RoundTrip.timerFire (part : Nat) (q : Nat) : RoundTrip.Statement (.timerFire part q) := fun _ _ h => nomatch h

theorem RoundTrip.streamFire (e : Nat) : RoundTrip.Statement (.streamFire e) := fun _ _ h => nomatch h

theorem RoundTrip.streamEvictionComplete (e : Nat) : RoundTrip.Statement (.streamEvictionComplete e) := fun _ _ h => nomatch h

theorem RoundTrip.streamReloadComplete (e : Nat) : RoundTrip.Statement (.streamReloadComplete e) := fun _ _ h => nomatch h

theorem RoundTrip.preemptSave (part : Nat) : RoundTrip.Statement (.preemptSave part) := fun _ _ h => nomatch h

theorem RoundTrip.swapExchange (part : Nat) : RoundTrip.Statement (.swapExchange part) := fun _ _ h => nomatch h

theorem RoundTrip.timeSliceExpiry (part : Nat) : RoundTrip.Statement (.timeSliceExpiry part) := fun _ _ h => nomatch h

theorem RoundTrip.tlbInvalidateDone (part : Nat) : RoundTrip.Statement (.tlbInvalidateDone part) := fun _ _ h => nomatch h

theorem RoundTrip.keyCommandComplete : RoundTrip.Statement (.keyCommandComplete) := fun _ _ h => nomatch h

theorem RoundTrip.biasSettled (cl : Nat) : RoundTrip.Statement (.biasSettled cl) := fun _ _ h => nomatch h

theorem RoundTrip.thermalStep (cl : Nat) : RoundTrip.Statement (.thermalStep cl) := fun _ _ h => nomatch h

theorem RoundTrip.bankNap (bank : Nat) : RoundTrip.Statement (.bankNap bank) := fun _ _ h => nomatch h

theorem RoundTrip.bankRetain (bank : Nat) : RoundTrip.Statement (.bankRetain bank) := fun _ _ h => nomatch h

theorem RoundTrip.bankWakeComplete (bank : Nat) (parityOk : Bool) : RoundTrip.Statement (.bankWakeComplete bank parityOk) := fun _ _ h => nomatch h

theorem RoundTrip.warmReserveRefill (bank : Nat) : RoundTrip.Statement (.warmReserveRefill bank) := fun _ _ h => nomatch h

theorem RoundTrip.bankModeComplete (bank : Nat) : RoundTrip.Statement (.bankModeComplete bank) := fun _ _ h => nomatch h

theorem RoundTrip.fabricWindowStart : RoundTrip.Statement (.fabricWindowStart) := fun _ _ h => nomatch h

theorem RoundTrip.collectiveTimeout (ch : Nat) : RoundTrip.Statement (.collectiveTimeout ch) := fun _ _ h => nomatch h

theorem RoundTrip.storePerformed (id : Nat) : RoundTrip.Statement (.storePerformed id) := fun _ _ h => nomatch h

theorem RoundTrip.stepReachedEveryCore : RoundTrip.Statement (.stepReachedEveryCore) := fun _ _ h => nomatch h

theorem RoundTrip.harvestEviction (tuid : Nat) : RoundTrip.Statement (.harvestEviction tuid) := fun _ _ h => nomatch h

theorem RoundTrip.commandChunkEnd (ch : Nat) (elems : Nat) : RoundTrip.Statement (.commandChunkEnd ch elems) := fun _ _ h => nomatch h

theorem RoundTrip.bind (e : Nat) : RoundTrip.Statement (.bind e) := fun _ _ h => nomatch h

theorem RoundTrip.unbind (e : Nat) : RoundTrip.Statement (.unbind e) := fun _ _ h => nomatch h

theorem RoundTrip.chunk (e : Nat) : RoundTrip.Statement (.chunk e) := fun _ _ h => nomatch h

theorem RoundTrip.qctlWrite (part : Nat) (q : Nat) (v : Word) : RoundTrip.Statement (.qctlWrite part q v) := fun _ _ h => nomatch h

theorem RoundTrip.qtailWrite (part : Nat) (q : Nat) (v : DWord) : RoundTrip.Statement (.qtailWrite part q v) := fun _ _ h => nomatch h

theorem RoundTrip.fqctlWrite (part : Nat) (v : Word) : RoundTrip.Statement (.fqctlWrite part v) := fun _ _ h => nomatch h

theorem RoundTrip.fqheadWrite (part : Nat) (v : DWord) : RoundTrip.Statement (.fqheadWrite part v) := fun _ _ h => nomatch h

theorem RoundTrip.replay (part : Nat) (seq : Word) : RoundTrip.Statement (.replay part seq) := fun _ _ h => nomatch h

theorem RoundTrip.replayPage (part : Nat) (seq : Word) : RoundTrip.Statement (.replayPage part seq) := fun _ _ h => nomatch h

theorem RoundTrip.skip (part : Nat) (seq : Word) : RoundTrip.Statement (.skip part seq) := fun _ _ h => nomatch h

theorem RoundTrip.kill (part : Nat) (seq : Word) : RoundTrip.Statement (.kill part seq) := fun _ _ h => nomatch h

theorem RoundTrip.preempt (part : Nat) : RoundTrip.Statement (.preempt part) := fun _ _ h => nomatch h

theorem RoundTrip.resume (part : Nat) : RoundTrip.Statement (.resume part) := fun _ _ h => nomatch h

theorem RoundTrip.swap (part : Nat) (inp : Nat) : RoundTrip.Statement (.swap part inp) := fun _ _ h => nomatch h

theorem RoundTrip.clpartWrite (cl : Nat) (v : Word) : RoundTrip.Statement (.clpartWrite cl v) := fun _ _ h => nomatch h

theorem RoundTrip.tlbInvalidate (part : Nat) (v : DWord) : RoundTrip.Statement (.tlbInvalidate part v) := fun _ _ h => nomatch h

theorem RoundTrip.fabricTlbInvalidate (v : DWord) : RoundTrip.Statement (.fabricTlbInvalidate v) := fun _ _ h => nomatch h

theorem RoundTrip.pageWalkComplete (part : Nat) (die : Nat) (va : Nat) (acc : Acc) : RoundTrip.Statement (.pageWalkComplete part die va acc) := fun _ _ h => nomatch h

theorem RoundTrip.generate : RoundTrip.Statement (.generate) := fun _ _ h => nomatch h

theorem RoundTrip.assign (id : Nat) (part : Nat) : RoundTrip.Statement (.assign id part) := fun _ _ h => nomatch h

theorem RoundTrip.destroy (id : Nat) : RoundTrip.Statement (.destroy id) := fun _ _ h => nomatch h

theorem RoundTrip.svcNormal : RoundTrip.Statement (.svcNormal) := fun _ _ h => nomatch h

theorem RoundTrip.svcTest : RoundTrip.Statement (.svcTest) := fun _ _ h => nomatch h

theorem RoundTrip.svcReduced : RoundTrip.Statement (.svcReduced) := fun _ _ h => nomatch h

theorem RoundTrip.svcRecovery : RoundTrip.Statement (.svcRecovery) := fun _ _ h => nomatch h

theorem RoundTrip.hbmErrorLimit (stack : Nat) : RoundTrip.Statement (.hbmErrorLimit stack) := fun _ _ h => nomatch h

theorem RoundTrip.hbmTrainingPass (stack : Nat) : RoundTrip.Statement (.hbmTrainingPass stack) := fun _ _ h => nomatch h

theorem RoundTrip.packageReset : RoundTrip.Statement (.packageReset) := fun _ _ h => nomatch h

theorem RoundTrip.firmwareStageLoad (image : Image) (last : Bool) : RoundTrip.Statement (.firmwareStageLoad image last) := fun _ _ h => nomatch h

theorem RoundTrip.clbiasWrite (cl : Nat) (v : Word) : RoundTrip.Statement (.clbiasWrite cl v) := fun _ _ h => nomatch h

theorem RoundTrip.thermalSample (cl : Nat) (temp : Nat) : RoundTrip.Statement (.thermalSample cl temp) := fun _ _ h => nomatch h

theorem RoundTrip.l2waygWrite (v : Word) : RoundTrip.Statement (.l2waygWrite v) := fun _ _ h => nomatch h

theorem RoundTrip.qosShareWrite (part : Nat) (port : Nat) (v : DWord) : RoundTrip.Statement (.qosShareWrite part port v) := fun _ _ h => nomatch h

theorem RoundTrip.hbmregWrite (part : Nat) (stack : Nat) (v : DWord) : RoundTrip.Statement (.hbmregWrite part stack v) := fun _ _ h => nomatch h

theorem RoundTrip.ptstepWrite (v : DWord) : RoundTrip.Statement (.ptstepWrite v) := fun _ _ h => nomatch h

theorem RoundTrip.registerWrite (off : Nat) (size : Nat) (v : DWord) : RoundTrip.Statement (.registerWrite off size v) := fun _ _ h => nomatch h

theorem RoundTrip.hostAccess (hart : Nat) (op : HostOp) : RoundTrip.Statement (.hostAccess hart op) := fun _ _ h => nomatch h

theorem RoundTrip.hostFence (hart : Nat) : RoundTrip.Statement (.hostFence hart) := fun _ _ h => nomatch h

theorem RoundTrip.l2HomeRead (r : HomeRead) : RoundTrip.Statement (.l2HomeRead r) := fun _ _ h => nomatch h

theorem RoundTrip.readRequest (f : Frame) : RoundTrip.Statement (.readRequest f) := fun _ _ h => nomatch h

theorem RoundTrip.readResponse (f : Frame) : RoundTrip.Statement (.readResponse f) := fun _ _ h => nomatch h

theorem RoundTrip.write (f : Frame) : RoundTrip.Statement (.write f) := fun _ _ h => nomatch h

theorem RoundTrip.writeAcknowledgement (f : Frame) : RoundTrip.Statement (.writeAcknowledgement f) := fun _ _ h => nomatch h

theorem RoundTrip.atomic (f : Frame) : RoundTrip.Statement (.atomic f) := fun _ _ h => nomatch h

theorem RoundTrip.atomicResponse (f : Frame) : RoundTrip.Statement (.atomicResponse f) := fun _ _ h => nomatch h

theorem RoundTrip.collectiveData (f : Frame) : RoundTrip.Statement (.collectiveData f) := fun _ _ h => nomatch h

theorem RoundTrip.translationWarm (f : Frame) : RoundTrip.Statement (.translationWarm f) := fun _ _ h => nomatch h

theorem RoundTrip.refusal (f : Frame) : RoundTrip.Statement (.refusal f) := fun _ _ h => nomatch h

theorem RoundTrip.linkResend (port : Nat) (lseq : Nat) : RoundTrip.Statement (.linkResend port lseq) := fun _ _ h => nomatch h

theorem RoundTrip.linkStateChange (port : Nat) (lanes : Nat) (up : Bool) : RoundTrip.Statement (.linkStateChange port lanes up) := fun _ _ h => nomatch h

theorem RoundTrip.ptpEventMessage (port : Nat) (egress : Bool) : RoundTrip.Statement (.ptpEventMessage port egress) := fun _ _ h => nomatch h

theorem RoundTrip.debugHalt (gk : Nat) : RoundTrip.Statement (.debugHalt gk) := fun _ _ h => nomatch h

theorem RoundTrip.debugRelease (gk : Nat) : RoundTrip.Statement (.debugRelease gk) := fun _ _ h => nomatch h

theorem RoundTrip.getVersion : RoundTrip.Statement (.getVersion) := fun _ _ h => nomatch h

theorem RoundTrip.getCapabilities : RoundTrip.Statement (.getCapabilities) := fun _ _ h => nomatch h

theorem RoundTrip.negotiateAlgorithms : RoundTrip.Statement (.negotiateAlgorithms) := fun _ _ h => nomatch h

theorem RoundTrip.getDigests : RoundTrip.Statement (.getDigests) := fun _ _ h => nomatch h

theorem RoundTrip.getCertificate (off : Nat) (len : Nat) : RoundTrip.Statement (.getCertificate off len) := fun _ _ h => nomatch h

theorem RoundTrip.challenge (nonce : List Byte) : RoundTrip.Statement (.challenge nonce) := fun _ _ h => nomatch h

theorem RoundTrip.getMeasurements (nonce : List Byte) : RoundTrip.Statement (.getMeasurements nonce) := fun _ _ h => nomatch h

theorem RoundTrip.spdmSessionRequest (r : SpdmSession) : RoundTrip.Statement (.spdmSessionRequest r) := fun _ _ h => nomatch h

theorem RoundTrip.profileApply (p : Profile) : RoundTrip.Statement (.profileApply p) := fun _ _ h => nomatch h

theorem RoundTrip.simpleUpdate (image : Image) : RoundTrip.Statement (.simpleUpdate image) := fun _ _ h => nomatch h

theorem RoundTrip.firmwareCommit : RoundTrip.Statement (.firmwareCommit) := fun _ _ h => nomatch h

theorem RoundTrip.metricSample : RoundTrip.Statement (.metricSample) := fun _ _ h => nomatch h

theorem RoundTrip.frameDrop (port : Nat) : RoundTrip.Statement (.frameDrop port) := fun _ _ h => nomatch h

theorem RoundTrip.debuggerAttach (part : Nat) (on : Bool) : RoundTrip.Statement (.debuggerAttach part on) := fun _ _ h => nomatch h

end Sys2Proof.Laws
end

