-- ==== Sys2Proof/Tests/Slice0.lean ====
section
/-! SUPPORT. Tests: what well-formedness refuses, words written out from the manual's encoding tables, the manual's worked examples,
and for each statement a state and operands that meet its hypotheses. -/

namespace Sys2Proof.Tests

open Sys2Proof Sys2Proof.Machine Sys2Proof.Claims

set_option maxRecDepth 100000
set_option Elab.async false

/-- An unguarded header, and one guarded by p1. -/
def h0 : Hdr := ⟨0, false, false⟩
def h1 : Hdr := ⟨1, false, false⟩

/-! What well-formedness refuses, check by check. -/

theorem test_types_refused_a : ([
    .iadd h0 .z64 false 1 2 (.reg 3), .iadd64 h0 .s32 false 2 4 6, .imin h0 .b32 1 2 (.reg 3), .shr64 h0 .b64 2 4 (.reg 3),
    .bfx h0 .s64 false 1 2 3 4, .lea h0 .s64 2 4 6 0, .imadImm h0 .s64 false 1 2 3 4, .icmp h0 .eq .b32 1 2 (.reg 3),
    .icmp h0 .eq .s64 1 2 (.imm 3), .gmatch h0 .s32 1 2, .gredux h0 .add .b32 1 2, .gscan h0 .xor false .s32 1 2,
    .fclass h0 .s32 1 2, .qdot4 h0 .f16 .rne false false 1 2 3 4, .fcvti h0 .f32 .f32 .rne false 2 1, .icvtf h0 .e4m3 .s32 .rne false 1 2,
    .fpack h0 .f32 .rne false false false 1 2 3, .funpack h0 .f32 false 2 1 0] : List Instr).all (fun i => !i.encodingOk) = true := by
  decide +kernel

theorem test_types_refused_b : ([
    .fbmax h0 .f32 false 1 2 3, .ldG h0 ⟨.s32, 1, 2, 0, false, false, 0⟩, .stG h0 ⟨.s8, 1, 2, 0⟩, .atomAdd h0 .b32 0 1 2 4,
    .atomAnd h0 .s32 0 1 2 4, .atomExch h0 .f32 0 1 2 4, .atomFadd h0 .s32 0 1 2 4, .atomInc h0 .s32 0 1 2 4, .red h0 .fadd .b32 2 4,
    .accLd h0 ⟨0, 0, false⟩ .e4m3 1 4, .accDrain h0 ⟨0, 0, false⟩ 0 .ds8 false 4 1 0] : List Instr).all (fun i => !i.encodingOk) = true := by
  decide +kernel

theorem test_modifiers_refused_a : ([
    .fcvt h0 .bf16 .f32 .rne false true false 1 2, .fcvt h0 .f16 .f32 .rne false false true 1 2,
    .fcvtSr h0 .f32 .f16 false true false 1 2 3, .fpack h0 .e4m3 .rne false true false 1 2 3,
    .qdot4 h0 .e4m3 .rne false true 1 2 3 4, .qdot4 h0 .s8 .rtz false false 1 2 3 4, .qdot4 h0 .z8 .rne true false 1 2 3 4,
    .ldG h0 ⟨.b32, 1, 2, 0, true, true, 0⟩, .st h0 ⟨.b64, 2, 4, 0⟩ 8, .rejoinArm h0 true 1 0, .gsync h0 true 1,
    .nop ⟨0, false, true⟩, .nopWidened h0, .barDie h0 .sync 1 0 0, .barDie h0 .arrive 1 2 0, .barPkg h0 .wait 1 2 0,
    .accDrain h0 ⟨0, 0, false⟩ 0 .f32 false 4 1 2, .accZero h0 ⟨0, 1, false⟩ 0 1] : List Instr).all
      (fun i => !i.encodingOk) = true := by decide +kernel

theorem test_modifiers_refused_b : ([
    .mmaF16 h0 ⟨0, 4, 1, 5, ⟨0, 0, false⟩, 0, 0, false, false, true, false, false, false, false⟩,
    .mmaE4m3 h0 ⟨0, 4, 1, 5, ⟨0, 0, false⟩, 0, 0, false, false, false, false, false, false, false⟩,
    .mmaE4m3 h0 ⟨0, 4, 0, 5, ⟨0, 0, false⟩, 0, 0, false, false, false, false, false, true, false⟩,
    .mmaDs8 h0 ⟨0, 8, 1, 5, ⟨0, 0, false⟩, 0, 0, false, false, true, false, false, false, true⟩,
    .mmaS8 h0 ⟨0, 4, 0, 5, ⟨0, 1, false⟩, 0, 0, false, false, false, false, false, false, false⟩] : List Instr).all
      (fun i => !i.encodingOk) = true := by decide +kernel

/-- Table 6-4 and the register rules of the chapters: each kind of operand, just past its range. -/
theorem test_operands_refused_a : ([
    .iadd64 h0 .s64 false 3 4 6, .ldG h0 ⟨.b128, 6, 4, 0, false, false, 0⟩, .sctxGet h0 2, .icmp h0 .lt .s32 96 1 (.reg 2),
    .pset h0 65 1 32, .pget h0 1 0 0, .pget h0 1 0 33, .lea h0 .s32 2 4 6 8, .qbcast h0 1 2 4, .rejoin h0 8, .funpack h0 .f16 false 2 1 1,
    .funpack h0 .e4m3 false 2 1 2, .ds8dec h0 .rne false 1 2 3 4, .barArrive h0 1 16, .barDie h0 .sync 0 0 4] : List Instr).all (fun i => !i.operandsOk) = true := by decide +kernel

theorem test_operands_refused_b : ([
    .tlWait h0 2 16, .gslotClr h0 8, .bankMode h0 0 4 1 2 3, .regsGrow h0 1 8, .regsShrink h0 0, .sregGet h0 1 0x16, .sregGet h0 1 0x12,
    .accZero h0 ⟨0, 0, false⟩ 64 1, .accZero h0 ⟨0, 0, false⟩ 0 65, .accMov h0 ⟨0, 0, false⟩ 1 64, .accLd h0 ⟨0, 0, false⟩ .f32 0 6,
    .mmaF16 h0 ⟨0, 6, 0, 5, ⟨0, 0, false⟩, 0, 0, false, false, false, false, false, false, false⟩,
    .mmaDs8 h0 ⟨0, 252, 1, 5, ⟨0, 0, false⟩, 0, 0, false, false, true, false, false, false, false⟩,
    .mmaDs8 h0 ⟨0, 8, 1, 5, ⟨0, 0, false⟩, 0, 1, false, false, true, false, false, false, false⟩,
    .mov ⟨96, false, false⟩ 1 (.reg 2), .imad64 h0 .s64 false 2 3 4 6, .launch h0 1 2 241 3, .tapePush h0 1 241 3] : List Instr).all (fun i => !i.operandsOk) = true := by decide +kernel

/-- R145: only an F64 instruction has a widened form. -/
theorem test_widths_refused :
    ((.movk ⟨0, false, true⟩ 1 2 : Instr).widthOk || (.accMov ⟨0, false, true⟩ ⟨0, 0, false⟩ 1 2 : Instr).widthOk) = false := by
  decide +kernel

/-- Units that the package does not have. -/
theorem test_events_refused_a : ([
    .teamPlacement 8, .qctlWrite 0 64 0, .swap 0 16, .pageWalkComplete 0 2 0 .read, .deplClear 48, .thermalSample 0 4096,
    .hotSpotMigration 0 384, .bankNap 3200, .bankRetain 3200, .bankWakeComplete 3200 false, .warmReserveRefill 3072, .bankModeComplete 3072, .streamFire 8192, .assign 2048 0, .destroy 2048, .hbmErrorLimit 8, .qosShareWrite 0 33 0,
    .hbmregWrite 0 8 0, .registerWrite 0x1000000 4 0, .registerWrite 0 2 0, .hostAccess 32 (.load 0 4), .hostFence 32,
    .hostAccess 0 (.amo .inc false 0 4 0)] : List Instr).all (fun i => !i.WellFormed) = true := by decide +kernel

theorem test_events_refused_b : ([
    .longLatencyResult 0 0 32, .l2HomeRead ⟨0, 3, false, false, 0, false⟩, .l2HomeRead ⟨0, 0, false, false, 386, false⟩,
     .linkStateChange 32 0 true, .frameDrop 32,
    .ptpEventMessage 33 true] : List Instr).all (fun i => !i.WellFormed) = true := by decide +kernel

/-- What stands just inside each range is accepted. -/
theorem test_boundary_operands_accepted : ([
    .iadd64 h0 .s64 false 254 4 6, .ldG h0 ⟨.b128, 252, 254, 0xFFF, false, true, 15⟩, .icmp h0 .lt .s32 95 255 (.reg 255),
    .pset h0 64 1 32, .pget h0 1 95 1, .lea h0 .z32 2 4 6 7, .rejoin h0 7, .funpack h0 .e5m2 false 254 1 1, .barArrive h0 1 15,
    .barPkg h0 .arrive 1 0 3, .regsGrow h0 95 7, .sregGet h0 254 0x12, .accZero h0 ⟨0, 7, true⟩ 63 64,
    .mmaDs8 h0 ⟨63, 248, 1, 5, ⟨255, 7, true⟩, 0x7FFFFF, 2, true, false, true, true, true, true, false⟩,
    .mov ⟨95, true, true⟩ 1 (.reg 2)] : List Instr).all Instr.WellFormed = true := by decide +kernel

/-! Words written out field by field (Tables 6-7 to 6-9 and the field tables of chapters 07 to 11), and what they decode to. -/

/-- Bits [63:0] of an instruction without its length code and guard: OPC, D, A, B, C, [55:52], M. -/
def fields (opc d a b c x m : Nat) : Nat :=
  2 ^ 2 * opc + 2 ^ 20 * d + 2 ^ 28 * a + 2 ^ 36 * b + 2 ^ 44 * c + 2 ^ 52 * x + 2 ^ 56 * m

/-- An F64 word (LEN 0), an F96 word (LEN 1) and an F128 word (LEN 2). -/
def enc (opc d a b c x m : Nat) : Nat := fields opc d a b c x m
def enc96 (opc d a b c x m w2 : Nat) : Nat := 1 + fields opc d a b c x m + 2 ^ 64 * w2
def enc128 (opc d a b c x m w2 w3 : Nat) : Nat := 2 + fields opc d a b c x m + 2 ^ 64 * w2 + 2 ^ 96 * w3

/-- Each word decodes to its instruction. -/
def reads (l : List (Nat × Instr)) : Bool := l.all fun x => decide (decodeTableWord 128 x.1 = some x.2)

/-- Group 0 (Tables 7-1 to 7-5). -/
theorem test_integer_words_decode_a : reads [
    (enc 0 3 1 0 0xFB 0xA 2, .iadd h0 .s32 true 3 1 (.imm 0xFB)),
    (enc 1 4 5 6 0 0 6, .isub h0 .z32 false 4 5 (.reg 6)),
    (enc 2 7 8 9 0 2 2, .imul h0 .s32 true 7 8 (.reg 9)),
    (enc 3 0xA 0xB 0 0xC 8 6, .imulhi h0 .z32 10 11 (.imm 12)),
    (enc 4 0xD 0xE 0xF 0x10 0 2, .imad h0 .s32 false 13 14 15 16),
    (enc 5 0x12 0x14 0x16 0 2 3, .iadd64 h0 .s64 true 18 20 22),
    (enc 6 0x18 0x1A 0x1C 0 0 7, .isub64 h0 .z64 false 24 26 28),
    (enc 7 0x1E 0x1F 0x20 0x22 0 3, .imad64 h0 .s64 false 30 31 32 34),
    (enc 8 0x23 0x24 0x25 0x26 1 6, .iaddc h0 true 35 36 37 38),
    (enc 9 0x27 0x28 0 0 2 2, .ineg h0 true 39 40),
    (enc 0xA 0x29 0x2A 0 0 0 2, .iabs h0 false 41 42),
    (enc 0xB 0x2B 0x2C 0x2D 0 0 6, .imin h0 .z32 43 44 (.reg 45)),
    (enc 0xC 0x2E 0x2F 0 0x80 8 2, .imax h0 .s32 46 47 (.imm 0x80)),
    (enc 0x10 0x30 0x31 0x32 0 0 0xA, .and h0 48 49 (.reg 50)),
    (enc 0x11 0x33 0x34 0 1 8 0xA, .or h0 51 52 (.imm 1)),
    (enc 0x12 0x35 0x36 0x37 0 0 0xA, .xor h0 53 54 (.reg 55)),
    (enc 0x13 0x38 0x39 0 0xFF 8 0xA, .andn h0 56 57 (.imm 0xFF)),
    (enc 0x14 0x3A 0x3B 0 0 0 0xA, .not h0 58 59)] = true := by decide +kernel
/-- Group 0, continued. -/
theorem test_integer_words_decode_b : reads [
    (enc 0x15 0x3C 0x3D 0x3E 0x3F 0 0xE8, .lop3 h0 0xE8 60 61 62 63),
    (enc 0x18 0x40 0x41 0 5 8 0xA, .shl h0 64 65 (.imm 5)),
    (enc 0x19 0x42 0x43 0x44 0 0 0xA, .shr h0 66 67 (.reg 68)),
    (enc 0x1A 0x45 0x46 0x47 0 0 0xA, .sra h0 69 70 (.reg 71)),
    (enc 0x1B 0x48 0x4A 0x4D 0 0 0xB, .shl64 h0 72 74 (.reg 77)),
    (enc 0x1C 0x4E 0x50 0 0x28 8 3, .shr64 h0 .s64 78 80 (.imm 40)),
    (enc 0x1D 0x51 0x52 0x53 0 0 0xA, .rotl h0 81 82 (.reg 83)),
    (enc 0x20 0x54 0x55 0 0 0 0xA, .clz h0 84 85),
    (enc 0x21 0x56 0x57 0 0 0 0xA, .popc h0 86 87),
    (enc 0x22 0x58 0x59 0 0 0 0xA, .brev h0 88 89),
    (enc 0x23 0x5A 0x5B 4 8 1 2, .bfx h0 .s32 true 90 91 4 8),
    (enc 0x23 0x5A 0x5B 0x5C 0x5D 0 6, .bfx h0 .z32 false 90 91 92 93),
    (enc 0x24 0x5E 0x5F 0x60 0x61 0 0xA, .bfi h0 94 95 96 97),
    (enc 0x28 0x62 0x63 0x64 0x5F 0 0xA, .sel h0 98 99 100 95),
    (enc 0x29 0x65 0x66 0 0 0 0xA, .mov h0 101 (.reg 102)),
    (enc 0x29 0x65 0 0 7 8 0xA, .mov h0 101 (.imm 7)),
    (enc 0x2A 0x68 0x6A 0x6B 7 0 2, .lea h0 .s32 104 106 107 7)] = true := by decide +kernel

/-- Group 1 (R159, R166). -/
theorem test_immediate_words_decode : reads [
    (enc96 0x40 1 2 0 0 2 6 0x89ABCDEF, .iaddImm h0 .z32 true 1 2 0x89ABCDEF),
    (enc96 0x41 3 4 0 0 0 2 0x89ABCDEF, .isubImm h0 .s32 false 3 4 0x89ABCDEF),
    (enc96 0x42 5 6 0 0 2 2 0x89ABCDEF, .imulImm h0 .s32 true 5 6 0x89ABCDEF),
    (enc96 0x44 7 8 0 9 0 6 0x89ABCDEF, .imadImm h0 .z32 false 7 8 0x89ABCDEF 9),
    (enc96 0x4B 0xA 0xB 0 0 0 2 0x89ABCDEF, .iminImm h0 .s32 10 11 0x89ABCDEF),
    (enc96 0x4C 0xC 0xD 0 0 0 6 0x89ABCDEF, .imaxImm h0 .z32 12 13 0x89ABCDEF),
    (enc96 0x50 0xE 0xF 0 0 0 0xA 0x89ABCDEF, .andImm h0 14 15 0x89ABCDEF),
    (enc96 0x51 0x10 0x11 0 0 0 0xA 0x89ABCDEF, .orImm h0 16 17 0x89ABCDEF),
    (enc96 0x52 0x12 0x13 0 0 0 0xA 0x89ABCDEF, .xorImm h0 18 19 0x89ABCDEF),
    (enc96 0x53 0x14 0x15 0 0 0 0xA 0x89ABCDEF, .andnImm h0 20 21 0x89ABCDEF),
    (enc96 0x70 0x16 0 0 0 0 0xA 0x89ABCDEF, .movk h0 22 0x89ABCDEF),
    (enc128 0x71 0x18 0 0xDC 0xFE 0 0xB 0x32100000 0xBA987654, .movk64 h0 24 0xFEDCBA9876543210)] = true := by decide +kernel

/-- Group 2 (R167-R169); the first word is the example of R167. -/
theorem test_predicate_words_decode : reads [
    (enc 0x80 4 9 0 0xFF 0xA 2, .icmp h0 .lt .s32 4 9 (.imm 0xFF)),
    (enc 0x80 5 0xA 0xC 0 5 7, .icmp h0 .ge .z64 5 10 (.reg 12)),
    (enc 0x81 0x3C 0xB 0 0x20 0 0, .pset h0 60 11 32),
    (enc 0x82 0xC 0x5A 0 6 0 0, .pget h0 12 90 6),
    (enc 0x83 1 2 3 0 1 0, .pand h0 true false 1 2 3),
    (enc 0x84 4 5 6 0 2 0, .por h0 false true 4 5 6),
    (enc 0x85 7 8 9 0 3 0, .pxor h0 true true 7 8 9),
    (enc 0x86 0xA 0xB 0 0 1 0, .pnot h0 true 10 11),
    (enc 0x87 0xC 0xD 0 0 0 0, .pmov h0 false 12 13)] = true := by decide +kernel

/-- Group 3 (Table 7-7). -/
theorem test_control_words_decode : reads [
    (enc96 0xC0 0 0 0 0 0 0 0xFFFFFFF0, .bra h0 0xFFFFFFF0),
    (enc 0xC1 0 0x1E 0 0 0 0, .brx h0 30),
    (enc96 0xC2 0 0 0 0 0 0 0x40, .call h0 0x40),
    (enc 0xC3 0 0x20 0 0 0 0, .callx h0 32),
    (enc 0xC4 0 0 0 0 0 0, .ret h0),
    (enc 0xC5 0 0 0 0 0 0, .exit h0),
    (enc 0xC6 0 5 0 7 0 0, .rejoinArm h0 false 5 7),
    (enc 0xC6 0 0 0 2 1 0, .rejoinArm h0 true 0 2),
    (enc 0xC7 0 0 0 3 0 0, .rejoin h0 3),
    (enc 0xC8 0 0 0 0 0 0, .yield h0),
    (enc 0xC9 0 0 0 0 0 0, .nop h0),
    (enc96 0xC9 0 0 0 0 0 0 0, .nopWidened ⟨0, false, true⟩)] = true := by decide +kernel

/-- Group 4 (R178-R181). -/
theorem test_exchange_words_decode : reads [
    (enc 0x100 1 2 0 0 1 0xA, .qswap h0 .h 1 2),
    (enc 0x100 3 4 0 0 3 0xA, .qswap h0 .d 3 4),
    (enc 0x101 5 6 0 3 0 0xA, .qbcast h0 5 6 3),
    (enc 0x102 7 8 0 0x1F 8 0xA, .gshfl h0 .idx 7 8 (.imm 31)),
    (enc 0x102 9 0xA 0xB 0 3 0xA, .gshfl h0 .xor 9 10 (.reg 11)),
    (enc 0x103 0xC 0xD 0 0 2 0, .gvote h0 .ballot 12 13),
    (enc 0x103 0xE 0xF 0 0 1 0, .gvote h0 .all 14 15),
    (enc 0x104 0 0x10 0 0 0 0, .gsync h0 false 16),
    (enc 0x105 0x11 0x12 0 0 0 0xB, .gmatch h0 .b64 17 18),
    (enc 0x106 0x13 0x14 0 0 5 0xA, .gredux h0 .xor .b32 19 20),
    (enc 0x107 0x15 0x16 0 0 8 2, .gscan h0 .add true .s32 21 22),
    (enc 0x108 0x17 0 0 0 0 0, .gelect h0 23)] = true := by decide +kernel

/-- Group 5 (Table 8-1, R192, R193); `ffma` is the guarded example of chapter 08. -/
theorem test_float_words_decode_a : reads [
    (enc 0x140 1 2 3 0 1 0x32, .fadd h0 .rtz true 1 2 3),
    (enc 0x141 4 5 6 0 0 0x52, .fsub h0 .rpi false 4 5 6),
    (enc 0x142 7 8 9 0 1 0x72, .fmul h0 .rni true 7 8 9),
    (2 * 4096 + enc 0x143 8 1 2 3 1 0x32, .ffma ⟨2, false, false⟩ .rtz true 8 1 2 3),
    (enc 0x144 0xE 0xF 0x10 0 1 0x12, .fmin h0 true 14 15 16),
    (enc 0x145 0x11 0x12 0x13 0 0 0x12, .fmax h0 false 17 18 19),
    (enc 0x146 0x14 0x15 0 0 1 0x52, .frnd h0 .rpi true 20 21),
    (enc 0x147 0x16 0x17 0x18 0 0xF 0x12, .fcmp h0 .nan true 22 23 24),
    (enc 0x148 0x19 0x1A 0 0 0 0x13, .fclass h0 .e4m3 25 26),
    (enc 0x149 0x1B 0x1C 0x1D 0 2 0x12, .fsign h0 .xor 27 28 29),
    (enc 0x14A 0x1E 0x1F 0x20 0 1 0x12, .fscale h0 .rne true 30 31 32),
    (enc 0x150 0x21 0x22 0x23 0 0 0x30, .hadd2 h0 .rtz false 33 34 35),
    (enc 0x151 0x24 0x25 0x26 0 1 0x10, .hmul2 h0 .rne true 36 37 38),
    (enc 0x152 0x27 0x28 0x29 0x2A 0 0x70, .hfma2 h0 .rni false 39 40 41 42),
    (enc 0x153 0x2B 0x2C 0x2D 0 0 0x11, .badd2 h0 .rne false 43 44 45),
    (enc 0x154 0x2E 0x2F 0x30 0 1 0x51, .bmul2 h0 .rpi true 46 47 48),
    (enc 0x155 0x31 0x32 0x33 0x34 0 0x11, .bfma2 h0 .rne false 49 50 51 52),
    (enc 0x156 0x35 0x36 0x37 0x38 1 0x30, .fdot2 h0 .rtz true 53 54 55 56)] = true := by decide +kernel
/-- Group 5, continued. -/
theorem test_float_words_decode_b : reads [
    (enc 0x157 0x39 0x3A 0x3B 0x3C 0 0x11, .bdot2 h0 .rne false 57 58 59 60),
    (enc 0x158 0x3D 0x3E 0x3F 0x40 2 0, .qdot4 h0 .s8 .rne false true 61 62 63 64),
    (enc 0x158 0x3D 0x3E 0x3F 0x40 1 0x74, .qdot4 h0 .e5m2 .rni true false 61 62 63 64)] = true := by decide +kernel

/-- Group 6 (Table 8-2). -/
theorem test_conversion_words_decode : reads [
    (enc 0x180 1 2 0 0x12 5 0x13, .fcvt h0 .e4m3 .f32 .rne true false true 1 2),
    (enc 0x180 3 4 0 0x11 2 0x30, .fcvt h0 .f16 .bf16 .rtz false true false 3 4),
    (enc 0x180 5 6 7 0x12 1 0x91, .fcvtSr h0 .bf16 .f32 true false false 5 6 7),
    (enc 0x181 8 9 0 0x10 1 0x63, .fcvti h0 .s64 .f16 .rni true 8 9),
    (enc 0x182 0xA 0xC 0 7 0 0x52, .icvtf h0 .f32 .z64 .rpi false 10 12),
    (enc 0x183 0xD 0xE 0xF 0 2 0x14, .fpack h0 .e5m2 .rne false true false 13 14 15),
    (enc 0x184 0x10 0x11 0 1 1 0x13, .funpack h0 .e4m3 true 16 17 1),
    (enc 0x185 0x12 0x13 0x14 0 0 0x18, .fbmax h0 .ds8 false 18 19 20),
    (enc 0x186 0x15 0x16 0x17 0 1 0x18, .ds8enc h0 true 21 22 23),
    (enc 0x187 0x18 0x19 0x1A 3 0 0x38, .ds8dec h0 .rtz false 24 25 26 3)] = true := by decide +kernel

/-- Group 7 (R201). -/
theorem test_special_words_decode : reads [
    (enc 0x1C0 0xA 0x28 0 0 4 0x12, .frcp h0 false 4 10 40),
    (enc 0x1C1 0xB 0x29 0 1 5 0x12, .frsq h0 true 5 11 41),
    (enc 0x1C2 0xC 0x2A 0 0 6 0x12, .fsqrt h0 false 6 12 42),
    (enc 0x1C3 0xD 0x2B 0 1 7 0x12, .fexp2 h0 true 7 13 43),
    (enc 0x1C4 0xE 0x2C 0 0 8 0x12, .flog2 h0 false 8 14 44),
    (enc 0x1C5 0xF 0x2D 0 1 9 0x12, .fsin h0 true 9 15 45),
    (enc 0x1C6 0x10 0x2E 0 0 0xA 0x12, .fcos h0 false 10 16 46),
    (enc 0x1C7 0x11 0x2F 0 1 0xB 0x12, .ftanh h0 true 11 17 47),
    (enc 0x1C8 0x12 0x30 0 0 0xC 0x12, .fsigm h0 false 12 18 48)] = true := by decide +kernel

/-- Group 8 (Table 9-1, R209-R212); `ld.g.b32.la2` is the example of R203. -/
theorem test_memory_words_decode : reads [
    (enc 0x200 1 2 0x23 1 1 4, .ld h0 ⟨.z8, 1, 2, 0x123, false, false, 1⟩),
    (enc 0x201 0xA 4 0x40 0 2 0xA, .ldG h0 ⟨.b32, 10, 4, 0x40, false, false, 2⟩),
    (enc 0x202 0xC 5 0xFF 0x1F 0 0xB, .ldS h0 ⟨.b64, 12, 5, 0xFFF, true, false, 0⟩),
    (enc 0x203 0x10 7 0 0x28 0xF 0xC, .ldC h0 ⟨.b128, 16, 7, 0x800, false, true, 15⟩),
    (enc 0x204 0x15 9 0xFF 7 3 1, .ldP h0 ⟨.s16, 21, 9, 0x7FF, false, false, 3⟩),
    (enc 0x209 0x1E 0x20 0xBC 0xA 0 8, .stG h0 ⟨.b8, 30, 32, 0xABC⟩),
    (enc 0x20A 0x21 0x22 1 0 0 9, .stS h0 ⟨.b16, 33, 34, 0x1⟩),
    (enc 0x20B 0x23 0x24 0 1 0 0xA, .stC h0 ⟨.b32, 35, 36, 0x100⟩),
    (enc 0x20C 0x26 0x27 0 0xF 0 0xB, .stP h0 ⟨.b64, 38, 39, 0xF00⟩),
    (enc 0x210 0 0x28 0x45 3 2 0, .pref h0 .tlb 40 0x345),
    (enc 0x211 0x29 0x2A 0 0 0 0, .spt h0 41 42),
    (enc 0x212 0x2C 0x2E 0 0x2D 3 0, .spc h0 .c false 44 45 46),
    (enc 0x213 0 0x30 0x78 6 0 0, .xlatePf h0 48 0x678)] = true := by decide +kernel

/-- Group 9 (R213, R215, R216). -/
theorem test_atomic_words_decode : reads [
    (enc 0x240 0xA 0xC 0x28 0 0 2, .atomAdd h0 .s32 0 10 12 40),
    (enc 0x241 0xE 0x10 0x2C 0 1 7, .atomMin h0 .z64 1 14 16 44),
    (enc 0x242 0x12 0x14 0x30 0 2 3, .atomMax h0 .s64 2 18 20 48),
    (enc 0x243 0x16 0x18 0x34 0 3 0xA, .atomAnd h0 .b32 3 22 24 52),
    (enc 0x244 0x1A 0x1C 0x38 0 4 0xB, .atomOr h0 .b64 4 26 28 56),
    (enc 0x245 0x1E 0x20 0x3C 0 5 0xA, .atomXor h0 .b32 5 30 32 60),
    (enc 0x246 0x22 0x24 0x40 0 6 0xB, .atomExch h0 .b64 6 34 36 64),
    (enc 0x247 1 2 4 5 9 0xA, .atomCas h0 .b32 9 1 2 4 5),
    (enc 0x248 6 8 0xA 0 0xA 0x12, .atomFadd h0 .f32 10 6 8 10),
    (enc 0x249 0xB 0xC 0xE 0 0xB 6, .atomInc h0 .z32 11 11 12 14),
    (enc 0x250 0 0x10 0x12 0 7 6, .red h0 .inc .z32 16 18),
    (enc 0x250 0 0x10 0x12 0 1 3, .red h0 .min .s64 16 18),
    (enc 0x258 0 0 0 0 4 0, .fence h0 .domain)] = true := by decide +kernel

/-- Group 10 (Table 9-5, R223, R228-R230). -/
theorem test_grid_words_decode : reads [
    (enc 0x280 1 2 4 0xC3 5 0x12, .hgLoad h0 5 1 2 4 3 12),
    (enc 0x281 6 7 8 0x21 0 0x12, .hgGrad h0 6 7 8 1 2),
    (enc 0x282 0xA 0xC 0xE 0xD 9 0x12, .hgCorner h0 10 12 14 13 9),
    (enc 0x288 0 0xF 0x10 0x11 0xB 0, .chanSend h0 11 15 16 17),
    (enc 0x289 0x12 0 0 0 0xC 0, .chanRecv h0 12 18),
    (enc 0x28A 0x13 0 0 0 0xD 0, .chanProbe h0 13 19),
    (enc 0x28B 0x14 0x15 0x16 0x17 0 0xA, .fifoPush h0 20 21 22 23),
    (enc 0x28C 0x18 0x19 0 0x1A 0 0xA, .fifoPop h0 24 25 26),
    (enc 0x290 0x1B 0x1C 3 0x1D 4 0, .bankMode h0 4 3 27 28 29),
    (enc 0x291 0x20 0 0 0 0 0, .sctxGet h0 32)] = true := by decide +kernel

/-- Group 11 (Tables 10-2 and 10-5, R249-R251); `mma.bf16` is the example of R235. -/
theorem test_matrix_words_decode : reads [
    (enc128 0x2C0 1 4 0 5 0 0 0xBCDE0F81 0x0000127A, .mmaF16 h0 ⟨1, 4, 0, 5, ⟨129, 7, true⟩, 0x7ABCDE, 0, true, false, false, true, false, false, false⟩),
    (enc128 0x2C1 4 0x10 0 3 0 0 0x04000901 0x00000400, .mmaBf16 h0 ⟨4, 16, 0, 3, ⟨1, 1, true⟩, 0x400, 0, false, true, false, false, false, false, false⟩),
    (enc128 0x2C2 2 8 9 6 0 0 0x23450002 0x00002981, .mmaE4m3 h0 ⟨2, 8, 9, 6, ⟨2, 0, false⟩, 0x12345, 3, false, false, true, false, true, false, false⟩),
    (enc128 0x2C3 3 0xC 0xD 7 0 0 0x00010A04 0x00000880, .mmaE5m2 h0 ⟨3, 12, 13, 7, ⟨4, 2, true⟩, 0x1, 1, false, false, true, false, false, false, false⟩),
    (enc128 0x2C4 5 0x14 0 0x15 0 0 0x00020008 0x0000C000, .mmaS8 h0 ⟨5, 20, 0, 21, ⟨8, 0, false⟩, 0x2, 0, false, false, false, false, false, true, true⟩),
    (enc128 0x2C5 6 0x18 0x21 0x22 0 0 0x00030B10 0x00004900, .mmaDs8 h0 ⟨6, 24, 33, 34, ⟨16, 3, true⟩, 0x3, 2, false, false, true, false, false, true, false⟩),
    (enc128 0x2D0 1 0 0 0x40 0 0 0x00000A0F 0, .accZero h0 ⟨0x0F, 2, true⟩ 1 64),
    (enc128 0x2D1 2 4 0 0 0 0x11 0x00000001 0, .accLd h0 ⟨1, 0, false⟩ .bf16 2 4),
    (enc128 0x2D2 8 3 0xA 0 6 0x13 0x00010902 0, .accDrain h0 ⟨2, 1, true⟩ 6 .e4m3 true 8 3 10),
    (enc128 0x2D3 0 0xC 4 0 0 0 0x00000004 0, .accSpill h0 ⟨4, 0, false⟩ 12 4),
    (enc128 0x2D4 5 0xE 0 0 0 0 0x00000F08 0, .accFill h0 ⟨8, 7, true⟩ 5 14),
    (enc128 0x2D5 6 7 0 0 0 0 0x00000010 0, .accMov h0 ⟨16, 0, false⟩ 6 7),
    (enc128 0x2D6 8 9 0xA 0 0 0 0x00000B20 0, .accAdd h0 ⟨32, 3, true⟩ 8 9 10),
    (enc128 0x2D7 0xB 0xC 0xF 0 0 0 0x00000040 0, .accScale h0 ⟨64, 0, false⟩ 11 12 15),
    (enc 0x2E0 0 0x10 0 0 0 0, .gangForm h0 16),
    (enc 0x2E1 0 0 0 0 0 0, .gangBrk h0),
    (enc128 0x2E2 0 0 0 0 0 0 0xA5 0, .dslotWait h0 0xA5)] = true := by decide +kernel

/-- Group 12 (Table 11-1). -/
theorem test_synchronisation_words_decode : reads [
    (enc 0x300 1 0 0xF 0 0 0, .barArrive h0 1 15),
    (enc 0x301 0 2 0xE 0 0 0, .barWait h0 2 14),
    (enc 0x302 0 0 0xD 0 0 0, .barSync h0 13),
    (enc 0x303 3 0 2 0 1 0, .barDie h0 .arrive 3 0 2),
    (enc 0x303 0 0 3 0 0 0, .barDie h0 .sync 0 0 3),
    (enc 0x304 0 4 1 0 2 0, .barPkg h0 .wait 0 4 1),
    (enc 0x308 0 6 0 0x5A 0 0, .evArm h0 6 0x5A),
    (enc 0x309 0 0 0 0x3C 2 0, .evMask h0 .clr 0x3C),
    (enc 0x30A 0 0 0 0xC3 0 0, .evClear h0 0xC3),
    (enc 0x30B 0 6 0 0 0 0, .wany h0 6),
    (enc 0x30C 7 8 9 0 3 0, .mboxPost h0 3 7 8 9),
    (enc 0x30D 0xA 0 0 0xB 2 0, .mboxRead h0 2 10 11),
    (enc 0x310 0 0xA 2 0 0 0, .tlWait h0 10 2),
    (enc 0x311 0xC 0 3 0 1 0, .tlRead h0 true 12 3),
    (enc 0x312 0xE 0x10 4 0x11 0 0, .tlTry h0 14 16 4 17),
    (enc 0x318 0 0x12 5 0 0 0, .gslotSet h0 18 5),
    (enc 0x319 0 0 6 0 0 0, .gslotClr h0 6)] = true := by decide +kernel

/-- Group 13 (Table 11-1). -/
theorem test_launch_words_decode : reads [
    (enc 0x340 1 2 3 4 0 0, .launch h0 1 2 3 4),
    (enc 0x341 5 0 6 7 0 0, .tapePush h0 5 6 7),
    (enc 0x348 0 0 0 0 2 0, .leaveReq h0 .gs),
    (enc 0x349 0 0 0 0 3 0, .leaveRel h0 .vw),
    (enc 0x350 0 0 0 0 0 0, .regionBegin h0),
    (enc 0x351 0 0 0 0 0 0, .regionEnd h0),
    (enc 0x358 8 0 0 7 0 0, .regsGrow h0 8 7),
    (enc 0x359 0 0 0 1 0 0, .regsShrink h0 1)] = true := by decide +kernel

/-- Group 14 (Table 11-1). -/
theorem test_system_words_decode : reads [
    (enc 0x380 2 0 0 0x10 0 0, .sregGet h0 2 0x10),
    (enc 0x381 0 4 0 0xA 0 0, .sregSet h0 4 0x0A),
    (enc 0x382 6 0 0 0 1 0, .rdtime h0 true 6),
    (enc 0x388 0 0 0 0x77 0 0, .trap h0 0x77),
    (enc 0x389 0 0 0 0x88 0 0, .brk h0 0x88),
    (enc 0x38A 0 0 0 0 0 0, .xret h0)] = true := by decide +kernel
/-- The worked encodings of chapters 06, 09, 10 and 11, as the manual writes them. -/
theorem test_manual_examples_decode : reads [
    (0x0200002010385000, .iadd ⟨5, true, false⟩ .s32 false 3 1 (.reg 2)), (0x028FB00010300000, .iadd h0 .s32 false 3 1 (.imm 0xFB)),
    (0x0A20040040A00804, .ldG h0 ⟨.b32, 10, 4, 0x40, false, false, 2⟩), (0x0CB0000040800820, .st h0 ⟨.b128, 8, 4, 0⟩ 11),
    (0x00A1400043800848, .spc h0 .s true 56 20 4), (0x0000000060000C2C, .wany h0 6), (0x00000020A0000C40, .tlWait h0 10 2),
    (0x00000010E0000C40, .tlWait h0 14 1),
    (0x00000400040009010000300100400B06, .mmaBf16 h0 ⟨4, 16, 0, 3, ⟨1, 1, true⟩, 0x400, 0, false, true, false, false, false, false, false⟩)] = true := by decide +kernel

/-- R145: the widened form of the example, and the same word with IMM32 nonzero. -/
theorem test_widened_forms :
    decodeTableWord 96 0x0200002010385001 = some (.iadd ⟨5, true, true⟩ .s32 false 3 1 (.reg 2)) ∧
    decodeTableWord 96 0x000000010200002010385001 = none := by decide +kernel

/-- R145, R155: lengths that an opcode does not have, unassigned minors, reserved fields and codes are refused, by name. -/
theorem test_words_refused :
    decode 0 (natBytes 16 (enc96 0x2C0 0 0 0 0 0 0 0)) = .error .reservedField ∧ decode 0 (natBytes 16 (enc 0x070 1 0 0 0 0 10)) = .error .reservedField ∧
    decode 0 (natBytes 16 (enc 0x00D 0 0 0 0 0 2)) = .error .unassigned ∧ decode 0 (natBytes 16 (enc 0x3C0 0 0 0 0 0 0)) = .error .unassigned ∧
    decode 0 (natBytes 16 (enc 0x000 1 2 3 4 0 2)) = .error .reservedField ∧ decode 0 (natBytes 16 (enc 0x0C4 1 0 0 0 0 0)) = .error .reservedField ∧
    decode 0 (natBytes 16 (enc 0x000 1 2 3 0 0 0x0D)) = .error .badCode ∧ decode 0 (natBytes 16 (enc 0x140 1 2 3 0 0 0xB2)) = .error .badCode ∧
    decode 0 (natBytes 16 (enc128 0x2D0 0 0 0 1 0 0 0x100 0)) = .error .badCode := by decide +kernel

/-- R146, R147: a fill word stands at offset 28 only; an instruction stays inside its fetch block. -/
theorem test_fetch_blocks :
    decode 28 [3, 0, 0, 0] = .ok .fill ∧ decode 24 [3, 0, 0, 0, 0, 0, 0, 0] = .error .badFill ∧ decode 28 [7, 0, 0, 0] = .error .badFill ∧
    decode 24 (natBytes 8 (enc 0x0C9 0 0 0 0 0 0)) = .ok (.instr (.nop h0)) ∧
    decode 24 (natBytes 12 (enc96 0x0C9 0 0 0 0 0 0 0)) = .error .fetchAlign ∧
    decode 2 (natBytes 8 (enc 0x0C9 0 0 0 0 0 0)) = .error .fetchAlign := by decide +kernel

/-- The bytes of the example of chapter 06 in memory, and the encoder's. -/
theorem test_example_bytes :
    encode (.iadd ⟨5, true, false⟩ .s32 false 3 1 (.reg 2)) = [0x00, 0x50, 0x38, 0x10, 0x20, 0x00, 0x00, 0x02] := by decide +kernel

/-! States in which the statements' hypotheses are met. -/

/-- A path of 32 real lanes at 0x40000 is issuing: one team of one group on core 0, page tables that map the first 512 MiB to themselves. -/
def ready : State := { State.reset.withFetchWord 64 0 with cur := some ⟨0, 0xFFFFFFFF#32, false, 0, []⟩ }

def withLanes (f : Nat → Lane → Lane) (s : State) : State := s.updGroup 0 fun g => g.updLanes f
def withGroup (f : Group → Group) (s : State) : State := s.updGroup 0 f
def withTeam (f : Team → Team) (s : State) : State := s.updTeam 0 f

/-- Registers of every lane. -/
def withRegs (v : SMap Word) (s : State) : State := withLanes (fun _ ln => { ln with v := v }) s

/-- p1 holds in lanes 0 to 15. -/
def half (s : State) : State := withLanes (fun l ln => if l < 16 then { ln with p := ln.p ||| 2 } else ln) s

/-- p1 holds in lane 0 only. -/
def one (s : State) : State := withLanes (fun l ln => if l < 1 then { ln with p := ln.p ||| 2 } else ln) s

/-- A group that waits for something. -/
def waits (p : Park) (s : State) : State := withGroup (fun g => { g with park := p }) s

/-- Bytes in memory under the key of the partition. -/
def withBytes (a : Nat) (bs : List Byte) (s : State) : State := { s with mem := placeBytes s.mem a bs }

/-- The team has two scratchpad banks, which are ON. -/
def withScratch (s : State) : State :=
  withTeam (fun t => { t with banks := [0, 1] })
    ((s.setBank 0 { Bank.reset with mode := .scratch, owner := .team 0, pwr := .on }).setBank 1
      { Bank.reset with mode := .scratch, owner := .team 0, pwr := .on })

/-- The path of a state issues the instruction, and its context meets a condition. -/
def holds (i : Instr) (s : State) (f : Ctx → Bool) : Bool :=
  match s.ctx? with
  | some c => (c.reject? i s).isNone && f c
  | none => false

theorem issues_witness {i : Instr} {s : State} {P : Ctx → Prop} [DecidablePred P]
    (h : holds i s (fun c => decide (P c)) = true) : ∃ c, Issues i s c ∧ P c := by
  unfold holds at h
  split at h
  · next c hc =>
    simp only [Bool.and_eq_true, Option.isNone_iff_eq_none, decide_eq_true_eq] at h
    exact ⟨c, ⟨hc, h.1⟩, h.2⟩
  · cases h

theorem all_issue {l : List Instr} {s : State} (h : (l.all fun i => holds i s fun _ => true) = true) : ∀ i ∈ l, ∃ c, Issues i s c := by
  intro i hi
  have h := List.all_eq_true.mp h i hi
  unfold holds at h
  split at h
  · next c hc =>
    simp only [Bool.and_true, Option.isNone_iff_eq_none] at h
    exact ⟨c, hc, h⟩
  · cases h

/-- A descriptor at 0x50000 (Table 3-9): one level of resolution 2 and 16 entries, one coordinate, one FP32 feature. -/
def gridAt (flags : Byte) (s : State) : State :=
  withRegs [(4, 0x50000#32), (5, 0#32), (10, 0x3F000000#32)]
    (withBytes 0x50040 (natBytes 4 2 ++ [4]) (withBytes 0x50000
      ([4, 0, 1, 1, 1, 2, 0, flags] ++ natBytes 8 0x60000 ++ natBytes 8 0x70000 ++ natBytes 4 0 ++ natBytes 4 64) s))

def gridStage : State := withScratch (one (gridAt 1 ready))

/-- A copy of one 4-byte element from global memory to global memory, issued by the group. -/
def aCmd : Cmd where
  num := 1
  seq := 0
  gk := 0
  tuid := 0
  tidx := 0
  kind := .copy
  sfmt := .b32
  dfmt := .b32
  sat := false
  inf := false
  gmerge := false
  bar := none
  barPhase := 0
  sspc := 0
  dspc := 0
  sbase := 0x50000
  dbase := 0x60000
  rows := 1
  rlen := 1
  sstride := 4
  dstride := 4
  ibase := 0x50100
  idx64 := false
  rop := 0
  hgd := 0x50200
  mcl := [255, 255, 255, 255]
  cmask := [0, 0, 0, 0]
  cop := 0
  srh := false
  cgrp := 0
  cid := 0
  seed := 0
  guard := none
  recv := []
  lines := []
  region := 0
  round := 1
  cursor := 0
  attempt := 0
  ran := false
  errored := false
  discard := false
  waiting := false
  stagedV := []
  rcache := []
  undo := []
  errVa := 0
  errW := false
  issued := 0

/-- Channel 0 with a queue. -/
def chanOf (q : List Cmd) (s : State) : State := s.setChan 0 { s.chan 0 with queue := q }

/-- A lane's access passes its checks and reaches memory, private space or scratchpad of this package. -/
def nearOk (s : State) (w : Nat) (x : Chk) : Bool :=
  match x with
  | .ok (.mem pa _) => decide (pa < hbmBytes)
  | .ok (.priv pa _) => decide (pa < hbmBytes)
  | .ok (.tail _ _) => true
  | .ok (.sram u off) =>
    match s.team? u with
    | some t => (t.linesOf off w).all (fun k => (SMap.find s.absentLines k).isNone) && (t.banksOf off w).all fun b => decide ((s.bank b).pwr = .on)
    | none => false
  | _ => false

theorem nearOk_near {s : State} {w : Nat} {x : Chk} (h : nearOk s w x = true) : ∃ p, x = .ok p ∧ near s w p := by
  unfold nearOk at h
  split at h
  · exact ⟨_, rfl, by simpa [near] using h⟩
  · exact ⟨_, rfl, by simpa [near] using h⟩
  · exact ⟨_, rfl, trivial⟩
  · next u off =>
    split at h
    · next t ht =>
      refine ⟨_, rfl, ?_⟩
      intro y hy
      rw [ht] at hy
      cases hy
      simpa [List.all_eq_true] using h
    · cases h
  · cases h

/-- A group, a team, a context as if its path issued: present, and meeting a condition. -/
theorem group_witness {s : State} {k : Nat} {P : Group → Prop} [DecidablePred P]
    (h : (match s.group? k with | some g => decide (P g) | none => false) = true) : ∃ g, s.group? k = some g ∧ P g := by
  split at h
  · next g hg => exact ⟨g, hg, by simpa using h⟩
  · cases h

theorem team_witness {s : State} {k : Nat} {P : Team → Prop} [DecidablePred P]
    (h : (match s.team? k with | some t => decide (P t) | none => false) = true) : ∃ t, s.team? k = some t ∧ P t := by
  split at h
  · next g hg => exact ⟨g, hg, by simpa using h⟩
  · cases h

theorem ctx_witness {s : State} {gk : Nat} {m : Mask} {P : Ctx → Prop} [DecidablePred P]
    (h : (match s.ctxFor gk m with | some c => decide (P c) | none => false) = true) : ∃ c, s.ctxFor gk m = some c ∧ P c := by
  split at h
  · next g hg => exact ⟨g, hg, by simpa using h⟩
  · cases h

theorem all_whole {l : List Instr} {s : State}
    (h : (l.all fun i => holds i s fun c => s.stuck.isNone && c.path == c.g.live && c.active i s == c.path) = true) : ∀ i ∈ l, ∃ c, Whole i s c := by
  intro i hi
  have h := List.all_eq_true.mp h i hi
  unfold holds at h
  split at h
  · next c hc =>
    simp only [Bool.and_eq_true, Option.isNone_iff_eq_none, beq_iff_eq] at h
    exact ⟨c, ⟨hc, h.1⟩, h.2.1.1, h.2.1.2, h.2.2⟩
  · cases h


/-- The partition's private region is mapped to the second 512 MiB. -/
def withPriv (s : State) : State := withBytes 0x18000 (natBytes 8 0x30001) (withBytes 0x30000 (natBytes 8 (2 ^ 48 + 0x2000000F)) s)

/-- The private slot at an address of a lane lies in memory. -/
def slotOk (c : Ctx) (s : State) (l : Nat) (sp : DWord) (acc : Acc) : Bool :=
  match s.translate c.part c.t.core acc (Config.privRegion + 2 ^ 29 * (c.gk % 2 ^ 25) + 128 * (sp.toNat % 2 ^ 32 / 4) + 4 * l) with
  | .mem pa _ => decide (pa < hbmBytes) && !s.stackFails pa
  | _ => false

theorem slotOk_slotIn {c : Ctx} {s : State} {l : Nat} {sp : DWord} {acc : Acc} (h : slotOk c s l sp acc = true) : slotIn c s l sp acc := by
  unfold slotOk at h
  split at h
  · next pa tag hx =>
    simp only [Bool.and_eq_true, decide_eq_true_eq, Bool.not_eq_true'] at h
    exact ⟨pa, tag, h.1, h.2, hx⟩
  · cases h

theorem whole_witness {i : Instr} {s : State} {P : Ctx → Prop} [DecidablePred P]
    (h : holds i s (fun c => s.stuck.isNone && c.path == c.g.live && c.active i s == c.path && decide (P c)) = true) : ∃ c, Whole i s c ∧ P c := by
  unfold holds at h
  split at h
  · next c hc =>
    simp only [Bool.and_eq_true, Option.isNone_iff_eq_none, beq_iff_eq, decide_eq_true_eq] at h
    exact ⟨c, ⟨⟨hc, h.1⟩, h.2.1.1.1, h.2.1.1.2, h.2.1.2⟩, h.2.2⟩
  · cases h
/-! Registers: instructions that issue, for the statements that ask only for that. -/

theorem witness_IntegerArithmeticResult : ∀ i ∈ [
    Instr.iadd h0 .s32 true 3 1 (.reg 2), .isub h0 .z32 false 255 255 (.imm 0x80), .imul h0 .s32 true 1 1 (.reg 1), .imulhi h0 .z32 1 2 (.reg 3),
    .imad h0 .z32 true 1 2 3 4, .ineg h0 true 1 1, .iabs h0 false 1 2, .imin h0 .s32 1 2 (.reg 3), .imax h0 .z32 1 2 (.imm 1), .and h0 1 2 (.reg 3),
    .or h0 1 2 (.reg 3), .xor h0 1 1 (.reg 1), .andn h0 1 2 (.imm 0), .not h1 1 2, .iadd64 h0 .s64 true 254 254 254, .isub64 h0 .z64 false 2 4 6,
    .imad64 h0 .s64 true 2 4 4 6, .iaddc h0 false 1 2 3 95, .iaddc h0 true 1 2 3 0, .lop3 h0 0xE8 1 2 3 4], ∃ c, Issues i ready c :=
  all_issue (by decide +kernel)

theorem witness_ShiftAndBitFieldResult : ∀ i ∈ [
    Instr.shl h0 1 2 (.imm 32), .shr h0 1 2 (.reg 3), .sra h0 1 2 (.imm 31), .shl64 h0 2 4 (.imm 64), .shr64 h0 .z64 2 4 (.reg 3),
    .shr64 h0 .s64 2 4 (.imm 63), .rotl h0 1 2 (.imm 33), .clz h0 1 2, .popc h0 1 2, .brev h0 1 2, .bfx h0 .s32 false 1 2 3 4,
    .bfx h0 .z32 true 1 2 31 255, .bfi h0 1 2 3 4], ∃ c, Issues i ready c :=
  all_issue (by decide +kernel)

theorem witness_MoveAndImmediateResult : ∀ i ∈ [
    Instr.sel h0 1 2 3 95, .mov h0 1 (.reg 2), .lea h0 .s32 2 4 6 7, .lea h0 .z32 2 4 6 0, .movk h0 1 0xFFFFFFFF, .movk64 h0 254 0xFEDCBA9876543210,
    .iaddImm h0 .s32 true 1 2 0x7FFFFFFF, .isubImm h0 .z32 true 1 2 0x80000000, .imulImm h0 .s32 false 1 2 3, .imadImm h0 .z32 false 1 2 3 4,
    .iminImm h0 .s32 1 2 3, .imaxImm h0 .z32 1 2 3, .andImm h0 1 2 3, .orImm h0 1 2 3, .xorImm h0 1 2 3, .andnImm h0 1 2 3],
    ∃ c, Issues i ready c := all_issue (by decide +kernel)

theorem witness_CompareAndPredicateResult : ∀ i ∈ [
    Instr.icmp h0 .lt .s32 95 2 (.imm 0xFF), .icmp h0 .ge .z64 1 2 (.reg 254), .pand h0 true false 1 2 3, .por h0 false true 0 95 1,
    .pxor h0 true true 1 1 1, .pnot h0 true 1 2, .pmov h0 false 0 1, .pset h0 64 1 32, .pset h0 0 1 1, .pget h0 1 95 1],
    ∃ c, Issues i ready c := all_issue (by decide +kernel)

theorem witness_ExchangeResult : ∀ i ∈ [
    Instr.qswap h0 .h 1 2, .qswap h0 .v 1 1, .qswap h0 .d 1 2, .qbcast h0 1 2 3, .gshfl h0 .idx 1 2 (.imm 31), .gshfl h0 .up 1 2 (.imm 1),
    .gshfl h0 .down 1 2 (.reg 3), .gshfl h0 .xor 1 2 (.imm 16)], ∃ c, Issues i ready c := all_issue (by decide +kernel)

theorem witness_ExchangeResult_view : ∃ c, Issues (.qswap h0 .h 1 2) ready c ∧ c.view = [] := issues_witness (by decide +kernel)

theorem witness_VoteAndReductionResult : ∀ i ∈ [
    Instr.gvote h0 .any 1 0, .gvote h0 .all 95 0, .gvote h0 .ballot 1 0, .gmatch h0 .b32 1 2, .gmatch h0 .b64 1 2, .gelect h0 1,
    .gredux h0 .add .s32 1 2, .gredux h0 .max .z32 1 2, .gredux h0 .xor .b32 1 2, .gscan h0 .min true .s32 1 2, .gscan h0 .and false .b32 1 2],
    ∃ c, Issues i ready c := all_issue (by decide +kernel)

theorem witness_SpecialRegisterResult_reads : ∀ i ∈ [
    Instr.sregGet h0 1 0x00, .sregGet h0 1 0x01, .sregGet h0 1 0x02, .sregGet h0 1 0x03, .sregGet h0 1 0x04, .sregGet h0 1 0x05, .sregGet h0 1 0x06,
    .sregGet h0 1 0x07, .sregGet h0 1 0x08, .sregGet h0 1 0x09, .sregGet h0 2 0x0A, .sregGet h0 1 0x0B, .sregGet h0 1 0x0C, .sregGet h0 1 0x0D,
    .sregGet h0 1 0x0E, .sregGet h0 1 0x0F, .sregGet h0 2 0x10, .sregGet h0 2 0x11, .sregGet h0 2 0x12, .sregGet h0 1 0x13, .sregGet h0 1 0x14,
    .sregGet h0 1 0x15, .rdtime h0 false 2, .rdtime h0 true 254, .nop h0, .nopWidened ⟨0, false, true⟩, .pref h0 .tlb 2 0x7FF],
    ∃ c, Issues i ready c := all_issue (by decide +kernel)

/-- Lanes whose v4 is a value at the edge of what each register takes, and one just past it. -/
theorem witness_SpecialRegisterResult_writes :
    (∃ c, Issues (.sregSet h0 4 0x0A) ready c) ∧ (∃ c, Issues (.sregSet h1 4 0x0E) ready c ∧ realActs (.sregSet h1 4 0x0E) ready c = 0) ∧
    (∀ p ∈ [(0x0B, 2#32), (0x0B, 3), (0x0C, 3), (0x0C, 4), (0x0D, 255), (0x0D, 256), (0x0E, 255), (0x0E, 256), (0x15, 0x1D), (0x15, 2), (0x00, 0), (0x14, 0)],
      ∃ c, Issues (.sregSet h0 4 (BitVec.ofNat 8 p.1)) (withRegs [(4, p.2)] ready) c ∧
        Mask.lowest (realActs (.sregSet h0 4 (BitVec.ofNat 8 p.1)) (withRegs [(4, p.2)] ready) c) = some 0 ∧
        c.v (withRegs [(4, p.2)] ready) 0 4 = p.2) ∧ Config.hasNbv 2 = true := by
  refine ⟨?_, issues_witness (by decide +kernel), ?_, by decide⟩
  · exact all_issue (l := [.sregSet h0 4 0x0A]) (by decide +kernel) _ (by simp)
  · intro p hp
    simp only [List.mem_cons, List.not_mem_nil, or_false] at hp
    rcases hp with rfl | rfl | rfl | rfl | rfl | rfl | rfl | rfl | rfl | rfl | rfl | rfl <;> exact issues_witness (by decide +kernel)

theorem witness_AddressCastResult : ∀ i ∈ [
    Instr.spt h0 1 2, .spc h0 .g false 2 1 4, .spc h0 .s false 2 1 4, .spc h0 .p true 2 95 4, .spc h0 .c true 1 0 254, .spc h0 .g true 2 1 4],
    ∃ c, Issues i ready c := all_issue (by decide +kernel)

theorem witness_FloatArithmeticResult : ∀ i ∈ [
    Instr.fadd h0 .rne false 1 2 3, .fsub h0 .rtz true 1 1 1, .fmul h0 .rpi false 1 2 3, .ffma h0 .rni true 1 2 3 4], ∃ c, Issues i ready c :=
  all_issue (by decide +kernel)

theorem witness_FloatOrderAndScaleResult : ∀ i ∈ [
    Instr.fmin h0 true 1 2 3, .fmax h0 false 1 2 3, .fcmp h0 .nan true 1 2 3, .fclass h0 .e4m3 1 2, .fclass h0 .f32 1 2, .fsign h0 .copy 1 2 3,
    .fsign h0 .neg 1 2 3, .fsign h0 .xor 1 2 3, .frnd h0 .rpi true 1 2, .fscale h0 .rne false 1 2 3], ∃ c, Issues i ready c :=
  all_issue (by decide +kernel)

theorem witness_PackedAndDotResult : ∀ i ∈ [
    Instr.hadd2 h0 .rne false 1 2 3, .badd2 h0 .rtz true 1 2 3, .hmul2 h0 .rne false 1 2 3, .bmul2 h0 .rne false 1 2 3, .hfma2 h0 .rne false 1 2 3 4,
    .bfma2 h0 .rne false 1 2 3 4, .fdot2 h0 .rne false 1 2 3 4, .bdot2 h0 .rne false 1 2 3 4, .qdot4 h0 .e4m3 .rne true false 1 2 3 4,
    .qdot4 h0 .e5m2 .rni false false 1 2 3 4, .qdot4 h0 .s8 .rne false true 1 2 3 4, .qdot4 h0 .z8 .rne false false 1 2 3 4],
    ∃ c, Issues i ready c := all_issue (by decide +kernel)

theorem witness_ConversionResult : ∀ i ∈ [
    Instr.fcvt h0 .e4m3 .f32 .rne false false true 1 2, .fcvt h0 .f16 .f16 .rtz true true false 1 2, .fcvtSr h0 .bf16 .f32 false false false 1 2 3,
    .fpack h0 .e5m2 .rne false true false 1 2 3, .fpack h0 .f16 .rne false false false 1 2 3, .funpack h0 .e4m3 false 2 1 1, .funpack h0 .bf16 true 2 1 0,
    .fcvti h0 .s32 .f32 .rtz false 1 2, .fcvti h0 .z64 .f16 .rne true 2 4, .icvtf h0 .bf16 .z32 .rne false 1 2, .icvtf h0 .f32 .s64 .rpi false 1 2,
    .fbmax h0 .ds8 false 1 2 3, .fbmax h0 .e4m3 true 1 2 3, .ds8enc h0 false 1 2 3, .ds8dec h0 .rne false 1 2 3 3], ∃ c, Issues i ready c :=
  all_issue (by decide +kernel)

theorem witness_SpecialFunctionStarts : ∀ i ∈ [
    Instr.frcp h0 false 0 1 2, .frsq h0 true 15 1 2, .fsqrt h0 false 1 1 1, .fexp2 h0 true 4 8 1, .flog2 h0 false 0 1 2, .fsin h0 false 0 1 2,
    .fcos h0 true 0 1 2, .ftanh h0 false 0 1 2, .fsigm h0 false 0 1 2], ∃ c, Issues i ready c := all_issue (by decide +kernel)


/-! Control flow, waits, memory. -/

/-- A stack pointer below the top of private space, with the return address 0x40008 stored there by each lane. -/
def withStack (s : State) : State :=
  withLanes (fun _ ln => { ln with csp := ln.csp - 8 })
    (withBytes 541064960 ((List.replicate 32 (natBytes 4 0x40008)).flatten ++ natBytes 128 0) (withPriv s))

theorem witness_BranchAndCallResult :
    (∃ c, Issues (.bra h0 0xFFFFFFFC) ready c ∧ codeAddr (c.ipc + (0xFFFFFFFC#32).signExtend 64)) ∧
    (∃ c, Issues (.bra h0 2) ready c ∧ contributors (.bra h0 2) ready c ≠ 0 ∧ ¬codeAddr (c.ipc + (2#32).signExtend 64)) ∧
    (∃ c, Issues (.brx h0 4) ready c ∧ ∀ l < 32, codeAddr (c.pair ready l 4)) ∧
    (∃ c, Issues (.call h0 0x40) (withPriv ready) c ∧ (withPriv ready).stuck = none ∧ ∀ l < 32, codeAddr (c.ipc + (0x40#32).signExtend 64) ∧
      8 ≤ (c.g.lane l).csp.toNat % 2 ^ 32 ∧ stackSlot c.l.k.priv ((c.g.lane l).csp - 8) ∧
      slotOk c (withPriv ready) l ((c.g.lane l).csp - 8) .write = true) ∧
    (∃ c, Issues (.callx h0 4) (withPriv ready) c ∧ ∀ l < 32, codeAddr (c.pair (withPriv ready) l 4)) ∧
    (∃ c, Issues (.ret h0) (withStack ready) c ∧ (withStack ready).stuck = none ∧ ∀ l < 32, stackSlot c.l.k.priv (c.g.lane l).csp ∧
      slotOk c (withStack ready) l (c.g.lane l).csp .read = true ∧ c.retAddr (withStack ready) l = 0x40008#64) := by
  unfold codeAddr stackSlot
  exact ⟨issues_witness (by decide +kernel), issues_witness (by decide +kernel), issues_witness (by decide +kernel),
    issues_witness (by decide +kernel), issues_witness (by decide +kernel), issues_witness (by decide +kernel)⟩

/-- A path at 0x40014, whose next instruction would stand where a fill word does (R146). -/
def atFill : State := withLanes (fun _ ln => { ln with pc := 0x40014 }) (withBytes 0x4001C (natBytes 4 3) ready)

theorem witness_BranchAndCallResult_slots :
    (∃ c, Issues (.call h0 0x40) (withBytes 0x40018 (natBytes 4 0) ready) c ∧
      ¬((c.ipc + dwordOf (Instr.call h0 0x40).len).toNat % 32 = 28)) ∧
    (∃ c, Issues (.callx h0 4) atFill c ∧ (c.ipc + dwordOf (Instr.callx h0 4).len).toNat % 32 = 28 ∧
      atFill.fetch c.part c.t.core c.l.start (c.ipc + dwordOf (Instr.callx h0 4).len) = .fill) ∧
    (∃ c, Issues (.ret h0) (withStack ready) c ∧ 31 < c.g.lanes.length ∧ (withStack ready).stackFails 541064960 = false ∧
      (withStack ready).translate c.part c.t.core .read (Config.privRegion + 128 * ((c.g.lane 0).csp.toNat % 2 ^ 32 / 4)) = .mem 541064960 2049) ∧
    (∃ c, Issues (.call h0 0x40) (withPriv ready) c ∧ (withPriv ready).stackFails 541064960 = false ∧
      (withPriv ready).translate c.part c.t.core .write (Config.privRegion + 128 * (((c.g.lane 0).csp - 8).toNat % 2 ^ 32 / 4)) = .mem 541064960 2049) :=
  ⟨issues_witness (by decide +kernel), issues_witness (by decide +kernel), issues_witness (by decide +kernel), issues_witness (by decide +kernel)⟩

theorem witness_RejoinAndSyncResult_exit : ∃ c, Issues (.exit h1) (half ready) c ∧ (∀ k < 8, atD c.g.records k none = none) ∧ c.g.gsync = none ∧
    c.active (.exit h1) (half ready) = 0xFFFF#32 ∧ c.g.live &&& ~~~leaving c.g (c.active (.exit h1) (half ready)) ≠ 0 :=
  issues_witness (by decide +kernel)

theorem witness_RejoinAndSyncResult : ∀ i ∈ [
    Instr.rejoinArm h0 true 0 7, .rejoinArm h1 false 4 0, .rejoin h0 3, .gsync h0 true 0, .gsync h1 false 4, .yield h0], ∃ c, Issues i (half ready) c :=
  all_issue (by decide +kernel)

/-- Records and gsync instances that complete, and that do not. -/
theorem witness_RejoinAndSyncResult_waits :
    let done := withGroup (fun g => { g with records := setAt g.records 7 (some 3#32) })
      (withLanes (fun l ln => if l < 2 then { ln with lst := .waitRejoin 7 } else ln) ready)
    let half := withGroup (fun g => { g with records := setAt g.records 0 (some 3#32) })
      (withLanes (fun l ln => if l < 1 then { ln with lst := .waitRejoin 0 } else ln) ready)
    let sync := withGroup (fun g => { g with gsync := some ⟨3, 3, 3⟩ })
      (withLanes (fun l ln => if l < 2 then { ln with lst := .waitSync } else ln) ready)
    let late := withGroup (fun g => { g with gsync := some ⟨3, 7, 7⟩ })
      (withLanes (fun l ln => if l < 2 then { ln with lst := .waitSync } else ln) ready)
    (∃ g, done.group? 0 = some g ∧ atD g.records 7 none = some 3#32 ∧ ∀ l < 32, (3#32).getLsbD l = true → (g.lane l).lst = .waitRejoin 7) ∧
    (∃ g, half.group? 0 = some g ∧ atD g.records 0 none = some 3#32 ∧ (3#32).getLsbD 1 = true ∧ (g.lane 1).lst ≠ .waitRejoin 0) ∧
    (∃ g x, sync.group? 0 = some g ∧ g.gsync = some x ∧ x.u &&& ~~~(x.r ||| ~~~g.live) = 0) ∧
    (∃ g x, late.group? 0 = some g ∧ g.gsync = some x ∧ x.u &&& ~~~(x.r ||| ~~~g.live) ≠ 0) :=
  ⟨⟨_, rfl, by decide +kernel⟩, ⟨_, rfl, by decide +kernel⟩, ⟨_, _, rfl, rfl, by decide +kernel⟩, ⟨_, _, rfl, rfl, by decide +kernel⟩⟩

/-- Every space, and the last bytes of private space and of the team's scratchpad (R207, R208). -/
def memReady : State := withRegs [(4, 0x100#32), (5, 0#32), (6, 131056#32), (8, 262128#32)] (withScratch (withPriv ready))

/-- The lanes of a load or store reach their places: what the checks answer, and that each place is near. -/
def allNear (s : State) (w : Nat) (f : Nat → Chk) : Prop := ∀ l < 32, nearOk s w (f l) = true

theorem witness_LoadAndStoreResult_loads : memReady.stuck = none ∧ memReady.cacheBanks 0 = [] ∧
    (∃ c, Issues (.ld h0 ⟨.b128, 12, 4, 0, false, false, 15⟩) memReady c ∧ c.cl = 0 ∧
      allNear memReady 16 fun l => c.check memReady l .gen (c.addr memReady l .gen 4 0) 16 .read false false false) ∧
    (∃ c, Issues (.ldG h0 ⟨.s8, 12, 4, 0xFFF, false, true, 0⟩) memReady c ∧
      allNear memReady 1 fun l => c.check memReady l .g (c.addr memReady l .g 4 0xFFF) 1 .read false false false) ∧
    (∃ c, Issues (.ldS h0 ⟨.b128, 12, 8, 0, false, false, 2⟩) memReady c ∧
      allNear memReady 16 fun l => c.check memReady l .s (c.addr memReady l .s 8 0) 16 .read false false false) ∧
    (∃ c, Issues (.ldC h0 ⟨.z16, 12, 8, 0, false, false, 2⟩) memReady c ∧
      allNear memReady 2 fun l => c.check memReady l .c (c.addr memReady l .c 8 0) 2 .read false false false) ∧
    (∃ c, Issues (.ldP h0 ⟨.b64, 12, 6, 8, false, false, 2⟩) memReady c ∧
      allNear memReady 8 fun l => c.check memReady l .p (c.addr memReady l .p 6 8) 8 .read false false true) := by
  unfold allNear
  exact ⟨rfl, by decide +kernel, issues_witness (by decide +kernel), issues_witness (by decide +kernel), issues_witness (by decide +kernel),
    issues_witness (by decide +kernel), issues_witness (by decide +kernel)⟩

theorem witness_LoadAndStoreResult_stores :
    (∃ c, Issues (.st h0 ⟨.b128, 12, 4, 0⟩ 0) memReady c ∧ allNear memReady 16 (c.storeChk memReady .gen ⟨.b128, 12, 4, 0⟩ 0)) ∧
    (∃ c, Issues (.stG h0 ⟨.b8, 12, 4, 0x7FF⟩) memReady c ∧ allNear memReady 1 (c.storeChk memReady .g ⟨.b8, 12, 4, 0x7FF⟩ 0)) ∧
    (∃ c, Issues (.stS h0 ⟨.b32, 12, 8, 12⟩) memReady c ∧ allNear memReady 4 (c.storeChk memReady .s ⟨.b32, 12, 8, 12⟩ 0)) ∧
    (∃ c, Issues (.stC h0 ⟨.b16, 12, 8, 14⟩) memReady c ∧ allNear memReady 2 (c.storeChk memReady .c ⟨.b16, 12, 8, 14⟩ 0)) ∧
    (∃ c, Issues (.stP h0 ⟨.b64, 12, 6, 8⟩) memReady c ∧ allNear memReady 8 (c.storeChk memReady .p ⟨.b64, 12, 6, 8⟩ 0)) := by
  unfold allNear
  exact ⟨issues_witness (by decide +kernel), issues_witness (by decide +kernel), issues_witness (by decide +kernel),
    issues_witness (by decide +kernel), issues_witness (by decide +kernel)⟩

theorem witness_AtomicAndReduceResult : memReady.stuck = none ∧ (∀ i ∈ [
    Instr.atomAdd h0 .s32 0 1 4 2, .atomMin h0 .z64 15 2 4 6, .atomMax h0 .s32 0 1 4 2, .atomAnd h0 .b32 0 1 4 2, .atomOr h0 .b64 0 2 4 6,
    .atomXor h0 .b32 0 1 4 2, .atomExch h0 .b64 0 2 4 6, .atomCas h0 .b32 0 1 4 2 3, .atomFadd h0 .f32 0 1 4 2, .atomInc h0 .z32 0 1 4 2,
    .red h0 .inc .z32 4 2], ∃ c, Issues i memReady c) ∧
    (∃ c, Issues (.atomAdd h0 .s64 0 2 4 6) memReady c ∧ allNear memReady 8 (c.atomChk memReady .s64 4)) ∧
    (∃ c, Issues (.red h0 .fadd .f32 4 6) memReady c ∧ allNear memReady 4 (c.atomChk memReady .f32 4)) := by
  unfold allNear
  exact ⟨rfl, all_issue (by decide +kernel), issues_witness (by decide +kernel), issues_witness (by decide +kernel)⟩

/-- A lane with no access open, and one with a store that is not performed. -/
theorem witness_FenceAndWarmResult :
    let open_ : State := { ready with stores := [⟨0, .lane 0 5⟩] }
    (∃ c, Issues (.fence h0 .domain) ready c ∧ ready.stores = [] ∧ ready.remotes = [] ∧ c.g.pend = []) ∧
    (∃ c, Issues (.fence h0 .core) open_ c ∧ (c.active (.fence h0 .core) open_).getLsbD 5 = true ∧ ⟨0, .lane 0 5⟩ ∈ open_.stores) ∧
    (∃ c, Issues (.xlatePf h0 4 0x7FF) memReady c ∧ memReady.stuck = none ∧
      ∀ l < 32, memReady.translate c.part c.t.core .read (c.pair memReady l 4 + (0x7FF#12).signExtend 64).toNat = .mem 0x8FF 2049) ∧
    (∃ c, Issues (.pref h0 .tlb 4 0x800) memReady c) :=
  ⟨issues_witness (by decide +kernel), issues_witness (by decide +kernel), issues_witness (by decide +kernel),
    all_issue (l := [.pref h0 .tlb 4 0x800]) (by decide +kernel) _ (by simp)⟩


/-! The hashed grid, channels, banks. -/

def gridLoad : State := one (gridAt 0 ready)

/-- Descriptors that are accepted, with the registers that they ask for. -/
def gridTaken (c : Ctx) (s : State) (l : Nat) (b : Reg) (top a d n : Nat) : Bool :=
  match c.hgUse s l b top with
  | .inr h => decide (a + h.d ≤ 32 * c.g.nb ∧ a + h.d ≤ 256 ∧ d + h.f * n ≤ 32 * c.g.nb ∧ d + h.f * n ≤ 256)
  | .inl _ => false

theorem witness_GridResult_loads : gridLoad.stuck = none ∧
    (∃ c, Issues (.hgCorner h1 12 10 4 11 0) gridLoad c ∧ c.active (.hgCorner h1 12 10 4 11 0) gridLoad = 1#32 ∧ gridTaken c gridLoad 0 4 1 10 0 0 = true) ∧
    (∃ c, Issues (.hgLoad h1 3 255 10 4 0 0) gridLoad c ∧ gridTaken c gridLoad 0 4 1 10 255 1 = true ∧
      (match c.hgUse gridLoad 0 4 1 with
        | .inr g => (c.hgAddrs gridLoad 0 10 g 0 1).all fun a => nearOk gridLoad 4 (c.gridChk gridLoad a 4 .read)
        | .inl _ => false) = true) :=
  ⟨by decide +kernel, issues_witness (by decide +kernel), issues_witness (by decide +kernel)⟩

theorem witness_GridResult_scatters :
    (∃ c, Issues (.hgGrad h1 12 10 4 0 0) gridLoad c ∧ gridTaken c gridLoad 0 4 1 10 12 1 = true ∧
      (match c.hgGet gridLoad 4 1 0 with
        | some g => !g.detscat && (c.hgEmit gridLoad 10 12 g 0 1 0).all fun y =>
            nearOk gridLoad 4 (c.gridChk gridLoad (g.gradAddr y.1) 4 .write)
        | none => false) = true) ∧
    (∃ c, Issues (.hgGrad h1 12 10 4 0 0) gridStage c ∧
      (match c.hgGet gridStage 4 1 0 with
        | some g => g.detscat && (c.hgAppend gridStage g (c.hgEmit gridStage 10 12 g 0 1 0)).isSome
        | none => false) = true ∧
      ∀ all ∈ [false, true], gridStage.scratchPark (c.hgStage gridStage 10 12
        (c.hgGet gridStage 4 1) 0 1 all (Mask.lanes (realActs (.hgGrad h1 12 10 4 0 0) gridStage c))) = .none) :=
  ⟨issues_witness (by decide +kernel), issues_witness (by decide +kernel)⟩

/-- The team has channel 2, with 4-byte slots, and its bank is ON. -/
def withChan (slots : Nat) (q : List (List Word)) (s : State) : State :=
  withTeam (fun t => { t with chans := [(2, ⟨slots, 4, q, 0⟩)], chanBanks := [3] })
    (s.setBank 3 { Bank.reset with mode := .fifo, owner := .chan 0 2, pwr := .on })

def chanFree : State := withChan 4 [] (one ready)
def chanFull : State := withChan 1 [[7]] (one ready)

theorem witness_ChannelResult :
    (∃ c, Issues (.chanProbe h0 2 1) chanFull c ∧ (SMap.find c.t.chans 2).isSome = true) ∧
    (∃ c, Issues (.chanSend h1 2 6 255 1) chanFree c ∧ (c.v chanFree 0 6).toNat < c.l.teams ∧ c.sendReady chanFree 2 1 6 = true ∧
      c.sendAsleep chanFree 2 1 6 = []) ∧
    (∃ c, Issues (.chanSend h1 2 6 255 1) chanFull c ∧ (c.v chanFull 0 6).toNat < c.l.teams ∧ c.sendReady chanFull 2 1 6 = false) ∧
    (∃ c, Issues (.chanRecv h1 2 255) chanFull c ∧ realActs (.chanRecv h1 2 255) chanFull c = 1#32 ∧
      (∀ y ∈ chanFull.instBanks c.tuid 2, (chanFull.bank y).pwr = .on)) ∧
    (∃ c, Issues (.chanRecv h1 2 255) chanFree c ∧ realActs (.chanRecv h1 2 255) chanFree c = 1#32) :=
  ⟨issues_witness (by decide +kernel), issues_witness (by decide +kernel), issues_witness (by decide +kernel), issues_witness (by decide +kernel),
    issues_witness (by decide +kernel)⟩

theorem witness_ChannelResult_deliveries :
    (∃ g, (waits (.chanSend (.chanSend h1 2 6 255 1) 1) chanFree).group? 0 = some g ∧ g.park = .chanSend (.chanSend h1 2 6 255 1) 1 ∧
      waitingPath g 1 = 0xFFFFFFFF#32) ∧
    (∃ t, (waits (.chanSend (.chanSend h1 2 6 255 1) 1) chanFree).team? 0 = some t ∧ t.tst = .resident) ∧
    (∃ c, chanFree.ctxFor 0 0xFFFFFFFF#32 = some c ∧ c.sendReady chanFree 2 1 6 = true ∧ c.sendAsleep chanFree 2 1 6 = []) ∧
    (∃ c, chanFull.ctxFor 0 0xFFFFFFFF#32 = some c ∧ c.sendReady chanFull 2 1 6 = false) ∧
    (∃ c, chanFull.ctxFor 0 0xFFFFFFFF#32 = some c ∧ Mask.count 1 ≤ (c.t.inst 2).q.length ∧
      ∀ y ∈ chanFull.instBanks c.tuid 2, (chanFull.bank y).pwr = .on) ∧
    (∃ c, chanFree.ctxFor 0 0xFFFFFFFF#32 = some c ∧ (c.t.inst 2).q.length < Mask.count 1) :=
  ⟨group_witness (by decide +kernel), team_witness (by decide +kernel), ctx_witness (by decide +kernel), ctx_witness (by decide +kernel),
    ctx_witness (by decide +kernel), ctx_witness (by decide +kernel)⟩

/-- The team's own FIFO bank 5, with some elements. -/
def withFifo (q : List Word) (s : State) : State :=
  s.setBank 5 { Bank.reset with mode := .fifo, owner := .team 0, pwr := .on, fifo := q }

def fifoReady : State := withRegs [(6, 5#32)] (withFifo [9] ready)

theorem witness_FifoAndContextResult :
    (∃ c, Issues (.fifoPush h0 1 6 7 2) fifoReady c ∧ c.fifoAsleep fifoReady (realActs (.fifoPush h0 1 6 7 2) fifoReady c) 6 = []) ∧
    (∃ c, Issues (.fifoPop h0 1 6 2) fifoReady c ∧ c.fifoAsleep fifoReady (realActs (.fifoPop h0 1 6 2) fifoReady c) 6 = [] ∧ (c.v fifoReady 0 6).toNat = 5 ∧
      (fifoReady.bank (64 * c.cl + 5)).transit = none ∧ (fifoReady.bank (64 * c.cl + 5)).mode = .fifo ∧ (fifoReady.bank (64 * c.cl + 5)).owner = .team c.tuid ∧
      (fifoReady.bank (64 * c.cl + 5)).fifo = [9]) ∧
    (withFifo [] ready).bank 5 = { Bank.reset with mode := .fifo, owner := .team 0, pwr := .on } ∧
    ∃ c, Issues (.sctxGet h0 252) fifoReady c :=
  ⟨issues_witness (by decide +kernel), issues_witness (by decide +kernel), by decide +kernel,
    all_issue (l := [.sctxGet h0 252]) (by decide +kernel) _ (by simp)⟩

def bankReady : State := withRegs [(6, 63#32)] ready
def bankMoving : State := bankReady.setBank 63 { Bank.reset with transit := some ⟨.scratch, 0, 0, 0, 0⟩ }

/-- Every bank of the cluster belongs to an H team with a channel, from which nothing can be reclaimed. -/
def bankWaits : State :=
  { (span 0 64).foldl (fun s b => s.setBank b { Bank.reset with mode := .scratch, owner := .team 1, pwr := .on }) bankReady with
    launches := [(0, fetchLaunch 0), (1, { fetchLaunch 0 with classH := true })]
    teams := [(0, fetchTeam), (1, { fetchTeam with launch := 1, core := 1, chans := [(2, ⟨4, 4, [], 0⟩)] })] }

theorem witness_BankModeResult :
    (∃ c, Issues (.bankMode h0 4 2 1 6 2) bankReady c ∧ modeOf 2 = some .scratch ∧ (c.v bankReady 31 6).toNat = 63 ∧ (bankReady.bank (64 * c.cl + 63)).transit = none ∧
      bankReady.bringUp (64 * c.cl + 63) = false ∧ (bankReady.bank (64 * c.cl + 63)).mode = .pool ∧ (bankReady.bank (64 * c.cl + 63)).owner = .none ∧
      (bankReady.bank (64 * c.cl + 63)).lines = [] ∧ bankReady.ownCount c.tuid < 32) ∧
    (∃ c, Issues (.bankMode h0 4 2 1 6 2) bankReady c ∧
      ((Mask.lanes (c.active (.bankMode h0 4 2 1 6 2) bankReady)).foldl (c.modeLane 4 .scratch 1 6 2 bankReady) (some (bankReady, []))).isSome = true) ∧
    (∃ c, Issues (.bankMode h0 4 2 1 6 2) bankWaits c ∧
      ((Mask.lanes (c.active (.bankMode h0 4 2 1 6 2) bankWaits)).foldl (c.modeLane 4 .scratch 1 6 2 bankWaits) (some (bankWaits, []))).isSome = false) ∧
    (bankMoving.bank 63).transit = some ⟨.scratch, 0, 0, 0, 0⟩ ∧ ∃ t, bankMoving.team? 0 = some t ∧ t.tst ≠ .done :=
  ⟨issues_witness (by decide +kernel), issues_witness (by decide +kernel), issues_witness (by decide +kernel), by decide +kernel,
    team_witness (by decide +kernel)⟩


/-! Matrix instructions. -/

/-- An operation of Anvil keeps slot 3 of the group busy. -/
def busy : State := ready.startOp 0 0 (some 3) false 1 false (.known []) []

theorem witness_MatrixMultiplyResult_latch : ∀ i ∈ [
    Instr.mmaF16 h0 ⟨1, 4, 0, 5, ⟨8, 7, true⟩, 0, 0, true, true, false, true, false, false, false⟩,
    .mmaBf16 h0 ⟨63, 252, 0, 5, ⟨0, 0, false⟩, 0, 0, false, false, false, false, true, false, false⟩,
    .mmaE4m3 h0 ⟨1, 4, 9, 5, ⟨0, 0, false⟩, 0, 3, false, false, true, false, false, false, false⟩,
    .mmaE5m2 h1 ⟨1, 4, 0, 5, ⟨0, 0, false⟩, 0, 0, false, false, false, false, false, false, false⟩,
    .mmaS8 h0 ⟨1, 4, 0, 5, ⟨0, 0, false⟩, 0, 0, false, false, false, false, false, true, true⟩,
    .mmaDs8 h0 ⟨1, 8, 9, 5, ⟨0, 0, false⟩, 0, 2, false, false, true, false, false, true, false⟩],
    ∃ c, Issues i (withRegs [(5, 128#32)] ready) c := all_issue (by decide +kernel)

/-- A group alone has latched `mma.bf16 a1, v4, [v5]`, whose B lies in the team's scratchpad. -/
def latchedMma : State :=
  withGroup (fun g => { g with
    park := .latch
    latch := some ⟨.mmaBf16 h0 ⟨1, 4, 0, 5, ⟨8, 1, true⟩, 0, 0, false, false, false, false, false, false, false⟩, 0x40000, some true, 0xFFFFFFFF, 0⟩ })
    (withScratch ready)

/-- Operation 0 of the team, done or not, and operation 1, which follows it. -/
def opsOf (done : Bool) : State :=
  (({ busy with fresh := 1 } : State).startOp 0 8 (some 4) false 1 false (.known []) []).updTeam 0 fun t =>
    { t with anvil := t.anvil.map fun (y : AnvilOp) => if y.id = 0 then { y with done := done } else y }

/-- Operation 1 of a team may complete. -/
def mayEnd (t : Team) : Bool :=
  match t.anvil.find? fun (z : AnvilOp) => z.id == 1 with
  | some y => !y.done && y.tags.isEmpty && settledCap y.cap && y.after == [0] && t.anvil.all fun (z : AnvilOp) => !y.after.contains z.id || z.done
  | none => false

theorem witness_MatrixMultiplyResult_completion :
    (∃ t, (opsOf true).team? 0 = some t ∧ mayEnd t = true) ∧ (∃ t, (opsOf false).team? 0 = some t ∧ mayEnd t = false) :=
  ⟨team_witness (by decide +kernel), team_witness (by decide +kernel)⟩

theorem witness_MatrixMultiplyResult_joint : latchedMma.jointCheck 0 = .go ∧
    (∃ g, latchedMma.group? 0 = some g ∧ g.gang = 0 ∧ g.areuse = none ∧ g.latch.isSome = true) ∧
    (∃ t, latchedMma.team? 0 = some t ∧ t.banks = [0, 1]) ∧ ∃ c, latchedMma.ctxFor 0 0xFFFFFFFF#32 = some c ∧ c.gk = 0 :=
  ⟨by decide +kernel, group_witness (by decide +kernel), team_witness (by decide +kernel), ctx_witness (by decide +kernel)⟩

/-- A tile-parameter block at 0x50000 (Table 10-6): every SRMASK bit, SAT and INF. -/
def tpbReady : State := withRegs [(8, 0x50000#32)] (withBytes 0x50000 ([6, 0, 31, 3] ++ natBytes 4 0x1234) ready)

theorem witness_AccumulatorResult :
    (∀ i ∈ [Instr.accZero h0 ⟨1, 2, true⟩ 0 64, .accMov h0 ⟨1, 2, true⟩ 63 63, .accAdd h0 ⟨1, 2, true⟩ 1 1 1, .accScale h0 ⟨1, 2, true⟩ 1 2 255,
      .accLd h0 ⟨1, 2, true⟩ .f32 1 248, .accLd h0 ⟨0, 0, false⟩ .f16 1 252, .accLd h0 ⟨0, 0, false⟩ .bf16 1 0, .accLd h0 ⟨0, 0, false⟩ .s32 1 8],
      ∃ c, Whole i busy c) ∧
    busy.slotsBusy 0 1 = false ∧ busy.slotsBusy 0 8 = true ∧ (∃ c, Whole (.accZero h0 ⟨8, 0, false⟩ 0 1) busy c) ∧
    (∀ i ∈ [Instr.accDrain h0 ⟨1, 2, true⟩ 15 .e4m3 false 254 63 0, .accDrain h0 ⟨1, 2, true⟩ 0 .s32 false 248 0 0,
      .accDrain h0 ⟨1, 2, true⟩ 0 .f16 true 4 1 8], ∃ c, Whole i tpbReady c) ∧ tpbReady.slotsBusy 0 1 = false ∧
    (∃ c, Issues (.accDrain h0 ⟨1, 2, true⟩ 0 .f16 true 4 1 8) tpbReady c ∧
      c.tpbRead tpbReady (c.lead.getD 0) 8 = .inr ⟨31, true, true, 0x1234, 0⟩) :=
  ⟨all_whole (by decide +kernel), by decide +kernel, by decide +kernel,
    all_whole (l := [.accZero h0 ⟨8, 0, false⟩ 0 1]) (by decide +kernel) _ (by simp), all_whole (by decide +kernel), by decide +kernel,
    issues_witness (by decide +kernel)⟩

/-- The last image of the scratchpad in v4:5, and one in memory in v6:7. -/
def spillReady : State := withRegs [(4, 260864#32), (5, 0xF1000000#32), (6, 0x50000#32)] (withScratch ready)

/-- All lines of an image lie in memory of this package. -/
def imageNear (x : Sum Chk Image5) (off : Nat) : Bool :=
  match x with
  | .inr (.scratch o) => o == off
  | .inr (.lines ts) => ts.length == 10 && ts.all fun t => match t with | .mem pa _ => decide (pa < hbmBytes) | _ => false
  | .inl _ => false

theorem witness_SpillAndFillResult : spillReady.slotsBusy 0 255 = false ∧
    (∀ i ∈ [Instr.accSpill h0 ⟨255, 7, true⟩ 4 63, .accFill h0 ⟨255, 7, true⟩ 63 6], ∃ c, Whole i spillReady c) ∧
    (∃ c, Issues (.accSpill h0 ⟨0, 0, false⟩ 4 0) spillReady c ∧ imageNear (c.imageChk spillReady (c.pair spillReady (c.lead.getD 0) 4) .write) 260864 = true ∧
      spillReady.scratchPark [(c.tuid, 260864, 1280)] = .none ∧ imageNear (c.imageChk spillReady (c.pair spillReady (c.lead.getD 0) 6) .write) 0 = true ∧
      imageNear (c.imageChk spillReady (c.pair spillReady (c.lead.getD 0) 6) .read) 0 = true ∧
      imageNear (c.imageChk spillReady (c.pair spillReady (c.lead.getD 0) 4) .read) 260864 = true) :=
  ⟨by decide +kernel, all_whole (by decide +kernel), issues_witness (by decide +kernel)⟩

/-- A spill that has started, to scratchpad and to memory. -/
def spilling (img : Image5) : State := spillReady.startOp 0 0 none false 1 false (.spill 0 0 0x40000 63 [] img false) []

theorem witness_SpillAndFillResult_completion : ∀ img ∈ [Image5.scratch 260864, .lines ((span 0 10).map fun i => .mem (0x50000 + 128 * i) 2049)],
    ∃ t, (spilling img).team? 0 = some t ∧ (match t.anvil.find? fun z => z.id == 0 with
      | some y => !y.done && y.tags.isEmpty && y.after.isEmpty && y.cap == .spill 0 0 0x40000 63 [] img false
      | none => false) = true := by
  intro img h
  simp only [List.mem_cons, List.not_mem_nil, or_false] at h
  rcases h with rfl | rfl <;> exact team_witness (by decide +kernel)

/-- A team of two groups. -/
def pair_ (p : Park) (m : Mask) : State :=
  { ready with
    groups := [(0, { newGroup (fetchLaunch 0) 0 0 with park := p, gang := m }), (1, { newGroup { fetchLaunch 0 with tsize := 64 } 0 1 with park := p, gang := m })]
    teams := [(0, { fetchTeam with groups := 2 })], launches := [(0, { fetchLaunch 0 with tsize := 64 })] }

theorem witness_GangAndSlotResult :
    (∃ c, Issues (.gangForm h0 4) (withRegs [(4, 3#32)] (pair_ .none 0)) c ∧ c.path = c.g.live ∧ c.v (withRegs [(4, 3#32)] (pair_ .none 0)) (c.lead.getD 0) 4 = 3 ∧
      Mask.count 3 ≤ c.l.k.gang ∧ (3#32).getLsbD (c.gk % 32) = true ∧ c.g.gang = 0 ∧ c.t.groups = 2 ∧
      (withRegs [(4, 3#32)] (pair_ .none 0)).formClash c.tuid 3 = []) ∧
    (∃ g, (pair_ .none 0).group? 1 = some g ∧ g.ended = false) ∧
    (pair_ (.gangForm 3 (.gangForm h0 4)) 0).formReady 0 3 = true ∧ (pair_ .none 0).formReady 0 3 = false ∧
    (∃ c, Whole (.gangBrk h0) (pair_ .none 0) c) ∧ (∃ c, Whole (.gangBrk h0) (pair_ .none 3) c) ∧ (pair_ .none 3).slotsBusy 0 255 = false ∧
    ((pair_ .none 3).startOp 0 0 (some 7) false 3 false (.known []) []).slotsBusy 0 255 = true ∧
    (∃ g, (pair_ .none 3).group? 1 = some g ∧ g.gang = 3 ∧ g.latch = none) ∧
    (∃ c, Issues (.dslotWait h1 8) busy c ∧ c.active (.dslotWait h1 8) busy = 0) ∧ (∃ c, Issues (.dslotWait h0 8) busy c ∧ c.active (.dslotWait h0 8) busy ≠ 0) ∧
    (∃ c, Issues (.dslotWait h0 1) busy c ∧ c.active (.dslotWait h0 1) busy ≠ 0 ∧ busy.slotsBusy c.gk 1 = false) :=
  ⟨issues_witness (by decide +kernel), group_witness (by decide +kernel), by decide +kernel, by decide +kernel,
    all_whole (l := [.gangBrk h0]) (by decide +kernel) _ (by simp), all_whole (l := [.gangBrk h0]) (by decide +kernel) _ (by simp),
    by decide +kernel, by decide +kernel, group_witness (by decide +kernel), issues_witness (by decide +kernel), issues_witness (by decide +kernel), issues_witness (by decide +kernel)⟩

/-! Barriers, events, mailboxes, timelines, guard slots. -/

/-- Lane 0 is recorded in the present and in the next phase of barrier 15 and of die barrier 3. -/
def twice : State := (ready.setBar .team 0 15 ⟨4, [(0, 1)], [(0, 1)], 0⟩).setBar .die 0 3 ⟨4, [(0, 1)], [(0, 1)], 0⟩

/-- Both phases have passed. -/
def passed_ : State := (ready.setBar .team 0 0 ⟨1, [], [], 0⟩).setBar .pkg 0 0 ⟨2147483648, [], [], 0⟩

theorem witness_BarrierResult :
    (∀ i ∈ [Instr.barArrive h0 1 15, .barWait h0 1 15, .barSync h0 0, .barDie h0 .arrive 1 0 3, .barDie h0 .sync 0 0 0, .barDie h0 .wait 0 1 0,
      .barPkg h0 .arrive 1 0 3, .barPkg h0 .wait 0 1 0, .barPkg h0 .sync 0 0 0], ∃ c, Issues i ready c) ∧
    (∃ c, Issues (.barSync h0 15) twice c ∧ c.l.k.spanbar = true ∧
      SMap.getD (twice.bar .team c.tuid 15).nxt c.gk 0#32 &&& c.active (.barSync h0 15) twice ≠ 0 ∧
      SMap.getD (twice.bar .die c.tuid 3).nxt c.gk 0#32 &&& c.active (.barSync h0 15) twice ≠ 0) ∧
    (∃ c, Issues (.barWait h0 1 0) passed_ c ∧ 1 ≤ (BitVec.ofNat 32 (passed_.bar .team c.tuid 0).phase - c.v passed_ 0 1).toNat ∧
      (BitVec.ofNat 32 (passed_.bar .pkg c.tuid 0).phase - c.v passed_ 0 1).toNat ≤ 2 ^ 31) ∧
    (∃ c, Issues (.barWait h0 1 0) ready c ∧ (BitVec.ofNat 32 (ready.bar .team c.tuid 0).phase - c.v ready 0 1).toNat = 0) :=
  ⟨all_issue (by decide +kernel), issues_witness (by decide +kernel), issues_witness (by decide +kernel), issues_witness (by decide +kernel)⟩

def noSpan : State := { ready with launches := [(0, { fetchLaunch 0 with k := { (fetchLaunch 0).k with spanbar := false } })] }

theorem witness_BarrierResult_trap : ∃ c, Issues (.barDie h0 .sync 0 0 0) noSpan c ∧ c.l.k.spanbar = false ∧ realActs (.barDie h0 .sync 0 0 0) noSpan c ≠ 0 :=
  issues_witness (by decide +kernel)

/-- An event-set record at 0x50000 (Table 11-2) with one mailbox entry, armed in several ways. -/
def eventReady (e : EvSt) (mask : BitVec 8) : State :=
  withGroup (fun g => { g with evs := setAt g.evs 7 ⟨e, .mbox 3, 0x40100⟩, evm := mask, armed := some 0x50000 })
    (withRegs [(4, 0x50000#32)] (withBytes 0x50040 [2, 3, 0, 0, 0, 0, 0, 0, 0, 1, 4] (withBytes 0x50000 [2, 0, 1] ready)))

theorem witness_EventResult :
    (∃ c, Issues (.evArm h0 4 255) (eventReady .disarmed 0) c ∧ c.path = c.g.live ∧
      c.evRead (eventReady .disarmed 0) (c.pair (eventReady .disarmed 0) (c.lead.getD 0) 4).toNat = .inr [⟨2, 3, 0, 0x40100⟩] ∧
      c.evRegBad ⟨2, 3, 0, 0x40100⟩ = false) ∧
    (∀ i ∈ [Instr.evMask h0 .wr 255, .evMask h1 .set 1, .evMask h0 .clr 0x80, .evClear h0 0x81], ∃ c, Issues i (eventReady .latched 0) c) ∧
    (∃ c, Issues (.wany h0 4) (eventReady .latched 0x7F) c ∧ c.path = c.g.live ∧ c.g.armed = some (c.pair (eventReady .latched 0x7F) (c.lead.getD 0) 4) ∧
      { c.g with evs := (eventReady .latched 0x7F).latched c.gk c.g }.firstEvent = some 7) ∧
    (∃ c, Issues (.wany h0 4) (eventReady .armed 0x7F) c ∧ { c.g with evs := (eventReady .armed 0x7F).latched c.gk c.g }.firstEvent = none ∧
      (atD ((eventReady .armed 0x7F).latched c.gk c.g) 7 EvEntry.reset).est = .armed ∧ c.g.evm.getLsbD 7 = false) ∧
    (∃ c, Issues (.wany h0 4) (eventReady .spent 0) c ∧ { c.g with evs := (eventReady .spent 0).latched c.gk c.g }.firstEvent = none ∧
      ∀ j < 8, (atD ((eventReady .spent 0).latched c.gk c.g) j EvEntry.reset).est ≠ .armed) :=
  ⟨issues_witness (by decide +kernel), all_issue (by decide +kernel), issues_witness (by decide +kernel), issues_witness (by decide +kernel),
    issues_witness (by decide +kernel)⟩

/-- A full slot 3, and a team that has ended. -/
def mailed : State := withGroup (fun g => { g with mbox := [none, none, none, some 7] }) (withRegs [(4, 0#32)] ready)
def overTeam : State := withTeam (fun t => { t with tst := .done }) mailed

theorem witness_MailboxResult :
    (∃ c, Issues (.mboxPost h0 3 1 4 5) mailed c ∧ (c.v mailed 0 4).toNat / 32 < c.l.teams ∧ (c.v mailed 0 4).toNat % 32 < c.l.groupsPer ∧
      (c.teamNum mailed 0).map (·.1) = some 0 ∧ atD c.g.mbox 3 none ≠ none ∧ atD c.g.mbox 0 none = none) ∧
    (∃ t, overTeam.team? 0 = some t ∧ t.tst = .done) ∧ (∃ c, Issues (.mboxRead h1 3 1 2) mailed c ∧ c.active (.mboxRead h1 3 1 2) mailed = 0) ∧
    (∃ c, Issues (.mboxRead h0 3 1 2) mailed c ∧ c.active (.mboxRead h0 3 1 2) mailed ≠ 0) :=
  ⟨issues_witness (by decide +kernel), team_witness (by decide +kernel), issues_witness (by decide +kernel), issues_witness (by decide +kernel)⟩

/-- Timeline 15 has reached 5; lanes ask for 5 in v4:5 and for 6 in v6:7. -/
def timed : State := withRegs [(4, 5#32), (6, 6#32)] (ready.setChan 15 { Chan.reset with value := 5, errNum := 4, doneNums := [7] })

theorem witness_TimelineAndGuardResult :
    (∃ c, Issues (.tlWait h0 4 15) timed c ∧ ∀ l < 32, (c.pair timed l 4).toNat ≤ (timed.chan (c.chanKey 15)).value) ∧
    (∃ c, Issues (.tlWait h0 6 15) timed c ∧ (c.active (.tlWait h0 6 15) timed).getLsbD 31 = true ∧
      (timed.chan (c.chanKey 15)).value < (c.pair timed 31 6).toNat) ∧
    (∀ i ∈ [Instr.tlRead h0 true 2 15, .tlRead h0 false 2 0, .tlTry h0 2 6 15 1], ∃ c, Issues i timed c) ∧
    (∃ c, Issues (.gslotSet h0 0 7) ready c ∧ Mask.lowest (realActs (.gslotSet h0 0 7) ready c) = some 0) ∧
    (∃ c, Issues (.gslotSet h1 0 7) ready c ∧ realActs (.gslotSet h1 0 7) ready c = 0) ∧ (∃ c, Issues (.gslotClr h0 7) ready c ∧ c.gk = 0) ∧
    (timed.chan 15).value + 1 ∉ (timed.chan 15).doneNums :=
  ⟨issues_witness (by decide +kernel), issues_witness (by decide +kernel), all_issue (by decide +kernel), issues_witness (by decide +kernel),
    issues_witness (by decide +kernel), issues_witness (by decide +kernel), by decide +kernel⟩


/-! System instructions, faults and results. -/

/-- v4 names a queue, and the partition's unit is changed; p1 holds in lane 0. -/
def queueing (q : Word) (f : Part → Part) : State := one (withRegs [(4, q)] (ready.setPart 0 (f (ready.part 0))))

/-- The launch is of class H; queue 63 is of class G. -/
def queueingH : State := { queueing 63 id with launches := [(0, { fetchLaunch 0 with classH := true })] }

/-- The store has its places reserved, and the tape has 63 records. -/
def stored (n : Nat) : State := queueing 63 fun x => { x with plsRes := n, tape := List.replicate 63 ⟨[], false, 1⟩ }

theorem witness_LaunchAndTapeResult :
    (∃ c, Issues (.launch h0 1 4 240 2) (queueing 64 id) c ∧ launchStatus c (queueing 64 id) ((c.v (queueing 64 id) 0 4).toNat % 65536) = 2) ∧
    (∃ c, Issues (.launch h1 1 4 16 2) queueingH c ∧ launchStatus c queueingH ((c.v queueingH 0 4).toNat % 65536) = 3) ∧
    (∃ c, Issues (.launch h1 1 4 16 2) (stored 4096) c ∧ launchStatus c (stored 4096) ((c.v (stored 4096) 0 4).toNat % 65536) = 1 ∧
      4096 ≤ ((stored 4096).part c.part).store.length + ((stored 4096).part c.part).plsRes) ∧
    (∃ c, Issues (.launch h1 1 4 16 2) (stored 4095) c ∧ launchStatus c (stored 4095) ((c.v (stored 4095) 0 4).toNat % 65536) = 0) ∧
    (stored 4095).stuck = none ∧ (∃ c, Issues (.tapePush h1 1 16 2) (stored 4095) c ∧ ((stored 4095).part c.part).tape.length = 63 ∧
      ¬(65600 ≤ ((stored 4095).part c.part).tape.length ∨ 4096 ≤ ((stored 4095).part c.part).store.length + ((stored 4095).part c.part).plsRes) ∧
      ((Mask.lanes (realActs (.tapePush h1 1 16 2) (stored 4095) c)).foldl (c.tapeLane 1 2 16 (stored 4095)) (stored 4095)).stuck = none) :=
  ⟨issues_witness (by decide +kernel), issues_witness (by decide +kernel), issues_witness (by decide +kernel), issues_witness (by decide +kernel),
    by decide +kernel, issues_witness (by decide +kernel)⟩

/-- A group with a number of banks, and held leave of class VW. -/
def budget (nb : Nat) : State := withGroup (fun g => { g with nb := nb, leaveHeld := 8 }) ready

theorem witness_LeaveAndBudgetResult :
    (∃ c, Issues (.leaveReq h0 .vw) (budget 8) c ∧ c.g.leaveHeld.getLsbD (leaveBit .vw) = true) ∧
    (∃ c, Issues (.leaveReq h1 .mx) (budget 8) c ∧ c.active (.leaveReq h1 .mx) (budget 8) = 0) ∧
    (∃ c, Issues (.leaveReq h0 .mx) (budget 8) c ∧ c.active (.leaveReq h0 .mx) (budget 8) ≠ 0 ∧ c.g.leaveHeld.getLsbD (leaveBit .mx) = false) ∧
    (∀ i ∈ [Instr.leaveRel h0 .vw, .leaveRel h1 .gs], ∃ c, Issues i (budget 8) c) ∧
    (∀ i ∈ [Instr.regsGrow h0 1 1, .regsShrink h0 7, .regsShrink h0 1], ∃ c, Whole i (budget 8) c) ∧ (∃ g, (budget 8).group? 0 = some g ∧ g.nb = 8) ∧
    (∃ c, Issues (.regsShrink h0 7) (budget 7) c ∧ c.path = c.g.live ∧ c.g.nb = 7) ∧
    (∃ c, Issues (.regsGrow h0 1 1) (budget 7) c ∧ c.path = c.g.live ∧ c.g.nb + 1 ≤ 8 ∧
      (((budget 7).updGroup c.gk fun g => { g with park := .grow 1 1 (.regsGrow h0 1 1) }).growStep c.t.core (c.gk % 32 % 4)).stuck = none) ∧
    (∃ g, (waits (.grow 1 1 (.regsGrow h0 1 1)) (budget 7)).group? 0 = some g ∧ g.park = .grow 1 1 (.regsGrow h0 1 1) ∧
      ∀ l < 32, l < g.lanes.length ∧ (g.lane l).live = true) ∧
    (waits (.grow 1 1 (.regsGrow h0 1 1)) (budget 7)).stuck = none :=
  ⟨issues_witness (by decide +kernel), issues_witness (by decide +kernel), issues_witness (by decide +kernel), all_issue (by decide +kernel),
    all_whole (by decide +kernel), group_witness (by decide +kernel), issues_witness (by decide +kernel), issues_witness (by decide +kernel),
    group_witness (by decide +kernel), by decide +kernel⟩

/-- A group inside some regions. -/
def inRegions (n : Nat) : State := withGroup (fun g => { g with regions := List.replicate n 0x40000 }) ready

theorem witness_RegionResult :
    (∃ c, Issues (.regionBegin h0) (inRegions 3) c ∧ c.path = c.g.live ∧ c.active (.regionBegin h0) (inRegions 3) = c.path ∧ c.g.regions.length < c.l.k.region) ∧
    (∃ c, Issues (.regionBegin h0) (inRegions 4) c ∧ c.path = c.g.live ∧ c.active (.regionBegin h0) (inRegions 4) = c.path ∧ c.l.k.region ≤ c.g.regions.length) ∧
    (∃ c, Issues (.regionEnd h0) (inRegions 2) c ∧ c.path = c.g.live ∧ c.active (.regionEnd h0) (inRegions 2) = c.path ∧
      c.g.regions = [0x40000, 0x40000]) ∧
    (∃ c, Issues (.regionEnd h0) (inRegions 1) c ∧ c.path = c.g.live ∧ c.active (.regionEnd h0) (inRegions 1) = c.path ∧ c.g.regions = [0x40000] ∧
      ((inRegions 1).updGroup c.gk fun g => { g with regions := [], closing := none }).stagedOf c.gk = [] ∧
      (c.moveTo (fun _ pc => pc + 8#64) ((((inRegions 1).updGroup c.gk fun g => { g with regions := [], closing := none }).applyGroupStaged
        c.gk).lowerRegions c.gk 0)).stuck = none) ∧
    (∃ c, Issues (.regionEnd h0) (inRegions 0) c ∧ c.path = c.g.live ∧ c.active (.regionEnd h0) (inRegions 0) = c.path ∧ c.g.regions = []) ∧
    (inRegions 0).stuck = none :=
  ⟨issues_witness (by decide +kernel), issues_witness (by decide +kernel), issues_witness (by decide +kernel), issues_witness (by decide +kernel),
    issues_witness (by decide +kernel), by decide +kernel⟩

/-- A debugger is attached, and the group has a return address. -/
def debugged : State := withGroup (fun g => { g with retAddr := some 0x40010 }) (ready.setPart 0 { ready.part 0 with debugger := true })

theorem witness_TrapAndReturnResult :
    (∃ c, Issues (.trap h0 255) ready c ∧ realActs (.trap h0 255) ready c ≠ 0) ∧
    (∃ c, Issues (.trap h1 0) ready c ∧ realActs (.trap h1 0) ready c = 0) ∧
    (∃ c, Issues (.brk h0 0) ready c ∧ (ready.part c.l.part).debugger = false) ∧
    (∃ c, Issues (.brk h0 0) debugged c ∧ (debugged.part c.l.part).debugger = true ∧ c.active (.brk h0 0) debugged ≠ 0) ∧
    (∃ c, Issues (.xret h0) debugged c ∧ c.path = c.g.live ∧ c.active (.xret h0) debugged = c.path ∧ c.g.retAddr = some 0x40010) ∧
    (∃ c, Issues (.xret h0) ready c ∧ c.path = c.g.live ∧ c.active (.xret h0) ready = c.path ∧ c.g.retAddr = none) :=
  ⟨issues_witness (by decide +kernel), issues_witness (by decide +kernel), issues_witness (by decide +kernel), issues_witness (by decide +kernel),
    issues_witness (by decide +kernel), issues_witness (by decide +kernel)⟩

/-- The fault ring of partition 0: of 64 entries, with some posted. -/
def ringed (tail : Nat) : State := ready.setPart 0 { ready.part 0 with fqEn := true, fqLog2n := 6, fqTail := tail, fqBase := 0x60000 }

theorem witness_FaultEntryResult :
    Cause.pageFault.cls = .replay ∧ Cause.trap.cls = .stop ∧ (∃ g, ready.group? 0 = some g ∧ g.ended = false) ∧
    (∃ t, ready.team? (0 / 32) = some t ∧ (ready.launch? t.launch).isSome = true) ∧ (ready.part 0).fqEn = false ∧
    ((ringed 63).part 0).wantPost = [] ∧ ((ringed 63).part 0).hold = [] ∧
    ((ringed 63).part 0).fqTail - ((ringed 63).part 0).fqHead + 1 ≤ 2 ^ ((ringed 63).part 0).fqLog2n ∧
    2 ^ ((ringed 64).part 0).fqLog2n < ((ringed 64).part 0).fqTail - ((ringed 64).part 0).fqHead + 1 :=
  ⟨by decide, by decide, group_witness (by decide +kernel), team_witness (by decide +kernel), by decide +kernel, by decide +kernel, by decide +kernel,
    by decide +kernel, by decide +kernel⟩

/-- v4 names a byte of memory, v5 sets its upper half to one that no page maps, and v6 lies in a scratchpad bank that naps. -/
def faulty : State :=
  State.setBank (withRegs [(4, 0x50001#32), (8, 0#32)] (withScratch ready)) 0
    { (withScratch ready).bank 0 with pwr := .nap }

theorem witness_AccessFaultResult :
    (∃ c, Issues (.ldG h1 ⟨.b64, 12, 4, 0, false, false, 0⟩) (one faulty) c ∧
      (c.pickFault (c.active (.ldG h1 ⟨.b64, 12, 4, 0, false, false, 0⟩) (one faulty)) false fun l =>
        c.check (one faulty) l .g (c.addr (one faulty) l .g 4 0) 8 .read false false true).isSome = true) ∧
    (∃ c, Issues (.stG h1 ⟨.b16, 12, 4, 0⟩) (one faulty) c ∧
      (c.pickFault (c.active (.stG h1 ⟨.b16, 12, 4, 0⟩) (one faulty) &&& c.g.real) true fun l => c.storeChk (one faulty) .g ⟨.b16, 12, 4, 0⟩ 0 l).isSome = true) ∧
    (∃ c, Issues (.stS h1 ⟨.b32, 12, 8, 0⟩) (one faulty) c ∧
      c.pickFault (c.active (.stS h1 ⟨.b32, 12, 8, 0⟩) (one faulty) &&& c.g.real) true (fun l => c.storeChk (one faulty) .s ⟨.b32, 12, 8, 0⟩ 0 l) = none ∧
      (one faulty).scratchPark ((placesOf (c.active (.stS h1 ⟨.b32, 12, 8, 0⟩) (one faulty) &&& c.g.real)
        fun l => c.storeChk (one faulty) .s ⟨.b32, 12, 8, 0⟩ 0 l).filterMap fun q => q.2.scratch.map fun z => (z.1, z.2, 4)) ≠ .none) ∧ (one faulty).stuck = none :=
  ⟨issues_witness (by decide +kernel), issues_witness (by decide +kernel), issues_witness (by decide +kernel), by decide +kernel⟩

/-- A result of lane 31 that waits, with its window over, still open, or with a fault. -/
def pended (left : Nat) (f : Option FInfo) : State :=
  withGroup (fun g => { g with pend := [⟨3, 0x40000, .nop h0, [⟨31, left, [(4, 9)], [], false, f, [], [], none, 0, []⟩], false, false⟩] }) ready

theorem witness_LongLatencyResult : (pended 0 none).canLand 0 3 31 = true ∧ (pended 0 none).canLand 0 3 30 = false ∧
    (∃ g, (pended 0 none).group? 0 = some g ∧ g.pend = [⟨3, 0x40000, .nop h0, [⟨31, 0, [(4, 9)], [], false, none, [], [], none, 0, []⟩], false, false⟩] ∧ 31 < g.lanes.length) ∧
    (pended 1 none).canLand 0 3 31 = true ∧ (pended 0 (some ⟨.memError, 31, 0x80000000, 0x40000, 0, 0, false⟩)).canLand 0 3 31 = true :=
  ⟨by decide +kernel, by decide +kernel, group_witness (by decide +kernel), by decide +kernel, by decide +kernel⟩

/-- The tape has 64 records, and the next one goes to a mapped tape region. -/
theorem witness_LaunchAndTapeResult_spill :
    let s := queueing 63 fun x => { x with tape := List.replicate 64 ⟨[], false, 1⟩, tapeBase := 0x60000 }
    ∃ c, Issues (.tapePush h1 1 16 2) s c ∧ (s.part c.part).tape.length = 64 ∧ s.stuck = none ∧
      ((s.setPart c.part { s.part c.part with tape := (s.part c.part).tape ++ [⟨c.recordBytes s 0 16, c.l.classH, 1⟩] }).translate c.part
        (s.unitAgent c.part) .write 0x60000) = .mem 0x60000 2049 :=
  issues_witness (by decide +kernel)

/-- Branches and calls of ControlFormsComplete are met as in BranchAndCallResult; the other forms here. -/
theorem witness_ControlFormsComplete :
    (∃ c, Issues (.bra h0 0xFFFFFFFC) ready c ∧ codeAddr (c.ipc + (0xFFFFFFFC#32).signExtend 64)) ∧
    (∃ c, Whole (.evArm h0 4 255) (eventReady .disarmed 0) c ∧
      (match c.evRead (eventReady .disarmed 0) (c.pair (eventReady .disarmed 0) (c.lead.getD 0) 4).toNat with
        | .inr es => !es.any c.evRegBad
        | .inl _ => false) = true) ∧
    (∃ c, Whole (.wany h0 4) (eventReady .latched 0x7F) c ∧ c.g.armed = some (c.pair (eventReady .latched 0x7F) (c.lead.getD 0) 4) ∧
      { c.g with evs := (eventReady .latched 0x7F).latched c.gk c.g }.firstEvent = some 7) ∧
    (∃ c, Whole (.regionBegin h0) (inRegions 3) c ∧ c.g.regions.length < c.l.k.region) ∧
    (∃ c, Whole (.regionEnd h0) (inRegions 2) c ∧ c.g.regions = [0x40000, 0x40000]) ∧
    (∃ c, Whole (.regionEnd h0) (inRegions 1) c ∧ c.g.regions = [0x40000] ∧
      ((inRegions 1).updGroup c.gk fun g => { g with regions := [], closing := none }).stagedOf c.gk = []) ∧
    (∃ c, Whole (.regsGrow h0 1 1) (budget 8) c ∧ c.g.nb = 8) ∧
    (∃ c, Whole (.regsGrow h0 1 1) (budget 7) c ∧ c.g.nb + 1 ≤ 8 ∧ c.t.tst = .resident ∧ c.g.ended = false ∧
      (budget 7).growers c.t.core (c.gk % 32 % 4) = [] ∧ 1 ≤ (budget 7).freeRegs c.t.core (c.gk % 32 % 4) ∧ (budget 7).isH c.gk = false) ∧
    (∃ c, Whole (.regsShrink h0 7) (budget 8) c ∧ (budget 8).growers c.t.core (c.gk % 32 % 4) = []) := by
  unfold codeAddr
  refine ⟨issues_witness (by decide +kernel), ?_⟩
  exact ⟨whole_witness (by decide +kernel), whole_witness (by decide +kernel), whole_witness (by decide +kernel), whole_witness (by decide +kernel),
    whole_witness (by decide +kernel), whole_witness (by decide +kernel), whole_witness (by decide +kernel), whole_witness (by decide +kernel)⟩

/-! Memory, encoding, the step. -/

/-- Addresses on both sides of the bytes stored, and lines of another key. -/
theorem witness_MemoryReadsWhatWasWritten :
    (127 < 128 ∨ 128 + ([1, 0, 255] : List Byte).length ≤ 127) ∧ (131 < 128 ∨ 128 + ([1, 0, 255] : List Byte).length ≤ 131) ∧
    (∀ b, 128 ≤ b → b < 128 + ([1, 0, 255] : List Byte).length → 127 / 128 ≠ b / 128) := by
  refine ⟨by decide, by decide, ?_⟩
  intro b h1 h2
  simp at h2
  omega

/-- An instruction at the end of a fetch block, and an F128 one at its start. -/
theorem witness_DecodeEncodeAgree :
    (Claims.Encodable (.iadd ⟨95, true, false⟩ .z32 true 255 0 (.imm 0x7F)) ∧ 24 % 4 = 0 ∧ 24 + (encode (.iadd ⟨95, true, false⟩ .z32 true 255 0 (.imm 0x7F))).length ≤ 32) ∧
    (Claims.Encodable (.mmaF16 h0 ⟨1, 4, 0, 5, ⟨8, 7, true⟩, 0, 0, true, true, false, true, false, false, false⟩) ∧
      0 + (encode (.mmaF16 h0 ⟨1, 4, 0, 5, ⟨8, 7, true⟩, 0, 0, true, true, false, true, false, false, false⟩)).length ≤ 32) := by
  unfold Claims.Encodable
  decide +kernel

theorem witness_DecodedBytesAreItsEncoding : decode 24 [0, 0x50, 0x38, 0x10, 0x20, 0, 0, 2, 9] = .ok (.instr (.iadd ⟨5, true, false⟩ .s32 false 3 1 (.reg 2))) := by
  decide +kernel

/-- A state in which a path issues, whatever its instruction. -/
def issuing_ (s : State) : Bool := match s.ctx? with | some c => s.stuck.isNone && decide (c.path &&& c.g.real ≠ 0) | none => false

theorem issuing_ctx {s : State} (h : issuing_ s = true) : ∃ c, s.ctx? = some c ∧ s.stuck = none ∧ c.path &&& c.g.real ≠ 0 := by
  unfold issuing_ at h
  split at h
  · next c hc => exact ⟨c, hc, by simpa using h⟩
  · cases h

def reducedReady : State := { ready with svc := .reduced }
def tinyReady : State := withGroup (fun g => { g with nb := 1 }) ready

theorem witness_RejectedInstructionsTrap_encoding :
    (∃ c, ready.ctx? = some c ∧ ready.stuck = none ∧ c.path &&& c.g.real ≠ 0) ∧ (∃ c, reducedReady.ctx? = some c ∧ reducedReady.stuck = none ∧ c.path &&& c.g.real ≠ 0) ∧
    ((toRaw (.nop ⟨0, false, true⟩)).isSome = true ∧ (Instr.nop ⟨0, false, true⟩).encodingOk = false) ∧
    ((toRaw (.movk ⟨0, false, true⟩ 1 2)).isSome = true ∧ (Instr.movk ⟨0, false, true⟩ 1 2).widthOk = false) ∧
    ((toRaw (.hadd2 h0 .rne false 1 2 3)).isSome = true ∧ reducedReady.excluded (.hadd2 h0 .rne false 1 2 3) = true) ∧
    ((toRaw (.rejoin h1 8)).isSome = true ∧ (Instr.rejoin h1 8).encodingOk = true ∧ (Instr.rejoin h1 8).widthOk = true ∧
      ready.excluded (.rejoin h1 8) = false ∧ (Instr.rejoin h1 8).operandsOk = false) ∧
    (∃ c, tinyReady.ctx? = some c ∧ c.g.nb = 1 ∧ Opnd.beyond (32 * c.g.nb) c.l.k.acc (.v 32 1) = true ∧ Opnd.beyond (32 * c.g.nb) c.l.k.acc (.v 31 1) = false ∧
      .v 32 1 ∈ (Instr.mov h0 32 (.reg 31)).opnds ∧ (Instr.mov h0 32 (.reg 31)).operandsOk = true) := by
  refine ⟨issuing_ctx (by decide +kernel), issuing_ctx (by decide +kernel), by decide +kernel, by decide +kernel, by decide +kernel, by decide +kernel, ?_⟩
  have h := (by decide +kernel : (match tinyReady.ctx? with
    | some c => decide (c.g.nb = 1 ∧ Opnd.beyond (32 * c.g.nb) c.l.k.acc (.v 32 1) = true ∧ Opnd.beyond (32 * c.g.nb) c.l.k.acc (.v 31 1) = false ∧
      .v 32 1 ∈ (Instr.mov h0 32 (.reg 31)).opnds ∧ (Instr.mov h0 32 (.reg 31)).operandsOk = true)
    | none => false) = true)
  split at h
  · next c hc => exact ⟨c, hc, by simpa using h⟩
  · cases h

/-- A path of a part of its group, a guard that differs, and a guard that is 0. -/
def part_ : State := { ready with cur := some ⟨0, 0xFFFF#32, false, 0, []⟩ }

theorem witness_RejectedInstructionsTrap_group : wholeGroup (.gangBrk h0) = true ∧
    (∃ c, Issues (.gangBrk h0) part_ c ∧ c.path &&& c.g.real ≠ 0 ∧ c.path ≠ c.g.live) ∧
    (∃ c, Issues (.gangBrk h1) (half ready) c ∧ c.path &&& c.g.real ≠ 0 ∧ c.active (.gangBrk h1) (half ready) ≠ c.path ∧ c.active (.gangBrk h1) (half ready) ≠ 0) ∧
    (∃ c, Issues (.gangBrk h1) ready c ∧ c.path &&& c.g.real ≠ 0 ∧ c.path = c.g.live ∧ c.active (.gangBrk h1) ready = 0) ∧ part_.stuck = none :=
  ⟨by decide, issues_witness (by decide +kernel), issues_witness (by decide +kernel), issues_witness (by decide +kernel), by decide +kernel⟩

/-- The package with one group that has an instruction to fetch. -/
def fetching_ : State := State.reset.withFetchWord 64 0x324

theorem witness_StepRunsDecodedInstruction : fetching_.second = none ∧ fetching_.agenda = [] ∧ (∀ e ∈ fetching_.earlyEvents, fetching_.fires e = false) ∧
    fetching_.issueKeys.filter fetching_.turn = [0] ∧
    (∃ g c pa tag i, fetching_.chooseGroup 0 = some (0, g, [fetching_.offerAt 0 g 0x40000]) ∧ fetching_.group? 0 = some g ∧
      (fetching_.offerAt 0 g 0x40000).offer = .instr i ∧ fetching_.ctxFor 0 (g.tries 0x40000) = some c ∧
      fetching_.translate c.part c.t.core .fetch ((0x40000#64).toNat / 32 * 32) = .mem pa tag ∧ fetching_.stackFails pa = false ∧
      fetching_.moments c.l.start pa 32 = [c.l.start] ∧
      decode ((0x40000#64).toNat % 32) ((fetching_.readBytes tag pa 32).drop ((0x40000#64).toNat % 32)) = .ok (.instr i)) := by
  refine ⟨by decide +kernel, by decide +kernel, by decide +kernel, by decide +kernel, ?_⟩
  have h := (by decide +kernel : (match fetching_.group? 0 with
    | none => false
    | some g =>
      match fetching_.ctxFor 0 (g.tries 0x40000) with
      | none => false
      | some c =>
        match fetching_.translate c.part c.t.core .fetch ((0x40000#64).toNat / 32 * 32) with
        | .mem pa tag =>
          match (fetching_.offerAt 0 g 0x40000).offer with
          | .instr i =>
            decide (fetching_.chooseGroup 0 = some (0, g, [fetching_.offerAt 0 g 0x40000])) && decide (fetching_.stackFails pa = false) &&
              decide (fetching_.moments c.l.start pa 32 = [c.l.start]) &&
              decide (decode ((0x40000#64).toNat % 32) ((fetching_.readBytes tag pa 32).drop ((0x40000#64).toNat % 32)) = .ok (.instr i))
          | _ => false
        | _ => false) = true)
  split at h
  · cases h
  next g hg =>
  split at h
  · cases h
  next c hc =>
  split at h
  · next pa tag hx =>
    split at h
    · next i hi =>
      simp only [Bool.and_eq_true, decide_eq_true_eq] at h
      exact ⟨g, c, pa, tag, i, h.1.1.1, hg, hi, hc, hx, h.1.1.2, h.1.2, h.2⟩
    · cases h
  · cases h

theorem witness_StepKeepsMemoryForm : Memory.wf fetching_.mem = true ∧ ∃ t, step fetching_ = .next t := by
  refine ⟨by decide +kernel, ?_⟩
  have h := (by decide +kernel : (match step fetching_ with | .next _ => true | _ => false) = true)
  split at h
  · exact ⟨_, by assumption⟩
  · cases h

/-! Residency, commands. -/

/-- Cluster 0 changed. -/
def cooled (f : Cluster → Cluster) : State := ready.setCluster 0 (f (ready.cluster 0))

/-- The team's state, its class, and whether its banks were reclaimed. -/
def teamed (x : TeamSt) (h reclaimed : Bool) : State :=
  { ready with teams := [(0, { fetchTeam with tst := x, reclaimed := reclaimed })], launches := [(0, { fetchLaunch 0 with classH := h })] }

/-- A launch of one team that waits to be placed. -/
def unplaced : State := { ready with launches := [(0, { fetchLaunch 0 with placed := 0 })], teams := [], groups := [] }

theorem witness_ResidencyEvents_waves :
    ((cooled fun c => { c with waves := [⟨0, [], .team, 0⟩] }).cluster 0).waves = [⟨0, [], .team, 0⟩] ∧
    ((cooled fun c => { c with depl := true, level := 127 }).cluster 0).level < ((cooled fun c => { c with depl := true, level := 127 }).cluster 0).rcHigh ∧
    ((cooled fun c => { c with depl := true, level := 128, heldOps := [0] }).cluster 0).rcHigh ≤
      ((cooled fun c => { c with depl := true, level := 128, heldOps := [0] }).cluster 0).level ∧ (ready.cluster 0).depl = false := by decide +kernel

theorem witness_ResidencyEvents_leave :
    (∃ g, (withGroup (fun g => { g with leaveWant := 8 }) ready).group? 0 = some g ∧ g.leaveWant ≠ 0) ∧
    (∃ t, (withGroup (fun g => { g with leaveWant := 8 }) ready).team? (0 / 32) = some t ∧ t.tst = .resident) ∧
    (ready.cluster (ready.coreOf 0 / 8)).depl = false ∧ (∃ g, ready.group? 0 = some g ∧ g.leaveWant = 0) :=
  ⟨group_witness (by decide +kernel), team_witness (by decide +kernel), by decide +kernel, group_witness (by decide +kernel)⟩

theorem witness_ResidencyEvents_placement : (ready.part 7).pst ≠ .running ∧ (unplaced.part 0).pst = .running ∧
    (∃ t, unplaced.placeFirst (unplaced.placing 0) = some t) ∧ ready.placeFirst (ready.placing 0) = none := by
  refine ⟨by decide +kernel, by decide +kernel, ?_, by decide +kernel⟩
  have h := (by decide +kernel : (unplaced.placeFirst (unplaced.placing 0)).isSome = true)
  exact Option.isSome_iff_exists.mp h

theorem witness_ResidencyEvents_teams :
    (∃ t, (teamed .resident true false).team? 0 = some t ∧ t.tst = .resident ∧ ((teamed .resident true false).launch? t.launch).isSome = true) ∧
    ((teamed .resident true false).part 0).pst = .running ∧
    (∃ t, (teamed .evicted true false).team? 0 = some t ∧ t.tst = .evicted ∧ t.reclaimed = false) ∧
    (teamed .evicted true false).teamLanded 0 = true ∧
    (∃ t, (withGroup (fun g => { g with regions := [0x40000] }) (teamed .evicted true true)).team? 0 = some t ∧ t.tst = .evicted ∧ t.reclaimed = true) ∧
    ((withGroup (fun g => { g with regions := [0x40000] }) (teamed .evicted true true)).teamGroups 0).all (fun x => !x.2.regions.isEmpty) = true ∧
    (ready.part 0).mig = false ∧ ((cooled fun c => { c with temp := 1519 }).cluster 0).temp < ((cooled fun c => { c with temp := 1519 }).cluster 0).thr.toNat % 4096 :=
  ⟨team_witness (by decide +kernel), by decide +kernel, team_witness (by decide +kernel), by decide +kernel,
    team_witness (by decide +kernel), by decide +kernel, by decide +kernel, by decide +kernel⟩

/-- A template of a copy at 0x50040, its table at 0x50000, and an aperture address and command words in v4:5 and v8 to v11. -/
def aperture (q : List Cmd) : State :=
  chanOf q (one (withRegs [(4, 0#32), (5, 0xF3000000#32)] (withBytes 0x50040
    ([1, 0, 0, 10, 10, 0, 0, 0] ++ natBytes 8 0x50000 ++ natBytes 8 0x60000 ++ natBytes 4 1 ++ natBytes 4 1 ++ natBytes 4 4 ++ natBytes 4 4)
    (withBytes 0x50000 (natBytes 8 0x50040) { ready with launches := [(0, { fetchLaunch 0 with k := { (fetchLaunch 0).k with ttBase := 0x50000, ttCount := 1 } })] }))))

/-- The store's active real lanes all name the aperture, and their commands pass. -/
def storesCmd (c : Ctx) (s : State) (x : StArgs) (gsl : BitVec 4) (l : Nat) : Bool :=
  match c.check s l .gen (c.addr s l .gen x.a x.disp) 16 .write true (gsl.getLsbD 3) false with
  | .ok (.command _) =>
    match c.cmdReq s (c.addr s l .gen x.a x.disp).toNat (c.data s l x.d x.ty) with
    | .inr _ => true
    | .inl _ => false
  | _ => false

theorem storesCmd_witness {c : Ctx} {s : State} {x : StArgs} {gsl : BitVec 4} {l : Nat} (h : storesCmd c s x gsl l = true) :
    ∃ k r, c.check s l .gen (c.addr s l .gen x.a x.disp) 16 .write true (gsl.getLsbD 3) false = .ok (.command k) ∧
      c.cmdReq s (c.addr s l .gen x.a x.disp).toNat (c.data s l x.d x.ty) = .inr r := by
  unfold storesCmd at h
  split at h
  · next k hk =>
    split at h
    · next r hr => exact ⟨k, r, hk, hr⟩
    · cases h
  · cases h

theorem witness_CommandIssueResult_joins :
    (∃ c, Issues (.st h1 ⟨.b128, 8, 4, 0⟩ 15) (aperture []) c ∧
      (∀ l < 32, (c.active (.st h1 ⟨.b128, 8, 4, 0⟩ 15) (aperture []) &&& c.g.real).getLsbD l = true → storesCmd c (aperture []) ⟨.b128, 8, 4, 0⟩ 15 l = true) ∧
      c.active (.st h1 ⟨.b128, 8, 4, 0⟩ 15) (aperture []) &&& c.g.real ≠ 0 ∧
      c.fullChan (aperture []) (placesOf 1#32 fun l => c.storeChk (aperture []) .gen ⟨.b128, 8, 4, 0⟩ 15 l) = none) ∧ (aperture []).stuck = none ∧
    (∃ c, Issues (.st h1 ⟨.b128, 8, 4, 0⟩ 0) (aperture (List.replicate 32 aCmd)) c ∧
      c.fullChan (aperture (List.replicate 32 aCmd)) (placesOf 1#32 fun l => c.storeChk (aperture (List.replicate 32 aCmd)) .gen ⟨.b128, 8, 4, 0⟩ 0 l) = some (0, 1)) :=
  ⟨issues_witness (by decide +kernel), by decide +kernel, issues_witness (by decide +kernel)⟩

/-- An access of an engine gave something. -/
def got {α : Type} (x : EAcc α) : Bool := match x with | .ok _ => true | _ => false

theorem got_witness {α : Type} {x : EAcc α} (h : got x = true) : ∃ a, x = .ok a := by
  unfold got at h
  split at h
  · exact ⟨_, rfl⟩
  · cases h

/-- A run of elements is read, and written together from then on. -/
def moved (s : State) (ch : Nat) (c : Cmd) (row r j n : Nat) : Bool :=
  match readRun ch c row j n s with
  | .inl (u, x) => got (u.writeElem (u.cmdPart c) (u.cmdCore c) (placeAt u c.tuid c.dspc c.dbase r c.dstride j c.dfmt.bytes) (n * c.dfmt.bytes) x)
  | .inr _ => false

theorem moved_witness {s : State} {ch row r j n : Nat} {c : Cmd} (h : moved s ch c row r j n = true) :
    ∃ u x t, readRun ch c row j n s = .inl (u, x) ∧
      u.writeElem (u.cmdPart c) (u.cmdCore c) (placeAt u c.tuid c.dspc c.dbase r c.dstride j c.dfmt.bytes) (n * c.dfmt.bytes) x = .ok t := by
  unfold moved at h
  split at h
  · next u x hx =>
    obtain ⟨t, ht⟩ := got_witness h
    exact ⟨u, x, t, hx, ht⟩
  · cases h

/-- The first and the last element of a command of 4 rows of 3: of a copy, and of a gather, which reads row 3; two elements of 2 bytes
that fill a granule; and an element of a reduce-store. -/
theorem witness_CommandIssueResult_elements :
    let s := withBytes 0x50100 [3, 0, 0, 0] ready
    let c := { aCmd with rows := 4, rlen := 3, sstride := 12, dstride := 12 }
    let half := { c with sfmt := .b16, dfmt := .b16, sstride := 8, dstride := 8 }
    (∀ cur ∈ [0, 11], (∃ u x t, readRun 0 c (cur / 3) (cur % 3) 1 s = .inl (u, x) ∧
        u.writeElem (u.cmdPart c) (u.cmdCore c) (placeAt u c.tuid c.dspc c.dbase (cur / 3) c.dstride (cur % 3) c.dfmt.bytes) (1 * c.dfmt.bytes) x = .ok t) ∧
      s.asleep [placeAt s 0 0 c.sbase (cur / 3) 12 (cur % 3) 4, placeAt s 0 0 c.dbase (cur / 3) 12 (cur % 3) 4] = []) ∧
    (max 1 (min (half.rlen - 0) ((4 - (half.dbase.toNat + 0 * half.dstride + 0 * half.dfmt.bytes) % 4) / half.dfmt.bytes)) = 2 ∧
      ∃ u x t, readRun 0 half 0 0 2 s = .inl (u, x) ∧
        u.writeElem (u.cmdPart half) (u.cmdCore half) (placeAt u half.tuid half.dspc half.dbase 0 half.dstride 0 half.dfmt.bytes) (2 * half.dfmt.bytes) x = .ok t) ∧
    s.readElem (s.cmdPart { c with kind := .gather }) (s.cmdCore { c with kind := .gather }) (placeAt s 0 0 c.ibase 0 4 0 4) 4 = .ok 3 := by
  intro s c half
  refine ⟨?_, ⟨by decide, moved_witness (by decide +kernel)⟩, by decide +kernel⟩
  intro cur hc
  simp only [List.mem_cons, List.not_mem_nil, or_false] at hc
  rcases hc with rfl | rfl <;> exact ⟨moved_witness (by decide +kernel), by decide +kernel⟩

/-! Commands that run; queues. -/

/-- A command at the head of channel 0 that runs to its end. -/
def runs (s : State) (k : CmdKind) : Bool :=
  match (s.chan 0).queue with
  | [] => false
  | c :: _ =>
    match s.runElems (c.total - c.cursor) 0 { c with guard := none } with
    | (u, d, .done) => decide (c.kind = k) && s.headRuns 0 && decide (c.cursor < c.total) && !c.gmerge && decide (d.kind = k) &&
        ((s.syncQueue 0 ((u.setPresence d).setHead 0 { d with ran := true })).stuck.isNone) && (s.syncQueue 0 (u.applyHead 0 d)).stuck.isNone && (s.lateStaged 0).isNone
    | _ => false

theorem runs_witness {s : State} {k : CmdKind} (h : runs s k = true) : ∃ c q u d, (s.chan 0).queue = c :: q ∧ c.kind = k ∧ s.headRuns 0 = true ∧
    c.cursor < c.total ∧ c.gmerge = false ∧ s.runElems (c.total - c.cursor) 0 { c with guard := none } = (u, d, .done) ∧ d.kind = k ∧
    (s.syncQueue 0 ((u.setPresence d).setHead 0 { d with ran := true })).stuck = none ∧ (s.syncQueue 0 (u.applyHead 0 d)).stuck = none ∧ s.lateStaged 0 = none := by
  unfold runs at h
  split at h
  · cases h
  next c q hq =>
  split at h
  · next u d hr =>
    simp only [Bool.and_eq_true, decide_eq_true_eq, Option.isNone_iff_eq_none, Bool.not_eq_true'] at h
    exact ⟨c, q, u, d, hq, h.1.1.1.1.1.1.1, h.1.1.1.1.1.1.2, h.1.1.1.1.1.2, h.1.1.1.1.2, hr, h.1.1.1.2, h.1.1.2, h.1.2, h.2⟩
  · cases h

def queueOf (f : Cmd → Cmd) : State := chanOf [f aCmd] ready
def guardedBy (x : GSlot) (f : Cmd → Cmd) : State := withGroup (fun g => { g with guards := setAt g.guards 7 x }) (queueOf fun c => { f c with guard := some 7 })

theorem witness_CommandRunResult_runs : (queueOf id).stuck = none ∧ (∀ p ∈ [(queueOf id, CmdKind.copy), (queueOf fun c => { c with kind := .gather }, .gather),
      (guardedBy .isTrue fun c => { c with kind := .multicast, dspc := 1 }, .multicast),
      (queueOf fun c => { c with kind := .reduceStore, sfmt := .z32, dfmt := .z32 }, .reduceStore)],
    ∃ c q u d, (p.1.chan 0).queue = c :: q ∧ c.kind = p.2 ∧ p.1.headRuns 0 = true ∧ c.cursor < c.total ∧ c.gmerge = false ∧
      p.1.runElems (c.total - c.cursor) 0 { c with guard := none } = (u, d, .done) ∧ d.kind = p.2 ∧
      (p.1.syncQueue 0 ((u.setPresence d).setHead 0 { d with ran := true })).stuck = none ∧ (p.1.syncQueue 0 (u.applyHead 0 d)).stuck = none ∧ p.1.lateStaged 0 = none) := by
  refine ⟨by decide +kernel, ?_⟩
  intro p hp
  simp only [List.mem_cons, List.not_mem_nil, or_false] at hp
  rcases hp with rfl | rfl | rfl | rfl <;> exact runs_witness (by decide +kernel)

/-- A reduce-store with GMERGE, whose staging area is in the scratchpad. -/
def merging : State := chanOf [{ aCmd with kind := .reduceStore, gmerge := true, sfmt := .f32, dfmt := .f32, hgd := 0x50000 }] gridStage

theorem witness_CommandRunResult_merge : merging.headRuns 0 = true ∧
    (match (merging.chan 0).queue with
      | [] => false
      | c :: _ =>
        match merging.takeMerge 0 c with
        | (u, d, .done) => decide (c.guard = none) && decide (d.kind = .reduceStore) && decide (c.cursor < c.total) && (merging.syncQueue 0 (u.applyHead 0 d)).stuck.isNone
        | _ => false) = true := by decide +kernel

theorem witness_CommandRunResult_ends :
    (match (queueOf fun c => { c with rows := 2 }).runElems 1 0 { aCmd with rows := 2 } with
      | (u, d, .more) => ((u.landLines d).setHead 0 d).stuck.isNone
      | _ => false) = true ∧ (queueOf fun c => { c with rows := 2 }).headRuns 0 = true ∧
    (queueOf id).cmdPaused aCmd = false ∧ (queueOf id).cmdRemotes 0 1 = false ∧
    (((((queueOf id).setChan 0 { (queueOf id).chan 0 with queue := [] }).setPresence { aCmd with ran := true }).endMcasts 0 { aCmd with ran := true }).finishCmd 0 { aCmd with ran := true }).stuck = none ∧
    (guardedBy .isFalse id).guardOf { aCmd with guard := some 7 } = some .isFalse ∧ (guardedBy .isFalse id).headRuns 0 = false ∧
    (queueOf fun c => { c with discard := true }).headRuns 0 = false ∧ (queueOf fun c => { c with ran := true }).headRuns 0 = false := by decide +kernel

/-- A staged command whose region has ended; and the virtual queue of an evicted team, before and after a change. -/
theorem witness_CommandRunResult_late :
    ((chanOf [aCmd] ready).setChan 0 { (chanOf [aCmd] ready).chan 0 with staged := [{ aCmd with kind := .reduceStore }] }).lateStaged 0 =
      some { aCmd with kind := .reduceStore } ∧
    2 ^ 20 ≤ 2 ^ 20 + 16 * 0 + 3 ∧ (2 ^ 20 + 16 * 0 + 3 - 2 ^ 20) / 16 = 0 ∧ (teamed .evicted true false).teamSt? 0 = some .evicted ∧
    ((teamed .evicted true false).setChan (2 ^ 20 + 3) { Chan.reset with queue := [aCmd] }).chan (2 ^ 20 + 3) ≠
      (teamed .evicted true false).chan (2 ^ 20 + 3) := by decide +kernel

/-- A collective of this package alone: a broadcast, and a reduce-scatter of more packages than elements. -/
def collected (cop : Nat) (members : List Nat) (svc : Svc) : State :=
  { queueOf fun c => { c with kind := .collective, sfmt := .z32, dfmt := .z32, cop := cop } with
    svc := svc, colls := [⟨0, 1, 0, 0, members, 0, false, 0, 0, [5], 0, 0⟩]
    parts := SMap.put ready.parts 0 { ready.part 0 with cTimeout := 1 }, ptBase := 1000 }

theorem witness_CommandRunResult_collectives :
    (collected 3 [0] .normal).headRuns 0 = true ∧ (collected 3 [0] .reduced).headRuns 0 = true ∧
    ((collected 3 [0] .normal).colls.find? fun y => y.ch == 0 && y.num == 1) = some ⟨0, 1, 0, 0, [0], 0, false, 0, 0, [5], 0, 0⟩ ∧
    ((collected 3 [0] .normal).collGo 0 { aCmd with kind := .collective, sfmt := .z32, dfmt := .z32, cop := 3 }
      ⟨0, 1, 0, 0, [0], 0, false, 0, 0, [5], 0, 0⟩).stuck = none ∧
    ((collected 3 [0] .normal).part ((collected 3 [0] .normal).cmdPart aCmd)).cTimeout ≠ 0 ∧
    aCmd.issued + 1000 * ((collected 3 [0] .normal).part ((collected 3 [0] .normal).cmdPart aCmd)).cTimeout ≤ (collected 3 [0] .normal).ptime ∧
    (((collected 1 [0, 1] .normal).collFree 0 { aCmd with kind := .collective, sfmt := .z32, dfmt := .z32, cop := 1 }
      ⟨0, 1, 0, 0, [0, 1], 0, false, 0, 0, [5], 0, 0⟩).collFail 0 { aCmd with kind := .collective, sfmt := .z32, dfmt := .z32, cop := 1 }
      ⟨0, 1, 0, 0, [0, 1], 0, false, 0, 0, [5], 0, 0⟩).stuck = none := by decide +kernel

/-- Queue 63 of partition 0 in a state of its own. -/
def queueIs (f : Queue → Queue) : State := ready.setQueue 0 63 (f (ready.queue 0 63))

theorem witness_QueueResult_writes :
    (ready.queue 7 63).en = false ∧ ((queueIs fun x => { x with en := true }).queue 0 63).en = true ∧
    ¬(((queueIs fun x => { x with log2s := 16 }).queue 0 63).tail < 65536 ∧ 65536 + ((queueIs fun x => { x with log2s := 16 }).queue 0 63).head < 65536) ∧
    16 < (0x221#32).toNat / 32 % 32 ∧ (0x221#32).getLsbD 0 = true ∧ (0x201#32).toNat / 32 % 32 = 16 ∧
    (0x403#32).getLsbD 10 = true ∧ (0x403#32).getLsbD 1 = true ∧ (0x1801#32).getLsbD 11 = true ∧ (0x1801#32).getLsbD 12 = true ∧
    (0x1C1D#32).getLsbD 0 = true ∧ (0x1E00#32).getLsbD 0 = false := by decide +kernel

/-- A ring of one record at 0x50000 on queue 63, its kernel at 0x50040 (Table 15-4). -/
def ringOne (tsize : Nat) : State :=
  withBytes 0x50008 (natBytes 8 7 ++ natBytes 4 2 ++ natBytes 2 tsize) (withBytes 0x50000 (natBytes 8 0x50040)
    (withBytes 0x50040 (natBytes 8 0x40000 ++ natBytes 4 0 ++ natBytes 4 16 ++ natBytes 4 0 ++ [8, 64, 6, 4, 3, 0x81])
      (queueIs fun x => { x with en := true, base := 0x50000, tail := 1 })))

/-- The candidate that the take unit chooses, as the statement asks. -/
def takes (s : State) (f : Nat × Option KInfo → Bool) : Bool :=
  match s.choose 0 with
  | some c =>
    match c.bytes with
    | some bs => decide ((s.part 0).pst = .running) && decide (c.source = .ring) && decide (c.sr = StoreRec.blank c.q) && decide (recField bs 0x16 1 / 2 % 2 = 0) &&
        f (((s.setPart 0 { s.part 0 with nextTake := (s.part 0).nextTake + 1, lastTaken := c.q }).setQueue 0 c.q
          { s.queue 0 c.q with head := (s.queue 0 c.q).head + 1, pubs := (s.queue 0 c.q).pubs.drop 1, nextNum := (s.queue 0 c.q).nextNum + 1, fireDue := none }).checkRec 0 c bs)
    | none => false
  | none => false

theorem witness_QueueResult_takes : (ringOne 1024).askTakes 0 = ringOne 1024 ∧ (ready.part 7).pst ≠ .running ∧ ready.choose 0 = none ∧
    takes (ringOne 1024) (fun x => x.1 == 0 && x.2.isSome) = true ∧ takes (ringOne 1025) (fun x => x.1 == 1) = true ∧ takes (ringOne 0) (fun x => x.1 == 1) = true := by decide +kernel

/-! The tape, timers, streams. -/

/-- Partition 0 changed. -/
def parted (f : Part → Part) : State := ready.setPart 0 (f (ready.part 0))

theorem witness_TapeTimerStreamEvents_tape : (ready.part 0).cut = [] ∧
    ((parted fun x => { x with cut := [⟨List.replicate 64 63, true, 63⟩, ⟨[], false, 1⟩], plsRes := 2 }).part 0).cut = [⟨List.replicate 64 63, true, 63⟩, ⟨[], false, 1⟩] := by decide +kernel

/-- A timer of queue 63, first due at 1,000 ns. -/
def timed63 (ns : Nat) (svc : Svc) (on : Bool) : State :=
  { (ready.setQueue 0 63 { ready.queue 0 63 with en := true, timer := true, tstart := 1000, tperiod := 1, base := 0x50000, tail := if on then 1 else 0 }) with
    svc := svc, ptBase := ns }

theorem witness_TapeTimerStreamEvents_timer :
    (timed63 999 .normal true).ptime < ((timed63 999 .normal true).queue 0 63).tstart.toNat + 0 ∧
    ((timed63 1000 .normal true).queue 0 63).tstart.toNat ≤ (timed63 1000 .normal true).ptime ∧ ((timed63 1000 .reduced true).queue 0 63).tperiod ≠ 0 ∧
    (timed63 1000 .reduced true).svc = .reduced ∧ ((timed63 1000 .normal true).part 0).pst = .running ∧ ((timed63 1000 .normal true).queue 0 63).fireDue = none ∧
    (∃ c, (timed63 1000 .normal true).candOf 0 63 = some c) ∧ (timed63 1000 .normal false).candOf 0 63 = none :=
  ⟨by decide +kernel, by decide +kernel, by decide +kernel, by decide +kernel, by decide +kernel, by decide +kernel,
    Option.isSome_iff_exists.mp (by decide +kernel), by decide +kernel⟩

/-- Stream context 8191 in some state, at a device time. -/
def streamed (ns : Nat) (f : Stream → Stream) : State :=
  { (ready.setStream 8191 (f { Stream.reset with nbanks := 1, backing := 0x60000, silence := 1, tstart := 1000, tperiod := 100000, queue := 63 })) with ptBase := ns }

/-- Its record in memory (Table 16-5), for a queue that is stream-bound or is not. -/
def streamRecord (q : Bool) : State :=
  { (withBytes (0x50000 + 64 * 8191) ([0, 0, 0, 0, 0, 0, 0, 0, 0, 0, 8, 0] ++ natBytes 4 1 ++ natBytes 8 0x60000 ++ natBytes 8 0 ++ natBytes 8 0x70000 ++ natBytes 8 1000 ++
      natBytes 4 100000 ++ natBytes 2 63) (ready.setQueue 0 63 { ready.queue 0 63 with streamq := q })) with stBase := 0x50000 }

theorem witness_TapeTimerStreamEvents_bind :
    (ready.stream 8191).sst = .free ∧ ready.svc ≠ .reduced ∧ (streamRecord false).readStream 8191 = none ∧ (∃ y, (streamRecord true).readStream 8191 = some y) ∧
    ((streamed 0 fun x => { x with sst := .evicted }).stream 8191).sst = .evicted ∧ ((streamed 0 fun x => { x with sst := .idle }).stream 8191).sst = .idle ∧
    ((streamed 0 fun x => { x with sst := .active }).stream 8191).sst = .active :=
  ⟨by decide +kernel, by decide +kernel, by decide +kernel, Option.isSome_iff_exists.mp (by decide +kernel), by decide +kernel, by decide +kernel,
    by decide +kernel⟩

theorem witness_TapeTimerStreamEvents_fires :
    (streamed 999 fun x => { x with sst := .idle }).ptime < ((streamed 999 fun x => { x with sst := .idle }).stream 8191).tstart.toNat ∧
    ((streamed 1000 fun x => { x with sst := .idle, lastChunk := 1 }).stream 8191).lastChunk ≠ 0 ∧
    ((streamed 1000 fun x => { x with sst := .idle, lastChunk := 1 }).stream 8191).tstart.toNat ≤ (streamed 1000 fun x => { x with sst := .idle, lastChunk := 1 }).ptime ∧
    ¬(101000 < ((streamed 101000 fun x => { x with sst := .idle, lastChunk := 1000, fires := 1 }).stream 8191).lastChunk + 100000) ∧
    101000 ≤ (streamed 101000 fun x => { x with sst := .idle, lastChunk := 1000, fires := 1 }).ptime ∧
    101000 < ((streamed 101000 fun x => { x with sst := .idle, lastChunk := 1001, fires := 1 }).stream 8191).lastChunk + 100000 := by decide +kernel

theorem witness_TapeTimerStreamEvents_moves :
    ((streamed 0 fun x => { x with sst := .evicting, banks := [4] }).stream 8191).sst = .evicting ∧
    (streamed 0 fun x => { x with sst := .evicting, banks := [4] }).stuck = none ∧
    ((streamed 0 fun x => { x with sst := .evicting, banks := [4] }).stream 8191).backing.toNat % 2 ^ 48 + 131072 * 1 ≤ hbmBytes ∧
    (streamed 0 fun x => { x with sst := .evicted, rld := true }).reloadCluster 8191 = some 0 ∧
    (streamed 0 fun x => { x with sst := .evicted, rld := true, nbanks := 65 }).reloadCluster 8191 = none := by decide +kernel

/-! The fault ring and responses. -/

def anEntry : FEntry := ⟨⟨.trap, 0, 1, 0x40000, 0, 0, false⟩, false, 0, 0, 0, [], .group 0⟩

/-- A ring of 64 entries of which 64 are posted, with one entry that waits, or none. -/
def fullRing (w : List FEntry) : State := parted fun x => { x with fqEn := true, fqLog2n := 6, fqTail := 64, fqBase := 0x60000, wantPost := w }

theorem witness_FaultResponses_ring : (fullRing []).stuck = none ∧ ((fullRing []).part 0).hold = [] ∧
    ((fullRing []).part 0).fqHead < (1#64).toNat ∧ (64#64).toNat ≤ ((fullRing []).part 0).fqTail ∧ ((fullRing []).part 0).fqTail < (65#64).toNat ∧
    (0#64).toNat ≤ ((fullRing []).part 0).fqHead ∧ ((fullRing [anEntry]).part 0).wantPost = [anEntry] ∧
    ((fullRing [anEntry]).part 0).fqTail - (1#64).toNat + anEntry.size ≤ 2 ^ ((fullRing [anEntry]).part 0).fqLog2n ∧ (ready.part 7).fqEn = false := by decide +kernel

/-- An entry of the group is outstanding, with some cause. -/
def answering (c : Cause) : State :=
  (parted fun x => { x with posts := [(1, c)], outstanding := [(1, { anEntry with info := { anEntry.info with cause := c } })] }).updGroup 0 fun g =>
    { g with stopped := true, trapNext := some (0x40000, 0x40008) }

theorem witness_FaultResponses_answers :
    (answering .trap).stuck = none ∧ SMap.find ((answering .trap).part 0).posts 0 = none ∧ SMap.find ((answering .trap).part 0).posts 1 = some .trap ∧
    Cause.memError.cls = .stop ∧ SMap.find ((answering .memError).part 0).posts 1 = some .memError ∧ Cause.launchReject.cls = .note ∧
    SMap.find ((answering .launchReject).part 0).posts 1 = some .launchReject ∧
    (((parted fun x => { x with posts := [(1, .pageFault)] }).part 0).outstanding.find? fun x => x.1 == 1) = none ∧
    (((answering .trap).part 0).outstanding.find? fun x => x.1 == 1) = some (1, anEntry) ∧ (∃ g, (answering .trap).group? 0 = some g ∧ g.trapNext = some (0x40000, 0x40008)) ∧
    (∀ y ∈ ((answering .trap).part 0).outstanding, y.2.info.cause.cls = .replay → y.2 = anEntry) ∧
    (let u := withPart (answering .trap) 0 fun x => { x with fqResp := BitVec.ofNat 64 (1 + 4 * 2 ^ 32) };
      ((u.dropOutstanding 0 fun x => u.entryLaunch x == some 0).killLaunch 0).stuck = none) :=
  ⟨by decide +kernel, by decide +kernel, by decide +kernel, by decide, by decide +kernel, by decide, by decide +kernel, by decide +kernel, by decide +kernel,
    group_witness (by decide +kernel), by decide +kernel, by decide +kernel⟩

/-! Pre-emption, debugging, clusters. -/

def halted_ : State := withGroup (fun g => { g with halted := true }) ready

/-- Partition 0 stops, with an exchange asked for or not. -/
def stopping (x : Option Nat) : State := parted fun p => { p with pst := .stopping, swapIn := x }

/-- Partition 0 stops for an exchange while the shadow store of its die holds the image of partition 1 (log 83). -/
def shadowed : State := (stopping (some 8)).setPart 1 { Part.reset with pst := .shadow, shape := [5], image := true }

theorem witness_PreemptionAndDebugEvents_stop :
    ready.stuck = none ∧ (ready.part 7).pst ≠ .running ∧ (ready.part 0).pst = .running ∧ ready.anyHalted 0 = false ∧ halted_.anyHalted 0 = true ∧
    ready.stopDone 0 = false ∧ (stopping none).stopDone 0 = true ∧ ((((stopping none).takeImage 0 false).saveTeams 0 .saved).writeSave 0).stuck = none ∧
    (stopping (some 8)).stopDone 0 = true ∧
    (stopping (some 8)).shadowsOver ((stopping (some 8)).clustersOf 0) [0, 8] = [] ∧
    (shadowed.shadowsOver (shadowed.clustersOf 0) [0, 8] = [1]) ∧
    (withPart (((stopping (some 8)).takeImage 0 true).saveTeams 0 .shadow) 0 fun x => { x with pst := .shadow, swapIn := none, res := 0 }).stuck = none ∧
    swapResult ready 0 8 = 0 ∧ swapResult ready 0 0 = 3 ∧ swapResult ready 0 9 = 5 ∧ swapResult halted_ 0 8 = 0 ∧ swapResult (stopping none) 0 8 = 1 := by decide +kernel

/-- Partition 0 has been saved, its teams in memory. -/
def saved_ (image : Bool) : State :=
  { parted fun p => { p with pst := .saved, image := image } with teams := [(0, { fetchTeam with tst := .saved })] }

theorem witness_PreemptionAndDebugEvents_resume : ready.clustersOf 7 = [] ∧ (saved_ false).clustersOf 0 = [0] ∧ ((saved_ false).part 0).image = false ∧
    ((withPart (saved_ true) 0 fun x => { x with pcmdCmd := 2, pcmdIn := 0 }).resumePart 0).stuck = none ∧
    (ready.part 0).tslice = 0 ∧ ((parted fun p => { p with tslice := 1, tsact := 2 }).part 0).sliceStart + 1 > ready.ptime ∧
    ∀ a < 4, ((parted fun p => { p with tslice := 1, tsact := a }).part 0).sliceStart + 1 ≤ ({ (parted fun p => { p with tslice := 1, tsact := a }) with ptBase := 1 } : State).ptime := by decide +kernel

/-- A debugger is attached. -/
def watched (h : Bool) : State := withGroup (fun g => { g with halted := h }) (parted fun p => { p with debugger := true })

theorem witness_PreemptionAndDebugEvents_debug :
    (∃ g, (watched false).group? 0 = some g ∧ g.ended = false ∧ g.halted = false) ∧ (watched false).atHome 0 = true ∧
    ((watched false).part ((watched false).partOf 0)).debugger = true ∧ (ready.part (ready.partOf 0)).debugger = false ∧
    (∃ g, (watched true).group? 0 = some g ∧ g.halted = true ∧ g.stopped = false ∧ g.trapNext = none) ∧ ((watched true).part ((watched true).partOf 0)).held = none :=
  ⟨group_witness (by decide +kernel), by decide +kernel, by decide +kernel, by decide +kernel, group_witness (by decide +kernel), by decide +kernel⟩

theorem witness_PreemptionAndDebugEvents_clusters :
    (ready.cluster 47).part = 15 ∧ ready.partExists 7 = false ∧ (ready.cluster 0).part = 0 ∧ (ready.part 0).pst ≠ .saved ∧
    ((saved_ false).part 0).pst = .saved ∧ (∀ x ∈ (saved_ false).teamsOf 0, x.2.tst ≠ .resident ∧ x.2.tst ≠ .evicted) := by decide +kernel

/-! Translation, keys. -/

theorem witness_TranslationAndKeyEvents_walks :
    (ready.part 0).tlbBusy = false ∧ ((parted fun p => { p with tlbBusy := true, tlbWant := [1] }).part 0).tlbBusy = true ∧
    (ready.walks.find? fun w => w.die == 0 && w.part == 0 && w.page == 5 && w.running) = none ∧
    (({ ready with walks := [⟨0, 0, 5, false, [0, 383], true⟩] } : State).walks.find? fun w => w.die == 0 && w.part == 0 && w.page == 0x50000 / 2 ^ 16 && w.running) =
      some ⟨0, 0, 5, false, [0, 383], true⟩ ∧
    ready.accessesOpen 0 = false ∧ ({ ready with stores := [⟨0, .lane 0 0⟩] } : State).accessesOpen 0 = true ∧
    (match ready.walk 0 .write (2 ^ 55 - 1) with | .fault _ _ => true | _ => false) = true ∧ (match ready.walk 0 .read 0x50000 with | .fault _ _ => false | _ => true) = true ∧
    (match ready.walkLeaf (ready.part 0).ptBase.toNat (ready.keyTag (ready.part 0).ptKey) 0x50000 with | .inr _ => true | .inl _ => false) = true := by decide +kernel

theorem find_constant {α : Type} (x : α) (k n a : Nat) (h : a ≤ k) (hk : k < a + n) : SMap.find ((span a n).map fun i => (i, x)) k = some x := by
  induction n generalizing a with
  | zero => omega
  | succ n ih =>
    simp only [span, List.map_cons, SMap.find]
    split
    · rfl
    · exact ih (a + 1) (by omega) (by omega)

/-- Every key ID is LOADED. -/
def sameKeys : State := { ready with keys := (span 1 2047).map fun k => (k, ⟨.loaded, 1⟩) }

theorem witness_TranslationAndKeyEvents_full : sameKeys.keyBusy = false ∧ sameKeys.emptyKey = none := by
  refine ⟨rfl, ?_⟩
  unfold State.emptyKey
  rw [List.find?_eq_none]
  intro k hk
  have h := (mem_span 1 2047 k).mp hk
  simp only [State.key, SMap.getD, sameKeys, find_constant (⟨.loaded, 1⟩ : Key) k 2047 1 h.1 h.2, Option.getD_some]
  decide

theorem witness_TranslationAndKeyEvents_keys :
    ready.keyBusy = false ∧ ready.emptyKey = some 2 ∧ (ready.key 1).kst = .assigned 0 ∧ (ready.key 2047).kst = .empty ∧
    (({ ready with keys := [(2047, ⟨.loaded, 5⟩)] } : State).key 2047).kst = .loaded ∧
    ({ ready with keyBusy := true, keyNext := some (2, ⟨.loaded, 5⟩) } : State).keyNext = some (2, ⟨.loaded, 5⟩) ∧ ready.keyNext = none := by decide +kernel

/-! Power, service, attestation. -/

/-- A cluster of the package changed. -/
def cluster47 (f : Cluster → Cluster) : State := ready.setCluster 47 (f (ready.cluster 47))

theorem witness_PowerEvents_bias :
    5 ≤ (5#32).toNat % 8 ∧ (ready.cluster 0).part < 8 ∧ 8 ≤ (ready.cluster 47).part ∧ Bias.off.code = (4#32).toNat % 8 ∧ Bias.fbb.code = (0#32).toNat % 8 ∧
    (ready.cluster 47).curBias ≠ .off ∧ ((cluster47 fun c => { c with curBias := .off }).cluster 47).curBias = .off ∧ (ready.cluster 47).settleOld = none ∧
    ((cluster47 fun c => { c with settleOld := some .zbb }).cluster 47).settleOld ≠ none := by decide +kernel

theorem witness_PowerEvents_heat :
    let hot := fun (n : Nat) (b : Bias) => (cluster47 fun c => { c with temp := n, curBias := b, req := .fbb }).cluster 47
    ready.svc ≠ .reduced ∧ (ready.cluster 47).stepAt = 0 ∧ ((cluster47 fun c => { c with stepAt := 1 }).cluster 47).stepAt + 2050000 > ready.now ∧
    (hot 1680 .zbb).thr.toNat / 65536 % 4096 ≤ (hot 1680 .zbb).temp ∧ (hot 1679 .zbb).temp < (hot 1679 .zbb).thr.toNat / 65536 % 4096 ∧
    (hot 1488 .zbb).thr.toNat % 4096 ≤ (hot 1488 .zbb).temp + 32 ∧ (hot 1487 .zbb).temp + 32 < (hot 1487 .zbb).thr.toNat % 4096 ∧
    (hot 1487 .zbb).req.code < (hot 1487 .zbb).curBias.code ∧ Bias.fbb.code + 1 = (hot 1487 .zbb).curBias.code ∧ (hot 1680 .rbb1).curBias.code < 3 ∧
    Bias.rbb2.code = (hot 1680 .rbb1).curBias.code + 1 ∧ (hot 1680 .rbb2).curBias = .rbb2 := by decide +kernel

/-- Bank 3071 changed, at some moment. -/
def banked (now : Nat) (f : Bank → Bank) : State := { ready.setBank 3071 (f Bank.reset) with now := now }

theorem witness_PowerEvents_banks :
    let x := banked 100000000 fun b => { b with mode := .cache, pwr := .on }
    ((x.bank 3071).transit = none ∧ (x.bank 3071).waking = false ∧ (x.bank 3071).mode ≠ .pool ∧ x.bankPhase 3071 < 2) ∧
    (x.bank 3071).lastUse + (x.cluster (3071 / 64)).dieCycles (restCount (x.bankPhase 3071) 32 256) ≤ x.now ∧
    (x.bank 3071).lastUse + (x.cluster (3071 / 64)).dieCycles (restCount (x.bankPhase 3071) 4096 16384) ≤ x.now ∧ (x.bank 3071).owner = .none ∧
    ¬((ready.bank 3071).lastUse + (ready.cluster (3071 / 64)).dieCycles (restCount (ready.bankPhase 3071) 32 256) ≤ ready.now) ∧
    ((banked 0 fun b => { b with mode := .scratch, pwr := .retain, waking := true }).bank 3071).waking = true ∧ (ready.bank 3071).waking = false ∧
    ready.bringUp 3071 = false ∧ ((banked 0 fun b => { b with refill := true }).bank 3071).refill = true ∧ ready.warmCount 47 = 0 ∧
    (ready.cluster 47).warm ≤ ready.warmCount 47 ∧ (cluster47 fun c => { c with warm := 1 }).warmCount 47 < ((cluster47 fun c => { c with warm := 1 }).cluster 47).warm := by decide +kernel

/-- Slice 127 has rested, and does something. -/
def slicedAt (now : Nat) (pwr : SMap Pwr) (waking : Bool) : State :=
  { ready with now := now, slicePwr := pwr, slices := SMap.put ready.slices 127 { ready.slice 127 with waking := waking, lastUse := 0 } }

theorem witness_PowerEvents_slices :
    (∀ n ∈ [32, 4096], (127 < 128 ∧ ((slicedAt n [] false).slice 127).waking = false ∧ ((slicedAt n [] false).slice 127).lastUse + n ≤ (slicedAt n [] false).now) ∧
      ¬((slicedAt (n - 1) [] false).slice 127).lastUse + n ≤ (slicedAt (n - 1) [] false).now) ∧
    (∀ y ∈ ready.teams, ¬3 ≤ ready.teamPhase y.1) ∧
    SMap.find (slicedAt 0 [] false).slicePwr 127 = none ∧ SMap.find (slicedAt 0 [(127, .retain)] true).slicePwr 127 = some .retain ∧
    ((slicedAt 0 [(127, .retain)] true).slice 127).waking = true := by decide +kernel

/-- The package with nothing resident, in some service state. -/
def serving (x : Svc) (h : BitVec 8) : State := { State.reset with svc := x, hbmOk := h }

theorem witness_ServiceAndAttestationEvents_service :
    ready.quiescent = false ∧ (∀ x ∈ [Svc.boot, .reduced, .test, .normal, .recovery], (serving x 255).quiescent = true) ∧ serviceRow true .boot 3 = none ∧
    serviceRow ((serving .recovery 254).hbmOk == 255#8) .recovery 3 = none ∧ serviceRow ((serving .reduced 254).hbmOk == 255#8) .reduced 3 = some .recovery ∧
    serviceRow true .test 1 = some .reduced ∧ serviceRow true .normal 4 = some .recovery ∧ ready.svc = .normal := by decide +kernel

def anImage : Image := ⟨[], [], [], 0⟩

/-- What an image verifies is left open, so that only its refusal has a witness (log 15). -/
theorem witness_ServiceAndAttestationEvents_boot :
    State.reset.svc = .boot ∧ State.reset.bootFailed = false ∧ State.reset.bootDone = false ∧ State.reset.stages < 8 ∧ State.reset.imageOk anImage = false ∧
    State.reset.uncommitted = false ∧ ({ State.reset with uncommitted := true, stages := 8 } : State).uncommitted = true ∧ ready.svc ≠ .boot ∧
    State.reset.negotiated = false ∧ ({ State.reset with negotiated := true } : State).negotiated = true := by decide +kernel

/-! L2 homes, the fabric. -/

def aRead : HomeRead := ⟨0xA00, 0, false, true, 1, false⟩
def aSlice : Nat := homeSlice (0xA00 * 128)
def aSet : Nat := aSlice * 1024 + homeSet (0xA00 * 128)

/-- A request for line 0xA00 that `aRead` serves, asked at some moment. -/
def aReq (write : Bool) (at_ : Nat) : HomeReq := ⟨0xA00, 2, 0, false, 1, write, 0, some (0, 1), at_⟩

/-- It is queued. -/
def asked (write : Bool) (at_ : Nat) (s : State) : State := { s with homeReqs := [aReq write at_] }

/-- Line 0xA00 lies in way 3 of its set. -/
def cached (s : State) : State := { s with l2 := [(aSet, [(3, ⟨0xA00, 3, .g, false, 0⟩)])] }

/-- A multicast read of it was accepted 0 cycles ago, in a window of 32. -/
def aCast : Mcast := ⟨0xA00, 0, 32, (0, 1), [0], 0⟩
def casting (now : Nat) (s : State) : State := { s with mcasts := [aCast], now := now }

theorem witness_FabricEvents_homes :
    (ready.homeReqs.find? fun q => q.serves aRead) = none ∧
    (∀ w ∈ [true, false], ((asked w 7 ready).homeReqs.find? fun q => q.serves aRead) = some (aReq w 7)) ∧
    SMap.find ready.slicePwr aSlice = none ∧ SMap.find ({ ready with slicePwr := [(aSlice, Pwr.nap)] } : State).slicePwr aSlice ≠ none ∧
    ((asked false 7 ready).mcasts.find? fun m => m.line == 0xA00) = none ∧
    SMap.find (SMap.getD (cached ready).l2 aSet []) 3 = some ⟨0xA00, 3, .g, false, 0⟩ ∧ (∀ j < 3, SMap.find (SMap.getD (cached ready).l2 aSet []) j = none) ∧
    SMap.getD ready.l2 aSet [] = [] ∧ ready.l2wayg.getLsbD 0 = !aRead.classH ∧
    ({ ready with l2wayg := 0x8000 } : State).l2wayg.getLsbD 15 = !aRead.classH ∧ (∀ j < 15, ({ ready with l2wayg := 0x8000 } : State).l2wayg.getLsbD j ≠ !aRead.classH) ∧
    (∀ now ∈ [32, 33], ((casting now (asked false 7 ready)).mcasts.find? fun m => m.line == 0xA00) = some aCast ∧
      (casting now (asked false 7 ready)).sameRead 0xA00 aCast.at_ 7 = true) ∧
    (casting 32 ready).now ≤ aCast.accepted + aCast.win ∧ aCast.accepted + aCast.win < (casting 33 ready).now ∧ aRead.pastRouter = false := by decide +kernel

/-- A frame that names this package, and the fabric's table (Table 18-1 as the partition's). -/
def aFrame (payload : List Byte) : Frame := ⟨31, 2, 0, 0x50000, 5, 9, false, payload⟩
def fabric : State := { ready with ftBase := 0x10000 }

theorem witness_FabricEvents_requests :
    fabric.stuck = none ∧ forUs fabric (aFrame []) ∧ ¬forUs State.reset (aFrame []) ∧ fabric.fabricXlate true (2 ^ 55 - 1) = none ∧
    (match fabric.fabricXlate true 0x50000 with | some (pa, _) => pa == 0x50000 && !fabric.stackFails pa && decide (pa < hbmBytes) | none => false) = true ∧
    (match fabric.fabricXlate false 0x50000 with | some (pa, _) => pa == 0x50000 | none => false) = true ∧
    recField (aFrame [0, 8, 1]).payload 2 1 ≠ 2 ∧ atomicOf (aFrame [0, 6, 3, 0, 0, 0]).payload (fun _ => 4) = some (4, 7) := by
  unfold forUs
  decide +kernel

/-- A request is open, from a lane, a hart, a command or a reader of records. -/
def anOpen (src : Src) (ld : Bool) (dest : RDest) : Remote := ⟨5, src, ld, 0, [], .b32, false, aFrame [], 1, 0x40000, 0x50000, dest⟩
def owed (src : Src) (ld : Bool) (dest : RDest) : State :=
  { chanOf [{ aCmd with waiting := true }] ready with remotes := [anOpen src ld dest], sent := [⟨1, aFrame []⟩] }

theorem witness_FabricEvents_answers : forUs ready (aFrame [1]) ∧ (ready.remotes.find? fun r => r.tag == 5) = none ∧
    (∀ src ∈ [Src.lane 0 31, .hart 31 7, .engine 0 1, .take 7 true], ∀ ld ∈ [true, false], ∀ d ∈ [RDest.value, .fill 0, .feat, .record],
      ((owed src ld d).remotes.find? fun r => r.tag == 5) = some (anOpen src ld d)) ∧
    (∀ ch num, (anOpen (.take 7 true) true .record).src ≠ .engine ch num) ∧
    (ready.sent.find? fun x => x.frame.port == 31 && x.frame.lseq == 9) = none ∧
    ((owed (.hart 31 7) true .value).sent.find? fun x => x.frame.port == 31 && x.frame.lseq == 9) = some ⟨1, aFrame []⟩ := by
  unfold forUs
  refine ⟨by decide +kernel, by decide +kernel, by decide +kernel, ?_, by decide +kernel, by decide +kernel⟩
  intro ch num h
  cases h

theorem witness_FabricEvents_refusal :
    (∃ g, (owed (.lane 0 31) false .value).group? 0 = some g ∧ g.ended = false ∧ g.stopped = false ∧ g.park ≠ .fault) ∧
    (∃ g, (withGroup (fun g => { g with stopped := true }) (owed (.lane 0 31) false .value)).group? 0 = some g ∧ g.stopped = true) :=
  ⟨group_witness (P := fun g => g.ended = false ∧ g.stopped = false ∧ g.park ≠ .fault) (by decide +kernel),
    group_witness (P := fun g => g.stopped = true) (by decide +kernel)⟩

/-! Registers, harts, management. -/

theorem witness_RegisterResult :
    ready.stuck = none ∧ regOfAccess 0x400020 4 = none ∧ (∃ x ∈ plainRegisters 7 63 47, x.2.1 = 8) ∧ (∃ x ∈ fixedRegisters 7 63 47 31, x.2 = 4) ∧
    ((span 0 16).filter fun i => (0x7#32).getLsbD i).length < 4 ∧ 4 ≤ ((span 0 16).filter fun i => (0xF000#32).getLsbD i).length ∧
    ((span 0 16).filter fun i => (0x0FFF#32).getLsbD i).length ≤ 12 ∧ 12 < ((span 0 16).filter fun i => (0x1FFF#32).getLsbD i).length ∧
    64 < others ready 7 Part.netShare + (65#64).toNat % 128 ∧ others ready 7 Part.netShare + (64#64).toNat % 128 ≤ 64 ∧
    50000 < others ready 7 (fun q => (atD q.portReg 31 0).toNat % 2 ^ 17) + (50001#64).toNat % 2 ^ 17 ∧
    others ready 7 (fun q => (atD q.portReg 31 0).toNat % 2 ^ 17) + (50000#64).toNat % 2 ^ 17 ≤ 50000 ∧
    64 < others ready 7 (fun q => (atD q.hbmReg 7 0).toNat % 2 ^ 7) + (65#64).toNat % 2 ^ 7 ∧
    others ready 7 (fun q => (atD q.hbmReg 7 0).toNat % 2 ^ 7) + (64#64).toNat % 2 ^ 7 ≤ 64 ∧ ((-1 : BitVec 64)).toInt ≤ 0 := by
  refine ⟨by decide +kernel, by decide +kernel, ?_, ?_, ?_⟩
  · exact ⟨(0x400000 + 0x10000 * 7 + 0x40 * 63, 8, 2 ^ 64 - 2 ^ 6), List.mem_cons_self, rfl⟩
  · exact ⟨(0x50000C, 4), by decide +kernel, rfl⟩
  · decide +kernel

/-- Hart 31 belongs to partition 0. -/
def ownedHart : State := { ready with hpart := [(31, 0)] }

theorem witness_HostAndManagementEvents_harts :
    ready.stuck = none ∧ ready.hostHeld.contains 31 = false ∧ ({ ready with hostHeld := [31] } : State).hostHeld.contains 31 = true ∧
    SMap.getD ready.hpart 31 15 = 15 ∧ ready.svc ≠ .reduced ∧ (hbmBytes - 8) + 8 ≤ hbmBytes ∧ ready.stackFails (hbmBytes - 8) = false ∧
    hbmBytes < (hbmBytes - 7) + 8 ∧ hbmBytes - 7 < 0xF000000000 ∧ (0xFFFFF8 : Nat) < 2 ^ 24 ∧
    (∀ x ∈ ready.hostWait, x.1 ≠ 31) ∧ (∀ r ∈ ready.remotes, ∀ p, r.src ≠ .hart 31 p) ∧ SMap.find ({ ready with hostResv := [(31, (0, 4, 0))] } : State).hostResv 31 = some (0, 4, 0) := by
  refine ⟨by decide +kernel, by decide +kernel, by decide +kernel, by decide +kernel, by decide +kernel, by decide +kernel, by decide +kernel, by decide +kernel,
    by decide +kernel, by decide +kernel, by decide +kernel, ?_, by decide +kernel⟩
  intro r hr
  have h : ready.remotes = [] := by decide +kernel
  simp [h] at hr

theorem witness_HostAndManagementEvents_owed : ∃ r ∈ (owed (.hart 31 7) true .value).remotes, ∃ p, r.src = .hart 31 p :=
  ⟨anOpen (.hart 31 7) true .value, List.mem_cons_self, 7, rfl⟩

theorem witness_HostAndManagementEvents_tables :
    SMap.getD ownedHart.hpart 31 15 = 0 ∧ ownedHart.partExists 0 = true ∧ 0x5FFF8 % 65536 + 8 ≤ 65536 ∧
    (∀ acc ∈ [Acc.read, .write], (match ownedHart.translate 0 (ownedHart.hartAgent 31) acc 0x5FFF8 with
      | .mem pa _ => pa == 0x5FFF8 && !ownedHart.stackFails pa && decide (pa < hbmBytes) | _ => false) = true) ∧
    (match ownedHart.translate 0 (ownedHart.hartAgent 31) .read (2 ^ 54) with | .fault _ _ => true | _ => false) = true := by decide +kernel

def aProfile (p : Nat) : Profile := ⟨p, [], [], [], 0, 64, [], [], 0, 0, false, false, []⟩

theorem witness_HostAndManagementEvents_management :
    ready.pstate 0 ≠ .saved ∧ ready.profileRefused (aProfile 7) = false ∧ 64 < others ready 7 Part.netShare + ({ aProfile 7 with netshare := 65 } : Profile).netshare.toNat % 128 ∧
    ready.flashBusy = false ∧ ready.imageOk anImage = false ∧ ({ ready with flashBusy := true } : State).flashBusy = true ∧ ready.uncommitted = false ∧
    ({ ready with uncommitted := true, bootDone := true } : State).bootDone = true := by decide +kernel

/-! The manual's worked examples, and wraps and clamps worked out from its formulas. -/

/-- What lane 0 reads from a register after one instruction that runs with some registers in every lane. -/
def gives (i : Instr) (v : SMap Word) (r : Nat) : Option Word :=
  match exec i (withRegs v ready) with
  | .next t => (t.group? 0).map fun g => g.reg 0 r
  | _ => none

/-- R160: −2^31 negated wraps or clamps; 3 − 5 clamps at 0; 65536 × 65536 clamps at 2^31 − 1, and its high word is 1. -/
theorem test_integer_edges :
    gives (.ineg h0 false 1 2) [(2, 0x80000000)] 1 = some 0x80000000 ∧ gives (.ineg h0 true 1 2) [(2, 0x80000000)] 1 = some 0x7FFFFFFF ∧
    gives (.isub h0 .z32 true 1 2 (.reg 3)) [(2, 3), (3, 5)] 1 = some 0 ∧ gives (.isub h0 .z32 false 1 2 (.reg 3)) [(2, 3), (3, 5)] 1 = some 0xFFFFFFFE ∧
    gives (.imul h0 .s32 true 2 2 (.reg 2)) [(2, 0x10000)] 2 = some 0x7FFFFFFF ∧ gives (.imulhi h0 .z32 1 2 (.reg 2)) [(2, 0x10000)] 1 = some 1 := by decide +kernel

/-- R163: 0xE8 is the majority of its sources and 0x96 their exclusive or. -/
theorem test_lop3_tables :
    gives (.lop3 h0 0xE8 1 2 3 4) [(2, 0xF0F0), (3, 0xFF00), (4, 0xCCCC)] 1 = some 0xFCC0 ∧
    gives (.lop3 h0 0x96 1 2 3 4) [(2, 0xF0F0), (3, 0xFF00), (4, 0xCCCC)] 1 = some 0xC33C := by decide +kernel

/-- R164: amounts at and past the width. -/
theorem test_shift_amounts :
    gives (.shl h0 1 2 (.imm 32)) [(2, 1)] 1 = some 0 ∧ gives (.sra h0 1 2 (.reg 3)) [(2, 0x80000000), (3, 0xFFFFFFFF)] 1 = some 0xFFFFFFFF ∧
    gives (.rotl h0 1 2 (.imm 33)) [(2, 0x80000001)] 1 = some 3 := by decide +kernel

/-- Table 5-5. -/
theorem test_conversions :
    gives (.fcvt h0 .bf16 .f32 .rne false false false 1 2) [(2, 0x3EAAAAAB)] 1 = some 0x3EAB ∧ gives (.fcvt h0 .f16 .f32 .rne false false false 1 2) [(2, 0x3EAAAAAB)] 1 = some 0x3555 ∧
    gives (.fcvt h0 .e4m3 .f32 .rne false false false 1 2) [(2, 0x43FA0000)] 1 = some 0x7E ∧ gives (.fcvt h0 .e4m3 .f32 .rne false false true 1 2) [(2, 0x43FA0000)] 1 = some 0x7F ∧
    gives (.fcvt h0 .e5m2 .f32 .rne false false false 1 2) [(2, 0x43FA0000)] 1 = some 0x60 ∧ gives (.fcvt h0 .e5m2 .f32 .rne false false false 1 2) [(2, 0x3DCCCCCD)] 1 = some 0x2E := by
  decide +kernel

theorem test_conversions_small :
    gives (.fcvt h0 .e4m3 .f32 .rne false false false 1 2) [(2, 0x3DCCCCCD)] 1 = some 0x1D ∧ gives (.fcvt h0 .f16 .f32 .rne false false false 1 2) [(2, 0x35800000)] 1 = some 0x10 ∧
    gives (.fcvt h0 .f16 .f32 .rne true false false 1 2) [(2, 0x35800000)] 1 = some 0 ∧ gives (.fcvt h0 .e5m2 .f32 .rne false false false 1 2) [(2, 0x35800000)] 1 = some 0 ∧
    gives (.fcvt h0 .e5m2 .f32 .rne false false false 1 2) [(2, 0x7F800000)] 1 = some 0x7C ∧ gives (.fcvt h0 .bf16 .f32 .rne false false false 1 2) [(2, 0xFFC12345)] 1 = some 0x7FC0 := by
  decide +kernel

/-- R114, R115 and Table 5-2: 0.3 and 0.75 under scale 1. -/
theorem test_ds8_encodings :
    gives (.ds8enc h0 false 1 2 3) [(2, 0x3E99999A), (3, 127)] 1 = some 0x24 ∧ gives (.ds8enc h0 false 1 2 3) [(2, 0x3F400000), (3, 127)] 1 = some 0x0A := by decide +kernel

/-- R123: the sign of an exact zero. -/
theorem test_zero_signs :
    gives (.fsub h0 .rne false 1 2 2) [(2, 0)] 1 = some 0 ∧ gives (.fadd h0 .rne false 1 2 2) [(2, 0x80000000)] 1 = some 0x80000000 := by decide +kernel

/-- Table 5-7. -/
theorem test_matrix_orders :
    let p : List FVal := [.fin false 1 0, .fin false 1 (-24), .fin false 1 (-24), .fin false 0 0, .fin false 0 0, .fin false 0 0, .fin false 0 0, .fin false 0 0,
      .fin false 1 (-24), .fin false 0 0, .fin false 0 0, .fin false 0 0, .fin false 0 0, .fin false 0 0, .fin false 0 0, .fin false 0 0]
    mmaElem 2 false (.fin false 0 0) p = 0x3F80000180 ∧ mmaElem 1 false (.fin false 0 0) p = 0x3F80000200 ∧ mmaElem 0 false (.fin false 0 0) p = 0x3F80000000 ∧
    drainElem .f32 Tpb.zero false 0 0 0 0x3F80000180 = 0x3F800002 ∧ drainElem .f32 Tpb.zero false 0 0 0 0x3F80000200 = 0x3F800002 := by decide +kernel

/-- R277, R290: the special registers of lane 0 of the first group. -/
theorem test_special_registers :
    gives (.sregGet h0 1 0x00) [] 1 = some 0 ∧ gives (.sregGet h0 1 0x07) [] 1 = some 0 ∧ gives (.sregGet h0 1 0x08) [] 1 = some 0 := by decide +kernel

/-- The program counter of lane 0, and what its group is held by. -/
def lands (i : Instr) (s : State) : Option (DWord × Bool × Park) :=
  match exec i s with
  | .next t => (t.group? 0).map fun g => ((g.lane 0).pc, g.stopped, g.park)
  | _ => none

/-- R145, R170: instructions of 8 and 12 bytes, a branch to an address below its own, and a trap that holds its group at the trap. -/
theorem test_program_counters :
    lands (.nop h0) ready = some (0x40008, false, .none) ∧ lands (.nopWidened ⟨0, false, true⟩) ready = some (0x4000C, false, .none) ∧
    lands (.bra h0 0xFFFFFFC0) ready = some (0x3FFC0, false, .none) ∧ lands (.trap h0 3) ready = some (0x40000, true, .none) ∧
    lands (.regsShrink h0 8) ready = some (0x40000, true, .none) := by decide +kernel

/-- Little-endian order of a store, and the bytes around it (R142, R208). -/
theorem test_store_bytes :
    (match exec (.stG h1 ⟨.b32, 8, 4, 4⟩) (one (withRegs [(4, 0x50000), (8, 0x11223344)] ready)) with
      | .next t => some ((span 0x50003 6).map fun a => t.readByte 2049 a)
      | _ => none) = some [0, 0x44, 0x33, 0x22, 0x11, 0] := by decide +kernel

end Sys2Proof.Tests
end

section
/-! PROOF. O40: the decoder reads back what the encoder writes (Tables 6-7 to 6-9, R5, R142, R145, R147). -/

namespace Sys2Proof.Laws

open Sys2Proof

/-! Byte strings as numbers (R5). -/

@[simp] theorem natBytes_length (n w : Nat) : (natBytes n w).length = n := by
  induction n generalizing w with
  | zero => rfl
  | succ n ih => simp [natBytes, ih]

theorem leNat_natBytes (n w : Nat) : leNat (natBytes n w) = w % 256 ^ n := by
  induction n generalizing w with
  | zero => simp [natBytes, leNat, Nat.mod_one]
  | succ n ih =>
    calc leNat (natBytes (n + 1) w) = w % 256 + 256 * (w / 256 % 256 ^ n) := by
          rw [natBytes, leNat, ih, BitVec.toNat_ofNat]
      _ = w % 256 ^ (n + 1) := by rw [Nat.pow_succ', Nat.mod_mul]

theorem leNat_natBytes_of_lt {n w : Nat} (h : w < 256 ^ n) : leNat (natBytes n w) = w := by
  rw [leNat_natBytes, Nat.mod_eq_of_lt h]

theorem leNat_take_one_natBytes {n : Nat} (hn : 0 < n) (w : Nat) (bs : List Byte) :
    leNat ((natBytes n w ++ bs).take 1) = w % 256 := by
  obtain ⟨n, rfl⟩ := Nat.exists_eq_add_one_of_ne_zero hn.ne'
  simp [natBytes, leNat]

/-! The fields of a packed word (Table 6-8). -/

theorem Raw.unpack_pack (r : Raw) : Raw.unpack r.pack = r := by
  obtain ⟨len, opc, gp, gn, d, a, b, c, x, m, w2, w3⟩ := r
  simp only [Raw.unpack, Raw.pack, Raw.mk.injEq]
  refine ⟨?_, ?_, ?_, ?gn, ?_, ?_, ?_, ?_, ?_, ?_, ?_, ?_⟩
  case gn =>
    simp only [BitVec.getLsbD_append]
    simp
  all_goals
    simp (disch := omega) only [BitVec.extractLsb'_append_eq_of_le, BitVec.extractLsb'_append_eq_of_add_le]
    exact extract_all _

theorem Raw.pack_mod_four (r : Raw) : r.pack.toNat % 4 = r.len.toNat := by
  have h : r.pack.extractLsb' 0 2 = r.len := congrArg Raw.len (Raw.unpack_pack r)
  simpa using congrArg BitVec.toNat h

theorem Raw.pack_word2 (r : Raw) : r.pack.toNat / 2 ^ 64 % 2 ^ 32 = r.w2.toNat := by
  have h : r.pack.extractLsb' 64 32 = r.w2 := congrArg Raw.w2 (Raw.unpack_pack r)
  simpa [Nat.shiftRight_eq_div_pow] using congrArg BitVec.toNat h

theorem Raw.pack_word3 (r : Raw) : r.pack.toNat / 2 ^ 96 % 2 ^ 32 = r.w3.toNat := by
  have h : r.pack.extractLsb' 96 32 = r.w3 := congrArg Raw.w3 (Raw.unpack_pack r)
  simpa [Nat.shiftRight_eq_div_pow] using congrArg BitVec.toNat h

theorem Instr.len_cases (i : Instr) : i.len = 8 ∨ i.len = 12 ∨ i.len = 16 := by
  unfold Instr.len
  split
  · split <;> simp
  · simp
  · simp

/-- An instruction of 8 or 12 bytes has no word above its length, so its packed fields fit that length (R142). -/
theorem Raw.pack_lt {r : Raw} {i : Instr} (h2 : i.len = 8 → r.w2 = 0#32) (h3 : i.len ≤ 12 → r.w3 = 0#32) :
    r.pack.toNat < 256 ^ i.len := by
  have hp := r.pack.isLt
  have hw2 := Raw.pack_word2 r
  have hw3 := Raw.pack_word3 r
  rcases Instr.len_cases i with h | h | h
  · rw [h2 h, BitVec.toNat_zero] at hw2
    rw [h3 (by omega), BitVec.toNat_zero] at hw3
    rw [h]
    omega
  · rw [h3 (by omega), BitVec.toNat_zero] at hw3
    rw [h]
    omega
  · rw [h]
    omega

/-! From words to instructions. -/

theorem lenBytes_pos (l : Nat) : 0 < lenBytes l := by
  unfold lenBytes
  split <;> decide

/-- No instruction has the 4 bytes of a fill word (R142, R146). -/
theorem len_ne_fill {r : Raw} {i : Instr} (h : lenBytes r.len.toNat = i.len) : r.len.toNat ≠ 3 := by
  intro h3
  rw [h3] at h
  rcases Instr.len_cases i with hl | hl | hl <;> rw [hl] at h <;> cases h

/-- Rows 1 and 2 of Table 6-10 turn away no packed word that fits its block, and the bytes after it are not looked at. -/
theorem decode_pack {r : Raw} {n off : Nat} (bs : List Byte) (hn : lenBytes r.len.toNat = n) (hf : r.len.toNat ≠ 3)
    (hlt : r.pack.toNat < 256 ^ n) (h4 : off % 4 = 0) (h32 : off + n ≤ 32) :
    decode off (natBytes n r.pack.toNat ++ bs) = (decodeRaw r).map .instr := by
  have hpos : 0 < n := hn ▸ lenBytes_pos _
  have hl : leNat ((natBytes n r.pack.toNat ++ bs).take 1) % 4 = r.len.toNat := by
    rw [leNat_take_one_natBytes hpos, Nat.mod_mod_of_dvd _ (by decide : 4 ∣ 256), Raw.pack_mod_four]
  have hword : leNat ((natBytes n r.pack.toNat ++ bs).take n) = r.pack.toNat := by
    rw [List.take_left' (natBytes_length n _), leNat_natBytes_of_lt hlt]
  have hfit : ¬(off % 4 ≠ 0 ∨ off + n > 32) := by omega
  have hlen : ¬(natBytes n r.pack.toNat ++ bs).length < n := by
    rw [List.length_append, natBytes_length]; omega
  simp only [decode, hl, hn, if_neg hfit, if_neg hlen, if_neg hf, hword, BitVec.ofNat_toNat, BitVec.setWidth_eq,
    Raw.unpack_pack]
  cases decodeRaw r <;> rfl

/-- What the encoder places for an instruction is read back as that instruction; no word names a device event. -/
theorem toRaw_roundTrip (i : Instr) : RoundTrip.Statement i := by
  cases i with
  | iadd => apply RoundTrip.iadd
  | isub => apply RoundTrip.isub
  | imul => apply RoundTrip.imul
  | imulhi => apply RoundTrip.imulhi
  | imad => apply RoundTrip.imad
  | iadd64 => apply RoundTrip.iadd64
  | isub64 => apply RoundTrip.isub64
  | imad64 => apply RoundTrip.imad64
  | iaddc => apply RoundTrip.iaddc
  | ineg => apply RoundTrip.ineg
  | iabs => apply RoundTrip.iabs
  | imin => apply RoundTrip.imin
  | imax => apply RoundTrip.imax
  | and => apply RoundTrip.and
  | or => apply RoundTrip.or
  | xor => apply RoundTrip.xor
  | andn => apply RoundTrip.andn
  | not => apply RoundTrip.not
  | lop3 => apply RoundTrip.lop3
  | shl => apply RoundTrip.shl
  | shr => apply RoundTrip.shr
  | sra => apply RoundTrip.sra
  | shl64 => apply RoundTrip.shl64
  | shr64 => apply RoundTrip.shr64
  | rotl => apply RoundTrip.rotl
  | clz => apply RoundTrip.clz
  | popc => apply RoundTrip.popc
  | brev => apply RoundTrip.brev
  | bfx => apply RoundTrip.bfx
  | bfi => apply RoundTrip.bfi
  | sel => apply RoundTrip.sel
  | mov => apply RoundTrip.mov
  | lea => apply RoundTrip.lea
  | iaddImm => apply RoundTrip.iaddImm
  | isubImm => apply RoundTrip.isubImm
  | imulImm => apply RoundTrip.imulImm
  | imadImm => apply RoundTrip.imadImm
  | iminImm => apply RoundTrip.iminImm
  | imaxImm => apply RoundTrip.imaxImm
  | andImm => apply RoundTrip.andImm
  | orImm => apply RoundTrip.orImm
  | xorImm => apply RoundTrip.xorImm
  | andnImm => apply RoundTrip.andnImm
  | movk => apply RoundTrip.movk
  | movk64 => apply RoundTrip.movk64
  | icmp => apply RoundTrip.icmp
  | pset => apply RoundTrip.pset
  | pget => apply RoundTrip.pget
  | pand => apply RoundTrip.pand
  | por => apply RoundTrip.por
  | pxor => apply RoundTrip.pxor
  | pnot => apply RoundTrip.pnot
  | pmov => apply RoundTrip.pmov
  | bra => apply RoundTrip.bra
  | brx => apply RoundTrip.brx
  | call => apply RoundTrip.call
  | callx => apply RoundTrip.callx
  | ret => apply RoundTrip.ret
  | exit => apply RoundTrip.exit
  | rejoinArm => apply RoundTrip.rejoinArm
  | rejoin => apply RoundTrip.rejoin
  | yield => apply RoundTrip.yield
  | nop => apply RoundTrip.nop
  | nopWidened => apply RoundTrip.nopWidened
  | qswap => apply RoundTrip.qswap
  | qbcast => apply RoundTrip.qbcast
  | gshfl => apply RoundTrip.gshfl
  | gvote => apply RoundTrip.gvote
  | gsync => apply RoundTrip.gsync
  | gmatch => apply RoundTrip.gmatch
  | gredux => apply RoundTrip.gredux
  | gscan => apply RoundTrip.gscan
  | gelect => apply RoundTrip.gelect
  | fadd => apply RoundTrip.fadd
  | fsub => apply RoundTrip.fsub
  | fmul => apply RoundTrip.fmul
  | ffma => apply RoundTrip.ffma
  | fmin => apply RoundTrip.fmin
  | fmax => apply RoundTrip.fmax
  | frnd => apply RoundTrip.frnd
  | fcmp => apply RoundTrip.fcmp
  | fclass => apply RoundTrip.fclass
  | fsign => apply RoundTrip.fsign
  | fscale => apply RoundTrip.fscale
  | hadd2 => apply RoundTrip.hadd2
  | hmul2 => apply RoundTrip.hmul2
  | hfma2 => apply RoundTrip.hfma2
  | badd2 => apply RoundTrip.badd2
  | bmul2 => apply RoundTrip.bmul2
  | bfma2 => apply RoundTrip.bfma2
  | fdot2 => apply RoundTrip.fdot2
  | bdot2 => apply RoundTrip.bdot2
  | qdot4 => apply RoundTrip.qdot4
  | fcvt => apply RoundTrip.fcvt
  | fcvtSr => apply RoundTrip.fcvtSr
  | fcvti => apply RoundTrip.fcvti
  | icvtf => apply RoundTrip.icvtf
  | fpack => apply RoundTrip.fpack
  | funpack => apply RoundTrip.funpack
  | fbmax => apply RoundTrip.fbmax
  | ds8enc => apply RoundTrip.ds8enc
  | ds8dec => apply RoundTrip.ds8dec
  | frcp => apply RoundTrip.frcp
  | frsq => apply RoundTrip.frsq
  | fsqrt => apply RoundTrip.fsqrt
  | fexp2 => apply RoundTrip.fexp2
  | flog2 => apply RoundTrip.flog2
  | fsin => apply RoundTrip.fsin
  | fcos => apply RoundTrip.fcos
  | ftanh => apply RoundTrip.ftanh
  | fsigm => apply RoundTrip.fsigm
  | ld => apply RoundTrip.ld
  | ldG => apply RoundTrip.ldG
  | ldS => apply RoundTrip.ldS
  | ldC => apply RoundTrip.ldC
  | ldP => apply RoundTrip.ldP
  | st => apply RoundTrip.st
  | stG => apply RoundTrip.stG
  | stS => apply RoundTrip.stS
  | stC => apply RoundTrip.stC
  | stP => apply RoundTrip.stP
  | pref => apply RoundTrip.pref
  | spt => apply RoundTrip.spt
  | spc => apply RoundTrip.spc
  | xlatePf => apply RoundTrip.xlatePf
  | atomAdd => apply RoundTrip.atomAdd
  | atomMin => apply RoundTrip.atomMin
  | atomMax => apply RoundTrip.atomMax
  | atomAnd => apply RoundTrip.atomAnd
  | atomOr => apply RoundTrip.atomOr
  | atomXor => apply RoundTrip.atomXor
  | atomExch => apply RoundTrip.atomExch
  | atomCas => apply RoundTrip.atomCas
  | atomFadd => apply RoundTrip.atomFadd
  | atomInc => apply RoundTrip.atomInc
  | red => apply RoundTrip.red
  | fence => apply RoundTrip.fence
  | hgLoad => apply RoundTrip.hgLoad
  | hgGrad => apply RoundTrip.hgGrad
  | hgCorner => apply RoundTrip.hgCorner
  | chanSend => apply RoundTrip.chanSend
  | chanRecv => apply RoundTrip.chanRecv
  | chanProbe => apply RoundTrip.chanProbe
  | fifoPush => apply RoundTrip.fifoPush
  | fifoPop => apply RoundTrip.fifoPop
  | bankMode => apply RoundTrip.bankMode
  | sctxGet => apply RoundTrip.sctxGet
  | mmaF16 => apply RoundTrip.mmaF16
  | mmaBf16 => apply RoundTrip.mmaBf16
  | mmaE4m3 => apply RoundTrip.mmaE4m3
  | mmaE5m2 => apply RoundTrip.mmaE5m2
  | mmaS8 => apply RoundTrip.mmaS8
  | mmaDs8 => apply RoundTrip.mmaDs8
  | accZero => apply RoundTrip.accZero
  | accLd => apply RoundTrip.accLd
  | accDrain => apply RoundTrip.accDrain
  | accSpill => apply RoundTrip.accSpill
  | accFill => apply RoundTrip.accFill
  | accMov => apply RoundTrip.accMov
  | accAdd => apply RoundTrip.accAdd
  | accScale => apply RoundTrip.accScale
  | gangForm => apply RoundTrip.gangForm
  | gangBrk => apply RoundTrip.gangBrk
  | dslotWait => apply RoundTrip.dslotWait
  | barArrive => apply RoundTrip.barArrive
  | barWait => apply RoundTrip.barWait
  | barSync => apply RoundTrip.barSync
  | barDie => apply RoundTrip.barDie
  | barPkg => apply RoundTrip.barPkg
  | evArm => apply RoundTrip.evArm
  | evMask => apply RoundTrip.evMask
  | evClear => apply RoundTrip.evClear
  | wany => apply RoundTrip.wany
  | mboxPost => apply RoundTrip.mboxPost
  | mboxRead => apply RoundTrip.mboxRead
  | tlWait => apply RoundTrip.tlWait
  | tlRead => apply RoundTrip.tlRead
  | tlTry => apply RoundTrip.tlTry
  | gslotSet => apply RoundTrip.gslotSet
  | gslotClr => apply RoundTrip.gslotClr
  | launch => apply RoundTrip.launch
  | tapePush => apply RoundTrip.tapePush
  | leaveReq => apply RoundTrip.leaveReq
  | leaveRel => apply RoundTrip.leaveRel
  | regionBegin => apply RoundTrip.regionBegin
  | regionEnd => apply RoundTrip.regionEnd
  | regsGrow => apply RoundTrip.regsGrow
  | regsShrink => apply RoundTrip.regsShrink
  | sregGet => apply RoundTrip.sregGet
  | sregSet => apply RoundTrip.sregSet
  | rdtime => apply RoundTrip.rdtime
  | trap => apply RoundTrip.trap
  | brk => apply RoundTrip.brk
  | xret => apply RoundTrip.xret
  | _ => exact fun _ _ h => nomatch h

theorem decodeRaw_of_parse {r : Raw} {i : Instr} (ht : toRaw i = some r) (hp : parse r = .ok i)
    (hok : (i.encodingOk && i.widthOk) = true) : decodeRaw r = .ok i := by
  simp [decodeRaw, hp, ht, hok]

/-- Settles O40: the word's fields read back as the instruction (`toRaw_roundTrip`), and the bytes give the fields
(`decode_pack`). -/
theorem decodeEncodeAgree : Obligations.DecodeEncodeAgree := by
  unfold Obligations.DecodeEncodeAgree
  rintro i off bs ⟨hsome, henc, hwid⟩ h4 h32
  obtain ⟨r, ht⟩ := Option.isSome_iff_exists.mp hsome
  have hok : (i.encodingOk && i.widthOk) = true := by rw [henc, hwid]; rfl
  obtain ⟨hparse, hlen, hw2, hw3⟩ := toRaw_roundTrip i hok r ht
  have hbytes : encode i = natBytes i.len r.pack.toNat := by simp only [encode, ht]
  rw [hbytes, natBytes_length] at h32
  rw [hbytes, decode_pack bs hlen (len_ne_fill hlen) (Raw.pack_lt hw2 hw3) h4 h32, decodeRaw_of_parse ht hparse hok]
  rfl

end Sys2Proof.Laws
end

section
/-! PROOF. O43: a step runs the instruction that the bytes at the program counter decode to (R28, R31, R147, R157). -/

namespace Sys2Proof.Laws

open Sys2Proof Sys2Proof.Machine

/-! Where a path stands. -/

theorem Mask.getLsbD_of_lowest {m : Mask} {l : Nat} (h : Mask.lowest m = some l) : m.getLsbD l = true :=
  List.find?_some h

theorem Mask.lowest_isSome {m : Mask} (h : m ≠ 0) : ∃ l, Mask.lowest m = some l := by
  obtain ⟨l, hl⟩ := List.exists_mem_of_ne_nil _ (mt Mask.lanes_eq_nil.mp h)
  rw [Mask.mem_lanes] at hl
  have h32 : l ∈ lanes32 := by
    rw [lanes32, mem_span]
    exact ⟨Nat.zero_le l, by simpa using BitVec.lt_of_getLsbD hl⟩
  exact Option.isSome_iff_exists.mp (List.find?_isSome.mpr ⟨l, h32, hl⟩)

/-- A path that might issue stands where its lowest lane does. -/
theorem ctxFor_ipc {s : State} {gk : Nat} {m : Mask} {g : Group} {c : Ctx} (hc : s.ctxFor gk m = some c)
    (hg : s.group? gk = some g) : c.ipc = (g.lane ((Mask.lowest m).getD 0)).pc := by
  simp only [State.ctxFor, State.ctx?] at hc
  split at hc
  · cases hc
  next g' hg' =>
  obtain rfl : g = g' := Option.some.inj (hg.symm.trans hg')
  split at hc
  · cases hc
  split at hc
  · cases hc
  cases hc
  rfl

/-- The lanes that try to issue at a program counter stand there. -/
theorem lane_pc_of_tries {g : Group} {pc : DWord} (h : g.tries pc ≠ 0) :
    (g.lane ((Mask.lowest (g.tries pc)).getD 0)).pc = pc := by
  obtain ⟨l, hl⟩ := Mask.lowest_isSome h
  have ht := Mask.getLsbD_of_lowest hl
  simp only [Group.tries, Mask.ofPred_getLsbD, Bool.and_eq_true, beq_iff_eq] at ht
  rw [hl]
  exact ht.2.2

/-! What is offered is what is fetched, and what is fetched is what the bytes decode to. -/

theorem offerInstr_instr {c : Ctx} {s : State} {i j : Instr} (h : c.offerInstr s i = .instr j) : i = j := by
  simp only [Ctx.offerInstr] at h
  split at h
  · cases h
  · split_ifs at h <;> exact Offer.instr.inj h

theorem fetch_of_offer {c : Ctx} {s : State} {j : Instr} (h : c.offer s = .instr j) :
    s.fetch c.part c.t.core c.l.start c.ipc = .instr j := by
  simp only [Ctx.offer] at h
  split_ifs at h
  split at h
  · cases h
  split at h
  · cases h
  · cases h
  next i hi => rw [hi, offerInstr_instr h]

theorem ctx_offer_of_offerAt {s : State} {gk : Nat} {g : Group} {pc : DWord} {c : Ctx} {j : Instr}
    (h : (s.offerAt gk g pc).offer = .instr j) (hc : s.ctxFor gk (g.tries pc) = some c) :
    g.tries pc ≠ 0 ∧ c.offer s = .instr j := by
  simp only [State.offerAt, hc] at h
  split_ifs at h with h0
  exact ⟨h0, h⟩

theorem anyValueOf_of_unchanged {s : State} {start pa n : Nat} (h : s.moments start pa n = [start]) (site idx tag : Nat) :
    s.anyValueOf site idx tag start pa n = s.readBytes tag pa n := by
  simp only [State.anyValueOf, h]

theorem fetch_decodes {s : State} {p core start pa tag : Nat} {pc : DWord} {i j : Instr}
    (hf : s.fetch p core start pc = .instr j) (hx : s.translate p core .fetch (pc.toNat / 32 * 32) = .mem pa tag)
    (hs : s.stackFails pa = false) (hm : s.moments start pa 32 = [start])
    (hd : decode (pc.toNat % 32) ((s.readBytes tag pa 32).drop (pc.toNat % 32)) = .ok (.instr i)) : j = i := by
  simp only [State.fetch, hx, hs, anyValueOf_of_unchanged hm, hd, Bool.false_eq_true, if_false] at hf
  split_ifs at hf
  exact (FetchRes.instr.inj hf).symm

/-! The step. -/

/-- One open offer of one chosen group, an instruction, is what issues. -/
theorem issueOn_single {s : State} {key gk : Nat} {g : Group} {o : PathOffer} {i : Instr}
    (hc : s.chooseGroup key = some (gk, g, [o])) (ho : o.offer = .instr i) :
    s.issueOn key = some ((s.selected key gk).runInstr gk o [] i) := by
  have hfill : [o].find? (fun o => o.offer == .fill) = none := by simp [ho]
  have hpaths : s.choosePaths key gk [o] = some (o, none) := rfl
  simp only [State.issueOn, hc, hfill, hpaths, State.runOffer, ho]

/-- Where nothing of an earlier cycle is left, the first issue partition whose turn it is issues. -/
theorem act_of_issueOn {s : State} {key : Nat} {keys : List Nat} {r : Out} (h2 : s.second = none) (ha : s.agenda = [])
    (he : ∀ e ∈ s.earlyEvents, s.fires e = false) (hk : s.issueKeys.filter s.turn = key :: keys) (hi : s.issueOn key = some r) :
    s.act = r := by
  have hearly : s.earlyEvents.find? s.fires = none := List.find?_eq_none.mpr fun e h => by simp [he e h]
  have hnow : s.issueNow = some r := by
    show (s.issueKeys.filter s.turn).findSome? _ = some r
    rw [hk]
    exact List.findSome?_cons_of_isSome (by simp [hi]) |>.trans hi
  simp only [State.act, h2, ha, State.alone, hearly, hnow]

theorem transfers_eq_isTransfer (i : Instr) : transfers i = Claims.isTransfer i := by
  cases i <;> rfl

/-- An issue and the draw that ends its step are the instruction and its bookkeeping. -/
theorem cycle_of_runInstr {s v : State} {gk : Nat} {o : PathOffer} {view : List Lane} {i : Instr} {cu : Ctx}
    (h : s.act = v.runInstr gk o view i) (hc : (v.issuing gk o view).ctx? = some cu) :
    s.cycle = Claims.completed gk o cu i (v.issuing gk o view) (exec i (v.issuing gk o view)) := by
  generalize hu : v.issuing gk o view = u at *
  simp only [State.cycle, h, State.runInstr, hu, hc]
  cases exec i u with
  | next t =>
    cases hr : cu.reject? i u with
    | none => simp [Claims.completed, State.delayTargets, hr, transfers_eq_isTransfer]
    | some cause => simp [Claims.completed, State.delayTargets, hr]
  | fault f => rfl
  | refused r => rfl

/-- Settles O43: the offer is what `fetch` reads at the path's program counter (`fetch_of_offer`, `fetch_decodes`), and the
step is the issue of that one offer (`issueOn_single`, `cycle_of_runInstr`). -/
theorem stepRunsDecodedInstruction : Obligations.StepRunsDecodedInstruction := by
  unfold Obligations.StepRunsDecodedInstruction
  intro s key keys gk g pc c pa tag i j h2 ha he hk hch hg ho hc hx hs hm hd
  obtain ⟨h0, hoffer⟩ := ctx_offer_of_offerAt ho hc
  have hipc : c.ipc = pc := (ctxFor_ipc hc hg).trans (lane_pc_of_tries h0)
  have hfetch := fetch_of_offer hoffer
  rw [hipc] at hfetch
  obtain rfl : j = i := fetch_decodes hfetch hx hs hm hd
  exact ⟨rfl, fun cu hcu => cycle_of_runInstr (act_of_issueOn h2 ha he hk (issueOn_single hch ho)) hcu⟩

end Sys2Proof.Laws
end

section
/-! PROOF. What the counterexamples to O15, O33 and O42 share: a path that issues, and its context. -/

namespace Sys2Proof.Laws

open Sys2Proof Sys2Proof.Machine

/-- A path that issues and meets a test is a context that meets it. -/
theorem exists_ctx_of_any {s : State} {P : Ctx → Prop} [DecidablePred P] (h : s.ctx?.any (fun c => decide (P c)) = true) :
    ∃ c, s.ctx? = some c ∧ P c := by
  cases hc : s.ctx? with
  | none => simp [hc] at h
  | some c => exact ⟨c, rfl, by simpa [hc] using h⟩

/-- A path of every lane of the package's one group, 32 live lanes that stand at 0x40000. -/
def wholePath : Cur := ⟨0, 0xFFFFFFFF#32, false, 0, []⟩

end Sys2Proof.Laws
end

section
/-! PROOF. O42: an `mma` issued by a part of its group enters the rendezvous latch and traps there, not at its issue (R236,
Table 10-4). -/

namespace Sys2Proof.Laws

open Sys2Proof Sys2Proof.Machine

/-! Raising an entry writes memory and a partition's ring, and no group (R329). -/

theorem solid_groups (s : State) (line : Nat) : (s.solid line).groups = s.groups := by
  simp only [State.solid]
  split <;> rfl

theorem retag_groups (s : State) (tag line : Nat) : (s.retag tag line).groups = s.groups := by
  simp only [State.retag]
  split
  · split <;> rfl
  · rfl

theorem writeByte_groups (s : State) (tag pa : Nat) (b : Byte) : (s.writeByte tag pa b).groups = s.groups := by
  simp only [State.writeByte, retag_groups, solid_groups]

theorem writeEach_groups (s : State) (tag pa : Nat) (bs : List Byte) : (s.writeEach tag pa bs).groups = s.groups := by
  induction bs generalizing s pa with
  | nil => rfl
  | cons b bs ih => simp only [State.writeEach, ih, writeByte_groups]

theorem writeBytes_groups (s : State) (tag pa : Nat) (bs : List Byte) : (s.writeBytes tag pa bs).groups = s.groups :=
  writeEach_groups s tag pa bs

theorem ringWrite_groups (s : State) (p n : Nat) (bs : List Byte) : (s.ringWrite p n bs).groups = s.groups := by
  induction n generalizing s bs with
  | zero => rfl
  | succ n ih => simp only [State.ringWrite, ih, State.setPart_groups, writeBytes_groups]

theorem postNow_groups (s : State) (p : Nat) (e : FEntry) : (s.postNow p e).groups = s.groups := by
  simp only [State.postNow, State.setPart_groups, ringWrite_groups]

theorem postWaiting_groups (n : Nat) (s : State) (p : Nat) : (State.postWaiting n s p).groups = s.groups := by
  induction n generalizing s with
  | zero => rfl
  | succ n ih =>
    simp only [State.postWaiting]
    split
    · split
      · simp only [ih, postNow_groups, State.setPart_groups]
      · rfl
    · split
      · split
        · simp only [ih, postNow_groups, State.setPart_groups]
        · rfl
      · rfl

theorem raiseEntry_groups (s : State) (p : Nat) (e : FEntry) : (s.raiseEntry p e).groups = s.groups := by
  simp only [State.raiseEntry, postWaiting_groups, State.setPart_groups]

/-- Taking a fault or trap parks or stops a group, and leaves every rendezvous latch as it was (R155, R329). -/
theorem takeFault_latch (s : State) (gk j : Nat) (i : FInfo) :
    ((s.takeFault gk i).group? j).map (·.latch) = (s.group? j).map (·.latch) := by
  simp only [State.takeFault]
  split
  · rfl
  split
  · rfl
  rw [State.group?, raiseEntry_groups]
  show (((s.updGroup gk _).dropRecs (.group gk)).group? j).map (·.latch) = _
  rw [State.dropRecs_group, State.group_updGroup]
  split
  · cases s.group? j with
    | none => rfl
    | some g =>
      simp only [Option.map_some]
      split <;> rfl
  · rfl

/-! An `mma` enters the latch (R39, R239). -/

theorem enterLatch_latches {i : Instr} {s : State} {c : Ctx} (hi : Issues i s c) (hr : c.path &&& c.g.real ≠ 0) :
    ∃ t, enterLatch i s = .next t ∧ ∃ y, (t.group? c.gk).map (·.latch) = some (some y) := by
  have hreal : c.realOf c.path ≠ 0 := hr
  refine ⟨_, issue_next hi _, ?_⟩
  simp only [if_neg hreal, State.group_updGroup, if_true, State.ctx_group hi.1, Option.map_some]
  exact ⟨_, rfl⟩

/-- The package with one group of 32 live lanes, of which lanes 0 to 15 issue. -/
def halfIssues : State := { State.reset.withFetchWord 64 0 with cur := some { wholePath with path := 0xFFFF#32 } }

/-- `mma.bf16 a1, v4, [v5 + 0x400]`, unguarded. -/
def partMma : Instr :=
  .mmaBf16 ⟨0, false, false⟩ ⟨1, 4, 0, 5, ⟨8, 1, true⟩, 0x400, 0, false, false, false, false, false, false, false⟩

/-- The `mma` issues from a part of a group that has latched nothing. -/
abbrev mmaFromPart (c : Ctx) : Prop :=
  c.reject? partMma halfIssues = none ∧ c.path &&& c.g.real ≠ 0 ∧ c.path ≠ c.g.live ∧ c.g.latch = none

/-- Refutes O42: `mma` is an instruction of a whole group, and issued by lanes 0 to 15 of 32 it enters the rendezvous latch
(`enterLatch_latches`), where a trap at its issue would have left the latch empty (`takeFault_latch`). GROUP_DIVERGED comes to
it only when the joint operation is checked (R236, Table 10-4, row 2). -/
theorem not_rejectedInstructionsTrap : ¬ Obligations.RejectedInstructionsTrap := by
  unfold Obligations.RejectedInstructionsTrap
  rintro ⟨-, hgroup⟩
  obtain ⟨c, hc, hrej, hreal, hpath, hlatch⟩ := exists_ctx_of_any (s := halfIssues) (P := mmaFromPart) (by decide +kernel)
  obtain ⟨t, he, y, ht⟩ := enterLatch_latches ⟨hc, hrej⟩ hreal
  have htrap := (hgroup partMma halfIssues c rfl ⟨hc, hrej⟩ (by decide +kernel) hreal).1 (.inl hpath)
  obtain rfl := Host.Outcome.next.inj (he.symm.trans htrap)
  rw [Claims.trapped, takeFault_latch, State.ctx_group hc, Option.map_some, hlatch] at ht
  cases ht

end Sys2Proof.Laws
end

section
/-! PROOF. O33: where the groups of a package are not listed in ascending order of their keys, a parked `regs.grow` lists its
group a second time, and the banks that it could have had count as taken (R42). -/

namespace Sys2Proof.Laws

open Sys2Proof Sys2Proof.Machine

/-- Groups 4, 8 and 12 with eight banks each, and after them group 0 with four, which issues: a list that `SMap.put` does not
make. -/
def outOfOrder : State :=
  let g := newGroup (fetchLaunch 0) 0 0
  { State.reset.withFetchWord 64 0 with
    groups := [(4, g), (8, g), (12, g), (0, { g with nb := 4 })]
    cur := some wholePath }

/-- `regs.grow p1, 4`. -/
def growFour : Instr := .regsGrow ⟨0, false, false⟩ 1 4

/-- Group 0 once it has asked. -/
def askedOutOfOrder : State := outOfOrder.updGroup 0 fun g => { g with park := .grow 1 4 growFour }

/-- The whole group issues the grow on core 0, where no other waits and four banks are free. -/
abbrev mayGrow (c : Ctx) : Prop :=
  c.gk = 0 ∧ c.t.core = 0 ∧ c.reject? growFour outOfOrder = none ∧ c.path = c.g.live ∧ c.active growFour outOfOrder = c.path ∧
    c.g.nb = 4 ∧ c.t.tst = .resident ∧ c.g.ended = false

/-- Register banks of a group. -/
def banksOf (s : State) (gk : Nat) : Option Nat := (s.group? gk).map (·.nb)

/-- The grow is not granted: group 0, listed twice, leaves no bank free. -/
theorem banksOf_growStep_askedOutOfOrder : banksOf (askedOutOfOrder.growStep 0 0) 0 = some 4 := by decide +kernel

theorem banksOf_finishGrow_askedOutOfOrder : banksOf (askedOutOfOrder.finishGrow 0 true 0) 0 = some 8 := by decide +kernel

/-- Refutes O33: the statement has a `regs.grow` granted wherever its banks were free before it was asked for. In `outOfOrder`
four banks are free, and none is once group 0 has parked (`banksOf_growStep_askedOutOfOrder`): the update of a member of a list
whose keys do not ascend puts it before the old one, which stays. No hypothesis of the statement has the keys ascend. -/
theorem not_leaveAndBudgetResult : ¬ Obligations.LeaveAndBudgetResult := by
  unfold Obligations.LeaveAndBudgetResult
  rintro ⟨-, hbudget⟩
  obtain ⟨c, hc, hgk, hcore, hrej, hpath, hact, hnb, hres, hend⟩ :=
    exists_ctx_of_any (s := outOfOrder) (P := mayGrow) (by decide +kernel)
  obtain ⟨-, hgrow⟩ := (hbudget ⟨0, false, false⟩ 1 4).1 outOfOrder c ⟨⟨hc, hrej⟩, by decide +kernel, hpath, hact⟩
  obtain ⟨hruns, hgranted⟩ := hgrow (by rw [hnb]; decide)
  rw [hgk, hcore] at hruns hgranted
  have hnow : exec growFour outOfOrder = .next (askedOutOfOrder.growStep 0 0) := hruns (by decide +kernel)
  have hgrant : exec growFour outOfOrder = .next (askedOutOfOrder.finishGrow 0 true 0) :=
    hgranted hres hend (by decide +kernel) (by decide +kernel) (fun hH => absurd hH (by decide +kernel))
  have hsame : askedOutOfOrder.growStep 0 0 = askedOutOfOrder.finishGrow 0 true 0 :=
    Host.Outcome.next.inj (hnow.symm.trans hgrant)
  have hbanks := banksOf_growStep_askedOutOfOrder
  rw [hsame, banksOf_finishGrow_askedOutOfOrder] at hbanks
  cases hbanks

end Sys2Proof.Laws
end

section
/-! PROOF. O15: a HELD lane on the path of an `exit` is granted an entry, and goes on with the path (R33, R35). -/

namespace Sys2Proof.Laws

open Sys2Proof Sys2Proof.Machine

theorem atD_of_forall_mem {α : Type} {p : α → Prop} {xs : List α} {d : α} (h : ∀ x ∈ xs, p x) (hd : p d) (i : Nat) :
    p (atD xs i d) := by
  induction xs generalizing i with
  | nil => exact hd
  | cons x xs ih =>
    cases i with
    | zero => exact h x (List.mem_cons_self ..)
    | succ i => exact ih (fun y hy => h y (List.mem_cons_of_mem _ hy)) i

/-- The path of all 32 lanes at 0x40000, of which lane 31 is HELD; p1 holds in lanes 0 to 15. -/
def heldOnPath : State :=
  { (State.reset.withFetchWord 64 0).updGroup 0 fun g => g.updLanes fun l ln =>
      if l < 16 then { ln with p := ln.p ||| 2 } else if l = 31 then { ln with lst := .held } else ln with
    cur := some wholePath }

/-- `@p1 exit`. -/
def exitHalf : Instr := .exit ⟨1, false, false⟩

/-- The exit issues on a group without records, `gsync` or waits; lanes stay, and lane 31 of its path is HELD at 0x40000. -/
abbrev exitsPastHeld (c : Ctx) : Prop :=
  c.gk = 0 ∧ c.reject? exitHalf heldOnPath = none ∧ c.g.records.all Option.isNone = true ∧ c.g.gsync = none ∧
    (∀ ln ∈ c.g.lanes, ln.wait = .none) ∧ c.g.live &&& ~~~Claims.leaving c.g (c.active exitHalf heldOnPath) ≠ 0 ∧
    31 < c.g.lanes.length ∧ (c.g.lane 31).onSome = false ∧ (c.g.lane 31).pc = 0x40000

/-- Where a lane of group 0 stands in the state that an instruction answers. -/
def lanePcAfter (o : Out) (l : Nat) : Option DWord :=
  match o with
  | .next t => (t.group? 0).map fun g => (g.lane l).pc
  | _ => none

theorem lanePcAfter_exitHalf : lanePcAfter (exec exitHalf heldOnPath) 31 = some 0x40008 := by decide +kernel

/-- Refutes O15: by its clause on `exit` a lane of the path that was HELD stays where it is. In `heldOnPath` lane 31 is such a
lane, under a guard of 0: the exit of lanes 0 to 15 grants it an entry first and then moves it past the instruction with the
lanes of the path that are not active (`lanePcAfter_exitHalf`). HELD lanes form no path (R33), but no hypothesis of the statement keeps
them from the path that issues. -/
theorem not_rejoinAndSyncResult : ¬ Obligations.RejoinAndSyncResult := by
  unfold Obligations.RejoinAndSyncResult
  rintro ⟨hexit, -, -⟩
  obtain ⟨c, hc, hgk, hrej, hrec, hsync, hwait, hstay, hlen, hheld, hpc⟩ :=
    exists_ctx_of_any (s := heldOnPath) (P := exitsPastHeld) (by decide +kernel)
  have hnone : ∀ r ∈ c.g.records, r = none := fun r hr => Option.isNone_iff_eq_none.mp (List.all_eq_true.mp hrec r hr)
  obtain ⟨t, he, hwaits⟩ := hexit ⟨1, false, false⟩ heldOnPath c ⟨hc, hrej⟩ (atD_of_forall_mem hnone rfl) hsync
    (fun l _ => atD_of_forall_mem hwait rfl l) hstay
  obtain ⟨g, g', hg, hg', -, -, hlanes⟩ := hwaits.own
  obtain rfl : c.g = g := Option.some.inj ((State.ctx_group hc).symm.trans hg)
  obtain ⟨-, -, -, -, -, hpc', -, -⟩ := hlanes 31 hlen
  have hstays : lanePcAfter (exec exitHalf heldOnPath) 31 = some 0x40000 := by
    rw [show exec exitHalf heldOnPath = .next t from he, lanePcAfter, ← hgk, hg', Option.map_some, hpc']
    simp [hheld, hpc]
  rw [lanePcAfter_exitHalf] at hstays
  exact absurd hstays (by decide)

end Sys2Proof.Laws
end

section
/-! PROOF. O44: every step keeps memory in its canonical form (log 1). -/

namespace Sys2Proof.Laws

open Sys2Proof Sys2Proof.Machine

/-- A step keeps what its act keeps: the new draw of the free values touches neither memory nor the fused count. -/
theorem step_keeps {s t : State} (h : step s = .next t) : Keeps s t := by
  simp only [step, State.cycle] at h
  split at h
  next u hu =>
    obtain rfl := Host.Outcome.next.inj h
    exact ⟨(State.act_keeps s (Keeps.refl s) u hu).parts⟩
  next hstops => exact (hstops t h).elim

/-- Settles O44: whatever acts in the step keeps the form (`State.act_keeps`), and the step adds only its draw (`step_keeps`). -/
theorem stepKeepsMemoryForm : Obligations.StepKeepsMemoryForm := by
  unfold Obligations.StepKeepsMemoryForm
  intro s t hwf h
  exact (step_keeps h).parts.mem hwf

end Sys2Proof.Laws
end

section
/-! PROOF. What O19, O48 and O59 share: what translations, requests to L2 homes and uses of banks leave behind, and instructions
that reach memory. -/

namespace Sys2Proof.Laws

open Sys2Proof Sys2Proof.Machine Sys2Proof.Claims

/-! What an access notes. -/

/-- Looking a page up changes L1 TLBs and walks at most (R346). -/
theorem noteXlate_eq (s : State) (p agent : Nat) (classH : Bool) (va : Nat) :
    ∃ ts ws, s.noteXlate p agent classH va = { s with tlb1 := ts, walks := ws } := by
  simp only [State.noteXlate, State.miss]
  split
  · exact ⟨_, _, rfl⟩
  · split
    · split <;> exact ⟨_, _, rfl⟩
    · split <;> exact ⟨_, _, rfl⟩

/-- A request to an L2 home joins those on their way (R12). -/
theorem askHome_eq (s : State) (r : HomeReq) : ∃ rs, s.askHome r = { s with homeReqs := rs } := by
  simp only [State.askHome]
  split <;> exact ⟨_, rfl⟩

theorem askOnce_eq (s : State) (r : HomeReq) : ∃ rs, s.askOnce r = { s with homeReqs := rs } := by
  simp only [State.askOnce]
  split
  · exact ⟨_, rfl⟩
  · exact askHome_eq s r

theorem noted_refl (s : State) : Noted s s :=
  ⟨rfl, fun _ => rfl, fun _ => ⟨id, fun g hg => ⟨g, hg, rfl, rfl, fun _ => rfl⟩⟩⟩

theorem noted_trans {s u v : State} (h1 : Noted s u) (h2 : Noted u v) : Noted s v := by
  refine ⟨by rw [h2.rest, h1.rest], fun b => by rw [h2.banks b, h1.banks b], fun k => ⟨fun hk => ?_, fun g hg => ?_⟩⟩
  · exact (h2.groups k).1 ((h1.groups k).1 hk)
  · obtain ⟨g1, e1, r1, l1, p1⟩ := (h1.groups k).2 g hg
    obtain ⟨g2, e2, r2, l2, p2⟩ := (h2.groups k).2 g1 e1
    exact ⟨g2, e2, by rw [r2, r1], l2.trans l1, fun l => by rw [p2 l, p1 l]⟩

/-- A change of L1 TLBs, walks and requests alone is such a note. -/
theorem noted_of_eq {s v : State} (h : v = { s with tlb1 := v.tlb1, walks := v.walks, homeReqs := v.homeReqs }) : Noted s v := by
  have n : ∀ ts ws rs, Noted s { s with tlb1 := ts, walks := ws, homeReqs := rs } := fun _ _ _ =>
    ⟨rfl, fun _ => rfl, (noted_refl s).groups⟩
  rw [h]
  exact n _ _ _

theorem noteXlate_noted (s : State) (p agent : Nat) (classH : Bool) (va : Nat) : Noted s (s.noteXlate p agent classH va) := by
  obtain ⟨ts, ws, h⟩ := noteXlate_eq s p agent classH va
  rw [h]
  exact noted_of_eq rfl

theorem askHome_noted (s : State) (r : HomeReq) : Noted s (s.askHome r) := by
  obtain ⟨rs, h⟩ := askHome_eq s r
  rw [h]
  exact noted_of_eq rfl

theorem askOnce_noted (s : State) (r : HomeReq) : Noted s (s.askOnce r) := by
  obtain ⟨rs, h⟩ := askOnce_eq s r
  rw [h]
  exact noted_of_eq rfl

/-- The use of a bank (R74). -/
theorem useBank_noted (s : State) (b n : Nat) : Noted s (s.setBank b { s.bank b with lastUse := n }) := by
  refine ⟨rfl, fun k => ?_, (noted_refl s).groups⟩
  rw [State.bank_setBank]
  split
  next h => rw [h]
  next => rfl

theorem touch_noted (s : State) (t : Team) (off n : Nat) : Noted s (s.touch t off n) :=
  List.foldlRecOn (motive := Noted s) _ _ (noted_refl s) fun u hu b _ => noted_trans hu (useBank_noted u b u.now)

/-! Instructions that reach memory. -/

theorem moveTo_stuck (c : Ctx) (next : Nat → DWord → DWord) (s : State) : (c.moveTo next s).stuck = s.stuck := by
  rw [(Ctx.moveTo_effect c next s).rest]
  simp only [State.dropRecs]
  split <;> rfl

@[simp] theorem advance_stuck (c : Ctx) (i : Instr) (s : State) : (c.advance i s).stuck = s.stuck := moveTo_stuck c _ s

/-- An instruction that no row turns away goes on, where no access met an address without memory. -/
theorem issueMem_next {i : Instr} {s : State} {c : Ctx} (h : Issues i s c) {k : Ctx → Mask → State → State}
    (hs : (k c (c.active i s) s).stuck = none) : issueMem i s k = .next (k c (c.active i s) s) := by
  simp only [issueMem, issue_next h, hs]

end Sys2Proof.Laws
end

section
/-! PROOF. O19: fences, and the instructions that warm translations and caches (R98, R209, R212, R216). -/

namespace Sys2Proof.Laws

open Sys2Proof Sys2Proof.Machine Sys2Proof.Claims

/-! Fences. -/

/-- What a fence asks of one lane (R98). -/
theorem fenceClear_iff {s : State} {gk : Nat} {g : Group} (hg : s.group? gk = some g) (l : Nat) (domain : Bool) :
    s.fenceClear gk l domain = true ↔
      (∀ x ∈ s.stores, x.src ≠ .lane gk l) ∧ (domain = true → ∀ r ∈ s.remotes, r.src ≠ .lane gk l) ∧
        ∀ q ∈ g.pend, isAccess q.instr = true → ∀ p ∈ q.lanes, p.lane = l → p.landed = true := by
  simp only [State.fenceClear, hg, Bool.and_eq_true, Bool.not_eq_true', Bool.and_eq_false_imp, List.any_eq_false, beq_iff_eq,
    List.all_eq_true, Bool.or_eq_true, decide_eq_true_eq, and_assoc]
  refine and_congr Iff.rfl (and_congr Iff.rfl (forall₂_congr fun q _ => ?_))
  cases isAccess q.instr <;> simp [Classical.or_iff_not_imp_left]

/-! What `xlate.pf` warms. -/

/-- Only translations and frames differ (R212). -/
def Xlated (s u : State) : Prop :=
  u = { s with out := u.out, sent := u.sent, ports := u.ports, windows := u.windows, tlb1 := u.tlb1, walks := u.walks }

theorem Xlated.trans {s u v : State} (h1 : Xlated s u) (h2 : Xlated u v) : Xlated s v := by
  unfold Xlated at *
  rw [h2, h1]

theorem noteXlate_xlated (s : State) (p agent : Nat) (classH : Bool) (va : Nat) : Xlated s (s.noteXlate p agent classH va) := by
  obtain ⟨ts, ws, h⟩ := noteXlate_eq s p agent classH va
  rw [h]
  rfl

theorem send_xlated (s : State) (op : Nat) (f : Frame) : Xlated s (s.send op f) := rfl

theorem warmLane_xlated (c : Ctx) (a : Reg) (disp : BitVec 12) (s0 s : State) (l : Nat) : Xlated s (c.warmLane a disp s0 s l) := by
  simp only [Ctx.warmLane]
  split
  · rfl
  · split
    · exact noteXlate_xlated ..
    · split
      · exact (noteXlate_xlated ..).trans (send_xlated ..)
      · exact noteXlate_xlated ..
    · rfl

/-- An address of this package asks nothing of another. -/
theorem warmLane_noted {c : Ctx} {a : Reg} {disp : BitVec 12} {s0 : State} {l : Nat}
    (h : ∀ pkg d, s0.translate c.part c.t.core .read (c.pair s0 l a + disp.signExtend 64).toNat ≠ .remote pkg d) (s : State) :
    Noted s (c.warmLane a disp s0 s l) := by
  have haddr : c.addr s0 l .gen a disp = c.pair s0 l a + disp.signExtend 64 := rfl
  simp only [Ctx.warmLane, haddr]
  split
  · exact noted_refl s
  · split
    · exact noteXlate_noted ..
    next hx => exact (h _ _ hx).elim
    · exact noted_refl s

/-! What `pref` warms. -/

/-- Only translations, requests, and the lines, uses and wakes of banks differ (R209). -/
def Warmed (s u : State) : Prop :=
  u = { s with tlb1 := u.tlb1, walks := u.walks, homeReqs := u.homeReqs, banks := u.banks } ∧
    ∀ k, u.bank k = { s.bank k with lastUse := (u.bank k).lastUse, lines := (u.bank k).lines, waking := (u.bank k).waking }

theorem Warmed.refl (s : State) : Warmed s s := ⟨rfl, fun _ => rfl⟩

theorem Warmed.trans {s u v : State} (h1 : Warmed s u) (h2 : Warmed u v) : Warmed s v := by
  obtain ⟨r1, b1⟩ := h1
  obtain ⟨r2, b2⟩ := h2
  exact ⟨by rw [r2, r1], fun k => by rw [b2 k, b1 k]⟩

theorem noteXlate_warmed (s : State) (p agent : Nat) (classH : Bool) (va : Nat) : Warmed s (s.noteXlate p agent classH va) := by
  obtain ⟨ts, ws, h⟩ := noteXlate_eq s p agent classH va
  rw [h]
  exact ⟨rfl, fun _ => rfl⟩

theorem askHome_warmed (s : State) (r : HomeReq) : Warmed s (s.askHome r) := by
  obtain ⟨rs, h⟩ := askHome_eq s r
  rw [h]
  exact ⟨rfl, fun _ => rfl⟩

theorem setBank_warmed (s : State) (b n : Nat) (ls : SMap CLine) (w : Bool) :
    Warmed s (s.setBank b { s.bank b with lastUse := n, lines := ls, waking := w }) := by
  refine ⟨rfl, fun k => ?_⟩
  rw [State.bank_setBank]
  split
  next h => rw [h]
  next => rfl

theorem startWake_warmed (s : State) (bs : List Nat) : Warmed s (s.startWake bs) :=
  List.foldlRecOn (motive := Warmed s) _ _ (Warmed.refl s) fun u hu b _ => hu.trans (setBank_warmed u b _ _ true)

theorem fillCache_warmed (s : State) (core : Nat) (classH : Bool) (tag line : Nat) :
    Warmed s (s.fillCache core classH tag line) := by
  simp only [State.fillCache]
  split
  · exact Warmed.refl s
  · refine Warmed.trans ?_ (setBank_warmed _ _ _ _ _)
    split
    · split
      · exact askHome_warmed ..
      · exact Warmed.refl s
    · exact Warmed.refl s

theorem lookUp_warmed (c : Ctx) (s : State) (x : Nat × Nat) : Warmed s (c.lookUp s x) := by
  simp only [Ctx.lookUp]
  split
  · exact setBank_warmed ..
  · exact (askHome_warmed ..).trans (fillCache_warmed ..)

theorem prefLane_warmed (c : Ctx) (lvl : PrefLvl) (a : Reg) (disp : BitVec 12) (s0 s : State) (l : Nat) :
    Warmed s (c.prefLane lvl a disp s0 s l) := by
  simp only [Ctx.prefLane]
  split
  · exact Warmed.refl s
  · split
    · split
      · exact noteXlate_warmed ..
      · cases lvl with
        | l1 => exact ((noteXlate_warmed ..).trans (startWake_warmed ..)).trans (lookUp_warmed ..)
        | l2 => exact (noteXlate_warmed ..).trans (askHome_warmed ..)
        | tlb => exact noteXlate_warmed ..
    · exact noteXlate_warmed ..
    · exact Warmed.refl s

/-- Settles O19: one lane's fence is `fenceClear_iff`, and what `xlate.pf` and `pref` warm is a fold of their lanes' shares
(`warmLane_xlated`, `warmLane_noted`, `prefLane_warmed`). -/
theorem fenceAndWarmResult : Obligations.FenceAndWarmResult := by
  unfold Obligations.FenceAndWarmResult
  intro h scope a disp s c
  refine ⟨fun hi => ?fence, fun hi hs => ?xlate, fun lvl hi => ?pref⟩
  case fence =>
    intro clear
    have hclear : ((Mask.lanes (c.active (.fence h scope) s)).all fun l => s.fenceClear c.gk l (decide (scope = .domain))) = true ↔
        clear := by
      simp only [List.all_eq_true, Mask.mem_lanes, fenceClear_iff (State.ctx_group hi.1), decide_eq_true_eq, clear]
    have hrun : exec (.fence h scope) s = execFence h scope s := rfl
    rw [hrun, execFence, issue_next hi]
    refine ⟨fun hc => ?_, fun hc => ?_⟩
    · rw [if_pos (hclear.mpr hc)]
      exact ⟨_, rfl, Ctx.advance_advanced c _ s c.g (State.ctx_group hi.1)⟩
    · rw [if_neg (mt hclear.mp hc)]
  case xlate =>
    have hx : Xlated s ((Mask.lanes (c.active (.xlatePf h a disp) s)).foldl (c.warmLane a disp s) s) :=
      List.foldlRecOn (motive := Xlated s) _ _ rfl fun u hu l _ => hu.trans (warmLane_xlated c a disp s u l)
    refine ⟨_, _, issueMem_next hi ?_, Ctx.advance_advanced c _ _ c.g ?_, hx, fun hlocal => ?_⟩
    · rw [advance_stuck, hx]
      exact hs
    · rw [hx]
      exact State.ctx_group hi.1
    · exact List.foldlRecOn (motive := Noted s) _ _ (noted_refl s) fun u hu l hl =>
        noted_trans hu (warmLane_noted (fun pkg d => hlocal l pkg d ((Mask.mem_lanes _ _).mp hl)) u)
  case pref =>
    have hw : Warmed s ((Mask.lanes (c.active (.pref h lvl a disp) s)).foldl (c.prefLane lvl a disp s) s) :=
      List.foldlRecOn (motive := Warmed s) _ _ (Warmed.refl s) fun u hu l _ => hu.trans (prefLane_warmed c lvl a disp s u l)
    have hrun : exec (.pref h lvl a disp) s = execPref h lvl a disp s := rfl
    refine ⟨_, _, hrun.trans (issue_next hi _), Ctx.advance_advanced c _ _ c.g ?_, hw.1, hw.2⟩
    rw [hw.1]
    exact State.ctx_group hi.1

end Sys2Proof.Laws
end

section
/-! PROOF. O31: timelines and guard slots (R104, R264, R265). -/

namespace Sys2Proof.Laws

open Sys2Proof Sys2Proof.Machine Sys2Proof.Claims

/-! Lanes that change as an instruction issues, and the windows that shrink with it (R150). -/

/-- `h` is `g` with its lanes changed by `f`, after results of `g` that became due were written. -/
structure Windowed (g : Group) (f : Nat → Lane → Lane) (h : Group) : Prop where
  rest : h = { g with lanes := h.lanes, pend := h.pend, rtags := h.rtags }
  len : h.lanes.length = g.lanes.length
  lane : ∀ l, l < g.lanes.length → Lane.settled g l (f l (g.lane l)) (h.lane l)
  clearV : ∀ l r, g.clearV l r → h.clearV l r
  clearP : ∀ l r, g.clearP l r → h.clearP l r

/-- A result that is still pending once windows have shrunk names what one named before. -/
theorem closeWindows_named {fresh : Nat} {g : Group} {m : Mask} {n0 : Nat} {q : Pend}
    (hq : q ∈ (Group.closeWindows fresh g m n0).pend) {p : PLane} (hp : p ∈ q.lanes) :
    ∃ q0 ∈ g.pend, ∃ p0 ∈ q0.lanes, p0.lane = p.lane ∧ p0.ws = p.ws ∧ p0.ps = p.ps := by
  simp only [Group.closeWindows] at hq
  split at hq
  · exact ⟨q, hq, p, hp, rfl, rfl, rfl⟩
  · simp only [Group.takeDue, List.mem_filter, List.mem_map] at hq
    obtain ⟨⟨q1, ⟨q0, h0, rfl⟩, rfl⟩, -⟩ := hq
    have hp1 := List.mem_of_mem_filter hp
    split at hp1
    · obtain ⟨p0, hp0, rfl⟩ := List.mem_map.mp hp1
      refine ⟨q0, h0, p0, hp0, ?_⟩
      split <;> exact ⟨rfl, rfl, rfl⟩
    · exact ⟨q0, h0, p, hp1, rfl, rfl, rfl⟩

theorem closeWindows_windowed (fresh : Nat) (g : Group) (f : Nat → Lane → Lane) (m : Mask) (n0 : Nat) :
    Windowed g f (Group.closeWindows fresh (g.updLanes f) m n0) := by
  have hs := Group.closeWindows_settled fresh (g.updLanes f) m n0
  refine ⟨by rw [hs.rest]; rfl, hs.len.trans (by simp [Group.updLanes]), fun l hl => ?_, fun l r hg q hq p hp hlane => ?_,
    fun l r hg q hq p hp hlane => ?_⟩
  · have hlane := hs.lane l
    rw [Group.lane_updLanes g f l hl] at hlane
    exact ⟨hlane.kept, hlane.reg, hlane.pred⟩
  · obtain ⟨q0, h0, p0, hp0, e, hws, -⟩ := closeWindows_named hq hp
    exact hws ▸ hg q0 h0 p0 hp0 (e.trans hlane)
  · obtain ⟨q0, h0, p0, hp0, e, -, hps⟩ := closeWindows_named hq hp
    exact hps ▸ hg q0 h0 p0 hp0 (e.trans hlane)

/-! Lanes that wait, and the lanes of their path that go on. -/

theorem mem_andNot (m n : Mask) (l : Nat) : (m &&& ~~~n).getLsbD l = true ↔ m.getLsbD l = true ∧ n.getLsbD l = false := by
  have hl : m.getLsbD l = true → l < 32 := BitVec.lt_of_getLsbD
  simp only [BitVec.getLsbD_and, BitVec.getLsbD_not, Bool.and_eq_true, decide_eq_true_eq, Bool.not_eq_true']
  exact ⟨fun ⟨h1, _, h2⟩ => ⟨h1, h2⟩, fun ⟨h1, h2⟩ => ⟨h1, hl h1, h2⟩⟩

/-- A lane of the mask goes on past an instruction, where its path moves. -/
def goesPast (c : Ctx) (i : Instr) (m : Mask) (l : Nat) (ln : Lane) : Lane :=
  { ln with pc := if m.getLsbD l ∧ ln.onSome ∧ c.alone = false then ln.pc + dwordOf i.len else ln.pc }

/-- A lane of the mask takes a wait at an instruction. -/
def waitsAt (i : Instr) (act : Mask) (f : Nat → LaneWait) (l : Nat) (ln : Lane) : Lane :=
  { ln with wait := if act.getLsbD l then f l else ln.wait, ilen := if act.getLsbD l then i.len else ln.ilen }

/-- What the lanes of a path that go on change of a state: the group's windows and lanes, and places among the paths (R27, R32). -/
structure SomeMoved (c : Ctx) (i : Instr) (m : Mask) (s t : State) : Prop where
  rest : t = { s with groups := t.groups }
  others : State.othersPlaced c.gk s t
  own : ∀ g, s.group? c.gk = some g → ∃ h k, t.group? c.gk = some k ∧ Group.placed h k ∧ Windowed g (goesPast c i m) h

theorem moveSome_moved (c : Ctx) (i : Instr) (m : Mask) (s : State) : SomeMoved c i m s (c.moveSome i m s) := by
  simp only [Ctx.moveSome]
  split
  next hstays =>
    have hid : goesPast c i m = fun _ ln => ln := by
      funext l ln
      rcases hstays with rfl | ha
      · simp [goesPast]
      · simp [goesPast, ha]
    refine ⟨rfl, fun j _ => ⟨fun g hg => ⟨g, hg, Group.placed_refl g⟩, id⟩, fun g hg => ⟨g, g, hg, Group.placed_refl g, ?_⟩⟩
    rw [hid]
    exact ⟨rfl, rfl, fun _ _ => Lane.settled_refl .., fun _ _ => id, fun _ _ => id⟩
  next hmoves =>
    obtain ⟨-, ha⟩ := not_or.mp hmoves
    have hgo : (fun l ln => if m.getLsbD l ∧ ln.onSome then { ln with pc := ln.pc + dwordOf i.len } else ln) = goesPast c i m := by
      funext l ln
      simp only [goesPast, Bool.eq_false_iff.mpr ha, and_true]
      split <;> rfl
    rw [hgo]
    generalize hu : (s.updGroup c.gk fun g => _) = u
    have hr : State.regrouped u ((u.repath c.gk c.path).grantHeld 64 c.t.core) :=
      State.regrouped_trans (State.repath_regrouped ..) (State.grantHeld_regrouped ..)
    have hother : ∀ j, j ≠ c.gk → u.group? j = s.group? j := fun j hj => by
      rw [← hu, State.group_updGroup, if_neg (Ne.symm hj)]
    refine ⟨hr.rest.trans (by rw [← hu]; rfl), fun j hj => ?_, fun g hg => ?_⟩
    · exact ⟨fun g hg => hr.some j g ((hother j hj).trans hg), fun hg => hr.none j ((hother j hj).trans hg)⟩
    · have hown : u.group? c.gk = some (Group.closeWindows s.fresh (g.updLanes (goesPast c i m)) m c.n0) := by
        rw [← hu, State.group_updGroup, if_pos rfl, hg]
        rfl
      obtain ⟨k, hk, hplaced⟩ := hr.some _ _ hown
      exact ⟨_, k, hk, hplaced, closeWindows_windowed ..⟩

/-- The active lanes wait, each as `f` says, and the other lanes of the path go on (R255, R264). -/
theorem waitEach_waits (c : Ctx) (i : Instr) (act : Mask) (f : Nat → LaneWait) {s : State} {g : Group}
    (hg : s.group? c.gk = some g) :
    Waits c i act (fun l ln => { ln with wait := f l }) s (c.waitEach i act f s) := by
  have hwait : (fun l ln => if act.getLsbD l then { ln with wait := f l, ilen := i.len } else ln) = waitsAt i act f := by
    funext l ln
    simp only [waitsAt]
    split <;> rfl
  simp only [Ctx.waitEach, hwait]
  generalize hu : (s.updGroup c.gk fun g => _) = u
  obtain ⟨rest, others, own⟩ := moveSome_moved c i (c.path &&& ~~~act) u
  have hother : ∀ j, j ≠ c.gk → u.group? j = s.group? j := fun j hj => by
    rw [← hu, State.group_updGroup, if_neg (Ne.symm hj)]
  have hown : u.group? c.gk = some (Group.closeWindows s.fresh (g.updLanes (waitsAt i act f)) act c.n0) := by
    rw [← hu, State.group_updGroup, if_pos rfl, hg]
    rfl
  have w1 := closeWindows_windowed s.fresh g (waitsAt i act f) act c.n0
  obtain ⟨h2, k, hk, ⟨hplaced, hplen, hplane⟩, w2⟩ := own _ hown
  generalize Group.closeWindows s.fresh (g.updLanes (waitsAt i act f)) act c.n0 = h1 at *
  refine ⟨rest.trans (by rw [← hu]; rfl), fun j hj => hother j hj ▸ others j hj, g, k, hg, hk, by rw [hplaced, w2.rest, w1.rest],
    hplen.trans (w2.len.trans w1.len), fun l hl => ?_⟩
  obtain ⟨e, hturn⟩ := hplane l
  obtain ⟨k1, reg1, pred1⟩ := w1.lane l hl
  obtain ⟨k2, reg2, pred2⟩ := w2.lane l (w1.len.symm ▸ hl)
  have hon : (h1.lane l).onSome = (g.lane l).onSome := by simp only [Lane.onSome, Lane.live, k1.lst, waitsAt]
  have hlst : (h2.lane l).lst = (g.lane l).lst := k2.lst.trans k1.lst
  refine ⟨fun r hr => ?_, fun r hr => ?_, ?_, ?_, ?_, ?_, ?_, ?_⟩
  · rw [Group.reg, e]
    exact (reg2 r (w1.clearV l r hr)).trans (reg1 r hr)
  · rw [Group.pred, e]
    exact (pred2 r (w1.clearP l r hr)).trans (pred1 r hr)
  · rw [e]
    exact k2.csp.trans k1.csp
  · rw [e]
    exact k2.helper.trans k1.helper
  · rw [ite_self, e]
    exact k2.seen.trans k1.seen
  · rw [e, k2.pc]
    simp only [goesPast, hon, k1.pc, waitsAt, mem_andNot, and_assoc]
  · rw [ite_self, ← hlst]
    exact hturn
  · rw [e]
    exact k2.wait.trans k1.wait

/-! What waking paths and testing events leaves alone: every channel. -/

theorem regrouped_chans {s t : State} (h : State.regrouped s t) : t.chans = s.chans := by rw [h.rest]

theorem foldl_chans {α : Type} {f : State → α → State} (hf : ∀ s x, (f s x).chans = s.chans) (xs : List α) (s : State) :
    (xs.foldl f s).chans = s.chans :=
  List.foldlRecOn (motive := fun t => t.chans = s.chans) xs f rfl fun t ht x _ => (hf t x).trans ht

theorem passSet_chans (s : State) (gk : Nat) (m : Mask) : (s.passSet gk m).chans = s.chans :=
  (regrouped_chans (State.repath_regrouped _ gk m)).trans rfl

theorem passLanes_chans (s : State) (gk : Nat) (m : Mask) : (s.passLanes gk m).chans = s.chans := by
  simp only [State.passLanes]
  split
  · rfl
  · exact (regrouped_chans (State.grantHeld_regrouped ..)).trans (foldl_chans (fun u _ => passSet_chans u gk _) _ s)

theorem wakeTlOf_chans (s : State) (ch gk : Nat) : (s.wakeTlOf ch gk).chans = s.chans := by
  simp only [State.wakeTlOf]
  split
  · rfl
  · split
    · rfl
    · exact passLanes_chans ..

theorem wakeTl_chans (s : State) (ch : Nat) : (s.wakeTl ch).chans = s.chans :=
  foldl_chans (fun u (x : Nat × Group) => wakeTlOf_chans u ch x.1) (s.groupsOfChan ch) s

theorem enter_chans (s : State) (gk i len : Nat) : (s.enter gk i len).chans = s.chans := by
  simp only [State.enter]
  split
  · rfl
  · split <;> rfl

theorem testEvents_chans (s : State) (gk : Nat) : (s.testEvents gk).chans = s.chans := by
  simp only [State.testEvents]
  split
  · rfl
  · split
    · split
      · exact enter_chans ..
      · rfl
    · rfl

theorem testAllEvents_chans (s : State) : s.testAllEvents.chans = s.chans := foldl_chans testEvents_chans _ s

theorem setBar_chans (s : State) (lvl : BarLevel) (tuid k : Nat) (b : Barrier) : (s.setBar lvl tuid k b).chans = s.chans := by
  simp only [State.setBar]
  split
  · rfl
  · split <;> rfl

theorem engineArrive_chans (s : State) (c : Cmd) : (s.engineArrive c).chans = s.chans := by
  simp only [State.engineArrive]
  split
  · rfl
  · split
    · exact setBar_chans ..
    · rfl

/-! The timeline of a channel (R104). -/

/-- What raising a timeline over its completed numbers gives. -/
structure Raised (x y : Chan) : Prop where
  queue : y.queue = x.queue
  nextNum : y.nextNum = x.nextNum
  errNum : y.errNum = x.errNum
  le : x.value ≤ y.value
  done : ∀ n, x.value < n → n ≤ y.value → n ∈ x.doneNums
  stays : x.value + 1 ∉ x.doneNums → y.value = x.value

theorem raise_raised (n : Nat) (x : Chan) : Raised x (Chan.raise n x) := by
  induction n generalizing x with
  | zero => exact ⟨rfl, rfl, rfl, Nat.le_refl _, fun k h1 h2 => (Nat.not_lt.mpr h2 h1).elim, fun _ => rfl⟩
  | succ n ih =>
    simp only [Chan.raise]
    split
    next hnext =>
      obtain ⟨hq, hn, he, hle, hdone, -⟩ := ih { x with value := x.value + 1, doneNums := x.doneNums.filter fun k => k ≠ x.value + 1 }
      refine ⟨hq, hn, he, Nat.le_of_succ_le hle, fun k h1 h2 => ?_, fun h => (h hnext).elim⟩
      rcases Nat.eq_or_lt_of_le (Nat.succ_le_of_lt h1) with rfl | hlt
      · exact hnext
      · exact List.mem_of_mem_filter (hdone k hlt h2)
    next hnone => exact ⟨rfl, rfl, rfl, Nat.le_refl _, fun k h1 h2 => (Nat.not_lt.mpr h2 h1).elim, fun _ => rfl⟩

/-- A timeline whose next number is complete rises. -/
theorem raise_rises {n : Nat} {x : Chan} (hn : n ≠ 0) (h : x.value + 1 ∈ x.doneNums) : x.value < (Chan.raise n x).value := by
  obtain ⟨n, rfl⟩ := Nat.exists_eq_add_one_of_ne_zero hn
  simp only [Chan.raise, if_pos h]
  have hle : x.value + 1 ≤ _ := (raise_raised n { x with
    value := x.value + 1, doneNums := x.doneNums.filter fun k => k ≠ x.value + 1 }).le
  exact hle

/-- A channel that has learnt that a command is complete. -/
def withDone (x : Chan) (c : Cmd) : Chan :=
  { x with doneNums := x.doneNums ++ [c.num], errNum := if c.errored then max x.errNum c.num else x.errNum }

theorem withDone_next (x : Chan) (c : Cmd) :
    (withDone x c).value + 1 ∈ (withDone x c).doneNums ↔ x.value + 1 ∈ x.doneNums ∨ c.num = x.value + 1 := by
  show x.value + 1 ∈ x.doneNums ++ [c.num] ↔ _
  rw [List.mem_append, List.mem_singleton, eq_comm (a := x.value + 1)]

/-- The channel once a command has completed: its number is done, then the timeline rises (R104). -/
theorem finishCmd_chan (s : State) (ch : Nat) (c : Cmd) :
    (s.finishCmd ch c).chan ch = Chan.raise ((s.chan ch).doneNums.length + 1) (withDone (s.chan ch) c) := by
  simp only [State.finishCmd]
  rw [State.chan, engineArrive_chans, testAllEvents_chans, wakeTl_chans, ← State.chan, State.chan_setChan, if_pos rfl,
    List.length_append]
  rfl

theorem timelineAdvances : Claims.TimelineAdvances := by
  intro s ch c x y
  have hy : y = Chan.raise (x.doneNums.length + 1) (withDone x c) := finishCmd_chan s ch c
  obtain ⟨hqueue, hnext, herr, hle, hdone, hstays⟩ : Raised (withDone x c) y := hy ▸ raise_raised _ _
  refine ⟨herr, hqueue, hnext, hle, fun n h1 h2 => ?_, fun hn => ?_, fun hn hmiss => ?_⟩
  · simpa [withDone, or_comm] using hdone n h1 h2
  · rw [hy]
    exact raise_rises (Nat.succ_ne_zero _) ((withDone_next x c).mpr (.inr hn))
  · exact hstays fun h => ((withDone_next x c).mp h).elim hmiss hn

/-! The instructions. -/

theorem acquire_group {s : State} {gk : Nat} {g : Group} (m : Mask) (hg : s.group? gk = some g) :
    (s.acquire gk m).group? gk = some (g.updLanes fun l ln => if m.getLsbD l then { ln with seen := s.wseq } else ln) := by
  rw [State.acquire, State.group_updGroup, if_pos rfl, hg]
  rfl

theorem writeLanes_group {s : State} {gk : Nat} {g : Group} (m : Mask) (f : Nat → Wr) (hg : s.group? gk = some g) :
    ∃ h, (s.writeLanes gk m f).group? gk = some h := by
  rw [State.writeLanes, State.group_updGroup, if_pos rfl, hg]
  exact ⟨_, rfl⟩

theorem timelineResult : Claims.TimelineResult := by
  intro h err d a b p
  refine ⟨fun s c hi => ?wait, fun s c hi => ?read, fun s c hi => ?tryy⟩
  case wait =>
    intro v
    have hrun : exec (.tlWait h a b) s = _ := Eq.trans (b := execTlWait h a b s) rfl (issue_next hi _)
    have hall : ((Mask.lanes (c.active (.tlWait h a b) s)).all fun l => decide ((c.pair s l a).toNat ≤ v)) = true ↔
        ∀ l, (c.active (.tlWait h a b) s).getLsbD l = true → (c.pair s l a).toNat ≤ v := by
      simp only [List.all_eq_true, Mask.mem_lanes, decide_eq_true_eq]
    refine ⟨fun hmet => ?_, fun ⟨l, hl, hlt⟩ => ?_⟩
    · rw [hrun, if_pos (hall.mpr hmet)]
      exact ⟨_, rfl, Ctx.advance_advanced c _ _ _ (acquire_group _ (State.ctx_group hi.1))⟩
    · rw [hrun, if_neg fun hmet => Nat.not_lt.mpr (hall.mp hmet l hl) hlt]
      exact ⟨_, rfl, waitEach_waits c _ _ _ (State.ctx_group hi.1)⟩
  case read =>
    intro x act
    obtain ⟨g, hg⟩ := writeLanes_group act (fun _ => .pair d (dwordOf (if err then x.errNum else x.value)))
      (acquire_group act (State.ctx_group hi.1))
    exact ⟨_, Eq.trans (b := execTlRead h err d b s) rfl (issue_next hi _), Ctx.advance_advanced c _ _ g hg⟩
  case tryy =>
    intro v act
    obtain ⟨g, hg⟩ := writeLanes_group act
      (fun l => if (c.pair s l a).toNat ≤ v then (Wr.pair d (dwordOf v)).and (.p p true) else .p p false)
      (acquire_group (Mask.ofPred fun l => act.getLsbD l && decide ((c.pair s l a).toNat ≤ v)) (State.ctx_group hi.1))
    refine ⟨_, ?_, Ctx.advance_advanced c _ _ g hg⟩
    have hrun : exec (.tlTry h d a b p) s = _ := Eq.trans (b := execTlTry h d a b p s) rfl (issue_next hi _)
    simp only [hrun, decide_eq_true_eq, v, act]

theorem guardSlotResult : Claims.GuardSlotResult := by
  intro h a b s c
  refine ⟨fun hi => ⟨fun l hl => ?lane, fun hnone => ?none⟩, fun hi => ?clear⟩
  case lane =>
    have hrun : exec (.gslotSet h a b) s = _ := Eq.trans (b := execGslotSet h a b s) rfl (issue_next hi _)
    simp only [hrun, Ctx.realOf, hl]
    refine ⟨_, rfl, Ctx.advance_advanced c _ _ { c.g with guards := setAt c.g.guards b.toNat (if c.p s l a then .isTrue else .isFalse) } ?_⟩
    show (s.updGroup c.gk _).group? c.gk = _
    rw [State.group_updGroup, if_pos rfl, State.ctx_group hi.1]
    rfl
  case none =>
    have hrun : exec (.gslotSet h a b) s = _ := Eq.trans (b := execGslotSet h a b s) rfl (issue_next hi _)
    simp only [hrun, Ctx.realOf, hnone]
    exact ⟨_, rfl, Ctx.advance_advanced c _ s c.g (State.ctx_group hi.1)⟩
  case clear =>
    refine ⟨_, Eq.trans (b := execGslotClr h b s) rfl (issue_next hi _), ?_⟩
    split
    · exact Ctx.advance_advanced c _ s c.g (State.ctx_group hi.1)
    · refine Ctx.advance_advanced c _ _ { c.g with guards := setAt c.g.guards b.toNat .unresolved } ?_
      rw [State.group_updGroup, if_pos rfl, State.ctx_group hi.1]
      rfl

/-- Settles O31: waits go by `waitEach_waits`, and the timeline by `raise_raised` and `raise_rises`. -/
theorem timelineAndGuardResult : Obligations.TimelineAndGuardResult :=
  ⟨timelineResult, guardSlotResult, timelineAdvances⟩

end Sys2Proof.Laws
end

section
/-! PROOF. O49: the events of the command at a queue head (R104, R105, R265, R268, R270, R275, R337, R364, R365). -/

namespace Sys2Proof.Laws

open Sys2Proof Sys2Proof.Machine

/-! What an event of a channel leaves. -/

theorem syncQueue_of_same {s t : State} {ch : Nat} (h : ch < 2 ^ 20 ∨ t.chan ch = s.chan ch) : s.syncQueue ch t = t :=
  if_pos (h.imp id .inl)

theorem syncQueue_of_not_evicted {s t : State} {ch : Nat} (h : t.teamSt? ((ch - 2 ^ 20) / 16) ≠ some .evicted) :
    s.syncQueue ch t = t :=
  if_pos (.inr (.inr h))

theorem syncQueue_of_evicted {s t : State} {ch : Nat} (hch : 2 ^ 20 ≤ ch) (hx : t.chan ch ≠ s.chan ch)
    (ht : t.teamSt? ((ch - 2 ^ 20) / 16) = some .evicted) : s.syncQueue ch t = t.writeQueue ((ch - 2 ^ 20) / 16) (ch % 16) :=
  if_neg fun h => h.elim (Nat.not_lt.mpr hch) fun h => h.elim hx fun h => h ht

theorem outMem_next {s : State} (h : s.stuck = none) : outMem s = .next s := by
  simp only [outMem, h]

theorem outCmd_next {s t : State} {ch : Nat} (h : (s.syncQueue ch t).stuck = none) : outCmd s ch t = .next (s.syncQueue ch t) :=
  outMem_next h

/-- An event whose moment has not come changes nothing. -/
theorem outCmd_same {s : State} (hs : s.stuck = none) (ch : Nat) : outCmd s ch s = .next s := by
  rw [outCmd, syncQueue_of_same (.inr rfl), outMem_next hs]

/-! The head of a queue. -/

section

variable {s : State} {ch : Nat} {c : Cmd} {q : List Cmd} (hq : (s.chan ch).queue = c :: q)

include hq

theorem headLeft_eq : s.headLeft ch = c.total - c.cursor := by
  simp only [State.headLeft, hq]

theorem headMerges_eq : s.headMerges ch = c.gmerge := by
  simp only [State.headMerges, hq]

theorem headDone_eq : s.headDone ch = (c.ran && !s.cmdPaused c && !s.cmdRemotes ch c.num) := by
  simp only [State.headDone, hq]

/-- The head is discarded where it is so marked or its slot is FALSE (R265). -/
theorem headDiscards_iff : s.headDiscards ch = true ↔ c.ran = false ∧ s.cmdPaused c = false ∧ s.cmdRemotes ch c.num = false ∧
    (c.discard = true ∨ s.guardOf c = some .isFalse) := by
  have hlatch : (s.latchCmd c).discard = true ↔ c.discard = true ∨ s.guardOf c = some .isFalse := by
    unfold State.latchCmd
    split
    next h => simp [h]
    next h => simp [h]
    next h => exact ⟨.inl, fun hd => hd.elim id fun e => (h e).elim⟩
  simp only [State.headDiscards, hq, Bool.and_eq_true, Bool.not_eq_true', hlatch]
  tauto

theorem runHead_idle {n : Nat} {k : CmdKind} (h : c.kind ≠ k ∨ s.headRuns ch = false) : s.runHead ch n k = s := by
  have hidle : c.kind ≠ k ∨ (!s.headRuns ch) = true := by simpa using h
  simp only [State.runHead, hq, if_pos hidle]

/-- What the head of a queue moves when it runs for `n` elements: a merge takes its staged entries. -/
def headMoves (s : State) (ch n : Nat) (c : Cmd) : State × Cmd × CRes :=
  if c.gmerge then s.takeMerge ch { c with guard := none } else s.runElems n ch { c with guard := none }

section

variable {n : Nat} {k : CmdKind} {s' : State} {c' : Cmd} (hk : c.kind = k) (hr : s.headRuns ch = true) (hcur : c.cursor < c.total)

include hk hr hcur

/-- Its elements moved, a reduce-store is applied or staged. -/
theorem runHead_applies (hm : headMoves s ch n c = (s', c', .done)) (hk' : c'.kind = .reduceStore) :
    s.runHead ch n k = s'.applyHead ch c' := by
  have hgo : ¬ (c.kind ≠ k ∨ (!s.headRuns ch) = true) := by simp [hk, hr]
  have hleft : ¬ c.cursor ≥ ({ c with guard := none } : Cmd).total := Nat.not_le.mpr hcur
  unfold headMoves at hm
  simp only [State.runHead, hq, if_neg hgo, if_neg hleft, hm, hk']

/-- Its elements moved, any other command has run. -/
theorem runHead_ran (hm : headMoves s ch n c = (s', c', .done)) (hk' : c'.kind ≠ .reduceStore) :
    s.runHead ch n k = (s'.setPresence c').setHead ch { c' with ran := true } := by
  have hgo : ¬ (c.kind ≠ k ∨ (!s.headRuns ch) = true) := by simp [hk, hr]
  have hleft : ¬ c.cursor ≥ ({ c with guard := none } : Cmd).total := Nat.not_le.mpr hcur
  unfold headMoves at hm
  simp only [State.runHead, hq, if_neg hgo, if_neg hleft, hm]

/-- A chunk ends before the last element (R337). -/
theorem runHead_pauses (hm : headMoves s ch n c = (s', c', .more)) : s.runHead ch n k = (s'.landLines c').setHead ch c' := by
  have hgo : ¬ (c.kind ≠ k ∨ (!s.headRuns ch) = true) := by simp [hk, hr]
  have hleft : ¬ c.cursor ≥ ({ c with guard := none } : Cmd).total := Nat.not_le.mpr hcur
  unfold headMoves at hm
  simp only [State.runHead, hq, if_neg hgo, if_neg hleft, hm]

end

/-! Collectives. -/

theorem runCollective_idle (h : c.kind ≠ .collective ∨ s.headRuns ch = false) : s.runCollective ch = s := by
  have hidle : c.kind ≠ .collective ∨ (!s.headRuns ch) = true := by simpa using h
  simp only [State.runCollective, hq, if_pos hidle]

/-- What a collective that runs does (R363, R364). -/
theorem runCollective_runs (hk : c.kind = .collective) (hr : s.headRuns ch = true) :
    (s.svc = .reduced → s.runCollective ch = s.setHead ch { c with ran := true, errored := true, stagedV := [] }) ∧
    (∀ x, s.svc ≠ .reduced → (s.colls.find? fun y => y.ch == ch && y.num == c.num) = some x →
      s.runCollective ch = s.collGo ch c x) ∧
    (s.svc ≠ .reduced → (s.colls.find? fun y => y.ch == ch && y.num == c.num) = none → ∀ (s' : State) (c' : Cmd),
      s.runElems (c.total + 1) ch { c with guard := none } = (s', c', .done) → s.runCollective ch = s'.collStart ch c') := by
  have hgo : ¬ (c.kind ≠ .collective ∨ (!s.headRuns ch) = true) := by simp [hk, hr]
  refine ⟨fun h => ?_, fun x h hx => ?_, fun h hx s' c' hrun => ?_⟩
  · simp only [State.runCollective, hq, if_neg hgo, if_pos h]
  · simp only [State.runCollective, hq, if_neg hgo, if_neg h, hx]
  · have hrun' : s.runElems (({ c with guard := none } : Cmd).total + 1) ch { c with guard := none } = (s', c', .done) := hrun
    simp only [State.runCollective, hq, if_neg hgo, if_neg h, hx, hrun']

/-- A collective is late once its limit has passed (R365). -/
theorem lateColl_some (hk : c.kind = .collective) (hr : c.ran = false) (h0 : (s.part (s.cmdPart c)).cTimeout ≠ 0)
    (ht : c.issued + 1000 * (s.part (s.cmdPart c)).cTimeout ≤ s.ptime) : s.lateColl ch = some c := by
  simp [State.lateColl, hq, hk, hr, h0, ht]

theorem lateColl_none (h : c.kind ≠ .collective ∨ c.ran = true ∨ (s.part (s.cmdPart c)).cTimeout = 0 ∨
    s.ptime < c.issued + 1000 * (s.part (s.cmdPart c)).cTimeout) : s.lateColl ch = none := by
  simp only [State.lateColl, hq]
  refine if_neg fun hall => ?_
  simp only [Bool.and_eq_true, decide_eq_true_eq, Bool.not_eq_true', ne_eq] at hall
  obtain ⟨⟨⟨hk, hr⟩, h0⟩, ht⟩ := hall
  rcases h with h | h | h | h
  · exact h hk
  · simp [hr] at h
  · exact h0 h
  · exact Nat.not_le.mpr h ht

end

/-- Settles O49, event by event: each either finds its moment not come, and then nothing changes (`outCmd_same`), or makes its one
change, after which the virtual queue of an evicted team is written back (`outCmd_next`). -/
theorem commandRunResult : Obligations.CommandRunResult := by
  unfold Obligations.CommandRunResult
  intro s ch c q hs hq c0 runs back tail team
  have idle : ∀ {t : State}, t = s → outCmd s ch t = .next s := fun h => by rw [h, outCmd_same hs]
  have goes : ∀ {t u : State}, t = u → (back u).stuck = none → outCmd s ch t = .next (back u) := fun h hu => by
    rw [h, outCmd_next hu]
  have elems : ∀ n, c.gmerge = false → headMoves s ch n c = s.runElems n ch c0 := fun n hm => by simp [headMoves, hm, c0]
  have left : s.headLeft ch = c.total - c.cursor := headLeft_eq hq
  refine ⟨fun t => ⟨syncQueue_of_same, syncQueue_of_evicted, syncQueue_of_not_evicted⟩, ?copies, ?late, ?reduceIdle, ?reduces,
    ?mergeIdle, ?merges, ?chunks, ?completeIdle, ?completes, ?discardIdle, ?discards, ?collIdle, ?collReduced, ?collGoes, ?collStarts,
    ?times⟩
  case copies =>
    intro k i hki
    have hexec : exec i s = outCmd s ch (s.runHead ch (s.headLeft ch) k) := by
      rcases hki with ⟨rfl, rfl⟩ | ⟨rfl, rfl⟩ | ⟨rfl, rfl⟩ <;> rfl
    have hkr : k ≠ .reduceStore := by rcases hki with ⟨rfl, _⟩ | ⟨rfl, _⟩ | ⟨rfl, _⟩ <;> decide
    rw [hexec]
    refine ⟨fun h => idle (runHead_idle hq h), fun hk hr hm hcur s' c' hrun hk' => ?_⟩
    exact goes (runHead_ran hq hk hr hcur (by rw [elems _ hm, left, hrun]) (hk' ▸ hkr))
  case late =>
    intro y hy ht
    have hrun : (if (s.lateStaged ch).isSome then s.runLate ch else if s.headMerges ch then s
        else s.runHead ch (s.headLeft ch) .reduceStore) = s.applyStagedCmd ch y := by
      simp [State.runLate, hy]
    exact goes hrun ht
  case reduceIdle =>
    intro hnone h
    refine idle (t := if (s.lateStaged ch).isSome then s.runLate ch else if s.headMerges ch then s
        else s.runHead ch (s.headLeft ch) .reduceStore) ?_
    rw [hnone, headMerges_eq hq]
    cases hm : c.gmerge with
    | true => rfl
    | false => exact runHead_idle hq (h.resolve_left (by simp [hm]))
  case reduces =>
    intro hnone hm hk hr hcur s' c' hrun hk' ht
    refine goes (t := if (s.lateStaged ch).isSome then s.runLate ch else if s.headMerges ch then s
        else s.runHead ch (s.headLeft ch) .reduceStore) ?_ ht
    rw [hnone, headMerges_eq hq, hm]
    exact runHead_applies hq hk hr hcur (by rw [elems _ hm, left, hrun]) hk'
  case mergeIdle =>
    intro h
    refine idle (t := if s.headMerges ch then s.runHead ch 1 .reduceStore else s) ?_
    rw [headMerges_eq hq]
    cases hm : c.gmerge with
    | true => exact runHead_idle hq (h.resolve_left (by simp [hm]))
    | false => rfl
  case merges =>
    intro hm hk hr hcur s' c' hrun hk' ht
    refine goes (t := if s.headMerges ch then s.runHead ch 1 .reduceStore else s) ?_ ht
    rw [headMerges_eq hq, if_pos hm]
    exact runHead_applies hq hk hr hcur (by simp only [headMoves, if_pos hm]; exact hrun) hk'
  case chunks =>
    intro n
    have hexec : exec (.commandChunkEnd ch n) s = outCmd s ch (if c.kind = .collective then s else s.runHead ch n c.kind) := by
      show execCommandChunkEnd ch n s = _
      simp only [execCommandChunkEnd, hq]
    rw [hexec]
    refine ⟨fun h => idle ?_, fun hk hr hm hcur s' c' hrun => goes ?_⟩
    · split
      next => rfl
      next hk => exact runHead_idle hq (.inr (h.resolve_left hk))
    · rw [if_neg hk]
      exact runHead_pauses hq rfl hr hcur (by rw [elems _ hm, hrun])
  case completeIdle =>
    intro h
    refine idle (t := if s.headDone ch then s.completeHead ch else s) (if_neg ?_)
    rw [headDone_eq hq]
    rcases h with h | h | h <;> simp [h]
  case completes =>
    intro hr hp hrem told t ht
    refine goes (t := if s.headDone ch then s.completeHead ch else s) ?_ ht
    rw [headDone_eq hq, hr, hp, hrem]
    simp only [State.completeHead, hq]
    rfl
  case discardIdle =>
    intro h
    refine idle (t := s.discardHead ch) (if_neg fun hd => ?_)
    obtain ⟨hr, hp, hrem, hdis⟩ := (headDiscards_iff hq).mp hd
    rcases h with h | h | h | ⟨h1, h2⟩
    · simp [hr] at h
    · simp [hp] at h
    · simp [hrem] at h
    · exact hdis.elim (by simp [h1]) h2
  case discards =>
    intro hr hp hrem hdis t ht
    refine goes (t := s.discardHead ch) ?_ ht
    rw [State.discardHead, if_pos ((headDiscards_iff hq).mpr ⟨hr, hp, hrem, hdis⟩)]
    simp only [hq]
    rfl
  case collIdle => exact fun h => idle (runCollective_idle hq h)
  case collReduced =>
    intro hk hr hsvc
    obtain ⟨hreduced, -, -⟩ := runCollective_runs hq hk hr
    exact goes (hreduced hsvc)
  case collGoes =>
    intro x hk hr hsvc hx
    obtain ⟨-, hgoes, -⟩ := runCollective_runs hq hk hr
    exact goes (hgoes x hsvc hx)
  case collStarts =>
    intro hk hr hsvc hx s' c' hrun
    obtain ⟨-, -, hstarts⟩ := runCollective_runs hq hk hr
    exact goes (hstarts hsvc hx s' c' hrun)
  case times =>
    intro lim
    show (_ → execCollectiveTimeout ch s = _) ∧ ∀ x, _ → _ → _ → _ → _ → _ → execCollectiveTimeout ch s = _
    refine ⟨fun h => ?_, fun x hk hr h0 hle hx => ?_⟩
    · simp only [execCollectiveTimeout, lateColl_none hq h]
      exact idle rfl
    · simp only [execCollectiveTimeout, lateColl_some hq hk hr h0 hle, hx]
      exact goes rfl

end Sys2Proof.Laws
end

section
/-! PROOF. O48: an aperture store issues one command a lane, and what one element of a command does (R68, R102, R104, R254,
R266-R268). -/

namespace Sys2Proof.Laws

open Sys2Proof Sys2Proof.Machine Sys2Proof.Claims

/-! Looking up the translations of a store. -/

theorem noteXlates_eq (c : Ctx) (m : Mask) (sp : Sp) (ea : Nat → DWord) (s : State) :
    ∃ ts ws, c.noteXlates m sp ea s = { s with tlb1 := ts, walks := ws } := by
  refine List.foldlRecOn (motive := fun (t : State) => ∃ ts ws, t = { s with tlb1 := ts, walks := ws }) _ _ ⟨s.tlb1, s.walks, rfl⟩ ?_
  rintro t ⟨ts, ws, rfl⟩ page -
  obtain ⟨ts', ws', h⟩ := noteXlate_eq { s with tlb1 := ts, walks := ws } c.part c.t.core c.l.classH (page * 2 ^ 16)
  exact ⟨ts', ws', h⟩

/-! One command joins its queue. -/

/-- The channels, memory and groups are the same, and the model has not stopped. -/
structure SameQueues (s t : State) : Prop where
  chans : t.chans = s.chans
  mem : t.mem = s.mem
  sram : t.sram = s.sram
  groups : t.groups = s.groups
  stuck : t.stuck = s.stuck

theorem SameQueues.refl (s : State) : SameQueues s s := ⟨rfl, rfl, rfl, rfl, rfl⟩

theorem SameQueues.trans {s t u : State} (h1 : SameQueues s t) (h2 : SameQueues t u) : SameQueues s u :=
  ⟨h2.chans.trans h1.chans, h2.mem.trans h1.mem, h2.sram.trans h1.sram, h2.groups.trans h1.groups, h2.stuck.trans h1.stuck⟩

theorem setBar_sameQueues (s : State) (lvl : BarLevel) (tuid k : Nat) (b : Barrier) : SameQueues s (s.setBar lvl tuid k b) := by
  simp only [State.setBar]
  split
  · exact SameQueues.refl s
  · split <;> exact ⟨rfl, rfl, rfl, rfl, rfl⟩

/-- The command that a lane's store issues: its fields before it takes the value of its slot. -/
structure IsIssued (c : Ctx) (gsl : BitVec 4) (r : CmdReq) (n : Nat) (x : Cmd) : Prop where
  num : x.num = n
  kind : x.kind = r.t.kind
  gk : x.gk = c.gk
  tuid : x.tuid = c.tuid
  sfmt : x.sfmt = r.t.sfmt
  dfmt : x.dfmt = r.t.dfmt
  rows : x.rows = r.rows
  rlen : x.rlen = r.t.rlen
  sbase : x.sbase = dwordOf r.sbase
  dbase : x.dbase = dwordOf r.dbase
  guard : x.guard = if gsl.getLsbD 3 then some (gsl.toNat % 8) else none
  discard : x.discard = false
  bar : x.bar = if r.nobar then none else r.t.bar
  ran : x.ran = false
  cursor : x.cursor = 0

/-- The command that joins a queue: at its head it takes the value that its slot has (R265). -/
def headed (s : State) (ch : Nat) (x : Cmd) : Cmd := if (s.chan ch).queue.isEmpty then s.latchCmd x else x

/-- A channel with one more command. -/
def queueUp (s : State) (ch : Nat) (x : Cmd) : State :=
  s.setChan ch { s.chan ch with queue := (s.chan ch).queue ++ [headed s ch x], nextNum := (s.chan ch).nextNum + 1 }

theorem issueCmd_queues (c : Ctx) (l k : Nat) (gsl : BitVec 4) (r : CmdReq) (s : State) :
    ∃ x, IsIssued c gsl r (s.chan (c.chanKey k)).nextNum x ∧
      SameQueues (queueUp s (c.chanKey k) x) (c.issueCmd l k gsl r s) := by
  generalize ht : c.issueCmd l k gsl r s = t
  unfold Ctx.issueCmd at ht
  extract_lets ch x bar phase round depth fresh cmd head joined merged at ht
  have hjoined : SameQueues (queueUp s ch cmd) joined := ⟨rfl, rfl, rfl, rfl, rfl⟩
  have hmerged : SameQueues joined merged := by
    simp only [merged]
    split <;> exact ⟨rfl, rfl, rfl, rfl, rfl⟩
  refine ⟨cmd, ⟨rfl, rfl, rfl, rfl, rfl, rfl, rfl, rfl, rfl, rfl, rfl, rfl, rfl, rfl, rfl⟩, hjoined.trans (hmerged.trans ?_)⟩
  subst t
  generalize bar = o
  cases o with
  | some y => exact setBar_sameQueues ..
  | none => exact SameQueues.refl _

/-- The command at the head of its queue takes the value that its slot has (R265). -/
theorem latchCmd_eq (s : State) (x : Cmd) :
    s.latchCmd x = { x with guard := (s.latchCmd x).guard, discard := (s.latchCmd x).discard } := by
  simp only [State.latchCmd]
  split <;> rfl

theorem IsIssued.latched {c : Ctx} {gsl : BitVec 4} {r : CmdReq} {n : Nat} {x : Cmd} (s : State) (h : IsIssued c gsl r n x) :
    (gsl.getLsbD 3 = false → s.latchCmd x = x) ∧
    (∀ g, gsl.getLsbD 3 = true → s.group? c.gk = some g →
      (s.latchCmd x).guard = (if atD g.guards (gsl.toNat % 8) .unresolved = .unresolved then some (gsl.toNat % 8) else none) ∧
      (s.latchCmd x).discard = decide (atD g.guards (gsl.toNat % 8) .unresolved = .isFalse)) := by
  refine ⟨fun hb => ?_, fun g hb hg => ?_⟩
  · have hguard : x.guard = none := by rw [h.guard, hb]; rfl
    have hslot : s.guardOf x = none := by simp only [State.guardOf, hguard]
    simp only [State.latchCmd, hslot]
  · have hslot : s.guardOf x = some (atD g.guards (gsl.toNat % 8) .unresolved) := by
      simp [State.guardOf, h.guard, hb, h.gk, hg]
    simp only [State.latchCmd, hslot]
    cases atD g.guards (gsl.toNat % 8) GSlot.unresolved with
    | unresolved => simp [h.guard, h.discard, hb]
    | isTrue => simp [h.discard]
    | isFalse => simp

/-- Every field but the guard and the discard mark is as the lane's store gave it. -/
theorem headed_eq (s : State) (ch : Nat) (x : Cmd) :
    ∃ g d, headed s ch x = { x with guard := g, discard := d } := by
  rw [headed]
  split
  · exact ⟨_, _, latchCmd_eq s x⟩
  · exact ⟨x.guard, x.discard, rfl⟩

theorem queueUp_chan (s : State) (ch : Nat) (x : Cmd) (d : Nat) :
    (queueUp s ch x).chan d = if ch = d then { s.chan ch with
      queue := (s.chan ch).queue ++ [headed s ch x], nextNum := (s.chan ch).nextNum + 1 } else s.chan d :=
  State.chan_setChan ..

theorem SameQueues.chan {s t : State} (h : SameQueues s t) (d : Nat) : t.chan d = s.chan d := by
  rw [State.chan, h.chans]
  rfl

theorem issueCmd_groups (c : Ctx) (l k : Nat) (gsl : BitVec 4) (r : CmdReq) (s : State) :
    (c.issueCmd l k gsl r s).groups = s.groups := by
  obtain ⟨x, -, h⟩ := issueCmd_queues c l k gsl r s
  exact h.groups

theorem issueCmd_stuck (c : Ctx) (l k : Nat) (gsl : BitVec 4) (r : CmdReq) (s : State) :
    (c.issueCmd l k gsl r s).stuck = s.stuck := by
  obtain ⟨x, -, h⟩ := issueCmd_queues c l k gsl r s
  exact h.stuck

/-! A store to the aperture. -/

section

variable {c : Ctx} {s : State} {x : StArgs} {gsl : BitVec 4} {real : Mask}

/-- What a lane's store to the aperture asks for. -/
def Asks (c : Ctx) (s : State) (x : StArgs) (gsl : BitVec 4) (l k : Nat) (r : CmdReq) : Prop :=
  c.check s l .gen (c.addr s l .gen x.a x.disp) 16 .write true (gsl.getLsbD 3) false = .ok (.command k) ∧
    c.cmdReq s (c.addr s l .gen x.a x.disp).toNat (c.data s l x.d x.ty) = .inr r

theorem storeChk_command (hty : x.ty = .b128) {l k : Nat} {r : CmdReq} (h : Asks c s x gsl l k r) :
    c.storeChk s .gen x gsl l = .ok (.command k) := by
  obtain ⟨hcheck, hreq⟩ := h
  have hr : c.cmdReq s (c.addr s l .gen x.a x.disp).toNat (c.storeData s x l) = .inr r := hreq
  have hbytes : x.ty.bytes = 16 := by rw [hty]; rfl
  have htail : decide (x.ty = .b64) = false := by rw [hty]; rfl
  have hcmd : decide (x.ty = .b128) = true := by rw [hty]; rfl
  simp only [Ctx.storeChk, hbytes, htail, hcmd, decide_true, Bool.true_and, hcheck, hr]

/-- Lanes whose accesses pass their checks raise no fault (R205). -/
theorem pickFault_none {act : Mask} {write : Bool} {f : Nat → Chk} (h : ∀ l, (c.realOf act).getLsbD l = true → ∃ t, f l = .ok t) :
    c.pickFault act write f = none := by
  unfold Ctx.pickFault
  extract_lets bads
  have hbads : bads = [] := by
    rw [List.filterMap_eq_nil_iff]
    intro l hl
    obtain ⟨t, ht⟩ := h l ((Mask.mem_lanes _ _).mp hl)
    rw [ht]
  rw [hbads]
  rfl

theorem switchOff_zero (s : State) (gk : Nat) (why : Nat → Nat) : s.switchOff gk 0#32 why = s := rfl

/-- Where a channel has no room, the lanes wait (R266). -/
theorem store_holds {i : Instr} {act : Mask} (hreal : real = c.realOf act)
    (hmeet : c.meet s real true x.ty.bytes (fun l => c.storeChk s .gen x gsl l) = .go)
    {ch n : Nat} (h : c.fullChan s (placesOf real fun l => c.storeChk s .gen x gsl l) = some (ch, n)) :
    c.store i .gen x gsl act s = c.holdLanes c.path (.queue ch n) s := by
  subst hreal
  simp only [Ctx.store, hmeet, h]

/-- One lane's share: its command joins its queue. -/
def issueLane (c : Ctx) (s : State) (x : StArgs) (gsl : BitVec 4) (u : State) (q : Nat × Target) : State :=
  match q.2, c.cmdReq s (c.addr s q.1 .gen x.a x.disp).toNat (c.data s q.1 x.d x.ty) with
  | .command k, .inr r => c.issueCmd q.1 k gsl r u
  | _, _ => u

theorem issueLanes_keep (xs : List (Nat × Target)) (v : State) :
    (xs.foldl (issueLane c s x gsl) v).groups = v.groups ∧ (xs.foldl (issueLane c s x gsl) v).stuck = v.stuck := by
  refine List.foldlRecOn (motive := fun (u : State) => u.groups = v.groups ∧ u.stuck = v.stuck) xs _ ⟨rfl, rfl⟩
    fun u hu q _ => ?_
  unfold issueLane
  split
  · rw [issueCmd_groups, issueCmd_stuck]
    exact hu
  · exact hu

variable (hty : x.ty = .b128) (hall : ∀ l, real.getLsbD l = true → ∃ k r, Asks c s x gsl l k r)

include hty hall

/-- Lanes that all name the aperture and pass the checks meet nothing (R205, R206, R266). -/
theorem commands_meet (hreal : real = c.realOf real) : c.meet s real true x.ty.bytes (fun l => c.storeChk s .gen x gsl l) = .go := by
  have hok : ∀ l, real.getLsbD l = true → ∃ k, c.storeChk s .gen x gsl l = .ok (.command k) := fun l hl => by
    obtain ⟨k, r, h⟩ := hall l hl
    exact ⟨k, storeChk_command hty h⟩
  have hasks : c.asks real (fun l => c.storeChk s .gen x gsl l) = [] := by
    rw [Ctx.asks, List.filterMap_eq_nil_iff]
    intro l hl
    rw [Mask.mem_lanes, BitVec.getLsbD_and, Bool.and_eq_true] at hl
    obtain ⟨k, hk⟩ := hok l hl.1
    rw [hk]
  have hfault : c.pickFault real true (fun l => c.storeChk s .gen x gsl l) = none := pickFault_none fun l hl => by
    obtain ⟨k, hk⟩ := hok l (hreal ▸ hl)
    exact ⟨_, hk⟩
  have hplaces : ((placesOf real fun l => c.storeChk s .gen x gsl l).filterMap fun y =>
      y.2.scratch.map fun q => (q.1, q.2, x.ty.bytes)) = [] := by
    rw [List.filterMap_eq_nil_iff]
    intro y hy
    rw [placesOf, List.mem_filterMap] at hy
    obtain ⟨l, hl, he⟩ := hy
    obtain ⟨k, hk⟩ := hok l ((Mask.mem_lanes _ _).mp hl)
    rw [hk] at he
    obtain rfl := Option.some.inj he
    rfl
  simp only [Ctx.meet, hasks, hfault, hplaces]
  rfl

/-- No lane of them is switched off (R71). -/
theorem commands_offLanes {act : Mask} (hact : real = c.realOf act) :
    c.offLanes act (fun l => c.storeChk s .gen x gsl l) = 0#32 := by
  refine BitVec.eq_of_getLsbD_eq fun l hl => ?_
  rw [Ctx.offLanes, Mask.ofPred_getLsbD, ← hact]
  cases hb : real.getLsbD l with
  | false => simp
  | true =>
    obtain ⟨k, r, h⟩ := hall l hb
    simp [storeChk_command hty h]

/-- Each of them issues its command (R266). -/
theorem storeLane_issues (u : State) {q : Nat × Target} (hq : q ∈ placesOf real fun l => c.storeChk s .gen x gsl l) :
    c.storeLane .gen x gsl s u q = issueLane c s x gsl u q := by
  rw [placesOf, List.mem_filterMap] at hq
  obtain ⟨l, hl, he⟩ := hq
  obtain ⟨k, r, h⟩ := hall l ((Mask.mem_lanes _ _).mp hl)
  rw [storeChk_command hty h] at he
  obtain rfl := Option.some.inj he
  obtain ⟨-, hreq⟩ := h
  have hreq' : c.cmdReq s (c.addr s l .gen x.a x.disp).toNat (c.storeData s x l) = .inr r := hreq
  simp only [Ctx.storeLane, issueLane, hreq, hreq']

/-- Where every channel has room, each lane issues its command (R266). -/
theorem store_issues {i : Instr} {act : Mask} (hreal : real = c.realOf act)
    (hmeet : c.meet s real true x.ty.bytes (fun l => c.storeChk s .gen x gsl l) = .go)
    (h : c.fullChan s (placesOf real fun l => c.storeChk s .gen x gsl l) = none) :
    c.store i .gen x gsl act s = c.advance i ((placesOf real fun l => c.storeChk s .gen x gsl l).foldl (issueLane c s x gsl)
      (c.noteXlates (okLanes real fun l => c.storeChk s .gen x gsl l) .gen (fun l => c.addr s l .gen x.a x.disp) s)) := by
  have hoff := commands_offLanes hty hall hreal
  have hfold := List.foldl_ext (c.storeLane .gen x gsl s) (issueLane c s x gsl) (c.noteXlates
    (okLanes real fun l => c.storeChk s .gen x gsl l) .gen (fun l => c.addr s l .gen x.a x.disp) s)
    fun u q hq => storeLane_issues hty hall u hq
  subst hreal
  simp only [Ctx.store, hmeet, h, hoff]
  rw [switchOff_zero, ← hfold]

end

theorem fullChan_room {c : Ctx} {s : State} {xs : List (Nat × Target)} {ch n : Nat} (h : c.fullChan s xs = some (ch, n)) :
    s.chanRoom ch < n := by
  obtain ⟨k, -, hk⟩ := List.exists_of_findSome?_eq_some h
  simp only at hk
  split at hk
  next hlt =>
    obtain ⟨rfl, rfl⟩ := Prod.mk.inj (Option.some.inj hk)
    exact hlt
  next => exact nomatch hk

theorem commandsJoinQueues : Claims.CommandsJoinQueues := by
  refine ⟨?stores, ?joins⟩
  case stores =>
    intro h x gsl s c hi hs hty real data ea hall xs
    have hreal : real = c.realOf real := by
      show _ = (c.active (.st h x gsl) s &&& c.g.real) &&& c.g.real
      rw [BitVec.and_assoc, BitVec.and_self]
    have hmeet := commands_meet hty hall hreal
    have hrun : exec (.st h x gsl) s = issueMem (.st h x gsl) s fun c act s => c.store (.st h x gsl) .gen x gsl act s := rfl
    refine ⟨fun hroom => ?_, fun ch n hfull => ⟨?_, fullChan_room hfull⟩⟩
    · have hstore := store_issues hty hall (i := .st h x gsl) (act := c.active (.st h x gsl) s) rfl hmeet hroom
      obtain ⟨ts, ws, hv⟩ := noteXlates_eq c (okLanes real fun l => c.storeChk s .gen x gsl l) .gen
        (fun l => c.addr s l .gen x.a x.disp) s
      rw [hv] at hstore
      obtain ⟨hgroups, hstuck⟩ := issueLanes_keep (c := c) (s := s) (x := x) (gsl := gsl) xs { s with tlb1 := ts, walks := ws }
      refine ⟨_, { s with tlb1 := ts, walks := ws }, hrun.trans (issueMem_next hi ?_), noted_of_eq rfl, ?_⟩
      · rw [hstore, advance_stuck]
        exact hstuck.trans hs
      · rw [hstore]
        refine Ctx.advance_advanced c _ (xs.foldl (issueLane c s x gsl) { s with tlb1 := ts, walks := ws }) c.g ?_
        rw [State.group?, hgroups]
        exact State.ctx_group hi.1
    · have hhold := store_holds (i := .st h x gsl) (act := c.active (.st h x gsl) s) rfl hmeet hfull
      rw [hrun, issueMem_next hi (by rw [hhold]; exact hs), hhold]
  case joins =>
    intro c l k gsl r s ch t
    obtain ⟨y, hy, hq⟩ := issueCmd_queues c l k gsl r s
    obtain ⟨hnone, hslot⟩ := hy.latched s
    have hch : t.chan ch = { s.chan ch with
        queue := (s.chan ch).queue ++ [headed s ch y], nextNum := (s.chan ch).nextNum + 1 } := by
      rw [hq.chan, queueUp_chan, if_pos rfl]
    have hguard : gsl.getLsbD 3 = false → headed s ch y = y := fun hb => by
      rw [headed, hnone hb, ite_self]
    have hlater : (s.chan ch).queue ≠ [] → headed s ch y = y := fun hne => by
      rw [headed, if_neg (by simpa using hne)]
    have hfirst : (s.chan ch).queue = [] → headed s ch y = s.latchCmd y := fun he => by
      rw [headed, he]
      rfl
    obtain ⟨gd, dc, hx⟩ := headed_eq s ch y
    refine ⟨headed s ch y, by rw [hch], by rw [hch], by rw [hch], ?_⟩
    refine ⟨by rw [hx]; exact hy.num, by rw [hx]; exact hy.kind, by rw [hx]; exact hy.gk, by rw [hx]; exact hy.tuid,
      by rw [hx]; exact hy.sfmt, by rw [hx]; exact hy.dfmt, by rw [hx]; exact hy.rows, by rw [hx]; exact hy.rlen,
      by rw [hx]; exact hy.sbase, by rw [hx]; exact hy.dbase, fun hb => ?_, fun hb hne => ?_, fun g hb he hg => ?_,
      by rw [hx]; exact hy.bar, by rw [hx]; exact hy.ran, by rw [hx]; exact hy.cursor, fun d hd => ?_, hq.mem, hq.sram, hq.groups⟩
    · rw [hguard hb, hy.guard, hb]
      exact ⟨rfl, hy.discard⟩
    · rw [hlater hne, hy.guard, hb]
      exact ⟨rfl, hy.discard⟩
    · rw [hfirst he]
      exact hslot g hb hg
    · rw [hq.chan, queueUp_chan, if_neg hd.symm]

/-! One element of a command. -/

theorem engineNote_noted (s : State) (ch : Nat) (c : Cmd) (w : Bool) (pl : EPlace) (size : Nat) :
    Noted s (s.engineNote ch c w pl size) := by
  simp only [State.engineNote]
  split
  · split
    · exact noted_trans (noteXlate_noted ..) (askOnce_noted ..)
    · exact noted_refl s
  · split
    · exact touch_noted ..
    · exact noted_refl s
  · exact noted_refl s

theorem readVia_ok {s : State} {ch : Nat} {c : Cmd} {pl : EPlace} {size x : Nat}
    (h : s.readElem (s.cmdPart c) (s.cmdCore c) pl size = .ok x) : s.readVia ch c pl size = .inl x := by
  simp only [State.readVia, h]

theorem writeVia_ok {s t : State} {ch : Nat} {c : Cmd} {pl : EPlace} {size x : Nat}
    (h : s.writeElem (s.cmdPart c) (s.cmdCore c) pl size x = .ok t) : s.writeVia ch c pl size x = .inl t := by
  simp only [State.writeVia, h]

/-- The row that an element is read from: the index names it in a gather (R268). -/
theorem rowOf_inl {s : State} {ch : Nat} {c : Cmd} {r row : Nat}
    (hg : c.kind = .gather → s.readElem (s.cmdPart c) (s.cmdCore c)
      (placeAt s c.tuid c.sspc c.ibase r (if c.idx64 then 8 else 4) 0 (if c.idx64 then 8 else 4)) (if c.idx64 then 8 else 4) = .ok row)
    (hn : c.kind ≠ .gather → row = r) : s.rowOf ch c r = .inl row := by
  unfold State.rowOf
  split
  next hk => exact readVia_ok (hg hk)
  next hk => rw [hn hk]

/-- The elements that lie in one granule, in a row that is not empty (R68, R102). -/
theorem inGranule_eq {c : Cmd} (h : 0 < c.rlen) :
    c.inGranule = if c.dfmt.bytes ≥ 4 then 1 else max 1 (min (c.rlen - c.cursor % c.rlen)
      ((4 - (c.dbase.toNat + c.cursor / c.rlen * c.dstride + c.cursor % c.rlen * c.dfmt.bytes) % 4) / c.dfmt.bytes)) := by
  have hmax : Nat.max 1 c.rlen = c.rlen := Nat.max_eq_right h
  simp only [Cmd.inGranule, hmax]

theorem elemStep_copies {s t u : State} {ch : Nat} {c : Cmd} {row x : Nat} (hk : c.kind = .copy ∨ c.kind = .gather)
    (hrow : s.rowOf ch c (c.cursor / c.rlen) = .inl row)
    (hawake : s.asleep [s.elemPlace c.tuid c.sspc c.sbase row c.sstride (c.cursor % c.rlen) c.sfmt.bytes,
      s.elemPlace c.tuid c.dspc c.dbase (c.cursor / c.rlen) c.dstride (c.cursor % c.rlen) c.dfmt.bytes] = [])
    (hread : readRun ch c row (c.cursor % c.rlen) c.inGranule s = .inl (u, x))
    (hwrite : u.writeElem (u.cmdPart c) (u.cmdCore c)
      (u.elemPlace c.tuid c.dspc c.dbase (c.cursor / c.rlen) c.dstride (c.cursor % c.rlen) c.dfmt.bytes)
      (c.inGranule * c.dfmt.bytes) x = .ok t) :
    ∃ v old, Noted t v ∧
      s.elemStep ch c = (v, { c with cursor := c.cursor + c.inGranule, undo := old ++ c.undo }, .more) := by
  have hw := writeVia_ok (ch := ch) hwrite
  refine ⟨_, u.oldAt [s.elemPlace c.tuid c.dspc c.dbase (c.cursor / c.rlen) c.dstride (c.cursor % c.rlen) c.dfmt.bytes]
    (c.inGranule * c.dfmt.bytes), engineNote_noted t ch c true (u.elemPlace c.tuid c.dspc c.dbase (c.cursor / c.rlen) c.dstride
      (c.cursor % c.rlen) c.dfmt.bytes) (c.inGranule * c.dfmt.bytes), ?_⟩
  rcases hk with hk | hk
  · simp [State.elemStep, hk, hrow, hawake, hread, hw]
  · simp [State.elemStep, hk, hrow, hawake, hread, hw]

theorem elemStep_stages {s u : State} {ch : Nat} {c : Cmd} {row x : Nat} (hk : c.kind = .reduceStore)
    (hrow : s.rowOf ch c (c.cursor / c.rlen) = .inl row)
    (hawake : s.asleep [s.elemPlace c.tuid c.sspc c.sbase row c.sstride (c.cursor % c.rlen) c.sfmt.bytes] = [])
    (hread : readRun ch c row (c.cursor % c.rlen) 1 s = .inl (u, x)) :
    s.elemStep ch c = (u, { c with
      cursor := c.cursor + 1
      stagedV := c.stagedV ++ [((c.dbase.toNat + c.cursor / c.rlen * c.dstride + c.cursor % c.rlen * c.dfmt.bytes) % 2 ^ 64,
        BitVec.ofNat 128 x)] }, .more) := by
  simp [State.elemStep, hk, hrow, hawake, hread, State.oldAt]

theorem commandElementResult : Claims.CommandElementResult := by
  refine ⟨engineNote_noted, ?reads, ?moves⟩
  case reads =>
    intro s u ch c row j n w x src m
    refine ⟨rfl, fun hread hrest => ?_⟩
    have hsrc : s.readVia ch c (s.elemPlace c.tuid c.sspc c.sbase row c.sstride j c.sfmt.bytes) c.sfmt.bytes = .inl w :=
      readVia_ok hread
    have hrest' : readRun ch c row (j + 1) n
        (s.engineNote ch c false (s.elemPlace c.tuid c.sspc c.sbase row c.sstride j c.sfmt.bytes) c.sfmt.bytes) = .inl (u, x) := hrest
    simp only [readRun, hsrc, hrest']
    rfl
  case moves =>
    intro s t u ch c row x hlen r j off n src dst hgather hrow
    have hr : s.rowOf ch c (c.cursor / c.rlen) = .inl row := rowOf_inl hgather hrow
    have hn : c.inGranule = n := inGranule_eq hlen
    refine ⟨fun hk hawake hread hwrite => ?_, fun hk hawake hread => elemStep_stages hk hr hawake hread⟩
    rw [← hn] at hread hwrite ⊢
    exact elemStep_copies hk hr hawake hread hwrite

/-- Settles O48: a store's lanes issue their commands one by one (`store_issues`, `issueCmd_queues`), and one step of a command is
its reads, then its write (`elemStep_copies`) or its update (`elemStep_stages`). -/
theorem commandIssueResult : Obligations.CommandIssueResult := by
  unfold Obligations.CommandIssueResult
  exact ⟨commandsJoinQueues, commandElementResult⟩

end Sys2Proof.Laws
end

section
/-! PROOF. What O50 and O59 share: what a write of memory and an entry of the fault ring leave as it was. -/

namespace Sys2Proof.Laws

open Sys2Proof Sys2Proof.Machine

/-! A write of memory. -/

/-- Only memory, its keys and images, its history and its order differ (R90, R91). -/
def Wrote (s t : State) : Prop :=
  t = { s with mem := t.mem, hist := t.hist, ktag := t.ktag, blobs := t.blobs, wseq := t.wseq }

theorem Wrote.refl (s : State) : Wrote s s := rfl

theorem Wrote.trans {s t u : State} (h1 : Wrote s t) (h2 : Wrote t u) : Wrote s u := by
  unfold Wrote at *
  rw [h2, h1]

theorem solid_wrote (s : State) (line : Nat) : Wrote s (s.solid line) := by
  simp only [State.solid]
  split
  · exact Wrote.refl s
  · rfl

theorem retag_wrote (s : State) (tag line : Nat) : Wrote s (s.retag tag line) := by
  simp only [State.retag]
  split
  · split
    · exact Wrote.refl s
    · rfl
  · rfl

theorem writeByte_wrote (s : State) (tag pa : Nat) (b : Byte) : Wrote s (s.writeByte tag pa b) :=
  ((solid_wrote ..).trans (retag_wrote ..)).trans rfl

theorem writeEach_wrote (s : State) (tag pa : Nat) (bs : List Byte) : Wrote s (s.writeEach tag pa bs) := by
  induction bs generalizing s pa with
  | nil => exact Wrote.refl s
  | cons b bs ih => exact (writeByte_wrote s tag pa b).trans (ih _ _)

theorem writeBytes_wrote (s : State) (tag pa : Nat) (bs : List Byte) : Wrote s (s.writeBytes tag pa bs) :=
  (writeEach_wrote s tag pa bs).trans rfl

end Sys2Proof.Laws
end

section
/-! PROOF. O50: the registers of a queue, and the take of a record (R106, R280, R308, R311, R312, R314-R316). -/

namespace Sys2Proof.Laws

open Sys2Proof Sys2Proof.Machine Sys2Proof.Claims

/-! Parts and queues. -/

theorem put_put {α : Type} (m : SMap α) (a : Nat) (x y : α) : SMap.put (SMap.put m a x) a y = SMap.put m a y := by
  induction m with
  | nil => simp [SMap.put]
  | cons kv m ih =>
    obtain ⟨k, v⟩ := kv
    rcases Nat.lt_trichotomy a k with h | rfl | h
    · simp [SMap.put, h]
    · simp [SMap.put]
    · simp [SMap.put, h.not_gt, h.ne', ih]

theorem setPart_setPart (s : State) (p : Nat) (x y : Part) : (s.setPart p x).setPart p y = s.setPart p y := by
  simp only [State.setPart, put_put]

theorem queue_setQueue (s : State) (p q r : Nat) (x : Queue) :
    (s.setQueue p q x).queue p r = if q = r then x else s.queue p r := by
  simp [State.queue, State.setQueue]

theorem queue_setPart (s : State) (p q : Nat) (x : Part) : (s.setPart p x).queue p q = SMap.getD x.queues q Queue.reset := by
  simp [State.queue]

/-! Writes of queue registers. -/

/-- A write of QTAIL: the tail moves where the row accepts it, and one beyond the ring is noted (R280, R312). -/
theorem writeTail_queue (s : State) (p q v : Nat) :
    let x := s.queue p q
    let top := x.head + 2 ^ x.log2s
    let y := (s.writeTail p q v).queue p q
    y.tail = (if x.tail < v ∧ v ≤ top then v else x.tail) ∧ y.stat = (if top < v then x.stat ||| 1 else x.stat) ∧ y.head = x.head := by
  intro x top y
  have hy : y = _ := queue_setQueue s p q q _
  rw [if_pos rfl] at hy
  rw [hy]
  by_cases hover : top < v
  · have hno : ¬ (x.tail < v ∧ v ≤ top) := fun h => Nat.not_le.mpr hover h.2
    simp [hover, hno, x, top]
  · by_cases hin : x.tail < v ∧ v ≤ top
    · simp [hover, hin, x, top]
    · simp [hover, hin, x, top]

theorem field_bit (v : Word) (k : Nat) : (field v.toNat k 1 == 1) = v.getLsbD k := by
  rw [BitVec.getLsbD, Nat.testBit_eq_decide_div_mod_eq]
  rfl

/-- The fields that a write of QCTL gives (Table 16-3). -/
theorem withCtl_eq (x : Queue) (v : Word) : x.withCtl v.toNat = withCtl x v := by
  simp only [Queue.withCtl, withCtl, field_bit]
  rfl

/-- EN may not rise where one of the rows of R312 says so. -/
theorem enRefused_iff (s : State) (p q : Nat) (x : Queue) (v : Word) :
    s.enRefused p q (withCtl x v) = true ↔ 16 < v.toNat / 32 % 32 ∨
      (v.getLsbD 10 = true ∧ (v.getLsbD 1 = true ∨
        8 ≤ ((s.part p).queues.filter fun y => y.1 ≠ q && y.2.en && y.2.steal).length)) ∨
      (v.getLsbD 11 = true ∧ v.getLsbD 12 = true) := by
  simp only [State.enRefused, State.stealers, Bool.or_eq_true, Bool.and_eq_true, decide_eq_true_eq, gt_iff_lt, ge_iff_le]
  simp only [withCtl]
  tauto

theorem queueRegisterWrites : Claims.QueueRegisterWrites := by
  intro s p q hp hq x
  have hin : p < 8 ∧ q < 64 := ⟨hp, hq⟩
  refine ⟨fun v => ?tail, fun v => ?ctl⟩
  case tail =>
    have hrun : exec (.qtailWrite p q v) s = .next (s.writeTail p q v.toNat) := by
      show execQtailWrite p q v s = _
      rw [execQtailWrite, if_pos hin]
    obtain ⟨htail, hstat, hhead⟩ := writeTail_queue s p q v.toNat
    exact ⟨_, hrun, rfl, htail, hstat, hhead, fun r hr => (queue_setQueue s p q r _).trans (if_neg hr.symm)⟩
  case ctl =>
    have hrun : exec (.qctlWrite p q v) s = .next (s.writeQctl p q v) := by
      show execQctlWrite p q v s = _
      rw [execQctlWrite, if_pos hin]
    rw [hrun]
    refine ⟨fun hen => ?_, fun hen hv => ?_, ?_⟩
    · simp only [State.writeQctl, if_pos (show (s.queue p q).en = true from hen)]
      rfl
    · simp only [State.writeQctl, show (s.queue p q).en = false from hen, hv, withCtl_eq]
      rfl
    intro hen hv others refused
    refine ⟨fun hr => ?_, fun hr => ⟨firstFire x.tstart.toNat x.tperiod.toNat s.ptime, ?_⟩⟩
    · have href : s.enRefused p q (withCtl (s.queue p q) v) = true := (enRefused_iff ..).mpr hr
      simp only [State.writeQctl, show (s.queue p q).en = false from hen, hv, withCtl_eq, href]
      rfl
    · have href : s.enRefused p q (withCtl (s.queue p q) v) = false := by
        rw [Bool.eq_false_iff, ne_eq, enRefused_iff]
        exact hr
      simp only [State.writeQctl, show (s.queue p q).en = false from hen, hv, withCtl_eq, href]
      rfl

/-! What an entry of the fault ring and a stream leave as they were. -/

/-- Launches and queues are the same. -/
structure SameTakes (s t : State) : Prop where
  launches : t.launches = s.launches
  nextUid : t.nextUid = s.nextUid
  queue : ∀ p q, t.queue p q = s.queue p q

theorem SameTakes.refl (s : State) : SameTakes s s := ⟨rfl, rfl, fun _ _ => rfl⟩

theorem SameTakes.trans {s t u : State} (h1 : SameTakes s t) (h2 : SameTakes t u) : SameTakes s u :=
  ⟨h2.launches.trans h1.launches, h2.nextUid.trans h1.nextUid, fun p q => (h2.queue p q).trans (h1.queue p q)⟩

theorem Wrote.sameTakes {s t : State} (h : Wrote s t) : SameTakes s t := by
  unfold Wrote at h
  rw [h]
  exact ⟨rfl, rfl, fun _ _ => rfl⟩

theorem setPart_sameTakes {s : State} {p : Nat} {y : Part} (h : y.queues = (s.part p).queues) : SameTakes s (s.setPart p y) := by
  refine ⟨rfl, rfl, fun r q => ?_⟩
  rw [State.queue, State.part_setPart]
  split
  next hp => rw [h, hp, State.queue]
  next => rfl

theorem ringWrite_sameTakes (s : State) (p n : Nat) (bs : List Byte) : SameTakes s (s.ringWrite p n bs) := by
  induction n generalizing s bs with
  | zero => exact SameTakes.refl s
  | succ n ih =>
    have hw := writeBytes_wrote s (s.keyTag 0) ((s.part p).fqBase.toNat % 2 ^ 48 + 64 * ((s.part p).fqTail % 2 ^ (s.part p).fqLog2n))
      (bs.take 64)
    refine (hw.sameTakes.trans (setPart_sameTakes ?_)).trans (ih _ _)
    unfold Wrote at hw
    rw [hw]
    split <;> rfl

theorem postNow_sameTakes (s : State) (p : Nat) (e : FEntry) : SameTakes s (s.postNow p e) :=
  (ringWrite_sameTakes ..).trans (setPart_sameTakes rfl)

theorem post_sameTakes {s : State} {p : Nat} {y : Part} (h : y.queues = (s.part p).queues) (e : FEntry) :
    SameTakes s ((s.setPart p y).postNow p e) :=
  (setPart_sameTakes h).trans (postNow_sameTakes ..)

theorem postWaiting_sameTakes (n : Nat) (s : State) (p : Nat) : SameTakes s (State.postWaiting n s p) := by
  induction n generalizing s with
  | zero => exact SameTakes.refl s
  | succ n ih =>
    simp only [State.postWaiting]
    split
    · split
      · refine SameTakes.trans (post_sameTakes ?_ _) (ih _)
        rfl
      · exact SameTakes.refl s
    · split
      · split
        · refine SameTakes.trans (post_sameTakes ?_ _) (ih _)
          rfl
        · exact SameTakes.refl s
      · exact SameTakes.refl s

theorem raiseEntry_sameTakes (s : State) (p : Nat) (e : FEntry) : SameTakes s (s.raiseEntry p e) := by
  refine SameTakes.trans (setPart_sameTakes ?_) (postWaiting_sameTakes ..)
  split
  · rfl
  · rfl
  · split <;> rfl

theorem updStream_sameTakes (s : State) (e : Nat) (f : Stream → Stream) : SameTakes s (s.updStream e f) := by
  have hset : SameTakes s (s.setStream e (f (s.stream e))) := ⟨rfl, rfl, fun _ _ => rfl⟩
  refine hset.trans (Wrote.sameTakes ?_)
  exact ((((writeBytes_wrote ..).trans (writeBytes_wrote ..)).trans (writeBytes_wrote ..)).trans (writeBytes_wrote ..)).trans
    (writeBytes_wrote ..)

theorem dropUsed_sameTakes (s : State) (p : Nat) (used : List (Nat × Nat)) : SameTakes s (s.dropUsed p used) :=
  ⟨rfl, rfl, fun _ _ => rfl⟩

/-! A rejection. -/

/-- What raising QDONE leaves of a queue. -/
theorem queueRaise_keeps (n : Nat) (x : Queue) :
    (Queue.raise n x).head = x.head ∧ (Queue.raise n x).stat = x.stat ∧ (Queue.raise n x).rej = x.rej := by
  induction n generalizing x with
  | zero => exact ⟨rfl, rfl, rfl⟩
  | succ n ih =>
    simp only [Queue.raise]
    split
    · exact ih _
    · exact ⟨rfl, rfl, rfl⟩

/-- A rejection sets QSTAT.REJECT and QREJ and starts nothing (R316). -/
theorem rejectRec_rejects (s : State) (p q num cause : Nat) :
    let t := s.rejectRec p q num cause
    t.launches = s.launches ∧ t.nextUid = s.nextUid ∧ (t.queue p q).head = (s.queue p q).head ∧
      (t.queue p q).stat = (s.queue p q).stat ||| 2 ∧ (t.queue p q).rej = BitVec.ofNat 32 (cause + 256 * num) := by
  intro t
  have hraise : SameTakes ((s.setQueue p q { s.queue p q with
    stat := (s.queue p q).stat ||| 2#3, rej := wordOf (cause + 256 * num) }).endNum p q num) t := by
    simp only [t, State.rejectRec]
    exact raiseEntry_sameTakes ..
  refine ⟨hraise.launches, hraise.nextUid, ?_⟩
  rw [hraise.queue, State.endNum, queue_setQueue, if_pos rfl]
  obtain ⟨hhead, hstat, hrej⟩ := queueRaise_keeps _ _
  rw [hhead, hstat, hrej, queue_setQueue, if_pos rfl]
  exact ⟨rfl, rfl, rfl⟩

/-! The take of a record of a ring. -/

/-- The partition and its queue once a record of the ring has left it (R314). -/
def tookRing (s : State) (p q : Nat) : State :=
  (s.setPart p { s.part p with nextTake := (s.part p).nextTake + 1, lastTaken := q }).setQueue p q
    { s.queue p q with
      head := (s.queue p q).head + 1, pubs := (s.queue p q).pubs.drop 1, nextNum := (s.queue p q).nextNum + 1, fireDue := none }

theorem take_ring {s : State} {p : Nat} {c : Cand} (h : c.source = .ring) :
    s.take p c = ((tookRing s p c.q).actOn p (s.queue p c.q).nextNum (s.part p).nextTake c).dropUsed p c.used := by
  simp only [State.take, State.consume, h, tookRing, State.setQueue, State.queue, State.part_setPart, if_pos, setPart_setPart,
    SMap.getD_put, put_put]

theorem tookRing_queue (s : State) (p q : Nat) : (tookRing s p q).queue p q = { s.queue p q with
    head := (s.queue p q).head + 1, pubs := (s.queue p q).pubs.drop 1, nextNum := (s.queue p q).nextNum + 1, fireDue := none } := by
  rw [tookRing, queue_setQueue, if_pos rfl]

theorem leNat_lt (bs : List Byte) : leNat bs < 256 ^ bs.length := by
  induction bs with
  | nil => simp [leNat]
  | cons b bs ih =>
    have hb := b.isLt
    simp only [leNat, List.length_cons, Nat.pow_succ]
    omega

theorem recField_lt (bs : List Byte) (off size : Nat) : recField bs off size < 256 ^ size :=
  (leNat_lt _).trans_le (Nat.pow_le_pow_right (by decide) (List.length_take_le ..))

/-- A launch made from a record: its fields are the record's, its number the next (R308, R314). -/
theorem newLaunch_launches (s : State) (p q num seq : Nat) (c : Cand) (k : KInfo) (bs : List Byte) :
    ∃ l, (s.newLaunch p q num seq c k bs).launch? s.nextUid = some l ∧ (s.newLaunch p q num seq c k bs).nextUid = s.nextUid + 1 ∧
      (∀ r, (s.newLaunch p q num seq c k bs).queue p r = s.queue p r) ∧
      l.part = p ∧ l.queue = q ∧ l.num = num ∧ l.seq = seq ∧ l.classH = (s.queue p q).classH ∧ l.k = k ∧
      l.teams = recField bs 0x10 4 ∧ l.tsize = recField bs 0x14 2 ∧ l.args = dwordOf (recField bs 8 8) ∧ l.placed = 0 ∧
      l.ended = false ∧ l.persist = (recField bs 0x16 1 % 2 == 1) := by
  generalize ht : s.newLaunch p q num seq c k bs = t
  unfold State.newLaunch at ht
  extract_lets persist stream l u at ht
  have hlaunch : u.launch? s.nextUid = some l := by
    show SMap.find (SMap.put s.launches s.nextUid l) s.nextUid = some l
    rw [SMap.find_put, if_pos rfl]
  have hkept : SameTakes u t := by
    subst t
    generalize stream = o
    cases o with
    | some e => exact updStream_sameTakes ..
    | none => exact SameTakes.refl u
  refine ⟨l, ?_, hkept.nextUid, fun r => hkept.queue p r, rfl, rfl, rfl, rfl, rfl, rfl, rfl, rfl, rfl, rfl, rfl, rfl⟩
  rw [State.launch?, hkept.launches]
  exact hlaunch

/-! Asking other packages. -/

/-- Nothing is asked where no candidate lacks anything (R106). -/
theorem askTakes_nothing {s : State} {p : Nat}
    (h : ∀ q ∈ s.takeQueues p, (s.queue p q).en = true → ∀ c ∈ s.heads p q, (s.readyCand p c).wait = []) : s.askTakes p = s := by
  refine List.foldlRecOn (motive := fun t => t = s) _ _ rfl ?_
  rintro t rfl q hq
  split
  next hen =>
    have hnone : ((t.heads p q).flatMap fun c => (t.readyCand p c).wait) = [] := List.flatMap_eq_nil_iff.mpr (h q hq hen)
    rw [hnone]
    rfl
  next => rfl

/-- A record that is turned away leaves the ring all the same (R314, R316). -/
theorem take_rejects {s : State} {p cause : Nat} {c : Cand} (hring : c.source = .ring)
    (h : (tookRing s p c.q).actOn p (s.queue p c.q).nextNum (s.part p).nextTake c =
      (tookRing s p c.q).rejectRec p c.q (s.queue p c.q).nextNum cause) :
    (s.take p c).launches = s.launches ∧ (s.take p c).nextUid = s.nextUid ∧
      ((s.take p c).queue p c.q).head = (s.queue p c.q).head + 1 ∧
      ((s.take p c).queue p c.q).stat = (s.queue p c.q).stat ||| 2 ∧
      ((s.take p c).queue p c.q).rej = BitVec.ofNat 32 (cause + 256 * (s.queue p c.q).nextNum) := by
  have hd := dropUsed_sameTakes ((tookRing s p c.q).rejectRec p c.q (s.queue p c.q).nextNum cause) p c.used
  obtain ⟨hlaunches, huid, hhead, hstat, hrej⟩ := rejectRec_rejects (tookRing s p c.q) p c.q (s.queue p c.q).nextNum cause
  rw [take_ring hring, h, hd.launches, hd.nextUid, hd.queue, hlaunches, huid, hhead, hstat, hrej, tookRing_queue]
  exact ⟨rfl, rfl, rfl, rfl, rfl⟩

/-- A record that nothing rejects becomes a launch (R308, R314). -/
theorem take_launches {s : State} {p : Nat} {c : Cand} {k : KInfo} {bs : List Byte} (hring : c.source = .ring)
    (h : (tookRing s p c.q).actOn p (s.queue p c.q).nextNum (s.part p).nextTake c =
      (tookRing s p c.q).newLaunch p c.q (s.queue p c.q).nextNum (s.part p).nextTake c k bs) :
    ∃ l, (s.take p c).launch? s.nextUid = some l ∧ (s.take p c).nextUid = s.nextUid + 1 ∧
      l.part = p ∧ l.queue = c.q ∧ l.num = (s.queue p c.q).nextNum ∧ l.seq = (s.part p).nextTake ∧
      l.classH = (s.queue p c.q).classH ∧ l.k = k ∧
      l.teams = recField bs 0x10 4 ∧ l.tsize = recField bs 0x14 2 ∧ l.args.toNat = recField bs 8 8 ∧ l.placed = 0 ∧
      l.ended = false ∧ l.persist = (recField bs 0x16 1 % 2 == 1) ∧
      ((s.take p c).queue p c.q).head = (s.queue p c.q).head + 1 ∧
      ((s.take p c).queue p c.q).nextNum = (s.queue p c.q).nextNum + 1 := by
  obtain ⟨l, hl, huid, hq, hpart, hqueue, hnum, hseq, hclass, hk, hteams, hsize, hargs, hplaced, hended, hpersist⟩ :=
    newLaunch_launches (tookRing s p c.q) p c.q (s.queue p c.q).nextNum (s.part p).nextTake c k bs
  have hd := dropUsed_sameTakes
    ((tookRing s p c.q).newLaunch p c.q (s.queue p c.q).nextNum (s.part p).nextTake c k bs) p c.used
  rw [tookRing_queue] at hclass
  have hargs' : l.args.toNat = recField bs 8 8 := by
    rw [hargs]
    exact Nat.mod_eq_of_lt (recField_lt bs 8 8)
  rw [take_ring hring, h, hd.queue, hq, tookRing_queue, State.launch?, hd.launches, hd.nextUid, huid]
  exact ⟨l, hl, rfl, hpart, hqueue, hnum, hseq, hclass, hk, hteams, hsize, hargs', hplaced, hended, hpersist, rfl, rfl⟩

/-- Taking acts on the record as its check says (R316). -/
theorem actOn_cases {s : State} {p num seq : Nat} {c : Cand} (hblank : c.sr = StoreRec.blank c.q) :
    (c.bytes = none → s.actOn p num seq c = s.rejectRec p c.q num 12) ∧
    ∀ bs, c.bytes = some bs → recField bs 0x16 1 / 2 % 2 = 0 →
      (∀ k, s.checkRec p c bs = (0, some k) → s.actOn p num seq c = s.newLaunch p c.q num seq c k bs) ∧
      ∀ cause k, s.checkRec p c bs = (cause, k) → cause ≠ 0 → s.actOn p num seq c = s.rejectRec p c.q num cause := by
  refine ⟨fun hbytes => ?_, fun bs hbytes hplain => ?_⟩
  · simp only [State.actOn, hbytes, State.unreadCause, hblank]
    rfl
  · have hplain' : ¬ recField bs 0x16 1 / 2 % 2 = 1 := by omega
    refine ⟨fun k hcheck => ?_, fun cause k hcheck hcause => ?_⟩
    · simp only [State.actOn, hbytes, if_neg hplain', hcheck]
    · simp only [State.actOn, hbytes, if_neg hplain', hcheck]
      cases cause with
      | zero => exact absurd rfl hcause
      | succ n => rfl

/-- A running partition asks for what its candidates lack, then takes the one that its order prefers (R106, R314). -/
theorem takeRecord_runs {s : State} {p : Nat} (h : (s.part p).pst = .running) :
    ((s.askTakes p).choose p = none → exec (.takeRecord p) s = .next (s.askTakes p)) ∧
    ∀ c, (s.askTakes p).choose p = some c → exec (.takeRecord p) s = .next ((s.askTakes p).take p c) := by
  have hexec : exec (.takeRecord p) s = execTakeRecord p s := rfl
  have hr : s.isRunning p = true := by simpa [State.isRunning] using h
  rw [hexec, execTakeRecord, if_pos hr]
  exact ⟨fun hc => by simp only [hc], fun c hc => by simp only [hc]⟩

theorem takeRecordResult : Claims.TakeRecordResult := by
  intro s p s'
  refine ⟨fun h => ?_, askTakes_nothing, fun hr hc => ?_, ?_⟩
  · show execTakeRecord p s = _
    rw [execTakeRecord, State.isRunning, if_neg (by simpa using h)]
  · obtain ⟨hnone, -⟩ := takeRecord_runs hr
    exact hnone hc
  · intro c hr hc hring hblank x u rejected
    obtain ⟨-, htakes⟩ := takeRecord_runs hr
    have hexec : exec (.takeRecord p) s = .next (s'.take p c) := htakes c hc
    obtain ⟨hunread, hread⟩ := actOn_cases (s := tookRing s' p c.q) (p := p) (num := x.nextNum) (seq := (s'.part p).nextTake) hblank
    refine ⟨fun hbytes => ⟨_, hexec, take_rejects hring (hunread hbytes)⟩, fun bs hbytes hplain => ?_⟩
    obtain ⟨hlaunch, hreject⟩ := hread bs hbytes hplain
    refine ⟨fun k hcheck => ?_, fun cause k hcheck hcause => ⟨_, hexec, take_rejects hring (hreject cause k hcheck hcause)⟩⟩
    obtain ⟨l, hl⟩ := take_launches hring (hlaunch k hcheck)
    exact ⟨_, l, hexec, hl⟩

/-- Settles O50: the registers by their two writes, and the take by what it does once a record has left its ring (`take_launches`,
`take_rejects`). -/
theorem queueResult : Obligations.QueueResult := by
  unfold Obligations.QueueResult
  exact ⟨queueRegisterWrites, takeRecordResult⟩

end Sys2Proof.Laws
end

section
/-! PROOF. O59, host harts: their accesses and fences (R94, R345, R385). -/

namespace Sys2Proof.Laws

open Sys2Proof Sys2Proof.Machine Sys2Proof.Claims

/-! What a hart's last value and its reservations do not touch. -/

/-- Another list of last values, and other reservations, of the host harts. -/
def withHost (s : State) (l : List HartRes) (r : SMap (Nat × Nat × Nat)) : State := { s with hostLast := l, hostResv := r }

section

variable (s : State) (l : List HartRes) (r : SMap (Nat × Nat × Nat))

theorem withHost_readBytes (tag a n : Nat) : (withHost s l r).readBytes tag a n = s.readBytes tag a n := rfl

theorem withHost_part : (withHost s l r).part = s.part := rfl

theorem withHost_keyTag : (withHost s l r).keyTag = s.keyTag := rfl

theorem withHost_readEntry : (withHost s l r).readEntry = s.readEntry := rfl

theorem withHost_leafResult : (withHost s l r).leafResult = s.leafResult := rfl

theorem withHost_walkLeaf : (withHost s l r).walkLeaf = s.walkLeaf := by
  funext root tag va
  unfold State.walkLeaf
  rw [withHost_readEntry]

theorem withHost_walk : (withHost s l r).walk = s.walk := by
  funext p acc va
  unfold State.walk
  rw [withHost_walkLeaf, withHost_leafResult, withHost_part, withHost_keyTag]

theorem withHost_cachedWalks : (withHost s l r).cachedWalks = s.cachedWalks := by
  funext p die va
  unfold State.cachedWalks State.leafUnder
  rw [withHost_readEntry, withHost_part, withHost_keyTag]
  rfl

theorem withHost_translate : (withHost s l r).translate = s.translate := by
  funext p agent acc va
  unfold State.translate
  rw [withHost_walk, withHost_cachedWalks, withHost_leafResult]
  rfl

theorem withHost_target : (withHost s l r).hostTarget = s.hostTarget := by
  funext hart a n acc
  unfold State.hostTarget
  rw [withHost_translate]
  rfl

theorem withHost_hartPart : (withHost s l r).hartPart = s.hartPart := rfl

theorem withHost_parts : (withHost s l r).hostParts = s.hostParts := by
  funext hart a n
  unfold State.hostParts
  rw [withHost_hartPart]

theorem withHost_solid (line : Nat) : (withHost s l r).solid line = withHost (s.solid line) l r := by
  have hblob : (withHost s l r).blobOf line = s.blobOf line := rfl
  unfold State.solid
  rw [hblob]
  cases s.blobOf line with
  | none => rfl
  | some b => simp only [withHost]

theorem withHost_retag (tag line : Nat) : (withHost s l r).retag tag line = withHost (s.retag tag line) l r := by
  have hktag : (withHost s l r).ktag = s.ktag := rfl
  unfold State.retag
  rw [hktag]
  cases SMap.find s.ktag line with
  | none => rfl
  | some t =>
    by_cases h : t = tag
    · simp only [if_pos h]
    · simp only [if_neg h, withHost]

theorem withHost_writeByte (tag pa : Nat) (b : Byte) : (withHost s l r).writeByte tag pa b = withHost (s.writeByte tag pa b) l r := by
  unfold State.writeByte
  rw [withHost_solid, withHost_retag]
  rfl

theorem withHost_writeEach (tag pa : Nat) (bs : List Byte) :
    (withHost s l r).writeEach tag pa bs = withHost (s.writeEach tag pa bs) l r := by
  induction bs generalizing s pa with
  | nil => rfl
  | cons b bs ih => rw [State.writeEach, State.writeEach, withHost_writeByte, ih]

theorem withHost_writeBytes (tag pa : Nat) (bs : List Byte) :
    (withHost s l r).writeBytes tag pa bs = withHost (s.writeBytes tag pa bs) l r := by
  unfold State.writeBytes
  rw [withHost_writeEach]
  rfl

end

theorem hostGives_eq (s : State) (hart : Nat) (v : Option Nat) :
    s.hostGives hart v = withHost s (hartGot s hart v).hostLast s.hostResv := rfl

/-! What an access notes. -/

/-- The look-up of a hart's page, and the request to its line's home (R12, R346, R385). -/
theorem hostSees_eq (s : State) (hart va pa tag : Nat) (write : Bool) :
    ∃ ts ws rs, s.hostSees hart va pa tag write = { s with tlb1 := ts, walks := ws, homeReqs := rs } := by
  simp only [State.hostSees]
  split
  · obtain ⟨ts, ws, hx⟩ := noteXlate_eq s (s.hartPart hart) (s.hartAgent hart) true va
    rw [hx]
    obtain ⟨rs, hr⟩ := askHome_eq { s with tlb1 := ts, walks := ws }
      ⟨pa / 128, 1, 1, true, ({ s with tlb1 := ts, walks := ws } : State).hartAgent hart, write, tag, none, 0⟩
    exact ⟨ts, ws, rs, hr⟩
  · obtain ⟨rs, hr⟩ := askHome_eq s ⟨pa / 128, 1, 1, true, s.hartAgent hart, write, tag, none, 0⟩
    exact ⟨s.tlb1, s.walks, rs, hr⟩

theorem needMem_of_lt {s : State} {pa : Nat} (h : pa < hbmBytes) : s.needMem pa = s := by
  simp [State.needMem, h]

/-! Where an access goes. -/

/-- An access of a hart without a partition, within memory (R385). -/
theorem hostTarget_free {s : State} {hart a n : Nat} (hp : s.hartPart hart = 15) (hsvc : s.svc ≠ .reduced) (hn : 0 < n)
    (ha : a + n ≤ hbmBytes) (hok : s.stackFails a = false) (acc : Acc) : s.hostTarget hart a n acc = .mem a (s.keyTag 0) := by
  have hwin : ¬ (0xF000000000 ≤ a ∧ a < 0xF001000000) := by unfold hbmBytes at ha; omega
  have hin : ¬ (a + n > hbmBytes ∨ (s.svc = .reduced ∧ a + n > 2 ^ 24)) := by
    rintro (h | ⟨h, -⟩)
    · omega
    · exact hsvc h
  simp only [State.hostTarget, if_neg hwin, if_pos hp, if_neg hin, hok]
  rfl

/-- An access past the end of memory faults (R385). -/
theorem hostTarget_past {s : State} {hart a n : Nat} (hp : s.hartPart hart = 15) (ha : hbmBytes < a + n) (hwin : a < 0xF000000000)
    (acc : Acc) : s.hostTarget hart a n acc = .bad := by
  have hwin' : ¬ (0xF000000000 ≤ a ∧ a < 0xF001000000) := by omega
  have hpast : a + n > hbmBytes ∨ (s.svc = .reduced ∧ a + n > 2 ^ 24) := .inl ha
  simp only [State.hostTarget, if_neg hwin', if_pos hp, if_pos hpast]

/-- An access of a hart of a partition goes where the partition's tables say (R345). -/
theorem hostTarget_part {s : State} {hart a n p : Nat} (hp : s.hartPart hart = p) (hlt : p < 8) (hex : s.partExists p = true)
    (ha : a < 2 ^ 55) (hwin : a < 0xF000000000 ∨ 0xF001000000 ≤ a) (acc : Acc) :
    (∀ pa tag, s.translate p (s.hartAgent hart) acc a = .mem pa tag → s.stackFails pa = false →
      s.hostTarget hart a n acc = .mem pa tag) ∧
    ∀ cause aux, s.translate p (s.hartAgent hart) acc a = .fault cause aux → s.hostTarget hart a n acc = .bad := by
  subst hp
  have hwin' : ¬ (0xF000000000 ≤ a ∧ a < 0xF001000000) := by omega
  have h15 : s.hartPart hart ≠ 15 := by omega
  have hbad : ¬ ((!s.partExists (s.hartPart hart) || decide (a ≥ 2 ^ 55)) = true) := by simp [hex]; omega
  refine ⟨fun pa tag hx hok => ?_, fun cause aux hx => ?_⟩
  · simp only [State.hostTarget, if_neg hwin', if_neg h15, if_neg hbad, hx, hok]
    rfl
  · simp only [State.hostTarget, if_neg hwin', if_neg h15, if_neg hbad, hx]

/-- An access within a page, or of a hart without a partition, is one part. -/
theorem hostParts_one {s : State} {hart a n : Nat} (h : s.hartPart hart = 15 ∨ a % 65536 + n ≤ 65536) :
    s.hostParts hart a n = [(a, 0, n)] := by
  refine if_neg ?_
  rintro ⟨h8, hk⟩
  omega

/-! Loads and stores. -/

theorem take_natBytes {n m : Nat} (h : n ≤ m) (v : Nat) : (natBytes m v).take n = natBytes n v := by
  induction n generalizing m v with
  | zero => rfl
  | succ n ih =>
    obtain ⟨m, rfl⟩ := Nat.exists_eq_add_one.mpr (Nat.zero_lt_of_lt h)
    rw [natBytes, natBytes, List.take_succ_cons, ih (Nat.le_of_succ_le_succ h)]

section

variable {s : State} {hart a n pa tag : Nat} (hparts : s.hostParts hart a n = [(a, 0, n)])

include hparts

theorem hostLoad_mem {acc : Acc} (ht : s.hostTarget hart a n acc = .mem pa tag) (hpa : pa < hbmBytes) :
    s.hostLoad hart a n acc = (hartGot s hart (some (leNat (s.readBytes tag pa n)))).hostSees hart a pa tag false := by
  have ht' : ∀ v, (s.hostGives hart v).hostTarget hart a n acc = .mem pa tag := fun v => by
    rw [hostGives_eq, withHost_target, ht]
  simp only [State.hostLoad, hparts, ht, List.any_cons, List.any_nil, State.hostBad, List.map_cons, List.map_nil, State.hostBits,
    List.foldl_cons, List.foldl_nil, State.hostLoadPart, ht', needMem_of_lt hpa]
  have hsum : sumN [leNat (s.readBytes tag pa n) * 2 ^ (8 * 0)] = leNat (s.readBytes tag pa n) := by simp [sumN]
  rw [hsum]
  rfl

theorem hostLoad_bad {acc : Acc} (ht : s.hostTarget hart a n acc = .bad) : s.hostLoad hart a n acc = hartGot s hart none := by
  simp [State.hostLoad, hparts, ht, State.hostBad]
  rfl

theorem hostStore_mem {v : Nat} (ht : s.hostTarget hart a n .write = .mem pa tag) (hpa : pa < hbmBytes) (hn : n ≤ 8) :
    s.hostStore hart a n v =
      (((hartGot s hart (some 0)).writeBytes tag pa (natBytes n v)).noteStore (s.hartSrc hart)).hostSees hart a pa tag true := by
  have ht' : ∀ v, (s.hostGives hart v).hostTarget hart a n .write = .mem pa tag := fun v => by
    rw [hostGives_eq, withHost_target, ht]
  simp only [State.hostStore, hparts, ht, List.any_cons, List.any_nil, State.hostBad,
    List.foldl_cons, List.foldl_nil, State.hostStorePart, ht', needMem_of_lt hpa]
  rw [List.drop_zero, take_natBytes hn]
  rfl

theorem hostStore_bad {v : Nat} (ht : s.hostTarget hart a n .write = .bad) : s.hostStore hart a n v = hartGot s hart none := by
  simp [State.hostStore, hparts, ht, State.hostBad]
  rfl

end

/-! What an access leaves. -/

/-- Only what the package notes differs. -/
theorem hostSees_noted (s : State) (hart va pa tag : Nat) (write : Bool) : Noted s (s.hostSees hart va pa tag write) := by
  obtain ⟨ts, ws, rs, h⟩ := hostSees_eq s hart va pa tag write
  rw [h]
  exact noted_of_eq rfl

/-- A write of memory by a hart: the bytes, and nothing else of memory, its last value, its reservations or the model's end. -/
structure HostWrote (s : State) (l : List HartRes) (r : SMap (Nat × Nat × Nat)) (tag pa : Nat) (bs : List Byte) (t : State) : Prop where
  mem : t.mem = (s.writeBytes tag pa bs).mem
  last : t.hostLast = l
  resv : t.hostResv = r
  stuck : t.stuck = s.stuck

theorem hostSees_wrote (s : State) (l : List HartRes) (r : SMap (Nat × Nat × Nat)) (tag pa va hart : Nat) (bs : List Byte) (src : Src) :
    HostWrote s l r tag pa bs ((((withHost s l r).writeBytes tag pa bs).noteStore src).hostSees hart va pa tag true) := by
  have hw := writeBytes_wrote s tag pa bs
  rw [withHost_writeBytes]
  generalize hu : s.writeBytes tag pa bs = u at hw
  obtain ⟨ts, ws, rs, h⟩ := hostSees_eq ((withHost u l r).noteStore src) hart va pa tag true
  rw [h]
  refine ⟨by rw [hu]; rfl, rfl, rfl, ?_⟩
  show u.stuck = s.stuck
  unfold Wrote at hw
  rw [hw]

theorem noted_stuck {s v : State} (h : Noted s v) : v.stuck = s.stuck := by rw [h.rest]

theorem noted_hostResv {s v : State} (h : Noted s v) : v.hostResv = s.hostResv := by rw [h.rest]

/-! One access. -/

section

variable {s : State} {hart a n pa tag : Nat}

/-- A load gives the bytes of its place (R385). -/
theorem hostLoad_noted (hparts : s.hostParts hart a n = [(a, 0, n)]) {acc : Acc} (ht : s.hostTarget hart a n acc = .mem pa tag)
    (hpa : pa < hbmBytes) : Noted (hartGot s hart (some (leNat (s.readBytes tag pa n)))) (s.hostLoad hart a n acc) := by
  rw [hostLoad_mem hparts ht hpa]
  exact hostSees_noted ..

theorem hostStore_wrote (hparts : s.hostParts hart a n = [(a, 0, n)]) {v : Nat} (ht : s.hostTarget hart a n .write = .mem pa tag)
    (hpa : pa < hbmBytes) (hn : n ≤ 8) :
    HostWrote s (hartGot s hart (some 0)).hostLast s.hostResv tag pa (natBytes n v) (s.hostStore hart a n v) := by
  rw [hostStore_mem hparts ht hpa hn]
  exact hostSees_wrote s _ _ tag pa a hart (natBytes n v) _

theorem hostAmo_wrote (ht : s.hostTarget hart a n .write = .mem pa tag) (hpa : pa < hbmBytes) (uns : Bool) (code v : Nat)
    (new : Nat → Nat) :
    HostWrote s (hartGot s hart (some (leNat (s.readBytes tag pa n)))).hostLast s.hostResv tag pa
      (natBytes n (new (leNat (s.readBytes tag pa n)))) (s.hostAmo hart a n uns code new v) := by
  have hrun : s.hostAmo hart a n uns code new v =
      (((s.writeBytes tag pa (natBytes n (new (leNat (s.readBytes tag pa n))))).noteStore (s.hartSrc hart)).hostSees hart a pa tag
        true).hostGives hart (some (leNat (s.readBytes tag pa n))) := by
    simp only [State.hostAmo, ht, needMem_of_lt hpa]
  have hw := hostSees_wrote s s.hostLast s.hostResv tag pa a hart
    (natBytes n (new (leNat (s.readBytes tag pa n)))) (s.hartSrc hart)
  rw [show withHost s s.hostLast s.hostResv = s from rfl] at hw
  obtain ⟨hmem, hlast, hresv, hstuck⟩ := hw
  rw [hrun]
  refine ⟨hmem, ?_, hresv, hstuck⟩
  rw [State.hostGives, hlast]
  rfl

/-- A reservation is taken with the value (R94). -/
theorem hostReserve_eq (ht : s.hostTarget hart a n .read = .mem pa tag) :
    s.hostReserve hart a n = { s.hostLoad hart a n .read with
      hostResv := SMap.put (s.hostLoad hart a n .read).hostResv hart (pa, n, s.wseq) } := by
  simp only [State.hostReserve, ht]

/-- A store-conditional drops the reservation; it goes on as a store only where there was one (R94). -/
theorem hostConditional_cases (ht : s.hostTarget hart a n .write = .mem pa tag) (v : Nat) :
    (s.hostConditional hart a n v = (withHost s s.hostLast (SMap.erase s.hostResv hart)).hostStore hart a n v ∧
      SMap.find s.hostResv hart ≠ none) ∨
    s.hostConditional hart a n v = (withHost s s.hostLast (SMap.erase s.hostResv hart)).hostGives hart (some 1) := by
  simp only [State.hostConditional, ht]
  cases SMap.find s.hostResv hart with
  | none => exact .inr (if_neg Bool.false_ne_true)
  | some x =>
    simp only
    split
    · exact .inl ⟨rfl, nofun⟩
    · exact .inr rfl

theorem hostConditional_wrote (hparts : s.hostParts hart a n = [(a, 0, n)]) (ht : s.hostTarget hart a n .write = .mem pa tag)
    (hpa : pa < hbmBytes) (hn : n ≤ 8) (v : Nat) :
    (SMap.find s.hostResv hart ≠ none ∧
      HostWrote s (hartGot s hart (some 0)).hostLast (SMap.erase s.hostResv hart) tag pa (natBytes n v) (s.hostConditional hart a n v)) ∨
    s.hostConditional hart a n v = withHost s (hartGot s hart (some 1)).hostLast (SMap.erase s.hostResv hart) := by
  refine (hostConditional_cases ht v).imp (fun ⟨hstore, hheld⟩ => ⟨hheld, ?_⟩) id
  have ht' : (withHost s s.hostLast (SMap.erase s.hostResv hart)).hostTarget hart a n .write = .mem pa tag := by
    rw [withHost_target, ht]
  have hparts' : (withHost s s.hostLast (SMap.erase s.hostResv hart)).hostParts hart a n = [(a, 0, n)] := by
    rw [withHost_parts, hparts]
  rw [hstore, hostStore_mem hparts' ht' hpa hn]
  exact hostSees_wrote s _ _ tag pa a hart (natBytes n v) _

end

/-! Events of a hart. -/

section

variable {s : State} {hart : Nat} (hlt : hart < 32) (hfree : s.hostHeld.contains hart = false)

include hlt hfree

/-- A hart that no fence holds makes its access at once. -/
theorem hostAccess_runs (op : HostOp) : exec (.hostAccess hart op) s = outMem (s.hostDo hart op) := by
  show execHostAccess hart op s = _
  rw [execHostAccess, if_neg (Nat.not_le.mpr hlt), if_neg (by rw [hfree]; decide)]

theorem hostAccess_next {op : HostOp} {t : State} (h : s.hostDo hart op = t) (ht : t.stuck = none) :
    exec (.hostAccess hart op) s = .next t := by
  rw [hostAccess_runs hlt hfree, h, outMem_next ht]

end

/-- A request of a hart to another package is owed an answer. -/
theorem hartRemote_iff (s : State) (hart : Nat) : s.hartRemote hart = true ↔ ∃ r ∈ s.remotes, ∃ p, r.src = .hart hart p := by
  simp only [State.hartRemote, List.any_eq_true]
  refine exists_congr fun r => and_congr_right fun _ => ?_
  cases r.src with
  | hart h p => simp
  | _ => simp

/-- The stores of a hart are performed (R94). -/
theorem hostFence_goes {s : State} {hart : Nat} (h : s.hartRemote hart = false) :
    s.hostFence hart = { s with stores := (s.hostFence hart).stores } ∧
      ∀ x, x ∈ (s.hostFence hart).stores ↔ x ∈ s.stores ∧ ∀ p, x.src ≠ .hart hart p := by
  have hrun : s.hostFence hart = { s with
      stores := s.stores.filter fun x => match x.src with | .hart h _ => h ≠ hart | _ => true } := if_neg (by simp [h])
  rw [hrun]
  refine ⟨rfl, fun x => ?_⟩
  rw [List.mem_filter]
  refine and_congr_right fun _ => ?_
  cases x.src with
  | hart h p => simp
  | _ => simp

/-- A hart without a partition (R385). -/
theorem freeAccesses {s : State} {hart a n : Nat} (hlt : hart < 32) (hs : s.stuck = none)
    (hfree : s.hostHeld.contains hart = false) (hpart : s.hartPart hart = 15) (hsvc : s.svc ≠ .reduced)
    (ha : a + n ≤ hbmBytes) (hn : 0 < n) (hn8 : n ≤ 8) (hok : s.stackFails a = false) :
    let key := s.keyTag 0
    let old := leNat (s.readBytes key a n)
    let put := fun (t : State) (x : Nat) => t.mem = (s.writeBytes key a (natBytes n x)).mem
    (∃ t, exec (.hostAccess hart (.load a n)) s = .next t ∧ Noted (hartGot s hart (some old)) t) ∧
    (∃ t, exec (.hostAccess hart (.fetch a n)) s = .next t ∧ Noted (hartGot s hart (some old)) t) ∧
    (∀ v, ∃ t, exec (.hostAccess hart (.store a n v)) s = .next t ∧ put t v ∧ t.hostLast = (hartGot s hart (some 0)).hostLast) ∧
    (a % n = 0 →
      (∃ t v, exec (.hostAccess hart (.reserve a n)) s = .next t ∧ Noted (hartGot s hart (some old)) v ∧
        t = { v with hostResv := t.hostResv } ∧ SMap.find t.hostResv hart = some (a, n, s.wseq)) ∧
      ∀ v,
        (∀ o w, ∃ t, exec (.hostAccess hart (.amo o w a n v)) s = .next t ∧ put t (atomicNew o (amoTy w n) old v) ∧
          t.hostLast = (hartGot s hart (some old)).hostLast) ∧
        (∃ t, exec (.hostAccess hart (.swap a n v)) s = .next t ∧ put t v ∧ t.hostLast = (hartGot s hart (some old)).hostLast) ∧
        (∃ t, exec (.hostAccess hart (.conditional a n v)) s = .next t ∧ SMap.find t.hostResv hart = none ∧
          ((put t v ∧ t.hostLast = (hartGot s hart (some 0)).hostLast ∧ SMap.find s.hostResv hart ≠ none) ∨
            (t.mem = s.mem ∧ t.hostLast = (hartGot s hart (some 1)).hostLast)))) := by
  intro key old put
  have ht : ∀ acc, s.hostTarget hart a n acc = .mem a key := hostTarget_free hpart hsvc hn ha hok
  have hparts : s.hostParts hart a n = [(a, 0, n)] := hostParts_one (.inl hpart)
  have hpa : a < hbmBytes := by omega
  have hload : ∀ acc, Noted (hartGot s hart (some old)) (s.hostLoad hart a n acc) := fun acc => hostLoad_noted hparts (ht acc) hpa
  have hstuck : ∀ acc, (s.hostLoad hart a n acc).stuck = none := fun acc => (noted_stuck (hload acc)).trans hs
  refine ⟨⟨_, hostAccess_next hlt hfree rfl (hstuck .read), hload .read⟩, ⟨_, hostAccess_next hlt hfree rfl (hstuck .fetch), hload .fetch⟩,
    fun v => ?store, fun hal => ⟨?reserve, fun v => ⟨fun o w => ?amo, ?swap, ?conditional⟩⟩⟩
  case store =>
    obtain ⟨hmem, hlast, -, hst⟩ := hostStore_wrote hparts (v := v) (ht .write) hpa hn8
    exact ⟨_, hostAccess_next hlt hfree rfl (hst.trans hs), hmem, hlast⟩
  case reserve =>
    have hdo : s.hostDo hart (.reserve a n) = { s.hostLoad hart a n .read with
        hostResv := SMap.put (s.hostLoad hart a n .read).hostResv hart (a, n, s.wseq) } :=
      (if_pos hal).trans (hostReserve_eq (ht .read))
    exact ⟨_, _, hostAccess_next hlt hfree hdo (hstuck .read), hload .read, rfl, by rw [SMap.find_put, if_pos rfl]⟩
  case amo =>
    obtain ⟨hmem, hlast, -, hst⟩ := hostAmo_wrote (ht .write) hpa w o.code.toNat v fun old => atomicNew o (amoTy w n) old v
    exact ⟨_, hostAccess_next hlt hfree (if_pos hal) (hst.trans hs), hmem, hlast⟩
  case swap =>
    obtain ⟨hmem, hlast, -, hst⟩ := hostAmo_wrote (ht .write) hpa false 8 v fun _ => v
    exact ⟨_, hostAccess_next hlt hfree (if_pos hal) (hst.trans hs), hmem, hlast⟩
  case conditional =>
    have herase : SMap.find (SMap.erase s.hostResv hart) hart = none := by rw [SMap.find_erase, if_pos rfl]
    rcases hostConditional_wrote hparts (ht .write) hpa hn8 v with ⟨hheld, hmem, hlast, hresv, hst⟩ | hfail
    · exact ⟨_, hostAccess_next hlt hfree (if_pos hal) (hst.trans hs), hresv ▸ herase, .inl ⟨hmem, hlast, hheld⟩⟩
    · exact ⟨_, hostAccess_next hlt hfree ((if_pos hal).trans hfail) hs, herase, .inr ⟨rfl, rfl⟩⟩

/-- An access of the device window is the access of a register (R310, R385). -/
theorem hostTarget_reg (s : State) (hart n : Nat) {off : Nat} (h : off < 2 ^ 24) (acc : Acc) :
    s.hostTarget hart (0xF000000000 + off) n acc = .reg off := by
  have hwin : 0xF000000000 ≤ 0xF000000000 + off ∧ 0xF000000000 + off < 0xF001000000 := by omega
  rw [State.hostTarget, if_pos hwin, Nat.add_sub_cancel_left]

theorem hostLoad_reg (s : State) (hart : Nat) {off n : Nat} (h : off < 2 ^ 24) (hn : n = 4 ∨ n = 8) :
    s.hostLoad hart (0xF000000000 + off) n .read = hartGot s hart (some (s.deviceRead off n)) := by
  simp only [State.hostLoad, hostTarget_reg s hart n h]
  exact if_pos ⟨hn, nofun⟩

theorem hostStore_reg (s : State) (hart v : Nat) {off n : Nat} (h : off < 2 ^ 24) (hn : n = 4 ∨ n = 8) :
    s.hostStore hart (0xF000000000 + off) n v = hartGot (s.deviceWrite off n v) hart (some 0) := by
  simp only [State.hostStore, hostTarget_reg s hart n h]
  exact if_pos hn

/-- A register write that the model makes is the device's. -/
theorem registerWrite_next {s t : State} {off n : Nat} {v : DWord} (h : off < 2 ^ 24) (hn : n = 4 ∨ n = 8)
    (hrun : exec (.registerWrite off n v) s = .next t) : t = s.deviceWrite off n v.toNat ∧ t.stuck = none := by
  have hexec : exec (.registerWrite off n v) s = outMem (s.deviceWrite off n v.toNat) := by
    show execRegisterWrite off n v s = _
    rw [execRegisterWrite, if_pos ⟨h, hn⟩]
  rw [hexec, outMem] at hrun
  split at hrun
  · exact nomatch hrun
  next hstuck =>
    obtain rfl := Host.Outcome.next.inj hrun
    exact ⟨rfl, hstuck⟩

/-- Once nothing is owed to it, a held hart of which nothing waits goes on (R94). -/
theorem hostRelease_goes {s : State} {hart : Nat} (h : s.hartRemote hart = false) (hwait : ∀ x ∈ s.hostWait, x.1 ≠ hart) :
    (s.hostRelease hart).hostHeld.contains hart = false ∧
      s.hostRelease hart = { s with hostHeld := (s.hostRelease hart).hostHeld, stores := (s.hostRelease hart).stores } := by
  have hmine : s.hostWait.filter (fun x => x.1 == hart) = [] := by
    rw [List.filter_eq_nil_iff]
    intro x hx
    simpa using hwait x hx
  have hothers : s.hostWait.filter (fun x => x.1 ≠ hart) = s.hostWait := by
    rw [List.filter_eq_self]
    intro x hx
    simpa using hwait x hx
  have hgone : (s.hostHeld.filter fun k => k ≠ hart).contains hart = false := by
    rw [Bool.eq_false_iff, ne_eq, List.contains_iff_mem, List.mem_filter]
    simp
  obtain ⟨hfence, -⟩ := hostFence_goes (s := { s with hostHeld := s.hostHeld.filter fun k => k ≠ hart }) (hart := hart) h
  generalize hu : State.hostFence { s with hostHeld := s.hostHeld.filter fun k => k ≠ hart } hart = u at hfence
  have hheld : u.hostHeld.contains hart = false := by
    rw [hfence]
    exact hgone
  have hrel : s.hostRelease hart = u := by
    unfold State.hostRelease
    rw [h, hmine, hothers]
    simp only [Bool.false_eq_true, if_false, List.map_nil, State.hostRun, hu, hheld]
  rw [hrel]
  exact ⟨hheld, by rw [hfence]⟩

theorem hostAccessResult : Claims.HostAccessResult := by
  intro s hart free owed
  refine ⟨fun hge hs op => ?absent, fun hlt hs hheld => ⟨fun op => ?waits, ?fenceWaits⟩, fun hlt hs hfree hpart hsvc =>
    ⟨fun a n ha hn hn8 hok => freeAccesses hlt hs hfree hpart hsvc ha hn hn8 hok, fun a n v hpast hwin => ?past⟩,
    fun p a n pa tag hlt hs hfree hpart hp8 hex ha hwin hn hn8 hpage hpa hok => ?tables,
    fun hlt hfree off size hoff hsize => ⟨fun hs => ?regLoad, fun v t hrun => ?regStore⟩, fun hfree howed => ?fenceHolds,
    fun hfree hnone => ?fenceGoes, fun howed => ?stays, fun hnone hwait => ?released⟩
  case absent =>
    show execHostAccess hart op s = _
    rw [execHostAccess, if_pos hge, outMem_next hs]
  case waits =>
    have hc : s.hostHeld.contains hart = true := by simpa [free] using hheld
    show execHostAccess hart op s = _
    rw [execHostAccess, if_neg (Nat.not_le.mpr hlt), if_pos hc]
    exact outMem_next hs
  case fenceWaits =>
    have hc : s.hostHeld.contains hart = true := by simpa [free] using hheld
    show execHostFence hart s = _
    rw [execHostFence, if_pos hc]
  case past =>
    have ht := hostTarget_past (s := s) hpart hpast hwin
    have hparts := hostParts_one (s := s) (hart := hart) (a := a) (n := n) (.inl hpart)
    exact ⟨hostAccess_next hlt hfree (hostLoad_bad hparts (ht .read)) hs, hostAccess_next hlt hfree (hostStore_bad hparts (ht .write)) hs⟩
  case tables =>
    have hparts := hostParts_one (s := s) (hart := hart) (a := a) (n := n) (.inr hpage)
    refine ⟨fun hx => ?_, fun v hx => ?_, fun cause aux hx => ?_⟩
    · obtain ⟨hmem, -⟩ := hostTarget_part (n := n) hpart hp8 hex ha hwin .read
      have hload := hostLoad_noted hparts (hmem pa tag hx hok) hpa
      exact ⟨_, hostAccess_next hlt hfree rfl ((noted_stuck hload).trans hs), hload⟩
    · obtain ⟨hmem, -⟩ := hostTarget_part (n := n) hpart hp8 hex ha hwin .write
      obtain ⟨hwrote, -, -, hst⟩ := hostStore_wrote hparts (v := v) (hmem pa tag hx hok) hpa hn8
      exact ⟨_, hostAccess_next hlt hfree rfl (hst.trans hs), hwrote⟩
    · obtain ⟨-, hbad⟩ := hostTarget_part (n := n) hpart hp8 hex ha hwin .read
      exact hostAccess_next hlt hfree (hostLoad_bad hparts (hbad cause aux hx)) hs
  case regLoad => exact hostAccess_next hlt hfree (hostLoad_reg s hart hoff hsize) hs
  case regStore =>
    obtain ⟨rfl, hst⟩ := registerWrite_next hoff hsize hrun
    exact hostAccess_next hlt hfree (hostStore_reg s hart v.toNat hoff hsize) hst
  case fenceHolds =>
    have hr : s.hartRemote hart = true := (hartRemote_iff s hart).mpr howed
    show execHostFence hart s = _
    rw [execHostFence, if_neg (by rw [hfree]; decide), State.hostFence, if_pos hr]
  case fenceGoes =>
    have hr : s.hartRemote hart = false := Bool.eq_false_iff.mpr (mt (hartRemote_iff s hart).mp hnone)
    obtain ⟨heq, hstores⟩ := hostFence_goes hr
    refine ⟨s.hostFence hart, ?_, heq, hstores⟩
    show execHostFence hart s = _
    rw [execHostFence, if_neg (by rw [hfree]; decide)]
  case stays => exact if_pos ((hartRemote_iff s hart).mpr howed)
  case released =>
    have hr : s.hartRemote hart = false := Bool.eq_false_iff.mpr (mt (hartRemote_iff s hart).mp hnone)
    obtain ⟨hheld, heq⟩ := hostRelease_goes hr hwait
    exact ⟨_, rfl, hheld, heq⟩

end Sys2Proof.Laws
end

section
/-! PROOF. O59, the management service: profiles, updates and reports (R379, R381-R383). -/

namespace Sys2Proof.Laws

open Sys2Proof Sys2Proof.Machine Sys2Proof.Claims

/-! Profiles. -/

theorem othersShare_eq (s : State) (p : Nat) (f : Part → Nat) : s.othersShare p f = others s p f := by
  rw [State.othersShare, others]
  induction ((span 0 8).filter fun q => q ≠ p).map fun q => f (s.part q) with
  | nil => rfl
  | cons x xs ih => rw [sumN, List.foldr_cons, ih]

/-- Each of these conditions refuses a profile (R379). -/
theorem profileRefused_of {s : State} {x : Profile}
    (h : 8 ≤ x.part ∨ s.pstate x.part ≠ .saved ∨ 64 < others s x.part Part.netShare + x.netshare.toNat % 128) :
    s.profileRefused x = true := by
  simp only [State.profileRefused, State.sharesOver, othersShare_eq, Bool.or_eq_true, decide_eq_true_eq]
  rcases h with h | h | h
  · exact .inl (.inl (.inl (.inl (.inl h))))
  · exact .inl (.inl (.inl (.inl (.inr h))))
  · exact .inl (.inl (.inl (.inr h)))

/-! Updates. -/

/-- An image that reaches the check is answered by it (R382). -/
theorem simpleUpdate_checked {s : State} {img : Image} (h : (s.flashBusy && Config.free 21 s.fresh 0 % 2 == 0) = false) :
    (s.imageOk img = false → exec (.simpleUpdate img) s = .next { s with replies := s.replies ++ [⟨"SIMPLE_UPDATE", 400, []⟩] }) ∧
    (s.imageOk img = true → exec (.simpleUpdate img) s = .next { s with
      flash := setAt s.flash (1 - s.activeBank) (some img), flashBusy := true, pendingUpdate := true
      replies := s.replies ++ [⟨"SIMPLE_UPDATE", 200, []⟩] }) := by
  have hrun : exec (.simpleUpdate img) s = execSimpleUpdate img s := rfl
  rw [hrun]
  refine ⟨fun hok => ?_, fun hok => ?_⟩
  · simp only [execSimpleUpdate, h, hok]
    rfl
  · simp only [execSimpleUpdate, h, hok]
    rfl

/-- A push while an earlier image is written is answered at once, or checked as any other: a free choice (R382). -/
theorem simpleUpdate_busy (s : State) (img : Image) (hbusy : s.flashBusy = true) :
    ∃ st t, exec (.simpleUpdate img) s = .next t ∧ t.replies = s.replies ++ [⟨"SIMPLE_UPDATE", st, []⟩] ∧
      (st ≠ 200 → t.flash = s.flash) ∧ (s.imageOk img = false → st ≠ 200) := by
  cases hfree : Config.free 21 s.fresh 0 % 2 == 0 with
  | true =>
    have hrun : exec (.simpleUpdate img) s = .next (s.reply "SIMPLE_UPDATE" 409 []) := by
      show execSimpleUpdate img s = _
      rw [execSimpleUpdate, hbusy, hfree]
      rfl
    exact ⟨409, _, hrun, rfl, fun _ => rfl, fun _ => by decide⟩
  | false =>
    obtain ⟨hbad, hgood⟩ := simpleUpdate_checked (s := s) (img := img) (by rw [hfree, Bool.and_false])
    cases hok : s.imageOk img with
    | false => exact ⟨400, _, hbad hok, rfl, fun _ => rfl, fun _ => by decide⟩
    | true => exact ⟨200, _, hgood hok, rfl, fun h => (h rfl).elim, nofun⟩

/-! Telemetry. -/

theorem find_mapSnd {α β : Type} (m : SMap α) (f : α → β) (k : Nat) :
    SMap.find (m.map fun x => (x.1, f x.2)) k = (SMap.find m k).map f := by
  induction m with
  | nil => rfl
  | cons x m ih =>
    simp only [List.map_cons, SMap.find]
    split
    · rfl
    · exact ih

/-- Three retention losses within 24 hours mark a cluster Degraded (R383). -/
theorem markDegraded_cluster (s : State) (c : Nat) :
    s.markDegraded.cluster c = { s.cluster c with
      degraded := (s.cluster c).degraded || (s.cluster c).failing s.now } := by
  have hfind := find_mapSnd s.clusters (fun x : Cluster => if x.failing s.now then { x with degraded := true } else x) c
  have hcluster : s.markDegraded.cluster c = (SMap.find (s.clusters.map fun x =>
      (x.1, if x.2.failing s.now then { x.2 with degraded := true } else x.2)) c).getD Cluster.reset := rfl
  rw [hcluster, hfind, State.cluster, SMap.getD]
  cases SMap.find s.clusters c with
  | none => rfl
  | some x =>
    simp only [Option.map_some, Option.getD_some]
    split
    next hf => rw [hf, Bool.or_true]
    next hf => rw [Bool.eq_false_iff.mpr hf, Bool.or_false]

theorem managementEvents : Claims.ManagementEvents := by
  intro s
  refine ⟨fun x => ⟨fun h => ?refused, fun h => ?applied⟩, fun img hfree => simpleUpdate_checked (by rw [hfree, Bool.false_and]),
    simpleUpdate_busy s, fun h => ?idle, fun hun hboot => ?commit, ?report⟩
  case refused =>
    show execProfileApply x s = _
    rw [execProfileApply, if_pos (profileRefused_of h)]
    rfl
  case applied =>
    have hrun : exec (.profileApply x) s = .next (({ s.writeProfile x with
        profiles := x :: s.profiles.filter fun y => y.part ≠ x.part } : State).reply "PROFILE" 200 []) := by
      show execProfileApply x s = _
      rw [execProfileApply, if_neg (by rw [h]; decide)]
    exact ⟨_, hrun, List.getLast?_concat .., rfl⟩
  case idle =>
    show execFirmwareCommit s = _
    rw [execFirmwareCommit, if_neg]
    rcases h with h | h <;> simp [h]
  case commit =>
    have hgo : (s.uncommitted && s.bootDone) = true := by rw [hun, hboot]; rfl
    have hrun : exec .firmwareCommit s = execFirmwareCommit s := rfl
    rw [hrun, execFirmwareCommit, if_pos hgo]
    cases himg : atD s.flash s.activeBank none with
    | none => exact ⟨_, rfl, rfl, Nat.le_refl _, nofun⟩
    | some i =>
      refine ⟨_, rfl, rfl, Nat.le_max_left .., fun img h => ?_⟩
      obtain rfl := Option.some.inj h
      rfl
  case report =>
    refine ⟨_, s.markDegraded.sample, rfl, rfl, rfl, rfl, ?_, ?_, ?_, markDegraded_cluster s⟩
    · rw [State.sample, List.length_map, span_length]
    · rw [State.sample, List.length_map, span_length]
    · rw [State.sample, List.length_map, span_length]

/-- Settles O59: the accesses and fences of host harts, and the events of the management service. -/
theorem hostAndManagementEvents : Obligations.HostAndManagementEvents := by
  unfold Obligations.HostAndManagementEvents
  exact ⟨hostAccessResult, managementEvents⟩

end Sys2Proof.Laws
end

section
/-! PROOF. What O24 and O25 share: maps of tile elements, results rounded into the accumulator, and operations that start. -/

namespace Sys2Proof.Laws

open Sys2Proof Sys2Proof.Machine Sys2Proof.Claims

/-! Runs of numbers, and lists by number, as the library has them. -/

theorem span_eq_range' (a n : Nat) : span a n = List.range' a n := by
  induction n generalizing a with
  | zero => rfl
  | succ n ih => rw [span, ih, List.range'_succ]

theorem upTo_eq_span (n : Nat) : upTo n = span 0 n := by
  rw [span_eq_range', ← List.range_eq_range']
  induction n with
  | zero => rfl
  | succ n ih => rw [upTo, ih, List.range_succ]

theorem atD_map_span {α : Type} (f : Nat → α) {n i : Nat} (h : i < n) (d : α) : atD ((span 0 n).map f) i d = f i := by
  have key : ∀ a n i, i < n → atD ((span a n).map f) i d = f (a + i) := by
    intro a n
    induction n generalizing a with
    | zero => intro i h; omega
    | succ n ih =>
      intro i h
      cases i with
      | zero => rfl
      | succ i => rw [span, List.map_cons, atD, ih (a + 1) i (by omega), show a + 1 + i = a + (i + 1) by omega]
  rw [key 0 n i h, Nat.zero_add]

/-! Elements of tiles by their keys. -/

theorem find_append {α : Type} (xs ys : SMap α) (k : Nat) : SMap.find (xs ++ ys) k = (SMap.find xs k).or (SMap.find ys k) := by
  induction xs with
  | nil => rfl
  | cons x xs ih =>
    rw [List.cons_append, SMap.find, SMap.find]
    split
    · rfl
    · exact ih

/-- A member is found in the part of a map that has its key, where no other part has it. -/
theorem find_flatMap {α β : Type} {f : β → SMap α} {xs : List β} {x : β} {k : Nat} {v : α} (hx : x ∈ xs)
    (hv : SMap.find (f x) k = some v) (ho : ∀ y ∈ xs, y ≠ x → SMap.find (f y) k = none) : SMap.find (xs.flatMap f) k = some v := by
  induction xs with
  | nil => cases hx
  | cons y ys ih =>
    rw [List.flatMap_cons, find_append]
    by_cases hy : y = x
    · rw [hy, hv, Option.some_or]
    · rw [ho y List.mem_cons_self hy, Option.none_or]
      exact ih ((List.mem_cons.mp hx).resolve_left (Ne.symm hy)) fun z hz => ho z (List.mem_cons_of_mem _ hz)

theorem find_map_of_mem {α : Type} {key : Nat → Nat} {f : Nat → α} {xs : List Nat} {i : Nat} (hi : i ∈ xs)
    (hk : ∀ j ∈ xs, key j = key i → j = i) : SMap.find (xs.map fun j => (key j, f j)) (key i) = some (f i) := by
  induction xs with
  | nil => cases hi
  | cons j js ih =>
    rw [List.map_cons, SMap.find]
    split
    next h => rw [hk j List.mem_cons_self h]
    next h =>
      have hne : i ≠ j := fun e => h (by rw [e])
      exact ih ((List.mem_cons.mp hi).resolve_left hne) fun z hz => hk z (List.mem_cons_of_mem _ hz)

theorem find_map_of_ne {α : Type} {key : Nat → Nat} {f : Nat → α} {xs : List Nat} {k : Nat} (h : ∀ j ∈ xs, key j ≠ k) :
    SMap.find (xs.map fun j => (key j, f j)) k = none := by
  induction xs with
  | nil => rfl
  | cons j js ih =>
    rw [List.map_cons, SMap.find, if_neg (h j List.mem_cons_self)]
    exact ih fun z hz => h z (List.mem_cons_of_mem _ hz)

/-- The elements of a tile, row by row, by their keys (R237). -/
theorem find_rows {α : Type} (f : Nat → Nat → α) (tile : Nat) {m n : Nat} (hm : m < 16) (hn : n < 16) :
    SMap.find ((span 0 16).flatMap fun m => (span 0 16).map fun n => (tile * 256 + m * 16 + n, f m n)) (tile * 256 + m * 16 + n)
      = some (f m n) := by
  refine find_flatMap (x := m) ((mem_span ..).mpr (by omega)) ?_ fun m' hm' hne => ?_
  · exact find_map_of_mem (key := fun n => tile * 256 + m * 16 + n) ((mem_span ..).mpr (by omega)) fun j _ hj => by omega
  · refine find_map_of_ne (key := fun n => tile * 256 + m' * 16 + n) fun j hj => ?_
    rw [mem_span] at hj
    omega

theorem find_tileOf (tile : Nat) (f : Nat → Nat → BitVec 40) {m n : Nat} (hm : m < 16) (hn : n < 16) :
    SMap.find (tileOf tile f) (tile * 256 + m * 16 + n) = some (f m n) := by
  have h := find_map_of_mem (key := fun i => tile * 256 + i) (f := fun i => f (i / 16) (i % 16)) (xs := span 0 256) (i := m * 16 + n)
    ((mem_span ..).mpr (by omega)) fun j _ hj => by omega
  rw [show (m * 16 + n) / 16 = m by omega, show (m * 16 + n) % 16 = n by omega] at h
  rw [tileOf, Nat.add_assoc, h]

theorem getD_tileOf (tile : Nat) (f : Nat → Nat → BitVec 40) (d : BitVec 40) {m n : Nat} (hm : m < 16) (hn : n < 16) :
    SMap.getD (tileOf tile f) (tile * 256 + m * 16 + n) d = f m n := by
  rw [SMap.getD, find_tileOf tile f hm hn, Option.getD_some]

theorem keys_tileOf (tile : Nat) (f : Nat → Nat → BitVec 40) : (tileOf tile f).map (·.1) = span (tile * 256) 256 := by
  rw [tileOf, List.map_map, span_eq_range', span_eq_range', ← List.range_eq_range', List.range'_eq_map_range]
  rfl

/-! Results in the accumulator (R121, R242). -/

theorem fits_acc : fmtAcc.fits := ⟨by decide, by decide, by decide, by decide⟩

theorem exactly_eq : exactly = FVal.exact := by
  funext x
  cases x <;> rfl

theorem accVal_exact (w : BitVec 40) : (accVal w).exact = fmtAcc.ext w.toNat := decodeF_exact ..

/-- A value rounded into the accumulator, and not flushed (R242). -/
theorem roundAcc_roundsTo (x : FVal) : fmtAcc.roundsTo .rne false false x.exact (BitVec.ofNat 40 (roundAcc x)).toNat := by
  have h : fmtAcc.roundsTo .rne false false x.exact (roundAcc x) := roundF_roundsTo fmtAcc fits_acc.frac .rne false false x
  have hlt : roundAcc x < 2 ^ 40 := FFmt.roundsTo_lt fmtAcc fits_acc .rne false false _ _ h
  rwa [BitVec.toNat_ofNat, Nat.mod_eq_of_lt hlt]

/-! An operation starts (R239, R240). -/

/-- Only pending results of groups differ. -/
structure PendsOnly (s t : State) : Prop where
  rest : t = { s with groups := t.groups }
  groups : ∀ j g, s.group? j = some g → ∃ p, t.group? j = some { g with pend := p }

theorem PendsOnly.refl (s : State) : PendsOnly s s := ⟨rfl, fun _ g hg => ⟨g.pend, hg⟩⟩

theorem PendsOnly.trans {s t u : State} (h1 : PendsOnly s t) (h2 : PendsOnly t u) : PendsOnly s u := by
  refine ⟨by rw [h2.rest, h1.rest], fun j g hg => ?_⟩
  obtain ⟨p, hp⟩ := h1.groups j g hg
  obtain ⟨q, hq⟩ := h2.groups j _ hp
  exact ⟨q, hq⟩

theorem overtakeDrain_pendsOnly (s : State) (w : SMap (BitVec 40)) (y : AnvilOp) : PendsOnly s (s.overtakeDrain w y) := by
  rw [State.overtakeDrain]
  split
  · refine ⟨rfl, fun j g hg => ?_⟩
    rw [State.group_updGroup, hg]
    split
    · exact ⟨_, rfl⟩
    · exact ⟨g.pend, rfl⟩
  · exact PendsOnly.refl s

/-- The record of an operation as it starts. -/
def opOfStart (s : State) (gk : Nat) (m : BitVec 8) (slot : Option Nat) (chain : Bool) (members : Mask) (mma : Bool) (cap : AnvilCap)
    (tags : List (Nat × Nat)) : AnvilOp :=
  ⟨s.fresh, s.slotNs gk, slot, mma, cap.result, s.opsBefore gk m chain members, false, 0, [], cap, tags⟩

/-- An operation starts: its team lists it last, and only pending results of groups differ beside. -/
theorem startOp_starts (s : State) (gk : Nat) (m : BitVec 8) (slot : Option Nat) (chain : Bool) (members : Mask) (mma : Bool)
    (cap : AnvilCap) (tags : List (Nat × Nat)) :
    ∃ u, PendsOnly s u ∧ s.startOp gk m slot chain members mma cap tags = u.updTeam (gk / 32) fun t =>
      { t with anvil := t.anvil.map (AnvilOp.overtake u.fresh (s.opsBefore gk m chain members) cap.result)
          ++ [opOfStart s gk m slot chain members mma cap tags] } :=
  ⟨_, List.foldlRecOn (motive := PendsOnly s) _ _ (PendsOnly.refl s) fun _ hu z _ => hu.trans (overtakeDrain_pendsOnly _ _ z), rfl⟩

theorem overtake_id (fresh : Nat) (after : List Nat) (w : SMap (BitVec 40)) (y : AnvilOp) : (y.overtake fresh after w).id = y.id := by
  simp only [AnvilOp.overtake]
  split
  · rfl
  · split <;> rfl

end Sys2Proof.Laws
end

section
/-! PROOF. O24: matrix multiply-accumulate, from its latch to its result (R126, R231, R236-R241). -/

namespace Sys2Proof.Laws

open Sys2Proof Sys2Proof.Machine Sys2Proof.Claims

/-! One element (R126). -/

/-- An FP32 result, flushed where .ftz asks, is the exact value rounded once. -/
theorem roundF32_resultOf (ftz : Bool) (x : FVal) :
    fmtF32.resultOf .rne ftz x.exact (flush fmtF32 ftz (roundF fmtF32 .rne false false x)) :=
  (result_resultOf fmtF32 fits_f32 .rne ftz x).1

theorem roundF32_lt (ftz : Bool) (x : FVal) : flush fmtF32 ftz (roundF fmtF32 .rne false false x) < 2 ^ 32 :=
  (result_resultOf fmtF32 fits_f32 .rne ftz x).2

theorem accOfF32_toNat {w : Nat} (h : w < 2 ^ 32) : (accOfF32 w).toNat = 256 * w := by
  rw [accOfF32, BitVec.toNat_ofNat]
  omega

/-- The steps of the running FP32 sum (R126). -/
theorem foldl_serially (ftz : Bool) (xs : List FVal) {t : Nat} (ht : t < 2 ^ 32) :
    ∃ r, serially ftz t (xs.map FVal.exact) r ∧ r < 2 ^ 32 ∧
      (xs.map fun x => flush fmtF32 ftz (roundF fmtF32 .rne false false x)).foldl
        (fun t q => flush fmtF32 ftz (roundF fmtF32 .rne false false (sumF [decodeF fmtF32 t, decodeF fmtF32 q]))) t = r := by
  induction xs generalizing t with
  | nil => exact ⟨t, rfl, ht, rfl⟩
  | cons x xs ih =>
    let q := flush fmtF32 ftz (roundF fmtF32 .rne false false x)
    obtain ⟨r, hr, hlt, he⟩ := ih (roundF32_lt ftz (sumF [decodeF fmtF32 t, decodeF fmtF32 q]))
    have hsum := roundF32_resultOf ftz (sumF [decodeF fmtF32 t, decodeF fmtF32 q])
    simp only [sumF_exact, List.map_cons, List.map_nil, decodeF_exact] at hsum
    exact ⟨r, ⟨q, _, roundF32_resultOf ftz x, hsum, hr⟩, hlt, he⟩

/-- The sums of runs of eight, as exact values. -/
theorem runsOf8_eq (ps : List FVal) :
    runsOf8 ps = ((upTo (ps.length / 8)).map fun g => sumF ((ps.drop (8 * g)).take 8)).map FVal.exact := by
  rw [runsOf8, upTo_eq_span, List.map_map, exactly_eq]
  exact List.map_congr_left fun g _ => (sumF_exact _).symm

theorem matrixElementResult : MatrixElementResult := by
  intro ftz x ps
  rw [exactly_eq]
  refine ⟨?exact, ?runs, ?single⟩
  case exact =>
    obtain ⟨hres, hlt⟩ := result_resultOf fmtAcc fits_acc .rne ftz (sumF (x :: ps))
    rw [sumF_exact, List.map_cons] at hres
    have hw : (mmaElem 2 ftz x ps).toNat = flush fmtAcc ftz (roundF fmtAcc .rne false false (sumF (x :: ps))) := by
      rw [mmaElem, if_pos rfl, BitVec.toNat_ofNat]
      exact Nat.mod_eq_of_lt hlt
    rw [hw]
    exact hres
  case runs =>
    obtain ⟨r, hr, hlt, he⟩ := foldl_serially ftz ((upTo (ps.length / 8)).map fun g => sumF ((ps.drop (8 * g)).take 8))
      (roundF32_lt ftz x)
    refine ⟨_, r, roundF32_resultOf ftz x, ?_, ?_⟩
    · rw [runsOf8_eq]
      exact hr
    · rw [List.map_map] at he
      rw [← accOfF32_toNat hlt, ← he]
      rfl
  case single =>
    obtain ⟨r, hr, hlt, he⟩ := foldl_serially ftz ps (roundF32_lt ftz x)
    refine ⟨_, r, roundF32_resultOf ftz x, hr, ?_⟩
    rw [← accOfF32_toNat hlt, ← he]
    rfl

/-! The rendezvous latch (R231, R239). -/

theorem enterLatch_next {i : Instr} {s : State} {c : Ctx} (hi : Issues i s c) (hr : c.path &&& c.g.real ≠ 0) :
    enterLatch i s = .next (s.updGroup c.gk fun g => { g with
      park := .latch
      latch := some ⟨i, c.ipc, if c.active i s = c.path then some true else if c.active i s = 0 then some false else none,
        c.path, s.now⟩ }) :=
  (issue_next hi _).trans (congrArg _ (if_neg hr))

theorem matrixEntersLatch : MatrixEntersLatch := by
  intro h x i hi s c hs hr
  have hexec : exec i s = enterLatch i s := by rcases hi with rfl | rfl | rfl | rfl | rfl | rfl <;> rfl
  exact hexec.trans (enterLatch_next hs hr)

/-! An operation completes (R239-R241). -/

theorem canEnd_iff (t : Team) (y : AnvilOp) :
    y.canEnd t = true ↔ y.done = false ∧ y.tags = [] ∧ ∀ z ∈ t.anvil, z.id ∈ y.after → z.done = true := by
  simp only [AnvilOp.canEnd, Bool.and_eq_true, Bool.not_eq_true', List.isEmpty_iff, List.all_eq_true, Bool.or_eq_true,
    List.contains_eq_mem, decide_eq_false_iff_not, and_assoc]
  refine and_congr_right fun _ => and_congr_right fun _ => forall₂_congr fun z _ => ?_
  tauto

theorem rereadB_settled {s : State} {t : Team} {y : AnvilOp} (h : settledCap y.cap = true) : s.rereadB t y = y := by
  unfold State.rereadB
  split
  next hc => rw [hc] at h; cases h
  next hc => rw [hc] at h; cases h
  next => rfl

theorem spillImage_settled {s : State} {t : Team} {y : AnvilOp} (h : settledCap y.cap = true) : s.spillImage t y = (s, y) := by
  unfold State.spillImage
  split
  next hc => rw [hc] at h; cases h
  next => rfl

section
variable {s : State} {tuid op : Nat} {tm : Team} {y : AnvilOp} (ht : s.team? tuid = some tm)
  (hy : (tm.anvil.find? fun z => z.id == op) = some y)

include ht hy

theorem endOp_waits (h : y.canEnd tm = false) : s.endOp tuid op = s := by
  simp only [State.endOp, ht, hy, h, Bool.not_false, if_true]

theorem endOp_settled (h : y.canEnd tm = true) (hc : settledCap y.cap = true) :
    s.endOp tuid op = s.updTeam tuid fun t => { t with anvil := replaceOp { y with done := true } t.anvil } := by
  obtain ⟨-, htags, -⟩ := (canEnd_iff tm y).mp h
  simp only [State.endOp, ht, hy, h, Bool.not_true, Bool.false_eq_true, if_false, rereadB_settled hc, spillImage_settled hc, htags,
    List.isEmpty_nil]

end

/-! The joint operation of a group alone (R237-R239). -/

/-- A path's context is its group's, its team's and its launch's. -/
theorem ctxFor_parts {s : State} {gk : Nat} {m : Mask} {c : Ctx} (h : s.ctxFor gk m = some c) :
    c.gk = gk ∧ c.tuid = gk / 32 ∧ s.group? gk = some c.g ∧ s.team? (gk / 32) = some c.t ∧ s.launch? c.t.launch = some c.l := by
  simp only [State.ctxFor, State.ctx?] at h
  split at h
  · cases h
  next g hg =>
  split at h
  · cases h
  next t ht =>
  split at h
  · cases h
  next l hl =>
  cases h
  exact ⟨rfl, rfl, hg, ht, hl⟩

/-- A path whose group, team and launch exist has a context. -/
theorem ctxFor_exists {s : State} {gk : Nat} (m : Mask) {g : Group} {t : Team} {l : Launch} (hg : s.group? gk = some g)
    (ht : s.team? (gk / 32) = some t) (hl : s.launch? t.launch = some l) : ∃ c, s.ctxFor gk m = some c ∧ c.gk = gk := by
  have hg' : ({ s with cur := some ⟨gk, m, false, 0, []⟩ } : State).group? gk = some g := hg
  have ht' : ({ s with cur := some ⟨gk, m, false, 0, []⟩ } : State).team? (gk / 32) = some t := ht
  have hl' : ({ s with cur := some ⟨gk, m, false, 0, []⟩ } : State).launch? t.launch = some l := hl
  simp only [State.ctxFor, State.ctx?, hg', ht', hl']
  exact ⟨_, rfl, rfl⟩

/-- The use of banks changes banks. -/
theorem touch_eq (s : State) (t : Team) (off n : Nat) : s.touch t off n = { s with banks := (s.touch t off n).banks } := by
  refine List.foldlRecOn (motive := fun (u : State) => u = { s with banks := u.banks }) _ _ rfl ?_
  intro u hu b _
  rw [hu]
  rfl

theorem touch_fresh (s : State) (t : Team) (off n : Nat) : (s.touch t off n).fresh = s.fresh := by
  rw [touch_eq]

theorem accIn_of_fresh {s u : State} (h : u.fresh = s.fresh) (c : Ctx) (x : MmaArgs) (before tiles : List Nat) :
    c.accIn u x before tiles = c.accIn s x before tiles := by
  rw [Ctx.accIn, h]
  rfl

/-- A group alone is the only member of its operation (R231). -/
theorem jointMembers_alone {s : State} {gk : Nat} {g : Group} (hg : s.group? gk = some g) (hgang : g.gang = 0) :
    s.jointMembers gk = [gk] := by
  simp only [State.jointMembers, hg, hgang, if_true]

theorem latchedAll_alone {s : State} {gk : Nat} {g : Group} {y : Latched} (hg : s.group? gk = some g) (hy : g.latch = some y) :
    s.latchedAll [gk] = some [y] := by
  simp only [State.latchedAll, List.foldr, hg, hy, Option.map_some]

theorem members_alone (gk : Nat) : (Mask.ofPred fun i => [gk].contains (gk / 32 * 32 + i)) = 1#32 <<< (gk % 32) := by
  apply BitVec.eq_of_getLsbD_eq
  intro i hi
  rw [Mask.ofPred_getLsbD, BitVec.getLsbD_shiftLeft, BitVec.getLsbD_one]
  have h1 : [gk].contains (gk / 32 * 32 + i) = decide (i = gk % 32) := by
    rw [List.contains_eq_mem, decide_eq_decide, List.mem_singleton]
    omega
  rw [h1, Bool.eq_iff_iff]
  simp only [Bool.and_eq_true, decide_eq_true_eq, Bool.not_eq_true', decide_eq_false_iff_not]
  omega

/-- What the operation of a group alone captures, where its guard is 1 and nothing is scaled (R237-R239). -/
def aloneCap (c : Ctx) (f : MForm) (x : MmaArgs) (i : Instr) (s : State) : AnvilCap :=
  .mma i c.g.nbv (c.bBase s x) (s.readScratch c.t (c.bBase s x) (512 * f.slots)) [] [⟨x.d.toNat, c.fragment s f x.a, []⟩]
    (c.accIn s x (s.opsBefore c.gk x.ds.wmask (!x.zc) (1#32 <<< (c.gk % 32))) [x.d.toNat])

section
variable {s : State} {gk : Nat} {g : Group} {y : Latched} {f : MForm} {x : MmaArgs} {c : Ctx} (hg : s.group? gk = some g)
  (hgang : g.gang = 0) (hy : g.latch = some y) (hm : mmaOf y.instr = some (f, x)) (hguard : y.guard = some true)
  (hc : s.ctxFor gk y.path = some c) (hreuse : g.areuse = none) (hsc : x.sc = false)

include hg hgang hy hm hguard hc hreuse hsc

/-- The operation of a group alone: it is charged, uses the banks of B, starts, and lets its group go on (R238, R239). -/
theorem jointRun_alone : s.jointRun gk =
    ((((s.chargeOp gk 0).touch c.t (c.bBase s x) (512 * f.slots)).startOp gk x.ds.wmask (DSlots.slot x.ds) (!x.zc) (1#32 <<< (gk % 32)) true
      (aloneCap c f x y.instr s) []).updGroup gk fun g =>
        { g with areuse := if x.ru then some ⟨f.opc, x.a, c.fragment s f x.a⟩ else none }).jointRelease [gk] := by
  obtain ⟨hgk, -, hcg, hct, -⟩ := ctxFor_parts hc
  obtain rfl := Option.some.inj (hg.symm.trans hcg)
  have hcharged : (s.chargeOp gk 0).ctxFor gk y.path = some c := hc
  have hnoreuse : c.g.reuses f x.a = none := by rw [Group.reuses, hreuse]
  have hacc : ∀ before tiles, c.accIn ((s.chargeOp gk 0).touch c.t (c.bBase s x) (512 * f.slots)) x before tiles =
      c.accIn s x before tiles := fun before tiles => accIn_of_fresh (touch_fresh ..) c x before tiles
  have hb : c.bBase (s.chargeOp gk 0) x = c.bBase s x := rfl
  simp only [State.jointRun, jointMembers_alone hg hgang, latchedAll_alone hg hy, List.headD_cons, hm, hc, List.zip_cons_cons,
    List.zip_nil_right, List.any_cons, List.any_nil, hguard, beq_self_eq_true, Bool.or_false, Bool.not_true, Bool.false_eq_true,
    if_false, members_alone, hcharged, hnoreuse, hsc, hacc, hb, List.length_cons, List.length_nil, span,
    List.filterMap_cons, List.filterMap_nil, if_true, Option.map_some, Option.isSome_none, Option.getD_none, List.map_cons,
    List.map_nil, List.all_cons, List.all_nil, Bool.and_true, List.foldl_cons, List.foldl_nil]
  rw [aloneCap, hgk]
  rfl

end

/-! Every element of the tile (R232, R233, R237). -/

theorem zip_zip_map {α β γ : Type} (f : α → β) (g : α → γ) (ks : List α) :
    ks.zip ((ks.map f).zip (ks.map g)) = ks.map fun k => (k, f k, g k) := by
  have h := List.zip_map' (f := id) (g := fun k => (f k, g k)) (l := ks)
  rw [List.map_id, ← List.zip_map'] at h
  exact h

/-- An element of one member's tile, unscaled: its K products under the order that %nbv selects. -/
theorem find_tile {f : MForm} {x : MmaArgs} (hsc : x.sc = false) (nbv : Nat) (bs : List Byte) (scaleB : List Word) (acc : SMap (BitVec 40))
    (p : MmaPart) {m n : Nat} (hm : m < 16) (hn : n < 16) :
    SMap.find (f.tile x nbv bs scaleB acc p) (p.tile * 256 + m * 16 + n) = some (mmaElem (if f = .s8 then 2 else nbv) x.ftz
      (if x.zc then .fin false 0 0 else accVal (SMap.getD acc (p.tile * 256 + m * 16 + n) 0))
      ((span 0 f.k).map fun k => f.prod x (f.aElem p.frag m k) (leNat ((bs.drop (f.bOff x.tb k n)).take f.bytes)))) := by
  rw [MForm.tile, find_rows _ _ hm hn, atD_map_span _ hn, zip_zip_map, List.map_map]
  simp only [hsc, Bool.false_eq_true, if_false]
  rfl

theorem getD_accIn {x : MmaArgs} (hzc : x.zc = false) (c : Ctx) (s : State) (before : List Nat) (tile : Nat) {m n : Nat} (hm : m < 16)
    (hn : n < 16) : SMap.getD (c.accIn s x before [tile]) (tile * 256 + m * 16 + n) 0 =
      c.t.element s.fresh before (tile * 256 + m * 16 + n) := by
  rw [Ctx.accIn, hzc, if_neg (by decide), List.flatMap_singleton, getD_tileOf _ _ _ hm hn]

theorem find_aloneCap {c : Ctx} {f : MForm} {x : MmaArgs} {i : Instr} (s : State) (hi : mmaOf i = some (f, x)) (hsc : x.sc = false)
    {m n : Nat} (hm : m < 16) (hn : n < 16) :
    SMap.find (aloneCap c f x i s).result (x.d.toNat * 256 + m * 16 + n) = some (mmaElem (if f = .s8 then 2 else c.g.nbv) x.ftz
      (if x.zc then .fin false 0 0 else accVal (c.t.element s.fresh (s.opsBefore c.gk x.ds.wmask (!x.zc) (1#32 <<< (c.gk % 32)))
        (x.d.toNat * 256 + m * 16 + n)))
      ((span 0 f.k).map fun k => f.prod x (f.aElem (c.fragment s f x.a) m k)
        (leNat (((s.readScratch c.t (c.bBase s x) (512 * f.slots)).drop (f.bOff x.tb k n)).take f.bytes)))) := by
  rw [aloneCap, AnvilCap.result, hi]
  simp only [List.flatMap_singleton]
  rw [find_tile hsc _ _ _ _ ⟨x.d.toNat, _, []⟩ hm hn]
  cases hzc : x.zc with
  | true => rfl
  | false =>
    simp only [Bool.false_eq_true, if_false, Bool.not_false]
    rw [getD_accIn hzc c s _ _ hm hn]

/-! What the start leaves as it was. -/

/-- Only groups, teams, clusters and banks differ. -/
def JointFrame (s t : State) : Prop := t = { s with groups := t.groups, teams := t.teams, clusters := t.clusters, banks := t.banks }

theorem JointFrame.trans {s t u : State} (h1 : JointFrame s t) (h2 : JointFrame t u) : JointFrame s u := by
  rw [JointFrame, h2, h1]

theorem updGroup_jointFrame (s : State) (gk : Nat) (f : Group → Group) : JointFrame s (s.updGroup gk f) := rfl

theorem updTeam_jointFrame (s : State) (tuid : Nat) (f : Team → Team) : JointFrame s (s.updTeam tuid f) := rfl

theorem PendsOnly.jointFrame {s t : State} (h : PendsOnly s t) : JointFrame s t := by
  rw [JointFrame, h.rest]

theorem touch_jointFrame (s : State) (gk k : Nat) (t : Team) (off n : Nat) : JointFrame s ((s.chargeOp gk k).touch t off n) := by
  rw [JointFrame, touch_eq]
  rfl

/-- A group that leaves its latch goes on (R39, R239). -/
theorem jointRelease_alone {s : State} {gk : Nat} {g : Group} {t : Team} {l : Launch} {y : Latched} (hg : s.group? gk = some g)
    (ht : s.team? (gk / 32) = some t) (hl : s.launch? t.launch = some l) (hy : g.latch = some y) :
    ∃ c : Ctx, c.gk = gk ∧
      s.jointRelease [gk] = c.advance y.instr (s.updGroup gk fun g => { g with latch := none, park := .none }) := by
  obtain ⟨c, hc, hgk⟩ := ctxFor_exists (s := s.updGroup gk fun g => { g with latch := none, park := .none }) y.path
    (by rw [State.group_updGroup, if_pos rfl, hg, Option.map_some]) ht hl
  refine ⟨c, hgk, ?_⟩
  simp only [State.jointRelease, List.foldl_cons, List.foldl_nil, hg, hy, hc]

theorem advance_teams (c : Ctx) (i : Instr) (s : State) : (c.advance i s).teams = s.teams := by
  have h := (Ctx.moveTo_effect c (fun _ pc => pc + dwordOf i.len) s).rest
  rw [Ctx.advance, h, State.dropRecs]
  split <;> rfl

/-- As a path goes on, what its group had asked for of other packages is forgotten (R106). -/
theorem advance_frame {s t : State} (c : Ctx) (i : Instr) (h : JointFrame s t) :
    c.advance i t = { s.dropRecs (.group c.gk) with
      groups := (c.advance i t).groups, teams := (c.advance i t).teams, clusters := (c.advance i t).clusters
      banks := (c.advance i t).banks } := by
  have hrest : c.advance i t = { t.dropRecs (.group c.gk) with groups := (c.advance i t).groups } := (Ctx.moveTo_effect c _ t).rest
  generalize c.advance i t = z at hrest ⊢
  rw [hrest, h, State.dropRecs, State.dropRecs]
  split <;> rfl

/-- An operation of a group starts, and the group leaves its latch: its team lists the operation last (R39, R239). -/
theorem startOp_release {s u : State} {gk : Nat} {g : Group} {tm : Team} {l : Launch} {y : Latched} (hf : JointFrame s u)
    (hg : u.group? gk = some g) (ht : u.team? (gk / 32) = some tm) (hl : u.launch? tm.launch = some l) (hy : g.latch = some y)
    (m : BitVec 8) (slot : Option Nat) (chain : Bool) (members : Mask) (cap : AnvilCap) (r : Option AReuse) :
    ∃ t g' fresh, ((u.startOp gk m slot chain members true cap []).updGroup gk fun g => { g with areuse := r }).jointRelease [gk] = t ∧
      t = { s.dropRecs (.group gk) with groups := t.groups, teams := t.teams, clusters := t.clusters, banks := t.banks } ∧
      t.team? (gk / 32) = some { tm with anvil := tm.anvil.map (AnvilOp.overtake fresh (u.opsBefore gk m chain members) cap.result) ++
        [opOfStart u gk m slot chain members true cap []] } ∧
      t.group? gk = some g' ∧ g'.latch = none ∧ g'.park = .none := by
  obtain ⟨v, hv, hstart⟩ := startOp_starts u gk m slot chain members true cap []
  obtain ⟨p, hp⟩ := hv.groups gk g hg
  rw [hstart]
  generalize hw : State.updGroup (State.updTeam v (gk / 32) _) gk _ = w
  have hwf : JointFrame s w := by
    rw [← hw]
    exact hf.trans (hv.jointFrame.trans ((updTeam_jointFrame ..).trans (updGroup_jointFrame ..)))
  have hwg : w.group? gk = some { g with pend := p, areuse := r } := by
    rw [← hw, State.group_updGroup, if_pos rfl]
    exact congrArg (Option.map _) hp
  have hvt : v.team? (gk / 32) = some tm := by
    rw [hv.rest]
    exact ht
  have hwt : w.team? (gk / 32) = some { tm with
      anvil := tm.anvil.map (AnvilOp.overtake v.fresh (u.opsBefore gk m chain members) cap.result) ++
        [opOfStart u gk m slot chain members true cap []] } := by
    rw [← hw]
    exact (State.team_updTeam ..).trans (by rw [if_pos rfl, hvt, Option.map_some])
  have hwl : w.launch? tm.launch = some l := by
    rw [← hw, ← hl, hv.rest]
    rfl
  obtain ⟨c, rfl, hrel⟩ := jointRelease_alone hwg hwt hwl hy
  have hleft : (w.updGroup c.gk fun g => { g with latch := none, park := .none }).group? c.gk =
      some { g with pend := p, areuse := r, latch := none, park := .none } := by
    rw [State.group_updGroup, if_pos rfl, hwg, Option.map_some]
  obtain ⟨h, hh, he, -⟩ := (Ctx.moveTo_effect c (fun _ pc => pc + dwordOf y.instr.len) _).own _ hleft
  refine ⟨_, h, v.fresh, hrel, advance_frame c y.instr (hwf.trans (updGroup_jointFrame ..)), ?_, hh, by rw [he], by rw [he]⟩
  rw [State.team?, advance_teams]
  exact hwt

theorem jointOperationResult : JointOperationResult := by
  refine ⟨fun gk tuid op s => ⟨rfl, rfl⟩, fun tuid op s tm y ht hy => ⟨fun hmay => ?waits, fun hmay hc => ?ends⟩, ?alone⟩
  case waits => exact endOp_waits ht hy (Bool.eq_false_iff.mpr (mt (canEnd_iff tm y).mp hmay))
  case ends => exact endOp_settled ht hy ((canEnd_iff tm y).mpr hmay) hc
  case alone =>
    intro gk s g tm y f x c hg ht hgang hy hm hguard hc hcheck hreuse hsc
    obtain ⟨rfl, -, hcg, hct, hl⟩ := ctxFor_parts hc
    obtain rfl := Option.some.inj (hg.symm.trans hcg)
    obtain rfl := Option.some.inj (ht.symm.trans hct)
    have hrun : exec (.jointOperationStart c.gk) s = .next (s.jointRun c.gk) := by
      show execJointOperationStart c.gk s = _
      rw [execJointOperationStart, hcheck]
    have hu := touch_jointFrame s c.gk 0 c.t (c.bBase s x) (512 * f.slots)
    obtain ⟨t, g', fresh, hrel, hframe, hteam, hgroup, hlatch, hpark⟩ := startOp_release (gk := c.gk) hu
      (by rw [touch_eq]; exact hg) (by rw [touch_eq]; exact ht) (by rw [touch_eq]; exact hl) hy x.ds.wmask (DSlots.slot x.ds) (!x.zc)
      (1#32 <<< (c.gk % 32)) (aloneCap c f x y.instr s) (if x.ru then some ⟨f.opc, x.a, c.fragment s f x.a⟩ else none)
    refine ⟨t, _, _, g', ?_, hframe, hteam, ?_, List.getLast?_concat .., rfl, rfl, rfl, hgroup, hlatch, hpark,
      fun m n hmlt hnlt => find_aloneCap s hm hsc hmlt hnlt⟩
    · rw [hrun, jointRun_alone hg hgang hy hm hguard hc hreuse hsc, hrel]
    · rw [List.map_append, List.map_map]
      congr 1
      exact List.map_congr_left fun z _ => overtake_id ..

/-- Settles O24: each element is the sum that %nbv orders, an `mma` enters the latch, and a joint operation starts and ends. -/
theorem matrixMultiplyResult : Obligations.MatrixMultiplyResult := by
  unfold Obligations.MatrixMultiplyResult
  exact ⟨matrixElementResult, matrixEntersLatch, jointOperationResult⟩

end Sys2Proof.Laws
end

section
/-! PROOF. O25: operations on accumulator tiles, and drains (R122, R130, R234, R242-R245). -/

namespace Sys2Proof.Laws

open Sys2Proof Sys2Proof.Machine Sys2Proof.Claims

/-! An instruction of the accumulator family starts its operation, or stalls (R239, R242). -/

theorem started_stuck (c : Ctx) (ds : DSlots) (cap : AnvilCap) (s : State) : (started c ds cap s).stuck = s.stuck := by
  obtain ⟨u, hu, h⟩ := startOp_starts s c.gk ds.wmask (if ds.sset then some ds.sslot.toNat else none) false (1#32 <<< (c.gk % 32)) false
    cap []
  rw [started, h, State.updTeam_stuck, hu.rest]

theorem started_group (c : Ctx) (ds : DSlots) (cap : AnvilCap) {s : State} {g : Group} (hg : s.group? c.gk = some g) :
    ∃ p, (started c ds cap s).group? c.gk = some { g with pend := p } := by
  obtain ⟨u, hu, h⟩ := startOp_starts s c.gk ds.wmask (if ds.sset then some ds.sslot.toNat else none) false (1#32 <<< (c.gk % 32)) false
    cap []
  rw [started, h]
  exact hu.groups c.gk g hg

theorem startPend_stuck (c : Ctx) (i : Instr) (ls : List PLane) (s : State) : (c.startPend i ls s).stuck = s.stuck := by
  rw [Ctx.startPend]
  split <;> rfl

theorem startPend_group (c : Ctx) (i : Instr) (ls : List PLane) {s : State} {g : Group} (hg : s.group? c.gk = some g) :
    ∃ h, (c.startPend i ls s).group? c.gk = some h := by
  rw [Ctx.startPend]
  split
  · exact ⟨g, hg⟩
  · rw [State.group_updGroup, if_pos rfl, hg]
    exact ⟨_, rfl⟩

theorem whole_stuck {i : Instr} {s : State} {c : Ctx} (hw : Whole i s c) : s.stuck = none := by
  obtain ⟨-, hs, -, -⟩ := hw
  exact hs

theorem whole_group {i : Instr} {s : State} {c : Ctx} (hw : Whole i s c) : s.group? c.gk = some c.g := by
  obtain ⟨⟨hc, -⟩, -, -, -⟩ := hw
  exact State.ctx_group hc

section
variable {i : Instr} {ds : DSlots} {s : State} {c : Ctx} {k : Ctx → State → State} (hw : Whole i s c)

include hw

theorem groupOp_next (hs : (k c s).stuck = none) : groupOp i s k = .next (k c s) := by
  obtain ⟨hi, -, hlive, hact⟩ := hw
  have hwhole : ∀ u v w x : State,
      (if c.path ≠ c.g.live then u else if c.active i s = c.path then v else if c.active i s = 0 then w else x) = v := by
    intro u v w x
    rw [if_neg (not_not_intro hlive), if_pos hact]
  exact (issueMem_next hi ((congrArg State.stuck (hwhole ..)).trans hs)).trans (congrArg _ (hwhole ..))

theorem accOp_next (hb : s.slotsBusy c.gk ds.wmask = false) (hs : (k c s).stuck = none) : accOp i ds s k = .next (k c s) := by
  have hfree : (if s.slotsBusy c.gk ds.wmask then s.updGroup c.gk fun g => { g with park := .dslots ds.wmask } else k c s) = k c s :=
    if_neg (by rw [hb]; decide)
  exact (groupOp_next hw ((congrArg State.stuck hfree).trans hs)).trans (congrArg _ hfree)

theorem accOp_stalls (hb : s.slotsBusy c.gk ds.wmask = true) :
    accOp i ds s k = .next (s.updGroup c.gk fun g => { g with park := .dslots ds.wmask }) := by
  have hbusy : (if s.slotsBusy c.gk ds.wmask then s.updGroup c.gk fun g => { g with park := .dslots ds.wmask } else k c s) =
      s.updGroup c.gk fun g => { g with park := .dslots ds.wmask } := if_pos hb
  have hs : s.stuck = none := whole_stuck hw
  exact (groupOp_next hw ((congrArg State.stuck hbusy).trans hs)).trans (congrArg _ hbusy)

end

/-- An instruction whose operation writes elements that `P` describes is such a tile operation. -/
theorem tileOp_of {i : Instr} {ds : DSlots} {P : Ctx → State → SMap (BitVec 40) → Prop} (cap : Ctx → State → AnvilCap)
    (he : ∀ s, exec i s = accOp i ds s fun c s => c.startAcc i ds (cap c s) [] s) (hP : ∀ c s, P c s (cap c s).result) :
    TileOp i ds P := by
  intro s c hw
  have hstart : c.startAcc i ds (cap c s) [] s = c.advance i (started c ds (cap c s) s) := rfl
  refine ⟨fun hb => ?_, fun hb => (he s).trans (accOp_stalls hw hb)⟩
  obtain ⟨p, hg⟩ := started_group c ds (cap c s) (whole_group hw)
  refine ⟨_, cap c s, (he s).trans (accOp_next hw hb ?_), hP c s, ?_⟩
  · rw [hstart, advance_stuck, started_stuck]
    exact whole_stuck hw
  · rw [hstart]
    exact Ctx.advance_advanced c i _ _ hg

/-! What the operations write (R243, R244). -/

theorem tileIs_tileOf {tile : Nat} {f : Nat → Nat → BitVec 40} {P : Nat → Nat → BitVec 40 → Prop}
    (h : ∀ m n, m < 16 → n < 16 → P m n (f m n)) : tileIs tile P (tileOf tile f) :=
  ⟨keys_tileOf tile f, fun m n hm hn => ⟨f m n, find_tileOf tile f hm hn, h m n hm hn⟩⟩

theorem getD_tileIn (c : Ctx) (s : State) (ds : DSlots) (tile : Nat) {m n : Nat} (hm : m < 16) (hn : n < 16) :
    SMap.getD (c.tileIn s ds tile) (tile * 256 + m * 16 + n) 0 = c.elem s ds tile m n := getD_tileOf tile _ 0 hm hn

/-- Tiles one after another hold the elements of a run of keys. -/
theorem keys_tiles (f : Nat → Nat → BitVec 40) (d n : Nat) :
    ((span d n).flatMap fun t => tileOf t f).map (·.1) = span (256 * d) (256 * n) := by
  induction n generalizing d with
  | zero => rfl
  | succ n ih =>
    rw [span, List.flatMap_cons, List.map_append, keys_tileOf, ih (d + 1), span_eq_range', span_eq_range', span_eq_range', Nat.mul_comm d,
      Nat.mul_add 256 d, Nat.mul_add 256 n, Nat.add_comm (256 * n), ← List.range'_append_1]

theorem zeroTiles (d n : Nat) : ∀ x ∈ (span d n).flatMap fun t => tileOf t fun _ _ => 0, x.2 = 0 := by
  intro x hx
  obtain ⟨t, -, hx⟩ := List.mem_flatMap.mp hx
  obtain ⟨i, -, rfl⟩ := List.mem_map.mp hx
  rfl

/-- A finite pattern's magnitude is on its format's grid, below the top. -/
theorem ext_fin {f : FFmt} (hf : f.e4m3 = false) {w : Nat} {neg : Bool} {q : ℚ} (h : f.ext w = .fin neg q) :
    ∃ k, k < f.overCode ∧ q = f.mag k := by
  simp only [FFmt.ext, hf, Bool.false_eq_true, if_false] at h
  split at h
  · split at h <;> cases h
  next htop =>
    injection h with _ hq
    refine ⟨_, ?_, hq.symm⟩
    have hsign : w % f.signBit < 2 ^ f.eb * 2 ^ f.fb := by
      rw [← Nat.pow_add]
      exact Nat.mod_lt _ (Nat.two_pow_pos _)
    have hexp : w % f.signBit / 2 ^ f.fb < 2 ^ f.eb := (Nat.div_lt_iff_lt_mul (Nat.two_pow_pos _)).mpr hsign
    rw [FFmt.overCode, if_neg (by rw [hf]; decide), ← Nat.div_lt_iff_lt_mul (Nat.two_pow_pos _)]
    omega

theorem mag_overCode_acc : fmtAcc.mag fmtAcc.overCode = 2 ^ (128 : ℤ) := by
  norm_num [FFmt.mag, FFmt.overCode, fmtAcc]

theorem mag_one_acc : fmtAcc.mag 1 = 2 ^ (-157 : ℤ) := by
  norm_num [FFmt.mag, fmtAcc]

/-- A magnitude at or above the top of the grid has no finite code. -/
theorem overCode_le_roundMag {f : FFmt} (hf : 1 ≤ f.fb) {neg : Bool} {m : Nat} {e : Int}
    (h : f.mag f.overCode ≤ FVal.magnitude m e) : f.overCode ≤ roundMag f .rne neg m e := by
  obtain ⟨hn, -⟩ := roundMag_nearest f hf .rne neg m e
  by_contra hlt
  have hk := f.mag_strictMono (not_le.mp hlt)
  have := hn f.overCode
  rw [abs_of_nonneg (by linarith), abs_of_nonneg (by linarith)] at this
  linarith

/-- A magnitude below half the least one rounds to zero. -/
theorem roundMag_eq_zero {f : FFmt} (hf : 1 ≤ f.fb) {neg : Bool} {m : Nat} {e : Int}
    (h : 2 * FVal.magnitude m e < f.mag 1) : roundMag f .rne neg m e = 0 := by
  obtain ⟨hn, -⟩ := roundMag_nearest f hf .rne neg m e
  by_contra hne
  have hk := f.mag_strictMono.monotone (Nat.one_le_iff_ne_zero.mpr hne)
  have h0 : 0 ≤ FVal.magnitude m e := mul_nonneg (Nat.cast_nonneg m) (two_zpow_pos e).le
  have := hn 0
  rw [f.mag_zero, sub_zero, abs_of_nonneg h0, abs_sub_comm, abs_of_nonneg (by linarith)] at this
  linarith

/-- x times 2^e, unrounded. -/
def scaledBy (e : Int) : FVal → FVal
  | .fin neg m q => .fin neg m (q + e)
  | x => x

theorem magnitude_add (m : Nat) (q e : Int) : FVal.magnitude m (q + e) = FVal.magnitude m q * 2 ^ e := by
  rw [FVal.magnitude, FVal.magnitude, zpow_add₀ (by norm_num), mul_assoc]

theorem scaledBy_exact (e : Int) (x : FVal) : (scaledBy e x).exact = shifted x.exact e := by
  cases x with
  | nan => rfl
  | inf neg => rfl
  | fin neg m q => rw [scaledBy, FVal.exact, FVal.exact, shifted, magnitude_add]

/-- A finite element's magnitude is below 2^128, and it is zero or at least 2^-157. -/
theorem magnitude_accVal_bounds {w : BitVec 40} {neg : Bool} {m : Nat} {q : Int} (h : accVal w = .fin neg m q) :
    FVal.magnitude m q < 2 ^ (128 : ℤ) ∧ (m = 0 ∨ (2 : ℚ) ^ (-157 : ℤ) ≤ FVal.magnitude m q) := by
  obtain ⟨k, hk, hm⟩ := ext_fin (f := fmtAcc) rfl (h ▸ (accVal_exact w).symm)
  refine ⟨?_, ?_⟩
  · rw [hm, ← mag_overCode_acc]
    exact fmtAcc.mag_strictMono hk
  · rcases Nat.eq_zero_or_pos k with rfl | hpos
    · rw [fmtAcc.mag_zero, FVal.magnitude, mul_eq_zero, Nat.cast_eq_zero] at hm
      exact .inl (hm.resolve_right (two_zpow_pos q).ne')
    · rw [hm, ← mag_one_acc]
      exact .inr (fmtAcc.mag_strictMono.monotone hpos)

/-- Beyond 1000 every exponent gives an element's overflow. -/
theorem roundAcc_scaledBy_large {w : BitVec 40} {e : Int} (he : 1000 ≤ e) :
    roundAcc (scaledBy e (accVal w)) = roundAcc (scaledBy 1000 (accVal w)) := by
  cases hx : accVal w with
  | nan => rfl
  | inf neg => rfl
  | fin neg m q =>
    obtain ⟨-, rfl | hlow⟩ := magnitude_accVal_bounds hx
    · simp only [scaledBy, roundAcc, roundF, roundMag, if_true]
    have hover : ∀ d : Int, 1000 ≤ d → ¬ roundMag fmtAcc .rne neg m (q + d) < fmtAcc.overCode := by
      intro d hd
      refine not_lt.mpr (overCode_le_roundMag fits_acc.frac ?_)
      rw [mag_overCode_acc, magnitude_add]
      calc (2 : ℚ) ^ (128 : ℤ) ≤ 2 ^ (-157 + d) := zpow_le_zpow_right₀ (by norm_num) (by omega)
        _ = 2 ^ (-157 : ℤ) * 2 ^ d := zpow_add₀ (by norm_num) ..
        _ ≤ FVal.magnitude m q * 2 ^ d := mul_le_mul_of_nonneg_right hlow (two_zpow_pos d).le
    rw [scaledBy, scaledBy, roundAcc, roundAcc, roundF, roundF, if_neg (hover e he), if_neg (hover 1000 le_rfl)]

/-- Below −1000 every exponent gives an element's underflow to zero. -/
theorem roundAcc_scaledBy_small {w : BitVec 40} {e : Int} (he : e ≤ -1000) :
    roundAcc (scaledBy e (accVal w)) = roundAcc (scaledBy (-1000) (accVal w)) := by
  cases hx : accVal w with
  | nan => rfl
  | inf neg => rfl
  | fin neg m q =>
    obtain ⟨hhigh, -⟩ := magnitude_accVal_bounds hx
    have hzero : ∀ d : Int, d ≤ -1000 → roundMag fmtAcc .rne neg m (q + d) = 0 := by
      intro d hd
      refine roundMag_eq_zero fits_acc.frac ?_
      rw [mag_one_acc, magnitude_add]
      calc 2 * (FVal.magnitude m q * (2 : ℚ) ^ d) < 2 * (2 ^ (128 : ℤ) * 2 ^ d) := by
            have := mul_lt_mul_of_pos_right hhigh (two_zpow_pos d)
            linarith
        _ = 2 ^ (1 + (128 + d)) := by rw [zpow_add₀ (by norm_num), zpow_add₀ (by norm_num), zpow_one]
        _ ≤ 2 ^ (-157 : ℤ) := zpow_le_zpow_right₀ (by norm_num) (by omega)
    rw [scaledBy, scaledBy, roundAcc, roundAcc, roundF, roundF, hzero e he, hzero (-1000) le_rfl]

theorem accScaled_scaledBy (x : FVal) (e : Int) :
    accScaled x e = BitVec.ofNat 40 (roundAcc (scaledBy (if e > 1000 then 1000 else if e < -1000 then -1000 else e) x)) := by
  cases x <;> rfl

/-- The bound on the exponent shows in no result (R243). -/
theorem accScaled_eq (w : BitVec 40) (e : Int) : accScaled (accVal w) e = BitVec.ofNat 40 (roundAcc (scaledBy e (accVal w))) := by
  rw [accScaled_scaledBy]
  split
  next h => rw [roundAcc_scaledBy_large h.le]
  next =>
    split
    next h => rw [roundAcc_scaledBy_small h.le]
    next => rfl

theorem accScaled_roundsTo (w : BitVec 40) (e : Int) :
    fmtAcc.roundsTo .rne false false (shifted (fmtAcc.ext w.toNat) e) (accScaled (accVal w) e).toNat := by
  rw [accScaled_eq, ← accVal_exact, ← scaledBy_exact]
  exact roundAcc_roundsTo _

theorem formatOf_eq (ty : Ty) : formatOf ty = fmtOf ty := by
  cases ty <;> rfl

theorem intVal_s32 (w : Nat) : intVal .s32 w = (BitVec.ofNat 32 w).toInt := by
  have h : intVal .s32 w = if 2 ^ 31 ≤ w % 2 ^ 32 then ((w % 2 ^ 32 : ℕ) : ℤ) - 2 ^ 32 else ((w % 2 ^ 32 : ℕ) : ℤ) := by
    simp [intVal, Ty.signed, Ty.bytes]
  rw [h, BitVec.toInt_eq_toNat_cond, BitVec.toNat_ofNat]
  split <;> split <;> omega

theorem ofInt_exact (n : Int) : (FVal.ofInt n).exact = Claims.wholeOf n := by
  rw [FVal.ofInt, FVal.exact, Claims.wholeOf, FVal.magnitude, zpow_zero, mul_one, Nat.cast_natAbs, Int.cast_abs]

theorem accIn_roundsTo {ty : Ty} (hty : ty.isFloat = true) (w : Nat) :
    fmtAcc.roundsTo .rne false false ((formatOf ty).ext w) (Machine.accIn ty w).toNat := by
  rw [Machine.accIn, if_pos hty, formatOf_eq, ← decodeF_exact]
  exact roundAcc_roundsTo _

theorem accIn_s32_roundsTo (w : Nat) :
    fmtAcc.roundsTo .rne false false (Claims.wholeOf (BitVec.ofNat 32 w).toInt) (Machine.accIn .s32 w).toNat := by
  rw [Machine.accIn, if_neg (by decide), intVal_s32, ← ofInt_exact]
  exact roundAcc_roundsTo _

theorem tileArithmeticResult : TileArithmeticResult := by
  intro h ds ty d a b n
  refine ⟨?zero, ?mov, ?add, ?scale, fun hty => ?ld, ?ldInt⟩
  case zero =>
    exact tileOp_of (fun _ _ => .known ((span d.toNat n.toNat).flatMap fun t => tileOf t fun _ _ => 0)) (fun _ => rfl)
      fun _ _ => ⟨keys_tiles _ _ _, zeroTiles _ _⟩
  case mov =>
    refine tileOp_of (fun c s => .mov d.toNat a.toNat (c.tileIn s ds a.toNat)) (fun _ => rfl) fun c s => ?_
    rw [AnvilCap.result]
    exact tileIs_tileOf fun m k hm hk => getD_tileIn c s ds a.toNat hm hk
  case add =>
    refine tileOp_of (fun c s => .add d.toNat a.toNat b.toNat (c.tileIn s ds a.toNat) (c.tileIn s ds b.toNat)) (fun _ => rfl)
      fun c s => ?_
    rw [AnvilCap.result]
    refine tileIs_tileOf fun m k hm hk => ?_
    rw [getD_tileIn c s ds a.toNat hm hk, getD_tileIn c s ds b.toNat hm hk, elemAt, elemAt, ← accVal_exact, ← accVal_exact]
    have hsum := roundAcc_roundsTo (sumF [accVal (c.elem s ds a.toNat m k), accVal (c.elem s ds b.toNat m k)])
    rwa [sumF_exact] at hsum
  case scale =>
    refine tileOp_of (fun c s => .scale d.toNat a.toNat (c.tileIn s ds a.toNat)
      (lanes32.map fun l => if (c.g.lane l).lst = .absent then (0 : Int) else (c.v s l b).toInt)) (fun _ => rfl) fun c s => ?_
    rw [AnvilCap.result]
    refine tileIs_tileOf fun m k hm hk => ?_
    rw [getD_tileIn c s ds a.toNat hm hk, lanes32, atD_map_span _ (by omega), atD_map_span _ (by omega)]
    exact accScaled_roundsTo _ _
  case ld =>
    have hfloat : ty.isFloat = true := by rcases hty with rfl | rfl | rfl <;> rfl
    refine tileOp_of (fun c s => .known (tileOf d.toNat fun m n => Machine.accIn ty (c.tileReg s ty a m n))) (fun _ => rfl)
      fun c s => ?_
    rw [AnvilCap.result]
    exact tileIs_tileOf fun m k _ _ => accIn_roundsTo hfloat _
  case ldInt =>
    refine tileOp_of (fun c s => .known (tileOf d.toNat fun m n => Machine.accIn .s32 (c.tileReg s .s32 a m n))) (fun _ => rfl)
      fun c s => ?_
    rw [AnvilCap.result]
    exact tileIs_tileOf fun m k _ _ => accIn_s32_roundsTo _

/-! Drains (R122, R234, R245). -/

/-- Conversion to a signed word (R120). -/
theorem floatToInt_integerOf (rm : RMode) (x : FVal) : integerOf .s32 rm x.exact (floatToInt .s32 rm x) := by
  cases x with
  | nan => rfl
  | inf neg => cases neg <;> rfl
  | fin neg m e =>
    obtain ⟨k, hk, hr⟩ := roundInt_nearest rm neg m e
    refine ⟨k, hk, ?_⟩
    rw [floatToInt, hr, clampTy]
    have hmin : Ty.intMin .s32 = -2147483648 := rfl
    have hmax : Ty.intMax .s32 = 2147483647 := rfl
    rw [hmin, hmax, least, greatest]
    generalize (if neg then -(k : Int) else k) = z
    split
    · omega
    · split <;> omega

theorem trunc_s32 (x : Int) : trunc .s32 x = (BitVec.ofInt 32 x).toNat := by
  rw [BitVec.toNat_ofInt]
  rfl

theorem drainElem_float {ty : Ty} (hty : ty.isFloat = true) (x : Tpb) (tile m n : Nat) (w : BitVec 40) :
    (formatOf ty).roundsTo .rne (x.sat && (decide (ty = .f16) || decide (ty = .e5m2))) (x.inf && decide (ty = .e4m3))
      (fmtAcc.ext w.toNat) (drainElem ty x false tile m n w) := by
  have hd : drainElem ty x false tile m n w = roundF (fmtOf ty) .rne (x.sat && (decide (ty = .f16) || decide (ty = .e5m2)))
      (x.inf && decide (ty = .e4m3)) (accVal w) := by
    rw [drainElem, hty]
    rfl
  rw [hd, formatOf_eq, ← accVal_exact]
  exact roundF_roundsTo _ (fits_of ty).frac _ _ _ _

theorem drainElem_s32 (x : Tpb) (tile m n : Nat) (w : BitVec 40) :
    drainElem .s32 x false tile m n w = (BitVec.ofInt 32 (floatToInt .s32 .rne (accVal w))).toNat := trunc_s32 _

theorem srFor_zero (ty : Ty) : Tpb.zero.srFor ty = false := by
  cases ty <;> rfl

/-- What a drain under a block does: its operation starts, and its results wait for their registers. -/
def drained (c : Ctx) (i : Instr) (ds : DSlots) (la : BitVec 4) (ty : Ty) (x : Tpb) (d a : Reg) (s : State) : State :=
  let sr := x.srFor ty && decide (s.svc ≠ .normal)
  c.startPend i ((Mask.lanes c.path).map fun l => PLane.of l (c.window la) (drainWr ty d l fun m n =>
      drainElem ty x sr a.toNat m n (c.elem s ds a.toNat m n)))
    (started c ds (.drain c.gk c.n0 ty x sr d.toNat a.toNat)
      (if x.srFor ty = true ∧ s.svc = .normal then s.updGroup c.gk fun g => { g with srbign := true } else s))

theorem drained_stuck (c : Ctx) (i : Instr) (ds : DSlots) (la : BitVec 4) (ty : Ty) (x : Tpb) (d a : Reg) (s : State) :
    (drained c i ds la ty x d a s).stuck = s.stuck := by
  rw [drained, startPend_stuck, started_stuck]
  split <;> rfl

theorem drained_group (c : Ctx) (i : Instr) (ds : DSlots) (la : BitVec 4) (ty : Ty) (x : Tpb) (d a : Reg) {s : State} {g : Group}
    (hg : s.group? c.gk = some g) : ∃ h, (drained c i ds la ty x d a s).group? c.gk = some h := by
  have hmarked : ∃ h,
      (if x.srFor ty = true ∧ s.svc = .normal then s.updGroup c.gk fun g => { g with srbign := true } else s).group? c.gk = some h := by
    split
    · rw [State.group_updGroup, if_pos rfl, hg]
      exact ⟨_, rfl⟩
    · exact ⟨g, hg⟩
  obtain ⟨h, hh⟩ := hmarked
  obtain ⟨p, hp⟩ := started_group c ds (.drain c.gk c.n0 ty x (x.srFor ty && decide (s.svc ≠ .normal)) d.toNat a.toNat) hh
  exact startPend_group c i _ hp

/-- A drain whose block, if it names one, can be read. -/
theorem accDrain_drains {h : Hdr} {ds : DSlots} {la : BitVec 4} {ty : Ty} {tpb : Bool} {d a b : Reg} {s : State} {c : Ctx} {x : Tpb}
    (hw : Whole (.accDrain h ds la ty tpb d a b) s c) (hb : s.slotsBusy c.gk ds.wmask = false)
    (hx : (if tpb then c.tpbRead s (c.lead.getD 0) b else .inr Tpb.zero) = .inr x) :
    ∃ t, exec (.accDrain h ds la ty tpb d a b) s = .next t ∧
      Advanced c (.accDrain h ds la ty tpb d a b) (drained c (.accDrain h ds la ty tpb d a b) ds la ty x d a s) t := by
  obtain ⟨g, hg⟩ := drained_group c (.accDrain h ds la ty tpb d a b) ds la ty x d a (whole_group hw)
  have hbody : ∃ k, exec (.accDrain h ds la ty tpb d a b) s = accOp (.accDrain h ds la ty tpb d a b) ds s k ∧
      k c s = c.advance (.accDrain h ds la ty tpb d a b) (drained c (.accDrain h ds la ty tpb d a b) ds la ty x d a s) := by
    refine ⟨_, rfl, ?_⟩
    simp only [hx, Bool.and_eq_true, decide_eq_true_eq]
    rfl
  obtain ⟨k, hrun, hk⟩ := hbody
  refine ⟨_, hrun.trans ((accOp_next hw hb ?_).trans (congrArg _ hk)), Ctx.advance_advanced c _ _ g hg⟩
  rw [hk, advance_stuck, drained_stuck]
  exact whole_stuck hw

theorem drained_zero (c : Ctx) (i : Instr) (ds : DSlots) (la : BitVec 4) (ty : Ty) (d a : Reg) (s : State) :
    drained c i ds la ty Tpb.zero d a s =
      c.startPend i ((Mask.lanes c.path).map fun l => PLane.of l (c.window la) (drainWr ty d l fun m n =>
          drainElem ty Tpb.zero false a.toNat m n (c.elem s ds a.toNat m n)))
        (started c ds (.drain c.gk c.n0 ty Tpb.zero false d.toNat a.toNat) s) := by
  simp only [drained, srFor_zero, Bool.false_and, Bool.false_eq_true, false_and, if_false]

theorem drainResult : DrainResult := by
  refine ⟨fun h ds la ty d a b s c hw hb => ?plain, fun h ds la ty d a b s c x hw hb hx => ?block,
    fun ty x tile m n w => ⟨fun hty => ?float, ?int⟩⟩
  case plain =>
    rw [← drained_zero]
    exact accDrain_drains hw hb rfl
  case block => exact accDrain_drains hw hb hx
  case float =>
    have hfloat : ty.isFloat = true := by rcases hty with rfl | rfl | rfl | rfl | rfl <;> rfl
    exact drainElem_float hfloat x tile m n w
  case int => exact ⟨_, accVal_exact w ▸ floatToInt_integerOf .rne (accVal w), drainElem_s32 x tile m n w⟩

/-- Settles O25: tile arithmetic writes exact results rounded once, and a drain converts each element for its registers. -/
theorem accumulatorResult : Obligations.AccumulatorResult := by
  unfold Obligations.AccumulatorResult
  exact ⟨tileArithmeticResult, drainResult⟩

end Sys2Proof.Laws
end

section
/-! PROOF. O39: words written out from the manual's encodings decode (R142-R146, R152, R153). -/

namespace Sys2Proof.Laws

open Sys2Proof

/-- Settles O39: each word decodes by evaluation. -/
theorem wordsDecode : Obligations.WordsDecode := by
  unfold Obligations.WordsDecode
  exact ⟨rfl, rfl, rfl, rfl, rfl, rfl, rfl, rfl, rfl, rfl, rfl, rfl, rfl, rfl⟩

end Sys2Proof.Laws
end

section
/-! PROOF. O41: a word that decodes is the one encoding of its instruction (R142, R145, R147, R155). -/

namespace Sys2Proof.Laws

open Sys2Proof

theorem natBytes_leNat (bs : List Byte) : natBytes bs.length (leNat bs) = bs := by
  induction bs with
  | nil => rfl
  | cons b bs ih =>
    have hb := b.isLt
    have hlow : BitVec.ofNat 8 (b.toNat + 256 * leNat bs) = b := by
      apply BitVec.eq_of_toNat_eq
      rw [BitVec.toNat_ofNat]
      omega
    have hrest : (b.toNat + 256 * leNat bs) / 256 = leNat bs := by omega
    rw [List.length_cons, leNat, natBytes, hlow, hrest, ih]

theorem leNat_take_one {bs : List Byte} {n : Nat} (hn : 0 < n) : leNat (bs.take 1) = leNat (bs.take n) % 256 := by
  obtain ⟨n, rfl⟩ := Nat.exists_eq_add_one_of_ne_zero hn.ne'
  cases bs with
  | nil => rfl
  | cons b bs =>
    have hb := b.isLt
    simp only [List.take_succ_cons, List.take_zero, leNat]
    omega

theorem Raw.pack_unpack (w : BitVec 128) : (Raw.unpack w).pack = w := by
  have hbit : BitVec.ofBool (w.getLsbD 19) = w.extractLsb' 19 1 := by
    apply BitVec.eq_of_getLsbD_eq
    intro i hi
    obtain rfl : i = 0 := by omega
    simp
  simp only [Raw.pack, Raw.unpack, hbit]
  rw [extract_join w 64 32 32, extract_join w 56 64 8, extract_join w 52 72 4, extract_join w 44 76 8,
    extract_join w 36 84 8, extract_join w 28 92 8, extract_join w 20 100 8, extract_join w 19 108 1,
    extract_join w 12 109 7, extract_join w 2 116 10, extract_join w 0 126 2]
  exact extract_all w

/-- The length code of a word stands in its two low bits (R142). -/
theorem Raw.unpack_len (w : Nat) : (Raw.unpack (BitVec.ofNat 128 w)).len.toNat = w % 4 := by
  simp only [Raw.unpack, BitVec.extractLsb'_toNat, BitVec.toNat_ofNat]
  omega

theorem lenBytes_le (l : Nat) : lenBytes l ≤ 16 := by
  unfold lenBytes
  split <;> decide

/-- What rows 1 to 7 of Table 6-10 have let pass where an instruction decodes. -/
theorem decode_instr {i : Instr} {off : Nat} {bs : List Byte} (h : decode off bs = .ok (.instr i)) :
    ∃ n, n = lenBytes (leNat (bs.take n) % 4) ∧ n ≤ bs.length ∧ off % 4 = 0 ∧ off + n ≤ 32 ∧
      decodeRaw (Raw.unpack (BitVec.ofNat 128 (leNat (bs.take n)))) = .ok i := by
  simp only [decode] at h
  generalize hl : leNat (bs.take 1) % 4 = l at h
  have hcode : leNat (bs.take (lenBytes l)) % 4 = l := by
    rw [leNat_take_one (lenBytes_pos l), Nat.mod_mod_of_dvd _ (by decide : 4 ∣ 256)] at hl
    exact hl
  split_ifs at h with hfit hlen
  · cases h
  split at h
  · next j hj =>
    obtain rfl : j = i := Fetched.instr.inj (Except.ok.inj h)
    exact ⟨lenBytes l, congrArg lenBytes hcode.symm, by omega, by omega, by omega, hj⟩
  · cases h

/-- An instruction is read from one placement of its fields only, its own. -/
theorem decodeRaw_ok {r : Raw} {i : Instr} (h : decodeRaw r = .ok i) :
    toRaw i = some r ∧ (i.encodingOk && i.widthOk) = true := by
  unfold decodeRaw at h
  split at h
  · cases h
  · split_ifs at h with ht hok
    cases h
    exact ⟨not_not.mp ht, hok⟩

/-- Settles O41: a word decodes only where its fields are those of the instruction (`decodeRaw_ok`), whose length is the
one that they give (`toRaw_roundTrip`), and the fields hold every bit of the word (`Raw.pack_unpack`). -/
theorem decodedBytesAreItsEncoding : Obligations.DecodedBytesAreItsEncoding := by
  unfold Obligations.DecodedBytesAreItsEncoding
  intro i off bs h
  obtain ⟨n, hn, hbs, h4, h32, hraw⟩ := decode_instr h
  obtain ⟨hto, hok⟩ := decodeRaw_ok hraw
  have hlen : n = i.len := by
    rw [← (toRaw_roundTrip i hok _ hto).2.1, Raw.unpack_len, ← hn]
  have htake : (bs.take n).length = n := List.length_take_of_le hbs
  have hlt : leNat (bs.take n) < 2 ^ 128 :=
    calc leNat (bs.take n) < 256 ^ (bs.take n).length := leNat_lt _
      _ = 256 ^ n := by rw [htake]
      _ ≤ 256 ^ 16 := Nat.pow_le_pow_right (by decide) (hn ▸ lenBytes_le _)
  have hbytes : encode i = bs.take n :=
    calc encode i = natBytes i.len (leNat (bs.take n)) := by
          simp only [encode, hto, Raw.pack_unpack, BitVec.toNat_ofNat, Nat.mod_eq_of_lt hlt]
      _ = natBytes (bs.take n).length (leNat (bs.take n)) := by rw [htake, hlen]
      _ = bs.take n := natBytes_leNat _
  subst hlen
  rw [Bool.and_eq_true] at hok
  exact ⟨⟨by rw [hto]; rfl, hok⟩, hbytes.symm, h4, h32⟩

end Sys2Proof.Laws
end

section
/-! PROOF. O13: special functions start long-latency results, with the special values of Table 8-4 (R150, R201, R202). -/

namespace Sys2Proof.Laws

open Sys2Proof Sys2Proof.Machine

/-! A long-latency instruction starts. -/

/-- A long-latency instruction leaves its lanes' results pending and goes on (R150). -/
theorem longOp_starts {i : Instr} {s : State} {c : Ctx} (h : Issues i s c) (la : BitVec 4) (f : Ctx → Nat → Wr) :
    ∃ t, longOp i la s f = .next t ∧
      Advanced c i (c.startPend i ((Mask.lanes (c.active i s)).map fun l => PLane.of l (c.window la) (f c l)) s) t := by
  obtain ⟨g, hg⟩ := startPend_group c i ((Mask.lanes (c.active i s)).map fun l => PLane.of l (c.window la) (f c l))
    (State.ctx_group h.1)
  exact ⟨_, issue_next h _, Ctx.advance_advanced c i _ g hg⟩

/-- What a special function gives for an operand: .ftz applies to the operand and to the result (R201). -/
def sfuResult (ftz : Bool) (f : Word → Nat) (x : Word) : Word :=
  wordOf (flush fmtF32 ftz (f (wordOf (flush fmtF32 ftz x.toNat))))

theorem sfuOp_eq (i : Instr) (ftz : Bool) (la : BitVec 4) (d a : Reg) (s : State) (f : Word → Nat) :
    sfuOp i ftz la d a s f = longOp i la s fun c l => .v d (sfuResult ftz f (c.v s l a)) := rfl

/-! NaN operands (R110). -/

theorem decodeF_nan {f : FFmt} {w : Nat} (h : f.ext w = .nan) : decodeF f w = .nan := by
  rw [← decodeF_exact] at h
  cases hd : decodeF f w with
  | nan => rfl
  | inf neg => rw [hd] at h; cases h
  | fin neg m e => rw [hd] at h; cases h

theorem flush_nan {w : Nat} (h : fmtF32.ext w = .nan) (ftz : Bool) : flush fmtF32 ftz w = w := by
  have hsub : isSubnormal fmtF32 w = false := by
    by_contra hs
    simp only [isSubnormal, Bool.not_eq_false, Bool.and_eq_true, beq_iff_eq] at hs
    have hd := decodeF_nan h
    simp only [decodeF, hs.2] at hd
    cases hd
  simp only [flush, hsub, Bool.and_false, Bool.false_eq_true, if_false]

/-- A function that gives the canonical NaN for NaN operands gives it with .ftz too. -/
theorem sfuResult_nan {f : Word → Nat} (hf : ∀ x : Word, decodeF fmtF32 x.toNat = .nan → f x = fmtF32.nanCode) (ftz : Bool)
    {x : Word} (h : fmtF32.ext x.toNat = .nan) : sfuResult ftz f x = 0x7FC00000#32 := by
  have hx : wordOf (flush fmtF32 ftz x.toNat) = x := by rw [flush_nan h, wordOf, BitVec.ofNat_toNat, BitVec.setWidth_eq]
  rw [sfuResult, hx, hf x (decodeF_nan h)]
  cases ftz <;> rfl

/-! Rows of Table 8-4. -/

/-- Wherever it issues, an instruction starts a long-latency result that `f` gives for its operand (R150, R201). -/
def SfuStarts (mk : Hdr → Bool → BitVec 4 → Reg → Reg → Instr) (ftz : Bool) (f : Word → Word) : Prop :=
  ∀ (h : Hdr) (la : BitVec 4) (d a : Reg) (s : State) (c : Ctx), Issues (mk h ftz la d a) s c →
    ∃ t, exec (mk h ftz la d a) s = .next t ∧
      Advanced c (mk h ftz la d a) (c.startPend (mk h ftz la d a)
        ((Mask.lanes (c.active (mk h ftz la d a) s)).map fun l => PLane.of l (c.window la) (.v d (f (c.v s l a)))) s) t

theorem sfuStarts {mk : Hdr → Bool → BitVec 4 → Reg → Reg → Instr} {ftz : Bool} {f : Word → Nat}
    (he : ∀ h la d a s, exec (mk h ftz la d a) s = sfuOp (mk h ftz la d a) ftz la d a s f) :
    SfuStarts mk ftz (sfuResult ftz f) := by
  intro h la d a s c hi
  rw [he, sfuOp_eq]
  exact longOp_starts hi la _

/-- A row of the table: its values at the infinities and zeros, and the canonical NaN for every NaN. -/
def TableRow (f : Word → Word) (minf mzero pzero pinf : Word) : Prop :=
  f 0xFF800000#32 = minf ∧ f 0x80000000#32 = mzero ∧ f 0#32 = pzero ∧ f 0x7F800000#32 = pinf ∧
    ∀ x : Word, fmtF32.ext x.toNat = .nan → f x = 0x7FC00000#32

theorem tableRow_of {f : Word → Nat} {ftz : Bool} {minf mzero pzero pinf : Word}
    (hminf : sfuResult ftz f 0xFF800000#32 = minf) (hmzero : sfuResult ftz f 0x80000000#32 = mzero)
    (hpzero : sfuResult ftz f 0#32 = pzero) (hpinf : sfuResult ftz f 0x7F800000#32 = pinf)
    (hnan : ∀ x : Word, decodeF fmtF32 x.toNat = .nan → f x = fmtF32.nanCode) :
    TableRow (sfuResult ftz f) minf mzero pzero pinf :=
  ⟨hminf, hmzero, hpzero, hpinf, fun _ hx => sfuResult_nan hnan ftz hx⟩

theorem frcp_tableRow (ftz : Bool) :
    TableRow (sfuResult ftz (fun w => frcpOf w.toNat)) 0x80000000#32 0xFF800000#32 0x7F800000#32 0#32 := by
  cases ftz <;> exact tableRow_of rfl rfl rfl rfl fun x hx => by simp only [frcpOf, hx]

theorem frsq_tableRow (ftz : Bool) :
    TableRow (sfuResult ftz frsqOf) 0x7FC00000#32 0xFF800000#32 0x7F800000#32 0#32 := by
  cases ftz <;> exact tableRow_of rfl rfl rfl rfl fun x hx => by simp only [frsqOf, hx]

theorem fsqrt_tableRow (ftz : Bool) :
    TableRow (sfuResult ftz (fun w => fsqrtOf w.toNat)) 0x7FC00000#32 0x80000000#32 0#32 0x7F800000#32 := by
  cases ftz <;> exact tableRow_of rfl rfl rfl rfl fun x hx => by simp only [fsqrtOf, hx]

theorem fexp2_tableRow (ftz : Bool) :
    TableRow (sfuResult ftz fexp2Of) 0#32 0x3F800000#32 0x3F800000#32 0x7F800000#32 := by
  cases ftz <;> exact tableRow_of rfl rfl rfl rfl fun x hx => by simp only [fexp2Of, hx]

theorem flog2_tableRow (ftz : Bool) :
    TableRow (sfuResult ftz flog2Of) 0x7FC00000#32 0xFF800000#32 0xFF800000#32 0x7F800000#32 := by
  cases ftz <;> exact tableRow_of rfl rfl rfl rfl fun x hx => by simp only [flog2Of, hx]

theorem fsin_tableRow (ftz : Bool) :
    TableRow (sfuResult ftz fsinOf) 0x7FC00000#32 0x80000000#32 0#32 0x7FC00000#32 := by
  cases ftz <;> exact tableRow_of rfl rfl rfl rfl fun x hx => by simp only [fsinOf, hx]

theorem fcos_tableRow (ftz : Bool) :
    TableRow (sfuResult ftz fcosOf) 0x7FC00000#32 0x3F800000#32 0x3F800000#32 0x7FC00000#32 := by
  cases ftz <;> exact tableRow_of rfl rfl rfl rfl fun x hx => by simp only [fcosOf, hx]

theorem ftanh_tableRow (ftz : Bool) :
    TableRow (sfuResult ftz ftanhOf) 0xBF800000#32 0x80000000#32 0#32 0x3F800000#32 := by
  cases ftz <;> exact tableRow_of rfl rfl rfl rfl fun x hx => by simp only [ftanhOf, hx]

theorem fsigm_tableRow (ftz : Bool) :
    TableRow (sfuResult ftz fsigmOf) 0#32 0x3F000000#32 0x3F000000#32 0x3F800000#32 := by
  cases ftz <;> exact tableRow_of rfl rfl rfl rfl fun x hx => by simp only [fsigmOf, hx]

/-- Settles O13: each special function is a long-latency instruction (`sfuStarts`), whose result is a row of the table. -/
theorem specialFunctionStarts : Obligations.SpecialFunctionStarts := by
  unfold Obligations.SpecialFunctionStarts
  intro starts table ftz
  exact ⟨⟨_, sfuStarts (mk := .frcp) (f := fun w => frcpOf w.toNat) fun _ _ _ _ _ => rfl, frcp_tableRow ftz⟩,
    ⟨_, sfuStarts (mk := .frsq) (f := frsqOf) fun _ _ _ _ _ => rfl, frsq_tableRow ftz⟩,
    ⟨_, sfuStarts (mk := .fsqrt) (f := fun w => fsqrtOf w.toNat) fun _ _ _ _ _ => rfl, fsqrt_tableRow ftz⟩,
    ⟨_, sfuStarts (mk := .fexp2) (f := fexp2Of) fun _ _ _ _ _ => rfl, fexp2_tableRow ftz⟩,
    ⟨_, sfuStarts (mk := .flog2) (f := flog2Of) fun _ _ _ _ _ => rfl, flog2_tableRow ftz⟩,
    ⟨_, sfuStarts (mk := .fsin) (f := fsinOf) fun _ _ _ _ _ => rfl, fsin_tableRow ftz⟩,
    ⟨_, sfuStarts (mk := .fcos) (f := fcosOf) fun _ _ _ _ _ => rfl, fcos_tableRow ftz⟩,
    ⟨_, sfuStarts (mk := .ftanh) (f := ftanhOf) fun _ _ _ _ _ => rfl, ftanh_tableRow ftz⟩,
    ⟨_, sfuStarts (mk := .fsigm) (f := fsigmOf) fun _ _ _ _ _ => rfl, fsigm_tableRow ftz⟩⟩

end Sys2Proof.Laws
end

section
/-! PROOF. O38: a long-latency result lands, and is written where its window is over and it carries no fault (R150, R151). -/

namespace Sys2Proof.Laws

open Sys2Proof Sys2Proof.Machine

/-! A result lands. -/

/-- A pending instruction whose result for a lane has landed. -/
def landedIn (id lane : Nat) (q : Pend) : Pend :=
  if q.id = id then { q with lanes := q.lanes.map fun p => if p.lane = lane then { p with landed := true } else p } else q

/-- The group whose result has landed, before it is written. -/
def landing (id lane : Nat) (g : Group) : Group := { g with pend := g.pend.map (landedIn id lane) }

/-- The group as a result lands in it: results that become due are written. -/
def landedGroup (fresh id lane : Nat) (g : Group) : Group := Group.takeDue fresh (landing id lane g)

theorem updGroup_const {s : State} {gk : Nat} {g : Group} (hg : s.group? gk = some g) (f : Group → Group) :
    s.updGroup gk f = s.updGroup gk fun _ => f g := by
  simp only [State.updGroup, SMap.upd, show SMap.find s.groups gk = some g from hg]

theorem landLane_eq {s : State} {gk : Nat} {g : Group} (hg : s.group? gk = some g) (id lane : Nat) :
    s.landLane gk id lane = s.updGroup gk fun _ => landedGroup s.fresh id lane g :=
  updGroup_const hg _

/-- Landing names no other registers than before. -/
theorem landedIn_names (id lane : Nat) (q : Pend) :
    ∀ p ∈ (landedIn id lane q).lanes, ∃ p' ∈ q.lanes, p'.lane = p.lane ∧ p'.ws = p.ws ∧ p'.ps = p.ps := by
  intro p hp
  unfold landedIn at hp
  split at hp
  · obtain ⟨p', hp', rfl⟩ := List.mem_map.1 hp
    refine ⟨p', hp', ?_⟩
    split <;> exact ⟨rfl, rfl, rfl⟩
  · exact ⟨p, hp, rfl, rfl, rfl⟩

theorem landedGroup_settled (fresh id lane : Nat) (g : Group) : Group.settledTo g (landedGroup fresh id lane g) := by
  have hdue := Group.takeDue_settled fresh (landing id lane g)
  have hnames := Group.clearV_of_map (g := g) (h := landing id lane g) rfl (landedIn_names id lane)
  exact ⟨hdue.rest, hdue.len, fun l => ⟨(hdue.lane l).kept, fun r hr => (hdue.lane l).reg r ((hnames l r).1 hr),
    fun r hr => (hdue.lane l).pred r ((hnames l r).2 hr)⟩⟩

theorem settledTo_after {g h : Group} (hs : Group.settledTo g h) (l : Nat) : Lane.after g l Wr.none (g.lane l).pc h := by
  obtain ⟨hkept, hreg, hpred⟩ := hs.lane l
  exact ⟨hreg, hpred, hkept.pc, hkept.csp, hkept.helper, hkept.seen, hkept.wait, .inl hkept.lst⟩

/-! One pending instruction with one lane left. -/

theorem mapLanes_self (n : Nat) (ls : List Lane) {f : Nat → Lane → Lane} (hf : ∀ l ln, f l ln = ln) :
    mapLanes f n ls = ls := by
  induction ls generalizing n with
  | nil => rfl
  | cons x xs ih => rw [mapLanes, hf, ih]

/-- A result without writes of its registers inside the window is written as it stands. -/
theorem Lane.take_apply (fresh id : Nat) (ln : Lane) {p : PLane} (hv : p.clobV = []) (hp : p.clobP = []) :
    ln.take fresh id p = ln.apply ⟨p.ws, p.ps⟩ := by
  simp only [Lane.take, Lane.apply, hv, hp, List.not_mem_nil, false_and, if_false]

section
variable {g : Group} {q : Pend} {p : PLane} (hg : g.pend = [q]) (hq : q.lanes = [p])

include hg hq

theorem takeDue_lone_due (fresh : Nat) (hdue : p.due = true) :
    (Group.takeDue fresh g).pend = [] ∧
      (p.lane < g.lanes.length → (Group.takeDue fresh g).lane p.lane = (g.lane p.lane).take fresh q.id p) := by
  refine ⟨by simp [Group.takeDue, hg, hq, hdue], fun hlt => ?_⟩
  have hplane : q.plane p.lane = some p := by simp [Pend.plane, hq]
  simp only [Group.lane, Group.takeDue, hg, List.foldl_cons, List.foldl_nil, atD_mapLanes, hlt, Nat.zero_add, hplane,
    hdue, if_true]

theorem takeDue_lone_waits (fresh : Nat) (hdue : p.due = false) :
    (Group.takeDue fresh g).lanes = g.lanes ∧ (Group.takeDue fresh g).pend = [q] := by
  have hpend : (Group.takeDue fresh g).pend = [{ q with lanes := [p] }] := by simp [Group.takeDue, hg, hq, hdue]
  refine ⟨?_, by rw [hpend, ← hq]⟩
  have hplane : ∀ l, ∀ p' ∈ q.plane l, p'.due = false := by
    intro l p' h
    obtain ⟨hmem, -⟩ := Pend.plane_mem h
    rw [hq, List.mem_singleton] at hmem
    rw [hmem, hdue]
  simp only [Group.takeDue, hg, List.foldl_cons, List.foldl_nil]
  refine mapLanes_self 0 g.lanes fun l ln => ?_
  split
  · next p' h => simp [hplane l p' h]
  · rfl

end

theorem landed_lone {g : Group} {q : Pend} {p : PLane} (hg : g.pend = [q]) (hq : q.lanes = [p]) :
    (landing q.id p.lane g).pend = [{ q with lanes := [{ p with landed := true }] }] := by
  simp [landing, hg, landedIn, hq]

/-- A result that has landed is due once its window is over, where it carries no fault (R150, R151). -/
theorem landed_due_iff (p : PLane) : ({ p with landed := true } : PLane).due = true ↔ p.left = 0 ∧ p.fault = none := by
  simp [PLane.due]

/-- Settles O38: a result lands in its group alone (`landLane_eq`), and where it is the only one it is written at once if
it is due (`takeDue_lone_due`) and stays pending if it is not (`takeDue_lone_waits`). -/
theorem longLatencyResult : Obligations.LongLatencyResult := by
  unfold Obligations.LongLatencyResult
  intro gk id lane s
  refine ⟨_, rfl, fun h => by rw [h]; rfl, fun g hland hg => ?_⟩
  have hsettled := landedGroup_settled s.fresh id lane g
  refine ⟨landedGroup s.fresh id lane g, ?_, hsettled.rest, hsettled.len, fun l _ => settledTo_after hsettled l,
    fun q p hpend hid hlanes hlane hlt => ⟨fun hleft hfault hv hp => ?_, fun hnot => ?_⟩⟩
  · rw [hland, if_pos rfl, landLane_eq hg]
  · subst hid hlane
    have hdue := (landed_due_iff p).mpr ⟨hleft, hfault⟩
    obtain ⟨hdone, hwritten⟩ := takeDue_lone_due (landed_lone hpend hlanes) rfl s.fresh hdue
    have hln : (landedGroup s.fresh q.id p.lane g).lane p.lane = (g.lane p.lane).apply ⟨p.ws, p.ps⟩ :=
      (hwritten hlt).trans (Lane.take_apply s.fresh q.id _ hv hp)
    refine ⟨hdone, fun r => ?_, fun r => ?_⟩
    · rw [Group.reg, hln]
      exact Lane.apply_reg ..
    · rw [Group.pred, hln]
      exact Lane.apply_pred ..
  · subst hid hlane
    refine takeDue_lone_waits (landed_lone hpend hlanes) rfl s.fresh (Bool.eq_false_iff.mpr fun hdue => ?_)
    obtain ⟨hleft, hfault⟩ := (landed_due_iff p).mp hdue
    exact hnot.elim (absurd hleft) (absurd hfault)

end Sys2Proof.Laws
end

section
/-! PROOF. O7: special registers, device time, and `nop` (R140, R175, R277). -/

namespace Sys2Proof.Laws

open Sys2Proof Sys2Proof.Machine Sys2Proof.Claims

/-! Reads (Table 6-5). -/

@[simp] theorem loW_dwordOf (n : Nat) : loW (dwordOf n) = wordOf n := by
  apply BitVec.eq_of_toNat_eq
  simp only [loW, dwordOf, wordOf, BitVec.extractLsb'_toNat, BitVec.toNat_ofNat, Nat.shiftRight_zero]
  omega

@[simp] theorem loW_setWidth {n : Nat} (x : BitVec n) : loW (x.setWidth 64) = x.setWidth 32 := by
  apply BitVec.eq_of_getLsbD_eq
  intro i hi
  simp only [loW, BitVec.getLsbD_extractLsb', BitVec.getLsbD_setWidth]
  simp [hi]; omega

/-- A read of a 32-bit special register writes what the lane reads, by whatever formula. -/
theorem sregGet_word {h : Hdr} {d x : Reg} (hx : sregRegs x = 1) {f : State → Ctx → Nat → Word}
    (hf : ∀ s (c : Ctx) l, loW (c.sreg s l x.toNat) = f s c l) : Writes (.sregGet h d x) fun s c l => .v d (f s c l) :=
  laneOp_writes (fun s c l => if sregRegs x = 2 then Wr.pair d (c.sreg s l x.toNat) else Wr.v d (loW (c.sreg s l x.toNat)))
    (fun _ => rfl) fun s c _ l => by rw [hx, if_neg (by decide), hf]

/-- A read of a 64-bit one. -/
theorem sregGet_pair {h : Hdr} {d x : Reg} (hx : sregRegs x = 2) {f : State → Ctx → Nat → DWord}
    (hf : ∀ s (c : Ctx) l, c.sreg s l x.toNat = f s c l) : Writes (.sregGet h d x) fun s c l => .pair d (f s c l) :=
  laneOp_writes (fun s c l => if sregRegs x = 2 then Wr.pair d (c.sreg s l x.toNat) else Wr.v d (loW (c.sreg s l x.toNat)))
    (fun _ => rfl) fun s c _ l => by rw [hx, if_pos rfl, hf]

theorem specialRegisterRead : Claims.SpecialRegisterRead := by
  intro h d
  refine ⟨sregGet_word rfl ?_, sregGet_word rfl ?_, sregGet_word rfl ?_, sregGet_word rfl ?_, sregGet_word rfl ?_,
    sregGet_word rfl ?_, sregGet_word rfl ?_, sregGet_word rfl ?_, sregGet_word rfl ?classH, sregGet_word rfl ?_,
    sregGet_pair rfl fun _ _ _ => rfl, sregGet_word rfl ?_, sregGet_word rfl ?_, sregGet_word rfl ?_, sregGet_word rfl ?_,
    sregGet_word rfl ?_, sregGet_pair rfl fun _ _ _ => rfl, sregGet_pair rfl fun _ _ _ => rfl, sregGet_pair rfl fun _ _ _ => rfl,
    sregGet_word rfl ?_, sregGet_word rfl ?_, sregGet_word rfl ?_,
    laneOp_writes _ (fun _ => rfl) fun _ _ _ _ => rfl, laneOp_writes _ (fun _ => rfl) fun _ _ _ _ => rfl,
    laneOp_writes _ (fun _ => rfl) fun _ _ _ _ => rfl, laneOp_writes _ (fun _ => rfl) fun _ _ _ _ => rfl⟩
  case classH =>
    intro s c l
    show loW (if c.l.classH then 1 else 0) = _
    cases c.l.classH <;> rfl
  all_goals simp [Ctx.sreg, Ctx.gnum, Ctx.die, Ctx.part]

/-! Writes (Tables 2-6, 3-7, 5-6). -/

/-- Only wakes of banks and of L2 slices differ (R73). -/
def Woken (s u : State) : Prop :=
  u = { s with banks := u.banks, slices := u.slices } ∧
    ∀ k, u.bank k = { s.bank k with waking := (u.bank k).waking } ∧ ((s.bank k).waking = true → (u.bank k).waking = true)

theorem Woken.refl (s : State) : Woken s s := ⟨rfl, fun _ => ⟨rfl, id⟩⟩

theorem Woken.trans {s u v : State} (h1 : Woken s u) (h2 : Woken u v) : Woken s v := by
  obtain ⟨r1, b1⟩ := h1
  obtain ⟨r2, b2⟩ := h2
  exact ⟨by rw [r2, r1], fun k => ⟨by rw [(b2 k).1, (b1 k).1], fun hk => (b2 k).2 ((b1 k).2 hk)⟩⟩

theorem startWake_woken (s : State) (bs : List Nat) : Woken s (s.startWake bs) := by
  refine List.foldlRecOn (motive := Woken s) _ _ (Woken.refl s) fun u hu b _ => hu.trans ⟨rfl, fun k => ?_⟩
  rw [State.bank_setBank]
  split
  next h => rw [h]; exact ⟨rfl, fun _ => rfl⟩
  next => exact ⟨rfl, id⟩

theorem wakeSlice_woken (s : State) (sl : Nat) : Woken s (s.wakeSlice sl) := by
  rw [State.wakeSlice]
  split
  · exact Woken.refl s
  · exact ⟨rfl, fun _ => ⟨rfl, id⟩⟩

theorem phaseSlices_woken (s : State) (tuid : Nat) : Woken s (s.phaseSlices tuid) := by
  rw [State.phaseSlices]
  split
  · exact List.foldlRecOn (motive := Woken s) _ _ (Woken.refl s) fun u hu sl _ => hu.trans (wakeSlice_woken u sl)
  · exact Woken.refl s

/-- A write of %bphase, and the banks and slices that it wakes (R77). -/
theorem sregWrite_bphase (c : Ctx) (w : Word) (s : State) :
    Woken (s.updGroup c.gk fun g => { g with bphase := w.toNat, phaseSince := s.now }) (c.sregWrite 0x0C w s) := by
  simp only [Ctx.sregWrite]
  refine Woken.trans ?_ (phaseSlices_woken ..)
  split
  · exact startWake_woken ..
  · exact Woken.refl _

/-- A write of %pev spends the latched events that it names (R261). -/
theorem clearEvents_pev (g : Group) (w : Word) (evs : List EvEntry) :
    Group.clearEvents { g with evs := evs } w.toNat false = { g with
      evs := (span 0 8).map fun j =>
        let e := atD evs j EvEntry.reset
        if w.getLsbD j = true ∧ e.est = .latched then { e with est := .spent } else e } := by
  simp only [Group.clearEvents]
  congr 2
  funext j
  have hbit : w.getLsbD j = decide (w.toNat / 2 ^ j % 2 = 1) := Nat.testBit_eq_decide_div_mod_eq
  have hclear : (w.toNat / 2 ^ j % 2 = 0) = ¬(w.getLsbD j = true) := by simp [hbit]
  simp only [hclear]
  by_cases hw : w.getLsbD j = true
  · cases he : (atD evs j EvEntry.reset).est <;> simp [hw]
  · simp [hw]

/-! Values that a register refuses (R125, R140). -/

/-- A value has none of the bits from `k` on just where it is below 2^k. -/
theorem and_eq_zero_iff_lt {w m : Word} {k : Nat} (hm : ∀ i, i < 32 → m.getLsbD i = decide (k ≤ i)) :
    w &&& m = 0 ↔ w.toNat < 2 ^ k := by
  constructor
  · intro h
    refine Nat.lt_pow_two_of_testBit _ fun i hi => ?_
    show w.getLsbD i = false
    by_cases h32 : i < 32
    · have hbit : (w &&& m).getLsbD i = false := by rw [h]; exact BitVec.getLsbD_zero
      simpa [BitVec.getLsbD_and, hm i h32, hi] using hbit
    · exact BitVec.getLsbD_of_ge w i (by omega)
  · intro h
    apply BitVec.eq_of_getLsbD_eq
    intro i hi
    rw [BitVec.getLsbD_and, hm i hi, show (0 : Word).getLsbD i = false from BitVec.getLsbD_zero]
    by_cases hk : k ≤ i
    · have hlow : w.getLsbD i = false := Nat.testBit_lt_two_pow (h.trans_le (Nat.pow_le_pow_right (by decide) hk))
      rw [hlow, Bool.false_and]
    · simp [hk]

theorem sregRefuses_mask {idx k : Nat} {w : Word} (hidx : idx ≠ 0x0B)
    (hm : ∀ i, i < 32 → (~~~sregBits idx).getLsbD i = decide (k ≤ i)) : sregRefuses idx w = true ↔ 2 ^ k ≤ w.toNat := by
  rw [sregRefuses, Bool.or_eq_true, decide_eq_true_eq, ne_eq, and_eq_zero_iff_lt hm]
  simp [hidx]

theorem sregRefuses_nbv {w : Word} : sregRefuses 0x0B w = true ↔ 3 ≤ w.toNat ∨ Config.hasNbv w.toNat = false := by
  rw [sregRefuses, Bool.or_eq_true, decide_eq_true_eq, ne_eq, and_eq_zero_iff_lt (k := 2) (by decide)]
  simp
  omega

theorem sregRefuses_gstat {w : Word} : sregRefuses 0x15 w = true ↔ w &&& 0xFFFFFFE2#32 ≠ 0 := by
  rw [sregRefuses, Bool.or_eq_true, decide_eq_true_eq, show ~~~sregBits 0x15 = 0xFFFFFFE2#32 by decide]
  simp

/-! What `sreg.set` does. -/

section
variable {h : Hdr} {a x : Reg} {s : State} {c : Ctx} (hi : Issues (.sregSet h a x) s c)

include hi

theorem sregSet_csp (hx : x.toNat = 0x0A) :
    exec (.sregSet h a x) s = .next (c.advance (.sregSet h a x) (s.updGroup c.gk fun g => g.updLanes fun l ln =>
      if (c.active (.sregSet h a x) s).getLsbD l then { ln with csp := c.pair s l a } else ln)) := by
  rw [show exec (.sregSet h a x) s = execSregSet h a x s from rfl, execSregSet, issue_next hi, if_pos hx]

theorem sregSet_idle (hx : x.toNat ≠ 0x0A) (hr : realActs (.sregSet h a x) s c = 0) :
    exec (.sregSet h a x) s = .next (c.advance (.sregSet h a x) s) := by
  have hnone : Mask.lowest (c.realOf (c.active (.sregSet h a x) s)) = none := by
    rw [show c.realOf (c.active (.sregSet h a x) s) = 0 from hr]
    decide
  rw [show exec (.sregSet h a x) s = execSregSet h a x s from rfl, execSregSet, issue_next hi, if_neg hx, hnone]

variable {l : Nat} (hl : Mask.lowest (realActs (.sregSet h a x) s c) = some l)

include hl

theorem sregSet_some (hx : x.toNat ≠ 0x0A) : exec (.sregSet h a x) s = .next
    (if !sregWritable x || sregRefuses x.toNat (c.v s l a) then trapped c .illegalOperand (realActs (.sregSet h a x) s c) 0 s
      else c.advance (.sregSet h a x) (c.sregWrite x.toNat (c.v s l a) s)) := by
  have hsome : Mask.lowest (c.realOf (c.active (.sregSet h a x) s)) = some l := hl
  rw [show exec (.sregSet h a x) s = execSregSet h a x s from rfl, execSregSet, issue_next hi, if_neg hx, hsome]
  rfl

theorem sregSet_writes (hx : x.toNat ≠ 0x0A) (hw : sregWritable x = true) (hv : ¬sregRefuses x.toNat (c.v s l a) = true) :
    exec (.sregSet h a x) s = .next (c.advance (.sregSet h a x) (c.sregWrite x.toNat (c.v s l a) s)) := by
  rw [sregSet_some hi hl hx, hw, Bool.eq_false_iff.mpr hv]
  rfl

theorem sregSet_traps (hx : x.toNat ≠ 0x0A) (hbad : sregWritable x = false ∨ sregRefuses x.toNat (c.v s l a) = true) :
    exec (.sregSet h a x) s = .next (trapped c .illegalOperand (realActs (.sregSet h a x) s c) 0 s) := by
  rw [sregSet_some hi hl hx, if_pos]
  rcases hbad with h | h <;> simp [h]

end

theorem group_updGroup_own {s : State} {c : Ctx} (hc : s.ctx? = some c) (f : Group → Group) :
    (s.updGroup c.gk f).group? c.gk = some (f c.g) := by
  rw [State.group_updGroup, if_pos rfl, State.ctx_group hc]
  rfl

section
variable {h : Hdr} {a x : Reg} {s : State} {c : Ctx} {l : Nat} (hi : Issues (.sregSet h a x) s c)
  (hl : Mask.lowest (realActs (.sregSet h a x) s c) = some l) (hx : x.toNat ≠ 0x0A) (hw : sregWritable x = true)
  (hv : ¬sregRefuses x.toNat (c.v s l a) = true)

include hi hl hx hw hv

theorem sregSet_advances {u : State} {g : Group} (hu : c.sregWrite x.toNat (c.v s l a) s = u) (hg : u.group? c.gk = some g) :
    ∃ t, exec (.sregSet h a x) s = .next t ∧ Advanced c (.sregSet h a x) u t := by
  subst hu
  exact ⟨_, sregSet_writes hi hl hx hw hv, Ctx.advance_advanced c _ _ g hg⟩

theorem sregSet_updates {f : Group → Group} (hu : c.sregWrite x.toNat (c.v s l a) s = s.updGroup c.gk f) :
    ∃ t, exec (.sregSet h a x) s = .next t ∧ Advanced c (.sregSet h a x) (s.updGroup c.gk f) t :=
  sregSet_advances hi hl hx hw hv hu (group_updGroup_own hi.1 f)

end

theorem specialRegisterWrite : Claims.SpecialRegisterWrite := by
  intro h a x
  have hwritable : ∀ {k}, k ∈ [0x0B, 0x0C, 0x0D, 0x0E, 0x15] → x.toNat = k →
      x.toNat ≠ 0x0A ∧ sregWritable x = true := by
    intro k hk hx
    fin_cases hk <;> simp [sregWritable, hx]
  refine ⟨fun hx s c hi => ?csp, fun hx s c hi hr => ?idle, fun s c l hi hl => ⟨fun hx hv hnbv => ?nbv, fun hx hv => ?bphase,
    fun hx hv => ?pev, fun hx hv => ?evm, fun hx hv => ?gstat, fun hx hro => ?readOnly, fun hbad => ?reserved⟩⟩
  case csp => exact ⟨_, sregSet_csp hi hx, Ctx.advance_advanced c _ _ _ (group_updGroup_own hi.1 _)⟩
  case idle => exact ⟨_, sregSet_idle hi hx hr, Ctx.advance_advanced c _ s c.g (State.ctx_group hi.1)⟩
  case nbv =>
    obtain ⟨hne, hw⟩ := hwritable (by decide) hx
    have hok : ¬sregRefuses x.toNat (c.v s l a) = true := by
      rw [hx, sregRefuses_nbv, hnbv, not_or]
      exact ⟨Nat.not_le.mpr hv, by decide⟩
    exact sregSet_updates hi hl hne hw hok (by rw [hx]; rfl)
  case bphase =>
    obtain ⟨hne, hw⟩ := hwritable (by decide) hx
    have hok : ¬sregRefuses x.toNat (c.v s l a) = true := by
      rw [hx, sregRefuses_mask (k := 2) (by decide) (by decide)]
      omega
    obtain ⟨hrest, hbanks⟩ := sregWrite_bphase c (c.v s l a) s
    rw [← hx] at hrest hbanks
    have hg := (congrArg (fun u : State => u.group? c.gk) hrest).trans (group_updGroup_own hi.1 _)
    obtain ⟨t, hrun, hadv⟩ := sregSet_advances hi hl hne hw hok rfl hg
    exact ⟨t, _, hrun, hadv, hrest, hbanks⟩
  case pev =>
    obtain ⟨hne, hw⟩ := hwritable (by decide) hx
    have hok : ¬sregRefuses x.toNat (c.v s l a) = true := by
      rw [hx, sregRefuses_mask (k := 8) (by decide) (by decide)]
      omega
    refine sregSet_updates hi hl hne hw hok ?_
    rw [hx]
    simp only [Ctx.sregWrite, clearEvents_pev]
  case evm =>
    obtain ⟨hne, hw⟩ := hwritable (by decide) hx
    have hok : ¬sregRefuses x.toNat (c.v s l a) = true := by
      rw [hx, sregRefuses_mask (k := 8) (by decide) (by decide)]
      omega
    exact sregSet_updates hi hl hne hw hok (by rw [hx]; rfl)
  case gstat =>
    obtain ⟨hne, hw⟩ := hwritable (by decide) hx
    have hok : ¬sregRefuses x.toNat (c.v s l a) = true := by
      rw [hx, sregRefuses_gstat]
      exact not_not_intro hv
    exact sregSet_updates hi hl hne hw hok (by rw [hx]; rfl)
  case readOnly => exact sregSet_traps hi hl hx (.inl hro)
  case reserved =>
    refine sregSet_traps hi hl ?_ (.inr ?_)
    · rcases hbad with ⟨hx, -⟩ | ⟨hx, -⟩ | ⟨hx, -⟩ | ⟨hx, -⟩ <;> omega
    · rcases hbad with ⟨hx, hv⟩ | ⟨hx, hv⟩ | ⟨hx | hx, hv⟩ | ⟨hx, hv⟩ <;> rw [hx]
      · exact sregRefuses_nbv.mpr hv
      · exact (sregRefuses_mask (k := 2) (by decide) (by decide)).mpr hv
      · exact (sregRefuses_mask (k := 8) (by decide) (by decide)).mpr hv
      · exact (sregRefuses_mask (k := 8) (by decide) (by decide)).mpr hv
      · exact sregRefuses_gstat.mpr hv

/-- Settles O7: a read writes what the lane reads (`sregGet_word`, `sregGet_pair`), and a write is taken (`sregSet_advances`)
or traps (`sregSet_traps`). -/
theorem specialRegisterResult : Obligations.SpecialRegisterResult := by
  unfold Obligations.SpecialRegisterResult
  exact ⟨specialRegisterRead, specialRegisterWrite⟩

end Sys2Proof.Laws
end

section
/-! PROOF. O37, fault entries: what a fault or trap leaves, and its entry in the ring (R155, R329, R330, R332). -/

namespace Sys2Proof.Laws

open Sys2Proof Sys2Proof.Machine Sys2Proof.Claims

/-! What raising an entry leaves as it was (R329). -/

/-- Only memory, with its keys, images, history and order, and what belongs to partitions differ. -/
def RingWrote (s t : State) : Prop :=
  t = { s with parts := t.parts, mem := t.mem, ktag := t.ktag, blobs := t.blobs, hist := t.hist, wseq := t.wseq }

theorem RingWrote.refl (s : State) : RingWrote s s := rfl

theorem RingWrote.trans {s t u : State} (h1 : RingWrote s t) (h2 : RingWrote t u) : RingWrote s u := by
  unfold RingWrote at *
  rw [h2, h1]

theorem Wrote.ringWrote {s t : State} (h : Wrote s t) : RingWrote s t := by
  unfold Wrote at h
  unfold RingWrote
  rw [h]

theorem setPart_ringWrote (s : State) (p : Nat) (y : Part) : RingWrote s (s.setPart p y) := rfl

theorem ringWrite_ringWrote (s : State) (p n : Nat) (bs : List Byte) : RingWrote s (s.ringWrite p n bs) := by
  induction n generalizing s bs with
  | zero => exact RingWrote.refl s
  | succ n ih => exact (((writeBytes_wrote ..).ringWrote).trans (setPart_ringWrote ..)).trans (ih _ _)

theorem post_ringWrote (s : State) (p : Nat) (y : Part) (e : FEntry) : RingWrote s ((s.setPart p y).postNow p e) :=
  ((setPart_ringWrote ..).trans (ringWrite_ringWrote ..)).trans (setPart_ringWrote ..)

theorem postWaiting_ringWrote (n : Nat) (s : State) (p : Nat) : RingWrote s (State.postWaiting n s p) := by
  induction n generalizing s with
  | zero => exact RingWrote.refl s
  | succ n ih =>
    simp only [State.postWaiting]
    split
    · split
      · exact (post_ringWrote ..).trans (ih _)
      · exact RingWrote.refl s
    · split
      · split
        · exact (post_ringWrote ..).trans (ih _)
        · exact RingWrote.refl s
      · exact RingWrote.refl s

theorem raiseEntry_ringWrote (s : State) (p : Nat) (e : FEntry) : RingWrote s (s.raiseEntry p e) :=
  (setPart_ringWrote ..).trans (postWaiting_ringWrote ..)

/-! One entry in the ring (R329). -/

/-- Where the next entry of a ring stands. -/
def ringAddr (pt : Part) : Nat := pt.fqBase.toNat % 2 ^ 48 + 64 * (pt.fqTail % 2 ^ pt.fqLog2n)

/-- The ring with one entry more. -/
def ringNext (pt : Part) : Part :=
  if pt.fqTail + 1 - pt.fqHead ≥ 2 ^ pt.fqLog2n then { pt with fqTail := pt.fqTail + 1, fqStat := pt.fqStat ||| 1#4 }
  else { pt with fqTail := pt.fqTail + 1 }

theorem ringNext_fqTail (pt : Part) : (ringNext pt).fqTail = pt.fqTail + 1 := by
  unfold ringNext
  split <;> rfl

theorem ringNext_outstanding (pt : Part) : (ringNext pt).outstanding = pt.outstanding := by
  unfold ringNext
  split <;> rfl

theorem ringNext_wantPost (pt : Part) : (ringNext pt).wantPost = pt.wantPost := by
  unfold ringNext
  split <;> rfl

theorem entry_length (e : FEntry) (seq : Nat) : (e.bytes seq).length = 64 := by
  simp only [FEntry.bytes, List.length_append, natBytes_length]

/-- An entry without extensions takes one place of the ring. -/
theorem ringWrite_entry (s : State) (p : Nat) {e : FEntry} (hext : e.ext = []) (seq : Nat) :
    s.ringWrite p e.size (e.bytes seq ++ e.extBytes) =
      (s.writeBytes (s.keyTag 0) (ringAddr (s.part p)) (e.bytes seq)).setPart p (ringNext (s.part p)) := by
  have hbytes : (e.bytes seq ++ e.extBytes).take 64 = e.bytes seq := List.take_left' (entry_length e seq)
  have hsize : e.size = 1 := by simp [FEntry.size, hext]
  simp only [hsize, State.ringWrite, hbytes]
  rfl

theorem readBytes_writeBytes (s : State) (tag pa : Nat) (bs : List Byte) :
    (s.writeBytes tag pa bs).readBytes tag pa bs.length = bs := by
  refine List.ext_getElem (by simp [State.readBytes]) fun i hi hi' => ?_
  simp only [State.readBytes, span_eq_range', List.getElem_map, List.getElem_range', Nat.one_mul]
  exact State.writeBytes_read s tag pa i bs hi'

theorem readBytes_setPart (s : State) (p : Nat) (y : Part) (tag pa n : Nat) :
    (s.setPart p y).readBytes tag pa n = s.readBytes tag pa n := rfl

/-- A partition that has posted an entry, once it stands in the ring. -/
def postedPart (pt : Part) (seq : Nat) (e : FEntry) : Part :=
  { pt with
    nextSeq := seq + 1, posted := pt.posted + 1, posts := SMap.put pt.posts seq e.info.cause
    outstanding :=
      match e.info.cause.cls with
      | .replay | .stop => if e.target = .none then pt.outstanding else pt.outstanding ++ [(seq, e)]
      | _ => pt.outstanding }

theorem postNow_entry (s : State) (p : Nat) {e : FEntry} (hext : e.ext = []) :
    s.postNow p e =
      ((s.writeBytes (s.keyTag 0) (ringAddr (s.part p)) (e.bytes (s.part p).nextSeq)).setPart p
        (ringNext (s.part p))).setPart p (postedPart (ringNext (s.part p)) (s.part p).nextSeq e) := by
  have hrun : s.postNow p e =
      (s.ringWrite p e.size (e.bytes (s.part p).nextSeq ++ e.extBytes)).setPart p
        (postedPart ((s.ringWrite p e.size (e.bytes (s.part p).nextSeq ++ e.extBytes)).part p) (s.part p).nextSeq e) := rfl
  rw [hrun, ringWrite_entry s p hext, State.part_setPart, if_pos rfl]

/-- The entry of a fault or trap of a group: it waits for the driver or for a replay (R330). -/
structure Held (e : FEntry) : Prop where
  cls : e.info.cause.cls = .replay ∨ e.info.cause.cls = .stop
  ext : e.ext = []
  target : e.target ≠ .none

theorem postedPart_outstanding {e : FEntry} (he : Held e) (pt : Part) (seq : Nat) :
    (postedPart pt seq e).outstanding = pt.outstanding ++ [(seq, e)] := by
  rcases he.cls with h | h <;> simp only [postedPart, h, if_neg he.target]

/-- What posting the entry of a fault or trap leaves of the ring. -/
structure Posts (s : State) (p : Nat) (e : FEntry) (t : State) : Prop where
  bytes : t.readBytes (s.keyTag 0) (ringAddr (s.part p)) 64 = e.bytes (s.part p).nextSeq
  fqTail : (t.part p).fqTail = (s.part p).fqTail + 1
  nextSeq : (t.part p).nextSeq = (s.part p).nextSeq + 1
  outstanding : (t.part p).outstanding = (s.part p).outstanding ++ [((s.part p).nextSeq, e)]
  wantPost : (t.part p).wantPost = (s.part p).wantPost

theorem postNow_posts (s : State) (p : Nat) {e : FEntry} (he : Held e) : Posts s p e (s.postNow p e) := by
  have hpart : (s.postNow p e).part p = postedPart (ringNext (s.part p)) (s.part p).nextSeq e := by
    rw [postNow_entry s p he.ext, State.part_setPart, if_pos rfl]
  constructor
  case bytes =>
    have hread := readBytes_writeBytes s (s.keyTag 0) (ringAddr (s.part p)) (e.bytes (s.part p).nextSeq)
    rw [entry_length] at hread
    rw [postNow_entry s p he.ext, readBytes_setPart, readBytes_setPart, hread]
  case fqTail =>
    rw [hpart]
    exact ringNext_fqTail _
  case nextSeq => rw [hpart, postedPart]
  case outstanding => rw [hpart, postedPart_outstanding he, ringNext_outstanding]
  case wantPost =>
    rw [hpart]
    exact ringNext_wantPost _

/-! Raising an entry (R329, R332). -/

/-- The partition that wants the entry of a fault or trap posted. -/
def wantedPart (pt : Part) (e : FEntry) : Part :=
  { pt with causes := SMap.updD pt.causes e.info.cause.code 0 (· + 1), wantPost := pt.wantPost ++ [e] }

theorem raiseEntry_held (s : State) (p : Nat) {e : FEntry} (he : Held e) :
    s.raiseEntry p e =
      State.postWaiting ((s.part p).wantPost.length + 1 + (s.part p).hold.length) (s.setPart p (wantedPart (s.part p) e)) p := by
  rcases he.cls with h | h <;> simp only [State.raiseEntry, h, wantedPart, List.length_append, List.length_singleton]

theorem Held.size {e : FEntry} (he : Held e) : e.size = 1 := by simp [FEntry.size, he.ext]

theorem wantedPart_roomFor {e : FEntry} (he : Held e) (pt : Part) :
    (wantedPart pt e).roomFor e = true ↔ pt.fqEn = true ∧ pt.fqTail - pt.fqHead + 1 ≤ 2 ^ pt.fqLog2n := by
  rw [Part.roomFor, he.size, Bool.and_eq_true, decide_eq_true_eq]
  rfl

/-- With nothing before it and room in the ring, it is posted. -/
theorem raiseEntry_posts {s : State} {p : Nat} {e : FEntry} (he : Held e) (hw : (s.part p).wantPost = [])
    (hh : (s.part p).hold = []) (hen : (s.part p).fqEn = true)
    (hroom : (s.part p).fqTail - (s.part p).fqHead + 1 ≤ 2 ^ (s.part p).fqLog2n) :
    Posts s p e (s.raiseEntry p e) := by
  have hfits := (wantedPart_roomFor he (s.part p)).mpr ⟨hen, hroom⟩
  have hwant : (wantedPart (s.part p) e).wantPost = [e] := by rw [wantedPart, hw]; rfl
  rw [raiseEntry_held s p he, hw, hh]
  simp only [List.length_nil, Nat.zero_add, Nat.add_zero, State.postWaiting, State.part_setPart, if_true, hwant,
    hfits, setPart_setPart]
  obtain ⟨hbytes, htail, hseq, hout, hnone⟩ := postNow_posts (s.setPart p { wantedPart (s.part p) e with wantPost := [] }) p he
  rw [State.part_setPart, if_pos rfl] at hbytes htail hseq hout hnone
  exact ⟨hbytes, htail, hseq, hout, hnone.trans hw.symm⟩

/-- With nothing before it and no room, it waits. -/
theorem raiseEntry_waits {s : State} {p : Nat} {e : FEntry} (he : Held e) (hw : (s.part p).wantPost = [])
    (hroom : (s.part p).fqEn = false ∨ 2 ^ (s.part p).fqLog2n < (s.part p).fqTail - (s.part p).fqHead + 1) :
    s.raiseEntry p e = s.setPart p (wantedPart (s.part p) e) := by
  have hfull : (wantedPart (s.part p) e).roomFor e = false := by
    rw [← Bool.not_eq_true, wantedPart_roomFor he]
    rintro ⟨hen, hfits⟩
    exact hroom.elim (fun h => Bool.false_ne_true (h.symm.trans hen)) (Nat.not_lt.mpr hfits)
  have hwant : (wantedPart (s.part p) e).wantPost = [e] := by rw [wantedPart, hw]; rfl
  rw [raiseEntry_held s p he, Nat.add_right_comm, State.postWaiting]
  simp only [State.part_setPart, if_true, hwant, hfull, Bool.false_eq_true, if_false]

/-! Taking a fault or trap (R155, R329, R330). -/

/-- The group that a fault or trap holds, for a replay or for the driver. -/
def heldGroup (f : FInfo) (g : Group) : Group :=
  if f.cause.cls = .replay then { g with park := .fault } else { g with stopped := true }

section
variable {s : State} {gk : Nat} {g : Group} {tm : Team} {l : Launch} (hg : s.group? gk = some g) (ht : s.team? (gk / 32) = some tm)
  (hl : s.launch? tm.launch = some l)

include hg ht hl

theorem takeFault_eq (f : FInfo) :
    s.takeFault gk f = ((s.updGroup gk fun _ => heldGroup f g).dropRecs (.group gk)).raiseEntry l.part
      ((s.updGroup gk fun _ => heldGroup f g).groupEntry gk f) := by
  rw [← updGroup_const hg (heldGroup f)]
  delta heldGroup
  cases hc : f.cause.cls <;> simp only [State.takeFault, ht, hl, hc, reduceCtorEq, if_true, if_false]

omit hg in
theorem groupEntry_held {f : FInfo} (hf : f.cause.cls = .replay ∨ f.cause.cls = .stop) :
    Held ((s.updGroup gk fun _ => heldGroup f g).groupEntry gk f) := by
  have he : (s.updGroup gk fun _ => heldGroup f g).groupEntry gk f =
      ⟨f, false, (s.updGroup gk fun _ => heldGroup f g).whereWord gk 0, l.faultWord, tm.num, [], .group gk⟩ := by
    have ht' : (s.updGroup gk fun _ => heldGroup f g).team? (gk / 32) = some tm := ht
    have hl' : (s.updGroup gk fun _ => heldGroup f g).launch? tm.launch = some l := hl
    simp only [State.groupEntry, ht', hl']
  rw [he]
  exact ⟨hf, rfl, by simp⟩

end

theorem dropRecs_eq (s : State) (w : Reader) : s.dropRecs w = { s with recs := (s.dropRecs w).recs } := by
  rw [State.dropRecs]
  split <;> rfl

theorem dropRecs_updGroup (s : State) (gk : Nat) (f : Group → Group) (w : Reader) :
    (s.updGroup gk f).dropRecs w = (s.dropRecs w).updGroup gk f := by
  rw [State.dropRecs, State.dropRecs]
  by_cases h : s.recs.isEmpty = true
  · rw [if_pos (show (s.updGroup gk f).recs.isEmpty = true from h), if_pos h]
  · rw [if_neg (show ¬(s.updGroup gk f).recs.isEmpty = true from h), if_neg h]
    rfl

theorem faultEntryPosted : Claims.FaultEntryPosted := by
  intro s gk g tm l f hg ht hl hf t g' u pt e
  have hrun : t = (u.dropRecs (.group gk)).raiseEntry l.part e := takeFault_eq hg ht hl f
  have he : Held e := groupEntry_held ht hl hf
  generalize hv : u.dropRecs (.group gk) = v at hrun
  have hdrop : v = { u with recs := v.recs } := by rw [← hv]; exact dropRecs_eq u _
  have hpart : v.part l.part = pt := by rw [hdrop]; rfl
  have hkeys : v.keyTag 0 = s.keyTag 0 := by rw [hdrop]; rfl
  have hgroup : ∀ j, t.group? j = u.group? j := by
    intro j
    rw [hrun, State.group?, raiseEntry_groups, hdrop]
    rfl
  refine ⟨⟨?frame, fun j hj => ?others⟩, ?own, fun hw hh hen hroom => ?posted, fun hw hroom => ?waits⟩
  case frame =>
    have hwrote := raiseEntry_ringWrote v l.part e
    rw [← hrun, RingWrote] at hwrote
    have hgroups : t.groups = v.groups := (congrArg State.groups hrun).trans (raiseEntry_groups ..)
    have hbase : v = (s.dropRecs (.group gk)).updGroup gk fun _ => g' := hv ▸ dropRecs_updGroup ..
    refine hwrote.trans ?_
    rw [hgroups, hbase]
    rfl
  case others => rw [hgroup, State.group_updGroup, if_neg (Ne.symm hj)]
  case own =>
    rw [hgroup, State.group_updGroup, if_pos rfl, hg]
    rfl
  case posted =>
    rw [← hpart] at hw hh hen hroom
    have hposts := raiseEntry_posts he hw hh hen hroom
    rw [← hrun] at hposts
    obtain ⟨hbytes, htail, hseq, hout, hnone⟩ := hposts
    rw [hpart] at hw hbytes htail hseq hout hnone
    rw [hkeys] at hbytes
    exact ⟨hbytes, htail, hseq, hout, hnone.trans hw⟩
  case waits =>
    rw [← hpart] at hw hroom
    rw [raiseEntry_waits he hw hroom] at hrun
    rw [hrun, State.part_setPart, if_pos rfl, hpart]
    rw [hpart] at hw
    refine ⟨?_, ?_, rfl, rfl⟩
    · rw [State.setPart_mem, hdrop]
      rfl
    · rw [wantedPart, hw]
      rfl

end Sys2Proof.Laws
end

section
/-! PROOF. O37, refused accesses: loads and stores whose lanes meet faults, absent lines or sleeping banks (R151, R205, R206). -/

namespace Sys2Proof.Laws

open Sys2Proof Sys2Proof.Machine Sys2Proof.Claims

/-! The checks of an address (Table 9-2) need no record of another package. -/

/-- The access needs a record of another package first (R106). -/
def Chk.isAsk : Chk → Bool
  | .ask .. => true
  | _ => false

theorem deviceChk_isAsk (c : Ctx) (s : State) (pa addr : Nat) (acc : Acc) (tailOk : Bool) :
    Chk.isAsk (c.deviceChk s pa addr acc tailOk) = false := by
  rw [Ctx.deviceChk]
  split
  · rfl
  · split
    · rfl
    · split <;> rfl

theorem globalChk_isAsk (c : Ctx) (s : State) (a w : Nat) (acc : Acc) (tailOk : Bool) :
    Chk.isAsk (c.globalChk s a w acc tailOk) = false := by
  rw [Ctx.globalChk]
  split
  · rfl
  · split
    case h_1 => split <;> rfl
    case h_2 => split <;> rfl
    case h_3 => exact deviceChk_isAsk ..
    case h_4 => rfl

theorem privChk_isAsk (c : Ctx) (s : State) (l off w addr : Nat) (acc : Acc) :
    Chk.isAsk (c.privChk s l off w addr acc) = false := by
  rw [Ctx.privChk]
  split
  · rfl
  · split
    · rfl
    · split
      case h_1 => split <;> rfl
      all_goals rfl

theorem ownChk_isAsk (c : Ctx) (off w : Nat) : Chk.isAsk (c.ownChk off w) = false := by
  rw [Ctx.ownChk]
  split <;> rfl

/-- A shared operand's check, for any test `why` of its range: the kernel would run `scratchWhy` itself to compare its matches. -/
theorem sharedOutcome_isAsk (why : Nat → Nat → Nat → Option Nat) (o : Option (Nat × Team)) (off w : Nat) :
    Chk.isAsk (match o with
      | none => .off 3
      | some (u, t) =>
        match why t.scratchBytes off w with
        | some y => .off y
        | none => .ok (.sram u off)) = false := by
  split
  · rfl
  · split <;> rfl

theorem sharedChk_isAsk (c : Ctx) (s : State) (n w : Nat) : Chk.isAsk (c.sharedChk s n w) = false := by
  rw [Ctx.sharedChk]
  exact sharedOutcome_isAsk scratchWhy ..

theorem ite_isAsk {p : Prop} [Decidable p] {x y : Chk} (hx : Chk.isAsk x = false) (hy : Chk.isAsk y = false) :
    Chk.isAsk (if p then x else y) = false := by
  split
  · exact hx
  · exact hy

theorem check_isAsk (c : Ctx) (s : State) (l : Nat) (sp : Sp) (ea : DWord) (w : Nat) (acc : Acc) (cmdOk guarded tailOk : Bool) :
    Chk.isAsk (c.check s l sp ea w acc cmdOk guarded tailOk) = false := by
  cases sp with
  | g => exact ite_isAsk rfl (globalChk_isAsk ..)
  | p => exact privChk_isAsk ..
  | s => exact ite_isAsk rfl (ownChk_isAsk ..)
  | c => exact ite_isAsk rfl (sharedChk_isAsk ..)
  | gen =>
    refine ite_isAsk rfl ?_
    split
    case h_1 => exact ite_isAsk rfl (globalChk_isAsk ..)
    case h_2 => exact ite_isAsk rfl (privChk_isAsk ..)
    case h_3 => exact ite_isAsk rfl (ite_isAsk rfl (ownChk_isAsk ..))
    case h_4 => exact ite_isAsk rfl (sharedChk_isAsk ..)
    case h_5 => exact ite_isAsk rfl rfl
    case h_6 => rfl

/-! What an instruction meets (R205, R206). -/

theorem asks_nil {c : Ctx} {m : Mask} {f : Nat → Chk} (h : ∀ l, m.getLsbD l = true → Chk.isAsk (f l) = false) :
    c.asks m f = [] := by
  rw [Ctx.asks, List.filterMap_eq_nil_iff]
  intro l hl
  rw [Mask.mem_lanes, BitVec.getLsbD_and, Bool.and_eq_true] at hl
  have hf := h l hl.1
  cases hfl : f l with
  | ask pkg d va => rw [hfl] at hf; cases hf
  | ok t => rfl
  | bad row cause aux addr => rfl
  | off n => rfl

theorem minBy_isSome {α : Type} (f : α → Nat) {xs : List α} (h : xs ≠ []) : ∃ x, minBy f xs = some x := by
  cases xs with
  | nil => exact absurd rfl h
  | cons x xs =>
    rw [minBy]
    split
    · exact ⟨_, rfl⟩
    · split <;> exact ⟨_, rfl⟩

/-- A real active lane that meets a row raises a fault for its instruction. -/
theorem pickFault_isSome {c : Ctx} {act : Mask} {f : Nat → Chk} {l row aux addr : Nat} {cause : Cause}
    (hr : c.g.real.getLsbD l = true)
    (ha : act.getLsbD l = true) (hf : f l = .bad row cause aux addr) (write : Bool) : ∃ e, c.pickFault act write f = some e := by
  unfold Ctx.pickFault
  extract_lets bads
  have hbad : (l, row, cause, aux, addr) ∈ bads := by
    refine List.mem_filterMap.mpr ⟨l, ?_, by rw [hf]⟩
    rw [Mask.mem_lanes, Ctx.realOf, BitVec.getLsbD_and, ha, hr]
    rfl
  obtain ⟨x, hx⟩ := minBy_isSome (fun x => x.2.1) (List.ne_nil_of_mem hbad)
  rw [hx]
  exact ⟨_, rfl⟩

section
variable {c : Ctx} {s : State} {act : Mask} {write : Bool} {w : Nat} {f : Nat → Chk}
  (hask : ∀ l, act.getLsbD l = true → Chk.isAsk (f l) = false)

include hask

theorem meet_fault {e : FInfo} (he : c.pickFault act write f = some e) : c.meet s act write w f = .fault e := by
  simp only [Ctx.meet, asks_nil hask, he]

theorem meet_park (he : c.pickFault act write f = none) {p : Park}
    (hp : s.scratchPark ((placesOf act f).filterMap fun q => q.2.scratch.map fun z => (z.1, z.2, w)) = p) (hne : p ≠ .none) :
    c.meet s act write w f = .park p := by
  simp only [Ctx.meet, asks_nil hask, he, hp]

end

/-! Loads (R207). -/

theorem exec_load {h : Hdr} {x : LdArgs} {i : Instr} {sp : Sp}
    (hi : (i = .ld h x ∧ sp = .gen) ∨ (i = .ldG h x ∧ sp = .g) ∨ (i = .ldS h x ∧ sp = .s) ∨ (i = .ldC h x ∧ sp = .c) ∨
      (i = .ldP h x ∧ sp = .p)) (s : State) : exec i s = issueMem i s fun c act s => c.load i sp x act s := by
  rcases hi with ⟨rfl, rfl⟩ | ⟨rfl, rfl⟩ | ⟨rfl, rfl⟩ | ⟨rfl, rfl⟩ | ⟨rfl, rfl⟩ <;> rfl

/-- A load that meets a fault leaves a pending result that faults at its stall point (R151). -/
theorem load_faults {c : Ctx} {s : State} {i : Instr} {sp : Sp} {x : LdArgs} {act : Mask} {e : FInfo}
    (he : c.pickFault act false (fun l => c.check s l sp (c.addr s l sp x.a x.disp) x.ty.bytes .read false false
      (decide (x.ty = .b64) && !x.inv && !x.last)) = some e) : c.load i sp x act s = c.pendFault i x.la act e s := by
  rw [Ctx.load]
  simp only [meet_fault (fun l _ => check_isAsk ..) he]

theorem pendFault_stuck (c : Ctx) (i : Instr) (la : BitVec 4) (act : Mask) (e : FInfo) (s : State) :
    (c.pendFault i la act e s).stuck = s.stuck := by
  rw [Ctx.pendFault, advance_stuck, startPend_stuck]

theorem pendFault_advanced {c : Ctx} {i : Instr} {la : BitVec 4} {act : Mask} {e : FInfo} {s : State} {g : Group}
    (hg : s.group? c.gk = some g) :
    Advanced c i (c.startPend i ((Mask.lanes act).map fun l => PLane.bad l (c.window la) e) s) (c.pendFault i la act e s) := by
  obtain ⟨h, hh⟩ := startPend_group c i ((Mask.lanes act).map fun l => PLane.bad l (c.window la) e) hg
  exact Ctx.advance_advanced c i _ h hh

/-! Stores (R208). -/

theorem exec_store {h : Hdr} {y : StArgs} {gsl : BitVec 4} {i : Instr} {sp : Sp}
    (hi : (i = .st h y gsl ∧ sp = .gen) ∨ (gsl = 0 ∧ ((i = .stG h y ∧ sp = .g) ∨ (i = .stS h y ∧ sp = .s) ∨
      (i = .stC h y ∧ sp = .c) ∨ (i = .stP h y ∧ sp = .p)))) (s : State) :
    exec i s = issueMem i s fun c act s => c.store i sp y gsl act s := by
  rcases hi with ⟨rfl, rfl⟩ | ⟨rfl, ⟨rfl, rfl⟩ | ⟨rfl, rfl⟩ | ⟨rfl, rfl⟩ | ⟨rfl, rfl⟩⟩ <;> rfl

theorem raiseEntry_stuck (s : State) (p : Nat) (e : FEntry) : (s.raiseEntry p e).stuck = s.stuck := by
  have h := raiseEntry_ringWrote s p e
  unfold RingWrote at h
  rw [h]

theorem dropRecs_stuck (s : State) (w : Reader) : (s.dropRecs w).stuck = s.stuck := by
  rw [dropRecs_eq]

theorem takeFault_stuck (s : State) (gk : Nat) (f : FInfo) : (s.takeFault gk f).stuck = s.stuck := by
  rw [State.takeFault]
  split
  · rfl
  · split
    · rfl
    · rw [raiseEntry_stuck, dropRecs_stuck]
      rfl

theorem parkFor_stuck (s : State) (gk : Nat) (p : Park) : (s.parkFor gk p).stuck = s.stuck := by
  cases p with
  | wake bs =>
    obtain ⟨hrest, -⟩ := startWake_woken s bs
    show (s.startWake bs).stuck = s.stuck
    rw [hrest]
  | _ => rfl

section
variable {c : Ctx} {s : State} {i : Instr} {sp : Sp} {y : StArgs} {gsl : BitVec 4} {act : Mask}
  (hask : ∀ l, (c.realOf act).getLsbD l = true → Chk.isAsk (c.storeChk s sp y gsl l) = false)

include hask

theorem store_faults {e : FInfo} (he : c.pickFault (c.realOf act) true (fun l => c.storeChk s sp y gsl l) = some e) :
    c.store i sp y gsl act s = s.takeFault c.gk e := by
  rw [Ctx.store]
  simp only [meet_fault hask he]

theorem store_parks (he : c.pickFault (c.realOf act) true (fun l => c.storeChk s sp y gsl l) = none) {p : Park}
    (hp : s.scratchPark ((placesOf (c.realOf act) fun l => c.storeChk s sp y gsl l).filterMap fun q =>
      q.2.scratch.map fun z => (z.1, z.2, y.ty.bytes)) = p) (hne : p ≠ .none) :
    c.store i sp y gsl act s = s.parkFor c.gk p := by
  rw [Ctx.store]
  simp only [meet_park hask he hp hne]

end

theorem accessFaultResult : Claims.AccessFaultResult := by
  intro h x y gsl i sp s c
  refine ⟨fun hform hi hs => ⟨fun e he => ?load, fun l row cause aux addr hr ha hf => pickFault_isSome hr ha hf _⟩,
    fun hform hi hs => ?store⟩
  case load =>
    refine ⟨_, (exec_load hform s).trans (issueMem_next hi ?_), ?_⟩
    · rw [load_faults he, pendFault_stuck, hs]
    · rw [load_faults he]
      exact pendFault_advanced (State.ctx_group hi.1)
  case store =>
    intro f real hask
    have hask' : ∀ l, (c.realOf (c.active i s)).getLsbD l = true → Chk.isAsk (c.storeChk s sp y gsl l) = false := by
      intro l hl
      cases hf : c.storeChk s sp y gsl l with
      | ask pkg d va => exact absurd hf (hask l pkg d va hl)
      | ok t => rfl
      | bad row cause aux addr => rfl
      | off n => rfl
    refine ⟨fun e he => ?_, fun he p hp hne => ?_⟩
    · have hstore := store_faults (i := i) hask' he
      rw [exec_store hform, issueMem_next hi (by rw [hstore, takeFault_stuck, hs]), hstore]
    · have hstore := store_parks (i := i) hask' he hp hne
      rw [exec_store hform, issueMem_next hi (by rw [hstore, parkFor_stuck, hs]), hstore]

/-- Settles O37: one entry is raised for a fault or trap (`takeFault_eq`, `raiseEntry_posts`, `raiseEntry_waits`), and an access
that meets one goes no further (`load_faults`, `store_faults`, `store_parks`). -/
theorem faultEntryResult : Obligations.FaultEntryResult := by
  unfold Obligations.FaultEntryResult
  exact ⟨faultEntryPosted, accessFaultResult⟩

end Sys2Proof.Laws
end

section
/-! PROOF. O14: a pop raises %csp of the lane that it finds in the state, whatever the path's context says (R172). -/

namespace Sys2Proof.Laws

open Sys2Proof Sys2Proof.Machine Sys2Proof.Claims

/-- The path of all 32 lanes, each with an empty return stack; pages map the space of the stacks to the second 512 MiB (R57). -/
def emptyStack : State :=
  let s := State.reset.withFetchWord 64 0
  { s with
    mem := placeBytes (placeBytes s.mem 0x30000 (natBytes 8 (2 ^ 48 + 0x2000000F))) 0x18000 (natBytes 8 0x30001)
    cur := some wholePath }

/-- The same with one return address on each stack. -/
def oneOnStack : State := emptyStack.updGroup 0 fun g => g.updLanes fun _ ln => { ln with csp := ln.csp - 8 }

/-- %csp of lane 0 of group 0. -/
def cspOf (s : State) : Option DWord := (s.group? 0).map fun g => (g.lane 0).csp

/-- The return address of lane 0 lies in memory, and its pop where the lane's stack is empty leaves %csp above the stack. -/
abbrev popsElsewhere (c : Ctx) : Prop :=
  c.gk = 0 ∧ (c.g.lane 0).csp = 0xF00000000001FFF8 ∧
    c.l.k.priv = 131072 ∧
    oneOnStack.translate c.part c.t.core .read (Config.privRegion + 128 * (0x1FFF8 / 4)) = .mem 0x203FFF00 2049 ∧
    cspOf (c.pop oneOnStack emptyStack 0) = some 0xF000000000020008

/-- Refutes O14: its clause on a pop has %csp rise by 8 from where the context's lane has it, in any state with the context's
group. Popped in `emptyStack`, a lane whose context comes from `oneOnStack` has %csp rise from the value in `emptyStack`. No
hypothesis of the clause has the two agree. -/
theorem not_branchAndCallResult : ¬ Obligations.BranchAndCallResult := by
  unfold Obligations.BranchAndCallResult
  rintro ⟨-, -, -, hslot⟩
  obtain ⟨c, -, hgk, hcsp, hpriv, hxl, hpop⟩ :=
    exists_ctx_of_any (s := oneOnStack) (P := popsElsewhere) (by decide +kernel)
  have hin : stackSlot c.l.k.priv 0xF00000000001FFF8 := by unfold stackSlot; rw [hpriv]; decide
  obtain ⟨g, hg, hlen⟩ : ∃ g, emptyStack.group? 0 = some g ∧ 0 < g.lanes.length := ⟨_, rfl, by decide +kernel⟩
  obtain ⟨-, hret⟩ := hslot c oneOnStack emptyStack 0 0 0x203FFF00 2049 g (hgk ▸ hg) hlen (by decide +kernel)
  rw [hcsp, hgk] at hret
  obtain ⟨-, ⟨h, hh, hup⟩, -⟩ := hret hin hxl
  rw [cspOf, hh, Option.map_some, hup] at hpop
  exact absurd hpop (by decide)

end Sys2Proof.Laws
end

section
/-! PROOF. O36: the counterexample to O33, where a `regs.grow` is not granted though its banks are free, is one here (R42). -/

namespace Sys2Proof.Laws

open Sys2Proof Sys2Proof.Machine Sys2Proof.Claims

/-- Register banks of group 0 in the state that an instruction answers. -/
def banksAfter : Out → Option Nat
  | .next t => banksOf t 0
  | _ => none

theorem banksAfter_growFour : banksAfter (exec growFour outOfOrder) = some 4 := by decide +kernel

/-- Refutes O36: in `outOfOrder` nothing waits for banks and four are free, but the group's own request, listed twice, takes
them: the `regs.grow` parks with the four banks that it had (`banksAfter_growFour`). -/
theorem not_controlFormsComplete : ¬ Obligations.ControlFormsComplete := by
  unfold Obligations.ControlFormsComplete
  intro hforms
  obtain ⟨c, hc, hgk, hcore, hrej, hpath, hact, hnb, hres, hend⟩ :=
    exists_ctx_of_any (s := outOfOrder) (P := mayGrow) (by decide +kernel)
  obtain ⟨-, -, -, -, -, -, -, -, -, -, -, -, hgrow, -⟩ :=
    hforms ⟨0, false, false⟩ 0 0 1 4 0 .wr 0 .mx outOfOrder c
  rw [hgk, hcore, hnb] at hgrow
  obtain ⟨t, he, g, hg, ⟨-, hbanks⟩, -⟩ := hgrow ⟨⟨hc, hrej⟩, by decide +kernel, hpath, hact⟩ (by decide) hres hend
    (by decide +kernel) (by decide +kernel) (fun hH => absurd hH (by decide +kernel))
  have hfour := banksAfter_growFour
  rw [show exec growFour outOfOrder = .next t from he, banksAfter, banksOf, ← hgk, hg, Option.map_some, hbanks] at hfour
  exact absurd hfour (by decide)

end Sys2Proof.Laws
end

section
/-! PROOF. O1 and O3: integer arithmetic and logic, selection, moves and addresses, and the immediate forms (R158-R163, R166). -/

namespace Sys2Proof.Laws

open Sys2Proof Sys2Proof.Machine Sys2Proof.Claims

/-! Numbers of a type, as the statements write them (R112, R160). -/

/-- The integer types of a register and of a pair. -/
def FullTy (ty : Ty) : Prop := (ty = .s32 ∨ ty = .z32) ∨ (ty = .s64 ∨ ty = .z64)

theorem intOf_eq_num {n : Nat} {ty : Ty} (hty : FullTy ty) (w : BitVec n) : intOf ty w = num ty w := by
  rcases hty with (rfl | rfl) | (rfl | rfl) <;> rfl

theorem intMin_eq_least {ty : Ty} (hty : FullTy ty) : Ty.intMin ty = least ty := by
  rcases hty with (rfl | rfl) | (rfl | rfl) <;> rfl

theorem intMax_eq_greatest {ty : Ty} (hty : FullTy ty) : Ty.intMax ty = greatest ty := by
  rcases hty with (rfl | rfl) | (rfl | rfl) <;> rfl

theorem least_le_greatest (ty : Ty) : least ty ≤ greatest ty := by
  cases ty <;> decide

theorem clampTy_eq {ty : Ty} (hty : FullTy ty) (x : Int) : clampTy ty x = max (least ty) (min x (greatest ty)) := by
  have hle := least_le_greatest ty
  rw [clampTy, intMin_eq_least hty, intMax_eq_greatest hty]
  split_ifs <;> omega

theorem aluRes_eq_fit {ty : Ty} (hty : FullTy ty) (sat : Bool) (x : Int) : aluRes ty sat x = fit 32 ty sat x := by
  rw [aluRes, fit, clampTy_eq hty]

theorem aluRes64_eq_fit {ty : Ty} (hty : FullTy ty) (sat : Bool) (x : Int) : aluRes64 ty sat x = fit 64 ty sat x := by
  rw [aluRes64, fit, clampTy_eq hty]

theorem minW_eq {ty : Ty} (hty : FullTy ty) (a b : Word) : minW ty a b = if num ty a ≤ num ty b then a else b := by
  rw [minW, intOf_eq_num hty, intOf_eq_num hty]

theorem maxW_eq {ty : Ty} (hty : FullTy ty) (a b : Word) : maxW ty a b = if num ty a ≤ num ty b then b else a := by
  rw [maxW, intOf_eq_num hty, intOf_eq_num hty]

/-! Instructions that write one register, one pair or one predicate of each active lane, by another formula than the model's. -/

theorem writes_v {i : Instr} {d : Reg} {f g : State → Ctx → Nat → Word}
    (he : ∀ s, exec i s = laneOp i s fun c l => .v d (g s c l)) (hf : ∀ s c l, g s c l = f s c l) :
    Writes i fun s c l => .v d (f s c l) :=
  laneOp_writes (fun s c l => .v d (g s c l)) he fun s c _ l => by rw [hf]

theorem writes_pair {i : Instr} {d : Reg} {f g : State → Ctx → Nat → DWord}
    (he : ∀ s, exec i s = laneOp i s fun c l => .pair d (g s c l)) (hf : ∀ s c l, g s c l = f s c l) :
    Writes i fun s c l => .pair d (f s c l) :=
  laneOp_writes (fun s c l => .pair d (g s c l)) he fun s c _ l => by rw [hf]

theorem writes_p {i : Instr} {d : Reg} {f g : State → Ctx → Nat → Bool}
    (he : ∀ s, exec i s = laneOp i s fun c l => .p d (g s c l)) (hf : ∀ s c l, g s c l = f s c l) :
    Writes i fun s c l => .p d (f s c l) :=
  laneOp_writes (fun s c l => .p d (g s c l)) he fun s c _ l => by rw [hf]

/-- The model's formula is the statement's own. -/
theorem writes_same {i : Instr} {f : State → Ctx → Nat → Wr} (he : ∀ s, exec i s = laneOp i s (f s)) : Writes i f :=
  laneOp_writes f he fun _ _ _ _ => rfl

/-! R160 to R163. -/

/-- Bits 63:32 of an exact product are its quotient by 2^32, rounded down. -/
theorem hiW_ofInt (x : Int) : hiW (BitVec.ofInt 64 x) = BitVec.ofInt 32 (x / 4294967296) := by
  apply BitVec.eq_of_toNat_eq
  rw [hiW, BitVec.extractLsb'_toNat, BitVec.toNat_ofInt, BitVec.toNat_ofInt, Nat.shiftRight_eq_div_pow]
  omega

theorem integerOperationsResult : IntegerOperationsResult := by
  intro h ty sat d a b x y hty
  have hfull : FullTy ty := .inl hty
  have hnum := fun w : Word => intOf_eq_num hfull w
  have hfit := aluRes_eq_fit hfull sat
  have hs32 := aluRes_eq_fit (.inl (.inl rfl)) sat
  refine ⟨writes_v (fun _ => rfl) ?add, writes_v (fun _ => rfl) ?sub, writes_v (fun _ => rfl) ?mul, writes_v (fun _ => rfl) ?hi,
    writes_v (fun _ => rfl) ?mad, writes_v (fun _ => rfl) fun _ _ _ => hs32 _, writes_v (fun _ => rfl) ?abs,
    writes_v (fun _ => rfl) fun _ _ _ => minW_eq hfull _ _, writes_v (fun _ => rfl) fun _ _ _ => maxW_eq hfull _ _,
    writes_same fun _ => rfl, writes_same fun _ => rfl, writes_same fun _ => rfl, writes_same fun _ => rfl, writes_same fun _ => rfl⟩
  case hi => intro s c l; rw [hiW_ofInt, hnum, hnum]
  case abs => intro s c l; rw [hs32, Int.natCast_natAbs]
  all_goals intro s c l; rw [hfit]; simp only [hnum]

theorem pairArithmeticResult : PairArithmeticResult := by
  intro h ty sat d a b x hty
  have hfull : FullTy ty := .inr hty
  have hfit := aluRes64_eq_fit hfull sat
  refine ⟨writes_pair (fun _ => rfl) ?_, writes_pair (fun _ => rfl) ?_, writes_pair (fun _ => rfl) ?_⟩ <;>
    (intro s c l; rw [hfit]; simp only [intOf_eq_num hfull])

/-- The carry of a 33-bit sum is its bit 32. -/
theorem carrySum_carry (a b : Word) (cin : Bool) : (carrySum a b cin / 2 ^ 32 % 2 == 1) = decide (4294967296 ≤ carrySum a b cin) := by
  have hlt : carrySum a b cin < 2 ^ 33 := by
    have hcin := cin.toNat_le
    unfold carrySum
    omega
  rw [Bool.eq_iff_iff, beq_iff_eq, decide_eq_true_iff]
  omega

theorem addWithCarryResult : AddWithCarryResult := by
  intro h first d a b x
  refine ⟨laneOp_writes _ (fun _ => rfl) fun s c _ l => ?_, fun _ _ _ _ => rfl⟩
  have hsum : carrySum (c.v s l a) (c.v s l b) (!first && c.p s l x) =
      (c.v s l a).toNat + (c.v s l b).toNat + if first = false ∧ c.p s l x = true then 1 else 0 := by
    cases first <;> cases hp : c.p s l x <;> simp [carrySum]
  simp only [← hsum, ← carrySum_carry]
  rfl

theorem threeInputLogicResult : ThreeInputLogicResult := fun _ _ _ _ _ _ => writes_same fun _ => rfl

/-- Settles O1: each form is a `laneOp`, whose result is the exact one wrapped or clamped (`aluRes_eq_fit`, `aluRes64_eq_fit`) with
its operands read as numbers (`intOf_eq_num`). -/
theorem integerArithmeticResult : Obligations.IntegerArithmeticResult :=
  ⟨integerOperationsResult, pairArithmeticResult, addWithCarryResult, threeInputLogicResult⟩

/-! R166 and R159. -/

theorem hiW_eq_shift (x : DWord) : hiW x = (x >>> 32).setWidth 32 := by
  apply BitVec.eq_of_toNat_eq
  simp [hiW]

theorem loW_eq_setWidth (x : DWord) : loW x = x.setWidth 32 := by
  apply BitVec.eq_of_toNat_eq
  simp [loW]

theorem moveResult : MoveResult := by
  intro h d a b k y imm imm64
  refine ⟨writes_same fun _ => rfl, writes_same fun _ => rfl, writes_same fun _ => rfl, writes_same fun _ => rfl,
    writes_same fun _ => rfl, laneOp_writes _ (fun _ => rfl) fun _ _ _ _ => ?_⟩
  rw [Wr.pair, hiW_eq_shift, loW_eq_setWidth]

theorem immediateFormsResult : ImmediateFormsResult := by
  intro h ty sat d a x imm hty
  have hfull : FullTy ty := .inl hty
  have hnum := fun w : Word => intOf_eq_num hfull w
  have hfit := aluRes_eq_fit hfull sat
  refine ⟨writes_v (fun _ => rfl) ?_, writes_v (fun _ => rfl) ?_, writes_v (fun _ => rfl) ?_, writes_v (fun _ => rfl) ?_,
    writes_v (fun _ => rfl) fun _ _ _ => minW_eq hfull _ _, writes_v (fun _ => rfl) fun _ _ _ => maxW_eq hfull _ _,
    writes_same fun _ => rfl, writes_same fun _ => rfl, writes_same fun _ => rfl, writes_same fun _ => rfl⟩ <;>
    (intro s c l; rw [hfit]; simp only [hnum])

/-- Settles O3: a move writes what it names, and an immediate form is its group 0 form over the immediate. -/
theorem moveAndImmediateResult : Obligations.MoveAndImmediateResult := ⟨moveResult, immediateFormsResult⟩

end Sys2Proof.Laws
end

section
/-! PROOF. O2: shifts, rotates, counts of bits and bit fields (R164, R165). -/

namespace Sys2Proof.Laws

open Sys2Proof Sys2Proof.Machine Sys2Proof.Claims

/-! Arithmetic shifts (R164). -/

/-- From the width on, an arithmetic shift leaves copies of the sign. -/
theorem sraW_eq {n : Nat} (hn : 0 < n) (a : BitVec n) (k : Word) :
    sraW a k = if k.toNat < n then a.sshiftRight k.toNat else if a.getLsbD (n - 1) then BitVec.allOnes n else 0 := by
  rw [sraW, Nat.min_eq_min]
  split_ifs with hk hs
  · rw [Nat.min_eq_left (by omega)]
  all_goals
    rw [Nat.min_eq_right (by omega)]
    apply BitVec.eq_of_getLsbD_eq
    intro i hi
    have hbit : (if n - 1 + i < n then a.getLsbD (n - 1 + i) else a.msb) = a.getLsbD (n - 1) := by
      split_ifs
      · rw [show n - 1 + i = n - 1 by omega]
      · exact BitVec.msb_eq_getLsbD_last a
    rw [BitVec.getLsbD_sshiftRight, hbit]
    simp [hs, hi]

/-! Counts and reversal (R165). -/

theorem takeWhile_span_length {p : Nat → Bool} {a m n : Nat} (hm : m < n) (hp : ∀ i, i < m → p (a + i) = true)
    (hq : p (a + m) = false) : ((span a n).takeWhile p).length = m := by
  induction m generalizing a n with
  | zero =>
    obtain ⟨n, rfl⟩ := Nat.exists_eq_add_one_of_ne_zero hm.ne'
    rw [span, List.takeWhile_cons_of_neg (by simpa using hq), List.length_nil]
  | succ m ih =>
    obtain ⟨n, rfl⟩ := Nat.exists_eq_add_one_of_ne_zero (Nat.ne_zero_of_lt hm)
    rw [span, List.takeWhile_cons_of_pos (show p a = true from hp 0 (Nat.succ_pos m)), List.length_cons,
      ih (Nat.lt_of_succ_lt_succ hm) (fun i hi => ?zeros) ?bit]
    case zeros =>
      rw [Nat.add_right_comm, Nat.add_assoc]
      exact hp (i + 1) (Nat.succ_lt_succ hi)
    case bit =>
      rw [Nat.add_right_comm, Nat.add_assoc]
      exact hq

/-- The run of zeros from bit 31 down ends at the highest set bit. -/
theorem clzW_eq (a : Word) : clzW a = leadingZeros a := by
  unfold clzW leadingZeros
  split_ifs with h0
  · subst h0
    rfl
  · have hne : a.toNat ≠ 0 := fun h => h0 (BitVec.eq_of_toNat_eq h)
    have htop : Nat.log2 a.toNat < 32 := (Nat.log2_lt hne).mpr a.isLt
    symm
    apply takeWhile_span_length (by omega)
    · intro i hi
      have hbelow : a.toNat < 2 ^ (31 - (0 + i)) := (Nat.log2_lt hne).mp (by omega)
      rw [BitVec.getLsbD, Nat.testBit_lt_two_pow hbelow, Bool.not_false]
    · rw [show 31 - (0 + (31 - Nat.log2 a.toNat)) = Nat.log2 a.toNat by omega, BitVec.getLsbD, Nat.testBit_log2 hne,
        Bool.not_true]

theorem reverse_eq_bits (a : Word) : a.reverse = bits fun i => a.getLsbD (31 - i) := by
  apply BitVec.eq_of_getLsbD_eq
  intro i hi
  rw [bits, Mask.ofPred_getLsbD, BitVec.getLsbD_reverse, BitVec.getMsbD]

/-! Bit fields (R165). -/

/-- The field of `n` bits from bit `p` on. -/
theorem field_toNat (a : Word) (p : Nat) {n : Nat} (hn : n ≤ 32) :
    ((a >>> p) &&& BitVec.ofNat 32 (2 ^ n - 1)).toNat = a.toNat / 2 ^ p % 2 ^ n := by
  have hpow : 2 ^ n ≤ 2 ^ 32 := Nat.pow_le_pow_right (by decide) hn
  have hpos := Nat.two_pow_pos n
  rw [BitVec.toNat_and, BitVec.toNat_ushiftRight, BitVec.toNat_ofNat, Nat.mod_eq_of_lt (by omega), Nat.shiftRight_eq_div_pow,
    Nat.and_two_pow_sub_one_eq_mod]

/-- Ones above a field of `n` bits extend its sign. -/
theorem signExtended_eq {f : Word} {n : Nat} (hn : n ≤ 32) (hf : f.toNat < 2 ^ n) :
    wordOf (f.toNat + (2 ^ 32 - 2 ^ n)) = f ||| ~~~BitVec.ofNat 32 (2 ^ n - 1) := by
  have hpow : 2 ^ n ≤ 2 ^ 32 := Nat.pow_le_pow_right (by decide) hn
  have hones : 2 ^ 32 - 2 ^ n = 2 ^ n * (2 ^ (32 - n) - 1) := by
    rw [Nat.mul_sub, ← Nat.pow_add, Nat.add_sub_cancel' hn, Nat.mul_one]
  have hinv : (~~~BitVec.ofNat 32 (2 ^ n - 1)).toNat = 2 ^ 32 - 2 ^ n := by
    rw [BitVec.toNat_not, BitVec.toNat_ofNat, Nat.mod_eq_of_lt (by omega)]
    omega
  apply BitVec.eq_of_toNat_eq
  rw [wordOf, BitVec.toNat_ofNat, Nat.mod_eq_of_lt (by omega), BitVec.toNat_or, hinv, hones, Nat.or_comm,
    ← Nat.two_pow_add_eq_or_of_lt hf, Nat.add_comm]

/-- The highest bit of a field. -/
theorem topBit_eq {f : Word} {n : Nat} (hn : n ≠ 0) (hf : f.toNat < 2 ^ n) :
    (f.toNat / 2 ^ (n - 1) == 1) = f.getLsbD (n - 1) := by
  have hlt : f.toNat / 2 ^ (n - 1) < 2 := by
    rw [Nat.div_lt_iff_lt_mul (Nat.two_pow_pos _), ← Nat.pow_succ', Nat.succ_eq_add_one, Nat.sub_add_cancel (by omega)]
    exact hf
  rw [BitVec.getLsbD, Nat.testBit_eq_decide_div_mod_eq, Nat.mod_eq_of_lt hlt]
  rfl

theorem bfxW_eq {ty : Ty} (hty : ty = .s32 ∨ ty = .z32) (a : Word) (pos len : Nat) :
    bfxW (Ty.signed ty) a pos len = extracted ty a pos len := by
  have hsigned : Ty.signed ty = decide (ty = .s32) := by rcases hty with rfl | rfl <;> rfl
  have hn : min len (32 - min pos 32) ≤ 32 := by omega
  simp only [bfxW, extracted, Nat.min_eq_min]
  generalize min pos 32 = p at *
  generalize min len (32 - p) = n at *
  have hfield := field_toNat a p hn
  generalize (a >>> p) &&& BitVec.ofNat 32 (2 ^ n - 1) = f at *
  have hf : f.toNat < 2 ^ n := hfield ▸ Nat.mod_lt _ (Nat.two_pow_pos n)
  by_cases h0 : n = 0
  · rw [if_pos h0, if_pos h0]
  · rw [if_neg h0, if_neg h0, ← hfield, hsigned, topBit_eq h0 hf, signExtended_eq hn hf]
    simp only [Bool.and_eq_true, decide_eq_true_eq, wordOf, BitVec.ofNat_toNat, BitVec.setWidth_eq]

theorem bfiW_eq (a b c : Word) : bfiW a b c = inserted a b c := by
  have hmask : ∀ n p : Nat, wordOf ((2 ^ n - 1) * 2 ^ p) = BitVec.ofNat 32 (2 ^ n - 1) <<< p := by
    intro n p
    apply BitVec.eq_of_toNat_eq
    rw [wordOf, BitVec.toNat_shiftLeft, BitVec.toNat_ofNat, BitVec.toNat_ofNat, Nat.shiftLeft_eq, Nat.mod_mul_mod]
  simp only [bfiW, inserted, Nat.min_eq_min, hmask]

/-! The instructions. -/

theorem shiftResult : ShiftResult := by
  intro h d a y
  refine ⟨writes_same fun _ => rfl, writes_same fun _ => rfl, writes_v (fun _ => rfl) ?_, writes_same fun _ => rfl,
    writes_same fun _ => rfl, writes_pair (fun _ => rfl) ?_, writes_same fun _ => rfl⟩
  · exact fun s c l => sraW_eq (by decide) _ _
  · exact fun s c l => sraW_eq (by decide) _ _

theorem bitFieldResult : BitFieldResult := by
  intro h ty d a b x hty
  exact ⟨writes_v (fun _ => rfl) fun _ _ _ => congrArg _ (clzW_eq _), writes_same fun _ => rfl,
    writes_v (fun _ => rfl) fun _ _ _ => reverse_eq_bits _, writes_v (fun _ => rfl) fun _ _ _ => bfxW_eq hty _ _ _,
    writes_v (fun _ => rfl) fun _ _ _ => bfxW_eq hty _ _ _, writes_v (fun _ => rfl) fun _ _ _ => bfiW_eq _ _ _⟩

/-- Settles O2: the model's shifts, counts and fields are those of the statement (`sraW_eq`, `clzW_eq`, `reverse_eq_bits`,
`bfxW_eq`, `bfiW_eq`). -/
theorem shiftAndBitFieldResult : Obligations.ShiftAndBitFieldResult := ⟨shiftResult, bitFieldResult⟩

end Sys2Proof.Laws
end

section
/-! PROOF. O4: integer comparison, predicate logic, and runs of predicates (R167-R169). -/

namespace Sys2Proof.Laws

open Sys2Proof Sys2Proof.Machine Sys2Proof.Claims

theorem iccHolds_eq_ordered (cc : ICc) (a b : Int) : iccHolds cc a b = ordered cc a b := by
  cases cc with
  | ne => exact (decide_not (p := a = b)).symm
  | _ => rfl

/-- A 32-bit operand of `icmp`. -/
theorem cmpB_word {ty : Ty} (hty : ty = .s32 ∨ ty = .z32) (c : Ctx) (s : State) (l : Nat) (b : SrcB) :
    c.cmpB s l ty b = num ty (c.src s l b) := by
  have hregs : Ty.regs ty ≠ 2 := by rcases hty with rfl | rfl <;> decide
  cases b with
  | reg r => rw [Ctx.cmpB, if_neg hregs, intOf_eq_num (.inl hty), Ctx.src]
  | imm k => rw [Ctx.cmpB, intOf_eq_num (.inl hty)]

/-- A pair as an operand of `icmp`. -/
theorem cmpB_pair {ty : Ty} (hty : ty = .s64 ∨ ty = .z64) (c : Ctx) (s : State) (l : Nat) (r : Reg) :
    c.cmpB s l ty (.reg r) = num ty (c.pair s l r) := by
  have hregs : Ty.regs ty = 2 := by rcases hty with rfl | rfl <;> decide
  rw [Ctx.cmpB, if_pos hregs, intOf_eq_num (.inr hty)]

theorem integerCompareResult : IntegerCompareResult := by
  intro h cc ty d a b y
  refine ⟨fun hty => writes_p (fun _ => rfl) fun s c l => ?_, fun hty => writes_p (fun _ => rfl) fun s c l => ?_⟩
  · rw [iccHolds_eq_ordered, cmpB_word hty, cmpB_word hty]
    rfl
  · rw [iccHolds_eq_ordered, cmpB_pair hty, cmpB_pair hty]

theorem predicateResult : PredicateResult := by
  intro h na nb d a b n
  refine ⟨writes_p (fun _ => rfl) ?_, writes_p (fun _ => rfl) ?_, writes_p (fun _ => rfl) ?_, writes_p (fun _ => rfl) ?_,
    writes_p (fun _ => rfl) ?_, writes_same fun _ => rfl, writes_same fun _ => rfl⟩ <;>
    (intro s c l; simp only [Bool.bne_eq_xor])

/-- Settles O4: `icmp` compares its operands as numbers of their width (`cmpB_word`, `cmpB_pair`), and the predicate forms are the
model's own. -/
theorem compareAndPredicateResult : Obligations.CompareAndPredicateResult := ⟨integerCompareResult, predicateResult⟩

end Sys2Proof.Laws
end

section
/-! PROOF. O5 and O6: exchange, votes, matches, elections and reductions (R177-R180). -/

namespace Sys2Proof.Laws

open Sys2Proof Sys2Proof.Machine Sys2Proof.Claims

/-- Settles O5: each form reads the lane that Table 7-8 names, which `qbcast` counts from its quad. -/
theorem exchangeResult : Obligations.ExchangeResult := by
  intro h d a k y
  refine ⟨writes_same fun _ => rfl, writes_same fun _ => rfl, writes_same fun _ => rfl, writes_v (fun _ => rfl) fun s c l => ?_,
    writes_same fun _ => rfl, writes_same fun _ => rfl, writes_same fun _ => rfl, writes_same fun _ => rfl, ?_⟩
  · rw [Nat.mul_comm 4]
  · intro s c src r hview
    simp only [Ctx.exch, hview, List.isEmpty_nil, if_true]

/-! Votes, matches and elections (R179). -/

theorem Mask.lowest_eq_some_iff {m : Mask} {l : Nat} :
    Mask.lowest m = some l ↔ m.getLsbD l = true ∧ ∀ i, i < l → m.getLsbD i = false := by
  rw [Mask.lowest, lanes32, span_eq_range', List.find?_range'_eq_some]
  constructor
  · rintro ⟨hl, -, hbelow⟩
    exact ⟨hl, fun i hi => by simpa using hbelow i (Nat.zero_le i) hi⟩
  · rintro ⟨hl, hbelow⟩
    have h32 : l < 32 := BitVec.lt_of_getLsbD hl
    exact ⟨hl, by simpa using h32, fun i _ hi => by simp [hbelow i hi]⟩

theorem lowest_beq_some (m : Mask) (l : Nat) :
    (Mask.lowest m == some l) = (m.getLsbD l && (span 0 l).all fun i => !m.getLsbD i) := by
  rw [Bool.eq_iff_iff, beq_iff_eq, Mask.lowest_eq_some_iff]
  simp

theorem voteResult : VoteResult := by
  intro h ty d a
  refine ⟨voteOp_writes (fun s c con _ => .p d ((Mask.lanes con).any fun l => c.p s l a)) (fun _ => rfl) fun _ _ _ _ => rfl,
    voteOp_writes (fun s c con _ => .p d ((Mask.lanes con).all fun l => c.p s l a)) (fun _ => rfl) fun _ _ _ _ => rfl,
    voteOp_writes (fun s c con _ => .v d (bits fun l => con.getLsbD l && c.p s l a)) (fun _ => rfl) fun _ _ _ _ => rfl,
    voteOp_writes (fun s c con l => .v d (bits fun i => con.getLsbD i && (c.data s i a ty == c.data s l a ty)))
      (fun _ => rfl) fun _ _ _ _ => rfl,
    voteOp_writes (fun _ _ con l => .p d (Mask.lowest con == some l)) (fun _ => rfl) fun _ _ _ l => ?_⟩
  rw [lowest_beq_some]
  rfl

/-! Reductions (R180, Table 7-10). -/

/-- The types of a reduction: 32-bit integers, and bits for the three bitwise operations. -/
def RedTy (op : RedOp) (ty : Ty) : Prop := ty = .s32 ∨ ty = .z32 ∨ (ty = .b32 ∧ (op = .and ∨ op = .or ∨ op = .xor))

theorem redTy_full {op : RedOp} {ty : Ty} (hty : RedTy op ty) (hop : op = .min ∨ op = .max) : FullTy ty := by
  rcases hty with h | h | ⟨-, h⟩
  · exact .inl (.inl h)
  · exact .inl (.inr h)
  · rcases hop with rfl | rfl <;> simp at h

theorem redOp_eq {op : RedOp} {ty : Ty} (hty : RedTy op ty) (a b : Word) : redOp op ty a b = opOf op ty a b := by
  cases op with
  | min => exact minW_eq (redTy_full hty (.inl rfl)) a b
  | max => exact maxW_eq (redTy_full hty (.inr rfl)) a b
  | _ => rfl

theorem redId_eq {op : RedOp} {ty : Ty} (hty : RedTy op ty) : redId op ty = unitOf op ty := by
  cases op with
  | min => rw [redId, unitOf, intMax_eq_greatest (redTy_full hty (.inl rfl))]
  | max => rw [redId, unitOf, intMin_eq_least (redTy_full hty (.inr rfl))]
  | _ => rfl

theorem reduce_eq_combined {op : RedOp} {ty : Ty} (hty : RedTy op ty) (c : Ctx) (s : State) (a : Reg) (ls : List Nat) :
    c.reduce s op ty a ls = combined op ty (fun l => c.v s l a) ls := by
  simp only [Ctx.reduce, combined, redOp_eq hty, redId_eq hty]

/-- The lanes that a scan combines, with or without the lane itself. -/
theorem inPrefix_eq (excl : Bool) (l i : Nat) :
    (decide (i < l) || (!excl && i == l)) = if excl then decide (i < l) else decide (i ≤ l) := by
  cases excl <;> simp [Nat.le_iff_lt_or_eq, beq_eq_decide]

theorem reductionResult : ReductionResult := by
  intro h op excl ty d a hty
  refine ⟨voteOp_writes (fun s c con _ => .v d (c.reduce s op ty a (Mask.lanes con))) (fun _ => rfl) fun s c _ l => ?_,
    voteOp_writes (fun s c con l => .v d (c.reduce s op ty a ((Mask.lanes con).filter fun i => decide (i < l) || (!excl && i == l))))
      (fun _ => rfl) fun s c _ l => ?_⟩
  · rw [reduce_eq_combined hty]
    rfl
  · simp only [reduce_eq_combined hty, inPrefix_eq]
    rfl

/-- Settles O6: the model's contributors are those of the statement, its lowest lane is the only one that wins an election
(`lowest_beq_some`), and its reductions combine the same values (`reduce_eq_combined`). -/
theorem voteAndReductionResult : Obligations.VoteAndReductionResult := ⟨voteResult, reductionResult⟩

end Sys2Proof.Laws
end

section
/-! PROOF. O9: scalar FP32 arithmetic, exact and rounded once (R185). -/

namespace Sys2Proof.Laws

open Sys2Proof Sys2Proof.Machine Sys2Proof.Claims

/-- An instruction whose word is the model's formula, of which the statement says `P`. -/
theorem writesWord_of {i : Instr} {d : Reg} {P : State → Ctx → Nat → Word → Prop} {r : State → Ctx → Nat → Word}
    (he : ∀ s, exec i s = laneOp i s fun c l => .v d (r s c l)) (hP : ∀ s c l, P s c l (r s c l)) : WritesWord i d P :=
  ⟨r, writes_same he, hP⟩

theorem wordOf_toNat {n : Nat} (h : n < 2 ^ 32) : (wordOf n).toNat = n := by
  rw [wordOf, BitVec.toNat_ofNat, Nat.mod_eq_of_lt h]

theorem val_exact (f : FFmt) (ftz : Bool) (w : Nat) : (f.val ftz w).exact = f.operand ftz w := operand_exact f ftz w

section
variable {f : FFmt} (hf : f.fits) (rm : RMode) (ftz : Bool)
include hf

theorem result_rounds (x : FVal) : f.resultOf rm ftz x.exact (f.result rm ftz x) := (result_resultOf f hf rm ftz x).1

theorem result_lt (x : FVal) : f.result rm ftz x < 2 * f.signBit := (result_resultOf f hf rm ftz x).2

theorem sum_rounds (xs : List FVal) : f.resultOf rm ftz (Ext.sum (xs.map FVal.exact)) (f.result rm ftz (sumF xs)) :=
  sumF_exact xs ▸ result_rounds hf rm ftz (sumF xs)

/-! The four operations in any format: the statement's exact result, rounded once. -/

theorem faddOf_rounds (a b : Nat) :
    f.resultOf rm ftz (Ext.sum [f.operand ftz a, f.operand ftz b]) (faddOf f rm ftz a b) := by
  simp only [← val_exact]
  exact sum_rounds hf rm ftz [f.val ftz a, f.val ftz b]

theorem fsubOf_rounds (a b : Nat) :
    f.resultOf rm ftz (Ext.sum [f.operand ftz a, (f.operand ftz b).negate]) (fsubOf f rm ftz a b) := by
  simp only [← val_exact, ← neg_exact]
  exact sum_rounds hf rm ftz [f.val ftz a, (f.val ftz b).neg]

theorem fmulOf_rounds (a b : Nat) :
    f.resultOf rm ftz (Ext.mul (f.operand ftz a) (f.operand ftz b)) (fmulOf f rm ftz a b) := by
  simp only [← val_exact, ← mul_exact]
  exact result_rounds hf rm ftz _

theorem ffmaOf_rounds (a b x : Nat) :
    f.resultOf rm ftz (Ext.sum [Ext.mul (f.operand ftz a) (f.operand ftz b), f.operand ftz x]) (ffmaOf f rm ftz a b x) := by
  simp only [← val_exact, ← mul_exact]
  exact sum_rounds hf rm ftz [(f.val ftz a).mul (f.val ftz b), f.val ftz x]

end

/-- An FP32 result is the word that holds it. -/
theorem resultOf_word {rm : RMode} {ftz : Bool} {x : Ext} {y : FVal} (h : fmtF32.resultOf rm ftz x (fmtF32.result rm ftz y)) :
    fmtF32.resultOf rm ftz x (wordOf (fmtF32.result rm ftz y)).toNat := by
  rwa [wordOf_toNat (result_lt fits_f32 rm ftz y)]

/-- Settles O9: each form is a `laneOp` whose result is the exact sum or product rounded once (`faddOf_rounds`, `fsubOf_rounds`,
`fmulOf_rounds`, `ffmaOf_rounds`). -/
theorem floatArithmeticResult : Obligations.FloatArithmeticResult := by
  intro h rm ftz d a b x
  exact ⟨writesWord_of (fun _ => rfl) fun _ _ _ => resultOf_word (faddOf_rounds fits_f32 rm ftz _ _),
    writesWord_of (fun _ => rfl) fun _ _ _ => resultOf_word (fsubOf_rounds fits_f32 rm ftz _ _),
    writesWord_of (fun _ => rfl) fun _ _ _ => resultOf_word (fmulOf_rounds fits_f32 rm ftz _ _),
    writesWord_of (fun _ => rfl) fun _ _ _ => resultOf_word (ffmaOf_rounds fits_f32 rm ftz _ _ _)⟩

end Sys2Proof.Laws
end

section
/-! PROOF. O10: order, classes and signs, whole numbers and powers of two (R186-R191). -/

namespace Sys2Proof.Laws

open Sys2Proof Sys2Proof.Machine Sys2Proof.Claims

/-! Order (R186, R188). -/

theorem FVal.isNan_iff (x : FVal) : x.isNan = true ↔ x.exact = .nan := by
  cases x <;> simp [FVal.isNan, FVal.exact]

theorem FVal.isNan_false {x : FVal} (h : x.exact ≠ .nan) : x.isNan = false := by
  rwa [← Bool.not_eq_true, FVal.isNan_iff]

theorem FVal.sign_eq (x : FVal) : x.sign = x.exact.negative := by
  cases x <;> rfl

theorem FVal.lt_iff (x y : FVal) : x.lt y = true ↔ extLess x.exact y.exact := by
  cases x with
  | nan => simp [FVal.lt, FVal.exact, extLess]
  | inf s => cases y <;> simp [FVal.lt, FVal.exact, extLess]
  | fin s m e =>
    cases y with
    | nan => simp [FVal.lt, FVal.exact, extLess]
    | inf t => simp [FVal.lt, FVal.exact, extLess]
    | fin t n g => exact decide_eq_true_iff.trans (FVal.num_sub _ _ ⟨s, m, e, rfl⟩ ⟨t, n, g, rfl⟩).1

theorem FVal.eqv_iff (x y : FVal) : x.eqv y = true ↔ extSame x.exact y.exact := by
  cases x with
  | nan => simp [FVal.eqv, FVal.exact, extSame]
  | inf s => cases y <;> simp [FVal.eqv, FVal.exact, extSame]
  | fin s m e =>
    cases y with
    | nan => simp [FVal.eqv, FVal.exact, extSame]
    | inf t => simp [FVal.eqv, FVal.exact, extSame]
    | fin t n g => exact beq_iff_eq.trans (FVal.num_sub _ _ ⟨s, m, e, rfl⟩ ⟨t, n, g, rfl⟩).2

theorem FVal.below_iff (x y : FVal) : x.below y = true ↔ extBelow x.exact y.exact := by
  simp only [FVal.below, extBelow, Bool.or_eq_true, Bool.and_eq_true, Bool.not_eq_true', FVal.lt_iff, FVal.eqv_iff, FVal.sign_eq, and_assoc]

theorem extLess_asymm {x y : Ext} (h : extLess x y) : ¬extLess y x := by
  cases x with
  | nan => exact h.elim
  | inf s => cases y <;> simp_all [extLess]
  | fin s p =>
    cases y with
    | nan => exact fun h => h.elim
    | inf t => simp_all [extLess]
    | fin t q => exact lt_asymm (a := (Ext.fin s p).num) h

theorem extSame_comm {x y : Ext} : extSame x y ↔ extSame y x := by
  cases x with
  | nan => cases y <;> exact Iff.rfl
  | inf s => cases y with
    | inf t => exact eq_comm
    | _ => exact Iff.rfl
  | fin s p => cases y with
    | fin t q => exact eq_comm
    | _ => exact Iff.rfl

theorem extSame_not_less {x y : Ext} (h : extSame x y) : ¬extLess x y := by
  cases x with
  | nan => exact h.elim
  | inf s => cases y <;> simp_all [extLess, extSame]
  | fin s p =>
    cases y with
    | nan => exact h.elim
    | inf t => exact h.elim
    | fin t q => exact not_lt_of_ge (Eq.ge (a := (Ext.fin s p).num) h)

theorem extBelow_asymm {x y : Ext} (h : extBelow x y) : ¬extBelow y x := by
  rintro (hyx | ⟨hyx, hy, hx⟩)
  · rcases h with hxy | ⟨hxy, -, -⟩
    · exact extLess_asymm hxy hyx
    · exact extSame_not_less (extSame_comm.1 hxy) hyx
  · rcases h with hxy | ⟨-, hx', -⟩
    · exact extSame_not_less (extSame_comm.1 hyx) hxy
    · rw [hx'] at hx
      cases hx

/-- The order in which `fmin` or `fmax` takes one operand before another. -/
def takenFirst (isMax : Bool) (x y : Ext) : Prop := if isMax then extBelow y x else extBelow x y

theorem takenFirst_asymm {isMax : Bool} {x y : Ext} (h : takenFirst isMax x y) : ¬takenFirst isMax y x := by
  cases isMax <;> exact extBelow_asymm h

/-- Of two numbers, the second is taken exactly where it comes first in the order. -/
theorem minMaxF_of_numbers {f : FFmt} {a b : Nat} (isMax : Bool) (ha : f.ext a ≠ .nan) (hb : f.ext b ≠ .nan) :
    (takenFirst isMax (f.ext b) (f.ext a) → minMaxF f isMax a b = b) ∧ (¬takenFirst isMax (f.ext b) (f.ext a) → minMaxF f isMax a b = a) := by
  rw [← decodeF_exact] at ha hb
  rw [← decodeF_exact f a, ← decodeF_exact f b]
  have hx := FVal.isNan_false ha
  have hy := FVal.isNan_false hb
  simp only [minMaxF, takenFirst, hx, hy, Bool.and_self, Bool.false_eq_true, if_false]
  cases isMax
  · exact ⟨fun h => if_pos ((FVal.below_iff _ _).2 h), fun h => if_neg (mt (FVal.below_iff _ _).1 h)⟩
  · exact ⟨fun h => if_pos ((FVal.below_iff _ _).2 h), fun h => if_neg (mt (FVal.below_iff _ _).1 h)⟩

theorem minMaxF_extremum (isMax : Bool) (a b : Nat) : extremum a b (takenFirst isMax) (minMaxF fmtF32 isMax a b) := by
  have hnan : ∀ w, (decodeF fmtF32 w).isNan = true ↔ fmtF32.ext w = .nan := fun w => by rw [FVal.isNan_iff, decodeF_exact]
  refine ⟨fun ⟨ha, hb⟩ => ?_, fun ⟨ha, hb⟩ => ?_, fun ⟨ha, hb⟩ => ?_, fun ⟨ha, hb⟩ => ?_⟩
  · simp only [minMaxF, (hnan a).2 ha, (hnan b).2 hb, Bool.and_self, if_true]
    rfl
  · have hb' : (decodeF fmtF32 b).isNan = false := by rwa [← Bool.not_eq_true, hnan]
    simp [minMaxF, (hnan a).2 ha, hb']
  · have ha' : (decodeF fmtF32 a).isNan = false := by rwa [← Bool.not_eq_true, hnan]
    simp [minMaxF, ha', (hnan b).2 hb]
  · obtain ⟨hsecond, hfirst⟩ := minMaxF_of_numbers isMax ha hb
    refine ⟨fun h => hfirst (takenFirst_asymm h), hsecond, ?_⟩
    by_cases h : takenFirst isMax (fmtF32.ext b) (fmtF32.ext a)
    · exact .inr (hsecond h)
    · exact .inl (hfirst h)

theorem flush_word_lt (ftz : Bool) (w : Word) : flush fmtF32 ftz w.toNat < 2 ^ 32 := by
  rw [flush_eq]
  exact fmtF32.ftz_lt ftz _ w.isLt

theorem minMaxF_lt {isMax : Bool} {a b : Nat} (ha : a < 2 ^ 32) (hb : b < 2 ^ 32) : minMaxF fmtF32 isMax a b < 2 ^ 32 := by
  have hnan : fmtF32.nanCode < 2 ^ 32 := by decide
  simp only [minMaxF]
  split_ifs <;> assumption

theorem extremum_word (isMax ftz : Bool) (a b : Word) :
    extremum (fmtF32.ftz ftz a.toNat) (fmtF32.ftz ftz b.toNat) (takenFirst isMax)
      (wordOf (minMaxF fmtF32 isMax (flush fmtF32 ftz a.toNat) (flush fmtF32 ftz b.toNat))).toNat := by
  rw [wordOf_toNat (minMaxF_lt (flush_word_lt ftz a) (flush_word_lt ftz b)), ← flush_eq, ← flush_eq]
  exact minMaxF_extremum isMax _ _

theorem extLess_nan {x y : Ext} (h : extLess x y) : x ≠ .nan ∧ y ≠ .nan := by
  constructor <;> rintro rfl
  · exact h
  · cases x <;> exact h

theorem extSame_nan {x y : Ext} (h : extSame x y) : x ≠ .nan ∧ y ≠ .nan := by
  constructor <;> rintro rfl
  · exact h
  · cases x <;> exact h

/-- The condition codes agree: no order holds where there is a NaN (R188). -/
theorem fccHolds_iff (cc : FCc) (x y : FVal) : fccHolds cc x y = true ↔ fcmpHolds cc x.exact y.exact := by
  have hcomm : extSame y.exact x.exact ↔ extSame x.exact y.exact := extSame_comm
  have hnan : (x.isNan || y.isNan) = true ↔ x.exact = .nan ∨ y.exact = .nan := by
    rw [Bool.or_eq_true, FVal.isNan_iff, FVal.isNan_iff]
  by_cases h : x.exact = .nan ∨ y.exact = .nan
  · have hless : ¬extLess x.exact y.exact := fun hl => h.elim (extLess_nan hl).1 (extLess_nan hl).2
    have hmore : ¬extLess y.exact x.exact := fun hl => h.elim (extLess_nan hl).2 (extLess_nan hl).1
    have hsame : ¬extSame x.exact y.exact := fun hl => h.elim (extSame_nan hl).1 (extSame_nan hl).2
    have hnums : ¬(x.exact ≠ .nan ∧ y.exact ≠ .nan) := fun hn => h.elim hn.1 hn.2
    cases cc <;>
      simp only [fccHolds, fcmpHolds, hnan.2 h, FVal.lt_iff, hcomm, h, hless, hmore, hsame, hnums, Bool.not_true, Bool.false_and,
        Bool.true_or, Bool.false_eq_true, not_false_eq_true, or_false]
  · have hno : (x.isNan || y.isNan) = false := Bool.eq_false_iff.2 fun hn => h (hnan.1 hn)
    have hnums : x.exact ≠ .nan ∧ y.exact ≠ .nan := not_or.1 h
    cases cc <;>
      simp only [fccHolds, fcmpHolds, hno, FVal.lt_iff, FVal.eqv_iff, hcomm, hnums, or_self, Bool.not_false, Bool.true_and, Bool.false_or,
        Bool.or_eq_true, Bool.not_eq_true', ← Bool.not_eq_true, Bool.false_eq_true, ne_eq, not_false_eq_true, and_self]

/-! Classes (R189): the sign and the magnitude of a pattern that is not NaN are its fields. -/

theorem ext_inf_sign {f : FFmt} {w : Nat} {neg : Bool} (h : f.ext w = .inf neg) : (w / f.signBit % 2 == 1) = neg := by
  simp only [FFmt.ext] at h
  split_ifs at h
  all_goals injection h

theorem ext_fin_fields {f : FFmt} {w : Nat} {neg : Bool} {q : ℚ} (h : f.ext w = .fin neg q) :
    (w / f.signBit % 2 == 1) = neg ∧ f.mag (w % f.signBit) = q := by
  simp only [FFmt.ext] at h
  split_ifs at h
  all_goals
    injection h with hneg hq
    exact ⟨hneg, hq⟩

/-- The least normal magnitude. -/
theorem mag_least_normal (f : FFmt) : f.mag (2 ^ f.fb) = 2 ^ (1 - f.bias) := by
  simp [FFmt.mag, Nat.div_self (Nat.two_pow_pos f.fb)]

theorem mag_eq_zero_iff (f : FFmt) (k : Nat) : f.mag k = 0 ↔ k = 0 := by
  rw [← f.mag_zero]
  exact f.mag_strictMono.injective.eq_iff

theorem isSubnormal_iff (f : FFmt) (w : Nat) :
    isSubnormal f w = true ↔ f.mag (w % f.signBit) ≠ 0 ∧ f.mag (w % f.signBit) < 2 ^ (1 - f.bias) := by
  rw [← mag_least_normal, f.mag_strictMono.lt_iff_lt, Ne, mag_eq_zero_iff]
  simp [isSubnormal]

theorem magnitude_eq_zero_iff (m : Nat) (e : Int) : FVal.magnitude m e = 0 ↔ m = 0 := by
  simp [FVal.magnitude, (two_zpow_pos e).ne']

theorem classBit_classOf (f : FFmt) (w : Nat) : classOf f w (classBit f w) := by
  have hx := decodeF_exact f w
  cases hd : decodeF f w with
  | nan =>
    rw [hd] at hx
    simp only [classOf, ← hx, FVal.exact, classBit, hd]
  | inf neg =>
    rw [hd] at hx
    simp only [classOf, ← hx, FVal.exact, classBit, hd, ext_inf_sign hx.symm]
  | fin neg m e =>
    rw [hd] at hx
    obtain ⟨hneg, hmag⟩ := ext_fin_fields hx.symm
    have hsub := isSubnormal_iff f w
    rw [hmag, Ne, magnitude_eq_zero_iff] at hsub
    cases m with
    | zero => simp [classOf, ← hx, FVal.exact, classBit, hd, hneg, magnitude_eq_zero_iff]
    | succ m =>
      simp only [Nat.succ_ne_zero, not_false_eq_true, true_and] at hsub
      simp [classOf, ← hx, FVal.exact, classBit, hd, hneg, magnitude_eq_zero_iff, hsub]

theorem lowBits_eq {ty : Ty} (hty : floatTy ty) (w : Word) : lowBits ty w = lowOf ty w := by
  rcases hty with rfl | rfl | rfl | rfl | rfl
  case inl => exact Nat.mod_eq_of_lt w.isLt
  all_goals rfl

theorem wordOf_two_pow (k : Nat) : wordOf (2 ^ k) = 1#32 <<< k := by
  apply BitVec.eq_of_toNat_eq
  rw [wordOf, BitVec.toNat_ofNat, BitVec.toNat_shiftLeft, Nat.shiftLeft_eq, BitVec.toNat_ofNat]
  simp

/-! Signs (R190). -/

/-- A word with its sign bit replaced. -/
theorem withSign_eq (a : Word) (neg : Bool) :
    wordOf (a.toNat % 2 ^ 31 + if neg then 2 ^ 31 else 0) = (a &&& 0x7FFFFFFF#32) ||| (if neg then 0x80000000#32 else 0#32) := by
  have hlt : a.toNat % 2 ^ 31 < 2 ^ 31 := Nat.mod_lt _ (by decide)
  apply BitVec.eq_of_toNat_eq
  have hlow : (a &&& 0x7FFFFFFF#32).toNat = a.toNat % 2 ^ 31 := Nat.and_two_pow_sub_one_eq_mod a.toNat 31
  rw [BitVec.toNat_or, hlow]
  cases neg
  · rw [if_neg Bool.false_ne_true, if_neg Bool.false_ne_true, BitVec.toNat_zero, Nat.or_zero, Nat.add_zero, wordOf_toNat (by omega)]
  · have hor := Nat.two_pow_add_eq_or_of_lt hlt 1
    rw [if_pos rfl, if_pos rfl, wordOf_toNat (by omega), Nat.or_comm, Nat.add_comm]
    simpa using hor

theorem signBit_and (b : Word) : b &&& 0x80000000#32 = if b.getLsbD 31 then 0x80000000#32 else 0#32 :=
  BitVec.and_twoPow b 31

/-- Selecting by a mask and by its complement. -/
theorem select_xor (a b m : Word) : (a &&& m) ||| ((a ^^^ b) &&& ~~~m) = a ^^^ (b &&& ~~~m) := by
  apply BitVec.eq_of_getLsbD_eq
  intro i hi
  simp only [BitVec.getLsbD_or, BitVec.getLsbD_and, BitVec.getLsbD_xor, BitVec.getLsbD_not, hi, decide_true, Bool.true_and]
  cases a.getLsbD i <;> cases b.getLsbD i <;> cases m.getLsbD i <;> rfl

theorem withSign_xor (a b : Word) :
    wordOf (a.toNat % 2 ^ 31 + if a.getLsbD 31 != b.getLsbD 31 then 2 ^ 31 else 0) = a ^^^ (b &&& 0x80000000#32) := by
  rw [withSign_eq, Bool.bne_eq_xor, ← BitVec.getLsbD_xor, ← signBit_and]
  exact select_xor a b 0x7FFFFFFF#32

theorem floatOrderResult : FloatOrderResult := by
  intro h ftz cc ty d a b hty
  refine ⟨writesWord_of (fun _ => rfl) fun _ _ _ => extremum_word false ftz _ _,
    writesWord_of (fun _ => rfl) fun _ _ _ => extremum_word true ftz _ _,
    ⟨_, writes_same fun _ => rfl, fun s c l => ?cmp⟩, writesWord_of (fun _ => rfl) fun s c l => ?cls,
    writes_v (fun _ => rfl) fun s c l => ?copy, writes_v (fun _ => rfl) fun s c l => ?neg, writes_v (fun _ => rfl) fun s c l => ?xor⟩
  case cmp => rw [fccHolds_iff, val_exact, val_exact]
  case cls => exact ⟨_, formatOf_eq ty ▸ lowBits_eq hty (c.v s l a) ▸ classBit_classOf _ _, wordOf_two_pow _⟩
  case copy => rw [withSign_eq, signBit_and, signOf]
  case neg => rw [withSign_eq, signBit_and, signOf]; simp
  case xor => exact withSign_xor _ _

end Sys2Proof.Laws
end

section
/-! PROOF. O10, continued: rounding to a whole number, and scaling by a power of two (R187, R191). -/

namespace Sys2Proof.Laws

open Sys2Proof Sys2Proof.Machine Sys2Proof.Claims

/-! What rounding cannot pass. -/

/-- A magnitude up to a member of the grid is not rounded beyond it. -/
theorem nearestOn_le {g : Nat → ℚ} (hg : StrictMono g) {rm : RMode} {neg : Bool} {q : ℚ} {k n : Nat} (hq : q ≤ g n)
    (h : nearestOn g rm neg q k) : k ≤ n := by
  by_contra hlt
  have hgk : g n < g k := hg (not_le.mp hlt)
  have below : ¬(g k ≤ q ∧ q < g (k + 1)) := fun hb => by linarith [hb.1]
  have above : ¬(q ≤ g k ∧ ∀ j, j < k → g j < q) := fun ha => by linarith [ha.2 n (not_le.mp hlt)]
  cases rm with
  | rne =>
    have hn := h.1 n
    rw [abs_of_nonpos (by linarith), abs_of_nonpos (by linarith)] at hn
    linarith
  | rtz => exact below h
  | rpi => cases neg <;> [exact above h; exact below h]
  | rni => cases neg <;> [exact below h; exact above h]

/-- A magnitude from a member of the grid on is not rounded below it. -/
theorem le_nearestOn {g : Nat → ℚ} (hg : StrictMono g) {rm : RMode} {neg : Bool} {q : ℚ} {k n : Nat} (hq : g n ≤ q)
    (h : nearestOn g rm neg q k) : n ≤ k := by
  by_contra hlt
  have hgk : g k < g n := hg (not_le.mp hlt)
  have below : ¬(g k ≤ q ∧ q < g (k + 1)) := fun hb => by linarith [hb.2, hg.monotone (not_le.mp hlt : k + 1 ≤ n)]
  have above : ¬(q ≤ g k ∧ ∀ j, j < k → g j < q) := fun ha => by linarith [ha.1]
  cases rm with
  | rne =>
    have hn := h.1 n
    rw [abs_of_nonneg (by linarith), abs_of_nonneg (by linarith)] at hn
    linarith
  | rtz => exact below h
  | rpi => cases neg <;> [exact above h; exact below h]
  | rni => cases neg <;> [exact below h; exact above h]

/-- The code of a magnitude below half the least one: one in the directions away from zero, and zero in the others. -/
def tinyCode (rm : RMode) (neg : Bool) : Nat :=
  match rm with
  | .rpi => if neg then 0 else 1
  | .rni => if neg then 1 else 0
  | _ => 0

theorem nearestOn_tiny {g : Nat → ℚ} (hg : StrictMono g) (h0 : g 0 = 0) {rm : RMode} {neg : Bool} {q : ℚ} {k : Nat} (hpos : 0 < q)
    (hq : 2 * q < g 1) (h : nearestOn g rm neg q k) : k = tinyCode rm neg := by
  have hle : k ≤ 1 := nearestOn_le hg (by linarith) h
  have below (hb : g k ≤ q ∧ q < g (k + 1)) : k = 0 := by
    by_contra hne
    have : g 1 ≤ g k := hg.monotone (by omega)
    linarith [hb.1]
  have above (ha : q ≤ g k ∧ ∀ j, j < k → g j < q) : k = 1 := by
    by_contra hne
    obtain rfl : k = 0 := by omega
    linarith [ha.1]
  cases rm with
  | rne =>
    by_contra hne
    obtain rfl : k = 1 := by simp only [tinyCode] at hne; omega
    have hn := h.1 0
    rw [h0, sub_zero, abs_of_pos hpos, abs_of_nonpos (by linarith)] at hn
    linarith
  | rtz => exact below h
  | rpi => cases neg <;> [exact above h; exact below h]
  | rni => cases neg <;> [exact below h; exact above h]

/-! Whole numbers (R187). -/

/-- The magnitude above the largest finite one. -/
theorem mag_overCode_f32 : fmtF32.mag fmtF32.overCode = 2 ^ (128 : ℤ) := by
  norm_num [FFmt.mag, FFmt.overCode, fmtF32]

/-- A magnitude that the last place divides is rounded to itself. -/
theorem mag_roundMag_exact (f : FFmt) (rm : RMode) (neg : Bool) {m : Nat} {e : Int} (h : f.quantum m e ≤ e) :
    f.mag (roundMag f rm neg m e) = FVal.magnitude m e := by
  by_cases h0 : m = 0
  · simp [roundMag, h0, f.mag_zero, FVal.magnitude]
  · obtain ⟨hmin, hfit, -⟩ := f.quantum_spec m e h0
    obtain ⟨hlt, hnormal⟩ := hfit h
    obtain ⟨d, hd⟩ : ∃ d : ℕ, e = f.quantum m e + d := ⟨(e - f.quantum m e).toNat, by omega⟩
    rw [roundMag, if_neg h0, if_pos h, (f.magCode_mag _ _ hmin hlt hnormal).1, FVal.magnitude]
    generalize f.quantum m e = q at hd
    rw [hd, add_sub_cancel_left, Int.toNat_natCast, zpow_add₀ (by norm_num), zpow_natCast]
    push_cast
    ring

/-- A finite code with its sign reads back as its magnitude. -/
theorem ext_signed {f : FFmt} (hf : f.fits) (he : f.e4m3 = false) (neg : Bool) {k : Nat} (hk : k < f.overCode) :
    f.ext (signed f neg k) = .fin neg (f.mag k) := by
  have hlt : k < f.signBit := lt_trans hk hf.top.2
  have hmod : signed f neg k % f.signBit = k := by
    cases neg
    · exact Nat.mod_eq_of_lt hlt
    · exact (Nat.add_mod_left _ _).trans (Nat.mod_eq_of_lt hlt)
  have hneg : (signed f neg k / f.signBit % 2 == 1) = neg := by
    cases neg
    · simp [signed, Nat.div_eq_of_lt hlt]
    · simp [signed, Nat.add_div_left k (Nat.zero_lt_of_lt hlt), Nat.div_eq_of_lt hlt]
  have hexp : k / 2 ^ f.fb ≠ 2 ^ f.eb - 1 := by
    rw [FFmt.overCode, he, if_neg Bool.false_ne_true] at hk
    exact (Nat.div_lt_of_lt_mul (by rwa [Nat.mul_comm])).ne
  simp only [FFmt.ext, he, hmod, hneg, hexp, Bool.false_eq_true, if_false]

/-- A finite FP32 significand has 24 bits. -/
theorem decodeF_significand {w : Nat} {neg : Bool} {m : Nat} {e : Int} (h : decodeF fmtF32 w = .fin neg m e) : m < 2 ^ 24 := by
  have hfr : w % fmtF32.signBit % 2 ^ fmtF32.fb < 2 ^ 23 := Nat.mod_lt _ (by decide)
  have hone : 2 ^ fmtF32.fb = 2 ^ 23 := rfl
  simp only [decodeF] at h
  split_ifs at h
  all_goals
    injection h with _ hm _
    omega

/-- Whole numbers up to 2^24 are FP32 values. -/
theorem roundF_whole (rm : RMode) (neg : Bool) {k : Nat} (hk : k < 2 ^ 24) :
    roundF fmtF32 rm false false (.fin neg k 0) < 2 ^ 32 ∧ fmtF32.ext (roundF fmtF32 rm false false (.fin neg k 0)) = .fin neg k := by
  have hquantum : fmtF32.quantum k 0 ≤ 0 := by
    have hlog : k ≠ 0 → Nat.log2 k < 24 := fun h0 => (Nat.log2_lt h0).2 hk
    have hzero : k = 0 → Nat.log2 k = 0 := fun h0 => by rw [h0]; rfl
    have hmin : fmtF32.qmin = -149 := rfl
    have hfrac : fmtF32.fb = 23 := rfl
    simp only [FFmt.quantum, hmin, hfrac]
    split_ifs <;> omega
  have hmag : fmtF32.mag (roundMag fmtF32 rm neg k 0) = k := by
    rw [mag_roundMag_exact fmtF32 rm neg hquantum, FVal.magnitude, zpow_zero, mul_one]
  have hover : roundMag fmtF32 rm neg k 0 < fmtF32.overCode := by
    rw [← fmtF32.mag_strictMono.lt_iff_lt, hmag]
    calc (k : ℚ) < 2 ^ 24 := by exact_mod_cast hk
      _ < fmtF32.mag fmtF32.overCode := by rw [mag_overCode_f32]; norm_num
  have hr : roundF fmtF32 rm false false (.fin neg k 0) = signed fmtF32 neg (roundMag fmtF32 rm neg k 0) := by
    simp only [roundF, hover, if_true]
  refine ⟨fmtF32.roundsTo_lt fits_f32 rm false false _ _ (roundF_roundsTo fmtF32 fits_f32.frac rm false false _), ?_⟩
  rw [hr, ext_signed fits_f32 rfl neg hover, hmag]

/-- What the statement says of `frnd`: `x` is the operand after .ftz (R187). -/
def roundsWhole (rm : RMode) (x : Nat) (w : Word) : Prop :=
  match fmtF32.ext x with
  | .nan => w = 0x7FC00000#32
  | .inf _ => w.toNat = x
  | .fin neg q => (8388608 ≤ q → w.toNat = x) ∧ ∃ k : Nat, nearestOn (fun j => (j : ℚ)) rm neg q k ∧ fmtF32.ext w.toNat = .fin neg k

/-- A significand of 24 bits with places after the point is below 2^23. -/
theorem magnitude_lt_of_places {m : Nat} {e : Int} (hm : m < 2 ^ 24) (he : e < 0) : FVal.magnitude m e < 8388608 := by
  have hm' : (m : ℚ) < 2 ^ 24 := by exact_mod_cast hm
  have hp : (2 : ℚ) ^ e ≤ 2 ^ (-1 : ℤ) := zpow_le_zpow_right₀ (by norm_num) (by omega)
  calc FVal.magnitude m e ≤ m * 2 ^ (-1 : ℤ) := mul_le_mul_of_nonneg_left hp (Nat.cast_nonneg m)
    _ < 2 ^ 24 * 2 ^ (-1 : ℤ) := mul_lt_mul_of_pos_right hm' (two_zpow_pos _)
    _ = 8388608 := by norm_num

theorem frndOf_rounds (rm : RMode) (ftz : Bool) (w : Word) :
    roundsWhole rm (fmtF32.ftz ftz w.toNat) (wordOf (frndOf rm ftz w.toNat)) := by
  have hlt := flush_word_lt ftz w
  rw [← flush_eq]
  generalize hx : flush fmtF32 ftz w.toNat = x at hlt
  have hext := decodeF_exact fmtF32 x
  cases hd : decodeF fmtF32 x with
  | nan =>
    rw [hd] at hext
    simp only [frndOf, hx, hd, roundsWhole, ← hext, FVal.exact]
    rfl
  | inf neg =>
    rw [hd] at hext
    simp only [frndOf, hx, hd, roundsWhole, ← hext, FVal.exact]
    exact wordOf_toNat hlt
  | fin neg m e =>
    rw [hd] at hext
    have hcast : StrictMono fun j : Nat => (j : ℚ) := Nat.strictMono_cast
    simp only [frndOf, hx, hd, roundsWhole, ← hext, FVal.exact]
    split
    next he =>
      obtain ⟨n, rfl⟩ : ∃ n : ℕ, e = n := ⟨e.toNat, by omega⟩
      have hwhole : ((m * 2 ^ n : ℕ) : ℚ) = FVal.magnitude m n := by
        rw [FVal.magnitude, zpow_natCast]
        push_cast
        rfl
      refine ⟨fun _ => wordOf_toNat hlt, m * 2 ^ n, nearestOn_exact _ hcast rm neg _ _ hwhole, ?_⟩
      rw [wordOf_toNat hlt, ← hext, FVal.exact, hwhole]
    next he =>
      have hsmall := magnitude_lt_of_places (decodeF_significand hd) (not_le.1 he)
      obtain ⟨k, hk, hr⟩ := roundInt_nearest rm neg m e
      have hk23 : k ≤ 8388608 := nearestOn_le hcast (by exact_mod_cast hsmall.le) hk
      have habs : (roundInt rm neg m e).natAbs = k := by
        rw [hr]
        cases neg <;> simp
      obtain ⟨hw, hread⟩ := roundF_whole .rne neg (k := k) (by omega)
      rw [habs, wordOf_toNat hw]
      exact ⟨fun hbig => absurd hbig (not_le.2 hsmall), k, hk, hread⟩

/-! Powers of two (R191). -/

/-- The exponent of `fscale`, bounded as the model bounds it. -/
def clamped (b : Int) : Int := if b > 1000 then 1000 else if b < -1000 then -1000 else b

theorem mag_one_f32 : fmtF32.mag 1 = 2 ^ (-149 : ℤ) := by
  norm_num [FFmt.mag, fmtF32]

/-- A finite operand's magnitude is below 2^128, and it is zero or at least 2^-149. -/
theorem magnitude_f32_bounds {w : Nat} {neg : Bool} {m : Nat} {e : Int} (h : decodeF fmtF32 w = .fin neg m e) :
    FVal.magnitude m e < 2 ^ (128 : ℤ) ∧ (m = 0 ∨ (2 : ℚ) ^ (-149 : ℤ) ≤ FVal.magnitude m e) := by
  obtain ⟨k, hk, hm⟩ := ext_fin (f := fmtF32) rfl (h ▸ (decodeF_exact fmtF32 w).symm)
  rw [hm, ← mag_overCode_f32, ← mag_one_f32]
  refine ⟨fmtF32.mag_strictMono hk, ?_⟩
  rcases Nat.eq_zero_or_pos k with rfl | hpos
  · rw [fmtF32.mag_zero, magnitude_eq_zero_iff] at hm
    exact .inl hm
  · exact .inr (fmtF32.mag_strictMono.monotone hpos)

section
variable {w : Nat} {neg : Bool} {m : Nat} {e : Int} (h : decodeF fmtF32 w = .fin neg m e) (rm : RMode) {b c : Int}
include h

/-- Two large powers of two overflow alike. -/
theorem roundF_scaled_large (hb : 1000 ≤ b) (hc : 1000 ≤ c) :
    roundF fmtF32 rm false false (.fin neg m (e + b)) = roundF fmtF32 rm false false (.fin neg m (e + c)) := by
  obtain ⟨-, rfl | hlow⟩ := magnitude_f32_bounds h
  · simp only [roundF, roundMag, if_true]
  have hover : ∀ d : Int, 1000 ≤ d → ¬roundMag fmtF32 rm neg m (e + d) < fmtF32.overCode := by
    intro d hd
    refine not_lt.2 (le_nearestOn fmtF32.mag_strictMono ?_ (roundMag_nearest fmtF32 fits_f32.frac rm neg m (e + d)))
    rw [mag_overCode_f32, magnitude_add]
    calc (2 : ℚ) ^ (128 : ℤ) ≤ 2 ^ (-149 + d) := zpow_le_zpow_right₀ (by norm_num) (by omega)
      _ = 2 ^ (-149 : ℤ) * 2 ^ d := zpow_add₀ (by norm_num) ..
      _ ≤ FVal.magnitude m e * 2 ^ d := mul_le_mul_of_nonneg_right hlow (two_zpow_pos d).le
  rw [roundF, roundF, if_neg (hover b hb), if_neg (hover c hc)]

/-- Two small powers of two underflow alike. -/
theorem roundF_scaled_small (hb : b ≤ -1000) (hc : c ≤ -1000) :
    roundF fmtF32 rm false false (.fin neg m (e + b)) = roundF fmtF32 rm false false (.fin neg m (e + c)) := by
  obtain ⟨hhigh, -⟩ := magnitude_f32_bounds h
  by_cases h0 : m = 0
  · simp only [roundF, roundMag, h0, if_true]
  have htiny : ∀ d : Int, d ≤ -1000 → roundMag fmtF32 rm neg m (e + d) = tinyCode rm neg := by
    intro d hd
    refine nearestOn_tiny fmtF32.mag_strictMono fmtF32.mag_zero ?_ ?_ (roundMag_nearest fmtF32 fits_f32.frac rm neg m (e + d))
    · exact mul_pos (Nat.cast_pos.2 (Nat.pos_of_ne_zero h0)) (two_zpow_pos _)
    · rw [mag_one_f32, magnitude_add]
      calc 2 * (FVal.magnitude m e * (2 : ℚ) ^ d) < 2 * (2 ^ (128 : ℤ) * 2 ^ d) := by
            have := mul_lt_mul_of_pos_right hhigh (two_zpow_pos d)
            linarith
        _ = 2 ^ (1 + (128 + d)) := by rw [zpow_add₀ (by norm_num), zpow_add₀ (by norm_num), zpow_one]
        _ ≤ 2 ^ (-149 : ℤ) := zpow_le_zpow_right₀ (by norm_num) (by omega)
  rw [roundF, roundF, htiny b hb, htiny c hc]

theorem roundF_clamped (b : Int) :
    roundF fmtF32 rm false false (.fin neg m (e + clamped b)) = roundF fmtF32 rm false false (.fin neg m (e + b)) := by
  rw [clamped]
  split_ifs with hbig hsmall
  · exact roundF_scaled_large h rm le_rfl hbig.le
  · exact roundF_scaled_small h rm le_rfl hsmall.le
  · rfl

end

/-- What the statement says of `fscale` (R191). -/
def scalesTo (rm : RMode) (ftz : Bool) (x : Ext) (b : Int) (w : Nat) : Prop :=
  match x with
  | .fin neg q => fmtF32.resultOf rm ftz (.fin neg (q * 2 ^ b)) w
  | x => fmtF32.resultOf rm ftz x w

theorem fscaleOf_scales (rm : RMode) (ftz : Bool) (w : Nat) (b : Int) :
    scalesTo rm ftz (fmtF32.operand ftz w) b (wordOf (fscaleOf rm ftz w b)).toNat := by
  rw [← val_exact]
  cases hx : fmtF32.val ftz w with
  | nan =>
    simp only [fscaleOf, hx]
    exact resultOf_word (result_rounds fits_f32 rm ftz .nan)
  | inf neg =>
    simp only [fscaleOf, hx]
    exact resultOf_word (result_rounds fits_f32 rm ftz (.inf neg))
  | fin neg m e =>
    have hres : fscaleOf rm ftz w b = fmtF32.result rm ftz (.fin neg m (e + b)) := by
      simp only [fscaleOf, hx, FFmt.result]
      exact congrArg _ (roundF_clamped hx rm b)
    rw [hres, FVal.exact, scalesTo, ← magnitude_add]
    exact resultOf_word (result_rounds fits_f32 rm ftz (.fin neg m (e + b)))

theorem floatRoundAndScaleResult : FloatRoundAndScaleResult := by
  intro h rm ftz d a b
  exact ⟨writesWord_of (fun _ => rfl) fun s c l => frndOf_rounds rm ftz _,
    writesWord_of (fun _ => rfl) fun s c l => fscaleOf_scales rm ftz _ _⟩

/-- Settles O10: the model's order, classes and signs are those of the statement (`minMaxF_extremum`, `fccHolds_iff`,
`classBit_classOf`, `withSign_eq`), `frnd` gives the whole number that its mode chooses (`frndOf_rounds`), and the bound on the
exponent of `fscale` shows in no result (`roundF_clamped`). -/
theorem floatOrderAndScaleResult : Obligations.FloatOrderAndScaleResult := ⟨floatOrderResult, floatRoundAndScaleResult⟩

end Sys2Proof.Laws
end

section
/-! PROOF. O11: packed 16-bit arithmetic and dot products (R183, R192, R193). -/

namespace Sys2Proof.Laws

open Sys2Proof Sys2Proof.Machine Sys2Proof.Claims

/-! Elements of a register (R183). -/

theorem half_eq (w : Word) (i : Nat) : half w i = elem16 w i := by
  rw [half, Nat.pow_mul]
  rfl

theorem quarter_eq (w : Word) (i : Nat) : quarter w i = elem8 w i := by
  rw [quarter, Nat.pow_mul]
  rfl

theorem eachHalf_packed {P : Nat → Nat → Prop} {f : Nat → Nat} (h : ∀ i, P i (f i)) (hlt : ∀ i, f i < 2 ^ 16) :
    eachHalf P (packed f) := by
  intro i hi
  have h0 := hlt 0
  have h1 := hlt 1
  have hword : (packed f).toNat = f 0 + 65536 * f 1 := wordOf_toNat (by omega)
  have helem : elem16 (packed f) i = f i := by
    rw [elem16, hword]
    obtain rfl | rfl : i = 0 ∨ i = 1 := by omega
    all_goals omega
  exact helem.symm ▸ h i

/-! The packed forms (R192). -/

section
variable {f : FFmt} (hf : f.fits) (h16 : 2 * f.signBit = 2 ^ 16) (rm : RMode) (ftz : Bool) (a b x : Word)

include hf h16

theorem packedAdd : eachHalf (fun k => f.resultOf rm ftz (Ext.sum [f.operand ftz (elem16 a k), f.operand ftz (elem16 b k)]))
    (packed fun i => faddOf f rm ftz (half a i) (half b i)) := by
  simp only [half_eq]
  exact eachHalf_packed (fun _ => faddOf_rounds hf rm ftz _ _) fun _ => h16 ▸ result_lt hf rm ftz _

theorem packedMul : eachHalf (fun k => f.resultOf rm ftz (Ext.mul (f.operand ftz (elem16 a k)) (f.operand ftz (elem16 b k))))
    (packed fun i => fmulOf f rm ftz (half a i) (half b i)) := by
  simp only [half_eq]
  exact eachHalf_packed (fun _ => fmulOf_rounds hf rm ftz _ _) fun _ => h16 ▸ result_lt hf rm ftz _

theorem packedFma : eachHalf (fun k => f.resultOf rm ftz
      (Ext.sum [Ext.mul (f.operand ftz (elem16 a k)) (f.operand ftz (elem16 b k)), f.operand ftz (elem16 x k)]))
    (packed fun i => ffmaOf f rm ftz (half a i) (half b i) (half x i)) := by
  simp only [half_eq]
  exact eachHalf_packed (fun _ => ffmaOf_rounds hf rm ftz _ _ _) fun _ => h16 ▸ result_lt hf rm ftz _

end

theorem packedArithmeticResult : PackedArithmeticResult := by
  intro h rm ftz d a b x
  refine ⟨?add, ?mul, ?fma⟩ <;> rintro _ _ (⟨rfl, rfl⟩ | ⟨rfl, rfl⟩)
  case add.inl => exact writesWord_of (fun _ => rfl) fun _ _ _ => packedAdd fits_f16 rfl rm ftz _ _
  case add.inr => exact writesWord_of (fun _ => rfl) fun _ _ _ => packedAdd fits_bf16 rfl rm ftz _ _
  case mul.inl => exact writesWord_of (fun _ => rfl) fun _ _ _ => packedMul fits_f16 rfl rm ftz _ _
  case mul.inr => exact writesWord_of (fun _ => rfl) fun _ _ _ => packedMul fits_bf16 rfl rm ftz _ _
  case fma.inl => exact writesWord_of (fun _ => rfl) fun _ _ _ => packedFma fits_f16 rfl rm ftz _ _ _
  case fma.inr => exact writesWord_of (fun _ => rfl) fun _ _ _ => packedFma fits_bf16 rfl rm ftz _ _ _

/-! Dot products (R193). -/

/-- The exact products and the addend are summed and rounded once, into FP32. -/
theorem dotOf_rounds (f : FFmt) (rm : RMode) (ftz : Bool) (as bs : List Nat) (x : Nat) :
    fmtF32.resultOf rm ftz
      (Ext.sum (((as.zip bs).map fun p => Ext.mul (f.operand ftz p.1) (f.operand ftz p.2)) ++ [fmtF32.operand ftz x]))
      (wordOf (dotOf f rm ftz as bs x)).toNat := by
  have hsum := sum_rounds fits_f32 rm ftz (((as.zip bs).map fun p => (f.val ftz p.1).mul (f.val ftz p.2)) ++ [fmtF32.val ftz x])
  rw [List.map_append, List.map_map, List.map_singleton, val_exact] at hsum
  simp only [Function.comp_def, mul_exact, val_exact] at hsum
  exact resultOf_word hsum

theorem dot2_rounds (f : FFmt) (rm : RMode) (ftz : Bool) (a b : Word) (x : Nat) :
    fmtF32.resultOf rm ftz (Ext.sum
      [Ext.mul (f.operand ftz (elem16 a 0)) (f.operand ftz (elem16 b 0)),
       Ext.mul (f.operand ftz (elem16 a 1)) (f.operand ftz (elem16 b 1)), fmtF32.operand ftz x])
      (wordOf (dotOf f rm ftz ((span 0 2).map (half a)) ((span 0 2).map (half b)) x)).toNat := by
  simp only [← half_eq]
  exact dotOf_rounds f rm ftz ((span 0 2).map (half a)) ((span 0 2).map (half b)) x

theorem dot4_rounds (f : FFmt) (rm : RMode) (ftz : Bool) (a b : Word) (x : Nat) :
    fmtF32.resultOf rm ftz (Ext.sum
      [Ext.mul (f.operand ftz (elem8 a 0)) (f.operand ftz (elem8 b 0)), Ext.mul (f.operand ftz (elem8 a 1)) (f.operand ftz (elem8 b 1)),
       Ext.mul (f.operand ftz (elem8 a 2)) (f.operand ftz (elem8 b 2)), Ext.mul (f.operand ftz (elem8 a 3)) (f.operand ftz (elem8 b 3)),
       fmtF32.operand ftz x])
      (wordOf (dotOf f rm ftz ((span 0 4).map (quarter a)) ((span 0 4).map (quarter b)) x)).toNat := by
  simp only [← quarter_eq]
  exact dotOf_rounds f rm ftz ((span 0 4).map (quarter a)) ((span 0 4).map (quarter b)) x

theorem elem8_lt (w : Word) (i : Nat) : elem8 w i < 256 := Nat.mod_lt _ (by decide)

/-- A byte as a signed element. -/
theorem intVal_s8 (n : Nat) : intVal .s8 n = (BitVec.ofNat 8 n).toInt := by
  have hval : intVal .s8 n = if 2 ^ 7 ≤ n % 2 ^ 8 then ((n % 2 ^ 8 : ℕ) : ℤ) - 2 ^ 8 else ((n % 2 ^ 8 : ℕ) : ℤ) := by
    simp [intVal, Ty.signed, Ty.bytes]
  rw [hval, BitVec.toInt_eq_toNat_cond, BitVec.toNat_ofNat]
  split <;> split <;> omega

/-- A byte as an unsigned element. -/
theorem intVal_z8 {n : Nat} (hn : n < 256) : intVal .z8 n = n := by
  have hval : intVal .z8 n = ((n % 2 ^ 8 : ℕ) : ℤ) := by simp [intVal, Ty.signed, Ty.bytes]
  rw [hval, Nat.mod_eq_of_lt (by simpa using hn)]

/-- The integer sum, written out. -/
theorem qdotInt_eq (ty : Ty) (a b x : Word) :
    qdotInt ty a b x = (if Ty.signed ty then x.toInt else (x.toNat : Int)) +
      (intVal ty (elem8 a 0) * intVal ty (elem8 b 0) + intVal ty (elem8 a 1) * intVal ty (elem8 b 1) +
        intVal ty (elem8 a 2) * intVal ty (elem8 b 2) + intVal ty (elem8 a 3) * intVal ty (elem8 b 3)) := by
  simp only [qdotInt, span, List.map_cons, List.map_nil, List.foldl_cons, List.foldl_nil, quarter_eq]
  ring

theorem dotProductResult : DotProductResult := by
  intro h rm ftz sat d a b x
  refine ⟨?dot2, ?dot4, ?signed, ?unsigned⟩
  case dot2 =>
    rintro _ _ (⟨rfl, rfl⟩ | ⟨rfl, rfl⟩)
    · exact writesWord_of (fun _ => rfl) fun _ _ _ => dot2_rounds fmtF16 rm ftz _ _ _
    · exact writesWord_of (fun _ => rfl) fun _ _ _ => dot2_rounds fmtBf16 rm ftz _ _ _
  case dot4 =>
    rintro _ (rfl | rfl)
    · exact writesWord_of (fun _ => rfl) fun _ _ _ => dot4_rounds fmtE4m3 rm ftz _ _ _
    · exact writesWord_of (fun _ => rfl) fun _ _ _ => dot4_rounds fmtE5m2 rm ftz _ _ _
  case signed =>
    refine writes_v (g := fun s c l => aluRes .s32 sat (qdotInt .s8 (c.v s l a) (c.v s l b) (c.v s l x))) (fun _ => rfl) fun s c l => ?_
    rw [aluRes_eq_fit (.inl (.inl rfl)), qdotInt_eq]
    simp only [intVal_s8]
    rfl
  case unsigned =>
    refine writes_v (g := fun s c l => aluRes .z32 sat (qdotInt .z8 (c.v s l a) (c.v s l b) (c.v s l x))) (fun _ => rfl) fun s c l => ?_
    rw [aluRes_eq_fit (.inl (.inr rfl)), qdotInt_eq]
    simp only [intVal_z8 (elem8_lt _ _)]
    push_cast
    rfl

/-- Settles O11: each half is one rounding of its exact result (`packedAdd`, `packedMul`, `packedFma`), a dot product is one rounding of
its exact sum (`dotOf_rounds`), and the integer sums are exact and fitted once (`qdotInt_eq`). -/
theorem packedAndDotResult : Obligations.PackedAndDotResult := ⟨packedArithmeticResult, dotProductResult⟩

end Sys2Proof.Laws
end

section
/-! PROOF. O12: conversions between float formats (R195, R197) and between floats and integers (R196). -/

namespace Sys2Proof.Laws

open Sys2Proof Sys2Proof.Machine Sys2Proof.Claims

/-! Between float formats (R119, R128, R195). -/

theorem fmtOf_injective {dt st : Ty} (hdt : floatTy dt) (hst : floatTy st) : fmtOf dt = fmtOf st ↔ dt = st := by
  rcases hdt with rfl | rfl | rfl | rfl | rfl <;> rcases hst with rfl | rfl | rfl | rfl | rfl <;> decide

/-- No format is wider than a word. -/
theorem two_signBit_le (ty : Ty) : 2 * (fmtOf ty).signBit ≤ 2 ^ 32 := by
  cases ty <;> decide

/-- The patterns of a float type are those of its format. -/
theorem two_signBit_eq {st : Ty} (hst : floatTy st) : 2 * (fmtOf st).signBit = 2 ^ (8 * st.bytes) := by
  rcases hst with rfl | rfl | rfl | rfl | rfl <;> rfl

theorem mod_bytes_lt {st : Ty} (hst : floatTy st) (n : Nat) : n % 2 ^ (8 * st.bytes) < 2 * (fmtOf st).signBit := by
  rw [two_signBit_eq hst]
  exact Nat.mod_lt _ (Nat.two_pow_pos _)

theorem lowBits_lt {st : Ty} (hst : floatTy st) (w : Word) : lowBits st w < 2 * (fmtOf st).signBit := mod_bytes_lt hst w.toNat

/-- A conversion to the format of its operand copies it, but for NaN. -/
theorem copied_eq (st : Ty) (ftz : Bool) (a : Nat) :
    (if (decodeF (fmtOf st) (flush (fmtOf st) ftz a)).isNan then (fmtOf st).nanCode else flush (fmtOf st) ftz a) =
      if ((formatOf st).ext ((formatOf st).ftz ftz a)).isNan = true then (formatOf st).nanCode else (formatOf st).ftz ftz a := by
  have hnan : ∀ x : FVal, x.isNan = x.exact.isNan := fun x => by cases x <;> rfl
  rw [hnan, decodeF_exact, flush_eq, formatOf_eq]

section
variable {dt st : Ty} (rm : RMode) (ftz sat inf : Bool) (key : Word)

theorem cvtF_converted (hdt : floatTy dt) (hst : floatTy st) (a : Nat) :
    converted dt st rm ftz sat inf a (cvtF (fmtOf dt) (fmtOf st) rm ftz sat inf a) := by
  simp only [converted, cvtF, fmtOf_injective hdt hst]
  split
  next h =>
    subst h
    exact copied_eq dt ftz a
  next =>
    refine ⟨_, ?_, (flush_eq ..).trans (by rw [formatOf_eq])⟩
    rw [formatOf_eq, formatOf_eq, ← flush_eq, ← decodeF_exact]
    exact roundF_roundsTo _ (fits_of dt).frac rm sat inf _

theorem cvtSr_convertedSr (a : Nat) : convertedSr dt st ftz sat inf a key (cvtSr dt st ftz sat inf a key) := by
  simp only [convertedSr, cvtSr]
  split
  next h =>
    subst h
    exact copied_eq dt ftz a
  next =>
    refine ⟨_, ?_, (flush_eq ..).trans (by rw [formatOf_eq])⟩
    rw [formatOf_eq, formatOf_eq, ← flush_eq, ← decodeF_exact]
    exact roundSr_roundsSr _ sat inf key.toNat _

end

/-- Stochastic rounding stays in its format. -/
theorem roundsSr_lt {f : FFmt} (hf : f.fits) (sat inf : Bool) (word : Nat) (x : Ext) {w : Nat} (h : f.roundsSr sat inf word x w) :
    w < 2 * f.signBit := by
  cases x with
  | nan => exact f.roundsTo_lt hf .rne false inf .nan w h
  | inf neg => exact f.roundsTo_lt hf .rne false inf (.inf neg) w h
  | fin neg q =>
    obtain ⟨k, -, -, hw⟩ := h
    have htop := hf.top
    have hover := f.overflow_lt hf .rne sat inf neg
    simp only at hw
    generalize (if (word : ℤ) < _ then k + 1 else k) = c at hw
    rw [hw]
    split_ifs <;> omega

theorem copied_lt {st : Ty} {a : Nat} (ftz : Bool) (ha : a < 2 * (fmtOf st).signBit) :
    (if (decodeF (fmtOf st) (flush (fmtOf st) ftz a)).isNan then (fmtOf st).nanCode else flush (fmtOf st) ftz a) <
      2 * (fmtOf st).signBit := by
  have hnan := (fits_of st).nan
  have hflush := (fmtOf st).ftz_lt ftz a ha
  rw [flush_eq]
  split_ifs <;> omega

theorem flush_lt {f : FFmt} (ftz : Bool) {w : Nat} (h : w < 2 * f.signBit) : flush f ftz w < 2 * f.signBit := by
  rw [flush_eq]
  exact f.ftz_lt ftz w h

section
variable {dt st : Ty} {a : Nat} (ha : a < 2 * (fmtOf st).signBit) (rm : RMode) (ftz sat inf : Bool) (key : Word)
include ha

theorem cvtF_lt : cvtF (fmtOf dt) (fmtOf st) rm ftz sat inf a < 2 ^ 32 := by
  simp only [cvtF]
  split
  next h =>
    rw [h]
    exact (copied_lt ftz ha).trans_le (two_signBit_le st)
  next =>
    have hround := roundF_roundsTo (fmtOf dt) (fits_of dt).frac rm sat inf (decodeF (fmtOf st) (flush (fmtOf st) ftz a))
    exact (flush_lt ftz ((fmtOf dt).roundsTo_lt (fits_of dt) rm sat inf _ _ hround)).trans_le (two_signBit_le dt)

theorem cvtSr_lt : cvtSr dt st ftz sat inf a key < 2 ^ 32 := by
  simp only [cvtSr]
  split
  next h =>
    rw [h]
    exact (copied_lt ftz ha).trans_le (two_signBit_le st)
  next =>
    have hround := roundSr_roundsSr (fmtOf dt) sat inf key.toNat (decodeF (fmtOf st) (flush (fmtOf st) ftz a))
    exact (flush_lt ftz (roundsSr_lt (fits_of dt) sat inf _ _ hround)).trans_le (two_signBit_le dt)

end

/-! Packed conversions (R197). -/

theorem setWidth_pairOf (lo hi : Word) : (pairOf lo hi).setWidth 32 = lo := by
  rw [← loW_eq_setWidth, loW, pairOf, BitVec.extractLsb'_append_eq_right]

theorem shift_pairOf (lo hi : Word) : (pairOf lo hi >>> 32).toNat = hi.toNat := by
  rw [BitVec.toNat_ushiftRight, pairOf, BitVec.toNat_append, Nat.shiftRight_eq_div_pow, Nat.shiftLeft_eq]
  have hlo := lo.isLt
  rw [Nat.mul_comm, ← Nat.two_pow_add_eq_or_of_lt hlo]
  omega

/-- `funpack` issues only with a k that names elements of the register (R197). -/
theorem funpack_k_le {h : Hdr} {st : Ty} {ftz : Bool} {d a k : Reg} {s : State} {c : Ctx} (hi : Issues (.funpack h st ftz d a k) s c) :
    k.toNat ≤ funpackMaxK st := by
  have hok : (Instr.funpack h st ftz d a k).operandsOk = true := by
    obtain ⟨-, hrej⟩ := hi
    rw [Ctx.reject?] at hrej
    split_ifs at hrej with h1 h2
    simpa using h2
  rw [Instr.operandsOk, Bool.and_eq_true] at hok
  have hrange := List.all_eq_true.1 hok.2 (.rng k 0 (funpackMaxK st)) (.tail _ (.tail _ (.head _)))
  simpa [Opnd.ok] using hrange

/-- The elements that `funpack` reads. -/
theorem funpack_elem {st : Ty} (hst : floatTy st) (hne : st ≠ .f32) (w : Word) {k : Nat} (hk : k ≤ funpackMaxK st) (i : Nat) :
    w.toNat / 2 ^ (8 * st.bytes * (2 * k + i)) % 2 ^ (8 * st.bytes) =
      if st = .f16 ∨ st = .bf16 then elem16 w i else elem8 w (2 * k + i) := by
  rcases hst with rfl | rfl | rfl | rfl | rfl
  · exact absurd rfl hne
  · rw [Nat.le_zero.1 hk, Nat.mul_zero, Nat.zero_add]
    exact half_eq w i
  · rw [Nat.le_zero.1 hk, Nat.mul_zero, Nat.zero_add]
    exact half_eq w i
  · exact quarter_eq w (2 * k + i)
  · exact quarter_eq w (2 * k + i)

theorem funpack_converted {st : Ty} (hst : floatTy st) (hne : st ≠ .f32) (ftz : Bool) (w : Word) {k : Nat} (hk : k ≤ funpackMaxK st)
    (i : Nat) :
    converted .f32 st .rne ftz false false (if st = .f16 ∨ st = .bf16 then elem16 w i else elem8 w (2 * k + i))
      (wordOf (cvtF (fmtOf .f32) (fmtOf st) .rne ftz false false (w.toNat / 2 ^ (8 * st.bytes * (2 * k + i)) % 2 ^ (8 * st.bytes)))).toNat := by
  have hlt := cvtF_lt (dt := .f32) (mod_bytes_lt hst (w.toNat / 2 ^ (8 * st.bytes * (2 * k + i)))) .rne ftz false false
  rw [wordOf_toNat hlt, ← funpack_elem hst hne w hk]
  exact cvtF_converted .rne ftz false false (.inl rfl) hst _

theorem floatConversionResult : FloatConversionResult := by
  intro h dt st rm ftz sat inf d a b k hdt hst
  refine ⟨writesWord_of (fun _ => rfl) fun s c l => ?cvt, writesWord_of (fun _ => rfl) fun s c l => ?sr,
    fun hne => writesWord_of (fun _ => rfl) fun s c l => ?pack, fun hne => ⟨_, writes_same fun _ => rfl, fun s c l hi => ?unpack⟩⟩
  case cvt =>
    rw [wordOf_toNat (cvtF_lt (lowBits_lt hst _) rm ftz sat inf), lowBits_eq hst]
    exact cvtF_converted rm ftz sat inf hdt hst _
  case sr =>
    rw [wordOf_toNat (cvtSr_lt (lowBits_lt hst _) ftz sat inf _), lowBits_eq hst]
    exact cvtSr_convertedSr ftz sat inf _ _
  case pack =>
    have hcvt := cvtF_converted rm ftz sat inf hdt (.inl rfl : floatTy .f32)
    refine ⟨_, _, hcvt _, hcvt _, ?_⟩
    rcases hdt with rfl | rfl | rfl | rfl | rfl
    · exact absurd rfl hne
    all_goals rfl
  case unpack =>
    have hk := funpack_k_le hi
    refine ⟨?_, ?_⟩
    · rw [setWidth_pairOf]
      exact funpack_converted hst hne ftz (c.v s l a) hk 0
    · rw [shift_pairOf]
      exact funpack_converted hst hne ftz (c.v s l a) hk 1

/-! Floats and integers (R120, R196). -/

theorem floatToInt_rounds {it : Ty} (hit : FullTy it) (rm : RMode) (x : FVal) : integerOf it rm x.exact (floatToInt it rm x) := by
  cases x with
  | nan => rfl
  | inf neg => simp only [integerOf, FVal.exact, floatToInt, intMin_eq_least hit, intMax_eq_greatest hit]
  | fin neg m e =>
    obtain ⟨k, hk, hr⟩ := roundInt_nearest rm neg m e
    exact ⟨k, hk, by rw [floatToInt, clampTy_eq hit, hr]⟩

theorem icvtf_rounds {ft : Ty} (rm : RMode) (ftz : Bool) (n : Int) :
    (formatOf ft).resultOf rm ftz (wholeOf n) (wordOf ((fmtOf ft).result rm ftz (FVal.ofInt n))).toNat := by
  rw [wordOf_toNat ((result_lt (fits_of ft) rm ftz _).trans_le (two_signBit_le ft)), formatOf_eq, ← ofInt_exact]
  exact result_rounds (fits_of ft) rm ftz _

theorem fcvti_rounds {it ft : Ty} (hit : FullTy it) (hft : floatTy ft) (rm : RMode) (ftz : Bool) (w : Word) :
    integerOf it rm ((formatOf ft).operand ftz (lowOf ft w)) (floatToInt it rm ((fmtOf ft).val ftz (lowBits ft w))) := by
  rw [formatOf_eq, ← lowBits_eq hft, ← val_exact]
  exact floatToInt_rounds hit rm _

theorem integerConversionResult : IntegerConversionResult := by
  intro h it ft rm ftz d a hft
  have hfloat : floatTy ft := by
    rcases hft with rfl | rfl | rfl <;> simp [floatTy]
  refine ⟨fun hit => ⟨⟨_, writes_same fun _ => ?_, fun s c l => fcvti_rounds (.inl hit) hfloat rm ftz _⟩, ?_⟩,
    fun hit => ⟨⟨_, writes_same fun _ => ?_, fun s c l => fcvti_rounds (.inr hit) hfloat rm ftz _⟩, ?_⟩⟩
  · rcases hit with rfl | rfl <;> rfl
  · refine writesWord_of (r := fun s c l => wordOf ((fmtOf ft).result rm ftz (FVal.ofInt (num it (c.v s l a))))) (fun _ => ?_)
      fun s c l => icvtf_rounds rm ftz _
    rcases hit with rfl | rfl <;> rfl
  · rcases hit with rfl | rfl <;> rfl
  · refine writesWord_of (r := fun s c l => wordOf ((fmtOf ft).result rm ftz (FVal.ofInt (num it (c.pair s l a))))) (fun _ => ?_)
      fun s c l => icvtf_rounds rm ftz _
    rcases hit with rfl | rfl <;> rfl

end Sys2Proof.Laws
end

section
/-! PROOF. O12, continued: block scales, and conversion into and out of DS8 (R113-R115, R198, R199). -/

namespace Sys2Proof.Laws

open Sys2Proof Sys2Proof.Machine Sys2Proof.Claims

/-! Block scales (R198). -/

/-- The power of two at a magnitude or below it. -/
theorem log2_bounds {m : Nat} (hm : m ≠ 0) (e : Int) :
    (2 : ℚ) ^ ((Nat.log2 m : Int) + e) ≤ FVal.magnitude m e ∧ FVal.magnitude m e < 2 ^ ((Nat.log2 m : Int) + e + 1) := by
  have hlow : ((2 ^ Nat.log2 m : ℕ) : ℚ) ≤ m := Nat.cast_le.2 (Nat.log2_self_le hm)
  have hhigh : (m : ℚ) < ((2 ^ (Nat.log2 m + 1) : ℕ) : ℚ) := Nat.cast_lt.2 Nat.lt_log2_self
  have hpos := two_zpow_pos e
  push_cast at hlow hhigh
  rw [add_right_comm, zpow_add₀ (by norm_num), zpow_add₀ (by norm_num) ((Nat.log2 m : Int) + 1), ← Nat.cast_succ, zpow_natCast, zpow_natCast]
  exact ⟨mul_le_mul_of_nonneg_right hlow hpos.le, mul_lt_mul_of_pos_right hhigh hpos⟩

theorem emaxOf_eq (ty : Ty) : emaxOf ty = emax ty := by
  cases ty <;> rfl

theorem blockScale_scaleByte (ty : Ty) (x : FVal) : Claims.scaleByte ty x.exact (blockScale ty x) := by
  cases x with
  | nan => rfl
  | inf neg => rfl
  | fin neg m e =>
    simp only [Claims.scaleByte, FVal.exact, blockScale, magnitude_eq_zero_iff, emaxOf_eq]
    by_cases hm : m = 0
    · rw [if_pos hm, if_pos hm]
    · rw [if_neg hm, if_neg hm]
      obtain ⟨hlow, hhigh⟩ := log2_bounds hm e
      refine ⟨_, hlow, hhigh, ?_⟩
      split_ifs <;> omega

theorem blockScale_lt (ty : Ty) (x : FVal) : blockScale ty x < 256 := by
  cases x with
  | nan => exact Nat.lt_succ_self 255
  | inf neg => exact Nat.lt_succ_self 255
  | fin neg m e =>
    simp only [blockScale]
    split_ifs <;> omega

/-! DS8 weights (R114). -/

theorem ds8Term_eq (s : Nat) {e : Nat} (he : e < 8) :
    (ds8Term (s == 1) e : ℚ) / 64 = if e = 7 then 0 else (if s = 1 then -1 else 1) / 2 ^ e := by
  by_cases hs : s = 1
  · interval_cases e <;> simp [ds8Term, hs] <;> norm_num
  · interval_cases e <;> simp [ds8Term, hs] <;> norm_num

/-- The model counts a weight in units of 2^-6. -/
theorem ds8Value_eq (w : Nat) : ds8Value w = (ds8Units w : ℚ) / 64 := by
  rw [ds8Value, ds8Units, Int.cast_add, add_div, ds8Term_eq _ (Nat.mod_lt _ (by decide)), ds8Term_eq _ (Nat.mod_lt _ (by decide))]

theorem ds8Value_eq_iff (u w : Nat) : ds8Value u = ds8Value w ↔ ds8Units u = ds8Units w := by
  rw [ds8Value_eq, ds8Value_eq, div_left_inj' (by norm_num), Int.cast_inj]

/-- A DS8 weight times its scale, exactly (R113). -/
theorem scaleE8_exact (w scale : Nat) : (scaleE8 (ds8Val w) scale).exact = ds8Scaled w scale := by
  have hneg : ds8Value w < 0 ↔ ds8Units w < 0 := by
    rw [ds8Value_eq, div_lt_iff₀ (by norm_num), zero_mul, Int.cast_lt_zero]
  have habs : |ds8Value w| = FVal.magnitude (ds8Units w).natAbs (-6) := by
    rw [ds8Value_eq, FVal.magnitude, abs_div, Nat.cast_natAbs, Int.cast_abs, div_eq_mul_inv]
    norm_num
  by_cases hs : scale = 255
  · simp only [scaleE8, ds8Scaled, hs, if_true, FVal.exact]
  · simp only [scaleE8, ds8Scaled, hs, if_false, ds8Val, FVal.exact, magnitude_add, hneg, habs]

/-! Canonical encodings (R115). -/

/-- The first member with the least number is a member, and none has a lesser number. -/
theorem minBy_least {α : Type} {f : α → Nat} {xs : List α} {y : α} (h : minBy f xs = some y) : y ∈ xs ∧ ∀ x ∈ xs, f y ≤ f x := by
  induction xs generalizing y with
  | nil => cases h
  | cons x xs ih =>
    rw [minBy] at h
    split at h
    next hnone =>
      obtain rfl : x = y := Option.some.inj h
      obtain rfl : xs = [] := by
        by_contra hne
        obtain ⟨z, hz⟩ := minBy_isSome f hne
        rw [hz] at hnone
        cases hnone
      simp
    next z hz =>
      obtain ⟨hmem, hle⟩ := ih hz
      split_ifs at h with hxz
      · obtain rfl : x = y := Option.some.inj h
        exact ⟨List.mem_cons_self, List.forall_mem_cons.2 ⟨le_rfl, fun w hw => hxz.trans (hle w hw)⟩⟩
      · obtain rfl : z = y := Option.some.inj h
        exact ⟨List.mem_cons_of_mem _ hmem, List.forall_mem_cons.2 ⟨by omega, hle⟩⟩

/-- Of a list that has members, whatever the default. -/
theorem minBy_getD {α : Type} (f : α → Nat) {xs : List α} {x : α} (hx : x ∈ xs) (d : α) :
    (minBy f xs).getD d ∈ xs ∧ ∀ z ∈ xs, f ((minBy f xs).getD d) ≤ f z := by
  obtain ⟨y, hy⟩ := minBy_isSome f (List.ne_nil_of_mem hx)
  rw [hy]
  exact minBy_least hy

/-- The encodings of a sum among which the canonical one is chosen. -/
def encodings (u : Int) : List Nat := (upTo 256).filter fun w => ds8Tidy w && ds8Units w == u

theorem mem_upTo {n x : Nat} : x ∈ upTo n ↔ x < n := by
  rw [upTo_eq_span, mem_span]
  omega

theorem ds8Tidy_iff (w : Nat) : ds8Tidy w = true ↔ zerosPlain w := by
  have h1 : w / 128 % 2 < 2 := Nat.mod_lt _ (by decide)
  have h2 : w / 8 % 2 < 2 := Nat.mod_lt _ (by decide)
  simp only [ds8Tidy, zerosPlain, Bool.and_eq_true, Bool.not_eq_true', Bool.and_eq_false_imp, beq_iff_eq, beq_eq_false_iff_ne]
  omega

theorem mem_encodings {w : Nat} {u : Int} : w ∈ encodings u ↔ w < 256 ∧ zerosPlain w ∧ ds8Units w = u := by
  rw [encodings, List.mem_filter, mem_upTo, Bool.and_eq_true, ds8Tidy_iff, beq_iff_eq]

theorem ds8Terms_eq (w : Nat) : ds8Terms w = termsOf w := rfl

/-- Fewer terms come first, then the lesser e1. -/
theorem canonKey_le_iff (w v : Nat) :
    ds8Terms w * 8 + w / 16 % 8 ≤ ds8Terms v * 8 + v / 16 % 8 ↔
      termsOf w < termsOf v ∨ (termsOf w = termsOf v ∧ w / 16 % 8 ≤ v / 16 % 8) := by
  have hw : w / 16 % 8 < 8 := Nat.mod_lt _ (by decide)
  have hv : v / 16 % 8 < 8 := Nat.mod_lt _ (by decide)
  rw [ds8Terms_eq, ds8Terms_eq]
  omega

theorem canonical_iff (w : Nat) :
    canonical w ↔ w ∈ encodings (ds8Units w) ∧
      ∀ v ∈ encodings (ds8Units w), ds8Terms w * 8 + w / 16 % 8 ≤ ds8Terms v * 8 + v / 16 % 8 := by
  simp only [canonical, mem_encodings, canonKey_le_iff, ds8Value_eq_iff, and_true, and_assoc, and_imp]

/-- Where a sum has an encoding, the model's canonical one is canonical. -/
theorem ds8Canon_canonical {w : Nat} {u : Int} (hw : w ∈ encodings u) : ds8Units (ds8Canon u) = u ∧ canonical (ds8Canon u) := by
  obtain ⟨hmem, hleast⟩ := minBy_getD (fun w => ds8Terms w * 8 + w / 16 % 8) hw 0x77
  have hunits : ds8Units (ds8Canon u) = u := (mem_encodings.1 hmem).2.2
  rw [canonical_iff, hunits]
  exact ⟨rfl, hmem, hleast⟩

theorem zero_mem_encodings : 0x77 ∈ encodings 0 := mem_encodings.2 (by unfold zerosPlain; decide)

theorem canonical_of_mem {w : Nat} (h : w ∈ ds8Canons) : canonical w := by
  rw [ds8Canons, List.mem_filter, beq_iff_eq] at h
  obtain ⟨-, hw⟩ := h
  by_cases hnil : encodings (ds8Units w) = []
  · have hdefault : ds8Canon (ds8Units w) = 0x77 := by
      rw [ds8Canon, ← encodings, hnil]
      rfl
    rw [← hw, hdefault, show ds8Units 0x77 = 0 by decide] at hnil
    exact absurd (hnil ▸ zero_mem_encodings) List.not_mem_nil
  · obtain ⟨v, hv⟩ := List.exists_mem_of_ne_nil _ hnil
    exact hw ▸ (ds8Canon_canonical hv).2

/-- Every canonical encoding has one of the model's with its value and its number of terms. -/
theorem exists_mem_ds8Canons {u : Nat} (h : canonical u) : ∃ w ∈ ds8Canons, ds8Units w = ds8Units u ∧ termsOf w = termsOf u := by
  obtain ⟨hmem, hleast⟩ := (canonical_iff u).1 h
  obtain ⟨hunits, hcanon⟩ := ds8Canon_canonical hmem
  obtain ⟨hmem', hleast'⟩ := (canonical_iff _).1 hcanon
  rw [hunits] at hmem' hleast'
  refine ⟨ds8Canon (ds8Units u), ?_, hunits, ?_⟩
  · rw [ds8Canons, List.mem_filter, mem_upTo, hunits, beq_self_eq_true]
    exact ⟨(mem_encodings.1 hmem').1, rfl⟩
  · have h1 := (canonKey_le_iff _ _).1 (hleast _ hmem')
    have h2 := (canonKey_le_iff _ _).1 (hleast' _ hmem)
    omega

theorem termsOf_le (w : Nat) : termsOf w ≤ 2 := by
  unfold termsOf
  split_ifs <;> omega

theorem natAbs_ds8Term_le (s : Bool) (e : Nat) : (ds8Term s e).natAbs ≤ 64 := by
  have hpow : 2 ^ (6 - e) ≤ 2 ^ 6 := Nat.pow_le_pow_right (by decide) (by omega)
  rw [ds8Term]
  split_ifs
  · decide
  · rw [Int.natAbs_neg, Int.natAbs_pow]
    exact hpow
  · rw [Int.natAbs_pow]
    exact hpow

theorem natAbs_ds8Units_le (w : Nat) : (ds8Units w).natAbs ≤ 128 := by
  have h1 := natAbs_ds8Term_le (w / 128 % 2 == 1) (w / 16 % 8)
  have h2 := natAbs_ds8Term_le (w / 8 % 2 == 1) (w % 8)
  rw [ds8Units]
  omega

theorem abs_ds8Value_le_iff (w u : Nat) : |ds8Value w| ≤ |ds8Value u| ↔ (ds8Units w).natAbs ≤ (ds8Units u).natAbs := by
  rw [ds8Value_eq, ds8Value_eq, abs_div, abs_div, div_le_div_iff_of_pos_right (by norm_num), ← Int.cast_abs, ← Int.cast_abs, Int.cast_le,
    Int.abs_eq_natAbs, Int.abs_eq_natAbs, Int.ofNat_le]

/-! The nearest weight (R115). -/

theorem Dy.neg_iff (x : Dy) : x.n < 0 ↔ x.rat < 0 := by
  rw [Dy.rat, ← not_le, ← not_le, mul_nonneg_iff_of_pos_right (two_zpow_pos x.e), Int.cast_nonneg_iff]

/-- The distance of a weight from a number, in units of the lesser of their last places. -/
def ds8Dist (v : Dy) (w : Nat) : Nat :=
  let g : Int := if v.e < -6 then v.e else -6
  ((ds8Units w * 2 ^ (-6 - g).toNat) - v.n * 2 ^ (v.e - g).toNat).natAbs

/-- The number by which the model takes the nearest weight: distance, then terms, then magnitude. -/
def ds8Key (v : Dy) (w : Nat) : Nat := (ds8Dist v w * 4 + ds8Terms w) * 512 + (ds8Units w).natAbs

theorem ds8Dist_scaled (v : Dy) : ∃ g : Int, ∀ w, |ds8Value w - v.rat| = ds8Dist v w * 2 ^ g := by
  refine ⟨if v.e < -6 then v.e else -6, fun w => ?_⟩
  simp only [ds8Dist]
  generalize hg : (if v.e < -6 then v.e else -6) = g
  obtain ⟨p, hp⟩ : ∃ p : ℕ, -6 = g + p := ⟨(-6 - g).toNat, by split_ifs at hg <;> omega⟩
  obtain ⟨q, hq⟩ : ∃ q : ℕ, v.e = g + q := ⟨(v.e - g).toNat, by split_ifs at hg <;> omega⟩
  have hsix : (ds8Units w : ℚ) / 64 = ds8Units w * 2 ^ p * 2 ^ g := by
    rw [mul_assoc, ← zpow_natCast, ← zpow_add₀ (by norm_num), add_comm (p : ℤ), ← hp, div_eq_mul_inv]
    norm_num
  have hrat : v.rat = v.n * 2 ^ q * 2 ^ g := by
    rw [mul_assoc, ← zpow_natCast, ← zpow_add₀ (by norm_num), add_comm (q : ℤ), ← hq, Dy.rat]
  rw [ds8Value_eq, hsix, hrat, ← sub_mul, abs_mul, abs_of_pos (two_zpow_pos g), Nat.cast_natAbs, hp, hq, add_sub_cancel_left,
    add_sub_cancel_left, Int.toNat_natCast, Int.toNat_natCast]
  push_cast
  rfl

/-- Nearer, or as near with fewer terms, or with as many and no greater magnitude. -/
def noWorse (v : ℚ) (w u : Nat) : Prop :=
  |ds8Value w - v| < |ds8Value u - v| ∨
    (|ds8Value w - v| = |ds8Value u - v| ∧ (termsOf w < termsOf u ∨ (termsOf w = termsOf u ∧ |ds8Value w| ≤ |ds8Value u|)))

theorem ds8Key_le_iff (v : Dy) (w u : Nat) : ds8Key v w ≤ ds8Key v u ↔ noWorse v.rat w u := by
  obtain ⟨g, hdist⟩ := ds8Dist_scaled v
  have hpos := two_zpow_pos g
  have hw := termsOf_le w
  have hu := termsOf_le u
  have hw' := natAbs_ds8Units_le w
  have hu' := natAbs_ds8Units_le u
  rw [noWorse, hdist, hdist, mul_lt_mul_iff_left₀ hpos, mul_left_inj' hpos.ne', Nat.cast_lt, Nat.cast_inj, abs_ds8Value_le_iff,
    ds8Key, ds8Key, ds8Terms_eq, ds8Terms_eq]
  omega

/-- The nearest of the model's weights is no worse than any canonical one. -/
theorem nearest_canonical (v : Dy) :
    let w := (minBy (ds8Key v) ds8Canons).getD 0x77
    canonical w ∧ ∀ u, canonical u → noWorse v.rat w u := by
  obtain ⟨x, hx, -⟩ := exists_mem_ds8Canons (ds8Canon_canonical zero_mem_encodings).2
  obtain ⟨hmem, hleast⟩ := minBy_getD (ds8Key v) hx 0x77
  refine ⟨canonical_of_mem hmem, fun u hu => ?_⟩
  obtain ⟨z, hz, hunits, hterms⟩ := exists_mem_ds8Canons hu
  have hkey : ds8Key v z = ds8Key v u := by
    simp only [ds8Key, ds8Dist, ds8Terms_eq, hunits, hterms]
  exact (ds8Key_le_iff v _ u).1 ((hleast z hz).trans hkey.le)

/-- A finite value divided by its scale, exactly. -/
def unscaled (neg : Bool) (m : Nat) (e : Int) (scale : Nat) : Dy := ⟨if neg then -(m : Int) else m, e - ((scale : Int) - 127)⟩

theorem unscaled_rat (neg : Bool) (m : Nat) (e : Int) (scale : Nat) :
    (unscaled neg m e scale).rat = (Ext.fin neg (FVal.magnitude m e)).num / 2 ^ ((scale : ℤ) - 127) := by
  rw [Dy.rat, unscaled, zpow_sub₀ (by norm_num), ← mul_div_assoc]
  cases neg <;> simp [Ext.num, FVal.magnitude]

theorem exceeds_two_iff (v : Dy) : (Dy.add ⟨2, 0⟩ ⟨-v.n.natAbs, v.e⟩).n < 0 ↔ 2 < |v.rat| := by
  have habs : Dy.rat ⟨-v.n.natAbs, v.e⟩ = -|v.rat| := by
    rw [Dy.rat, Dy.rat, abs_mul, abs_of_pos (two_zpow_pos v.e), Int.cast_neg, Int.cast_natCast, Nat.cast_natAbs, Int.cast_abs, neg_mul]
  rw [Dy.neg_iff, Dy.rat_add, habs, show Dy.rat ⟨2, 0⟩ = 2 by norm_num [Dy.rat]]
  constructor <;> intro h <;> linarith

theorem ds8Enc_intoDs8 (x : FVal) (scale : Nat) : intoDs8 x.exact scale (ds8Enc x scale) := by
  by_cases hs : scale = 255
  · cases x <;> simp [intoDs8, ds8Enc, hs]
  cases x with
  | nan => simp [intoDs8, ds8Enc, hs, FVal.exact]
  | inf neg => simp [intoDs8, ds8Enc, hs, FVal.exact]
  | fin neg m e =>
    have henc : ds8Enc (.fin neg m e) scale =
        if (Dy.add ⟨2, 0⟩ ⟨-(unscaled neg m e scale).n.natAbs, (unscaled neg m e scale).e⟩).n < 0 then (if neg then 0x88 else 0x00)
        else (minBy (ds8Key (unscaled neg m e scale)) ds8Canons).getD 0x77 := if_neg hs
    simp only [intoDs8, hs, if_false, FVal.exact, henc, exceeds_two_iff, ← unscaled_rat]
    split
    next => rfl
    next => exact nearest_canonical _

/-- A weight is one byte. -/
theorem intoDs8_lt {x : Ext} {scale w : Nat} (h : intoDs8 x scale w) : w < 256 := by
  simp only [intoDs8] at h
  split at h
  · omega
  split at h
  · omega
  · split_ifs at h <;> omega
  · split at h
    · split_ifs at h <;> omega
    · obtain ⟨⟨hbyte, -⟩, -⟩ := h
      exact hbyte

/-! The instructions. -/

theorem blockScaleResult : BlockScaleResult := by
  intro h dt rm ftz d a b k hdt
  refine ⟨writesWord_of (fun _ => rfl) fun s c l => ⟨blockScale dt (fmtF32.val ftz (c.v s l a).toNat), ?byte, ?max⟩,
    writesWord_of (fun _ => rfl) fun s c l => ?enc, writesWord_of (fun _ => rfl) fun s c l => ?dec⟩
  case byte =>
    rw [← val_exact]
    exact blockScale_scaleByte dt _
  case max =>
    have hbyte := elem8_lt (c.v s l b) 0
    have hscale := blockScale_lt dt (fmtF32.val ftz (c.v s l a).toNat)
    rw [quarter_eq]
    exact wordOf_toNat (lt_trans (max_lt hbyte hscale) (by decide))
  case enc =>
    have hinto := ds8Enc_intoDs8 (fmtF32.val ftz (c.v s l a).toNat) (quarter (c.v s l b) 0)
    rw [wordOf_toNat (lt_trans (intoDs8_lt hinto) (by decide)), ← val_exact, ← quarter_eq]
    exact hinto
  case dec =>
    rw [← scaleE8_exact, ← quarter_eq, ← quarter_eq]
    exact resultOf_word (result_rounds fits_f32 rm ftz _)

/-- Settles O12: conversions round once or stochastically (`cvtF_converted`, `cvtSr_convertedSr`), integers are the rounded value
clamped (`floatToInt_rounds`), and a DS8 weight is the nearest canonical one (`nearest_canonical`). -/
theorem conversionResult : Obligations.ConversionResult := ⟨floatConversionResult, integerConversionResult, blockScaleResult⟩

end Sys2Proof.Laws
end

section
/-! PROOF. O21: dataflow channels (R73, R222-R226). -/

namespace Sys2Proof.Laws

open Sys2Proof Sys2Proof.Machine Sys2Proof.Claims

/-! The checks (R222). -/

theorem inst_of_find {t : Team} {k : Nat} {x : ChanInst} (h : SMap.find t.chans k = some x) : t.inst k = x := by
  rw [Team.inst, SMap.getD, h]
  rfl

theorem chanChk_registers {c : Ctx} {k : BitVec 4} {x : ChanInst} {b : Reg} (h : SMap.find c.t.chans k.toNat = some x)
    (hn : b.toNat + x.width / 4 ≤ 32 * c.g.nb) (h256 : b.toNat + x.width / 4 ≤ 256) : c.chanChk k (some b) = none := by
  have hin : c.runBeyond b (x.width / 4) = false := by
    simp only [Ctx.runBeyond, Bool.or_eq_false_iff, decide_eq_false_iff_not]
    omega
  simp only [Ctx.chanChk, h, hin, Bool.false_eq_true, if_false]

theorem chanChk_alone {c : Ctx} {k : BitVec 4} {x : ChanInst} (h : SMap.find c.t.chans k.toNat = some x) : c.chanChk k none = none := by
  simp only [Ctx.chanChk, h]

/-- A mask of lanes that none meets is empty. -/
theorem ofPred_none {f : Nat → Bool} (h : ∀ l, f l = false) : Mask.ofPred f = 0 := by
  refine BitVec.eq_of_getLsbD_eq fun l _ => ?_
  rw [Mask.ofPred_getLsbD, h l, Bool.and_false]
  exact (BitVec.getLsbD_zero).symm

/-! Sends (R224). -/

/-- Every lane of a send has a target that is done or has room for all lanes that name it. -/
theorem sendReady_iff (c : Ctx) (s : State) (k : Nat) (m : Mask) (a : Reg) : c.sendReady s k m a = true ↔
    ∀ l, m.getLsbD l = true → ∃ u t, c.teamNum s (c.v s l a).toNat = some (u, t) ∧
      (t.tst = .done ∨ (t.inst k).q.length + c.naming s m a (c.v s l a).toNat ≤ (t.inst k).slots) := by
  simp only [Ctx.sendReady, List.all_eq_true, Mask.mem_lanes]
  refine forall₂_congr fun l _ => ?_
  cases c.teamNum s (c.v s l a).toNat with
  | none => simp
  | some y => simp [Prod.ext_iff]

theorem sendOrPark_sends {c : Ctx} {s : State} {k : Nat} {m : Mask} {a : Reg} (hready : c.sendReady s k m a = true)
    (hawake : c.sendAsleep s k m a = []) (i : Instr) (b p : Reg) :
    c.sendOrPark i k m a b p s = c.advance i (c.send k m a b p s) := by
  simp only [Ctx.sendOrPark, hready, hawake, if_true]

theorem sendOrPark_waits {c : Ctx} {s : State} {k : Nat} {m : Mask} {a : Reg} (h : c.sendReady s k m a = false) (i : Instr)
    (b p : Reg) : c.sendOrPark i k m a b p s = s.updGroup c.gk fun g => { g with park := .chanSend i m } := by
  simp only [Ctx.sendOrPark, h, Bool.false_eq_true, if_false]

/-- The model fills a slot as the statement says. -/
theorem fillSlot_eq_filled (c : Ctx) (k : Nat) (a b : Reg) (s0 s : State) (l : Nat) :
    c.fillSlot k a b s0 s l = filled c k a b s0 s l := by
  rw [Ctx.fillSlot, filled, Ctx.teamNum]
  cases s.teams.find? fun x => x.2.launch == c.t.launch && x.2.num == (c.v s0 l a).toNat <;> rfl

theorem filled_groups (c : Ctx) (k : Nat) (a b : Reg) (s0 s : State) (l : Nat) : (filled c k a b s0 s l).groups = s.groups := by
  unfold filled
  split
  · split
    · rfl
    · extract_lets
      split <;> rfl
  · rfl

/-- What a send leaves (R224). -/
theorem send_eq (c : Ctx) (k : Nat) (m : Mask) (a b p : Reg) (s : State) : c.send k m a b p s =
    ((Mask.lanes m).foldl (filled c k a b s) s).writeLanes c.gk m fun l =>
      Wr.p p (match c.teamNum s (c.v s l a).toNat with | some (_, t) => decide (t.tst ≠ .done) | none => false) := by
  have hfill : c.fillSlot k a b s = filled c k a b s := funext₂ fun u l => fillSlot_eq_filled c k a b s u l
  rw [← hfill]
  rfl

theorem send_group {c : Ctx} {s : State} {g : Group} (hg : s.group? c.gk = some g) (k : Nat) (m : Mask) (a b p : Reg) :
    ∃ h, (c.send k m a b p s).group? c.gk = some h := by
  have hfold : ((Mask.lanes m).foldl (filled c k a b s) s).groups = s.groups :=
    List.foldlRecOn (motive := fun (u : State) => u.groups = s.groups) _ _ rfl fun u hu l _ =>
      (filled_groups c k a b s u l).trans hu
  rw [send_eq]
  exact writeLanes_group m _ (g := g) (by rw [State.group?, hfold]; exact hg)

/-- A send whose lanes all name teams of the launch, none of them more often than a team has slots, raises no trap. -/
theorem exec_chanSend {h : Hdr} {k : BitVec 4} {a b p : Reg} {s : State} {c : Ctx} {x : ChanInst} {m : Mask}
    (hi : Issues (.chanSend h k a b p) s c) (hm : c.active (.chanSend h k a b p) s &&& c.g.real = m) (hx : SMap.find c.t.chans k.toNat = some x)
    (hn : b.toNat + x.width / 4 ≤ 32 * c.g.nb) (h256 : b.toNat + x.width / 4 ≤ 256)
    (hl : ∀ l, m.getLsbD l = true → (c.v s l a).toNat < c.l.teams ∧ c.naming s m a (c.v s l a).toNat ≤ x.slots) :
    exec (.chanSend h k a b p) s = .next (if m = 0 then c.advance (.chanSend h k a b p) s
      else c.sendOrPark (.chanSend h k a b p) k.toNat m a b p s) := by
  have hrun : exec (.chanSend h k a b p) s = execChanSend h k a b p s := rfl
  rw [hrun, execChanSend, issue_next hi]
  simp only [chanChk_registers hx hn h256, inst_of_find hx, Ctx.realOf, hm]
  rw [if_neg (not_not.mpr (ofPred_none fun l => ?far)), if_neg (not_not.mpr (ofPred_none fun l => ?many))]
  case far =>
    cases hb : m.getLsbD l with
    | false => rfl
    | true => simpa using (hl l hb).1
  case many =>
    cases hb : m.getLsbD l with
    | false => rfl
    | true => simpa using (hl l hb).2

/-! Receives (R225). -/

theorem recvOrPark_takes {c : Ctx} {s : State} {k : Nat} {m : Mask} (hfull : Mask.count m ≤ (c.t.inst k).q.length)
    (hawake : ∀ y ∈ s.instBanks c.tuid k, (s.bank y).pwr = .on) (i : Instr) (d : Reg) :
    c.recvOrPark i k m d s = c.advance i (c.recv k m d s) := by
  have hon : (s.instBanks c.tuid k).filter (fun b => decide ((s.bank b).pwr ≠ .on)) = [] := by
    rw [List.filter_eq_nil_iff]
    intro y hy
    simpa using hawake y hy
  simp only [Ctx.recvOrPark, hfull, if_true, hon]

theorem recvOrPark_waits {c : Ctx} {s : State} {k : Nat} {m : Mask} (h : (c.t.inst k).q.length < Mask.count m) (i : Instr)
    (d : Reg) : c.recvOrPark i k m d s = s.updGroup c.gk fun g => { g with park := .chanRecv i m } := by
  rw [Ctx.recvOrPark, if_neg (Nat.not_le.mpr h)]

/-- Writes by two formulas that agree on the lanes that write. -/
theorem writeLanes_congr {s : State} {gk : Nat} {m : Mask} {f f' : Nat → Wr} (h : ∀ l, m.getLsbD l = true → f l = f' l) :
    s.writeLanes gk m f = s.writeLanes gk m f' := by
  have hite : ∀ (α : Type) (y : α) (z : Wr → α) l, (if m.getLsbD l = true then z (f l) else y) = if m.getLsbD l = true then z (f' l) else y :=
    fun α y z l => by
      by_cases hl : m.getLsbD l = true
      · rw [h l hl]
      · simp only [if_neg hl]
  have hwrite : ∀ g : Group, g.write m f = g.write m f' := fun g => by
    simp only [Group.write, Pend.clobber, hite _ _ (Lane.apply _), hite _ _ (PLane.clobber _)]
  have hregs : ((Mask.lanes m).flatMap fun l => (f l).vs.map (·.1)) = (Mask.lanes m).flatMap fun l => (f' l).vs.map (·.1) :=
    List.flatMap_congr fun l hl => by rw [h l ((Mask.mem_lanes _ _).mp hl)]
  simp only [State.writeLanes, hwrite, hregs]

/-- In a list of different, ascending numbers, each is paired with the member that as many numbers lie below. -/
theorem zip_find_ascending {α : Type} (ls : List Nat) (hs : ls.Pairwise (· < ·)) (q : List α) (hq : ls.length ≤ q.length) (d : α) (l : Nat)
    (hl : l ∈ ls) :
    (ls.zip q).find? (fun y => y.1 == l) = some (l, atD q (ls.filter fun j => decide (j < l)).length d) := by
  induction ls generalizing q with
  | nil => cases hl
  | cons x ls ih =>
    cases q with
    | nil => cases hq
    | cons y q =>
      obtain ⟨hx, hls⟩ := List.pairwise_cons.mp hs
      by_cases hxl : x = l
      · subst hxl
        have hnone : (x :: ls).filter (fun j => decide (j < x)) = [] := by
          rw [List.filter_eq_nil_iff]
          intro j hj
          rcases List.mem_cons.mp hj with rfl | hj
          · simp
          · simpa using (hx j hj).le
        rw [hnone]
        simp [atD]
      · have hmem : l ∈ ls := (List.mem_cons.mp hl).resolve_left (Ne.symm hxl)
        have hlt : x < l := hx l hmem
        rw [List.zip_cons_cons, List.find?_cons_of_neg (by simpa using hxl), ih hls q (by simpa using hq) hmem]
        simp [hlt, atD]

theorem span_ascending (a n : Nat) : (span a n).Pairwise (· < ·) := by
  rw [span_eq_range']
  exact List.pairwise_lt_range'

theorem lanes_ascending (m : Mask) : (Mask.lanes m).Pairwise (· < ·) := (span_ascending 0 32).filter _

/-- What a receive leaves, where it has as many filled slots as lanes. -/
theorem recv_eq {c : Ctx} {k : Nat} {m : Mask} {x : ChanInst} (hx : c.t.inst k = x) (hfull : Mask.count m ≤ x.q.length) (d : Reg)
    (s : State) : c.recv k m d s =
      (((span x.taken (Mask.count m)).foldl (fun v n => v.observeOps c.gk (slotEvent k n))
        (s.updTeam c.tuid fun t =>
          { t with chans := SMap.put t.chans k { x with q := x.q.drop (Mask.count m), taken := x.taken + Mask.count m } })).acquire
        c.gk m).writeLanes c.gk m fun l =>
          let ws := atD x.q ((Mask.lanes m).filter fun j => decide (j < l)).length []
          ⟨(span d.toNat ws.length).zip ws, []⟩ := by
  subst hx
  refine writeLanes_congr fun l hl => ?_
  rw [zip_find_ascending _ (lanes_ascending m) _ hfull [] l ((Mask.mem_lanes _ _).mpr hl)]

theorem observeSlots_groups (gk k : Nat) (ns : List Nat) (s : State) :
    (ns.foldl (fun v n => v.observeOps gk (slotEvent k n)) s).groups = s.groups :=
  List.foldlRecOn (motive := fun (u : State) => u.groups = s.groups) _ _ rfl fun _ hu _ _ => hu

theorem recv_group {c : Ctx} {s : State} {g : Group} (hg : s.group? c.gk = some g) (k : Nat) (m : Mask) (d : Reg) :
    ∃ h, (c.recv k m d s).group? c.gk = some h := by
  refine writeLanes_group m _ (acquire_group m (g := g) ?_)
  rw [State.group?, observeSlots_groups]
  exact hg

/-- A receive by at most as many lanes as there are slots raises no trap. -/
theorem exec_chanRecv {h : Hdr} {k : BitVec 4} {d : Reg} {s : State} {c : Ctx} {x : ChanInst} {m : Mask}
    (hi : Issues (.chanRecv h k d) s c) (hm : c.active (.chanRecv h k d) s &&& c.g.real = m) (hx : SMap.find c.t.chans k.toNat = some x)
    (hn : d.toNat + x.width / 4 ≤ 32 * c.g.nb) (h256 : d.toNat + x.width / 4 ≤ 256)
    (hslots : Mask.count m ≤ x.slots) (h0 : m ≠ 0) :
    exec (.chanRecv h k d) s = .next (c.recvOrPark (.chanRecv h k d) k.toNat m d s) := by
  have hrun : exec (.chanRecv h k d) s = execChanRecv h k d s := rfl
  rw [hrun, execChanRecv, issue_next hi]
  simp only [chanChk_registers hx hn h256, inst_of_find hx, Ctx.realOf, hm]
  rw [if_neg (Nat.not_lt.mpr hslots), if_neg h0]

theorem channelInstructionResult : Claims.ChannelInstructionResult := by
  intro h k a b d p s c x hx
  refine ⟨fun hi => ?probe, fun hi hn h256 => ?send, fun hi hn h256 => ?recv⟩
  case probe =>
    have hrun : exec (.chanProbe h k d) s = execChanProbe h k d s := rfl
    rw [hrun, execChanProbe, issue_next hi]
    simp only [chanChk_alone hx, inst_of_find hx]
    exact ⟨_, rfl, Ctx.write_advance c _ s (fun _ => .v d _) hi.1⟩
  case send =>
    intro m count hl ready
    have hiff : c.sendReady s k.toNat m a = true ↔ ready := sendReady_iff c s k.toNat m a
    rw [exec_chanSend hi rfl hx hn h256 hl]
    refine ⟨fun hready hawake => ?_, fun hnot => ?_⟩
    · by_cases hm : m = 0
      · rw [if_pos hm, if_pos hm]
        exact ⟨_, rfl, Ctx.advance_advanced c _ s c.g (State.ctx_group hi.1)⟩
      · obtain ⟨g, hg⟩ := send_group (State.ctx_group hi.1) k.toNat m a b p
        rw [if_neg hm, if_neg hm, sendOrPark_sends (hiff.mpr hready) hawake]
        rw [send_eq] at hg ⊢
        exact ⟨_, rfl, Ctx.advance_advanced c _ _ g hg⟩
    · have hm : m ≠ 0 := fun hm => hnot fun l hlm => by
        rw [hm] at hlm
        simp at hlm
      rw [if_neg hm, sendOrPark_waits (by simpa using mt hiff.mp hnot)]
  case recv =>
    intro m hm h0
    rw [exec_chanRecv hi rfl hx hn h256 hm h0]
    have hinst := inst_of_find hx
    refine ⟨fun hfull hawake => ?_, fun hless => ?_⟩
    · rw [recvOrPark_takes (by rw [hinst]; exact hfull) hawake]
      obtain ⟨g, hg⟩ := recv_group (State.ctx_group hi.1) k.toNat m d
      refine ⟨_, rfl, ?_⟩
      rw [← recv_eq hinst hfull]
      exact Ctx.advance_advanced c _ _ g hg
    · rw [recvOrPark_waits (by rw [hinst]; exact hless)]

/-! What waits goes on (R73, R224, R225). -/

theorem atHome_iff (s : State) (gk : Nat) : s.atHome gk = true ↔ resident s (gk / 32) := by
  simp only [State.atHome, resident]
  cases s.team? (gk / 32) with
  | none => simp
  | some t => simp

theorem exec_chanSendDelivery {s : State} {gk : Nat} {g : Group} {h : Hdr} {k : BitVec 4} {a b p : Reg} {m : Mask} {c : Ctx}
    (hg : s.group? gk = some g) (hpark : g.park = .chanSend (.chanSend h k a b p) m)
    (hc : (s.updGroup gk fun g => { g with park := .none }).ctxFor gk (waitingPath g m) = some c) :
    exec (.chanSendDelivery gk) s = .next (
      if s.atHome gk = true ∧ c.sendReady (s.updGroup gk fun g => { g with park := .none }) k.toNat m a = true then
        c.sendOrPark (.chanSend h k a b p) k.toNat m a b p (s.updGroup gk fun g => { g with park := .none })
      else s) := by
  have hrun : exec (.chanSendDelivery gk) s = execChanSendDelivery gk s := rfl
  rw [waitingPath] at hc
  simp only [hrun, execChanSendDelivery, hg, hpark, hc]

theorem exec_chanRecvDelivery {s : State} {gk : Nat} {g : Group} {h : Hdr} {k : BitVec 4} {d : Reg} {m : Mask} {c : Ctx}
    (hg : s.group? gk = some g) (hpark : g.park = .chanRecv (.chanRecv h k d) m)
    (hc : (s.updGroup gk fun g => { g with park := .none }).ctxFor gk (waitingPath g m) = some c) :
    exec (.chanRecvDelivery gk) s = .next (
      if s.atHome gk = true ∧ Mask.count m ≤ (c.t.inst k.toNat).q.length then
        c.recvOrPark (.chanRecv h k d) k.toNat m d (s.updGroup gk fun g => { g with park := .none })
      else s) := by
  have hrun : exec (.chanRecvDelivery gk) s = execChanRecvDelivery gk s := rfl
  rw [waitingPath] at hc
  simp only [hrun, execChanRecvDelivery, hg, hpark, hc]

theorem channelDeliveries : Claims.ChannelDeliveries := by
  intro s gk g h k a b d p m c hg u hc
  obtain ⟨hgk, -, hgroup, -, -⟩ := ctxFor_parts hc
  rw [← hgk] at hgroup
  refine ⟨fun hpark => ?send, fun hpark => ?recv, fun hpark => ?none⟩
  case send =>
    rw [exec_chanSendDelivery hg hpark hc, ← atHome_iff]
    refine ⟨fun hhome hready hawake => ?_, fun hnot => ?_⟩
    · rw [if_pos ⟨hhome, hready⟩, sendOrPark_sends hready hawake]
      obtain ⟨g', hg'⟩ := send_group hgroup k.toNat m a b p
      exact ⟨_, rfl, Ctx.advance_advanced c _ _ g' hg'⟩
    · rw [if_neg]
      rintro ⟨hhome, hready⟩
      rcases hnot with hnot | hnot
      · exact hnot hhome
      · exact Bool.false_ne_true (hnot.symm.trans hready)
  case recv =>
    intro x
    rw [exec_chanRecvDelivery hg hpark hc, ← atHome_iff]
    refine ⟨fun hhome hfull hawake => ?_, fun hnot => ?_⟩
    · rw [if_pos ⟨hhome, hfull⟩, recvOrPark_takes hfull hawake]
      obtain ⟨g', hg'⟩ := recv_group hgroup k.toNat m d
      exact ⟨_, rfl, Ctx.advance_advanced c _ _ g' hg'⟩
    · rw [if_neg]
      rintro ⟨hhome, hfull⟩
      rcases hnot with hnot | hnot
      · exact hnot hhome
      · exact Nat.not_lt.mpr hfull hnot
  case none =>
    have hsend : exec (.chanSendDelivery gk) s = execChanSendDelivery gk s := rfl
    have hrecv : exec (.chanRecvDelivery gk) s = execChanRecvDelivery gk s := rfl
    simp only [hsend, hrecv, execChanSendDelivery, execChanRecvDelivery, hg, hpark, and_self]

/-- Settles O21: what issues fills or takes slots, or parks (`exec_chanSend`, `exec_chanRecv`), and what was parked goes on in the
same way (`exec_chanSendDelivery`, `exec_chanRecvDelivery`). -/
theorem channelResult : Obligations.ChannelResult := by
  unfold Obligations.ChannelResult
  exact ⟨channelInstructionResult, channelDeliveries⟩

end Sys2Proof.Laws
end

section
/-! PROOF. What O17 and O18 share: accesses at places of this package, that pass their checks (R205, R206). -/

namespace Sys2Proof.Laws

open Sys2Proof Sys2Proof.Machine Sys2Proof.Claims

/-! What an instruction meets (R205, R206). -/

/-- Places that can be reached now keep no access waiting (R206). -/
theorem scratchPark_none {s : State} {w : Nat} {ps : List (Nat × Target)} (h : ∀ q ∈ ps, near s w q.2) :
    s.scratchPark (ps.filterMap fun q => q.2.scratch.map fun z => (z.1, z.2, w)) = .none := by
  have hsram : ∀ z ∈ ps.filterMap (fun q => q.2.scratch.map fun z => (z.1, z.2, w)), near s w (.sram z.1 z.2.1) ∧ z.2.2 = w := by
    intro z hz
    obtain ⟨⟨l, p⟩, hq, he⟩ := List.mem_filterMap.mp hz
    cases p with
    | sram u off =>
      cases he
      exact ⟨h _ hq, rfl⟩
    | _ => cases he
  generalize ps.filterMap (fun q => q.2.scratch.map fun z => (z.1, z.2, w)) = xs at hsram
  unfold State.scratchPark
  extract_lets lines banks
  have hlines : lines = [] := by
    refine congrArg dedup (List.flatMap_eq_nil_iff.mpr fun x hx => ?_)
    obtain ⟨hnear, hw⟩ := hsram x hx
    split
    next t ht =>
      rw [List.filter_eq_nil_iff, hw]
      intro k hk
      simp [(hnear t ht).1 k hk]
    next => rfl
  have hbanks : banks = [] := by
    refine congrArg dedup (List.flatMap_eq_nil_iff.mpr fun x hx => ?_)
    obtain ⟨hnear, hw⟩ := hsram x hx
    split
    next t ht =>
      rw [List.filter_eq_nil_iff, hw]
      intro b hb
      simp [(hnear t ht).2 b hb]
    next => rfl
  rw [hlines, hbanks]
  rfl

/-- The place of a lane whose access passes its checks, with the lane. -/
def placeOf (f : Nat → Chk) (l : Nat) : Option (Nat × Target) :=
  match f l with
  | .ok p => some (l, p)
  | _ => none

theorem placesOf_eq (m : Mask) (f : Nat → Chk) : placesOf m f = (Mask.lanes m).filterMap (placeOf f) := rfl

theorem placeOf_iff {f : Nat → Chk} {l : Nat} {q : Nat × Target} : placeOf f l = some q ↔ q.1 = l ∧ f l = .ok q.2 := by
  obtain ⟨j, p⟩ := q
  rw [placeOf]
  cases f l <;> simp [eq_comm]

theorem mem_placesOf {m : Mask} {f : Nat → Chk} {q : Nat × Target} : q ∈ placesOf m f ↔ m.getLsbD q.1 = true ∧ f q.1 = .ok q.2 := by
  simp only [placesOf_eq, List.mem_filterMap, placeOf_iff, Mask.mem_lanes]
  constructor
  · rintro ⟨l, hl, rfl, hf⟩
    exact ⟨hl, hf⟩
  · exact fun ⟨hl, hf⟩ => ⟨q.1, hl, rfl, hf⟩

/-- Accesses at places that can be reached now go ahead, where no real lane meets a row of Table 9-2 (R205, R206). -/
theorem meet_go {c : Ctx} {s : State} {act : Mask} {write : Bool} {w : Nat} {f : Nat → Chk}
    (hask : ∀ l, act.getLsbD l = true → Chk.isAsk (f l) = false)
    (hok : ∀ l, (c.realOf act).getLsbD l = true → ∃ p, f l = .ok p)
    (hnear : ∀ l p, act.getLsbD l = true → f l = .ok p → near s w p)
    (hcache : write = false → ∀ b ∈ s.cacheBanks c.cl, (s.bank b).pwr = .on) : c.meet s act write w f = .go := by
  have hawake : ∀ used, (if write then [] else s.cacheAsleep c.cl used) = [] := by
    intro used
    cases hw : write with
    | true => rfl
    | false =>
      cases used with
      | false => rfl
      | true =>
        show (s.cacheBanks c.cl).filter _ = []
        rw [List.filter_eq_nil_iff]
        intro b hb
        simp [hcache hw b hb]
  have hpark := scratchPark_none (s := s) (w := w) (ps := placesOf act f) fun q hq => by
    obtain ⟨hl, hf⟩ := mem_placesOf.mp hq
    exact hnear _ _ hl hf
  simp only [Ctx.meet, asks_nil hask, pickFault_none hok, hpark, hawake]

/-- No lane whose access passes its checks is switched off (R71). -/
theorem offLanes_none {c : Ctx} {act : Mask} {f : Nat → Chk} (hok : ∀ l, (c.realOf act).getLsbD l = true → ∃ p, f l = .ok p) :
    c.offLanes act f = 0 := by
  refine ofPred_none fun l => ?_
  cases hl : (c.realOf act).getLsbD l with
  | false => rfl
  | true =>
    obtain ⟨p, hp⟩ := hok l hl
    rw [hp]
    rfl

/-! What an access leaves. -/

/-- An access at a place here leaves no more than a note of the banks that it used (R74). -/
theorem noteAccess_noted {s0 : State} {w : Nat} {p : Target} (h : near s0 w p) (s : State) (n : Nat) : Noted s (s.noteAccess p n) := by
  cases p with
  | mem pa tag =>
    rw [State.noteAccess, needMem_of_lt h]
    exact noted_refl s
  | priv pa tag =>
    rw [State.noteAccess, needMem_of_lt h]
    exact noted_refl s
  | sram u off =>
    simp only [State.noteAccess]
    split
    · exact touch_noted ..
    · exact noted_refl s
  | tail p q => exact noted_refl s
  | command k => exact noted_refl s
  | remote pkg d va => exact noted_refl s

/-- What a lane has seen of the memory order (R91). -/
theorem sees_noted (c : Ctx) (l moment : Nat) (s : State) : Noted s (c.sees l moment s) := by
  rw [Ctx.sees]
  split
  · exact noted_refl s
  · refine ⟨rfl, fun _ => rfl, fun k => ?_⟩
    rw [State.group_updGroup]
    split
    · refine ⟨fun hk => by rw [hk]; rfl, fun g hg => ?_⟩
      rw [hg]
      refine ⟨_, rfl, rfl, mapLanes_length .., fun j => ?_⟩
      by_cases hj : j < g.lanes.length
      · rw [Group.lane_updLanes g _ j hj]
        split <;> rfl
      · rw [Group.lane_beyond g j (by omega), Group.lane_beyond _ j (by simp only [Group.updLanes, mapLanes_length]; omega)]
    · exact (noted_refl s).groups k

/-- The model has not stopped, and a group is still there. -/
structure Runs (gk : Nat) (s t : State) : Prop where
  stuck : t.stuck = s.stuck
  group : ∀ g, s.group? gk = some g → ∃ h, t.group? gk = some h

theorem Runs.refl (gk : Nat) (s : State) : Runs gk s s := ⟨rfl, fun g hg => ⟨g, hg⟩⟩

theorem Runs.trans {gk : Nat} {s t u : State} (h1 : Runs gk s t) (h2 : Runs gk t u) : Runs gk s u :=
  ⟨h2.stuck.trans h1.stuck, fun g hg => (h1.group g hg).elim fun g' hg' => h2.group g' hg'⟩

theorem Runs.of_same {gk : Nat} {s t : State} (hs : t.stuck = s.stuck) (hg : t.groups = s.groups) : Runs gk s t :=
  ⟨hs, fun g h => ⟨g, by rw [State.group?, hg]; exact h⟩⟩

theorem noted_runs {s t : State} (gk : Nat) (h : Noted s t) : Runs gk s t :=
  ⟨by rw [h.rest], fun g hg => ((h.groups gk).2 g hg).imp fun _ hh => hh.1⟩

theorem wrote_runs {s t : State} (gk : Nat) (h : Wrote s t) : Runs gk s t := by
  unfold Wrote at h
  exact .of_same (by rw [h]) (by rw [h])

theorem updGroup_runs (gk : Nat) (s : State) (f : Group → Group) : Runs gk s (s.updGroup gk f) :=
  ⟨rfl, fun g hg => ⟨f g, by rw [State.group_updGroup, if_pos rfl, hg]; rfl⟩⟩

theorem writeAt_wrote (s : State) (tag : Nat) (xs : List (Nat × Byte)) : Wrote s (s.writeAt tag xs) :=
  (List.foldlRecOn (motive := Wrote s) xs _ (Wrote.refl s) fun _ hu _ _ => hu.trans (writeByte_wrote ..)).trans rfl

/-- A change of a bank's lines and moment of use. -/
theorem setLines_noted (s : State) (b n : Nat) (ls : SMap CLine) :
    Noted s (s.setBank b { s.bank b with lines := ls, lastUse := n }) := by
  refine ⟨rfl, fun k => ?_, (noted_refl s).groups⟩
  rw [State.bank_setBank]
  split
  next h => rw [h]
  next => rfl

theorem privLines_noted (s : State) (core : Nat) (classH : Bool) (tag : Nat) (lines : List Nat) :
    Noted s (s.privLines core classH tag lines) :=
  List.foldlRecOn (motive := Noted s) lines _ (noted_refl s) fun u hu k _ => noted_trans hu (by
    split
    · exact setLines_noted ..
    · exact askHome_noted ..)

theorem writeScratch_same (t : Team) (bs : List Byte) (s : State) (off : Nat) :
    s.writeScratch t off bs = { s with sram := (s.writeScratch t off bs).sram } := by
  induction bs generalizing s off with
  | nil => rfl
  | cons b bs ih =>
    rw [State.writeScratch, ih]
    rfl

/-- A write at a place here. -/
theorem writeTarget_runs {c : Ctx} {s0 : State} {w : Nat} {p : Target} (h : near s0 w p) (s : State) (l : Nat) (bs : List Byte) :
    Runs c.gk s (c.writeTarget s l bs p) := by
  refine (noted_runs c.gk (noteAccess_noted h s bs.length)).trans ?_
  generalize hu : s.noteAccess p bs.length = u
  cases p with
  | mem pa tag =>
    simp only [Ctx.writeTarget, hu]
    have hwrite : Runs c.gk u ((u.writeBytes tag pa bs).noteStore (.lane c.gk l)) :=
      (wrote_runs c.gk (writeBytes_wrote u tag pa bs)).trans (.of_same rfl rfl)
    exact (hwrite.trans (noted_runs c.gk (askHome_noted _ _))).trans (noted_runs c.gk (sees_noted ..))
  | priv pa tag =>
    simp only [Ctx.writeTarget, hu]
    have hwrite : Runs c.gk u ((u.writeAt tag ((privPlaces pa bs.length).zip bs)).noteStore (.lane c.gk l)) :=
      (wrote_runs c.gk (writeAt_wrote u tag _)).trans (.of_same rfl rfl)
    exact (hwrite.trans (noted_runs c.gk (privLines_noted ..))).trans (noted_runs c.gk (sees_noted ..))
  | sram t off =>
    simp only [Ctx.writeTarget, hu]
    split
    next x _ =>
      rw [writeScratch_same]
      exact .of_same rfl rfl
    next => exact .refl ..
  | tail q n =>
    simp only [Ctx.writeTarget, hu]
    exact .of_same rfl rfl
  | command k => exact h.elim
  | remote pkg d va => exact h.elim

/-- A closing atomic is noted in its group (R298). -/
theorem markClosing_runs (c : Ctx) (i : Instr) (s : State) : Runs c.gk s (c.markClosing i s) := by
  rw [Ctx.markClosing]
  split
  · exact updGroup_runs ..
  · exact .refl ..

theorem noteXlates_noted (c : Ctx) (m : Mask) (sp : Sp) (ea : Nat → DWord) (s : State) : Noted s (c.noteXlates m sp ea s) := by
  obtain ⟨ts, ws, h⟩ := noteXlates_eq c m sp ea s
  rw [h]
  exact noted_of_eq rfl

end Sys2Proof.Laws
end

section
/-! PROOF. O18: atomics and `red` (R213-R215, Table 9-4). -/

namespace Sys2Proof.Laws

open Sys2Proof Sys2Proof.Machine Sys2Proof.Claims

/-! The new value at a location (Table 9-4). -/

theorem bytes_pos (ty : Ty) : 0 < ty.bytes := by
  cases ty <;> decide

/-- A pattern read as an integer of its type is its bits in two's complement, or unsigned (R112). -/
theorem intVal_eq (ty : Ty) (k : Nat) : intVal ty k =
    if Ty.signed ty = true then (BitVec.ofNat (8 * ty.bytes) k).toInt else ((BitVec.ofNat (8 * ty.bytes) k).toNat : Int) := by
  have hhalf : 2 ^ (8 * ty.bytes) = 2 * 2 ^ (8 * ty.bytes - 1) := by
    rw [← pow_succ', show 8 * ty.bytes - 1 + 1 = 8 * ty.bytes by have := bytes_pos ty; omega]
  unfold intVal
  extract_lets n
  have hn : (BitVec.ofNat (8 * ty.bytes) k).toNat = n := BitVec.toNat_ofNat ..
  rw [BitVec.toInt_eq_toNat_cond, hn]
  by_cases hs : Ty.signed ty = true
  · by_cases hlow : 2 * n < 2 ^ (8 * ty.bytes)
    · rw [if_neg (by omega), if_pos hs, if_pos hlow]
    · rw [if_pos ⟨hs, by omega⟩, if_pos hs, if_neg hlow]
      push_cast
      rfl
  · rw [if_neg (by simp [hs]), if_neg hs]

/-- It is the pattern, up to multiples of the width. -/
theorem intVal_emod (ty : Ty) (k : Nat) : intVal ty k % (2 : Int) ^ (8 * ty.bytes) = ((k % 2 ^ (8 * ty.bytes) : Nat) : Int) := by
  have hpow : (2 : Int) ^ (8 * ty.bytes) = ((2 ^ (8 * ty.bytes) : Nat) : Int) := by push_cast; rfl
  rw [intVal_eq, hpow]
  split
  · rw [BitVec.toInt_eq_toNat_bmod, Int.bmod_emod, BitVec.toNat_ofNat, ← Int.natCast_mod, Nat.mod_mod]
  · rw [BitVec.toNat_ofNat, ← Int.natCast_mod, Nat.mod_mod]

theorem trunc_add (ty : Ty) (a b : Nat) : trunc ty (intVal ty a + intVal ty b) = (a + b) % 2 ^ (8 * ty.bytes) := by
  have hpow : (2 : Int) ^ (8 * ty.bytes) = ((2 ^ (8 * ty.bytes) : Nat) : Int) := by push_cast; rfl
  rw [trunc, Int.add_emod, intVal_emod, intVal_emod, hpow, ← Int.natCast_add, ← Int.natCast_mod, Int.toNat_natCast, ← Nat.add_mod]

/-- The 4-byte and 8-byte types with a sign. -/
theorem signed_iff {ty : Ty} (h : ty.bytes = 4 ∨ ty.bytes = 8) : Ty.signed ty = true ↔ ty = .s32 ∨ ty = .s64 := by
  cases ty <;> simp_all [Ty.bytes, Ty.signed]

theorem atomicNew_eq {ty : Ty} (h : ty.bytes = 4 ∨ ty.bytes = 8) (o : MemOp) (old b x : Nat) :
    atomicNew o ty old b = atomNew (.op o) ty old b x := by
  have hval : ∀ k, intVal ty k = if ty = .s32 ∨ ty = .s64 then (BitVec.ofNat (8 * ty.bytes) k).toInt
      else ((BitVec.ofNat (8 * ty.bytes) k).toNat : Int) := fun k => by
    simp only [intVal_eq, signed_iff h]
  cases o with
  | add => exact trunc_add ty old b
  | min => simp only [atomicNew, atomNew, hval]
  | max => simp only [atomicNew, atomNew, hval]
  | and => rfl
  | or => rfl
  | xor => rfl
  | fadd => rfl
  | inc => rfl

theorem new_eq {ty : Ty} (h : ty.bytes = 4 ∨ ty.bytes = 8) (o : AOp) (old b x : Nat) : o.new ty old b x = atomNew o ty old b x := by
  cases o with
  | op o => exact atomicNew_eq h o old b x
  | exch => rfl
  | cas => rfl

/-- An FP32 add is exact, rounded once to nearest even (R214). -/
theorem atomNew_fadd_rounds (old v x : Nat) :
    fmtF32.roundsTo .rne false false (Ext.sum [fmtF32.ext old, fmtF32.ext v]) (atomNew (.op .fadd) .f32 old v x) := by
  have h := roundF_roundsTo fmtF32 fits_f32.frac .rne false false (sumF [decodeF fmtF32 old, decodeF fmtF32 v])
  rw [sumF_exact, List.map_cons, List.map_cons, List.map_nil, decodeF_exact, decodeF_exact] at h
  exact h

/-! One lane's update. -/

theorem readHome_eq (s : State) (w : Nat) (p : Target) : s.readHome w p = valueAt s w p := by
  cases p with
  | priv pa tag => simp only [State.readHome, valueAt, privPlaces, List.map_map]; rfl
  | _ => rfl

theorem atomAt_eq {ty : Ty} (hty : ty.bytes = 4 ∨ ty.bytes = 8) (c : Ctx) (o : AOp) (l : Nat) (b x : Nat → Nat) (p : Target)
    (u : State) (ys : List (Nat × Nat)) :
    c.atomAt o ty l (b l) (x l) p u = ((atomic c o ty b x (u, ys) (l, p)).1, valueAt u ty.bytes p) := by
  simp only [Ctx.atomAt, atomic, readHome_eq, new_eq hty]
  split <;> rfl

theorem atomic_olds (c : Ctx) (o : AOp) (ty : Ty) (b x : Nat → Nat) (q : State × List (Nat × Nat)) (y : Nat × Target) :
    (atomic c o ty b x q y).2 = q.2 ++ [(y.1, valueAt q.1 ty.bytes y.2)] := rfl

/-- An atomic at a place here. -/
theorem atomic_runs {c : Ctx} {s0 : State} {w : Nat} {y : Nat × Target} (h : near s0 w y.2) (o : AOp) (ty : Ty) (b x : Nat → Nat)
    (q : State × List (Nat × Nat)) : Runs c.gk q.1 (atomic c o ty b x q y).1 := by
  simp only [atomic]
  split
  · exact noted_runs c.gk (noteAccess_noted h ..)
  · exact writeTarget_runs h ..

theorem atomics_run {c : Ctx} {s0 : State} {w : Nat} {xs : List (Nat × Target)} (h : ∀ y ∈ xs, near s0 w y.2) (o : AOp) (ty : Ty)
    (b x : Nat → Nat) (q : State × List (Nat × Nat)) : Runs c.gk q.1 (xs.foldl (atomic c o ty b x) q).1 :=
  List.foldlRecOn (motive := fun (r : State × List (Nat × Nat)) => Runs c.gk q.1 r.1) xs _ (.refl ..) fun r hr y hy =>
    hr.trans (atomic_runs (h y hy) o ty b x r)

/-- An atomic adds old values of its own lanes. -/
theorem atomics_olds (c : Ctx) (o : AOp) (ty : Ty) (b x : Nat → Nat) (xs : List (Nat × Target)) (q : State × List (Nat × Nat)) :
    ∃ zs, (xs.foldl (atomic c o ty b x) q).2 = q.2 ++ zs ∧ ∀ z ∈ zs, ∃ y ∈ xs, y.1 = z.1 := by
  induction xs generalizing q with
  | nil => exact ⟨[], (List.append_nil _).symm, fun z hz => nomatch hz⟩
  | cons y xs ih =>
    obtain ⟨zs, he, hz⟩ := ih (atomic c o ty b x q y)
    refine ⟨(y.1, valueAt q.1 ty.bytes y.2) :: zs, ?_, fun z hm => ?_⟩
    · rw [List.foldl_cons, he, atomic_olds, List.append_assoc]
      rfl
    · rcases List.mem_cons.mp hm with rfl | hm
      · exact ⟨y, List.mem_cons_self .., rfl⟩
      · exact (hz z hm).imp fun _ h => ⟨List.mem_cons_of_mem _ h.1, h.2⟩

/-- The old value of a lane among those that an atomic has added; zero for a lane that has none. -/
def oldOf (ys : List (Nat × Nat)) (l : Nat) : Nat := ((ys.find? fun y => y.1 == l).map (·.2)).getD 0

theorem find_none {ys : List (Nat × Nat)} {l : Nat} (h : ∀ y ∈ ys, y.1 ≠ l) : ys.find? (fun y => y.1 == l) = none :=
  List.find?_eq_none.mpr fun y hy => by simpa using h y hy

theorem oldOf_none {ys : List (Nat × Nat)} {l : Nat} (h : ∀ y ∈ ys, y.1 ≠ l) : oldOf ys l = 0 := by
  rw [oldOf, find_none h]
  rfl

theorem oldOf_middle {ys : List (Nat × Nat)} {l : Nat} (h : ∀ y ∈ ys, y.1 ≠ l) (n : Nat) (zs : List (Nat × Nat)) :
    oldOf (ys ++ [(l, n)] ++ zs) l = n := by
  rw [oldOf, List.append_assoc, List.find?_append, find_none h, List.singleton_append, List.find?_cons_of_pos (by simp)]
  rfl

/-! Lanes in ascending order. -/

section
variable {c : Ctx} {s : State} {o : AOp} {ty : Ty} {a : Reg} {f : Nat → Chk}

/-- The value of an atomic's third operand, which only a compare has. -/
def third (c : Ctx) (s : State) (o : AOp) (ty : Ty) (x : Reg) (l : Nat) : Nat := if o = .cas then c.data s l x ty else 0

theorem atomLane_helper {l : Nat} (h : (c.g.lane l).helper = true) (la : BitVec 4) (d b x : Reg) (u : State) (ps : List PLane) :
    c.atomLane o ty la d b x f s (u, ps) l = (u, ps ++ [PLane.of l (c.window la) (wrOf d ty 0)]) := by
  simp only [Ctx.atomLane, h, if_true]

theorem atomLane_here (hty : ty.bytes = 4 ∨ ty.bytes = 8) {l w : Nat} {p : Target} (h : (c.g.lane l).helper = false)
    (hf : f l = .ok p) (hp : near s w p) (la : BitVec 4) (d b x : Reg) (u : State) (ps : List PLane) (ys : List (Nat × Nat)) :
    c.atomLane o ty la d b x f s (u, ps) l =
      ((atomic c o ty (fun l => c.data s l b ty) (third c s o ty x) (u, ys) (l, p)).1,
        ps ++ [PLane.of l (c.window la) (wrOf d ty (valueAt u ty.bytes p))]) := by
  have hat := atomAt_eq hty c o l (fun l => c.data s l b ty) (third c s o ty x) p u ys
  simp only [third] at hat ⊢
  cases p with
  | remote pkg da va => exact hp.elim
  | _ => simp only [Ctx.atomLane, h, hf, Bool.false_eq_true, if_false, hat]

/-- The lanes of a list that are no helpers, one by one. -/
def inOrder (c : Ctx) (s : State) (o : AOp) (ty : Ty) (b x : Reg) (f : Nat → Chk) (q : State × List (Nat × Nat)) (ls : List Nat) :
    State × List (Nat × Nat) :=
  ((ls.filter fun l => !(c.g.lane l).helper).filterMap (placeOf f)).foldl
    (atomic c o ty (fun l => c.data s l b ty) (third c s o ty x)) q

theorem inOrder_helper {l : Nat} (h : (c.g.lane l).helper = true) (b x : Reg) (q : State × List (Nat × Nat)) (ls : List Nat) :
    inOrder c s o ty b x f q (l :: ls) = inOrder c s o ty b x f q ls := by
  rw [inOrder, List.filter_cons_of_neg (by simp [h]), inOrder]

theorem inOrder_here {l : Nat} {p : Target} (h : (c.g.lane l).helper = false) (hf : f l = .ok p) (b x : Reg)
    (q : State × List (Nat × Nat)) (ls : List Nat) : inOrder c s o ty b x f q (l :: ls) =
      inOrder c s o ty b x f (atomic c o ty (fun l => c.data s l b ty) (third c s o ty x) q (l, p)) ls := by
  rw [inOrder, List.filter_cons_of_pos (by simp [h]), List.filterMap_cons_some ((placeOf_iff (q := (l, p))).mpr ⟨rfl, hf⟩), List.foldl_cons, inOrder]

theorem inOrder_olds (b x : Reg) (q : State × List (Nat × Nat)) (ls : List Nat) :
    ∃ zs, (inOrder c s o ty b x f q ls).2 = q.2 ++ zs ∧ ∀ z ∈ zs, z.1 ∈ ls := by
  obtain ⟨zs, he, hz⟩ := atomics_olds c o ty (fun l => c.data s l b ty) (third c s o ty x)
    ((ls.filter fun l => !(c.g.lane l).helper).filterMap (placeOf f)) q
  refine ⟨zs, he, fun z hm => ?_⟩
  obtain ⟨y, hy, hyz⟩ := hz z hm
  obtain ⟨l, hl, hp⟩ := List.mem_filterMap.mp hy
  obtain ⟨rfl, -⟩ := placeOf_iff.mp hp
  exact hyz ▸ List.mem_of_mem_filter hl

/-- The lanes that are no helpers act one by one, each on what those before it left; the results are their old values, and zero for
helpers. -/
theorem atomLanes_eq (hty : ty.bytes = 4 ∨ ty.bytes = 8) {w : Nat} (la : BitVec 4) (d b x : Reg) {ls : List Nat} (hnodup : ls.Nodup)
    (hok : ∀ l ∈ ls, (c.g.lane l).helper = false → ∃ p, f l = .ok p ∧ near s w p) (u : State) (ps : List PLane)
    {ys : List (Nat × Nat)} (hys : ∀ y ∈ ys, y.1 ∉ ls) :
    ls.foldl (c.atomLane o ty la d b x f s) (u, ps) = ((inOrder c s o ty b x f (u, ys) ls).1,
      ps ++ ls.map fun l => PLane.of l (c.window la) (wrOf d ty (oldOf (inOrder c s o ty b x f (u, ys) ls).2 l))) := by
  induction ls generalizing u ps ys with
  | nil => simp [inOrder]
  | cons l ls ih =>
    obtain ⟨hl, hnodup'⟩ := List.nodup_cons.mp hnodup
    have hok' := fun j hj => hok j (List.mem_cons_of_mem l hj)
    have hys' : ∀ y ∈ ys, y.1 ≠ l ∧ y.1 ∉ ls := fun y hy => by simpa using hys y hy
    rw [List.foldl_cons, List.map_cons]
    cases hh : (c.g.lane l).helper with
    | true =>
      obtain ⟨zs, hzs, hlanes⟩ := inOrder_olds (c := c) (s := s) (o := o) (ty := ty) (f := f) b x (u, ys) ls
      have hold : oldOf (inOrder c s o ty b x f (u, ys) ls).2 l = 0 := by
        rw [hzs]
        refine oldOf_none fun y hy => ?_
        rcases List.mem_append.mp hy with hy | hy
        · exact (hys' y hy).1
        · exact fun he => hl (he ▸ hlanes y hy)
      rw [atomLane_helper hh, inOrder_helper hh, hold, ih hnodup' hok' u _ fun y hy => (hys' y hy).2, List.append_assoc]
      rfl
    | false =>
      obtain ⟨p, hf, hp⟩ := hok l (List.mem_cons_self ..) hh
      obtain ⟨zs, hzs, -⟩ := inOrder_olds (c := c) (s := s) (o := o) (ty := ty) (f := f) b x
        (atomic c o ty (fun l => c.data s l b ty) (third c s o ty x) (u, ys) (l, p)) ls
      have hold := hzs ▸ oldOf_middle (fun y hy => (hys' y hy).1) (valueAt u ty.bytes p) zs
      rw [atomLane_here hty hh hf hp, inOrder_here hh hf, hold, ih hnodup' hok' (ys := ys ++ [(l, valueAt u ty.bytes p)]) _ _ ?_,
        List.append_assoc]
      · rfl
      · intro y hy
        rcases List.mem_append.mp hy with hy | hy
        · exact (hys' y hy).2
        · rw [List.mem_singleton.mp hy]
          exact hl

end

/-! The instructions. -/

theorem lanes_filter (m : Mask) (p : Nat → Bool) : Mask.lanes (Mask.ofPred fun l => m.getLsbD l && p l) = (Mask.lanes m).filter p := by
  rw [Mask.lanes, Mask.lanes, List.filter_filter]
  refine List.filter_congr fun l hl => ?_
  have hlt : l < 32 := by
    rw [lanes32, mem_span] at hl
    omega
  rw [Mask.ofPred_getLsbD, decide_eq_true hlt, Bool.true_and, Bool.and_comm]

/-- A real lane is no helper (R24). -/
theorem real_helper {g : Group} {l : Nat} (h : g.real.getLsbD l = true) : (g.lane l).helper = false := by
  simp only [Group.real, Mask.ofPred_getLsbD, Bool.and_eq_true, Bool.not_eq_true'] at h
  exact h.2.1

theorem realOf_iff (c : Ctx) (m : Mask) (l : Nat) : (c.realOf m).getLsbD l = true ↔ m.getLsbD l = true ∧ c.g.real.getLsbD l = true := by
  rw [Ctx.realOf, BitVec.getLsbD_and, Bool.and_eq_true]

section
variable {c : Ctx} {s : State} {ty : Ty} {a : Reg} {act : Mask}

/-- The state as the translations of an atomic's lanes are looked up (R346). -/
def looked (c : Ctx) (s : State) (ty : Ty) (a : Reg) (act : Mask) : State :=
  c.noteXlates (c.realOf (okLanes act (c.atomChk s ty a))) .gen (fun l => c.pair s l a) s

theorem looked_noted (c : Ctx) (s : State) (ty : Ty) (a : Reg) (act : Mask) : Noted s (looked c s ty a act) := noteXlates_noted ..

/-- Atomics at places that can be reached now meet nothing. -/
theorem atomics_meet (hok : ∀ l, (c.realOf act).getLsbD l = true → ∃ p, c.atomChk s ty a l = .ok p ∧ near s ty.bytes p) :
    c.meet s (c.realOf act) true ty.bytes (c.atomChk s ty a) = .go := by
  refine meet_go (fun l _ => check_isAsk ..) (fun l hl => ?_) (fun l p hl hf => ?_) nofun
  · rw [realOf_iff, realOf_iff] at hl
    exact (hok l ((realOf_iff ..).mpr hl.1)).imp fun _ h => h.1
  · obtain ⟨p', hf', hp⟩ := hok l hl
    cases hf.symm.trans hf'
    exact hp

/-- An atomic with a result goes through its lanes, and its results wait to be written (R213, R214). -/
theorem atom_goes (hty : ty.bytes = 4 ∨ ty.bytes = 8)
    (hok : ∀ l, act.getLsbD l = true → (c.g.lane l).helper = false → ∃ p, c.atomChk s ty a l = .ok p ∧ near s ty.bytes p)
    (i : Instr) (o : AOp) (la : BitVec 4) (d b x : Reg) {r : State × List (Nat × Nat)}
    (hr : inOrder c s o ty b x (c.atomChk s ty a) (looked c s ty a act, []) (Mask.lanes act) = r) :
    c.atom i o ty la d a b x act s = c.advance i (c.startPend i
      ((Mask.lanes act).map fun l => PLane.of l (c.window la) (wrOf d ty (oldOf r.2 l))) (c.markClosing i r.1)) := by
  have hreal : ∀ l, (c.realOf act).getLsbD l = true → ∃ p, c.atomChk s ty a l = .ok p ∧ near s ty.bytes p := fun l hl =>
    hok l ((realOf_iff ..).mp hl).1 (real_helper ((realOf_iff ..).mp hl).2)
  have hoff : c.offLanes act (c.atomChk s ty a) = 0 := offLanes_none fun l hl => (hreal l hl).imp fun _ h => h.1
  have hlanes := atomLanes_eq hty (o := o) (f := c.atomChk s ty a) la d b x ((lanes_ascending act).imp Nat.ne_of_lt)
    (fun l hl => hok l ((Mask.mem_lanes _ _).mp hl)) (looked c s ty a act) [] (ys := []) (fun y hy => nomatch hy)
  rw [hr, List.nil_append] at hlanes
  rw [Ctx.atom]
  simp only [atomics_meet hreal, hoff]
  rw [if_neg, ← looked, hlanes]
  · rfl
  · intro hfar
    rw [Bool.and_eq_true, List.any_eq_true] at hfar
    obtain ⟨⟨⟨l, p⟩, hq, hremote⟩, -⟩ := hfar
    obtain ⟨hl, hf⟩ := mem_placesOf.mp hq
    obtain ⟨p', hf', hp⟩ := hreal l hl
    cases hf.symm.trans hf'
    cases p with
    | remote pkg da va => exact hp
    | _ => exact Bool.false_ne_true hremote

/-- One lane's `red` at a place here is its update without the old value (R215). -/
theorem redLane_here (hty : ty.bytes = 4 ∨ ty.bytes = 8) {f : Nat → Chk} {l w : Nat} {p : Target} (hf : f l = .ok p) (hp : near s w p)
    (o : MemOp) (b : Reg) (u : State) (ys : List (Nat × Nat)) :
    c.redLane o ty b f s u l = (atomic c (.op o) ty (fun l => c.data s l b ty) (fun _ => 0) (u, ys) (l, p)).1 := by
  have hat := atomAt_eq hty c (.op o) l (fun l => c.data s l b ty) (fun _ => 0) p u ys
  cases p with
  | remote pkg da va => exact hp.elim
  | _ => simp only [Ctx.redLane, hf, hat]

theorem redLanes_eq (hty : ty.bytes = 4 ∨ ty.bytes = 8) {f : Nat → Chk} {w : Nat} {ls : List Nat}
    (hok : ∀ l ∈ ls, ∃ p, f l = .ok p ∧ near s w p) (o : MemOp) (b : Reg) (u : State) (ys : List (Nat × Nat)) :
    ls.foldl (c.redLane o ty b f s) u =
      ((ls.filterMap (placeOf f)).foldl (atomic c (.op o) ty (fun l => c.data s l b ty) fun _ => 0) (u, ys)).1 := by
  induction ls generalizing u ys with
  | nil => rfl
  | cons l ls ih =>
    obtain ⟨p, hf, hp⟩ := hok l (List.mem_cons_self ..)
    rw [List.foldl_cons, List.filterMap_cons_some ((placeOf_iff (q := (l, p))).mpr ⟨rfl, hf⟩), List.foldl_cons,
      redLane_here hty hf hp o b u ys, ih fun j hj => hok j (List.mem_cons_of_mem l hj)]

/-- A `red` goes through its real lanes (R215). -/
theorem red_goes (hty : ty.bytes = 4 ∨ ty.bytes = 8)
    (hok : ∀ l, (c.realOf act).getLsbD l = true → ∃ p, c.atomChk s ty a l = .ok p ∧ near s ty.bytes p) (i : Instr) (o : MemOp) (b : Reg)
    {r : State × List (Nat × Nat)}
    (hr : (placesOf (c.realOf act) (c.atomChk s ty a)).foldl (atomic c (.op o) ty (fun l => c.data s l b ty) fun _ => 0)
      (looked c s ty a act, []) = r) :
    c.red i o ty a b act s = c.advance i (c.markClosing i r.1) := by
  have hoff : c.offLanes act (c.atomChk s ty a) = 0 := offLanes_none fun l hl => (hok l hl).imp fun _ h => h.1
  have hlanes := redLanes_eq (c := c) hty (f := c.atomChk s ty a) (fun l hl => hok l ((Mask.mem_lanes _ _).mp hl)) o b (looked c s ty a act) []
  rw [← placesOf_eq, hr] at hlanes
  rw [Ctx.red]
  simp only [atomics_meet hok, hoff]
  rw [← looked, hlanes]
  rfl

/-- What the lanes of an atomic leave, each at a place that can be reached now. -/
theorem updates_run {m : Mask} {f : Nat → Chk} {w : Nat} (h : ∀ l p, m.getLsbD l = true → f l = .ok p → near s w p) (o : AOp)
    (b x : Nat → Nat) : Runs c.gk s ((placesOf m f).foldl (atomic c o ty b x) (looked c s ty a act, [])).1 :=
  (noted_runs c.gk (looked_noted ..)).trans
    (atomics_run (fun _ hy => h _ _ (mem_placesOf.mp hy).1 (mem_placesOf.mp hy).2) o ty b x (looked c s ty a act, []))

end

/-- Settles one form of atomic: its lanes act one by one (`atom_goes`). -/
theorem atomics_of {i : Instr} {o : AOp} {ty : Ty} {la : BitVec 4} {d a b x : Reg} (hty : ty.bytes = 4 ∨ ty.bytes = 8)
    (hrun : ∀ s, exec i s = issueMem i s fun c act s => c.atom i o ty la d a b x act s) : Atomics i o ty la d a b x := by
  intro s c hi hs f act ours hok
  have hplaces : (placesOf ours f).foldl (atomic c o ty (fun l => c.data s l b ty) (third c s o ty x)) (looked c s ty a act, []) =
      inOrder c s o ty b x f (looked c s ty a act, []) (Mask.lanes act) := by
    rw [placesOf_eq, lanes_filter]
    rfl
  have hruns := updates_run (c := c) (s := s) (ty := ty) (a := a) (act := act) (m := ours) (f := f) (w := ty.bytes)
    (fun l p hl hf => by
      simp only [ours, Mask.ofPred_getLsbD, Bool.and_eq_true, Bool.not_eq_true'] at hl
      obtain ⟨p', hf', hp⟩ := hok l hl.2.1 hl.2.2
      cases hf.symm.trans hf'
      exact hp) o (fun l => c.data s l b ty) (third c s o ty x)
  have hgoes := atom_goes hty hok i o la d b x hplaces.symm
  have hmarked := hruns.trans (markClosing_runs c i _)
  obtain ⟨g, hg⟩ := hmarked.group c.g (State.ctx_group hi.1)
  obtain ⟨g', hg'⟩ := startPend_group c i _ hg
  refine ⟨_, looked c s ty a act, (hrun s).trans (issueMem_next hi ?_), looked_noted .., ?_⟩
  · rw [hgoes, advance_stuck, startPend_stuck, hmarked.stuck, hs]
  · rw [hgoes]
    exact Ctx.advance_advanced c i _ g' hg'

theorem atomicResult : Claims.AtomicResult := by
  intro h ty la d a b x hty
  exact ⟨atomics_of hty fun _ => rfl, atomics_of hty fun _ => rfl, atomics_of hty fun _ => rfl, atomics_of hty fun _ => rfl,
    atomics_of hty fun _ => rfl, atomics_of hty fun _ => rfl, atomics_of hty fun _ => rfl, atomics_of hty fun _ => rfl,
    atomics_of hty fun _ => rfl, atomics_of hty fun _ => rfl, fun old v _ _ => atomNew_fadd_rounds old v 0⟩

theorem reduceResult : Claims.ReduceResult := by
  intro h op ty a b s c hty hi hs f real hok
  have hruns := updates_run (c := c) (s := s) (ty := ty) (a := a) (act := c.active (.red h op ty a b) s) (m := real) (f := f)
    (w := ty.bytes) (fun l p hl hf => by
      obtain ⟨p', hf', hp⟩ := hok l hl
      cases hf.symm.trans hf'
      exact hp) (.op op) (fun l => c.data s l b ty) (fun _ => 0)
  have hgoes := red_goes hty hok (.red h op ty a b) op b rfl
  have hmarked := hruns.trans (markClosing_runs c (.red h op ty a b) _)
  obtain ⟨g, hg⟩ := hmarked.group c.g (State.ctx_group hi.1)
  have hrun : exec (.red h op ty a b) s = issueMem (.red h op ty a b) s fun c act s => c.red (.red h op ty a b) op ty a b act s := rfl
  refine ⟨_, looked c s ty a (c.active (.red h op ty a b) s), hrun.trans (issueMem_next hi ?_), looked_noted .., ?_⟩
  · rw [hgoes, advance_stuck]
    exact hmarked.stuck.trans hs
  · rw [hgoes]
    exact Ctx.advance_advanced c _ _ g hg

/-- Settles O18: an atomic is its lanes' updates in ascending order (`atom_goes`, `red_goes`), each by Table 9-4 (`new_eq`). -/
theorem atomicAndReduceResult : Obligations.AtomicAndReduceResult := by
  unfold Obligations.AtomicAndReduceResult
  exact ⟨atomicResult, reduceResult⟩

end Sys2Proof.Laws
end

section
/-! PROOF. O17, stores: the bytes that a store's lanes leave in memory (R208). -/

namespace Sys2Proof.Laws

open Sys2Proof Sys2Proof.Machine Sys2Proof.Claims

/-! Bytes written at a list of addresses. -/

theorem readByte_congr {s t : State} (hm : t.mem = s.mem) (hk : t.ktag = s.ktag) (hb : t.blobs = s.blobs) (tag a : Nat) :
    t.readByte tag a = s.readByte tag a := by
  simp only [State.readByte, State.lineTag, State.memByte, State.blobOf, hm, hk, hb]

theorem noted_readByte {s t : State} (h : Noted s t) (tag a : Nat) : t.readByte tag a = s.readByte tag a :=
  readByte_congr (by rw [h.rest]) (by rw [h.rest]) (by rw [h.rest]) tag a

/-- A run of bytes is a byte at each of its addresses. -/
theorem writeEach_eq (bs : List Byte) (s : State) (tag pa : Nat) :
    s.writeEach tag pa bs = ((span pa bs.length).zip bs).foldl (fun s x => s.writeByte tag x.1 x.2) s := by
  induction bs generalizing s pa with
  | nil => rfl
  | cons b bs ih =>
    rw [State.writeEach, ih, List.length_cons, span, List.zip_cons_cons, List.foldl_cons]

theorem writeBytes_eq_writeAt (s : State) (tag pa : Nat) (bs : List Byte) :
    s.writeBytes tag pa bs = s.writeAt tag ((span pa bs.length).zip bs) := by
  rw [State.writeBytes, writeEach_eq, State.writeAt]

/-- Bytes elsewhere read as before: under the same key, or in other lines. -/
theorem writeAt_other {tag tag' a : Nat} (xs : List (Nat × Byte))
    (h : ∀ x ∈ xs, a ≠ x.1 ∧ (a / 128 = x.1 / 128 → tag' = tag)) (s : State) : (s.writeAt tag xs).readByte tag' a = s.readByte tag' a := by
  show (xs.foldl (fun s x => s.writeByte tag x.1 x.2) s).readByte tag' a = _
  exact List.foldlRecOn (motive := fun (u : State) => u.readByte tag' a = s.readByte tag' a) xs _ rfl fun u hu x hx =>
    (State.writeByte_other u tag x.1 tag' a x.2 (h x hx).1 (h x hx).2).trans hu

/-- Bytes written at different addresses read back. -/
theorem writeAt_same {tag a : Nat} {b : Byte} {xs : List (Nat × Byte)} (hd : (xs.map (·.1)).Nodup) (h : (a, b) ∈ xs) (s : State) :
    (s.writeAt tag xs).readByte tag a = b := by
  induction xs generalizing s with
  | nil => cases h
  | cons x xs ih =>
    obtain ⟨hx, hd'⟩ := List.nodup_cons.mp hd
    have hstep : (s.writeAt tag (x :: xs)).readByte tag a = ((s.writeByte tag x.1 x.2).writeAt tag xs).readByte tag a := rfl
    rw [hstep]
    rcases List.mem_cons.mp h with rfl | h
    · rw [writeAt_other xs fun y hy => ⟨fun he => hx (List.mem_map.mpr ⟨y, hy, he.symm⟩), fun _ => rfl⟩]
      exact State.writeByte_readByte ..
    · exact ih hd' h _

/-! The bytes of a place. -/

theorem bytesAt_length {w k : Nat} {p : Target} {as : List Nat} (h : bytesAt w p = some (k, as)) : as.length = w := by
  cases p <;> cases h <;> simp

theorem bytesAt_nodup {w k : Nat} {p : Target} {as : List Nat} (h : bytesAt w p = some (k, as)) : as.Nodup := by
  have hspan : (span 0 w).Nodup := (span_ascending 0 w).imp Nat.ne_of_lt
  cases p with
  | mem pa tag =>
    cases h
    exact hspan.map fun i j (he : pa + i = pa + j) => by omega
  | priv pa tag =>
    cases h
    exact hspan.map fun i j (he : pa + 128 * (i / 4) + i % 4 = pa + 128 * (j / 4) + j % 4) => by omega
  | _ => cases h

theorem span_shift (a n : Nat) : (span 0 n).map (fun i => a + i) = span a n := by
  simp only [span_eq_range', List.map_add_range', Nat.add_zero]

/-- A write at a place in memory. -/
theorem writeTarget_bytes {c : Ctx} {s0 : State} {w k : Nat} {p : Target} (hp : near s0 w p) {bs : List Byte} {as : List Nat}
    (h : bytesAt bs.length p = some (k, as)) (s : State) (l tag a : Nat) :
    (c.writeTarget s l bs p).readByte tag a = (s.writeAt k (as.zip bs)).readByte tag a := by
  cases p with
  | mem pa tg =>
    cases h
    simp only [Ctx.writeTarget, State.noteAccess, needMem_of_lt hp, span_shift, ← writeBytes_eq_writeAt]
    exact (noted_readByte (sees_noted ..) tag a).trans (noted_readByte (askHome_noted _ _) tag a)
  | priv pa tg =>
    cases h
    simp only [Ctx.writeTarget, State.noteAccess, needMem_of_lt hp]
    exact (noted_readByte (sees_noted ..) tag a).trans (noted_readByte (privLines_noted ..) tag a)
  | _ => cases h

/-- A write at another place in this package. -/
theorem writeTarget_noBytes {c : Ctx} {s0 : State} {w n : Nat} {p : Target} (hp : near s0 w p) (h : bytesAt n p = none) (s : State)
    (l : Nat) (bs : List Byte) (tag a : Nat) : (c.writeTarget s l bs p).readByte tag a = s.readByte tag a := by
  refine Eq.trans ?_ (noted_readByte (noteAccess_noted hp s bs.length) tag a)
  cases p with
  | sram u off =>
    simp only [Ctx.writeTarget]
    split
    · rw [writeScratch_same]
      rfl
    · rfl
  | tail q n => rfl
  | mem pa tg => cases h
  | priv pa tg => cases h
  | command k => exact hp.elim
  | remote pkg d va => exact hp.elim

/-- A byte that a write does not name, under the same key or in another line. -/
def Spared (w : Nat) (p : Target) (tag a : Nat) : Prop :=
  ∀ k as, bytesAt w p = some (k, as) → a ∉ as ∧ (k = tag ∨ ∀ b ∈ as, a / 128 ≠ b / 128)

theorem writeTarget_spares {c : Ctx} {s0 : State} {w tag a : Nat} {p : Target} (hp : near s0 w p) {bs : List Byte}
    (h : Spared bs.length p tag a) (s : State) (l : Nat) : (c.writeTarget s l bs p).readByte tag a = s.readByte tag a := by
  cases hb : bytesAt bs.length p with
  | none => exact writeTarget_noBytes hp hb s l bs tag a
  | some y =>
    obtain ⟨k, as⟩ := y
    obtain ⟨ha, hk⟩ := h k as hb
    rw [writeTarget_bytes hp hb]
    refine writeAt_other _ (fun x hx => ?_) s
    have hx1 : x.1 ∈ as := (List.of_mem_zip hx).1
    exact ⟨fun he => ha (he ▸ hx1), fun hline => (hk.resolve_right fun hne => hne x.1 hx1 hline).symm⟩

theorem mem_zip_atD {as : List Nat} {bs : List Byte} {j : Nat} (ha : j < as.length) (hb : j < bs.length) :
    (atD as j 0, atD bs j 0) ∈ as.zip bs := by
  induction as generalizing bs j with
  | nil => cases ha
  | cons a as ih =>
    cases bs with
    | nil => cases hb
    | cons b bs =>
      cases j with
      | zero => exact List.mem_cons_self ..
      | succ j => exact List.mem_cons_of_mem _ (ih (by simpa using ha) (by simpa using hb))

theorem writeTarget_reads {c : Ctx} {s0 : State} {w k j : Nat} {p : Target} (hp : near s0 w p) {bs : List Byte} {as : List Nat}
    (h : bytesAt bs.length p = some (k, as)) (hj : j < bs.length) (s : State) (l : Nat) :
    (c.writeTarget s l bs p).readByte k (atD as j 0) = atD bs j 0 := by
  have hlen := bytesAt_length h
  rw [writeTarget_bytes hp h]
  refine writeAt_same ?_ (mem_zip_atD (hlen ▸ hj) hj) s
  rw [List.map_fst_zip hlen.le]
  exact bytesAt_nodup h

theorem atD_natBytes {n j : Nat} (h : j < n) (x : Nat) : atD (natBytes n x) j 0 = BitVec.ofNat 8 (x / 256 ^ j) := by
  induction n generalizing j x with
  | zero => cases h
  | succ n ih =>
    cases j with
    | zero => rw [pow_zero, Nat.div_one]; rfl
    | succ j => rw [natBytes, atD, ih (by omega), Nat.div_div_eq_div_mul, pow_succ']

/-! Lanes in ascending order. -/

section
variable {c : Ctx} {s : State} {m : Mask} {f : Nat → Chk} {w : Nat}

/-- Each lane of a store writes the low bytes of its data. -/
def writeAll (c : Ctx) (w : Nat) (data : Nat → Nat) (u : State) (xs : List (Nat × Target)) : State :=
  xs.foldl (fun u q => c.writeTarget u q.1 (natBytes w (data q.1)) q.2) u

theorem writeAll_runs {xs : List (Nat × Target)} (h : ∀ q ∈ xs, near s w q.2) (n : Nat) (data : Nat → Nat) (u : State) :
    Runs c.gk u (writeAll c n data u xs) :=
  List.foldlRecOn (motive := fun (v : State) => Runs c.gk u v) xs _ (.refl ..) fun v hv q hq =>
    hv.trans (writeTarget_runs (h q hq) v q.1 _)

theorem writeAll_spares {xs : List (Nat × Target)} {tag a : Nat} (h : ∀ q ∈ xs, near s w q.2 ∧ Spared w q.2 tag a) (data : Nat → Nat)
    (u : State) : (writeAll c w data u xs).readByte tag a = u.readByte tag a :=
  List.foldlRecOn (motive := fun (v : State) => v.readByte tag a = u.readByte tag a) xs _ rfl fun v hv q hq =>
    (writeTarget_spares (h q hq).1 (by rw [natBytes_length]; exact (h q hq).2) v q.1).trans hv

theorem placesOf_ascending (m : Mask) (f : Nat → Chk) : (placesOf m f).Pairwise fun x y => x.1 < y.1 := by
  rw [placesOf_eq, List.pairwise_filterMap]
  refine (lanes_ascending m).imp fun hlt x hx y hy => ?_
  rw [(placeOf_iff.mp hx).1, (placeOf_iff.mp hy).1]
  exact hlt

/-- The bytes of a lane remain where no higher lane writes them. -/
theorem writeAll_reads (hnear : ∀ l p, m.getLsbD l = true → f l = .ok p → near s w p) {l k j : Nat} {p : Target} {as : List Nat}
    (hl : m.getLsbD l = true) (hf : f l = .ok p) (hb : bytesAt w p = some (k, as))
    (hlast : ∀ l' p' k' as', l < l' → m.getLsbD l' = true → f l' = .ok p' → bytesAt w p' = some (k', as') →
      k' = k ∧ ∀ a ∈ as', a ∉ as) (hj : j < w) (data : Nat → Nat) (u : State) :
    (writeAll c w data u (placesOf m f)).readByte k (atD as j 0) = BitVec.ofNat 8 (data l / 256 ^ j) := by
  have hmem : (l, p) ∈ placesOf m f := mem_placesOf.mpr ⟨hl, hf⟩
  obtain ⟨pre, post, hsplit⟩ := List.append_of_mem hmem
  have hafter : ∀ q ∈ post, l < q.1 := by
    have hasc := placesOf_ascending m f
    rw [hsplit, List.pairwise_append, List.pairwise_cons] at hasc
    exact hasc.2.1.1
  have hsel : atD as j 0 ∈ as := (List.of_mem_zip (mem_zip_atD (as := as) (bs := natBytes w (data l))
    (by rw [bytesAt_length hb]; exact hj) (by rw [natBytes_length]; exact hj))).1
  have hspared : ∀ q ∈ post, near s w q.2 ∧ Spared w q.2 k (atD as j 0) := fun q hq => by
    obtain ⟨hql, hqf⟩ := mem_placesOf.mp (hsplit ▸ List.mem_append_right pre (List.mem_cons_of_mem _ hq))
    refine ⟨hnear _ _ hql hqf, fun k' as' hb' => ?_⟩
    obtain ⟨hk, hdisj⟩ := hlast q.1 q.2 k' as' (hafter q hq) hql hqf hb'
    exact ⟨fun ha => hdisj _ ha hsel, .inl hk⟩
  rw [hsplit, writeAll, List.foldl_append, List.foldl_cons]
  refine (writeAll_spares hspared data _).trans ?_
  rw [writeTarget_reads (hnear l p hl hf) (by rw [natBytes_length]; exact hb) (by rw [natBytes_length]; exact hj),
    atD_natBytes hj]

end

/-! The instructions. -/

section
variable {c : Ctx} {s : State} {sp : Sp} {x : StArgs} {gsl : BitVec 4} {act : Mask}

/-- Places in this package ask for no command (R266). -/
theorem fullChan_near {xs : List (Nat × Target)} {w : Nat} (h : ∀ q ∈ xs, near s w q.2) : c.fullChan s xs = none := by
  rw [Ctx.fullChan, List.findSome?_eq_none_iff]
  intro k _
  have hnone : xs.filter (fun y => y.2 == .command k) = [] := by
    rw [List.filter_eq_nil_iff]
    intro q hq he
    have hp := h q hq
    rw [eq_of_beq he] at hp
    exact hp
  simp [hnone]

/-- A store at places that can be reached now writes its lanes' data there (R208). -/
theorem store_goes (hok : ∀ l, (c.realOf act).getLsbD l = true → ∃ p, c.storeChk s sp x gsl l = .ok p ∧ near s x.ty.bytes p) (i : Instr) :
    ∃ v, Noted s v ∧ c.store i sp x gsl act s = c.advance i
      (writeAll c x.ty.bytes (fun l => c.data s l x.d x.ty) v (placesOf (c.realOf act) (c.storeChk s sp x gsl))) := by
  have hnear : ∀ q ∈ placesOf (c.realOf act) (c.storeChk s sp x gsl), near s x.ty.bytes q.2 := fun q hq => by
    obtain ⟨hl, hf⟩ := mem_placesOf.mp hq
    obtain ⟨p, hf', hp⟩ := hok _ hl
    cases hf.symm.trans hf'
    exact hp
  have hpass : ∀ l, (c.realOf act).getLsbD l = true → ∃ p, c.storeChk s sp x gsl l = .ok p := fun l hl => (hok l hl).imp fun _ h => h.1
  have hmeet : c.meet s (c.realOf act) true x.ty.bytes (c.storeChk s sp x gsl) = .go := by
    refine meet_go (fun l hl => ?_) (fun l hl => hpass l ((realOf_iff ..).mp hl).1)
      (fun l p hl hf => hnear (l, p) (mem_placesOf.mpr ⟨hl, hf⟩)) nofun
    obtain ⟨p, hp⟩ := hpass l hl
    rw [hp]
    rfl
  have hlane : ∀ (u : State), ∀ q ∈ placesOf (c.realOf act) (c.storeChk s sp x gsl),
      c.storeLane sp x gsl s u q = c.writeTarget u q.1 (natBytes x.ty.bytes (c.data s q.1 x.d x.ty)) q.2 := fun u q hq => by
    obtain ⟨l, p⟩ := q
    have hp := hnear _ hq
    cases p with
    | command k => exact hp.elim
    | _ => rfl
  have hnoted := noteXlates_noted c (okLanes (c.realOf act) (c.storeChk s sp x gsl)) sp (fun l => c.addr s l sp x.a x.disp) s
  refine ⟨_, hnoted, ?_⟩
  rw [Ctx.store]
  simp only [hmeet, fullChan_near hnear, offLanes_none hpass]
  rw [List.foldl_ext _ _ _ hlane]
  rfl

end

theorem advance_readByte (c : Ctx) (i : Instr) (s : State) (tag a : Nat) : (c.advance i s).readByte tag a = s.readByte tag a := by
  rw [Ctx.advance, (Ctx.moveTo_effect c _ s).rest, dropRecs_eq]
  rfl

theorem storesTo_of {i : Instr} {sp : Sp} {x : StArgs} {gsl : BitVec 4}
    (hrun : ∀ s, exec i s = issueMem i s fun c act s => c.store i sp x gsl act s) : StoresTo i sp x gsl := by
  intro s c hi hs w f real hok
  have hnear : ∀ l p, real.getLsbD l = true → f l = .ok p → near s w p := fun l p hl hf => by
    obtain ⟨p', hf', hp⟩ := hok l hl
    cases hf.symm.trans hf'
    exact hp
  have hplaces : ∀ q ∈ placesOf real f, real.getLsbD q.1 = true ∧ f q.1 = .ok q.2 := fun q hq => mem_placesOf.mp hq
  obtain ⟨v, hv, hgoes⟩ := store_goes (c := c) (s := s) (act := c.active i s) hok i
  have hstore : c.store i sp x gsl (c.active i s) s =
      c.advance i (writeAll c w (fun l => c.data s l x.d x.ty) v (placesOf real f)) := hgoes
  have hruns : Runs c.gk s (writeAll c w (fun l => c.data s l x.d x.ty) v (placesOf real f)) :=
    (noted_runs c.gk hv).trans (writeAll_runs (fun q hq => hnear _ _ (hplaces q hq).1 (hplaces q hq).2) ..)
  obtain ⟨g, hg⟩ := hruns.group c.g (State.ctx_group hi.1)
  have hadv := Ctx.advance_advanced c i _ g hg
  refine ⟨_, v, (hrun s).trans (issueMem_next hi ?_), hv, hstore ▸ hadv, fun l p k as hl hf hb hlast j hj => ?_, fun tag a hother => ?_⟩
  · rw [hstore, advance_stuck]
    exact hruns.stuck.trans hs
  · rw [hstore, advance_readByte]
    exact writeAll_reads hnear hl hf hb hlast hj _ v
  · rw [hstore, advance_readByte]
    refine (writeAll_spares (s := s) (fun q hq => ?_) _ v).trans (noted_readByte hv tag a)
    obtain ⟨hl, hf⟩ := hplaces q hq
    exact ⟨hnear _ _ hl hf, fun k as hb => hother q.1 q.2 k as hl hf hb⟩

theorem storeResult : Claims.StoreResult := by
  intro h x gsl
  exact ⟨storesTo_of fun _ => rfl, storesTo_of fun _ => rfl, storesTo_of fun _ => rfl, storesTo_of fun _ => rfl, storesTo_of fun _ => rfl⟩

end Sys2Proof.Laws
end

section
/-! PROOF. O17, loads: what each lane reads (R207), and what the value of a generic load hangs on. -/

namespace Sys2Proof.Laws

open Sys2Proof Sys2Proof.Machine Sys2Proof.Claims

/-! What loads leave of the caches (R62, R91, R100). -/

theorem fillCache_noted (s : State) (core : Nat) (classH : Bool) (tag line : Nat) : Noted s (s.fillCache core classH tag line) := by
  simp only [State.fillCache]
  split
  · exact noted_refl s
  · refine noted_trans ?_ (setLines_noted ..)
    split
    · split
      · exact askHome_noted ..
      · exact noted_refl s
    · exact noted_refl s

theorem lookUp_noted (c : Ctx) (s : State) (x : Nat × Nat) : Noted s (c.lookUp s x) := by
  simp only [Ctx.lookUp]
  split
  · exact useBank_noted ..
  · exact noted_trans (askHome_noted ..) (fillCache_noted ..)

theorem lookUps_noted (c : Ctx) (xs : List (Nat × Nat)) (s : State) : Noted s (xs.foldl c.lookUp s) :=
  List.foldlRecOn (motive := Noted s) xs _ (noted_refl s) fun _ hu x _ => noted_trans hu (lookUp_noted c _ x)

theorem discardLine_runs (gk : Nat) (s : State) (line : Nat) : Runs gk s (s.discardLine line) := by
  unfold State.discardLine
  extract_lets ms at_ bs tag t
  have ht : Runs gk s t := by
    simp only [t]
    split
    · exact .refl ..
    · exact wrote_runs gk (writeBytes_wrote ..)
  exact ht.trans (.of_same rfl rfl)

theorem dropCopies_runs (gk : Nat) (s : State) (cl line : Nat) : Runs gk s (s.dropCopies cl line) :=
  List.foldlRecOn (motive := Runs gk s) _ _ (.refl ..) fun u hu b _ => hu.trans (by
    split
    · split
      · exact .of_same rfl rfl
      · exact .refl ..
    · exact .refl ..)

/-- Lines that a last-use load discards, and their copies in its cluster (R100). -/
def discards (cl : Nat) (lines : List (Nat × Nat)) (s : State) : State :=
  lines.foldl (fun v k => (v.discardLine k.1).dropCopies cl k.1) s

theorem discards_runs (gk cl : Nat) (lines : List (Nat × Nat)) (s : State) : Runs gk s (discards cl lines s) :=
  List.foldlRecOn (motive := Runs gk s) lines _ (.refl ..) fun u hu k _ =>
    hu.trans ((discardLine_runs gk u k.1).trans (dropCopies_runs gk _ cl k.1))

/-! One lane's load. -/

section
variable {c : Ctx} {s : State} {x : LdArgs} {f : Nat → Chk} {w : Nat}

/-- What a lane loads; zero for one whose access is not made (R25). -/
def loaded (c : Ctx) (s : State) (x : LdArgs) (f : Nat → Chk) (l : Nat) : Nat :=
  match f l with
  | .ok p => (c.readTarget s l x.inv x.last x.ty.bytes p).1
  | _ => 0

theorem loaded_ok {l : Nat} {p : Target} (h : f l = .ok p) : loaded c s x f l = (c.readTarget s l x.inv x.last x.ty.bytes p).1 := by
  rw [loaded, h]

theorem loaded_not {l : Nat} (h : ∀ p, f l ≠ .ok p) : loaded c s x f l = 0 := by
  rw [loaded]
  split
  next p hp => exact absurd hp (h p)
  next => rfl

theorem loadLane_ok {l : Nat} {p : Target} (hf : f l = .ok p) (hp : near s w p) (u : State) (ps : List PLane) :
    c.loadLane x f (u, ps) l =
      (c.sees l (c.readTarget u l x.inv x.last x.ty.bytes p).2 (u.noteAccess p x.ty.bytes),
        ps ++ [PLane.of l (c.window x.la) (wrOf x.d x.ty (c.readTarget u l x.inv x.last x.ty.bytes p).1)]) := by
  cases p with
  | remote pkg d va => exact hp.elim
  | _ => simp only [Ctx.loadLane, hf]

/-- A helper lane whose access is not made gets zero (R25). -/
theorem loadLane_not {l : Nat} (hf : ∀ p, f l ≠ .ok p) (hh : (c.g.lane l).helper = true) (u : State) (ps : List PLane) :
    c.loadLane x f (u, ps) l = (u, ps ++ [PLane.of l (c.window x.la) (wrOf x.d x.ty 0)]) := by
  have hreal : ¬ (c.realOf 0xFFFFFFFF#32).getLsbD l = true := fun h =>
    Bool.false_ne_true ((real_helper ((realOf_iff ..).mp h).2).symm.trans hh)
  cases hfl : f l with
  | ok p => exact absurd hfl (hf p)
  | _ => simp only [Ctx.loadLane, hfl, if_neg hreal]

/-- What the lanes of a load change as they read: the moments of use of banks, where a lane reads scratchpad, and what lanes have seen. -/
structure Reading (f : Nat → Chk) (s u : State) : Prop where
  rest : u = { s with banks := u.banks, groups := u.groups }
  banks : (∀ l p, f l = .ok p → p.scratch = none) → u.banks = s.banks

theorem sees_eq (c : Ctx) (l moment : Nat) (s : State) : c.sees l moment s = { s with groups := (c.sees l moment s).groups } := by
  rw [Ctx.sees]
  split <;> rfl

theorem noteAccess_eq {p : Target} (hp : near s w p) (u : State) (n : Nat) :
    u.noteAccess p n = { u with banks := (u.noteAccess p n).banks } ∧ (p.scratch = none → (u.noteAccess p n).banks = u.banks) := by
  cases p with
  | mem pa tag =>
    rw [State.noteAccess, needMem_of_lt hp]
    exact ⟨rfl, fun _ => rfl⟩
  | priv pa tag =>
    rw [State.noteAccess, needMem_of_lt hp]
    exact ⟨rfl, fun _ => rfl⟩
  | sram t off =>
    refine ⟨?_, nofun⟩
    simp only [State.noteAccess]
    split
    · exact touch_eq ..
    · rfl
  | _ => exact ⟨rfl, fun _ => rfl⟩

theorem Reading.step {u : State} (h : Reading f s u) {l : Nat} {p : Target} (hf : f l = .ok p) (hp : near s w p) (n moment : Nat) :
    Reading f s (c.sees l moment (u.noteAccess p n)) := by
  obtain ⟨hrest, hbanks⟩ := noteAccess_eq hp u n
  refine ⟨?_, fun hnone => ?_⟩
  · rw [sees_eq, hrest, h.rest]
  · rw [sees_eq]
    exact (hbanks (hnone l p hf)).trans (h.banks hnone)

/-- The lanes of a load read one by one, where none reads otherwise for what those before it noted. -/
theorem loadLanes_eq {ls : List Nat} (hok : ∀ l ∈ ls, (c.g.lane l).helper = false → ∃ p, f l = .ok p)
    (hnear : ∀ l ∈ ls, ∀ p, f l = .ok p → near s w p)
    (hread : ∀ u, Reading f s u → ∀ l p, f l = .ok p →
      (c.readTarget u l x.inv x.last x.ty.bytes p).1 = (c.readTarget s l x.inv x.last x.ty.bytes p).1)
    {u : State} (hu : Reading f s u) (ps : List PLane) :
    ∃ v, Noted u v ∧ ls.foldl (c.loadLane x f) (u, ps) =
      (v, ps ++ ls.map fun l => PLane.of l (c.window x.la) (wrOf x.d x.ty (loaded c s x f l))) := by
  induction ls generalizing u ps with
  | nil => exact ⟨u, noted_refl u, by simp⟩
  | cons l ls ih =>
    have hok' := fun j hj => hok j (List.mem_cons_of_mem l hj)
    have hnear' := fun j hj => hnear j (List.mem_cons_of_mem l hj)
    rw [List.foldl_cons, List.map_cons, ← List.singleton_append, ← List.append_assoc]
    by_cases hpass : ∃ p, f l = .ok p
    · obtain ⟨p, hf⟩ := hpass
      have hp := hnear l (List.mem_cons_self ..) p hf
      rw [loadLane_ok hf hp, hread u hu l p hf, ← loaded_ok hf]
      obtain ⟨v, hv, he⟩ := ih hok' hnear' (hu.step (c := c) hf hp x.ty.bytes (c.readTarget u l x.inv x.last x.ty.bytes p).2)
        (ps ++ [PLane.of l (c.window x.la) (wrOf x.d x.ty (loaded c s x f l))])
      exact ⟨v, noted_trans (noted_trans (noteAccess_noted hp ..) (sees_noted ..)) hv, he⟩
    · have hf : ∀ p, f l ≠ .ok p := fun p hp => hpass ⟨p, hp⟩
      have hh : (c.g.lane l).helper = true := by
        by_contra hn
        exact hpass (hok l (List.mem_cons_self ..) (by simpa using hn))
      rw [loadLane_not hf hh, ← loaded_not (c := c) (s := s) (x := x) hf]
      exact ih hok' hnear' hu _

end

/-! The instructions. -/

section
variable {c : Ctx} {s : State} {x : LdArgs} {sp : Sp}

/-- What the checks of Table 9-2 say of a lane of a load. -/
def loadChk (c : Ctx) (s : State) (sp : Sp) (x : LdArgs) (l : Nat) : Chk :=
  c.check s l sp (c.addr s l sp x.a x.disp) x.ty.bytes .read false false (decide (x.ty = .b64) && !x.inv && !x.last)

/-- The caches after a load's lanes have read (R62, R100). -/
def afterReads (c : Ctx) (x : LdArgs) (lines : List (Nat × Nat)) (v : State) : State :=
  if x.last then discards c.cl lines v else lines.foldl c.lookUp v

theorem afterReads_noted (c : Ctx) (x : LdArgs) (lines : List (Nat × Nat)) (v : State) :
    Noted (if x.last then discards c.cl lines v else v) (afterReads c x lines v) := by
  rw [afterReads]
  split
  · exact noted_refl _
  · exact lookUps_noted ..

theorem afterReads_runs (c : Ctx) (x : LdArgs) (lines : List (Nat × Nat)) (v : State) : Runs c.gk v (afterReads c x lines v) := by
  rw [afterReads]
  split
  · exact discards_runs ..
  · exact noted_runs c.gk (lookUps_noted ..)

/-- No lane of a load reads otherwise for what the lanes before it noted. -/
def ReadsAlike (c : Ctx) (s : State) (sp : Sp) (x : LdArgs) : Prop :=
  ∀ u, Reading (loadChk c s sp x) s u → ∀ l p, loadChk c s sp x l = .ok p →
    (c.readTarget u l x.inv x.last x.ty.bytes p).1 = (c.readTarget s l x.inv x.last x.ty.bytes p).1

theorem load_goes {act : Mask} (hok : ∀ l, act.getLsbD l = true → (c.g.lane l).helper = false → ∃ p, loadChk c s sp x l = .ok p)
    (hnear : ∀ l p, act.getLsbD l = true → loadChk c s sp x l = .ok p → near s x.ty.bytes p)
    (hcache : ∀ b ∈ s.cacheBanks c.cl, (s.bank b).pwr = .on) (hread : ReadsAlike c s sp x) (i : Instr) :
    ∃ v, Noted s v ∧ ∃ u, Noted (afterReads c x (dedup ((placesOf act (loadChk c s sp x)).flatMap fun q => linesOfTarget x.ty.bytes q.2)) v) u ∧
      c.load i sp x act s = c.advance i (c.startPend i ((Mask.lanes act).map fun l =>
        PLane.of l (c.window x.la) (wrOf x.d x.ty (loaded c s x (loadChk c s sp x) l))) u) := by
  have hreal : ∀ l, (c.realOf act).getLsbD l = true → ∃ p, loadChk c s sp x l = .ok p := fun l hl =>
    hok l ((realOf_iff ..).mp hl).1 (real_helper ((realOf_iff ..).mp hl).2)
  have hmeet : c.meet s act false x.ty.bytes (loadChk c s sp x) = .go :=
    meet_go (fun l _ => check_isAsk ..) hreal hnear fun _ => hcache
  obtain ⟨v, hv, hlanes⟩ := loadLanes_eq (c := c) (s := s) (x := x) (ls := Mask.lanes act) (f := loadChk c s sp x)
    (fun l hl => hok l ((Mask.mem_lanes _ _).mp hl)) (fun l hl p => hnear l p ((Mask.mem_lanes _ _).mp hl))
    hread ⟨rfl, fun _ => rfl⟩ []
  refine ⟨v, hv, _, noteXlates_noted c (okLanes act (loadChk c s sp x)) sp (fun l => c.addr s l sp x.a x.disp) _, ?_⟩
  rw [List.nil_append] at hlanes
  have hchk : (fun l => c.check s l sp (c.addr s l sp x.a x.disp) x.ty.bytes .read false false
      (decide (x.ty = .b64) && !x.inv && !x.last)) = loadChk c s sp x := rfl
  rw [Ctx.load]
  simp only [hchk, hmeet, hlanes, offLanes_none hreal]
  rfl

/-- A load does what the claim says, where no lane reads otherwise for what the lanes before it noted. -/
theorem loadsFrom_of {i : Instr} (hrun : ∀ s, exec i s = issueMem i s fun c act s => c.load i sp x act s)
    (hread : ∀ c s, ReadsAlike c s sp x) : LoadsFrom i sp x := by
  intro s c hi hs w f act hok hnear hcache value lines
  obtain ⟨v, hv, u, hu, hload⟩ := load_goes (c := c) (s := s) (x := x) (sp := sp) hok hnear hcache (hread c s) i
  have hruns : Runs c.gk s u := ((noted_runs c.gk hv).trans (afterReads_runs ..)).trans (noted_runs c.gk hu)
  obtain ⟨g, hg⟩ := hruns.group c.g (State.ctx_group hi.1)
  obtain ⟨g', hg'⟩ := startPend_group c i ((Mask.lanes act).map fun l => PLane.of l (c.window x.la) (wrOf x.d x.ty (value l))) hg
  refine ⟨_, v, u, (hrun s).trans (issueMem_next hi ?_), hv, noted_trans (afterReads_noted ..) hu, hload ▸ Ctx.advance_advanced c i _ g' hg'⟩
  rw [hload, advance_stuck, startPend_stuck]
  exact hruns.stuck.trans hs

/-- Lanes that read no scratchpad leave the banks, so that every lane finds the caches as the first did. -/
theorem readsAlike_of_noScratch (h : ∀ l p, loadChk c s sp x l = .ok p → p.scratch = none) : ReadsAlike c s sp x := by
  intro u hu l p hp
  rw [hu.rest, hu.banks h]
  rfl

/-- Scratchpad reads as it is, whatever the caches hold. -/
theorem readsAlike_of_scratch (h : ∀ l p, loadChk c s sp x l = .ok p → p.scratch ≠ none) : ReadsAlike c s sp x := by
  intro u hu l p hp
  have hs := h l p hp
  rw [hu.rest]
  cases p with
  | sram t off => rfl
  | _ => exact absurd rfl hs

/-- Where no copy is ever chosen (the free choice of R91), a lane reads the home, whatever the caches hold. -/
theorem readsAlike_of_odd (hodd : ∀ n k, Config.free 28 n k % 2 = 1) : ReadsAlike c s sp x := by
  have hhome : ∀ (u : State) l tag pa n, (c.loadBytes u l tag pa n).1 = u.readBytes tag pa n := by
    intro u l tag pa n
    rw [Ctx.loadBytes]
    split
    · rfl
    · simp [hodd]
  intro u hu l p hp
  rw [hu.rest]
  cases p with
  | mem pa tag =>
    simp only [Ctx.readTarget]
    split
    · rfl
    · split
      · rfl
      · rw [hhome, hhome]
        rfl
  | _ => rfl

end

/-! Where the places of each space lie (Table 9-2). -/

/-- The place that a check passes, if it passes one. -/
def Passes (P : Target → Prop) : Chk → Prop
  | .ok p => P p
  | _ => True

theorem Passes.place {P : Target → Prop} {k : Chk} (h : Passes P k) {p : Target} (hk : k = .ok p) : P p := by
  rw [hk] at h
  exact h

theorem Passes.ite {P : Target → Prop} {q : Prop} [Decidable q] {x y : Chk} (hx : Passes P x) (hy : Passes P y) :
    Passes P (if q then x else y) := by
  split
  · exact hx
  · exact hy

theorem deviceChk_passes (c : Ctx) (s : State) (pa addr : Nat) (acc : Acc) (tailOk : Bool) :
    Passes (·.scratch = none) (c.deviceChk s pa addr acc tailOk) := by
  rw [Ctx.deviceChk]
  split
  · trivial
  · exact .ite trivial (.ite trivial rfl)

theorem globalChk_passes (c : Ctx) (s : State) (a w : Nat) (acc : Acc) (tailOk : Bool) :
    Passes (·.scratch = none) (c.globalChk s a w acc tailOk) := by
  rw [Ctx.globalChk]
  refine .ite trivial ?_
  split
  case h_1 => exact .ite trivial rfl
  case h_2 => exact .ite rfl trivial
  case h_3 => exact deviceChk_passes ..
  case h_4 => trivial

theorem privChk_passes (c : Ctx) (s : State) (l off w addr : Nat) (acc : Acc) :
    Passes (·.scratch = none) (c.privChk s l off w addr acc) := by
  rw [Ctx.privChk]
  refine .ite trivial (.ite trivial ?_)
  split
  case h_1 => exact .ite trivial rfl
  all_goals trivial

theorem ownChk_passes (c : Ctx) (off w : Nat) : Passes (·.scratch ≠ none) (c.ownChk off w) := by
  rw [Ctx.ownChk]
  split
  · trivial
  · nofun

theorem sharedChk_passes (c : Ctx) (s : State) (n w : Nat) : Passes (·.scratch ≠ none) (c.sharedChk s n w) := by
  simp only [Ctx.sharedChk]
  split
  · trivial
  · split
    · trivial
    · nofun

theorem loadsFrom_g {i : Instr} {x : LdArgs} (hrun : ∀ s, exec i s = issueMem i s fun c act s => c.load i .g x act s) :
    LoadsFrom i .g x :=
  loadsFrom_of hrun fun c s => readsAlike_of_noScratch fun _ _ => (Passes.ite (x := .bad ..) trivial (globalChk_passes c s ..)).place

theorem loadsFrom_p {i : Instr} {x : LdArgs} (hrun : ∀ s, exec i s = issueMem i s fun c act s => c.load i .p x act s) :
    LoadsFrom i .p x :=
  loadsFrom_of hrun fun c s => readsAlike_of_noScratch fun _ _ => (privChk_passes c s ..).place

theorem loadsFrom_s {i : Instr} {x : LdArgs} (hrun : ∀ s, exec i s = issueMem i s fun c act s => c.load i .s x act s) :
    LoadsFrom i .s x :=
  loadsFrom_of hrun fun c _ => readsAlike_of_scratch fun _ _ => (Passes.ite (x := .off 2) trivial (ownChk_passes c ..)).place

theorem loadsFrom_c {i : Instr} {x : LdArgs} (hrun : ∀ s, exec i s = issueMem i s fun c act s => c.load i .c x act s) :
    LoadsFrom i .c x :=
  loadsFrom_of hrun fun c s => readsAlike_of_scratch fun _ _ => (Passes.ite (x := .off 2) trivial (sharedChk_passes c s ..)).place

/-- The part of O17 about the loads that name one space. -/
theorem loadsFrom_named (h : Hdr) (x : LdArgs) :
    LoadsFrom (.ldG h x) .g x ∧ LoadsFrom (.ldS h x) .s x ∧ LoadsFrom (.ldC h x) .c x ∧ LoadsFrom (.ldP h x) .p x :=
  ⟨loadsFrom_g fun _ => rfl, loadsFrom_s fun _ => rfl, loadsFrom_c fun _ => rfl, loadsFrom_p fun _ => rfl⟩

/-- The part of O17 about loads of a generic address, whose lanes may read scratchpad and cached lines in one instruction: it
holds where the free choice of R91 takes no copy. -/
theorem loadsFrom_gen (hodd : ∀ n k, Config.free 28 n k % 2 = 1) (h : Hdr) (x : LdArgs) : LoadsFrom (.ld h x) .gen x :=
  loadsFrom_of (fun _ => rfl) fun _ _ => readsAlike_of_odd hodd

/-- This settles nothing: O17 hangs on `Config.free`, which the model leaves open. Where its choice of R91 may take a copy, a
lane's read of scratchpad can put a bank of `State.banks` before another, and a later lane finds another copy than the claim says. -/
theorem loadAndStoreResult_of_home (hodd : ∀ n k, Config.free 28 n k % 2 = 1) : Obligations.LoadAndStoreResult := by
  refine ⟨fun h x => ?_, storeResult⟩
  obtain ⟨hg, hs, hc, hp⟩ := loadsFrom_named h x
  exact ⟨loadsFrom_gen hodd h x, hg, hs, hc, hp⟩

end Sys2Proof.Laws
end

section
/-! PROOF. What O26 and O27 share: instructions of a whole group that go on. -/

namespace Sys2Proof.Laws

open Sys2Proof Sys2Proof.Machine Sys2Proof.Claims

/-- An instruction of a whole group leaves what its operation leaves, where no access met an address without memory (R40). -/
theorem groupOp_to {i : Instr} {s u : State} {c : Ctx} {k : Ctx → State → State} (hw : Whole i s c) (hk : k c s = u)
    (hs : u.stuck = s.stuck) : groupOp i s k = .next u :=
  hk ▸ groupOp_next hw (by rw [hk, hs]; exact whole_stuck hw)

/-- An instruction of a whole group changes what it changes, and its path goes on (R40). -/
theorem groupOp_advances {i : Instr} {s u : State} {c : Ctx} {k : Ctx → State → State} (hw : Whole i s c)
    (hk : k c s = c.advance i u) (hr : Runs c.gk s u) : ∃ t, groupOp i s k = .next t ∧ Advanced c i u t := by
  obtain ⟨g, hg⟩ := hr.group c.g (whole_group hw)
  exact ⟨_, groupOp_to hw hk ((advance_stuck ..).trans hr.stuck), Ctx.advance_advanced c i u g hg⟩

end Sys2Proof.Laws
end

section
/-! PROOF. O26: spills and fills of accumulator tiles, from their start to the bytes that a spill writes (R241, R247). -/

namespace Sys2Proof.Laws

open Sys2Proof Sys2Proof.Machine Sys2Proof.Claims

/-! An operation starts (R239, R242). -/

theorem started_runs (c : Ctx) (ds : DSlots) (cap : AnvilCap) (u : State) : Runs c.gk u (started c ds cap u) :=
  ⟨started_stuck c ds cap u, fun _ hg => (started_group c ds cap hg).elim fun _ hp => ⟨_, hp⟩⟩

/-- An operation of the accumulator family starts where no slot that it names is busy. -/
theorem accOp_starts {i : Instr} {ds : DSlots} {s u : State} {c : Ctx} {cap : AnvilCap} {k : Ctx → State → State} (hw : Whole i s c)
    (hb : s.slotsBusy c.gk ds.wmask = false) (hk : k c s = c.startAcc i ds cap [] u) (hr : Runs c.gk s u) :
    ∃ t, accOp i ds s k = .next t ∧ Advanced c i (started c ds cap u) t :=
  groupOp_advances hw ((if_neg (by rw [hb]; decide)).trans hk) (hr.trans (started_runs c ds cap u))

/-! Where an image lies (R247). -/

/-- A line of an image in memory of this package. -/
def LineHere (x : Target) : Prop := ∃ pa tag, x = .mem pa tag ∧ pa < hbmBytes

/-- What an image's lines need is looked up: L1 TLBs and walks change at most (R346). -/
theorem imageXlates_eq (c : Ctx) (ea : DWord) (s : State) : ∃ ts ws, c.imageXlates ea s = { s with tlb1 := ts, walks := ws } := by
  rw [Ctx.imageXlates]
  split
  · exact ⟨s.tlb1, s.walks, rfl⟩
  · refine List.foldlRecOn (motive := fun (u : State) => ∃ ts ws, u = { s with tlb1 := ts, walks := ws }) _ _
      ⟨s.tlb1, s.walks, rfl⟩ ?_
    rintro u ⟨ts, ws, rfl⟩ page -
    obtain ⟨ts', ws', h⟩ := noteXlate_eq { s with tlb1 := ts, walks := ws } c.part c.t.core c.l.classH (page * 2 ^ 16)
    exact ⟨ts', ws', h⟩

theorem imageXlates_noted (c : Ctx) (ea : DWord) (s : State) : Noted s (c.imageXlates ea s) := by
  obtain ⟨ts, ws, h⟩ := imageXlates_eq c ea s
  rw [h]
  exact noted_of_eq rfl

theorem imageXlates_tileIn (c : Ctx) (ea : DWord) (s : State) (ds : DSlots) (tile : Nat) :
    c.tileIn (c.imageXlates ea s) ds tile = c.tileIn s ds tile := by
  obtain ⟨ts, ws, h⟩ := imageXlates_eq c ea s
  rw [h]
  rfl

section
variable {s : State} {c : Ctx} {a : Reg} {acc : Acc}

theorem image_scratch {off : Nat} (hx : c.imageChk s (c.pair s (c.lead.getD 0) a) acc = .inr (.scratch off))
    (hp : s.scratchPark [(c.tuid, off, 1280)] = .none) (k : Nat → Image5 → State → State) :
    c.image s a acc k = k (c.lead.getD 0) (.scratch off) s := by
  simp only [Ctx.image, hx, hp]

theorem image_lines {ts : List Target} (hx : c.imageChk s (c.pair s (c.lead.getD 0) a) acc = .inr (.lines ts))
    (k : Nat → Image5 → State → State) :
    c.image s a acc k = k (c.lead.getD 0) (.lines ts) (c.imageXlates (c.pair s (c.lead.getD 0) a) s) := by
  simp only [Ctx.image, hx]

end

/-! The bytes of an image. -/

/-- Parts of one length, one after another, by part and place. -/
theorem getElem?_flatMap_of_length {α β : Type} {f : α → List β} {n : Nat} {xs : List α}
    (hlen : ∀ x ∈ xs, (f x).length = n) {i k : Nat} {x : α} (hi : xs[i]? = some x) (hk : k < n) :
    (xs.flatMap f)[n * i + k]? = (f x)[k]? := by
  induction xs generalizing i with
  | nil => simp at hi
  | cons y ys ih =>
    have hy : (f y).length = n := hlen y List.mem_cons_self
    rw [List.flatMap_cons]
    cases i with
    | zero =>
      obtain rfl : y = x := by simpa using hi
      rw [Nat.mul_zero, Nat.zero_add, List.getElem?_append_left (by omega)]
    | succ i =>
      have hplace : n * (i + 1) + k - (f y).length = n * i + k := by rw [hy, Nat.mul_succ]; omega
      rw [List.getElem?_append_right (by rw [hy, Nat.mul_succ]; omega), hplace]
      exact ih (fun z hz => hlen z (List.mem_cons_of_mem _ hz)) (by simpa using hi)

theorem readBytes_getElem? (s : State) (tag pa : Nat) {n k : Nat} (hk : k < n) :
    (s.readBytes tag pa n)[k]? = some (s.readByte tag (pa + k)) := by
  rw [State.readBytes, span_eq_range', List.getElem?_map, List.getElem?_range' hk, Option.map_some, Nat.one_mul]

/-- The bytes that a fill reads from memory of this package. -/
theorem fillLines_getElem? (s : State) {ts : List Target} (hts : ∀ x ∈ ts, LineHere x) {i k pa tag : Nat}
    (hi : ts[i]? = some (.mem pa tag)) (hk : k < 128) : (ts.flatMap (fillLine s))[128 * i + k]? = some (s.readByte tag (pa + k)) := by
  have hlen : ∀ x ∈ ts, (fillLine s x).length = 128 := by
    intro x hx
    obtain ⟨p, q, rfl, -⟩ := hts x hx
    rw [fillLine, State.readBytes, List.length_map, span_length]
  exact (getElem?_flatMap_of_length hlen hi hk).trans (readBytes_getElem? s tag pa hk)

/-- The requests of a fill for lines of this package are notes, and none goes to another package (R12, R106). -/
theorem fillAsks_noted (c : Ctx) (l : Nat) (s : State) {xs : List (Nat × Target)} (hxs : ∀ x ∈ xs, LineHere x.2) :
    Noted s (xs.foldl (c.fillAsk l) (s, [])).1 ∧ (xs.foldl (c.fillAsk l) (s, [])).2 = [] := by
  refine List.foldlRecOn (motive := fun (r : State × List (Nat × Nat)) => Noted s r.1 ∧ r.2 = []) xs _ ⟨noted_refl s, rfl⟩ ?_
  rintro ⟨u, tags⟩ ⟨hu, htags⟩ ⟨j, x⟩ hx
  obtain ⟨pa, tag, rfl, hpa⟩ := hxs _ hx
  simp only [Ctx.fillAsk, needMem_of_lt hpa]
  exact ⟨noted_trans hu (askHome_noted ..), htags⟩

theorem lineHere_zip {ts : List Target} (hts : ∀ x ∈ ts, LineHere x) (ns : List Nat) : ∀ x ∈ ns.zip ts, LineHere x.2 :=
  fun _ hx => hts _ (List.of_mem_zip hx).2

theorem fill_result (d : Nat) (bs : List Byte) (img : Image5) : (AnvilCap.fill d bs img).result =
    (span 0 256).map fun i => (d * 256 + i, BitVec.ofNat 40 (leNat ((bs.drop (5 * i)).take 5))) := by
  simp only [AnvilCap.result, tileOf, Nat.div_add_mod]

/-! A spill completes (R241). -/

/-- The image of a tile, five bytes to an element in row order (R247). -/
def imageOf (wa : SMap (BitVec 40)) (tile : Nat) : List Byte :=
  (span 0 256).flatMap fun i => natBytes 5 (SMap.getD wa (tile * 256 + i) 0).toNat

theorem tileBytes_eq_imageOf (wa : SMap (BitVec 40)) (tile : Nat) :
    (tileBytes fun m n => SMap.getD wa (tile * 256 + m * 16 + n) 0) = imageOf wa tile := by
  have hkey : ∀ i, tile * 256 + i / 16 * 16 + i % 16 = tile * 256 + i := fun i => by omega
  simp only [tileBytes, imageOf, hkey]

/-- Other requests on their way to L2 homes. -/
def withReqs (s : State) (rs : List HomeReq) : State := { s with homeReqs := rs }

theorem withReqs_solid (s : State) (rs : List HomeReq) (line : Nat) : (withReqs s rs).solid line = withReqs (s.solid line) rs := by
  have hblob : (withReqs s rs).blobOf line = s.blobOf line := rfl
  unfold State.solid
  rw [hblob]
  cases s.blobOf line with
  | none => rfl
  | some b => simp only [withReqs]

theorem withReqs_retag (s : State) (rs : List HomeReq) (tag line : Nat) :
    (withReqs s rs).retag tag line = withReqs (s.retag tag line) rs := by
  have hktag : (withReqs s rs).ktag = s.ktag := rfl
  unfold State.retag
  rw [hktag]
  cases SMap.find s.ktag line with
  | none => rfl
  | some t =>
    by_cases h : t = tag
    · simp only [if_pos h]
    · simp only [if_neg h, withReqs]

theorem withReqs_writeEach (s : State) (rs : List HomeReq) (tag pa : Nat) (bs : List Byte) :
    (withReqs s rs).writeEach tag pa bs = withReqs (s.writeEach tag pa bs) rs := by
  induction bs generalizing s pa with
  | nil => rfl
  | cons b bs ih =>
    have hbyte : (withReqs s rs).writeByte tag pa b = withReqs (s.writeByte tag pa b) rs := by
      unfold State.writeByte
      rw [withReqs_solid, withReqs_retag]
      rfl
    rw [State.writeEach, State.writeEach, hbyte, ih]

/-- What memory holds after a write does not hang on the requests on their way. -/
theorem withReqs_writeBytes (s : State) (rs : List HomeReq) (tag pa : Nat) (bs : List Byte) :
    (withReqs s rs).writeBytes tag pa bs = withReqs (s.writeBytes tag pa bs) rs := by
  unfold State.writeBytes
  rw [withReqs_writeEach]
  rfl

/-- One line of an image in memory, written. -/
def lineWritten (image : List Byte) (u : State) (x : Nat × Target) : State :=
  match x.2 with
  | .mem pa tag => u.writeBytes tag pa ((image.drop (128 * x.1)).take 128)
  | _ => u

/-- A line of this package is written, and its home is told (R12, R247). -/
theorem spillLine_here {x : Nat × Target} (hx : LineHere x.2) (u : State) (rs : List HomeReq) (gk l : Nat) (pc : DWord) (bs : List Byte)
    (tags : List (Nat × Nat)) : ∃ rs', (withReqs u rs).spillLine gk l pc bs tags x = (withReqs (lineWritten bs u x) rs', tags) := by
  obtain ⟨j, y⟩ := x
  obtain ⟨pa, tag, rfl, hpa⟩ := hx
  simp only [State.spillLine, needMem_of_lt hpa, withReqs_writeBytes, State.askWrite, lineWritten]
  obtain ⟨rs', h⟩ := askHome_eq (withReqs (u.writeBytes tag pa ((bs.drop (128 * j)).take 128)) rs)
    ⟨pa / 128, 1, duelOf ((withReqs u rs).isH gk), (withReqs u rs).isH gk, (withReqs u rs).coreOf gk, true, tag, none, 0⟩
  exact ⟨rs', congrArg (·, tags) h⟩

theorem spillLines_here {xs : List (Nat × Target)} (hxs : ∀ x ∈ xs, LineHere x.2) (u : State) (rs : List HomeReq) (gk l : Nat)
    (pc : DWord) (bs : List Byte) : ∃ rs', xs.foldl (fun acc x => acc.1.spillLine gk l pc bs acc.2 x) (withReqs u rs, []) =
      (withReqs (xs.foldl (lineWritten bs) u) rs', []) := by
  induction xs generalizing u rs with
  | nil => exact ⟨rs, rfl⟩
  | cons x xs ih =>
    obtain ⟨rs', h⟩ := spillLine_here (hxs x List.mem_cons_self) u rs gk l pc bs []
    rw [List.foldl_cons, List.foldl_cons, h]
    exact ih (fun z hz => hxs z (List.mem_cons_of_mem _ hz)) _ rs'

/-- An operation's record once it has written its image and is complete. -/
def spillDone (gk l : Nat) (pc : DWord) (tile : Nat) (wa : SMap (BitVec 40)) (img : Image5) (y : AnvilOp) : AnvilOp :=
  { y with cap := .spill gk l pc tile wa img true, done := true }

section
variable {s : State} {tuid op : Nat} {tm : Team} {y : AnvilOp} {gk l : Nat} {pc : DWord} {tile : Nat} {wa : SMap (BitVec 40)}
  {img : Image5} (ht : s.team? tuid = some tm) (hy : (tm.anvil.find? fun z => z.id == op) = some y) (hend : y.canEnd tm = true)
  (hc : y.cap = .spill gk l pc tile wa img false)

include ht hy hend hc

/-- A spill that asks nothing of other packages writes its image and completes. -/
theorem endOp_spill {u : State} (hu : s.spillImage tm y = (u, { y with cap := .spill gk l pc tile wa img true, tags := [] })) :
    s.endOp tuid op = u.updTeam tuid fun t => { t with anvil := replaceOp (spillDone gk l pc tile wa img y) t.anvil } := by
  obtain ⟨-, htags, -⟩ := (canEnd_iff tm y).mp hend
  have hreread : s.rereadB tm y = y := by simp only [State.rereadB, hc]
  simp only [State.endOp, ht, hy, hend, hreread, hu, Bool.not_true, Bool.false_eq_true, if_false, List.isEmpty_nil, spillDone, htags]

theorem endOp_spill_scratch {off : Nat} (himg : img = .scratch off) : s.endOp tuid op =
    ((s.touch tm off 1280).writeScratch tm off (imageOf wa tile)).updTeam tuid fun t =>
      { t with anvil := replaceOp (spillDone gk l pc tile wa img y) t.anvil } := by
  refine endOp_spill ht hy hend hc ?_
  subst himg
  simp only [State.spillImage, hc, tileBytes_eq_imageOf]

theorem endOp_spill_lines {ts : List Target} (himg : img = .lines ts) (hts : ∀ x ∈ ts, LineHere x) : ∃ rs, s.endOp tuid op =
    (withReqs (((span 0 10).zip ts).foldl (lineWritten (imageOf wa tile)) s) rs).updTeam tuid fun t =>
      { t with anvil := replaceOp (spillDone gk l pc tile wa img y) t.anvil } := by
  obtain ⟨rs, h⟩ := spillLines_here (lineHere_zip hts (span 0 10)) s s.homeReqs gk l pc (imageOf wa tile)
  refine ⟨rs, endOp_spill ht hy hend hc ?_⟩
  subst himg
  have hs : withReqs s s.homeReqs = s := rfl
  rw [hs] at h
  simp only [State.spillImage, hc, tileBytes_eq_imageOf, h]

end

/-! The instructions. -/

section
variable {h : Hdr} {ds : DSlots} {d a b : Reg} {s : State} {c : Ctx}

theorem accSpill_scratch (hw : Whole (.accSpill h ds a b) s c) (hb : s.slotsBusy c.gk ds.wmask = false) {off : Nat}
    (hx : c.imageChk s (c.pair s (c.lead.getD 0) a) .write = .inr (.scratch off))
    (hp : s.scratchPark [(c.tuid, off, 1280)] = .none) : ∃ t, exec (.accSpill h ds a b) s = .next t ∧
      Advanced c (.accSpill h ds a b)
        (started c ds (.spill c.gk (c.lead.getD 0) c.ipc b.toNat (c.tileIn s ds b.toNat) (.scratch off) false) s) t :=
  accOp_starts hw hb (image_scratch hx hp _) (.refl ..)

theorem accSpill_lines (hw : Whole (.accSpill h ds a b) s c) (hb : s.slotsBusy c.gk ds.wmask = false) {ts : List Target}
    (hx : c.imageChk s (c.pair s (c.lead.getD 0) a) .write = .inr (.lines ts)) :
    ∃ t v, exec (.accSpill h ds a b) s = .next t ∧ Noted s v ∧ Advanced c (.accSpill h ds a b)
      (started c ds (.spill c.gk (c.lead.getD 0) c.ipc b.toNat (c.tileIn s ds b.toNat) (.lines ts) false) v) t := by
  have hnoted := imageXlates_noted c (c.pair s (c.lead.getD 0) a) s
  obtain ⟨t, hrun, ht⟩ : ∃ t, exec (.accSpill h ds a b) s = .next t ∧ Advanced c (.accSpill h ds a b)
      (started c ds (.spill c.gk (c.lead.getD 0) c.ipc b.toNat (c.tileIn s ds b.toNat) (.lines ts) false)
        (c.imageXlates (c.pair s (c.lead.getD 0) a) s)) t :=
    accOp_starts hw hb ((image_lines hx _).trans (by rw [imageXlates_tileIn])) (noted_runs c.gk hnoted)
  exact ⟨t, _, hrun, hnoted, ht⟩

theorem accFill_scratch (hw : Whole (.accFill h ds d a) s c) (hb : s.slotsBusy c.gk ds.wmask = false) {off : Nat}
    (hx : c.imageChk s (c.pair s (c.lead.getD 0) a) .read = .inr (.scratch off))
    (hp : s.scratchPark [(c.tuid, off, 1280)] = .none) : ∃ t, exec (.accFill h ds d a) s = .next t ∧
      Advanced c (.accFill h ds d a)
        (started c ds (.fill d.toNat (s.readScratch c.t off 1280) (.scratch off)) (s.touch c.t off 1280)) t :=
  accOp_starts hw hb (image_scratch hx hp _) (noted_runs c.gk (touch_noted ..))

theorem accFill_lines (hw : Whole (.accFill h ds d a) s c) (hb : s.slotsBusy c.gk ds.wmask = false) {ts : List Target}
    (hx : c.imageChk s (c.pair s (c.lead.getD 0) a) .read = .inr (.lines ts)) (hts : ∀ x ∈ ts, LineHere x) :
    ∃ t v bs, exec (.accFill h ds d a) s = .next t ∧ Noted s v ∧
      (∀ i pa tag k, i < 10 → k < 128 → ts[i]? = some (.mem pa tag) → bs[128 * i + k]? = some (s.readByte tag (pa + k))) ∧
      Advanced c (.accFill h ds d a) (started c ds (.fill d.toNat bs (.lines ts)) v) t := by
  have hlooked := imageXlates_noted c (c.pair s (c.lead.getD 0) a) s
  generalize hu : c.imageXlates (c.pair s (c.lead.getD 0) a) s = u at hlooked
  obtain ⟨hasked, htags⟩ := fillAsks_noted c (c.lead.getD 0) u (lineHere_zip hts (span 0 10))
  have hnoted := noted_trans hlooked hasked
  obtain ⟨t, hrun, ht⟩ : ∃ t, exec (.accFill h ds d a) s = .next t ∧ Advanced c (.accFill h ds d a)
      (started c ds (.fill d.toNat (ts.flatMap (fillLine u)) (.lines ts))
        (((span 0 10).zip ts).foldl (c.fillAsk (c.lead.getD 0)) (u, [])).1) t :=
    accOp_starts hw hb ((image_lines hx _).trans (by simp only [hu, htags])) (noted_runs c.gk hnoted)
  refine ⟨t, _, _, hrun, hnoted, fun i pa tag k _ hk hi => ?_, ht⟩
  rw [fillLines_getElem? u hts hi hk, noted_readByte hlooked]

end

/-- Settles O26: a spill and a fill start with the elements and the bytes of their image (`accOp_starts`), and a spill writes its
image, line by line or to scratchpad, as it completes (`endOp_spill`). -/
theorem spillAndFillResult : Obligations.SpillAndFillResult := by
  unfold Obligations.SpillAndFillResult
  intro h ds d a b s c
  refine ⟨fun hw hb => ⟨fun off hx hp => ?spillScratch, fun ts hx _ => ?spillLines⟩,
    fun hw hb => ⟨fun off hx hp => ?fillScratch, fun ts hx hts => ?fillLines⟩, fun bs img => fill_result d.toNat bs img,
    fun tuid op tm y gk l pc tile wa img ht hy hdone htags hafter hc => ?completion⟩
  case spillScratch => exact accSpill_scratch hw hb hx hp
  case spillLines => exact accSpill_lines hw hb hx
  case fillScratch => exact accFill_scratch hw hb hx hp
  case fillLines => exact accFill_lines hw hb hx hts
  case completion =>
    have hend : y.canEnd tm = true := (canEnd_iff tm y).mpr ⟨hdone, htags, hafter⟩
    refine ⟨fun off himg => endOp_spill_scratch ht hy hend hc himg, fun ts himg hts => ?_⟩
    obtain ⟨rs, h⟩ := endOp_spill_lines ht hy hend hc himg hts
    have hrs : (s.endOp tuid op).homeReqs = rs := congrArg State.homeReqs h
    exact ⟨_, by rw [hrs]; exact h, rfl⟩

end Sys2Proof.Laws
end

section
/-! PROOF. O27: gangs that form and dissolve, and waits for dependency slots (R242, R249-R251). -/

namespace Sys2Proof.Laws

open Sys2Proof Sys2Proof.Machine Sys2Proof.Claims

/-! A group waits in `gang.form`, or is in its gang (R249). -/

/-- The group is parked in `gang.form`. -/
def Asking (g : Group) : Prop := ∃ m i, g.park = .gangForm m i

/-- The group is a member of the gang, with nothing to wait for and no fragment held. -/
def Joined (m : Mask) (g : Group) : Prop := g.gang = m ∧ g.park = .none ∧ g.areuse = none

theorem Joined.not_asking {m : Mask} {g : Group} (h : Joined m g) : ¬ Asking g := by
  rintro ⟨m', i, hp⟩
  obtain ⟨-, hnone, -⟩ := h
  rw [hnone] at hp
  cases hp

theorem placed_asking {g h : Group} (hp : Group.placed g h) (ha : Asking g) : Asking h := by
  obtain ⟨he, -⟩ := hp
  rw [he]
  exact ha

theorem placed_joined {m : Mask} {g h : Group} (hp : Group.placed g h) (hj : Joined m g) : Joined m h := by
  obtain ⟨he, -⟩ := hp
  rw [he]
  exact hj

theorem formReady_asking {s : State} {tuid : Nat} {m : Mask} (h : s.formReady tuid m = true) {i : Nat} (hi : m.getLsbD i = true) :
    ∃ g, s.group? (tuid * 32 + i) = some g ∧ Asking g := by
  have hmember := List.all_eq_true.mp h i ((Mask.mem_lanes m i).mpr hi)
  split at hmember
  next g hg =>
    refine ⟨g, hg, ?_⟩
    rw [Bool.and_eq_true] at hmember
    obtain ⟨hpark, -⟩ := hmember
    split at hpark
    next m' ins hp => exact ⟨m', ins, hp⟩
    next => cases hpark
  next => cases hmember

/-! One member joins its gang and goes on (R249). -/

/-- What a gang's forming does for one of its members. -/
def memberJoins (tuid : Nat) (m : Mask) (s : State) (i : Nat) : State :=
  match s.group? (tuid * 32 + i) with
  | none => s
  | some g =>
    match g.park with
    | .gangForm _ ins =>
      let s := s.updGroup (tuid * 32 + i) fun g => { g with gang := m, areuse := none, park := .none }
      match s.ctxFor (tuid * 32 + i) g.live with
      | some c => c.advance ins s
      | none => s
    | _ => s

theorem tryForm_of_ready {s : State} {tuid : Nat} {m : Mask} (h : s.formReady tuid m = true) : s.tryForm tuid m =
    (Mask.lanes m).foldl (memberJoins tuid m) (s.updTeam tuid fun t => { t with gangs := t.gangs ++ [⟨s.fresh, m⟩] }) := by
  rw [State.tryForm, if_pos h]
  rfl

theorem tryForm_of_not_ready {s : State} {tuid : Nat} {m : Mask} (h : s.formReady tuid m = false) : s.tryForm tuid m = s := by
  rw [State.tryForm, if_neg (by rw [h]; decide)]

/-- A member changes where it is parked in `gang.form` only, and then its path may go on. -/
theorem memberJoins_cases (tuid : Nat) (m : Mask) (s : State) (i : Nat) :
    (memberJoins tuid m s i = s ∧ ∀ g, s.group? (tuid * 32 + i) = some g → ¬ Asking g) ∨
    (∃ g, s.group? (tuid * 32 + i) = some g ∧ Asking g) ∧
      ∃ u, u = s.updGroup (tuid * 32 + i) (fun g => { g with gang := m, areuse := none, park := .none }) ∧
        (memberJoins tuid m s i = u ∨ ∃ c ins, c.gk = tuid * 32 + i ∧ memberJoins tuid m s i = Ctx.advance c ins u) := by
  rw [memberJoins]
  split
  next hg => exact .inl ⟨rfl, fun g h => by rw [hg] at h; cases h⟩
  next g hg =>
    split
    next m' ins hp =>
      refine .inr ⟨⟨g, hg, m', ins, hp⟩, _, rfl, ?_⟩
      simp only
      split
      next c hc => exact .inr ⟨c, ins, (ctxFor_parts hc).1, rfl⟩
      next => exact .inl rfl
    next hp =>
      refine .inl ⟨rfl, fun g' hg' => ?_⟩
      obtain rfl := Option.some.inj (hg.symm.trans hg')
      rintro ⟨m', ins, h⟩
      exact hp m' ins h

theorem memberJoins_stuck (tuid : Nat) (m : Mask) (s : State) (i : Nat) : (memberJoins tuid m s i).stuck = s.stuck := by
  obtain ⟨h, -⟩ | ⟨-, u, rfl, h | ⟨c, ins, -, h⟩⟩ := memberJoins_cases tuid m s i
  · rw [h]
  · rw [h]
    rfl
  · rw [h, advance_stuck]
    rfl

theorem tryForm_stuck (s : State) (tuid : Nat) (m : Mask) : (s.tryForm tuid m).stuck = s.stuck := by
  cases hr : s.formReady tuid m with
  | false => rw [tryForm_of_not_ready hr]
  | true =>
    rw [tryForm_of_ready hr]
    exact List.foldlRecOn (motive := fun (u : State) => u.stuck = s.stuck) _ _ rfl fun u hu i _ => (memberJoins_stuck tuid m u i).trans hu

/-- As one member joins, another group keeps all but its lanes' places among the paths. -/
theorem memberJoins_other {tuid i j : Nat} (hj : j ≠ tuid * 32 + i) (m : Mask) {s : State} {g : Group} (hg : s.group? j = some g) :
    ∃ h, (memberJoins tuid m s i).group? j = some h ∧ Group.placed g h := by
  have hu : (s.updGroup (tuid * 32 + i) fun g => { g with gang := m, areuse := none, park := .none }).group? j = some g := by
    rw [State.group_updGroup, if_neg hj.symm, hg]
  obtain ⟨h, -⟩ | ⟨-, u, rfl, h | ⟨c, ins, hc, h⟩⟩ := memberJoins_cases tuid m s i
  · exact ⟨g, by rw [h, hg], Group.placed_refl g⟩
  · exact ⟨g, h ▸ hu, Group.placed_refl g⟩
  · rw [h]
    exact ((Ctx.moveTo_effect c _ _).others j (hc ▸ hj)).1 g hu

/-- The member that joins is in its gang. -/
theorem memberJoins_own {tuid i : Nat} (m : Mask) {s : State} {g : Group} (hg : s.group? (tuid * 32 + i) = some g) (ha : Asking g) :
    ∃ h, (memberJoins tuid m s i).group? (tuid * 32 + i) = some h ∧ Joined m h := by
  have hu : (s.updGroup (tuid * 32 + i) fun g => { g with gang := m, areuse := none, park := .none }).group? (tuid * 32 + i) =
      some { g with gang := m, areuse := none, park := .none } := by
    rw [State.group_updGroup, if_pos rfl, hg, Option.map_some]
  obtain ⟨-, hno⟩ | ⟨-, u, rfl, h | ⟨c, ins, hc, h⟩⟩ := memberJoins_cases tuid m s i
  · exact (hno g hg ha).elim
  · exact ⟨_, h ▸ hu, rfl, rfl, rfl⟩
  · rw [h]
    rw [← hc] at hu ⊢
    obtain ⟨g', hg', he, -⟩ := (Ctx.moveTo_effect c (fun _ pc => pc + dwordOf ins.len) _).own _ hu
    exact ⟨g', hg', by rw [he]; exact ⟨rfl, rfl, rfl⟩⟩

/-- A member of the gang stays one as others join. -/
theorem memberJoins_keeps (tuid : Nat) (m : Mask) {s : State} (i j : Nat) {g : Group} (hg : s.group? j = some g) (hm : Joined m g) :
    ∃ h, (memberJoins tuid m s i).group? j = some h ∧ Joined m h := by
  by_cases hj : j = tuid * 32 + i
  · subst hj
    obtain ⟨h, -⟩ | ⟨⟨g', hg', ha⟩, -⟩ := memberJoins_cases tuid m s i
    · exact ⟨g, by rw [h, hg], hm⟩
    · obtain rfl := Option.some.inj (hg.symm.trans hg')
      exact (hm.not_asking ha).elim
  · obtain ⟨h, hh, hp⟩ := memberJoins_other hj m hg
    exact ⟨h, hh, placed_joined hp hm⟩

/-- Once every member has had its turn, a member that asked is in the gang. -/
theorem membersJoin (tuid : Nat) (m : Mask) {xs : List Nat} {i : Nat} {s : State} {g : Group} (hg : s.group? (tuid * 32 + i) = some g)
    (h : Joined m g ∨ Asking g ∧ i ∈ xs) :
    ∃ g', (xs.foldl (memberJoins tuid m) s).group? (tuid * 32 + i) = some g' ∧ Joined m g' := by
  induction xs generalizing s g with
  | nil => exact ⟨g, hg, h.resolve_right fun hmem => List.not_mem_nil hmem.2⟩
  | cons x xs ih =>
    rw [List.foldl_cons]
    obtain hm | ⟨ha, hmem⟩ := h
    · obtain ⟨g', hg', hm'⟩ := memberJoins_keeps tuid m x _ hg hm
      exact ih hg' (.inl hm')
    · by_cases hx : i = x
      · subst hx
        obtain ⟨g', hg', hm'⟩ := memberJoins_own m hg ha
        exact ih hg' (.inl hm')
      · obtain ⟨g', hg', hp⟩ := memberJoins_other (show tuid * 32 + i ≠ tuid * 32 + x by omega) m hg
        exact ih hg' (.inr ⟨placed_asking hp ha, (List.mem_cons.mp hmem).resolve_left hx⟩)

/-- Every member of a mask that is ready to form is in the gang (R249). -/
theorem tryForm_joined {s : State} {tuid : Nat} {m : Mask} (h : s.formReady tuid m = true) {i : Nat} (hi : m.getLsbD i = true) :
    ∃ g, (s.tryForm tuid m).group? (tuid * 32 + i) = some g ∧ Joined m g := by
  obtain ⟨g, hg, ha⟩ := formReady_asking h hi
  rw [tryForm_of_ready h]
  exact membersJoin tuid m (s := s.updTeam tuid _) hg (.inr ⟨ha, (Mask.mem_lanes m i).mpr hi⟩)

/-! The instructions of gangs (R249, R250). -/

/-- A mask that passes the checks of R249 asks for its gang. -/
theorem gangForm_asks {h : Hdr} {a : Reg} {s : State} {c : Ctx} (hw : Whole (.gangForm h a) s c) {m : Mask}
    (hm : c.v s (c.lead.getD 0) a = m) (hmin : 2 ≤ Mask.count m) (hmax : Mask.count m ≤ c.l.k.gang)
    (hself : m.getLsbD (c.gk % 32) = true) (hgang : c.g.gang = 0)
    (hmembers : ∀ i, m.getLsbD i = true → i < c.t.groups ∧ ∃ g, s.group? (c.tuid * 32 + i) = some g ∧ g.ended = false)
    (hclash : s.formClash c.tuid m = []) :
    exec (.gangForm h a) s =
      .next ((s.updGroup c.gk fun g => { g with park := .gangForm m (.gangForm h a) }).tryForm c.tuid m) := by
  have hrange : ((Mask.lanes m).any fun i => decide (i ≥ c.t.groups)) = false := by
    rw [List.any_eq_false]
    intro i hi
    obtain ⟨hlt, -⟩ := hmembers i ((Mask.mem_lanes m i).mp hi)
    simpa using hlt
  have hok : ¬ (Mask.count m < 2 ∨ Mask.count m > c.l.k.gang ∨ (!m.getLsbD c.gnum) = true ∨
      ((Mask.lanes m).any fun i => decide (i ≥ c.t.groups)) = true ∨ c.g.gang ≠ 0) := by
    rintro (hfew | hmany | hout | hbeyond | hin)
    · omega
    · omega
    · rw [show c.gnum = c.gk % 32 from rfl, hself] at hout
      cases hout
    · rw [hrange] at hbeyond
      cases hbeyond
    · exact hin hgang
  subst hm
  refine groupOp_to hw ((if_neg hok).trans ((if_neg ?noneEnded).trans ?asks)) (tryForm_stuck ..)
  case noneEnded =>
    rw [Bool.not_eq_true, List.any_eq_false]
    intro i hi
    obtain ⟨-, g, hg, hend⟩ := hmembers i ((Mask.mem_lanes _ i).mp hi)
    simp only [hg, hend]
    decide
  case asks => simp only [hclash]

/-- Whichever group changes, every group is still there. -/
theorem updAnyGroup_runs (gk j : Nat) (s : State) (f : Group → Group) : Runs gk s (s.updGroup j f) := by
  refine ⟨rfl, fun g hg => ?_⟩
  rw [State.group_updGroup, hg]
  split
  · exact ⟨f g, rfl⟩
  · exact ⟨g, rfl⟩

/-- A gang none of whose members is latched loses nothing as it dissolves (R39). -/
theorem gangExit_unlatched {s : State} {tuid : Nat} {m : Mask}
    (h : ∀ i ∈ Mask.lanes m, ∀ g, s.group? (tuid * 32 + i) = some g → g.latch = none) : s.gangExit tuid m = s := by
  refine List.foldlRecOn (motive := fun u => u = s) _ _ rfl fun u hu i hi => ?_
  rw [hu]
  cases hg : s.group? (tuid * 32 + i) with
  | none => simp only [hg]
  | some g => simp only [hg, h i hi g hg]

/-- The gang of a group's members, dissolved (R250). -/
def gangGone (c : Ctx) (s : State) : State :=
  ((Mask.lanes c.g.gang).foldl (fun u i => u.updGroup (c.tuid * 32 + i) fun g => { g with gang := 0, areuse := none }) s).updTeam
    c.tuid fun t => { t with gangs := t.gangs.filter fun x => decide (x.members ≠ c.g.gang) }

theorem gangGone_runs (c : Ctx) (s : State) : Runs c.gk s (gangGone c s) := by
  have hmembers : Runs c.gk s
      ((Mask.lanes c.g.gang).foldl (fun u i => u.updGroup (c.tuid * 32 + i) fun g => { g with gang := 0, areuse := none }) s) :=
    List.foldlRecOn (motive := Runs c.gk s) _ _ (.refl ..) fun u hu i _ => hu.trans (updAnyGroup_runs ..)
  exact hmembers.trans (.of_same rfl rfl)

section
variable {h : Hdr} {s : State} {c : Ctx} (hw : Whole (.gangBrk h) s c)

include hw

theorem gangBrk_alone (hgang : c.g.gang = 0) : ∃ t, exec (.gangBrk h) s = .next t ∧ Advanced c (.gangBrk h) s t :=
  groupOp_advances hw (if_pos hgang) (.refl ..)

theorem gangBrk_stalls (hgang : c.g.gang ≠ 0) (hb : s.slotsBusy c.gk 255 = true) :
    exec (.gangBrk h) s = .next (s.updGroup c.gk fun g => { g with park := .dslots 255 }) :=
  groupOp_to hw ((if_neg hgang).trans (if_pos hb)) rfl

theorem gangBrk_dissolves (hgang : c.g.gang ≠ 0) (hb : s.slotsBusy c.gk 255 = false)
    (hlatch : ∀ i g, i < 32 → c.g.gang.getLsbD i = true → s.group? (c.tuid * 32 + i) = some g → g.latch = none) :
    ∃ t, exec (.gangBrk h) s = .next t ∧ Advanced c (.gangBrk h) (gangGone c s) t := by
  have hkept : s.gangExit c.tuid (c.g.gang &&& ~~~(1#32 <<< c.gnum)) = s := by
    refine gangExit_unlatched fun i hi g hg => ?_
    rw [Mask.mem_lanes, BitVec.getLsbD_and, Bool.and_eq_true] at hi
    obtain ⟨hi, -⟩ := hi
    exact hlatch i g (BitVec.lt_of_getLsbD hi) hi hg
  refine groupOp_advances hw ?_ (gangGone_runs c s)
  simp only [if_neg hgang, hb, hkept]
  rfl

end

/-! Waits for slots (R251). -/

/-- A team once one of its groups has waited for slots: that group's later operations follow those that set them (R240, R251). -/
def slotsAwaited (c : Ctx) (w : BitVec 8) (s : State) (t : Team) : Team :=
  Team.retire
    { t with anvil := t.anvil.map fun y => if y.named (s.slotNs c.gk) w then { y with seen := y.seen ||| (1#32 <<< c.gnum) } else y }
    s.fresh (Mask.ofPred fun i => (s.teamGroups c.tuid).any fun x => x.1 % 32 == i)

section
variable {h : Hdr} {w : BitVec 8} {s : State} {c : Ctx} (hi : Issues (.dslotWait h w) s c)

include hi

theorem dslotWait_next : exec (.dslotWait h w) s = .next
    (if c.active (.dslotWait h w) s = 0 then c.advance (.dslotWait h w) s
      else if s.slotsBusy c.gk w then s.updGroup c.gk fun g => { g with park := .dslots w }
      else c.advance (.dslotWait h w) (s.updTeam c.tuid (slotsAwaited c w s))) := by
  have hrun : exec (.dslotWait h w) s = execDslotWait h w s := rfl
  rw [hrun, execDslotWait, issue_next hi]
  rfl

theorem dslotWait_idle (hact : c.active (.dslotWait h w) s = 0) :
    ∃ t, exec (.dslotWait h w) s = .next t ∧ Advanced c (.dslotWait h w) s t := by
  rw [dslotWait_next hi, if_pos hact]
  exact ⟨_, rfl, Ctx.advance_advanced c _ s c.g (State.ctx_group hi.1)⟩

theorem dslotWait_stalls (hact : c.active (.dslotWait h w) s ≠ 0) (hb : s.slotsBusy c.gk w = true) :
    exec (.dslotWait h w) s = .next (s.updGroup c.gk fun g => { g with park := .dslots w }) := by
  rw [dslotWait_next hi, if_neg hact, if_pos hb]

/-- Where its slots are free, a wait changes only its own team: what its operations are ordered before. -/
theorem dslotWait_passes (hact : c.active (.dslotWait h w) s ≠ 0) (hb : s.slotsBusy c.gk w = false) :
    ∃ t u, exec (.dslotWait h w) s = .next t ∧ Advanced c (.dslotWait h w) u t ∧
      u = { s with teams := u.teams } ∧ ∀ j, j ≠ c.tuid → u.team? j = s.team? j := by
  rw [dslotWait_next hi, if_neg hact, if_neg (by rw [hb]; decide)]
  have hg : s.group? c.gk = some c.g := State.ctx_group hi.1
  refine ⟨_, _, rfl, Ctx.advance_advanced c _ _ c.g hg, rfl, fun j hj => ?_⟩
  rw [State.team_updTeam, if_neg hj.symm]

end

/-- Settles O27: a gang forms of members that each join it (`tryForm_joined`), dissolves where none of its members is latched
(`gangBrk_dissolves`), and a slot wait stalls or passes by its slots (`dslotWait_stalls`, `dslotWait_passes`). -/
theorem gangAndSlotResult : Obligations.GangAndSlotResult := by
  unfold Obligations.GangAndSlotResult
  refine ⟨fun h a s c hw => ?form, fun s tuid m hr i _ hi => ?ready, fun s tuid m hr => ?notReady, fun h s c hw => ?dissolve,
    fun h w s c hi => ?wait⟩
  case form => exact fun hmin hmax hself hgang hmembers hclash => gangForm_asks hw rfl hmin hmax hself hgang hmembers hclash
  case ready => exact tryForm_joined hr hi
  case notReady => exact tryForm_of_not_ready hr
  case dissolve => exact ⟨gangBrk_alone hw, gangBrk_stalls hw, gangBrk_dissolves hw⟩
  case wait => exact ⟨dslotWait_idle hi, dslotWait_stalls hi, dslotWait_passes hi⟩

end Sys2Proof.Laws
end

section
/-! PROOF. O35, O34, O29: a widened `brk`, `region.end` or `wany` is 12 bytes long, and the instruction that follows it stands 12
bytes on, not 8 (R142, R145). -/

namespace Sys2Proof.Laws

open Sys2Proof Sys2Proof.Machine Sys2Proof.Claims

/-- The header of an unguarded widened instruction (R145). -/
def wideHdr : Hdr := ⟨0, false, true⟩

/-! O35. -/

/-- The package with a debugger attached to partition 0, whose group is issuing. -/
def watched : State :=
  let s := State.reset.withFetchWord 64 0
  { s.setPart 0 { s.part 0 with debugger := true } with cur := some wholePath }

/-- A widened `brk 0`. -/
def wideBrk : Instr := .brk wideHdr 0

/-- The `brk` issues at 0x40000 where a debugger is attached. -/
abbrev breaks (c : Ctx) : Prop :=
  c.gk = 0 ∧ c.ipc = 0x40000 ∧ c.reject? wideBrk watched = none ∧ (watched.part c.l.part).debugger = true ∧ c.active wideBrk watched ≠ 0

/-- Where group 0 is to go on from a `trap` or `brk`, in the state that an instruction answers (R331). -/
def nextAfter : Out → Option (DWord × DWord)
  | .next t => (t.group? 0).bind (·.trapNext)
  | _ => none

theorem nextAfter_wideBrk : nextAfter (exec wideBrk watched) = some (0x40000, 0x4000C) := by decide +kernel

/-- Refutes O35: the instruction that follows a widened `brk` stands 12 bytes after it (`nextAfter_wideBrk`), where the statement
has every `brk` 8 bytes long. No hypothesis of the statement keeps the widened form out (R145). -/
theorem not_trapAndReturnResult : ¬ Obligations.TrapAndReturnResult := by
  unfold Obligations.TrapAndReturnResult
  intro hall
  obtain ⟨c, hc, hgk, hpc, hrej, hdbg, hact⟩ := exists_ctx_of_any (s := watched) (P := breaks) (by decide +kernel)
  obtain ⟨-, hbrk, -⟩ := hall wideHdr 0 watched c
  have hhalts := (hbrk ⟨hc, hrej⟩).2 hdbg hact
  have hnext := nextAfter_wideBrk
  rw [show exec wideBrk watched = _ from hhalts, nextAfter, hgk, hpc] at hnext
  exact absurd hnext (by decide +kernel)

/-! O34. -/

/-- The whole group issues inside one region. -/
def inRegion : State :=
  { (State.reset.withFetchWord 64 0).updGroup 0 fun g => { g with regions := [0x40000] } with cur := some wholePath }

/-- A widened `region.end`. -/
def wideEnd : Instr := .regionEnd wideHdr

/-- Group 0 with its region closed. -/
def regionClosed : State := inRegion.updGroup 0 fun g => { g with regions := [], closing := none }

/-- The state that the statement gives for the `region.end` of a context. -/
def endsEightOn (c : Ctx) : State :=
  c.moveTo (fun _ pc => pc + 8#64) ((regionClosed.applyGroupStaged 0).lowerRegions 0 0)

/-- The whole group issues the `region.end` from 0x40000. -/
abbrev endsRegion (c : Ctx) : Prop :=
  c.gk = 0 ∧ c.reject? wideEnd inRegion = none ∧ c.path = c.g.live ∧ c.active wideEnd inRegion = c.path ∧ c.g.regions = [0x40000] ∧
    (endsEightOn c).stuck = none ∧ ((endsEightOn c).group? 0).map (fun g => (g.lane 0).pc) = some 0x40008

theorem lanePcAfter_wideEnd : lanePcAfter (exec wideEnd inRegion) 0 = some 0x4000C := by decide +kernel

/-- Refutes O34: the outermost `region.end`, widened, takes its path 12 bytes on (`lanePcAfter_wideEnd`), where the statement has
it go 8 bytes on. No hypothesis of the statement keeps the widened form out (R145). -/
theorem not_regionResult : ¬ Obligations.RegionResult := by
  unfold Obligations.RegionResult
  intro hall
  obtain ⟨c, hc, hgk, hrej, hpath, hact, hreg, hstuck, hpc⟩ := exists_ctx_of_any (s := inRegion) (P := endsRegion) (by decide +kernel)
  obtain ⟨-, hend⟩ := hall wideHdr inRegion c
  obtain ⟨hclose, -⟩ := hend ⟨⟨hc, hrej⟩, by decide +kernel, hpath, hact⟩
  obtain ⟨-, -, hlast⟩ := hclose 0x40000 [] hreg
  rw [hgk] at hlast
  have hgoes : exec wideEnd inRegion = .next (endsEightOn c) := hlast rfl hstuck
  have hreal := lanePcAfter_wideEnd
  rw [hgoes, lanePcAfter, hpc] at hreal
  exact absurd hreal (by decide)

/-! O29. -/

/-- Entry 0 of the whole group is latched, with its handler at 0x40100, and its record is armed from address 0. -/
def latchedEvent : State :=
  { (State.reset.withFetchWord 64 0).updGroup 0 fun g => { g with
      evs := setAt g.evs 0 ⟨.latched, .mbox 0, 0x40100⟩, armed := some 0 } with cur := some wholePath }

/-- A widened `wany v0`, whose registers hold 0. -/
def wideWany : Instr := .wany wideHdr 0

/-- The group of a context, with its events tested. -/
def testedGroup (c : Ctx) : Group := { c.g with evs := latchedEvent.latched c.gk c.g }

/-- The whole group issues the `wany` from 0x40000, and entry 0 is to be served. -/
abbrev servesFirst (c : Ctx) : Prop :=
  c.gk = 0 ∧ c.reject? wideWany latchedEvent = none ∧ c.path = c.g.live ∧ c.active wideWany latchedEvent = c.path ∧
    c.g.armed = some (c.pair latchedEvent (c.lead.getD 0) 0) ∧ (testedGroup c).firstEvent = some 0 ∧
    ((testedGroup c).serve 0 8 latchedEvent.now 0).retAddr = some 0x40008

/-- The return address of group 0 in the state that an instruction answers. -/
def returnAfter : Out → Option DWord
  | .next t => (t.group? 0).bind (·.retAddr)
  | _ => none

theorem returnAfter_wideWany : returnAfter (exec wideWany latchedEvent) = some 0x4000C := by decide +kernel

/-- Refutes O29: an event that a widened `wany` serves returns 12 bytes after it (`returnAfter_wideWany`), where the statement has
every `wany` 8 bytes long. No hypothesis of the statement keeps the widened form out (R145). -/
theorem not_eventResult : ¬ Obligations.EventResult := by
  unfold Obligations.EventResult
  rintro ⟨-, hinstr⟩
  obtain ⟨c, hc, hgk, hrej, hpath, hact, harmed, hfirst, hret⟩ :=
    exists_ctx_of_any (s := latchedEvent) (P := servesFirst) (by decide +kernel)
  obtain ⟨-, -, -, hwany⟩ := hinstr wideHdr .wr 0 0 0
  obtain ⟨hserve, -, -⟩ := hwany latchedEvent c (testedGroup c) ⟨⟨hc, hrej⟩, by decide +kernel, hpath, hact⟩ (.inl ⟨harmed, rfl⟩)
  obtain ⟨t, g, hexec, -, hg, -, hback, -⟩ := hserve 0 hfirst
  have hreal := returnAfter_wideWany
  rw [show exec wideWany latchedEvent = .next t from hexec, returnAfter, ← hgk, hg, Option.bind_some, hback, hret] at hreal
  exact absurd hreal (by decide)

end Sys2Proof.Laws
end

section
/-! PROOF. O28: barriers of the three levels (R253, R255, R95). -/

namespace Sys2Proof.Laws

open Sys2Proof Sys2Proof.Machine Sys2Proof.Claims

/-! What an arrival leaves of a barrier and of the groups. -/

/-- A change of a team that keeps its barriers, its launch and its die leaves every barrier as it was. -/
theorem bar_updTeam (s : State) (lvl : BarLevel) (j u k : Nat) {f : Team → Team}
    (hf : ∀ t, (f t).bars = t.bars ∧ (f t).launch = t.launch ∧ (f t).firstCore = t.firstCore) :
    (s.updTeam j f).bar lvl u k = s.bar lvl u k := by
  have hlaunches : ∀ l, (s.updTeam j f).launch? l = s.launch? l := fun _ => rfl
  simp only [State.bar, State.team_updTeam, hlaunches]
  by_cases h : j = u
  · cases ht : s.team? u with
    | none => simp only [h, if_true, Option.map_none]
    | some t =>
      obtain ⟨hbars, hlaunch, hcore⟩ := hf t
      cases lvl <;> simp only [h, if_true, Option.map_some, hbars, hlaunch, Team.span, hcore]
  · simp only [h, if_false]

theorem bar_carryOps (s : State) (lvl : BarLevel) (gk key u k : Nat) : (s.carryOps gk key).bar lvl u k = s.bar lvl u k :=
  bar_updTeam s lvl _ u k fun _ => ⟨rfl, rfl, rfl⟩

/-- A barrier that is set has the phase that it is given, or is none and keeps its own. -/
theorem bar_setBar_phase (s : State) (lvl : BarLevel) (u k : Nat) {b : Barrier} (hb : b.phase = (s.bar lvl u k).phase) :
    ((s.setBar lvl u k b).bar lvl u k).phase = (s.bar lvl u k).phase := by
  cases ht : s.team? u with
  | none => simp only [State.setBar, ht]
  | some t =>
    cases lvl with
    | team =>
      simp only [State.setBar, ht]
      simp only [State.bar, State.team_updTeam, if_true, ht, Option.map_some, SMap.getD_put] at hb ⊢
      exact hb
    | die | pkg =>
      simp only [State.setBar, ht]
      cases hl : s.launch? t.launch with
      | none =>
        have ht' : ∀ f, (s.updLaunch t.launch f).team? u = some t := fun _ => ht
        simp only [State.bar, ht', State.launch_updLaunch, if_true, ht, hl, Option.map_none]
      | some l =>
        have ht' : ∀ f, (s.updLaunch t.launch f).team? u = some t := fun _ => ht
        simp only [State.bar, ht', State.launch_updLaunch, if_true, ht, hl, Option.map_some, SMap.getD_put] at hb ⊢
        exact hb

theorem setBar_groups (s : State) (lvl : BarLevel) (u k : Nat) (b : Barrier) : (s.setBar lvl u k b).groups = s.groups := by
  simp only [State.setBar]
  split
  · rfl
  · cases lvl <;> rfl

/-- An arrival's events change teams only, and no barrier. -/
theorem arrivalEvents_keep (c : Ctx) (lvl : BarLevel) (k : Nat) (act : Mask) (s : State) :
    let v := (Mask.lanes act).foldl (fun v l => v.carryOps c.gk (barEvent lvl k (tokenOf (s.bar lvl c.tuid k) c.gk l))) s
    v.groups = s.groups ∧ v.bar lvl c.tuid k = s.bar lvl c.tuid k :=
  List.foldlRecOn (motive := fun v : State => v.groups = s.groups ∧ v.bar lvl c.tuid k = s.bar lvl c.tuid k) _ _ ⟨rfl, rfl⟩
    fun _ hv _ _ => ⟨hv.1, (bar_carryOps ..).trans hv.2⟩

section
variable (c : Ctx) (lvl : BarLevel) (k : Nat) (act : Mask) (s : State)

theorem arrivedAt_group (j : Nat) : (arrivedAt c lvl k act s).group? j = s.group? j := by
  obtain ⟨hg, -⟩ := arrivalEvents_keep c lvl k act s
  rw [State.group?, arrivedAt]
  split
  · rw [hg]
    rfl
  · rw [setBar_groups, hg]
    rfl

theorem arrivedAt_phase : ((arrivedAt c lvl k act s).bar lvl c.tuid k).phase = (s.bar lvl c.tuid k).phase := by
  obtain ⟨-, hb⟩ := arrivalEvents_keep c lvl k act s
  rw [arrivedAt]
  split
  · rw [hb]
  · rw [bar_setBar_phase _ _ _ _ (by rw [hb]; rfl), hb]

/-- Lanes that are in no next phase arrive (R253). -/
theorem arrive_of_room {go : (Nat → Word) → State → State} (hroom : SMap.getD (s.bar lvl c.tuid k).nxt c.gk 0#32 &&& act = 0) :
    c.arrive lvl k act s go = go (tokenOf (s.bar lvl c.tuid k) c.gk) (arrivedAt c lvl k act s) := by
  have hfull : (s.bar lvl c.tuid k).full c.gk act = false := by simp [Barrier.full, hroom]
  simp only [Ctx.arrive, hfull, Bool.false_eq_true, if_false]
  rfl

theorem arrive_of_full {go : (Nat → Word) → State → State} (hfull : SMap.getD (s.bar lvl c.tuid k).nxt c.gk 0#32 &&& act ≠ 0) :
    c.arrive lvl k act s go = c.holdLanes c.path (.retry lvl k (s.bar lvl c.tuid k).phase) s := by
  have hfull' : (s.bar lvl c.tuid k).full c.gk act = true := decide_eq_true hfull
  simp only [Ctx.arrive, hfull', if_true]

end

/-! Phases (R255). -/

theorem phaseDone_iff (n : Nat) (w : Word) : phaseDone n w = true ↔ passedPhase n w := by
  simp only [phaseDone, passedPhase, Bool.and_eq_true, decide_eq_true_eq]
  rfl

/-- The phase of a token that an arrival has just answered is open, or the next one. -/
theorem not_passed_tokenOf (b : Barrier) (gk l : Nat) : ¬passedPhase b.phase (tokenOf b gk l) := by
  rintro ⟨hlow, hhigh⟩
  rw [tokenOf] at hlow hhigh
  split at hlow
  next h =>
    rw [if_pos h, BitVec.ofNat_add] at hhigh
    rw [BitVec.ofNat_add] at hlow
    generalize BitVec.ofNat 32 b.phase = x at *
    bv_omega
  next => simp at hlow

/-! The instructions. -/

section
variable {i : Instr} {s : State} {c : Ctx} {lvl : BarLevel} {k : Nat} {act : Mask} {tok : Nat → Word} {u : State} {g : Group}

theorem barWait_passes (hg : s.group? c.gk = some g) (hall : ∀ l, act.getLsbD l = true → passedPhase (s.bar lvl c.tuid k).phase (tok l)) :
    Advanced c i (((Mask.lanes act).foldl (fun v l => v.observeOps c.gk (barEvent lvl k (tok l))) s).acquire c.gk act)
      (c.barWait i lvl k act tok s) := by
  have hdone : ((Mask.lanes act).all fun l => phaseDone (s.bar lvl c.tuid k).phase (tok l)) = true := by
    simpa only [List.all_eq_true, Mask.mem_lanes, phaseDone_iff] using hall
  have hkept : ((Mask.lanes act).foldl (fun v l => v.observeOps c.gk (barEvent lvl k (tok l))) s).groups = s.groups :=
    List.foldlRecOn (motive := fun v : State => v.groups = s.groups) _ _ rfl fun _ hv _ _ => hv
  rw [Ctx.barWait, if_pos hdone]
  exact Ctx.advance_advanced c i _ _ (acquire_group act (by rw [State.group?, hkept]; exact hg))

theorem barWait_waits (hg : s.group? c.gk = some g)
    (hsome : ∃ l, act.getLsbD l = true ∧ ¬passedPhase (s.bar lvl c.tuid k).phase (tok l)) :
    Waits c i act (fun l ln => { ln with wait := .bar lvl k (tok l) }) s (c.barWait i lvl k act tok s) := by
  obtain ⟨l, hl, hnot⟩ := hsome
  have hdone : ¬((Mask.lanes act).all fun l => phaseDone (s.bar lvl c.tuid k).phase (tok l)) = true := fun h =>
    hnot ((phaseDone_iff ..).mp (List.all_eq_true.mp h l ((Mask.mem_lanes ..).mpr hl)))
  rw [Ctx.barWait, if_neg hdone]
  exact waitEach_waits c i act _ hg

end

/-- An instruction that is a barrier instruction in the model is one as claims say it. -/
theorem barrierOp_of_next {i : Instr} {lvl : BarLevel} {mode : BarMode} {k : Nat} {d a : Reg}
    (hnext : ∀ s c, Issues i s c → (lvl = .team ∨ c.l.k.spanbar = true) →
      exec i s = .next (c.barrier i lvl mode k d a (c.active i s) s)) : BarrierOp i lvl mode k d a := by
  intro s c hi hspan b act
  have hg : s.group? c.gk = some c.g := State.ctx_group hi.1
  have harrived : (arrivedAt c lvl k act s).group? c.gk = some c.g := (arrivedAt_group ..).trans hg
  rw [hnext s c hi hspan]
  refine ⟨fun hm hfull => ?full, fun hm hroom => ?arrive, fun hm hact => ?idle, fun hm hroom hact => ?sync, fun hm hall => ?pass,
    fun hm hsome => ?wait⟩
  case full =>
    cases mode with
    | arrive | sync => rw [Ctx.barrier, arrive_of_full c lvl k _ s hfull]
    | wait => exact absurd rfl hm
  case arrive =>
    subst hm
    obtain ⟨h, hh⟩ := writeLanes_group act (fun l => .v d (tokenOf b c.gk l)) harrived
    rw [Ctx.barrier, arrive_of_room c lvl k _ s hroom]
    exact ⟨_, rfl, Ctx.advance_advanced c i _ h hh⟩
  case idle =>
    subst hm
    have hroom : SMap.getD b.nxt c.gk 0#32 &&& act = 0 := by rw [hact]; exact BitVec.and_zero
    have hsame : arrivedAt c lvl k act s = s := by rw [arrivedAt, if_pos hact, hact, Mask.lanes_zero, List.foldl_nil]
    rw [Ctx.barrier, arrive_of_room c lvl k _ s hroom, if_pos hact, hsame]
    exact ⟨_, rfl, Ctx.advance_advanced c i s c.g hg⟩
  case sync =>
    subst hm
    obtain ⟨l, hl⟩ := List.exists_mem_of_ne_nil _ (mt Mask.lanes_eq_nil.mp hact)
    rw [Ctx.barrier, arrive_of_room c lvl k _ s hroom, if_neg hact]
    exact ⟨_, rfl, barWait_waits harrived
      ⟨l, (Mask.mem_lanes ..).mp hl, by rw [arrivedAt_phase]; exact not_passed_tokenOf b c.gk l⟩⟩
  case pass =>
    subst hm
    exact ⟨_, rfl, barWait_passes hg hall⟩
  case wait =>
    subst hm
    exact ⟨_, rfl, barWait_waits hg hsome⟩

/-- A die or package barrier of a kernel with the flag is a barrier (R255). -/
theorem spanBarrier_of_flag (c : Ctx) (i : Instr) {lvl : BarLevel} (hlvl : lvl ≠ .team) (mode : BarMode) (k : Nat) (d a : Reg) (act : Mask)
    (s : State) (h : lvl = .team ∨ c.l.k.spanbar = true) :
    c.spanBarrier i lvl mode k d a act s = c.barrier i lvl mode k d a act s := by
  have hflag : c.l.k.spanbar = true := h.resolve_left hlvl
  rw [Ctx.spanBarrier, if_neg]
  rintro ⟨-, hno⟩
  rw [hflag] at hno
  cases hno

theorem barrierLevelsResult : BarrierLevelsResult := by
  intro h mode d a b
  refine ⟨barrierOp_of_next fun s c hi _ => ?arrive, barrierOp_of_next fun s c hi _ => ?wait, barrierOp_of_next fun s c hi _ => ?sync,
    barrierOp_of_next fun s c hi hspan => ?die, barrierOp_of_next fun s c hi hspan => ?pkg⟩
  case arrive => exact Eq.trans (b := execBarArrive h d b s) rfl (issue_next hi _)
  case wait => exact Eq.trans (b := execBarWait h a b s) rfl (issue_next hi _)
  case sync => exact Eq.trans (b := execBarSync h b s) rfl (issue_next hi _)
  case die =>
    rw [← spanBarrier_of_flag c _ (by decide) mode _ d a _ s hspan]
    exact Eq.trans (b := execBarDie h mode d a b s) rfl (issue_next hi _)
  case pkg =>
    rw [← spanBarrier_of_flag c _ (by decide) mode _ d a _ s hspan]
    exact Eq.trans (b := execBarPkg h mode d a b s) rfl (issue_next hi _)

/-- A span barrier without the flag traps in its active real lanes (R255). -/
theorem spanBarrier_traps (c : Ctx) (i : Instr) (lvl : BarLevel) (mode : BarMode) (k : Nat) (d a : Reg) {act : Mask} (s : State)
    (hflag : c.l.k.spanbar = false) (hreal : act &&& c.g.real ≠ 0) :
    c.spanBarrier i lvl mode k d a act s = trapped c .barScope (act &&& c.g.real) 0 s := by
  have hact : act ≠ 0 := fun h => hreal (by rw [h]; exact BitVec.zero_and)
  have hreal' : ¬c.realOf act = 0 := hreal
  rw [Ctx.spanBarrier, if_pos ⟨hact, by rw [hflag]; rfl⟩, Ctx.trapOr, if_neg hreal']
  rfl

theorem spanBarrierTraps : SpanBarrierTraps := by
  intro h mode d a b i hform s c hi hflag hreal
  have hnext : ∃ lvl, exec i s = .next (c.spanBarrier i lvl mode b.toNat d a (c.active i s) s) := by
    rcases hform with rfl | rfl
    · exact ⟨.die, Eq.trans (b := execBarDie h mode d a b s) rfl (issue_next hi _)⟩
    · exact ⟨.pkg, Eq.trans (b := execBarPkg h mode d a b s) rfl (issue_next hi _)⟩
  obtain ⟨lvl, hnext⟩ := hnext
  rw [hnext, spanBarrier_traps c i lvl mode _ d a s hflag hreal]
  rfl

/-- Settles O28: an instruction that arrives goes by `arrive_of_room` and `arrive_of_full`, one that waits by `barWait_passes` and
`barWait_waits`, and a span barrier by its kernel's flag. -/
theorem barrierResult : Obligations.BarrierResult := by
  unfold Obligations.BarrierResult
  exact ⟨barrierLevelsResult, spanBarrierTraps⟩

end Sys2Proof.Laws
end

section
/-! PROOF. O30: mailboxes (R263). -/

namespace Sys2Proof.Laws

open Sys2Proof Sys2Proof.Machine Sys2Proof.Claims

/-! Groups stay where events are tested (R259, R262). -/

theorem writeLanes_runs (gk j : Nat) (s : State) (m : Mask) (f : Nat → Wr) : Runs gk s (s.writeLanes j m f) :=
  updAnyGroup_runs gk j s _

theorem carryOps_runs (gk j key : Nat) (s : State) : Runs gk s (s.carryOps j key) := .of_same rfl rfl

theorem putGroup_runs (gk j : Nat) (s : State) (g : Group) : Runs gk s { s with groups := SMap.put s.groups j g } := by
  refine ⟨rfl, fun h hh => ?_⟩
  rw [State.group?, SMap.find_put]
  split
  · exact ⟨g, rfl⟩
  · exact ⟨h, hh⟩

theorem enter_runs (gk j e len : Nat) (s : State) : Runs gk s (s.enter j e len) := by
  simp only [State.enter]
  split
  · exact .refl gk s
  · refine .trans ?_ ((updAnyGroup_runs gk j _ _).trans (updAnyGroup_runs gk j _ _))
    split
    · exact .of_same rfl rfl
    · exact .refl gk s

theorem testEvents_runs (gk j : Nat) (s : State) : Runs gk s (s.testEvents j) := by
  simp only [State.testEvents]
  split
  · exact .refl gk s
  next g hg =>
    split
    · split
      · exact (putGroup_runs gk j s _).trans (enter_runs ..)
      · exact putGroup_runs ..
    · exact putGroup_runs ..

/-! Posts. -/

section
variable {c : Ctx} {slot : Nat} {d a b : Reg} {s u : State} {l k : Nat} {tm : Team} {g : Group}

/-- A message goes into its slot; an event of the poster's own team carries its operations, and the group's events are tested. -/
def posted (c : Ctx) (slot gk k : Nat) (w : Word) (u : State) : State :=
  let v := u.updGroup gk fun g => { g with mbox := setAt g.mbox slot (some w) }
  (if k = c.tuid then v.carryOps c.gk (mboxEvent gk slot) else v).testEvents gk

theorem posted_runs (gk j : Nat) (w : Word) : Runs gk u (posted c slot j k w u) := by
  rw [posted]
  refine .trans ?_ (testEvents_runs ..)
  split
  · exact (updAnyGroup_runs ..).trans (carryOps_runs ..)
  · exact updAnyGroup_runs ..

theorem postLane_fails (ht : c.teamNum u ((c.v s l a).toNat / 32) = some (k, tm))
    (hg : u.group? (k * 32 + (c.v s l a).toNat % 32) = some g) (hno : tm.tst = .done ∨ atD g.mbox slot none ≠ none) :
    c.postLane slot d a b s u l = u.writeLanes c.gk (1#32 <<< l) fun _ => .p d false := by
  have hno' : (decide (tm.tst = .done) || (atD g.mbox slot none).isSome) = true := by
    simpa only [Bool.or_eq_true, decide_eq_true_eq, ← Option.ne_none_iff_isSome] using hno
  simp only [Ctx.postLane, ht, hg, hno', if_true]

theorem postLane_posts (ht : c.teamNum u ((c.v s l a).toNat / 32) = some (k, tm))
    (hg : u.group? (k * 32 + (c.v s l a).toNat % 32) = some g) (hlive : tm.tst ≠ .done) (hempty : atD g.mbox slot none = none) :
    c.postLane slot d a b s u l =
      (posted c slot (k * 32 + (c.v s l a).toNat % 32) k (c.v s l b) u).writeLanes c.gk (1#32 <<< l) fun _ => .p d true := by
  have hyes : (decide (tm.tst = .done) || (atD g.mbox slot none).isSome) = false := by
    rw [hempty, decide_eq_false hlive]
    rfl
  simp only [Ctx.postLane, ht, hg, hyes, Bool.false_eq_true, if_false]
  rfl

theorem postLane_runs (gk : Nat) : Runs gk u (c.postLane slot d a b s u l) := by
  cases ht : c.teamNum u ((c.v s l a).toNat / 32) with
  | none =>
    simp only [Ctx.postLane, ht]
    exact writeLanes_runs ..
  | some x =>
    obtain ⟨k, tm⟩ := x
    cases hg : u.group? (k * 32 + (c.v s l a).toNat % 32) with
    | none =>
      simp only [Ctx.postLane, ht, hg]
      exact writeLanes_runs ..
    | some g =>
      by_cases hno : tm.tst = .done ∨ atD g.mbox slot none ≠ none
      · rw [postLane_fails ht hg hno]
        exact writeLanes_runs ..
      · rw [not_or, not_not] at hno
        rw [postLane_posts ht hg hno.1 hno.2]
        exact (posted_runs ..).trans (writeLanes_runs ..)

end

/-- What keeps a group in every step keeps it in a fold. -/
theorem foldl_runs {α : Type} (gk : Nat) {f : State → α → State} (hf : ∀ s x, Runs gk s (f s x)) (xs : List α) (s : State) :
    Runs gk s (xs.foldl f s) :=
  List.foldlRecOn (motive := Runs gk s) xs f (.refl gk s) fun _ hu x _ => hu.trans (hf _ x)

theorem mboxPost_next {h : Hdr} {slot : BitVec 2} {d a b : Reg} {s : State} {c : Ctx} (hi : Issues (.mboxPost h slot d a b) s c)
    (hin : ∀ l, (c.active (.mboxPost h slot d a b) s &&& c.g.real).getLsbD l = true →
      (c.v s l a).toNat / 32 < c.l.teams ∧ (c.v s l a).toNat % 32 < c.l.groupsPer) :
    exec (.mboxPost h slot d a b) s = .next (c.advance (.mboxPost h slot d a b)
      ((Mask.lanes (c.active (.mboxPost h slot d a b) s &&& c.g.real)).foldl (c.postLane slot.toNat d a b s) s)) := by
  have hrun : exec (.mboxPost h slot d a b) s = execMboxPost h slot d a b s := rfl
  rw [hrun, execMboxPost, issue_next hi]
  refine congrArg _ (if_neg (not_not_intro (ofPred_none fun l => ?_)))
  cases hl : (c.realOf (c.active (.mboxPost h slot d a b) s)).getLsbD l with
  | false => rfl
  | true =>
    obtain ⟨hteam, hgroup⟩ := hin l hl
    rw [Bool.true_and, decide_eq_false (Nat.not_le.mpr hteam), decide_eq_false (Nat.not_le.mpr hgroup)]
    rfl

/-! Reads. -/

/-- Where no lane writes, the group stays as it was. -/
theorem group_write_zero (g : Group) (f : Nat → Wr) : (g.write 0 f).untag [] = g := by
  have hbit : ∀ l, (0 : Mask).getLsbD l = false := fun _ => BitVec.getLsbD_zero
  have hpend : (g.pend.map fun q => q.clobber 0 f) = g.pend := by
    simp only [Pend.clobber, hbit, Bool.false_eq_true, if_false, List.map_id']
  have hlanes : mapLanes (fun l ln => if (0 : Mask).getLsbD l then ln.apply (f l) else ln) 0 g.lanes = g.lanes :=
    mapLanes_self 0 _ fun l _ => if_neg (by rw [hbit]; decide)
  have htags : (g.rtags.filter fun x => !([] : List Nat).contains x.1) = g.rtags := by simp
  have hwrite : g.write 0 f = g := by rw [Group.write, hlanes, hpend]
  rw [hwrite, Group.untag, htags, ite_self]

theorem group_writeLanes_zero (s : State) (gk j : Nat) (f : Nat → Wr) : (s.writeLanes gk 0 f).group? j = s.group? j := by
  rw [State.writeLanes, State.group_updGroup]
  split
  · rw [Mask.lanes_zero, List.flatMap_nil]
    simp only [group_write_zero, Option.map_id']
  · rfl

/-- A path that has gone on from a state has gone on from any other with the same groups. -/
theorem moved_of_groups {c : Ctx} {next : Nat → DWord → DWord} {u v t : State} (hm : Moved c next u t)
    (hrest : v = { u with groups := v.groups }) (hg : ∀ j, v.group? j = u.group? j) : Moved c next v t := by
  obtain ⟨rest, others, g, h, hu, own⟩ := hm
  refine ⟨?_, fun j hj => hg j ▸ others j hj, g, h, (hg c.gk).trans hu, own⟩
  rw [rest, hrest, State.dropRecs, State.dropRecs]
  split <;> rfl

/-- The state in which a group has taken the message of a slot: the slot is empty, and the operations that the message carried are
seen and carried no more (R240, R263). -/
def messageTaken (c : Ctx) (slot : Nat) (s : State) : State :=
  ((s.updGroup c.gk fun g => { g with mbox := setAt g.mbox slot none }).observeOps c.gk (mboxEvent c.gk slot)).updTeam c.tuid
    fun t => { t with anvil := t.anvil.map fun y => { y with carry := y.carry.filter fun k => k ≠ mboxEvent c.gk slot } }

theorem messageTaken_group {s : State} {c : Ctx} (hc : s.ctx? = some c) (slot : Nat) :
    (messageTaken c slot s).group? c.gk = some { c.g with mbox := setAt c.g.mbox slot none } := by
  have hgroups : (messageTaken c slot s).groups = (s.updGroup c.gk fun g => { g with mbox := setAt g.mbox slot none }).groups := rfl
  rw [State.group?, hgroups]
  exact group_updGroup_own hc fun g => { g with mbox := setAt g.mbox slot none }

/-- Where there was a message, the lanes that read it are ordered after it (R93). -/
def messageRead (c : Ctx) (slot : Nat) (act : Mask) (s : State) : State :=
  if atD c.g.mbox slot none = none then messageTaken c slot s else (messageTaken c slot s).acquire c.gk act

theorem messageRead_group {s : State} {c : Ctx} (hc : s.ctx? = some c) (slot : Nat) (act : Mask) :
    ∃ g, (messageRead c slot act s).group? c.gk = some g := by
  have htaken := messageTaken_group hc slot
  rw [messageRead]
  split
  · exact ⟨_, htaken⟩
  · exact ⟨_, acquire_group act htaken⟩

section
variable {h : Hdr} {slot : BitVec 2} {d p : Reg} {s : State} {c : Ctx} (hi : Issues (.mboxRead h slot d p) s c)

include hi

theorem mboxRead_idle (hact : c.active (.mboxRead h slot d p) s = 0) (f : Nat → Wr) :
    ∃ t, exec (.mboxRead h slot d p) s = .next t ∧ Advanced c (.mboxRead h slot d p) (s.writeLanes c.gk 0 f) t := by
  have hrun : exec (.mboxRead h slot d p) s = execMboxRead h slot d p s := rfl
  rw [hrun, execMboxRead, issue_next hi]
  refine ⟨_, congrArg _ (if_pos hact), ?_⟩
  exact moved_of_groups (Ctx.advance_advanced c _ s c.g (State.ctx_group hi.1)) rfl (group_writeLanes_zero s c.gk · f)

theorem mboxRead_next (hact : c.active (.mboxRead h slot d p) s ≠ 0) :
    exec (.mboxRead h slot d p) s = .next (c.advance (.mboxRead h slot d p)
      ((messageRead c slot.toNat (c.active (.mboxRead h slot d p) s) s).writeLanes c.gk (c.active (.mboxRead h slot d p) s) fun _ =>
        (Wr.v d ((atD c.g.mbox slot.toNat none).getD 0)).and (.p p (atD c.g.mbox slot.toNat none).isSome))) := by
  have hrun : exec (.mboxRead h slot d p) s = execMboxRead h slot d p s := rfl
  rw [hrun, execMboxRead, issue_next hi]
  refine congrArg _ ((if_neg hact).trans ?_)
  rw [messageRead]
  cases atD c.g.mbox slot.toNat none <;> rfl

end

/-- Settles O30: a post goes lane by lane (`postLane_posts`, `postLane_fails`), and a read takes the message (`mboxRead_next`). -/
theorem mailboxResult : Obligations.MailboxResult := by
  unfold Obligations.MailboxResult
  intro h slot d a b p s c
  refine ⟨fun hi => ?post, fun u l k tm g ht hg => ⟨?fails, ?posts⟩, fun hi => ?read⟩
  case post =>
    intro real hin
    obtain ⟨g, hg⟩ := (foldl_runs c.gk (fun v l => postLane_runs (u := v) c.gk) (Mask.lanes real) s).group c.g (State.ctx_group hi.1)
    exact ⟨_, mboxPost_next hi hin, Ctx.advance_advanced c _ _ g hg⟩
  case fails => exact postLane_fails ht hg
  case posts => exact fun hlive hempty => postLane_posts ht hg hlive hempty
  case read =>
    by_cases hact : c.active (.mboxRead h slot d p) s = 0
    · obtain ⟨t, ht, hadv⟩ := mboxRead_idle hi hact _
      exact ⟨t, s, ht, fun _ => rfl, fun hne => absurd hact hne, by rw [hact]; exact hadv⟩
    · obtain ⟨g, hg⟩ := messageRead_group hi.1 slot.toNat (c.active (.mboxRead h slot d p) s)
      obtain ⟨g', hg'⟩ := writeLanes_group (c.active (.mboxRead h slot d p) s)
        (fun _ => (Wr.v d ((atD c.g.mbox slot.toNat none).getD 0)).and (.p p (atD c.g.mbox slot.toNat none).isSome)) hg
      refine ⟨_, _, mboxRead_next hi hact, fun h0 => absurd h0 hact, fun _ => ?_, Ctx.advance_advanced c _ _ g' hg'⟩
      rw [messageRead]
      split <;> rfl

end Sys2Proof.Laws
end

section
/-! PROOF. O32: launches and the tape (R271, R272, R317, R318). -/

namespace Sys2Proof.Laws

open Sys2Proof Sys2Proof.Machine Sys2Proof.Claims

/-- The store has a free record just where fewer than 4096 are taken or reserved (R317). -/
theorem storeFree_zero_iff (pt : Part) : pt.storeFree = 0 ↔ 4096 ≤ pt.store.length + pt.plsRes := by
  rw [Part.storeFree]
  omega

/-! Launches (R271). -/

section
variable (c : Ctx) (d p a b : Reg) (s u : State) (l : Nat)

/-- The record that a lane launches. -/
def launched : StoreRec where
  queue := (c.v s l a).toNat % 65536
  bytes := c.recordBytes s l b
  tapeH := false
  prior := none
  popOrder := none
  stream := none
  fireAt := 0
  addr := 0

/-- A lane's launch goes by its status: with 0 its record joins the store. -/
theorem launchLane_eq :
    c.launchLane d p a b s u l =
      (if launchStatus c u ((c.v s l a).toNat % 65536) = 0 then
          u.setPart c.part { u.part c.part with store := (u.part c.part).store ++ [launched c a b s l] }
        else u).writeLanes c.gk (1#32 <<< l) fun _ =>
          (Wr.v d (BitVec.ofNat 32 (launchStatus c u ((c.v s l a).toNat % 65536)))).and
            (.p p (launchStatus c u ((c.v s l a).toNat % 65536) == 0)) := by
  have hstatus : (if (c.v s l a).toNat % 2 ^ 16 > 63 then 2
      else if (c.l.classH && !(u.queue c.part ((c.v s l a).toNat % 2 ^ 16)).classH) = true then 3
      else if (u.part c.part).storeFree = 0 then 1 else 0) = launchStatus c u ((c.v s l a).toNat % 65536) := by
    simp only [launchStatus, storeFree_zero_iff, Bool.and_eq_true, Bool.not_eq_true', gt_iff_lt, Nat.reducePow]
  simp only [Ctx.launchLane, hstatus]
  rfl

theorem launchLane_runs (gk : Nat) : Runs gk u (c.launchLane d p a b s u l) := by
  rw [launchLane_eq]
  refine .trans ?_ (updAnyGroup_runs ..)
  split
  · exact .of_same rfl rfl
  · exact .refl gk u

end

theorem launch_advances {h : Hdr} {d a b p : Reg} {s : State} {c : Ctx} (hi : Issues (.launch h d a b p) s c) :
    ∃ t, exec (.launch h d a b p) s = .next t ∧
      Advanced c (.launch h d a b p) ((Mask.lanes (realActs (.launch h d a b p) s c)).foldl (c.launchLane d p a b s) s) t := by
  have hrun : exec (.launch h d a b p) s = execLaunch h d a b p s := rfl
  obtain ⟨g, hg⟩ := (foldl_runs c.gk (fun u l => launchLane_runs c d p a b s u l c.gk)
    (Mask.lanes (realActs (.launch h d a b p) s c)) s).group c.g (State.ctx_group hi.1)
  rw [hrun, execLaunch, issue_next hi]
  exact ⟨_, rfl, Ctx.advance_advanced c _ _ g hg⟩

/-! The tape (R272, R318). -/

theorem needMem_groups (s : State) (pa : Nat) : (s.needMem pa).groups = s.groups := by
  rw [State.needMem]
  split <;> rfl

theorem tryRequest_groups {s t : State} {op pkg d : Nat} {src : Src} {bs : List Byte} {r : Remote}
    (h : s.tryRequest op src pkg d bs r = some t) : t.groups = s.groups := by
  rw [State.tryRequest] at h
  split at h
  · cases h
  · obtain rfl := Option.some.inj h
    rfl

/-- A spilled record changes no group. -/
theorem spillTape_groups (s : State) (p n : Nat) (classH : Bool) (bs : List Byte) : (s.spillTape p n classH bs).groups = s.groups := by
  simp only [State.spillTape]
  split
  · rfl
  split
  next pa tag _ =>
    obtain ⟨r, hr⟩ := askHome_eq ((s.needMem pa).writeBytes tag pa bs)
      ⟨pa / 128, 1, duelOf classH, classH, 8 * (s.clustersOf p).headD 0, true, tag, none, 0⟩
    rw [State.askWrite, hr]
    exact (writeBytes_groups ..).trans (needMem_groups ..)
  next pkg d _ =>
    cases hreq : s.tryRequest 2 (.take p classH) pkg d bs { Remote.blank with va := tapeSlot (s.part p) n } with
    | none => rfl
    | some t => exact tryRequest_groups hreq
  · rfl

/-- A record that the tape spills to a mapped region is written there, and its home is asked (R318). -/
theorem spillTape_mem {s : State} {p n pa tag : Nat} (classH : Bool) (bs : List Byte) (hn : 64 ≤ n) (hpa : pa < hbmBytes)
    (hx : s.translate p (s.unitAgent p) .write (tapeSlot (s.part p) n) = .mem pa tag) :
    ∃ r, s.spillTape p n classH bs = { s.writeBytes tag pa bs with homeReqs := r } := by
  rw [State.spillTape, if_neg (Nat.not_lt.mpr hn), hx]
  simp only [needMem_of_lt hpa]
  exact askHome_eq ..

section
variable (c : Ctx) (d p b : Reg) (s u : State) (l : Nat)

/-- Neither the tape nor the store takes another record (R272, R317). -/
abbrev tapeFull (pt : Part) : Prop := 65600 ≤ pt.tape.length ∨ 4096 ≤ pt.store.length + pt.plsRes

theorem tapeOk_iff (pt : Part) : (decide (pt.tape.length < tapeMax) && decide (pt.storeFree ≠ 0)) = true ↔ ¬tapeFull pt := by
  rw [Bool.and_eq_true, decide_eq_true_eq, decide_eq_true_eq, not_or, Nat.not_le, ne_eq, storeFree_zero_iff, tapeMax]

/-- The partition's unit once a lane's record is on the tape. -/
def pushed (u : State) : State :=
  let pt := u.part c.part
  let bs := c.recordBytes s l b
  u.setPart c.part { pt with tape := pt.tape ++ [⟨bs, c.l.classH, recField bs 0x17 1⟩], plsRes := pt.plsRes + 1 }

variable {c d p b s u l}

theorem tapeLane_full (hfull : tapeFull (u.part c.part)) :
    c.tapeLane d p b s u l = u.writeLanes c.gk (1#32 <<< l) fun _ => (Wr.v d 1).and (.p p false) := by
  have hok : (decide ((u.part c.part).tape.length < tapeMax) && decide ((u.part c.part).storeFree ≠ 0)) = false := by
    rw [Bool.eq_false_iff]
    exact fun h => (tapeOk_iff _).mp h hfull
  simp only [Ctx.tapeLane, hok, Bool.false_eq_true, if_false]

theorem tapeLane_room (hroom : ¬tapeFull (u.part c.part)) :
    c.tapeLane d p b s u l =
      ((pushed c b s l u).spillTape c.part (u.part c.part).tape.length c.l.classH (c.recordBytes s l b)).writeLanes c.gk (1#32 <<< l)
        fun _ => (Wr.v d 0).and (.p p true) := by
  have hok := (tapeOk_iff _).mpr hroom
  simp only [Ctx.tapeLane, hok, if_true]
  rfl

theorem tapeLane_group {gk : Nat} (hg : ∃ g, u.group? gk = some g) : ∃ g, (c.tapeLane d p b s u l).group? gk = some g := by
  obtain ⟨g, hg⟩ := hg
  by_cases hfull : tapeFull (u.part c.part)
  · rw [tapeLane_full hfull]
    exact (updAnyGroup_runs gk c.gk u _).group g hg
  · rw [tapeLane_room hfull]
    refine (updAnyGroup_runs gk c.gk _ _).group g ?_
    rw [State.group?, spillTape_groups]
    exact hg

end

theorem tapePush_advances {h : Hdr} {d b p : Reg} {s : State} {c : Ctx} (hi : Issues (.tapePush h d b p) s c)
    (hs : ((Mask.lanes (realActs (.tapePush h d b p) s c)).foldl (c.tapeLane d p b s) s).stuck = none) :
    ∃ t, exec (.tapePush h d b p) s = .next t ∧
      Advanced c (.tapePush h d b p) ((Mask.lanes (realActs (.tapePush h d b p) s c)).foldl (c.tapeLane d p b s) s) t := by
  have hrun : exec (.tapePush h d b p) s = execTapePush h d b p s := rfl
  obtain ⟨g, hg⟩ : ∃ g, ((Mask.lanes (realActs (.tapePush h d b p) s c)).foldl (c.tapeLane d p b s) s).group? c.gk = some g :=
    List.foldlRecOn (motive := fun u : State => ∃ g, u.group? c.gk = some g) _ _ ⟨c.g, State.ctx_group hi.1⟩
      fun _ hu _ _ => tapeLane_group hu
  rw [hrun, execTapePush]
  exact ⟨_, issueMem_next hi ((advance_stuck ..).trans hs), Ctx.advance_advanced c _ _ g hg⟩

/-- Settles O32: a launch goes by its status (`launchLane_eq`), and a push by what room there is (`tapeLane_full`, `tapeLane_room`),
with its record in memory where the tape spills (`spillTape_mem`). -/
theorem launchAndTapeResult : Obligations.LaunchAndTapeResult := by
  unfold Obligations.LaunchAndTapeResult
  intro h d a b p s c
  refine ⟨launch_advances, fun hi _ hs => tapePush_advances hi hs, fun u l => ?launchLane, fun u l => ?tapeLane⟩
  case launchLane =>
    refine ⟨fun hw => ?_, fun hw => ⟨launched c a b s l, rfl, rfl, rfl, ?_⟩⟩
    · rw [launchLane_eq, if_neg hw, beq_false_of_ne hw]
    · rw [launchLane_eq, if_pos hw, hw]
      rfl
  case tapeLane =>
    refine ⟨tapeLane_full, fun hroom hfew => ?_, fun hroom hmany pa tag hpa hx => ?_⟩
    · rw [tapeLane_room hroom, State.spillTape, if_pos hfew]
      rfl
    · have hbase : tapeSlot ((pushed c b s l u).part c.part) (u.part c.part).tape.length =
          ((u.part c.part).tapeBase.toNat + 64 * ((u.part c.part).tape.length - 64)) % 2 ^ 55 := by
        rw [tapeSlot, pushed, State.part_setPart, if_pos rfl]
      obtain ⟨r, hr⟩ := spillTape_mem (s := pushed c b s l u) c.l.classH (c.recordBytes s l b) hmany hpa (hbase ▸ hx)
      exact ⟨r, by rw [tapeLane_room hroom, hr]; rfl⟩

end Sys2Proof.Laws
end

section
/-! PROOF. O47: the moments of waves, grants, placement, eviction, resume and migration (R46, R48, R51, R256, R342, R371, R372,
R386). -/

namespace Sys2Proof.Laws

open Sys2Proof Sys2Proof.Machine Sys2Proof.Claims

/-! Waves and leave (R256, R371, R372). -/

theorem waveDue_iff (s : State) (cl : Nat) : s.waveDue cl = true ↔ ∃ w ∈ (s.cluster cl).waves, w.at_ ≤ s.now := by
  simp only [State.waveDue, List.any_eq_true, decide_eq_true_eq]

theorem barrierWaveRelease_next (s : State) (cl : Nat) :
    exec (.barrierWaveRelease cl) s = .next (if ∃ w ∈ (s.cluster cl).waves, w.at_ ≤ s.now then s.releaseWave cl else s) := by
  have hrun : exec (.barrierWaveRelease cl) s = execBarrierWaveRelease cl s := rfl
  simp only [hrun, execBarrierWaveRelease, waveDue_iff]

/-- A wave without groups leaves its list, and nothing else changes. -/
theorem releaseWave_empty {s : State} {cl : Nat} {w : Wave} (hw : (s.cluster cl).waves = [w]) (hgks : w.gks = []) :
    s.releaseWave cl = s.setCluster cl { s.cluster cl with waves := [] } := by
  have hmin : minBy (fun w : Wave => w.at_) [w] = some w := rfl
  simp only [State.releaseWave, hw, hmin, hgks, List.erase_cons_head, List.foldl_nil]

theorem deplClear_waits {s : State} {cl : Nat} (h : (s.cluster cl).depl = false ∨ (s.cluster cl).level < (s.cluster cl).rcHigh) :
    exec (.deplClear cl) s = .next s := by
  have hrun : exec (.deplClear cl) s = execDeplClear cl s := rfl
  have hno : ((s.cluster cl).depl && decide ((s.cluster cl).level ≥ (s.cluster cl).rcHigh)) = false := by
    rcases h with h | h
    · rw [h, Bool.false_and]
    · rw [decide_eq_false (Nat.not_le.mpr h), Bool.and_false]
  simp only [hrun, execDeplClear, hno, Bool.false_eq_true, if_false]

theorem deplClear_clears {s : State} {cl : Nat} (hdepl : (s.cluster cl).depl = true)
    (hlevel : (s.cluster cl).rcHigh ≤ (s.cluster cl).level) :
    ∃ held, exec (.deplClear cl) s = .next (s.setCluster cl { s.cluster cl with depl := false, heldOps := held }) ∧
      ∀ k ∈ held, k ∈ (s.cluster cl).heldOps := by
  have hrun : exec (.deplClear cl) s = execDeplClear cl s := rfl
  have hyes : ((s.cluster cl).depl && decide ((s.cluster cl).level ≥ (s.cluster cl).rcHigh)) = true := by
    rw [hdepl, decide_eq_true hlevel, Bool.true_and]
  simp only [hrun, execDeplClear, hyes, if_true]
  refine ⟨_, rfl, fun k hk => ?_⟩
  obtain ⟨-, hheld⟩ := List.mem_filter.mp (List.mem_of_mem_drop hk)
  simpa using hheld

/-- Leave may be granted to a resident group that wants it, where its cluster is not depleted. -/
theorem canGrant_iff {s : State} {gk : Nat} {g : Group} (hg : s.group? gk = some g) :
    s.canGrant gk = true ↔ g.leaveWant ≠ 0 ∧ resident s (gk / 32) ∧ (s.cluster (s.coreOf gk / 8)).depl = false := by
  simp only [State.canGrant, hg, Bool.and_eq_true, bne_iff_ne, atHome_iff, Bool.not_eq_true', and_assoc]

section
variable {s : State} {gk : Nat} {g : Group} (hg : s.group? gk = some g)

include hg

theorem leaveGrant_grants (hres : resident s (gk / 32)) (hwant : g.leaveWant ≠ 0) (hdepl : (s.cluster (s.coreOf gk / 8)).depl = false) :
    exec (.leaveGrant gk) s = .next (s.updGroup gk fun g => { g with leaveHeld := g.leaveHeld ||| g.leaveWant, leaveWant := 0 }) := by
  have hrun : exec (.leaveGrant gk) s = execLeaveGrant gk s := rfl
  rw [hrun, execLeaveGrant, if_pos ((canGrant_iff hg).mpr ⟨hwant, hres, hdepl⟩)]

theorem leaveGrant_waits (h : ¬resident s (gk / 32) ∨ g.leaveWant = 0 ∨ (s.cluster (s.coreOf gk / 8)).depl = true) :
    exec (.leaveGrant gk) s = .next s := by
  have hrun : exec (.leaveGrant gk) s = execLeaveGrant gk s := rfl
  rw [hrun, execLeaveGrant, if_neg]
  intro hcan
  obtain ⟨hwant, hres, hdepl⟩ := (canGrant_iff hg).mp hcan
  rcases h with h | h | h
  · exact h hres
  · exact hwant h
  · rw [h] at hdepl
    cases hdepl

end

/-! Placement (R386). -/

theorem isRunning_iff (s : State) (p : Nat) : s.isRunning p = true ↔ (s.part p).pst = .running := decide_eq_true_iff

theorem teamPlacement_next (s : State) (p : Nat) :
    exec (.teamPlacement p) s = .next (if (s.part p).pst = .running then (s.placeFirst (s.placing p)).getD s else s) := by
  have hrun : exec (.teamPlacement p) s = execTeamPlacement p s := rfl
  simp only [hrun, execTeamPlacement, isRunning_iff]

/-- A team resumes on the core that fits it, if there is one (R51). -/
def resumedIfFits (s : State) (tuid : Nat) : State :=
  match s.resumeCore tuid with
  | some core => s.resumeOn tuid core
  | none => s

/-! Eviction, resume and migration (R46, R48, R51, R342). -/

section
variable {s : State} {tuid : Nat} {t : Team} {l : Launch} (ht : s.team? tuid = some t) (hl : s.launch? t.launch = some l)

include ht hl

theorem canEvict_iff :
    s.canEvict tuid = true ↔ t.tst = .resident ∧ l.classH = true ∧ (s.part l.part).pst = .running := by
  simp only [State.canEvict, ht, State.teamIsH, State.teamPart, hl, Bool.and_eq_true, beq_iff_eq, isRunning_iff, and_assoc]

theorem harvestEviction_evicts (hres : t.tst = .resident) (hH : l.classH = true) (hrun : (s.part l.part).pst = .running) :
    exec (.harvestEviction tuid) s = .next ([0, 1, 2, 3].foldl (fun u k => u.growStep t.core k) (s.evictTeam tuid)) := by
  have he : exec (.harvestEviction tuid) s = execHarvestEviction tuid s := rfl
  rw [he, execHarvestEviction, if_pos ((canEvict_iff ht hl).mpr ⟨hres, hH, hrun⟩), ht]
  rfl

theorem harvestEviction_waits (h : t.tst ≠ .resident ∨ l.classH = false ∨ (s.part l.part).pst ≠ .running) :
    exec (.harvestEviction tuid) s = .next s := by
  have he : exec (.harvestEviction tuid) s = execHarvestEviction tuid s := rfl
  rw [he, execHarvestEviction, if_neg]
  intro hcan
  obtain ⟨hres, hH, hrun⟩ := (canEvict_iff ht hl).mp hcan
  rcases h with h | h | h
  · exact h hres
  · rw [h] at hH
    cases hH
  · exact h hrun

theorem canResume_iff :
    s.canResume tuid = true ↔ t.tst = .evicted ∧ (s.part l.part).pst = .running ∧ s.teamLanded tuid = true := by
  simp only [State.canResume, ht, State.teamPart, hl, Bool.and_eq_true, beq_iff_eq, isRunning_iff, and_assoc]

theorem evictedTeamResume_waits (h : t.tst ≠ .evicted ∨ (s.part l.part).pst ≠ .running ∨ s.teamLanded tuid = false) :
    exec (.evictedTeamResume tuid) s = .next s := by
  have he : exec (.evictedTeamResume tuid) s = execEvictedTeamResume tuid s := rfl
  have hno : s.canResume tuid = false := by
    rw [Bool.eq_false_iff]
    intro hcan
    obtain ⟨hev, hrun, hland⟩ := (canResume_iff ht hl).mp hcan
    rcases h with h | h | h
    · exact h hev
    · exact h hrun
    · rw [h] at hland
      cases hland
  simp only [he, execEvictedTeamResume, hno, Bool.not_false, if_true]

/-- An evicted team that may resume does so on the core that fits it, where its spill was not reclaimed or each of its groups is in
a region. -/
theorem evictedTeamResume_resumes (hev : t.tst = .evicted) (hrun : (s.part l.part).pst = .running) (hland : s.teamLanded tuid = true)
    (hback : t.reclaimed = false ∨ (s.teamGroups tuid).all (fun x => !x.2.regions.isEmpty) = true) :
    exec (.evictedTeamResume tuid) s = .next (resumedIfFits s tuid) := by
  have he : exec (.evictedTeamResume tuid) s = execEvictedTeamResume tuid s := rfl
  have hyes : s.canResume tuid = true := (canResume_iff ht hl).mpr ⟨hev, hrun, hland⟩
  have hregion : (t.reclaimed && !(s.noRegion tuid).isEmpty) = false := by
    rcases hback with h | h
    · rw [h, Bool.false_and]
    · have hnone : s.noRegion tuid = [] := by
        rw [State.noRegion, List.filter_eq_nil_iff]
        intro x hx
        simpa using List.all_eq_true.mp h x hx
      rw [hnone]
      exact Bool.and_false _
  simp only [he, execEvictedTeamResume, hyes, ht, hregion, Bool.not_true, Bool.false_eq_true, if_false]
  rfl

/-- What Table 17-6 asks of a team's state, its partition, its clusters and its time at a place. -/
theorem canMove_conditions {core : Nat} (h : s.canMove tuid core = true) :
    t.tst = .resident ∧ (s.part l.part).mig = true ∧ (s.part l.part).pst = .running ∧
      (s.cluster (t.core / 8)).thr.toNat % 4096 ≤ (s.cluster (t.core / 8)).temp ∧
      (core / 8 = t.core / 8 ∨ (s.cluster (core / 8)).temp < (s.cluster (core / 8)).thr.toNat % 4096) ∧
      (s.cluster (core / 8)).part = l.part ∧ t.core ≠ core ∧ l.k.cshared = false ∧
      (l.classH = true ∨ (s.part l.part).migg = true) ∧ (t.movedAt = 0 ∨ 205000 ≤ s.now - t.movedAt) := by
  simp only [State.canMove, ht, hl, Bool.and_eq_true, Bool.or_eq_true, Bool.not_eq_true', beq_iff_eq, decide_eq_true_eq,
    decide_eq_false_iff_not, isRunning_iff, ge_iff_le, Nat.not_le, moveGap, Nat.reducePow, and_assoc] at h
  obtain ⟨hres, hmig, hrun, hhot, hcool, hpart, hcore, hshared, hclass, -, -, -, hgap, -⟩ := h
  exact ⟨hres, hmig, hrun, hhot, hcool, hpart, hcore, hshared, hclass.imp_right And.left, hgap⟩

theorem hotSpotMigration_waits {core : Nat}
    (h : t.tst ≠ .resident ∨ (s.part l.part).mig = false ∨ (s.part l.part).pst ≠ .running ∨
      (s.cluster (t.core / 8)).temp < (s.cluster (t.core / 8)).thr.toNat % 4096 ∨
      (core / 8 ≠ t.core / 8 ∧ (s.cluster (core / 8)).thr.toNat % 4096 ≤ (s.cluster (core / 8)).temp) ∨
      (s.cluster (core / 8)).part ≠ l.part ∨
      core = t.core ∨ l.k.cshared = true ∨ (l.classH = false ∧ (s.part l.part).migg = false) ∨
      (t.movedAt ≠ 0 ∧ s.now - t.movedAt < 205000)) :
    exec (.hotSpotMigration tuid core) s = .next s := by
  have he : exec (.hotSpotMigration tuid core) s = execHotSpotMigration tuid core s := rfl
  rw [he, execHotSpotMigration, if_neg]
  intro hcan
  obtain ⟨hres, hmig, hrun, hhot, hcool, hpart, hcore, hshared, hclass, hgap⟩ := canMove_conditions ht hl hcan
  rcases h with h | h | h | h | ⟨hfar, hwarm⟩ | h | h | h | ⟨hG, hno⟩ | ⟨hmoved, hsoon⟩
  · exact h hres
  · exact Bool.noConfusion (h.symm.trans hmig)
  · exact h hrun
  · exact Nat.not_le.mpr h hhot
  · exact hcool.elim hfar (Nat.not_lt.mpr hwarm)
  · exact h hpart
  · exact hcore h.symm
  · exact Bool.noConfusion (h.symm.trans hshared)
  · exact hclass.elim (fun hH => Bool.noConfusion (hG.symm.trans hH)) fun hm => Bool.noConfusion (hno.symm.trans hm)
  · exact hgap.elim hmoved (Nat.not_le.mpr hsoon)

end

theorem hotSpotMigration_cases (s : State) (tuid core : Nat) :
    exec (.hotSpotMigration tuid core) s = .next s ∨ exec (.hotSpotMigration tuid core) s = .next (s.moveTeam tuid core) := by
  have he : exec (.hotSpotMigration tuid core) s = execHotSpotMigration tuid core s := rfl
  rw [he, execHotSpotMigration]
  split
  · exact .inr rfl
  · exact .inl rfl

/-- Settles O47: each event goes by the test of its moment (`waveDue_iff`, `canGrant_iff`, `canEvict_iff`, `canResume_iff`,
`canMove_conditions`). -/
theorem residencyEvents : Obligations.ResidencyEvents := by
  unfold Obligations.ResidencyEvents
  refine fun s => ⟨fun cl => barrierWaveRelease_next s cl, fun cl w => releaseWave_empty, fun cl => ⟨deplClear_waits, deplClear_clears⟩,
    fun gk g hg => ⟨leaveGrant_grants hg, leaveGrant_waits hg⟩, fun p => ?placement, fun tuid t l ht hl => ?teams⟩
  case placement =>
    rw [teamPlacement_next]
    refine ⟨fun hstop => by rw [if_neg hstop], fun hrun t ht => by rw [if_pos hrun, ht]; rfl, fun hnone => ?_⟩
    rw [hnone, Option.getD_none, ite_self]
  case teams =>
    exact ⟨harvestEviction_evicts ht hl, harvestEviction_waits ht hl, evictedTeamResume_waits ht hl,
      fun hev hrun hland hkept => evictedTeamResume_resumes ht hl hev hrun hland (.inl hkept),
      fun hev hrun hland _ hin => evictedTeamResume_resumes ht hl hev hrun hland (.inr hin),
      fun core => ⟨hotSpotMigration_cases s tuid core, hotSpotMigration_waits ht hl⟩⟩

end Sys2Proof.Laws
end

section
/-! PROOF. O53: PREEMPT, SWAP, RESUME and time slices (R333-R336, R340, R341). -/

namespace Sys2Proof.Laws

open Sys2Proof Sys2Proof.Machine Sys2Proof.Claims

theorem withPart_part (s : State) (p q : Nat) (f : Part → Part) :
    (withPart s p f).part q = if p = q then f (s.part p) else s.part q := State.part_setPart ..

theorem withPart_self (s : State) (p : Nat) (f : Part → Part) : (withPart s p f).part p = f (s.part p) := by
  rw [withPart_part, if_pos rfl]

/-! PREEMPT (R333, R334). -/

section
variable {s : State} {p : Nat}

theorem preempt_refused (h : (s.part p).pst ≠ .running) : s.preempt p = withPart s p fun x => { x with res := 1 } := by
  rw [State.preempt, if_pos h]
  rfl

theorem preempt_held (h : (s.part p).pst = .running) (hhalt : s.anyHalted p = true) :
    s.preempt p = withPart s p fun x => { x with held := some 1 } := by
  rw [State.preempt, if_neg (not_not_intro h), if_pos hhalt]
  rfl

theorem preempt_stops (h : (s.part p).pst = .running) (hhalt : ¬s.anyHalted p = true) : s.preempt p = s.stopPart p := by
  rw [State.preempt, if_neg (not_not_intro h), if_neg hhalt]

theorem stopPart_stopping (s : State) (p : Nat) : ((s.stopPart p).part p).pst = .stopping := by
  rw [State.stopPart, State.part_setPart, if_pos rfl]

theorem exec_preempt (hp : p < 8) : exec (.preempt p) s = .next ((withPart s p fun x => { x with pcmdCmd := 1 }).preempt p) := by
  have hrun : exec (.preempt p) s = execPreempt p s := rfl
  rw [hrun, execPreempt, if_pos hp]
  rfl

theorem preemptSave_waits (hs : s.stuck = none) (h : s.stopDone p = false ∨ (s.part p).swapIn ≠ none) :
    exec (.preemptSave p) s = .next s := by
  have hrun : exec (.preemptSave p) s = execPreemptSave p s := rfl
  have hno : (s.stopDone p && (s.part p).swapIn.isNone) = false := by
    rcases h with h | h
    · rw [h, Bool.false_and]
    · rw [Option.isNone_eq_false_iff.mpr (Option.isSome_iff_ne_none.mpr h), Bool.and_false]
  rw [hrun, execPreemptSave, hno]
  exact outMem_next hs

theorem preemptSave_saves (hdone : s.stopDone p = true) (hin : (s.part p).swapIn = none)
    (hs : (((s.takeImage p false).saveTeams p .saved).writeSave p).stuck = none) :
    exec (.preemptSave p) s =
      .next (withPart (((s.takeImage p false).saveTeams p .saved).writeSave p) p fun x => { x with pst := .saved, res := 0 }) := by
  have hrun : exec (.preemptSave p) s = execPreemptSave p s := rfl
  rw [hrun, execPreemptSave, hdone, hin]
  exact outMem_next hs

end

/-! RESUME (R335, R374). -/

/-- Only banks, their bytes and presence bits, and channels differ. -/
def BanksOnly (s t : State) : Prop :=
  t = { s with banks := t.banks, sram := t.sram, absentLines := t.absentLines, chans := t.chans }

theorem BanksOnly.refl (s : State) : BanksOnly s s := rfl

theorem BanksOnly.trans {s t u : State} (h1 : BanksOnly s t) (h2 : BanksOnly t u) : BanksOnly s u := by
  unfold BanksOnly at *
  rw [h2, h1]

theorem foldl_banksOnly {α : Type} {f : State → α → State} (hf : ∀ s x, BanksOnly s (f s x)) (xs : List α) (s : State) :
    BanksOnly s (xs.foldl f s) :=
  List.foldlRecOn (motive := BanksOnly s) xs f (.refl s) fun _ hu x _ => hu.trans (hf _ x)

theorem freeBank_banksOnly (s : State) (b : Nat) : BanksOnly s (s.freeBank b) := rfl

theorem setBank_banksOnly (s : State) (b : Nat) (x : Bank) : BanksOnly s (s.setBank b x) := rfl

theorem giveWarm_banksOnly (s : State) (cl : Nat) : BanksOnly s (s.giveWarm cl) :=
  foldl_banksOnly (fun u b => setBank_banksOnly u b _) _ s

theorem giveRoles_banksOnly (s : State) (cl : Nat) : BanksOnly s (s.giveRoles cl) := by
  refine BanksOnly.trans (foldl_banksOnly (fun u b => ?_) _ s) (giveWarm_banksOnly ..)
  split
  · exact .refl u
  split
  · rfl
  · exact freeBank_banksOnly u b

section
variable {s : State} {p : Nat}

theorem exec_resume (hp : p < 8) : exec (.resume p) s = outMem ((withPart s p fun x => { x with pcmdCmd := 2 }).resumePart p) := by
  have hrun : exec (.resume p) s = execResume p s := rfl
  rw [hrun, execResume, if_pos hp]
  rfl

theorem resumePart_refused (h : (s.part p).pst ≠ .saved ∨ s.clustersOf p = []) :
    s.resumePart p = withPart s p fun x => { x with res := 1 } := by
  rw [State.resumePart, if_pos h]
  rfl

/-- An image that comes back changes no team and no group, and meets no address. -/
theorem imageStart_keeps (u : State) (p : Nat) :
    let t := (u.putImage p).startPart p
    t.stuck = u.stuck ∧ t.teams = u.teams ∧ t.groups = u.groups := ⟨rfl, rfl, rfl⟩

/-- A SAVED partition without an image runs with no team: its banks take their roles, and no group or team changes. -/
theorem resumePart_empty (hsaved : (s.part p).pst = .saved) (hcl : s.clustersOf p ≠ []) (himg : (s.part p).image = false) :
    let t := s.resumePart p
    t.stuck = s.stuck ∧ t.teams = s.teams ∧ t.groups = s.groups ∧ (t.part p).pst = .running ∧ (t.part p).res = 0 ∧
      (t.part p).image = false := by
  have hgo : ¬((s.part p).pst ≠ .saved ∨ s.clustersOf p = []) := not_or.mpr ⟨not_not_intro hsaved, hcl⟩
  have hrun : s.resumePart p = (((s.clustersOf p).foldl State.giveRoles s).putImage p).startPart p := by
    simp only [State.resumePart, if_neg hgo, himg, Bool.false_eq_true, if_false]
  have hroles : BanksOnly s ((s.clustersOf p).foldl State.giveRoles s) := foldl_banksOnly giveRoles_banksOnly _ s
  rw [hrun]
  generalize (s.clustersOf p).foldl State.giveRoles s = u at hroles
  obtain ⟨hstuck, hteams, hgroups⟩ := imageStart_keeps u p
  unfold BanksOnly at hroles
  refine ⟨hstuck.trans (by rw [hroles]), hteams.trans (by rw [hroles]), hgroups.trans (by rw [hroles]), ?_⟩
  rw [State.startPart, State.part_setPart, if_pos rfl, State.putImage, State.part_setPart, if_pos rfl]
  exact ⟨rfl, rfl, rfl⟩

end

/-! SWAP (R340, R341). -/

theorem swapRes_eq (s : State) (p inp : Nat) : s.swapRes p inp = swapResult s p inp := rfl

/-- The result of SWAP does not depend on the fields that note the command. -/
theorem swapResult_withPart (s : State) (p inp : Nat) {f : Part → Part}
    (hf : ∀ x, (f x).pst = x.pst ∧ (f x).swapIn = x.swapIn ∧ (f x).shape = x.shape) :
    swapResult (withPart s p f) p inp = swapResult s p inp := by
  have hpst : ∀ q, ((withPart s p f).part q).pst = (s.part q).pst := fun q => by
    rw [withPart_part]
    split
    next h => rw [(hf _).1, h]
    next => rfl
  have hin : ∀ q, ((withPart s p f).part q).swapIn = (s.part q).swapIn := fun q => by
    rw [withPart_part]
    split
    next h => rw [(hf _).2.1, h]
    next => rfl
  have hshape : ∀ q, ((withPart s p f).part q).shape = (s.part q).shape := fun q => by
    rw [withPart_part]
    split
    next h => rw [(hf _).2.2, h]
    next => rfl
  have hcl : (withPart s p f).clustersOf p = s.clustersOf p := rfl
  simp only [swapResult, hpst, hin, hshape, hcl]

section
variable {s : State} {p inp : Nat}

theorem swap_refused (h : swapResult s p inp ≠ 0) : s.swap p inp = withPart s p fun x => { x with res := swapResult s p inp } := by
  rw [State.swap, swapRes_eq, if_pos h]
  rfl

theorem swap_held (h : swapResult s p inp = 0) (hhalt : s.anyHalted p = true) :
    s.swap p inp = withPart s p fun x => { x with held := some (16 + inp) } := by
  rw [State.swap, swapRes_eq, if_neg (not_not_intro h), if_pos hhalt]
  rfl

theorem swap_stops (h : swapResult s p inp = 0) (hhalt : ¬s.anyHalted p = true) :
    s.swap p inp = withPart (s.stopPart p) p fun x => { x with swapIn := some inp, res := 0 } := by
  rw [State.swap, swapRes_eq, if_neg (not_not_intro h), if_neg hhalt]
  rfl

theorem exec_swap (hp : p < 8) :
    exec (.swap p inp) s = .next ((withPart s p fun x => { x with pcmdCmd := 3, pcmdIn := inp }).swap p inp) := by
  have hrun : exec (.swap p inp) s = execSwap p inp s := rfl
  rw [hrun, execSwap, if_pos hp]
  rfl

theorem swapExchange_waits (hs : s.stuck = none) (h : (s.part p).swapIn = none ∨ s.stopDone p = false) :
    exec (.swapExchange p) s = .next s := by
  have hrun : exec (.swapExchange p) s = execSwapExchange p s := rfl
  rw [hrun, execSwapExchange]
  cases hin : (s.part p).swapIn with
  | none => exact outMem_next hs
  | some k =>
    have hno : s.stopDone p = false := h.resolve_left (by rw [hin]; exact Option.some_ne_none k)
    simp only [hno, Bool.not_false, if_true]
    exact outMem_next hs

/-- Clusters change owner, and no access meets an address without memory. -/
theorem setOwner_stuck (cls : List Nat) (owner : Nat) (u : State) :
    (cls.foldl (fun v c => v.setCluster c { v.cluster c with part := owner }) u).stuck = u.stuck :=
  List.foldlRecOn (motive := fun v : State => v.stuck = u.stuck) cls _ rfl fun _ hv _ _ => hv

/-- A swap with IN = 8 gives the clusters away. -/
theorem swapExchange_out (hin : (s.part p).swapIn = some 8) (hdone : s.stopDone p = true) :
    let v := (s.shadowsOver (s.clustersOf p) [p, 8]).foldl State.loseShadow s
    let u := withPart ((v.takeImage p true).saveTeams p .shadow) p fun x => { x with pst := .shadow, swapIn := none, res := 0 }
    u.stuck = none →
      exec (.swapExchange p) s = .next ((s.clustersOf p).foldl (fun v c => v.setCluster c { v.cluster c with part := 15 }) u) := by
  intro v u hu
  have hrun : exec (.swapExchange p) s = execSwapExchange p s := rfl
  have hexec : exec (.swapExchange p) s =
      outMem ((s.clustersOf p).foldl (fun v c => v.setCluster c { v.cluster c with part := 15 }) u) := by
    simp only [hrun, execSwapExchange, hin, hdone, Bool.not_true, Bool.false_eq_true, if_false, Nat.lt_irrefl]
    rfl
  rw [hexec]
  exact outMem_next ((setOwner_stuck ..).trans hu)

end

/-! Time slices (R334, R335). -/

section
variable {s : State} {p : Nat}

theorem timeSlice_waits (h : (s.part p).tslice = 0 ∨ s.ptime < (s.part p).sliceStart + (s.part p).tslice.toNat) :
    exec (.timeSliceExpiry p) s = .next s := by
  have hrun : exec (.timeSliceExpiry p) s = execTimeSliceExpiry p s := rfl
  simp only [hrun, execTimeSliceExpiry, if_pos h]

/-- A slice that has passed begins anew, and the partition is pre-empted or swapped where TSACT is 1 or 2. -/
theorem timeSlice_passes (h0 : (s.part p).tslice ≠ 0) (h : (s.part p).sliceStart + (s.part p).tslice.toNat ≤ s.ptime) :
    let u := withPart s p fun x => { x with sliceStart := s.ptime }
    ((s.part p).tsact ≠ 1 → (s.part p).tsact ≠ 2 → exec (.timeSliceExpiry p) s = .next u) ∧
      ((s.part p).tsact = 1 → exec (.timeSliceExpiry p) s = .next (u.preempt p)) ∧
      ((s.part p).tsact = 2 → exec (.timeSliceExpiry p) s = .next (u.swap p (s.part p).pcmdIn)) := by
  intro u
  have hrun : exec (.timeSliceExpiry p) s = execTimeSliceExpiry p s := rfl
  have hgo : ¬((s.part p).tslice = 0 ∨ s.ptime < (s.part p).sliceStart + (s.part p).tslice.toNat) :=
    not_or.mpr ⟨h0, Nat.not_lt.mpr h⟩
  refine ⟨fun h1 h2 => ?_, fun h1 => ?_, fun h2 => ?_⟩
  · simp only [hrun, execTimeSliceExpiry, if_neg hgo]
    rfl
  · simp only [hrun, execTimeSliceExpiry, if_neg hgo]
    split
    next => rfl
    next h2 => exact absurd (h1.symm.trans h2) (by decide)
    next hne _ => exact absurd h1 hne
  · simp only [hrun, execTimeSliceExpiry, if_neg hgo]
    split
    next h1 => exact absurd (h1.symm.trans h2) (by decide)
    next => rfl
    next hne => exact absurd h2 hne

end

theorem preemptionEvents : PreemptionEvents := by
  intro s p hp hs pt pre res
  have hpre : (pre.part p).pst = pt.pst := by rw [withPart_self]
  have hres : res.part p = { pt with pcmdCmd := 2 } := withPart_self ..
  refine ⟨fun h => ?refused, fun h hh => ?held, fun h hh => ⟨?stops, stopPart_stopping pre p⟩, preemptSave_waits hs, preemptSave_saves,
    fun h => ?noResume, fun h hcl => ⟨fun himg => ?empty, fun hst => ?resumes⟩, fun inp => ?swap, swapExchange_waits hs,
    swapExchange_out, timeSlice_waits, timeSlice_passes⟩
  case refused => rw [exec_preempt hp, preempt_refused (hpre.trans_ne h)]
  case held => rw [exec_preempt hp, preempt_held (hpre.trans h) hh]
  case stops => rw [exec_preempt hp, preempt_stops (hpre.trans h) hh]
  case noResume =>
    rw [exec_resume hp, resumePart_refused (by rw [hres]; exact h)]
    exact outMem_next hs
  case empty =>
    obtain ⟨hstuck, hteams, hgroups, hpst, hzero, himage⟩ :=
      resumePart_empty (s := res) (p := p) (by rw [hres]; exact h) hcl (by rw [hres]; exact himg)
    exact ⟨_, (exec_resume hp).trans (outMem_next (hstuck.trans hs)), hpst, hzero, himage, hteams, hgroups⟩
  case resumes => exact (exec_resume hp).trans (outMem_next hst)
  case swap =>
    intro cmd r
    have hr : swapResult cmd p inp = r := swapResult_withPart s p inp fun _ => ⟨rfl, rfl, rfl⟩
    refine ⟨fun hne => ?_, fun h0 hh => ?_, fun h0 hh => ?_⟩
    · rw [exec_swap hp, swap_refused (hr.trans_ne hne), hr]
    · rw [exec_swap hp, swap_held (hr.trans h0) hh]
    · rw [exec_swap hp, swap_stops (hr.trans h0) hh]

/-! Debugging (R278, R333). -/

section
variable {s : State} {gk : Nat} {g : Group} (hg : s.group? gk = some g)

include hg

theorem debugHalt_halts (hend : g.ended = false) (hhome : s.atHome gk = true) (hdbg : (s.part (s.partOf gk)).debugger = true) :
    exec (.debugHalt gk) s = .next (s.updGroup gk fun g => { g with halted := true }) := by
  have hrun : exec (.debugHalt gk) s = execDebugHalt gk s := rfl
  simp only [hrun, execDebugHalt, hg, hend, hhome, hdbg, Bool.not_true, Bool.or_false, Bool.false_eq_true, if_false]

theorem debugHalt_refused (h : g.ended = true ∨ s.atHome gk = false ∨ (s.part (s.partOf gk)).debugger = false) :
    exec (.debugHalt gk) s = .next s := by
  have hrun : exec (.debugHalt gk) s = execDebugHalt gk s := rfl
  have hno : (g.ended || !s.atHome gk || !(s.part (s.partOf gk)).debugger) = true := by
    rcases h with h | h | h <;> simp [h]
  simp only [hrun, execDebugHalt, hg, hno, if_true]

theorem debugRelease_idle (hrun : g.halted = false) : exec (.debugRelease gk) s = .next s := by
  have he : exec (.debugRelease gk) s = execDebugRelease gk s := rfl
  simp only [he, execDebugRelease, hg, hrun, Bool.not_false, if_true]

/-- A group that is let go, and that stands at no `trap` or `brk`, goes on where no command is held for it. -/
theorem debugRelease_goes (hhalt : g.halted = true) (hstop : g.stopped = false) (hnext : g.trapNext = none)
    (hheld : (s.part (s.partOf gk)).held = none) :
    exec (.debugRelease gk) s = .next (s.updGroup gk fun g => { g with halted := false }) := by
  have he : exec (.debugRelease gk) s = execDebugRelease gk s := rfl
  have hpass : (s.updGroup gk fun g => { g with halted := false }).passTrap gk = s.updGroup gk fun g => { g with halted := false } := by
    simp only [State.passTrap, State.group_updGroup, if_true, hg, Option.map_some, hnext]
  have hgo : ∀ u : State, (u.part (u.partOf gk)).held = none → u.goHeld (u.partOf gk) = u := fun u hu => by
    simp only [State.goHeld, hu, ite_self]
  simp only [he, execDebugRelease, hg, hhalt, hstop, Bool.not_true, Bool.false_eq_true, if_false, hpass]
  exact congrArg _ (hgo _ hheld)

end

/-! Clusters that change hands (R328). -/

/-- The owner of a cluster may give it away: none, or a SAVED partition with no team on its cores or evicted from them. -/
def mayGive (s : State) (cur : Nat) : Prop :=
  cur = 15 ∨ ((s.part cur).pst = .saved ∧ ∀ x ∈ s.teamsOf cur, x.2.tst ≠ .resident ∧ x.2.tst ≠ .evicted)

/-- A partition may take a cluster: none, a SAVED one, or one without a cluster. -/
def mayTake (s : State) (target : Nat) : Prop :=
  target = 15 ∨ (s.part target).pst = .saved ∨ s.partExists target = false

theorem mayMove_iff (s : State) (cl target : Nat) : s.mayMove cl target = true ↔ mayGive s (s.cluster cl).part ∧ mayTake s target := by
  simp only [State.mayMove, mayGive, mayTake, Bool.and_eq_true, Bool.or_eq_true, Bool.not_eq_true', beq_iff_eq, List.any_eq_false, or_assoc,
    not_or, ne_eq]

/-- The partition that gives its last cluster away: no other cluster is its own. -/
def isLast (s : State) (cl cur : Nat) : Prop := cur < 8 ∧ ∀ c, c < 48 → c ≠ cl → (s.cluster c).part ≠ cur

/-- A bank after its reset: POOL, in DEEP. -/
def Freed (s : State) (b : Nat) : Prop := (s.bank b).mode = .pool ∧ (s.bank b).pwr = .deep

/-- One bank of a cluster that changes hands. -/
def scrubBank (s : State) (b : Nat) : State := if s.bringUp b then s else s.freeBank b

theorem scrubBank_banksOnly (s : State) (b : Nat) : BanksOnly s (scrubBank s b) := by
  rw [scrubBank]
  split
  · exact .refl s
  · exact freeBank_banksOnly s b

theorem freeBank_freed (s : State) (b : Nat) : Freed (s.freeBank b) b := by
  rw [Freed, State.freeBank, State.bank_setBank, if_pos rfl]
  exact ⟨rfl, rfl⟩

theorem scrubBank_freed_of_freed {s : State} {b : Nat} (h : Freed s b) (d : Nat) : Freed (scrubBank s d) b := by
  rw [scrubBank]
  split
  · exact h
  · by_cases hd : d = b
    · rw [hd]
      exact freeBank_freed s b
    · rw [Freed, State.freeBank, State.bank_setBank, if_neg hd]
      exact h

theorem scrubBank_bringUp (s : State) (d b : Nat) : (scrubBank s d).bringUp b = s.bringUp b := by
  rw [scrubBank]
  split <;> rfl

/-- Every bank of a list is freed, but for those of the bring-up store. -/
theorem scrubBanks_freed {bs : List Nat} {b : Nat} (hb : b ∈ bs) {s : State} (hup : s.bringUp b = false) :
    Freed (bs.foldl scrubBank s) b := by
  induction bs generalizing s with
  | nil => cases hb
  | cons d ds ih =>
    rw [List.foldl_cons]
    rcases List.mem_cons.mp hb with rfl | hb
    · refine List.foldlRecOn (motive := fun u => Freed u b) ds scrubBank ?_ fun u hu d _ => scrubBank_freed_of_freed hu d
      rw [scrubBank, hup]
      exact freeBank_freed s b
    · exact ih hb ((scrubBank_bringUp ..).trans hup)

theorem withChans_banksOnly (s : State) (chs : SMap Chan) : BanksOnly s { s with chans := chs } := rfl

theorem withChans_bank (s : State) (chs : SMap Chan) (b : Nat) : ({ s with chans := chs } : State).bank b = s.bank b := rfl

theorem scrubCluster_eq (s : State) (cl : Nat) : ∃ chs, s.scrubCluster cl = { (span (64 * cl) 64).foldl scrubBank s with chans := chs } := by
  have hf : scrubBank = fun s b => if s.bringUp b then s else s.freeBank b := rfl
  rw [State.scrubCluster, hf]
  exact ⟨_, rfl⟩

theorem scrubCluster_banksOnly (s : State) (cl : Nat) : BanksOnly s (s.scrubCluster cl) := by
  obtain ⟨chs, h⟩ := scrubCluster_eq s cl
  rw [h]
  exact (foldl_banksOnly scrubBank_banksOnly _ s).trans (withChans_banksOnly _ chs)

theorem scrubCluster_freed {s : State} {cl b : Nat} (hlow : 64 * cl ≤ b) (hhigh : b < 64 * cl + 64) (hup : s.bringUp b = false) :
    Freed (s.scrubCluster cl) b := by
  obtain ⟨chs, h⟩ := scrubCluster_eq s cl
  rw [Freed, h, withChans_bank]
  exact scrubBanks_freed ((mem_span ..).mpr ⟨hlow, hhigh⟩) hup

/-- A partition configured anew counts its takes from 1 (R314). -/
def countAnew (s : State) (target : Nat) : State :=
  if target < 8 ∧ !s.partExists target ∧ (s.part target).pst = .saved then
    s.setPart target { s.part target with nextTake := 1 } else s

theorem countAnew_parts (s : State) (target : Nat) : countAnew s target = { s with parts := (countAnew s target).parts } := by
  rw [countAnew]
  split <;> rfl

/-- A state whose partitions' units alone differ has the same memory, clusters, banks and launches. -/
theorem same_of_parts {s t : State} (h : t = { s with parts := t.parts }) :
    t.mem = s.mem ∧ t.launches = s.launches ∧ t.svc = s.svc ∧ (∀ c, t.cluster c = s.cluster c) ∧ ∀ b, t.bank b = s.bank b := by
  rw [h]
  exact ⟨rfl, rfl, rfl, fun _ => rfl, fun _ => rfl⟩

theorem BanksOnly.same {s t : State} (h : BanksOnly s t) :
    t.mem = s.mem ∧ t.launches = s.launches ∧ ∀ c, t.cluster c = s.cluster c := by
  unfold BanksOnly at h
  rw [h]
  exact ⟨rfl, rfl, fun _ => rfl⟩

theorem setCluster_bank (s : State) (c b : Nat) (x : Cluster) : (s.setCluster c x).bank b = s.bank b := rfl

theorem setCluster_keeps (s : State) (c : Nat) (x : Cluster) :
    (s.setCluster c x).mem = s.mem ∧ (s.setCluster c x).launches = s.launches := ⟨rfl, rfl⟩

/-- A cluster with its banks reset, in its new owner's hands. -/
def handedOver (s : State) (cl target : Nat) : State :=
  ((countAnew s target).scrubCluster cl).setCluster cl { (countAnew s target).cluster cl with part := target, waves := [] }

section
variable {s : State} {cl target : Nat}

theorem handedOver_cluster (c : Nat) :
    (handedOver s cl target).cluster c = if cl = c then { s.cluster cl with part := target, waves := [] } else s.cluster c := by
  obtain ⟨-, -, hscrub⟩ := (scrubCluster_banksOnly (countAnew s target) cl).same
  obtain ⟨-, -, -, hcount, -⟩ := same_of_parts (countAnew_parts s target)
  rw [handedOver, State.cluster_setCluster, hscrub, hcount, hcount]

theorem handedOver_keeps : (handedOver s cl target).mem = s.mem ∧ (handedOver s cl target).launches = s.launches := by
  obtain ⟨hmem, hlaunches, -⟩ := (scrubCluster_banksOnly (countAnew s target) cl).same
  obtain ⟨hmem', hlaunches', -⟩ := same_of_parts (countAnew_parts s target)
  obtain ⟨h1, h2⟩ := setCluster_keeps ((countAnew s target).scrubCluster cl) cl
    { (countAnew s target).cluster cl with part := target, waves := [] }
  exact ⟨h1.trans (hmem.trans hmem'), h2.trans (hlaunches.trans hlaunches')⟩

theorem handedOver_freed {b : Nat} (hlow : 64 * cl ≤ b) (hhigh : b < 64 * cl + 64) (hup : s.bringUp b = false) :
    Freed (handedOver s cl target) b := by
  obtain ⟨-, -, hsvc, -⟩ := same_of_parts (countAnew_parts s target)
  have hup' : (countAnew s target).bringUp b = false := by rw [State.bringUp, hsvc]; exact hup
  rw [Freed, handedOver, setCluster_bank]
  exact scrubCluster_freed hlow hhigh hup'

/-- The old owner is without a cluster just where it gave its last one away. -/
theorem handedOver_gone_iff {cur : Nat} (hcur : cur ≠ target) :
    (decide (cur < 8) && !(handedOver s cl target).partExists cur) = true ↔ isLast s cl cur := by
  simp only [isLast, State.partExists, Bool.and_eq_true, decide_eq_true_eq, Bool.not_eq_true', List.any_eq_false, mem_span, beq_iff_eq,
    handedOver_cluster]
  refine and_congr_right fun _ => ⟨fun h c hc hne => ?_, fun h c hc => ?_⟩
  · have := h c ⟨Nat.zero_le c, by omega⟩
    rwa [if_neg hne.symm] at this
  · by_cases hne : cl = c
    · rw [if_pos hne]
      exact hcur.symm
    · rw [if_neg hne]
      exact h c (by omega) (Ne.symm hne)

end

/-- A partition without a cluster: its launches end, and it is SAVED without an image (R328). -/
def emptied (s : State) (cur : Nat) : State :=
  let u := (s.launches.filter fun x => x.2.part == cur && !x.2.ended).foldl (fun u x => u.killLaunch x.1) s
  u.setPart cur { u.part cur with
    pst := .saved, image := false, bankImage := [], sramImage := [], absentImage := [], chanImage := [], shape := [] }

theorem emptied_part (s : State) (cur : Nat) : ((emptied s cur).part cur).pst = .saved ∧ ((emptied s cur).part cur).image = false := by
  rw [emptied, State.part_setPart, if_pos rfl]
  exact ⟨rfl, rfl⟩

/-- Where its launches have ended, only the partition's unit changes. -/
theorem emptied_of_ended {s : State} {cur : Nat} (h : ∀ x ∈ s.launches, x.2.part = cur → x.2.ended = true) :
    emptied s cur = { s with parts := (emptied s cur).parts } := by
  have hnone : (s.launches.filter fun x => x.2.part == cur && !x.2.ended) = [] := by
    rw [List.filter_eq_nil_iff]
    rintro x hx hlive
    simp only [Bool.and_eq_true, beq_iff_eq, Bool.not_eq_true'] at hlive
    exact Bool.noConfusion ((h x hx hlive.1).symm.trans hlive.2)
  rw [emptied, hnone]
  rfl

section
variable {s : State} {cl : Nat} {v : Word}

theorem clpartWrite_refused
    (h : 48 ≤ cl ∨ (8 ≤ v.toNat % 16 ∧ v.toNat % 16 < 15) ∨ ¬mayGive s (s.cluster cl).part ∨ ¬mayTake s (v.toNat % 16) ∨
      (s.cluster cl).part = v.toNat % 16) : exec (.clpartWrite cl v) s = .next s := by
  have hrun : exec (.clpartWrite cl v) s = .next (s.writeClpart cl v) := rfl
  rw [hrun, State.writeClpart]
  by_cases hbad : cl ≥ 48 ∨ (8 ≤ v.toNat % 16 ∧ v.toNat % 16 ≠ 15) ∨ (!s.mayMove cl (v.toNat % 16)) = true
  · rw [if_pos hbad]
  · rw [if_neg hbad, if_pos]
    simp only [not_or, Bool.not_eq_true', Bool.not_eq_false, mayMove_iff] at hbad
    obtain ⟨hcl, htarget, hgive, htake⟩ := hbad
    rcases h with h | ⟨h8, h15⟩ | h | h | h
    · exact absurd h hcl
    · exact absurd ⟨h8, Nat.ne_of_lt h15⟩ htarget
    · exact absurd hgive h
    · exact absurd htake h
    · exact h

/-- A write that no row turns away hands the cluster over; a partition that gives its last one away is emptied. -/
theorem clpartWrite_moves (hcl : cl < 48) (htarget : v.toNat % 16 < 8 ∨ v.toNat % 16 = 15) (hgive : mayGive s (s.cluster cl).part)
    (htake : mayTake s (v.toNat % 16)) (hne : (s.cluster cl).part ≠ v.toNat % 16) :
    ∃ t, exec (.clpartWrite cl v) s = .next t ∧
      (isLast s cl (s.cluster cl).part → t = emptied (handedOver s cl (v.toNat % 16)) (s.cluster cl).part) ∧
      (¬isLast s cl (s.cluster cl).part → t = handedOver s cl (v.toNat % 16)) := by
  have hgo : ¬(cl ≥ 48 ∨ (8 ≤ v.toNat % 16 ∧ v.toNat % 16 ≠ 15) ∨ (!s.mayMove cl (v.toNat % 16)) = true) := by
    simp only [not_or, Bool.not_eq_true', Bool.not_eq_false, mayMove_iff]
    exact ⟨by omega, by omega, hgive, htake⟩
  have hrun : exec (.clpartWrite cl v) s = .next (s.writeClpart cl v) := rfl
  have hwrite : s.writeClpart cl v =
      if (decide ((s.cluster cl).part < 8) && !(handedOver s cl (v.toNat % 16)).partExists (s.cluster cl).part) = true then
        emptied (handedOver s cl (v.toNat % 16)) (s.cluster cl).part
      else handedOver s cl (v.toNat % 16) := by
    simp only [State.writeClpart, if_neg hgo, if_neg hne, handedOver, countAnew, emptied]
  have hgone := handedOver_gone_iff (s := s) (cl := cl) hne
  exact ⟨_, hrun, fun h => hwrite.trans (if_pos (hgone.mpr h)), fun h => hwrite.trans (if_neg (mt hgone.mp h))⟩

end

theorem debugAndClusterEvents : DebugAndClusterEvents := by
  refine fun s => ⟨fun p on hp => ?attach,
    fun gk g hg => ⟨debugHalt_halts hg, debugHalt_refused hg, debugRelease_idle hg, debugRelease_goes hg⟩,
    fun cl v => ⟨clpartWrite_refused, fun hcl htarget hgive htake hne => ?moves⟩⟩
  case attach =>
    have hrun : exec (.debuggerAttach p on) s = execDebuggerAttach p on s := rfl
    rw [hrun, execDebuggerAttach, if_pos hp]
    rfl
  case moves =>
    obtain ⟨t, ht, hgone, hstays⟩ := clpartWrite_moves hcl htarget hgive htake hne
    obtain ⟨hmem, hlaunches⟩ := handedOver_keeps (s := s) (cl := cl) (target := v.toNat % 16)
    refine ⟨t, ht, fun h => ?_, fun h => ?_⟩
    · obtain ⟨hpst, himage⟩ := emptied_part (handedOver s cl (v.toNat % 16)) (s.cluster cl).part
      rw [← hgone h] at hpst himage
      exact ⟨hpst, himage⟩
    have hparts : t = { handedOver s cl (v.toNat % 16) with parts := t.parts } := by
      by_cases hlast : isLast s cl (s.cluster cl).part
      · rw [hgone hlast]
        refine emptied_of_ended fun x hx => ?_
        rw [hlaunches] at hx
        exact h.resolve_left (not_not_intro hlast) x hx
      · rw [hstays hlast]
    obtain ⟨hmem', -, -, hcluster, hbank⟩ := same_of_parts hparts
    refine ⟨?_, fun c hc => ?_, hmem'.trans hmem, fun b hlow hhigh hup => ?_⟩
    · rw [hcluster, handedOver_cluster, if_pos rfl]
    · rw [hcluster, handedOver_cluster, if_neg (Ne.symm hc)]
    · rw [hbank]
      exact handedOver_freed hlow hhigh hup

/-- Settles O53: pre-emption, swaps, resumes and time slices go by `preemptionEvents`, the debugger by `debugRelease_goes`, and a
cluster that changes hands by `clpartWrite_moves`. -/
theorem preemptionAndDebugEvents : Obligations.PreemptionAndDebugEvents := by
  unfold Obligations.PreemptionAndDebugEvents
  exact ⟨preemptionEvents, debugAndClusterEvents⟩

end Sys2Proof.Laws
end
